-- ==== Sys2Proof/Word.lean ====
section
/-!
DEFINITION. The word types of the CH3 (R5): bytes, halves, words, doubles, lane masks and register-space
indices. Nothing here computes more than plain bit-vector arithmetic.
-/

namespace Sys2Proof

/-- A byte is 8 bits (R5). -/
abbrev Byte := BitVec 8
/-- A half is 16 bits (R5). -/
abbrev Half := BitVec 16
/-- A word is 32 bits (R5). -/
abbrev Word := BitVec 32
/-- A double is 64 bits (R5). -/
abbrev Double := BitVec 64
/-- One bit for each of a course's 32 lanes (R50). -/
abbrev Lanes := BitVec 32

/-- What every lane of a spent register reads (R61). -/
def spentWord : Word := 0x7FF0DEAD#32

end Sys2Proof
end

