-- ==== Sys2Proof/Machine/Bits.lean ====
section
/-!
DEFINITION. Helpers used by every part of the machine: tables keyed by a number, cells with a default value,
lane masks, bit fields and little-endian byte order (R5, R8).
-/

namespace Sys2Proof.Machine

/-- A table of records, keyed by a number; keys rise strictly in the form every operation keeps. -/
abbrev Assoc (α : Type) := List (Nat × α)

/-- The entry of key `k`. -/
def find? {α : Type} : Assoc α → Nat → Option α
  | [], _ => none
  | (a, v) :: t, k => if a = k then some v else find? t k

/-- Put `v` at key `k`. -/
def put {α : Type} : Assoc α → Nat → α → Assoc α
  | [], k, v => [(k, v)]
  | (a, w) :: t, k, v =>
    if a = k then (k, v) :: t else if k < a then (k, v) :: (a, w) :: t else (a, w) :: put t k v

/-- Take key `k` out. -/
def del {α : Type} : Assoc α → Nat → Assoc α
  | [], _ => []
  | (a, w) :: t, k => if a = k then del t k else (a, w) :: del t k

/-- Every key of `m` is above `lo`, and they rise strictly. -/
def keysAbove {α : Type} : Nat → Assoc α → Bool
  | _, [] => true
  | lo, (a, _) :: t => decide (lo < a) && keysAbove a t

/-- Keys rise strictly. -/
def rising {α : Type} : Assoc α → Bool
  | [] => true
  | (a, _) :: t => keysAbove a t

/-- Cells with a default: an unlisted key reads as the default. -/
abbrev Cells (α : Type) := List (Nat × α)

/-- The value of cell `k`, where an unlisted cell reads `d`. -/
def cget {α : Type} (d : α) (m : Cells α) (k : Nat) : α := (find? m k).getD d

/-- Write cell `k`; writing the default takes the entry out, so equal contents are equal lists. -/
def cset {α : Type} [DecidableEq α] (d : α) (m : Cells α) (k : Nat) (v : α) : Cells α :=
  if v = d then del m k else put m k v

/-- The canonical form of cells: keys rise strictly and no entry equals the default. -/
def cellsWf {α : Type} [DecidableEq α] (d : α) (m : Cells α) : Bool :=
  rising m && m.all (fun e => decide (e.2 ≠ d))

/-- Write a run of cells from key `k` on. -/
def csetRun {α : Type} [DecidableEq α] (d : α) (m : Cells α) (k : Nat) : List α → Cells α
  | [] => m
  | v :: t => csetRun d (cset d m k v) (k + 1) t

/-- Read `n` cells from key `k` on. -/
def cgetRun {α : Type} (d : α) (m : Cells α) (k : Nat) : Nat → List α
  | 0 => []
  | n + 1 => cget d m k :: cgetRun d m (k + 1) n

/-- `n` cells from key `k` on, of cells whose keys rise from `k`. -/
def denseFrom {α : Type} (d : α) : Nat → Nat → Cells α → List α
  | 0, _, _ => []
  | n + 1, k, [] => d :: denseFrom d n (k + 1) []
  | n + 1, k, (a, v) :: t => if a = k then v :: denseFrom d n (k + 1) t else d :: denseFrom d n (k + 1) ((a, v) :: t)

/-- A long run of cells, read in one pass: of cells in canonical form, the values of `cgetRun`. -/
def crun {α : Type} (d : α) (m : Cells α) (k n : Nat) : List α := denseFrom d n k (m.dropWhile (fun e => e.1 < k))

/-- The cells from key 0 on that hold these values. -/
def sparse {α : Type} [DecidableEq α] (d : α) (l : List α) : Cells α :=
  l.zipIdx.filterMap (fun e => if e.1 = d then none else some (e.2, e.1))

/-- Write the cells of a list of keys and values, in list order. -/
def csetAll {α : Type} [DecidableEq α] (d : α) (m : Cells α) : List (Nat × α) → Cells α
  | [] => m
  | (k, v) :: t => csetAll d (cset d m k v) t

/-! ### Lane masks -/

/-- The lanes of a mask, in ascending order. -/
def lanesOf (m : Lanes) : List Nat := (List.range 32).filter (fun l => m.getLsbD l)

/-- The mask of the lanes for which `f` holds. -/
def maskOf (f : Nat → Bool) : Lanes :=
  (List.range 32).foldl (fun (m : Lanes) l => if f l then m ||| (1#32 <<< l) else m) 0

/-- The mask of one lane. -/
def bitLane (l : Nat) : Lanes := 1#32 <<< l

/-- Bit `l` of a mask. -/
def hasLane (m : Lanes) (l : Nat) : Bool := m.getLsbD l

/-- How many lanes a mask holds. -/
def countLanes (m : Lanes) : Nat := (lanesOf m).length

/-- The lowest lane of a mask. -/
def lowestLane (m : Lanes) : Option Nat := (lanesOf m).head?

/-- All 32 lanes. -/
def allLanes : Lanes := 0xFFFFFFFF#32

/-! ### Bit fields and byte order -/

/-- x[h:l] as a number (R8). -/
def bits (x h l : Nat) : Nat := (x / 2 ^ l) % 2 ^ (h - l + 1)

/-- Bit `n` of a number. -/
def bitAt (x n : Nat) : Bool := x.testBit n

/-- 1 or 0. -/
def b2n (b : Bool) : Nat := if b then 1 else 0

/-- The value of little-endian bytes (R5). -/
def natOfBytes : List Byte → Nat
  | [] => 0
  | b :: t => b.toNat + 256 * natOfBytes t

/-- `n` little-endian bytes of a number (R5). -/
def bytesOfNat : Nat → Nat → List Byte
  | 0, _ => []
  | n + 1, v => BitVec.ofNat 8 v :: bytesOfNat n (v / 256)

/-- The two's-complement value of the low `w` bits of `x`. -/
def toSigned (w x : Nat) : Int :=
  let y := x % 2 ^ w
  if y < 2 ^ (w - 1) then (y : Int) else (y : Int) - (2 ^ w : Nat)

/-- An integer modulo 2^w. -/
def ofSigned (w : Nat) (x : Int) : Nat := (x % ((2 ^ w : Nat) : Int)).toNat

/-- ceil(a / b). -/
def ceilDiv (a b : Nat) : Nat := (a + b - 1) / b

/-- `n` rounded up to a multiple of `k`. -/
def roundUp (n k : Nat) : Nat := ceilDiv n k * k

/-- Cut a list into pieces of `n` elements, by fuel. -/
def chunksOf {α : Type} (n : Nat) : Nat → List α → List (List α)
  | 0, _ => []
  | _, [] => []
  | f + 1, l => l.take n :: chunksOf n f (l.drop n)

/-- Change the element of index `i`. -/
def modifyAt {α : Type} : List α → Nat → (α → α) → List α
  | [], _, _ => []
  | a :: t, 0, f => f a :: t
  | a :: t, i + 1, f => a :: modifyAt t i f

/-- The first element for which `p` holds, and the list without it. -/
def takeFirst {α : Type} (p : α → Bool) : List α → Option (α × List α)
  | [] => none
  | a :: t =>
    if p a then some (a, t)
    else match takeFirst p t with
      | none => none
      | some (b, r) => some (b, a :: r)

end Sys2Proof.Machine
end

