-- ==== Sys2Proof/Machine/Crypto.lean ====
section
/-!
DEFINITION. SHA-512 (FIPS 180-4) and RSASSA-PSS (RFC 8017) with SHA-512, MGF1 with SHA-512 and a salt of 64 bytes, which R405
and R406 name.
-/

namespace Sys2Proof.Machine

/-! ### SHA-512 -/

/-- The round constants of SHA-512. -/
def shaRounds : List Double :=
  [0x428a2f98d728ae22#64, 0x7137449123ef65cd#64, 0xb5c0fbcfec4d3b2f#64, 0xe9b5dba58189dbbc#64,
   0x3956c25bf348b538#64, 0x59f111f1b605d019#64, 0x923f82a4af194f9b#64, 0xab1c5ed5da6d8118#64,
   0xd807aa98a3030242#64, 0x12835b0145706fbe#64, 0x243185be4ee4b28c#64, 0x550c7dc3d5ffb4e2#64,
   0x72be5d74f27b896f#64, 0x80deb1fe3b1696b1#64, 0x9bdc06a725c71235#64, 0xc19bf174cf692694#64] ++
  [0xe49b69c19ef14ad2#64, 0xefbe4786384f25e3#64, 0x0fc19dc68b8cd5b5#64, 0x240ca1cc77ac9c65#64,
   0x2de92c6f592b0275#64, 0x4a7484aa6ea6e483#64, 0x5cb0a9dcbd41fbd4#64, 0x76f988da831153b5#64,
   0x983e5152ee66dfab#64, 0xa831c66d2db43210#64, 0xb00327c898fb213f#64, 0xbf597fc7beef0ee4#64,
   0xc6e00bf33da88fc2#64, 0xd5a79147930aa725#64, 0x06ca6351e003826f#64, 0x142929670a0e6e70#64] ++
  [0x27b70a8546d22ffc#64, 0x2e1b21385c26c926#64, 0x4d2c6dfc5ac42aed#64, 0x53380d139d95b3df#64,
   0x650a73548baf63de#64, 0x766a0abb3c77b2a8#64, 0x81c2c92e47edaee6#64, 0x92722c851482353b#64,
   0xa2bfe8a14cf10364#64, 0xa81a664bbc423001#64, 0xc24b8b70d0f89791#64, 0xc76c51a30654be30#64,
   0xd192e819d6ef5218#64, 0xd69906245565a910#64, 0xf40e35855771202a#64, 0x106aa07032bbd1b8#64] ++
  [0x19a4c116b8d2d0c8#64, 0x1e376c085141ab53#64, 0x2748774cdf8eeb99#64, 0x34b0bcb5e19b48a8#64,
   0x391c0cb3c5c95a63#64, 0x4ed8aa4ae3418acb#64, 0x5b9cca4f7763e373#64, 0x682e6ff3d6b2b8a3#64,
   0x748f82ee5defb2fc#64, 0x78a5636f43172f60#64, 0x84c87814a1f0ab72#64, 0x8cc702081a6439ec#64,
   0x90befffa23631e28#64, 0xa4506cebde82bde9#64, 0xbef9a3f7b2c67915#64, 0xc67178f2e372532b#64] ++
  [0xca273eceea26619c#64, 0xd186b8c721c0c207#64, 0xeada7dd6cde0eb1e#64, 0xf57d4f7fee6ed178#64,
   0x06f067aa72176fba#64, 0x0a637dc5a2c898a6#64, 0x113f9804bef90dae#64, 0x1b710b35131c471b#64,
   0x28db77f523047d84#64, 0x32caab7b40c72493#64, 0x3c9ebe0a15c9bebc#64, 0x431d67c49c100d4c#64,
   0x4cc5d4becb3e42b6#64, 0x597f299cfc657e2a#64, 0x5fcb6fab3ad6faec#64, 0x6c44198c4a475817#64]

/-- The initial hash value of SHA-512. -/
def shaStart : List Double :=
  [0x6a09e667f3bcc908#64, 0xbb67ae8584caa73b#64, 0x3c6ef372fe94f82b#64, 0xa54ff53a5f1d36f1#64,
   0x510e527fade682d1#64, 0x9b05688c2b3e6c1f#64, 0x1f83d9abfb41bd6b#64, 0x5be0cd19137e2179#64]

/-- A number as `n` bytes, the most significant first. -/
def bigBytes (n x : Nat) : List Byte := (bytesOfNat n x).reverse

/-- The number that bytes give, the most significant first. -/
def bigNat (l : List Byte) : Nat := natOfBytes l.reverse

/-- A message with its padding: 0x80, zeros, and its length in bits. -/
def shaPad (l : List Byte) : List Byte :=
  l ++ 0x80#8 :: List.replicate ((239 - l.length % 128) % 128) 0#8 ++ bigBytes 16 (8 * l.length)

/-- The next word of the message schedule, from the latest sixteen, newest first. -/
def shaNext (w : List Double) : Double :=
  let a := w.getD 1 0
  let b := w.getD 14 0
  (a.rotateRight 19 ^^^ a.rotateRight 61 ^^^ (a >>> 6)) + w.getD 6 0
    + (b.rotateRight 1 ^^^ b.rotateRight 8 ^^^ (b >>> 7)) + w.getD 15 0

/-- The words after the latest sixteen, which stand newest first. -/
def shaExtend : Nat → List Double → List Double
  | 0, w => w
  | n + 1, w => shaExtend n (shaNext w :: w)

/-- One round, with a round constant and a word of the schedule. -/
def shaRound (h : List Double) (e : Double × Double) : List Double :=
  match h with
  | [a, b, c, d, e', f, g, k] =>
    let t1 := k + (e'.rotateRight 14 ^^^ e'.rotateRight 18 ^^^ e'.rotateRight 41) + ((e' &&& f) ^^^ (~~~e' &&& g)) + e.1 + e.2
    let t2 := (a.rotateRight 28 ^^^ a.rotateRight 34 ^^^ a.rotateRight 39) + ((a &&& b) ^^^ (a &&& c) ^^^ (b &&& c))
    [t1 + t2, a, b, c, d + t1, e', f, g]
  | l => l

/-- The hash value after one block of 128 bytes. -/
def shaBlock (h : List Double) (l : List Byte) : List Double :=
  let w := (shaExtend 64 ((List.range 16).map (fun i => BitVec.ofNat 64 (bigNat ((l.drop (8 * i)).take 8)))).reverse).reverse
  List.zipWith (· + ·) h ((shaRounds.zip w).foldl shaRound h)

/-- SHA-512 of a byte string: 64 bytes. -/
def sha512 (l : List Byte) : List Byte :=
  let p := shaPad l
  ((List.range (p.length / 128)).foldl (fun h i => shaBlock h ((p.drop (128 * i)).take 128)) shaStart).flatMap
    (fun w => bigBytes 8 w.toNat)

/-! ### RSASSA-PSS -/

/-- `b` to the power whose bits are listed, the least first, modulo `n`. -/
def powBits (n b : Nat) : List Bool → Nat
  | [] => 1 % n
  | x :: t =>
    let r := powBits n (b * b % n) t
    if x then r * b % n else r

/-- b^e mod n. -/
def powMod (b e n : Nat) : Nat := powBits n (b % n) ((List.range (Nat.log2 e + 1)).map e.testBit)

/-- MGF1 with SHA-512: `n` bytes of mask. -/
def maskBytes (seed : List Byte) (n : Nat) : List Byte :=
  ((List.range (n / 64 + 1)).flatMap (fun i => sha512 (seed ++ bigBytes 4 i))).take n

/-- H of a message and a salt: the SHA-512 of eight zero bytes, the message's own SHA-512 and the salt. -/
def pssHash (msg salt : List Byte) : List Byte := sha512 (List.replicate 8 0#8 ++ sha512 msg ++ salt)

/-- The bits above those of a modulus, in the first byte of an encoded message of 512 bytes, are clear. -/
def clearTop (bits : Nat) (l : List Byte) : List Byte :=
  match l with
  | [] => []
  | b :: t => BitVec.ofNat 8 (b.toNat % 2 ^ (8 - (4096 - bits))) :: t

/-- EMSA-PSS-ENCODE for a modulus of 4,096 bits: 512 bytes. -/
def pssEncode (msg salt : List Byte) : List Byte :=
  let h := pssHash msg salt
  let db := List.replicate 382 0#8 ++ 0x01#8 :: salt
  clearTop 4095 (List.zipWith (· ^^^ ·) db (maskBytes h 447)) ++ h ++ [0xBC#8]

/-- EMSA-PSS-VERIFY for a modulus of 4,096 bits. -/
def pssVerify (msg em : List Byte) : Bool :=
  let masked := em.take 447
  let h := (em.drop 447).take 64
  let db := clearTop 4095 (List.zipWith (· ^^^ ·) masked (maskBytes h 447))
  em.length == 512 && em.getLast? == some 0xBC#8 && clearTop 4095 masked == masked
    && db.take 383 == List.replicate 382 0#8 ++ [0x01#8] && pssHash msg (db.drop 383) == h

/-- RSASSA-PSS-SIGN with the private exponent `d`: 512 bytes. -/
def rsaSign (n d : Nat) (msg salt : List Byte) : List Byte := bigBytes 512 (powMod (bigNat (pssEncode msg salt)) d n)

/-- RSASSA-PSS-VERIFY with the public exponent `e`. -/
def rsaVerify (n e : Nat) (msg sig : List Byte) : Bool :=
  sig.length == 512 && decide (bigNat sig < n) && pssVerify msg (bigBytes 512 (powMod (bigNat sig) e n))

/-- A public key in the form of MBCMD OP 6: modulus of 512 bytes, exponent of 4 (R404). -/
def keyBytes (n e : Nat) : List Byte := bigBytes 512 n ++ bigBytes 4 e

end Sys2Proof.Machine
end

