-- ==== Sys2Proof/Machine/Flags.lean ====
section
/-!
DEFINITION. The sticky flags of SR_FPFLAGS (R68), as the masks that instructions contribute (R111).
-/

namespace Sys2Proof.Machine

/-- SR_FPFLAGS[5:0] (R68). -/
abbrev FpFlags := BitVec 6

/-- Invalid. -/
def flagNV : FpFlags := 1#6
/-- Divide by zero. -/
def flagDZ : FpFlags := 2#6
/-- Overflow. -/
def flagOF : FpFlags := 4#6
/-- Underflow. -/
def flagUF : FpFlags := 8#6
/-- Inexact. -/
def flagNX : FpFlags := 16#6
/-- A reserved Q code was read. -/
def flagQI : FpFlags := 32#6

/-- The flag where the condition holds. -/
def flagIf (b : Bool) (f : FpFlags) : FpFlags := if b then f else 0

/-- The OR of the lanes' flags (R111). -/
def orFlags (l : List FpFlags) : FpFlags := l.foldl (· ||| ·) 0

end Sys2Proof.Machine
end

