-- ==== Sys2Proof/Syntax.lean ====
section
/-!
DEFINITION. The syntax of the CH3: the operand forms of the Ralvas instructions (R54 to R60, R87) and ONE
inductive `Instr` with a constructor for each row of the table of operations and events. An instruction's
guard, wait marker and chain bit stand in the packet's mortar word (R78), not in the instruction.
-/

namespace Sys2Proof

/-- The 7-bit operand space (R54). -/
inductive RegName where
  /-- v0 to v95, per lane. -/
  | v (n : Fin 96)
  /-- s0 to s30, once per course. -/
  | s (n : Fin 31)
  /-- sz: reads zero, discards writes (R56). -/
  | sz
  deriving DecidableEq, Repr

/-- An operand hint (R60); 0b11 is no hint. -/
inductive Hint where
  | plain
  | keep
  | last
  deriving DecidableEq, Repr

/-- A 9-bit source field: a register and a hint (R87, R88). -/
structure Src where
  reg : RegName
  hint : Hint
  deriving DecidableEq, Repr

/-- p0 to p7 (R58). -/
abbrev PredName := BitVec 3

/-- A record or card block: 0, 1, 2 for s0, s8, s16 (R57, R73). -/
abbrev RecName := Fin 3

/-- Integer compare conditions, codes 0 to 9 (R107). -/
inductive IntCC where
  | eq | ne | lt | le | gt | ge | ltu | leu | gtu | geu
  deriving DecidableEq, Repr

/-- Floating-point compare conditions, codes 0 to 7 (R118). -/
inductive FpCC where
  | eq | ne | lt | le | gt | ge | ord | un
  deriving DecidableEq, Repr

/-- Number formats of CVT, codes 0 to 7 (R128). -/
inductive NumFmt where
  | fp32 | fp16 | bf16 | i32 | n32 | i16 | i8 | n8
  deriving DecidableEq, Repr

/-- Rounding modes, codes 0 to 4 (R113, R128). -/
inductive Rounding where
  | rne | rz | rp | rm | rna
  deriving DecidableEq, Repr

/-- QSW sub-ops 0 to 6 (R189). -/
inductive QuadOp where
  | h | v | d | b0 | b1 | b2 | b3
  deriving DecidableEq, Repr

/-- REDX sub-ops 0 to 10 (R190). -/
inductive RedOp where
  | iadd | imin | imax | umin | umax | iand | ior | ixor | fadd | fmin | fmax
  deriving DecidableEq, Repr

/-- SCAN sub-ops 0 to 5 (R191). -/
inductive ScanOp where
  | iadd | iaddx | fadd | imax | imin | ior
  deriving DecidableEq, Repr

/-- Atomic operations, codes 0 to 11 (R175). -/
inductive AtomOp where
  | add | sub | imin | imax | umin | umax | iand | ior | ixor | xch | cas | fadd
  deriving DecidableEq, Repr

/-- Scopes, codes 0 to 4 (R178, R276). -/
inductive Scope where
  | course | block | die | device | system
  deriving DecidableEq, Repr

/-- FENCE kinds, codes 0 to 3 (R178). -/
inductive FenceKind where
  | acq | rel | acqrel | seq
  deriving DecidableEq, Repr

/-- Tape value widths, codes 0 to 2 (R213). -/
inductive TapeWidth where
  | w32 | w64 | w16
  deriving DecidableEq, Repr

/-- What a remote device asks of this CH3 over the fabric (R293). -/
inductive RemoteOp where
  /-- A load of `len` bytes. -/
  | load (len : Nat)
  /-- A store of the request's data; the offsets of those that carry poison (R200). -/
  | store (poison : List Nat)
  /-- A 32-bit atomic; the request's data hold x, and for CAS the compare value then the new value. -/
  | atomic (op : AtomOp)
  /-- An int64 is stored, or has a value added modulo 2^64 (R18, R227). -/
  | storeWide (x : Double)
  | addWide (x : Double)
  deriving DecidableEq, Repr

/-- One constructor per row of the table of operations and events: the Ralvas instructions, the host's register
writes and the device's own events. The rows without operands stand last. -/
inductive Instr where
  /-- QCREATE (R11). -/
  | qcreate (p : BitVec 3) (v : Double)
  /-- QUEUE_CREATION_DONE (R11). -/
  | queueCreationDone (p : BitVec 3)
  /-- QDESTROY (R12). -/
  | qdestroy (p : BitVec 3) (v : Double)
  /-- QUEUE_DESTROY_DONE (R12). -/
  | queueDestroyDone (p : BitVec 3)
  /-- NOTIFY (R15). -/
  | notifyWrite (p : BitVec 3) (q : BitVec 8) (v : Double)
  /-- CONSUME_SLOT (R16). -/
  | consumeSlot (p : BitVec 3) (q : BitVec 8)
  /-- PACKET_START (R17). -/
  | packetStart (pkt : Nat)
  /-- SIGNAL (R18). -/
  | signalPacket (pkt : Nat)
  /-- COPY (R43). -/
  | copyPacket (pkt : Nat)
  /-- WAIT (R45). -/
  | waitPacket (pkt : Nat)
  /-- WAIT_RETEST (R45). -/
  | waitRetest (pkt : Nat)
  /-- BLOCK_PLACE (R236). -/
  | blockPlace (pkt : Nat)
  /-- LAUNCH_HOLDING (R303). -/
  | launchHolding (pkt : Nat)
  /-- BLOCK_LEAVE (R238). -/
  | blockLeave (blk : Nat)
  /-- LAUNCH_COMPLETE (R17). -/
  | launchComplete (pkt : Nat)
  /-- SUBMISSION_TAKE (R229). -/
  | submissionTake (asid : BitVec 16)
  /-- CSEL (R305). -/
  | csel (p : BitVec 3) (v : Double)
  /-- CSEL_CLEAR (R305). -/
  | cselClear (p : BitVec 3) (v : Double)
  /-- PGDONE (R374). -/
  | pgdone (p : BitVec 3) (v : Double)
  /-- PGDONE_ABORT (R374). -/
  | pgdoneAbort (p : BitVec 3) (v : Double)
  /-- CTXCTL_HALT (R390). -/
  | ctxctlHalt (p : BitVec 3) (v : Double)
  /-- HALT_COMPLETE (R390). -/
  | haltComplete (asid : BitVec 16)
  /-- CTXCTL_RESUME (R390). -/
  | ctxctlResume (p : BitVec 3) (v : Double)
  /-- CTXCTL_STEP (R390). -/
  | ctxctlStep (p : BitVec 3) (v : Double)
  /-- CTXCTL_SAVE (R390). -/
  | ctxctlSave (p : BitVec 3) (v : Double)
  /-- CTXCTL_REMOVE (R390). -/
  | ctxctlRemove (p : BitVec 3) (v : Double)
  /-- CTXCTL_DESTROY (R390). -/
  | ctxctlDestroy (p : BitVec 3) (v : Double)
  /-- CCREATE (R395). -/
  | ccreate (p : BitVec 3) (v : Double)
  /-- CONTEXT_CREATION_DONE (R395). -/
  | contextCreationDone (p : BitVec 3)
  /-- ACSEL (R396). -/
  | acsel (p : BitVec 3) (v : Double)
  /-- XINV (R397). -/
  | xinv (p : BitVec 3) (v : Double)
  /-- XINV_DONE (R397). -/
  | xinvDone (p : BitVec 3)
  /-- PCTL_ENABLE (R392). -/
  | pctlEnable (p : BitVec 3) (v : Double)
  /-- PCTL_DISABLE (R392). -/
  | pctlDisable (p : BitVec 3) (v : Double)
  /-- PARTITION_RESET (R393). -/
  | partitionReset (p : BitVec 3) (v : Double)
  /-- PARTITION_RESET_DONE (R393). -/
  | partitionResetDone (p : BitVec 3)
  /-- RAILMAP (R310). -/
  | railmap (v : Double)
  /-- INJPOISON (R320). -/
  | injpoison (v : Double)
  /-- INJDEAD_CHANNEL (R344). -/
  | injdeadChannel (v : Double)
  /-- INJDEAD_PSEUDO_CHANNEL (R344). -/
  | injdeadPseudoChannel (v : Double)
  /-- INJDEAD_BANK (R344). -/
  | injdeadBank (v : Double)
  /-- INJDEAD_STACK (R344). -/
  | injdeadStack (v : Double)
  /-- INJDEAD_RETRAIN_NOW (R344). -/
  | injdeadRetrainNow (v : Double)
  /-- ATTEST (R406). -/
  | attest (v : Double)
  /-- FWSTAGE (R404). -/
  | fwstage (v : Double)
  /-- FWCOMMIT (R405). -/
  | fwcommit (v : Double)
  /-- READ_LIFETIME_COUNTERS (R343). -/
  | readLifetimeCounters (v : Double)
  /-- CLEAR_REPAIR_ENTRIES (R342). -/
  | clearRepairEntries (v : Double)
  /-- READ_IDENTITY_KEY (R404). -/
  | readIdentityKey (v : Double)
  /-- REGISTER_WRITE (R6). -/
  | registerWrite (off : BitVec 26) (v : Double)
  /-- CLOCK_RAISE (R311). -/
  | clockRaise (k : Nat)
  /-- DROOP_STRETCH (R403). -/
  | droopStretch (k : Nat)
  /-- MARGIN_OFFSET_DECAY (R403). -/
  | marginOffsetDecay (k : Nat)
  /-- TIME_SLICE_EXPIRY (R376). -/
  | timeSliceExpiry (asid : BitVec 16)
  /-- PREEMPT (R376). -/
  | preempt (asid : BitVec 16)
  /-- SAVE_DEADLINE (R377). -/
  | saveDeadline (asid : BitVec 16)
  /-- SAVE_DONE (R377). -/
  | saveDone (asid : BitVec 16)
  /-- RESTORE (R379). -/
  | restoreBlocks (asid : BitVec 16)
  /-- RECOVERY_NOTICE (R401). -/
  | recoveryNotice (dev : BitVec 14)
  /-- RECOVERY_EXPIRY (R387). -/
  | recoveryExpiry (dev : BitVec 14)
  /-- REMOTE_ACCESS_DONE (R168, R199, R293): a remote device answers a request that it was sent: served or failed, the
  offsets of the bytes that come poisoned, and the bytes. -/
  | remoteAccessDone (dev id : Nat) (ok : Bool) (poison : List Nat) (data : List Byte)
  /-- LONG_WRITE_COMPLETE (R84). -/
  | longWriteComplete (blk c id : Nat)
  /-- BARRIER_COMPLETE (R148). -/
  | barrierComplete (blk : Nat) (id : BitVec 4)
  /-- PHASE_WAKE (R151). -/
  | phaseWake (blk c : Nat) (slot : BitVec 1)
  /-- ENGINE_ACCEPT (R195). -/
  | engineAccept (cmd : Nat)
  /-- ENGINE_START (R196). -/
  | engineStart (cmd : Nat)
  /-- ENGINE_COMPLETE (R198). -/
  | engineComplete (cmd : Nat)
  /-- TAPE_STAGE_BARRIER (R353). -/
  | tapeStageBarrier (blk c : Nat)
  /-- CHANNEL_FAIL (R329). -/
  | channelFail (kind : BitVec 2) (ch : BitVec 9) (pc : BitVec 1) (bank : BitVec 5)
  /-- FABRIC_PAUSE_FLIT (R399). -/
  | fabricPauseFlit (port : BitVec 5) (vl : BitVec 2)
  /-- FABRIC_RESUME_FLIT (R399). -/
  | fabricResumeFlit (port : BitVec 5) (vl : BitVec 2)
  /-- PAUSE_EXPIRY (R399). -/
  | pauseExpiry (port : BitVec 5) (vl : BitVec 2)
  /-- FLIT_REPLAY (R399). -/
  | flitReplay (port : BitVec 5) (vl : BitVec 2)
  /-- MODULE_REMOVE (R398). -/
  | moduleRemove (m : BitVec 2)
  /-- IADD (R101). -/
  | iadd (d : RegName) (a b : Src)
  /-- ISUB (R101). -/
  | isub (d : RegName) (a b : Src)
  /-- IMUL (R101). -/
  | imul (d : RegName) (a b : Src)
  /-- IMULHS (R101). -/
  | imulhs (d : RegName) (a b : Src)
  /-- IMULHU (R101). -/
  | imulhu (d : RegName) (a b : Src)
  /-- IMAD (R101). -/
  | imad (d : RegName) (a b : Src)
  /-- IADDS (R101). -/
  | iadds (d : RegName) (a b : Src)
  /-- ISUBS (R101). -/
  | isubs (d : RegName) (a b : Src)
  /-- IMIN (R101). -/
  | imin (d : RegName) (a b : Src)
  /-- IMAX (R101). -/
  | imax (d : RegName) (a b : Src)
  /-- UMIN (R101). -/
  | umin (d : RegName) (a b : Src)
  /-- UMAX (R101). -/
  | umax (d : RegName) (a b : Src)
  /-- AND (R101). -/
  | iand (d : RegName) (a b : Src)
  /-- OR (R101). -/
  | ior (d : RegName) (a b : Src)
  /-- XOR (R101). -/
  | ixor (d : RegName) (a b : Src)
  /-- ANDN (R101). -/
  | andn (d : RegName) (a b : Src)
  /-- SHL (R101). -/
  | shl (d : RegName) (a b : Src)
  /-- SHR (R101). -/
  | shr (d : RegName) (a b : Src)
  /-- SAR (R101). -/
  | sar (d : RegName) (a b : Src)
  /-- ROTL (R101). -/
  | rotl (d : RegName) (a b : Src)
  /-- BFX (R102). -/
  | bfx (d : RegName) (a b : Src)
  /-- BFXS (R102). -/
  | bfxs (d : RegName) (a b : Src)
  /-- BFI (R102). -/
  | bfi (d : RegName) (a b : Src)
  /-- DP4S (R103). -/
  | dp4s (d : RegName) (a b : Src)
  /-- DP4U (R103). -/
  | dp4u (d : RegName) (a b : Src)
  /-- IADD64 (R104). -/
  | iadd64 (d : RegName) (a b : Src)
  /-- ISUB64 (R104). -/
  | isub64 (d : RegName) (a b : Src)
  /-- IMULWS (R104). -/
  | imulws (d : RegName) (a b : Src)
  /-- IMULWU (R104). -/
  | imulwu (d : RegName) (a b : Src)
  /-- SHLW (R104). -/
  | shlw (d : RegName) (a b : Src)
  /-- SHRW (R104). -/
  | shrw (d : RegName) (a b : Src)
  /-- IADDI (R105). -/
  | iaddi (d : RegName) (a : Src) (imm : Word)
  /-- ANDI (R105). -/
  | andi (d : RegName) (a : Src) (imm : Word)
  /-- ORI (R105). -/
  | ori (d : RegName) (a : Src) (imm : Word)
  /-- XORI (R105). -/
  | xori (d : RegName) (a : Src) (imm : Word)
  /-- SHLI (R105). -/
  | shli (d : RegName) (a : Src) (imm : Word)
  /-- SHRI (R105). -/
  | shri (d : RegName) (a : Src) (imm : Word)
  /-- SARI (R105). -/
  | sari (d : RegName) (a : Src) (imm : Word)
  /-- MOVI (R105). -/
  | movi (d : RegName) (imm : Word)
  /-- LUI (R105). -/
  | lui (d : RegName) (imm : Word)
  /-- IMULI (R105). -/
  | imuli (d : RegName) (a : Src) (imm : Word)
  /-- MOV (R106). -/
  | mov (d : RegName) (a : Src)
  /-- NOT (R106). -/
  | inot (d : RegName) (a : Src)
  /-- INEG (R106). -/
  | ineg (d : RegName) (a : Src)
  /-- IABS (R106). -/
  | iabs (d : RegName) (a : Src)
  /-- POPC (R106). -/
  | popc (d : RegName) (a : Src)
  /-- CLZ (R106). -/
  | clz (d : RegName) (a : Src)
  /-- CTZ (R106). -/
  | ctz (d : RegName) (a : Src)
  /-- BREV (R106). -/
  | brev (d : RegName) (a : Src)
  /-- BSWAP (R106). -/
  | bswap (d : RegName) (a : Src)
  /-- SEXT8 (R106). -/
  | sext8 (d : RegName) (a : Src)
  /-- SEXT16 (R106). -/
  | sext16 (d : RegName) (a : Src)
  /-- ZEXT8 (R106). -/
  | zext8 (d : RegName) (a : Src)
  /-- ZEXT16 (R106). -/
  | zext16 (d : RegName) (a : Src)
  /-- ICMP (R107). -/
  | icmp (pd : PredName) (cc : IntCC) (a b : Src)
  /-- ICMPI (R107). -/
  | icmpi (pd : PredName) (cc : IntCC) (a : Src) (imm : Word)
  /-- ICMP64 (R107). -/
  | icmp64 (pd : PredName) (cc : IntCC) (a b : Src)
  /-- SEL (R108). -/
  | sel (d : RegName) (a b : Src)
  /-- PLOP (R109). -/
  | plop (pd pa pb pc : PredName) (lut : BitVec 8)
  /-- FADD (R115). -/
  | fadd (d : RegName) (a b : Src)
  /-- FSUB (R115). -/
  | fsub (d : RegName) (a b : Src)
  /-- FMUL (R115). -/
  | fmul (d : RegName) (a b : Src)
  /-- FFMA (R115). -/
  | ffma (d : RegName) (a b : Src)
  /-- FNFMA (R115). -/
  | fnfma (d : RegName) (a b : Src)
  /-- FMIN (R116). -/
  | fmin (d : RegName) (a b : Src)
  /-- FMAX (R116). -/
  | fmax (d : RegName) (a b : Src)
  /-- FCMP (R118). -/
  | fcmp (pd : PredName) (cc : FpCC) (a b : Src)
  /-- FADDI (R117). -/
  | faddi (d : RegName) (a : Src) (imm : Word)
  /-- FMULI (R117). -/
  | fmuli (d : RegName) (a : Src) (imm : Word)
  /-- FCMPI (R118). -/
  | fcmpi (pd : PredName) (cc : FpCC) (a : Src) (imm : Word)
  /-- HADD2 (R119). -/
  | hadd2 (d : RegName) (a b : Src)
  /-- HMUL2 (R119). -/
  | hmul2 (d : RegName) (a b : Src)
  /-- HFMA2 (R119). -/
  | hfma2 (d : RegName) (a b : Src)
  /-- BADD2 (R119). -/
  | badd2 (d : RegName) (a b : Src)
  /-- BMUL2 (R119). -/
  | bmul2 (d : RegName) (a b : Src)
  /-- BFMA2 (R119). -/
  | bfma2 (d : RegName) (a b : Src)
  /-- HMIN2 (R119). -/
  | hmin2 (d : RegName) (a b : Src)
  /-- HMAX2 (R119). -/
  | hmax2 (d : RegName) (a b : Src)
  /-- PKH (R120). -/
  | pkh (d : RegName) (a b : Src)
  /-- PKB (R120). -/
  | pkb (d : RegName) (a b : Src)
  /-- FABS (R122). -/
  | fabs (d : RegName) (a : Src)
  /-- FNEG (R122). -/
  | fneg (d : RegName) (a : Src)
  /-- FRCP (R123). -/
  | frcp (d : RegName) (a : Src)
  /-- FRSQ (R123). -/
  | frsq (d : RegName) (a : Src)
  /-- FSQRT (R123). -/
  | fsqrt (d : RegName) (a : Src)
  /-- FEXP2 (R124). -/
  | fexp2 (d : RegName) (a : Src)
  /-- FLOG2 (R124). -/
  | flog2 (d : RegName) (a : Src)
  /-- FSINP (R124). -/
  | fsinp (d : RegName) (a : Src)
  /-- FCOSP (R124). -/
  | fcosp (d : RegName) (a : Src)
  /-- FTANH (R124). -/
  | ftanh (d : RegName) (a : Src)
  /-- FRNDN (R125). -/
  | frndn (d : RegName) (a : Src)
  /-- FRNDZ (R125). -/
  | frndz (d : RegName) (a : Src)
  /-- FRNDP (R125). -/
  | frndp (d : RegName) (a : Src)
  /-- FRNDM (R125). -/
  | frndm (d : RegName) (a : Src)
  /-- FCLASS (R126). -/
  | fclass (d : RegName) (a : Src)
  /-- FSAT (R127). -/
  | fsat (d : RegName) (a : Src)
  /-- FFRAC (R127). -/
  | ffrac (d : RegName) (a : Src)
  /-- CVT (R128). -/
  | cvt (d : RegName) (a : Src) (src dst : NumFmt) (rnd : Rounding)
  /-- VOTE_ANY (R187). -/
  | voteAny (pd ps : PredName)
  /-- VOTE_ALL (R187). -/
  | voteAll (pd ps : PredName)
  /-- VOTE_UNI (R187). -/
  | voteUni (pd ps : PredName)
  /-- VOTE_BALLOT (R187). -/
  | voteBallot (d : RegName) (ps : PredName)
  /-- SHFI (R188). -/
  | shfi (d : RegName) (a b : Src)
  /-- SHFU (R188). -/
  | shfu (d : RegName) (a b : Src)
  /-- SHFD (R188). -/
  | shfd (d : RegName) (a b : Src)
  /-- SHFX (R188). -/
  | shfx (d : RegName) (a b : Src)
  /-- QSW (R189). -/
  | qsw (d : RegName) (a : Src) (op : QuadOp)
  /-- REDX (R190). -/
  | redx (d : RegName) (a : Src) (op : RedOp)
  /-- SCAN (R191). -/
  | scan (d : RegName) (a : Src) (op : ScanOp)
  /-- MATCH (R192). -/
  | matchLanes (d : RegName) (a : Src)
  /-- TILEP (R186). -/
  | tilep (n : Word)
  /-- BRA (R139). -/
  | bra (off : BitVec 25)
  /-- BRX (R140). -/
  | brx (a : Src)
  /-- CALL (R141). -/
  | call (off : BitVec 25)
  /-- CALLX (R141). -/
  | callx (a : Src)
  /-- RCV (R142). -/
  | rcv (off : BitVec 25)
  /-- BAR (R148). -/
  | bar (id : BitVec 4)
  /-- PHARR (R150). -/
  | pharr (d : RegName) (a : Src) (imm : Word)
  /-- PHWAIT (R151). -/
  | phwait (d : RegName) (a : Src) (imm : Word)
  /-- PROOF (R154). -/
  | proof (code : BitVec 21)
  /-- TRAP (R155). -/
  | trap (code : BitVec 21)
  /-- LDR (R165). -/
  | ldr (d : RegName) (a : Src) (rs : RecName) (j : RegName)
  /-- STR (R165). -/
  | str (d : RegName) (a : Src) (rs : RecName) (j : RegName)
  /-- LDRP (R170). -/
  | ldrp (d : RegName) (a : Src) (rs : RecName) (j : RegName)
  /-- ATR (R176). -/
  | atr (op : AtomOp) (d : RegName) (a : Src) (rs : RecName)
  /-- PREF (R171). -/
  | pref (lvl : BitVec 1) (a : Src) (rs : RecName) (j : RegName)
  /-- LDL (R173). -/
  | ldl (d : RegName) (a : Src) (imm : Word)
  /-- STL (R173). -/
  | stl (d : RegName) (a : Src) (imm : Word)
  /-- ATL (R175). -/
  | atl (op : AtomOp) (d : RegName) (a : Src)
  /-- LDLP (R174). -/
  | ldlp (d : RegName) (a : Src) (imm : Word)
  /-- FENCE (R179). -/
  | fence (kind : FenceKind) (scope : Scope) (eng : Bool)
  /-- CINV (R181). -/
  | cinv (scope : Scope)
  /-- RECLD (R172). -/
  | recld (dst : RecName) (a : Src) (rs : RecName) (j : RegName)
  /-- CPY (R202). -/
  | cpy (card : RecName) (strm : BitVec 4) (c : Bool)
  /-- GATH (R203). -/
  | gath (card : RecName) (strm : BitVec 4) (c : Bool)
  /-- XFM_CRC32C (R212). -/
  | xfmCrc32c (d : RegName) (a : Src) (cnt : BitVec 3)
  /-- XFM_HASH (R212). -/
  | xfmHash (d : RegName) (a : Src) (cnt : BitVec 3)
  /-- XFM_SORT (R212). -/
  | xfmSort (d : RegName) (a : Src) (cnt : BitVec 3)
  /-- MMA (R206). -/
  | mma (card : RecName) (strm : BitVec 4) (c : Bool)
  /-- MML (R207). -/
  | mml (card : RecName) (strm : BitVec 4) (c : Bool)
  /-- EPI (R209). -/
  | epi (card : RecName) (strm : BitVec 4) (c : Bool)
  /-- SWAIT (R210). -/
  | swait (strm : BitVec 4)
  /-- TREC (R214). -/
  | trec (w : TapeWidth) (tag : BitVec 7) (a : Src)
  /-- TPOP (R215). -/
  | tpop (w : TapeWidth) (tag : BitVec 7) (d : RegName)
  /-- BRR (R217). -/
  | brr (off : BitVec 25)
  /-- TCTL_RECBEGIN (R218). -/
  | tctlRecbegin (drop : Bool) (rec : RecName) (hint : Hint)
  /-- TCTL_RECBEGIN_EXT (R220). -/
  | tctlRecbeginExt (drop : Bool) (rec : RecName) (hint : Hint)
  /-- TCTL_RECEND (R345). -/
  | tctlRecend (d : RegName)
  /-- TCTL_REPBEGIN (R218). -/
  | tctlRepbegin (o : RegName) (rec : RecName) (hint : Hint)
  /-- TCTL_MARK (R218). -/
  | tctlMark (a : Src)
  /-- TCTL_STATUS (R218). -/
  | tctlStatus (d : RegName)
  /-- SRD (R223). -/
  | srd (d : RegName) (sr : BitVec 9)
  /-- SWR (R224). -/
  | swr (sr : BitVec 9) (a : Src)
  /-- TASK_SIGNAL (R227). -/
  | taskSignal (a : Src)
  /-- TASK_ENQ (R228). -/
  | taskEnq (d : RegName) (a : Src)
  /-- STEP_BEGIN (R231). -/
  | stepBegin (d : RegName) (a : Src)
  /-- STEP_END (R232). -/
  | stepEnd (d : RegName) (a : Src)
  /-- STEP_SLACK (R233). -/
  | stepSlack (d : RegName) (a : Src)
  /-- STORE_PERFORMED (R293). -/
  | storePerformed (core idx : Nat)
  /-- HOST_MEMORY_ACCESS (R297). -/
  | hostMemoryAccess (pa : BitVec 39) (len : Nat) (data : List Byte)
  /-- HOST_SNOOP (R297). -/
  | hostSnoop (pa : BitVec 52)
  /-- FABRIC_REQUEST (R293). -/
  | fabricRequest (asid : BitVec 16) (va : BitVec 48) (kind : RemoteOp) (data : List Byte)
  /-- COURSE_STARVED (R241). -/
  | courseStarved (blk c : Nat)
  /-- SUPPLY_RECOVERS (R403). -/
  | supplyRecovers (k : Nat)
  /-- PAUSE_FLIT_REPEAT (R399). -/
  | pauseFlitRepeat (port : BitVec 5) (vl : BitVec 2)
  /-- WAIT_POLL_TIMER (R45). -/
  | waitPollTimer
  /-- INTERVAL_START (R306). -/
  | intervalStart
  /-- SENSITIVITY_WINDOW_END (R313). -/
  | sensitivityWindowEnd
  /-- WATCHDOG_CHECK (R386). -/
  | watchdogCheck
  /-- RETRAIN_START (R338). -/
  | retrainStart
  /-- RETRAIN_END (R338). -/
  | retrainEnd
  /-- RETRAIN_TIMEOUT (R338). -/
  | retrainTimeout
  /-- REBUILD_SPAN (R336). -/
  | rebuildSpan
  /-- MEMBER_SWITCH (R336). -/
  | memberSwitch
  /-- STALE_SLOT_REWRITE (R339). -/
  | staleSlotRewrite
  /-- SCRUB_SPAN (R340). -/
  | scrubSpan
  /-- COUNTER_FLUSH (R343). -/
  | counterFlush
  /-- POWER_GOOD (R402). -/
  | powerGood
  /-- BOOT_PHASE_END (R402). -/
  | bootPhaseEnd
  /-- NOP (R95). -/
  | nop
  /-- RET (R143). -/
  | ret
  /-- JOIN (R143). -/
  | join
  /-- EXIT (R145). -/
  | exit
  /-- YIELD (R146). -/
  | yield
  /-- TCTL_REPEND (R218). -/
  | tctlRepend
  /-- TCTL_FLUSH (R218). -/
  | tctlFlush
  /-- TASK_DONE (R225). -/
  | taskDone
  /-- PACKET_FETCH (R92). -/
  | packetFetch
  /-- POWER_LOSS (R343). -/
  | powerLoss
  deriving DecidableEq, Repr

end Sys2Proof
end

