-- ==== Sys2Proof/Machine/Float.lean ====
section
/-!
DEFINITION. Floating-point arithmetic: formats, exact values, the one rounding of R113, and every function that an
instruction computes from floating-point operands (R112 to R132). Values are exact until they are rounded.
-/

namespace Sys2Proof.Machine

/-- The parameters of a format (R112). -/
structure FloatFmt where
  width : Nat
  p : Nat
  emin : Int
  emax : Int
  deriving DecidableEq, Repr

def fp32Fmt : FloatFmt := ⟨32, 24, -126, 127⟩
def fp16Fmt : FloatFmt := ⟨16, 11, -14, 15⟩
def bf16Fmt : FloatFmt := ⟨16, 8, -126, 127⟩

/-- An exact value: a NaN (signalling or not), an infinity, or (-1)^neg times m times 2^e. -/
inductive FVal where
  | nan (signalling : Bool)
  | inf (neg : Bool)
  | fin (neg : Bool) (m : Nat) (e : Int)
  deriving DecidableEq, Repr

/-- Exponent of the least significant bit of a subnormal. -/
def qmin (f : FloatFmt) : Int := f.emin - (f.p - 1 : Nat)

/-- The exponent field's all-ones value. -/
def expOnes (f : FloatFmt) : Nat := 2 ^ (f.width - f.p) - 1

/-- The value of an encoding (R112). -/
def unpack (f : FloatFmt) (n : Nat) : FVal :=
  let frac := n % 2 ^ (f.p - 1)
  let ex := n / 2 ^ (f.p - 1) % 2 ^ (f.width - f.p)
  let neg := n.testBit (f.width - 1)
  if ex = expOnes f then
    if frac = 0 then .inf neg else .nan (!frac.testBit (f.p - 2))
  else if ex = 0 then .fin neg frac (qmin f)
  else .fin neg (frac + 2 ^ (f.p - 1)) (qmin f + (ex - 1 : Nat))

/-- The sign bit of an encoding, set where `neg`. -/
def signBits (f : FloatFmt) (neg : Bool) : Nat := if neg then 2 ^ (f.width - 1) else 0

/-- The canonical NaN (R112). -/
def canonNaN (f : FloatFmt) : Nat := expOnes f * 2 ^ (f.p - 1) + 2 ^ (f.p - 2)

/-- An infinity. -/
def infBits (f : FloatFmt) (neg : Bool) : Nat := signBits f neg + expOnes f * 2 ^ (f.p - 1)

/-- The largest finite value. -/
def maxBits (f : FloatFmt) (neg : Bool) : Nat := signBits f neg + expOnes f * 2 ^ (f.p - 1) - 1

/-- Number of bits of a number. -/
def bitLen (m : Nat) : Nat := if m = 0 then 0 else Nat.log2 m + 1

/-- Round m times 2^e, plus something below one unit of m where `sticky`, to a multiple of 2^q: the multiple and
whether it is inexact (R113). -/
def quantize (mode : Rounding) (neg : Bool) (m : Nat) (e : Int) (sticky : Bool) (q : Int) : Nat × Bool :=
  if q ≤ e then (m * 2 ^ (e - q).toNat, sticky)
  else
    let sh := (q - e).toNat
    let k := m / 2 ^ sh
    let rem := m % 2 ^ sh
    let half := 2 ^ (sh - 1)
    let inexact := rem ≠ 0 || sticky
    let up := match mode with
      | .rne => decide (half < rem) || (decide (rem = half) && (sticky || k % 2 = 1))
      | .rna => decide (half ≤ rem)
      | .rz => false
      | .rp => !neg && inexact
      | .rm => neg && inexact
    (if up then k + 1 else k, inexact)

/-- round(x, fmt, mode) of a nonzero x = (-1)^neg times m times 2^e, where `sticky` adds a part below one unit of m:
the encoding and the flags of R113. -/
def roundTo (f : FloatFmt) (mode : Rounding) (neg : Bool) (m : Nat) (e : Int) (sticky : Bool) : Nat × FpFlags :=
  let top := e + (bitLen m : Int) - 1
  let qU := top - (f.p - 1 : Nat)
  let kU := (quantize mode neg m e sticky qU).1
  let topU := if kU = 2 ^ f.p then top + 1 else top
  if f.emax < topU then
    let toInf := match mode with
      | .rne | .rna => true
      | .rz => false
      | .rp => !neg
      | .rm => neg
    (if toInf then infBits f neg else maxBits f neg, flagOF ||| flagNX)
  else
    let q := if qU < qmin f then qmin f else qU
    let (k, inexact) := quantize mode neg m e sticky q
    (signBits f neg + k + (q - qmin f).toNat * 2 ^ (f.p - 1),
      flagIf inexact flagNX ||| flagIf (inexact && decide (topU < f.emin)) flagUF)

/-- round of any exact value; an exact zero keeps its sign. -/
def roundVal (f : FloatFmt) (mode : Rounding) : FVal → Nat × FpFlags
  | .nan s => (canonNaN f, flagIf s flagNV)
  | .inf n => (infBits f n, 0)
  | .fin n m e => if m = 0 then (signBits f n, 0) else roundTo f mode n m e false

/-- A NaN of any kind. -/
def isNaN : FVal → Bool
  | .nan _ => true
  | _ => false

/-- A signalling NaN. -/
def isSNaN : FVal → Bool
  | .nan s => s
  | _ => false

/-- The value with its sign inverted. -/
def negVal : FVal → FVal
  | .nan s => .nan s
  | .inf n => .inf (!n)
  | .fin n m e => .fin (!n) m e

/-- A finite value as a signed integer at exponent `e0`, not above its own. -/
def atExp (n : Bool) (m : Nat) (e e0 : Int) : Int :=
  let x : Int := (m * 2 ^ (e - e0).toNat : Nat)
  if n then -x else x

/-- The exact sum of two finite values; an exact zero is +0 unless both are -0 (R113). -/
def addFin (n1 : Bool) (m1 : Nat) (e1 : Int) (n2 : Bool) (m2 : Nat) (e2 : Int) : FVal :=
  if m1 = 0 && m2 = 0 then .fin (n1 && n2) 0 0
  else
    let e0 := if e1 ≤ e2 then e1 else e2
    let x := atExp n1 m1 e1 e0 + atExp n2 m2 e2 e0
    if x = 0 then .fin false 0 0 else .fin (decide (x < 0)) x.natAbs e0

/-- The exact sum, with the flags of its inputs: NV for a signalling NaN and for opposite infinities (R114, R115). -/
def addVal (a b : FVal) : FVal × FpFlags :=
  if isNaN a || isNaN b then (.nan false, flagIf (isSNaN a || isSNaN b) flagNV)
  else match a, b with
    | .inf x, .inf y => if x = y then (.inf x, 0) else (.nan false, flagNV)
    | .inf x, _ => (.inf x, 0)
    | _, .inf y => (.inf y, 0)
    | .fin n1 m1 e1, .fin n2 m2 e2 => (addFin n1 m1 e1 n2 m2 e2, 0)
    | _, _ => (.nan false, 0)

/-- The exact product. -/
def mulVal (a b : FVal) : FVal × FpFlags :=
  if isNaN a || isNaN b then (.nan false, flagIf (isSNaN a || isSNaN b) flagNV)
  else match a, b with
    | .inf x, .inf y => (.inf (x != y), 0)
    | .inf x, .fin n m _ => if m = 0 then (.nan false, flagNV) else (.inf (x != n), 0)
    | .fin n m _, .inf y => if m = 0 then (.nan false, flagNV) else (.inf (n != y), 0)
    | .fin n1 m1 e1, .fin n2 m2 e2 => (.fin (n1 != n2) (m1 * m2) (e1 + e2), 0)
    | _, _ => (.nan false, 0)

/-- a + b, rounded once (R115). -/
def fAdd (f : FloatFmt) (a b : Nat) : Nat × FpFlags :=
  let (v, g) := addVal (unpack f a) (unpack f b)
  let (r, h) := roundVal f .rne v
  (r, g ||| h)

/-- a - b. -/
def fSub (f : FloatFmt) (a b : Nat) : Nat × FpFlags :=
  let (v, g) := addVal (unpack f a) (negVal (unpack f b))
  let (r, h) := roundVal f .rne v
  (r, g ||| h)

/-- a times b. -/
def fMul (f : FloatFmt) (a b : Nat) : Nat × FpFlags :=
  let (v, g) := mulVal (unpack f a) (unpack f b)
  let (r, h) := roundVal f .rne v
  (r, g ||| h)

/-- a times b plus d with one rounding; the product's sign is inverted where `inv` (R115). -/
def fFma (f : FloatFmt) (inv : Bool) (a b d : Nat) : Nat × FpFlags :=
  let z := unpack f d
  let (v, g) := mulVal (unpack f a) (unpack f b)
  let invalid := g == flagNV && !(isNaN (unpack f a) || isNaN (unpack f b))
  if isNaN z && !invalid then (canonNaN f, g ||| flagIf (isSNaN z) flagNV)
  else if invalid then (canonNaN f, flagNV)
  else
    let (w, h) := addVal (if inv then negVal v else v) z
    let (r, i) := roundVal f .rne w
    (r, g ||| h ||| i)

/-- The order of two encodings that are no NaN; -0 lies below +0 (R116). -/
def floatKey (f : FloatFmt) (n : Nat) : Int :=
  let mag : Int := (n % 2 ^ (f.width - 1) : Nat)
  if n.testBit (f.width - 1) then -mag - 1 else mag

/-- minimumNumber and maximumNumber (R116). -/
def fMinMax (f : FloatFmt) (max : Bool) (a b : Nat) : Nat × FpFlags :=
  let x := unpack f a
  let y := unpack f b
  let g := flagIf (isSNaN x || isSNaN y) flagNV
  if isNaN x && isNaN y then (canonNaN f, g)
  else if isNaN x then (b, g)
  else if isNaN y then (a, g)
  else
    let le := decide (floatKey f a ≤ floatKey f b)
    (if le != max then a else b, g)

/-- a < b of two values that are no NaN. -/
def ltVal : FVal → FVal → Bool
  | .inf x, .inf y => x && !y
  | .inf x, _ => x
  | _, .inf y => !y
  | .fin n1 m1 e1, .fin n2 m2 e2 =>
    let e0 := if e1 ≤ e2 then e1 else e2
    decide (atExp n1 m1 e1 e0 < atExp n2 m2 e2 e0)
  | _, _ => false

/-- FCMP: the relation and NV (R118). -/
def fCompare (cc : FpCC) (a b : Nat) : Bool × FpFlags :=
  let x := unpack fp32Fmt a
  let y := unpack fp32Fmt b
  let un := isNaN x || isNaN y
  let sn := isSNaN x || isSNaN y
  let lt := !un && ltVal x y
  let gt := !un && ltVal y x
  match cc with
  | .eq => (!un && !lt && !gt, flagIf sn flagNV)
  | .ne => (un || lt || gt, flagIf sn flagNV)
  | .lt => (lt, flagIf un flagNV)
  | .le => (!un && !gt, flagIf un flagNV)
  | .gt => (gt, flagIf un flagNV)
  | .ge => (!un && !lt, flagIf un flagNV)
  | .ord => (!un, flagIf sn flagNV)
  | .un => (un, flagIf sn flagNV)

/-- A function of two packed 16-bit elements of each register (R119). -/
def packed2 (op : Nat → Nat → Nat × FpFlags) (a b : Word) : Word × FpFlags :=
  let (l, g) := op (a.toNat % 65536) (b.toNat % 65536)
  let (h, k) := op (a.toNat / 65536) (b.toNat / 65536)
  (BitVec.ofNat 32 (h * 65536 + l), g ||| k)

/-- The packed fused operations, which read D too. -/
def packed3 (op : Nat → Nat → Nat → Nat × FpFlags) (a b d : Word) : Word × FpFlags :=
  let (l, g) := op (a.toNat % 65536) (b.toNat % 65536) (d.toNat % 65536)
  let (h, k) := op (a.toNat / 65536) (b.toNat / 65536) (d.toNat / 65536)
  (BitVec.ofNat 32 (h * 65536 + l), g ||| k)

/-- PKH and PKB (R120). -/
def packFloats (f : FloatFmt) (a b : Word) : Word × FpFlags :=
  let (l, g) := roundVal f .rne (unpack fp32Fmt a.toNat)
  let (h, k) := roundVal f .rne (unpack fp32Fmt b.toNat)
  (BitVec.ofNat 32 (h * 65536 + l), g ||| k)

/-- A function on FP32 encodings as a function on words. -/
def onWords2 (op : Nat → Nat → Nat × FpFlags) (a b : Word) : Word × FpFlags :=
  let (r, g) := op a.toNat b.toNat
  (BitVec.ofNat 32 r, g)

/-! ### FUN -/

/-- FABS and FNEG: the sign bit alone, and no flag (R122). -/
def fSign (flip : Bool) (a : Word) : Word × FpFlags :=
  if isNaN (unpack fp32Fmt a.toNat) then (0x7FC00000#32, 0)
  else (if flip then a ^^^ 0x80000000#32 else a &&& 0x7FFFFFFF#32, 0)

/-- floor(sqrt n) by bits from bit `k` down. -/
def isqrtGo (n : Nat) : Nat → Nat → Nat
  | 0, r => r
  | k + 1, r =>
    let t := r + 2 ^ k
    if t * t ≤ n then isqrtGo n k t else isqrtGo n k r

/-- floor(sqrt n). -/
def isqrt (n : Nat) : Nat := isqrtGo n (bitLen n / 2 + 1) 0

/-- The bits and flags of an FP32 result, as a word. -/
def fp32Word (r : Nat × FpFlags) : Word × FpFlags := (BitVec.ofNat 32 r.1, r.2)

/-- The canonical NaN with NV. -/
def invalidFp32 : Word × FpFlags := (0x7FC00000#32, flagNV)

/-- A NaN source of a one-operand function (R114). -/
def nanFp32 (s : Bool) : Word × FpFlags := (0x7FC00000#32, flagIf s flagNV)

/-- An exact FP32 value, with no flag. -/
def exactFp32 (neg : Bool) (m : Nat) (e : Int) : Word × FpFlags := fp32Word (roundVal fp32Fmt .rne (.fin neg m e))

/-- 1/a, correctly rounded (R123). -/
def fRcp (a : Word) : Word × FpFlags :=
  match unpack fp32Fmt a.toNat with
  | .nan s => nanFp32 s
  | .inf n => exactFp32 n 0 0
  | .fin n m e =>
    if m = 0 then (BitVec.ofNat 32 (infBits fp32Fmt n), flagDZ)
    else
      let k := bitLen m + 60
      fp32Word (roundTo fp32Fmt .rne n (2 ^ k / m) (-(k : Int) - e) (decide (2 ^ k % m ≠ 0)))

/-- Make the exponent even by doubling m where it is odd. -/
def evenExp (m : Nat) (e : Int) : Nat × Int := if e % 2 = 0 then (m, e) else (2 * m, e - 1)

/-- The square root (R123). -/
def fSqrt (a : Word) : Word × FpFlags :=
  match unpack fp32Fmt a.toNat with
  | .nan s => nanFp32 s
  | .inf n => if n then invalidFp32 else (0x7F800000#32, 0)
  | .fin n m e =>
    if m = 0 then (a, 0)
    else if n then invalidFp32
    else
      let (m1, e1) := evenExp m e
      let x := m1 * 2 ^ 80
      let r := isqrt x
      fp32Word (roundTo fp32Fmt .rne false r (e1 / 2 - 40) (decide (r * r ≠ x)))

/-- 1/sqrt a (R123). -/
def fRsq (a : Word) : Word × FpFlags :=
  match unpack fp32Fmt a.toNat with
  | .nan s => nanFp32 s
  | .inf n => if n then invalidFp32 else (0#32, 0)
  | .fin n m e =>
    if m = 0 then (BitVec.ofNat 32 (infBits fp32Fmt n), flagDZ)
    else if n then invalidFp32
    else
      let (m1, e1) := evenExp m e
      let k : Nat := 160
      let r := isqrt (2 ^ k / m1)
      fp32Word (roundTo fp32Fmt .rne false r (-80 - e1 / 2) (decide (r * r * m1 ≠ 2 ^ k)))

/-! Functions of R124: fixed point with 192 fractional bits, then one rounding. -/

/-- Fractional bits. -/
def fxBits : Nat := 192
/-- 1.0. -/
def fxOne : Nat := 2 ^ 192
/-- pi, rounded down. -/
def fxPi : Nat := 19720096697726538562396133364228268891463450865190089732560
/-- ln 2, rounded down. -/
def fxLn2 : Nat := 4350955369971217654477563090224794165364344896676135745069

def fxMul (a b : Nat) : Nat := a * b / 2 ^ 192

/-- The terms x^k/k! from `t` = the k-th on. -/
def expTerms (x : Nat) : Nat → Nat → Nat → Nat
  | 0, _, _ => 0
  | f + 1, k, t => t + expTerms x f (k + 1) (fxMul t x / (k + 1))

/-- exp x for 0 ≤ x < 1. -/
def fxExp (x : Nat) : Nat := expTerms x 60 0 fxOne

/-- The alternating terms of sin: the odd powers. -/
def sinTerms (x2 : Nat) : Nat → Nat → Nat → Int
  | 0, _, _ => 0
  | f + 1, k, t => (t : Int) - sinTerms x2 f (k + 2) (fxMul t x2 / ((k + 1) * (k + 2)))

/-- sin x for 0 ≤ x ≤ pi/2. -/
def fxSin (x : Nat) : Nat := (sinTerms (fxMul x x) 40 1 x).toNat

/-- The terms of atanh z: z^k/k over odd k. -/
def atanhTerms (z2 : Nat) : Nat → Nat → Nat → Nat
  | 0, _, _ => 0
  | f + 1, k, t => t / k + atanhTerms z2 f (k + 2) (fxMul t z2)

/-- ln y for 1 ≤ y < 2. -/
def fxLn (y : Nat) : Nat :=
  let z := (y - fxOne) * 2 ^ 192 / (y + fxOne)
  2 * atanhTerms (fxMul z z) 80 1 z

/-- A nonzero finite magnitude m times 2^e as fixed point, rounded down. -/
def toFx (m : Nat) (e : Int) : Nat :=
  let s := e + 192
  if 0 ≤ s then m * 2 ^ s.toNat else m / 2 ^ (-s).toNat

/-- Round an inexact fixed-point magnitude, times 2^e. -/
def roundFx (neg : Bool) (x : Nat) (e : Int) : Word × FpFlags :=
  fp32Word (roundTo fp32Fmt .rne neg x (e - 192) true)

/-- floor of a finite value, and the fraction above it as fixed point (exact for |e| ≤ 192). -/
def floorFrac (n : Bool) (m : Nat) (e : Int) : Int × Nat :=
  if 0 ≤ e then (let x : Int := (m * 2 ^ e.toNat : Nat); (if n then -x else x, 0))
  else
    let k : Nat := (-e).toNat
    let q : Nat := m / 2 ^ k
    let r := m % 2 ^ k
    if !n then ((q : Int), r * 2 ^ 192 / 2 ^ k)
    else if r = 0 then (-(q : Int), 0)
    else (-(q : Int) - 1, (2 ^ k - r) * 2 ^ 192 / 2 ^ k)

/-- 2^a (R124). -/
def fExp2 (a : Word) : Word × FpFlags :=
  match unpack fp32Fmt a.toNat with
  | .nan s => nanFp32 s
  | .inf n => if n then (0#32, 0) else (0x7F800000#32, 0)
  | .fin n m e =>
    if m = 0 then (0x3F800000#32, 0)
    else if !n && 8 ≤ (bitLen m : Int) + e then (0x7F800000#32, flagOF ||| flagNX)
    else
      let (i, f) := floorFrac n m e
      let whole := f = 0 && (0 ≤ e || m % 2 ^ (-e).toNat = 0)
      if 128 ≤ i then (0x7F800000#32, flagOF ||| flagNX)
      else if i < -150 || (i = -150 && whole) then (0#32, flagUF ||| flagNX)
      else if whole then exactFp32 false 1 i
      else roundFx false (fxExp (fxMul f fxLn2)) i

/-- log2 a (R124). -/
def fLog2 (a : Word) : Word × FpFlags :=
  match unpack fp32Fmt a.toNat with
  | .nan s => nanFp32 s
  | .inf n => if n then invalidFp32 else (0x7F800000#32, 0)
  | .fin n m e =>
    if m = 0 then (0xFF800000#32, flagDZ)
    else if n then invalidFp32
    else
      let top : Nat := bitLen m - 1
      let i := e + (top : Int)
      if m = 2 ^ top then exactFp32 (decide (i < 0)) i.natAbs 0
      else
        let y := m * 2 ^ (192 - top)
        let l : Nat := fxLn y * 2 ^ 192 / fxLn2
        let v : Int := i * (fxOne : Int) + (l : Int)
        if 0 ≤ v then roundFx false v.toNat 0 else roundFx true (v.natAbs - 1) 0

/-- sin(pi r) for a dyadic r = m times 2^e with 0 < r < 1/2, correctly rounded with the sign given. -/
def sinSmall (neg : Bool) (m : Nat) (e : Int) : Word × FpFlags :=
  if (bitLen m : Int) + e < -64 then
    -- pi r (1 - d) with d < 2^-125
    let x := m * fxPi
    fp32Word (roundTo fp32Fmt .rne neg (x * 2 ^ 130 - x * 32) (e - 192 - 130) true)
  else roundFx neg (fxSin (m * fxPi / 2 ^ (-e).toNat)) 0

/-- sin(pi x / 2^k) for the residue x of a mod 2 in units of 2^-k, 0 ≤ x < 2^(k+1): FSINP away from its listed cases. -/
def sinPhase (neg : Bool) (x k : Nat) : Word × FpFlags :=
  let one := 2 ^ k
  let (neg, x) := if one ≤ x then (!neg, x - one) else (neg, x)
  if 2 * x < one then sinSmall neg x (-(k : Int))
  else if 2 * x = one then (if neg then 0xBF800000#32 else 0x3F800000#32, 0)
  else sinSmall neg (one - x) (-(k : Int))

/-- sin(pi a) (R124). -/
def fSinp (a : Word) : Word × FpFlags :=
  match unpack fp32Fmt a.toNat with
  | .nan s => nanFp32 s
  | .inf _ => invalidFp32
  | .fin n m e =>
    if m = 0 then (a, 0)
    else if 0 ≤ e then (if n then 0x80000000#32 else 0#32, 0)
    else
      let k := (-e).toNat
      if m % 2 ^ k = 0 then (if n then 0x80000000#32 else 0#32, 0)
      else sinPhase n (m % 2 ^ (k + 1)) k

/-- cos(pi a) = sin(pi (a + 1/2)) (R124). -/
def fCosp (a : Word) : Word × FpFlags :=
  match unpack fp32Fmt a.toNat with
  | .nan s => nanFp32 s
  | .inf _ => invalidFp32
  | .fin _ m e =>
    if m = 0 then (0x3F800000#32, 0)
    else if 0 ≤ e then (if e = 0 && m % 2 = 1 then 0xBF800000#32 else 0x3F800000#32, 0)
    else
      let k := (-e).toNat
      let x := (m + 2 ^ (k - 1)) % 2 ^ (k + 1)
      if x = 0 || x = 2 ^ k then (0#32, 0)
      else if (bitLen m : Int) + e < -64 then roundFx false (fxOne - 1) 0
      else sinPhase false x k

/-- tanh a (R124). -/
def fTanh (a : Word) : Word × FpFlags :=
  match unpack fp32Fmt a.toNat with
  | .nan s => nanFp32 s
  | .inf n => (if n then 0xBF800000#32 else 0x3F800000#32, 0)
  | .fin n m e =>
    if m = 0 then (a, 0)
    else
      let mag := a.toNat % 2 ^ 31
      if 0x41180000 ≤ mag then (if n then 0xBF800000#32 else 0x3F800000#32, flagNX)
      else if mag < 0x39800000 then (a, flagNX ||| flagIf (decide (mag < 0x00800000)) flagUF)
      else
        let t : Nat := 2 * toFx m e
        let i : Nat := t / fxLn2
        let big := fxExp (t - i * fxLn2) * 2 ^ i
        roundFx n ((big - fxOne) * 2 ^ 192 / (big + fxOne)) 0

/-- a rounded to an integral value (R125). -/
def fRound (mode : Rounding) (a : Word) : Word × FpFlags :=
  match unpack fp32Fmt a.toNat with
  | .nan s => nanFp32 s
  | .inf _ => (a, 0)
  | .fin n m e => if m = 0 then (a, 0) else exactFp32 n (quantize mode n m e false 0).1 0

/-- The class mask (R126). -/
def fClass (a : Word) : Word × FpFlags :=
  let bit (k : Nat) : Word × FpFlags := (BitVec.ofNat 32 (2 ^ k), 0)
  match unpack fp32Fmt a.toNat with
  | .nan s => bit (if s then 8 else 9)
  | .inf n => bit (if n then 0 else 7)
  | .fin n m _ =>
    if m = 0 then bit (if n then 3 else 4)
    else if m < 2 ^ 23 then bit (if n then 2 else 5)
    else bit (if n then 1 else 6)

/-- Clamp to [0, 1] (R127). -/
def fSat (a : Word) : Word × FpFlags :=
  match unpack fp32Fmt a.toNat with
  | .nan s => (0#32, flagIf s flagNV)
  | .inf n => (if n then 0#32 else 0x3F800000#32, 0)
  | .fin n m _ => (if n || m = 0 then 0#32 else if 0x3F800000 ≤ a.toNat then 0x3F800000#32 else a, 0)

/-- a - FRNDZ(a), with the sign of a (R127). -/
def fFrac (a : Word) : Word × FpFlags :=
  match unpack fp32Fmt a.toNat with
  | .nan s => nanFp32 s
  | .inf _ => invalidFp32
  | .fin n m e => exactFp32 n (if 0 ≤ e then 0 else m % 2 ^ (-e).toNat) e

/-! ### CVT -/

/-- The floating-point format of a code (R128). -/
def floatOf : NumFmt → Option FloatFmt
  | .fp32 => some fp32Fmt
  | .fp16 => some fp16Fmt
  | .bf16 => some bf16Fmt
  | _ => none

/-- The range of an integer format (R131). -/
def intRange : NumFmt → Int × Int
  | .i32 => (-2 ^ 31, 2 ^ 31 - 1)
  | .n32 => (0, 2 ^ 32 - 1)
  | .i16 => (-32768, 32767)
  | .i8 => (-128, 127)
  | .n8 => (0, 255)
  | _ => (0, 0)

/-- The value of an integer source (R129). -/
def intSource (f : NumFmt) (a : Word) : Int :=
  match f with
  | .i32 => toSigned 32 a.toNat
  | .n32 => (a.toNat : Int)
  | .i16 => toSigned 16 a.toNat
  | .i8 => toSigned 8 a.toNat
  | .n8 => (a.toNat % 256 : Nat)
  | _ => 0

/-- The bits of a floating-point source (R129). -/
def floatSource (f : FloatFmt) (a : Word) : Nat := a.toNat % 2 ^ f.width

/-- A finite value rounded to an integer, and whether that was inexact. -/
def roundInt (mode : Rounding) (n : Bool) (m : Nat) (e : Int) : Int × Bool :=
  let (k, x) := quantize mode n m e false 0
  (if n then -(k : Int) else (k : Int), x)

/-- Clamp with NV (R131, R132). -/
def clampInt (dst : NumFmt) (v : Int) (flags : FpFlags) : Word × FpFlags :=
  let (lo, hi) := intRange dst
  if v < lo then (BitVec.ofInt 32 lo, flagNV)
  else if hi < v then (BitVec.ofInt 32 hi, flagNV)
  else (BitVec.ofInt 32 v, flags)

/-- CVT (R128 to R132). -/
def convert (src dst : NumFmt) (mode : Rounding) (a : Word) : Word × FpFlags :=
  match floatOf src, floatOf dst with
  | some f, some g => fp32Word (roundVal g mode (unpack f (floatSource f a)))
  | some f, none =>
    match unpack f (floatSource f a) with
    | .nan _ => (0#32, flagNV)
    | .inf n => (BitVec.ofInt 32 (if n then (intRange dst).1 else (intRange dst).2), flagNV)
    | .fin n m e =>
      let (t, x) := roundInt mode n m e
      clampInt dst t (flagIf x flagNX)
  | none, some g =>
    let v := intSource src a
    fp32Word (roundVal g mode (.fin (decide (v < 0)) v.natAbs 0))
  | none, none => clampInt dst (intSource src a) 0

end Sys2Proof.Machine
end

