-- ==== Sys2Proof/Machine/Meta.lean ====
section
/-!
DEFINITION. What an instruction's fields say before it runs: its pipe class (R96), the registers and predicates it
reads, writes and spends (R57, R61, R81, R100), its guard rule (R134, R178, R186, R193, R213, R222), whether it is
uniform (R90), and the operand rules whose breach is a decode-class ILLEGAL.
-/

namespace Sys2Proof.Machine

/-- Pipe classes (R96). -/
inductive PipeClass where
  | none | int | fp | funPipe | cvt | xl | flow | mem | eng | tape | sys
  /-- A row of the table that is no Ralvas instruction. -/
  | event
  deriving DecidableEq, Repr

/-- The pipe class of an instruction (R96). -/
def pipeClass : Instr → PipeClass
  | .nop => .none
  | .iadd .. | .isub .. | .imul .. | .imulhs .. | .imulhu .. | .imad .. | .iadds .. | .isubs .. | .imin ..
  | .imax .. | .umin .. | .umax .. | .iand .. | .ior .. | .ixor .. | .andn .. | .shl .. | .shr .. | .sar ..
  | .rotl .. | .bfx .. | .bfxs .. | .bfi .. | .dp4s .. | .dp4u .. | .iadd64 .. | .isub64 .. | .imulws ..
  | .imulwu .. | .shlw .. | .shrw .. | .iaddi .. | .andi .. | .ori .. | .xori .. | .shli .. | .shri ..
  | .sari .. | .movi .. | .lui .. | .imuli .. | .mov .. | .inot .. | .ineg .. | .iabs .. | .popc .. | .clz ..
  | .ctz .. | .brev .. | .bswap .. | .sext8 .. | .sext16 .. | .zext8 .. | .zext16 .. | .icmp .. | .icmpi ..
  | .icmp64 .. | .sel .. | .plop .. => .int
  | .fadd .. | .fsub .. | .fmul .. | .ffma .. | .fnfma .. | .fmin .. | .fmax .. | .fcmp .. | .faddi ..
  | .fmuli .. | .fcmpi .. | .hadd2 .. | .hmul2 .. | .hfma2 .. | .badd2 .. | .bmul2 .. | .bfma2 .. | .hmin2 ..
  | .hmax2 .. | .pkh .. | .pkb .. | .fabs .. | .fneg .. => .fp
  | .frcp .. | .frsq .. | .fsqrt .. | .fexp2 .. | .flog2 .. | .fsinp .. | .fcosp .. | .ftanh .. | .frndn ..
  | .frndz .. | .frndp .. | .frndm .. | .fclass .. | .fsat .. | .ffrac .. => .funPipe
  | .cvt .. => .cvt
  | .voteAny .. | .voteAll .. | .voteUni .. | .voteBallot .. | .shfi .. | .shfu .. | .shfd .. | .shfx ..
  | .qsw .. | .redx .. | .scan .. | .matchLanes .. | .tilep .. => .xl
  | .bra .. | .brx .. | .call .. | .callx .. | .ret | .rcv .. | .join | .exit | .yield | .bar .. | .pharr ..
  | .phwait .. | .proof .. | .trap .. | .brr .. => .flow
  | .ldr .. | .str .. | .ldrp .. | .atr .. | .pref .. | .ldl .. | .stl .. | .atl .. | .ldlp .. | .fence ..
  | .cinv .. | .recld .. => .mem
  | .cpy .. | .gath .. | .xfmCrc32c .. | .xfmHash .. | .xfmSort .. | .mma .. | .mml .. | .epi .. | .swait .. => .eng
  | .trec .. | .tpop .. | .tctlRecbegin .. | .tctlRecbeginExt .. | .tctlRecend .. | .tctlRepbegin ..
  | .tctlRepend | .tctlMark .. | .tctlFlush | .tctlStatus .. => .tape
  | .srd .. | .swr .. | .taskDone | .taskSignal .. | .taskEnq .. | .stepBegin .. | .stepEnd .. | .stepSlack .. => .sys
  | _ => .event

/-- A register or predicate of the two banks: v r is r, s r is 96 + r, p n is 128 + n; sz and p0 name nothing. -/
abbrev Res := Nat

/-- `n` registers of the operand space from `r` on (R54, R57). -/
def regRange (r : RegName) (n : Nat) : List Res :=
  match r with
  | .v k => (List.range n).map (k.val + ·)
  | .s k => (List.range n).map (96 + k.val + ·)
  | .sz => []

/-- The one register named. -/
def regRes (r : RegName) : List Res := regRange r 1

/-- A predicate (R58). -/
def predRes (p : PredName) : List Res := if p = 0 then [] else [128 + p.toNat]

/-- The eight registers of a record or card block (R57). -/
def blockRes (b : RecName) (n : Nat) : List Res := (List.range n).map (96 + 8 * b.val + ·)

/-- How many registers a tape value of this width takes (R213). -/
def tapeRegs : TapeWidth → Nat
  | .w64 => 2
  | _ => 1

/-- The source fields of an instruction: a hinted field, and how many registers it covers (R57, R61). -/
def srcFields : Instr → List (Src × Nat)
  | .iadd _ a b | .isub _ a b | .imul _ a b | .imulhs _ a b | .imulhu _ a b | .imad _ a b | .iadds _ a b
  | .isubs _ a b | .imin _ a b | .imax _ a b | .umin _ a b | .umax _ a b | .iand _ a b | .ior _ a b
  | .ixor _ a b | .andn _ a b | .shl _ a b | .shr _ a b | .sar _ a b | .rotl _ a b | .bfx _ a b | .bfxs _ a b
  | .bfi _ a b | .dp4s _ a b | .dp4u _ a b | .imulws _ a b | .imulwu _ a b | .icmp _ _ a b | .sel _ a b
  | .fadd _ a b | .fsub _ a b | .fmul _ a b | .ffma _ a b | .fnfma _ a b | .fmin _ a b | .fmax _ a b
  | .fcmp _ _ a b | .hadd2 _ a b | .hmul2 _ a b | .hfma2 _ a b | .badd2 _ a b | .bmul2 _ a b | .bfma2 _ a b
  | .hmin2 _ a b | .hmax2 _ a b | .pkh _ a b | .pkb _ a b | .shfi _ a b | .shfu _ a b | .shfd _ a b
  | .shfx _ a b => [(a, 1), (b, 1)]
  | .iadd64 _ a b | .isub64 _ a b | .icmp64 _ _ a b => [(a, 2), (b, 2)]
  | .shlw _ a b | .shrw _ a b => [(a, 2), (b, 1)]
  | .iaddi _ a _ | .andi _ a _ | .ori _ a _ | .xori _ a _ | .shli _ a _ | .shri _ a _ | .sari _ a _
  | .imuli _ a _ | .mov _ a | .inot _ a | .ineg _ a | .iabs _ a | .popc _ a | .clz _ a | .ctz _ a | .brev _ a
  | .bswap _ a | .sext8 _ a | .sext16 _ a | .zext8 _ a | .zext16 _ a | .icmpi _ _ a _ | .faddi _ a _
  | .fmuli _ a _ | .fcmpi _ _ a _ | .fabs _ a | .fneg _ a | .frcp _ a | .frsq _ a | .fsqrt _ a | .fexp2 _ a
  | .flog2 _ a | .fsinp _ a | .fcosp _ a | .ftanh _ a | .frndn _ a | .frndz _ a | .frndp _ a | .frndm _ a
  | .fclass _ a | .fsat _ a | .ffrac _ a | .cvt _ a _ _ _ | .qsw _ a _ | .redx _ a _ | .scan _ a _
  | .matchLanes _ a | .brx a | .callx a | .pharr _ a _ | .phwait _ a _ | .ldr _ a _ _ | .str _ a _ _
  | .ldrp _ a _ _ | .atr _ _ a _ | .pref _ a _ _ | .ldl _ a _ | .stl _ a _ | .atl _ _ a | .ldlp _ a _
  | .recld _ a _ _ | .swr _ a | .taskEnq _ a | .stepEnd _ a | .stepSlack _ a | .tctlMark a => [(a, 1)]
  | .xfmCrc32c _ a n | .xfmHash _ a n | .xfmSort _ a n => [(a, n.toNat + 1)]
  | .trec w _ a => [(a, tapeRegs w)]
  | .taskSignal a | .stepBegin _ a => [(a, 2)]
  | .tctlRecbegin _ r h | .tctlRecbeginExt _ r h | .tctlRepbegin _ r h => [(⟨.s ⟨8 * r.val, by omega⟩, h⟩, 8)]
  | _ => []

/-- The other registers an instruction reads: plain fields and implied sources (R81, R83, R100). -/
def plainReads : Instr → List Res
  | .imad d _ _ | .bfi d _ _ | .dp4s d _ _ | .dp4u d _ _ | .ffma d _ _ | .fnfma d _ _ | .hfma2 d _ _
  | .bfma2 d _ _ | .xfmCrc32c d _ _ | .phwait d _ _ | .stl d _ _ => regRes d
  | .ldr _ _ r j | .ldrp _ _ r j | .pref _ _ r j | .recld _ _ r j => regRes j ++ blockRes r 8
  | .str d _ r j => regRes d ++ regRes j ++ blockRes r 8
  | .atr op d _ r => regRange d (if op = .cas then 2 else 1) ++ blockRes r 8
  | .atl op d _ => regRange d (if op = .cas then 2 else 1)
  | .plop _ a b c _ => predRes a ++ predRes b ++ predRes c
  | .voteAny _ s | .voteAll _ s | .voteUni _ s | .voteBallot _ s => predRes s
  | .cpy c _ _ | .gath c _ _ | .mma c _ _ | .epi c _ _ => blockRes c 8
  | .mml c _ _ => blockRes c 16
  | .tctlRepbegin o _ _ => regRes o
  | _ => []

/-- The register fields that an instruction writes, with the number of registers each covers (R57, R104). -/
def dstFields : Instr → List (RegName × Nat)
  | .iadd d _ _ | .isub d _ _ | .imul d _ _ | .imulhs d _ _ | .imulhu d _ _ | .imad d _ _ | .iadds d _ _
  | .isubs d _ _ | .imin d _ _ | .imax d _ _ | .umin d _ _ | .umax d _ _ | .iand d _ _ | .ior d _ _
  | .ixor d _ _ | .andn d _ _ | .shl d _ _ | .shr d _ _ | .sar d _ _ | .rotl d _ _ | .bfx d _ _ | .bfxs d _ _
  | .bfi d _ _ | .dp4s d _ _ | .dp4u d _ _ | .sel d _ _ | .iaddi d _ _ | .andi d _ _ | .ori d _ _
  | .xori d _ _ | .shli d _ _ | .shri d _ _ | .sari d _ _ | .movi d _ | .lui d _ | .imuli d _ _ | .mov d _
  | .inot d _ | .ineg d _ | .iabs d _ | .popc d _ | .clz d _ | .ctz d _ | .brev d _ | .bswap d _ | .sext8 d _
  | .sext16 d _ | .zext8 d _ | .zext16 d _ | .fadd d _ _ | .fsub d _ _ | .fmul d _ _ | .ffma d _ _
  | .fnfma d _ _ | .fmin d _ _ | .fmax d _ _ | .faddi d _ _ | .fmuli d _ _ | .hadd2 d _ _ | .hmul2 d _ _
  | .hfma2 d _ _ | .badd2 d _ _ | .bmul2 d _ _ | .bfma2 d _ _ | .hmin2 d _ _ | .hmax2 d _ _ | .pkh d _ _
  | .pkb d _ _ | .fabs d _ | .fneg d _ | .frcp d _ | .frsq d _ | .fsqrt d _ | .fexp2 d _ | .flog2 d _
  | .fsinp d _ | .fcosp d _ | .ftanh d _ | .frndn d _ | .frndz d _ | .frndp d _ | .frndm d _ | .fclass d _
  | .fsat d _ | .ffrac d _ | .cvt d _ _ _ _ | .voteBallot d _ | .shfi d _ _ | .shfu d _ _ | .shfd d _ _
  | .shfx d _ _ | .qsw d _ _ | .redx d _ _ | .scan d _ _ | .matchLanes d _ | .pharr d _ _ | .ldr d _ _ _
  | .ldrp d _ _ _ | .atr _ d _ _ | .ldl d _ _ | .atl _ d _ | .ldlp d _ _ | .xfmCrc32c d _ _ | .xfmHash d _ _
  | .tctlRecend d | .tctlStatus d | .srd d _ | .taskEnq d _ | .stepBegin d _ | .stepEnd d _
  | .stepSlack d _ => [(d, 1)]
  | .iadd64 d _ _ | .isub64 d _ _ | .imulws d _ _ | .imulwu d _ _ | .shlw d _ _ | .shrw d _ _ => [(d, 2)]
  | .xfmSort d _ n => [(d, n.toNat + 1)]
  | .tpop w _ d => [(d, tapeRegs w)]
  | .recld r _ _ _ => [(.s ⟨8 * r.val, by omega⟩, 8)]
  | _ => []

/-- The predicate an instruction writes (R58). -/
def predWrites : Instr → List Res
  | .icmp p _ _ _ | .icmpi p _ _ _ | .icmp64 p _ _ _ | .fcmp p _ _ _ | .fcmpi p _ _ _ | .plop p _ _ _ _
  | .voteAny p _ | .voteAll p _ | .voteUni p _ => predRes p
  | _ => []

/-- Every register and predicate an instruction reads, its guard's aside (R81, R86). -/
def reads (i : Instr) : List Res :=
  (srcFields i).flatMap (fun f => regRange f.1.reg f.2) ++ plainReads i

/-- Every register and predicate an instruction writes. -/
def writes (i : Instr) : List Res := (dstFields i).flatMap (fun f => regRange f.1 f.2) ++ predWrites i

/-- The registers that last-use hints spend (R61). -/
def spends (i : Instr) : List Res :=
  ((srcFields i).filter (fun f => f.1.hint = .last)).flatMap (fun f => regRange f.1.reg f.2)

/-- The instruction writes a scalar register, and so is uniform (R90). -/
def isUniform (i : Instr) : Bool := (writes i).any (fun r => decide (96 ≤ r ∧ r < 127))

/-- A write of this class is long (R84, R96). -/
def isLongClass : PipeClass → Bool
  | .none | .int | .fp | .event => false
  | _ => true

/-- The instruction is of the FLOW class, and so ends its packet (R95). -/
def isFlow (i : Instr) : Bool := pipeClass i == .flow

/-- What a guard may be (R134, R178, R186, R193, R210, R213, R218, R222). -/
inductive GuardRule where
  /-- Any guard. -/
  | any
  /-- Only 0b0000. -/
  | always
  /-- Only 0b0000 or 0b1000. -/
  | alwaysNever
  deriving DecidableEq, Repr

/-- A register is scalar (R54). -/
def isScalar : RegName → Bool
  | .s _ => true
  | _ => false

/-- A register is a vector register. -/
def isVector : RegName → Bool
  | .v _ => true
  | _ => false

/-- The guard rule of an instruction; a uniform instruction takes always or never (R90). -/
def guardRule (i : Instr) : GuardRule :=
  match i with
  | .rcv .. | .join | .yield | .bar .. | .pharr .. | .phwait .. | .proof .. | .brr .. => .always
  | .tilep .. | .fence .. | .cinv .. | .cpy .. | .gath .. | .mma .. | .mml .. | .epi .. | .swait ..
  | .tctlRecbegin .. | .tctlRecbeginExt .. | .tctlRecend .. | .tctlRepbegin .. | .tctlRepend | .tctlMark ..
  | .tctlFlush | .tctlStatus .. | .swr .. | .taskDone | .taskSignal .. | .taskEnq .. | .stepBegin ..
  | .stepEnd .. | .stepSlack .. => .alwaysNever
  | .trec _ _ a => if isScalar a.reg then .alwaysNever else .any
  | _ => if isUniform i then .alwaysNever else .any

/-- A guard field meets the rule. -/
def guardOk (r : GuardRule) (g : BitVec 4) : Bool :=
  match r with
  | .any => true
  | .always => g == 0
  | .alwaysNever => g == 0 || g == 8

/-- Why a word or a slot is a decode-class ILLEGAL (R91, R94). -/
inductive IllegalWhy where
  /-- An opcode of R94, or none of R93. -/
  | opcode
  /-- A sub-op, mode, CC, OP, format, rounding, kind, scope or width code not listed. -/
  | subop
  /-- A field that must be zero, or must be sz, is not. -/
  | zeroField
  /-- The hint 0b11 (R88). -/
  | hint
  /-- RS = 3, or a CARD, record or RECLD D outside the names listed (R88, R164). -/
  | blockName
  /-- A pair named at an odd register, or at s30 (R57). -/
  | pairName
  /-- A field that takes only scalar registers, or only a vector or sz, names another. -/
  | regKind
  /-- An immediate outside its limits (R105, R134, R186). -/
  | immediate
  /-- A uniform instruction with a vector source, or a guard of its own (R90). -/
  | uniform
  /-- A guard that the instruction does not take. -/
  | guardField
  /-- A vector register at or above the role's budget (R52). -/
  | budget
  /-- A misplaced mortar extension (R80). -/
  | extension
  /-- A register range past its bank (R211). -/
  | range
  /-- A slot after a flow instruction is not an empty NOP (R95). -/
  | afterFlow
  /-- The instruction is a device event and has no encoding. -/
  | notEncodable
  deriving DecidableEq, Repr

/-- A pair may be named at this register (R57). -/
def pairOk : RegName → Bool
  | .v n => n.val % 2 = 0
  | .s n => n.val % 2 = 0 && n.val ≠ 30
  | .sz => true

/-- `n` registers from this one lie in their bank; a range at sz has one member (R211). -/
def rangeOk (r : RegName) (n : Nat) : Bool :=
  match r with
  | .v k => k.val + n ≤ 96
  | .s k => k.val + n ≤ 31
  | .sz => n ≤ 1

/-- The immediate fits the 21 bits of IMM9 and X (R80). -/
def immFits (m : Word) : Bool := m.toNat < 2 ^ 20 || 2 ^ 32 - 2 ^ 20 ≤ m.toNat

/-- A scalar register or sz. -/
def scalarOrSz : RegName → Bool
  | .v _ => false
  | _ => true

/-- The pairs an instruction names at the width its format fixes (R52, R57, R104). -/
def pairFields : Instr → List RegName
  | .iadd64 d a b | .isub64 d a b => [d, a.reg, b.reg]
  | .imulws d _ _ | .imulwu d _ _ => [d]
  | .shlw d a _ | .shrw d a _ => [d, a.reg]
  | .icmp64 _ _ a b => [a.reg, b.reg]
  | .atr .cas d _ _ | .atl .cas d _ => [d]
  | .trec .w64 _ a => [a.reg]
  | .tpop .w64 _ d => [d]
  | .taskSignal a | .stepBegin _ a => [a.reg]
  | _ => []

/-- The immediate of an instruction that has one. -/
def immField : Instr → Option Word
  | .iaddi _ _ m | .andi _ _ m | .ori _ _ m | .xori _ _ m | .shli _ _ m | .shri _ _ m | .sari _ _ m
  | .movi _ m | .lui _ m | .imuli _ _ m | .icmpi _ _ _ m | .faddi _ _ m | .fmuli _ _ m | .fcmpi _ _ _ m
  | .pharr _ _ m | .phwait _ _ m | .ldl _ _ m | .stl _ _ m | .ldlp _ _ m | .tilep m => some m
  | _ => none

/-- The register kinds that an instruction's entry demands (R56, R134, R184, R213, R218, R222). -/
def regKindOk : Instr → Bool
  | .pharr d a _ | .phwait d a _ => scalarOrSz d && scalarOrSz a.reg
  | .shfi d _ _ | .shfu d _ _ | .shfd d _ _ | .shfx d _ _ | .qsw d _ _ | .scan d _ _
  | .matchLanes d _ => !isScalar d
  | .swr _ a => scalarOrSz a.reg
  | .tctlRecend d => scalarOrSz d
  | .tctlRepbegin o _ _ => isScalar o
  | .tctlMark a => isScalar a.reg
  | .tctlStatus d => isScalar d
  | .taskSignal a => isScalar a.reg
  | .taskEnq d a | .stepBegin d a | .stepEnd d a | .stepSlack d a => scalarOrSz d && isScalar a.reg
  | _ => true

/-- An instruction that combines the lanes of a vector source into a scalar (R90). -/
def combinesLanes : Instr → Bool
  | .voteBallot .. | .redx .. => true
  | _ => false

/-- The vector registers an instruction reads. -/
def readsVector (i : Instr) : Bool := (reads i).any (fun r => decide (r < 96))

/-- The limits on immediates of R105 and R186. -/
def immOk : Instr → Bool
  | .shli _ _ m | .shri _ _ m | .sari _ _ m => decide (m.toNat < 32)
  | .tilep n => n == 2 || n == 4 || n == 8 || n == 16 || n == 32
  | i => match immField i with
    | some m => immFits m
    | none => true

/-- The register ranges of XFM stay in their banks (R211). -/
def rangesOk : Instr → Bool
  | .xfmCrc32c _ a n | .xfmHash _ a n => rangeOk a.reg (n.toNat + 1)
  | .xfmSort d a n => rangeOk a.reg (n.toNat + 1) && (d == .sz || rangeOk d (n.toNat + 1))
  | _ => true

/-- The operand rules of an instruction that its word alone decides; the first one broken, in this order. -/
def illFormed (i : Instr) : Option IllegalWhy :=
  if pipeClass i == .event then some .notEncodable
  else if !(pairFields i).all pairOk then some .pairName
  else if !regKindOk i then some .regKind
  else if !immOk i then some .immediate
  else if !rangesOk i then some .range
  else if isUniform i && !combinesLanes i && readsVector i then some .uniform
  else match i with
    | .cvt _ _ s d _ => if s = d then some .subop else none
    | .mml c _ _ => if c.val = 2 then some .blockName else none
    | _ => none

/-- Every vector register an instruction names or implies is below the budget (R52). -/
def budgetOk (b : Nat) (i : Instr) : Bool :=
  (reads i ++ writes i).all (fun r => decide (r < b ∨ 96 ≤ r))

end Sys2Proof.Machine
end

