-- ==== Sys2Proof/Config.lean ====
section
/-!
DEFINITION. The constants of the machine that the manual gives, and the values it leaves open. An open value is an
opaque constant with no body: a statement that mentions it holds for every value of it.
-/

namespace Sys2Proof.Config

/-- Cores of the device (R19, R20). -/
def cores : Nat := 192
/-- Clusters (R20). -/
def clusters : Nat := 24
/-- Bytes of device memory (R20). -/
def deviceBytes : Nat := 2 ^ 39
/-- Lines of an L2 slice: 768 KiB of 128 bytes (R23). -/
def sliceLines : Nat := 6144
/-- A core's local store in bytes (R53). -/
def localBytes : Nat := 393216
/-- Vector registers of a quarter (R53). -/
def quarterRegs : Nat := 2048
/-- Resident courses of a quarter (R53). -/
def quarterSlots : Nat := 16
/-- Dependency counters (R40). -/
def counters : Nat := 65536
/-- HBM channels (R20). -/
def channels : Nat := 320
/-- Slots of 4 KiB in a channel (R322). -/
def channelSlots : Nat := 524288
/-- Bulk copies in flight per core (R22). -/
def copyLimit : Nat := 256
/-- Gathers in flight per core (R22). -/
def gatherLimit : Nat := 64
/-- MMA, MML and EPI commands accepted and not complete per core (R195). -/
def matrixLimit : Nat := 32
/-- Queues of a partition (R11). -/
def queues : Nat := 256
/-- Contexts of a partition (R395). -/
def contexts : Nat := 64
/-- Entries of a device submission list (R229). -/
def submissions : Nat := 64
/-- Remote devices of a plane (R400). -/
def remoteDevices : Nat := 10368

/-- Free value: a byte the manual leaves open, drawn by the n-th draw of a run. -/
opaque freeByte : Nat → BitVec 8
/-- Free value: a word the manual leaves open. -/
opaque freeWord : Nat → BitVec 32
/-- Free value: the block sum of an element whose unit holds a NaN or an infinity (R261), as a function of the formats, the
operands' rows and the element's row and column (R250). -/
opaque irrelevantSum : Nat → Nat → List (List Nat) → List (List Nat) → Nat → Nat → BitVec 32
/-- Free value: a choice of two that the manual leaves open. -/
opaque freeChoice : Nat → Bool

/-- Power in mW that the consumers outside the clusters drew in an interval (R306): metered, not computed. -/
opaque outsidePower : Nat → Nat
/-- Leakage in mW of a cluster's cores, by cluster, interval, and rail index (R306): measured. -/
opaque clusterLeakage : Nat → Nat → Nat → Nat
/-- Energy in nJ metered for a block from its start to its leaving (R309), by draw. -/
opaque meteredEnergy : Nat → Nat
/-- Power in mW that a cluster is projected to draw in an interval at a clock index and voltage index (R316). -/
opaque projectedPower : Nat → Nat → Nat → Nat → Nat
/-- The weight by which a cluster shares the current of its rail in an interval (R306): not stated. -/
opaque railShare : Nat → Nat → Nat
/-- Intake air temperature in degrees C at an interval (R25): numerator, and denominator less 1. -/
opaque intakeTemp : Nat → Int × Nat
/-- A cluster's margin is below its guard at an interval start (R403). -/
opaque marginLow : Nat → Nat → Bool
/-- This device's number in the fabric plane (R401). -/
opaque ownDevice : Nat
/-- The repair resources of an HBM bank (channel, pseudo-channel, bank) for burns (R342). -/
opaque repairResource : Nat → Nat → Nat → Nat
/-- A channel trains at bring-up (R402), by channel and cold start. -/
opaque channelTrains : Nat → Nat → Bool

/-- The identity key pair (R406): modulus, public exponent and private exponent. -/
opaque identityModulus : Nat
opaque identityExponent : Nat
opaque identityPrivate : Nat
/-- Thogal's public key (R405): modulus and public exponent. -/
opaque thogalModulus : Nat
opaque thogalExponent : Nat
/-- The fuses: the SHA-512 of Thogal's public key (R405). -/
opaque fusedKeyHash : List (BitVec 8)
/-- The part serial number (R406). -/
opaque partSerial : BitVec 128
/-- The firmware images that the part was made with, in load order: header, body and signature (R405, R406). -/
opaque bootImages : List (List (BitVec 8))

/-- MAGIC and the rollback value of a firmware image's header (R405): the header's layout is not stated. -/
opaque imageMagic : List (BitVec 8) → Nat
opaque imageRollback : List (BitVec 8) → Nat
/-- The layout in which MBCMD OP 4 returns the lifetime counters (R343): not stated. -/
opaque counterLayout : List Nat → List (BitVec 8)
/-- A training of a channel that began at this time ends (R338). -/
opaque trainingEnds : Nat → Nat → Bool
/-- A host-link module trains at bring-up (R398), by module and cold start. -/
opaque moduleTrains : Nat → Nat → Bool

end Sys2Proof.Config
end

