-- ==== Sys2Proof/Machine/State.lean ====
section
/-!
DEFINITION. The state of the CH3 as plain data: courses and their paths, blocks, cores, clusters, contexts, queues,
packets, engine commands, memory and its resilience, the partition and management registers, the fabric, and the
inputs still to come. INVENTORY.md names the rule of each field.
-/

namespace Sys2Proof.Machine

/-! ### Accesses -/

/-- Where a line or an access lives (R293, R297, R400). -/
inductive Home where
  /-- Device memory at this physical address. -/
  | dev (pa : Nat)
  /-- Host memory at this physical address. -/
  | host (pa : Nat)
  /-- The fabric window: remote device, remote context, remote address. -/
  | fabric (device : Nat) (rasid : Nat) (va : Nat)
  deriving DecidableEq, Repr

/-- A leaf entry's page (R286). -/
structure Leaf where
  host : Bool
  base : Nat
  shift : Nat
  cache : Nat
  order : Nat
  exec : Bool
  write : Bool
  deriving DecidableEq, Repr

/-- What a lane's checks give (R163). -/
inductive Reach where
  | mem (va : Nat) (h : Home) (f : Leaf)
  | fabric (va device rasid rva : Nat)
  /-- Out of bounds under BMODE clamp. -/
  | clamp
  | fail (cause info detail : Nat)
  deriving DecidableEq, Repr

/-- What a remote device answers (R168, R199): whether it has served the access, the offsets of the bytes that came
poisoned, and the bytes. -/
structure RemoteAnswer where
  ok : Bool
  poison : List Nat
  data : List Byte
  deriving DecidableEq, Repr

/-- What a request to a remote device was sent for. -/
inductive RemoteOwner where
  /-- A lane of an instruction of a path, which stands at packet slot `pos` (R168). -/
  | lane (blk course slot pos lane : Nat)
  /-- A store of a course of this launch on this core: releases wait for its acknowledgement (R179, R293). -/
  | store (core job : Nat)
  /-- A piece of a row or entry of an engine command (R199). -/
  | row (cmd key piece : Nat)
  /-- A unit that a COPY reads, or one that it writes (R43). -/
  | copyRead (job : Nat)
  | copyWrite (job : Nat)
  /-- An entry of a WAIT (R44). -/
  | wait (job entry : Nat)
  /-- The code header of a launch (R37). -/
  | header (job : Nat)
  /-- The update of a signal by a packet (R18). -/
  | signal (job : Nat)
  deriving DecidableEq, Repr

/-- A request to a remote device that is outstanding (R168, R387). -/
structure Remote where
  device : Nat
  owner : RemoteOwner
  deriving DecidableEq, Repr

/-- What a fault reports (R369, R370). -/
structure FaultInfo where
  cause : Nat
  detail : Nat
  mask : Lanes
  tag : Half
  info : Nat
  engine : Bool
  deriving DecidableEq, Repr

/-! ### Courses -/

/-- One register write that will land (R59, R84). -/
inductive RegWrite where
  /-- Lanes of a vector register. -/
  | vec (r : Nat) (m : Lanes) (vals : List Word)
  /-- A scalar register. -/
  | scl (r : Nat) (w : Word)
  /-- Lanes of a predicate. -/
  | prd (p : Nat) (m : Lanes) (v : Lanes)
  deriving DecidableEq, Repr

/-- A pending long write (R84), and the lanes that a poisoned load kills when it arrives (R167, R321). -/
structure LongWrite where
  id : Nat
  writes : List RegWrite
  /-- Registers held pending with nothing to write: the slices of a team command (R205). -/
  holds : List Nat
  kill : Lanes
  /-- A scalar destination kills every live lane of the course (R167). -/
  killAll : Bool
  tag : Half
  va : Double
  /-- A load or an atomic (R179). -/
  load : Bool
  /-- Served outside the core: a memory stall while a course waits on it (R312). -/
  memory : Bool
  deriving DecidableEq, Repr

/-- Why a path does not issue (R249, R374). -/
inductive Park where
  | running
  /-- Parked at BAR (R148). -/
  | barrier (id : Nat)
  /-- Parked at PHWAIT on this word until its phase equals the target (R151). -/
  | phase (addr : Word) (target : Bool)
  /-- PAGE or DSPILL outstanding under this fault id (R374); the trap delivery is made again when set. -/
  | fault (fid : Nat)
  /-- A remote access is outstanding (R168). -/
  | remote
  /-- FENCE, SWAIT, TASK.done or TASK.signal waits on these engine commands, and a release at SYSTEM on these
  acknowledgements of remote stores (R179, R180, R210, R225). -/
  | commands (ids acks : List Nat)
  /-- A continuation park on this command (R195). -/
  | continuation (id : Nat)
  /-- An engine limit is reached: the command waits for acceptance, and its whole course with it; `team` at the last arrival
  of a collective (R22, R195). -/
  | acceptance (id : Nat) (team : Bool)
  /-- The arrival park of a collective (R266). -/
  | arrival
  /-- The command is accepted, or its collective formed: the path finishes its instruction before anything else happens (R195,
  R266). -/
  | rejoin
  /-- TASK.enq finds the list full (R229). -/
  | submission
  /-- These long writes end before the path goes on: SWR and the loads before an acquire; and these acknowledgements of
  remote stores come, where it releases at SYSTEM too (R179, R224, R290). -/
  | longs (ids acks : List Nat)
  /-- A pop waits for a chunk's stage barrier (R351). -/
  | stage
  /-- A tape instruction waits for the tape unit, which another path has stalled at a page, or for the transform pipe (R28,
  R354). -/
  | tape
  deriving DecidableEq, Repr

/-- A remote access of the instruction at packet slot `pos` of a path: where its lanes lead, as found when it issued, and
what has come for them (R168, R400). -/
structure Held where
  pos : Nat
  reach : List (Nat × Reach)
  answers : List (Nat × RemoteAnswer)
  deriving DecidableEq, Repr

/-- The registers and predicates that a waiting issue unit has read: a later write never changes them (R83). -/
structure Latch where
  vregs : Cells Word
  sregs : Cells Word
  preds : Cells Lanes
  vspent : BitVec 96
  sspent : BitVec 31
  deriving DecidableEq, Repr

/-- A trap delivery that is still to be made: its fault, where its handler's return goes, and whether its record is written
(R366, R374, R375). -/
structure Delivery where
  f : FaultInfo
  pc : Double
  slot : Nat
  recorded : Bool
  deriving DecidableEq, Repr

/-- A path (R135). -/
structure Path where
  pc : Double
  slot : Nat
  mask : Lanes
  sig : Word
  /-- The innermost region's stack index; none is 0x7F (R135). -/
  region : Option Nat
  pending : List Nat
  park : Park
  /-- Slots of the members of the issue unit at this position whose waits have begun: when the path issues again they
  have ended (R234). -/
  waited : List Nat
  /-- The fault id that a reissue at this position raises again, with its cause and page (R361). -/
  faultId : Option (Nat × Nat)
  /-- A save has stopped it (R377). -/
  held : Bool
  /-- The remote accesses of the unit at this position (R168). -/
  remotes : List Held
  /-- What the unit at this position read when it first issued, where it waits in place (R83). -/
  latched : Option Latch
  /-- The trap delivery that this path makes before it issues again (R366, R375). -/
  delivery : Option Delivery
  /-- The four words of the packet the path stands in, once fetched (R76, R77). -/
  fetched : List Word
  deriving DecidableEq, Repr

/-- An error of an engine command still to be taken by its course (R199, R381). -/
structure EngErr where
  cause : Nat
  strm : Nat
  tag : Half
  off : Double
  pos : Word
  cmd : Nat
  deriving DecidableEq, Repr

/-- A record of the tape (R213). -/
inductive TapeRec where
  | lane (width : TapeWidth) (tag : Nat) (mask : Lanes) (vals : List Double)
  | course (width : TapeWidth) (tag : Nat) (v : Double)
  | branch (mask : Lanes)
  | mark (v : Word)
  deriving DecidableEq, Repr

/-- Tape modes (R213). -/
inductive TapeMode where
  | idle | record | replay
  deriving DecidableEq, Repr

/-- The chunk that RECORD builds (R347, R350). -/
structure OpenChunk where
  index : Nat
  seq : Nat
  count : Nat
  payload : List Byte
  /-- The prediction table: slot times 128 plus tag (R350). -/
  pred : Cells Double
  deriving DecidableEq, Repr

/-- A decoded chunk in a stage (R351). -/
structure Stage where
  index : Nat
  seq : Nat
  recs : List TapeRec
  first : Bool
  /-- The image as read, for a rubbing (R381). -/
  image : List Byte
  /-- Its stage barrier has been signalled (R353). -/
  released : Bool
  /-- The barrier carries the error bit. -/
  bad : Bool
  /-- The SEQ of the chunk it stands behind, which its own SEQ and COUNT must reach (R352). -/
  expect : Option Nat
  /-- Its staging was discarded by a save, with its page not mapped at the restore: the pop that needs it reads it (R351). -/
  discarded : Bool
  /-- The cycle in which the transform pipe has decoded it, once the pipe has taken it (R28). -/
  due : Option Nat
  deriving DecidableEq, Repr

/-- The Burin tape of a course (R213 to R221, R347 to R356). -/
structure Tape where
  mode : TapeMode
  drop : Bool
  ovf : Bool
  trunc : Bool
  err : Bool
  released : Nat
  /-- w0 to w7 of the tape record. -/
  record : List Word
  chunk : Option OpenChunk
  /-- Index that the next opened chunk takes. -/
  next : Nat
  /-- Sequence number of the next record. -/
  seq : Nat
  /-- Records kept since RECBEGIN (R218). -/
  kept : Nat
  /-- Header bytes of the last chunk written (R347). -/
  last : List Byte
  current : Option Stage
  ahead : Option Stage
  /-- A chunk write failed its permission check: PROT is reported at the next append (R354). -/
  writeFault : Option Double
  /-- TORDER: which slot issues and which waits (R219, R381). -/
  order : Nat
  deriving DecidableEq, Repr

/-- A stack entry with its trap word (R136, R364). -/
structure Entry where
  word3 : Word
  mask : Lanes
  link : Option Nat
  kind : Nat
  addr : Nat
  sig : Word
  slot : Nat
  trap : Bool
  deriving DecidableEq, Repr

/-- A course (R38, R50, R64). -/
structure Course where
  live : Lanes
  dead : Lanes
  helper : Lanes
  tilep : Nat
  fpflags : BitVec 6
  latch : Word
  casualty : Lanes
  contain : Bool
  cashdl : Word
  traphdl : Word
  /-- Lane l of v r is cell 32 r + l. -/
  vregs : Cells Word
  sregs : Cells Word
  preds : Cells Lanes
  vspent : BitVec 96
  sspent : BitVec 31
  path0 : Option Path
  path1 : Option Path
  preferred : Nat
  depth : Nat
  stackSlot : Nat
  longs : List LongWrite
  /-- The long writes that hold the course at a wait marker (R85). -/
  waitLongs : List Nat
  tape : Tape
  engErrs : List EngErr
  /-- The widest scope of a completed command's release, by stream (R198, R210). -/
  engScopes : Cells Nat
  budget : Nat
  role : Nat
  team : Option Nat
  rank : Option Nat
  /-- Collective commands this course has issued (R266). -/
  collectives : Nat
  /-- Resident slot of its quarter (R241). -/
  slot : Nat
  /-- Cycles it has been eligible without issuing, and whether it is starved (R241). -/
  eligible : Nat
  starved : Bool
  /-- A pop that met an unmapped page: the fault id and the slot left empty (R147). -/
  popFault : Option (Nat × Nat)
  /-- Stopped at an issue-unit boundary by a halt or a save (R368). -/
  stopped : Bool
  /-- STEP lets this many issue units through (R390). -/
  allowance : Nat
  deriving DecidableEq, Repr

/-! ### Blocks, commands, cores -/

/-- An engine command (R194 to R199). -/
structure Command where
  blk : Nat
  /-- Opcode (R193). -/
  op : Nat
  card : List Word
  record : List Word
  strm : Nat
  cont : Bool
  course : Nat
  /-- Members of an issuing team, rank order; empty for a command of one course. -/
  members : List Nat
  /-- The number of the collective among its team's (R266). -/
  index : Nat
  pos : Word
  accepted : Bool
  /-- Order of acceptance on the core. -/
  order : Nat
  begun : Bool
  /-- The fault id at which the command stands (R199). -/
  stall : Option Nat
  /-- The row or entry whose remote access it waits for (R199). -/
  remote : Option Nat
  /-- What remote devices have answered, by row or entry and piece of it. -/
  answers : List (Nat × Nat × RemoteAnswer)
  done : Bool
  /-- The index list of a GATH, read at its start (R203). -/
  list : List Word
  /-- The team-register slices, read when the first K-block begins: rank, then k times 32 plus lane (R265). -/
  slices : List (List Word)
  qi : Bool
  errs : List EngErr
  deriving DecidableEq, Repr

/-- A collective that some member has still to count (R266). -/
structure Collective where
  team : Nat
  index : Nat
  /-- Rank and opcode of each arrival. -/
  arrived : List (Nat × Nat)
  card : List Word
  strm : Nat
  cont : Bool
  /-- Rank 0's guard was always. -/
  created : Bool
  /-- Every member has arrived, and the command is accepted or there is none. -/
  formed : Bool
  pos : Word
  deriving DecidableEq, Repr

/-- An accumulator bank (R268). -/
structure Bank where
  elems : Cells Word
  rows : BitVec 128
  cols : BitVec 128
  /-- The block sum of the last K-block at each element, since ZERO (R209). -/
  sums : Cells Word
  deriving DecidableEq, Repr

/-- A resident block (R50). -/
structure Block where
  asid : BitVec 16
  part : BitVec 3
  job : Nat
  index : Nat
  bx : Word
  byy : Word
  bz : Word
  core : Nat
  courses : Nat
  team : Nat
  lastLanes : Nat
  alloc : Nat
  localMem : Cells Byte
  /-- Poison bits by 32-byte sector (R174). -/
  localPoison : Cells Bool
  /-- Barrier id to the mask of courses arrived (R148). -/
  barriers : Cells Lanes
  done : Bool
  replays : Nat
  /-- The open step it belongs to (R230). -/
  step : Option Word
  bank0 : Bank
  bank1 : Bank
  collectives : List Collective
  /-- The cycle of its cluster in which it was placed, and the cycles that it had run before, when it was saved (R314). -/
  startCycle : Nat
  ran : Nat
  /-- STEP.slack's estimate and the cycles that the block had run when it was given (R233). -/
  estimate : Option (Word × Nat)
  lastProgress : Nat
  /-- The block is alone on its cluster by R308. -/
  alone : Bool
  /-- Removed by R359 and to be placed again once its commands have completed. -/
  replaying : Bool
  /-- The time of the fault that replays it (R359). -/
  replayAt : Nat
  /-- When it was placed (R376). -/
  placedAt : Nat
  deriving DecidableEq, Repr

/-- A line of an L1 (R23, R294, R323). -/
structure L1Line where
  asid : BitVec 16
  /-- Virtual address divided by 128. -/
  line : Nat
  home : Home
  /-- It came through a LOOSE page (R289). -/
  loose : Bool
  data : List Byte
  /-- Poison of its four sectors. -/
  poison : BitVec 4
  deriving DecidableEq, Repr

/-- A store that has reached the L1 and is not yet performed (R293). -/
structure PendingStore where
  id : Nat
  blk : Nat
  course : Nat
  /-- The sector, or for the fabric the first byte. -/
  home : Home
  /-- Offsets within the sector and their bytes. -/
  cells : List (Nat × Byte)
  /-- The time of its issue. -/
  since : Nat
  /-- How little the caches are to keep of it: 0 as usual, 1 streaming, 3 nothing (R161). -/
  keep : Nat
  deriving DecidableEq, Repr

/-- A line of an L2 slice, by its tag: what it holds is what stands at the home (R23, R318, R319). -/
structure L2Line where
  home : Home
  /-- The partition and the context that asked for the fill. -/
  part : BitVec 3
  filler : BitVec 16
  /-- The sectors that it holds. -/
  held : BitVec 4
  /-- Sectors not written back, with the context that wrote each last, and the context that wrote the line last. -/
  dirty : Assoc (BitVec 16)
  writer : Option (BitVec 16)
  deriving DecidableEq, Repr

/-- The traffic counters of a context (R318). -/
structure Traffic where
  fills : Nat
  shared : Nat
  writeBacks : Nat
  reads : Nat
  writes : Nat
  deriving DecidableEq, Repr

/-- A quarter's issue state (R239, R241). -/
structure Quarter where
  /-- Resident slot it last issued from. -/
  last : Nat
  /-- The cycle of the cluster's clock that it took last. -/
  cycle : Nat
  /-- Cycle from which each unit is free: vector pipes 0 and 1, special function, conversion, cross-lane, memory, flow and
  system; the engine and tape ports are the core's. -/
  free : List Nat
  deriving DecidableEq, Repr

/-- A core. -/
structure Core where
  l1 : List L1Line
  stores : List PendingStore
  seq : BitVec 21
  quarters : List Quarter
  /-- The engine port, the tape port and the transform pipe: the cycle from which each is free, and the quarter that it last
  served (R28, R239). -/
  ports : List (Nat × Nat)
  /-- The context of the block that left last, and its local store (R235). -/
  left : Option (BitVec 16 × Cells Byte)
  deriving DecidableEq, Repr

/-- A cluster (R24, R306 to R313, R403). -/
structure Cluster where
  clock : Nat
  /-- The index the sensitivity rule asks for at the next interval (R313). -/
  wish : Nat
  /-- A raise that waits for its rail (R311). -/
  raise : Option Nat
  offset : Nat
  offsetSince : Nat
  stretched : Bool
  cycles : Nat
  /-- Part of a cycle carried over, in 10^-9. -/
  carry : Nat
  /-- Budgets of the interval in force: nJ and mA (R306). -/
  energy : Nat
  current : Nat
  /-- The latest sensitivity, as a fraction of 65,536 (R312). -/
  sigma : Nat
  /-- Quarter-cycles of this window that count as no stall, in 10^-9, and all that have passed until `since`, which is in
  fs (R312). -/
  busy : Nat
  total : Nat
  since : Nat
  /-- The energy charges of the blocks that have left it in this control interval: numerator and denominator (R306). -/
  left : Int × Nat
  /-- The highest index that R316 allows it, as of the last interval start. -/
  cap : Nat
  deriving DecidableEq, Repr

/-! ### Contexts, queues, packets -/

/-- Context states of CTXSTAT (R389); a context is destroyed when DESTROY has been asked for and nothing of it is left. -/
inductive CtxState where
  | running | halting | halted | saving | saved | removed
  deriving DecidableEq, Repr

/-- An open step (R230, R314, R317). -/
structure Step where
  id : Word
  deadline : Int
  /-- The latest projection: deadline minus P_S in ns (R233). -/
  slack : Option Int
  atRisk : Bool
  deriving DecidableEq, Repr

/-- Who waits on an outstanding fault (R374). -/
inductive FaultOwner where
  | path (blk course slot : Nat)
  | pop (blk course slot : Nat)
  | command (id : Nat)
  deriving DecidableEq, Repr

/-- An outstanding PAGE or DSPILL (R370, R374). -/
structure OpenFault where
  fid : Nat
  f : FaultInfo
  pos : Word
  core : Nat
  course : Nat
  slot : Nat
  owner : FaultOwner
  /-- The record still to be written when the ring has room (R371). -/
  waiting : Option (List Byte)
  deriving DecidableEq, Repr

/-- What the machine keeps of a saved path beside its image: the fault id that a reissue raises again (R361), and a trap
delivery whose record is written (R375). -/
structure SavedPath where
  course : Nat
  slot : Nat
  faultId : Option (Nat × Nat)
  delivery : Option Delivery
  deriving DecidableEq, Repr

/-- A stage of a saved tape: its barrier is signalled and its image saved, its barrier has carried the error bit, or its
staging is still in flight (R353). -/
structure SavedStage where
  index : Nat
  expect : Option Nat
  released : Bool
  bad : Bool
  deriving DecidableEq, Repr

/-- What the machine keeps of a saved tape beside its images: the header of the last chunk written (R347), a PROT still to be
reported (R354), and its stages. -/
structure SavedTape where
  course : Nat
  last : List Byte
  writeFault : Option Double
  current : Option SavedStage
  ahead : Option SavedStage
  deriving DecidableEq, Repr

/-- A block in the context's rubbing: what the machine keeps of it beside the image (R237, R364, R381). -/
structure SavedBlock where
  ordinal : Nat
  job : Nat
  /-- It is done under R225. -/
  done : Bool
  /-- The saved courses and their stack slots (R364). -/
  slots : List (Nat × Nat)
  /-- The open step it belongs to (R230). -/
  step : Option Word
  /-- Time without progress before the save (R386). -/
  idle : Nat
  /-- The block sums of its banks (R209, R272). -/
  sums0 : Cells Word
  sums1 : Cells Word
  /-- STEP.slack's estimate, and the cycles that the block has run (R233, R314). -/
  estimate : Option (Word × Nat)
  ran : Nat
  /-- The positions of its queued commands, in order of acceptance. -/
  commands : List Word
  paths : List SavedPath
  tapes : List SavedTape
  deriving DecidableEq, Repr

/-- A context (R364, R395). -/
structure Context where
  asid : BitVec 16
  part : BitVec 3
  depth : Nat
  nc : Nat
  ptroot : Double
  area : Double
  rubBase : Double
  rubSize : Double
  state : CtxState
  /-- It has taken COUNTER (R301). -/
  counter : Bool
  nextFault : Nat
  faults : List OpenFault
  step : Option Step
  /-- The device submission list: packet images and acceptance order (R229). -/
  subs : List (Nat × List Word)
  subSeq : Nat
  /-- A packet of the list was refused after it was taken: no more are taken (R32). -/
  subHalted : Bool
  /-- ENERGY in nJ (R318); the five other counters of R318 stand in `State.traffic`. -/
  energy : Nat
  /-- Saved blocks that are still to be placed again, and the time of their save (R377, R379). -/
  saved : List SavedBlock
  savedAt : Nat
  /-- When the save in force began (R377). -/
  saveFrom : Nat
  /-- Saved by CTXCTL: the scheduler does not restore it (R390). -/
  hostSaved : Bool
  /-- When it last came to hold cores (R376). -/
  heldSince : Nat
  /-- Since when it has held cores while a launch of another context with PRIO at least as high has been pending (R376). -/
  rivalSince : Option Nat
  /-- The stage barrier of its latest restore: the chunks released, and the error bit (R355). -/
  restored : Option (Nat × Bool)
  /-- DESTROY is asked for (R390). -/
  destroying : Bool
  deriving DecidableEq, Repr

/-- A queue (R10 to R15). -/
structure Queue where
  asid : BitVec 16
  desc : Double
  ring : Double
  log2 : Nat
  readIdx : Nat
  /-- Largest NOTIFY value (R15). -/
  notify : Nat
  halted : Bool
  /-- QDESTROY has stopped it (R12). -/
  destroying : Bool
  /-- Consumption stands at a slot with VALID clear (R15). -/
  stopped : Bool
  /-- The unsatisfied WAIT that stops consumption (R45). -/
  waiting : Option Nat
  deriving DecidableEq, Repr

/-- A consumed packet (R17, R34, R302). -/
structure Job where
  part : BitVec 3
  /-- Queue number; 256 for the device submission list. -/
  queue : Nat
  /-- Slot index n, or acceptance order. -/
  idx : Nat
  asid : BitVec 16
  words : List Word
  /-- Its own counter, as a device index. -/
  counter : Option Nat
  started : Bool
  /-- It was refused after its consumption: it never completes (R32). -/
  failed : Bool
  /-- A WAIT has been tested, and the entries of it that were at or below their limits (R44). -/
  tested : Bool
  met : List Nat
  release : Nat
  /-- Fields of the code header: ENTRY and SIZE (R36). -/
  entry : Nat
  size : Nat
  placed : Nat
  doneBlocks : Nat
  completed : Bool
  /-- A WAIT is to be tested again (R45). -/
  retest : Bool
  /-- The factor kappa as numerator and denominator (R309). -/
  kappaNum : Nat
  kappaDen : Nat
  holding : Bool
  /-- When it came to stand first in the ready order (R303). -/
  firstSince : Option Nat
  /-- The packets at launch start; nothing where the page was not mapped (R77). -/
  code : List (Option (List Byte))
  /-- Bytes that a COPY has written, that it or the launch's start or a signal's update waits for a remote device, and what
  the device answered (R18, R37, R43). -/
  copied : Nat
  asking : Bool
  brought : Option RemoteAnswer
  deriving DecidableEq, Repr

/-- A dependency counter (R40). -/
structure Counter where
  /-- Armed or READY (R40). -/
  armed : Bool
  value : Int
  /-- The context of the packet that armed it. -/
  owner : BitVec 16
  deriving DecidableEq, Repr

/-- A block waiting to be placed again from its start: its launch, index, replays and release time (R359). -/
structure Waiting where
  job : Nat
  index : Nat
  replays : Nat
  release : Nat
  deriving DecidableEq, Repr

/-! ### Partitions and the device -/

/-- A partition block and its queue window (R391, R392). -/
structure Partition where
  pctl : Double
  pres : Double
  pmem : Double
  pwgt : Double
  ptime : Double
  pvec : Double
  /-- PWGT, PTIME and PVEC as they are in force since the last control interval (R392). -/
  pwgtIn : Double
  ptimeIn : Double
  pvecIn : Double
  err : Bool
  pstate : Nat
  fwsel : Double
  fwent : Cells Double
  qresult : Double
  /-- QCREATE's value while a creation runs (R11). -/
  creating : Option Double
  /-- QDESTROY's value while a destruction runs (R12). -/
  destroying : Option Double
  cview : Double
  qerr : Double
  cresult : Double
  ccreating : Option Double
  acsel : List Nat
  xinv : Option Double
  sensctl : Double
  dlrisk : Double
  dlover : Double
  ctxsel : BitVec 16
  deriving DecidableEq, Repr

/-- Channel health (R329). -/
inductive Health where
  | good | retrain | dead
  deriving DecidableEq, Repr

/-- Lifetime counts of a channel (R343). -/
structure ChanCount where
  ce : Nat
  uncorrectable : Nat
  located : Nat
  retired : Nat
  poisoned : Nat
  listFull : Nat
  /-- CE by temperature bin. -/
  bins : Cells Nat
  /-- CE by slot. -/
  slots : Cells Nat
  deriving DecidableEq, Repr

/-- A rebuild in progress (R336). -/
structure Rebuild where
  unit : Nat
  member : Nat
  target : Nat
  /-- Next span. -/
  cursor : Nat
  deriving DecidableEq, Repr

/-- A fabric port's virtual lane (R399). -/
structure Lane where
  occupancy : Nat
  pausing : Bool
  lastPause : Nat
  /-- Sending is stopped until this time. -/
  pausedUntil : Nat
  /-- Flits that wait while sending is stopped. -/
  waiting : List Nat
  /-- Flits sent and not acknowledged, in order. -/
  replay : List Nat
  deriving DecidableEq, Repr

/-- What the device sends out. -/
inductive Output where
  /-- An MSI-X message to an entry (R394). -/
  | msi (part : BitVec 3) (vec : Nat)
  /-- The answer to a host access of device memory (R297). -/
  | hostData (pa : Nat) (bytes : List Byte) (poison : Bool)
  /-- A back-invalidation of a line the host holds (R297). -/
  | backInval (pa : Nat)
  /-- A request to a remote device (R168, R400). -/
  | remote (id : Nat) (device : Nat) (rasid : Nat) (va : Nat) (op : RemoteOp) (data : List Byte)
  /-- The answer to a remote device's request (R293): a failure is a remote translation failure; `poison` gives the offsets
  of the bytes that come poisoned. -/
  | reply (ok : Bool) (poison : List Nat) (bytes : List Byte)
  /-- What a host read of the memory BAR returns (R391). -/
  | mmioData (off : BitVec 26) (v : Double)
  /-- A pause or resume flit (R399). -/
  | pause (port vl : Nat)
  | resume (port vl : Nat)
  /-- A flit sent again from the replay buffer (R399). -/
  | flit (port vl id : Nat)
  deriving DecidableEq, Repr

/-- Inputs of the device that stand on the agenda. -/
inductive Move where
  /-- Time passes: nanoseconds. -/
  | tick (n : Nat)
  /-- An operation or event of the table. -/
  | event (i : Instr)
  /-- A host write of 64 bits to the memory BAR (R391). -/
  | mmio (off : BitVec 26) (v : Double)
  /-- A host read of 64 bits of the memory BAR (R391). -/
  | mmioRead (off : BitVec 26)
  /-- A host thread writes host memory. -/
  | hostStore (pa : Nat) (bytes : List Byte)
  /-- A quarter of a core takes its next cycle (R239). -/
  | cycle (core quarter : Nat)
  /-- An L1 line is evicted (R283). -/
  | evict (core : Nat) (asid : BitVec 16) (line : Nat)
  /-- An in-stack temperature (R338, R402). -/
  | temperature (stack : Nat) (degrees : Int)
  /-- A stored symbol of a sector of a slot changes: it is XORed with a value (R327). -/
  | upset (channel slot sector symbol : Nat) (value : Byte)
  /-- A flit arrives at a port (R399): its bytes of occupancy, or that many bytes leave the buffer. -/
  | flitIn (port vl : Nat) (bytes : Nat)
  | flitOut (port vl : Nat) (bytes : Nat)
  /-- The device has a flit to send on a port, and the other side has acknowledged one (R399). -/
  | flitSend (port vl id : Nat)
  | flitAck (port vl id : Nat)
  /-- A runtime parity failure of a host-link module (R398). -/
  | parity (module : Nat)
  deriving DecidableEq, Repr

/-- What the issuing unit has gathered: applied when its last member takes effect (R62, R82, R111, R357). -/
structure Issue where
  blk : Nat
  course : Nat
  slot : Nat
  guard : BitVec 4
  word : Word
  wait : Bool
  /-- The masked mortar word, where this unit folds it (R357). -/
  mortar : Option Word
  /-- The position (packet slot) of this member, and of the first member of its group. -/
  pos : Nat
  first : Nat
  /-- Slot at which the path stands after the unit. -/
  after : Nat
  last : Bool
  /-- The course as it stood before the group issued: every source reads it (R62). -/
  before : Course
  spends : List Nat
  flags : BitVec 6
  folds : List Word
  waits : Bool
  /-- A member demotes the path (R243). -/
  demotes : Bool
  deriving DecidableEq, Repr

/-- The whole machine. -/
structure State where
  /-- SR_TIME: nanoseconds (R67), and the femtoseconds beyond them. -/
  now : Nat
  frac : Nat
  agenda : List Move
  /-- The quarter that took a cycle last: four times its core, plus its number. -/
  turn : Nat
  fresh : Nat
  nextId : Nat
  issue : Option Issue
  /-- Keyed by block id times 32 plus course. -/
  courses : Assoc Course
  blocks : Assoc Block
  commands : Assoc Command
  waitingBlocks : List Waiting
  cores : Assoc Core
  clusters : Assoc Cluster
  /-- Rails A to D: the voltage index, and when the rail has settled there (R311). -/
  rails : List (Nat × Nat)
  contexts : Assoc Context
  /-- The stack entries as the machine last wrote them, by context, stack slot and number: DSPILL reports an entry that
  cannot be read (R147). -/
  entries : Assoc Entry
  /-- Keyed by partition times 256 plus number. -/
  queues : Assoc Queue
  jobs : Assoc Job
  counters : Assoc Counter
  partitions : Assoc Partition
  /-- Device memory by byte (R20). -/
  dev : Cells Byte
  /-- Poison marks by sector (R322). -/
  devPoison : Cells Bool
  hostMem : Cells Byte
  /-- CXL poison of host lines of 64 bytes (R200). -/
  hostPoison : Cells Bool
  /-- Lines of device memory that the host holds (R297). -/
  hostHeld : List Nat
  /-- The package has its supply (R402). -/
  powered : Bool
  /-- Management window. -/
  phase : Nat
  powerGoodAt : Nat
  temps : Cells Int
  railmap : Double
  memctl : Double
  stretchCount : Nat
  mbstat : Double
  mailbox : Cells Byte
  staged : List Byte
  /-- The two image slots of the NVS (R405): nothing stands for the image that the part was made with. -/
  imageSlots : List (Option (List Byte))
  /-- The slot that runs, and the one used at the next reset. -/
  runSlot : Nat
  bootSlot : Nat
  rollback : Double
  /-- Images in use, header and body, in load order (R406). -/
  images : List (List Byte)
  coldStarts : Nat
  modules : List (Bool × List Nat)
  /-- Bond table (R325), health map (R329), stale bitmap (R339), retired slots (R341). -/
  bond : Cells Word
  health : Cells Health
  pcDead : Cells Bool
  bankDead : Cells Bool
  stale : Cells Bool
  retired : Cells Bool
  /-- The stored symbols that differ from their codeword of the sector code, and by what: the channel, slot, sector and symbol
  (of 36) in one key (R322, R327). -/
  symbols : Cells Byte
  /-- By what a byte of a member of a span differs from what the span's checks were made for: the unit, member, span and byte
  (of 33) in one key (R328). -/
  skew : Cells Byte
  /-- Members that stay without a target until the next reset: eighteen times the unit, plus the member (R335). -/
  unbond : Cells Bool
  /-- Burns of a bank of a pseudo-channel (R342). -/
  repairsUsed : Cells Nat
  repair : List Double
  chanCounts : Assoc ChanCount
  /-- The counts as the NVS holds them (R343). -/
  nvsCounts : Assoc ChanCount
  /-- Corrections of a slot in this scrub pass, by pseudo-channel (twice the slot, plus the pseudo-channel), and one more
  than the pass in which a sector of it there was first found uncorrectable (R341). -/
  passCe : Cells Nat
  passBad : Cells Nat
  trained : Cells Nat
  trainTemp : Cells Int
  retraining : Option (Nat × Nat)
  dueNow : Cells Bool
  rebuild : Option Rebuild
  scrubAt : Nat
  scrubPass : Nat
  lanes : Assoc Lane
  /-- Requests to remote devices that are outstanding (R168, R199, R293). -/
  remotes : Assoc Remote
  /-- The lines of each L2 slice, most recently used first (R23, R319); slice and channel have one number. -/
  l2 : Assoc (List L2Line)
  /-- The traffic counters, by context (R318). -/
  traffic : Assoc Traffic
  /-- Nanoseconds without power (R342). -/
  offNs : Nat
  /-- End of the recovery time of each remote device (R387). -/
  recovering : Cells Nat
  out : List Output
  nextInterval : Nat
  nextWindow : Nat
  nextPoll : Nat
  nextWatchdog : Nat
  nextFlush : Nat
  /-- When the scrub pass in progress began (R340). -/
  scrubFrom : Nat
  deriving DecidableEq, Repr

/-! ### Faults and refusals of the model -/

/-- The model stops (safe). -/
inductive Fault where
  /-- A Ralvas instruction is run while no path is issuing: `exec` on a state that `step` never builds. Safe. -/
  | noIssuer
  deriving DecidableEq, Repr

/-- What the model does not run. -/
inductive Refusal where
  /-- An instruction of the table with no meaning yet, by its mnemonic. Safe. -/
  | notModelled (mnemonic : String)
  deriving DecidableEq, Repr

/-! ### The values that things begin with -/

def Bank.zero : Bank := ⟨[], 0, 0, []⟩

def Tape.idle : Tape :=
  { mode := .idle, drop := false, ovf := false, trunc := false, err := false, released := 0, record := [],
    chunk := none, next := 0, seq := 0, kept := 0, last := [], current := none, ahead := none, writeFault := none,
    order := 0 }

def Quarter.reset : Quarter := ⟨15, 0, []⟩

def Core.reset : Core :=
  { l1 := [], stores := [], seq := 0, quarters := [Quarter.reset, Quarter.reset, Quarter.reset, Quarter.reset],
    ports := [(0, 3), (0, 3), (0, 3)], left := none }

def Cluster.reset : Cluster :=
  { clock := 0, wish := 0, raise := none, offset := 0, offsetSince := 0, stretched := false, cycles := 0, carry := 0,
    energy := 0, current := 0, sigma := 65536, busy := 0, total := 0, since := 0, left := (0, 1), cap := 84 }

def Partition.reset : Partition :=
  { pctl := 0, pres := 0, pmem := 0, pwgt := 0x10101#64, ptime := 0x00007D0003200000#64, pvec := 0,
    pwgtIn := 0x10101#64, ptimeIn := 0x00007D0003200000#64, pvecIn := 0, err := false,
    pstate := 0, fwsel := 0, fwent := [], qresult := 0, creating := none, destroying := none, cview := 0, qerr := 0,
    cresult := 0, ccreating := none, acsel := [0, 0, 0, 0, 0, 0], xinv := none, sensctl := 0x5400599A#64,
    dlrisk := 0, dlover := 0, ctxsel := 0 }

def Lane.reset : Lane := ⟨0, false, 0, 0, [], []⟩

def ChanCount.zero : ChanCount := ⟨0, 0, 0, 0, 0, 0, [], []⟩

def Traffic.zero : Traffic := ⟨0, 0, 0, 0, 0⟩

def Counter.free : Counter := ⟨false, 0, 0⟩

/-- MEMCTL at reset (R344). -/
def memctlReset : Double := 0x01E01A0A0A080000#64

/-- The machine at power-good, before its first phase (R402): every table empty, and every field at the value that the
manual states or that the log names. An absent core, cluster, partition, lane or counter reads as its reset value. -/
def State.reset : State :=
  { now := 0, frac := 0, agenda := [], turn := 0, fresh := 0, nextId := 1, issue := none, courses := [], blocks := [], commands := [],
    waitingBlocks := [], cores := [], clusters := [], rails := [(0, 0), (0, 0), (0, 0), (0, 0)], contexts := [],
    entries := [], queues := [], jobs := [], counters := [], partitions := [], dev := [], devPoison := [], hostMem := [], hostPoison := [], hostHeld := [],
    powered := true, phase := 0, powerGoodAt := 0, temps := [], railmap := 0, memctl := memctlReset, stretchCount := 0,
    mbstat := 0, mailbox := [], staged := [], imageSlots := [none, none], runSlot := 0, bootSlot := 0, rollback := 0,
    images := [], coldStarts := 0, modules := [(true, []), (true, []), (true, []), (true, [])], bond := [],
    health := [], pcDead := [], bankDead := [], stale := [], retired := [], symbols := [], skew := [], unbond := [],
    repairsUsed := [], repair := [],
    chanCounts := [], nvsCounts := [], passCe := [], passBad := [], trained := [], trainTemp := [],
    retraining := none, dueNow := [], rebuild := none, scrubAt := 0, scrubPass := 0, lanes := [], remotes := [], l2 := [], traffic := [],
    offNs := 0, recovering := [],
    out := [], nextInterval := 20000, nextWindow := 50000, nextPoll := 10000, nextWatchdog := 1000000,
    nextFlush := 60000000000, scrubFrom := 0 }

end Sys2Proof.Machine
end

