-- ==== Sys2Proof/Machine/Span.lean ====
section
/-!
DEFINITION. Where a byte of device memory lives and what happens when a member of its stripe is lost: bond units,
members and positions (R322 to R325), the sector code (R327) and the span code (R328), lost members and the keeper (R329,
R330), reads and writes (R331 to R333), retirement and the counts of a channel (R341 to R343), and the poison mark of a
sector. The bytes that a read of device memory gives stand in `State.dev`; a sector's stored symbols are the codeword of
those bytes but for what `State.symbols` lists, and the checks of a span are functions of its data sectors but for what
`State.skew` lists.
-/

namespace Sys2Proof.Machine

/-- The bond unit of a physical address (R323). -/
def unitOf (pa : Nat) : Nat := pa / 65536
/-- The line within the unit (R323). -/
def lineOf (pa : Nat) : Nat := pa / 128 % 512
/-- The data position of the line (R323). -/
def posOf (pa : Nat) : Nat := lineOf pa % 16
/-- The sector of the member that holds this address, which is the span's number too (R323). -/
def spanOf (pa : Nat) : Nat := 4 * (lineOf pa / 16) + pa / 32 % 4
/-- The physical address of data position `d` of span `q` of unit `u` (R323). -/
def spanAddr (u d q : Nat) : Nat := u * 65536 + (q / 4 * 16 + d) * 128 + q % 4 * 32

/-- The slot of a unit (R324). -/
def unitSlot (u : Nat) : Nat := u / 16
/-- The group of a unit (R324). -/
def unitGroup (u : Nat) : Nat := u % 16
/-- The spare stack of a unit (R324). -/
def spareStack (u : Nat) : Nat := unitSlot u % 10

/-- The n-th stack, the spare left out (R324). -/
def stackNth (u n : Nat) : Nat := if n < spareStack u then n else n + 1

/-- The default channel of member `i` (R324). -/
def defaultChannel (u i : Nat) : Nat := 32 * stackNth u (i / 2) + 2 * unitGroup u + i % 2

/-- The position of member `i` (R324). -/
def memberPos (u i : Nat) : Nat := (i + 2 * (unitGroup u + unitSlot u)) % 18

/-- The member that holds position `p` (R324). -/
def posMember (u p : Nat) : Nat := (p + 18 - 2 * (unitGroup u + unitSlot u) % 18) % 18

/-- The bond-table entry of a unit (R325). -/
def bondEntry (s : State) (u : Nat) : Nat := (cget 0#32 s.bond u).toNat

/-- The channel that holds member `i` now (R325). -/
def memberChannel (s : State) (u i : Nat) : Nat :=
  let e := bondEntry s u
  if bitAt e 14 && bits e 13 9 = i then bits e 8 0
  else if bitAt e 29 && bits e 28 24 = i then bits e 23 15
  else defaultChannel u i

/-- A channel's health (R329). -/
def chanHealth (s : State) (c : Nat) : Health := cget .good s.health c

/-- The pseudo-channel of sector `q` (R322). -/
def sectorPc (q : Nat) : Nat := q / 4 % 2
/-- The bank of a slot (R322). -/
def slotBank (slot : Nat) : Nat := slot % 32

/-- The key of a channel's slot. -/
def slotKey (c slot : Nat) : Nat := c * 524288 + slot

/-- The pseudo-channel or bank of a sector is dead (R329). -/
def partDead (s : State) (c slot q : Nat) : Bool :=
  cget false s.pcDead (2 * c + sectorPc q) || cget false s.bankDead (64 * c + 32 * sectorPc q + slotBank slot)

/-- The key of a sector of a slot. -/
def sectorKey (c slot q : Nat) : Nat := slotKey c slot * 128 + q

/-! ### The sector code (R327) -/

/-- GF(2^8) multiplication by alpha = 0x02 (R327, R328). -/
def gfDouble (b : Byte) : Byte := if b.getLsbD 7 then (b <<< 1) ^^^ 0x1D#8 else b <<< 1

/-- GF(2^8) multiplication (R327). -/
def gfMul (a b : Byte) : Byte :=
  (List.range 8).reverse.foldl (fun r i => gfDouble r ^^^ (if a.getLsbD i then b else 0)) 0

/-- alpha^n. -/
def gfAlpha : Nat → Byte
  | 0 => 1
  | n + 1 => gfDouble (gfAlpha n)

/-- The inverse, which is the 254th power. -/
def gfInv (a : Byte) : Byte := (List.range 254).foldl (fun r _ => gfMul r a) 1

/-- The three check symbols of the 32 data bytes and M: the remainder of their polynomial by the generator, whose roots are
taken as 1, alpha and alpha^2 (R327 gives the field, the length and the distance). -/
def sectorChecks (l : List Byte) : List Byte :=
  l.foldl (fun r d =>
    let b := d ^^^ r.getD 0 0
    [r.getD 1 0 ^^^ gfMul b 7, r.getD 2 0 ^^^ gfMul b 14, gfMul b 8]) [0, 0, 0]

/-- Syndrome `j` of 36 symbols, the first of which has the highest power. -/
def syndrome (l : List Byte) (j : Nat) : Byte := l.foldl (fun r d => gfMul r (gfAlpha j) ^^^ d) 0

/-- What the decoder adds to a sector whose symbols differ from a codeword by `e`: nothing where it fails, else zero or one
symbol (R327). -/
def sectorFix (e : List Byte) : Option (List Byte) :=
  let s0 := syndrome e 0
  let s1 := syndrome e 1
  let s2 := syndrome e 2
  if s0 = 0 && s1 = 0 && s2 = 0 then some (List.replicate 36 0)
  else ((List.range 36).find? (fun i =>
      let a := gfAlpha (35 - i)
      s0 ≠ 0 && s1 = gfMul a s0 && s2 = gfMul a s1)).map (fun i => (List.replicate 36 0).set i s0)

/-- By what the symbols of a sector differ from their codeword. -/
def sectorDiff (s : State) (c slot q : Nat) : List Byte := cgetRun 0#8 s.symbols (36 * sectorKey c slot q) 36

/-- A stored sector is its codeword. -/
def sectorClean (s : State) (c slot q : Nat) : Bool := (sectorDiff s c slot q).all (· == 0)

/-- What a decode that does not fail leaves wrong: zero, or a codeword. -/
def sectorRest (s : State) (c slot q : Nat) : Option (List Byte) :=
  (sectorFix (sectorDiff s c slot q)).map (List.zipWith (· ^^^ ·) (sectorDiff s c slot q))

/-- The sector reads as uncorrectable: its decode fails, or its corrected M has M[7:1] nonzero (R327). -/
def sectorBad (s : State) (c slot q : Nat) : Bool :=
  !sectorClean s c slot q &&
  match sectorRest s c slot q with
  | none => true
  | some e => decide (1 < (e.getD 32 0).toNat)

/-- A sector is written: its symbols are a codeword again. -/
def mendSector (s : State) (c slot q : Nat) : State :=
  { s with symbols := csetRun 0#8 s.symbols (36 * sectorKey c slot q) (List.replicate 36 0) }

/-! ### Lost members (R329, R330) -/

/-- Member `i`'s sector of span `q` is lost for another reason than its own symbols: it is not read (R329). -/
def memberShut (s : State) (u i q : Nat) : Bool :=
  let c := memberChannel s u i
  chanHealth s c != .good || partDead s c (unitSlot u) q || cget false s.stale (slotKey c (unitSlot u))

/-- The symbols of member `i`'s sector of span `q` cannot be decoded (R327). -/
def memberBad (s : State) (u i q : Nat) : Bool := sectorBad s (memberChannel s u i) (unitSlot u) q

/-- Member `i`'s sector of span `q` is lost (R329). -/
def memberLost (s : State) (u i q : Nat) : Bool := memberShut s u i q || memberBad s u i q

/-- Nothing of the memory is known to be wrong: the common case. -/
def allGood (s : State) : Bool :=
  s.health.isEmpty && s.pcDead.isEmpty && s.bankDead.isEmpty && s.stale.isEmpty && s.symbols.isEmpty && s.skew.isEmpty

/-- How many members of a span are lost (R331). -/
def lostCount (s : State) (u q : Nat) : Nat := ((List.range 18).filter (fun i => memberLost s u i q)).length

/-- The keeper of a unit's spans: the channel of the first member, in position order 16, 17, 0, 1 ... 15, whose channel is not
DEAD (R330). -/
def keeper (s : State) (u : Nat) : Nat :=
  (((16 :: 17 :: List.range 16).map (fun p => memberChannel s u (posMember u p))).find?
    (fun c => chanHealth s c != .dead)).getD (memberChannel s u (posMember u 16))

/-- A channel's lifetime counts (R343). -/
def chanCount (s : State) (c : Nat) : ChanCount := (find? s.chanCounts c).getD ChanCount.zero

/-- Change a channel's counts. -/
def countChan (s : State) (c : Nat) (f : ChanCount → ChanCount) : State :=
  { s with chanCounts := put s.chanCounts c (f (chanCount s c)) }

/-- The temperature bin of a channel (R343). -/
def tempBin (t : Int) : Nat := if t < -30 then 0 else if 110 ≤ t then 15 else ((t + 40) / 10).toNat

/-- The in-stack temperature of a channel. -/
def chanTemp (s : State) (c : Nat) : Int := cget 25 s.temps (c / 32)

/-- A slot has been retired (R341). -/
def slotRetired (s : State) (c slot : Nat) : Bool := cget false s.retired (slotKey c slot)

/-- An entry of the repair list; HOURS counts the time with power (R342). -/
def repairEntry (s : State) (c slot pc reason : Nat) : Double :=
  BitVec.ofNat 64 (2 ^ 62 + reason * 2 ^ 54 + c / 32 * 2 ^ 50 + c % 32 * 2 ^ 45 + pc * 2 ^ 44 + slotBank slot * 2 ^ 39
    + slot / 32 % 2 ^ 14 * 2 ^ 25 + (s.now - s.offNs) / 3600000000000 % 2 ^ 25)

/-- Append an entry, or count LISTFULL (R342). -/
def appendRepair (s : State) (c slot reason pc : Nat) : State :=
  if s.repair.length < 4096 then { s with repair := s.repair ++ [repairEntry s c slot pc reason] }
  else countChan s c (fun k => { k with listFull := k.listFull + 1 })

/-- Retire a slot, with an entry for each pseudo-channel whose row contributed (R341). -/
def retireSlot (s : State) (c slot reason : Nat) (pcs : List Nat) : State :=
  if slotRetired s c slot then s
  else
    let s := countChan { s with retired := cset false s.retired (slotKey c slot) true } c (fun k => { k with retired := k.retired + 1 })
    pcs.foldl (fun s pc => appendRepair s c slot reason pc) s

/-- MEMCTL.CETHR (R344). -/
def ceLimit (s : State) : Nat := bits s.memctl.toNat 23 16

/-- Corrections of a slot in this pass (R341). -/
def passCorrections (s : State) (c slot pc : Nat) : Nat := cget 0 s.passCe (2 * slotKey c slot + pc)

/-- Count `n` corrected symbols of sector `q` of a slot (R331, R341, R343). -/
def countCe (s : State) (c slot q n : Nat) : State :=
  let b := tempBin (chanTemp s c)
  let s := countChan s c (fun k => { k with
    ce := k.ce + n
    bins := cset 0 k.bins b (cget 0 k.bins b + n)
    slots := cset 0 k.slots slot (cget 0 k.slots slot + n) })
  let key := 2 * slotKey c slot + sectorPc q
  let s := { s with passCe := cset 0 s.passCe key (cget 0 s.passCe key + n) }
  if ceLimit s ≠ 0 && decide (ceLimit s ≤ passCorrections s c slot 0 + passCorrections s c slot 1) then
    retireSlot s c slot 0 ([0, 1].filter (fun pc => passCorrections s c slot pc ≠ 0))
  else s

/-- The pass in which a sector of a slot in a pseudo-channel was first found uncorrectable, and 1; or 0. -/
def firstBad (s : State) (c slot pc : Nat) : Nat := cget 0 s.passBad (2 * slotKey c slot + pc)

/-- A read finds sector `q` of a slot uncorrectable (R341, R343): in a second pass, the slot is retired, with an entry for each
pseudo-channel in which one was found. -/
def countBad (s : State) (c slot q : Nat) : State :=
  let s := countChan s c (fun k => { k with uncorrectable := k.uncorrectable + 1 })
  let pc := sectorPc q
  let s := if firstBad s c slot pc = 0 then { s with passBad := cset 0 s.passBad (2 * slotKey c slot + pc) (s.scrubPass + 1) } else s
  let found := [0, 1].filter (fun pc => firstBad s c slot pc ≠ 0)
  if found.any (fun pc => firstBad s c slot pc ≠ s.scrubPass + 1) then retireSlot s c slot 1 found else s

/-- Sector number of a physical address. -/
def sectorOf (pa : Nat) : Nat := pa / 32

/-- A sector carries the poison mark (R322). -/
def devPoisoned (s : State) (pa : Nat) : Bool := cget false s.devPoison (sectorOf pa)

/-- The poisoned value of R333 in a sector: 32 zero bytes and the mark. -/
def poisonSector (s : State) (pa : Nat) : State :=
  { s with dev := csetRun 0#8 s.dev (sectorOf pa * 32) (List.replicate 32 0#8)
           devPoison := cset false s.devPoison (sectorOf pa) true }

/-- The 33 bytes of a data sector: 32 bytes and M (R322, R328). -/
def sectorBytes (s : State) (pa : Nat) : List Byte :=
  cgetRun 0#8 s.dev (sectorOf pa * 32) 32 ++ [if devPoisoned s pa then 1#8 else 0#8]

/-! ### The span code (R328) -/

/-- P of 16 rows of bytes (R328). -/
def xorRows (n : Nat) (l : List (List Byte)) : List Byte := l.foldl (List.zipWith (· ^^^ ·)) (List.replicate n 0#8)

/-- Q of 16 rows of bytes (R328), by Horner's rule from position 15 down. -/
def alphaRows (n : Nat) (l : List (List Byte)) : List Byte :=
  l.reverse.foldl (fun acc r => List.zipWith (fun a b => gfDouble a ^^^ b) acc r) (List.replicate n 0#8)

/-- The data sectors of a span, by position. -/
def spanData (s : State) (u q : Nat) : List (List Byte) := (List.range 16).map (fun d => sectorBytes s (spanAddr u d q))

/-- P of a span (R328). -/
def checkP (s : State) (u q : Nat) : List Byte := xorRows 33 (spanData s u q)

/-- Q of a span (R328). -/
def checkQ (s : State) (u q : Nat) : List Byte := alphaRows 33 (spanData s u q)

/-- By what the member at position `p` differs from what the checks were made for. -/
def skewKey (u p q : Nat) : Nat := 33 * (128 * (18 * u + p) + q)

def memberSkew (s : State) (u p q : Nat) : List Byte := cgetRun 0#8 s.skew (skewKey u p q) 33

def setSkew (s : State) (u p q : Nat) (l : List Byte) : State := { s with skew := csetRun 0#8 s.skew (skewKey u p q) l }

/-- Every member of a span agrees with the others. -/
def spanClean (s : State) (u q : Nat) : Bool := (List.range 18).all (fun p => (memberSkew s u p q).all (· == 0))

/-- S0 and S1 of byte `b`, of the members at the positions that `p` selects (R328). -/
def spanSyndrome (s : State) (u q b : Nat) (p : Nat → Bool) : Byte × Byte :=
  let x (d : Nat) : Byte := if p d then (memberSkew s u d q).getD b 0 else 0
  ((List.range 16).foldl (fun a d => a ^^^ x d) (x 16), (List.range 16).foldl (fun a d => a ^^^ gfMul (gfAlpha d) (x d)) (x 17))

/-- What the syndromes of a byte say (R328). -/
inductive Located where
  | good
  /-- The symbol at this position is wrong by this. -/
  | symbol (position : Nat) (slip : Byte)
  | unlocatable
  deriving DecidableEq, Repr

/-- Locate a wrong symbol (R328). -/
def locate (e : Byte × Byte) : Located :=
  if e.1 = 0 && e.2 = 0 then .good
  else if e.2 = 0 then .symbol 16 e.1
  else if e.1 = 0 then .symbol 17 e.2
  else match (List.range 16).find? (fun d => gfMul (gfAlpha d) e.1 == e.2) with
    | some d => .symbol d e.1
    | none => .unlocatable

/-- What the keeper's decode of position `d` gives beyond what the checks were made for, in byte `b`, from the members not
lost (R331). -/
def decodeSlip (s : State) (u q d b : Nat) : Byte :=
  let lost (p : Nat) : Bool := memberLost s u (posMember u p) q
  let (s0, s1) := spanSyndrome s u q b (fun p => p ≠ d && !lost p)
  match (List.range 18).find? (fun p => p ≠ d && lost p) with
  | none => s0
  | some p =>
    if p = 17 then s0
    else if p = 16 then gfMul s1 (gfInv (gfAlpha d))
    else gfMul (s1 ^^^ gfMul (gfAlpha p) s0) (gfInv (gfAlpha d ^^^ gfAlpha p))

/-- A data sector comes to read as other by these 33 bytes. -/
def flipSector (s : State) (u d q : Nat) (e : List Byte) : State :=
  let pa := spanAddr u d q
  let l := List.zipWith (· ^^^ ·) (sectorBytes s pa) e
  { s with dev := csetRun 0#8 s.dev pa (l.take 32)
           devPoison := cset false s.devPoison (sectorOf pa) ((l.getD 32 0).getLsbD 0) }

/-- Position `p` of a span comes to differ by `e` more from what the checks were made for. -/
def slipMember (s : State) (u p q : Nat) (e : List Byte) : State :=
  let s := setSkew s u p q (List.zipWith (· ^^^ ·) (memberSkew s u p q) e)
  if p < 16 then flipSector s u p q e else s

/-- A lost data sector is decoded by the keeper (R331): where the other members agree, it is what was written. -/
def decodeMember (s : State) (u d q : Nat) : State :=
  if spanClean s u q then s
  else slipMember s u d q (List.zipWith (· ^^^ ·) (memberSkew s u d q) ((List.range 33).map (decodeSlip s u q d)))

/-- The check members of a span that are not lost are written (R332, R333). -/
def writeChecks (s : State) (u q : Nat) : State :=
  [16, 17].foldl (fun s p =>
    if memberLost s u (posMember u p) q then s else mendSector s (memberChannel s u (posMember u p)) (unitSlot u) q) s

/-- P and Q are made for the data as it stands (R333). -/
def encodeSpan (s : State) (u q : Nat) : State :=
  writeChecks ((List.range 18).foldl (fun s p => setSkew s u p q (List.replicate 33 0)) s) u q

/-- Poison a span (R333): the lost data sectors, or all of them where a syndrome is unlocatable. -/
def poisonSpan (s : State) (u q : Nat) (all : Bool) : State :=
  let lost := (List.range 16).filter (fun d => all || memberLost s u (posMember u d) q)
  let s1 := lost.foldl (fun t d =>
    let t := poisonSector t (spanAddr u d q)
    if memberLost s u (posMember u d) q then t else mendSector t (memberChannel t u (posMember u d)) (unitSlot u) q) s
  countChan (encodeSpan s1 u q) (keeper s u) (fun k => { k with poisoned := k.poisoned + 1 })

/-! ### Reads and writes (R331, R332) -/

/-- A read of a sector under the sector code (R327, R331): a corrected symbol is counted, and what a decode leaves wrong is what
the sector reads as from then on. -/
def readSectorCode (s : State) (u p q : Nat) : State :=
  let c := memberChannel s u (posMember u p)
  let slot := unitSlot u
  if sectorClean s c slot q then s
  else match sectorFix (sectorDiff s c slot q), sectorRest s c slot q with
    | some fix, some rest =>
      let s := if fix.all (· == 0) then s else countCe s c slot q 1
      if rest.all (· == 0) then s
      else slipMember { s with symbols := csetRun 0#8 s.symbols (36 * sectorKey c slot q) fix } u p q (rest.take 33)
    | _, _ => s

/-- What a read of the sector at position `p` of a span does to the machine (R331): a lost sector of a span that has lost three
members is poisoned; one lost only by its symbols is written back. -/
def readMember (s : State) (u p q : Nat) : State :=
  let i := posMember u p
  if !memberLost s u i q then readSectorCode s u p q
  else
    let mine := memberBad s u i q && !memberShut s u i q
    let c := memberChannel s u i
    let s := if mine then countBad s c (unitSlot u) q else s
    if 3 ≤ lostCount s u q then poisonSpan s u q false
    else
      let s := if p < 16 then decodeMember s u p q else s
      if mine then mendSector s c (unitSlot u) q else s

/-- The sector at `pa` is lost with too many others of its span: a read of it gives the poisoned value (R331, R333). -/
def sectorGone (s : State) (pa : Nat) : Bool :=
  !allGood s && memberLost s (unitOf pa) (posMember (unitOf pa) (posOf pa)) (spanOf pa)
    && decide (3 ≤ lostCount s (unitOf pa) (spanOf pa))

/-- What a read of the sector at `pa` does to the machine (R331). -/
def readTouch (s : State) (pa : Nat) : State :=
  if allGood s then s else readMember s (unitOf pa) (posOf pa) (spanOf pa)

/-- The old value that a write of the sector at `pa` reads (R332): a lost one is decoded, and not written back. -/
def oldTouch (s : State) (pa : Nat) : State :=
  if allGood s then s
  else
    let u := unitOf pa
    let q := spanOf pa
    if !memberLost s u (posMember u (posOf pa)) q then readSectorCode s u (posOf pa) q
    else if 3 ≤ lostCount s u q then poisonSpan s u q false
    else decodeMember s u (posOf pa) q

/-- The rebuild in progress has written this sector to its target (R336). -/
def writeTarget (s : State) (u i q : Nat) : State :=
  match s.rebuild with
  | some r => if r.unit = u && r.member = i && q < r.cursor then mendSector s r.target (unitSlot u) q else s
  | none => s

/-- What a write of the sector does beside its bytes (R332): a member that is not lost is written; a lost one is not, and in
training it becomes stale. The checks are written, and the target of a rebuild that has passed the span (R336). -/
def writeTouch (s : State) (pa : Nat) : State :=
  if allGood s then s
  else
    let u := unitOf pa
    let q := spanOf pa
    let i := posMember u (posOf pa)
    let c := memberChannel s u i
    let s := if !memberLost s u i q then mendSector s c (unitSlot u) q
      else if chanHealth s c = .retrain then { s with stale := cset false s.stale (slotKey c (unitSlot u)) true }
      else s
    writeTarget (writeChecks s u q) u i q

/-- What a write of the sector does beside its bytes where all 16 data sectors of its span are written: no old sector is read,
and the checks are made from the new data (R332). -/
def wholeTouch (s : State) (pa : Nat) : State :=
  if allGood s then s else encodeSpan (writeTouch s pa) (unitOf pa) (spanOf pa)

/-- The home channel of a line (R323). -/
def homeChannel (s : State) (pa : Nat) : Nat := memberChannel s (unitOf pa) (posMember (unitOf pa) (posOf pa))

/-- The die that owns a stack (R19). -/
def stackDie (st : Nat) : Nat := if st < 3 then 0 else if st < 7 then 1 else 2

/-- The die of a line's home (R23, R293). -/
def homeDie (s : State) (pa : Nat) : Nat := stackDie (homeChannel s pa / 32)

end Sys2Proof.Machine
end

