-- ==== Sys2Proof/Machine/Memory.lean ====
section
/-!
DEFINITION. Global memory: tables of the state, translation (R286, R287, R400), homes, the L2 slices and the traffic counters
(R318, R319), the L1s and the stores that have reached an L1 (R293, R294), loads and stores at the widths an instruction takes,
acquires and drains (R179, R294).
-/

namespace Sys2Proof.Machine

/-- A memory is in its one canonical form: addresses rise strictly, and no entry equals 0, which is what an unlisted byte
reads as. -/
def Memory.wf (m : Cells Byte) : Bool := cellsWf 0#8 m

/-! ### Tables -/

def courseKey (blk c : Nat) : Nat := blk * 32 + c

def getCourse (s : State) (blk c : Nat) : Option Course := find? s.courses (courseKey blk c)

def setCourse (s : State) (blk c : Nat) (k : Course) : State := { s with courses := put s.courses (courseKey blk c) k }

def getBlock (s : State) (b : Nat) : Option Block := find? s.blocks b

def setBlock (s : State) (b : Nat) (k : Block) : State := { s with blocks := put s.blocks b k }

def getCore (s : State) (m : Nat) : Core := (find? s.cores m).getD Core.reset

def setCore (s : State) (m : Nat) (k : Core) : State := { s with cores := put s.cores m k }

def getCluster (s : State) (k : Nat) : Cluster := (find? s.clusters k).getD Cluster.reset

def setCluster (s : State) (k : Nat) (c : Cluster) : State := { s with clusters := put s.clusters k c }

def getPart (s : State) (p : BitVec 3) : Partition := (find? s.partitions p.toNat).getD Partition.reset

def setPart (s : State) (p : BitVec 3) (k : Partition) : State := { s with partitions := put s.partitions p.toNat k }

def getCtx (s : State) (a : BitVec 16) : Option Context := find? s.contexts a.toNat

def setCtx (s : State) (a : BitVec 16) (k : Context) : State := { s with contexts := put s.contexts a.toNat k }

def getCmd (s : State) (i : Nat) : Option Command := find? s.commands i

def setCmd (s : State) (i : Nat) (k : Command) : State := { s with commands := put s.commands i k }

def getJob (s : State) (i : Nat) : Option Job := find? s.jobs i

def setJob (s : State) (i : Nat) (k : Job) : State := { s with jobs := put s.jobs i k }

/-- The cluster of a core, the die of a core (R20). -/
def coreCluster (m : Nat) : Nat := m / 8
def coreDie (m : Nat) : Nat := m / 64

/-- The core a block runs on. -/
def blockCore (s : State) (blk : Nat) : Nat := match getBlock s blk with
  | some b => b.core
  | none => 0

/-- Draw a free value's index. -/
def draw (s : State) : Nat × State := (s.fresh, { s with fresh := s.fresh + 1 })

/-- Draw a new id. -/
def newId (s : State) : Nat × State := (s.nextId, { s with nextId := s.nextId + 1 })

/-! ### Homes -/

/-- Lines and sectors of an address space, for copies and marks. -/
def homeLine : Home → Home
  | .dev pa => .dev (pa / 128 * 128)
  | .host pa => .host (pa / 128 * 128)
  | .fabric d r va => .fabric d r (va / 128 * 128)

def homeSector : Home → Home
  | .dev pa => .dev (pa / 32 * 32)
  | .host pa => .host (pa / 32 * 32)
  | .fabric d r va => .fabric d r (va / 32 * 32)

/-- Offset within the 32-byte sector. -/
def homeOffset : Home → Nat
  | .dev pa | .host pa | .fabric _ _ pa => pa % 32

/-- `n` bytes further on. -/
def homeAdd (h : Home) (n : Nat) : Home :=
  match h with
  | .dev pa => .dev (pa + n)
  | .host pa => .host (pa + n)
  | .fabric d r va => .fabric d r (va + n)

/-! ### L2 slices and traffic counters (R23, R318, R319) -/

/-- The slice that caches a line: the one on its home channel (R23); for a line of host memory, one by its number. -/
def l2Slice (s : State) : Home → Option Nat
  | .dev pa => some (homeChannel s pa)
  | .host pa => some (pa / 128 % Config.channels)
  | .fabric _ _ _ => none

/-- The sectors of a line that `n` bytes at this offset touch, and those that they cover. -/
def sectorsOf (off n : Nat) : BitVec 4 := BitVec.ofNat 4 (2 ^ ((off + n + 31) / 32) - 2 ^ (off / 32))

def sectorsWhole (off n : Nat) : BitVec 4 := BitVec.ofNat 4 (2 ^ ((off + n) / 32) - 2 ^ ((off + 31) / 32))

/-- The numbers of the sectors in a mask. -/
def maskSectors (m : BitVec 4) : List Nat := (List.range 4).filter m.getLsbD

/-- Change the traffic counters of a context. -/
def addTraffic (s : State) (asid : BitVec 16) (f : Traffic → Traffic) : State :=
  { s with traffic := put s.traffic asid.toNat (f ((find? s.traffic asid.toNat).getD Traffic.zero)) }

/-- `n` sector reads, and `n` sector writes, of HBM for a context (R318). -/
def addReads (s : State) (asid : BitVec 16) (h : Home) (n : Nat) : State :=
  match h with
  | .dev _ => addTraffic s asid (fun t => { t with reads := t.reads + n })
  | _ => s

def addWrites (s : State) (asid : BitVec 16) (h : Home) (n : Nat) : State :=
  match h with
  | .dev _ => addTraffic s asid (fun t => { t with writes := t.writes + n })
  | _ => s

/-- A line that is evicted is written back: for the context that wrote it last, and its sectors for those that wrote them
(R318). -/
def writeBack (s : State) (x : L2Line) : State :=
  match x.writer with
  | none => s
  | some w =>
    x.dirty.foldl (fun s e => addWrites s e.2 x.home 1) (addTraffic s w (fun t => { t with writeBacks := t.writeBacks + 1 }))

/-- L2 of the weights in force; 0 reads as 1 (R392). -/
def l2Weight (s : State) (p : BitVec 3) : Nat := max 1 (bits (getPart s p).pwgtIn.toNat 15 8)

/-- The partition has more lines in a slice than its target (R319). -/
def aboveTarget (s : State) (l : List L2Line) (p : BitVec 3) : Bool :=
  let total := ((l.map (·.part)).eraseDups.map (l2Weight s)).sum
  decide (Config.sliceLines * l2Weight s p < (l.filter (fun x => x.part == p)).length * total)

/-- The line that makes room in a full slice (R319): the least recently used of the partitions above their targets, then of the
requester's own. -/
def l2Victim (s : State) (l : List L2Line) (p : BitVec 3) : Option L2Line :=
  ((l.reverse.find? (fun x => aboveTarget s l x.part)).or (l.reverse.find? (fun x => x.part == p))).or l.getLast?

/-- A slice with room for one line more. -/
def l2Room (s : State) (l : List L2Line) (p : BitVec 3) : List L2Line × State :=
  if l.length < Config.sliceLines then (l, s)
  else match l2Victim s l p with
    | some x => (l.erase x, writeBack s x)
    | none => (l, s)

/-- The line with sectors read into it and written. -/
def L2Line.touched (x : L2Line) (asid : BitVec 16) (need written : BitVec 4) : L2Line :=
  { x with held := x.held ||| need ||| written
           dirty := (maskSectors written).foldl (fun d k => put d k asid) x.dirty
           writer := if written = 0 then x.writer else some asid }

/-- A context's access to a line at its slice (R318, R319): sectors that it needs, and sectors that it writes. `keep` is 0 as
usual, 1 for a line to be kept less, 3 for one not to be kept (R161). -/
def l2Access (s : State) (asid : BitVec 16) (h : Home) (need written : BitVec 4) (keep : Nat) : State :=
  match l2Slice s h, getCtx s asid with
  | some k, some c =>
    let l := (find? s.l2 k).getD []
    match l.find? (fun x => x.home == homeLine h) with
    | some x =>
      let s := addReads s asid h (maskSectors (need &&& ~~~x.held)).length
      let s := if x.filler = asid then s else addTraffic s asid (fun t => { t with shared := t.shared + 1 })
      let y := x.touched asid need written
      { s with l2 := put s.l2 k (if keep = 0 then y :: l.erase x else l.map (fun e => if e == x then y else e)) }
    | none =>
      let s := addReads s asid h (maskSectors need).length
      if keep = 3 then addWrites s asid h (maskSectors written).length
      else
        let (l, s) := l2Room s l c.part
        let s := addTraffic s asid (fun t => { t with fills := t.fills + 1 })
        let y : L2Line := L2Line.touched ⟨homeLine h, c.part, asid, 0, [], none⟩ asid need written
        { s with l2 := put s.l2 k (if keep = 0 then y :: l else l ++ [y]) }
  | _, _ => s

/-- A context's access to `n` bytes at a home, line by line: a written sector that is not covered whole is read too (R332). -/
def l2Range (s : State) (asid : BitVec 16) (h : Home) (n : Nat) (write : Bool) : State :=
  match h with
  | .dev pa | .host pa =>
    (List.range ((pa + n + 127) / 128 - pa / 128)).foldl (fun s i =>
      let first := max pa (128 * (pa / 128 + i))
      let len := min (pa + n) (128 * (pa / 128 + i) + 128) - first
      let m := sectorsOf (first % 128) len
      l2Access s asid (homeAdd h (first - pa)) (if write then m &&& ~~~sectorsWhole (first % 128) len else m) (if write then m else 0) 0) s
  | .fabric _ _ _ => s

/-- A context's write of cells of one sector. -/
def l2Write (s : State) (asid : BitVec 16) (h : Home) (cells : List (Nat × Byte)) (keep : Nat) : State :=
  match h with
  | .dev pa | .host pa =>
    let m := sectorsOf (pa % 128) 32
    l2Access s asid h (if cells.length < 32 then m else 0) m keep
  | .fabric _ _ _ => s

/-- Lines for which `p` holds leave the slices, with no write-back of a context (R296, R297, R320). -/
def dropL2 (s : State) (p : L2Line → Bool) : State :=
  { s with l2 := (s.l2.map (fun e => (e.1, e.2.filter (fun x => !p x)))).filter (fun e => !e.2.isEmpty) }

/-- How little the caches keep of an access through a page of this cache policy and a record with this CACHE: of two that
differ, the one that retains less applies (R161). -/
def keepOf (page record : Nat) : Nat := if page = 2 || record = 3 then 3 else if page = 1 || record = 1 then 1 else 0

/-- Drop every L1 line for which `p` holds, in the cores for which `q` holds. -/
def dropLines (s : State) (q : Nat → Bool) (p : L1Line → Bool) : State :=
  { s with cores := s.cores.map (fun e => if q e.1 then (e.1, { e.2 with l1 := e.2.l1.filter (fun x => !p x) }) else e) }

/-- Invalidate the copies of a device line in the L1s of its home die (R273, R293). -/
def invalidateHomeDie (s : State) (pa : Nat) : State :=
  dropLines s (fun m => coreDie m = homeDie s pa) (fun x => x.home == Home.dev (pa / 128 * 128))

/-- A line the host holds is taken back before the write is performed (R297). -/
def backInvalidate (s : State) (pa : Nat) : State :=
  if s.hostHeld.contains (pa / 64) then
    { s with hostHeld := s.hostHeld.filter (· ≠ pa / 64), out := s.out ++ [.backInval (pa / 64 * 64)] }
  else s

/-- The bytes of a device sector become these cells; a write of all 32 bytes from clean sources clears the mark
(R167, R332). -/
def writeSector (s : State) (base : Nat) (cells : List (Nat × Byte)) : State :=
  { s with dev := csetAll 0#8 s.dev (cells.map (fun c => (base + c.1, c.2)))
           devPoison := if cells.length = 32 then cset false s.devPoison (sectorOf base) false else s.devPoison }

/-- A write reaches its home and is performed there (R293). -/
def performHome (s : State) (base : Nat) (cells : List (Nat × Byte)) : State :=
  invalidateHomeDie (writeSector (writeTouch (oldTouch s base) base) base cells) base

/-- A write of this device to its memory is performed: the host's copy of the line goes first (R293, R297). -/
def performDev (s : State) (base : Nat) (cells : List (Nat × Byte)) : State := performHome (backInvalidate s base) base cells

/-- A host-memory write. -/
def performHost (s : State) (base : Nat) (cells : List (Nat × Byte)) : State :=
  { s with hostMem := csetAll 0#8 s.hostMem (cells.map (fun c => (base + c.1, c.2))) }

/-- Set the poison mark of a destination sector whose bytes come from a poisoned source (R200). -/
def markPoison (s : State) : Home → State
  | .dev pa => { s with devPoison := cset false s.devPoison (sectorOf pa) true }
  | .host pa => { s with hostPoison := cset false s.hostPoison (pa / 64) true }
  | .fabric _ _ _ => s

/-- Consecutive cells, as runs of bytes. -/
def cellRuns : List (Nat × Byte) → List (Nat × List Byte)
  | [] => []
  | (o, b) :: t =>
    match cellRuns t with
    | (p, bs) :: r => if p = o + 1 then (o, b :: bs) :: r else (o, [b]) :: (p, bs) :: r
    | [] => [(o, [b])]

/-- A write is performed at its home in device or host memory (R293, R297). -/
def performAt (s : State) (h : Home) (cells : List (Nat × Byte)) : State :=
  match h with
  | .dev pa => performDev s pa cells
  | .host pa => performHost s pa cells
  | .fabric _ _ _ => s

/-- A write of a context is performed at its home (R293, R318). -/
def performBy (s : State) (asid : BitVec 16) (h : Home) (cells : List (Nat × Byte)) (keep : Nat) : State :=
  performAt (l2Write s asid h cells keep) h cells

/-- The writes of these sectors cover all 16 data sectors of the span of `pa` (R332). -/
def coversSpan (l : List (Home × Assoc Byte)) (pa : Nat) : Bool :=
  (List.range 16).all (fun d => l.any (fun g => g.1 == .dev (spanAddr (unitOf pa) d (spanOf pa)) && g.2.length == 32))

/-- The writes of an engine's row of a context are performed at their homes, sector by sector (R293, R332). -/
def performRow (s : State) (asid : BitVec 16) (l : List (Home × Assoc Byte)) : State :=
  l.foldl (fun s g => match g.1 with
    | .dev pa =>
      if allGood s || !coversSpan l pa then performBy s asid g.1 g.2 0
      else invalidateHomeDie (writeSector (wholeTouch (backInvalidate (l2Write s asid g.1 g.2 0) pa) pa) pa g.2) pa
    | _ => performBy s asid g.1 g.2 0) s

/-- A request goes to a remote device: it is outstanding until its answer comes (R168, R199, R293, R400). -/
def askRemote (s : State) (own : RemoteOwner) (device rasid va : Nat) (op : RemoteOp) (data : List Byte) : State :=
  let (id, s) := newId s
  { s with remotes := put s.remotes id ⟨device, own⟩, out := s.out ++ [.remote id device rasid va op data] }

/-- The `n` bytes of an answer. -/
def fitBytes (n : Nat) (l : List Byte) : List Byte := (List.range n).map (fun i => l.getD i 0#8)

/-- Some request that `p` selects is outstanding. -/
def remoteOpen (s : State) (p : RemoteOwner → Bool) : Bool := s.remotes.any (fun e => p e.2.owner)

/-- Requests that `p` selects are given up: an answer that still comes is for nobody. -/
def dropRemotes (s : State) (p : RemoteOwner → Bool) : State := { s with remotes := s.remotes.filter (fun e => !p e.2.owner) }

/-- The launch of a block, by its id; 0 for none. -/
def blockJobId (s : State) (blk : Nat) : Nat := match getBlock s blk with
  | some b => b.job
  | none => 0

/-- The context of a block. -/
def blockAsid (s : State) (blk : Nat) : BitVec 16 := match getBlock s blk with
  | some b => b.asid
  | none => 0

/-- A pending store of core `m` is performed; one to the fabric window goes to its device, which acknowledges it (R293). -/
def performStore (s : State) (m : Nat) (x : PendingStore) : State :=
  match x.home with
  | .fabric d r va =>
    (cellRuns x.cells).foldl (fun t e => askRemote t (.store m (blockJobId t x.blk)) d r (va + e.1) (.store []) e.2) s
  | h => performBy s (blockAsid s x.blk) h x.cells x.keep

/-- Perform the core's pending stores that `p` selects, oldest first. -/
def drainStores (s : State) (m : Nat) (p : PendingStore → Bool) : State :=
  let c := getCore s m
  let s1 := setCore s m { c with stores := c.stores.filter (fun x => !p x) }
  (c.stores.filter p).foldl (fun t x => performStore t m x) s1

/-- Perform every pending store of a core (R179, R198). -/
def drainCore (s : State) (m : Nat) : State :=
  if (getCore s m).stores.isEmpty then s else drainStores s m (fun _ => true)

/-- The lines that an acquire at this scope drops (R294); `seq` includes LOOSE lines (R289). -/
def acquireDrops (s : State) (m : Nat) (scope : Scope) (seq : Bool) (x : L1Line) : Bool :=
  (seq || !x.loose) &&
  match scope, x.home with
  | .device, .dev pa | .system, .dev pa => homeDie s pa != coreDie m
  | .system, .host _ | .system, .fabric _ _ _ => true
  | _, _ => false

/-- An acquire by a core at a scope (R294). -/
def acquire (s : State) (m : Nat) (scope : Scope) (seq : Bool) : State :=
  let c := getCore s m
  if c.l1.isEmpty then s
  else setCore s m { c with l1 := c.l1.filter (fun x => !acquireDrops s m scope seq x) }

/-- The bytes that stand at a home, and whether a sector among them reads as poisoned: by its mark, or because its span has
lost it (R331, R333). -/
def homeBytes (s : State) (h : Home) (n : Nat) : List Byte :=
  match h with
  | .dev pa => cgetRun 0#8 s.dev pa n
  | .host pa => cgetRun 0#8 s.hostMem pa n
  | .fabric _ _ _ => List.replicate n 0#8

def homePoisoned (s : State) (h : Home) (n : Nat) : Bool :=
  match h with
  | .dev pa => (List.range ((pa + n - 1) / 32 - pa / 32 + 1)).any (fun i =>
      cget false s.devPoison (pa / 32 + i) || sectorGone s (32 * (pa / 32 + i)))
  | .host pa => (List.range ((pa + n - 1) / 64 - pa / 64 + 1)).any (fun i => cget false s.hostPoison (pa / 64 + i))
  | .fabric _ _ _ => false

/-- What a read at the home does to a span (R331). -/
def homeTouch (s : State) (h : Home) : State :=
  match h with
  | .dev pa => readTouch s pa
  | _ => s

/-- What a read of `n` bytes at a home does to the spans (R331). -/
def touchRange (s : State) (h : Home) (n : Nat) : State :=
  match h with
  | .dev pa => if allGood s then s
    else (List.range ((pa + n - 1) / 32 - pa / 32 + 1)).foldl (fun t i => readTouch t (32 * (pa / 32 + i))) s
  | _ => s

/-- A read at the home: bytes, poison, machine. -/
def readHome (s : State) (h : Home) (n : Nat) : List Byte × Bool × State :=
  let s1 := homeTouch s h
  (homeBytes s1 h n, homePoisoned s1 h n, s1)

/-! ### Translation -/

/-- What a walk or a window lookup gives (R163, R287, R400). -/
inductive Xlate where
  /-- Not mapped; true where an entry of the walk read as poison (R334). -/
  | page (poison : Bool)
  | mem (home : Home) (leaf : Leaf)
  | fabric (device rasid va : Nat)
  deriving DecidableEq, Repr

/-- The partition's pages hold the whole page (R392). -/
def inPartition (p : Partition) (base shift : Nat) : Bool :=
  let b := bits p.pmem.toNat 22 0
  let n := bits p.pmem.toNat 55 32
  decide (b * 65536 ≤ base ∧ base + 2 ^ shift ≤ (b + n) * 65536)

/-- The checks of a leaf entry (R286). -/
def leafOf (p : Partition) (e shift : Nat) : Option Leaf :=
  let host := bitAt e 7
  let base := bits e 51 12 * 4096
  if bits e 63 52 ≠ 0 || bits e 11 9 ≠ 0 || bits e 6 5 = 3 || bits e 4 3 = 3 || base % 2 ^ shift ≠ 0 then none
  else if !host && !(decide (base + 2 ^ shift ≤ Config.deviceBytes) && inPartition p base shift) then none
  else some ⟨host, base, shift, bits e 6 5, bits e 4 3, bitAt e 2, bitAt e 1⟩

/-- Shift of the page or index at a level: 16, 21, 30, 39 (R287). -/
def levelShift : Nat → Nat
  | 0 => 16
  | 1 => 21
  | 2 => 30
  | _ => 39

/-- Entries a level uses (R287). -/
def levelMask : Nat → Nat
  | 0 => 32
  | _ => 512

/-- The table entry at level `l`, and down from there (R287). `host` and `frame` name the table. -/
def walkFrom (s : State) (p : Partition) (va : Nat) : Nat → Bool → Nat → Except Bool Leaf
  | l, host, frame =>
    let pa := frame + 8 * (va / 2 ^ levelShift l % levelMask l)
    let home := if host then Home.host pa else Home.dev pa
    if !host && Config.deviceBytes < pa + 8 then .error false
    else if homePoisoned s home 8 then .error true
    else
      let e := natOfBytes (homeBytes s home 8)
      if !bitAt e 0 then .error false
      else if bitAt e 8 then
        if bits e 63 52 ≠ 0 || bits e 11 9 ≠ 0 || bits e 6 1 ≠ 0 then .error false
        else match l with
          | 0 => .error false
          | l' + 1 => walkFrom s p va l' (bitAt e 7) (bits e 51 12 * 4096)
      else if l = 3 then .error false
      else match leafOf p e (levelShift l) with
        | some f => .ok f
        | none => .error false

/-- Translate a virtual address in a context (R163, R287, R400). -/
def translate (s : State) (asid : BitVec 16) (va : Nat) : Xlate :=
  match getCtx s asid with
  | none => .page false
  | some c =>
    let p := getPart s c.part
    if 2 ^ 48 ≤ va then .page false
    else if va / 2 ^ 44 = 15 then
      let e := (cget 0#64 p.fwent (bits va 43 36)).toNat
      if !bitAt e 63 || 10367 < bits e 62 49 then .page false
      else .fabric (bits e 62 49) (bits e 48 33) (bits e 28 17 * 2 ^ 36 + va % 2 ^ 36)
    else match walkFrom s p va 3 (c.ptroot.getLsbD 7) (bits c.ptroot.toNat 51 12 * 4096) with
      | .error e => .page e
      | .ok f =>
        let pa := f.base + va % 2 ^ f.shift
        .mem (if f.host then .host pa else .dev pa) f

/-- What the reads of a walk do to the spans of its table entries, from level `l` down (R331). -/
def walkTouch (s : State) (va : Nat) : Nat → Bool → Nat → State
  | l, host, frame =>
    let pa := frame + 8 * (va / 2 ^ levelShift l % levelMask l)
    let home := if host then Home.host pa else Home.dev pa
    let s := homeTouch s home
    let e := natOfBytes (homeBytes s home 8)
    if homePoisoned s home 8 || !bitAt e 0 || !bitAt e 8 then s
    else match l with
      | 0 => s
      | l' + 1 => walkTouch s va l' (bitAt e 7) (bits e 51 12 * 4096)

/-- What a walk for this address does to the spans of its table entries (R331). -/
def touchWalk (s : State) (asid : BitVec 16) (va : Nat) : State :=
  if allGood s then s
  else match getCtx s asid with
    | none => s
    | some c =>
      if 2 ^ 48 ≤ va || va / 2 ^ 44 = 15 then s
      else walkTouch s va 3 (c.ptroot.getLsbD 7) (bits c.ptroot.toNat 51 12 * 4096)

/-- Translate a load that may be satisfied from L1: a line held there was permitted when it was filled (R163). -/
def translateLoad (s : State) (m : Nat) (asid : BitVec 16) (va : Nat) : Xlate :=
  match (getCore s m).l1.find? (fun x => x.asid == asid && x.line == va / 128) with
  | some x => .mem (homeAdd x.home (va % 128)) ⟨false, 0, 0, 0, if x.loose then 2 else 0, false, false⟩
  | none => translate s asid va

/-- The address is mapped, and writable where `w`. -/
def accessible (s : State) (asid : BitVec 16) (va : Nat) (w : Bool) : Bool :=
  match translate s asid va with
  | .mem _ f => !w || f.write
  | _ => false

/-! ### Loads and stores of courses -/

/-- Overlay the core's stores not yet performed on the bytes of a line. -/
def overlay (stores : List PendingStore) (h : Home) (data : List Byte) : List Byte :=
  stores.foldl (fun d x =>
    let off := (List.range 4).find? (fun k => x.home == homeAdd h (32 * k))
    match off with
    | none => d
    | some k => x.cells.foldl (fun d c => d.set (32 * k + c.1) c.2) d) data

/-- The stores that touch a line. -/
def storesTo (h : Home) (x : PendingStore) : Bool := homeLine x.home == h

/-- The four poison bits of a line at its home. -/
def linePoison (s : State) (h : Home) : BitVec 4 :=
  (List.range 4).foldl (fun (m : BitVec 4) k =>
    if homePoisoned s (homeAdd h (32 * k)) 32 then m ||| (1#4 <<< k) else m) 0

/-- The poison of a line's sectors once the core's own stores that cover a whole sector have landed (R166, R167). -/
def clearedPoison (stores : List PendingStore) (h : Home) (p : BitVec 4) : BitVec 4 :=
  (List.range 4).foldl (fun (m : BitVec 4) k =>
    if stores.any (fun x => x.home == homeAdd h (32 * k) && x.cells.length == 32) then m &&& ~~~(1#4 <<< k) else m) p

/-- Lines of an L1: 640 KiB of 128 bytes (R21, R23). -/
def l1Lines : Nat := 5120

/-- The line a core holds for this address. -/
def l1Find (c : Core) (asid : BitVec 16) (va : Nat) : Option L1Line :=
  c.l1.find? (fun x => x.asid == asid && x.line == va / 128)

/-- Bring a line into the L1 (R23). A full L1 loses the line that it has held longest: which one goes is open. -/
def l1Fill (s : State) (m : Nat) (asid : BitVec 16) (va : Nat) (h : Home) (loose : Bool) : L1Line × State :=
  let hl := homeLine h
  let s1 := (List.range 4).foldl (fun t k => homeTouch t (homeAdd hl (32 * k))) s
  let c := getCore s1 m
  let x : L1Line := { asid := asid, line := va / 128, home := hl, loose := loose,
                      data := overlay c.stores hl (homeBytes s1 hl 128), poison := clearedPoison c.stores hl (linePoison s1 hl) }
  (x, setCore s1 m { c with l1 := (x :: c.l1.filter (fun y => !(y.asid == asid && y.line == va / 128))).take l1Lines })

/-- The sectors of a line that `n` bytes at a home touch. -/
def homeSectors (h : Home) (n : Nat) : BitVec 4 :=
  match h with
  | .dev pa | .host pa | .fabric _ _ pa => sectorsOf (pa % 128) n

/-- A load of `n` bytes that lie in one sector or one aligned piece of a line, at its home (R170, R290). -/
def loadHome (s : State) (m : Nat) (asid : BitVec 16) (h : Home) (n keep : Nat) : List Byte × Bool × State :=
  readHome (l2Access (drainStores s m (storesTo (homeLine h))) asid h (homeSectors h n) 0 keep) h n

/-- A load through the L1 (R293, R294). -/
def loadL1 (s : State) (m : Nat) (asid : BitVec 16) (va : Nat) (h : Home) (n : Nat) (loose : Bool) (keep : Nat) :
    List Byte × Bool × State :=
  let (x, s1) := match l1Find (getCore s m) asid va with
    | some x => (x, s)
    | none => l1Fill (l2Access s asid h (homeSectors h n) 0 keep) m asid va h loose
  ((x.data.drop (va % 128)).take n,
    (List.range ((va % 128 + n - 1) / 32 - va % 128 / 32 + 1)).any (fun i => x.poison.getLsbD (va % 128 / 32 + i)), s1)

/-- A load by a core: the home for STRONG, uncached and polling accesses, the L1 otherwise (R170, R290). A record whose CACHE
asks for no allocation in the L1 fills no line; of a record and a page that differ, the one that retains less applies
(R161). -/
def loadMem (s : State) (m : Nat) (asid : BitVec 16) (va : Nat) (h : Home) (f : Leaf) (n : Nat) (poll : Bool) (cache : Nat) :
    List Byte × Bool × State :=
  if poll || f.order = 1 || f.cache = 2 || (decide (2 ≤ cache) && (l1Find (getCore s m) asid va).isNone) then
    loadHome s m asid h n (keepOf f.cache cache)
  else loadL1 s m asid va h n (f.order = 2) (keepOf f.cache cache)

/-- Put the cells of one address list into sectors, later entries over earlier ones (R166). -/
def groupCells : List (Home × Byte) → List (Home × Assoc Byte) → List (Home × Assoc Byte)
  | [], acc => acc
  | (h, b) :: t, acc =>
    let k := homeSector h
    if acc.any (fun e => e.1 == k) then
      groupCells t (acc.map (fun e => if e.1 == k then (k, put e.2 (homeOffset h) b) else e))
    else groupCells t (acc ++ [(k, [(homeOffset h, b)])])

/-- A store's effect on the issuing core's own copy (R293). -/
def l1Update (x : L1Line) (h : Home) (cells : List (Nat × Byte)) : L1Line :=
  match (List.range 4).find? (fun k => h == homeAdd x.home (32 * k)) with
  | none => x
  | some k =>
    { x with data := cells.foldl (fun d c => d.set (32 * k + c.1) c.2) x.data
             poison := if cells.length = 32 then x.poison &&& ~~~(1#4 <<< k) else x.poison }

/-- One sector's store reaches the L1 (R293). -/
def pushStore (s : State) (m blk c : Nat) (keep : Home → Nat) (g : Home × Assoc Byte) : State :=
  let (i, s1) := newId s
  let k := getCore s1 m
  setCore s1 m { k with l1 := k.l1.map (fun x => l1Update x g.1 g.2)
                        stores := k.stores ++ [⟨i, blk, c, g.1, g.2, s1.now, keep g.1⟩] }

/-- The stores of one instruction (R165, R166). -/
def storeMem (s : State) (m blk c : Nat) (keep : Home → Nat) (cells : List (Home × Byte)) : State :=
  (groupCells cells []).foldl (fun t g => pushStore t m blk c keep g) s

/-- A read-modify-write of one naturally aligned unit at its home (R176). It answers the old value, or nothing where
the sector is poisoned. -/
def atomicAt (s : State) (m : Nat) (asid : BitVec 16) (h : Home) (n : Nat) (f : Nat → Option Nat) : Option Nat × State :=
  let s1 := homeTouch (l2Access (drainStores s m (storesTo (homeLine h))) asid h (homeSectors h n) 0 0) h
  if homePoisoned s1 h n then (none, s1)
  else
    let old := natOfBytes (homeBytes s1 h n)
    match f old with
    | none => (some old, s1)
    | some v =>
      let cells := (bytesOfNat n v).zipIdx.map (fun e => (homeOffset h + e.2, e.1))
      let s2 := performBy s1 asid (homeSector h) cells 0
      let k := getCore s2 m
      (some old, if k.l1.isEmpty then s2
        else setCore s2 m { k with l1 := k.l1.map (fun x => l1Update x (homeSector h) cells) })

/-! ### Accesses of the hub and the engines, at homes -/

/-- Read `n` bytes at a virtual address, in at most two 64 KiB pages; nothing where one is not mapped. -/
def hubRead (s : State) (asid : BitVec 16) (va n : Nat) : Option (List Byte × Bool) :=
  let cut := 65536 - va % 65536
  match translate s asid va with
  | .mem h _ =>
    if n ≤ cut then some (homeBytes s h n, homePoisoned s h n)
    else match translate s asid (va + cut) with
      | .mem h2 _ => some (homeBytes s h cut ++ homeBytes s h2 (n - cut),
          homePoisoned s h cut || homePoisoned s h2 (n - cut))
      | _ => none
  | _ => none

/-- What a read of the hub does to the spans that it and its walks read (R331). -/
def hubSpans (s : State) (asid : BitVec 16) (va n : Nat) : State :=
  if allGood s then s
  else
    let cut := 65536 - va % 65536
    let part (s : State) (va n : Nat) : State :=
      let s := touchWalk s asid va
      match translate s asid va with
      | .mem h _ => touchRange s h n
      | _ => s
    let s := part s va (min n cut)
    if n ≤ cut then s else part s (va + cut) (n - cut)

/-- What a read of the hub for a context does beside its answer: to the spans (R331), and at the slices (R318). -/
def hubTouch (s : State) (asid : BitVec 16) (va n : Nat) : State :=
  let s := hubSpans s asid va n
  let cut := 65536 - va % 65536
  let part (s : State) (va n : Nat) : State := match translate s asid va with
    | .mem h _ => l2Range s asid h n false
    | _ => s
  if n ≤ cut then part s va n else part (part s va cut) (va + cut) (n - cut)

/-- Write bytes at a home, sector by sector. -/
def writeHome (s : State) (asid : BitVec 16) (h : Home) (bs : List Byte) : State :=
  (groupCells (bs.zipIdx.map (fun e => (homeAdd h e.2, e.1))) []).foldl (fun t g => performBy t asid g.1 g.2 0) s

/-- Write bytes at a virtual address whose pages are mapped; an unmapped byte is dropped. -/
def hubWrite (s : State) (asid : BitVec 16) (va : Nat) (bs : List Byte) : State :=
  (groupCells (bs.zipIdx.filterMap (fun e =>
    match translate s asid (va + e.2) with
    | .mem h _ => some (h, e.1)
    | _ => none)) []).foldl (fun t g => performBy t asid g.1 g.2 0) s

/-- A word of memory as the hub reads it. -/
def hubNat (s : State) (asid : BitVec 16) (va n : Nat) : Option Nat :=
  (hubRead s asid va n).map (fun r => natOfBytes r.1)

end Sys2Proof.Machine
end

