-- ==== Sys2Proof/Machine/Ops.lean ====
section
/-!
DEFINITION. The named operations over registers, the divergence stack and traps: reading and writing registers (R54 to
R63), pushes, pops and regions (R135 to R144), deaths and casualties (R167, R321), trap records (R364, R369 to R371),
TAKING A FAULT as one operation (R365, R366), host service (R374), replay of a block (R359) and removal of a context
(R388).
-/

namespace Sys2Proof.Machine

/-! ### Registers -/

/-- v r is spent (R61). -/
def vSpent (k : Course) (r : Nat) : Bool := k.vspent.getLsbD r

/-- s r is spent (R61). -/
def sSpent (k : Course) (r : Nat) : Bool := k.sspent.getLsbD r

/-- Lane `l` of v r (R54, R61). -/
def readV (k : Course) (r l : Nat) : Word := if vSpent k r then spentWord else cget 0#32 k.vregs (32 * r + l)

/-- s r (R55, R61). -/
def readS (k : Course) (r : Nat) : Word := if sSpent k r then spentWord else cget 0#32 k.sregs r

/-- A register of the operand space as lane `l` reads it (R54, R56, R61). -/
def readReg (k : Course) (r : RegName) (l : Nat) : Word :=
  match r with
  | .v n => readV k n.val l
  | .s n => readS k n.val
  | .sz => 0

/-- The next register of a pair or range; sz stays sz (R57). -/
def regPlus (r : RegName) (i : Nat) : RegName :=
  match r with
  | .v n => if h : n.val + i < 96 then .v ⟨n.val + i, h⟩ else .sz
  | .s n => if h : n.val + i < 31 then .s ⟨n.val + i, h⟩ else .sz
  | .sz => .sz

/-- A pair as 64 bits (R57). -/
def readPair (k : Course) (r : RegName) (l : Nat) : Double := readReg k (regPlus r 1) l ++ readReg k r l

/-- The lanes of a predicate (R58). -/
def readPred (k : Course) (p : PredName) : Lanes := if p = 0 then allLanes else cget 0#32 k.preds p.toNat

/-- The lanes where a guard is true (R79). -/
def guardLanes (k : Course) (g : BitVec 4) : Lanes :=
  let v := readPred k (g.truncate 3)
  if g.getLsbD 3 then ~~~v else v

/-- Write lanes of v r; a spent register reads 0x7FF0_DEAD in the lanes the write does not reach (R59, R61). -/
def writeV (k : Course) (r : Nat) (m : Lanes) (vals : List Word) : Course :=
  if m = 0 then k
  else
    let base := if vSpent k r then csetRun 0#32 k.vregs (32 * r) (List.replicate 32 spentWord) else k.vregs
    { k with vregs := csetAll 0#32 base ((lanesOf m).map (fun l => (32 * r + l, vals.getD l 0#32)))
             vspent := k.vspent &&& ~~~(1#96 <<< r) }

/-- Write s r (R55, R61). -/
def writeS (k : Course) (r : Nat) (w : Word) : Course :=
  { k with sregs := cset 0#32 k.sregs r w, sspent := k.sspent &&& ~~~(1#31 <<< r) }

/-- Write lanes of a predicate; p0 discards (R58). -/
def writeP (k : Course) (p : Nat) (m v : Lanes) : Course :=
  if p = 0 then k
  else { k with preds := cset 0#32 k.preds p ((cget 0#32 k.preds p &&& ~~~m) ||| (v &&& m)) }

/-- A register write lands; dead and exited lanes are never written (R59). -/
def applyWrite (k : Course) (w : RegWrite) : Course :=
  match w with
  | .vec r m vals => writeV k r (m &&& k.live) vals
  | .scl r v => writeS k r v
  | .prd p m v => writeP k p (m &&& k.live) v

/-- Register writes land in order. -/
def applyWrites (k : Course) (l : List RegWrite) : Course := l.foldl applyWrite k

/-- The write of a per-lane or uniform result to a destination (R55, R56, R59). -/
def destWrite (d : RegName) (m : Lanes) (f : Nat → Word) : List RegWrite :=
  match d with
  | .v n => [.vec n.val m ((List.range 32).map f)]
  | .s n => if m = 0 then [] else [.scl n.val (f ((lowestLane m).getD 0))]
  | .sz => []

/-- The resources a write touches (R86). -/
def writeRes : RegWrite → List Nat
  | .vec r _ _ => [r]
  | .scl r _ => [96 + r]
  | .prd p _ _ => if p = 0 then [] else [128 + p]

/-- Set the spent bit of registers (R61). -/
def spendRegs (k : Course) (l : List Nat) : Course :=
  l.foldl (fun k r => if r < 96 then { k with vspent := k.vspent ||| (1#96 <<< r) }
    else if r < 127 then { k with sspent := k.sspent ||| (1#31 <<< (r - 96)) } else k) k

/-- A path slot (R135). -/
def getPath (k : Course) (slot : Nat) : Option Path := if slot = 0 then k.path0 else k.path1

def setPath (k : Course) (slot : Nat) (p : Option Path) : Course :=
  if slot = 0 then { k with path0 := p } else { k with path1 := p }

/-- A new running path (R137, R138, R143). -/
def newPath (pc : Double) (slot : Nat) (mask : Lanes) (sig : Word) (region : Option Nat) (pending : List Nat) : Path :=
  { pc := pc, slot := slot, mask := mask, sig := sig, region := region, pending := pending, park := .running,
    waited := [], faultId := none, held := false, remotes := [], latched := none, delivery := none, fetched := [] }

/-- Change a course, if it is there. -/
def updCourse (s : State) (blk c : Nat) (f : Course → Course) : State :=
  match getCourse s blk c with
  | some k => setCourse s blk c (f k)
  | none => s

/-- Change a path, if it is there. -/
def updPath (s : State) (blk c slot : Nat) (f : Path → Path) : State :=
  updCourse s blk c (fun k => setPath k slot ((getPath k slot).map f))

/-- The course numbers of a block. -/
def blockCourses (s : State) (blk : Nat) : List Nat := match getBlock s blk with
  | some b => List.range b.courses
  | none => []

/-- Courses of resident blocks on quarter `q` of a core, those that have exited included (R53, R238). -/
def quarterHeld (s : State) (m q : Nat) : List Course :=
  s.courses.filterMap (fun e => match getBlock s (e.1 / 32) with
    | some b => if b.core = m && e.1 % 32 % 4 = q then some e.2 else none
    | none => none)

/-! ### The launch of a block -/

/-- A 64-bit field of a packet. -/
def word64 (l : List Word) (i : Nat) : Nat := (l.getD i 0).toNat + 2 ^ 32 * (l.getD (i + 1) 0).toNat

/-- CODE of a launch (R34). -/
def jobCode (j : Job) : Nat := word64 j.words 2

/-- The launch of a block. -/
def blockJob (s : State) (blk : Nat) : Option Job := match getBlock s blk with
  | some b => getJob s b.job
  | none => none

/-- A block becomes done once (R225, R226). -/
def markDone (s : State) (blk : Nat) : State :=
  match getBlock s blk with
  | none => s
  | some b =>
    if b.done then s
    else
      let s := setBlock s blk { b with done := true }
      match getJob s b.job with
      | some j => setJob s b.job { j with doneBlocks := j.doneBlocks + 1 }
      | none => s

/-- A block has made progress: a course has retired an instruction, or a command has gone on (R386). -/
def progress (s : State) (blk : Nat) : State := match getBlock s blk with
  | some b => setBlock s blk { b with lastProgress := s.now }
  | none => s

/-- Every course of a block has exited. -/
def coursesEnded (s : State) (blk : Nat) (b : Block) : Bool :=
  (List.range b.courses).all (fun c => match getCourse s blk c with
    | some k => k.live = 0
    | none => true)

/-- A block whose last course has exited is done (R225); one that is to be replayed is not (R359). -/
def markExited (s : State) (blk : Nat) : State :=
  match getBlock s blk with
  | some b => if !b.replaying && coursesEnded s blk b then markDone s blk else s
  | none => s

/-- CODE of the block's launch. -/
def blockCode (s : State) (blk : Nat) : Nat := ((blockJob s blk).map jobCode).getD 0

/-- Packet offset from CODE of a position, in [31:4] with the slot in [1:0] (R369, R381). -/
def packPos (code : Nat) (pc : Double) (slot : Nat) : Word := BitVec.ofNat 32 ((pc.toNat + 2 ^ 64 - code) % 2 ^ 32 / 16 * 16 + slot)

/-! ### Interrupts -/

/-- Raise a vector of a partition: 0 errors, 1 page requests, 2 deadline risk (R392, R394). -/
def raise (s : State) (p : BitVec 3) (which : Nat) : State :=
  let v := (getPart s p).pvecIn.toNat
  { s with out := s.out ++ [.msi p (bits v (16 * which + 5) (16 * which))] }

/-! ### The context area (R364) -/

/-- Base of a course's stack slot. -/
def slotBase (x : Context) (t : Nat) : Nat := x.area.toNat + 0x1040 + 24 * x.depth * t

/-- Address of stack entry `n` (R135, R364). -/
def entryAddr (x : Context) (t n : Nat) : Nat := slotBase x t + 16 * n

/-- Address of the trap word of entry `n` (R364). -/
def trapWordAddr (x : Context) (t n : Nat) : Nat := slotBase x t + 16 * x.depth + 8 * n

def linkField (l : Option Nat) : Nat := l.getD 0x7F

def linkOf (n : Nat) : Option Nat := if n = 0x7F then none else some n

/-- The 16 bytes of an entry (R136). -/
def entryBytes (e : Entry) : List Byte :=
  bytesOfNat 8 (e.addr % 2 ^ 48 / 16 * 16 + e.kind * 2 ^ 48 + linkField e.link * 2 ^ 50)
    ++ bytesOfNat 4 e.mask.toNat ++ bytesOfNat 4 e.word3.toNat

/-- The 8 bytes of its trap word (R364). -/
def trapWordBytes (e : Entry) : List Byte := bytesOfNat 8 (e.sig.toNat + e.slot * 2 ^ 32 + b2n e.trap * 2 ^ 34)

/-- An entry from its bytes. -/
def entryOf (b t : Nat) : Entry :=
  { word3 := BitVec.ofNat 32 (b / 2 ^ 96), mask := BitVec.ofNat 32 (b / 2 ^ 64), link := linkOf (bits b 56 50),
    kind := bits b 49 48, addr := bits b 47 4 * 16, sig := BitVec.ofNat 32 t, slot := bits t 33 32, trap := bitAt t 34 }

/-- Entry `n` of a course's stack: nothing where it cannot be translated; true where it reads as poison (R334). -/
def readEntry (s : State) (x : Context) (t n : Nat) : Option (Entry × Bool) :=
  match hubRead s x.asid (entryAddr x t n) 16, hubRead s x.asid (trapWordAddr x t n) 8 with
  | some (b, p), some (w, q) => some (entryOf (natOfBytes b) (natOfBytes w), p || q)
  | _, _ => none

/-- What a read of entry `n` does to the spans that hold it (R331). -/
def touchEntry (s : State) (x : Context) (t n : Nat) : State :=
  hubTouch (hubTouch s x.asid (entryAddr x t n) 16) x.asid (trapWordAddr x t n) 8

/-- The first address among `n` bytes, fewer than a page, whose page is not mapped, or not writable where `w`. -/
def badAddr (s : State) (asid : BitVec 16) (va n : Nat) (w : Bool) : Option Nat :=
  if !accessible s asid va w then some va
  else if !accessible s asid (va + n - 1) w then some ((va + n - 1) / 65536 * 65536) else none

/-- The first address of an entry and its trap word that is not mapped, or not writable where `w`. -/
def entryBad (s : State) (x : Context) (t n : Nat) (w : Bool) : Option Nat :=
  match badAddr s x.asid (entryAddr x t n) 16 w with
  | some a => some a
  | none => badAddr s x.asid (trapWordAddr x t n) 8 w

/-- Both writes of an entry translate to writable pages (R147, R364). -/
def entryWritable (s : State) (x : Context) (t n : Nat) : Bool := (entryBad s x t n true).isNone

/-- Where the entries that the machine wrote are kept. -/
def entryKey (x : Context) (t n : Nat) : Nat := (x.asid.toNat * 2 ^ 16 + t) * 64 + n

/-- Write an entry and its trap word. -/
def writeEntry (s : State) (x : Context) (t n : Nat) (e : Entry) : State :=
  let s := { s with entries := put s.entries (entryKey x t n) e }
  hubWrite (hubWrite s x.asid (entryAddr x t n) (entryBytes e)) x.asid (trapWordAddr x t n) (trapWordBytes e)

/-- A path entry (R136). -/
def pathEntry (p : Path) : Entry := ⟨p.sig, p.mask, p.region, 0, p.pc.toNat, 0, p.slot, false⟩

/-! ### Trap records -/

def plainFault (cause : Nat) (mask : Lanes) : FaultInfo := ⟨cause, 0, mask, 0, 0, false⟩

/-- The 32 bytes of a record (R369). -/
def recordBytes (time : Nat) (f : FaultInfo) (pos : Word) (core course slot : Nat) (replay fatal : Bool)
    (seq : BitVec 21) : List Byte :=
  let w : Nat := seq.toNat + b2n fatal * 2 ^ 21 + b2n f.engine * 2 ^ 22 + b2n replay * 2 ^ 23 + slot % 2 * 2 ^ 24
    + course % 32 * 2 ^ 25 + core % 256 * 2 ^ 30 + f.detail % 16 * 2 ^ 38 + f.cause % 256 * 2 ^ 42
    + pos.toNat % 4 * 2 ^ 50 + pos.toNat / 16 * 2 ^ 52 + f.tag.toNat * 2 ^ 80
  bytesOfNat 12 w ++ bytesOfNat 4 f.mask.toNat ++ bytesOfNat 8 f.info ++ bytesOfNat 8 time

/-- TWIDX, TRIDX, TDROP (R364); a poisoned TRIDX reads as TWIDX - 128 (R334). -/
def ringIndex (s : State) (x : Context) (off : Nat) : Option Nat := hubNat s x.asid (x.area.toNat + off) 8

def ringRead (s : State) (x : Context) : Option Nat :=
  match hubRead s x.asid (x.area.toNat + 8) 8, ringIndex s x 0 with
  | some (b, p), some w => some (if p then (w + 2 ^ 64 - 128) % 2 ^ 64 else natOfBytes b)
  | _, _ => none

/-- The ring holds 128 records that the host has not consumed (R371). -/
def ringFull (s : State) (x : Context) : Bool :=
  match ringIndex s x 0, ringRead s x with
  | some w, some r => (w + 2 ^ 64 - r) % 2 ^ 64 == 128
  | _, _ => false

/-- The ring and its indices can be written (R364). -/
def ringWritable (s : State) (x : Context) : Bool :=
  match ringIndex s x 0 with
  | none => false
  | some w => (badAddr s x.asid x.area.toNat 24 true).isNone && (badAddr s x.asid (x.area.toNat + 0x40 + 32 * (w % 128)) 32 true).isNone

/-- Put a record into the ring, or drop it (R371). -/
def putRecord (s : State) (x : Context) (bs : List Byte) : State :=
  match ringIndex s x 0 with
  | none => s
  | some w =>
    if ringFull s x then
      match ringIndex s x 0x10 with
      | some d => hubWrite s x.asid (x.area.toNat + 0x10) (bytesOfNat 8 (d + 1))
      | none => s
    else hubWrite (hubWrite s x.asid (x.area.toNat + 0x40 + 32 * (w % 128)) bs) x.asid x.area.toNat (bytesOfNat 8 (w + 1))

/-- The next sequence number of a core (R369). -/
def nextSeq (s : State) (m : Nat) : BitVec 21 × State :=
  let c := getCore s m
  (c.seq, setCore s m { c with seq := c.seq + 1 })

/-! ### Removal and the block's end -/

/-- Every live lane of a course leaves, with nothing performed: an injected EXIT (R388), or the removal of R359. -/
def emptyCourse (k : Course) : Course :=
  { k with live := 0, path0 := none, path1 := none, depth := 0, longs := [], waitLongs := [], popFault := none,
           tape := Tape.idle, engErrs := [], stopped := false, allowance := 0 }

/-- Empty every course of the blocks for which `p` holds. -/
def emptyBlocks (s : State) (p : Nat → Block → Bool) : State :=
  { s with courses := s.courses.map (fun e =>
      match getBlock s (e.1 / 32) with
      | some b => if p (e.1 / 32) b then (e.1, emptyCourse e.2) else e
      | none => e) }

/-- Discard the commands that have not begun, of the blocks for which `p` holds (R388 item 4). -/
def discardCommands (s : State) (p : Nat → Block → Bool) : State :=
  { s with commands := s.commands.filter (fun e =>
      match getBlock s e.2.blk with
      | some b => !(p e.2.blk b) || e.2.begun
      | none => true) }

/-- The steps of a removal after its record: nothing more is placed, consumed or performed (R388 items 2 to 6). -/
def dropContext (s : State) (x : Context) : State :=
  let mine (_ : Nat) (b : Block) : Bool := b.asid == x.asid
  let s := discardCommands (emptyBlocks s mine) mine
  let s := { s with waitingBlocks := s.waitingBlocks.filter (fun w =>
      match getJob s w.job with
      | some j => j.asid != x.asid
      | none => true) }
  let s := { s with blocks := s.blocks.map (fun e => if e.2.asid == x.asid then (e.1, { e.2 with replaying := false }) else e) }
  let fs := x.faults.filter (fun e => match e.owner with
    | .command _ => true
    | _ => false)
  setCtx s x.asid { x with state := .removed, faults := fs, step := none, saved := [], hostSaved := false }

/-- Who takes a fatal fault: its position, course and slot. -/
structure FatalSite where
  f : FaultInfo
  pos : Word
  course : Nat
  slot : Nat
  deriving DecidableEq, Repr

/-- The FATAL record of one fault, if it can be written (R371, R388). -/
def fatalRecord (x : Context) (core : Nat) (s : State) (e : FatalSite) : State :=
  if ringWritable s x then
    let (q, s) := nextSeq s core
    putRecord s x (recordBytes s.now e.f e.pos core e.course e.slot false true q)
  else s

/-- Remove a context (R388): the FATAL record of each fault, the error interrupt unless `quiet`, then the rest. -/
def removeAll (s : State) (asid : BitVec 16) (core : Nat) (l : List FatalSite) (quiet : Bool) : State :=
  match getCtx s asid with
  | none => s
  | some x =>
    if x.state = .removed then s
    else
      let s := l.foldl (fatalRecord x core) s
      let s := if quiet then s else raise s x.part 0
      match getCtx s asid with
      | some x => dropContext s x
      | none => s

/-- Remove a context after one fault. -/
def removeContext (s : State) (asid : BitVec 16) (f : FaultInfo) (pos : Word) (core course slot : Nat) (quiet : Bool) :
    State := removeAll s asid core [⟨f, pos, course, slot⟩] quiet

/-! ### Regions, deaths, exits -/

/-- The context of a block. -/
def blockCtx (s : State) (blk : Nat) : Option Context := match getBlock s blk with
  | some b => getCtx s b.asid
  | none => none

/-- A write of the context area has failed: the context is removed without a record, with the error interrupt (R364). -/
def loseContext (s : State) (asid : BitVec 16) : State :=
  match getCtx s asid with
  | some x => if x.state = .removed then s else dropContext (raise s x.part 0) x
  | none => s

/-- Write a changed entry; a write that cannot be made removes the context without a record (R364). -/
def rewriteEntry (s : State) (x : Context) (t n : Nat) (e : Entry) : State :=
  if entryWritable s x t n then writeEntry s x t n e
  else loseContext s x.asid

/-- The position of a path, for records. -/
def pathPos (s : State) (blk : Nat) (p : Path) : Word := packPos (blockCode s blk) p.pc p.slot

/-- Write one record of a fault of a course (R371). -/
def courseRecord (s : State) (blk c slot : Nat) (f : FaultInfo) (pos : Word) (replay : Bool) : State :=
  match blockCtx s blk with
  | none => s
  | some x =>
    if !ringWritable s x then loseContext s x.asid
    else
      let (q, s) := nextSeq s (blockCore s blk)
      putRecord s x (recordBytes s.now f pos (blockCore s blk) c slot replay false q)

/-- The lanes a course still has, to end a course that has none: its slots and stack are discarded (R144). -/
def endIfEmpty (k : Course) : Course := if k.live = 0 then emptyCourse k else k

/-- The slot in which a course stands in its arrival park (R266). -/
def arrivalSlot (k : Course) : Option Nat :=
  [0, 1].find? (fun i => match getPath k i with
    | some p => p.park == .arrival
    | none => false)

/-- The members of a team that stand in the arrival park take TEAM, each at its own instruction (R267). -/
def arrivalSites (s : State) (blk : Nat) (team : Option Nat) : List FatalSite :=
  (blockCourses s blk).filterMap (fun c => match getCourse s blk c with
    | none => none
    | some k =>
      if k.team ≠ team then none
      else (arrivalSlot k).bind (fun slot => (getPath k slot).map (fun p => ⟨plainFault 0x0E p.mask, pathPos s blk p, c, slot⟩)))

/-- A member has ended while others stand in the arrival park of its team's collective: each takes TEAM, which removes the
context (R267). -/
def teamBroken (s : State) (blk : Nat) (team : Option Nat) : State :=
  match getBlock s blk with
  | none => s
  | some b =>
    if b.collectives.any (fun x => some x.team == team && !x.formed && !x.arrived.isEmpty) && !(arrivalSites s blk team).isEmpty then
      removeAll s b.asid b.core (arrivalSites s blk team) false
    else s

/-- A course has exited: its team may be broken, and its block done (R225, R267). -/
def courseExited (s : State) (blk : Nat) (team : Option Nat) : State := teamBroken (markExited s blk) blk team

/-- Every live lane of a course dies, with no handler (R334). -/
def killCourse (s : State) (blk c : Nat) : State :=
  match getCourse s blk c with
  | none => s
  | some k =>
    let d := k.live
    let s := setCourse s blk c (endIfEmpty { k with live := 0, dead := k.dead ||| d, casualty := d })
    courseExited (courseRecord s blk c 0 (plainFault 0x0D d) (packPos 0 0 0) false) blk k.team

/-- The cause and the page of a fault: a fault met again at a reissue has the same ones (R361). -/
def faultKey (f : FaultInfo) : Nat := f.cause * 2 ^ 48 + f.info % 2 ^ 48 / 65536

/-- The next fault id that is not outstanding (R370, R374). -/
def nextFid (x : Context) : Nat → Nat
  | 0 => x.nextFault
  | n + 1 =>
    let i := (x.nextFault + (x.faults.length - n)) % 65536
    if x.faults.any (fun e => e.fid = i) then nextFid x n else i

/-- Open a fault for the host (R374): the record is the request. A fault met again at a reissue keeps its id, and makes
no second request (R361). It answers the fault id. -/
def openFault (s : State) (blk c slot : Nat) (f : FaultInfo) (pos : Word) (owner : FaultOwner) (old : Option (Nat × Nat)) :
    Nat × State :=
  match blockCtx s blk with
  | none => (0, s)
  | some x =>
    let core := blockCore s blk
    let again := match old with
      | some (fid, key) => if key = faultKey f && !x.faults.any (fun e => e.fid = fid) then some fid else none
      | none => none
    match again with
    | some fid => (fid, setCtx s x.asid { x with faults := x.faults ++ [⟨fid, f, pos, core, c, slot, owner, none⟩] })
    | none =>
      let fid := nextFid x (x.faults.length + 1)
      let (q, s) := nextSeq s core
      let bs := recordBytes s.now { f with info := f.info % 2 ^ 48 + fid * 2 ^ 48 } pos core c slot false false q
      let full := ringFull s x
      let x := { x with nextFault := (fid + 1) % 65536
                        faults := x.faults ++ [⟨fid, f, pos, core, c, slot, owner, if full then some bs else none⟩] }
      let s := setCtx s x.asid x
      if !ringWritable s x then (fid, loseContext s x.asid)
      else if full then (fid, s)
      else (fid, raise (putRecord s x bs) x.part 1)

/-- What stands at the top of a stack below its void entries (R138): nothing, an entry with its number and poison, or an
entry that cannot be read. -/
inductive Top where
  | empty
  | entry (n : Nat) (e : Entry) (poison : Bool)
  | unread (n : Nat) (e : Entry)
  deriving DecidableEq, Repr

/-- An entry as the machine wrote it; one that the machine has not written is a free value. -/
def seenEntry (s : State) (x : Context) (t n : Nat) : Entry :=
  (find? s.entries (entryKey x t n)).getD
    ⟨Config.freeWord s.fresh, Config.freeWord (s.fresh + 1), none, 0, (Config.freeWord (s.fresh + 2)).toNat / 16 * 16, 0,
     (Config.freeWord (s.fresh + 3)).toNat % 3, false⟩

/-- An entry as the area holds it, or as the machine wrote it where it cannot be read. -/
def knownEntry (s : State) (x : Context) (t n : Nat) : Entry :=
  match readEntry s x t n with
  | some (e, _) => e
  | none => seenEntry s x t n

/-- The top entry that is not void, below depth `d` (R138). -/
def topEntry (s : State) (x : Context) (t : Nat) : Nat → Top
  | 0 => .empty
  | d + 1 =>
    match readEntry s x t d with
    | some (e, p) => if e.kind = 3 && !p then topEntry s x t d else .entry d e p
    | none => if (seenEntry s x t d).kind = 3 then topEntry s x t d else .unread d (seenEntry s x t d)

/-- Under the tape the path that has just come to a slot issues first (R219). -/
def tapeFront (k : Course) (slot : Nat) : Course :=
  if k.tape.mode = .idle then k else { k with tape := { k.tape with order := slot + 1 } }

/-- The first address of an entry's words that does not translate. -/
def entryBadRead (s : State) (x : Context) (t n : Nat) : Nat := (entryBad s x t n false).getD (entryAddr x t n)

/-- A pop that cannot be translated: DSPILL with the entry's position and mask, and the slot stays empty (R147). -/
def spillPop (s : State) (blk c slot va : Nat) (e : Entry) : State :=
  let f : FaultInfo := { plainFault 0x0A e.mask with info := va }
  let (fid, s) := openFault s blk c slot f (packPos (blockCode s blk) (BitVec.ofNat 64 e.addr) e.slot) (.pop blk c slot) none
  updCourse s blk c (fun k => { k with popFault := some (fid, slot) })

/-- A slot has become empty: void entries at the top go, and a path entry there is popped into the slot (R138, R147); `front`
where it is newer than the path in the other slot (R219). -/
def refillSlot (s : State) (blk c slot : Nat) (front : Bool) : State :=
  match getCourse s blk c, blockCtx s blk with
  | some k, some x =>
    if k.live = 0 || k.popFault.isSome || (getPath k slot).isSome then s
    else
      let s := if k.depth = 0 then s else touchEntry s x k.stackSlot (k.depth - 1)
      match topEntry s x k.stackSlot k.depth with
      | .empty => setCourse s blk c { k with depth := 0 }
      | .unread n e =>
        let s := setCourse { s with fresh := s.fresh + 4 } blk c { k with depth := n + 1 }
        if e.kind = 0 then spillPop s blk c slot (entryBadRead s x k.stackSlot n) e else s
      | .entry n e poison =>
        if poison then killCourse s blk c
        else if e.kind = 0 then
          let p := newPath (BitVec.ofNat 64 e.addr) e.slot e.mask e.word3 e.link []
          let k := setPath { k with depth := n } slot (some p)
          setCourse s blk c (if front then tapeFront k slot else k)
        else setCourse s blk c { k with depth := n + 1 }
  | _, _ => s

/-- The slots that have become empty are refilled, `first` before the other. A popped path is newer than the path that stood
in the other slot before, and older than a path that has just been merged or popped (R138, R219). -/
def refillSlots (s : State) (blk c first : Nat) (merged : Bool) : State :=
  let had := match getCourse s blk c with
    | some k => (getPath k first).isSome
    | none => false
  refillSlot (refillSlot s blk c first (!merged)) blk c (1 - first) (!merged && had)

/-- Both slots are empty with live lanes and a region on top: PROOF (R138). -/
def slotsStarved (s : State) (blk c : Nat) : Bool :=
  match getCourse s blk c with
  | some k => k.live ≠ 0 && k.path0.isNone && k.path1.isNone && k.popFault.isNone && decide (0 < k.depth)
  | none => false

/-- The merged path of a complete region (R143, R367). -/
def mergedPath (e : Entry) (live : Lanes) : Path :=
  if e.kind = 1 then newPath (BitVec.ofNat 64 (e.addr + 16)) 0 (e.word3 &&& live) 0 e.link []
  else if e.trap then newPath (BitVec.ofNat 64 e.addr) e.slot (e.word3 &&& live) e.sig e.link []
  else newPath (BitVec.ofNat 64 e.addr) 0 (e.word3 &&& live) 0 e.link []

/-- Region `n` is complete (R143). -/
def regionComplete (e : Entry) (live : Lanes) : Bool :=
  (e.kind == 1 || e.kind == 2) && e.word3 == e.mask &&& live && e.mask &&& live != 0

/-- Take an entry out: popped if on top, void otherwise (R143). -/
def removeEntry (s : State) (x : Context) (blk c t n : Nat) (e : Entry) : State :=
  match getCourse s blk c with
  | some k => if n + 1 = k.depth then setCourse s blk c { k with depth := n }
              else rewriteEntry s x t n { e with kind := 3 }
  | none => s

/-- Region `n` completes: the merged path takes a freed slot, `first` before the other, or stands in the entry's place
(R143). -/
def completeRegion (s : State) (x : Context) (blk c n : Nat) (e : Entry) (first : Nat) : State :=
  match getCourse s blk c with
  | none => s
  | some k =>
    let p := mergedPath e k.live
    match [first, 1 - first].find? (fun i => (getPath k i).isNone) with
    | some slot => removeEntry (setCourse s blk c (tapeFront (setPath k slot (some p)) slot)) x blk c k.stackSlot n e
    | none => rewriteEntry s x k.stackSlot n (pathEntry p)

/-- Lanes leave an entry (R144). -/
def leaveEntry (e : Entry) (m : Lanes) : Entry :=
  if e.kind = 0 then (let w := e.mask &&& ~~~m; { e with mask := w, kind := if w = 0 then 3 else 0 })
  else if e.kind = 3 then e
  else { e with word3 := e.word3 &&& ~~~m }

/-- The entries of a stack after lanes have left, and the regions tested, from entry `n - 1` down (R144). -/
def leaveStack (s : State) (x : Context) (blk c : Nat) (m : Lanes) : Nat → State
  | 0 => s
  | n + 1 =>
    match getCourse s blk c with
    | none => s
    | some k =>
      let s := if k.depth ≤ n then s else
        let e := knownEntry s x k.stackSlot n
        let e' := leaveEntry e m
        if regionComplete e' k.live then completeRegion s x blk c n e' 0
        else if (e'.kind = 1 || e'.kind = 2) && e'.mask &&& k.live = 0 then removeEntry s x blk c k.stackSlot n e'
        else if e' = e then s else rewriteEntry s x k.stackSlot n e'
      leaveStack s x blk c m n

/-- Lanes leave a path slot (R144). -/
def leavePath (m : Lanes) : Option Path → Option Path
  | none => none
  | some p => if p.mask &&& ~~~m = 0 then none else some { p with mask := p.mask &&& ~~~m }

/-- Lanes that have left live(c) leave every mask; regions are tested; emptied slots are refilled (R144). -/
def lanesLeft (s : State) (blk c : Nat) (m : Lanes) : State :=
  match getCourse s blk c, blockCtx s blk with
  | some k, some x =>
    if k.live = 0 then courseExited (setCourse s blk c (emptyCourse k)) blk k.team
    else
      let k := { k with path0 := leavePath m k.path0, path1 := leavePath m k.path1 }
      let s := leaveStack (setCourse s blk c k) x blk c m k.depth
      refillSlots s blk c 0 (match getCourse s blk c with
        | some k' => (k.path0.isNone && k'.path0.isSome) || (k.path1.isNone && k'.path1.isSome)
        | none => false)
  | some k, none => setCourse s blk c (if k.live = 0 then emptyCourse k else k)
  | _, _ => s

/-- A launch may replay its block (R359). -/
def mayReplay (s : State) (blk : Nat) : Bool :=
  match getBlock s blk, blockJob s blk with
  | some b, some j =>
    let h := (j.words.getD 0 0).toNat
    bitAt h 13 && !bitAt h 14 && !b.done && decide (b.replays < 2)
  | _, _ => false

/-- Replay a block (R359): record, then every course removed, with the commands that no engine has accepted; it is placed
again when the others have completed. -/
def replayBlock (s : State) (blk c slot : Nat) (f : FaultInfo) (pos : Word) : State :=
  let s := courseRecord s blk c slot f pos true
  let s := { s with commands := s.commands.filter (fun e => !(e.2.blk == blk) || e.2.accepted) }
  match getBlock s blk with
  | none => s
  | some b => setBlock (emptyBlocks s (fun i _ => i == blk)) blk { b with replaying := true, replayAt := s.now }

/-- PROOF where both slots have emptied with a region on top (R138, R358): subcode 5 at the position given. -/
def checkStarved (s : State) (blk c slot : Nat) (pos : Word) (sig : Word) : State :=
  if slotsStarved s blk c then
    let live := match getCourse s blk c with
      | some k => k.live
      | none => 0
    let f : FaultInfo := ⟨0x0C, 5, live, 0, sig.toNat, false⟩
    if mayReplay s blk then replayBlock s blk c slot f pos
    else match getBlock s blk with
      | some b => removeContext s b.asid f pos b.core c slot false
      | none => s
  else s

/-- Take ids out of the pending sets and the wait of a course (R84, R85). -/
def unpend (k : Course) (ids : List Nat) : Course :=
  let f (p : Path) : Path := { p with pending := p.pending.filter (fun i => !ids.contains i) }
  { k with path0 := k.path0.map f, path1 := k.path1.map f
           longs := k.longs.filter (fun w => !ids.contains w.id)
           waitLongs := k.waitLongs.filter (fun i => !ids.contains i) }

/-- A long write that a result brings, not the start of a command (R84, R205). -/
def landable (k : Course) (id : Nat) : Bool := k.longs.any (fun w => w.id = id && (w.load || w.holds.isEmpty))

/-- Acknowledgements are in. -/
def acksIn (s : State) (acks : List Nat) : Bool := acks.all (fun i => (find? s.remotes i).isNone)

/-- A path that waits for long writes, or for acknowledgements, goes on when none of them is outstanding any more (R179,
R224). -/
def wakeLongs (s : State) (k : Course) (p : Path) : Path :=
  match p.park with
  | .longs ids acks => if ids.all (fun i => !(k.longs.any (·.id = i))) && acksIn s acks then { p with park := .running } else p
  | _ => p

/-- The paths of a course that waited for what has come go on. -/
def wakeCourse (s : State) (k : Course) : Course :=
  { k with path0 := k.path0.map (wakeLongs s k), path1 := k.path1.map (wakeLongs s k) }

/-- The path still stands where `p` did, with lanes of it left: no casualty has moved or emptied it (R321). -/
def pathThere (s : State) (blk c slot : Nat) (p : Path) : Bool :=
  match (getCourse s blk c).bind (fun k => getPath k slot) with
  | some q => q.pc == p.pc && q.slot == p.slot && q.mask &&& p.mask != 0
  | none => false

/-- The lanes that one poisoned load kills (R167, R321): they die, the record is written, and with CONTAIN in force the
path `slot` goes on at the handler. -/
def casualty (s : State) (blk c slot : Nat) (d : Lanes) (tag : Half) (va : Double) : State :=
  match getCourse s blk c with
  | none => s
  | some k =>
    let d := d &&& k.live
    if d = 0 then s
    else
      let p := getPath k slot
      let pos := match p with
        | some p => pathPos s blk p
        | none => 0
      let s := lanesLeft (setCourse s blk c { k with live := k.live &&& ~~~d, dead := k.dead ||| d, casualty := d }) blk c d
      let s := courseRecord s blk c slot ⟨0x0D, 0, d, tag, va.toNat % 2 ^ 48, false⟩ pos false
      let handled := k.contain && k.cashdl.toNat / 16 ≠ 0
      match p with
      | some p =>
        if handled && p.mask &&& ~~~d ≠ 0 then
          updPath s blk c slot (fun q => { q with
            pc := BitVec.ofNat 64 (blockCode s blk + k.cashdl.toNat / 16 * 16), slot := 0, sig := 0,
            park := .running, waited := [], faultId := none, remotes := [], latched := none, delivery := none, fetched := [] })
        else checkStarved s blk c slot pos p.sig
      | none => s

/-- The path slot whose lanes a load kills: the one that holds the lowest of them, or else one that holds the load pending. -/
def deathSlot (k : Course) (w : LongWrite) (d : Lanes) : Nat :=
  let l := (lowestLane d).getD 0
  match k.path0, k.path1 with
  | some p, some q => if hasLane q.mask l || (!hasLane p.mask l && !p.pending.contains w.id) then 1 else 0
  | some _, none => 0
  | none, _ => 1

/-- The lanes that a long write kills as it arrives (R167). -/
def longKills (k : Course) (w : LongWrite) : Lanes := (if w.killAll then k.live else w.kill) &&& k.live

/-- The long writes that land with these: a load that kills lanes of a path completes every long write pending there first
(R321). -/
def landedWith (k : Course) (ids : List Nat) : List Nat :=
  let kills := k.longs.filter (fun w => ids.contains w.id && longKills k w != 0)
  ids ++ (kills.flatMap (fun w => match getPath k (deathSlot k w (longKills k w)) with
    | some p => p.pending
    | none => [])).filter (fun i => landable k i && !ids.contains i)

/-- Long writes of a course complete: their values are in the register file, the loads among them that brought poison kill
their lanes, and the paths that waited go on (R84, R167, R179, R321). -/
def completeLongs (s : State) (blk c : Nat) (ids : List Nat) : State :=
  match getCourse s blk c with
  | none => s
  | some k =>
    let ids := landedWith k ids
    let mine := k.longs.filter (fun w => ids.contains w.id)
    let k1 := mine.foldl (fun k w => applyWrites k w.writes) k
    let s := setCourse s blk c (wakeCourse s (unpend k1 ids))
    mine.foldl (fun s w => if longKills k w = 0 then s else casualty s blk c (deathSlot k w (longKills k w)) (longKills k w) w.tag w.va) s

/-- The registers of a path's slices that an engine has still to read (R205). -/
def sliceHolds (k : Course) (p : Path) : List Nat := p.pending.filter (fun i => !landable k i)

/-- Every long write pending in a path completes (R137, R138, R243, R366); registers that an engine has still to read stay
pending (R205, R265). -/
def completePath (s : State) (blk c slot : Nat) : State :=
  match getCourse s blk c with
  | none => s
  | some k => match getPath k slot with
    | none => s
    | some p => if (p.pending.filter (landable k)).isEmpty then s else completeLongs s blk c (p.pending.filter (landable k))

/-! ### Pushes -/

/-- Why a push cannot be made (R147). -/
inductive PushFault where
  | dstack
  | dspill (va : Nat)
  deriving DecidableEq, Repr

/-- The checks of an instruction that needs `n` pushes (R147). -/
def pushCheck (s : State) (blk : Nat) (k : Course) (n : Nat) : Option PushFault :=
  match blockCtx s blk with
  | none => some .dstack
  | some x =>
    if x.depth < k.depth + n then some .dstack
    else match (List.range n).find? (fun i => !entryWritable s x k.stackSlot (k.depth + i)) with
      | some i => some (.dspill ((entryBad s x k.stackSlot (k.depth + i) true).getD 0))
      | none => none

/-- Push an entry whose checks have passed; it answers the entry's index (R137). -/
def push (s : State) (blk c : Nat) (e : Entry) : Nat × State :=
  match getCourse s blk c, blockCtx s blk with
  | some k, some x => (k.depth, writeEntry (setCourse s blk c { k with depth := k.depth + 1 }) x k.stackSlot k.depth e)
  | _, _ => (0, s)

/-! ### Taking a fault -/

/-- Where a handler's return goes (R365). -/
inductive Resume where
  | retry | skip | next
  deriving DecidableEq, Repr

/-- What becomes of a fault (R365). -/
inductive Fate where
  | handler (r : Resume)
  | host
  | proof
  | removal
  deriving DecidableEq, Repr

/-- The fate of a cause; `decode` tells the decode class of ILLEGAL from the uniform-operand class (R365). -/
def fateOf (cause : Nat) (decode : Bool) : Fate :=
  match cause with
  | 0x01 => .handler (if decode then .next else .skip)
  | 0x02 | 0x15 => .handler .next
  | 0x08 | 0x0A => .host
  | 0x0C => .proof
  | 0x10 | 0x11 | 0x18 => .handler .skip
  | 0x03 | 0x05 | 0x06 | 0x07 | 0x09 | 0x0B | 0x0F | 0x14 => .handler .retry
  | _ => .removal

/-- The position a handler returns to; `after` is the slot of the next issue unit, 3 where none remains (R365). -/
def resumeAt (p : Path) (after : Nat) : Resume → Double × Nat
  | .retry => (p.pc, p.slot)
  | .skip => if after < 3 then (p.pc, after) else (p.pc + 16, 0)
  | .next => (p.pc + 16, 0)

/-- The faulting position of a path: the first slot of its issue unit. -/
def atSlot (p : Path) (slot : Nat) : Path := { p with slot := slot }

/-- Park a path on a host fault (R374). -/
def hostFault (s : State) (blk c slot : Nat) (f : FaultInfo) : State :=
  match getCourse s blk c with
  | none => s
  | some k => match getPath k slot with
    | none => s
    | some p =>
      let (fid, s) := openFault s blk c slot f (pathPos s blk p) (.path blk c slot) p.faultId
      updPath s blk c slot (fun q => { q with
        park := .fault fid, faultId := some (fid, faultKey f), waited := [], remotes := [], latched := none, fetched := [] })

/-- Remove the context of a block after a fatal fault (R365, R388). -/
def fatalFault (s : State) (blk c slot : Nat) (f : FaultInfo) : State :=
  match getBlock s blk, getCourse s blk c with
  | some b, some k =>
    let pos := match getPath k slot with
      | some p => pathPos s blk p
      | none => 0
    removeContext s b.asid f pos b.core c slot false
  | _, _ => s

/-- Make a trap delivery whose record is written (R366): the frame, s29 and s30, the handler. A push that cannot be
translated leaves the delivery to be made again. -/
def makeDelivery (s : State) (blk c slot : Nat) (d : Delivery) : State :=
  match getCourse s blk c with
  | none => s
  | some k =>
    match getPath k slot with
    | none => s
    | some p =>
      match pushCheck s blk k 1 with
      | some .dstack => fatalFault s blk c slot (plainFault 0x19 p.mask)
      | some (.dspill va) =>
        hostFault (updPath s blk c slot (fun q => { q with delivery := some { d with recorded := true } })) blk c slot
          { plainFault 0x0A p.mask with info := va }
      | none =>
        let (n, s) := push s blk c ⟨0, p.mask, p.region, 2, d.pc.toNat, p.sig, d.slot, true⟩
        let s := updCourse s blk c (fun k => writeS (writeS k 30
          (BitVec.ofNat 32 (d.f.cause + d.f.detail * 256 + b2n d.f.engine * 4096 + d.f.tag.toNat * 65536)))
          29 (BitVec.ofNat 32 d.f.info))
        updPath s blk c slot (fun q => { q with
          pc := BitVec.ofNat 64 (blockCode s blk + k.traphdl.toNat / 16 * 16), slot := 0, sig := 0,
          region := some n, pending := [], park := .running, waited := [], faultId := none, remotes := [], latched := none,
          delivery := none, fetched := [] })

/-- Deliver a handler-fate fault of a path whose long writes have completed (R366): the record, then the frame and the
handler. A halted course makes the delivery only when it goes on (R375). -/
def recordDelivery (s : State) (blk c slot : Nat) (p : Path) (d : Delivery) : State :=
  let s := courseRecord s blk c slot d.f (pathPos s blk p) false
  match getCourse s blk c with
  | some k =>
    if k.stopped && k.allowance = 0 then
      updPath s blk c slot (fun q => { q with
        delivery := some { d with recorded := true }, waited := [], remotes := [], latched := none, fetched := [] })
    else makeDelivery s blk c slot d
  | none => s

/-- The delivery that a path has still to make (R366, R374, R375). -/
def resumeDelivery (s : State) (blk c slot : Nat) (p : Path) (d : Delivery) : State :=
  if d.recorded then makeDelivery s blk c slot d else recordDelivery s blk c slot p d

/-- Deliver a handler-fate fault (R366). A casualty met while the path's long writes complete comes first: the faulting unit
does not issue (R321). The delivery waits for the engine to read slices that the path's team commands have named (R205). -/
def deliver (s : State) (blk c slot : Nat) (f : FaultInfo) (r : Resume) (after : Nat) : State :=
  match (getCourse s blk c).bind (fun k => (getPath k slot).map (fun p => (k, p))) with
  | none => s
  | some (k, p) =>
    if k.traphdl.toNat / 16 = 0 then fatalFault s blk c slot f
    else
      let s := completePath s blk c slot
      let d : Delivery := ⟨f, (resumeAt p after r).1, (resumeAt p after r).2, false⟩
      if !pathThere s blk c slot p then s
      else if (sliceHolds k p).isEmpty then recordDelivery s blk c slot p d
      else updPath s blk c slot (fun q => { q with
        park := .longs (sliceHolds k p) [], delivery := some d, waited := [], remotes := [], latched := none, fetched := [] })

/-- TAKE A FAULT of the path in `slot`, whose position is the first slot of its issue unit: the one operation of R365.
`after` is the slot that follows the issue unit. -/
def takeFault (s : State) (blk c slot : Nat) (f : FaultInfo) (decode : Bool) (retry : Bool) (after : Nat) : State :=
  match fateOf f.cause decode with
  | .handler r => deliver s blk c slot f (if retry then .retry else r) after
  | .host => hostFault s blk c slot f
  | .removal => fatalFault s blk c slot f
  | .proof =>
    match getCourse s blk c with
    | none => s
    | some k =>
      let pos := match getPath k slot with
        | some p => pathPos s blk p
        | none => 0
      if mayReplay s blk then replayBlock s blk c slot f pos else fatalFault s blk c slot f

end Sys2Proof.Machine
end

