-- ==== Sys2Proof/Machine/Operands.lean ====
section
/-!
DEFINITION. Every operand form: what an issuing instruction sees (R59, R79, R90, R183), buffer records and their
addresses (R158 to R163), local-store addresses (R173), element formats (R160), atomic operations (R175), and the
fields of cards (R57).
-/

namespace Sys2Proof.Machine

/-! ### The issuing instruction -/

/-- What an instruction sees when it issues: its issue unit, its path and its block. -/
structure View where
  u : Issue
  p : Path
  b : Block
  deriving DecidableEq, Repr

/-- The view of the issuing path, if one issues. -/
def viewOf (s : State) : Option View :=
  match s.issue with
  | none => none
  | some u =>
    match getPath u.before u.slot, getBlock s u.blk with
    | some p, some b => some ⟨u, p, b⟩
    | _, _ => none

/-- The course as it stood before the group (R62). -/
def View.k (v : View) : Course := v.u.before

/-- active(c) (R50). -/
def View.act (v : View) : Lanes := v.p.mask &&& v.u.before.live

/-- The active lanes whose guard is true (R79). -/
def View.exe (v : View) : Lanes := v.act &&& guardLanes v.u.before v.u.guard

/-- The guard is "never" (R79). -/
def View.never (v : View) : Bool := v.u.guard == 8

/-- The executing lanes that are no helpers (R157, R183). -/
def View.contributors (v : View) : Lanes := v.exe &&& ~~~v.u.before.helper

/-- The lane that stands for the course in a uniform instruction. -/
def View.one (v : View) : Nat := (lowestLane v.act).getD 0

/-- A uniform instruction runs once, whatever lanes are active, unless its guard is never (R90, R99). -/
def View.runs (v : View) : Bool := v.exe != 0 || (v.act == 0 && !v.never)

/-- The lanes in which an instruction is performed: one for a uniform instruction (R90). -/
def View.lanes (v : View) (uniform : Bool) : List Nat :=
  if uniform then (if v.runs then [v.one] else []) else lanesOf v.exe

/-- The lanes that a result for this destination is written in: with no lane active, a uniform one is written all the same
(R55, R59, R99). -/
def View.dest (v : View) (d : RegName) : Lanes := if isScalar d && v.act = 0 && !v.never then 1 else v.exe

/-! ### Buffer records -/

/-- A buffer record (R158). -/
structure Record where
  base : Nat
  extent : Nat
  stride0 : Nat
  stride1 : Nat
  fmt : Nat
  bmode : Nat
  scope : Nat
  cache : Nat
  valid : Bool
  zeros : Nat
  tag : Half
  deriving DecidableEq, Repr

/-- A record from its eight words (R158). -/
def recordOf (w : Nat → Word) : Record :=
  { base := (w 0).toNat + 2 ^ 32 * (w 1).toNat
    extent := (w 2).toNat + 2 ^ 32 * bits (w 3).toNat 7 0
    stride0 := bits (w 3).toNat 31 8
    stride1 := bits (w 4).toNat 23 0
    fmt := bits (w 4).toNat 31 24
    bmode := bits (w 5).toNat 1 0
    scope := bits (w 5).toNat 4 2
    cache := bits (w 5).toNat 7 5
    valid := bitAt (w 5).toNat 8
    zeros := bits (w 5).toNat 15 9 + (w 6).toNat + (w 7).toNat
    tag := BitVec.ofNat 16 (bits (w 5).toNat 31 16) }

/-- Word `i` of the scalar block that starts at s `r`. -/
def scalarWord (k : Course) (r i : Nat) : Word := readS k (r + i)

/-- The record in a record block (R57, R158). -/
def readRecord (k : Course) (r : Nat) : Record := recordOf (scalarWord k (8 * r))

/-- The codes of R160. -/
def fmtKnown (f : Nat) : Bool := [0x01, 0x02, 0x03, 0x04, 0x05, 0x06, 0x07, 0x20, 0x21, 0x22, 0x23, 0x24, 0x28].contains f

/-- The codes that LDR, STR and LDRP accept (R160). -/
def fmtAccess (f : Nat) : Bool := fmtKnown f && f ≠ 0x20 && f ≠ 0x22

/-- Element size s (R160). -/
def fmtSize (f : Nat) : Nat :=
  match f with
  | 0x01 | 0x02 | 0x21 => 1
  | 0x03 | 0x04 | 0x23 | 0x24 => 2
  | 0x06 => 8
  | 0x07 => 16
  | _ => 4

/-- Registers an element takes (R160). -/
def fmtRegs (f : Nat) : Nat :=
  match f with
  | 0x06 => 2
  | 0x07 => 4
  | _ => 1

/-- The bytes of `n` elements (R160, R201). -/
def fmtBytes (f n : Nat) : Nat :=
  match f with
  | 0x20 => n / 2
  | 0x22 => 3 * n / 2
  | f => n * fmtSize f

/-- A record is bad (R159), where `accepts` are the formats that the instruction takes. -/
def recordBad (r : Record) (accepts : Nat → Bool) : Bool :=
  !r.valid || r.bmode ≥ 2 || r.scope ≥ 5 || r.cache ≥ 4 || r.zeros ≠ 0 || !fmtKnown r.fmt || !accepts r.fmt

/-- A pair or quad that FMT fixes may be named at this register (R160). -/
def fmtNameOk (d : RegName) (f : Nat) : Bool :=
  match d, fmtRegs f with
  | .sz, _ | _, 1 => true
  | d, 2 => pairOk d
  | .v n, _ => n.val % 4 = 0
  | .s n, _ => n.val % 4 = 0 && n.val ≤ 24

/-- off of R162. -/
def recordOff (r : Record) (i j : Word) : Nat := i.toNat * r.stride0 + j.toNat * r.stride1

/-- va of R162. -/
def recordVa (r : Record) (off : Nat) : Nat := (r.base + off) % 2 ^ 64

/-- The checks of one lane that goes through a record (R163). -/
def recordReach (s : State) (m : Nat) (asid : BitVec 16) (r : Record) (size align off : Nat) (write viaL1 : Bool) : Reach :=
  if r.extent < off + size then
    if r.bmode = 1 then .clamp else .fail 0x06 (min off (2 ^ 48 - 1)) 0
  else
    let va := recordVa r off
    if va % align ≠ 0 then .fail 0x07 (va % 2 ^ 48) 0
    else match (if viaL1 then translateLoad s m asid va else translate s asid va) with
      | .page p => .fail 0x08 (va % 2 ^ 48) (b2n p)
      | .fabric d a rva => .fabric va d a rva
      | .mem h f => if write && !f.write then .fail 0x09 (va % 2 ^ 48) 0 else .mem va h f

/-- Local-store address of R173. -/
def localAddr (a imm : Word) : Nat := (a + imm).toNat

/-- The checks of a local-store word (R173). -/
def localFault (b : Block) (addr : Nat) : Option (Nat × Nat) :=
  if addr % 4 ≠ 0 then some (0x07, addr) else if b.alloc < addr + 4 then some (0x06, addr) else none

/-- The fault of an instruction whose lanes failed as listed: cause and information of the lowest, and every lane of
that cause (R163); a uniform instruction reports active(c). -/
def lanesFault (l : List (Nat × Nat × Nat × Nat)) (tag : Half) (uniform : Option Lanes) : Option FaultInfo :=
  match l with
  | [] => none
  | (_, c, info, d) :: _ =>
    let mask := match uniform with
      | some m => m
      | none => l.foldl (fun (m : Lanes) e => if e.2.1 = c then m ||| bitLane e.1 else m) 0
    some ⟨c, d, mask, tag, info, false⟩

/-- The failures among the reaches of lanes. -/
def reachFails (l : List (Nat × Reach)) : List (Nat × Nat × Nat × Nat) :=
  l.filterMap (fun e => match e.2 with
    | .fail c i d => some (e.1, c, i, d)
    | _ => none)

/-- How an instruction that goes through a record reaches memory in each of its lanes: LDR, STR, LDRP, ATR, RECLD. -/
structure RecordAccess where
  r : Record
  size : Nat
  align : Nat
  write : Bool
  viaL1 : Bool
  i : Src
  j : RegName
  lanes : List Nat
  uniform : Bool
  deriving DecidableEq, Repr

/-- The record access of an instruction (R163, R165, R170, R172, R175). -/
def recordAccess (v : View) (i : Instr) : Option RecordAccess :=
  let k := v.k
  match i with
  | .ldr d a rs j =>
    let r := readRecord k rs.val
    some ⟨r, fmtSize r.fmt, min (fmtSize r.fmt) 16, false, true, a, j, v.lanes (isScalar d), isScalar d⟩
  | .ldrp d a rs j =>
    let r := readRecord k rs.val
    some ⟨r, fmtSize r.fmt, min (fmtSize r.fmt) 16, false, decide (r.scope < 3), a, j, v.lanes (isScalar d), isScalar d⟩
  | .str _ a rs j =>
    let r := readRecord k rs.val
    some ⟨r, fmtSize r.fmt, min (fmtSize r.fmt) 16, true, false, a, j, lanesOf v.contributors, false⟩
  | .atr _ d a rs =>
    let r := readRecord k rs.val
    some ⟨r, 4, 4, true, false, a, .sz, if isScalar d then v.lanes true else lanesOf v.contributors, isScalar d⟩
  | .recld _ a rs j =>
    let r := readRecord k rs.val
    some ⟨r, 32, 32, false, true, a, j, v.lanes true, true⟩
  | _ => none

/-- The reach of each lane of a record access (R162, R163). -/
def accessReach (s : State) (v : View) (x : RecordAccess) : List (Nat × Reach) :=
  x.lanes.map (fun l =>
    (l, recordReach s v.b.core v.b.asid x.r x.size x.align
      (recordOff x.r (readReg v.k x.i.reg l) (readReg v.k x.j l)) x.write x.viaL1))

/-- The lanes of an instruction that reach the fabric window, in order (R168). -/
def fabricLanes (l : List (Nat × Reach)) : List Nat :=
  l.filterMap (fun e => match e.2 with
    | .fabric .. => some e.1
    | _ => none)

/-- The local-store access of an instruction: the address of each lane (R173, R175). -/
def localAccess (v : View) (i : Instr) : Option (List (Nat × Nat) × Bool) :=
  let go (a : Src) (imm : Word) (lanes : List Nat) (u : Bool) :=
    some (lanes.map (fun l => (l, localAddr (readReg v.k a.reg l) imm)), u)
  match i with
  | .ldl d a imm | .ldlp d a imm => go a imm (v.lanes (isScalar d)) (isScalar d)
  | .stl _ a imm => go a imm (lanesOf v.contributors) false
  | .atl _ d a => go a 0 (if isScalar d then v.lanes true else lanesOf v.contributors) (isScalar d)
  | _ => none

/-! ### Element formats -/

/-- The registers that a load writes from an element's bytes, and QI (R160, R251). -/
def fmtLoad (f : Nat) (bs : List Byte) : List Word × Bool :=
  let n := natOfBytes bs
  match f with
  | 0x02 => ([BitVec.ofNat 32 (ofSigned 32 (toSigned 8 n))], false)
  | 0x04 => ([BitVec.ofNat 32 (ofSigned 32 (toSigned 16 n))], false)
  | 0x21 => if n = 0x80 then ([0], true) else ([BitVec.ofNat 32 (ofSigned 32 (toSigned 8 n))], false)
  | 0x28 => ([BitVec.ofNat 32 (n % 2 ^ 20)], false)
  | 0x06 => ([BitVec.ofNat 32 n, BitVec.ofNat 32 (n / 2 ^ 32)], false)
  | 0x07 => ([BitVec.ofNat 32 n, BitVec.ofNat 32 (n / 2 ^ 32), BitVec.ofNat 32 (n / 2 ^ 64),
              BitVec.ofNat 32 (n / 2 ^ 96)], false)
  | _ => ([BitVec.ofNat 32 n], false)

/-- The bytes that a store takes from its registers (R160). -/
def fmtStore (f : Nat) (w : Nat → Word) : List Byte :=
  match f with
  | 0x06 => bytesOfNat 4 (w 0).toNat ++ bytesOfNat 4 (w 1).toNat
  | 0x07 => bytesOfNat 4 (w 0).toNat ++ bytesOfNat 4 (w 1).toNat ++ bytesOfNat 4 (w 2).toNat
              ++ bytesOfNat 4 (w 3).toNat
  | 0x28 => bytesOfNat 4 ((w 0).toNat % 2 ^ 20)
  | f => bytesOfNat (fmtSize f) (w 0).toNat

/-- Bytes of a list of words. -/
def wordsToBytes (l : List Word) : List Byte := l.flatMap (fun w => bytesOfNat 4 w.toNat)

/-- Words of a byte list. -/
def bytesToWords (l : List Byte) : List Word :=
  (chunksOf 4 (l.length + 1) l).map (fun c => BitVec.ofNat 32 (natOfBytes c))

/-! ### Atomic operations -/

/-- The new word of an atomic, or nothing where a CAS fails (R175). -/
def atomNew (op : AtomOp) (x y : Word) (old : Nat) : Option Nat :=
  let o : Word := BitVec.ofNat 32 old
  match op with
  | .add => some (o + x).toNat
  | .sub => some (o - x).toNat
  | .imin => some (if o.toInt ≤ x.toInt then o else x).toNat
  | .imax => some (if x.toInt ≤ o.toInt then o else x).toNat
  | .umin => some (if o.toNat ≤ x.toNat then o else x).toNat
  | .umax => some (if x.toNat ≤ o.toNat then o else x).toNat
  | .iand => some (o &&& x).toNat
  | .ior => some (o ||| x).toNat
  | .ixor => some (o ^^^ x).toNat
  | .xch => some x.toNat
  | .cas => if o = x then some y.toNat else none
  | .fadd => some (fAdd fp32Fmt o.toNat x.toNat).1

/-! ### Cards -/

/-- The words of a card (R57, R194). -/
def cardWords (k : Course) (c : RecName) (n : Nat) : List Word := (List.range n).map (scalarWord k (8 * c.val))

/-- A word of a card as a number. -/
def cw (l : List Word) (i : Nat) : Nat := (l.getD i 0).toNat

/-- The eight words of a record block. -/
def recordWords (k : Course) (r : Nat) : List Word := (List.range 8).map (scalarWord k (8 * r))

/-- A record from a list of words. -/
def recordOfWords (l : List Word) : Record := recordOf (fun i => l.getD i 0)

end Sys2Proof.Machine
end

