-- ==== Sys2Proof/Machine/Cards.lean ====
section
/-!
DEFINITION. Job cards: their limits, records, regions and footprints (R194, R197, R201 to R208).
-/

namespace Sys2Proof.Machine

/-- What a card asks for: its limits kept or not, its record, the local-store regions it names (first byte, length,
written), the global row starts (offset, length, alignment), and its phase word. -/
structure Plan where
  illegal : Bool
  uses : Bool
  rs : Nat
  accepts : Nat → Bool
  locals : List (Nat × Nat × Bool)
  globals : List (Nat × Nat × Nat)
  phase : Option Nat
  writesGlobal : Bool

/-- The first byte of rows of a local region and its span (R197). -/
def rowsSpan (lo rows pitch rb : Nat) (w : Bool) : Nat × Nat × Bool := (lo, (rows - 1) * pitch + rb, w)

/-- A PHASE word breaks its limits (R201). -/
def phaseBad (w : Nat) : Bool := w / 2 ^ 20 ≠ 0 || (w % 2 ^ 20 ≠ 0xFFFFF && w % 4 ≠ 0)

/-- PHASE (R201). -/
def phaseOf (w : Nat) : Option Nat := if w % 2 ^ 20 = 0xFFFFF then none else some (w % 2 ^ 20)

/-- The formats of the matrix engine (R204). -/
def matFmt (f : Nat) : Bool := [0x20, 0x21, 0x22, 0x23, 0x24].contains f

/-- BF16 and FP16 (R261). -/
def floatFmt (f : Nat) : Bool := f = 0x23 || f = 0x24

/-- Bytes of a tile row of 128 elements (R254). -/
def tileRow (f : Nat) : Nat := fmtBytes f 128

/-- RS of a card. -/
def cardRs (op : Nat) (w : List Word) : Nat :=
  if op = 0x75 then bits (cw w 0) 5 4 else if op = 0x70 || op = 0x71 then bits (cw w 0) 3 2 else 0

/-- The CPY card (R201). -/
def cpyPlan (w : List Word) (r : Record) : Plan :=
  let dir := bits (cw w 0) 1 0
  let rs := bits (cw w 0) 3 2
  let rowlen := bits (cw w 3) 31 16
  let rows := bits (cw w 3) 15 0
  let lpitch := bits (cw w 5) 19 0
  let glob := decide (dir < 2)
  let rb := if glob then fmtBytes r.fmt rowlen else 4 * rowlen
  let illegal := cw w 0 / 16 ≠ 0 || rs = 3 || (!glob && rs ≠ 0) || rowlen = 0 || rows = 0 || 4096 < rows
    || (glob && (r.fmt = 0x20 || r.fmt = 0x22) && rowlen % 2 ≠ 0) || cw w 4 % 4 ≠ 0 || cw w 5 / 2 ^ 20 ≠ 0
    || lpitch % 4 ≠ 0 || (dir ≠ 1 && (!glob || fmtKnown r.fmt) && lpitch < rb) || phaseBad (cw w 6) || cw w 7 ≠ 0
    || (dir = 2 && (cw w 1 % 4 ≠ 0 || cw w 2 / 2 ^ 20 ≠ 0 || cw w 2 % 4 ≠ 0)) || (dir = 3 && cw w 2 ≠ 0)
  { illegal := illegal, uses := glob, rs := rs, accepts := fun _ => true
    locals := rowsSpan (cw w 4) rows lpitch rb (dir ≠ 1) :: (if dir = 2 then [rowsSpan (cw w 1) rows (cw w 2) rb false] else [])
    globals := if glob then (List.range rows).map (fun i =>
      ((cw w 1 + i) * r.stride0 + cw w 2 * r.stride1, rb, if r.fmt = 0x20 || r.fmt = 0x22 then 1 else fmtSize r.fmt)) else []
    phase := phaseOf (cw w 6), writesGlobal := dir = 1 }

/-- The GATH card (R203). -/
def gathPlan (w : List Word) (r : Record) : Plan :=
  let mode := bits (cw w 0) 1 0
  let rs := bits (cw w 0) 3 2
  let n := cw w 2
  let rowlen := cw w 3
  let lpitch := bits (cw w 5) 19 0
  let rb := fmtBytes r.fmt rowlen
  let illegal := cw w 0 / 16 ≠ 0 || rs = 3 || 1 < mode || cw w 1 % 4 ≠ 0 || n = 0 || 4096 < n || rowlen = 0
    || 65535 < rowlen || ((r.fmt = 0x20 || r.fmt = 0x22) && rowlen % 2 ≠ 0) || cw w 4 % 4 ≠ 0
    || cw w 5 / 2 ^ 20 ≠ 0 || lpitch % 4 ≠ 0 || (mode = 0 && fmtKnown r.fmt && lpitch < rb)
    || phaseBad (cw w 6) || cw w 7 ≠ 0
  { illegal := illegal, uses := true, rs := rs, accepts := fun _ => true
    locals := [(cw w 1, 4 * n, false), rowsSpan (cw w 4) n lpitch rb (mode = 0)]
    globals := [], phase := phaseOf (cw w 6), writesGlobal := mode = 1 }

/-- An int32 increment of MML (R207). -/
def mmlInc (w : List Word) (i : Nat) : Int := toSigned 32 (cw w i)

/-- An address of step `t` (R207). -/
def stepAddr (a : Nat) (inc : Int) (t : Nat) : Nat := ofSigned 32 ((a : Int) + inc * (t : Int))

/-- K-steps of a command (R207). -/
def kCount (op : Nat) (w : List Word) : Nat := if op = 0x74 then cw w 8 else 1

/-- The addresses of step `t`: A, A scales, B, B scale (R207). -/
def stepAddrs (op : Nat) (w : List Word) (t : Nat) : Nat × Nat × Nat × Nat :=
  if op = 0x74 then
    (stepAddr (cw w 1) (mmlInc w 9) t, stepAddr (cw w 3) (mmlInc w 10) t, stepAddr (cw w 4) (mmlInc w 11) t,
      stepAddr (cw w 6) (mmlInc w 12) t)
  else (cw w 1, cw w 3, cw w 4, 0)

/-- The MMA and MML cards (R204, R207). Scales that are not read are not checked. -/
def mmaPlan (op : Nat) (w : List Word) : Plan :=
  let mml := op = 0x74
  let fa := bits (cw w 0) 7 0
  let fb := bits (cw w 0) 15 8
  let bsrc := bitAt (cw w 0) 16
  let kc := kCount op w
  let illegal := cw w 0 / 2 ^ 19 ≠ 0 || !matFmt fa || !matFmt fb || (mml && !bsrc) || cw w 1 % 16 ≠ 0
    || cw w 2 / 2 ^ 20 ≠ 0 || cw w 2 % 16 ≠ 0 || (!floatFmt fa && cw w 3 % 4 ≠ 0)
    || (bsrc && (cw w 4 % 16 ≠ 0 || cw w 5 / 2 ^ 20 ≠ 0 || cw w 5 % 16 ≠ 0))
    || (!bsrc && (cw w 4 / 128 ≠ 0 || cw w 5 ≠ 0)) || phaseBad (cw w 7)
    || (mml && ((!floatFmt fb && cw w 6 % 4 ≠ 0) || kc = 0 || 256 < kc || cw w 9 % 16 ≠ 0 || cw w 10 % 4 ≠ 0
      || cw w 11 % 16 ≠ 0 || cw w 12 % 4 ≠ 0 || cw w 13 ≠ 0 || cw w 14 ≠ 0 || cw w 15 ≠ 0))
  let step (t : Nat) : List (Nat × Nat × Bool) :=
    let (a, sa, b, sb) := stepAddrs op w t
    rowsSpan a 128 (cw w 2) (tileRow fa) false :: ((if floatFmt fa then [] else [(sa, 512, false)])
      ++ (if bsrc then [rowsSpan b 128 (cw w 5) (tileRow fb) false] else [])
      ++ (if mml && !floatFmt fb then [(sb, 4, false)] else []))
  { illegal := illegal, uses := false, rs := 0, accepts := fun _ => true
    locals := if illegal then [] else (List.range kc).flatMap step
    globals := [], phase := phaseOf (cw w 7), writesGlobal := false }

/-- Bytes of an EPI output element (R208). -/
def epiSize (f : Nat) : Nat := if f = 0x21 then 1 else if floatFmt f then 2 else 4

/-- The EPI card (R208). -/
def epiPlan (w : List Word) (r : Record) : Plan :=
  let derive := bitAt (cw w 0) 17
  let act := bits (cw w 0) 16 15
  let bias := bitAt (cw w 0) 14
  let dfmt := bits (cw w 0) 13 8
  let rs := bits (cw w 0) 5 4
  let dest := bits (cw w 0) 3 1
  let rb := 128 * epiSize dfmt
  let illegal := cw w 0 / 2 ^ 18 ≠ 0 || (derive && dfmt ≠ 0x21) || act = 3
    || !([0x05, 0x23, 0x24, 0x21, 0x3F].contains dfmt) || (dfmt = 0x3F && (bias || act ≠ 0 || derive))
    || bits (cw w 0) 7 6 ≠ 0 || rs = 3 || 1 < dest || (bias && cw w 3 % 4 ≠ 0) || (derive && cw w 5 % 4 ≠ 0)
    || (dest = 0 && (cw w 1 % 4 ≠ 0 || cw w 2 / 2 ^ 20 ≠ 0 || cw w 2 % 4 ≠ 0)) || phaseBad (cw w 6)
  { illegal := illegal, uses := dest = 1, rs := rs
    accepts := fun f => f = (if dfmt = 0x3F then 0x05 else dfmt)
    locals := (if dest = 0 then [rowsSpan (cw w 1) 128 (cw w 2) rb true] else [])
      ++ (if bias then [(cw w 3, 512, false)] else []) ++ (if derive then [(cw w 5, 512, true)] else [])
    globals := if dest = 1 then (List.range 128).map (fun i =>
      ((cw w 1 + i) * r.stride0 + cw w 2 * r.stride1, rb, epiSize dfmt)) else []
    phase := phaseOf (cw w 6), writesGlobal := dest = 1 }

/-- The plan of a card, with the record that its RS selects. -/
def planOf (op : Nat) (w : List Word) (r : Record) : Plan :=
  if op = 0x70 then cpyPlan w r
  else if op = 0x71 then gathPlan w r
  else if op = 0x75 then epiPlan w r
  else mmaPlan op w

/-- Registers of a member's slice (R205). -/
def sliceRegs (fb team : Nat) : Nat :=
  let n := if fb = 0x20 then 16 else if fb = 0x21 then 32 else 64
  if team = 8 then n / 2 else n

/-- The slice registers that an MMA card names, with BSRC 0 (R205). -/
def sliceRange (w : List Word) (team : Nat) : List Nat :=
  if bitAt (cw w 0) 16 then []
  else (List.range (sliceRegs (bits (cw w 0) 15 8) team)).map (cw w 4 % 128 + ·)

/-- The record's words that a card selects, as the course holds them; none where RS is 3 or no record is used. -/
def cardRecord (k : Course) (op : Nat) (w : List Word) : List Word :=
  if cardRs op w = 3 then [] else recordWords k (cardRs op w)

/-- The global byte ranges and row starts fail: cause and offset, alignments before bounds (R194 item 3). -/
def cardRangeFault (b : Block) (pl : Plan) (r : Record) : Option (Nat × Nat) :=
  match pl.globals.find? (fun g => g.2.2 ≠ 1 && (r.base + g.1) % g.2.2 ≠ 0) with
  | some g => some (0x07, (r.base + g.1) % 2 ^ 48)
  | none =>
    let words := pl.locals.map (fun x => (x.1, x.2.1)) ++ (pl.phase.map (fun a => (a, 4))).toList
    match words.find? (fun x => x.1 % 4 ≠ 0) with
    | some x => some (0x07, x.1)
    | none =>
      match words.find? (fun x => b.alloc < x.1 + x.2) with
      | some x => some (0x06, x.1)
      | none =>
        if pl.uses && r.bmode = 0 then
          match pl.globals.find? (fun g => r.extent < g.1 + g.2.1) with
          | some g => some (0x06, min g.1 (2 ^ 48 - 1))
          | none => none
        else none

/-- The footprint of a command in sectors: first, last, written (R197). -/
def footprint (pl : Plan) : List (Nat × Nat × Bool) :=
  (pl.locals.filter (fun x => 0 < x.2.1)).map (fun x => (x.1 / 32, (x.1 + x.2.1 - 1) / 32, x.2.2))

/-- Two footprints conflict (R197). -/
def footConflict (a b : List (Nat × Nat × Bool)) : Bool :=
  a.any (fun x => b.any (fun y => (x.2.2 || y.2.2) && decide (x.1 ≤ y.2.1) && decide (y.1 ≤ x.2.1)))

/-- The plan of a command. -/
def cmdPlan (c : Command) : Plan := planOf c.op c.card (recordOfWords c.record)

end Sys2Proof.Machine
end

