-- ==== Sys2Proof/Machine/Matrix.lean ====
section
/-!
DEFINITION. The arithmetic of the matrix engine and the epilogue pipe: narrow codes and S20 scales (R251 to R255), block
sums and residue channels (R256, R257), the K-block's update (R258), converted operands (R261), output (R209, R263) and
the marks of poison (R269, R271).
-/

namespace Sys2Proof.Machine

/-- A value with its poison: poisoned bytes are taken as zero (R200, R269). -/
abbrev Poi (α : Type) := α × Bool

/-! ### Codes -/

/-- Q12 elements of three bytes each (R251). -/
def elems12 : List (Poi Byte) → List (Poi Nat)
  | (a, p) :: (b, q) :: (c, r) :: t =>
    (a.toNat + 256 * (b.toNat % 16), p || q) :: (b.toNat / 16 + 16 * c.toNat, q || r) :: elems12 t
  | _ => []

/-- 16-bit elements. -/
def elems16 : List (Poi Byte) → List (Poi Nat)
  | (a, p) :: (b, q) :: t => (a.toNat + 256 * b.toNat, p || q) :: elems16 t
  | _ => []

/-- The raw elements of a row's bytes (R251, R254). -/
def rowElems (f : Nat) (bs : List (Poi Byte)) : List (Poi Nat) :=
  match f with
  | 0x20 => bs.flatMap (fun b => [(b.1.toNat % 16, b.2), (b.1.toNat / 16, b.2)])
  | 0x21 => bs.map (fun b => (b.1.toNat, b.2))
  | 0x22 => elems12 bs
  | _ => elems16 bs

/-- Bits of a narrow format. -/
def codeBits (f : Nat) : Nat := if f = 0x20 then 4 else if f = 0x21 then 8 else 12

/-- A narrow code: a reserved one reads 0 and tells QI; a poisoned one reads 0 (R251, R269). -/
def readCode (f : Nat) (e : Poi Nat) : Int × Bool :=
  if e.2 then (0, false)
  else if e.1 = 2 ^ (codeBits f - 1) then (0, true)
  else (toSigned (codeBits f) e.1, false)

/-! ### Scales -/

/-- A scale: NaN, zero, or m times 2^e (R253, R261). -/
inductive Scale where
  | nan
  | zero
  | val (m : Nat) (e : Int)
  deriving DecidableEq, Repr

/-- An S20 container (R253). -/
def s20 (n : Nat) : Scale :=
  let e := bits n 19 12
  if e = 0 then .zero else if e = 255 then .nan else .val (4096 + bits n 11 0) ((e : Int) - 139)

/-- The exact value of a BF16 or FP16 element (R112). -/
def halfVal (f : Nat) (e : Poi Nat) : FVal :=
  if e.2 then .fin false 0 0 else unpack (if f = 0x23 then bf16Fmt else fp16Fmt) e.1

/-- A NaN or an infinity. -/
def notFinite : FVal → Bool
  | .fin _ _ _ => false
  | _ => true

/-- floor(log2 |x|) of a nonzero finite value. -/
def expOf : FVal → Option Int
  | .fin _ m e => if m = 0 then none else some (e + (bitLen m : Int) - 1)
  | _ => none

/-- The largest of a list of exponents. -/
def maxExp : List Int → Option Int
  | [] => none
  | a :: t => match maxExp t with
    | some b => some (if a ≤ b then b else a)
    | none => some a

/-- The code of a value at the scale 2^q, ties to even (R261). -/
def codeAt (q : Int) : FVal → Int
  | .fin n m e =>
    let k : Int := ((quantize .rne n m e false q).1 : Int)
    if n then -k else k
  | _ => 0

/-- The conversion of a strip or square of BF16 or FP16 elements (R261): its scale, and a function that gives codes. -/
def unitScale (l : List FVal) : Scale × Int :=
  if l.any notFinite then (.nan, 0)
  else match maxExp (l.filterMap expOf) with
    | none => (.zero, 0)
    | some e => (.val 1 (e - 10), e - 10)

/-- The codes of a converted unit. -/
def unitCodes (l : List FVal) : List Int := match (unitScale l).1 with
  | .val _ _ => l.map (codeAt (unitScale l).2)
  | _ => l.map (fun _ => 0)

/-! ### Block sums -/

/-- The exact sum of products (R256). -/
def dotProduct : List Int → List Int → Int
  | a :: s, b :: t => a * b + dotProduct s t
  | _, _ => 0

/-- The residue moduli, M / m_j and y_j (R257). -/
def residueTable : List (Nat × Nat × Nat) :=
  [(253, 16776960, 116), (255, 16645376, 191), (256, 16580355, 171), (257, 16515840, 32)]

/-- The product M of the moduli (R257). -/
def residueM : Nat := 4244570880

/-- A channel's sum, modulo `m` (R257). -/
def channelSum (m : Nat) : List Int → List Int → Nat
  | a :: s, b :: t => ((a % m).toNat * (b % m).toNat + channelSum m s t) % m
  | _, _ => 0

/-- The block sum that four channel values give (R257). -/
def rebuildSum (c : Nat → Nat) : Int :=
  let x := (residueTable.map (fun r => (c r.1 * r.2.2) % r.1 * r.2.1)).sum % residueM
  if 2 * x ≤ residueM then (x : Int) else (x : Int) - (residueM : Int)

/-- The block sum as the CH3 forms it: four residue channels, and the rebuilding of R257. -/
def blockSum (a b : List Int) : Int := rebuildSum (fun m => channelSum m a b)

/-- The lists with their first elements apart. -/
def transposeGo : Nat → List (List Int) → List (List Int)
  | 0, _ => []
  | n + 1, l => l.map (fun r => r.headD 0) :: transposeGo n (l.map List.tail)

/-! ### The update -/

/-- One element's update (R258). -/
def updateElem (c : Word) (i : Int) (sa sb : Scale) : Word :=
  match sa, sb with
  | .nan, _ | _, .nan => 0x7FC00000#32
  | .zero, _ | _, .zero => c
  | .val ma ea, .val mb eb =>
    if i = 0 || notFinite (unpack fp32Fmt c.toNat) then c
    else
      let t : FVal := .fin (decide (i < 0)) (i.natAbs * ma * mb) (ea + eb)
      BitVec.ofNat 32 (roundVal fp32Fmt .rne (addVal (unpack fp32Fmt c.toNat) t).1).1

/-- One operand of a K-block: codes by row, a scale for each row (one for a square), marks, and QI. -/
structure Tile where
  codes : List (List Int)
  scales : List Scale
  /-- The scale is NaN by conversion: its codes are irrelevant (R261). -/
  irrelevant : List Bool
  qi : Bool

/-- The A operand: 128 strips (R254, R255, R261); `scale m` is strip m's S20 container. -/
def tileA (f : Nat) (rows : List (List (Poi Nat))) (scale : Nat → Nat) : Tile :=
  if floatFmt f then
    let vs := rows.map (fun r => r.map (halfVal f))
    { codes := vs.map unitCodes, scales := vs.map (fun l => (unitScale l).1), irrelevant := vs.map (fun l => l.any notFinite),
      qi := false }
  else
    let cs := rows.map (fun r => r.map (readCode f))
    { codes := cs.map (fun r => r.map (·.1)), scales := (List.range rows.length).map (fun m => s20 (scale m)),
      irrelevant := rows.map (fun _ => false), qi := cs.any (fun r => r.any (·.2)) }

/-- The B operand: one square (R255, R261), in rows of K. -/
def tileB (f : Nat) (rows : List (List (Poi Nat))) (scale : Nat) : Tile :=
  if floatFmt f then
    let vs := rows.map (fun r => r.map (halfVal f))
    let u := unitScale vs.flatten
    { codes := vs.map (fun r => r.map (fun x => match u.1 with
        | .val _ _ => codeAt u.2 x
        | _ => 0)), scales := [u.1], irrelevant := [vs.flatten.any notFinite], qi := false }
  else
    let cs := rows.map (fun r => r.map (readCode f))
    { codes := cs.map (fun r => r.map (·.1)), scales := [s20 scale], irrelevant := [false], qi := cs.any (fun r => r.any (·.2)) }

/-- A block sum as an element of `sums`: free where the codes are irrelevant (R261). -/
def sumWord (free : Nat → Nat → Word) (m n : Nat) (irrelevant : Bool) (i : Int) : Word :=
  if irrelevant then free m n else BitVec.ofInt 32 i

/-- One K-block on a bank (R258): `free` gives the irrelevant block sums. -/
def kBlock (bank : Bank) (a b : Tile) (free : Nat → Nat → Word) : Bank :=
  let cols := transposeGo 128 b.codes
  let sb := b.scales.headD .zero
  let ob := b.irrelevant.headD false
  let old := chunksOf 128 129 (crun 0#32 bank.elems 0 16384)
  let row (e : ((List Int × Scale × Bool) × List Word) × Nat) : List (Word × Word) :=
    (cols.zip e.1.2).zipIdx.map (fun x =>
      let i := blockSum e.1.1.1 x.1.1
      (updateElem x.1.2 i e.1.1.2.1 sb, sumWord free e.2 x.2 (e.1.1.2.2 || ob) i))
  let res := ((a.codes.zip (a.scales.zip a.irrelevant)).zip old).zipIdx.map row
  { bank with elems := sparse 0#32 (res.flatMap (fun r => r.map (·.1)))
              sums := sparse 0#32 (res.flatMap (fun r => r.map (·.2))) }

/-! ### Output -/

/-- y of R209: multiplier, bias, activation. -/
def shapeElem (c : Word) (mult : Nat) (bias : Option Word) (act cap : Nat) : Word :=
  let y := (fMul fp32Fmt c.toNat mult).1
  let y := match bias with
    | some b => (fAdd fp32Fmt y b.toNat).1
    | none => y
  let y := if act = 0 then y else (fMinMax fp32Fmt true y 0).1
  BitVec.ofNat 32 (if act = 2 then (fMinMax fp32Fmt false y cap).1 else y)

/-- A signed code as a byte. -/
def codeByte (neg : Bool) (k : Nat) : Byte := BitVec.ofInt 8 (if neg then -(k : Int) else (k : Int))

/-- Q8 without DERIVE (R209). -/
def q8Elem (y : Word) : Byte :=
  match unpack fp32Fmt y.toNat with
  | .nan _ => 0
  | .inf n => codeByte n 127
  | .fin n m e => codeByte n (min 127 (quantize .rne n m e false 0).1)

/-- num / den to the nearest integer, ties to even. -/
def roundDiv (num den : Nat) : Nat :=
  let q := num / den
  let r := num % den
  if 2 * r < den || (2 * r = den && q % 2 = 0) then q else q + 1

/-- floor(log2(m / 127)) of a positive m (R263). -/
def log127 (m : Nat) : Int :=
  let t := bitLen m - 1
  if 127 * 2 ^ t ≤ 64 * m then (t : Int) - 6 else (t : Int) - 7

/-- x times 2^k for a k of either sign, as a fraction. -/
def scaled (x : Nat) (k : Int) : Nat × Nat := if 0 ≤ k then (x * 2 ^ k.toNat, 1) else (x, 2 ^ (-k).toNat)

/-- E and F of the smallest S20 value not below amax / 127, for amax = m times 2^e (R263). -/
def deriveScale (m : Nat) (e : Int) : Nat × Nat :=
  let f0 := log127 m
  let ea := f0 + e
  if ea < -126 then (1, 0)
  else
    let (n, d) := scaled (4096 * m) (-f0)
    let f := ceilDiv n (127 * d) - 4096
    if f = 4096 then ((ea + 128).toNat, 0) else ((ea + 127).toNat, f)

/-- The code of y at the scale (1 + F/4096) times 2^(E - 127) (R263). -/
def deriveCode (ef : Nat × Nat) (y : Word) : Byte :=
  match unpack fp32Fmt y.toNat with
  | .fin n m e =>
    let (a, b) := scaled m (e - ((ef.1 : Int) - 139))
    codeByte n (min 127 (roundDiv a (b * (4096 + ef.2))))
  | _ => 0

/-- The output strip of DERIVE: container and codes; a poisoned element is none (R263, R271). -/
def deriveStrip (ys : List (Option Word)) : Word × List Byte :=
  let live := ys.filterMap id
  if live.any (fun y => notFinite (unpack fp32Fmt y.toNat)) then (0x000FF000#32, ys.map (fun _ => 0))
  else
    let amax := live.foldl (fun m y => max m (y.toNat % 2 ^ 31)) 0
    match unpack fp32Fmt amax with
    | .fin _ m e =>
      if m = 0 then (0, ys.map (fun _ => 0))
      else
        let ef := deriveScale m e
        (BitVec.ofNat 32 (ef.1 * 4096 + ef.2), ys.map (fun y => match y with
          | some w => deriveCode ef w
          | none => 0))
    | _ => (0, ys.map (fun _ => 0))

/-- The bytes of an element in an output format (R209). -/
def outBytes (dfmt : Nat) (y : Word) : List Byte :=
  match dfmt with
  | 0x05 => bytesOfNat 4 y.toNat
  | 0x23 => bytesOfNat 2 (roundVal bf16Fmt .rne (unpack fp32Fmt y.toNat)).1
  | 0x24 => bytesOfNat 2 (roundVal fp16Fmt .rne (unpack fp32Fmt y.toNat)).1
  | _ => [q8Elem y]

/-- One output row of EPI: its bytes and the container of DERIVE (R209, R263, R271). `cs` are the bank's elements with
their poison, `sums` the block sums. -/
def epiRow (w : List Word) (cs : List (Poi Word)) (sums : List Word) (bias : Option (List Word)) :
    List (Poi Byte) × Word :=
  let dfmt := bits (cw w 0) 13 8
  let size := epiSize dfmt
  if dfmt = 0x3F then
    ((cs.zip sums).flatMap (fun e => (bytesOfNat 4 (if e.1.2 then 0 else e.2.toNat)).map (fun b => (b, e.1.2))), 0)
  else
    let ys := cs.zipIdx.map (fun e => if e.1.2 then none else
      some (shapeElem e.1.1 (cw w 4) (bias.map (fun l => l.getD e.2 0#32)) (bits (cw w 0) 16 15) (cw w 7)))
    if bitAt (cw w 0) 17 then
      let (c, qs) := deriveStrip ys
      ((qs.zip cs).map (fun e => (e.1, e.2.2)), c)
    else (ys.flatMap (fun y => match y with
      | some v => (outBytes dfmt v).map (fun b => (b, false))
      | none => (List.replicate size 0#8).map (fun b => (b, true))), 0)

end Sys2Proof.Machine
end

