-- ==== Sys2Proof/Machine/Burin.lean ====
section
/-!
DEFINITION. The Burin tape unit: CRC32C (R212), chunks and records (R347 to R350), staging and release (R351 to R353),
and what an append or a pop finds (R214 to R220, R354).
-/

namespace Sys2Proof.Machine

/-! ### CRC32C -/

/-- One bit of crc32c_step (R212). -/
def crcBit (c : Word) : Word := if c.getLsbD 0 then (c >>> 1) ^^^ 0x82F63B78#32 else c >>> 1

/-- One byte of crc32c_step (R212). -/
def crcByte (c : Word) (b : Byte) : Word :=
  crcBit (crcBit (crcBit (crcBit (crcBit (crcBit (crcBit (crcBit (c ^^^ b.zeroExtend 32))))))))

/-- crc32c_step (R212). -/
def crcStep (c : Word) (bs : List Byte) : Word := ~~~(bs.foldl crcByte (~~~c))

/-- Fold a word into a signature (R357). -/
def foldSig (sig w : Word) : Word := crcStep sig (bytesOfNat 4 w.toNat)

/-! ### Chunks -/

/-- MAGIC (R348). -/
def chunkMagic : Nat := 0x4255524E

/-- The 32-byte header of a chunk (R348). -/
def chunkHeader (index seq count len : Nat) (last trunc : Bool) (pcrc : Word) : List Byte :=
  let prev := if index = 0 then 0xFFFFFFFF else 4096 * (index - 1)
  let h := bytesOfNat 4 chunkMagic ++ bytesOfNat 4 index ++ bytesOfNat 4 prev
    ++ bytesOfNat 4 (len + count * 2 ^ 12 + b2n (index = 0) * 2 ^ 24 + b2n last * 2 ^ 25 + b2n trunc * 2 ^ 26)
    ++ bytesOfNat 8 seq ++ bytesOfNat 4 pcrc.toNat
  h ++ bytesOfNat 4 (crcStep 0 h).toNat

/-- The 4,096 bytes of a chunk (R347). -/
def chunkBytes (index seq count : Nat) (payload : List Byte) (last trunc : Bool) : List Byte :=
  chunkHeader index seq count payload.length last trunc (crcStep 0 payload) ++ payload
    ++ List.replicate (4064 - payload.length) 0#8

/-! ### Coding values -/

/-- Bits of a tape value (R213). -/
def tapeBits : TapeWidth → Nat
  | .w32 => 32
  | .w64 => 64
  | .w16 => 16

/-- Code of a width (R349). -/
def tapeCode : TapeWidth → Nat
  | .w32 => 0
  | .w64 => 1
  | .w16 => 2

/-- Bytes up to the highest nonzero byte (R350). -/
def deltaLen (d : Nat) : Nat := if d = 0 then 0 else Nat.log2 d / 8 + 1

/-- A prediction (R350). -/
def predGet (t : Cells Double) (slot tag : Nat) : Nat := (cget 0#64 t (slot * 128 + tag)).toNat

def predSet (t : Cells Double) (slot tag v : Nat) : Cells Double := cset 0#64 t (slot * 128 + tag) (BitVec.ofNat 64 v)

/-- Code values for slots in order: the nibbles, the delta bytes, and the table after (R350). -/
def codeVals (w tag : Nat) : List (Nat × Nat) → Cells Double → List Nat × List Byte × Cells Double
  | [], t => ([], [], t)
  | (slot, v) :: rest, t =>
    let d := (v ^^^ predGet t slot tag) % 2 ^ w
    let n := deltaLen d
    let (ns, bs, t') := codeVals w tag rest (predSet t slot tag v)
    (n :: ns, bytesOfNat n d ++ bs, t')

/-- Pack length nibbles, two to a byte (R350). -/
def packNibbles : List Nat → List Byte
  | [] => []
  | [a] => [BitVec.ofNat 8 a]
  | a :: b :: t => BitVec.ofNat 8 (a + 16 * b) :: packNibbles t

/-- The bytes of a record and the prediction table after it (R349, R350). -/
def codeRec (t : Cells Double) : TapeRec → List Byte × Cells Double
  | .lane w tag m vals =>
    let (ns, bs, t') := codeVals (tapeBits w) tag ((lanesOf m).zip (vals.map (·.toNat))) t
    (bytesOfNat 1 (tapeCode w * 16) ++ bytesOfNat 1 tag ++ bytesOfNat 4 m.toNat ++ packNibbles ns ++ bs, t')
  | .course w tag v =>
    let (ns, bs, t') := codeVals (tapeBits w) tag [(32, v.toNat)] t
    (bytesOfNat 1 (64 + tapeCode w * 16) ++ bytesOfNat 1 tag ++ packNibbles ns ++ bs, t')
  | .branch m => (bytesOfNat 1 0x80 ++ bytesOfNat 4 m.toNat, t)
  | .mark v => (bytesOfNat 1 0xC0 ++ bytesOfNat 4 v.toNat, t)

/-! ### Decoding values -/

/-- Read the values of a record from its nibbles and delta bytes. -/
def uncodeVals (w tag : Nat) : List Nat → List Nat → List Byte → Cells Double →
    Option (List Double × List Byte × Cells Double)
  | [], _, bs, t => some ([], bs, t)
  | _ :: _, [], _, _ => none
  | slot :: rest, n :: ns, bs, t =>
    if w / 8 < n || bs.length < n then none
    else
      let v := (natOfBytes (bs.take n) ^^^ predGet t slot tag) % 2 ^ w
      match uncodeVals w tag rest ns (bs.drop n) (predSet t slot tag v) with
      | some (vs, bs', t') => some (BitVec.ofNat 64 v :: vs, bs', t')
      | none => none

/-- The nibbles of length bytes; an unused high nibble must be zero (R350). -/
def unpackNibbles (m : Nat) (bs : List Byte) : Option (List Nat) :=
  let ns := bs.flatMap (fun b => [b.toNat % 16, b.toNat / 16])
  if (ns.drop m).all (· == 0) then some (ns.take m) else none

/-- WIDTH of a record's first byte (R349). -/
def widthOf : Nat → Option TapeWidth
  | 0 => some .w32
  | 1 => some .w64
  | 2 => some .w16
  | _ => none

/-- One record from the front of a payload (R349). -/
def uncodeRec (t : Cells Double) (bs : List Byte) : Option (TapeRec × List Byte × Cells Double) :=
  match bs with
  | [] => none
  | b :: rest =>
    let kind := b.toNat / 64
    if kind = 2 || kind = 3 then
      if b.toNat % 64 ≠ 0 || rest.length < 4 then none
      else
        let v := BitVec.ofNat 32 (natOfBytes (rest.take 4))
        some (if kind = 2 then .branch v else .mark v, rest.drop 4, t)
    else
      match widthOf (b.toNat / 16 % 4), rest with
      | some w, tb :: body =>
        if b.toNat % 16 ≠ 0 || 128 ≤ tb.toNat then none
        else if kind = 0 then
          if body.length < 4 then none
          else
            let m : Lanes := BitVec.ofNat 32 (natOfBytes (body.take 4))
            let n := countLanes m
            let body := body.drop 4
            let k := (n + 1) / 2
            if body.length < k then none
            else match unpackNibbles n (body.take k) with
              | none => none
              | some ns =>
                match uncodeVals (tapeBits w) tb.toNat (lanesOf m) ns (body.drop k) t with
                | some (vs, r, t') => some (.lane w tb.toNat m vs, r, t')
                | none => none
        else
          match body with
          | [] => none
          | l :: d =>
            match unpackNibbles 1 [l] with
            | none => none
            | some ns =>
              match uncodeVals (tapeBits w) tb.toNat [32] ns d t with
              | some (v :: _, r, t') => some (.course w tb.toNat v, r, t')
              | _ => none
      | _, _ => none

/-- Exactly `n` records in exactly these bytes (R352). -/
def uncodeAll : Nat → List Byte → Cells Double → Option (List TapeRec)
  | 0, bs, _ => if bs.isEmpty then some [] else none
  | n + 1, bs, t =>
    match uncodeRec t bs with
    | none => none
    | some (r, rest, t') =>
      match uncodeAll n rest t' with
      | some l => some (r :: l)
      | none => none

/-- A field of a chunk header (R348). -/
def hdr (bs : List Byte) (h l : Nat) : Nat := bits (natOfBytes (bs.take 32)) h l

/-- A chunk image decodes as chunk `n` (R352): its SEQ, FIRST, TRUNC and records. -/
def decodeChunk (bs : List Byte) (n : Nat) (expect : Option Nat) : Option (Nat × Bool × Bool × List TapeRec) :=
  let len := hdr bs 107 96
  let count := hdr bs 119 108
  let seq := hdr bs 191 128
  let first := hdr bs 120 120 == 1
  if bs.length < 4096 || hdr bs 31 0 ≠ chunkMagic || hdr bs 63 32 ≠ n
      || hdr bs 95 64 ≠ (if n = 0 then 0xFFFFFFFF else 4096 * (n - 1)) || first != (n == 0) || 4064 < len
      || hdr bs 127 123 ≠ 0 then none
  else if hdr bs 255 224 ≠ (crcStep 0 (bs.take 28)).toNat then none
  else
    let payload := (bs.drop 32).take len
    if hdr bs 223 192 ≠ (crcStep 0 payload).toNat then none
    else if expect ≠ none && expect ≠ some (seq + count) then none
    else match uncodeAll count payload [] with
      | some rs => some (seq, first, hdr bs 122 122 == 1, rs)
      | none => none

/-! ### The stream of a course -/

/-- The tape record in force. -/
def tapeRecord (t : Tape) : Record := recordOfWords t.record

/-- Address of chunk `n`. -/
def chunkVa (t : Tape) (n : Nat) : Nat := (tapeRecord t).base + 4096 * n

/-- Read a chunk's image; nothing where its page is not mapped; a poisoned sector gives no bytes (R352). -/
def readChunk (s : State) (asid : BitVec 16) (t : Tape) (n : Nat) : Option (List Byte) :=
  match hubRead s asid (chunkVa t n) 4096 with
  | some (bs, poison) => some (if poison then [] else bs)
  | none => none

/-- A stage that holds a chunk read and not yet decoded. -/
def newStage (n : Nat) (image : List Byte) (expect : Option Nat) : Stage :=
  { index := n, seq := 0, recs := [], first := false, image := image, released := false, bad := false, expect := expect,
    discarded := false, due := none }

/-- A chunk whose staging a save has discarded: the pop that needs it reads it (R351). -/
def lateStage (n : Nat) (expect : Option Nat) : Stage := { newStage n [] expect with discarded := true }

/-- The image's header has FIRST clear, and it is not chunk 0: the unit reads the chunk before it (R351). -/
def readsAhead (g : Stage) : Bool := g.index ≠ 0 && 32 ≤ g.image.length && hdr g.image 120 120 == 0

/-- Start the read-ahead behind the current stage, where its header allows (R351); a page that is not mapped drops it. -/
def stageAhead (s : State) (asid : BitVec 16) (t : Tape) : Tape :=
  match t.current with
  | none => t
  | some g =>
    if readsAhead g then
      match readChunk s asid t (g.index - 1) with
      | some bs => { t with ahead := some (newStage (g.index - 1) bs (some (hdr g.image 191 128))) }
      | none => { t with ahead := none }
    else { t with ahead := none }

/-- A stage barrier: the chunk decodes and is released, or the barrier carries the error bit (R353). -/
def signalStage (t : Tape) (g : Stage) : Tape × Stage :=
  match decodeChunk g.image g.index g.expect with
  | some (seq, first, _, rs) =>
    ({ t with released := min 1023 (t.released + 1), err := false },
     { g with seq := seq, first := first, recs := rs, released := true })
  | none => ({ t with err := true }, { g with bad := true })

/-- A stage still owes its barrier. -/
def stageOpen (g : Stage) : Bool := !g.released && !g.bad && !g.discarded

/-- The oldest staging request that owes its barrier. -/
def openStage (t : Tape) : Option Stage := (t.current.toList ++ t.ahead.toList).find? stageOpen

/-- Change the oldest staging request that owes its barrier. -/
def updStage (t : Tape) (f : Tape → Stage → Tape × Stage) : Tape :=
  match t.current with
  | some g =>
    if stageOpen g then
      let (t, g) := f t g
      { t with current := some g }
    else match t.ahead with
      | some a =>
        if stageOpen a then
          let (t, a) := f t a
          { t with ahead := some a }
        else t
      | none => t
  | none => t

/-- The oldest staging request ends (R353). -/
def signalTape (t : Tape) : Tape := updStage t signalStage

/-! ### The transform pipe (R28) -/

/-- The cycle that a core's cluster is in. -/
def coreCycle (s : State) (m : Nat) : Nat := (getCluster s (coreCluster m)).cycles

/-- The transform pipe of a core is free (R28). -/
def pipeFree (s : State) (m : Nat) : Bool := decide (((getCore s m).ports.getD 2 (0, 3)).1 ≤ coreCycle s m)

/-- Cycles for which a chunk with `n` bytes of payload holds the pipe (R28). -/
def chunkCycles (n : Nat) : Nat := 16 + ceilDiv n 16

/-- The pipe of a core is held for `n` more cycles. -/
def holdPipe (s : State) (m n : Nat) : State :=
  let c := getCore s m
  setCore s m { c with ports := modifyAt c.ports 2 (fun e => (max e.1 (coreCycle s m) + n, e.2)) }

/-- Payload bytes that a staged image gives. -/
def stageBytes (g : Stage) : Nat := min 4064 (hdr g.image 107 96)

/-- What a pop finds (R217, R218, R220, R351). -/
inductive Newest where
  /-- The newest record, with the tape in which it is the newest and the tape without it. -/
  | record (r : TapeRec) (t popped : Tape)
  /-- TAPEUNDER. -/
  | under
  /-- TAPEBAD at this chunk. -/
  | bad (n : Nat)
  /-- The chunk's page is not mapped. -/
  | page (n : Nat)
  /-- The pop waits for a stage barrier, in this tape. -/
  | wait (t : Tape)
  deriving DecidableEq, Repr

/-- Look for the newest record; `fuel` bounds the number of empty chunks passed. -/
def newestFrom (s : State) (asid : BitVec 16) : Nat → Tape → Newest
  | 0, _ => .under
  | fuel + 1, t =>
    match t.current with
    | none => .under
    | some g =>
      if g.bad then .bad g.index
      else if g.discarded then
        match readChunk s asid t g.index with
        | none => .page g.index
        | some bs => .wait (stageAhead s asid { t with current := some (newStage g.index bs g.expect) })
      else if !g.released then .wait t
      else match g.recs.getLast? with
        | some r => .record r t { t with current := some { g with recs := g.recs.dropLast } }
        | none =>
          if g.first then .under
          else match t.ahead with
            | some a => newestFrom s asid fuel (stageAhead s asid { t with current := some a, ahead := none })
            | none =>
              match readChunk s asid t (g.index - 1) with
              | none => .page (g.index - 1)
              | some bs =>
                .wait (stageAhead s asid { t with current := some (newStage (g.index - 1) bs (some g.seq)), ahead := none })

/-- What a pop's reads do to the spans of the chunks that it may read (R331). -/
def touchTape (s : State) (asid : BitVec 16) (t : Tape) : State :=
  if allGood s then s
  else match t.current with
    | none => s
    | some g => [0, 1, 2].foldl (fun s i => if i ≤ g.index then hubTouch s asid (chunkVa t (g.index - i)) 4096 else s) s

/-- The newest record of a replaying tape (R220). -/
def newest (s : State) (asid : BitVec 16) (t : Tape) : Newest :=
  if t.trunc then .under
  else newestFrom s asid (match t.current with
    | some g => g.index + 2
    | none => 1) t

/-- Index that SR_TAPESTAT.CHUNK shows (R356). -/
def chunkIndex (t : Tape) : Nat :=
  match t.mode with
  | .idle => 0
  | .record => match t.chunk with
    | some c => c.index
    | none => t.next
  | .replay => match t.current with
    | some g => g.index
    | none => 0

/-- SR_TAPESTAT (R356). -/
def tapeStat (t : Tape) : Word :=
  let mode := match t.mode with
    | .idle => 0
    | .record => 1
    | .replay => 2
  BitVec.ofNat 32 (min 0xFFFF (chunkIndex t) + t.released * 2 ^ 16 + b2n t.err * 2 ^ 26 + b2n (t.mode == .replay && t.trunc) * 2 ^ 27
    + b2n t.ovf * 2 ^ 28 + b2n t.drop * 2 ^ 29 + mode * 2 ^ 30)

/-! ### Appending -/

/-- What an append needs before it takes effect (R220, R347, R354). -/
inductive AppendNeed where
  | ok
  /-- TAPEFULL: the chunk involved. -/
  | full (n : Nat)
  /-- A chunk must be written and its page is not mapped (R354). -/
  | page (n : Nat)
  /-- PROT of an earlier chunk write (R354). -/
  | prot (va : Nat)
  deriving DecidableEq, Repr

/-- Chunk `n` lies within the record. -/
def chunkFits (t : Tape) (n : Nat) : Bool := decide (4096 * (n + 1) ≤ (tapeRecord t).extent)

/-- The chunk that RECEND writes (R347): the open one, chunk 0 where none was ever opened, or the last one written. -/
def lastChunk (t : Tape) : Nat := match t.chunk with
  | some c => c.index
  | none => t.next - 1

/-- The chunk write that an append would make cannot be translated. -/
def chunkUnmapped (s : State) (asid : BitVec 16) (t : Tape) (n : Nat) : Bool :=
  match translate s asid (chunkVa t n) with
  | .mem .. => false
  | _ => true

/-- The checks of an append of `r` (R220, R354). -/
def appendNeed (s : State) (asid : BitVec 16) (t : Tape) (r : TapeRec) : AppendNeed :=
  match t.writeFault with
  | some va => .prot va.toNat
  | none =>
    if t.ovf then .ok
    else match t.chunk with
      | some c =>
        let len := c.payload.length + (codeRec c.pred r).1.length
        if len ≤ 4064 && c.count < 4095 then
          if len = 4064 && chunkUnmapped s asid t c.index then .page c.index else .ok
        else if !t.drop && !chunkFits t t.next then .full t.next
        else if chunkUnmapped s asid t c.index then .page c.index
        else .ok
      | none => if !t.drop && !chunkFits t t.next then .full t.next else .ok

/-- An append writes the open chunk: its record does not fit, or fills it. -/
def appendCloses (t : Tape) (r : TapeRec) : Bool :=
  !t.ovf && match t.chunk with
    | some c => decide (4064 ≤ c.payload.length + (codeRec c.pred r).1.length) || decide (4095 ≤ c.count)
    | none => false

/-- DETAIL of a PAGE at this address: 1 where the walk has met poison (R369). -/
def pageDetail (s : State) (asid : BitVec 16) (va : Nat) : Nat :=
  match translate s asid va with
  | .page p => b2n p
  | _ => 0

/-- A chunk's bytes are written by core `m`, in order after the core's own stores, and released: the core keeps no older copy of
its lines (R166, R218, R345). -/
def storeChunk (s : State) (m : Nat) (asid : BitVec 16) (h : Home) (bs : List Byte) : State :=
  dropLines (writeHome (drainCore s m) asid h bs) (fun i => i = m) (fun x => (List.range 32).any (fun i => x.home == homeAdd h (128 * i)))

/-- Write a chunk's bytes, whose page is mapped; a page without permission leaves PROT for later (R354). The transform pipe
encodes it (R28). -/
def writeChunk (s : State) (m : Nat) (asid : BitVec 16) (t : Tape) (n : Nat) (bs : List Byte) : State × Tape :=
  let s := holdPipe (touchWalk s asid (chunkVa t n)) m (chunkCycles (hdr bs 107 96))
  match translate s asid (chunkVa t n) with
  | .mem h f => if f.write then (storeChunk s m asid h bs, t) else (s, { t with writeFault := some (BitVec.ofNat 64 (chunkVa t n)) })
  | _ => (s, t)

/-- Write the open chunk and close it (R347). -/
def closeChunk (s : State) (m : Nat) (asid : BitVec 16) (t : Tape) (last trunc : Bool) : State × Tape :=
  match t.chunk with
  | none => (s, t)
  | some c =>
    let (s, t) := writeChunk s m asid t c.index (chunkBytes c.index c.seq c.count c.payload last trunc)
    (s, { t with chunk := none, last := chunkHeader c.index c.seq c.count c.payload.length last trunc (crcStep 0 c.payload) })

/-- Put a record into the chunk that is open, or into the next one (R347, R350). -/
def putRec (t : Tape) (r : TapeRec) : Tape :=
  match t.chunk with
  | some c =>
    let (bs, pred) := codeRec c.pred r
    { t with chunk := some { c with count := c.count + 1, payload := c.payload ++ bs, pred := pred }
             seq := t.seq + 1, kept := t.kept + 1 }
  | none =>
    let (bs, pred) := codeRec [] r
    { t with chunk := some ⟨t.next, t.seq, 1, bs, pred⟩, next := t.next + 1, seq := t.seq + 1, kept := t.kept + 1 }

/-- Append a record whose checks have passed (R214, R220, R347). -/
def appendRec (s : State) (m : Nat) (asid : BitVec 16) (t : Tape) (r : TapeRec) : State × Tape :=
  if t.ovf then (s, t)
  else
    let fits := match t.chunk with
      | some c => decide (c.payload.length + (codeRec c.pred r).1.length ≤ 4064) && decide (c.count < 4095)
      | none => false
    let (s, t) := if fits then (s, t) else closeChunk s m asid t false false
    if !fits && !chunkFits t t.next then (s, { t with ovf := true })
    else
      let t := putRec t r
      match t.chunk with
      | some c => if c.payload.length = 4064 then closeChunk s m asid t false false else (s, t)
      | none => (s, t)

end Sys2Proof.Machine
end

