-- ==== Sys2Proof/Machine/Packets.lean ====
section
/-!
DEFINITION. Packets as the command processor reads them: fields, limits and the cause of a bad one (R30 to R34, R42 to
R44, R47, R228), roles, budgets and the lanes of a course (R35, R52).
-/

namespace Sys2Proof.Machine

/-- A word of a packet. -/
def pw (l : List Word) (i : Nat) : Nat := (l.getD i 0).toNat

/-- TYPE of a header (R30). -/
def pkType (l : List Word) : Nat := bits (pw l 0) 7 0

/-- PRIO of a header (R30). -/
def pkPrio (l : List Word) : Nat := bits (pw l 0) 11 8

/-- BARRIER of a header (R30). -/
def pkBarrier (l : List Word) : Bool := bitAt (pw l 0) 12

/-- COOP of a header (R30). -/
def pkCoop (l : List Word) : Bool := bitAt (pw l 0) 14

/-- COURSES per block (R34). -/
def pkCourses (l : List Word) : Nat := bits (pw l 9) 5 0

/-- TEAM size (R34). -/
def pkTeam (l : List Word) : Nat := bits (pw l 9) 9 6

/-- LASTLANES; 0 means 32 (R34). -/
def pkLast (l : List Word) : Nat := if bits (pw l 9) 15 10 = 0 then 32 else bits (pw l 9) 15 10

/-- Courses of role `r` (R34). -/
def pkRole (l : List Word) (r : Nat) : Nat := bits (pw l 10) (8 * r + 7) (8 * r)

/-- Register budget of role `r` (R34). -/
def pkBudget (l : List Word) (r : Nat) : Nat := bits (pw l 11) (8 * r + 7) (8 * r)

/-- The block's local-store allocation (R34). -/
def pkAlloc (l : List Word) : Nat := roundUp (pw l 12) 256

/-- Blocks of the grid (R34). -/
def pkBlocks (l : List Word) : Nat := pw l 6 * pw l 7 * pw l 8

/-- The role of course `n` (R35). -/
def courseRole (l : List Word) (n : Nat) : Nat :=
  if n < pkRole l 0 then 0 else if n < pkRole l 0 + pkRole l 1 then 1 else 2

/-- The register budget of course `n` (R52). -/
def courseBudget (l : List Word) (n : Nat) : Nat := pkBudget l (courseRole l n)

/-- The team role of a launch with TEAM nonzero (R34). -/
def teamRole (l : List Word) : Nat := if pkRole l 1 ≠ 0 then 1 else 0

/-- The place of course `n` among the courses of the team role: team and rank (R35). -/
def courseTeam (l : List Word) (n : Nat) : Option (Nat × Nat) :=
  if pkTeam l = 0 || courseRole l n ≠ teamRole l then none
  else
    let i := n - (if teamRole l = 1 then pkRole l 0 else 0)
    some (i / pkTeam l, i % pkTeam l)

/-- The first `n` lanes. -/
def lowLanes (n : Nat) : Lanes := maskOf (fun i => decide (i < n))

/-- Live lanes and helper lanes of course `n` at its start (R35). -/
def courseLanes (l : List Word) (n : Nat) : Lanes × Lanes :=
  if n + 1 = pkCourses l then
    (lowLanes (roundUp (pkLast l) 4), lowLanes (roundUp (pkLast l) 4) &&& ~~~(lowLanes (pkLast l)))
  else (allLanes, 0)

/-- Courses of a block on quarter `q` (R35). -/
def quarterCourses (l : List Word) (q : Nat) : List Nat := (List.range (pkCourses l)).filter (fun n => n % 4 = q)

/-- Registers a block takes on quarter `q` (R53). -/
def quarterNeed (l : List Word) (q : Nat) : Nat := ((quarterCourses l q).map (courseBudget l)).sum

/-! ### Partitions -/

/-- CLUSTERS of a partition (R392). -/
def partClusters (p : Partition) : List Nat := (List.range Config.clusters).filter (fun k => p.pctl.getLsbD k)

/-- CTRBASE and CTRCOUNT (R392). -/
def ctrBase (p : Partition) : Nat := bits p.pres.toNat 15 0
def ctrCount (p : Partition) : Nat := bits p.pres.toNat 32 16

/-- A counter index of a packet names a counter of the allotment (R40). -/
def ctrNamed (p : Partition) (i : Nat) : Bool := decide (i < ctrCount p)

/-- A counter (R40). -/
def getCounter (s : State) (i : Nat) : Counter := (find? s.counters i).getD Counter.free

/-! ### Limits -/

/-- How many of these blocks fit together on an idle core (R53, R236). -/
def coreFits (l : List Word) : Nat :=
  let q := (List.range 4).map (fun q =>
    let n := (quarterCourses l q).length
    let r := quarterNeed l q
    min (if n = 0 then 64 else Config.quarterSlots / n) (if r = 0 then 64 else Config.quarterRegs / r))
  let byLocal := if pkAlloc l = 0 then 64 else Config.localBytes / pkAlloc l
  let n := q.foldl min byLocal
  if pkTeam l ≠ 0 then min n 1 else n

/-- The co-residency test of R47. -/
def coopFits (l : List Word) (p : Partition) (nc : Nat) : Bool :=
  decide (pkBlocks l ≤ coreFits l * 8 * (partClusters p).length) && decide (pkBlocks l * pkCourses l ≤ nc)

/-- Words that must be zero. -/
def anySet (l : List Word) (is : List Nat) : Bool := is.any (fun i => pw l i ≠ 0)

/-- A zero field is not zero, or a header bit is set that the type forbids (R30, R31, R32). -/
def pkZero (l : List Word) : Bool :=
  bits (pw l 0) 30 15 ≠ 0 || pw l 1 ≠ 0 ||
  match pkType l with
  | 1 => anySet l [21, 24, 25, 26, 27, 28, 29, 30, 31] || pw l 9 / 2 ^ 16 ≠ 0 || pw l 10 / 2 ^ 24 ≠ 0
      || pw l 11 / 2 ^ 24 ≠ 0 || pw l 14 / 2 ^ 16 ≠ 0 || pw l 17 / 2 ^ 16 ≠ 0
  | 2 => bits (pw l 0) 11 8 ≠ 0 || bits (pw l 0) 14 13 ≠ 0 || pw l 8 / 4 ≠ 0 || pw l 17 / 2 ^ 16 ≠ 0
      || anySet l [10, 11, 12, 13, 14, 15, 20, 21, 24, 25, 26, 27, 28, 29, 30, 31]
      || (bits (pw l 8) 1 0 = 1 && anySet l [2, 3])
  | 3 => bits (pw l 0) 11 8 ≠ 0 || bits (pw l 0) 14 13 ≠ 0 || pw l 6 / 4 ≠ 0 || anySet l ((List.range 25).map (· + 7))
  | _ => bits (pw l 0) 11 8 ≠ 0 || bits (pw l 0) 14 13 ≠ 0 || pw l 2 / 8 ≠ 0 || pw l 3 ≠ 0
      || anySet l ((List.range (32 - min 32 (4 + 4 * bits (pw l 2) 2 0))).map (· + min 32 (4 + 4 * bits (pw l 2) 2 0)))

/-- A budget breaks R34. -/
def budgetBad (courses b : Nat) : Bool := if courses = 0 then b ≠ 0 else b < 8 || 96 < b || b % 8 ≠ 0

/-- The shape of a launch breaks R34. -/
def shapeBad (l : List Word) : Bool :=
  pw l 6 = 0 || pw l 7 = 0 || pw l 8 = 0 || 2 ^ 31 < pkBlocks l || pkCourses l = 0 || 32 < pkCourses l
    || !([0, 4, 8].contains (pkTeam l)) || 32 < bits (pw l 9) 15 10
    || pkRole l 0 + pkRole l 1 + pkRole l 2 ≠ pkCourses l
    || (List.range 3).any (fun r => budgetBad (pkRole l r) (pkBudget l r)) || Config.localBytes < pw l 12
    || (pkTeam l ≠ 0 && pkRole l (teamRole l) % pkTeam l ≠ 0)

/-- Counter fields of a launch or a copy (R34, R40): own counter, initial count, successors. -/
def counterBad (s : State) (p : Partition) (l : List Word) : Bool :=
  let own := pw l 16
  (if own = 0xFFFFFFFF then pw l 17 ≠ 0
   else !ctrNamed p own || (getCounter s (ctrBase p + own)).armed)
    || [pw l 18, pw l 19].any (fun i => i ≠ 0xFFFFFFFF && !ctrNamed p i)

/-- LENGTH of a COPY (R42). -/
def copyLength (l : List Word) : Nat := word64 l 6

/-- The cause of a bad packet (R32), the lowest code where several hold; `nc` is the context's course limit. -/
def packetCause (s : State) (part : BitVec 3) (nc : Nat) (l : List Word) : Option Nat :=
  let p := getPart s part
  let t := pkType l
  if t = 0 || 4 < t then some 0x01
  else if pkZero l then some 0x02
  else if t = 1 then
    if shapeBad l then some 0x03
    else if word64 l 2 % 64 ≠ 0 || word64 l 4 % 64 ≠ 0 || word64 l 22 % 8 ≠ 0 then some 0x04
    else if counterBad s p l then some 0x05
    else if pkCoop l && !coopFits l p nc then some 0x08
    else none
  else if t = 2 then
    let mode := bits (pw l 8) 1 0
    if (mode = 1 && word64 l 4 % 4 ≠ 0) || word64 l 22 % 8 ≠ 0 then some 0x04
    else if counterBad s p l then some 0x05
    else if 1 < mode || copyLength l = 0 || 2 ^ 40 < copyLength l || (mode = 1 && copyLength l % 4 ≠ 0) then some 0x09
    else none
  else if t = 3 then
    if word64 l 2 % 8 ≠ 0 then some 0x04 else if bits (pw l 6) 1 0 = 3 then some 0x09 else none
  else
    let n := bits (pw l 2) 2 0
    if (List.range (min n 4)).any (fun i => word64 l (4 + 4 * i) % 8 ≠ 0) then some 0x04
    else if n = 0 || 4 < n then some 0x09
    else none

/-- The cause of a packet submitted by TASK.enq (R228). -/
def enqCause (s : State) (part : BitVec 3) (nc : Nat) (l : List Word) : Option Nat :=
  if pkType l = 4 then some 0x01
  else if !bitAt (pw l 0) 31 then (if pkType l = 0 || 4 < pkType l then some 0x01 else some 0x02)
  else packetCause s part nc l

end Sys2Proof.Machine
end

