-- ==== Sys2Proof/Machine/Checks.lean ====
section
/-!
DEFINITION. The checks an instruction makes when it issues, in the order of R92: HAZARD and the rest of the
uniform-operand class, then the per-lane class with the waits that come before an effect. A check changes nothing.
-/

namespace Sys2Proof.Machine

/-- What stops an issue unit: a fault, or a wait after which it issues again (R249). -/
inductive Stop where
  | fault (f : FaultInfo)
  | hold (p : Park)
  deriving DecidableEq, Repr

/-! ### HAZARD -/

/-- The registers in a path's pending set (R84, R205). -/
def pendingRes (k : Course) (p : Path) : List Res :=
  (k.longs.filter (fun w => p.pending.contains w.id)).flatMap (fun w => w.writes.flatMap writeRes ++ w.holds)

/-- A fault that stops the instruction for all active lanes. -/
def wholeFault (v : View) (cause : Nat) : FaultInfo := plainFault cause v.act

/-- Opcode, card, stream and continuation bit of an engine instruction (R193). -/
def engineOf : Instr → Option (Nat × RecName × BitVec 4 × Bool)
  | .cpy c s k => some (0x70, c, s, k)
  | .gath c s k => some (0x71, c, s, k)
  | .mma c s k => some (0x73, c, s, k)
  | .mml c s k => some (0x74, c, s, k)
  | .epi c s k => some (0x75, c, s, k)
  | _ => none

/-- Words of a card (R193). -/
def cardSize (op : Nat) : Nat := if op = 0x74 then 16 else 8

/-- The further registers that a record's FMT gives D (R160). -/
def furtherRes (v : View) (i : Instr) : List Res :=
  match i with
  | .ldr d _ rs _ | .str d _ rs _ | .ldrp d _ rs _ => (regRange d (fmtRegs (readRecord v.k rs.val).fmt)).drop 1
  | _ => []

/-- Some register of the list has a long write pending in the issuing path (R86). -/
def pendingAny (v : View) (l : List Res) : Bool := l.any (fun r => (pendingRes v.k v.p).contains r)

/-- The registers and predicates an instruction names, reads or writes, its guard's predicate among them (R86). -/
def namedRes (v : View) (i : Instr) : List Res := reads i ++ writes i ++ predRes (v.u.guard.truncate 3)

/-! ### The uniform-operand class -/

/-- A record check: BADREC, then the names that FMT asks for, then HAZARD on the further registers (R159, R160). -/
def recordStop (v : View) (rs : RecName) (accepts : Nat → Bool) (d : Option RegName) (i : Instr) : Option FaultInfo :=
  let r := readRecord v.k rs.val
  if recordBad r accepts then some { wholeFault v 0x05 with tag := r.tag }
  else match d with
    | none => none
    | some d =>
      if !fmtNameOk d r.fmt then some { wholeFault v 0x01 with tag := r.tag }
      else if pendingAny v (furtherRes v i) then some { wholeFault v 0x03 with tag := r.tag }
      else none

/-- The courses of a team in rank order (R35). -/
def teamCourses (s : State) (blk : Nat) (team : Nat) : List Nat :=
  (blockCourses s blk).filter (fun c => match getCourse s blk c with
    | some k => k.team == some team
    | none => false)

/-- The smallest register budget of a team's members. -/
def teamBudget (s : State) (blk team : Nat) : Nat :=
  (teamCourses s blk team).foldl (fun m c => match getCourse s blk c with
    | some k => min m k.budget
    | none => m) 96

/-- The card checks of R194 items 1 and 2. -/
def cardStop (s : State) (v : View) (op : Nat) (c : RecName) : Option FaultInfo :=
  let w := cardWords v.k c (cardSize op)
  let pl := planOf op w (recordOfWords (cardRecord v.k op w))
  let overlap := pl.uses && pl.rs == c.val
  let slice := match v.k.team with
    | some t => (sliceRange w v.b.team).any (fun r => decide (teamBudget s v.u.blk t ≤ r))
    | none => false
  if pl.illegal || overlap || ((op = 0x73 || op = 0x74) && slice) then some (wholeFault v 0x01)
  else if !pl.uses then none
  else
    let r := readRecord v.k pl.rs
    if pendingAny v (blockRes ⟨pl.rs % 3, Nat.mod_lt _ (by decide)⟩ 8) then some (wholeFault v 0x03)
    else if recordBad r pl.accepts then some { wholeFault v 0x05 with tag := r.tag } else none

/-- The collective that a course's next MMA or MML belongs to (R266). -/
def openCollective (b : Block) (k : Course) : Option Collective :=
  b.collectives.find? (fun x => some x.team == k.team && x.index == k.collectives)

/-- The collective that the issuing member has already arrived at is formed: the issue only ends now (R266). -/
def formedFor (v : View) : Bool := match openCollective v.b v.k with
  | some x => x.formed
  | none => false

/-- TEAM (R267): a member that diverged, one that issues after another has exited, a last arrival of another opcode. -/
def teamStop (s : State) (v : View) (op : Nat) : Option FaultInfo :=
  match v.k.team with
  | none => some (wholeFault v 0x01)
  | some t =>
    let exited := (teamCourses s v.u.blk t).any (fun c => match getCourse s v.u.blk c with
      | some k => k.live = 0
      | none => true)
    let mixed := match openCollective v.b v.k with
      | some x => x.arrived.length + 1 = v.b.team && x.arrived.any (fun a => a.2 ≠ op)
      | none => false
    if v.act ≠ v.k.live || exited || mixed then some (wholeFault v 0x0E) else none

/-- The limit a command counts toward (R22, R195). -/
def engineKind (op : Nat) : Nat := if op = 0x70 then 0 else if op = 0x71 then 1 else 2

def engineLimit (kind : Nat) : Nat :=
  if kind = 0 then Config.copyLimit else if kind = 1 then Config.gatherLimit else Config.matrixLimit

/-- The core of a command. -/
def cmdCore (s : State) (c : Command) : Nat := blockCore s c.blk

/-- Accepted commands of a kind on a core. -/
def engineCount (s : State) (m kind : Nat) : Nat :=
  (s.commands.filter (fun e => e.2.accepted && engineKind e.2.op == kind && cmdCore s e.2 == m)).length

/-- The engine can take a command now: below the limit, and after the block's earlier ones (R195). -/
def acceptable (s : State) (id : Nat) (c : Command) : Bool :=
  !c.accepted && decide (engineCount s (cmdCore s c) (engineKind c.op) < engineLimit (engineKind c.op))
    && s.commands.all (fun e => e.2.accepted || e.2.blk ≠ c.blk || decide (id ≤ e.1))

/-- The engine would not take a command of this block now: its limit is reached, or an earlier command of the block waits (R22,
R195). -/
def engineFull (s : State) (blk op : Nat) : Bool :=
  !(decide (engineCount s (blockCore s blk) (engineKind op) < engineLimit (engineKind op)))
    || s.commands.any (fun e => !e.2.accepted && e.2.blk == blk)

/-- SR numbers (R64). -/
def srExists (n : Nat) : Bool := n ≤ 0x1C
def srLane (n : Nat) : Bool := n ≤ 1
def srWritable (n : Nat) : Bool := n = 0x13 || n = 0x17 || n = 0x18 || n = 0x19

/-- A record that a tape may use (R218). -/
def tapeRecordBad (r : Record) : Bool :=
  recordBad r (· = 0x01) || r.base % 4096 ≠ 0 || r.extent = 0 || r.extent % 4096 ≠ 0
    || (15 * 2 ^ 44 < r.base + r.extent && r.base < 2 ^ 48)

/-- BADREC of a tape record. -/
def tapeRecordStop (v : View) (rs : RecName) : Option FaultInfo :=
  let r := readRecord v.k rs.val
  if tapeRecordBad r then some { wholeFault v 0x05 with tag := r.tag } else none

/-- The uniform-operand checks of an instruction, HAZARD first; a member whose wait has begun has passed them. -/
def uniformStop (s : State) (v : View) (i : Instr) : Option FaultInfo :=
  let mode := v.k.tape.mode
  let named := pendingAny v (namedRes v i)
  let hazard := if named then some (wholeFault v 0x03) else none
  let ill := some (wholeFault v 0x01)
  let team (op : Nat) (c : RecName) : Option FaultInfo :=
    if v.b.team = 0 then ill
    else if formedFor v then none
    else match teamStop s v op with
      | some f => some f
      | none => if v.k.rank ≠ some 0 then none else if named then hazard else cardStop s v op c
  if v.p.waited.contains v.u.pos then none
  else match i with
  | .mma c _ _ => team 0x73 c
  | .mml c _ _ => team 0x74 c
  | i =>
    if named then hazard
    else match i with
    | .ldr d _ rs _ | .str d _ rs _ | .ldrp d _ rs _ => recordStop v rs fmtAccess (some d) i
    | .atr _ _ _ rs => recordStop v rs (· = 0x05) none i
    | .pref _ _ rs _ | .recld _ _ rs _ => recordStop v rs fmtKnown none i
    | .cpy c _ _ => cardStop s v 0x70 c
    | .gath c _ _ => cardStop s v 0x71 c
    | .epi c _ _ => if v.b.team = 0 then ill else cardStop s v 0x75 c
    | .srd d n => if !srExists n.toNat || (srLane n.toNat && isScalar d) then ill else none
    | .swr n _ => if !srWritable n.toNat then ill else none
    | .stepBegin _ a => if readReg v.k (regPlus a.reg 1) 0 = 0 then ill else none
    | .trec .. => if mode = .replay then ill else none
    | .tpop .. | .brr .. => if mode ≠ .replay then ill else none
    | .tctlRecbegin _ rs _ => if mode ≠ .idle then ill else tapeRecordStop v rs
    | .tctlRecbeginExt _ rs _ =>
      if mode ≠ .record then ill
      else match tapeRecordStop v rs with
        | some f => some f
        | none =>
          let r := readRecord v.k rs.val
          let old := tapeRecord v.k.tape
          if r.base ≠ old.base || r.extent < old.extent then some { wholeFault v 0x05 with tag := r.tag } else none
    | .tctlRecend _ => if mode ≠ .record then ill else none
    | .tctlRepbegin o rs _ =>
      if mode ≠ .idle then ill
      else match tapeRecordStop v rs with
        | some f => some f
        | none =>
          let off := (readReg v.k o 0).toNat
          if off % 4096 ≠ 0 || (readRecord v.k rs.val).extent ≤ off then ill else none
    | .tctlRepend => if mode = .record then ill else none
    | _ => none

/-! ### The per-lane class and the waits -/

/-- Engine errors the course has still to take (R199, R365), as they are reported. -/
def engFault (e : EngErr) : FaultInfo := ⟨e.cause, 0, e.pos, e.tag, e.off.toNat % 2 ^ 48, true⟩

/-- The first error of a command that `p` covers. -/
def engStop (k : Course) (p : EngErr → Bool) : Option FaultInfo := (k.engErrs.find? p).map engFault

/-- Commands of a course that have not completed (R180, R210). -/
def openCommands (s : State) (blk c : Nat) (p : Command → Bool) : List Nat :=
  (s.commands.filter (fun e => e.2.blk == blk && (e.2.course == c || e.2.members.contains c) && p e.2)).map (·.1)

/-- Stores of core `m` to the fabric window that their devices have not acknowledged, by request (R293). -/
def storeAcks (s : State) (m : Nat) : List Nat :=
  (s.remotes.filter (fun e => match e.2.owner with
    | .store core _ => core == m
    | _ => false)).map (·.1)

/-- A release at SYSTEM has remote stores to wait for (R179). -/
def fabricStores (s : State) (m : Nat) : Bool :=
  !(storeAcks s m).isEmpty || (getCore s m).stores.any (fun x => x.home matches .fabric ..)

/-- Wait for commands, and with `acks` for the acknowledgement of every remote store, unless this member has waited already
(R179, R180, R210). -/
def commandHold (s : State) (v : View) (acks : Bool) (p : Command → Bool) : Option Stop :=
  if v.p.waited.contains v.u.pos then none
  else
    let ids := openCommands s v.u.blk v.u.course p
    if ids.isEmpty && !(acks && fabricStores s v.b.core) then none else some (.hold (.commands ids []))

/-- The other path slot holds a path. -/
def otherHeld (v : View) : Bool := (getPath v.k (1 - v.u.slot)).isSome

/-- The pushes of a split (R137). -/
def splitPushes (v : View) (t : Lanes) : Nat :=
  if t &&& v.act = 0 || v.act &&& ~~~t = 0 then 0 else if otherHeld v then 1 else 0

/-- DSTACK and DSPILL (R147). -/
def pushStop (s : State) (v : View) (n : Nat) : Option Stop :=
  if n = 0 then none
  else match pushCheck s v.u.blk v.k n with
    | none => none
    | some .dstack => some (.fault (wholeFault v 0x19))
    | some (.dspill va) => some (.fault { wholeFault v 0x0A with info := va % 2 ^ 48 })

/-- A target offset of BRX and CALLX (R140): the lanes that differ, then alignment. -/
def targetStop (s : State) (v : View) (a : Src) : Option Stop :=
  match lowestLane v.exe with
  | none => none
  | some l0 =>
    let x := readReg v.k a.reg l0
    let bad := maskOf (fun l => hasLane v.exe l && readReg v.k a.reg l ≠ x)
    if bad ≠ 0 then some (.fault { plainFault 0x0B bad with info := x.toNat })
    else if x.toNat % 16 ≠ 0 then some (.fault { plainFault 0x07 v.exe with info := (blockCode s v.u.blk + x.toNat) % 2 ^ 48 })
    else none

/-- A PROOF fault (R358). -/
def proofFault (v : View) (sub : Nat) : FaultInfo := { wholeFault v 0x0C with detail := sub, info := v.p.sig.toNat }

/-- The region that a path belongs to, as its stack entry; poison counts as an entry that cannot be known (R334). -/
def regionEntry (s : State) (v : View) : Option (Nat × Entry × Bool) :=
  match v.p.region, getCtx s v.b.asid with
  | some n, some x => (readEntry s x v.k.stackSlot n).map (fun e => (n, e.1, e.2))
  | _, _ => none

/-- PROOF for JOIN and RET (R143, R244); an entry that cannot be read removes the context at its update (R364). -/
def arriveStop (s : State) (v : View) (join : Bool) (m : Lanes) : Option Stop :=
  match regionEntry s v with
  | none => if v.p.region = none then some (.fault (proofFault v 2)) else none
  | some (_, e, poison) =>
    if poison then none
    else if (if join then e.kind ≠ 1 || e.addr ≠ v.p.pc.toNat % 2 ^ 48 else e.kind ≠ 2) then some (.fault (proofFault v 2))
    else if m &&& ~~~e.mask ≠ 0 || m &&& e.word3 ≠ 0 then some (.fault (proofFault v 3))
    else none

/-- The checks of a word of local store named by scalars: PHARR, PHWAIT (R152). -/
def phaseStop (v : View) (a : Src) (imm : Word) : Option Stop :=
  match localFault v.b (localAddr (readReg v.k a.reg 0) imm) with
  | some (c, info) => some (.fault { wholeFault v c with info := info })
  | none => none

/-- The chunk's page is not mapped for a write: the unit stalls while the host serves the request, as an engine command does
(R199, R354). -/
def chunkStall (s : State) (v : View) (n : Nat) : Stop :=
  let va := chunkVa v.k.tape n
  .fault ⟨0x08, pageDetail s v.b.asid va, packPos (blockCode s v.u.blk) v.p.pc v.u.pos, (tapeRecord v.k.tape).tag, va % 2 ^ 48, true⟩

/-- Another path has stalled the tape unit of the core at a page (R354). -/
def unitStalled (s : State) (v : View) : Bool :=
  s.contexts.any (fun x => x.2.faults.any (fun e => e.f.engine && match e.owner with
    | .path blk c slot => (getBlock s blk).any (fun b => b.core = v.b.core) && !(blk = v.u.blk && c = v.u.course && slot = v.u.slot)
    | _ => false))

/-- The tape unit cannot act: it is stalled, or it must encode a chunk and the transform pipe is held (R28, R354). -/
def tapeHold (s : State) (v : View) (encodes : Bool) : Option Stop :=
  if unitStalled s v || (encodes && !pipeFree s v.b.core) then some (.hold .tape) else none

/-- An append's checks (R220, R354). -/
def appendStop (s : State) (v : View) (r : TapeRec) : Option Stop :=
  match appendNeed s v.b.asid v.k.tape r with
  | .ok => tapeHold s v (appendCloses v.k.tape r)
  | .full n => some (.fault { wholeFault v 0x0F with info := 4096 * n % 2 ^ 32 })
  | .page n => some (chunkStall s v n)
  | .prot va => some (.fault { wholeFault v 0x09 with info := va % 2 ^ 48 })

/-- PAGE at a chunk that is read for a pop or for REPBEGIN (R351). -/
def chunkPage (s : State) (v : View) (va : Nat) : Stop :=
  .fault { wholeFault v 0x08 with info := va % 2 ^ 48, detail := pageDetail s v.b.asid va }

/-- A pop's checks (R215, R217, R218, R220, R351); `ok` is the match of the instruction with the record. -/
def popStop (s : State) (v : View) (ok : TapeRec → Bool) : Option Stop :=
  let at4k (c n : Nat) : Option Stop := some (.fault { wholeFault v c with info := 4096 * n % 2 ^ 32 })
  match newest s v.b.asid v.k.tape with
  | .record r t _ => if ok r then tapeHold s v false else at4k 0x10 (chunkIndex t)
  | .under => at4k 0x18 (chunkIndex v.k.tape)
  | .bad n => at4k 0x11 n
  | .page n => some (chunkPage s v (chunkVa v.k.tape n))
  | .wait _ => some (.hold .stage)

/-- The record that a TREC appends (R214). -/
def trecRecord (v : View) (w : TapeWidth) (tag : BitVec 7) (a : Src) : Option TapeRec :=
  let val (l : Nat) : Double := match w with
    | .w64 => readPair v.k a.reg l
    | .w32 => (readReg v.k a.reg l).zeroExtend 64
    | .w16 => BitVec.ofNat 64 ((readReg v.k a.reg l).toNat % 2 ^ 16)
  if isScalar a.reg then (if v.never then none else some (.course w tag.toNat (val 0)))
  else some (.lane w tag.toNat v.exe ((lanesOf v.exe).map val))

/-- A TPOP matches the newest record (R215). -/
def popMatches (v : View) (w : TapeWidth) (tag : BitVec 7) (scalar : Bool) (r : TapeRec) : Bool :=
  match r with
  | .course w' t _ => scalar && w' == w && t == tag.toNat
  | .lane w' t m _ => !scalar && w' == w && t == tag.toNat && (m &&& v.k.live) == v.exe
  | _ => false

/-- BRR's record is a branch record within active(c) (R217). -/
def brrMatches (v : View) (r : TapeRec) : Bool :=
  match r with
  | .branch m => (m &&& v.k.live) &&& ~~~v.act == 0
  | _ => false

/-- A mark equal to A (R218). -/
def markMatches (w : Word) (r : TapeRec) : Bool :=
  match r with
  | .mark x => x == w
  | _ => false

/-- BRA appends a branch record (R216). -/
def braRecords (v : View) : Bool := v.k.tape.mode == .record && v.u.guard != 0 && v.u.guard != 8

/-- The address of TASK.signal. -/
def signalVa (v : View) (a : Src) : Nat := (readPair v.k a.reg 0).toNat

/-- The packet image of TASK.enq (R228). -/
def enqImage (v : View) (a : Src) : List Word :=
  bytesToWords (cgetRun 0#8 v.b.localMem (readReg v.k a.reg 0).toNat 128)

/-- A sector of a local range carries poison. -/
def localPoisoned (b : Block) (addr n : Nat) : Bool :=
  (List.range ((addr + n - 1) / 32 - addr / 32 + 1)).any (fun i => cget false b.localPoison (addr / 32 + i))

/-- The course limit and the course's context. -/
def ctxNc (s : State) (asid : BitVec 16) : Nat := match getCtx s asid with
  | some x => x.nc
  | none => 0

/-- What a remote access of this member has found and brought, once it is under way (R168). -/
def heldFor (v : View) : Option Held := v.p.remotes.find? (fun h => h.pos == v.u.pos)

/-- Where each lane of a record access leads: as found when it issued, where it has waited for remote data (R168, R400). -/
def heldReach (s : State) (v : View) (x : RecordAccess) : List (Nat × Reach) :=
  match heldFor v with
  | some h => h.reach
  | none => accessReach s v x

/-- The lanes of a remote access that have failed, with their addresses. -/
def failedLanes (h : Held) : List (Nat × Nat) :=
  h.reach.filterMap (fun e => match e.2 with
    | .fabric va _ _ _ => if h.answers.any (fun a => a.1 == e.1 && !a.2.ok) then some (e.1, va) else none
    | _ => none)

/-- The wait of a remote access (R168): none once its data have come; REMOTE in the lanes whose access has failed. -/
def remoteStop (v : View) (tag : Half) (uniform : Bool) : Option Stop :=
  match heldFor v with
  | none => some (.hold .remote)
  | some h => match failedLanes h with
    | [] => none
    | (l, va) :: rest =>
      let m := if uniform then v.act else ((l, va) :: rest).foldl (fun (m : Lanes) e => m ||| bitLane e.1) 0
      some (.fault ⟨0x14, 0, m, tag, va % 2 ^ 48, false⟩)

/-- The loads and atomics pending in the issuing path (R179). -/
def pendingLoads (k : Course) (p : Path) : List Nat :=
  (k.longs.filter (fun w => w.load && p.pending.contains w.id)).map (·.id)

/-- A checked lane accesses a STRONG page (R290). -/
def strongReach (l : List (Nat × Reach)) : Bool := l.any (fun e => match e.2 with
  | .mem _ _ f => f.order == 1
  | _ => false)

/-- The fence before a STRONG access waits for the path's earlier loads and for its remote stores (R179, R290). -/
def strongStop (s : State) (v : View) (l : List (Nat × Reach)) : Option Stop :=
  if strongReach l && (!(pendingLoads v.k v.p).isEmpty || fabricStores s v.b.core) then
    some (.hold (.longs (pendingLoads v.k v.p) [])) else none

/-- The stop of a record access: its faults, the fence before a STRONG access, and for a load or an atomic the wait for
remote data (R163, R168, R290). The checks are made once: an access under way keeps what they found (R400). -/
def recordAccessStop (s : State) (v : View) (x : RecordAccess) (remote : Bool) : Option Stop :=
  if (heldFor v).isSome then remoteStop v x.r.tag x.uniform
  else
    let l := accessReach s v x
    match lanesFault (reachFails l) x.r.tag (if x.uniform then some v.act else none) with
    | some f => some (.fault f)
    | none =>
      match strongStop s v l with
      | some h => some h
      | none => if remote && !(fabricLanes l).isEmpty then remoteStop v x.r.tag x.uniform else none

/-- Where the instruction's push, arrival or demotion completes the path's long writes first, it waits for an engine to read
the slices that the path's team commands have named (R137, R138, R205, R243). -/
def sliceStop (v : View) (needed : Bool) : Option Stop :=
  if needed && !(sliceHolds v.k v.p).isEmpty then some (.hold (.longs (sliceHolds v.k v.p) [])) else none

/-- Whether an instruction completes its path's long writes as its effect (R137, R138, R170, R174, R177, R243). -/
def settlesPath (v : View) (i : Instr) : Bool :=
  match i with
  | .bra _ | .brx _ | .call _ | .callx _ => otherHeld v && v.exe != 0 && v.act &&& ~~~v.exe != 0
  | .brr _ => otherHeld v
  | .join | .yield | .ldrp .. | .ldlp .. | .atr .cas .. | .atl .cas .. => true
  | .ret => v.exe != 0
  | _ => false

/-- A release at SYSTEM, or a SEQ fence, waits for the acknowledgement of every remote store (R179). -/
def awaitsAcks (kind : FenceKind) (scope : Scope) : Bool :=
  match kind with
  | .acq => false
  | .seq => true
  | _ => scope == .system

/-- The per-lane checks of an instruction, and the wait that comes before its effect. -/
def ownStop (s : State) (v : View) (i : Instr) : Option Stop :=
  let fault (f : Option FaultInfo) : Option Stop := f.map .fault
  match i with
  | .ldr .. | .ldrp .. | .atr .. | .recld .. =>
    match recordAccess v i with
    | some x => recordAccessStop s v x true
    | none => none
  | .str .. =>
    match recordAccess v i with
    | some x => recordAccessStop s v x false
    | none => none
  | .ldl .. | .ldlp .. | .stl .. | .atl .. =>
    match localAccess v i with
    | some (l, u) =>
      fault (lanesFault (l.filterMap (fun e => (localFault v.b e.2).map (fun f => (e.1, f.1, f.2, 0)))) 0
        (if u then some v.act else none))
    | none => none
  | .brx a => match targetStop s v a with
    | some f => some f
    | none => pushStop s v (splitPushes v v.exe)
  | .callx a => match targetStop s v a with
    | some f => some f
    | none => if v.exe = 0 then none else pushStop s v (1 + splitPushes v v.exe)
  | .call _ => if v.exe = 0 then none else pushStop s v (1 + splitPushes v v.exe)
  | .rcv _ => pushStop s v 1
  | .bra _ =>
    match (if braRecords v then appendStop s v (.branch v.exe) else none) with
    | some f => some f
    | none => pushStop s v (splitPushes v v.exe)
  | .brr _ =>
    match popStop s v (brrMatches v) with
    | some f => some f
    | none =>
      match newest s v.b.asid v.k.tape with
      | .record (.branch m) _ _ => pushStop s v (splitPushes v (m &&& v.k.live))
      | _ => none
  | .join => arriveStop s v true v.act
  | .ret => if v.exe = 0 then none else arriveStop s v false v.exe
  | .bar _ => if v.act ≠ v.k.live then some (.fault (proofFault v 4)) else none
  | .exit => if v.exe = 0 then none else fault (engStop v.k (fun _ => true))
  | .pharr _ a imm | .phwait _ a imm => phaseStop v a imm
  | .proof c => if v.p.sig.toNat % 2 ^ 21 = c.toNat then none else some (.fault (proofFault v 1))
  | .trap c => if v.exe = 0 then none else some (.fault { plainFault 0x15 v.exe with info := c.toNat })
  | .fence kind scope e =>
    if v.never then none
    else match commandHold s v (awaitsAcks kind scope) (fun _ => e) with
      | some h => some h
      | none => if e then fault (engStop v.k (fun _ => true)) else none
  | .swait strm =>
    if v.never then none
    else match commandHold s v false (fun c => c.strm == strm.toNat) with
      | some h => some h
      | none => fault (engStop v.k (fun e => e.strm == strm.toNat))
  | .cpy .. | .gath .. | .epi .. | .mma .. | .mml .. =>
    match engineOf i with
    | none => none
    | some (op, c, _, _) =>
      let team := op = 0x73 || op = 0x74
      if team && formedFor v then none
      else
        let lead := !team || v.k.rank == some 0
        let w := cardWords v.k c (cardSize op)
        let r := recordOfWords (cardRecord v.k op w)
        let pl := planOf op w r
        match (if v.never || !lead then none else cardRangeFault v.b pl r) with
        | some (cause, info) =>
          some (.fault { wholeFault v cause with info := info, tag := if pl.uses then r.tag else 0 })
        | none =>
          let arrived := match openCollective v.b v.k with
            | some x => x.arrived.length
            | none => 0
          let created := if v.k.rank == some 0 then !v.never else match openCollective v.b v.k with
            | some x => x.created
            | none => false
          if team then
            if arrived + 1 < v.b.team then some (.hold .arrival)
            else if created && engineFull s v.u.blk op then some (.hold (.acceptance 0 true)) else none
          else if !v.never && !v.p.waited.contains v.u.pos && engineFull s v.u.blk op then some (.hold (.acceptance 0 false)) else none
  | .trec w tag a =>
    if v.k.tape.mode ≠ .record then none
    else match trecRecord v w tag a with
      | some r => appendStop s v r
      | none => none
  | .tpop w tag d =>
    if isScalar d && v.never then none else popStop s v (popMatches v w tag (isScalar d))
  | .tctlMark a =>
    if v.never then none
    else match v.k.tape.mode with
      | .idle => none
      | .record => appendStop s v (.mark (readReg v.k a.reg 0))
      | .replay => popStop s v (markMatches (readReg v.k a.reg 0))
  | .tctlFlush =>
    match v.never, v.k.tape.writeFault, v.k.tape.mode, v.k.tape.chunk with
    | false, some va, _, _ => some (.fault { wholeFault v 0x09 with info := va.toNat % 2 ^ 48 })
    | false, none, .record, some c => if chunkUnmapped s v.b.asid v.k.tape c.index then some (chunkStall s v c.index) else tapeHold s v true
    | _, _, _, _ => none
  | .tctlRecend _ =>
    match v.never, v.k.tape.writeFault with
    | true, _ => none
    | false, some va => some (.fault { wholeFault v 0x09 with info := va.toNat % 2 ^ 48 })
    | false, none =>
      if chunkUnmapped s v.b.asid v.k.tape (lastChunk v.k.tape) then some (chunkStall s v (lastChunk v.k.tape)) else tapeHold s v true
  | .tctlStatus _ =>
    match v.never, v.k.tape.writeFault with
    | false, some va => some (.fault { wholeFault v 0x09 with info := va.toNat % 2 ^ 48 })
    | _, _ => none
  | .tctlRepbegin o rs _ =>
    if v.never then none
    else
      let va := (readRecord v.k rs.val).base + (readReg v.k o 0).toNat
      match translate s v.b.asid va with
      | .mem .. => tapeHold s v false
      | _ => some (chunkPage s v va)
  | .swr n _ =>
    if v.never || n.toNat = 0x13 || v.p.waited.contains v.u.pos then none
    else
      let ids := v.k.longs.map (·.id)
      if ids.isEmpty then none else some (.hold (.longs ids []))
  | .taskDone => if v.never || v.b.done then none else commandHold s v true (fun _ => true)
  | .taskSignal a =>
    if v.never then none
    else
      let va := signalVa v a
      if (heldFor v).isSome then remoteStop v 0 true
      else if va % 8 ≠ 0 then some (.fault { wholeFault v 0x07 with info := va % 2 ^ 48 })
      else match translate s v.b.asid va with
        | .page p => some (.fault { wholeFault v 0x08 with info := va % 2 ^ 48, detail := b2n p })
        | .mem _ f =>
          if !f.write then some (.fault { wholeFault v 0x09 with info := va % 2 ^ 48 })
          else commandHold s v true (fun _ => true)
        | .fabric .. => match commandHold s v true (fun _ => true) with
          | some h => some h
          | none => some (.hold .remote)
  | .taskEnq _ a =>
    if v.never then none
    else
      let addr := (readReg v.k a.reg 0).toNat
      if addr % 16 ≠ 0 then some (.fault { wholeFault v 0x07 with info := addr })
      else if v.b.alloc < addr + 128 then some (.fault { wholeFault v 0x06 with info := addr })
      else if localPoisoned v.b addr 128 then none
      else
        let full := match getCtx s v.b.asid with
          | some x => decide (Config.submissions ≤ x.subs.length)
          | none => false
        if full && enqCause s v.b.part (ctxNc s v.b.asid) (enqImage v a) = none then some (.hold .submission)
        else commandHold s v true (fun _ => false)
  | _ => none

/-- The per-lane class of an instruction and its waits: its own, then for the engine's read of pending slices. -/
def laneStop (s : State) (v : View) (i : Instr) : Option Stop :=
  match ownStop s v i with
  | some x => some x
  | none => sliceStop v (settlesPath v i)

end Sys2Proof.Machine
end

