-- ==== Sys2Proof/Machine/Issue.lean ====
section
/-!
DEFINITION. The issue of one instruction: its checks, its effect, and what the issue unit leaves when its last member
takes effect (R62, R82, R85, R92, R111, R242, R357). Every meaning of a Ralvas instruction goes through `runInstr`.
-/

namespace Sys2Proof.Machine

/-! ### Demotion -/

/-- The sibling run of a region at the top of the stack: indices and entries, top first (R243); nothing where an entry
cannot be read. -/
def siblingRun (s : State) (x : Context) (t : Nat) (region : Option Nat) : Nat → Option (List (Nat × Entry × Bool))
  | 0 => some []
  | n + 1 =>
    match readEntry s x t n with
    | none => none
    | some (e, p) =>
      if p then some [(n, e, p)]
      else if e.kind = 3 then siblingRun s x t region n
      else if e.kind = 0 && e.link == region then (siblingRun s x t region n).map ((n, e, p) :: ·)
      else some []

/-- The rotation of R243: the run's entries move up by one and `e` takes its bottom. -/
def rotateRun (s : State) (x : Context) (t : Nat) (e : Entry) : List (Nat × Entry × Bool) → State
  | [] => s
  | [(n, _, _)] => writeEntry s x t n e
  | (n, _, _) :: (m, f, p) :: rest => rotateRun (writeEntry s x t n f) x t e ((m, f, p) :: rest)

/-- What a demotion's reads do to the spans of the stack's entries and at the slices: the entries of the run, and the one that
ends it (R318, R331). -/
def touchRun (s : State) (x : Context) (t : Nat) (region : Option Nat) : Nat → State
  | 0 => s
  | n + 1 =>
    let s := touchEntry s x t n
    match readEntry s x t n with
    | some (e, false) => if e.kind = 3 || (e.kind = 0 && e.link == region) then touchRun s x t region n else s
    | _ => s

/-- The path in `slot` still has lanes of these: no other path has taken its slot. -/
def keepsLanes (k : Course) (slot : Nat) (m : Lanes) : Bool := match getPath k slot with
  | some p => p.mask &&& m != 0
  | none => false

/-- The path in `slot` is demoted (R243). -/
def demote (s : State) (blk c slot : Nat) : State :=
  let m := match (getCourse s blk c).bind (fun k => getPath k slot) with
    | some p => p.mask
    | none => 0
  let s := completePath s blk c slot
  match getCourse s blk c, blockCtx s blk with
  | some k, some x =>
    match getPath k slot with
    | none => s
    | some p =>
      if k.tape.mode ≠ .idle || !keepsLanes k slot m then s
      else
        let s := touchRun s x k.stackSlot p.region k.depth
        let prefer (s : State) : State := updCourse s blk c (fun k => { k with preferred := 1 - slot })
        match siblingRun s x k.stackSlot p.region k.depth with
        | none => prefer s
        | some [] => prefer s
        | some ((n, q, poison) :: rest) =>
          if poison || rest.any (·.2.2) then killCourse s blk c
          else if !((n, q, poison) :: rest).all (fun e => entryWritable s x k.stackSlot e.1) then prefer s
          else
            let s := rotateRun s x k.stackSlot (pathEntry p) ((n, q, poison) :: rest)
            prefer (updCourse s blk c (fun k => setPath k slot
              (some (newPath (BitVec.ofNat 64 q.addr) q.slot q.mask q.word3 q.link []))))
  | _, _ => s

/-! ### The end of an issue unit -/

/-- Every long write pending in either path of a course (R85). -/
def allPending (k : Course) : List Nat :=
  ((k.path0.map (·.pending)).getD []) ++ ((k.path1.map (·.pending)).getD [])

/-- A wait marker: the course waits for every write now pending (R85). -/
def markWait (k : Course) : Course := { k with waitLongs := k.waitLongs ++ (allPending k).filter (fun i => !k.waitLongs.contains i) }

/-- A member that folds into the signature (R357): its word, after the packet's mortar word where none of the packet has
folded yet. -/
def memberFolds (u : Issue) (i : Instr) : List Word :=
  if pipeClass i == .none || pipeClass i == .flow then u.folds
  else (if u.folds.isEmpty then u.mortar.toList else u.folds) ++ [u.word]

/-- The position that follows an issue unit (R76). -/
def nextPos (p : Path) (after : Nat) : Path :=
  { p with pc := if after < 3 then p.pc else p.pc + 16, slot := if after < 3 then after else 0,
           waited := [], faultId := none, remotes := [], latched := none, fetched := if after < 3 then p.fetched else [] }

/-- The course after its issue unit: hints, flags and signature, the wait marker, and the preference (R61, R62, R111,
R242, R357). -/
def unitCourse (u : Issue) (advance : Bool) (k : Course) : Course :=
  let k := { spendRegs k u.spends with fpflags := k.fpflags ||| u.flags, preferred := 1 - u.slot }
  let k := setPath k u.slot ((getPath k u.slot).map (fun p =>
    let p := { p with sig := u.folds.foldl foldSig p.sig }
    if advance then nextPos p u.after else p))
  if u.waits then markWait k else k

/-- End the issue unit; a member that demotes its path does so now (R170, R177, R243). -/
def endUnit (s : State) (u : Issue) (advance : Bool) : State :=
  let s := { updCourse s u.blk u.course (unitCourse u advance) with issue := none }
  if u.demotes then demote s u.blk u.course u.slot else s

/-- A member has taken effect with these flags: the unit ends with its last member (R82). -/
def retire (s : State) (u : Issue) (i : Instr) (flags : FpFlags) : State :=
  let u := { u with spends := u.spends ++ spends i, flags := u.flags ||| flags, folds := memberFolds u i,
                    waits := u.waits || u.wait }
  if u.last then endUnit s u true else { s with issue := some u }

/-- A flow instruction issues: its hints, its wait marker and the preference, the path's move being its own effect. -/
def flowIssue (s : State) (u : Issue) (i : Instr) : State :=
  endUnit s { u with spends := u.spends ++ spends i, folds := memberFolds u i, waits := u.waits || u.wait } false

/-! ### Faults and waits -/

/-- The engine error that a fault delivers is consumed (R365). -/
def consumeError (k : Course) (f : FaultInfo) : Course :=
  match takeFirst (fun e => engFault e == f) k.engErrs with
  | some (_, rest) => { k with engErrs := rest }
  | none => k

/-- A member's fault is TEAM at the last arrival of a collective whose members' opcodes differ (R267). -/
def teamMixed (s : State) (v : View) (i : Instr) (f : FaultInfo) : Bool :=
  f.cause = 0x0E && v.act = v.k.live && match engineOf i, openCollective v.b v.k with
    | some (op, _, _, _), some x => x.arrived.length + 1 = v.b.team && x.arrived.any (fun a => a.2 ≠ op)
        && (arrivalSites s v.u.blk v.k.team).length + 1 = v.b.team
    | _, _ => false

/-- Every member of the team takes TEAM at its own instruction, the arriving one first (R267). -/
def teamFault (s : State) (v : View) (f : FaultInfo) : State :=
  removeAll s v.b.asid v.b.core
    (⟨f, pathPos s v.u.blk v.p, v.u.course, v.u.slot⟩ :: arrivalSites s v.u.blk v.k.team) false

/-- What a fault does beside its delivery: TAPEBAD and TAPEUNDER leave the tape IDLE (R220), PROT of a chunk write is
reported once (R354), an engine error is consumed (R365). -/
def faultCourse (i : Instr) (f : FaultInfo) (k : Course) : Course :=
  let k := if f.cause = 0x11 || f.cause = 0x18
    then { k with tape := { k.tape with mode := .idle, current := none, ahead := none, order := 0 } } else k
  let tapish := pipeClass i == .tape || pipeClass i == .flow
  let k := if f.cause = 0x09 && tapish && !f.engine then { k with tape := { k.tape with writeFault := none } } else k
  if f.engine then consumeError k f else k

/-- The instruction's fault is taken at the first slot of its issue unit (R82, R92). -/
def faultUnit (s : State) (u : Issue) (i : Instr) (f : FaultInfo) : State :=
  let s := updCourse { s with issue := none } u.blk u.course (faultCourse i f)
  takeFault (updPath s u.blk u.course u.slot (fun p => { p with remotes := [], latched := none }))
    u.blk u.course u.slot f false false u.after

/-- The remote accesses that an instruction waits for, by lane: where each leads (R168). -/
def remoteReach (s : State) (v : View) (i : Instr) : List (Nat × Reach) :=
  match recordAccess v i with
  | some x => accessReach s v x
  | none =>
    match i with
    | .taskSignal a => match translate s v.b.asid (signalVa v a) with
      | .fabric d r rva => [(v.one, .fabric (signalVa v a) d r rva)]
      | _ => []
    | _ => []

/-- What a lane asks of its remote device, with the bytes it sends (R168, R227, R293). -/
def remoteAsk (v : View) (i : Instr) (l : Nat) : RemoteOp × List Byte :=
  match i with
  | .atr op d _ _ => (.atomic op, bytesOfNat 4 (readReg v.k d l).toNat
      ++ (if op = .cas then bytesOfNat 4 (readReg v.k (regPlus d 1) l).toNat else []))
  | .taskSignal _ => (.addWide 0xFFFFFFFFFFFFFFFF#64, [])
  | _ => (.load (((recordAccess v i).map (·.size)).getD 0), [])

/-- The requests of an instruction's lanes go out (R168). -/
def askLanes (s : State) (v : View) (i : Instr) (reach : List (Nat × Reach)) : State :=
  reach.foldl (fun s e => match e.2 with
    | .fabric _ d a rva =>
      askRemote s (.lane v.u.blk v.u.course v.u.slot v.u.pos e.1) d a rva (remoteAsk v i e.1).1 (remoteAsk v i e.1).2
    | _ => s) s

/-- A member arrives at its team's collective (R266). -/
def arrive (s : State) (v : View) (op : Nat) (c : RecName) (strm : BitVec 4) (cont : Bool) : State :=
  match v.k.team, v.k.rank, getBlock s v.u.blk with
  | some t, some r, some b =>
    let x : Collective := (openCollective b v.k).getD
      { team := t, index := v.k.collectives, arrived := [], card := [], strm := 0, cont := false, created := false, formed := false
        pos := 0 }
    let x := { x with arrived := x.arrived ++ [(r, op)] }
    let x := if r = 0 then { x with card := cardWords v.k c (cardSize op), strm := strm.toNat, cont := cont,
                                    created := !v.never, pos := packPos (blockCode s v.u.blk) v.p.pc v.u.pos } else x
    setBlock s v.u.blk { b with collectives := x :: b.collectives.filter (fun y => !(y.team == x.team && y.index == x.index)) }
  | _, _, _ => s

/-- A command as it is issued. -/
def newCommand (blk op course : Nat) (card record : List Word) (strm : Nat) (cont : Bool) (members : List Nat)
    (index : Nat) (pos : Word) : Command :=
  { blk := blk, op := op, card := card, record := record, strm := strm, cont := cont, course := course,
    members := members, index := index, pos := pos, accepted := false, order := 0, begun := false, stall := none,
    remote := none, answers := [], done := false, list := [], slices := [], qi := false, errs := [] }

/-- A command waits in the table until the engine takes it (R195). It answers its id. -/
def queueCommand (s : State) (c : Command) : Nat × State :=
  let (id, s) := newId s
  (id, setCmd s id c)

/-- The position that a command's record gives (R369). -/
def unitPos (s : State) (v : View) : Word := packPos (blockCode s v.u.blk) v.p.pc v.u.pos

/-- The command of one course that CPY, GATH or EPI issues (R194). -/
def courseCommand (s : State) (v : View) (op : Nat) (c : RecName) (strm : BitVec 4) (cont : Bool) : Command :=
  let w := cardWords v.k c (cardSize op)
  newCommand v.u.blk op v.u.course w (cardRecord v.k op w) strm.toNat cont [] 0 (unitPos s v)

/-- The course of rank `r` of a team. -/
def rankCourse (s : State) (blk team r : Nat) : Nat := (teamCourses s blk team).getD r 0

/-- The command of a team's collective (R206, R266). -/
def teamCommand (s : State) (v : View) (op t : Nat) (x : Collective) : Command :=
  newCommand v.u.blk op (rankCourse s v.u.blk t 0) x.card [] x.strm x.cont (teamCourses s v.u.blk t) x.index x.pos

/-- A command that the engine cannot take yet is received: it waits in the table, and its issuer parks (R22, R195). -/
def receiveCommand (s : State) (v : View) (i : Instr) (team : Bool) : Nat × State :=
  match engineOf i with
  | none => (0, s)
  | some (op, c, strm, cont) =>
    if team then
      let s := arrive s v op c strm cont
      match (getBlock s v.u.blk).bind (fun b => openCollective b v.k), v.k.team with
      | some x, some t => queueCommand s (teamCommand s v op t x)
      | _, _ => (0, s)
    else queueCommand s (courseCommand s v op c strm cont)

/-- The registers and predicates that a waiting unit has read (R83). -/
def latchOf (k : Course) : Latch := ⟨k.vregs, k.sregs, k.preds, k.vspent, k.sspent⟩

/-- A course as a waiting unit has read it (R83). -/
def latchedCourse (k : Course) (p : Path) : Course :=
  match p.latched with
  | some l => { k with vregs := l.vregs, sregs := l.sregs, preds := l.preds, vspent := l.vspent, sspent := l.sspent }
  | none => k

/-- The instruction waits for the acknowledgement of remote stores, besides what its park names (R179, R225, R227, R228,
R290). -/
def acksFor (i : Instr) : Bool :=
  match i with
  | .fence kind scope _ => awaitsAcks kind scope
  | .taskDone | .taskSignal _ | .taskEnq .. | .ldr .. | .ldrp .. | .str .. | .atr .. | .recld .. => true
  | _ => false

/-- The park of a wait, with the requests whose acknowledgement it awaits. -/
def parkAcks (s : State) (m : Nat) (p : Park) : Park :=
  match p with
  | .commands ids _ => .commands ids (storeAcks s m)
  | .longs ids _ => .longs ids (storeAcks s m)
  | p => p

/-- A wait begins (R249): what it sets going, and the park; the unit issues again when it ends. -/
def holdUnit (s : State) (v : View) (i : Instr) (p : Park) : State :=
  let u := v.u
  let s := { s with issue := none }
  let reach := if p = .remote then remoteReach s v i else []
  let (id, s) := match p with
    | .acceptance _ team => receiveCommand s v i team
    | _ => (0, s)
  let s := match p with
    | .remote => askLanes (drainCore s v.b.core) v i reach
    | .commands .. | .longs .. => if acksFor i then drainCore s v.b.core else s
    | .arrival => match engineOf i with
      | some (op, c, strm, cont) => arrive s v op c strm cont
      | none => s
    | .stage => match newest s v.b.asid v.k.tape with
      | .wait t => updCourse s u.blk u.course (fun k => { k with tape := t })
      | _ => s
    | _ => s
  let park := match p with
    | .acceptance _ team => .acceptance id team
    | p => if acksFor i then parkAcks s v.b.core p else p
  let s := updPath s u.blk u.course u.slot (fun q => { q with
    park := park
    remotes := if p = .remote then q.remotes ++ [⟨u.pos, reach, []⟩] else q.remotes
    latched := if q.latched.isSome then q.latched else some (latchOf u.before)
    waited := if p matches .stage || p matches .tape || p matches .submission || p matches .remote then q.waited else u.pos :: q.waited })
  updCourse s u.blk u.course (fun k => { (if u.waits || u.wait then markWait k else k) with preferred := 1 - u.slot })

/-! ### One instruction -/

/-- The unit is one instruction: a chained group has been checked as a whole before its first member (R92). -/
def lone (u : Issue) : Bool := u.pos == u.first && u.last

/-- The first thing that stops an instruction (R92). -/
def stopOf (s : State) (v : View) (i : Instr) : Option Stop :=
  match uniformStop s v i with
  | some f => some (.fault f)
  | none => laneStop s v i

/-- What the walks of an instruction's accesses do to the spans of the table entries that they read (R331). -/
def touchAccess (s : State) (v : View) (i : Instr) : State :=
  if allGood s then s
  else match recordAccess v i, i with
    | some x, _ => (accessReach s v x).foldl (fun t e => match e.2 with
      | .mem va _ _ => if x.viaL1 && (l1Find (getCore t v.b.core) v.b.asid va).isSome then t else touchWalk t v.b.asid va
      | .fail 0x08 va _ => touchWalk t v.b.asid va
      | _ => t) s
    | none, .taskSignal a => touchWalk s v.b.asid (signalVa v a)
    | none, _ => s

/-- The fault of an instruction: each member takes TEAM at its own position (R267); a walk that has met poison has read it
(R331). -/
def faultInstr (s : State) (v : View) (i : Instr) (f : FaultInfo) : State :=
  if teamMixed s v i f then teamFault { s with issue := none } v f
  else faultUnit (if f.cause = 0x08 && f.detail = 1 then touchAccess s v i else s) v.u i f

/-- Run an instruction for the issuing path: its checks, then its effect. -/
def runInstr (i : Instr) (s : State) (effect : View → State) : Host.Outcome State Fault Refusal :=
  match viewOf s with
  | none => .fault .noIssuer
  | some v =>
    match (if lone v.u then stopOf s v i else none) with
    | some (.fault f) => .next (faultInstr s v i f)
    | some (.hold p) => .next (holdUnit s v i p)
    | none => .next (effect v)

/-! ### Writing results -/

/-- Short writes (R84). -/
def writeShort (s : State) (u : Issue) (l : List RegWrite) : State :=
  updCourse s u.blk u.course (fun k => applyWrites k l)

/-- A register write that reaches no lane is none. -/
def writesLane : RegWrite → Bool
  | .vec _ m _ | .prd _ m _ => m ≠ 0
  | .scl _ _ => true

/-- A long write brings something. -/
def longBrings (w : LongWrite) : Bool := !(w.writes.isEmpty && w.holds.isEmpty && w.kill = 0 && !w.killAll)

/-- A course with a long write pending in the path of `slot` (R84); one that brings nothing leaves it as it is. -/
def beginLong (w : LongWrite) (slot : Nat) (k : Course) : Course :=
  if longBrings w then
    let k := { k with longs := k.longs ++ [w] }
    setPath k slot ((getPath k slot).map (fun p => { p with pending := p.pending ++ [w.id] }))
  else k

/-- A long write begins: it is pending in the issuing path (R84). -/
def addLong (s : State) (u : Issue) (w : LongWrite) : State := updCourse s u.blk u.course (beginLong w u.slot)

/-- Long writes of an instruction that touches no memory (R84). -/
def writeLong (s : State) (u : Issue) (l : List RegWrite) : State :=
  let (i, s) := newId s
  addLong s u { id := i, writes := l.filter writesLane, holds := [], kill := 0, killAll := false, tag := 0, va := 0,
                load := false, memory := false }

/-- An instruction of the INT or FP class: short results and flags (R97, R99, R111). -/
def runShort (i : Instr) (s : State) (f : View → List RegWrite × FpFlags) : Host.Outcome State Fault Refusal :=
  runInstr i s (fun v => let r := f v; retire (writeShort s v.u r.1) v.u i r.2)

/-- An instruction of a long class that computes a value: long results and flags (R84, R111). -/
def runLong (i : Instr) (s : State) (f : View → List RegWrite × FpFlags) : Host.Outcome State Fault Refusal :=
  runInstr i s (fun v => let r := f v; retire (writeLong s v.u r.1) v.u i r.2)

/-- The values of a destination in the executing lanes (R59, R90). -/
def perLane (v : View) (d : RegName) (f : Nat → Word) : List RegWrite := destWrite d (v.dest d) f

/-- A pair destination in the executing lanes (R57, R104). -/
def pairLane (v : View) (d : RegName) (f : Nat → Double) : List RegWrite :=
  destWrite d (v.dest d) (fun l => (f l).truncate 32) ++ destWrite (regPlus d 1) (v.dest d) (fun l => (f l >>> 32).truncate 32)

/-- A predicate destination in the executing lanes (R58, R59). -/
def predLane (v : View) (p : PredName) (f : Nat → Bool) : List RegWrite :=
  if v.exe = 0 then [] else [.prd p.toNat v.exe (maskOf f)]

/-- The flags of the executing lanes, or of the one issue of a uniform instruction (R90, R111). -/
def laneFlags (v : View) (uniform : Bool) (f : Nat → FpFlags) : FpFlags := orFlags ((v.lanes uniform).map f)

end Sys2Proof.Machine
end

