-- ==== Sys2Proof/Machine/Flow.lean ====
section
/-!
DEFINITION. The FLOW class (R133 to R155, R217, R243): branches, calls, regions, EXIT, YIELD and demotion, barriers,
phase words, PROOF and TRAP.
-/

namespace Sys2Proof.Machine

/-! ### Moving paths -/

/-- The path goes on at the next packet (R139, R143, R145). -/
def stepPath (s : State) (u : Issue) : State := updPath s u.blk u.course u.slot (fun p => nextPos p 3)

/-- A path at another packet, with signature 0 (R139, R153). -/
def jumpTo (p : Path) (pc : Double) : Path := { nextPos p 3 with pc := pc, slot := 0, sig := 0 }

/-- The target of a format-B instruction (R87). -/
def branchTarget (p : Path) (off : BitVec 25) : Double := p.pc + 16 + 16 * off.signExtend 64

/-- The target of BRX and CALLX: CODE + a of the lowest lane (R140). -/
def indexTarget (s : State) (v : View) (a : Src) : Double :=
  BitVec.ofNat 64 (blockCode s v.u.blk + (readReg v.k a.reg ((lowestLane v.exe).getD 0)).toNat)

/-- Which slot issues after a split under the tape (R219). -/
def splitOrder (k : Course) (slot : Nat) (filled : Bool) : Course :=
  match k.tape.mode with
  | .idle => k
  | .record => { k with tape := { k.tape with order := slot + 1 } }
  | .replay => { k with tape := { k.tape with order := if filled then 2 - slot else slot + 1 } }

/-- A split of the issuing path into lanes `t` at `target` and lanes `f` at the next packet (R137). `region` is the region of
the taken part. In REPLAY mode the fall-through part issues first: with both slots held it keeps the slot, and the taken part
waits on the stack (R219). -/
def splitPath (s : State) (v : View) (t f : Lanes) (target : Double) (region : Option Nat) : State :=
  let u := v.u
  match getCourse s u.blk u.course with
  | none => s
  | some k =>
    let taken (p : Path) : Path := { jumpTo p target with mask := t, region := region }
    if (getPath k (1 - u.slot)).isNone then
      let rest := newPath (v.p.pc + 16) 0 f ((getPath k u.slot).getD v.p).sig v.p.region ((getPath k u.slot).getD v.p).pending
      updCourse s u.blk u.course (fun k =>
        splitOrder (setPath (setPath k (1 - u.slot) (some rest)) u.slot ((getPath k u.slot).map taken)) u.slot true)
    else if k.tape.mode = .replay then
      let (_, s) := push s u.blk u.course (pathEntry (newPath target 0 t 0 region []))
      updCourse s u.blk u.course (fun k =>
        splitOrder (setPath k u.slot ((getPath k u.slot).map (fun p => { nextPos p 3 with mask := f }))) u.slot false)
    else
      let (_, s) := push s u.blk u.course (pathEntry (newPath (v.p.pc + 16) 0 f v.p.sig v.p.region []))
      updCourse s u.blk u.course (fun k => splitOrder (setPath k u.slot ((getPath k u.slot).map taken)) u.slot false)

/-- The path's long writes complete before a split pushes, or an arrival (R137, R138). -/
def settlePath (s : State) (v : View) (needed : Bool) : State :=
  if needed then completePath s v.u.blk v.u.course v.u.slot else s

/-- The lanes of a course that are still live (R50). -/
def liveLanes (s : State) (u : Issue) (m : Lanes) : Lanes := match getCourse s u.blk u.course with
  | some k => m &&& k.live
  | none => 0

/-- The path goes to `target` in lanes `t` and on in the lanes `f`, those that have died since left out (R139, R144). -/
def divide (s : State) (v : View) (t f : Lanes) (target : Double) (region : Option Nat) : State :=
  if t = 0 then stepPath s v.u
  else if f = 0 then updPath s v.u.blk v.u.course v.u.slot (fun p => { jumpTo p target with region := region })
  else splitPath s v t f target region

/-- A branch with taken lanes `t` (R139). -/
def branchPath (s : State) (v : View) (t : Lanes) (target : Double) : State :=
  if t = 0 then stepPath s v.u
  else if v.act &&& ~~~t = 0 then updPath s v.u.blk v.u.course v.u.slot (fun p => jumpTo p target)
  else
    let s := settlePath s v (otherHeld v)
    if pathThere s v.u.blk v.u.course v.u.slot v.p then
      divide s v (liveLanes s v.u t) (liveLanes s v.u (v.act &&& ~~~t)) target v.p.region
    else s

/-- A call with taken lanes `t` (R141). -/
def callPath (s : State) (v : View) (t : Lanes) (target : Double) : State :=
  if t = 0 then stepPath s v.u
  else
    let divides := v.act &&& ~~~t ≠ 0
    let s := settlePath s v (divides && otherHeld v)
    let t := liveLanes s v.u t
    if !pathThere s v.u.blk v.u.course v.u.slot v.p then s
    else if t = 0 then stepPath s v.u
    else
      let (n, s) := push s v.u.blk v.u.course ⟨0, t, v.p.region, 2, v.p.pc.toNat + 16, 0, 0, false⟩
      divide s v t (liveLanes s v.u (v.act &&& ~~~t)) target (some n)

/-! ### Branches and calls -/

/-- BRA (R139, R216). -/
def execBra (off : BitVec 25) (s : State) : Host.Outcome State Fault Refusal :=
  runInstr (.bra off) s (fun v =>
    let s := flowIssue s v.u (.bra off)
    let s := if braRecords v then
        let (s, t) := appendRec s v.b.core v.b.asid v.k.tape (.branch v.exe)
        updCourse s v.u.blk v.u.course (fun k => { k with tape := t })
      else s
    branchPath s v v.exe (branchTarget v.p off))

/-- BRX (R140). -/
def execBrx (a : Src) (s : State) : Host.Outcome State Fault Refusal :=
  runInstr (.brx a) s (fun v => branchPath (flowIssue s v.u (.brx a)) v v.exe (indexTarget s v a))

/-- CALL (R141). -/
def execCall (off : BitVec 25) (s : State) : Host.Outcome State Fault Refusal :=
  runInstr (.call off) s (fun v => callPath (flowIssue s v.u (.call off)) v v.exe (branchTarget v.p off))

/-- CALLX (R141). -/
def execCallx (a : Src) (s : State) : Host.Outcome State Fault Refusal :=
  runInstr (.callx a) s (fun v => callPath (flowIssue s v.u (.callx a)) v v.exe (indexTarget s v a))

/-- RCV (R142). -/
def execRcv (off : BitVec 25) (s : State) : Host.Outcome State Fault Refusal :=
  runInstr (.rcv off) s (fun v =>
    let s := flowIssue s v.u (.rcv off)
    let (n, s) := push s v.u.blk v.u.course ⟨0, v.act, v.p.region, 1, (branchTarget v.p off).toNat, 0, 0, false⟩
    updPath s v.u.blk v.u.course v.u.slot (fun p => { nextPos p 3 with region := some n }))

/-- BRR (R217). -/
def execBrr (off : BitVec 25) (s : State) : Host.Outcome State Fault Refusal :=
  runInstr (.brr off) s (fun v =>
    match newest s v.b.asid v.k.tape with
    | .record (.branch m) _ t =>
      let s := updCourse (flowIssue (touchTape s v.b.asid v.k.tape) v.u (.brr off)) v.u.blk v.u.course (fun k => { k with tape := t })
      branchPath s v (m &&& v.k.live) (branchTarget v.p off)
    | _ => s)

/-! ### Arrivals -/

/-- The lanes `m` of the issuing path arrive at its region (R143). -/
def arrivePath (s : State) (v : View) (m : Lanes) : State :=
  let u := v.u
  let s := settlePath s v true
  if !pathThere s u.blk u.course u.slot v.p then s
  else match getCourse s u.blk u.course, getCtx s v.b.asid, v.p.region with
  | some k, some x, some n =>
    let s := touchEntry s x k.stackSlot n
    match readEntry s x k.stackSlot n with
    | none => loseContext s x.asid
    | some (e, poison) =>
      if poison then killCourse s u.blk u.course
      else
        let m := m &&& k.live
        let e := { e with word3 := e.word3 ||| m }
        let s := rewriteEntry s x k.stackSlot n e
        let rest := ((getPath k u.slot).getD v.p).mask &&& ~~~m
        let s := if rest = 0 then updCourse s u.blk u.course (fun k => setPath k u.slot none)
          else updPath s u.blk u.course u.slot (fun p => { nextPos p 3 with mask := rest })
        let s := if regionComplete e k.live then completeRegion s x u.blk u.course n e u.slot else s
        let s := refillSlots s u.blk u.course u.slot (regionComplete e k.live)
        checkStarved s u.blk u.course u.slot (pathPos s u.blk v.p) v.p.sig
  | _, _, _ => s

/-- JOIN (R143, R244). -/
def execJoin (s : State) : Host.Outcome State Fault Refusal :=
  runInstr .join s (fun v => arrivePath (flowIssue s v.u .join) v v.act)

/-- RET (R143, R244, R367). -/
def execRet (s : State) : Host.Outcome State Fault Refusal :=
  runInstr .ret s (fun v =>
    let s := flowIssue s v.u .ret
    if v.exe = 0 then stepPath s v.u else arrivePath s v v.exe)

/-- EXIT (R145). -/
def execExit (s : State) : Host.Outcome State Fault Refusal :=
  runInstr .exit s (fun v =>
    let s := stepPath (flowIssue s v.u .exit) v.u
    if v.exe = 0 then s
    else
      let s := updCourse s v.u.blk v.u.course (fun k => { k with live := k.live &&& ~~~v.exe })
      let s := lanesLeft s v.u.blk v.u.course v.exe
      checkStarved s v.u.blk v.u.course v.u.slot (pathPos s v.u.blk v.p) v.p.sig)

/-! ### YIELD -/

/-- YIELD (R146). -/
def execYield (s : State) : Host.Outcome State Fault Refusal :=
  runInstr .yield s (fun v => demote (stepPath (flowIssue s v.u .yield) v.u) v.u.blk v.u.course v.u.slot)

/-! ### Barriers and phase words -/

/-- A path parks at its instruction. -/
def parkPath (s : State) (u : Issue) (p : Park) : State := updPath s u.blk u.course u.slot (fun q => { q with park := p })

/-- BAR (R148): the course arrives and parks at the barrier; its position is the one it resumes at, the packet after the
BAR (R362). -/
def execBar (id : BitVec 4) (s : State) : Host.Outcome State Fault Refusal :=
  runInstr (.bar id) s (fun v =>
    let s := parkPath (stepPath (flowIssue s v.u (.bar id)) v.u) v.u (.barrier id.toNat)
    match getBlock s v.u.blk with
    | some b => setBlock s v.u.blk { b with
        barriers := cset 0#32 b.barriers id.toNat (cget 0#32 b.barriers id.toNat ||| bitLane v.u.course) }
    | none => s)

/-- A word of a block's local store (R173). -/
def localWord (b : Block) (addr : Nat) : Word := BitVec.ofNat 32 (natOfBytes (cgetRun 0#8 b.localMem addr 4))

/-- Write a word of a block's local store. -/
def setLocalWord (b : Block) (addr : Nat) (w : Word) : Block :=
  { b with localMem := csetRun 0#8 b.localMem addr (bytesOfNat 4 w.toNat) }

/-- One arrival on a phase word (R150): the word after. -/
def phaseArrive (w : Word) : Word :=
  let a := bits w.toNat 30 16 + 1
  let n := bits w.toNat 15 0
  if n ≤ a then BitVec.ofNat 32 (n + (1 - bits w.toNat 31 31) * 2 ^ 31)
  else if a = 32768 then BitVec.ofNat 32 (n + bits w.toNat 31 31 * 2 ^ 31)
  else BitVec.ofNat 32 (n + a * 2 ^ 16 + bits w.toNat 31 31 * 2 ^ 31)

/-- The phase of a word (R150). -/
def phaseOfWord (w : Word) : Bool := w.getLsbD 31

/-- Address of PHARR and PHWAIT. -/
def phaseAddr (v : View) (a : Src) (imm : Word) : Nat := localAddr (readReg v.k a.reg 0) imm

/-- PHARR (R150, R152). -/
def execPharr (d : RegName) (a : Src) (imm : Word) (s : State) : Host.Outcome State Fault Refusal :=
  runInstr (.pharr d a imm) s (fun v =>
    let addr := phaseAddr v a imm
    if localPoisoned v.b addr 4 then
      casualty (stepPath (flowIssue s v.u (.pharr d a imm)) v.u) v.u.blk v.u.course v.u.slot v.k.live 0 (BitVec.ofNat 64 addr)
    else
      let w := localWord v.b addr
      let s := setBlock s v.u.blk (setLocalWord v.b addr (phaseArrive w))
      let s := writeLong s v.u (destWrite d (v.dest d) (fun _ => BitVec.ofNat 32 (1 - bits w.toNat 31 31)))
      stepPath (flowIssue s v.u (.pharr d a imm)) v.u)

/-- PHWAIT (R151, R152). -/
def execPhwait (d : RegName) (a : Src) (imm : Word) (s : State) : Host.Outcome State Fault Refusal :=
  runInstr (.phwait d a imm) s (fun v =>
    let addr := phaseAddr v a imm
    let s := flowIssue s v.u (.phwait d a imm)
    if localPoisoned v.b addr 4 then
      casualty (stepPath s v.u) v.u.blk v.u.course v.u.slot v.k.live 0 (BitVec.ofNat 64 addr)
    else
      let target := (readReg v.k d 0).getLsbD 0
      if phaseOfWord (localWord v.b addr) == target then stepPath s v.u
      else parkPath s v.u (.phase (BitVec.ofNat 32 addr) target))

/-! ### PROOF and TRAP -/

/-- PROOF (R154): a match sets the signature to 0. -/
def execProof (code : BitVec 21) (s : State) : Host.Outcome State Fault Refusal :=
  runInstr (.proof code) s (fun v =>
    updPath (flowIssue s v.u (.proof code)) v.u.blk v.u.course v.u.slot (fun p => { nextPos p 3 with sig := 0 }))

/-- TRAP with T empty goes on (R155); otherwise its check takes USER. -/
def execTrap (code : BitVec 21) (s : State) : Host.Outcome State Fault Refusal :=
  runInstr (.trap code) s (fun v => stepPath (flowIssue s v.u (.trap code)) v.u)

/-- NOP (R95). -/
def execNop (s : State) : Host.Outcome State Fault Refusal := runInstr .nop s (fun v => retire s v.u .nop 0)

end Sys2Proof.Machine
end

