-- ==== Sys2Proof/Machine/MemInstr.lean ====
section
/-!
DEFINITION. The MEM class (R156 to R181): loads, stores, polls and atomics through records and on local store, fences,
prefetches and record loads.
-/

namespace Sys2Proof.Machine

/-! ### Fences -/

/-- The fence around a STRONG access: FENCE.seq.system, which orders no LOOSE access (R289, R290). -/
def strongFence (s : State) (m : Nat) : State := acquire (drainCore s m) m .system false

/-- The issuing path parks until its loads are complete, and until these acknowledgements have come (R179, R249). -/
def parkAfter (s : State) (u : Issue) (acks : List Nat) : State :=
  match getCourse s u.blk u.course with
  | none => s
  | some k => match getPath k u.slot with
    | none => s
    | some p =>
      if (pendingLoads k p).isEmpty && acks.isEmpty then s else parkPath s u (.longs (pendingLoads k p) acks)

/-- An acquire parks the issuing path until its loads are complete (R179, R249). -/
def parkLoads (s : State) (u : Issue) : State := parkAfter s u []

/-- The fence after a STRONG access waits for its loads and for its remote stores (R179, R290). -/
def parkStrong (s : State) (u : Issue) (m : Nat) : State := parkAfter s u (storeAcks s m)

/-- Scopes in order (R276). -/
def scopeCode : Scope → Nat
  | .course => 0
  | .block => 1
  | .die => 2
  | .device => 3
  | .system => 4

/-- A scope from its code. -/
def scopeOf (n : Nat) : Scope :=
  match n with
  | 0 => .course
  | 1 => .block
  | 2 => .die
  | 3 => .device
  | _ => .system

/-- The kind includes a release, or an acquire (R179). -/
def kindReleases : FenceKind → Bool
  | .acq => false
  | _ => true

def kindAcquires : FenceKind → Bool
  | .rel => false
  | _ => true

/-- The acquire of engine completions: the widest scope among the commands of the streams that `p` selects (R210). It orders
LOOSE accesses to the commands' regions (R289): every LOOSE line that such an acquire reaches is dropped. -/
def engAcquire (s : State) (v : View) (p : Nat → Bool) : State :=
  acquire s v.b.core (scopeOf ((v.k.engScopes.filter (fun e => p e.1)).foldl (fun m e => max m e.2) 0)) true

/-- The fence performs the core's stores: a release at DIE or wider, and SEQ at any scope (R179). -/
def fenceDrains (kind : FenceKind) (scope : Scope) : Bool := kind == .seq || (kindReleases kind && decide (2 ≤ scopeCode scope))

/-- FENCE (R178 to R180). -/
def execFence (kind : FenceKind) (scope : Scope) (eng : Bool) (s : State) : Host.Outcome State Fault Refusal :=
  runInstr (.fence kind scope eng) s (fun v =>
    if v.never then retire s v.u (.fence kind scope eng) 0
    else
      let s := if fenceDrains kind scope then drainCore s v.b.core else s
      let s := if kindAcquires kind then acquire s v.b.core scope (kind == .seq) else s
      let s := if eng then engAcquire s v (fun _ => true) else s
      let s := if kindAcquires kind then parkLoads s v.u else s
      retire s v.u (.fence kind scope eng) 0)

/-- CINV (R181). -/
def execCinv (scope : Scope) (s : State) : Host.Outcome State Fault Refusal :=
  runInstr (.cinv scope) s (fun v =>
    retire (if v.never then s else acquire s v.b.core scope false) v.u (.cinv scope) 0)

/-! ### Loads through records -/

/-- What one lane of a load or an atomic received; nothing where its sector is poisoned. -/
abbrev Got (α : Type) := List (Nat × Nat × Option α)

/-- The lanes that poison kills, and the address of the lowest (R167). -/
def poisoned {α : Type} (g : Got α) : List (Nat × Nat × Option α) := g.filter (fun e => e.2.2.isNone)

/-- A long write of a load or an atomic: the words of each lane that received them, and the deaths of the others. The
registers of D are pending until it arrives, whatever it brings (R84, R167). -/
def loadWrite (id : Nat) (d : RegName) (g : Got (List Word)) (n : Nat) (tag : Half) (outside : Bool) : LongWrite :=
  let ok := g.filterMap (fun e => e.2.2.map (fun w => (e.1, w)))
  let m := ok.foldl (fun (m : Lanes) e => m ||| bitLane e.1) 0
  let bad := poisoned g
  { id := id
    writes := ((List.range n).flatMap (fun i => destWrite (regPlus d i) m (fun l => ((find? ok l).getD []).getD i 0))).filter writesLane
    holds := if bad.isEmpty then [] else regRange d n
    kill := if isVector d then bad.foldl (fun (m : Lanes) e => m ||| bitLane e.1) 0 else 0
    killAll := isScalar d && !bad.isEmpty
    tag := tag
    va := BitVec.ofNat 64 ((bad.head?.map (·.2.1)).getD 0)
    load := true, memory := outside }

/-- What a remote device has brought for a lane; nothing where it came poisoned (R167, R168). -/
def remoteGot (v : View) (size l : Nat) : Option (List Byte) :=
  match (heldFor v).bind (fun h => h.answers.find? (fun a => a.1 == l)) with
  | some (_, a) => if a.poison.any (fun i => decide (i < size)) then none else some (fitBytes size a.data)
  | none => some (List.replicate size 0#8)

/-- One lane of a load (R165, R170, R290). -/
def loadLane (v : View) (x : RecordAccess) (acc : Got (List Byte) × State) (e : Nat × Reach) : Got (List Byte) × State :=
  let (g, s) := acc
  match e.2 with
  | .mem va h f =>
    let (bs, poison, s) := loadMem s v.b.core v.b.asid va h f x.size (!x.viaL1) x.r.cache
    (g ++ [(e.1, va, if poison then none else some bs)], s)
  | .fabric va _ _ _ => (g ++ [(e.1, va, remoteGot v x.size e.1)], s)
  | .clamp => (g ++ [(e.1, 0, some (List.replicate x.size 0#8))], s)
  | .fail .. => (g, s)

/-- Some lane's access is served outside the core (R312). -/
def servedOutside (s : State) (v : View) (x : RecordAccess) (l : List (Nat × Reach)) : Bool :=
  l.any (fun e => match e.2 with
    | .mem va _ _ => !x.viaL1 || (l1Find (getCore s v.b.core) v.b.asid va).isNone
    | .fabric .. => true
    | _ => false)

/-- The loads of an instruction through its record, between the fences of a STRONG access. -/
def loadLanes (s : State) (v : View) (x : RecordAccess) (l : List (Nat × Reach)) : Got (List Byte) × State :=
  let strong := strongReach l
  let (g, s) := l.foldl (loadLane v x) ([], if strong then strongFence s v.b.core else s)
  (g, if strong then strongFence s v.b.core else s)

/-- LDR and LDRP (R165, R170). -/
def loadRecord (i : Instr) (d : RegName) (demotes : Bool) (s : State) (v : View) : State :=
  match recordAccess v i with
  | none => s
  | some x =>
    let l := heldReach s v x
    let outside := servedOutside s v x l
    let (g, s) := loadLanes (touchAccess s v i) v x l
    let conv := g.map (fun e => (e.1, e.2.1, e.2.2.map (fmtLoad x.r.fmt)))
    let qi := conv.any (fun e => match e.2.2 with
      | some r => r.2
      | none => false)
    let (id, s) := newId s
    let s := addLong s v.u (loadWrite id d (conv.map (fun e => (e.1, e.2.1, e.2.2.map (·.1)))) (fmtRegs x.r.fmt) x.r.tag outside)
    let s := if strongReach l then parkStrong s v.u v.b.core else s
    retire s { v.u with demotes := v.u.demotes || demotes } i (flagIf qi flagQI)

/-- LDR (R165). -/
def execLdr (d : RegName) (a : Src) (rs : RecName) (j : RegName) (s : State) : Host.Outcome State Fault Refusal :=
  runInstr (.ldr d a rs j) s (loadRecord (.ldr d a rs j) d false s)

/-- LDRP: LDR, and the path is demoted (R170). -/
def execLdrp (d : RegName) (a : Src) (rs : RecName) (j : RegName) (s : State) : Host.Outcome State Fault Refusal :=
  runInstr (.ldrp d a rs j) s (loadRecord (.ldrp d a rs j) d true s)

/-- RECLD (R172): eight words into a record block. -/
def execRecld (dst : RecName) (a : Src) (rs : RecName) (j : RegName) (s : State) : Host.Outcome State Fault Refusal :=
  runInstr (.recld dst a rs j) s (fun v =>
    match recordAccess v (.recld dst a rs j) with
    | none => s
    | some x =>
      let l := heldReach s v x
      let outside := servedOutside s v x l
      let (g, s) := loadLanes (touchAccess s v (.recld dst a rs j)) v x l
      let (id, s) := newId s
      let s := addLong s v.u (loadWrite id (.s ⟨8 * dst.val, by omega⟩)
        (g.map (fun e => (e.1, e.2.1, e.2.2.map bytesToWords))) 8 x.r.tag outside)
      let s := if strongReach l then parkStrong s v.u v.b.core else s
      retire s v.u (.recld dst a rs j) 0)

/-- PREF changes no state beyond its uniform-operand checks (R171). -/
def execPref (lvl : BitVec 1) (a : Src) (rs : RecName) (j : RegName) (s : State) : Host.Outcome State Fault Refusal :=
  runInstr (.pref lvl a rs j) s (fun v => retire s v.u (.pref lvl a rs j) 0)

/-! ### Stores through records -/

/-- The cells that a store writes, in ascending lane order (R165, R166). -/
def storeCells (v : View) (x : RecordAccess) (d : RegName) (l : List (Nat × Reach)) : List (Home × Byte) :=
  l.flatMap (fun e =>
    let bs := fmtStore x.r.fmt (fun i => readReg v.k (regPlus d i) e.1)
    match e.2 with
    | .mem _ h _ => bs.zipIdx.map (fun b => (homeAdd h b.2, b.1))
    | .fabric _ dev r va => bs.zipIdx.map (fun b => (homeAdd (.fabric dev r va) b.2, b.1))
    | _ => [])

/-- How little the caches are to keep of a stored sector: by the page of a lane that stores to it, and by the record (R161). -/
def storeKeep (x : RecordAccess) (l : List (Nat × Reach)) (h : Home) : Nat :=
  (l.findSome? (fun e => match e.2 with
    | .mem _ g f => if homeSector g == h then some (keepOf f.cache x.r.cache) else none
    | _ => none)).getD (keepOf 0 x.r.cache)

/-- STR (R165, R166). -/
def execStr (d : RegName) (a : Src) (rs : RecName) (j : RegName) (s : State) : Host.Outcome State Fault Refusal :=
  runInstr (.str d a rs j) s (fun v =>
    match recordAccess v (.str d a rs j) with
    | none => s
    | some x =>
      let l := accessReach s v x
      let strong := strongReach l
      let s := touchAccess s v (.str d a rs j)
      let s := if strong then strongFence s v.b.core else s
      let s := storeMem s v.b.core v.u.blk v.u.course (storeKeep x l) (storeCells v x d l)
      let s := if strong then parkStrong (strongFence s v.b.core) v.u v.b.core else s
      retire s v.u (.str d a rs j) 0)

/-! ### Atomics through records -/

/-- x and y of an atomic in a lane (R175). -/
def atomArgs (v : View) (d : RegName) (l : Nat) : Word × Word := (readReg v.k d l, readReg v.k (regPlus d 1) l)

/-- One lane of ATR (R176). -/
def atomLane (v : View) (op : AtomOp) (d : RegName) (acc : Got Word × State) (e : Nat × Reach) :
    Got Word × State :=
  let (g, s) := acc
  let (x, y) := atomArgs v d e.1
  match e.2 with
  | .mem va h _ =>
    let (old, s) := atomicAt s v.b.core v.b.asid h 4 (atomNew op x y)
    (g ++ [(e.1, va, old.map (BitVec.ofNat 32))], s)
  | .fabric va _ _ _ => (g ++ [(e.1, va, (remoteGot v 4 e.1).map (fun bs => BitVec.ofNat 32 (natOfBytes bs)))], s)
  | _ => (g, s)

/-- A CAS failed in a lane that it was performed in (R177). -/
def casFailed (v : View) (op : AtomOp) (d : RegName) (g : Got Word) : Bool :=
  op == .cas && g.any (fun e => match e.2.2 with
    | some old => old != (atomArgs v d e.1).1
    | none => false)

/-- ATR (R175 to R177). -/
def execAtr (op : AtomOp) (d : RegName) (a : Src) (rs : RecName) (s : State) : Host.Outcome State Fault Refusal :=
  runInstr (.atr op d a rs) s (fun v =>
    match recordAccess v (.atr op d a rs) with
    | none => s
    | some x =>
      let l := heldReach s v x
      let strong := strongReach l
      let s := touchAccess s v (.atr op d a rs)
      let (g, s) := l.foldl (atomLane v op d) ([], if strong then strongFence s v.b.core else s)
      let s := if strong then strongFence s v.b.core else s
      let (id, s) := newId s
      let s := addLong s v.u (loadWrite id d (g.map (fun e => (e.1, e.2.1, e.2.2.map (fun w => [w])))) 1 x.r.tag true)
      let s := if strong then parkStrong s v.u v.b.core else s
      retire s { v.u with demotes := v.u.demotes || casFailed v op d g } (.atr op d a rs) 0)

/-! ### Local store -/

/-- Bytes reach the local store; a sector that they cover whole becomes clean, or poisoned where `bad` (R174, R200). -/
def localStore (b : Block) (cells : List (Nat × Byte)) : Block :=
  let sectors := (cells.map (fun c => c.1 / 32)).eraseDups
  let full := sectors.filter (fun k => cget false b.localPoison k &&
    (List.range 32).all (fun i => cells.any (fun c => c.1 = 32 * k + i)))
  { b with localMem := csetAll 0#8 b.localMem cells
           localPoison := csetAll false b.localPoison (full.map (fun k => (k, false))) }

/-- The word of a lane of LDL or LDLP; nothing where its sector is poisoned (R174). -/
def localGot (v : View) (e : Nat × Nat) : Nat × Nat × Option (List Word) :=
  (e.1, e.2, if localPoisoned v.b e.2 4 then none else some [localWord v.b e.2])

/-- LDL and LDLP (R173, R174). -/
def loadLocal (i : Instr) (d : RegName) (demotes : Bool) (s : State) (v : View) : State :=
  match localAccess v i with
  | none => s
  | some (l, _) =>
    let (id, s) := newId s
    let s := addLong s v.u (loadWrite id d (l.map (localGot v)) 1 0 false)
    retire s { v.u with demotes := v.u.demotes || demotes } i 0

/-- LDL (R173). -/
def execLdl (d : RegName) (a : Src) (imm : Word) (s : State) : Host.Outcome State Fault Refusal :=
  runInstr (.ldl d a imm) s (loadLocal (.ldl d a imm) d false s)

/-- LDLP: LDL, and the path is demoted (R174). -/
def execLdlp (d : RegName) (a : Src) (imm : Word) (s : State) : Host.Outcome State Fault Refusal :=
  runInstr (.ldlp d a imm) s (loadLocal (.ldlp d a imm) d true s)

/-- STL (R173). -/
def execStl (d : RegName) (a : Src) (imm : Word) (s : State) : Host.Outcome State Fault Refusal :=
  runInstr (.stl d a imm) s (fun v =>
    match localAccess v (.stl d a imm) with
    | none => s
    | some (l, _) =>
      let cells := l.flatMap (fun e => (bytesOfNat 4 (readReg v.k d e.1).toNat).zipIdx.map (fun b => (e.2 + b.2, b.1)))
      retire (setBlock s v.u.blk (localStore v.b cells)) v.u (.stl d a imm) 0)

/-- One lane of ATL (R175, R176). -/
def atomLocal (v : View) (op : AtomOp) (d : RegName) (acc : Got Word × Block) (e : Nat × Nat) : Got Word × Block :=
  let (g, b) := acc
  if localPoisoned b e.2 4 then (g ++ [(e.1, e.2, none)], b)
  else
    let old := localWord b e.2
    let (x, y) := atomArgs v d e.1
    (g ++ [(e.1, e.2, some old)],
      match atomNew op x y old.toNat with
      | some n => setLocalWord b e.2 (BitVec.ofNat 32 n)
      | none => b)

/-- ATL (R175 to R177). -/
def execAtl (op : AtomOp) (d : RegName) (a : Src) (s : State) : Host.Outcome State Fault Refusal :=
  runInstr (.atl op d a) s (fun v =>
    match localAccess v (.atl op d a) with
    | none => s
    | some (l, _) =>
      let (g, b) := l.foldl (atomLocal v op d) ([], v.b)
      let s := setBlock s v.u.blk b
      let (id, s) := newId s
      let s := addLong s v.u (loadWrite id d (g.map (fun e => (e.1, e.2.1, e.2.2.map (fun w => [w])))) 1 0 false)
      retire s { v.u with demotes := v.u.demotes || casFailed v op d g } (.atl op d a) 0)

end Sys2Proof.Machine
end

