-- ==== Sys2Proof/Machine/Engine.lean ====
section
/-!
DEFINITION. Engine commands (R193 to R209, R264 to R271): issue, collectives, acceptance, start, the work of each kind of
command with its stalls, errors and poison, completion; SWAIT (R210) and the transform pipe (R211, R212).
-/

namespace Sys2Proof.Machine

/-! ### Acceptance -/

/-- Change the paths of a block. -/
def mapPaths (s : State) (blk : Nat) (f : Course → Path → Path) : State :=
  (blockCourses s blk).foldl (fun s c => updCourse s blk c (fun k =>
    { k with path0 := k.path0.map (f k), path1 := k.path1.map (f k) })) s

/-- A collective is formed: its members leave the arrival park (R266). -/
def formCollective (s : State) (blk team index : Nat) : State :=
  match getBlock s blk with
  | none => s
  | some b =>
    let s := setBlock s blk { b with collectives := b.collectives.map (fun x =>
      if x.team = team && x.index = index then { x with formed := true } else x) }
    mapPaths s blk (fun k p => if k.team = some team && p.park = .arrival then { p with park := .rejoin } else p)

/-- The team of a command. -/
def cmdTeam (s : State) (c : Command) : Option Nat := (getCourse s c.blk c.course).bind (·.team)

/-- The engine takes a command (R195). -/
def acceptCmd (s : State) (id : Nat) : State :=
  match getCmd s id with
  | none => s
  | some c =>
    let (n, s) := newId s
    let s := setCmd s id { c with accepted := true, order := n }
    let s := mapPaths s c.blk (fun _ p => match p.park with
      | .acceptance i _ => if i = id then { p with park := .rejoin } else p
      | _ => p)
    if c.members.isEmpty then s
    else match cmdTeam s c with
      | some t => formCollective s c.blk t c.index
      | none => s

/-- Put a new command in the table and accept it, where the engine takes it at once (R195). It answers its id. -/
def addCommand (s : State) (c : Command) : Nat × State :=
  let (id, s) := queueCommand s c
  (id, if acceptable s id c then acceptCmd s id else s)

/-- The continuation park that follows an issue (R195). -/
def afterIssue (s : State) (u : Issue) (id : Nat) (cont : Bool) : State := if cont then parkPath s u (.continuation id) else s

/-! ### Issue -/

/-- The command that this unit has waited for, now that the engine has taken it: the newest of its position (R195). -/
def takenCommand (s : State) (v : View) (op : Nat) : Option Nat :=
  if v.p.waited.contains v.u.pos then
    ((s.commands.filter (fun e => e.2.blk == v.u.blk && e.2.course == v.u.course && e.2.op == op && e.2.accepted
      && e.2.pos == unitPos s v)).getLast?).map (·.1)
  else none

/-- The issue of CPY, GATH or EPI (R194, R195). -/
def issueCommand (i : Instr) (op : Nat) (c : RecName) (strm : BitVec 4) (cont : Bool) (s : State) (v : View) : State :=
  if v.never then retire s v.u i 0
  else
    let r := match takenCommand s v op with
      | some id => (id, s)
      | none => addCommand s (courseCommand s v op c strm cont)
    retire (afterIssue r.2 v.u r.1 cont) v.u i 0

/-- A member counts its collective: its slice registers stand pending until the engine has read them (R205, R265), and
the collective goes when every member has counted it. -/
def countCollective (s : State) (v : View) (cmd : Option (Nat × Command)) : State :=
  let s := match cmd with
    | some (id, c) =>
      if c.begun then s
      else addLong s v.u { id := id, writes := [], holds := sliceRange c.card v.b.team, kill := 0, killAll := false,
                           tag := 0, va := 0, load := false, memory := false }
    | none => s
  let s := updCourse s v.u.blk v.u.course (fun k => { k with collectives := k.collectives + 1 })
  match getBlock s v.u.blk, v.k.team with
  | some b, some t =>
    let counted := (teamCourses s v.u.blk t).all (fun c => match getCourse s v.u.blk c with
      | some k => decide (v.k.collectives < k.collectives)
      | none => true)
    if counted then
      setBlock s v.u.blk { b with collectives := b.collectives.filter (fun x => !(x.team = t && x.index = v.k.collectives)) }
    else s
  | _, _ => s

/-- A member's issue ends: count, own continuation park, next slot (R206, R266). -/
def joinTeam (i : Instr) (cont : Bool) (s : State) (v : View) : State :=
  let cmd := s.commands.find? (fun e => e.2.blk == v.u.blk && e.2.members.contains v.u.course && e.2.index == v.k.collectives)
  let s := countCollective s v cmd
  retire (match cmd with
    | some (id, _) => afterIssue s v.u id cont
    | none => s) v.u i 0

/-- The issue of MMA or MML by a member: the last arrival forms the collective (R266). -/
def issueTeam (i : Instr) (op : Nat) (c : RecName) (strm : BitVec 4) (cont : Bool) (s : State) (v : View) : State :=
  if formedFor v then joinTeam i cont s v
  else
    let s := arrive s v op c strm cont
    match (getBlock s v.u.blk).bind (fun b => openCollective b v.k), v.k.team with
    | some x, some t =>
      let s := if x.created then (addCommand s (teamCommand s v op t x)).2 else formCollective s v.u.blk t x.index
      joinTeam i cont s v
    | _, _ => s

/-- CPY (R202). -/
def execCpy (card : RecName) (strm : BitVec 4) (c : Bool) (s : State) : Host.Outcome State Fault Refusal :=
  runInstr (.cpy card strm c) s (issueCommand (.cpy card strm c) 0x70 card strm c s)

/-- GATH (R203). -/
def execGath (card : RecName) (strm : BitVec 4) (c : Bool) (s : State) : Host.Outcome State Fault Refusal :=
  runInstr (.gath card strm c) s (issueCommand (.gath card strm c) 0x71 card strm c s)

/-- MMA (R206). -/
def execMma (card : RecName) (strm : BitVec 4) (c : Bool) (s : State) : Host.Outcome State Fault Refusal :=
  runInstr (.mma card strm c) s (issueTeam (.mma card strm c) 0x73 card strm c s)

/-- MML (R207). -/
def execMml (card : RecName) (strm : BitVec 4) (c : Bool) (s : State) : Host.Outcome State Fault Refusal :=
  runInstr (.mml card strm c) s (issueTeam (.mml card strm c) 0x74 card strm c s)

/-- EPI (R209). -/
def execEpi (card : RecName) (strm : BitVec 4) (c : Bool) (s : State) : Host.Outcome State Fault Refusal :=
  runInstr (.epi card strm c) s (issueCommand (.epi card strm c) 0x75 card strm c s)

/-- SWAIT (R210). -/
def execSwait (strm : BitVec 4) (s : State) : Host.Outcome State Fault Refusal :=
  runInstr (.swait strm) s (fun v =>
    retire (if v.never then s else engAcquire s v (fun x => x == strm.toNat)) v.u (.swait strm) 0)

/-! ### Bytes with poison -/

/-- Bytes of local store as an engine reads them: poisoned bytes are zero (R200). -/
def localPois (b : Block) (addr n : Nat) : List (Poi Byte) :=
  (crun 0#8 b.localMem addr n).zipIdx.map (fun e =>
    if cget false b.localPoison ((addr + e.2) / 32) then (0, true) else (e.1, false))

/-- Bytes at a home as an engine reads them (R200, R298). -/
def homePois (s : State) (h : Home) (n : Nat) : List (Poi Byte) :=
  (homeBytes s h n).zipIdx.map (fun e => if homePoisoned s (homeAdd h e.2) 1 then (0, true) else (e.1, false))

/-- The writes of one command to local store, in order: a sector that receives poisoned bytes is marked, unless the
command at last wrote it whole from clean sources (R200). -/
def putLocal (b : Block) (cells : List (Nat × Poi Byte)) : Block :=
  let b := localStore b (cells.map (fun c => (c.1, c.2.1)))
  let dirty := ((cells.filter (fun c => c.2.2)).map (fun c => c.1 / 32)).eraseDups
  let late := cells.reverse
  let marks := dirty.filter (fun k => !(List.range 32).all (fun i =>
    match late.find? (fun c => c.1 = 32 * k + i) with
    | some c => !c.2.2
    | none => false))
  { b with localPoison := csetAll false b.localPoison (marks.map (fun k => (k, true))) }

/-- The writes of one command to global memory, in order (R200, R293). -/
def putGlobal (s : State) (asid : BitVec 16) (cells : List (Home × Poi Byte)) : State :=
  let s := performRow s asid (groupCells (cells.map (fun c => (c.1, c.2.1))) [])
  let dirty := ((cells.filter (fun c => c.2.2)).map (fun c => homeSector c.1)).eraseDups
  let late := cells.reverse
  dirty.foldl (fun s h =>
    if (List.range 32).all (fun i => match late.find? (fun c => c.1 == homeAdd h i) with
      | some c => !c.2.2
      | none => false) then s else markPoison s h) s

/-- Bytes from an address on, as cells. -/
def cellsAt (addr : Nat) (bs : List (Poi Byte)) : List (Nat × Poi Byte) := bs.zipIdx.map (fun e => (addr + e.2, e.1))

/-! ### Rows of a command -/

/-- A row or entry that a command moves between global memory and local store: its number, its global offset and its
local address. -/
structure EngRow where
  key : Nat
  off : Nat
  la : Nat
  deriving DecidableEq, Repr

/-- Bytes of a row (R201, R203, R208). -/
def rowBytes (c : Command) (r : Record) : Nat :=
  if c.op = 0x70 then fmtBytes r.fmt (bits (cw c.card 3) 31 16)
  else if c.op = 0x71 then fmtBytes r.fmt (cw c.card 3)
  else 128 * epiSize (bits (cw c.card 0) 13 8)

/-- Every row that goes to or comes from global memory, in order. -/
def allRows (c : Command) (r : Record) : List EngRow :=
  let w := c.card
  if c.op = 0x70 && bits (cw w 0) 1 0 < 2 then
    (List.range (bits (cw w 3) 15 0)).map (fun i =>
      ⟨i, (cw w 1 + i) * r.stride0 + cw w 2 * r.stride1, (cw w 4 + i * bits (cw w 5) 19 0) % 2 ^ 32⟩)
  else if c.op = 0x71 then
    (List.range (cw w 2)).map (fun n => ⟨n, cw c.list n * r.stride0, (cw w 4 + n * bits (cw w 5) 19 0) % 2 ^ 32⟩)
  else if c.op = 0x75 && bits (cw w 0) 3 1 = 1 then
    (List.range 128).map (fun m => ⟨m, (cw w 1 + m) * r.stride0 + cw w 2 * r.stride1, 0⟩)
  else []

/-- An entry of GATH that does not fit the extent under BMODE trap (R203). -/
def rowOut (r : Record) (rb : Nat) (o : EngRow) : Bool := r.bmode = 0 && decide (r.extent < o.off + rb)

/-- The 64 KiB pieces of `n` bytes from `va`, by fuel. -/
def pagePieces : Nat → Nat → Nat → List (Nat × Nat)
  | 0, _, _ => []
  | f + 1, va, n => if n = 0 then [] else
    let m := min n (65536 - va % 65536)
    (va, m) :: pagePieces f (va + m) (n - m)

/-- What a remote device has answered for a piece of a row. -/
def pieceAnswer (c : Command) (key piece : Nat) : Option RemoteAnswer :=
  (c.answers.find? (fun a => a.1 = key && a.2.1 = piece)).map (·.2.2)

/-- The pieces of a row's bytes within the extent, with where each leads (R202). A piece that its remote device has answered
is not translated again (R400). -/
def rowReach (s : State) (asid : BitVec 16) (c : Command) (r : Record) (rb : Nat) (o : EngRow) : List (Nat × Nat × Xlate) :=
  let n := min rb (r.extent - o.off)
  (pagePieces (n / 65536 + 2) (recordVa r o.off) n).zipIdx.map (fun p =>
    (p.1.1, p.1.2, if (pieceAnswer c o.key p.2).isSome then .fabric 0 0 0 else translate s asid p.1.1))

/-- Some piece forbids the write (R199). -/
def rowForbidden (l : List (Nat × Nat × Xlate)) : Bool := l.any (fun p => match p.2.2 with
  | .mem _ f => !f.write
  | _ => false)

/-- Remote devices have answered for the row, and one has failed. -/
def rowAnswered (c : Command) (o : EngRow) : Bool := c.answers.any (fun a => a.1 = o.key)
def rowFailed (c : Command) (o : EngRow) : Bool := c.answers.any (fun a => a.1 = o.key && !a.2.2.ok)

/-- The bytes of an answer; those that came poisoned are zero (R200). -/
def answerPois (n : Nat) (a : RemoteAnswer) : List (Poi Byte) :=
  (fitBytes n a.data).zipIdx.map (fun e => if a.poison.contains e.2 then (0, true) else (e.1, false))

/-- The command has an error to report already; the first one stays. -/
def addError (c : Command) (r : Record) (cause off : Nat) : Command :=
  if c.errs.isEmpty then
    { c with errs := [⟨cause, c.strm, r.tag, BitVec.ofNat 64 off, c.pos, 0⟩] }
  else c

/-- The number that an error reports for a row: an entry's number, or a row's byte offset (R199, R370). -/
def rowMark (c : Command) (o : EngRow) : Nat := if c.op = 0x71 then o.key else min o.off (2 ^ 48 - 1)

/-- The bytes of a row read from global memory; bytes beyond the extent are zero (R202). -/
def readRow (s : State) (c : Command) (rb : Nat) (o : EngRow) (l : List (Nat × Nat × Xlate)) : List (Poi Byte) :=
  let bs := l.zipIdx.flatMap (fun p => match p.1.2.2 with
    | .mem h _ => homePois s h p.1.2.1
    | _ => answerPois p.1.2.1 ((pieceAnswer c o.key p.2).getD ⟨true, [], []⟩))
  bs ++ (List.replicate (rb - bs.length) 0#8).map (fun b => (b, false))

/-- The cells of a row written to global memory; bytes beyond the extent, and those of remote devices, which have gone
already, are dropped. -/
def writeRow (bs : List (Poi Byte)) (l : List (Nat × Nat × Xlate)) : List (Home × Poi Byte) :=
  (l.foldl (fun (acc : List (Home × Poi Byte) × List (Poi Byte)) p => match p.2.2 with
    | .mem h _ => (acc.1 ++ (acc.2.take p.2.1).zipIdx.map (fun e => (homeAdd h e.2, e.1)), acc.2.drop p.2.1)
    | _ => (acc.1, acc.2.drop p.2.1)) ([], bs)).1

/-! ### Matrix commands -/

/-- The element `e` of a register of a slice (R205). -/
def sliceElem (f : Nat) (w : Word) (e : Nat) : Nat :=
  if f = 0x20 then bits w.toNat (4 * e + 3) (4 * e)
  else if f = 0x21 then bits w.toNat (8 * e + 7) (8 * e)
  else if f = 0x22 then bits w.toNat (16 * e + 11) (16 * e)
  else bits w.toNat (16 * e + 15) (16 * e)

/-- Elements per register (R205). -/
def slicePer (f : Nat) : Nat := if f = 0x20 then 8 else if f = 0x21 then 4 else 2

/-- B of a team's registers, in rows of K (R205). `slices` holds for each rank its registers, 32 words each. -/
def sliceRows (f : Nat) (slices : List (List Word)) : List (List (Poi Nat)) :=
  let per := slicePer f
  (List.range 128).map (fun k => (List.range 128).map (fun n =>
    let (rank, k) := if slices.length = 8 && 64 ≤ k then (n / 32 + 4, k - 64) else (n / 32, k)
    (sliceElem f ((slices.getD rank []).getD (k / per * 32 + n % 32) 0#32) (k % per), false)))

/-- A member's slice as the engine reads it: lanes that are not live supply zeros (R205). -/
def readSlice (k : Course) (regs : List Nat) : List Word :=
  regs.flatMap (fun r => (List.range 32).map (fun l => if hasLane k.live l then readV k r l else 0))

/-- Rows of a tile in local store (R254). -/
def tileRows (b : Block) (f addr pitch : Nat) : List (List (Poi Nat)) :=
  (List.range 128).map (fun i => rowElems f (localPois b ((addr + i * pitch) % 2 ^ 32) (tileRow f)))

/-- Marks as a mask of 128 bits. -/
def mark128 (f : Nat → Bool) : BitVec 128 :=
  (List.range 128).foldl (fun (m : BitVec 128) i => if f i then m ||| (1#128 <<< i) else m) 0

/-- A row of elements holds poison. -/
def rowPoisoned (r : List (Poi Nat)) : Bool := r.any (·.2)

/-- The operand rows as numbers. -/
def rawRows (l : List (List (Poi Nat))) : List (List Nat) := l.map (fun r => r.map (·.1))

/-- One K-step of a command on a bank: the marks, then the update (R206, R258, R269). It answers QI too. -/
def kStep (b : Block) (c : Command) (bank : Bank) (t : Nat) : Bank × Bool :=
  let w := c.card
  let fa := bits (cw w 0) 7 0
  let fb := bits (cw w 0) 15 8
  let (aa, asc, ba, bsc) := stepAddrs c.op w t
  let rowsA := tileRows b fa aa (bits (cw w 2) 19 0)
  let word (addr : Nat) : Nat := natOfBytes (cgetRun 0#8 b.localMem addr 4)
  let poison (addr : Nat) : Bool := localPoisoned b addr 4
  let scaleAt (m : Nat) : Nat := (asc + 4 * m) % 2 ^ 32
  let rowsB := if bitAt (cw w 0) 16 then tileRows b fb ba (bits (cw w 5) 19 0) else sliceRows fb c.slices
  let mml := c.op = 0x74
  let a := tileA fa rowsA (fun m => word (scaleAt m))
  let bt := tileB fb rowsB (if mml then word bsc else cw w 6)
  let rowMarks := mark128 (fun m => rowPoisoned (rowsA.getD m []) || (!floatFmt fa && poison (scaleAt m)))
  let colMarks := mark128 (fun n => rowsB.any (fun r => (r.getD n (0, false)).2))
    ||| (if mml && !floatFmt fb && poison bsc then BitVec.allOnes 128 else 0)
  (kBlock { bank with rows := bank.rows ||| rowMarks, cols := bank.cols ||| colMarks } a bt
      (Config.irrelevantSum fa fb (rawRows rowsA) (rawRows rowsB)),
    a.qi || bt.qi)

/-- The K-blocks of a command in ascending step order (R206, R207, R259). -/
def kSteps (b : Block) (c : Command) : Bank × Bool :=
  let bank := if bitAt (cw c.card 0) 17 then b.bank1 else b.bank0
  let start := if bitAt (cw c.card 0) 18 then Bank.zero else bank
  (List.range (kCount c.op c.card)).foldl (fun (acc : Bank × Bool) t =>
    let r := kStep b c acc.1 t
    (r.1, acc.2 || r.2)) (start, false)

/-- The work of MMA and MML. -/
def workMatrix (s : State) (id : Nat) (c : Command) (b : Block) : State :=
  let (bank, qi) := kSteps b c
  let b := if bitAt (cw c.card 0) 17 then { b with bank1 := bank } else { b with bank0 := bank }
  setCmd (setBlock s c.blk b) id { c with qi := qi, done := true }

/-! ### The work of the other commands -/

/-- Whether a command reads its global rows. -/
def readsGlobal (c : Command) : Bool :=
  (c.op = 0x70 && bits (cw c.card 0) 1 0 = 0) || (c.op = 0x71 && bits (cw c.card 0) 1 0 = 0)

/-- The outputs of EPI by row: bytes, and the container of DERIVE with its poison (R209, R271). -/
def epiOut (b : Block) (c : Command) : List (List (Poi Byte) × Word × Bool) :=
  let w := c.card
  let bank := if bitAt (cw w 0) 0 then b.bank1 else b.bank0
  let biasBytes := if bitAt (cw w 0) 14 then some (localPois b (cw w 3) 512) else none
  let bias := biasBytes.map (fun l => bytesToWords (l.map (·.1)))
  let badBias (n : Nat) : Bool := match biasBytes with
    | some l => (List.range 4).any (fun i => (l.getD (4 * n + i) (0, false)).2)
    | none => false
  let cols := (List.range 128).map (fun n => bank.cols.getLsbD n || badBias n)
  let elems := chunksOf 128 129 (crun 0#32 bank.elems 0 16384)
  let sums := chunksOf 128 129 (crun 0#32 bank.sums 0 16384)
  (elems.zip sums).zipIdx.map (fun e =>
    let cs := (e.1.1.zip cols).map (fun x => (x.1, x.2 || bank.rows.getLsbD e.2))
    let (bs, box) := epiRow w cs e.1.2 bias
    (bs, box, cs.any (·.2)))

/-- The rows a command moves, each with its pieces; entries that do not fit are left out (R203). -/
def liveRows (s : State) (b : Block) (c : Command) : List (EngRow × List (Nat × Nat × Xlate)) :=
  let r := recordOfWords c.record
  let rb := rowBytes c r
  ((allRows c r).filter (fun o => !(c.op = 0x71 && rowOut r rb o))).map (fun o => (o, rowReach s b.asid c r rb o))

/-- The errors of a command's rows, first one kept: entries out of bounds, pages without permission, remote failures
(R199). -/
def rowErrors (c : Command) (rows : List (EngRow × List (Nat × Nat × Xlate))) : Command :=
  let r := recordOfWords c.record
  let rb := rowBytes c r
  (allRows c r).foldl (fun c o =>
    if c.op = 0x71 && rowOut r rb o then addError c r 0x06 o.key
    else match rows.find? (fun e => e.1 == o) with
      | some (_, l) =>
        if !readsGlobal c && rowForbidden l then addError c r 0x09 (rowMark c o)
        else if rowFailed c o then addError c r 0x14 (rowMark c o)
        else c
      | none => c) c

/-- The rows whose transfer is made: neither forbidden nor failed. -/
def goodRows (c : Command) (rows : List (EngRow × List (Nat × Nat × Xlate))) : List (EngRow × List (Nat × Nat × Xlate)) :=
  rows.filter (fun e => !(!readsGlobal c && rowForbidden e.2) && !rowFailed c e.1)

/-- The work of CPY, GATH and EPI, every page of theirs being mapped. -/
def workRows (s : State) (id : Nat) (c : Command) (b : Block) : State :=
  let w := c.card
  let r := recordOfWords c.record
  let rb := rowBytes c r
  let rows := liveRows s b c
  let good := goodRows c rows
  let finish (s : State) : State := setCmd s id { rowErrors c rows with done := true }
  if c.op = 0x70 && 2 ≤ bits (cw w 0) 1 0 then
    let n := 4 * bits (cw w 3) 31 16
    let dst (i : Nat) : Nat := (cw w 4 + i * bits (cw w 5) 19 0) % 2 ^ 32
    let src (i : Nat) : List (Poi Byte) :=
      if bits (cw w 0) 1 0 = 2 then localPois b ((cw w 1 + i * cw w 2) % 2 ^ 32) n
      else (List.range n).map (fun j => (BitVec.ofNat 8 (cw w 1 / 2 ^ (8 * (j % 4))), false))
    finish (setBlock s c.blk (putLocal b ((List.range (bits (cw w 3) 15 0)).flatMap (fun i => cellsAt (dst i) (src i)))))
  else if c.op = 0x75 then
    let out := epiOut b c
    let boxes := if bitAt (cw w 0) 17 then
        out.zipIdx.flatMap (fun e => cellsAt ((cw w 5 + 4 * e.2) % 2 ^ 32) ((bytesOfNat 4 e.1.2.1.toNat).map (fun x => (x, e.1.2.2))))
      else []
    let local_ := if bits (cw w 0) 3 1 = 0 then
        out.zipIdx.flatMap (fun e => cellsAt ((cw w 1 + e.2 * bits (cw w 2) 19 0) % 2 ^ 32) e.1.1) else []
    let s := putGlobal s b.asid (good.flatMap (fun e => writeRow (out.getD e.1.key ([], 0, false)).1 e.2))
    finish (setBlock s c.blk (putLocal b (local_ ++ boxes)))
  else if readsGlobal c then
    finish (setBlock s c.blk (putLocal b (good.flatMap (fun e => cellsAt e.1.la (readRow s c rb e.1 e.2)))))
  else finish (putGlobal s b.asid (good.flatMap (fun e => writeRow (localPois b e.1.la rb) e.2)))

/-- The bytes that a row sends, as they stand in the block. -/
def rowData (b : Block) (c : Command) (o : EngRow) : List (Poi Byte) :=
  if c.op = 0x75 then ((epiOut b c).getD o.key ([], 0, false)).1 else localPois b o.la (rowBytes c (recordOfWords c.record))

/-- The requests that a row sends to remote devices; a row that is written carries its poison (R199, R200, R400). -/
def askRow (s : State) (b : Block) (id : Nat) (c : Command) (o : EngRow) (l : List (Nat × Nat × Xlate)) : State :=
  (l.zipIdx.foldl (fun (acc : State × List (Poi Byte)) p => match p.1.2.2 with
    | .fabric d a va =>
      let bs := acc.2.take p.1.2.1
      (if readsGlobal c then askRemote acc.1 (.row id o.key p.2) d a va (.load p.1.2.1) []
       else askRemote acc.1 (.row id o.key p.2) d a va
         (.store (bs.zipIdx.filterMap (fun e => if e.1.2 then some e.2 else none))) (bs.map (·.1)),
        acc.2.drop p.1.2.1)
    | _ => (acc.1, acc.2.drop p.1.2.1)) (s, if readsGlobal c then [] else rowData b c o)).1

/-- What the walks and the reads of a command's rows do to the spans (R331). -/
def touchRows (s : State) (asid : BitVec 16) (c : Command) (rows : List (EngRow × List (Nat × Nat × Xlate))) : State :=
  if allGood s then s
  else (rows.flatMap (·.2)).foldl (fun t p =>
    let t := touchWalk t asid p.1
    match p.2.2 with
    | .mem h _ => if readsGlobal c then touchRange t h p.2.1 else t
    | _ => t) s

/-- The reads of a command's rows at the slices (R318). -/
def chargeRows (s : State) (asid : BitVec 16) (c : Command) (rows : List (EngRow × List (Nat × Nat × Xlate))) : State :=
  if !readsGlobal c then s
  else (rows.flatMap (·.2)).foldl (fun t p => match p.2.2 with
    | .mem h _ => l2Range t asid h p.2.1 false
    | _ => t) s

/-! ### Running a command -/

/-- The first page of a command that cannot be translated (R199). -/
def cmdPage (rows : List (EngRow × List (Nat × Nat × Xlate))) : Option (Nat × Bool) :=
  (rows.flatMap (·.2)).findSome? (fun p => match p.2.2 with
    | .page poison => some (p.1, poison)
    | _ => none)

/-- The first row that must still ask a remote device. -/
def cmdRemote (c : Command) (rows : List (EngRow × List (Nat × Nat × Xlate))) : Option (EngRow × List (Nat × Nat × Xlate)) :=
  rows.find? (fun e => !rowAnswered c e.1 && !(!readsGlobal c && rowForbidden e.2) && e.2.any (fun p => match p.2.2 with
    | .fabric .. => true
    | _ => false))

/-- A begun command goes on: it stalls at a page, asks a remote device, or does its work (R199). -/
def runCmd (s : State) (id : Nat) : State :=
  match getCmd s id with
  | none => s
  | some c =>
    match getBlock s c.blk with
    | none => s
    | some b =>
      if c.op = 0x73 || c.op = 0x74 then workMatrix s id c b
      else
        let s := touchRows s b.asid c (liveRows s b c)
        let rows := liveRows s b c
        match cmdPage rows with
        | some (va, poison) =>
          let f : FaultInfo := ⟨0x08, b2n poison, c.pos, (recordOfWords c.record).tag, va % 2 ^ 48, true⟩
          let (fid, s) := openFault s c.blk c.course 0 f c.pos (.command id) none
          match getCmd s id with
          | some c => setCmd s id { c with stall := some fid }
          | none => s
        | none =>
          match cmdRemote c rows with
          | some (o, l) => askRow (setCmd s id { c with remote := some o.key }) b id c o l
          | none => workRows (chargeRows s b.asid c rows) id c b

/-- The context of a block lets its commands start (R272); a block whose courses have all exited is not saved (R377). -/
def commandsRun (s : State) (blk : Nat) : Bool :=
  match blockCtx s blk with
  | some x => x.state == .running || x.state == .halting || x.state == .halted ||
      (blockCourses s blk).all (fun c => match getCourse s blk c with
        | some k => k.live = 0
        | none => true)
  | none => false

/-- The commands share the epilogue pipe, or the arrays (R264, R270). -/
def samePipe (a b : Command) : Bool :=
  (a.op == 0x75 && b.op == 0x75) || ((a.op == 0x73 || a.op == 0x74) && (b.op == 0x73 || b.op == 0x74))

/-- The bank that a matrix command or EPI uses, or none (R204, R208). -/
def cmdBank (c : Command) : Option Bool :=
  if c.op = 0x75 then some (bitAt (cw c.card 0) 0)
  else if c.op = 0x73 || c.op = 0x74 then some (bitAt (cw c.card 0) 17) else none

/-- A command that has begun and has not done its work holds the engine, or the bank (R264, R270). -/
def engineBusy (s : State) (c : Command) : Bool :=
  s.commands.any (fun e => e.2.begun && !e.2.done && cmdCore s e.2 == cmdCore s c &&
    (samePipe e.2 c || ((cmdBank c).isSome && cmdBank e.2 == cmdBank c)))

/-- Some store of a course on the command's core waits for a remote acknowledgement, and the command accesses global memory:
it begins only afterwards (R198). -/
def awaitsStores (s : State) (c : Command) : Bool := (cmdPlan c).uses && !(storeAcks s (cmdCore s c)).isEmpty

/-- R196: stream order, footprints, the engine free, and every member of a team has ended its issue. -/
def readyCmd (s : State) (c : Command) : Bool :=
  c.accepted && !c.begun && commandsRun s c.blk && !engineBusy s c && !awaitsStores s c
    && s.commands.all (fun e => !(e.2.blk == c.blk && e.2.accepted && decide (e.2.order < c.order))
      || (e.2.strm != c.strm && !footConflict (footprint (cmdPlan e.2)) (footprint (cmdPlan c))))
    && c.members.all (fun k => match getCourse s c.blk k with
      | some k => decide (c.index < k.collectives) || k.live = 0
      | none => true)

/-- A command starts: of those that wait for the arrays or for the epilogue pipe, the one accepted earliest (R264, R270). -/
def startable (s : State) (c : Command) : Bool :=
  readyCmd s c && !s.commands.any (fun e => samePipe e.2 c && cmdCore s e.2 == cmdCore s c && decide (e.2.order < c.order)
    && readyCmd s e.2)

/-- A command whose stores are performed begins: the index list and the slices are read (R203, R265). -/
def beginCmd (s : State) (id : Nat) (c : Command) : State :=
  let s := progress s c.blk
  let regs := match getBlock s c.blk with
    | some b => if c.op = 0x73 || c.op = 0x74 then sliceRange c.card b.team else []
    | none => []
  let slices := if regs.isEmpty then [] else c.members.map (fun k => match getCourse s c.blk k with
    | some k => readSlice k regs
    | none => [])
  let list := match c.op == 0x71, getBlock s c.blk with
    | true, some b => bytesToWords (crun 0#8 b.localMem (cw c.card 1) (4 * cw c.card 2))
    | _, _ => []
  let s := setCmd s id { c with begun := true, slices := slices, list := list }
  runCmd (c.members.foldl (fun s k => completeLongs s c.blk k [id]) s) id

/-- A command starts: the core's stores are performed first, those to remote devices acknowledged too (R198). -/
def startCmd (s : State) (id : Nat) (c : Command) : State :=
  let s := drainCore s (cmdCore s c)
  if awaitsStores s c then s else beginCmd s id c

/-- ENGINE_ACCEPT (R195). -/
def execEngineAccept (cmd : Nat) (s : State) : Host.Outcome State Fault Refusal :=
  match getCmd s cmd with
  | some c => .next (if acceptable s cmd c then acceptCmd s cmd else s)
  | none => .next s

/-- ENGINE_START (R196). -/
def execEngineStart (cmd : Nat) (s : State) : Host.Outcome State Fault Refusal :=
  match getCmd s cmd with
  | some c => .next (if startable s c then startCmd s cmd c else s)
  | none => .next s

/-! ### Completion -/

/-- The scope of a command's completion release (R198). -/
def releaseScope (c : Command) : Nat := if (cmdPlan c).writesGlobal then (recordOfWords c.record).scope else 1

/-- A phase arrival of an engine (R150, R198). -/
def enginePhase (s : State) (c : Command) : State :=
  match (cmdPlan c).phase, getBlock s c.blk with
  | some a, some b => setBlock s c.blk (setLocalWord b a (phaseArrive (localWord b a)))
  | _, _ => s

/-- The courses that took part in a command. -/
def cmdCourses (c : Command) : List Nat := if c.members.isEmpty then [c.course] else c.members

/-- What a course keeps of a completed command: the scope of its release, QI and errors for the issuer (R199, R252). -/
def completeCourse (c : Command) (id n : Nat) (k : Course) : Course :=
  let k := { k with engScopes := cset 0 k.engScopes c.strm (max (cget 0 k.engScopes c.strm) (releaseScope c)) }
  if n = c.course && k.live ≠ 0 then
    { k with fpflags := k.fpflags ||| flagIf c.qi flagQI, engErrs := k.engErrs ++ c.errs.map (fun e => { e with cmd := id }) }
  else k

/-- A path of a course in the continuation park of a command. -/
def contSlots (k : Course) (id : Nat) : List Nat := [0, 1].filter (fun i => match getPath k i with
  | some p => p.park == .continuation id
  | none => false)

/-- A continuation park ends: an acquire, which orders LOOSE accesses too (R289), and the command's error at the issue unit
after it (R195, R199). -/
def endContinuation (s : State) (blk n slot id : Nat) (scope : Scope) : State :=
  let s := acquire (updPath s blk n slot (fun p => { p with park := .running })) (blockCore s blk) scope true
  match (getCourse s blk n).bind (fun k => k.engErrs.find? (fun e => e.cmd = id)) with
  | none => s
  | some e => takeFault (updCourse s blk n (fun k => consumeError k (engFault e))) blk n slot (engFault e) false false 3

/-- A path that a halt or a save has stopped (R368). -/
def pathStopped (k : Course) (slot : Nat) : Bool := k.stopped || ((getPath k slot).map (·.held)).getD false

/-- The continuation parks on a command end, those of stopped paths when they go on. -/
def endContinuations (s : State) (c : Command) (id n : Nat) : State :=
  match getCourse s c.blk n with
  | none => s
  | some k => (contSlots k id).foldl (fun s slot =>
      if pathStopped k slot then s else endContinuation s c.blk n slot id (scopeOf (releaseScope c))) s

/-- The commands that a park names are all gone, and the acknowledgements in (R179, R180, R210, R225). -/
def wakeCommands (s : State) (p : Path) : Path :=
  match p.park with
  | .commands ids acks => if ids.all (fun i => (getCmd s i).isNone) && acksIn s acks then { p with park := .running } else p
  | _ => p

/-- A command completes (R198). -/
def completeCmd (s : State) (id : Nat) (c : Command) : State :=
  let s := progress { s with commands := del s.commands id } c.blk
  let s := (cmdCourses c).foldl (fun s n => updCourse s c.blk n (completeCourse c id n)) s
  let s := enginePhase s c
  let s := mapPaths s c.blk (fun _ p => wakeCommands s p)
  (cmdCourses c).foldl (fun s n => endContinuations s c id n) s

/-- ENGINE_COMPLETE (R198). -/
def execEngineComplete (cmd : Nat) (s : State) : Host.Outcome State Fault Refusal :=
  match getCmd s cmd with
  | some c => .next (if c.done then completeCmd s cmd c else s)
  | none => .next s

/-! ### The transform pipe (R211, R212) -/

/-- The registers of XFM's source range in a lane. -/
def xfmWords (v : View) (a : Src) (cnt : BitVec 3) (l : Nat) : List Word :=
  (List.range (cnt.toNat + 1)).map (fun i => readReg v.k (regPlus a.reg i) l)

/-- The finish of HASH (R212). -/
def hashMix (h : Word) : Word :=
  let h := (h ^^^ (h >>> 16)) * 0x85EBCA6B#32
  let h := (h ^^^ (h >>> 13)) * 0xC2B2AE35#32
  h ^^^ (h >>> 16)

/-- Insert into ascending uint32 order. -/
def insertWord (w : Word) : List Word → List Word
  | [] => [w]
  | a :: t => if w.toNat ≤ a.toNat then w :: a :: t else a :: insertWord w t

/-- Ascending uint32 order (R212). -/
def sortWords (l : List Word) : List Word := l.foldr insertWord []

/-- XFM.crc32c (R212). -/
def execXfmCrc32c (d : RegName) (a : Src) (cnt : BitVec 3) (s : State) : Host.Outcome State Fault Refusal :=
  runLong (.xfmCrc32c d a cnt) s (fun v =>
    (perLane v d (fun l => crcStep (readReg v.k d l) (wordsToBytes (xfmWords v a cnt l))), 0))

/-- XFM.hash (R212). -/
def execXfmHash (d : RegName) (a : Src) (cnt : BitVec 3) (s : State) : Host.Outcome State Fault Refusal :=
  runLong (.xfmHash d a cnt) s (fun v => (perLane v d (fun l => hashMix (crcStep 0 (wordsToBytes (xfmWords v a cnt l)))), 0))

/-- XFM.sort (R212). -/
def execXfmSort (d : RegName) (a : Src) (cnt : BitVec 3) (s : State) : Host.Outcome State Fault Refusal :=
  runLong (.xfmSort d a cnt) s (fun v =>
    ((List.range (cnt.toNat + 1)).flatMap (fun i =>
      perLane v (regPlus d i) (fun l => (sortWords (xfmWords v a cnt l)).getD i 0#32)), 0))

end Sys2Proof.Machine
end

