-- ==== Sys2Proof/Machine/Park.lean ====
section
/-!
DEFINITION. What ends a course's waits: LONG_WRITE_COMPLETE (R84, R85), BARRIER_COMPLETE (R148, R149), PHASE_WAKE (R151);
and STORE_PERFORMED (R293).
-/

namespace Sys2Proof.Machine

/-! ### Long writes -/

/-- A wait of the course, or of a path of it, covers the long write (R85, R179, R224). -/
def awaited (k : Course) (id : Nat) : Bool :=
  k.waitLongs.contains id || [k.path0, k.path1].any (fun p => match p with
    | some p => match p.park with
      | .longs ids _ => ids.contains id
      | _ => false
    | none => false)

/-- A long write may complete: one that kills lanes takes its casualty at the wait that covers it (R167, R321). -/
def mayLand (k : Course) (id : Nat) : Bool :=
  landable k id && (awaited k id || k.longs.all (fun w => w.id ≠ id || longKills k w = 0))

/-- LONG_WRITE_COMPLETE (R84). -/
def execLongWriteComplete (blk c id : Nat) (s : State) : Host.Outcome State Fault Refusal :=
  match getCourse s blk c with
  | some k => .next (if mayLand k id then completeLongs s blk c [id] else s)
  | none => .next s

/-! ### Barriers and phase words -/

/-- Every course of the block has arrived at the barrier or has exited, and one has arrived (R148). -/
def barrierFull (s : State) (blk : Nat) (b : Block) (id : Nat) : Bool :=
  let m := cget 0#32 b.barriers id
  m ≠ 0 && (List.range b.courses).all (fun c => hasLane m c || match getCourse s blk c with
    | some k => k.live = 0
    | none => true)

/-- The paths of a course that are parked at a barrier resume. -/
def barrierResume (id : Nat) (p : Path) : Path := if p.park = .barrier id then { p with park := .running } else p

/-- The last quarter of the device: after it a new round of cycles begins. -/
def lastQuarter : Nat := 4 * Config.cores - 1

/-- BARRIER_COMPLETE (R148): the parked courses are eligible in the next cycle (R246), which begins a new round. -/
def execBarrierComplete (blk : Nat) (id : BitVec 4) (s : State) : Host.Outcome State Fault Refusal :=
  match getBlock s blk with
  | none => .next s
  | some b =>
    .next (if barrierFull s blk b id.toNat then
      { mapPaths (setBlock s blk { b with barriers := cset 0#32 b.barriers id.toNat 0 }) blk (fun _ => barrierResume id.toNat) with
        turn := lastQuarter }
    else s)

/-- A parked path's phase word matches (R151). -/
def phaseMatches (b : Block) (p : Path) : Bool :=
  match p.park with
  | .phase addr target => phaseOfWord (localWord b addr.toNat) == target
  | _ => false

/-- PHASE_WAKE (R151). -/
def execPhaseWake (blk c : Nat) (slot : BitVec 1) (s : State) : Host.Outcome State Fault Refusal :=
  match getBlock s blk with
  | none => .next s
  | some b =>
    match (getCourse s blk c).bind (fun k => getPath k slot.toNat) with
    | some p =>
      .next (if phaseMatches b p then progress (updPath s blk c slot.toNat (fun p => { nextPos p 3 with park := .running })) blk
        else s)
    | none => .next s

/-! ### Stores -/

/-- A pending store may be performed: no earlier one of the core is to the same sector (R166). -/
def storeReady (c : Core) (idx : Nat) : Bool :=
  match c.stores[idx]? with
  | some x => (c.stores.take idx).all (fun y => y.home != x.home)
  | none => false

/-- STORE_PERFORMED (R293): the store at this place among the core's pending ones. -/
def execStorePerformed (core idx : Nat) (s : State) : Host.Outcome State Fault Refusal :=
  match (getCore s core).stores[idx]? with
  | some x => .next (if storeReady (getCore s core) idx then drainStores s core (fun y => y.id = x.id) else s)
  | none => .next s

end Sys2Proof.Machine
end

