-- ==== Sys2Proof/Machine/Sys.lean ====
section
/-!
DEFINITION. The SYS class (R222 to R234): special registers, TASK and STEP.
-/

namespace Sys2Proof.Machine

/-! ### Special registers (R64 to R69) -/

/-- An int32 clamped to the largest magnitude that leaves 0x8000_0000 free (R64, R232). -/
def clampSlack (x : Int) : Word :=
  BitVec.ofInt 32 (if x < -2147483647 then -2147483647 else if 2147483647 < x then 2147483647 else x)

/-- The slack of a context's open step (R233). -/
def ctxSlack (s : State) (asid : BitVec 16) : Word :=
  match (getCtx s asid).bind (·.step) with
  | none => 0
  | some st => clampSlack (match st.slack with
    | some x => x
    | none => st.deadline - (s.now : Int))

/-- Team or rank of a course; 0xFFFF_FFFF in no team. -/
def teamWord : Option Nat → Word
  | some n => BitVec.ofNat 32 n
  | none => 0xFFFFFFFF#32

/-- ARGS of the block's launch (R34). -/
def blockArgs (s : State) (blk : Nat) : Nat := ((blockJob s blk).map (fun j => word64 j.words 4)).getD 0

/-- The sample of a special register in lane `l` (R64, R223). -/
def srValue (s : State) (v : View) (n l : Nat) : Word :=
  let nat (x : Nat) : Word := BitVec.ofNat 32 x
  match n with
  | 0x00 => nat l
  | 0x01 => nat (l % 4)
  | 0x02 => nat v.u.course
  | 0x03 => v.b.bx
  | 0x04 => v.b.byy
  | 0x05 => v.b.bz
  | 0x06 => nat (((blockJob s v.u.blk).map (fun j => pw j.words 9 % 2 ^ 16)).getD 0)
  | 0x07 => teamWord v.k.team
  | 0x08 => teamWord v.k.rank
  | 0x09 => v.act
  | 0x0A => v.k.live
  | 0x0B => v.k.dead
  | 0x0C => v.k.helper
  | 0x0D => nat v.k.tilep
  | 0x0E => nat v.b.core
  | 0x0F => nat (coreDie v.b.core)
  | 0x10 => nat (getCluster s (coreCluster v.b.core)).cycles
  | 0x11 => nat s.now
  | 0x12 => v.k.latch
  | 0x13 => v.k.fpflags.zeroExtend 32
  | 0x14 => v.p.sig
  | 0x15 => tapeStat v.k.tape
  | 0x16 => v.k.casualty
  | 0x17 => v.k.cashdl
  | 0x18 => nat (b2n v.k.contain)
  | 0x19 => v.k.traphdl
  | 0x1A => ctxSlack s v.b.asid
  | 0x1B => nat (blockArgs s v.u.blk)
  | 0x1C => nat (blockArgs s v.u.blk / 2 ^ 32)
  | _ => 0

/-- SRD (R65, R67, R223). -/
def execSrd (d : RegName) (sr : BitVec 9) (s : State) : Host.Outcome State Fault Refusal :=
  runInstr (.srd d sr) s (fun v =>
    let w := writeLong s v.u (perLane v d (srValue s v sr.toNat))
    let w := if sr = 0x11 && !(isScalar d && v.never) then
        updCourse w v.u.blk v.u.course (fun k => { k with latch := BitVec.ofNat 32 (s.now / 2 ^ 32) }) else w
    retire w v.u (.srd d sr) 0)

/-- The course after a write of a special register (R68, R69). -/
def srWrite (n : Nat) (w : Word) (k : Course) : Course :=
  match n with
  | 0x13 => { k with fpflags := w.truncate 6 }
  | 0x17 => { k with cashdl := w &&& ~~~15#32 }
  | 0x18 => { k with contain := w.getLsbD 0 }
  | 0x19 => { k with traphdl := w &&& ~~~15#32 }
  | _ => k

/-- SWR (R224): its wait has ended. -/
def execSwr (sr : BitVec 9) (a : Src) (s : State) : Host.Outcome State Fault Refusal :=
  runInstr (.swr sr a) s (fun v =>
    let s := if v.never then s
      else updCourse s v.u.blk v.u.course (srWrite sr.toNat (readReg v.k a.reg 0))
    retire s v.u (.swr sr a) 0)

/-! ### TASK -/

/-- TASK.done (R225): the waits have ended; it releases, and marks the block done. -/
def execTaskDone (s : State) : Host.Outcome State Fault Refusal :=
  runInstr .taskDone s (fun v =>
    let s := if v.never || v.b.done then s else markDone (drainCore s v.b.core) v.u.blk
    retire s v.u .taskDone 0)

/-- Every WAIT of a partition is to be tested again (R45, R227). -/
def retestWaits (s : State) (p : BitVec 3) : State :=
  { s with jobs := s.jobs.map (fun e =>
      if e.2.part = p && pkType e.2.words = 4 && e.2.started && !e.2.completed then (e.1, { e.2 with retest := true }) else e) }

/-- Every live lane of the course dies as for a poisoned scalar atomic (R227, R228). The instruction has no destination
that a wait could cover: the course issues nothing before the deaths. -/
def poisonAll (s : State) (v : View) (va : Nat) (tag : Half) : State :=
  let (id, s) := newId s
  let s := addLong s v.u { id := id, writes := [], holds := [], kill := 0, killAll := true, tag := tag, va := BitVec.ofNat 64 va,
                           load := true, memory := true }
  updCourse s v.u.blk v.u.course (fun k => { k with waitLongs := k.waitLongs ++ [id] })

/-- The decrement that TASK.signal makes at its home here, and its poison (R227); nothing where the word is poisoned. -/
def signalHome (s : State) (v : View) (va : Nat) (h : Home) : State :=
  match atomicAt s v.b.core v.b.asid h 8 (fun old => some ((old + 2 ^ 64 - 1) % 2 ^ 64)) with
  | (some _, s) => retestWaits s v.b.part
  | (none, s) => poisonAll s v va 0

/-- TASK.signal (R227): in the fabric window the remote device has made the decrement, or found poison. -/
def execTaskSignal (a : Src) (s : State) : Host.Outcome State Fault Refusal :=
  runInstr (.taskSignal a) s (fun v =>
    if v.never then retire s v.u (.taskSignal a) 0
    else
      let s := touchAccess s v (.taskSignal a)
      let s := match heldFor v with
        | some h =>
          if h.answers.any (fun e => !e.2.poison.isEmpty) then poisonAll s v (signalVa v a) 0 else retestWaits s v.b.part
        | none =>
          let s := drainCore s v.b.core
          match translate s v.b.asid (signalVa v a) with
          | .mem h _ => signalHome s v (signalVa v a) h
          | _ => s
      retire s v.u (.taskSignal a) 0)

/-- TASK.enq (R228, R229). -/
def execTaskEnq (d : RegName) (a : Src) (s : State) : Host.Outcome State Fault Refusal :=
  runInstr (.taskEnq d a) s (fun v =>
    if v.never then retire s v.u (.taskEnq d a) 0
    else
      let addr := (readReg v.k a.reg 0).toNat
      if localPoisoned v.b addr 128 then retire (poisonAll s v addr 0) v.u (.taskEnq d a) 0
      else
        let image := enqImage v a
        let s := drainCore s v.b.core
        let cause := enqCause s v.b.part (ctxNc s v.b.asid) image
        let s := match cause, getCtx s v.b.asid with
          | none, some x => setCtx s v.b.asid { x with subs := x.subs ++ [(x.subSeq, image)], subSeq := x.subSeq + 1 }
          | _, _ => s
        retire (writeLong s v.u (perLane v d (fun _ => BitVec.ofNat 32 (cause.getD 0)))) v.u (.taskEnq d a) 0)

/-! ### STEP -/

/-- STEP.begin (R231). -/
def execStepBegin (d : RegName) (a : Src) (s : State) : Host.Outcome State Fault Refusal :=
  runInstr (.stepBegin d a) s (fun v =>
    if v.never then retire s v.u (.stepBegin d a) 0
    else
      let id := readReg v.k (regPlus a.reg 1) 0
      let (r, s) := match getCtx s v.b.asid with
        | none => (0, s)
        | some x => match x.step with
          | some st => (if st.id = id then 1 else 2, s)
          | none =>
            let st : Step := ⟨id, ((s.now + (readReg v.k a.reg 0).toNat : Nat) : Int), none, false⟩
            (0, setCtx s v.b.asid { x with step := some st })
      retire (writeLong s v.u (perLane v d (fun _ => BitVec.ofNat 32 r))) v.u (.stepBegin d a) 0)

/-- The step closes: its blocks belong to none, those saved too (R230, R232). -/
def closeStep (s : State) (x : Context) : State :=
  let s := setCtx s x.asid { x with step := none, saved := x.saved.map (fun b => { b with step := none }) }
  { s with blocks := s.blocks.map (fun e => if e.2.asid = x.asid then (e.1, { e.2 with step := none }) else e) }

/-- STEP.end (R232). -/
def execStepEnd (d : RegName) (a : Src) (s : State) : Host.Outcome State Fault Refusal :=
  runInstr (.stepEnd d a) s (fun v =>
    if v.never then retire s v.u (.stepEnd d a) 0
    else
      let (w, s) := match getCtx s v.b.asid with
        | none => (0x80000000#32, s)
        | some x => match x.step with
          | some st =>
            if st.id = readReg v.k a.reg 0 then (clampSlack (st.deadline - (s.now : Int)), closeStep s x)
            else (0x80000000#32, s)
          | none => (0x80000000#32, s)
      retire (writeLong s v.u (perLane v d (fun _ => w))) v.u (.stepEnd d a) 0)

/-- The cycles that a block has run: those of its cluster's clock since it was placed, and those before it was saved (R314). -/
def ranCycles (s : State) (b : Block) : Nat := b.ran + ((getCluster s (coreCluster b.core)).cycles - b.startCycle)

/-- STEP.slack (R233). -/
def execStepSlack (d : RegName) (a : Src) (s : State) : Host.Outcome State Fault Refusal :=
  runInstr (.stepSlack d a) s (fun v =>
    if v.never then retire s v.u (.stepSlack d a) 0
    else
      let w := ctxSlack s v.b.asid
      let n := readReg v.k a.reg 0
      let s := setBlock s v.u.blk { v.b with estimate :=
        if n = 0xFFFFFFFF#32 then none else some (n, ranCycles s v.b) }
      retire (writeLong s v.u (perLane v d (fun _ => w))) v.u (.stepSlack d a) 0)

end Sys2Proof.Machine
end

