-- ==== Sys2Proof/Machine/Queue.lean ====
section
/-!
DEFINITION. The command processor: queues (R10 to R16), consumption and its checks (R30 to R34), counters (R40, R41,
R301, R304, R305), starting packets (R17, R37), COPY, SIGNAL and WAIT (R18, R43 to R46), completion, and the device
submission list (R229).
-/

namespace Sys2Proof.Machine

/-! ### Windows and queues -/

/-- A partition's queue window answers: READY, and EN set (R11, R398, R402). -/
def windowOpen (s : State) (p : BitVec 3) : Bool := s.phase == 4 && (getPart s p).pctl.getLsbD 63

/-- The partition is resetting (R393). -/
def resetting (s : State) (p : BitVec 3) : Bool := (getPart s p).pstate == 2

def queueKey (p : BitVec 3) (q : Nat) : Nat := 256 * p.toNat + q

def getQueue (s : State) (p : BitVec 3) (q : Nat) : Option Queue := find? s.queues (queueKey p q)

def setQueue (s : State) (p : BitVec 3) (q : Nat) (k : Queue) : State := { s with queues := put s.queues (queueKey p q) k }

/-- A context that holds work: neither removed nor destroyed, and it has not taken COUNTER (R301, R388). -/
def ctxAlive (x : Context) : Bool := x.state != .removed && !x.counter

/-- A context that DESTROY has ended: nothing of it is left (R390). -/
def ctxGone (s : State) (x : Context) : Bool :=
  x.destroying && s.blocks.all (fun e => e.2.asid ≠ x.asid) && s.jobs.all (fun e => e.2.asid ≠ x.asid || e.2.completed)
    && s.queues.all (fun e => e.2.asid ≠ x.asid)

/-- The context of this ASID in this partition, destroyed ones aside. -/
def partCtx (s : State) (p : BitVec 3) (asid : BitVec 16) : Option Context :=
  match getCtx s asid with
  | some x => if x.part = p && !ctxGone s x then some x else none
  | none => none

/-- Record a halt in QERR and raise the error vector (R394). -/
def queueError (s : State) (p : BitVec 3) (cause queue slot : Nat) (send : Bool) : State :=
  let part := getPart s p
  let submit := b2n (decide (256 ≤ queue))
  let e := 2 ^ 63 + part.qerr.toNat / 2 ^ 62 % 2 * 2 ^ 62 + cause * 2 ^ 48 + queue % 256 * 2 ^ 40 + submit * 2 ^ 32 + slot % 2 ^ 32
  let qerr := if part.qerr.getLsbD 63 then part.qerr ||| (1#64 <<< 62) else BitVec.ofNat 64 e
  let s := setPart s p { part with qerr := qerr }
  if send then raise s p 0 else s

/-- A queue halts (R32); for the submission list, it is the list that halts. -/
def haltQueue (s : State) (p : BitVec 3) (asid : BitVec 16) (q slot cause : Nat) : State :=
  let s := queueError s p cause q slot true
  if q < 256 then
    match getQueue s p q with
    | some k => setQueue s p q { k with halted := true }
    | none => s
  else match getCtx s asid with
    | some x => setCtx s asid { x with subHalted := true }
    | none => s

/-! ### Counters (R40) -/

def setCounter (s : State) (i : Nat) (c : Counter) : State := { s with counters := put s.counters i c }

/-- A counter is READY (R40). -/
def counterReady (c : Counter) : Bool := c.armed && c.value == 0

/-- A context takes COUNTER (R301): the packet's event raised it, and `i` is the index that the packet names. -/
def takeCounter (s : State) (j : Job) (i : Nat) : State :=
  match getCtx s j.asid with
  | none => s
  | some x =>
    if x.counter then s
    else
      let s := closeStep (setCtx s j.asid { x with counter := true }) { x with counter := true }
      let s := queueError s j.part 0x12 j.queue j.idx true
      removeContext s j.asid { plainFault 0x12 0 with info := i + 2 ^ 32 * j.queue } 0 0 0 0 true

/-- The own counter of a packet returns to FREE (R32, R40). -/
def freeOwn (s : State) (j : Job) : State :=
  match j.counter with
  | none => s
  | some i => setCounter s i Counter.free

/-- A packet arms its own counter (R40). -/
def armCounter (s : State) (id : Nat) (j : Job) : State :=
  match j.counter with
  | none => s
  | some i =>
    let v := (getCounter s i).value + (pw j.words 17 : Int)
    if v < 0 then takeCounter (setJob (setCounter s i Counter.free) id { j with failed := true }) j (pw j.words 16)
    else setCounter s i ⟨true, v, j.asid⟩

/-- A completing packet decrements a successor (R40, R41). -/
def decrement (s : State) (j : Job) (i : Nat) : State :=
  if i = 0xFFFFFFFF then s
  else
    let k := ctrBase (getPart s j.part) + i
    let c := getCounter s k
    if counterReady c || (!c.armed && decide (c.value ≤ -65535)) then takeCounter s j i
    else setCounter s k { c with value := c.value - 1 }

/-! ### Creating and destroying queues -/

/-- A creation or a destruction is in progress (R10). -/
def queueBusy (p : Partition) : Bool := p.creating.isSome || p.destroying.isSome

/-- QCREATE (R11). -/
def execQcreate (p : BitVec 3) (v : Double) (s : State) : Host.Outcome State Fault Refusal :=
  .next (if windowOpen s p && !queueBusy (getPart s p) then setPart s p { getPart s p with creating := some v } else s)

/-- The lowest queue number that is free; the manual does not say which is given. -/
def freeQueue (s : State) (p : BitVec 3) : Option Nat := (List.range Config.queues).find? (fun q => (getQueue s p q).isNone)

/-- What a descriptor creates (R11, R13). -/
def readDescriptor (s : State) (asid : BitVec 16) (desc : Nat) : Option Queue :=
  if desc % 64 ≠ 0 then none
  else match hubRead s asid desc 64 with
    | none => none
    | some (_, true) => none
    | some (bs, false) =>
      let w := natOfBytes bs
      let ring := bits w 63 0
      let log2 := bits w 68 64
      if ring % 4096 ≠ 0 || log2 < 4 || 16 < log2 || bits w 127 69 ≠ 0 || bits w 255 192 ≠ 0 || bits w 511 256 ≠ 0 then none
      else some { asid := asid, desc := BitVec.ofNat 64 desc, ring := BitVec.ofNat 64 ring, log2 := log2, readIdx := 0,
                  notify := 0, halted := false, destroying := false, stopped := false, waiting := none }

/-- QUEUE_CREATION_DONE (R11): BUSY clears and STATUS is set. -/
def execQueueCreationDone (p : BitVec 3) (s : State) : Host.Outcome State Fault Refusal :=
  let part := getPart s p
  match part.creating with
  | none => .next s
  | some v =>
    let asid := BitVec.ofNat 16 (bits v.toNat 63 48)
    let done (s : State) (status q : Nat) : Host.Outcome State Fault Refusal :=
      .next (setPart s p { part with creating := none, qresult := BitVec.ofNat 64 (status * 2 ^ 28 + q) })
    if (partCtx s p asid).isNone then done s 3 0
    else
      let s := hubTouch s asid (bits v.toNat 47 0) 64
      match readDescriptor s asid (bits v.toNat 47 0) with
      | none => done s 1 0
      | some k => match freeQueue s p with
        | none => done s 2 0
        | some q => done (setQueue s p q k) 0 q

/-- The packets of a queue, by id. -/
def queueJobs (s : State) (p : BitVec 3) (q : Nat) : List (Nat × Job) :=
  s.jobs.filter (fun e => e.2.part == p && e.2.queue == q)

/-- A packet has started; a COOP launch starts only when its blocks are placed, all at once (R17, R47). -/
def jobBegun (j : Job) : Bool := j.started && !(pkType j.words == 1 && pkCoop j.words && j.placed == 0)

/-- Discard the packets, among those that `sel` selects, that have been consumed and have not started (R12). -/
def discardJobs (s : State) (sel : Job → Bool) : State :=
  let out (j : Job) : Bool := sel j && !jobBegun j
  let s := s.jobs.foldl (fun s e => if out e.2 && !e.2.failed then freeOwn s e.2 else s) s
  { s with jobs := s.jobs.filter (fun e => !out e.2) }

/-- Destruction of a queue begins (R12 items 1 and 2). -/
def closeQueue (s : State) (p : BitVec 3) (q : Nat) (k : Queue) : State :=
  discardJobs (setQueue s p q { k with destroying := true }) (fun j => j.part == p && j.queue == q)

/-- The packet can still come to its end: a launch or a WAIT of a removed context does not, but for a launch whose blocks are
all done (R388). -/
def jobLives (s : State) (j : Job) : Bool :=
  pkType j.words == 2 || pkType j.words == 3 || (pkType j.words == 1 && j.doneBlocks == pkBlocks j.words) ||
  match getCtx s j.asid with
  | some x => ctxAlive x
  | none => false

/-- A packet of the queue is running. -/
def queueRuns (s : State) (p : BitVec 3) (q : Nat) : Bool :=
  (queueJobs s p q).any (fun e => e.2.started && !e.2.completed && !e.2.failed && jobLives s e.2)

/-- A block of the job is on a core, or waits to be placed again. -/
def jobHeld (s : State) (id : Nat) : Bool :=
  s.blocks.any (fun e => e.2.job == id) || s.waitingBlocks.any (fun w => w.job == id)

/-- The number is free: the queue and its packets that never complete are gone; one whose blocks are still on a core counts as
ended. -/
def dropQueue (s : State) (p : BitVec 3) (q : Nat) : State :=
  { s with queues := del s.queues (queueKey p q)
           jobs := (s.jobs.map (fun e =>
             if e.2.part == p && e.2.queue == q && jobHeld s e.1 then (e.1, { e.2 with completed := true }) else e)).filter
             (fun e => !(e.2.part == p && e.2.queue == q && !e.2.completed)) }

/-- QDESTROY (R12). -/
def execQdestroy (p : BitVec 3) (v : Double) (s : State) : Host.Outcome State Fault Refusal :=
  if !windowOpen s p || queueBusy (getPart s p) then .next s
  else
    let q := bits v.toNat 7 0
    match getQueue s p q with
    | some k =>
      if k.asid.toNat = bits v.toNat 63 48 then
        .next (closeQueue (setPart s p { getPart s p with destroying := some v }) p q k)
      else .next (setPart s p { getPart s p with qresult := BitVec.ofNat 64 (3 * 2 ^ 28) })
    | none => .next (setPart s p { getPart s p with qresult := BitVec.ofNat 64 (3 * 2 ^ 28) })

/-- QUEUE_DESTROY_DONE (R12). -/
def execQueueDestroyDone (p : BitVec 3) (s : State) : Host.Outcome State Fault Refusal :=
  match (getPart s p).destroying with
  | none => .next s
  | some v =>
    let q := bits v.toNat 7 0
    .next (if queueRuns s p q then s
      else dropQueue (setPart s p { getPart s p with destroying := none, qresult := BitVec.ofNat 64 q }) p q)

/-! ### NOTIFY and consumption -/

/-- The WAIT that stops a queue is to be tested again (R45). -/
def retestQueue (s : State) (k : Queue) : State :=
  match k.waiting with
  | none => s
  | some i => match getJob s i with
    | some j => setJob s i { j with retest := true }
    | none => s

/-- NOTIFY (R15, R388, R393). -/
def execNotifyWrite (p : BitVec 3) (q : BitVec 8) (v : Double) (s : State) : Host.Outcome State Fault Refusal :=
  match getQueue s p q.toNat with
  | none => .next s
  | some k =>
    match getCtx s k.asid with
    | none => .next s
    | some x =>
      if !windowOpen s p || resetting s p || k.halted || k.destroying || !ctxAlive x || v.toNat < k.notify then .next s
      else if k.readIdx + 2 ^ k.log2 < v.toNat then .next (haltQueue s p k.asid q.toNat (v.toNat % 2 ^ 32) 0x0A)
      else .next (retestQueue (setQueue s p q.toNat { k with notify := v.toNat, stopped := k.stopped && decide (v.toNat ≤ k.readIdx) }) k)

/-- Consumption goes on in this queue (R15, R32, R45). -/
def consumable (s : State) (k : Queue) : Bool :=
  !k.halted && !k.destroying && !k.stopped && k.waiting.isNone && decide (k.readIdx < k.notify) &&
  match getCtx s k.asid with
  | some x => ctxAlive x
  | none => false

/-- A new packet (R17, R34, R302). -/
def newJob (p : BitVec 3) (part : Partition) (asid : BitVec 16) (queue idx : Nat) (words : List Word) : Job :=
  { part := p, queue := queue, idx := idx, asid := asid, words := words,
    counter := if (pkType words = 1 || pkType words = 2) && pw words 16 ≠ 0xFFFFFFFF then some (ctrBase part + pw words 16) else none,
    started := false, failed := false, tested := false, met := [], release := 0, entry := 0, size := 0, placed := 0,
    doneBlocks := 0, completed := false, retest := false, kappaNum := 1, kappaDen := 1, holding := false,
    firstSince := none, code := [], copied := 0, asking := false, brought := none }

/-- A packet has been consumed or taken: it joins the scheduler and arms its counter (R16, R40). -/
def admitJob (s : State) (j : Job) : Nat × State :=
  let (id, s) := newId s
  (id, armCounter (setJob s id j) id j)

/-- A slot's virtual address (R13). -/
def slotVa (k : Queue) : Nat := k.ring.toNat + 128 * (k.readIdx % 2 ^ k.log2)

/-- Consume the slot at READIDX, whose checks have passed (R16). -/
def consume (s : State) (p : BitVec 3) (q : Nat) (k : Queue) (words : List Word) : State :=
  let s := hubWrite s k.asid (slotVa k) (bytesOfNat 4 (pw words 0 % 2 ^ 31))
  let s := hubWrite s k.asid (k.desc.toNat + 0x18) (bytesOfNat 8 (k.readIdx + 1))
  let (id, s) := admitJob s (newJob p (getPart s p) k.asid q k.readIdx words)
  match getQueue s p q with
  | some k => setQueue s p q { k with readIdx := k.readIdx + 1, waiting := if pkType words = 4 then some id else k.waiting }
  | none => s

/-- Consume the slot at READIDX, whose header has VALID set: the translations for writing, then poison, then the packet's own
checks (R16, R32, R334). -/
def consumeValid (s : State) (p : BitVec 3) (q : Nat) (k : Queue) : State :=
  let halt (s : State) (cause : Nat) : State := haltQueue s p k.asid q k.readIdx cause
  if !(accessible s k.asid (slotVa k) true && accessible s k.asid (k.desc.toNat + 0x18) true) then halt s 0x07
  else
    let s := hubTouch s k.asid (slotVa k) 128
    match hubRead s k.asid (slotVa k) 128 with
    | none => halt s 0x07
    | some (_, true) => halt s 0x0B
    | some (bs, false) =>
      match packetCause s p (ctxNc s k.asid) (bytesToWords bs) with
      | some c => halt s c
      | none => consume s p q k (bytesToWords bs)

/-- CONSUME_SLOT (R15, R16): a slot whose header has VALID clear stops consumption, whatever else is wrong with it. -/
def execConsumeSlot (p : BitVec 3) (q : BitVec 8) (s : State) : Host.Outcome State Fault Refusal :=
  match getQueue s p q.toNat with
  | none => .next s
  | some k =>
    if !consumable s k then .next s
    else
      let s := hubTouch s k.asid (slotVa k) 4
      match hubRead s k.asid (slotVa k) 4 with
      | some (bs, false) =>
        .next (if bitAt (natOfBytes bs) 31 then consumeValid s p q.toNat k
          else setQueue s p q.toNat { k with stopped := true })
      | _ => .next (consumeValid s p q.toNat k)

/-! ### Starting packets -/

/-- No BARRIER holds the packet (R17, R229). -/
def barrierClear (s : State) (j : Job) : Bool :=
  !pkBarrier j.words || s.jobs.all (fun e => !(e.2.part == j.part && e.2.queue == j.queue &&
    (j.queue < 256 || e.2.asid == j.asid) && decide (e.2.idx < j.idx) && !e.2.completed))

/-- The packet is startable (R17, R40, R301). -/
def packetStartable (s : State) (j : Job) : Bool :=
  !j.started && !j.failed && !j.asking && barrierClear s j &&
  (match j.counter with
    | none => true
    | some i => counterReady (getCounter s i)) &&
  match getCtx s j.asid with
  | some x => ctxAlive x
  | none => false

/-- A packet is refused after its consumption (R32): it never completes and its counter is free. -/
def refuseJob (s : State) (id : Nat) (j : Job) (cause : Nat) : State :=
  let s := setJob (freeOwn s j) id { j with failed := true }
  haltQueue s j.part j.asid j.queue j.idx cause

/-- A code header passes R37 for this launch. -/
def headerOk (h : List Word) (l : List Word) : Bool :=
  let need (r : Nat) : Nat := bits (pw h 4) (8 * r + 7) (8 * r)
  pw h 0 = 0x56414C52 && bits (pw h 1) 7 0 = 1 && pw h 1 / 2 ^ 10 = 0 && pw h 4 / 2 ^ 24 = 0
    && !anySet h ((List.range 9).map (· + 7))
    && pw h 2 < pw h 3 && (List.range 3).all (fun r => pkRole l r = 0 || decide (need r ≤ pkBudget l r))
    && pw h 5 ≤ pw l 12 && (!bitAt (pw l 0) 13 || bitAt (pw h 1) 8) && (!bitAt (pw h 1) 9 || pkCoop l)

/-- The packets of a code object as they stand at launch start (R77). -/
def snapshot (s : State) (asid : BitVec 16) (code size : Nat) : List (Option (List Byte)) :=
  (List.range (size / 16)).map (fun i => (hubRead s asid (code + 16 * i) 16).map (·.1))

/-- The command processor has the header of a launch's code object (R37): where the poison flag is set, it came poisoned. -/
def startLaunch (s : State) (id : Nat) (j : Job) (bs : List Byte) (poison : Bool) : State :=
  let h := bytesToWords bs
  if poison then refuseJob s id j 0x0B
  else if headerOk h j.words then
    setJob s id { j with entry := pw h 2 / 16 * 16, size := pw h 3, code := snapshot s j.asid (jobCode j) (pw h 3) }
  else refuseJob s id j 0x06

/-- The header of a launch is read: here, or by a request to a remote device (R37, R400). -/
def readHeaderOf (s : State) (id : Nat) (j : Job) : State :=
  let s := hubTouch s j.asid (jobCode j) 64
  match translate s j.asid (jobCode j) with
  | .fabric d r va => askRemote (setJob s id { j with started := false, asking := true }) (.header id) d r va (.load 64) []
  | _ =>
    match hubRead s j.asid (jobCode j) 64 with
    | none => refuseJob s id j 0x07
    | some (bs, poison) => startLaunch s id j bs poison

/-- PACKET_START (R17, R37): from here the packet runs. -/
def execPacketStart (pkt : Nat) (s : State) : Host.Outcome State Fault Refusal :=
  match getJob s pkt with
  | none => .next s
  | some j =>
    if !packetStartable s j then .next s
    else
      let j := { j with started := true, release := s.now }
      .next (if pkType j.words ≠ 1 then setJob s pkt j else readHeaderOf s pkt j)

/-! ### Signals and completion -/

/-- What an update of a signal finds (R18, R334), or that a remote device has been asked for it. -/
inductive SignalEnd where
  | done | xlate | poison | asked
  deriving DecidableEq, Repr

/-- One atomic update of a signal by job `id` (R18, R46): OP 0 store, 1 add, 2 subtract. Every WAIT of the partition is tested
again (R45). -/
def updateSignal (s : State) (id : Nat) (p : BitVec 3) (asid : BitVec 16) (va op : Nat) (x : Double) : SignalEnd × State :=
  let s := touchWalk s asid va
  match translate s asid va with
  | .page _ => (.xlate, s)
  | .fabric d r rva =>
    (.asked, askRemote s (.signal id) d r rva (if op = 0 then .storeWide x else .addWide (if op = 1 then x else 0 - x)) [])
  | .mem h f =>
    let s := if f.write then homeTouch s h else s
    if !f.write then (.xlate, s)
    else if homePoisoned s h 8 then (.poison, s)
    else
      let old := BitVec.ofNat 64 (natOfBytes (homeBytes s h 8))
      let new := if op = 0 then x else if op = 1 then old + x else old - x
      (.done, retestWaits (performBy s asid (homeSector h) ((bytesOfNat 8 new.toNat).zipIdx.map (fun e => (homeOffset h + e.2, e.1))) 0) p)

/-- A completed job is kept only while its blocks run on (R226). -/
def retireJob (s : State) (id : Nat) : State :=
  match getJob s id with
  | some j => if j.completed && !jobHeld s id then { s with jobs := del s.jobs id } else s
  | none => s

/-- The queues of a context being destroyed whose packets have all ended are gone (R12, R390). -/
def dropClosed (s : State) (asid : BitVec 16) : State :=
  match getCtx s asid with
  | none => s
  | some x =>
    if x.destroying then
      { s with queues := s.queues.filter (fun e => !(e.2.asid == asid) || queueRuns s (BitVec.ofNat 3 (e.1 / 256)) (e.1 % 256)) }
    else s

/-- The packet completes: its own counter is free, then its successors are decremented, in order (R40, R41). -/
def finishJob (s : State) (id : Nat) (j : Job) : State :=
  let s := setJob (freeOwn s j) id { j with completed := true }
  let s := if pkType j.words = 1 || pkType j.words = 2 then decrement (decrement s j (pw j.words 18)) j (pw j.words 19) else s
  dropClosed (retireJob s id) j.asid

/-- A packet's signal has been updated, or could not be (R17, R18, R32, R41, R334). -/
def endSignal (s : State) (id : Nat) (j : Job) (e : SignalEnd) : State :=
  match e with
  | .xlate => refuseJob s id j 0x07
  | .poison => haltQueue (finishJob s id j) j.part j.asid j.queue j.idx 0x0B
  | .done => finishJob s id j
  | .asked => setJob s id { j with asking := true }

/-- A launch or a copy completes: its signal, then its successors (R17, R18, R41, R334). -/
def completeJob (s : State) (id : Nat) (j : Job) : State :=
  let va := word64 j.words 22
  if va = 0 then finishJob s id j
  else match updateSignal s id j.part j.asid va 2 1 with
    | (e, s) => endSignal s id j e

/-- SIGNAL (R18). -/
def execSignalPacket (pkt : Nat) (s : State) : Host.Outcome State Fault Refusal :=
  match getJob s pkt with
  | none => .next s
  | some j =>
    if pkType j.words ≠ 3 || !j.started || j.completed || j.failed || j.asking then .next s
    else match updateSignal s pkt j.part j.asid (word64 j.words 2) (bits (pw j.words 6) 1 0) (BitVec.ofNat 64 (word64 j.words 4)) with
      | (e, s) => .next (endSignal s pkt j e)

/-! ### COPY -/

/-- Where a unit of a COPY comes from: its bytes, a remote device that must be asked for them, or nowhere (R43). -/
inductive CopySource where
  | bytes (l : List (Poi Byte))
  | ask (device rasid va : Nat)
  | none
  deriving DecidableEq, Repr

/-- The bytes of a unit of a COPY: fill words, what a remote device has brought, or the source as the copy unit reads it
(R43). -/
def copySource (s : State) (j : Job) (i n : Nat) (got : Option RemoteAnswer) : CopySource :=
  if bits (pw j.words 8) 1 0 = 1 then
    .bytes ((List.range n).map (fun k => (BitVec.ofNat 8 (pw j.words 9 / 2 ^ (8 * ((i + k) % 4))), false)))
  else match got with
    | some a => if a.ok then .bytes (answerPois n a) else .none
    | none => match translate s j.asid (word64 j.words 2 + i) with
      | .mem h _ => .bytes (homePois s h n)
      | .fabric d r va => .ask d r va
      | .page _ => .none

/-- How the units of a COPY end: all written, a page stops them, or a remote device is asked, `copied` bytes being written once
it answers. -/
inductive CopyEnd where
  | done
  | failed
  | asked (copied : Nat)
  deriving DecidableEq, Repr

/-- The units of a COPY from byte `i` on, ascending (R43): a unit crosses no sector pair of the destination and no page of
the source. `got` is what a remote device has brought for the first of them. -/
def copyUnits (id : Nat) (j : Job) : Nat → Nat → Option RemoteAnswer → State → CopyEnd × State
  | 0, _, _, s => (.done, s)
  | fuel + 1, i, got, s =>
    let left := copyLength j.words - i
    if left = 0 then (.done, s)
    else
      let dst := word64 j.words 4 + i
      let n := min left (min (64 - dst % 64) (65536 - (word64 j.words 2 + i) % 65536))
      let s := touchWalk (if bits (pw j.words 8) 1 0 = 1 then s else hubTouch s j.asid (word64 j.words 2 + i) n) j.asid dst
      match copySource s j i n got with
      | .none => (.failed, s)
      | .ask d r va => (.asked i, askRemote s (.copyRead id) d r va (.load n) [])
      | .bytes bs =>
        match translate s j.asid dst with
        | .mem h f =>
          if f.write then copyUnits id j fuel (i + n) none (putGlobal s j.asid (bs.zipIdx.map (fun e => (homeAdd h e.2, e.1))))
          else (.failed, s)
        | .fabric d r va =>
          (.asked (i + n), askRemote s (.copyWrite id) d r va
            (.store (bs.zipIdx.filterMap (fun e => if e.1.2 then some e.2 else none))) (bs.map (·.1)))
        | .page _ => (.failed, s)

/-- COPY (R43). -/
def execCopyPacket (pkt : Nat) (s : State) : Host.Outcome State Fault Refusal :=
  match getJob s pkt with
  | none => .next s
  | some j =>
    if pkType j.words ≠ 2 || !j.started || j.completed || j.failed || j.asking then .next s
    else match copyUnits pkt j (copyLength j.words - j.copied) j.copied j.brought s with
      | (.done, s) => .next (completeJob s pkt { j with copied := copyLength j.words, brought := none })
      | (.failed, s) => .next (refuseJob s pkt j 0x07)
      | (.asked n, s) => .next (setJob s pkt { j with copied := n, asking := true, brought := none })

/-! ### WAIT -/

/-- The value of a signal is at or below the limit of entry `i` (R44). -/
def belowLimit (j : Job) (i : Nat) (bs : List Byte) : Bool :=
  decide ((BitVec.ofNat 64 (natOfBytes bs)).toInt ≤ (BitVec.ofNat 64 (word64 j.words (6 + 4 * i))).toInt)

/-- What a read of an entry's signal gives (R44): at or below its limit, above it, in the fabric window, or a cause. -/
inductive WaitRead where
  | met (b : Bool)
  | ask (device rasid va : Nat)
  | bad (cause : Nat)
  deriving DecidableEq, Repr

/-- One entry of a WAIT is read (R44). -/
def waitEntry (s : State) (j : Job) (i : Nat) : WaitRead :=
  match translate s j.asid (word64 j.words (4 + 4 * i)) with
  | .fabric d r va => .ask d r va
  | _ => match hubRead s j.asid (word64 j.words (4 + 4 * i)) 8 with
    | none => .bad 0x07
    | some (_, true) => .bad 0x0B
    | some (bs, false) => .met (belowLimit j i bs)

/-- The entries not yet met are read in order: those met, or a cause. -/
def waitRead (s : State) (j : Job) : List Nat → List Nat → Except Nat (List Nat)
  | [], met => .ok met
  | i :: t, met =>
    if met.contains i then waitRead s j t met
    else match waitEntry s j i with
      | .bad c => .error c
      | .met b => waitRead s j t (if b then i :: met else met)
      | .ask .. => waitRead s j t met

/-- Remote devices are asked for the signals of these entries. -/
def askWaits (s : State) (id : Nat) (j : Job) (l : List Nat) : State :=
  l.foldl (fun s i => match waitEntry s j i with
    | .ask d r va => askRemote s (.wait id i) d r va (.load 8) []
    | _ => s) s

/-- The queue goes on behind its WAIT. -/
def releaseQueue (s : State) (j : Job) : State :=
  match getQueue s j.part j.queue with
  | some k => setQueue s j.part j.queue { k with waiting := none }
  | none => s

/-- Entries of a WAIT. -/
def waitEntries (j : Job) : List Nat := List.range (bits (pw j.words 2) 2 0)

/-- The entries that a WAIT has met: it completes when they are all of them, unless it has remote devices to hear. -/
def endWait (s : State) (id : Nat) (j : Job) : State :=
  if (waitEntries j).all (fun i => j.met.contains i) then releaseQueue (finishJob s id { j with asking := false }) j
  else setJob s id j

/-- Test a WAIT (R44, R45, R334). -/
def testWait (s : State) (id : Nat) (j : Job) : State :=
  let s := (waitEntries j).foldl (fun s i => hubTouch s j.asid (word64 j.words (4 + 4 * i)) 8) s
  match waitRead s j (waitEntries j) j.met with
  | .error c => refuseJob s id j c
  | .ok met =>
    let far := (waitEntries j).filter (fun i => !met.contains i && (waitEntry s j i matches .ask ..))
    askWaits (endWait s id { j with tested := true, retest := false, met := met, asking := !far.isEmpty }) id j far

/-- WAIT (R45): its first test. -/
def execWaitPacket (pkt : Nat) (s : State) : Host.Outcome State Fault Refusal :=
  match getJob s pkt with
  | none => .next s
  | some j =>
    .next (if pkType j.words = 4 && j.started && !j.tested && !j.completed && !j.failed && !j.asking then testWait s pkt j else s)

/-- WAIT_RETEST (R45). -/
def execWaitRetest (pkt : Nat) (s : State) : Host.Outcome State Fault Refusal :=
  match getJob s pkt with
  | none => .next s
  | some j =>
    .next (if pkType j.words = 4 && j.tested && j.retest && !j.completed && !j.failed && !j.asking then testWait s pkt j else s)

/-- WAIT_POLL_TIMER (R45): every 10 us every WAIT is to be tested again. -/
def execWaitPollTimer (s : State) : Host.Outcome State Fault Refusal :=
  if s.now < s.nextPoll then .next s
  else
    let s := { s with nextPoll := s.nextPoll + 10000 }
    .next ((List.range 8).foldl (fun s p => retestWaits s (BitVec.ofNat 3 p)) s)

/-! ### Completion of a launch -/

/-- Every block of a started launch is done (R17, R226). -/
def launchDone (j : Job) : Bool :=
  pkType j.words == 1 && j.started && !j.completed && !j.failed && !j.asking && j.doneBlocks == pkBlocks j.words

/-- The release of a launch's stores waits: remote devices have stores of its blocks to acknowledge, or a block whose courses
have all exited has engine commands left (R17, R179, R225). -/
def launchHeld (s : State) (id : Nat) : Bool :=
  remoteOpen s (fun o => match o with
    | .store _ job => job == id
    | _ => false)
  || s.commands.any (fun e => match getBlock s e.2.blk with
    | some b => b.job == id && coursesEnded s e.2.blk b
    | none => false)

/-- The stores of a launch's blocks are performed (R17). -/
def drainJob (s : State) (id : Nat) : State :=
  (s.blocks.filter (fun e => e.2.job == id)).foldl (fun s e => drainCore s e.2.core) s

/-- LAUNCH_COMPLETE (R17): the release of its blocks' stores, then its signal and successors. -/
def execLaunchComplete (pkt : Nat) (s : State) : Host.Outcome State Fault Refusal :=
  match getJob s pkt with
  | none => .next s
  | some j =>
    if launchDone j then
      let s := drainJob s pkt
      .next (if launchHeld s pkt then s else completeJob s pkt j)
    else .next s

/-! ### The device submission list -/

/-- A path parked at a full list issues again when an entry is taken (R229). -/
def wakeSubmission (p : Path) : Path := if p.park = .submission then { p with park := .running } else p

/-- The paths of a context that wait for room in its list. -/
def wakeSubmissions (s : State) (asid : BitVec 16) : State :=
  { s with courses := s.courses.map (fun e => match getBlock s (e.1 / 32) with
      | some b => if b.asid = asid then
          (e.1, { e.2 with path0 := e.2.path0.map wakeSubmission, path1 := e.2.path1.map wakeSubmission }) else e
      | none => e) }

/-- SUBMISSION_TAKE (R229). -/
def execSubmissionTake (asid : BitVec 16) (s : State) : Host.Outcome State Fault Refusal :=
  match getCtx s asid with
  | none => .next s
  | some x =>
    match x.subs with
    | [] => .next s
    | (n, words) :: rest =>
      if !ctxAlive x || x.subHalted || resetting s x.part then .next s
      else
        let s := wakeSubmissions (setCtx s asid { x with subs := rest }) asid
        match packetCause s x.part x.nc words with
        | some c => .next (haltQueue s x.part asid 256 n c)
        | none => .next (admitJob s (newJob x.part (getPart s x.part) asid 256 n words)).2

/-! ### CSEL -/

/-- CVIEW of a counter (R305). -/
def counterView (c : Counter) (refused : Bool) : Double :=
  let st := if !c.armed then 0 else if c.value = 0 then 2 else 1
  BitVec.ofNat 64 (st * 2 ^ 62 + b2n refused * 2 ^ 61 + (c.value % 131072).toNat)

/-- The value of REFUSED that a CSEL write without CLEAR leaves. -/
def wasRefused (p : Partition) : Bool := p.cview.getLsbD 61

/-- CSEL with CLEAR 0 (R305). -/
def execCsel (p : BitVec 3) (v : Double) (s : State) : Host.Outcome State Fault Refusal :=
  let part := getPart s p
  let i := bits v.toNat 31 0
  if !windowOpen s p || v.getLsbD 32 then .next s
  else
    let view := if ctrNamed part i then counterView (getCounter s (ctrBase part + i)) (wasRefused part)
      else BitVec.ofNat 64 (3 * 2 ^ 62 + b2n (wasRefused part) * 2 ^ 61)
    .next (setPart s p { part with cview := view })

/-- A counter may be cleared (R305). -/
def clearable (s : State) (c : Counter) : Bool :=
  !c.armed || match getCtx s c.owner with
    | some x => !ctxAlive x
    | none => true

/-- CSEL with CLEAR 1 (R305). -/
def execCselClear (p : BitVec 3) (v : Double) (s : State) : Host.Outcome State Fault Refusal :=
  let part := getPart s p
  let i := bits v.toNat 31 0
  if !windowOpen s p || !v.getLsbD 32 then .next s
  else if !ctrNamed part i then .next (setPart s p { part with cview := BitVec.ofNat 64 (3 * 2 ^ 62 + 2 ^ 61) })
  else
    let c := getCounter s (ctrBase part + i)
    let ok := clearable s c
    let s := setPart s p { part with cview := counterView c (!ok) }
    .next (if ok then setCounter s (ctrBase part + i) Counter.free else s)

end Sys2Proof.Machine
end

