-- ==== Sys2Proof/Machine/Remote.lean ====
section
/-!
DEFINITION. REMOTE_ACCESS_DONE: what the answer of a remote device, or the failure of an access, does to the course, command
or packet that asked (R18, R43, R44, R168, R179, R199, R400).
-/

namespace Sys2Proof.Machine

/-! ### Courses and commands -/

/-- Every lane of a remote access has its answer. -/
def heldComplete (h : Held) : Bool := (fabricLanes h.reach).all (fun l => h.answers.any (fun a => a.1 == l))

/-- The answer for a lane of the instruction at packet slot `pos` of a path (R168). -/
def answerPath (pos lane : Nat) (a : RemoteAnswer) (p : Path) : Path :=
  let hs := p.remotes.map (fun h => if h.pos = pos then { h with answers := h.answers ++ [(lane, a)] } else h)
  { p with remotes := hs, park := if p.park = .remote && hs.all heldComplete then .running else p.park }

/-- The paths that wait for what has come go on (R179, R210). -/
def wakeParked (s : State) : State :=
  { s with courses := s.courses.map (fun e =>
      let f (p : Path) : Path := wakeLongs s e.2 (wakeCommands s p)
      (e.1, { e.2 with path0 := e.2.path0.map f, path1 := e.2.path1.map f })) }

/-- The answer for a piece of a command's row (R199): the command goes on when the row has all of its answers. -/
def answerRow (s : State) (cmd key piece : Nat) (a : RemoteAnswer) : State :=
  match getCmd s cmd with
  | none => s
  | some c =>
    let s := setCmd s cmd { c with answers := c.answers ++ [(key, piece, a)] }
    if remoteOpen s (fun o => match o with
        | .row i _ _ => i == cmd
        | _ => false) then s
    else runCmd (setCmd s cmd { c with answers := c.answers ++ [(key, piece, a)], remote := none }) cmd

/-! ### Packets -/

/-- The bytes that a COPY asked for have come (R43). -/
def answerCopy (s : State) (id : Nat) (j : Job) (a : RemoteAnswer) (read : Bool) : State :=
  if !a.ok then refuseJob s id { j with asking := false } 0x07
  else setJob s id { j with asking := false, brought := if read then some a else none }

/-- The value of a signal that a WAIT tests has come (R44, R334). -/
def answerWait (s : State) (id entry : Nat) (j : Job) (a : RemoteAnswer) : State :=
  if !a.ok then refuseJob s id j 0x07
  else if !a.poison.isEmpty then refuseJob s id j 0x0B
  else endWait s id { j with
    met := if belowLimit j entry (fitBytes 8 a.data) && !j.met.contains entry then entry :: j.met else j.met
    asking := remoteOpen s (fun o => match o with
      | .wait i _ => i == id
      | _ => false) }

/-- The header of a launch's code object has come (R37). -/
def answerHeader (s : State) (id : Nat) (j : Job) (a : RemoteAnswer) : State :=
  let j := { j with started := true, asking := false, release := s.now }
  if !a.ok then refuseJob s id j 0x07 else startLaunch s id j (fitBytes 64 a.data) (!a.poison.isEmpty)

/-- A remote device has updated a signal for a packet, or has not (R18, R334). -/
def answerSignal (s : State) (id : Nat) (j : Job) (a : RemoteAnswer) : State :=
  let j := { j with asking := false }
  if !a.ok then endSignal s id j .xlate
  else if !a.poison.isEmpty then endSignal s id j .poison
  else endSignal (retestWaits s j.part) id j .done

/-- The answer for a packet that still waits for it. -/
def answerJob (s : State) (id : Nat) (f : Job → State) : State :=
  match getJob s id with
  | some j => if j.asking && !j.completed && !j.failed then f j else s
  | none => s

/-! ### The event -/

/-- What an answer does for whom it was asked. -/
def answerOwner (s : State) (o : RemoteOwner) (a : RemoteAnswer) : State :=
  match o with
  | .lane blk c slot pos lane => updPath s blk c slot (answerPath pos lane a)
  | .store _ _ => wakeParked s
  | .row cmd key piece => answerRow s cmd key piece a
  | .copyRead id => answerJob s id (fun j => answerCopy s id j a true)
  | .copyWrite id => answerJob s id (fun j => answerCopy s id j a false)
  | .wait id entry => answerJob s id (fun j => answerWait s id entry j a)
  | .header id => answerJob s id (fun j => answerHeader s id j a)
  | .signal id => answerJob s id (fun j => answerSignal s id j a)

/-- An answer comes for request `id`; one that nothing waits for is ignored. -/
def answerRemote (s : State) (id : Nat) (a : RemoteAnswer) : State :=
  match find? s.remotes id with
  | none => s
  | some r => answerOwner { s with remotes := del s.remotes id } r.owner a

/-- REMOTE_ACCESS_DONE (R168, R199): device `dev` answers request `id`, or its access there has failed; an answer from a
device that was not asked is ignored. -/
def execRemoteAccessDone (dev id : Nat) (ok : Bool) (poison : List Nat) (data : List Byte) (s : State) :
    Host.Outcome State Fault Refusal :=
  .next (match find? s.remotes id with
    | some r => if r.device = dev then answerRemote s id ⟨ok, poison, data⟩ else s
    | none => s)

end Sys2Proof.Machine
end

