-- ==== Sys2Proof/Machine/Sched.lean ====
section
/-!
DEFINITION. The task scheduler and the distributor: charges and admission (R307 to R309), where a block may stand (R53,
R206, R236), the ready order and holding (R302, R303), placing a block and its courses (R35, R38, R39, R237, R295), and its
leaving (R238). BLOCK_PLACE, LAUNCH_HOLDING, BLOCK_LEAVE.
-/

namespace Sys2Proof.Machine

/-! ### Exact fractions -/

/-- A fraction: numerator and denominator (R8, `real`). -/
structure Frac where
  num : Int
  den : Nat
  deriving DecidableEq, Repr

/-- A fraction in lowest terms. -/
def Frac.mk' (n : Int) (d : Nat) : Frac :=
  let g := Nat.gcd n.natAbs d
  if g = 0 then ⟨0, 1⟩ else ⟨n / g, d / g⟩

def Frac.ofNat (n : Nat) : Frac := ⟨n, 1⟩

def Frac.add (a b : Frac) : Frac := Frac.mk' (a.num * b.den + b.num * a.den) (a.den * b.den)

def Frac.sub (a b : Frac) : Frac := Frac.mk' (a.num * b.den - b.num * a.den) (a.den * b.den)

def Frac.mul (a b : Frac) : Frac := Frac.mk' (a.num * b.num) (a.den * b.den)

def Frac.le (a b : Frac) : Bool := decide (a.num * b.den ≤ b.num * a.den)

def Frac.lt (a b : Frac) : Bool := decide (a.num * b.den < b.num * a.den)

/-- The integer at or below. -/
def Frac.floor (a : Frac) : Int := a.num / a.den

/-! ### Charges -/

/-- Cycles of a cluster's clock in a control interval of 20 us (R307, R311). -/
def intervalCycles (c : Cluster) : Nat := 20 * (600 + 25 * c.clock)

/-- The energy charge of a block of this launch on a cluster (R307). -/
def energyCharge (j : Job) (c : Cluster) : Frac :=
  let d := max (pw j.words 15) 1
  Frac.mk' (j.kappaNum * pw j.words 13 * min (intervalCycles c) d : Nat) (j.kappaDen * d)

/-- The current charge of a block of this launch (R307). -/
def currentCharge (j : Job) : Frac := Frac.mk' (j.kappaNum * bits (pw j.words 14) 15 0 : Nat) j.kappaDen

/-- The blocks of a cluster with their launches. -/
def clusterBlocks (s : State) (k : Nat) : List (Nat × Block × Job) :=
  s.blocks.filterMap (fun e => if coreCluster e.2.core = k then (getJob s e.2.job).map (fun j => (e.1, e.2, j)) else none)

/-- The sum of charges of a cluster's resident blocks; a replay releases its block's charge when it leaves (R359). -/
def clusterCharge (s : State) (k : Nat) (f : Job → Frac) : Frac :=
  (clusterBlocks s k).foldl (fun a e => a.add (f e.2.2)) ⟨0, 1⟩

/-- The remaining energy of a cluster (R307). -/
def energyLeft (s : State) (k : Nat) : Frac :=
  (Frac.ofNat (getCluster s k).energy).sub (clusterCharge s k (fun j => energyCharge j (getCluster s k)))

/-- The remaining current of a cluster (R307). -/
def currentLeft (s : State) (k : Nat) : Frac :=
  (Frac.ofNat (getCluster s k).current).sub (clusterCharge s k currentCharge)

/-- A launch that declares nothing (R307). -/
def undeclared (j : Job) : Bool := pw j.words 13 = 0 && bits (pw j.words 14) 15 0 = 0

/-- The charge of one block exceeds a budget outright (R308). -/
def outright (s : State) (j : Job) (k : Nat) : Bool :=
  let c := getCluster s k
  (Frac.ofNat c.energy).lt (energyCharge j c) || (Frac.ofNat c.current).lt (currentCharge j)

/-- A cluster admits a block of this launch, `gone` blocks apart (R307, R308). -/
def admits (s : State) (j : Job) (k : Nat) : Bool :=
  let l := clusterBlocks s k
  if l.any (fun e => e.2.1.alone) then false
  else if undeclared j then true
  else if outright s j k then l.isEmpty
  else (energyCharge j (getCluster s k)).le (energyLeft s k) && (currentCharge j).le (currentLeft s k)

/-! ### Where a block may stand -/

/-- The blocks of a core. -/
def coreBlocks (s : State) (m : Nat) : List (Nat × Block) := s.blocks.filter (fun e => e.2.core = m)

/-- A core takes a block of this launch whole (R53, R206, R236). -/
def coreTakes (s : State) (l : List Word) (m : Nat) : Bool :=
  let bs := coreBlocks s m
  (List.range 4).all (fun q =>
    let held := quarterHeld s m q
    decide (held.length + (quarterCourses l q).length ≤ Config.quarterSlots) &&
    decide ((held.map (·.budget)).sum + quarterNeed l q ≤ Config.quarterRegs))
  && decide ((bs.map (fun e => e.2.alloc)).sum + pkAlloc l ≤ Config.localBytes)
  && (pkTeam l = 0 || bs.all (fun e => e.2.team = 0))

/-- Stack slots in use: of resident courses that have not exited, and of saved ones (R364). -/
def slotsUsed (s : State) (x : Context) : List Nat :=
  s.courses.filterMap (fun e => match getBlock s (e.1 / 32) with
    | some b => if b.asid = x.asid && !(e.2.live == 0#32) then some e.2.stackSlot else none
    | none => none) ++ x.saved.flatMap (fun b => b.slots.map (·.2))

/-- The `n` lowest free stack slots, if there are so many. -/
def freeSlots (s : State) (x : Context) (n : Nat) : Option (List Nat) :=
  let used := slotsUsed s x
  let l := ((List.range x.nc).filter (fun t => !used.contains t)).take n
  if l.length = n then some l else none

/-- Courses resident on a core. -/
def coreLoad (s : State) (m : Nat) : Nat := ((coreBlocks s m).map (fun e => e.2.courses)).sum

/-- The cores of a partition that qualify for a block of this launch. -/
def qualifying (s : State) (j : Job) : List Nat :=
  ((partClusters (getPart s j.part)).filter (fun k => admits s j k)).flatMap (fun k =>
    ((List.range 8).map (8 * k + ·)).filter (coreTakes s j.words))

/-- The better of two cores (R236): larger remaining energy of its cluster, then the lower cluster, then fewer courses,
then the lower core. -/
def betterCore (s : State) (a b : Nat) : Nat :=
  if coreCluster a = coreCluster b then (if coreLoad s b < coreLoad s a then b else a)
  else if (energyLeft s (coreCluster a)).lt (energyLeft s (coreCluster b)) then b else a

/-- The core that the distributor takes (R236). -/
def chooseCore (s : State) (j : Job) : Option Nat :=
  match qualifying s j with
  | [] => none
  | m :: t => some (t.foldl (betterCore s) m)

/-! ### The start of a block -/

/-- The kernel argument record (R39). -/
def argRecord (args : Nat) : List Word :=
  [BitVec.ofNat 32 args, BitVec.ofNat 32 (args / 2 ^ 32), 0x1000#32, 0x400#32, 0x05000000#32, 0x110#32, 0, 0]

/-- The lowest free resident slot of the quarter of course `n`, behind `i` courses that come to it in the same step (R241). -/
def residentSlot (s : State) (m n i : Nat) : Nat :=
  let used := ((quarterHeld s m (n % 4)).filter (fun k => k.live ≠ 0)).map (·.slot)
  ((List.range Config.quarterSlots).filter (fun i => !used.contains i)).getD i 0

/-- Course `n` of a block at its start (R35, R38). -/
def startCourse (s : State) (j : Job) (m n stack : Nat) : Course :=
  let (live, helper) := courseLanes j.words n
  let place := courseTeam j.words n
  { live := live, dead := 0, helper := helper, tilep := 32, fpflags := 0, latch := 0, casualty := 0, contain := false,
    cashdl := 0, traphdl := 0, vregs := [],
    sregs := csetAll 0#32 [] ((argRecord (word64 j.words 4)).zipIdx.map (fun e => (e.2, e.1)))
    preds := [], vspent := 0, sspent := 0,
    path0 := some (newPath (BitVec.ofNat 64 (jobCode j + j.entry)) 0 live 0 none []), path1 := none, preferred := 0,
    depth := 0, stackSlot := stack, longs := [], waitLongs := [], tape := Tape.idle, engErrs := [], engScopes := [],
    budget := courseBudget j.words n, role := courseRole j.words n, team := place.map (·.1), rank := place.map (·.2),
    collectives := 0, slot := residentSlot s m n (n / 4), eligible := 0, starved := false, popFault := none, stopped := false,
    allowance := 0 }

/-- Local store at block start (R235): each word zero or what an earlier block of the context left. -/
def startLocal (s : State) (m : Nat) (asid : BitVec 16) (alloc : Nat) : Cells Byte :=
  match (getCore s m).left with
  | some (a, l) => if a = asid then l.filter (fun e => decide (e.1 < alloc) && Config.freeChoice (s.fresh + e.1 / 4)) else []
  | none => []

/-- The step that a block belongs to when it starts (R230). -/
def startStep (s : State) (j : Job) : Option Word :=
  match (getCtx s j.asid).bind (·.step) with
  | some st => if st.id ≠ 0 && st.id = j.words.getD 20 0 then some st.id else none
  | none => none

/-- Block `index` of a launch on core `m` (R34, R38, R268). -/
def startBlock (s : State) (id : Nat) (j : Job) (m index replays : Nat) : Block :=
  let gx := pw j.words 6
  let gy := pw j.words 7
  { asid := j.asid, part := j.part, job := id, index := index, bx := BitVec.ofNat 32 (index % gx),
    byy := BitVec.ofNat 32 (index / gx % gy), bz := BitVec.ofNat 32 (index / (gx * gy)), core := m,
    courses := pkCourses j.words, team := pkTeam j.words, lastLanes := pkLast j.words, alloc := pkAlloc j.words,
    localMem := startLocal s m j.asid (pkAlloc j.words), localPoison := [], barriers := [], done := false,
    replays := replays, step := startStep s j, bank0 := Bank.zero, bank1 := Bank.zero, collectives := [],
    startCycle := (getCluster s (coreCluster m)).cycles, ran := 0, estimate := none, lastProgress := s.now,
    alone := !undeclared j && outright s j (coreCluster m), replaying := false, replayAt := 0, placedAt := s.now }

/-- A context comes to hold cores (R376). -/
def holdCores (s : State) (asid : BitVec 16) : State :=
  match getCtx s asid with
  | some x => if s.blocks.any (fun e => e.2.asid = asid) then s else setCtx s asid { x with heldSince := s.now }
  | none => s

/-- A cluster whose clock was gated starts at its floor (R310): the floor of its partition. -/
def sensFloor (p : Partition) : Nat :=
  let c := min 84 (bits p.sensctl.toNat 31 24)
  min c (bits p.sensctl.toNat 23 16)

/-- Put a block with its courses on a core, all in one step (R237); its start is an acquire, for LOOSE lines too (R289,
R295). -/
def putBlock (s : State) (id : Nat) (j : Job) (m index replays : Nat) (slots : List Nat) : State :=
  let s := holdCores s j.asid
  let b := startBlock s id j m index replays
  let ks := (List.range b.courses).map (fun n => (n, startCourse s j m n (slots.getD n 0)))
  let (bid, s) := newId s
  let s := setBlock { s with fresh := s.fresh + b.alloc / 4 + 1 } bid b
  acquire (ks.foldl (fun s e => setCourse s bid e.1 e.2) s) m .system true

/-- One block of the launch is placed, in ascending grid index, which is the model's choice of the order that R49 leaves open;
then those that a replay has sent back (R359). Nothing where it cannot be (R236, R364). -/
def placeOne (s : State) (id : Nat) : Option State :=
  match getJob s id with
  | none => none
  | some j =>
    match getCtx s j.asid with
    | none => none
    | some x =>
      match chooseCore s j, freeSlots s x (pkCourses j.words) with
      | some m, some slots =>
        if j.placed < pkBlocks j.words then
          some (putBlock (setJob s id { j with placed := j.placed + 1 }) id j m j.placed 0 slots)
        else match s.waitingBlocks.find? (fun w => w.job = id) with
          | some w => some (putBlock { s with waitingBlocks := s.waitingBlocks.erase w } id j m w.index w.replays slots)
          | none => none
      | _, _ => none

/-- `n` blocks of the launch are placed, or none (R47). -/
def placeMany (s : State) (id : Nat) : Nat → Option State
  | 0 => some s
  | n + 1 => (placeOne s id).bind (fun s => placeMany s id n)

/-- Place the next block of a launch, or all of a COOP launch (R47, R236). -/
def placeNext (s : State) (id : Nat) (j : Job) : Option State :=
  if pkCoop j.words then placeMany s id (pkBlocks j.words) else placeOne s id

/-! ### The ready order -/

/-- Blocks of a launch that are still to be placed. -/
def unplaced (s : State) (id : Nat) (j : Job) : Bool :=
  decide (j.placed < pkBlocks j.words) || s.waitingBlocks.any (fun w => w.job = id)

/-- Saved blocks of a launch that the scheduler is to place again (R379). -/
def savedOf (s : State) (id : Nat) (j : Job) : List SavedBlock :=
  match getCtx s j.asid with
  | some x => if x.hostSaved || x.state == .saving then [] else x.saved.filter (fun b => b.job = id)
  | none => []

/-- A launch is pending (R302): started, with blocks still to be placed, in a context that may place them. -/
def pendingLaunch (s : State) (id : Nat) (j : Job) : Bool :=
  pkType j.words == 1 && j.started && !j.failed && (getPart s j.part).pstate == 1 &&
  match getCtx s j.asid with
  | some x => ctxAlive x && ((x.state == .running && unplaced s id j) ||
      ((x.state == .running || x.state == .saved) && !(savedOf s id j).isEmpty))
  | none => false

/-- The deadline of a launch's step, while it is open (R302 key 2). -/
def launchDeadline (s : State) (j : Job) : Option Int :=
  match (getCtx s j.asid).bind (·.step) with
  | some st => if j.words.getD 20 0 ≠ 0 && st.id = j.words.getD 20 0 then some st.deadline else none
  | none => none

/-- The release time of a launch's next block: of a saved block the time of its save (R379), of one not placed yet the
launch's, of one to be replayed the cycle of its fault (R302, R359). -/
def releaseTime (s : State) (id : Nat) (j : Job) : Nat :=
  if !(savedOf s id j).isEmpty then ((getCtx s j.asid).map (·.savedAt)).getD 0
  else if j.placed < pkBlocks j.words then j.release
  else match s.waitingBlocks.find? (fun w => w.job = id) with
    | some w => w.release
    | none => j.release

/-- Launch `a` comes before launch `b` in the ready order (R302). -/
def before (s : State) (a b : Nat × Job) : Bool :=
  let pa := pkPrio a.2.words
  let pb := pkPrio b.2.words
  if pa ≠ pb then decide (pb < pa)
  else match launchDeadline s a.2, launchDeadline s b.2 with
    | some x, some y => if x ≠ y then decide (x < y) else later
    | some _, none => true
    | none, some _ => false
    | none, none => later
where later : Bool :=
  let ra := releaseTime s a.1 a.2
  let rb := releaseTime s b.1 b.2
  if ra ≠ rb then decide (ra < rb)
  else if a.2.idx ≠ b.2.idx then decide (a.2.idx < b.2.idx)
  else decide (a.2.queue < b.2.queue)

/-- Put a launch at its place. -/
def insertLaunch (s : State) (a : Nat × Job) : List (Nat × Job) → List (Nat × Job)
  | [] => [a]
  | b :: t => if before s a b then a :: b :: t else b :: insertLaunch s a t

/-- The pending launches of a partition in ready order (R302). -/
def readyOrder (s : State) (p : BitVec 3) : List (Nat × Job) :=
  (s.jobs.filter (fun e => e.2.part == p && pendingLaunch s e.1 e.2)).foldl (fun l a => insertLaunch s a l) []

/-- The launches that holding lets place blocks: up to the first that holds (R303). -/
def upToHolding : List (Nat × Job) → List (Nat × Job)
  | [] => []
  | a :: t => if a.2.holding then [a] else a :: upToHolding t

/-- BLOCK_PLACE (R236). -/
def execBlockPlace (pkt : Nat) (s : State) : Host.Outcome State Fault Refusal :=
  match getJob s pkt with
  | none => .next s
  | some j =>
    if !(upToHolding (readyOrder s j.part)).any (fun e => e.1 = pkt) || !(savedOf s pkt j).isEmpty then .next s
    else match placeNext s pkt j with
      | none => .next s
      | some s => match getJob s pkt with
        | some j => .next (setJob s pkt { j with holding := false, firstSince := none })
        | none => .next s

/-- LAUNCH_HOLDING (R303): the first of the ready order counts its time there, and holds after 100 us. -/
def execLaunchHolding (pkt : Nat) (s : State) : Host.Outcome State Fault Refusal :=
  match getJob s pkt with
  | none => .next s
  | some j =>
    if ((readyOrder s j.part).head?.map (·.1)) ≠ some pkt then
      .next (setJob s pkt { j with firstSince := none, holding := j.holding && pendingLaunch s pkt j })
    else match j.firstSince with
      | none => .next (setJob s pkt { j with firstSince := some s.now })
      | some t => .next (if t + 100000 ≤ s.now then setJob s pkt { j with holding := true } else s)

/-! ### Leaving -/

/-- Every course of a block has exited and every command of it has completed (R238). -/
def blockEnded (s : State) (blk : Nat) (b : Block) : Bool :=
  coursesEnded s blk b && s.commands.all (fun e => e.2.blk ≠ blk)

/-- The factor kappa after a block measured `e` nJ (R309). -/
def kappaAfter (j : Job) (e : Nat) : Job :=
  let d := pw j.words 13
  let (n, m) := if d = 0 then (16, 1) else (e, d)
  if n * 4 ≤ 5 * m then j
  else
    let (n, m) := if 16 * m < n then (16, 1) else (n, m)
    if j.kappaNum * m < n * j.kappaDen then { j with kappaNum := n, kappaDen := m } else j

/-- Add to a context's ENERGY (R318). -/
def chargeEnergy (s : State) (asid : BitVec 16) (n : Nat) : State :=
  match getCtx s asid with
  | some x => setCtx s asid { x with energy := (x.energy + n) % 2 ^ 64 }
  | none => s

/-- The charge of a block that leaves is kept for the rest of the control interval (R306). -/
def keepCharge (s : State) (b : Block) : State :=
  match getJob s b.job with
  | none => s
  | some j =>
    let k := coreCluster b.core
    let c := getCluster s k
    let l := Frac.add ⟨c.left.1, c.left.2⟩ (energyCharge j c)
    setCluster s k { c with left := (l.num, l.den) }

/-- A block and its courses are gone from their core; its local store stays behind (R235, R268). -/
def removeBlock (s : State) (blk : Nat) (b : Block) : State :=
  let s := keepCharge s b
  let c := getCore s b.core
  let s := setCore s b.core { c with left := some (b.asid, b.localMem) }
  { s with blocks := del s.blocks blk, courses := s.courses.filter (fun e => e.1 / 32 ≠ blk) }

/-- The metered energy of a block is charged, and kappa may rise (R309, R318). -/
def meterBlock (s : State) (b : Block) : State :=
  let (i, s) := draw s
  let s := chargeEnergy s b.asid (Config.meteredEnergy i)
  match getJob s b.job with
  | some j => setJob s b.job (kappaAfter j (Config.meteredEnergy i))
  | none => s

/-- A block leaves its core (R238); a replayed one waits to be placed again (R359). -/
def leaveBlock (s : State) (blk : Nat) (b : Block) : State :=
  let s := drainCore s b.core
  if b.replaying then
    let s := removeBlock s blk b
    { s with waitingBlocks := s.waitingBlocks ++ [⟨b.job, b.index, b.replays + 1, b.replayAt⟩] }
  else retireJob (removeBlock (meterBlock s b) blk b) b.job

/-- BLOCK_LEAVE (R238). -/
def execBlockLeave (blk : Nat) (s : State) : Host.Outcome State Fault Refusal :=
  match getBlock s blk with
  | none => .next s
  | some b => .next (if blockEnded s blk b then leaveBlock s blk b else s)

end Sys2Proof.Machine
end

