-- ==== Sys2Proof/WellFormed.lean ====
section
/-!
DEFINITION. Which instructions are well formed: a Ralvas instruction whose operands keep every rule that its word
alone decides. `Machine.illFormed` names the rule an ill-formed one breaks.
-/

namespace Sys2Proof

/-- `i` is a Ralvas instruction that has an encoding (R87 to R94). -/
def Instr.wf (i : Instr) : Bool := (Machine.illFormed i).isNone

end Sys2Proof
end

