-- ==== Sys2Proof/Decode.lean ====
section
/-!
DEFINITION. From words to instructions and back: the formats of R87, the opcode map of R93, the packet of R75 with
its mortar word (R78), and the checks made at fetch (R80, R81, R88 to R95). Every decoder is total; what it refuses,
it refuses by name. The encoder below it is written from the same tables.
-/

namespace Sys2Proof

open Machine

/-! ### Fields -/

/-- The register of a 7-bit field (R54). -/
def regOfField (n : Nat) : RegName :=
  if h : n < 96 then .v ⟨n, h⟩ else if h : n < 127 then .s ⟨n - 96, by omega⟩ else .sz

/-- The 7-bit field of a register (R54). -/
def regField : RegName → Nat
  | .v n => n.val
  | .s n => 96 + n.val
  | .sz => 127

/-- The hint of a two-bit field; 0b11 is none (R60, R88). -/
def hintOfField (n : Nat) : Option Hint :=
  match n with
  | 0 => some .plain
  | 1 => some .keep
  | 2 => some .last
  | _ => none

/-- The two-bit field of a hint (R60). -/
def hintField : Hint → Nat
  | .plain => 0
  | .keep => 1
  | .last => 2

/-- A source of a 9-bit field (R87). -/
def srcOfField (n : Nat) : Except IllegalWhy Src :=
  match hintOfField (n / 128 % 4) with
  | some h => .ok ⟨regOfField (n % 128), h⟩
  | none => .error .hint

/-- The 9-bit field of a source (R87). -/
def srcField (s : Src) : Nat := hintField s.hint * 128 + regField s.reg

/-- The record of an RS field (R88). -/
def recOfField (n : Nat) : Except IllegalWhy RecName :=
  if h : n < 3 then .ok ⟨n, h⟩ else .error .blockName

/-- The block that a 7-bit field names: 0x60, 0x68 or 0x70 (R88, R164). -/
def blockOfField (n : Nat) : Except IllegalWhy RecName :=
  match n with
  | 0x60 => .ok 0
  | 0x68 => .ok 1
  | 0x70 => .ok 2
  | _ => .error .blockName

/-- The 7-bit field of a block. -/
def blockField (r : RecName) : Nat := 96 + 8 * r.val

/-- The 32-bit immediate of R80: IMM9 sign-extended, or {X, IMM9} sign-extended. -/
def immOfField (x : Option (BitVec 12)) (k : Nat) : Word :=
  match x with
  | none => BitVec.ofNat 32 (if k < 256 then k else k + (2 ^ 32 - 512))
  | some e =>
    let v := e.toNat * 512 + k
    BitVec.ofNat 32 (if v < 2 ^ 20 then v else v + (2 ^ 32 - 2 ^ 21))

/-- The shortest fields of an immediate: IMM9 alone where it fits (R71). -/
def immField9 (m : Word) : Nat × Option (BitVec 12) :=
  let n := m.toNat
  (n % 512, if n < 256 || 2 ^ 32 - 256 ≤ n then none else some (BitVec.ofNat 12 (n / 512)))

/-- The immediate that stands for a 21-bit code (R134). -/
def immOfCode (c : BitVec 21) : Word := c.signExtend 32

def intCCOf (n : Nat) : Option IntCC :=
  match n with
  | 0 => some .eq | 1 => some .ne | 2 => some .lt | 3 => some .le | 4 => some .gt
  | 5 => some .ge | 6 => some .ltu | 7 => some .leu | 8 => some .gtu | 9 => some .geu
  | _ => none

def intCCField : IntCC → Nat
  | .eq => 0 | .ne => 1 | .lt => 2 | .le => 3 | .gt => 4
  | .ge => 5 | .ltu => 6 | .leu => 7 | .gtu => 8 | .geu => 9

def fpCCOf (n : Nat) : Option FpCC :=
  match n with
  | 0 => some .eq | 1 => some .ne | 2 => some .lt | 3 => some .le
  | 4 => some .gt | 5 => some .ge | 6 => some .ord | 7 => some .un
  | _ => none

def fpCCField : FpCC → Nat
  | .eq => 0 | .ne => 1 | .lt => 2 | .le => 3 | .gt => 4 | .ge => 5 | .ord => 6 | .un => 7

def numFmtOf (n : Nat) : NumFmt :=
  match n with
  | 0 => .fp32 | 1 => .fp16 | 2 => .bf16 | 3 => .i32 | 4 => .n32 | 5 => .i16 | 6 => .i8 | _ => .n8

def numFmtField : NumFmt → Nat
  | .fp32 => 0 | .fp16 => 1 | .bf16 => 2 | .i32 => 3 | .n32 => 4 | .i16 => 5 | .i8 => 6 | .n8 => 7

def roundingOf (n : Nat) : Option Rounding :=
  match n with
  | 0 => some .rne | 1 => some .rz | 2 => some .rp | 3 => some .rm | 4 => some .rna
  | _ => none

def roundingField : Rounding → Nat
  | .rne => 0 | .rz => 1 | .rp => 2 | .rm => 3 | .rna => 4

def quadOpOf (n : Nat) : Option QuadOp :=
  match n with
  | 0 => some .h | 1 => some .v | 2 => some .d | 3 => some .b0 | 4 => some .b1 | 5 => some .b2 | 6 => some .b3
  | _ => none

def quadOpField : QuadOp → Nat
  | .h => 0 | .v => 1 | .d => 2 | .b0 => 3 | .b1 => 4 | .b2 => 5 | .b3 => 6

def redOpOf (n : Nat) : Option RedOp :=
  match n with
  | 0 => some .iadd | 1 => some .imin | 2 => some .imax | 3 => some .umin | 4 => some .umax | 5 => some .iand
  | 6 => some .ior | 7 => some .ixor | 8 => some .fadd | 9 => some .fmin | 10 => some .fmax
  | _ => none

def redOpField : RedOp → Nat
  | .iadd => 0 | .imin => 1 | .imax => 2 | .umin => 3 | .umax => 4 | .iand => 5
  | .ior => 6 | .ixor => 7 | .fadd => 8 | .fmin => 9 | .fmax => 10

def scanOpOf (n : Nat) : Option ScanOp :=
  match n with
  | 0 => some .iadd | 1 => some .iaddx | 2 => some .fadd | 3 => some .imax | 4 => some .imin | 5 => some .ior
  | _ => none

def scanOpField : ScanOp → Nat
  | .iadd => 0 | .iaddx => 1 | .fadd => 2 | .imax => 3 | .imin => 4 | .ior => 5

def atomOpOf (n : Nat) : Option AtomOp :=
  match n with
  | 0 => some .add | 1 => some .sub | 2 => some .imin | 3 => some .imax | 4 => some .umin | 5 => some .umax
  | 6 => some .iand | 7 => some .ior | 8 => some .ixor | 9 => some .xch | 10 => some .cas | 11 => some .fadd
  | _ => none

def atomOpField : AtomOp → Nat
  | .add => 0 | .sub => 1 | .imin => 2 | .imax => 3 | .umin => 4 | .umax => 5
  | .iand => 6 | .ior => 7 | .ixor => 8 | .xch => 9 | .cas => 10 | .fadd => 11

def scopeOf (n : Nat) : Option Scope :=
  match n with
  | 0 => some .course | 1 => some .block | 2 => some .die | 3 => some .device | 4 => some .system
  | _ => none

def scopeField : Scope → Nat
  | .course => 0 | .block => 1 | .die => 2 | .device => 3 | .system => 4

def fenceKindOf (n : Nat) : FenceKind :=
  match n with
  | 0 => .acq | 1 => .rel | 2 => .acqrel | _ => .seq

def fenceKindField : FenceKind → Nat
  | .acq => 0 | .rel => 1 | .acqrel => 2 | .seq => 3

def tapeWidthOf (n : Nat) : Option TapeWidth :=
  match n with
  | 0 => some .w32 | 1 => some .w64 | 2 => some .w16
  | _ => none

def tapeWidthField : TapeWidth → Nat
  | .w32 => 0 | .w64 => 1 | .w16 => 2

/-- A listed code, or the ILLEGAL of an unlisted one (R94). -/
def listed {α : Type} (o : Option α) : Except IllegalWhy α :=
  match o with
  | some a => .ok a
  | none => .error .subop

/-- A field that must hold `v` (R89). -/
def mustBe (n v : Nat) : Except IllegalWhy Unit := if n = v then .ok () else .error .zeroField

/-! ### One word -/

/-- Formats A: two hinted sources (R87). -/
def formA (f : RegName → Src → Src → Instr) (n : Nat) : Except IllegalWhy Instr := do
  let a ← srcOfField (bits n 17 9)
  let b ← srcOfField (bits n 8 0)
  pure (f (regOfField (bits n 24 18)) a b)

/-- Formats I and L: one hinted source and the immediate. -/
def formI (f : RegName → Src → Word → Instr) (x : Option (BitVec 12)) (n : Nat) : Except IllegalWhy Instr := do
  let a ← srcOfField (bits n 17 9)
  pure (f (regOfField (bits n 24 18)) a (immOfField x (bits n 8 0)))

/-- Format I with a zero A-field. -/
def formI0 (f : RegName → Word → Instr) (x : Option (BitVec 12)) (n : Nat) : Except IllegalWhy Instr := do
  mustBe (bits n 17 9) 0
  pure (f (regOfField (bits n 24 18)) (immOfField x (bits n 8 0)))

/-- Format I with D and the A-field zero. -/
def formI00 (x : Option (BitVec 12)) (n : Nat) : Except IllegalWhy Word := do
  mustBe (bits n 24 9) 0
  pure (immOfField x (bits n 8 0))

/-- Format U with a plain sub-op. -/
def formU (f : RegName → Src → Instr) (n : Nat) : Except IllegalWhy Instr := do
  let a ← srcOfField (bits n 17 9)
  pure (f (regOfField (bits n 24 18)) a)

/-- Format U with D and SUB zero. -/
def formU0 (f : Src → Instr) (n : Nat) : Except IllegalWhy Instr := do
  let a ← srcOfField (bits n 17 9)
  mustBe (bits n 24 18) 0
  mustBe (bits n 8 0) 0
  pure (f a)

/-- Format M. -/
def formM (f : RegName → Src → RecName → RegName → Instr) (n : Nat) : Except IllegalWhy Instr := do
  let a ← srcOfField (bits n 17 9)
  let r ← recOfField (bits n 8 7)
  pure (f (regOfField (bits n 24 18)) a r (regOfField (bits n 6 0)))

/-- Format N. -/
def formN (i : Instr) (n : Nat) : Except IllegalWhy Instr := do
  mustBe (bits n 24 0) 0
  pure i

/-- Format E. -/
def formE (f : RecName → BitVec 4 → Bool → Instr) (n : Nat) : Except IllegalWhy Instr := do
  let c ← blockOfField (bits n 24 18)
  mustBe (bits n 12 0) 0
  pure (f c (BitVec.ofNat 4 (bits n 17 14)) (bits n 13 13 == 1))

/-- UNI sub-ops (R106). -/
def uniOf (sub : Nat) : Option (RegName → Src → Instr) :=
  match sub with
  | 0 => some .mov
  | 1 => some .inot
  | 2 => some .ineg
  | 3 => some .iabs
  | 4 => some .popc
  | 5 => some .clz
  | 6 => some .ctz
  | 7 => some .brev
  | 8 => some .bswap
  | 9 => some .sext8
  | 10 => some .sext16
  | 11 => some .zext8
  | 12 => some .zext16
  | _ => none

/-- FUN sub-ops (R121). -/
def funOf (sub : Nat) : Option (RegName → Src → Instr) :=
  match sub with
  | 0 => some .fabs
  | 1 => some .fneg
  | 2 => some .frcp
  | 3 => some .frsq
  | 4 => some .fsqrt
  | 5 => some .fexp2
  | 6 => some .flog2
  | 7 => some .fsinp
  | 8 => some .fcosp
  | 9 => some .ftanh
  | 10 => some .frndn
  | 11 => some .frndz
  | 12 => some .frndp
  | 13 => some .frndm
  | 14 => some .fclass
  | 15 => some .fsat
  | 16 => some .ffrac
  | _ => none

/-- Format V (R185). -/
def voteOf (n : Nat) : Except IllegalWhy Instr := do
  mustBe (bits n 8 0) 0
  let d := bits n 24 18
  let ps := BitVec.ofNat 3 (bits n 17 15)
  let pd := BitVec.ofNat 3 (bits n 14 12)
  match bits n 11 9 with
  | 0 => do mustBe d 127; pure (.voteAny pd ps)
  | 1 => do mustBe d 127; pure (.voteAll pd ps)
  | 2 => do mustBe d 127; pure (.voteUni pd ps)
  | 3 => do mustBe pd.toNat 0; pure (.voteBallot (regOfField d) ps)
  | _ => .error .subop

/-- TCTL (R218). -/
def tctlOf (n : Nat) : Except IllegalWhy Instr := do
  let sub := bits n 3 0
  let d := bits n 24 18
  let af := bits n 17 9
  mustBe (bits n 8 6) 0
  if sub ≠ 0 && bits n 5 4 ≠ 0 then .error .zeroField
  else match sub with
  | 0 => do
    mustBe d 127
    let a ← srcOfField af
    let r ← blockOfField (af % 128)
    pure (if bits n 5 5 = 1 then .tctlRecbeginExt (bits n 4 4 == 1) r a.hint
      else .tctlRecbegin (bits n 4 4 == 1) r a.hint)
  | 1 => do mustBe af 0; pure (.tctlRecend (regOfField d))
  | 2 => do
    let a ← srcOfField af
    let r ← blockOfField (af % 128)
    pure (.tctlRepbegin (regOfField d) r a.hint)
  | 3 => do mustBe d 127; mustBe af 0; pure .tctlRepend
  | 4 => do
    mustBe d 127
    let a ← srcOfField af
    pure (.tctlMark a)
  | 5 => do mustBe d 127; mustBe af 0; pure .tctlFlush
  | 6 => do mustBe af 0; pure (.tctlStatus (regOfField d))
  | _ => .error .subop

/-- TASK and STEP (R222). -/
def taskStepOf (step : Bool) (n : Nat) : Except IllegalWhy Instr := do
  let d := bits n 24 18
  let af := bits n 17 9
  match step, bits n 8 0 with
  | false, 0 => do mustBe d 127; mustBe af 0; pure .taskDone
  | false, 1 => do mustBe d 127; let a ← srcOfField af; pure (.taskSignal a)
  | false, 2 => do let a ← srcOfField af; pure (.taskEnq (regOfField d) a)
  | true, 0 => do let a ← srcOfField af; pure (.stepBegin (regOfField d) a)
  | true, 1 => do let a ← srcOfField af; pure (.stepEnd (regOfField d) a)
  | true, 2 => do let a ← srcOfField af; pure (.stepSlack (regOfField d) a)
  | _, _ => .error .subop

/-- Format C (R107, R118). -/
def icmpOf (f : PredName → IntCC → Src → Src → Instr) (n : Nat) : Except IllegalWhy Instr := do
  let c ← listed (intCCOf (bits n 21 18))
  let a ← srcOfField (bits n 17 9)
  let b ← srcOfField (bits n 8 0)
  pure (f (BitVec.ofNat 3 (bits n 24 22)) c a b)

/-- The formats of R87 by the opcode map of R93; `x` is the extension where the mortar names this slot. -/
def parseOp (op : Nat) (x : Option (BitVec 12)) (n : Nat) : Except IllegalWhy Instr :=
  match op with
  | 0x00 => formN .nop n
  | 0x01 => formA .iadd n
  | 0x02 => formA .isub n
  | 0x03 => formA .imul n
  | 0x04 => formA .imulhs n
  | 0x05 => formA .imulhu n
  | 0x06 => formA .imad n
  | 0x07 => formA .iadds n
  | 0x08 => formA .isubs n
  | 0x09 => formA .imin n
  | 0x0a => formA .imax n
  | 0x0b => formA .umin n
  | 0x0c => formA .umax n
  | 0x0d => formA .iand n
  | 0x0e => formA .ior n
  | 0x0f => formA .ixor n
  | 0x10 => formA .andn n
  | 0x11 => formA .shl n
  | 0x12 => formA .shr n
  | 0x13 => formA .sar n
  | 0x14 => formA .rotl n
  | 0x15 => formA .bfx n
  | 0x16 => formA .bfxs n
  | 0x17 => formA .bfi n
  | 0x18 => formA .dp4s n
  | 0x19 => formA .dp4u n
  | 0x1a => formA .iadd64 n
  | 0x1b => formA .isub64 n
  | 0x1c => formA .imulws n
  | 0x1d => formA .imulwu n
  | 0x1e => formA .shlw n
  | 0x1f => formA .shrw n
  | 0x20 => formI .iaddi x n
  | 0x21 => formI .andi x n
  | 0x22 => formI .ori x n
  | 0x23 => formI .xori x n
  | 0x24 => formI .shli x n
  | 0x25 => formI .shri x n
  | 0x26 => formI .sari x n
  | 0x27 => formI0 .movi x n
  | 0x28 => formI0 .lui x n
  | 0x29 => formI .imuli x n
  | 0x2a => do let f ← listed (uniOf (bits n 8 0)); formU f n
  | 0x2b => icmpOf .icmp n
  | 0x2c => do
    let c ← listed (intCCOf (bits n 21 18))
    let a ← srcOfField (bits n 17 9)
    pure (.icmpi (BitVec.ofNat 3 (bits n 24 22)) c a (immOfField x (bits n 8 0)))
  | 0x2d => icmpOf .icmp64 n
  | 0x2e => formA .sel n
  | 0x2f => do
    mustBe (bits n 12 8) 0
    pure (.plop (BitVec.ofNat 3 (bits n 24 22)) (BitVec.ofNat 3 (bits n 21 19)) (BitVec.ofNat 3 (bits n 18 16))
      (BitVec.ofNat 3 (bits n 15 13)) (BitVec.ofNat 8 (bits n 7 0)))
  | 0x30 => formA .fadd n
  | 0x31 => formA .fsub n
  | 0x32 => formA .fmul n
  | 0x33 => formA .ffma n
  | 0x34 => formA .fnfma n
  | 0x35 => formA .fmin n
  | 0x36 => formA .fmax n
  | 0x37 => do
    let c ← listed (fpCCOf (bits n 21 18))
    let a ← srcOfField (bits n 17 9)
    let b ← srcOfField (bits n 8 0)
    pure (.fcmp (BitVec.ofNat 3 (bits n 24 22)) c a b)
  | 0x38 => formI .faddi x n
  | 0x39 => formI .fmuli x n
  | 0x3a => do
    let c ← listed (fpCCOf (bits n 21 18))
    let a ← srcOfField (bits n 17 9)
    pure (.fcmpi (BitVec.ofNat 3 (bits n 24 22)) c a (immOfField x (bits n 8 0)))
  | 0x3b => formA .hadd2 n
  | 0x3c => formA .hmul2 n
  | 0x3d => formA .hfma2 n
  | 0x3e => formA .badd2 n
  | 0x3f => formA .bmul2 n
  | 0x40 => formA .bfma2 n
  | 0x41 => formA .hmin2 n
  | 0x42 => formA .hmax2 n
  | 0x43 => do let f ← listed (funOf (bits n 8 0)); formU f n
  | 0x44 => do
    let a ← srcOfField (bits n 17 9)
    let r ← listed (roundingOf (bits n 2 0))
    pure (.cvt (regOfField (bits n 24 18)) a (numFmtOf (bits n 8 6)) (numFmtOf (bits n 5 3)) r)
  | 0x45 => formA .pkh n
  | 0x46 => formA .pkb n
  | 0x48 => voteOf n
  | 0x49 => formA .shfi n
  | 0x4a => formA .shfu n
  | 0x4b => formA .shfd n
  | 0x4c => formA .shfx n
  | 0x4d => do
    let a ← srcOfField (bits n 17 9)
    let o ← listed (quadOpOf (bits n 8 0))
    pure (.qsw (regOfField (bits n 24 18)) a o)
  | 0x4e => do
    let a ← srcOfField (bits n 17 9)
    let o ← listed (redOpOf (bits n 8 0))
    pure (.redx (regOfField (bits n 24 18)) a o)
  | 0x4f => do
    let a ← srcOfField (bits n 17 9)
    let o ← listed (scanOpOf (bits n 8 0))
    pure (.scan (regOfField (bits n 24 18)) a o)
  | 0x50 => do
    let a ← srcOfField (bits n 17 9)
    mustBe (bits n 8 0) 127
    pure (.matchLanes (regOfField (bits n 24 18)) a)
  | 0x51 => do let m ← formI00 x n; pure (.tilep m)
  | 0x52 => .ok (.bra (BitVec.ofNat 25 n))
  | 0x53 => formU0 .brx n
  | 0x54 => .ok (.call (BitVec.ofNat 25 n))
  | 0x55 => formU0 .callx n
  | 0x56 => formN .ret n
  | 0x57 => .ok (.rcv (BitVec.ofNat 25 n))
  | 0x58 => formN .join n
  | 0x59 => formN .exit n
  | 0x5a => formN .yield n
  | 0x5b => do let m ← formI00 x n; if m.toNat < 16 then pure (.bar (BitVec.ofNat 4 m.toNat)) else .error .immediate
  | 0x5c => formI .pharr x n
  | 0x5d => formI .phwait x n
  | 0x5e => do let m ← formI00 x n; pure (.proof (m.truncate 21))
  | 0x5f => do let m ← formI00 x n; pure (.trap (m.truncate 21))
  | 0x60 => formM .ldr n
  | 0x61 => formM .str n
  | 0x62 => formM .ldrp n
  | 0x63 => do
    let a ← srcOfField (bits n 17 9)
    let r ← recOfField (bits n 8 7)
    let o ← listed (atomOpOf (bits n 6 0))
    pure (.atr o (regOfField (bits n 24 18)) a r)
  | 0x64 => do
    let a ← srcOfField (bits n 17 9)
    let r ← recOfField (bits n 8 7)
    if bits n 24 18 < 2 then pure (.pref (BitVec.ofNat 1 (bits n 24 18)) a r (regOfField (bits n 6 0)))
    else .error .subop
  | 0x65 => formI .ldl x n
  | 0x66 => formI .stl x n
  | 0x67 => do
    let a ← srcOfField (bits n 17 9)
    mustBe (bits n 8 4) 0
    let o ← listed (atomOpOf (bits n 3 0))
    pure (.atl o (regOfField (bits n 24 18)) a)
  | 0x68 => formI .ldlp x n
  | 0x69 => do
    mustBe (bits n 24 6) 0
    let s ← listed (scopeOf (bits n 2 0))
    pure (.fence (fenceKindOf (bits n 4 3)) s (bits n 5 5 == 1))
  | 0x6a => do
    mustBe (bits n 24 3) 0
    let s ← listed (scopeOf (bits n 2 0))
    pure (.cinv s)
  | 0x6b => do
    let d ← blockOfField (bits n 24 18)
    let a ← srcOfField (bits n 17 9)
    let r ← recOfField (bits n 8 7)
    pure (.recld d a r (regOfField (bits n 6 0)))
  | 0x70 => formE .cpy n
  | 0x71 => formE .gath n
  | 0x72 => do
    let a ← srcOfField (bits n 17 9)
    let d := regOfField (bits n 24 18)
    let c := BitVec.ofNat 3 (bits n 8 6)
    match bits n 5 0 with
    | 0 => pure (.xfmCrc32c d a c)
    | 1 => pure (.xfmHash d a c)
    | 2 => pure (.xfmSort d a c)
    | _ => .error .subop
  | 0x73 => formE .mma n
  | 0x74 => formE .mml n
  | 0x75 => formE .epi n
  | 0x76 => do mustBe (bits n 24 4) 0; pure (.swait (BitVec.ofNat 4 (bits n 3 0)))
  | 0x77 => do
    mustBe (bits n 24 18) 127
    let a ← srcOfField (bits n 17 9)
    let t ← listed (tapeWidthOf (bits n 1 0))
    pure (.trec t (BitVec.ofNat 7 (bits n 8 2)) a)
  | 0x78 => do
    mustBe (bits n 17 9) 0
    let t ← listed (tapeWidthOf (bits n 1 0))
    pure (.tpop t (BitVec.ofNat 7 (bits n 8 2)) (regOfField (bits n 24 18)))
  | 0x79 => tctlOf n
  | 0x7a => .ok (.brr (BitVec.ofNat 25 n))
  | 0x7b => do mustBe (bits n 17 9) 0; pure (.srd (regOfField (bits n 24 18)) (BitVec.ofNat 9 (bits n 8 0)))
  | 0x7c => do
    mustBe (bits n 24 18) 127
    let a ← srcOfField (bits n 17 9)
    pure (.swr (BitVec.ofNat 9 (bits n 8 0)) a)
  | 0x7d => taskStepOf false n
  | 0x7e => taskStepOf true n
  | _ => .error .opcode

/-- The fields of a word (R87). -/
def parseWord (w : Word) (x : Option (BitVec 12)) : Except IllegalWhy Instr :=
  parseOp (w.toNat / 2 ^ 25) x w.toNat

/-- The formats that accept a mortar extension: I, L, and C in ICMPI and FCMPI (R80). -/
def acceptsExt (w : Word) : Bool :=
  [0x20, 0x21, 0x22, 0x23, 0x24, 0x25, 0x26, 0x27, 0x28, 0x29, 0x2c, 0x38, 0x39, 0x3a,
   0x51, 0x5b, 0x5c, 0x5d, 0x5e, 0x5f, 0x65, 0x66, 0x68].contains (w.toNat / 2 ^ 25)

/-- The instruction of one word, or why it is a decode-class ILLEGAL (R91, R94). -/
def decodeWord (w : Word) (x : Option (BitVec 12)) : Except IllegalWhy Instr :=
  if x.isSome && !acceptsExt w then .error .extension
  else match parseWord w x with
    | .error e => .error e
    | .ok i => match illFormed i with
      | some e => .error e
      | none => .ok i

/-! ### A packet -/

/-- One slot of a decoded packet: its instruction, guard, wait and chain bits, and its word. -/
structure SlotCode where
  instr : Instr
  guard : BitVec 4
  wait : Bool
  chain : Bool
  word : Word
  deriving DecidableEq, Repr

/-- A decoded packet and its mortar word (R75). -/
structure PacketCode where
  mortar : Word
  slots : List SlotCode
  deriving DecidableEq, Repr

/-- What the checks at fetch find (R92). -/
inductive FetchFault where
  | illegal (slot : Nat) (why : IllegalWhy)
  | chain (slot : Nat)
  deriving DecidableEq, Repr

/-- The six control bits of slot `k` (R78). -/
def slotCtl (m : Word) (k : Nat) : Nat := bits m.toNat (6 * k + 5) (6 * k)

/-- The extension that the mortar word gives slot `k` (R80). -/
def slotExt (m : Word) (k : Nat) : Option (BitVec 12) :=
  if bits m.toNat 31 30 = k + 1 then some (BitVec.ofNat 12 (bits m.toNat 29 18)) else none

/-- Slot `k` of a packet on its own: its word, its guard and its budget (R91). -/
def decodeSlot (budget : Nat) (m : Word) (k : Nat) (w : Word) : Except IllegalWhy SlotCode :=
  let c := slotCtl m k
  let g := BitVec.ofNat 4 (c / 4)
  if k = 0 && bits m.toNat 31 30 = 0 && bits m.toNat 29 18 ≠ 0 then .error .extension
  else match decodeWord w (slotExt m k) with
    | .error e => .error e
    | .ok i =>
      if !guardOk (guardRule i) g then .error .guardField
      else if !budgetOk budget i then .error .budget
      else .ok ⟨i, g, bits c 1 1 == 1, bits c 0 0 == 1, w⟩

/-- A slot that may follow a flow instruction: NOP with a control field of zero (R95). -/
def emptySlot (s : SlotCode) : Bool := s.instr == .nop && s.guard == 0 && !s.wait && !s.chain

/-- The registers and predicates a slot reads, its guard's predicate among them (R79, R81). -/
def slotReads (s : SlotCode) : List Res := reads s.instr ++ predRes (s.guard.truncate 3)

/-- The last three conditions of R81 between an earlier and a later member of one chained group: pipe classes, a read
of what the earlier one writes, and two writes of one register or predicate. -/
def chainConflict (a b : SlotCode) : Bool :=
  pipeClass a.instr == pipeClass b.instr
    || (slotReads b).any (fun r => (writes a.instr).contains r)
    || (writes b.instr).any (fun r => (writes a.instr).contains r)

/-- A slot may stand in a chained group: by its opcode it is neither NOP nor a flow instruction (R81, R96). -/
def chainable (s : SlotCode) : Bool :=
  let op := s.word.toNat / 2 ^ 25
  op ≠ 0 && !(decide (0x52 ≤ op ∧ op ≤ 0x5f)) && op ≠ 0x7a

/-- Slot `k` is at fault under R81: its own C bit, or a conflict with an earlier member of its group. -/
def chainFault (s : List SlotCode) (k : Nat) : Bool :=
  match s[k]? with
  | none => false
  | some c =>
    let ownBit := c.chain && (k == 2 || !chainable c ||
      match s[k + 1]? with
      | some d => !chainable d
      | none => true)
    let joined (j : Nat) : Bool := match s[j]? with
      | some e => e.chain
      | none => false
    let with1 := k ≥ 1 && joined (k - 1) && (match s[k - 1]? with
      | some e => chainConflict e c
      | none => false)
    let with2 := k ≥ 2 && joined (k - 1) && joined (k - 2) && (match s[k - 2]? with
      | some e => chainConflict e c
      | none => false)
    ownBit || with1 || with2

/-- The slots of a packet one after another: the lowest slot at fault, ILLEGAL before CHAIN within it (R92). -/
def checkSlots (l : List (Except IllegalWhy SlotCode)) (done : List SlotCode) (k : Nat) (all : List SlotCode) :
    Except FetchFault (List SlotCode) :=
  match l with
  | [] => .ok done
  | .error e :: _ => .error (.illegal k e)
  | .ok c :: t =>
    if done.any (fun d => isFlow d.instr) && !emptySlot c then .error (.illegal k .afterFlow)
    else if chainFault all k then .error (.chain k)
    else checkSlots t (done ++ [c]) (k + 1) all

/-- A slot that did not decode shows only its word to its neighbours' chain checks. -/
def slotOrNop (w : Word) : Except IllegalWhy SlotCode → SlotCode
  | .ok c => c
  | .error _ => ⟨.nop, 0, false, false, w⟩

/-- The packet of four words (R75), with the checks made at fetch (R91, R92). -/
def decodePacket (budget : Nat) (m w0 w1 w2 : Word) : Except FetchFault PacketCode :=
  let r := [decodeSlot budget m 0 w0, decodeSlot budget m 1 w1, decodeSlot budget m 2 w2]
  match checkSlots r [] 0 (List.zipWith slotOrNop [w0, w1, w2] r) with
  | .ok s => .ok ⟨m, s⟩
  | .error e => .error e

/-- The slots of the chained group, or the lone slot, that issues from slot `k` (R81). -/
def groupFrom (p : PacketCode) (k : Nat) : List SlotCode :=
  match p.slots[k]? with
  | none => []
  | some a =>
    if !a.chain then [a]
    else match p.slots[k + 1]? with
      | none => [a]
      | some b =>
        if !b.chain then [a, b]
        else match p.slots[k + 2]? with
          | none => [a, b]
          | some c => [a, b, c]

/-! ### The encoder -/

/-- Opcode and the three fields of formats A, I, L and U (R87). -/
def mkWord (op d a b : Nat) : Word := BitVec.ofNat 32 (op * 2 ^ 25 + d * 2 ^ 18 + a * 2 ^ 9 + b)

/-- A word with no extension. -/
def bare (w : Word) : Word × Option (BitVec 12) := (w, none)

def encA (op : Nat) (d : RegName) (a b : Src) : Word × Option (BitVec 12) :=
  bare (mkWord op (regField d) (srcField a) (srcField b))

def encI (op : Nat) (d : RegName) (a : Src) (m : Word) : Word × Option (BitVec 12) :=
  (mkWord op (regField d) (srcField a) (immField9 m).1, (immField9 m).2)

def encI0 (op d : Nat) (m : Word) : Word × Option (BitVec 12) :=
  (mkWord op d 0 (immField9 m).1, (immField9 m).2)

def encU (op : Nat) (d : RegName) (a : Src) (sub : Nat) : Word × Option (BitVec 12) :=
  bare (mkWord op (regField d) (srcField a) sub)

def encM (op : Nat) (d : Nat) (a : Src) (r : RecName) (j : RegName) : Word × Option (BitVec 12) :=
  bare (mkWord op d (srcField a) (r.val * 128 + regField j))

def encB (op : Nat) (off : BitVec 25) : Word × Option (BitVec 12) := bare (BitVec.ofNat 32 (op * 2 ^ 25 + off.toNat))

def encC (op : Nat) (p : PredName) (cc : Nat) (a : Src) (b : Nat) : Word :=
  mkWord op (p.toNat * 16 + cc) (srcField a) b

def encE (op : Nat) (c : RecName) (s : BitVec 4) (k : Bool) : Word × Option (BitVec 12) :=
  bare (BitVec.ofNat 32 (op * 2 ^ 25 + blockField c * 2 ^ 18 + s.toNat * 2 ^ 14 + b2n k * 2 ^ 13))

def encV (d : Nat) (ps pd : PredName) (mode : Nat) : Word × Option (BitVec 12) :=
  bare (BitVec.ofNat 32 (0x48 * 2 ^ 25 + d * 2 ^ 18 + ps.toNat * 2 ^ 15 + pd.toNat * 2 ^ 12 + mode * 2 ^ 9))

def recSrcField (r : RecName) (h : Hint) : Nat := hintField h * 128 + blockField r

/-- The word of a well-formed instruction and the extension its slot needs; a device event has none, and reads as the
all-ones word, which no decoder takes (R94). -/
def encode (i : Instr) : Word × Option (BitVec 12) :=
  match i with
  | .nop => bare 0
  | .iadd d a b => encA 0x01 d a b
  | .isub d a b => encA 0x02 d a b
  | .imul d a b => encA 0x03 d a b
  | .imulhs d a b => encA 0x04 d a b
  | .imulhu d a b => encA 0x05 d a b
  | .imad d a b => encA 0x06 d a b
  | .iadds d a b => encA 0x07 d a b
  | .isubs d a b => encA 0x08 d a b
  | .imin d a b => encA 0x09 d a b
  | .imax d a b => encA 0x0a d a b
  | .umin d a b => encA 0x0b d a b
  | .umax d a b => encA 0x0c d a b
  | .iand d a b => encA 0x0d d a b
  | .ior d a b => encA 0x0e d a b
  | .ixor d a b => encA 0x0f d a b
  | .andn d a b => encA 0x10 d a b
  | .shl d a b => encA 0x11 d a b
  | .shr d a b => encA 0x12 d a b
  | .sar d a b => encA 0x13 d a b
  | .rotl d a b => encA 0x14 d a b
  | .bfx d a b => encA 0x15 d a b
  | .bfxs d a b => encA 0x16 d a b
  | .bfi d a b => encA 0x17 d a b
  | .dp4s d a b => encA 0x18 d a b
  | .dp4u d a b => encA 0x19 d a b
  | .iadd64 d a b => encA 0x1a d a b
  | .isub64 d a b => encA 0x1b d a b
  | .imulws d a b => encA 0x1c d a b
  | .imulwu d a b => encA 0x1d d a b
  | .shlw d a b => encA 0x1e d a b
  | .shrw d a b => encA 0x1f d a b
  | .sel d a b => encA 0x2e d a b
  | .fadd d a b => encA 0x30 d a b
  | .fsub d a b => encA 0x31 d a b
  | .fmul d a b => encA 0x32 d a b
  | .ffma d a b => encA 0x33 d a b
  | .fnfma d a b => encA 0x34 d a b
  | .fmin d a b => encA 0x35 d a b
  | .fmax d a b => encA 0x36 d a b
  | .hadd2 d a b => encA 0x3b d a b
  | .hmul2 d a b => encA 0x3c d a b
  | .hfma2 d a b => encA 0x3d d a b
  | .badd2 d a b => encA 0x3e d a b
  | .bmul2 d a b => encA 0x3f d a b
  | .bfma2 d a b => encA 0x40 d a b
  | .hmin2 d a b => encA 0x41 d a b
  | .hmax2 d a b => encA 0x42 d a b
  | .pkh d a b => encA 0x45 d a b
  | .pkb d a b => encA 0x46 d a b
  | .shfi d a b => encA 0x49 d a b
  | .shfu d a b => encA 0x4a d a b
  | .shfd d a b => encA 0x4b d a b
  | .shfx d a b => encA 0x4c d a b
  | .iaddi d a m => encI 0x20 d a m
  | .andi d a m => encI 0x21 d a m
  | .ori d a m => encI 0x22 d a m
  | .xori d a m => encI 0x23 d a m
  | .shli d a m => encI 0x24 d a m
  | .shri d a m => encI 0x25 d a m
  | .sari d a m => encI 0x26 d a m
  | .imuli d a m => encI 0x29 d a m
  | .faddi d a m => encI 0x38 d a m
  | .fmuli d a m => encI 0x39 d a m
  | .pharr d a m => encI 0x5c d a m
  | .phwait d a m => encI 0x5d d a m
  | .ldl d a m => encI 0x65 d a m
  | .stl d a m => encI 0x66 d a m
  | .ldlp d a m => encI 0x68 d a m
  | .movi d m => encI0 0x27 (regField d) m
  | .lui d m => encI0 0x28 (regField d) m
  | .mov d a => encU 0x2a d a 0
  | .inot d a => encU 0x2a d a 1
  | .ineg d a => encU 0x2a d a 2
  | .iabs d a => encU 0x2a d a 3
  | .popc d a => encU 0x2a d a 4
  | .clz d a => encU 0x2a d a 5
  | .ctz d a => encU 0x2a d a 6
  | .brev d a => encU 0x2a d a 7
  | .bswap d a => encU 0x2a d a 8
  | .sext8 d a => encU 0x2a d a 9
  | .sext16 d a => encU 0x2a d a 10
  | .zext8 d a => encU 0x2a d a 11
  | .zext16 d a => encU 0x2a d a 12
  | .fabs d a => encU 0x43 d a 0
  | .fneg d a => encU 0x43 d a 1
  | .frcp d a => encU 0x43 d a 2
  | .frsq d a => encU 0x43 d a 3
  | .fsqrt d a => encU 0x43 d a 4
  | .fexp2 d a => encU 0x43 d a 5
  | .flog2 d a => encU 0x43 d a 6
  | .fsinp d a => encU 0x43 d a 7
  | .fcosp d a => encU 0x43 d a 8
  | .ftanh d a => encU 0x43 d a 9
  | .frndn d a => encU 0x43 d a 10
  | .frndz d a => encU 0x43 d a 11
  | .frndp d a => encU 0x43 d a 12
  | .frndm d a => encU 0x43 d a 13
  | .fclass d a => encU 0x43 d a 14
  | .fsat d a => encU 0x43 d a 15
  | .ffrac d a => encU 0x43 d a 16
  | .icmp pd c a b => bare (encC 0x2b pd (intCCField c) a (srcField b))
  | .icmpi pd c a m => (encC 0x2c pd (intCCField c) a (immField9 m).1, (immField9 m).2)
  | .icmp64 pd c a b => bare (encC 0x2d pd (intCCField c) a (srcField b))
  | .plop pd pa pb pc l => bare (BitVec.ofNat 32 (0x2f * 2 ^ 25 + pd.toNat * 2 ^ 22 + pa.toNat * 2 ^ 19
      + pb.toNat * 2 ^ 16 + pc.toNat * 2 ^ 13 + l.toNat))
  | .fcmp pd c a b => bare (encC 0x37 pd (fpCCField c) a (srcField b))
  | .fcmpi pd c a m => (encC 0x3a pd (fpCCField c) a (immField9 m).1, (immField9 m).2)
  | .cvt d a s t r => encU 0x44 d a (numFmtField s * 64 + numFmtField t * 8 + roundingField r)
  | .voteAny pd ps => encV 127 ps pd 0
  | .voteAll pd ps => encV 127 ps pd 1
  | .voteUni pd ps => encV 127 ps pd 2
  | .voteBallot d ps => encV (regField d) ps 0 3
  | .qsw d a o => encU 0x4d d a (quadOpField o)
  | .redx d a o => encU 0x4e d a (redOpField o)
  | .scan d a o => encU 0x4f d a (scanOpField o)
  | .matchLanes d a => encU 0x50 d a 127
  | .tilep m => encI0 0x51 0 m
  | .brx a => bare (mkWord 0x53 0 (srcField a) 0)
  | .callx a => bare (mkWord 0x55 0 (srcField a) 0)
  | .bar id => bare (mkWord 0x5b 0 0 id.toNat)
  | .proof c => encI0 0x5e 0 (immOfCode c)
  | .trap c => encI0 0x5f 0 (immOfCode c)
  | .atr o d a r => bare (mkWord 0x63 (regField d) (srcField a) (r.val * 128 + atomOpField o))
  | .pref l a r j => encM 0x64 l.toNat a r j
  | .recld d a r j => encM 0x6b (blockField d) a r j
  | .atl o d a => encU 0x67 d a (atomOpField o)
  | .fence k s e => bare (mkWord 0x69 0 0 (b2n e * 32 + fenceKindField k * 8 + scopeField s))
  | .cinv s => bare (mkWord 0x6a 0 0 (scopeField s))
  | .xfmCrc32c d a c => encU 0x72 d a (c.toNat * 64)
  | .xfmHash d a c => encU 0x72 d a (c.toNat * 64 + 1)
  | .xfmSort d a c => encU 0x72 d a (c.toNat * 64 + 2)
  | .swait s => bare (mkWord 0x76 0 0 s.toNat)
  | .trec w t a => bare (mkWord 0x77 127 (srcField a) (t.toNat * 4 + tapeWidthField w))
  | .tpop w t d => bare (mkWord 0x78 (regField d) 0 (t.toNat * 4 + tapeWidthField w))
  | .tctlRecbegin dr r h => bare (mkWord 0x79 127 (recSrcField r h) (b2n dr * 16))
  | .tctlRecbeginExt dr r h => bare (mkWord 0x79 127 (recSrcField r h) (32 + b2n dr * 16))
  | .tctlRecend d => bare (mkWord 0x79 (regField d) 0 1)
  | .tctlRepbegin o r h => bare (mkWord 0x79 (regField o) (recSrcField r h) 2)
  | .tctlRepend => bare (mkWord 0x79 127 0 3)
  | .tctlMark a => bare (mkWord 0x79 127 (srcField a) 4)
  | .tctlFlush => bare (mkWord 0x79 127 0 5)
  | .tctlStatus d => bare (mkWord 0x79 (regField d) 0 6)
  | .srd d n => bare (mkWord 0x7b (regField d) 0 n.toNat)
  | .swr n a => bare (mkWord 0x7c 127 (srcField a) n.toNat)
  | .taskDone => bare (mkWord 0x7d 127 0 0)
  | .taskSignal a => bare (mkWord 0x7d 127 (srcField a) 1)
  | .taskEnq d a => encU 0x7d d a 2
  | .stepBegin d a => encU 0x7e d a 0
  | .stepEnd d a => encU 0x7e d a 1
  | .stepSlack d a => encU 0x7e d a 2
  | .bra off => encB 0x52 off
  | .call off => encB 0x54 off
  | .rcv off => encB 0x57 off
  | .brr off => encB 0x7a off
  | .ret => bare (mkWord 0x56 0 0 0)
  | .join => bare (mkWord 0x58 0 0 0)
  | .exit => bare (mkWord 0x59 0 0 0)
  | .yield => bare (mkWord 0x5a 0 0 0)
  | .ldr d a r j => encM 0x60 (regField d) a r j
  | .str d a r j => encM 0x61 (regField d) a r j
  | .ldrp d a r j => encM 0x62 (regField d) a r j
  | .cpy c s k => encE 0x70 c s k
  | .gath c s k => encE 0x71 c s k
  | .mma c s k => encE 0x73 c s k
  | .mml c s k => encE 0x74 c s k
  | .epi c s k => encE 0x75 c s k
  | _ => bare 0xFFFFFFFF#32

/-- What the decoder reads from an instruction whose bits are `w`: a Ralvas word of 32 bits in slot 0 of a packet whose
mortar word is zero. The operation rows of the table have no bits of their own (R6, R10). -/
def decodeTableWord (nbits w : Nat) : Option Instr :=
  if nbits ≤ 32 then
    match decodeWord (BitVec.ofNat 32 w) none with
    | .ok i => some i
    | .error _ => none
  else none

end Sys2Proof
end

