-- ==== Sys2Proof/Machine/Tape.lean ====
section
/-!
DEFINITION. The TAPE class (R213 to R220, R345 to R356): appends, pops, and the sub-operations of TCTL. TAPE_STAGE_BARRIER
ends a staging request.
-/

namespace Sys2Proof.Machine

/-- Change the tape of the issuing course. -/
def setTape (s : State) (v : View) (t : Tape) : State := updCourse s v.u.blk v.u.course (fun k => { k with tape := t })

/-- Append a record (R214, R220). -/
def appendTape (s : State) (v : View) (r : TapeRec) : State :=
  let (s, t) := appendRec s v.b.core v.b.asid v.k.tape r
  setTape s v t

/-- Take the newest record out (R215, R217, R218). -/
def popTape (s : State) (v : View) : Option TapeRec × State :=
  match newest s v.b.asid v.k.tape with
  | .record r _ t => (some r, setTape (touchTape s v.b.asid v.k.tape) v t)
  | _ => (none, s)

/-- TREC (R214). -/
def execTrec (w : TapeWidth) (tag : BitVec 7) (a : Src) (s : State) : Host.Outcome State Fault Refusal :=
  runInstr (.trec w tag a) s (fun v =>
    let s := match v.k.tape.mode == .record, trecRecord v w tag a with
      | true, some r => appendTape s v r
      | _, _ => s
    retire s v.u (.trec w tag a) 0)

/-- The value that a record gives a lane, or the course. -/
def recValue (r : TapeRec) (l : Nat) : Double :=
  match r with
  | .lane _ _ m vals => (find? ((lanesOf m).zip vals) l).getD 0
  | .course _ _ v => v
  | _ => 0

/-- TPOP (R215). -/
def execTpop (w : TapeWidth) (tag : BitVec 7) (d : RegName) (s : State) : Host.Outcome State Fault Refusal :=
  runInstr (.tpop w tag d) s (fun v =>
    if isScalar d && v.never then retire s v.u (.tpop w tag d) 0
    else
      match popTape s v with
      | (some r, s) =>
        let l := if w = .w64 then pairLane v d (recValue r) else perLane v d (fun l => (recValue r l).truncate 32)
        retire (writeLong s v.u l) v.u (.tpop w tag d) 0
      | (none, s) => s)

/-- TCTL.recbegin (R218, R356). -/
def execTctlRecbegin (drop : Bool) (rec : RecName) (hint : Hint) (s : State) : Host.Outcome State Fault Refusal :=
  runInstr (.tctlRecbegin drop rec hint) s (fun v =>
    let s := if v.never then s else setTape s v
      { v.k.tape with mode := .record, drop := drop, ovf := false, trunc := false, record := recordWords v.k rec.val,
                      chunk := none, next := 0, seq := 0, kept := 0, last := [], order := v.u.slot + 1 }
    retire s v.u (.tctlRecbegin drop rec hint) 0)

/-- TCTL.recbegin.ext (R220). -/
def execTctlRecbeginExt (drop : Bool) (rec : RecName) (hint : Hint) (s : State) : Host.Outcome State Fault Refusal :=
  runInstr (.tctlRecbeginExt drop rec hint) s (fun v =>
    retire (if v.never then s else setTape s v { v.k.tape with record := recordWords v.k rec.val }) v.u
      (.tctlRecbeginExt drop rec hint) 0)

/-- A chunk header with LAST, and TRUNC where the stream is truncated (R347, R348). -/
def lastHeader (h : List Byte) (trunc : Bool) : List Byte :=
  let n := natOfBytes (h.take 28)
  let n := n + (if bitAt n 121 then 0 else 2 ^ 121) + (if trunc && !bitAt n 122 then 2 ^ 122 else 0)
  let b := bytesOfNat 28 n
  b ++ bytesOfNat 4 (crcStep 0 b).toNat

/-- The chunk that RECEND writes, its index and the tape after (R347). -/
def endStream (s : State) (v : View) : Nat × State × Tape :=
  let t := v.k.tape
  let trunc := t.drop && t.ovf
  match t.chunk with
  | some c =>
    let (s, t) := closeChunk s v.b.core v.b.asid t true trunc
    (c.index, s, t)
  | none =>
    let bs := if t.next = 0 || t.last.isEmpty then chunkBytes 0 0 0 [] true trunc else lastHeader t.last trunc
    let (s, t) := writeChunk s v.b.core v.b.asid t (lastChunk t) bs
    (lastChunk v.k.tape, s, t)

/-- TCTL.recend (R218, R345, R347). -/
def execTctlRecend (d : RegName) (s : State) : Host.Outcome State Fault Refusal :=
  runInstr (.tctlRecend d) s (fun v =>
    if v.never then retire s v.u (.tctlRecend d) 0
    else
      let (n, s, t) := endStream s v
      let s := setTape s v { t with mode := .idle, chunk := none, order := 0 }
      retire (writeLong s v.u (perLane v d (fun _ => BitVec.ofNat 32 (4096 * n)))) v.u (.tctlRecend d) 0)

/-- The tape that REPBEGIN starts (R218, R351, R356). -/
def startReplay (s : State) (v : View) (o : RegName) (rec : RecName) : Tape :=
  let t := { v.k.tape with record := recordWords v.k rec.val }
  let n := (readReg v.k o 0).toNat / 4096
  let image := (readChunk s v.b.asid t n).getD []
  stageAhead s v.b.asid
    { t with mode := .replay, trunc := hdr image 122 122 == 1, err := false, released := 0,
             current := some (newStage n image none), ahead := none, order := v.u.slot + 1 }

/-- TCTL.repbegin (R218, R346, R351). -/
def execTctlRepbegin (o : RegName) (rec : RecName) (hint : Hint) (s : State) : Host.Outcome State Fault Refusal :=
  runInstr (.tctlRepbegin o rec hint) s (fun v =>
    let s := if v.never then s
      else
        let s := acquire s v.b.core (scopeOf (readRecord v.k rec.val).scope) false
        let s := hubTouch s v.b.asid ((readRecord v.k rec.val).base + (readReg v.k o 0).toNat) 4096
        setTape s v (startReplay s v o rec)
    retire s v.u (.tctlRepbegin o rec hint) 0)

/-- TCTL.repend (R218): unpopped records are discarded. -/
def execTctlRepend (s : State) : Host.Outcome State Fault Refusal :=
  runInstr .tctlRepend s (fun v =>
    let s := if v.never || v.k.tape.mode ≠ .replay then s
      else setTape s v { v.k.tape with mode := .idle, current := none, ahead := none, order := 0 }
    retire s v.u .tctlRepend 0)

/-- TCTL.mark (R218). -/
def execTctlMark (a : Src) (s : State) : Host.Outcome State Fault Refusal :=
  runInstr (.tctlMark a) s (fun v =>
    let s := if v.never then s else match v.k.tape.mode with
      | .idle => s
      | .record => appendTape s v (.mark (readReg v.k a.reg 0))
      | .replay => (popTape s v).2
    retire s v.u (.tctlMark a) 0)

/-- TCTL.flush (R218, R347). -/
def execTctlFlush (s : State) : Host.Outcome State Fault Refusal :=
  runInstr .tctlFlush s (fun v =>
    let s := if v.never || v.k.tape.mode ≠ .record then s
      else
        let (s, t) := closeChunk s v.b.core v.b.asid v.k.tape false false
        setTape s v t
    retire s v.u .tctlFlush 0)

/-- Records left in the stream (R218): those not yet popped of the chunk being popped, and its SEQ. -/
def recordsLeft (t : Tape) : Nat :=
  match t.current with
  | none => 0
  | some g => if g.released then g.recs.length + g.seq else hdr g.image 119 108 + hdr g.image 191 128

/-- TCTL.status (R218). -/
def execTctlStatus (d : RegName) (s : State) : Host.Outcome State Fault Refusal :=
  runInstr (.tctlStatus d) s (fun v =>
    if v.never then retire s v.u (.tctlStatus d) 0
    else
      let n := match v.k.tape.mode with
        | .idle => 0
        | .record => v.k.tape.kept
        | .replay => recordsLeft v.k.tape
      retire (writeLong s v.u (perLane v d (fun _ => BitVec.ofNat 32 (min n 0xFFFFFFFF)))) v.u (.tctlStatus d) 0)

/-- A path that waited for the tape goes on: a pop when the chunk it needs has had its barrier, any tape instruction when the unit
can act (R28, R351, R354). -/
def wakeTape (t : Tape) (unitReady : Bool) (p : Path) : Path :=
  match p.park, t.current with
  | .stage, some g => if stageOpen g then p else { p with park := .running }
  | .stage, none => { p with park := .running }
  | .tape, _ => if unitReady then { p with park := .running } else p
  | _, _ => p

/-- A tape unit that stands at a page for a path of this core (R354). -/
def coreStalled (s : State) (m : Nat) : Bool :=
  s.contexts.any (fun x => x.2.faults.any (fun e => e.f.engine && match e.owner with
    | .path blk _ _ => (getBlock s blk).any (fun b => b.core = m)
    | _ => false))

/-- The tape unit of a core can act (R28, R354). -/
def unitReady (s : State) (m : Nat) : Bool := pipeFree s m && !coreStalled s m

/-- The oldest staging request of a course moves on: the transform pipe takes it, or has decoded it and its barrier is signalled
(R28, R353). It answers the cycles for which the pipe is taken. -/
def stageMoves (s : State) (m : Nat) (t : Tape) : Nat × Tape :=
  match (openStage t).map (fun g => (g, g.due)) with
  | some (g, none) =>
    if pipeFree s m then (chunkCycles (stageBytes g),
      updStage t (fun t g => (t, { g with due := some (coreCycle s m + chunkCycles (stageBytes g)) }))) else (0, t)
  | some (_, some d) => (0, if d ≤ coreCycle s m then signalTape t else t)
  | none => (0, t)

/-- TAPE_STAGE_BARRIER (R353). -/
def execTapeStageBarrier (blk c : Nat) (s : State) : Host.Outcome State Fault Refusal :=
  match getCourse s blk c with
  | none => .next s
  | some k =>
    let m := blockCore s blk
    let r := stageMoves s m k.tape
    let w := wakeTape r.2 (unitReady s m)
    let s := setCourse s blk c { k with tape := r.2, path0 := k.path0.map w, path1 := k.path1.map w }
    .next (if r.1 = 0 then s else holdPipe s m r.1)

end Sys2Proof.Machine
end

