-- ==== Sys2Proof/Machine/Select.lean ====
section
/-!
DEFINITION. Fetching a packet (R37, R76, R77, R92, R334) and choosing what a quarter issues (R219, R239 to R242).
PACKET_FETCH and COURSE_STARVED.
-/

namespace Sys2Proof.Machine

/-! ### Fetch -/

/-- What a fetch finds. -/
inductive Fetch where
  | words (l : List Word)
  | fault (f : FaultInfo)
  /-- Every lane of the path dies (R334). -/
  | poison
  deriving DecidableEq, Repr

/-- A word of a packet: where a store has changed it since the launch started, the old or the new value (R77). -/
def mixWord (i : Nat) (old : Option (List Byte)) (new : List Byte) (k : Nat) : Word :=
  let w (l : List Byte) : Word := BitVec.ofNat 32 (natOfBytes ((l.drop (4 * k)).take 4))
  match old with
  | none => w new
  | some o => if w o = w new then w new else if Config.freeChoice (i + k) then w o else w new

/-- Fetch the packet at `pc` for a path with these active lanes (R37, R77). -/
def fetchPacket (s : State) (blk : Nat) (act : Lanes) (pc : Double) : Fetch :=
  match getBlock s blk, blockJob s blk with
  | some b, some j =>
    let code := jobCode j
    if pc.toNat < code + 0x40 || code + j.size ≤ pc.toNat then .fault (plainFault 0x01 act)
    else match translate s b.asid pc.toNat with
      | .page p => .fault { plainFault 0x08 act with info := pc.toNat % 2 ^ 48, detail := b2n p }
      | .fabric .. => .fault { plainFault 0x09 act with info := pc.toNat % 2 ^ 48 }
      | .mem h f =>
        if !f.exec then .fault { plainFault 0x09 act with info := pc.toNat % 2 ^ 48 }
        else if homePoisoned s h 16 then .poison
        else .words ((List.range 4).map (mixWord s.fresh (j.code.getD ((pc.toNat - code) / 16) none) (homeBytes s h 16)))
  | _, _ => .fault (plainFault 0x01 act)

/-- Where a path's lanes are active (R50). -/
def activeOf (k : Course) (p : Path) : Lanes := p.mask &&& k.live

/-- The packet of a path, as fetched or as it would be fetched now, decoded (R92). -/
def pathPacket (s : State) (blk : Nat) (k : Course) (p : Path) : Option PacketCode :=
  let words := match p.fetched with
    | [] => match fetchPacket s blk (activeOf k p) p.pc with
      | .words l => l
      | _ => []
    | l => l
  match words with
  | [m, a, b, c] => match decodePacket k.budget m a b c with
    | .ok x => some x
    | .error _ => none
  | _ => none

/-- The fault of the decode class (R91, R92). -/
def decodeFault (act : Lanes) : FetchFault → FaultInfo
  | .illegal _ _ => plainFault 0x01 act
  | .chain _ => plainFault 0x02 act

/-- The words of a packet pass the checks made at fetch, or the path takes their fault at (P, 0) (R92). -/
def checkFetched (s : State) (blk c slot : Nat) (k : Course) (p : Path) (l : List Word) : State :=
  let bad := match l with
    | [m, x, y, z] => match decodePacket k.budget m x y z with
      | .ok _ => none
      | .error e => some (decodeFault (activeOf k p) e)
    | _ => some (plainFault 0x01 (activeOf k p))
  match bad with
  | none => updPath { s with fresh := s.fresh + 4 } blk c slot (fun p => { p with fetched := l })
  | some f => takeFault (updPath { s with fresh := s.fresh + 4 } blk c slot (fun p => { p with slot := 0 })) blk c slot f true false 3

/-- What a fetch and its walk do to the spans (R331). -/
def touchFetch (s : State) (blk : Nat) (pc : Double) : State :=
  match getBlock s blk with
  | some b => hubSpans s b.asid pc.toNat 16
  | none => s

/-- A path fetches its packet, if it has not; one with a trap delivery still to make makes it instead (R366). -/
def fetchPath (s : State) (blk c slot : Nat) : State :=
  match getCourse s blk c with
  | none => s
  | some k => match getPath k slot with
    | none => s
    | some p =>
      if let some d := p.delivery then resumeDelivery s blk c slot p d
      else if !p.fetched.isEmpty then s
      else
        let s := touchFetch s blk p.pc
        match fetchPacket s blk (activeOf k p) p.pc with
        | .words l => checkFetched s blk c slot k p l
        | .poison => casualty s blk c slot (activeOf k p) 0 p.pc
        | .fault f =>
          if f.cause = 0x08 then takeFault s blk c slot f false false 3
          else takeFault (updPath s blk c slot (fun p => { p with slot := 0 })) blk c slot f true true 3

/-! ### Units (R239) -/

/-- The units an instruction may take: alternatives. -/
def unitsOf (i : Instr) : List Nat :=
  match pipeClass i with
  | .int | .fp => [0, 1]
  | .funPipe => [2]
  | .cvt => [3]
  | .xl => [4]
  | .mem => [5]
  | .flow => [6]
  | .sys => [7]
  | .eng => [8]
  | .tape => [9]
  | .none | .event => []

/-- Cycles an instruction holds its unit for `n` active lanes (R110, R156, R182, R211, R213). -/
def occupancy (i : Instr) (n : Nat) : Nat :=
  let m := if isUniform i then 1 else n
  let beats (w : Nat) : Nat := max 1 (ceilDiv m w)
  match pipeClass i with
  | .funPipe => beats 4
  | .xl => if isUniform i then 1 else match i with
    | .tilep _ => 1
    | _ => 4
  | .int | .fp | .cvt | .mem | .tape => beats 8
  | _ => 1

/-- Cycles for which an XFM holds the transform pipe (R28, R211). -/
def pipeNeeds (i : Instr) (n : Nat) : List (List Nat × Nat) :=
  let m := if isUniform i then 1 else n
  match i with
  | .xfmCrc32c _ _ c | .xfmHash _ _ c | .xfmSort _ _ c => [([10], 2 + ceilDiv m 8 * (c.toNat + 1))]
  | _ => []

/-- Take the units that instructions need in this cycle, if every one is free; `barred` units are not taken (R240, R241). -/
def takeUnits (cycle : Nat) (barred : List Nat) : List (List Nat × Nat) → List Nat → Option (List Nat)
  | [], free => some free
  | (us, occ) :: rest, free =>
    if us.isEmpty then takeUnits cycle barred rest free
    else match us.find? (fun u => decide (free.getD u 0 ≤ cycle) && !barred.contains u) with
      | none => none
      | some u => takeUnits cycle barred rest
          ((List.range 11).map (fun i => if i = u then cycle + occ else free.getD i 0))

/-! ### Eligible paths (R219, R241) -/

/-- The tape lets a path issue: with paths in both slots only the one in order (R219). -/
def tapeLets (k : Course) (slot : Nat) : Bool :=
  k.tape.mode == .idle || (getPath k (1 - slot)).isNone || k.tape.order == slot + 1 || k.tape.order == 3 || k.tape.order == 0

/-- A context lets its courses issue. -/
def ctxLets (x : Context) : Bool :=
  x.state == .running || x.state == .halting || x.state == .halted || x.state == .saving

/-- The course waits for an engine to accept a command that it has issued (R22, R195). -/
def awaitsEngine (k : Course) : Bool :=
  [k.path0, k.path1].any (fun p => match p with
    | some p => match p.park with
      | .acceptance _ _ => true
      | _ => false
    | none => false)

/-- The path in `slot` is eligible (R241). -/
def pathEligible (k : Course) (slot : Nat) : Bool :=
  match getPath k slot with
  | none => false
  | some p => p.park == .running && !p.held && k.waitLongs.isEmpty && !awaitsEngine k && tapeLets k slot
      && (!k.stopped || decide (0 < k.allowance))

/-- The eligible slots of a course, the preferred one first (R242). -/
def eligibleSlots (k : Course) : List Nat := [k.preferred, 1 - k.preferred].filter (pathEligible k)

/-- The next issue unit of a path (R240). -/
def nextUnit (s : State) (blk : Nat) (k : Course) (slot : Nat) : List SlotCode :=
  match getPath k slot with
  | none => []
  | some p => match pathPacket s blk k p with
    | some x => groupFrom x p.slot
    | none => []

/-- What the next issue unit of a path needs. -/
def pathNeeds (s : State) (blk : Nat) (k : Course) (slot : Nat) : List (List Nat × Nat) :=
  let n := match getPath k slot with
    | some p => countLanes (activeOf k p)
    | none => 0
  (nextUnit s blk k slot).flatMap (fun e => (unitsOf e.instr, occupancy e.instr n) :: pipeNeeds e.instr n)

/-- A course that may issue: its block, its number, the course. -/
structure Candidate where
  blk : Nat
  c : Nat
  k : Course
  deriving DecidableEq, Repr

/-- The eligible courses of a quarter in resident slot order (R241). -/
def eligibleCourses (s : State) (m q : Nat) : List Candidate :=
  let l := s.courses.filterMap (fun e =>
    let blk := e.1 / 32
    let c := e.1 % 32
    match getBlock s blk with
    | none => none
    | some b =>
      match getCtx s b.asid with
      | none => none
      | some x =>
        if b.core = m && c % 4 = q && ctxLets x && !b.replaying && !(eligibleSlots e.2).isEmpty then some (⟨blk, c, e.2⟩ : Candidate)
        else none)
  (List.range 16).flatMap (fun i => l.filter (fun x => x.k.slot = i))

/-- The course's path that can issue in this cycle, and the units after it (R242). -/
def readySlot (s : State) (q : Quarter) (barred : List Nat) (x : Candidate) : Option (Nat × List Nat) :=
  (eligibleSlots x.k).findSome? (fun slot => (takeUnits q.cycle barred (pathNeeds s x.blk x.k slot) q.free).map (fun f => (slot, f)))

/-- The longest starved of the candidates; ties go to the lower slot. -/
def longestStarved (l : List Candidate) : Option Candidate :=
  l.foldl (fun (a : Option Candidate) x =>
    if !x.k.starved then a
    else match a with
      | none => some x
      | some y => if y.k.eligible < x.k.eligible then some x else some y) none

/-- What a quarter issues in a cycle: course, path and the units after it (R241); `lost` are the ports that another
quarter takes in this cycle. -/
def pickUnit (s : State) (q : Quarter) (lost : List Nat) (l : List Candidate) : Option (Candidate × Nat × List Nat) :=
  let ready (barred : List Nat) (x : Candidate) : Option (Candidate × Nat × List Nat) :=
    (readySlot s q (lost ++ barred) x).map (fun r => (x, r.1, r.2))
  let order := l.filter (fun x => decide (q.last < x.k.slot)) ++ l.filter (fun x => decide (x.k.slot ≤ q.last))
  match longestStarved l with
  | none => order.findSome? (ready [])
  | some y =>
    match ready [] y with
    | some r => some r
    | none =>
      let barred := (eligibleSlots y.k).head?.map (fun slot => (pathNeeds s y.blk y.k slot).flatMap (·.1))
      (order.filter (fun x => x.k.starved) ++ order.filter (fun x => !x.k.starved)).findSome? (ready (barred.getD []))

/-- The courses of a quarter count a cycle (R241). -/
def countEligible (s : State) (l : List Candidate) (issued : Option Candidate) : State :=
  l.foldl (fun s x => updCourse s x.blk x.c (fun k =>
    if issued.any (fun y => y.blk = x.blk && y.c = x.c) then { k with eligible := 0, starved := false }
    else { k with eligible := k.eligible + 1 })) s

/-- A quarter as it takes a cycle: the number of its cluster's cycle, its own units, and its core's ports (R239, R240). -/
def quarterNow (s : State) (m q : Nat) : Quarter :=
  let core := getCore s m
  let x := core.quarters.getD q Quarter.reset
  { x with cycle := (getCluster s (coreCluster m)).cycles, free := (List.range 8).map (fun u => x.free.getD u 0) ++ core.ports.map (·.1) }

/-- A choice takes the core's port `u`. -/
def takesPort (x : Quarter) (r : Candidate × Nat × List Nat) (u : Nat) : Bool := r.2.2.getD u 0 ≠ x.free.getD u 0

/-- A chunk waits for the transform pipe of a core: no XFM takes it (R28). -/
def chunkWaits (s : State) (m : Nat) : Bool :=
  s.courses.any (fun e => blockCore s (e.1 / 32) = m && (getBlock s (e.1 / 32)).isSome && ((openStage e.2.tape).any (fun g => g.due.isNone)
    || [e.2.path0, e.2.path1].any (fun p => p.any (fun p => p.park == .tape))))

/-- The units that a quarter may not take in this cycle, whatever they are free of. -/
def barredUnits (s : State) (m : Nat) : List Nat := if chunkWaits s m then [10] else []

/-- Quarter `q` has still to take this cycle and would take port `u` in it. -/
def contends (s : State) (m u q : Nat) : Bool :=
  let x := quarterNow s m q
  decide (((getCore s m).quarters.getD q Quarter.reset).cycle < x.cycle) &&
    (pickUnit s x (barredUnits s m) (eligibleCourses s m q)).any (fun r => takesPort x r u)

/-- The quarter that a port serves in this cycle: the first that contends after the one it served last (R239). -/
def portServes (s : State) (m u : Nat) : Option Nat :=
  let last := ((getCore s m).ports.getD (u - 8) (0, 3)).2
  [1, 2, 3, 4].findSome? (fun i => if contends s m u ((last + i) % 4) then some ((last + i) % 4) else none)

/-- The ports that quarter `q`'s choice takes and that serve another quarter in this cycle. -/
def lostPorts (s : State) (m q : Nat) (r : Candidate × Nat × List Nat) : List Nat :=
  [8, 9, 10].filter (fun u => takesPort (quarterNow s m q) r u && (portServes s m u).any (· ≠ q))

/-- What a quarter issues in its cycle, the ports that other quarters take left aside (R239, R241). -/
def chooseUnit (s : State) (m q : Nat) (l : List Candidate) : Option (Candidate × Nat × List Nat) :=
  match pickUnit s (quarterNow s m q) (barredUnits s m) l with
  | none => none
  | some r =>
    match lostPorts s m q r with
    | [] => some r
    | lost =>
      match pickUnit s (quarterNow s m q) (barredUnits s m ++ lost) l with
      | none => none
      | some r2 => if (lostPorts s m q r2).isEmpty then some r2 else pickUnit s (quarterNow s m q) [8, 9, 10] l

/-- The quarter after a cycle, and the ports that it has taken. -/
def advanceQuarter (s : State) (m q : Nat) (issued : Option (Candidate × Nat × List Nat)) : State :=
  let core := getCore s m
  let n := (getCluster s (coreCluster m)).cycles
  match issued with
  | some (y, _, f) => setCore s m { core with
      quarters := modifyAt core.quarters q (fun x => { x with last := y.k.slot, free := f.take 8, cycle := n })
      ports := core.ports.zipIdx.map (fun e => if f.getD (8 + e.2) 0 ≠ e.1.1 then (f.getD (8 + e.2) 0, q) else e.1) }
  | none => setCore s m { core with quarters := modifyAt core.quarters q (fun x => { x with cycle := n }) }

/-- Quarters in the order in which they take cycles: four times the core, plus the quarter. -/
def quarterOrder (s : State) : List Nat :=
  let qs := ((s.courses.filterMap (fun e => (getBlock s (e.1 / 32)).map (fun b => 4 * b.core + e.1 % 32 % 4))).eraseDups)
  let after := qs.filter (fun x => decide (s.turn < x))
  let before := qs.filter (fun x => decide (x ≤ s.turn))
  let sort (l : List Nat) : List Nat := l.foldr (fun a acc => acc.takeWhile (· < a) ++ a :: acc.dropWhile (· < a)) []
  sort after ++ sort before

/-- The quarter that takes the next cycle: the first after the last one with an eligible course. -/
def nextQuarter (s : State) : Option Nat := (quarterOrder s).find? (fun x => !(eligibleCourses s (x / 4) (x % 4)).isEmpty)

/-- What issues next in the machine. -/
def nextIssue (s : State) : Option (Nat × Candidate × Nat × List Nat) :=
  match nextQuarter s with
  | none => none
  | some x =>
    let l := eligibleCourses s (x / 4) (x % 4)
    (chooseUnit s (x / 4) (x % 4) l).map (fun r => (x, r))

/-- PACKET_FETCH (R92): the path that issues next fetches its packet. -/
def execPacketFetch (s : State) : Host.Outcome State Fault Refusal :=
  match nextIssue s with
  | some (_, x, slot, _) => .next (fetchPath s x.blk x.c slot)
  | none => .next s

/-- COURSE_STARVED (R241). -/
def execCourseStarved (blk c : Nat) (s : State) : Host.Outcome State Fault Refusal :=
  .next (updCourse s blk c (fun k => if 64 ≤ k.eligible then { k with starved := true } else k))

end Sys2Proof.Machine
end

