-- ==== Sys2Proof/Machine/Time.lean ====
section
/-!
DEFINITION. The passing of time: SR_TIME (R67), the cycles of cluster clocks (R64, R311, R403), and the quarter-cycles of
a sensitivity window (R312), and the watchdog's clock (R386).
-/

namespace Sys2Proof.Machine

/-- Rate of a cluster clock in MHz (R311, R403): stretched, half of it. -/
def clockRate (c : Cluster) : Nat := (600 + 25 * c.clock) / (if c.stretched then 2 else 1)

/-- Clusters that hold a block: their clocks run (R310). -/
def runningClusters (s : State) : List Nat := (s.blocks.map (fun e => coreCluster e.2.core)).eraseDups

/-- The path stands at an SWAIT. -/
def atSwait (s : State) (blk : Nat) (k : Course) (slot : Nat) : Bool := (nextUnit s blk k slot).any (fun e => match e.instr with
  | .swait .. => true
  | _ => false)

/-- The path in `slot` is parked for an issue stall (R312). -/
def idlePath (s : State) (blk : Nat) (k : Course) (slot : Nat) : Bool :=
  match getPath k slot with
  | none => true
  | some p => match p.park with
    | .barrier _ | .phase .. | .continuation _ | .arrival | .submission => true
    | .commands .. => atSwait s blk k slot
    | _ => false

/-- Every path of a course is parked for an issue stall. -/
def idleCourse (s : State) (blk : Nat) (k : Course) : Bool := k.waitLongs.isEmpty && idlePath s blk k 0 && idlePath s blk k 1

/-- A path waits for acknowledgements (R179). -/
def awaitsAcksNow (s : State) (p : Path) : Bool :=
  match p.park with
  | .commands _ acks | .longs _ acks => !acksIn s acks
  | _ => false

/-- A course waits at a marker for a load or atomic served outside the core, or for acknowledgements (R312). -/
def memoryWait (s : State) (k : Course) : Bool :=
  k.longs.any (fun w => w.memory && k.waitLongs.contains w.id) || (k.path0.toList ++ k.path1.toList).any (awaitsAcksNow s)

/-- The courses of resident blocks on quarter `q` of core `m`, with their blocks. -/
def quarterCoursesOf (s : State) (m q : Nat) : List (Nat × Course) :=
  s.courses.filterMap (fun e => match getBlock s (e.1 / 32) with
    | some b => if b.core = m && e.1 % 32 % 4 = q then some (e.1 / 32, e.2) else none
    | none => none)

/-- The arrays or the epilogue pipe of a core are at work. -/
def arraysBusy (s : State) (m : Nat) : Bool :=
  s.commands.any (fun e => cmdCore s e.2 = m && e.2.begun && !e.2.done && (e.2.op = 0x73 || e.2.op = 0x74 || e.2.op = 0x75))

/-- The quarter's courses make a memory stall or an issue stall of its candidate quarter-cycles (R312). -/
def quarterWaits (s : State) (m q : Nat) : Bool :=
  let l := quarterCoursesOf s m q
  !arraysBusy s m && (l.any (fun e => memoryWait s e.2) || l.all (fun e => idleCourse s e.1 e.2))

/-- The cycle from which no unit of R239 is occupied by the quarter's instructions. -/
def quarterFree (s : State) (m q : Nat) : Nat :=
  ((getCore s m).ports.filter (fun e => e.2 = q)).foldl (fun n e => max n e.1)
    (((getCore s m).quarters.getD q Quarter.reset).free.foldl max 0)

/-- Of `w` quarter-cycles of quarter `q`, in 10^-9, those that count as no stall: all of them, or those until its units are free
(R312). -/
def quarterBusy (s : State) (m q w : Nat) : Nat :=
  let c := getCluster s (coreCluster m)
  if quarterWaits s m q then min w (quarterFree s m q * 10 ^ 9 - (c.cycles * 10 ^ 9 + c.carry)) else w

/-- The cores of a cluster that hold a block. -/
def coresHeld (s : State) (k : Nat) : List Nat :=
  ((s.blocks.filter (fun e => coreCluster e.2.core = k)).map (fun e => e.2.core)).eraseDups

/-- Of `w` cycles of a cluster, in 10^-9, the quarter-cycles that count as no stall. -/
def clusterBusy (s : State) (k w : Nat) : Nat :=
  ((coresHeld s k).flatMap (fun m => [0, 1, 2, 3].map (fun q => quarterBusy s m q w))).sum

/-- A cluster whose clock runs lives through `f` fs. -/
def runCluster (s : State) (f k : Nat) : State :=
  let c := getCluster s k
  let w := c.carry + f * clockRate c
  setCluster s k { c with cycles := c.cycles + w / 10 ^ 9, carry := w % 10 ^ 9,
                          busy := c.busy + clusterBusy s k (f * clockRate c) }

/-- A path of the block waits for an access to a remote device that is in recovery (R387). -/
def awaitsRecovery (s : State) (blk : Nat) : Bool :=
  s.remotes.any (fun e => decide (s.now < cget 0 s.recovering e.2.device) && match e.2.owner with
    | .lane b _ _ _ _ => b == blk
    | _ => false)

/-- Time that the watchdog does not count for a block (R386, R387): its context is halted, a path is parked on a host
fault, or a path waits on a remote device in recovery. -/
def watchExempt (s : State) (blk : Nat) (b : Block) : Bool :=
  (match getCtx s b.asid with
    | some x => x.state == .halted || x.state == .halting
    | none => true) ||
  awaitsRecovery s blk ||
  (blockCourses s blk).any (fun c => match getCourse s blk c with
    | some k => (k.path0.toList ++ k.path1.toList).any (fun p => match p.park with
        | .fault _ => true
        | _ => false)
    | none => false)

/-- The blocks live through `n` ns. -/
def runBlocks (s : State) (n : Nat) : State :=
  { s with blocks := s.blocks.map (fun e =>
      if watchExempt s e.1 e.2 then (e.1, { e.2 with lastProgress := e.2.lastProgress + n }) else e) }

/-- The time in fs. -/
def clockFs (s : State) : Nat := s.now * 10 ^ 6 + s.frac

/-- `f` fs pass. -/
def passFs (s : State) (f : Nat) : State :=
  if f = 0 then s
  else
    let t := clockFs s + f
    let s := runBlocks ((runningClusters s).foldl (fun s k => runCluster s f k) s) (t / 10 ^ 6 - s.now)
    { s with now := t / 10 ^ 6, frac := t % 10 ^ 6 }

/-- `n` ns pass. -/
def passTime (s : State) (n : Nat) : State := passFs s (n * 10 ^ 6)

/-- A round in which each quarter takes a cycle: a cycle of the fastest clock that runs. -/
def roundFs (s : State) : Nat := ceilDiv (10 ^ 9) ((runningClusters s).foldl (fun m k => max m (clockRate (getCluster s k))) 600)

end Sys2Proof.Machine
end

