-- ==== Sys2Proof/Machine/Context.lean ====
section
/-!
DEFINITION. Contexts and their host: stopping paths (R368, R377), CTXCTL (R389, R390), answers to page requests (R374),
pre-emption and time slices (R375, R376), creation (R395), accounting (R396), withdrawal of translations (R397), the
watchdog and remote recovery (R386, R387, R401).
-/

namespace Sys2Proof.Machine

/-! ### Stopping paths -/

/-- The courses of a context's resident blocks: keys and slots of their paths. -/
def ctxPaths (s : State) (asid : BitVec 16) : List (Nat × Nat × Nat) :=
  s.courses.flatMap (fun e => match getBlock s (e.1 / 32) with
    | some b => if b.asid = asid && !b.replaying then
        ([0, 1].filter (fun i => (getPath e.2 i).isSome)).map (fun i => (e.1 / 32, e.1 % 32, i)) else []
    | none => [])

/-- A remote atomic or TASK.signal whose request has gone out: it is completed before its path is saved (R168). -/
def remoteOnce (s : State) (blk : Nat) (k : Course) (slot : Nat) (p : Path) : Bool :=
  !p.remotes.isEmpty && (nextUnit s blk k slot).any (fun c => match c.instr with
    | .atr .. | .taskSignal .. => true
    | _ => false)

/-- A save stops a path at this park at once (R377). -/
def stoppingPark : Park → Bool
  | .running | .rejoin | .stage | .tape | .acceptance _ false => false
  | _ => true

/-- A save stops the path now: at a park that it stops at, or by force (R377). -/
def savePath (s : State) (force : Bool) (blk c slot : Nat) : Bool :=
  match getCourse s blk c with
  | none => false
  | some k => match getPath k slot with
    | none => false
    | some p => !p.held && (stoppingPark p.park || ((force || k.stopped) && p.park != .rejoin)) && !remoteOnce s blk k slot p

/-- A command that no engine has accepted is abandoned with its issue, which is made again on resume (R272, R378). -/
def dropUnaccepted (s : State) (p : Path) : State :=
  match p.park with
  | .acceptance id _ => { s with commands := del s.commands id }
  | _ => s

/-- The requests of a path's loads are discarded (R168). -/
def dropLoads (s : State) (blk c slot : Nat) : State :=
  dropRemotes s (fun o => match o with
    | .lane b n i _ _ => b == blk && n == c && i == slot
    | _ => false)

/-- A stopped path: an instruction that has waited for remote data or for an engine issues again. -/
def heldPath (p : Path) : Path :=
  match p.park with
  | .acceptance .. => { p with held := true, park := .running, waited := [], latched := none, remotes := [] }
  | _ => { p with held := true, remotes := [] }

/-- Stop a path for a save, its pending long writes completed (R368, R377). -/
def holdPath (s : State) (blk c slot : Nat) : State :=
  let s := completePath s blk c slot
  let s := match (getCourse s blk c).bind (fun k => getPath k slot) with
    | some p => dropLoads (dropUnaccepted s p) blk c slot
    | none => s
  updPath s blk c slot heldPath

/-- A halted course that has still to take the answer of a remote atomic may issue it (R168). -/
def lendAllowance (s : State) (blk c slot : Nat) : State :=
  updCourse s blk c (fun k => match getPath k slot with
    | some p => if k.stopped && p.park = .running && remoteOnce s blk k slot p then { k with allowance := 1 } else k
    | none => k)

/-- Collectives that have not been accepted are abandoned (R272). -/
def dropCollectives (s : State) (asid : BitVec 16) : State :=
  { s with blocks := s.blocks.map (fun e =>
      if e.2.asid = asid then (e.1, { e.2 with collectives := e.2.collectives.filter (·.formed) }) else e) }

/-- A save stops what it can stop now (R272, R377). -/
def stopPaths (s : State) (asid : BitVec 16) (force : Bool) : State :=
  dropCollectives ((ctxPaths s asid).foldl (fun s e =>
    if savePath s force e.1 e.2.1 e.2.2 then holdPath s e.1 e.2.1 e.2.2 else lendAllowance s e.1 e.2.1 e.2.2) s) asid

/-- When a save is forced (R377): PREDL, as it is in force (R392). -/
def saveLimit (s : State) (x : Context) : Nat := x.saveFrom + 1000 * bits (getPart s x.part).ptimeIn.toNat 35 20

/-- A save starts (R377). -/
def startSave (s : State) (x : Context) (host : Bool) : State :=
  stopPaths (setCtx s x.asid { x with state := .saving, saveFrom := s.now, hostSaved := host, rivalSince := none }) x.asid false

/-- SAVE_DEADLINE (R377): what has come to a stopping park is stopped; at the deadline every path is. -/
def execSaveDeadline (asid : BitVec 16) (s : State) : Host.Outcome State Fault Refusal :=
  match getCtx s asid with
  | some x => .next (if x.state = .saving then stopPaths s asid (decide (saveLimit s x ≤ s.now)) else s)
  | none => .next s

/-! ### CTXCTL -/

/-- The ASID in [63:48] of a write. -/
def asidField (v : Double) : BitVec 16 := BitVec.ofNat 16 (bits v.toNat 63 48)

/-- CTXCTL writes are taken (R391, R393). -/
def ctxctlOpen (s : State) (p : BitVec 3) : Bool := windowOpen s p && !resetting s p

/-- CTXSTAT shows the context that a CTXCTL write names (R389). -/
def selectCtx (s : State) (p : BitVec 3) (v : Double) : State := setPart s p { getPart s p with ctxsel := asidField v }

/-- A CTXCTL write with this OP acts on the context that it names (R389). -/
def onContext (p : BitVec 3) (v : Double) (op : Nat) (s : State) (f : State → Context → State) : State :=
  if !ctxctlOpen s p || bits v.toNat 3 0 ≠ op then s
  else
    let s := selectCtx s p v
    match partCtx s p (asidField v) with
    | some x => f s x
    | none => s

/-- Change every live course of a context. -/
def mapCtxCourses (s : State) (asid : BitVec 16) (f : Course → Course) : State :=
  { s with courses := s.courses.map (fun e => match getBlock s (e.1 / 32) with
      | some b => if b.asid = asid && !(e.2.live == 0#32) then (e.1, f e.2) else e
      | none => e) }

/-- The first path of a context's lowest block and course. -/
def firstPath (s : State) (asid : BitVec 16) : Option (Nat × Nat × Nat) := (ctxPaths s asid).head?

/-- A path that a deferred save had stopped: one that waited for remote data or for its team issues again (R375). -/
def releasePath (p : Path) : Path :=
  if !p.held then p
  else match p.park with
    | .remote | .arrival => { p with held := false, park := .running, waited := [], latched := none }
    | _ => { p with held := false }

/-- A halted course: it counts no cycles towards being starved (R241). -/
def haltCourse (k : Course) : Course :=
  { k with stopped := true, allowance := 0, eligible := 0, starved := false }

/-- The DEBUG record of a halt names the first course stopped (R390). -/
def haltRecord (s : State) (asid : BitVec 16) : State :=
  match firstPath s asid with
  | none => s
  | some (blk, c, slot) =>
    let pos := match (getCourse s blk c).bind (fun k => getPath k slot) with
      | some p => pathPos s blk p
      | none => 0
    courseRecord s blk c slot (plainFault 0x16 0) pos false

/-- The state of a context that is being halted: a save that the host asked for goes on; one for pre-emption waits until the
context goes on (R375). -/
def haltState (x : Context) : CtxState :=
  if x.state = .removed then .removed else if x.state = .saving && x.hostSaved then .saving else .halting

/-- HALT stops every course, with its pending long writes completed (R368), and writes one DEBUG record (R390). -/
def haltContext (s : State) (x : Context) : State :=
  let s := (ctxPaths s x.asid).foldl (fun s e => completePath s e.1 e.2.1 e.2.2) s
  let free (p : Path) : Path := if x.hostSaved then p else releasePath p
  let s := mapCtxCourses s x.asid (fun k => { haltCourse k with path0 := k.path0.map free, path1 := k.path1.map free })
  haltRecord (match getCtx s x.asid with
    | some y => setCtx s x.asid { y with state := haltState y }
    | none => s) x.asid

/-- CTXCTL HALT (R390): it does nothing to a context that is halted already, or that the host has saved. -/
def execCtxctlHalt (p : BitVec 3) (v : Double) (s : State) : Host.Outcome State Fault Refusal :=
  .next (onContext p v 1 s (fun s x =>
    if x.state = .running || x.state = .saving || (x.state = .saved && !x.hostSaved) then haltContext s x else s))

/-- HALT_COMPLETE (R390): every course has stopped. -/
def execHaltComplete (asid : BitVec 16) (s : State) : Host.Outcome State Fault Refusal :=
  match getCtx s asid with
  | some x => .next (if x.state = .halting then setCtx s asid { x with state := .halted } else s)
  | none => .next s

/-- The continuation parks of stopped paths whose commands have completed end (R195). -/
def endStoppedWaits (s : State) (asid : BitVec 16) : State :=
  (ctxPaths s asid).foldl (fun s e =>
    match (getCourse s e.1 e.2.1).bind (fun k => getPath k e.2.2) with
    | some p => match p.park with
      | .continuation id => if (getCmd s id).isNone then endContinuation s e.1 e.2.1 e.2.2 id .system else s
      | _ => s
    | none => s) s

/-- A path that goes on after a halt fetches its packet again (R76). -/
def refetch (p : Path) : Path := { p with fetched := [] }

/-- A halted context goes on (R390): one whose blocks are all saved waits for the scheduler to restore them. -/
def resumeHalted (s : State) (x : Context) : State :=
  let y : CtxState := if x.saved.isEmpty || s.blocks.any (fun e => e.2.asid = x.asid) then .running else .saved
  endStoppedWaits (mapCtxCourses (setCtx s x.asid { x with state := y }) x.asid
    (fun k => { k with stopped := false, allowance := 0, path0 := k.path0.map refetch, path1 := k.path1.map refetch })) x.asid

/-- CTXCTL RESUME (R390): a context that the host saved becomes one that the scheduler restores. -/
def execCtxctlResume (p : BitVec 3) (v : Double) (s : State) : Host.Outcome State Fault Refusal :=
  .next (onContext p v 2 s (fun s x => match x.state with
    | .halting | .halted => resumeHalted s x
    | .saved => setCtx s x.asid { x with hostSaved := false }
    | _ => s))

/-- CTXCTL STEP (R390): each halted course may issue one unit. -/
def execCtxctlStep (p : BitVec 3) (v : Double) (s : State) : Host.Outcome State Fault Refusal :=
  .next (onContext p v 3 s (fun s x =>
    if x.state = .halted then mapCtxCourses s x.asid (fun k =>
      { k with allowance := 1, path0 := k.path0.map refetch, path1 := k.path1.map refetch }) else s))

/-- CTXCTL SAVE (R390): of a context already saved or being saved, it makes the save the host's. -/
def execCtxctlSave (p : BitVec 3) (v : Double) (s : State) : Host.Outcome State Fault Refusal :=
  .next (onContext p v 4 s (fun s x => match x.state with
    | .running | .halting | .halted => startSave s x true
    | .saving | .saved => setCtx s x.asid { x with hostSaved := true }
    | .removed => s))

/-- REMOVE: R388 with cause DEBUG (R390). -/
def debugRemove (s : State) (x : Context) : State := removeContext s x.asid (plainFault 0x16 0) 0 0 0 0 false

/-- CTXCTL REMOVE (R390). -/
def execCtxctlRemove (p : BitVec 3) (v : Double) (s : State) : Host.Outcome State Fault Refusal :=
  .next (onContext p v 5 s debugRemove)

/-- A packet of a removed context that will still complete: a copy or a signal under way, or a launch all of whose blocks
are done (R388). -/
def stillCompletes (j : Job) : Bool :=
  j.started && !j.failed && (j.completed || pkType j.words == 2 || pkType j.words == 3 || launchDone j)

/-- Discard the packets that `sel` selects and that will not complete (R390). -/
def discardDead (s : State) (sel : Job → Bool) : State :=
  let out (j : Job) : Bool := sel j && !stillCompletes j
  let s := s.jobs.foldl (fun s e => if out e.2 && !e.2.failed then freeOwn s e.2 else s) s
  { s with jobs := s.jobs.filter (fun e => !out e.2) }

/-- DESTROY (R390): removal, the end of every queue of the ASID, an empty submission list. -/
def destroyContext (s : State) (x : Context) : State :=
  let s := debugRemove s x
  let s := match getCtx s x.asid with
    | some y => setCtx s x.asid { y with destroying := true, subs := [] }
    | none => s
  let s := s.queues.foldl (fun s e => if e.2.asid = x.asid then
      closeQueue s (BitVec.ofNat 3 (e.1 / 256)) (e.1 % 256) e.2 else s) s
  dropClosed (discardDead s (fun j => j.asid == x.asid)) x.asid

/-- CTXCTL DESTROY (R390). -/
def execCtxctlDestroy (p : BitVec 3) (v : Double) (s : State) : Host.Outcome State Fault Refusal :=
  .next (onContext p v 6 s (fun s x => if x.destroying then s else destroyContext s x))

/-! ### Answers to page requests (R374) -/

/-- The outstanding fault that a PGDONE write names, with its context. -/
def namedFault (s : State) (p : BitVec 3) (v : Double) : Option (Context × OpenFault) :=
  match getCtx s (asidField v) with
  | none => none
  | some x => if x.part = p then (x.faults.find? (fun e => e.fid = bits v.toNat 15 0)).map (fun e => (x, e)) else none

/-- The fault is answered. -/
def closeFault (s : State) (x : Context) (e : OpenFault) : State :=
  setCtx s x.asid { x with faults := x.faults.filter (fun f => f.fid ≠ e.fid) }

/-- A pop is tried again (R147, R374); the path that left the slot is gone, and what PROOF would report of its signature
is open. -/
def retryPop (s : State) (e : OpenFault) (blk c slot : Nat) : State :=
  match getCourse s blk c with
  | none => s
  | some k =>
    match k.popFault with
    | some (fid, _) =>
      if fid = e.fid then
        let s := acquire (setCourse s blk c { k with popFault := none }) (blockCore s blk) .system false
        let s := refillSlots s blk c slot false
        let (i, s) := draw s
        checkStarved s blk c slot e.pos (Config.freeWord i)
      else s
    | none => s

/-- What a fault's answer wakes. -/
def wakeFault (s : State) (e : OpenFault) : State :=
  match e.owner with
  | .path blk c slot =>
    updPath (acquire s (blockCore s blk) .system false) blk c slot
      (fun p => if p.park = .fault e.fid then { p with park := .running } else p)
  | .pop blk c slot => retryPop s e blk c slot
  | .command id => match getCmd s id with
    | some c => runCmd (setCmd s id { c with stall := none }) id
    | none => s

/-- PGDONE with ABORT clear (R374). -/
def execPgdone (p : BitVec 3) (v : Double) (s : State) : Host.Outcome State Fault Refusal :=
  if !windowOpen s p || v.getLsbD 16 then .next s
  else match namedFault s p v with
    | some (x, e) => .next (wakeFault (closeFault s x e) e)
    | none => .next s

/-- A command whose page request was turned down in a context already removed ends there. -/
def dropStalled (s : State) (e : OpenFault) : State :=
  match e.owner with
  | .command id => { s with commands := del s.commands id }
  | _ => s

/-- PGDONE with ABORT set (R374): the fault is fatal. -/
def execPgdoneAbort (p : BitVec 3) (v : Double) (s : State) : Host.Outcome State Fault Refusal :=
  if !windowOpen s p || !v.getLsbD 16 then .next s
  else match namedFault s p v with
    | some (x, e) =>
      .next (dropStalled (removeContext (closeFault s x e) x.asid { e.f with info := e.f.info % 2 ^ 48 + e.fid * 2 ^ 48 }
        e.pos e.core e.course e.slot false) e)
    | none => .next s

/-! ### Pre-emption (R376) -/

/-- The highest PRIO among the launches of a context that have blocks on cores. -/
def topPrio (s : State) (asid : BitVec 16) : Nat :=
  (s.blocks.filter (fun e => e.2.asid = asid)).foldl (fun m e => match getJob s e.2.job with
    | some j => max m (pkPrio j.words)
    | none => m) 0

/-- A context has blocks on cores. -/
def holdsCores (s : State) (asid : BitVec 16) : Bool := s.blocks.any (fun e => e.2.asid = asid)

/-- The machine as if no block of a context were on core `m`. -/
def withoutBlocks (s : State) (asid : BitVec 16) (m : Nat) : State :=
  let gone := (s.blocks.filter (fun e => e.2.asid = asid && e.2.core = m)).map (·.1)
  { s with blocks := s.blocks.filter (fun e => !gone.contains e.1)
           courses := s.courses.filter (fun e => !gone.contains (e.1 / 32)) }

/-- A launch could place a block on a core that the context holds (R376). -/
def couldPlace (s : State) (asid : BitVec 16) (j : Job) : Bool :=
  ((s.blocks.filter (fun e => e.2.asid = asid)).map (·.2.core)).eraseDups.any (fun m =>
    let t := withoutBlocks s asid m
    (partClusters (getPart s j.part)).contains (coreCluster m) && admits t j (coreCluster m) && coreTakes t j.words m)

/-- A save is going on in the partition: contexts are saved one at a time (R376). -/
def partSaving (s : State) (p : BitVec 3) : Bool := s.contexts.any (fun e => e.2.part == p && e.2.state == .saving)

/-- A context may be saved to make room for this holding launch (R376). -/
def victim (s : State) (j : Job) (x : Context) : Bool :=
  x.part = j.part && x.asid ≠ j.asid && x.state = .running && holdsCores s x.asid &&
    decide (topPrio s x.asid < pkPrio j.words) && couldPlace s x.asid j

/-- When a context last placed a block, and the number of that block: later ones have higher numbers. -/
def lastPlaced (s : State) (asid : BitVec 16) : Nat × Nat :=
  (s.blocks.filter (fun e => e.2.asid = asid)).foldl (fun m e => (max m.1 e.2.placedAt, max m.2 e.1)) (0, 0)

/-- Context `a` placed a block later than context `b` did. -/
def placedLater (s : State) (a b : BitVec 16) : Bool :=
  let x := lastPlaced s a
  let y := lastPlaced s b
  decide (y.1 < x.1) || (x.1 == y.1 && decide (y.2 < x.2))

/-- The context to save for a holding launch: the lowest highest PRIO, then placed last (R376). -/
def chooseVictim (s : State) (j : Job) : Option Context :=
  ((s.contexts.map (·.2)).filter (victim s j)).foldl (fun a x => match a with
    | none => some x
    | some y =>
      let p := topPrio s x.asid
      let q := topPrio s y.asid
      if p < q || (p = q && placedLater s x.asid y.asid) then some x else some y) none

/-- The launch that holds in a partition (R303). -/
def holdingLaunch (s : State) (p : BitVec 3) : Option (Nat × Job) := (readyOrder s p).find? (fun e => e.2.holding)

/-- The context that the scheduler pre-empts in a partition now. -/
def preemptNow (s : State) (p : BitVec 3) : Option Context :=
  if partSaving s p then none else (holdingLaunch s p).bind (fun e => chooseVictim s e.2)

/-- PREEMPT (R376, first case). -/
def execPreempt (asid : BitVec 16) (s : State) : Host.Outcome State Fault Refusal :=
  match getCtx s asid with
  | none => .next s
  | some x => .next (if (preemptNow s x.part).map (·.asid) = some asid then startSave s x false else s)

/-- TSLICE, as it is in force, in ns (R376, R392). -/
def timeSlice (s : State) (x : Context) : Nat := 1000 * bits (getPart s x.part).ptimeIn.toNat 19 0

/-- The context holds cores while a launch of another context of at least its PRIO is pending (R376). -/
def rivalled (s : State) (x : Context) : Bool :=
  holdsCores s x.asid && (readyOrder s x.part).any (fun e => e.2.asid ≠ x.asid && decide (topPrio s x.asid ≤ pkPrio e.2.words))

/-- The time slice of a context has run out (R376); it waits until a halted context goes on (R375). -/
def sliceOver (s : State) (x : Context) : Bool :=
  timeSlice s x ≠ 0 && x.state = .running && !partSaving s x.part && rivalled s x && match x.rivalSince with
    | some t => decide (t + timeSlice s x ≤ s.now)
    | none => false

/-- TIME_SLICE_EXPIRY (R375, R376): the time with a rival begins, is over, or has lasted a slice. -/
def execTimeSliceExpiry (asid : BitVec 16) (s : State) : Host.Outcome State Fault Refusal :=
  match getCtx s asid with
  | none => .next s
  | some x => .next (
    if sliceOver s x then startSave s x false
    else if !rivalled s x then setCtx s asid { x with rivalSince := none }
    else if x.rivalSince.isNone then setCtx s asid { x with rivalSince := some s.now } else s)

/-! ### Creation (R395) -/

/-- CCREATE (R393, R395). -/
def execCcreate (p : BitVec 3) (v : Double) (s : State) : Host.Outcome State Fault Refusal :=
  let part := getPart s p
  .next (if windowOpen s p && !resetting s p && part.ccreating.isNone then setPart s p { part with ccreating := some v } else s)

/-- A range of addresses reaches into the fabric window (R400). -/
def touchesFabric (base size : Nat) : Bool := decide (base < 2 ^ 48) && decide (15 * 2 ^ 44 < base + size)

/-- A device-memory frame of 4 KiB lies in the partition's pages. -/
def frameInside (p : Partition) (frame : Nat) : Bool := inPartition p (frame * 4096) 12

/-- The context that a descriptor describes (R395); nothing where it is bad. -/
def readContext (part : Partition) (p : BitVec 3) (bs : List Byte) : Option Context :=
  let w := natOfBytes bs
  let depth := bits w 23 16
  let nc := bits w 47 32
  let pt := bits w 127 64
  let area := bits w 191 128
  let rub := bits w 255 192
  let size := bits w 319 256
  if depth < 16 || 64 < depth || bits w 31 24 ≠ 0 || nc = 0 || 1024 < nc || bits w 63 48 ≠ 0 || bits w 511 320 ≠ 0 then none
  else if bits pt 63 52 ≠ 0 || bits pt 11 8 ≠ 0 || bits pt 6 0 ≠ 0 || (!bitAt pt 7 && !frameInside part (bits pt 51 12)) then none
  else if area % 4096 ≠ 0 || rub % 4096 ≠ 0 || size % 4096 ≠ 0 || touchesFabric area (0x1040 + 24 * depth * nc)
      || touchesFabric rub size then none
  else some
    { asid := BitVec.ofNat 16 (bits w 15 0), part := p, depth := depth, nc := nc, ptroot := BitVec.ofNat 64 pt,
      area := BitVec.ofNat 64 area, rubBase := BitVec.ofNat 64 rub, rubSize := BitVec.ofNat 64 size, state := .running,
      counter := false, nextFault := 0, faults := [], step := none, subs := [], subSeq := 0, subHalted := false,
      energy := 0, saved := [], savedAt := 0, saveFrom := 0, hostSaved := false, heldSince := 0,
      rivalSince := none, restored := none, destroying := false }

/-- The ASID belongs to a context of any partition. -/
def asidUsed (s : State) (asid : BitVec 16) : Bool := match getCtx s asid with
  | some x => !ctxGone s x
  | none => false

/-- CRESULT's STATUS, and the context where it is created (R395). -/
def createContext (s : State) (p : BitVec 3) (v : Nat) : Nat × Option Context :=
  let pa := bits v 47 0
  if bits v 63 48 ≠ 0 || pa % 64 ≠ 0 || homePoisoned s (.host pa) 64 then (1, none)
  else match readContext (getPart s p) p (homeBytes s (.host pa) 64) with
    | none => (1, none)
    | some x =>
      if asidUsed s x.asid then (2, none)
      else if Config.contexts ≤ (s.contexts.filter (fun e => e.2.part == p && !ctxGone s e.2)).length then (3, none)
      else (0, some x)

/-- What an earlier context of this ASID left in local stores is not the new one's (R235). -/
def forgetLocal (s : State) (asid : BitVec 16) : State :=
  { s with cores := s.cores.map (fun e => match e.2.left with
      | some (a, _) => if a = asid then (e.1, { e.2 with left := none }) else e
      | none => e) }

/-- CONTEXT_CREATION_DONE (R395). -/
def execContextCreationDone (p : BitVec 3) (s : State) : Host.Outcome State Fault Refusal :=
  let part := getPart s p
  match part.ccreating with
  | none => .next s
  | some v =>
    let (status, x) := createContext s p v.toNat
    let s := setPart s p { part with ccreating := none, cresult := BitVec.ofNat 64 (status * 2 ^ 28) }
    .next (match x with
      | some x => setCtx { forgetLocal s x.asid with traffic := del s.traffic x.asid.toNat } x.asid x
      | none => s)

/-! ### Accounting and translations -/

/-- The six counters of a context, as they are sampled: 64 bits each (R318, R396). -/
def counterSample (s : State) (x : Context) : List Nat :=
  let t := (find? s.traffic x.asid.toNat).getD Traffic.zero
  [t.fills, t.shared, t.writeBacks, t.reads, t.writes, x.energy].map (· % 2 ^ 64)

/-- ACSEL (R396). -/
def execAcsel (p : BitVec 3) (v : Double) (s : State) : Host.Outcome State Fault Refusal :=
  let part := getPart s p
  if !windowOpen s p then .next s
  else
    match partCtx s p (BitVec.ofNat 16 (bits v.toNat 15 0)) with
    | some x => .next (setPart s p { part with acsel := counterSample s x })
    | none => .next (setPart s p { part with acsel := [0, 0, 0, 0, 0, 0] })

/-- A line belongs to the pages that an XINV write withdraws (R397). -/
def withdrawn (v : Double) (x : L1Line) : Bool :=
  let n := bits v.toNat 15 0
  let page := bits v.toNat 47 16
  x.asid == asidField v && (n = 0 || (decide (page ≤ x.line / 512) && decide (x.line / 512 < page + n)))

/-- XINV (R397): nothing of those pages is held any more. -/
def execXinv (p : BitVec 3) (v : Double) (s : State) : Host.Outcome State Fault Refusal :=
  if !windowOpen s p then .next s
  else
    let s := setPart s p { getPart s p with xinv := some v }
    .next (match partCtx s p (asidField v) with
      | some _ => dropLines s (fun _ => true) (withdrawn v)
      | none => s)

/-- A page of virtual addresses is among those that an XINV write withdraws (R397). -/
def pageWithdrawn (v : Double) (va : Nat) : Bool :=
  let n := bits v.toNat 15 0
  let page := bits v.toNat 47 16
  n = 0 || (decide (page ≤ va / 65536) && decide (va / 65536 < page + n))

/-- A remote access of the path has lanes here whose translation was made before the write (R397, R400). -/
def heldWithdrawn (v : Double) (p : Path) : Bool := p.remotes.any (fun h => h.reach.any (fun e => match e.2 with
  | .mem va _ _ => pageWithdrawn v va
  | _ => false))

/-- No access of the context uses a withdrawn translation any more (R397). -/
def xinvReady (s : State) (v : Double) : Bool :=
  s.courses.all (fun e => match getBlock s (e.1 / 32) with
    | some b => !(b.asid == asidField v) || !(e.2.path0.toList ++ e.2.path1.toList).any (heldWithdrawn v)
    | none => true)

/-- The stores of a context that have reached an L1 are performed (R397). -/
def drainContext (s : State) (asid : BitVec 16) : State :=
  (s.cores.map (·.1)).foldl (fun s m => drainStores s m (fun x => match getBlock s x.blk with
    | some b => b.asid = asid
    | none => false)) s

/-- XINV_DONE (R397): the stores that use a withdrawn translation have been performed. -/
def execXinvDone (p : BitVec 3) (s : State) : Host.Outcome State Fault Refusal :=
  .next (match (getPart s p).xinv with
    | none => s
    | some v =>
      if xinvReady s v then
        let s := match partCtx s p (asidField v) with
          | some _ => drainContext s (asidField v)
          | none => s
        setPart s p { getPart s p with xinv := none }
      else s)

/-! ### Watchdog and remote recovery -/

/-- A block is hung (R386): WDOG, as it is in force. -/
def hungBlock (s : State) (blk : Nat) (b : Block) : Bool :=
  decide (b.lastProgress + 1000000 * bits (getPart s b.part).ptimeIn.toNat 51 36 ≤ s.now) && !watchExempt s blk b &&
  match getCtx s b.asid with
  | some x => x.state == .running || x.state == .saving
  | none => false

/-- A path that is parked. -/
def parkedSlot (k : Course) : Option Nat := [0, 1].find? (fun i => match getPath k i with
  | some p => p.park != .running
  | none => false)

/-- The lowest course of a block that is parked, and its path; where none is, the lowest with a path (R386). -/
def hungCourse (s : State) (blk : Nat) : Nat × Nat :=
  let at_ (f : Course → Option Nat) : Option (Nat × Nat) :=
    (blockCourses s blk).findSome? (fun c => ((getCourse s blk c).bind f).map (fun i => (c, i)))
  match at_ (fun k => if k.waitLongs.isEmpty then parkedSlot k else some (if k.path0.isSome then 0 else 1)) with
  | some r => r
  | none => (at_ (fun k => if k.path0.isSome then some 0 else if k.path1.isSome then some 1 else none)).getD (0, 0)

/-- A hung block raises WATCHDOG (R386, R388). -/
def barkAt (s : State) (blk : Nat) : State :=
  match getBlock s blk with
  | none => s
  | some b =>
    if hungBlock s blk b then
      let (c, slot) := hungCourse s blk
      let pos := match (getCourse s blk c).bind (fun k => getPath k slot) with
        | some p => pathPos s blk p
        | none => 0
      removeContext s b.asid (plainFault 0x13 0) pos b.core c slot false
    else s

/-- WATCHDOG_CHECK (R386): once every millisecond. -/
def execWatchdogCheck (s : State) : Host.Outcome State Fault Refusal :=
  if s.now < s.nextWatchdog then .next s
  else .next (s.blocks.foldl (fun s e => barkAt s e.1) { s with nextWatchdog := s.nextWatchdog + 1000000 })

/-- RECOVERY_NOTICE (R387, R401): 20 s from the report. -/
def execRecoveryNotice (dev : BitVec 14) (s : State) : Host.Outcome State Fault Refusal :=
  .next (if dev.toNat = Config.ownDevice then s
    else { s with recovering := cset 0 s.recovering dev.toNat (s.now + 20000000000) })

/-- Every access to a device that is still outstanding fails (R199, R387). -/
def failDevice (s : State) (dev : Nat) : State :=
  (s.remotes.filter (fun e => e.2.device == dev)).foldl (fun s e => answerRemote s e.1 ⟨false, [], []⟩) s

/-- RECOVERY_EXPIRY (R387). -/
def execRecoveryExpiry (dev : BitVec 14) (s : State) : Host.Outcome State Fault Refusal :=
  let t := cget 0 s.recovering dev.toNat
  if t = 0 || s.now < t then .next s
  else .next (failDevice { s with recovering := cset 0 s.recovering dev.toNat 0 } dev.toNat)

end Sys2Proof.Machine
end

