-- ==== Sys2Proof/Machine/Governor.lean ====
section
/-!
DEFINITION. The governor: budgets (R25, R306), sensitivity (R312, R313), projections and clocks (R314 to R317), rails
(R310, R311) and adaptive clocking (R403). INTERVAL_START, CLOCK_RAISE, SENSITIVITY_WINDOW_END, DROOP_STRETCH,
SUPPLY_RECOVERS, MARGIN_OFFSET_DECAY, RAILMAP.
-/

namespace Sys2Proof.Machine

/-! ### Settings -/

/-- CEIL and FLOOR as they read back (R313). -/
def sensCeil (p : Partition) : Nat := min 84 (bits p.sensctl.toNat 31 24)

/-- An enabled partition. -/
def partEnabled (p : Partition) : Bool := p.pctl.getLsbD 63

def allParts : List (BitVec 3) := (List.range 8).map (BitVec.ofNat 3)

/-- The enabled partition that a cluster belongs to. -/
def clusterPart (s : State) (k : Nat) : Option (BitVec 3) :=
  allParts.find? (fun p => partEnabled (getPart s p) && (getPart s p).pctl.getLsbD k)

/-- The floor clock of a cluster (R310). -/
def clusterFloor (s : State) (k : Nat) : Nat := match clusterPart s k with
  | some p => sensFloor (getPart s p)
  | none => 0

/-- The rail of a cluster (R310). -/
def clusterRail (s : State) (k : Nat) : Nat := bits s.railmap.toNat (2 * k + 1) (2 * k)

/-- The voltage index a clock index needs (R311). -/
def voltFor (i : Nat) : Nat := (20 * i + 20) / 21

/-- POWER of the weights in force; 0 reads as 1 (R392). -/
def powerWeight (p : Partition) : Nat := max 1 (bits p.pwgtIn.toNat 7 0)

/-! ### Budgets (R306) -/

/-- Whole degrees by which the intake air is warmer than 25 degrees C, a part degree counted whole (R25). -/
def warmDegrees (t : Int × Nat) : Nat := (-((25 * (t.2 + 1 : Int) - t.1) / (t.2 + 1 : Int))).toNat

/-- The package's sustained budget in mW (R25). -/
def packageBudget (n : Nat) : Nat := max 960000 (1200000 - 24000 * warmDegrees (Config.intakeTemp n))

/-- Divide a share by weights, each member given at least its floor: members below it are floored, and the rest is
divided again. -/
def divideShare (share : Nat) (l : List (Nat × Nat × Nat)) : Nat → List Nat → List (Nat × Nat)
  | 0, _ => l.map (fun e => (e.1, e.2.2))
  | n + 1, floored =>
    let free := l.filter (fun e => !floored.contains e.1)
    let rest := share - ((l.filter (fun e => floored.contains e.1)).map (·.2.2)).sum
    let w := (free.map (·.2.1)).sum
    let part (e : Nat × Nat × Nat) : Nat := if w = 0 then rest / max free.length 1 else rest * e.2.1 / w
    let low := (free.filter (fun e => decide (part e < e.2.2))).map (·.1)
    if low.isEmpty then l.map (fun e => (e.1, if floored.contains e.1 then e.2.2 else part e))
    else divideShare share l n (floored ++ low)

/-- The charges of a cluster in the control interval that ends: of the blocks it holds, and of those that left it (R306). -/
def intervalCharge (s : State) (k : Nat) : Frac :=
  let c := getCluster s k
  (clusterCharge s k (fun j => energyCharge j c)).add ⟨c.left.1, c.left.2⟩

/-- Power in mW of the clusters of a partition (R306): by charges, at least the leakage, and never above the share. -/
def partPowers (s : State) (n share : Nat) (p : Partition) : List (Nat × Nat) :=
  let l := (partClusters p).map (fun k =>
    (k, (intervalCharge s k).floor.toNat,
      Config.clusterLeakage k n ((s.rails.getD (clusterRail s k) (0, 0)).1)))
  let r := divideShare share l 25 []
  let sum := (r.map (·.2)).sum
  if share < sum then r.map (fun e => (e.1, e.2 * share / sum)) else r

/-- The power of each cluster of an enabled partition, in mW (R306). -/
def clusterPowers (s : State) (n : Nat) : List (Nat × Nat) :=
  let total := packageBudget n - Config.outsidePower n
  let on := allParts.filter (fun p => partEnabled (getPart s p))
  let w := (on.map (fun p => powerWeight (getPart s p))).sum
  on.flatMap (fun p => partPowers s n (total * powerWeight (getPart s p) / max w 1) (getPart s p))

/-- Peak current of a cluster in mA (R306): a share of the 480 A of its rail. -/
def clusterCurrent (s : State) (n k : Nat) : Nat :=
  let mates := (List.range Config.clusters).filter (fun j => clusterRail s j = clusterRail s k)
  480000 * Config.railShare n k / max 1 ((mates.map (Config.railShare n)).sum)

/-- Set the budgets of the interval. -/
def setBudgets (s : State) (n : Nat) : State :=
  let l := clusterPowers s n
  (List.range Config.clusters).foldl (fun s k =>
    let c := getCluster s k
    let e := 20 * ((l.find? (fun e => e.1 = k)).map (·.2)).getD 0
    let i := if (clusterPart s k).isSome then clusterCurrent s n k else 0
    if c.energy = e && c.current = i && c.left = (0, 1) then s
    else setCluster s k { c with energy := e, current := i, left := (0, 1) }) s

/-! ### Projection (R314) -/

/-- MHz of a clock index (R311). -/
def clockMHz (i : Nat) : Nat := 600 + 25 * i

/-- Cycles a resident block has still to run (R314). -/
def blockRem (s : State) (b : Block) (j : Job) : Nat :=
  match b.estimate with
  | some (n, given) => n.toNat - (ranCycles s b - given)
  | none => pw j.words 15 - ranCycles s b

/-- Time in ns of a resident block with its cluster at clock index `i` (R314). -/
def blockTime (s : State) (b : Block) (j : Job) (i : Nat) : Frac :=
  let c := getCluster s (coreCluster b.core)
  let rem := blockRem s b j
  (Frac.mk' (1000 * rem * c.sigma : Nat) (65536 * clockMHz i)).add
    (Frac.mk' (1000 * rem * (65536 - c.sigma) : Nat) (65536 * clockMHz c.clock))

/-- The larger. -/
def Frac.max (a b : Frac) : Frac := if a.lt b then b else a

/-- When the step's blocks on core `m` finish, in ns from now. -/
def coreFinish (s : State) (asid : BitVec 16) (id : Word) (g : Nat → Nat) (m : Nat) : Frac :=
  (coreBlocks s m).foldl (fun t e =>
    if e.2.asid = asid && e.2.step = some id then
      match getJob s e.2.job with
      | some j => t.max (blockTime s e.2 j (g (coreCluster m)))
      | none => t
    else t) ⟨0, 1⟩

/-- The place of the least, the first of equals. -/
def leastAt (l : List (Nat × Frac)) : Option (Nat × Frac) :=
  l.foldl (fun a e => match a with
    | none => some e
    | some b => if e.2.lt b.2 then some e else a) none

/-- Give `n` blocks of `rem` cycles to the cores that finish first (R314). -/
def listSchedule (g : Nat → Nat) (rem : Nat) : Nat → List (Nat × Frac) → List (Nat × Frac)
  | 0, l => l
  | n + 1, l =>
    match leastAt l with
    | none => l
    | some (m, t) =>
      let t := t.add (Frac.mk' (1000 * rem : Nat) (clockMHz (g (coreCluster m))))
      listSchedule g rem n (l.map (fun e => if e.1 = m then (m, t) else e))

/-- Blocks of a launch still to be placed. -/
def unplacedCount (s : State) (id : Nat) (j : Job) : Nat :=
  (pkBlocks j.words - j.placed) + (s.waitingBlocks.filter (fun w => w.job = id)).length

/-- The started launches of a step, in ready order (R302, R314). -/
def stepLaunches (s : State) (x : Context) (id : Word) : List (Nat × Job) :=
  (s.jobs.filter (fun e => e.2.asid == x.asid && pkType e.2.words == 1 && e.2.started && !e.2.failed && !e.2.completed &&
    e.2.words.getD 20 0 == id)).foldl (fun l a => insertLaunch s a l) []

/-- P_S in ns from now, with cluster `k` at clock index `g k` (R314). -/
def projectStep (s : State) (x : Context) (id : Word) (g : Nat → Nat) : Frac :=
  let cores := (partClusters (getPart s x.part)).flatMap (fun k => (List.range 8).map (8 * k + ·))
  let l := cores.map (fun m => (m, coreFinish s x.asid id g m))
  let l := (stepLaunches s x id).foldl (fun l e => listSchedule g (pw e.2.words 15) (unplacedCount s e.1 e.2) l) l
  l.foldl (fun t e => t.max e.2) ⟨0, 1⟩

/-! ### Clocks (R315, R316) -/

/-- The contexts of a partition that hold an open step. -/
def openSteps (s : State) (p : BitVec 3) : List (Context × Step) :=
  s.contexts.filterMap (fun e => if e.2.part = p then e.2.step.map (fun st => (e.2, st)) else none)

/-- Clusters that hold a block of a step. -/
def stepClusters (s : State) (x : Context) (st : Step) : List Nat :=
  ((s.blocks.filter (fun e => e.2.asid = x.asid && e.2.step = some st.id)).map (fun e => coreCluster e.2.core)).eraseDups

/-- A projection at index `i` everywhere meets the deadline. -/
def meetsAt (s : State) (x : Context) (st : Step) (i : Nat) : Bool :=
  (projectStep s x st.id (fun _ => i)).le ⟨st.deadline - (s.now : Int), 1⟩

/-- The lowest clock index that meets the deadline, if one does, else CEIL (R315). -/
def stepIndex (s : State) (p : Partition) (x : Context) (st : Step) : Nat :=
  ((List.range (sensCeil p + 1)).find? (meetsAt s x st)).getD (sensCeil p)

/-- What the governor chooses for a cluster. -/
structure Choice where
  cluster : Nat
  index : Nat
  /-- The latest deadline of a step with a block there. -/
  deadline : Option Int
  deriving DecidableEq, Repr

/-- The first choices (R313, R315). -/
def firstChoices (s : State) (p : BitVec 3) : List Choice :=
  let part := getPart s p
  let steps := openSteps s p
  (partClusters part).map (fun k =>
    let mine := steps.filter (fun e => (stepClusters s e.1 e.2).contains k)
    let lo := sensFloor part
    match mine with
    | [] => ⟨k, min (sensCeil part) (max lo (getCluster s k).wish), none⟩
    | e :: t => ⟨k, max lo ((e :: t).foldl (fun i e => max i (stepIndex s part e.1 e.2)) 0),
        some (t.foldl (fun d e => max d e.2.deadline) e.2.deadline)⟩)

/-- Projected power in mW of the choices (R316). -/
def choicesPower (s : State) (n : Nat) (l : List Choice) : Nat :=
  (l.map (fun c => Config.projectedPower c.cluster n c.index (voltFor c.index + (getCluster s c.cluster).offset))).sum

/-- The cluster that is lowered next: one of no step, above its floor, to the floor; else the one of the latest deadline,
by one (R316). -/
def lowerOne (lo : Nat) (l : List Choice) : Option (List Choice) :=
  match l.find? (fun c => c.deadline.isNone && decide (lo < c.index)) with
  | some c => some (l.map (fun e => if e.cluster = c.cluster then { e with index := lo } else e))
  | none =>
    let high := l.filter (fun c => c.deadline.isSome && decide (lo < c.index))
    match high with
    | [] => none
    | c :: t =>
      let c := t.foldl (fun a e => if a.deadline.getD 0 < e.deadline.getD 0 then e else a) c
      some (l.map (fun e => if e.cluster = c.cluster then { e with index := e.index - 1 } else e))

/-- Lower choices until their power fits (R316). -/
def lowerChoices (s : State) (n lo budget : Nat) : Nat → List Choice → List Choice
  | 0, l => l
  | fuel + 1, l =>
    if choicesPower s n l ≤ budget then l
    else match lowerOne lo l with
      | some l => lowerChoices s n lo budget fuel l
      | none => l

/-- The cap of a cluster: the highest index that fits with all the other choices (R316). -/
def capOf (s : State) (n ceil budget : Nat) (l : List Choice) (c : Choice) : Nat :=
  let fits (i : Nat) : Bool :=
    decide (choicesPower s n (l.map (fun e => if e.cluster = c.cluster then { e with index := i } else e)) ≤ budget)
  ((List.range (ceil + 1)).reverse.find? fits).getD c.index

/-- Give step clusters their caps, one after another (R317). -/
def raiseToCaps (s : State) (n ceil budget : Nat) (ks : List Nat) (l : List Choice) : List Choice :=
  ks.foldl (fun l k => match l.find? (fun c => c.cluster = k) with
    | some c => l.map (fun e => if e.cluster = k then { e with index := max c.index (capOf s n ceil budget l c) } else e)
    | none => l) l

/-- The index chosen for a cluster. -/
def chosen (l : List Choice) (k : Nat) : Nat := ((l.find? (fun c => c.cluster = k)).map (·.index)).getD 0

/-- A step is at risk at its clusters' caps (R316). -/
def atRisk (s : State) (n budget : Nat) (p : Partition) (l : List Choice) (x : Context) (st : Step) : Bool :=
  let capped := raiseToCaps s n (sensCeil p) budget (stepClusters s x st) l
  !(projectStep s x st.id (chosen capped)).le ⟨st.deadline - (s.now : Int), 1⟩

/-- The record of a deadline risk, and its interrupt (R317). -/
def reportRisk (s : State) (p : BitVec 3) (x : Context) (st : Step) (excess : Nat) : State :=
  let part := getPart s p
  let part := if part.dlrisk.getLsbD 63 then { part with dlrisk := part.dlrisk ||| (1#64 <<< 62) }
    else { part with
      dlrisk := BitVec.ofNat 64 (2 ^ 63 + part.dlrisk.toNat / 2 ^ 62 % 2 * 2 ^ 62 + x.asid.toNat * 2 ^ 32 + st.id.toNat)
      dlover := BitVec.ofNat 64 (min 0xFFFFFFFF excess) }
  raise (setPart s p part) p 2

/-- One open step after its projection at the chosen clocks: its slack, and its risk (R233, R317). -/
def settleStep (p : BitVec 3) (n budget : Nat) (caps final : List Choice) (s : State) (e : Context × Step) : State :=
  let (x, st) := e
  let slack := (Frac.sub ⟨st.deadline - (s.now : Int), 1⟩ (projectStep s x st.id (chosen final))).floor
  let risk := atRisk s n budget (getPart s p) caps x st
  let put (s : State) : State := match getCtx s x.asid with
    | some y => setCtx s x.asid { y with step := some { st with slack := some slack, atRisk := risk } }
    | none => s
  if risk && !st.atRisk then reportRisk (put s) p x st (-slack).toNat else put s

/-- A clock index and its offset stay within the rail (R403). -/
def withinRail (offset : Nat) : Nat → Nat
  | 0 => 0
  | i + 1 => if voltFor (i + 1) + offset ≤ 80 then i + 1 else withinRail offset i

/-- The count of quarter-cycles up to now, before the clock of a cluster changes (R312). -/
def tally (s : State) (k : Nat) : Cluster :=
  let c := getCluster s k
  { c with total := c.total + 32 * (clockFs s - c.since) * clockRate c, since := clockFs s }

/-- A cluster takes its choice: a falling clock falls now, a rising one waits for its rail (R311). -/
def takeChoice (s : State) (c : Choice) : State :=
  let k := tally s c.cluster
  let i := withinRail k.offset c.index
  setCluster s c.cluster (if i ≤ k.clock then { k with clock := i, raise := none, wish := c.index }
    else { k with raise := some i, wish := c.index })

/-- What a cluster asks of its rail. -/
def railNeed (s : State) (k : Nat) : Nat :=
  let c := getCluster s k
  min 80 (voltFor (c.raise.getD c.clock) + c.offset)

/-- Rails move to the largest index needed: at most 20 mV a us upward (R311). -/
def moveRails (s : State) : State :=
  { s with rails := (List.range 4).map (fun r =>
      let need := ((List.range Config.clusters).filter (fun k => clusterRail s k = r)).foldl (fun m k => max m (railNeed s k)) 0
      let (v, t) := s.rails.getD r (0, 0)
      if v < need then (need, s.now + 1000 * ((need - v + 3) / 4)) else if need = v then (v, t) else (need, s.now)) }

/-- Margin monitors at an interval start (R403). -/
def marginOffsets (s : State) (n : Nat) : State :=
  (List.range Config.clusters).foldl (fun s k =>
    if Config.marginLow n k then
      let c := getCluster s k
      setCluster s k { c with offset := min 4 (c.offset + 1), offsetSince := s.now }
    else s) s

/-- The weights, times and vectors written since come into force (R392). -/
def enforceSettings (s : State) : State :=
  { s with partitions := s.partitions.map (fun e =>
      (e.1, { e.2 with pwgtIn := e.2.pwgt, ptimeIn := e.2.ptime, pvecIn := e.2.pvec })) }

/-- The choices of one partition (R313 to R317). -/
def governPart (s : State) (n : Nat) (p : BitVec 3) : State :=
  let part := getPart s p
  if !partEnabled part then s
  else
    let budget := ((partClusters part).map (fun k => (getCluster s k).energy / 20)).sum
    let l := lowerChoices s n (sensFloor part) budget 2200 (firstChoices s p)
    let steps := openSteps s p
    let risky := steps.filter (fun e => atRisk s n budget part l e.1 e.2)
    let final := raiseToCaps s n (sensCeil part) budget ((risky.flatMap (fun e => stepClusters s e.1 e.2)).eraseDups) l
    let caps := final.map (fun c => (c.cluster, capOf s n (sensCeil part) budget final c))
    let s := steps.foldl (settleStep p n budget l final) s
    caps.foldl (fun s e => setCluster s e.1 { getCluster s e.1 with cap := e.2 }) (final.foldl takeChoice s)

/-- INTERVAL_START (R306, R314 to R317, R392, R403). -/
def execIntervalStart (s : State) : Host.Outcome State Fault Refusal :=
  if s.now < s.nextInterval then .next s
  else
    let n := s.nextInterval / 20000
    let s := enforceSettings { s with nextInterval := s.nextInterval + 20000 }
    if s.phase ≠ 4 then .next s
    else
      let s := setBudgets (marginOffsets s n) n
      .next (moveRails (allParts.foldl (fun s p => governPart s n p) s))

/-- CLOCK_RAISE (R311): the rail has settled. -/
def execClockRaise (k : Nat) (s : State) : Host.Outcome State Fault Refusal :=
  let c := getCluster s k
  match c.raise with
  | none => .next s
  | some i =>
    if s.now < (s.rails.getD (clusterRail s k) (0, 0)).2 then .next s
    else .next (setCluster s k { tally s k with clock := i, raise := none })

/-! ### Sensitivity (R312, R313) -/

/-- A cluster holds a block of an open step. -/
def holdsStep (s : State) (k : Nat) : Bool := s.blocks.any (fun e => coreCluster e.2.core = k && e.2.step.isSome)

/-- A cluster at the end of a window: one of no step's block moves by one index, within FLOOR, CEIL and its cap (R313, R316). -/
def endWindow (s : State) (k : Nat) : State :=
  let c := tally s k
  let c := { c with sigma := 65536 * c.busy / max c.total 1, busy := 0, total := 0 }
  match clusterPart s k with
  | none => setCluster s k c
  | some p =>
    let part := getPart s p
    if holdsStep s k then setCluster s k c
    else
      let i := c.raise.getD c.clock
      let i := if c.sigma < bits part.sensctl.toNat 15 0 then i - 1 else i + 1
      setCluster s k { c with wish := min (sensCeil part) (max (sensFloor part) (min c.cap i)) }

/-- SENSITIVITY_WINDOW_END (R312, R313). -/
def execSensitivityWindowEnd (s : State) : Host.Outcome State Fault Refusal :=
  if s.now < s.nextWindow then .next s
  else .next ((List.range Config.clusters).foldl endWindow { s with nextWindow := s.nextWindow + 50000 })

/-! ### Adaptive clocking (R403) -/

/-- DROOP_STRETCH (R403). -/
def execDroopStretch (k : Nat) (s : State) : Host.Outcome State Fault Refusal :=
  if (getCluster s k).stretched || Config.clusters ≤ k then .next s
  else .next (setCluster { s with stretchCount := min 0xFFFF (s.stretchCount + 1) } k { tally s k with stretched := true })

/-- SUPPLY_RECOVERS (R403). -/
def execSupplyRecovers (k : Nat) (s : State) : Host.Outcome State Fault Refusal :=
  if (getCluster s k).stretched then .next (setCluster s k { tally s k with stretched := false }) else .next s

/-- MARGIN_OFFSET_DECAY (R403): 60 s with margin to spare. -/
def execMarginOffsetDecay (k : Nat) (s : State) : Host.Outcome State Fault Refusal :=
  let c := getCluster s k
  if c.offset = 0 || s.now < c.offsetSince + 60000000000 then .next s
  else .next (setCluster s k { c with offset := c.offset - 1, offsetSince := s.now })

/-! ### RAILMAP (R310) -/

/-- A cluster is quiesced: no block is resident, and so its clock is gated. -/
def quiesced (s : State) (k : Nat) : Bool := s.blocks.all (fun e => coreCluster e.2.core ≠ k)

/-- RAILMAP (R310). -/
def execRailmap (v : Double) (s : State) : Host.Outcome State Fault Refusal :=
  let new := BitVec.ofNat 64 (bits v.toNat 47 0)
  let t := { s with railmap := new }
  let changed := (List.range Config.clusters).filter (fun k => clusterRail s k ≠ clusterRail t k)
  if !changed.all (quiesced s) then .next s
  else .next (changed.foldl (fun t k =>
      setCluster t k { tally t k with clock := clusterFloor t k, wish := clusterFloor t k, raise := none }) t)

end Sys2Proof.Machine
end

