-- ==== Sys2Proof/Machine/Partition.lean ====
section
/-!
DEFINITION. Partitions: enabling, disabling and resetting one (R392, R393), every register write without a row of its own
(R6, R7), and what a read of a register returns (R391).
-/

namespace Sys2Proof.Machine

/-! ### The partition block (R392) -/

/-- The clusters that a value of PCTL names. -/
def namedClusters (v : Double) : List Nat := (List.range Config.clusters).filter (fun k => v.getLsbD k)

/-- BASEPG and PAGES. -/
def pageFirst (p : Partition) : Nat := bits p.pmem.toNat 22 0
def pageCount (p : Partition) : Nat := bits p.pmem.toNat 55 32

/-- Two ranges have a member in common. -/
def rangesMeet (a n b m : Nat) : Bool := decide (0 < n ∧ 0 < m ∧ a < b + m ∧ b < a + n)

/-- The resources of a partition that would hold these clusters meet those of `q`. -/
def resourcesMeet (v : Double) (p q : Partition) : Bool :=
  (namedClusters v).any (fun k => q.pctl.getLsbD k) || rangesMeet (ctrBase p) (ctrCount p) (ctrBase q) (ctrCount q)
    || rangesMeet (pageFirst p) (pageCount p) (pageFirst q) (pageCount q)

/-- A write that sets EN takes effect (R392). -/
def enableOk (s : State) (p : BitVec 3) (v : Double) : Bool :=
  let part := getPart s p
  !(namedClusters v).isEmpty && (namedClusters v).all (quiesced s)
    && allParts.all (fun q => q == p || !partEnabled (getPart s q) || !resourcesMeet v part (getPart s q))
    && decide (ctrBase part + ctrCount part ≤ Config.counters) && decide (pageFirst part + pageCount part ≤ 8388608)

/-- PCTL_ENABLE (R392): a PCTL write with EN set; while EN is 1 it changes nothing. -/
def execPctlEnable (p : BitVec 3) (v : Double) (s : State) : Host.Outcome State Fault Refusal :=
  let part := getPart s p
  if !v.getLsbD 63 || partEnabled part then .next s
  else if enableOk s p v then
    .next (setPart s p { part with pctl := BitVec.ofNat 64 (2 ^ 63 + bits v.toNat 23 0), err := false, pstate := 1 })
  else .next (setPart s p { part with err := true })

/-! ### Partition reset (R393) -/

/-- The completion signal of a packet that ends in a reset is updated where it can be, with no error reported: the queues are
re-armed, and no record is written (R393). -/
def settleSignal (s : State) (id : Nat) (j : Job) : State :=
  if word64 j.words 22 = 0 then s else (updateSignal s id j.part j.asid (word64 j.words 22) 2 1).2

/-- A started packet that completes before the reset removes the work: a copy or a signal under way, and a launch all of
whose blocks are done (R388). Its successors' counters go with the rest (R393). -/
def settleJob (s : State) (id : Nat) : State :=
  match getJob s id with
  | none => s
  | some j =>
    if !j.started || j.completed || j.failed || j.asking then s
    else if pkType j.words = 3 then
      (updateSignal s id j.part j.asid (word64 j.words 2) (bits (pw j.words 6) 1 0) (BitVec.ofNat 64 (word64 j.words 4))).2
    else if pkType j.words = 2 then
      match copyUnits id j (copyLength j.words - j.copied) j.copied j.brought s with
      | (.done, s) => settleSignal s id j
      | (_, s) => s
    else if launchDone j && !launchHeld s id then settleSignal (drainJob s id) id j
    else s

/-- A page request that has been written and that a command waits on stays open: the command has begun (R388 item 4). -/
def staysOpen (e : OpenFault) : Bool := e.waiting.isNone && match e.owner with
  | .command _ => true
  | _ => false

/-- A command of a block of the partition waits for a page whose request is discarded (R393): it ends there. -/
def unasked (s : State) (p : BitVec 3) (e : Nat × Command) : Bool :=
  match getBlock s e.2.blk with
  | some b => b.part == p && match e.2.stall with
    | some fid => !((getCtx s b.asid).any (fun x => x.faults.any (fun f => f.fid = fid && staysOpen f)))
    | none => false
  | none => false

/-- The blocks of a partition go, and their commands that have not begun (R388, R393). -/
def dropBlocks (s : State) (p : BitVec 3) : State :=
  let mine (_ : Nat) (b : Block) : Bool := b.part == p
  let s := discardCommands (emptyBlocks s mine) mine
  let s := { s with commands := s.commands.filter (fun e => !unasked s p e) }
  { s with blocks := s.blocks.map (fun e => if e.2.part == p then (e.1, { e.2 with replaying := false, step := none }) else e)
           waitingBlocks := s.waitingBlocks.filter (fun w => match getJob s w.job with
             | some j => j.part != p
             | none => true) }

/-- A context after a reset of its partition: created, with no work (R393). One that DESTROY has ended stays so. -/
def resetContext (x : Context) : Context :=
  { x with state := if x.destroying then .removed else .running, counter := false, faults := x.faults.filter staysOpen,
           step := none, subs := [], subHalted := false, saved := [], hostSaved := false, rivalSince := none }

/-- Re-arm a queue (R393 item 4). -/
def rearmQueue (s : State) (p : BitVec 3) (q : Nat) (k : Queue) : State :=
  let k := { k with halted := false, stopped := true, waiting := none }
  let s := hubTouch s k.asid (k.desc.toNat + 0x10) 16
  match hubRead s k.asid (k.desc.toNat + 0x10) 16 with
  | none => haltQueue (setQueue s p q k) p k.asid q 0 0x07
  | some (_, true) => haltQueue (setQueue s p q k) p k.asid q 0 0x0B
  | some (bs, false) =>
    setQueue s p q { k with notify := natOfBytes (bs.take 8), readIdx := natOfBytes (bs.drop 8) }

/-- The queues of a partition that are not being destroyed, by number. -/
def partQueues (s : State) (p : BitVec 3) : List (Nat × Queue) :=
  (s.queues.filter (fun e => e.1 / 256 == p.toNat && !e.2.destroying)).map (fun e => (e.1 % 256, e.2))

/-- R393, steps 1 to 4. -/
def resetPartition (s : State) (p : BitVec 3) : State :=
  let s := s.jobs.foldl (fun (s : State) e => if e.2.part == p then settleJob s e.1 else s) s
  let s := dropBlocks s p
  let part := getPart s p
  let s := setPart s p { part with pstate := 2, qerr := 0 }
  let s : State := { s with
    jobs := s.jobs.filter (fun e => e.2.part != p)
    contexts := s.contexts.map (fun e => if e.2.part == p then (e.1, resetContext e.2) else e)
    counters := s.counters.filter (fun e => !(decide (ctrBase part ≤ e.1) && decide (e.1 < ctrBase part + ctrCount part))) }
  let s := s.contexts.foldl (fun (s : State) e => if e.2.part == p then dropClosed s e.2.asid else s) s
  (partQueues s p).foldl (fun s e => rearmQueue s p e.1 e.2) s

/-- PARTITION_RESET (R393): of a partition that is enabled and not being reset. -/
def execPartitionReset (p : BitVec 3) (v : Double) (s : State) : Host.Outcome State Fault Refusal :=
  .next (if v.getLsbD 0 && partEnabled (getPart s p) && !resetting s p then resetPartition s p else s)

/-- PCTL_DISABLE (R392): a PCTL write with EN clear. -/
def execPctlDisable (p : BitVec 3) (v : Double) (s : State) : Host.Outcome State Fault Refusal :=
  let part := getPart s p
  if v.getLsbD 63 then .next s
  else if partEnabled part then
    let t := if resetting s p then s else resetPartition s p
    .next (setPart t p { getPart t p with pctl := BitVec.ofNat 64 (bits part.pctl.toNat 23 0) })
  else .next (setPart s p { part with pctl := BitVec.ofNat 64 (bits v.toNat 23 0) })

/-- PARTITION_RESET_DONE (R393): no block of the partition is left on a core. -/
def resetEnded (s : State) (p : BitVec 3) : Bool := resetting s p && s.blocks.all (fun e => e.2.part != p)

def execPartitionResetDone (p : BitVec 3) (s : State) : Host.Outcome State Fault Refusal :=
  let part := getPart s p
  .next (if resetEnded s p then setPart s p { part with pstate := b2n (partEnabled part) } else s)

/-! ### Register writes without a row of their own (R6, R7) -/

/-- Keep these bits of a written value: the zero fields are not stored (R7). -/
def keepBits (v : Double) (mask : Nat) : Double := v &&& BitVec.ofNat 64 mask

/-- MEMCTL (R344): REBUILD values below 8 read as 8. -/
def writeMemctl (v : Double) : Double :=
  let share := max 8 (bits v.toNat 47 40)
  BitVec.ofNat 64 (bits v.toNat 63 48 * 2 ^ 48 + share * 2 ^ 40 + bits v.toNat 39 16 * 2 ^ 16)

/-- PWGT (R392): a weight of 0 reads as 1. -/
def writePwgt (v : Double) : Double :=
  let w (i : Nat) : Nat := max 1 (bits v.toNat (8 * i + 7) (8 * i))
  BitVec.ofNat 64 (w 0 + 2 ^ 8 * w 1 + 2 ^ 16 * w 2)

/-- SENSCTL (R313): CEIL above 84 reads as 84, FLOOR above CEIL as CEIL. -/
def writeSensctl (v : Double) : Double :=
  let c := min 84 (bits v.toNat 31 24)
  BitVec.ofNat 64 (c * 2 ^ 24 + min c (bits v.toNat 23 16) * 2 ^ 16 + bits v.toNat 15 0)

/-- Bits that read 1 and are written with 1 clear (R6). -/
def clearOnes (old v : Double) (mask : Nat) : Double := old &&& ~~~(keepBits v mask)

/-- A write of the partition block, at this offset (R392). -/
def writeBlock (part : Partition) (off : Nat) (v : Double) : Partition :=
  match off with
  | 0x08 => if partEnabled part then part else { part with pres := keepBits v 0x1FFFFFFFF }
  | 0x10 => if partEnabled part then part else { part with pmem := keepBits v 0x00FFFFFF007FFFFF }
  | 0x18 => { part with pwgt := writePwgt v }
  | 0x20 => { part with ptime := keepBits v 0xFFFFFFFFFFFFF }
  | 0x28 => { part with pvec := keepBits v 0x0000003F003F003F }
  | 0x40 => { part with fwsel := keepBits v 0xFF }
  | 0x48 => { part with fwent := cset 0#64 part.fwent part.fwsel.toNat (keepBits v 0xFFFFFFFE1FFE0000) }
  | _ => part

/-- Writes of the mailbox buffer (R391). -/
def writeMailbox (s : State) (off : Nat) (v : Double) : State :=
  { s with mailbox := csetRun 0#8 s.mailbox off (bytesOfNat 8 v.toNat) }

/-- MBCMD.OP names a command (R404). -/
def mailboxOp (v : Double) : Bool := decide (1 ≤ bits v.toNat 7 0 ∧ bits v.toNat 7 0 ≤ 6)

/-- A write of the management window (R391). MBCMD with another OP is a bad command (R404). -/
def writeManagement (s : State) (off : Nat) (v : Double) : State :=
  if off = 0x10 then { s with memctl := writeMemctl v }
  else if off = 0x40 then (if mailboxOp v then s else { s with mbstat := BitVec.ofNat 64 (2 ^ 28) })
  else if 0x100 ≤ off && off < 0x500 then
    let p := BitVec.ofNat 3 ((off - 0x100) / 0x80)
    setPart s p (writeBlock (getPart s p) ((off - 0x100) % 0x80) v)
  else if 0x1000 ≤ off && off < 0x2000 then writeMailbox s (off - 0x1000) v
  else s

/-- A CTXCTL write whose OP does nothing: CTXSTAT shows its context (R389). -/
def writeCtxctl (s : State) (p : BitVec 3) (v : Double) : State :=
  let op := bits v.toNat 3 0
  if ctxctlOpen s p && (op = 0 || 6 < op) then selectCtx s p v else s

/-- A write of a queue window (R391). -/
def writeQueueWindow (s : State) (p : BitVec 3) (off : Nat) (v : Double) : State :=
  let part := getPart s p
  if !windowOpen s p then s
  else match off with
    | 0x20 => setPart s p { part with qerr := clearOnes part.qerr v 0xC000000000000000 }
    | 0x100 => setPart s p { part with sensctl := writeSensctl v }
    | 0x108 => setPart s p { part with dlrisk := clearOnes part.dlrisk v 0xC000000000000000 }
    | 0x128 => writeCtxctl s p v
    | _ => s

/-- REGISTER_WRITE (R6): 64 bits, naturally aligned, at an offset of the memory BAR. -/
def execRegisterWrite (off : BitVec 26) (v : Double) (s : State) : Host.Outcome State Fault Refusal :=
  let o := off.toNat
  if o % 8 ≠ 0 then .next s
  else if o < 0x1000000 then .next (writeManagement s o v)
  else if o < 0x2000000 then .next (writeQueueWindow s (BitVec.ofNat 3 ((o - 0x1000000) / 0x200000)) ((o - 0x1000000) % 0x200000) v)
  else .next s

/-! ### Register reads (R391) -/

/-- TMIN: the lowest in-stack temperature, as int8 (R402). -/
def lowestTemp (s : State) : Int := (List.range 10).foldl (fun (m : Int) k => min m (cget 25 s.temps k)) (cget 25 s.temps 0)

/-- BOOTSTAT (R402). -/
def readBootstat (s : State) : Nat :=
  s.phase + 2 ^ 8 * ofSigned 8 (max (-128) (min 127 (lowestTemp s))) + 2 ^ 16 * (((s.now - s.powerGoodAt) / 1000000000) % 65536)

/-- CLKSTAT (R403). -/
def readClkstat (s : State) : Nat :=
  2 ^ 48 * s.stretchCount + ((List.range Config.clusters).map (fun k => 4 ^ k * min 3 (getCluster s k).offset)).sum

/-- PSTAT (R392). -/
def readPstat (p : Partition) : Nat := 2 ^ 8 * b2n p.err + p.pstate

/-- A read of the partition block. -/
def readBlock (part : Partition) (off : Nat) : Double :=
  match off with
  | 0x00 => part.pctl
  | 0x08 => part.pres
  | 0x10 => part.pmem
  | 0x18 => part.pwgt
  | 0x20 => part.ptime
  | 0x28 => part.pvec
  | 0x38 => BitVec.ofNat 64 (readPstat part)
  | 0x40 => part.fwsel
  | 0x48 => cget 0#64 part.fwent part.fwsel.toNat
  | _ => 0

/-- CTXSTAT (R389): a context that DESTROY has ended reads 6. -/
def readCtxstat (s : State) (p : BitVec 3) : Nat :=
  let a := (getPart s p).ctxsel
  2 ^ 48 * a.toNat + match getCtx s a with
    | none => 0
    | some x =>
      if x.part ≠ p then 0
      else if ctxGone s x then 6
      else match x.state with
        | .running => 0
        | .halting => 1
        | .halted => 2
        | .saving => 3
        | .saved => 4
        | .removed => 5

/-- A read of a queue window (R391); write-only registers read zero. -/
def readQueueWindow (s : State) (p : BitVec 3) (off : Nat) : Double :=
  let part := getPart s p
  if !windowOpen s p then 0
  else if 0x60 ≤ off && off < 0x90 && off % 8 = 0 then BitVec.ofNat 64 (part.acsel.getD ((off - 0x60) / 8) 0)
  else match off with
    | 0x08 => if queueBusy part then BitVec.ofNat 64 (2 ^ 31) else part.qresult
    | 0x18 => part.cview
    | 0x20 => part.qerr
    | 0x38 => if part.ccreating.isSome then BitVec.ofNat 64 (2 ^ 31) else part.cresult
    | 0x58 => BitVec.ofNat 64 (b2n part.xinv.isSome)
    | 0x100 => part.sensctl
    | 0x108 => part.dlrisk
    | 0x110 => part.dlover
    | 0x130 => BitVec.ofNat 64 (readCtxstat s p)
    | _ => 0

end Sys2Proof.Machine
end

