-- ==== Sys2Proof/Machine/Resil.lean ====
section
/-!
DEFINITION. The resilience of device memory: INJPOISON (R320), parts marked dead (R329, R344), the repointing engine
(R335 to R337), live retraining (R29, R338), stale slots (R339), the patrol scrubber (R340, R341), the counters' flush
(R343) and MEMSTAT (R344).
-/

namespace Sys2Proof.Machine

/-- Bond units (R323). -/
def bondUnits : Nat := 8388608

/-! ### Injections and failures -/

/-- INJPOISON (R320). -/
def execInjpoison (v : Double) (s : State) : Host.Outcome State Fault Refusal :=
  let n := v.toNat
  if !bitAt n 63 || bits n 62 39 ≠ 0 || bits n 4 0 ≠ 0 then .next s
  else
    let pa := bits n 38 5 * 32
    let s := dropLines (backInvalidate s pa) (fun _ => true) (fun x => x.home == .dev (pa / 128 * 128))
    let s := dropL2 s (fun x => x.home == .dev (pa / 128 * 128))
    .next (poisonSector (writeTouch (oldTouch s pa) pa) pa)

/-- A channel is DEAD (R329): its stale bits are cleared (R339), and a training of it ends (R29). -/
def killChannel (s : State) (c : Nat) : State :=
  { s with
    health := cset .good s.health c .dead
    stale := s.stale.filter (fun e => e.1 / 524288 ≠ c)
    dueNow := cset false s.dueNow c false
    retraining := match s.retraining with
      | some (d, t) => if d = c then none else some (d, t)
      | none => none }

/-- A pseudo-channel is dead (R329). -/
def killPseudo (s : State) (c pc : Nat) : State := { s with pcDead := cset false s.pcDead (2 * c + pc) true }

/-- A bank of a pseudo-channel is dead (R329). -/
def killBank (s : State) (c pc bank : Nat) : State := { s with bankDead := cset false s.bankDead (64 * c + 32 * pc + bank) true }

/-- CHANNEL_FAIL (R329): KIND 0 a channel, 1 a pseudo-channel, 2 a bank. -/
def execChannelFail (kind : BitVec 2) (ch : BitVec 9) (pc : BitVec 1) (bank : BitVec 5) (s : State) :
    Host.Outcome State Fault Refusal :=
  if Config.channels ≤ ch.toNat then .next s
  else match kind.toNat with
    | 0 => .next (killChannel s ch.toNat)
    | 1 => .next (killPseudo s ch.toNat pc.toNat)
    | 2 => .next (killBank s ch.toNat pc.toNat bank.toNat)
    | _ => .next s

/-- An INJDEAD write of this KIND that acts (R344), with its CHANNEL. -/
def injdead (v : Double) (kind : Nat) (s : State) (f : Nat → State) : Host.Outcome State Fault Refusal :=
  let n := v.toNat
  if !bitAt n 63 || bits n 62 60 ≠ kind || bits n 59 19 ≠ 0 || bits n 3 0 ≠ 0 || Config.channels ≤ bits n 18 10 then .next s
  else .next (f (bits n 18 10))

/-- INJDEAD KIND 0 (R344). -/
def execInjdeadChannel (v : Double) (s : State) : Host.Outcome State Fault Refusal := injdead v 0 s (killChannel s)

/-- INJDEAD KIND 1 (R344). -/
def execInjdeadPseudoChannel (v : Double) (s : State) : Host.Outcome State Fault Refusal :=
  injdead v 1 s (fun c => killPseudo s c (bits v.toNat 9 9))

/-- INJDEAD KIND 2 (R344). -/
def execInjdeadBank (v : Double) (s : State) : Host.Outcome State Fault Refusal :=
  injdead v 2 s (fun c => killBank s c (bits v.toNat 9 9) (bits v.toNat 8 4))

/-- INJDEAD KIND 3 (R344): the 32 channels of the stack. -/
def execInjdeadStack (v : Double) (s : State) : Host.Outcome State Fault Refusal :=
  injdead v 3 s (fun c => (List.range 32).foldl (fun s i => killChannel s (c / 32 * 32 + i)) s)

/-- INJDEAD KIND 4 (R344): the channel is due at once. -/
def execInjdeadRetrainNow (v : Double) (s : State) : Host.Outcome State Fault Refusal :=
  injdead v 4 s (fun c => { s with dueNow := cset false s.dueNow c true })

/-! ### Members lost for good (R335) -/

/-- A pseudo-channel of the channel, or the bank of the slot in one, is dead. -/
def slotDead (s : State) (c slot : Nat) : Bool :=
  [0, 1].any (fun pc => cget false s.pcDead (2 * c + pc) || cget false s.bankDead (64 * c + 32 * pc + slotBank slot))

/-- Member `i` of unit `u` is lost for good (R335). -/
def lostForGood (s : State) (u i : Nat) : Bool :=
  let c := memberChannel s u i
  chanHealth s c == .dead || slotDead s c (unitSlot u) || slotRetired s c (unitSlot u)

/-- The members lost for good. -/
def lostMembers (s : State) (u : Nat) : List Nat := (List.range 18).filter (lostForGood s u)

/-- The unit whose member stands in this slot of this channel, if any. -/
def slotUser (s : State) (c slot : Nat) : Option Nat :=
  ((List.range 16).map (16 * slot + ·)).find? (fun u => (List.range 18).any (fun i => memberChannel s u i = c))

/-- The slot is free (R324, R336, R341). -/
def slotFree (s : State) (c slot : Nat) : Bool := !slotRetired s c slot && (slotUser s c slot).isNone

/-- The slot is free and healthy (R335). -/
def slotTarget (s : State) (c slot : Nat) : Bool := chanHealth s c == .good && !slotDead s c slot && slotFree s c slot

/-- Members of the unit, `i` apart, in this stack. -/
def stackMembers (s : State) (u i st : Nat) : Nat :=
  ((List.range 18).filter (fun j => j ≠ i && memberChannel s u j / 32 = st)).length

/-- A channel that the engine may put member `i` on (R325, R335). -/
def mayHold (s : State) (u i c : Nat) : Bool := slotTarget s c (unitSlot u) && decide (stackMembers s u i (c / 32) < 2)

/-- The target for member `i` (R335). -/
def memberTarget (s : State) (u i : Nat) : Option Nat :=
  let first := 32 * spareStack u + 2 * unitGroup u + i % 2
  if mayHold s u i first then some first else (List.range Config.channels).find? (mayHold s u i)

/-- The field of the bond-table entry that a substitution of member `i` takes: 0 or 1 (R325, R335). -/
def memberField (s : State) (u i : Nat) : Option Nat :=
  let e := bondEntry s u
  if bitAt e 14 && bits e 13 9 = i then some 0
  else if bitAt e 29 && bits e 28 24 = i then some 1
  else if !bitAt e 14 then some 0
  else if !bitAt e 29 then some 1
  else none

/-- Member `i`, lost for good, can be rebuilt: it has a target and a field, and has had them since the last reset (R335). -/
def bondable (s : State) (u i : Nat) : Bool :=
  !cget false s.unbond (18 * u + i) && (memberTarget s u i).isSome && (memberField s u i).isSome

/-- A unit is unbondable (R335): a member lost for good has no target or no field. -/
def unbondable (s : State) (u : Nat) : Bool := (lostMembers s u).any (fun i => !bondable s u i)

/-- No channel, part or slot of the device is lost for good. -/
def memoryWhole (s : State) : Bool :=
  s.health.all (fun e => e.2 != .dead) && s.pcDead.isEmpty && s.bankDead.isEmpty && s.retired.isEmpty

/-- The first unit from `u` on, of the next `n`, for which `p` holds. -/
def firstUnit (p : Nat → Bool) : Nat → Nat → Option Nat
  | 0, _ => none
  | n + 1, u => if p u then some u else firstUnit p n (u + 1)

/-- How many units, of the first `n`, satisfy `p`. -/
def countUnits (p : Nat → Bool) : Nat → Nat → Nat
  | 0, a => a
  | n + 1, a => countUnits p n (a + b2n (p n))

/-- The members of the next `n` units from `u` on that cannot be rebuilt stay so until the next reset (R335). -/
def pinUnits (s : State) : Nat → Nat → Cells Bool → Cells Bool
  | 0, _, m => m
  | n + 1, u, m =>
    pinUnits s n (u + 1) (((lostMembers s u).filter (fun i => !bondable s u i)).foldl (fun m i => cset false m (18 * u + i) true) m)

/-- What is unbondable now stays so, whatever comes free after it (R335). -/
def pinUnbondable (s : State) : State := if memoryWhole s then s else { s with unbond := pinUnits s bondUnits 0 s.unbond }

/-- MEMSTAT (R344). -/
def readMemstat (s : State) : Double :=
  let (rt, ch) := match s.retraining with
    | some (c, _) => (1, c)
    | none => (0, 0)
  let degraded := if memoryWhole s then 0 else countUnits (fun u => !(lostMembers s u).isEmpty) bondUnits 0
  let unbond := if memoryWhole s then 0 else countUnits (unbondable s) bondUnits 0
  BitVec.ofNat 64 (degraded * 2 ^ 40 + unbond * 2 ^ 16 + rt * 2 ^ 15 + ch * 2 ^ 6)

/-! ### The repointing engine -/

/-- The first member of a unit that can be rebuilt, and its target. -/
def rebuildOf (s : State) (u : Nat) : Option Rebuild :=
  ((lostMembers s u).find? (bondable s u)).bind (fun i => (memberTarget s u i).map (fun c => ⟨u, i, c, 0⟩))

/-- A unit with `n` members lost for good, or with two and more where `n` is 2, that has one to rebuild. -/
def rebuildClass (s : State) (n u : Nat) : Bool :=
  let l := (lostMembers s u).length
  (if n = 2 then decide (2 ≤ l) else l = n) && (rebuildOf s u).isSome

/-- A stale slot that can be rewritten: its channel is GOOD (R339). The first by unit. -/
def staleSlot (s : State) : Option Nat :=
  if s.stale.isEmpty then none
  else (firstUnit (fun u => (List.range 18).any (fun i =>
      let c := memberChannel s u i
      chanHealth s c == .good && cget false s.stale (slotKey c (unitSlot u)))) bondUnits 0).bind (fun u =>
    ((List.range 18).find? (fun i =>
      let c := memberChannel s u i
      chanHealth s c == .good && cget false s.stale (slotKey c (unitSlot u)))).map (fun i => slotKey (memberChannel s u i) (unitSlot u)))

/-- The rebuild in progress can go on: its member is still lost for good, and its target is free and healthy. -/
def rebuildStands (s : State) (r : Rebuild) : Bool := lostForGood s r.unit r.member && mayHold s r.unit r.member r.target

/-- A unit with two or more members lost for good waits, with one that can be rebuilt (R337). -/
def doubleLoss (s : State) : Option Nat := if memoryWhole s then none else firstUnit (rebuildClass s 2) bondUnits 0

/-- What the engine rebuilds next: units with two or more members lost, then, once no stale slot is left, units with one (R337).
The rebuild in progress goes on while it is the next. -/
def nextRebuild (s : State) : Option Rebuild :=
  let pick := if memoryWhole s then none
    else match doubleLoss s with
      | some u => rebuildOf s u
      | none => if (staleSlot s).isSome then none else (firstUnit (rebuildClass s 1) bondUnits 0).bind (rebuildOf s)
  match pick, s.rebuild with
  | some p, some r => if r.unit = p.unit && r.member = p.member && rebuildStands s r then some r else some p
  | p, _ => p

/-- The keeper decodes position `p` of a span (R331): a span with three or more members lost is poisoned (R333). -/
def decodeSpan (s : State) (u p q : Nat) : State :=
  if 3 ≤ lostCount s u q then poisonSpan s u q false
  else if p < 16 && memberLost s u (posMember u p) q then decodeMember s u p q else s

/-- A member's sector as the rebuild reads it: decoded where it is lost, else under the sector code (R331, R336). -/
def rebuildRead (s : State) (u i q : Nat) : State :=
  if memberLost s u i q then decodeSpan s u (memberPos u i) q else readSectorCode s u (memberPos u i) q

/-- REBUILD_SPAN (R336): one span is decoded and written to the target. -/
def execRebuildSpan (s : State) : Host.Outcome State Fault Refusal :=
  if s.phase ≠ 4 then .next s
  else match nextRebuild s with
    | none => .next { s with rebuild := none }
    | some r =>
      if 128 ≤ r.cursor then .next { s with rebuild := some r }
      else
        let s := mendSector (rebuildRead s r.unit r.member r.cursor) r.target (unitSlot r.unit) r.cursor
        .next { s with rebuild := some { r with cursor := r.cursor + 1 } }

/-- The entry after a substitution (R325). -/
def bondWith (e f i c : Nat) : Nat :=
  if f = 0 then e / 2 ^ 15 * 2 ^ 15 + 2 ^ 14 + i * 2 ^ 9 + c
  else e % 2 ^ 15 + (2 ^ 14 + i * 2 ^ 9 + c) * 2 ^ 15

/-- MEMBER_SWITCH (R296, R336): every copy in an L1 is dropped, and the entry is journalled and written. -/
def execMemberSwitch (s : State) : Host.Outcome State Fault Refusal :=
  match s.rebuild with
  | none => .next s
  | some r =>
    if r.cursor < 128 || s.phase ≠ 4 then .next s
    else if !rebuildStands s r then .next { s with rebuild := none }
    else match memberField s r.unit r.member with
      | none => .next { s with rebuild := none }
      | some f =>
        let s := dropLines s (fun _ => true) (fun x => match x.home with
          | .dev pa => unitOf pa = r.unit
          | _ => false)
        let s := dropL2 s (fun x => match x.home with
          | .dev pa => unitOf pa = r.unit && posMember r.unit (posOf pa) = r.member
          | _ => false)
        .next { s with rebuild := none
                       bond := cset 0#32 s.bond r.unit (BitVec.ofNat 32 (bondWith (bondEntry s r.unit) f r.member r.target)) }

/-- STALE_SLOT_REWRITE (R339): each span is decoded and written back to the slot, and the bit is cleared; units with two members
lost come first (R337). -/
def execStaleSlotRewrite (s : State) : Host.Outcome State Fault Refusal :=
  if s.phase ≠ 4 || (doubleLoss s).isSome then .next s
  else match staleSlot s with
    | none => .next s
    | some key =>
      let c := key / 524288
      let slot := key % 524288
      match slotUser s c slot with
      | none => .next { s with stale := cset false s.stale key false }
      | some u =>
        let i := ((List.range 18).find? (fun i => memberChannel s u i = c)).getD 0
        let s := (List.range 128).foldl (fun s q => mendSector (decodeSpan s u (memberPos u i) q) c slot q) s
        .next { s with stale := cset false s.stale key false }

/-! ### Live retraining (R29, R338) -/

/-- MEMCTL.RTMIN and RTDEG (R344). -/
def rtMin (s : State) : Nat := bits s.memctl.toNat 39 32
def rtDeg (s : State) : Nat := bits s.memctl.toNat 31 24

/-- A channel is due (R338, R344). -/
def retrainDue (s : State) (c : Nat) : Bool :=
  cget false s.dueNow c
    || (rtMin s ≠ 0 && decide (cget 0 s.trained c + 60000000000 * rtMin s ≤ s.now))
    || (rtDeg s ≠ 0 && decide (rtDeg s < (chanTemp s c - cget 25 s.trainTemp c).natAbs))

/-- A unit of the channel holds an erasure that is not rebuilt, or is unbondable (R29, R338). -/
def erasureWith (s : State) (c u : Nat) : Bool :=
  (List.range 18).any (fun i => memberChannel s u i = c) &&
  (List.range 18).any (fun i => lostForGood s u i || cget false s.stale (slotKey (memberChannel s u i) (unitSlot u)))

/-- R29 defers the training of a channel. -/
def retrainDeferred (s : State) (c : Nat) : Bool :=
  !(memoryWhole s && s.stale.isEmpty) && (firstUnit (erasureWith s c) bondUnits 0).isSome

/-- The channel that is retrained next. -/
def nextRetrain (s : State) : Option Nat :=
  if s.phase ≠ 4 || s.retraining.isSome then none
  else (List.range Config.channels).find? (fun c => chanHealth s c == .good && retrainDue s c && !retrainDeferred s c)

/-- RETRAIN_START (R338). -/
def execRetrainStart (s : State) : Host.Outcome State Fault Refusal :=
  match nextRetrain s with
  | none => .next s
  | some c => .next { s with health := cset .good s.health c .retrain, retraining := some (c, s.now) }

/-- A channel has been trained (R338). -/
def trainedNow (s : State) (c : Nat) : State :=
  { s with trained := cset 0 s.trained c s.now, trainTemp := cset 25 s.trainTemp c (chanTemp s c),
           dueNow := cset false s.dueNow c false }

/-- RETRAIN_END (R338). -/
def execRetrainEnd (s : State) : Host.Outcome State Fault Refusal :=
  match s.retraining with
  | none => .next s
  | some (c, t) =>
    if t + 4000000 ≤ s.now then .next s
    else
      let s := pinUnbondable s
      .next (trainedNow { s with health := cset .good s.health c .good, retraining := none } c)

/-- RETRAIN_TIMEOUT (R338). -/
def execRetrainTimeout (s : State) : Host.Outcome State Fault Refusal :=
  match s.retraining with
  | none => .next s
  | some (c, t) => .next (if t + 4000000 ≤ s.now then killChannel s c else s)

/-! ### The patrol scrubber (R340, R341) -/

/-- What a pass reads: every span of every unit, then every slot of every channel that is free. -/
def scrubItems : Nat := bondUnits * 128 + Config.channels * Config.channelSlots

/-- Length of a pass in ns (R340). -/
def scrubPeriod (s : State) : Nat := 60000000000 * bits s.memctl.toNat 63 48

/-- How far the pass should be by now. -/
def scrubGoal (s : State) : Nat :=
  if scrubPeriod s = 0 || s.phase ≠ 4 then 0 else min scrubItems ((s.now - s.scrubFrom) * scrubItems / scrubPeriod s)

/-- The scrubber has something to read. -/
def scrubDue (s : State) : Bool := decide (s.scrubAt < scrubGoal s)

/-- The scrubber reads sector `q` of a slot that stands in no unit (R340): a corrected symbol is counted and the sector written
back; an uncorrectable one is counted. -/
def scrubSector (s : State) (c slot q : Nat) : State :=
  if chanHealth s c != .good || partDead s c slot q || sectorClean s c slot q then s
  else if sectorBad s c slot q then countBad s c slot q
  else mendSector (countCe s c slot q 1) c slot q

/-- The scrubber reads the sector at position `p` of a span (R340): as any read, and a sector that it has corrected is written
back. -/
def scrubMember (s : State) (u q p : Nat) : State :=
  let i := posMember u p
  let c := memberChannel s u i
  if memberShut s u i q then s
  else if memberBad s u i q then countBad s c (unitSlot u) q
  else mendSector (readSectorCode s u p q) c (unitSlot u) q

/-- A symbol that the syndromes of byte `b` of a span locate is rewritten, and counted (R328, R340, R343). -/
def mendSymbol (u q : Nat) (s : State) (b : Nat) : State :=
  match locate (spanSyndrome s u q b (fun _ => true)) with
  | .symbol p e =>
    countChan (slipMember s u p q ((List.replicate 33 0#8).set b e)) (memberChannel s u (posMember u p))
      (fun k => { k with located := k.located + 1 })
  | _ => s

/-- A syndrome of a span is unlocatable (R328). -/
def spanUnlocatable (s : State) (u q : Nat) : Bool :=
  (List.range 33).any (fun b => locate (spanSyndrome s u q b (fun _ => true)) == .unlocatable)

/-- The scrubber checks the syndromes of a span (R340). -/
def scrubSyndromes (s : State) (u q : Nat) : State :=
  if spanClean s u q then s
  else if spanUnlocatable s u q then poisonSpan s u q true
  else (List.range 33).foldl (mendSymbol u q) s

/-- The scrubber reads a span (R340): one with lost members is left to the repointing engine. -/
def scrubUnitSpan (s : State) (u q : Nat) : State :=
  let s := (List.range 18).foldl (fun s p => scrubMember s u q p) s
  if lostCount s u q = 0 then scrubSyndromes s u q else s

/-- One item of a pass. -/
def scrubItem (s : State) (n : Nat) : State :=
  if n < bondUnits * 128 then scrubUnitSpan s (n / 128) (n % 128)
  else
    let key := n - bondUnits * 128
    let c := key / 524288
    let slot := key % 524288
    if slotFree s c slot then (List.range 128).foldl (fun s q => scrubSector s c slot q) s else s

/-- The pass stands at item `n`; a pass that has read everything ends. -/
def scrubTo (s : State) (n : Nat) : State :=
  if n < scrubItems then { s with scrubAt := n }
  else { s with scrubAt := 0, scrubPass := s.scrubPass + 1, scrubFrom := s.scrubFrom + scrubPeriod s, passCe := [] }

/-- SCRUB_SPAN (R340): one span or free slot; where no part of the memory is lost nothing changes, and all that is due is
read at once. -/
def execScrubSpan (s : State) : Host.Outcome State Fault Refusal :=
  if !scrubDue s then .next s
  else if allGood s then .next (scrubTo s (scrubGoal s))
  else .next (scrubTo (scrubItem s s.scrubAt) (s.scrubAt + 1))

/-! ### Counts and injected events -/

/-- COUNTER_FLUSH (R343). -/
def execCounterFlush (s : State) : Host.Outcome State Fault Refusal :=
  .next (if s.now < s.nextFlush then s else { s with nvsCounts := s.chanCounts, nextFlush := s.nextFlush + 60000000000 })

/-- A stored symbol of a sector changes (R327). -/
def upsetSector (s : State) (c slot q symbol : Nat) (v : Byte) : State :=
  if Config.channels ≤ c || Config.channelSlots ≤ slot || 128 ≤ q || 36 ≤ symbol then s
  else
    let key := 36 * sectorKey c slot q + symbol
    { s with symbols := cset 0#8 s.symbols key (cget 0#8 s.symbols key ^^^ v) }

end Sys2Proof.Machine
end

