-- ==== Sys2Proof/Machine/Mailbox.lean ====
section
/-!
DEFINITION. The management controller's mailbox (R404): attestation (R406), firmware (R405), the lifetime counters (R343)
and the repair list (R342). A command ends within the step that writes MBCMD.
-/

namespace Sys2Proof.Machine

/-! ### Commands -/

/-- LEN of a command (R404). -/
def mbLen (v : Double) : Nat := bits v.toNat 63 48

/-- The input of a command. -/
def mbInput (s : State) (v : Double) : List Byte := crun 0#8 s.mailbox 0 (mbLen v)

/-- MBSTAT with BUSY clear (R404): 0 done, 1 bad command, 2 verification failed, 3 rollback refused. -/
def mbResult (s : State) (status out : Nat) : State := { s with mbstat := BitVec.ofNat 64 (status * 2 ^ 28 + out) }

/-- A command ends with output in the mailbox buffer. -/
def mbOutput (s : State) (l : List Byte) : State :=
  let l := l.take 4096
  mbResult { s with mailbox := csetRun 0#8 s.mailbox 0 l } 0 l.length

/-- The command is of this OP, and its input fits the buffer. -/
def mbCommand (v : Double) (op : Nat) (s : State) (f : State → State) : Host.Outcome State Fault Refusal :=
  if bits v.toNat 7 0 ≠ op then .next s
  else if 4096 < mbLen v then .next (mbResult s 1 0)
  else .next (f s)

/-! ### Attestation (R406) -/

/-- The identity public key in the 516-byte form of MBCMD OP 6: modulus, then exponent (R404). -/
def identityKey : List Byte := keyBytes Config.identityModulus Config.identityExponent

/-- 0x000 to 0x24F of a report. -/
def attestBody (s : State) (nonce : List Byte) : List Byte :=
  let hashes := s.images.flatMap sha512
  bytesOfNat 4 0x54484154 ++ bytesOfNat 4 1 ++ bytesOfNat 4 0x250 ++ bytesOfNat 4 s.images.length
    ++ bytesOfNat 16 Config.partSerial.toNat ++ sha512 identityKey
    ++ (hashes ++ List.replicate 256 0#8).take 256 ++ bytesOfNat 8 s.rollback.toNat
    ++ allParts.flatMap (fun p => let q := getPart s p
        bytesOfNat 8 q.pctl.toNat ++ bytesOfNat 8 q.pres.toNat ++ bytesOfNat 8 q.pmem.toNat)
    ++ nonce ++ bytesOfNat 8 s.now

/-- A signed report (R406): the salt is 64 bytes of the security engine's own draw. -/
def attestReport (s : State) (nonce : List Byte) : List Byte × State :=
  let body := attestBody s nonce
  let salt := (List.range 64).map (fun i => Config.freeByte (s.fresh + i))
  (body ++ rsaSign Config.identityModulus Config.identityPrivate body salt, { s with fresh := s.fresh + 64 })

/-- ATTEST (R404, R406): the nonce is 32 bytes. -/
def execAttest (v : Double) (s : State) : Host.Outcome State Fault Refusal :=
  mbCommand v 1 s (fun s =>
    if mbLen v ≠ 32 then mbResult s 1 0
    else
      let (r, s) := attestReport s (mbInput s v)
      mbOutput s r)

/-- READ_IDENTITY_KEY (R404). -/
def execReadIdentityKey (v : Double) (s : State) : Host.Outcome State Fault Refusal :=
  mbCommand v 6 s (fun s => mbOutput s identityKey)

/-! ### Firmware (R405) -/

/-- FWSTAGE (R404): the input is appended to the staged image. -/
def execFwstage (v : Double) (s : State) : Host.Outcome State Fault Refusal :=
  mbCommand v 2 s (fun s => mbResult { s with staged := s.staged ++ mbInput s v } 0 0)

/-- Header and body of an image, and its signature. -/
def imageBody (l : List Byte) : List Byte := l.take (l.length - 512)
def imageSignature (l : List Byte) : List Byte := l.drop (l.length - 512)

/-- Thogal's public key is the one whose SHA-512 the fuses hold (R405). -/
def keyFused : Bool := sha512 (keyBytes Config.thogalModulus Config.thogalExponent) == Config.fusedKeyHash

/-- The image's magic and signature are good (R405). -/
def imageVerifies (l : List Byte) : Bool :=
  decide (512 ≤ l.length) && Config.imageMagic (imageBody l) == 0x54484657 && keyFused
    && rsaVerify Config.thogalModulus Config.thogalExponent (imageBody l) (imageSignature l)

/-- The image may be used: it verifies, and its rollback value is not below the fused counter (R405). -/
def imageUsable (s : State) (l : List Byte) : Bool :=
  imageVerifies l && decide (s.rollback.toNat ≤ Config.imageRollback (imageBody l))

/-- FWCOMMIT of a staged image (R405). -/
def commitImage (s : State) : State :=
  let l := s.staged
  let s := { s with staged := [] }
  let level := Config.imageRollback (imageBody l)
  if !imageVerifies l then mbResult s 2 0
  else if level < s.rollback.toNat then mbResult s 3 0
  else
    let slot := 1 - s.runSlot
    mbResult { s with imageSlots := s.imageSlots.set slot (some l), bootSlot := slot, rollback := BitVec.ofNat 64 level } 0 0

/-- FWCOMMIT (R404, R405). -/
def execFwcommit (v : Double) (s : State) : Host.Outcome State Fault Refusal := mbCommand v 3 s commitImage

/-! ### Counts and repairs -/

/-- Put a slot and its count at its place among the highest. -/
def insertSlot (e : Nat × Nat) : List (Nat × Nat) → List (Nat × Nat)
  | [] => [e]
  | b :: t => if b.2 < e.2 then e :: b :: t else b :: insertSlot e t

/-- The 64 slots with the highest CE, with their counts (R343). -/
def topSlots (c : ChanCount) : List Nat :=
  (((c.slots.foldl (fun l e => insertSlot e l) ([] : List (Nat × Nat))).take 64).flatMap (fun (e : Nat × Nat) => [e.1, e.2])
    ++ List.replicate 128 0).take 128

/-- The counts of a channel (R343). -/
def countRow (c : ChanCount) : List Nat :=
  [c.ce, c.uncorrectable, c.located, c.retired, c.poisoned, c.listFull] ++ crun 0 c.bins 0 16 ++ topSlots c

/-- READ_LIFETIME_COUNTERS (R343, R404). -/
def execReadLifetimeCounters (v : Double) (s : State) : Host.Outcome State Fault Refusal :=
  mbCommand v 4 s (fun s => mbOutput s (Config.counterLayout ((List.range Config.channels).flatMap (fun c => countRow (chanCount s c)))))

/-- STATE of a repair entry (R342). -/
def repairState (e : Double) : Nat := bits e.toNat 63 62

/-- Channel, pseudo-channel, bank and row of an entry. -/
def repairChannel (e : Double) : Nat := 32 * bits e.toNat 53 50 + bits e.toNat 49 45
def repairPc (e : Double) : Nat := bits e.toNat 44 44
def repairBank (e : Double) : Nat := bits e.toNat 43 39
def repairSlot (e : Double) : Nat := bits e.toNat 38 25 * 32 + repairBank e

/-- An entry is pending or failed. -/
def repairOpen (e : Double) : Bool := repairState e == 1 || repairState e == 3

/-- A slot whose rows have no entry pending or failed is retired no more (R342): of the slots that `was` names. -/
def freeRepaired (s : State) (was : List Double) : State :=
  was.foldl (fun s e =>
    if s.repair.any (fun r => repairOpen r && repairChannel r == repairChannel e && repairSlot r == repairSlot e) then s
    else { s with retired := cset false s.retired (slotKey (repairChannel e) (repairSlot e)) false }) s

/-- CLEAR_REPAIR_ENTRIES (R342, R404): entries burned or failed leave the list. -/
def execClearRepairEntries (v : Double) (s : State) : Host.Outcome State Fault Refusal :=
  mbCommand v 5 s (fun s =>
    let (out, kept) := s.repair.partition (fun e => decide (2 ≤ repairState e))
    mbResult (freeRepaired { pinUnbondable s with repair := kept } out) 0 0)

end Sys2Proof.Machine
end

