-- ==== Sys2Proof/Machine/Fabric.lean ====
section
/-!
DEFINITION. The device's links: host accesses to device memory (R297, R398), requests of remote devices (R293, R400), the
flow control and the replay of fabric ports (R399), and the modules of the host link (R398).
-/

namespace Sys2Proof.Machine

/-! ### Page-request records that wait for room (R371) -/

/-- The oldest record of a context that waits for room is written, where there is room; where the ring cannot be written, the
context is removed, and a command that waits for the page ends (R364, R371). -/
def flushRecord (s : State) (x : Context) : Option State :=
  match x.faults.find? (fun e => e.waiting.isSome) with
  | none => none
  | some e =>
    if !ringWritable s x then
      some (dropStalled (loseContext (setCtx s x.asid { x with faults := x.faults.filter (fun f => f.fid ≠ e.fid) }) x.asid) e)
    else if ringFull s x then none
    else
      let x := { x with faults := x.faults.map (fun f => if f.fid = e.fid then { f with waiting := none } else f) }
      some (raise (putRecord (setCtx s x.asid x) x (e.waiting.getD [])) x.part 1)

/-- The first record of any context that can be written now. -/
def flushRecords (s : State) : Option State := s.contexts.findSome? (fun e => flushRecord s e.2)

/-! ### The host and device memory (R297, R398) -/

/-- Lines of 64 bytes that a range touches. -/
def hostLines (pa n : Nat) : List Nat := (List.range ((pa + n - 1) / 64 - pa / 64 + 1)).map (pa / 64 + ·)

/-- Sectors that a range touches, by their first byte. -/
def rangeSectors (pa n : Nat) : List Nat := (List.range ((pa + n - 1) / 32 - pa / 32 + 1)).map (fun i => (pa / 32 + i) * 32)

/-- The host loads: it gets the home's value, and from then on holds the lines (R297). -/
def hostLoad (s : State) (pa n : Nat) : State :=
  let s := (rangeSectors pa n).foldl readTouch s
  { s with out := s.out ++ [.hostData pa (homeBytes s (.dev pa) n) (homePoisoned s (.dev pa) n)]
           hostHeld := s.hostHeld ++ (hostLines pa n).filter (fun l => !s.hostHeld.contains l) }

/-- The host stores: each sector is performed at its home (R293). -/
def hostStore (s : State) (pa : Nat) (bs : List Byte) : State :=
  (groupCells (bs.zipIdx.map (fun e => (Home.dev (pa + e.2), e.1))) []).foldl (fun t g => match g.1 with
    | .dev base => performHome t base g.2
    | _ => t) s

/-- HOST_MEMORY_ACCESS (R297, R398): a load of `len` bytes where there are no data, else a store. Before READY a request
completes with the poison indication. -/
def execHostMemoryAccess (pa : BitVec 39) (len : Nat) (data : List Byte) (s : State) : Host.Outcome State Fault Refusal :=
  let n := min (if data.isEmpty then len else data.length) (Config.deviceBytes - pa.toNat)
  if n = 0 then .next s
  else if s.phase ≠ 4 then
    .next { s with out := s.out ++ [.hostData pa.toNat (if data.isEmpty then List.replicate n 0#8 else []) true] }
  else .next (if data.isEmpty then hostLoad s pa.toNat n else hostStore s pa.toNat (data.take n))

/-- HOST_SNOOP (R297): the L2 copy of the host line goes; L1 copies stay. -/
def execHostSnoop (pa : BitVec 52) (s : State) : Host.Outcome State Fault Refusal :=
  .next (dropL2 s (fun x => x.home == .host (pa.toNat / 128 * 128)))

/-! ### Requests of remote devices (R293, R400) -/

/-- The answer to a request: `poison` gives the offsets of the bytes that come poisoned. -/
def reply (s : State) (ok : Bool) (poison : List Nat) (bs : List Byte) : State := { s with out := s.out ++ [.reply ok poison bs] }

/-- A remote request is refused by the translation here. -/
def replyFail (s : State) : State := reply s false [] []

/-- The bytes of a range as the hub reads them, with their poison; nothing where a page of it is not mapped, or leads to the
fabric. -/
def hubPois (s : State) (asid : BitVec 16) (va n : Nat) : Option (List (Poi Byte)) :=
  (pagePieces (n / 65536 + 2) va n).foldr (fun p acc => match translate s asid p.1, acc with
    | .mem h _, some l => some (homePois s h p.2 ++ l)
    | _, _ => none) (some [])

/-- A remote load (R200, R293). -/
def remoteLoad (s : State) (asid : BitVec 16) (va n : Nat) : State :=
  let s := (pagePieces (n / 65536 + 2) va n).foldl (fun s p => hubTouch s asid p.1 p.2) s
  match hubPois s asid va n with
  | some l => reply s true (l.zipIdx.filterMap (fun e => if e.1.2 then some e.2 else none)) (l.map (·.1))
  | none => replyFail s

/-- The cells of a remote store, with their poison; nothing where a page of it is not mapped or not writable. -/
def remoteCells (s : State) (asid : BitVec 16) (va : Nat) (poison : List Nat) (bs : List Byte) : Option (List (Home × Poi Byte)) :=
  bs.zipIdx.foldr (fun e acc => match translate s asid (va + e.2), acc with
    | .mem h f, some l => if f.write then some ((h, if poison.contains e.2 then (0, true) else (e.1, false)) :: l) else none
    | _, _ => none) (some [])

/-- A remote store: a byte that comes poisoned marks its sector (R200, R271, R293). -/
def remoteStore (s : State) (asid : BitVec 16) (va : Nat) (poison : List Nat) (bs : List Byte) : State :=
  match remoteCells s asid va poison bs with
  | some l => reply (putGlobal s asid l) true [] []
  | none => replyFail s

/-- A read-modify-write at its home for a remote device: the old bytes come poisoned where the sector is. -/
def remoteUpdate (s : State) (asid : BitVec 16) (h : Home) (n : Nat) (f : Nat → Option Nat) : State :=
  let s := homeTouch (l2Access s asid h (homeSectors h n) 0 0) h
  if homePoisoned s h n then reply s true (List.range n) (List.replicate n 0#8)
  else
    let bs := homeBytes s h n
    reply (match f (natOfBytes bs) with
      | some v => performBy s asid (homeSector h) ((bytesOfNat n v).zipIdx.map (fun e => (homeOffset h + e.2, e.1))) 0
      | none => s) true [] bs

/-- The writable home of an aligned unit of `n` bytes. -/
def remoteHome (s : State) (asid : BitVec 16) (va n : Nat) : Option Home :=
  match translate s asid va with
  | .mem h f => if f.write && va % n = 0 then some h else none
  | _ => none

/-- Every WAIT of the context's partition is to be tested again (R45). -/
def retestContext (s : State) (asid : BitVec 16) : State := match getCtx s asid with
  | some x => retestWaits s x.part
  | none => s

/-- FABRIC_REQUEST (R293, R400): the address is translated here, in the context that the request names. -/
def execFabricRequest (asid : BitVec 16) (va : BitVec 48) (kind : RemoteOp) (data : List Byte) (s : State) :
    Host.Outcome State Fault Refusal :=
  let a := va.toNat
  if s.phase ≠ 4 then .next (replyFail s)
  else match kind with
    | .load n => .next (remoteLoad s asid a n)
    | .store poison => .next (remoteStore s asid a poison data)
    | .atomic op =>
      let x := BitVec.ofNat 32 (natOfBytes (data.take 4))
      let y := BitVec.ofNat 32 (natOfBytes ((data.drop 4).take 4))
      .next (match remoteHome s asid a 4 with
        | some h => remoteUpdate s asid h 4 (atomNew op x y)
        | none => replyFail s)
    | .storeWide x =>
      .next (match remoteHome s asid a 8 with
        | some h => retestContext (remoteUpdate s asid h 8 (fun _ => some x.toNat)) asid
        | none => replyFail s)
    | .addWide x =>
      .next (match remoteHome s asid a 8 with
        | some h => retestContext (remoteUpdate s asid h 8 (fun o => some ((o + x.toNat) % 2 ^ 64))) asid
        | none => replyFail s)

/-! ### Fabric ports (R399) -/

/-- A virtual lane of a port; there are 18 ports. -/
def laneKey (port vl : Nat) : Nat := 4 * port + vl

def getLane (s : State) (port vl : Nat) : Lane := (find? s.lanes (laneKey port vl)).getD Lane.reset

/-- Change a virtual lane of a port that exists. -/
def updLane (s : State) (port vl : Nat) (f : Lane → Lane) : State :=
  if 18 ≤ port || 4 ≤ vl then s else { s with lanes := put s.lanes (laneKey port vl) (f (getLane s port vl)) }

/-- A flit goes out: it stays in the replay buffer until it is acknowledged. -/
def sendFlit (s : State) (port vl id : Nat) : State :=
  let s := updLane s port vl (fun l => { l with replay := l.replay ++ [id] })
  { s with out := s.out ++ [.flit port vl id] }

/-- Sending on a virtual lane is stopped, or flits wait there already (R399). -/
def lanePaused (s : State) (l : Lane) : Bool := decide (s.now < l.pausedUntil) || !l.waiting.isEmpty

/-- Sending goes on: what has waited goes out. -/
def resumeLane (s : State) (port vl : Nat) : State :=
  let l := (getLane s port vl).waiting
  l.foldl (fun s i => sendFlit s port vl i) (updLane s port vl (fun l => { l with pausedUntil := 0, waiting := [] }))

/-- FABRIC_PAUSE_FLIT (R399): sending stops until a resume flit, or 2 us from the last pause. -/
def execFabricPauseFlit (port : BitVec 5) (vl : BitVec 2) (s : State) : Host.Outcome State Fault Refusal :=
  .next (updLane s port.toNat vl.toNat (fun l => { l with pausedUntil := s.now + 2000 }))

/-- FABRIC_RESUME_FLIT (R399). -/
def execFabricResumeFlit (port : BitVec 5) (vl : BitVec 2) (s : State) : Host.Outcome State Fault Refusal :=
  .next (resumeLane s port.toNat vl.toNat)

/-- PAUSE_EXPIRY (R399). -/
def execPauseExpiry (port : BitVec 5) (vl : BitVec 2) (s : State) : Host.Outcome State Fault Refusal :=
  let l := getLane s port.toNat vl.toNat
  .next (if l.pausedUntil ≠ 0 && l.pausedUntil ≤ s.now then resumeLane s port.toNat vl.toNat else s)

/-- FLIT_REPLAY (R399): the replay buffer goes out again, in order; on a virtual lane that is paused it waits, ahead of the
flits that wait already. -/
def execFlitReplay (port : BitVec 5) (vl : BitVec 2) (s : State) : Host.Outcome State Fault Refusal :=
  let l := getLane s port.toNat vl.toNat
  .next (if lanePaused s l then
      updLane s port.toNat vl.toNat (fun l => { l with waiting := l.replay ++ l.waiting, replay := [] })
    else { s with out := s.out ++ l.replay.map (fun i => .flit port.toNat vl.toNat i) })

/-- A pause flit goes out. -/
def sendPause (s : State) (port vl : Nat) : State :=
  let s := updLane s port vl (fun l => { l with pausing := true, lastPause := s.now })
  { s with out := s.out ++ [.pause port vl] }

/-- PAUSE_FLIT_REPEAT (R399): every 1 us while the occupancy stays above 16 KiB. -/
def repeatDue (s : State) (l : Lane) : Bool := l.pausing && decide (16384 < l.occupancy) && decide (l.lastPause + 1000 ≤ s.now)

def execPauseFlitRepeat (port : BitVec 5) (vl : BitVec 2) (s : State) : Host.Outcome State Fault Refusal :=
  .next (if repeatDue s (getLane s port.toNat vl.toNat) then sendPause s port.toNat vl.toNat else s)

/-- Bytes arrive in a receive buffer (R399). -/
def flitArrives (s : State) (port vl n : Nat) : State :=
  if 18 ≤ port || 4 ≤ vl then s
  else
    let s := updLane s port vl (fun l => { l with occupancy := l.occupancy + n })
    let l := getLane s port vl
    if !l.pausing && 32768 < l.occupancy then sendPause s port vl else s

/-- Bytes leave a receive buffer (R399). -/
def flitLeaves (s : State) (port vl n : Nat) : State :=
  let s := updLane s port vl (fun l => { l with occupancy := l.occupancy - n })
  let l := getLane s port vl
  if l.pausing && l.occupancy < 16384 then
    let s := updLane s port vl (fun l => { l with pausing := false })
    { s with out := s.out ++ [.resume port vl] }
  else s

/-- The device has a flit to send (R399). -/
def flitSends (s : State) (port vl id : Nat) : State :=
  if 18 ≤ port || 4 ≤ vl then s
  else if lanePaused s (getLane s port vl) then updLane s port vl (fun l => { l with waiting := l.waiting ++ [id] })
  else sendFlit s port vl id

/-- The other side has received a flit (R399). -/
def flitAcked (s : State) (port vl id : Nat) : State :=
  updLane s port vl (fun l => { l with replay := l.replay.filter (· ≠ id) })

/-! ### The host link (R398) -/

/-- A module's parity fails at run time: the failures of the last second. -/
def parityFails (s : State) (m : Nat) : State :=
  { s with modules := modifyAt s.modules m (fun e => (e.1, e.2.filter (fun t => decide (s.now < t + 1000000000)) ++ [s.now])) }

/-- A module is to be removed: three failures within 1 s. -/
def moduleBad (s : State) (e : Bool × List Nat) : Bool :=
  e.1 && decide (3 ≤ (e.2.filter (fun t => decide (s.now < t + 1000000000))).length)

/-- MODULE_REMOVE (R398): the link goes on with the rest. -/
def execModuleRemove (m : BitVec 2) (s : State) : Host.Outcome State Fault Refusal :=
  .next { s with modules := modifyAt s.modules m.toNat (fun e => if moduleBad s e then (false, []) else e) }

end Sys2Proof.Machine
end

