-- ==== Sys2Proof/Machine/Boot.lean ====
section
/-!
DEFINITION. Cold start and the loss of power (R326, R342, R343, R402, R405): what the NVS keeps, and the phases from
power-good to READY or FAILED.
-/

namespace Sys2Proof.Machine

/-! ### Power -/

/-- POWER_LOSS (R343): the NVS, the host's memory and the surroundings stay; everything else is as at reset. -/
def execPowerLoss (s : State) : Host.Outcome State Fault Refusal :=
  .next { State.reset with
    now := s.now, agenda := s.agenda, fresh := s.fresh, nextId := s.nextId, out := s.out
    hostMem := s.hostMem, hostPoison := s.hostPoison, temps := s.temps, powered := false, coldStarts := s.coldStarts
    imageSlots := s.imageSlots, runSlot := s.runSlot, bootSlot := s.bootSlot, rollback := s.rollback
    bond := s.bond, health := s.health, pcDead := s.pcDead, bankDead := s.bankDead, repair := s.repair
    retired := s.retired, repairsUsed := s.repairsUsed, offNs := s.offNs, chanCounts := s.nvsCounts, nvsCounts := s.nvsCounts }

/-- The first multiple of `n` after now. -/
def nextTick (s : State) (n : Nat) : Nat := (s.now / n + 1) * n

/-- POWER_GOOD (R402). -/
def execPowerGood (s : State) : Host.Outcome State Fault Refusal :=
  if s.powered then .next s
  else .next { s with
    powered := true, phase := 0, powerGoodAt := s.now, coldStarts := s.coldStarts + 1
    nextInterval := nextTick s 20000, nextWindow := nextTick s 50000, nextPoll := nextTick s 10000
    nextWatchdog := nextTick s 1000000, nextFlush := s.now + 60000000000 }

/-! ### The phases -/

/-- The firmware that the next slot holds, if it may run (R405). -/
def bootFirmware (s : State) : Option (List (List Byte)) :=
  let l := match s.imageSlots.getD s.bootSlot none with
    | none => Config.bootImages.take 4
    | some l => [l]
  if !l.isEmpty && l.all (imageUsable s) then some (l.map imageBody) else none

/-- HUB ends (R398, R402). -/
def endHub (s : State) : State :=
  let s := { s with modules := s.modules.zipIdx.map (fun e => (Config.moduleTrains e.2 s.coldStarts, [])) }
  match bootFirmware s with
  | some l => { s with phase := 1, images := l, runSlot := s.bootSlot }
  | none => { s with phase := 5 }

/-- An entry with another STATE. -/
def withRepairState (e : Double) (n : Nat) : Double := BitVec.ofNat 64 (e.toNat % 2 ^ 62 + n * 2 ^ 62)

/-- The bank of a pseudo-channel that an entry names, and its key. -/
def repairKey (e : Double) : Nat := 64 * repairChannel e + 32 * repairPc e + repairBank e

/-- Burn the pending entries, at most one for each bank of a pseudo-channel, while the bank has a repair resource left (R342):
the entries, and the burns of each bank. -/
def burnEntries (used : Cells Nat) : List Double → List Nat → List Double × Cells Nat
  | [], _ => ([], used)
  | e :: t, did =>
    let key := repairKey e
    if repairState e ≠ 1 || did.contains key then
      let (l, u) := burnEntries used t did
      (e :: l, u)
    else if cget 0 used key < Config.repairResource (repairChannel e) (repairPc e) (repairBank e) then
      let (l, u) := burnEntries (cset 0 used key (cget 0 used key + 1)) t (key :: did)
      (withRepairState e 2 :: l, u)
    else
      let (l, u) := burnEntries used t did
      (withRepairState e 3 :: l, u)

/-- REPAIR ends (R342, R402): a slot is retired while an entry for its rows is pending or failed. -/
def endRepair (s : State) : State :=
  let (l, used) := burnEntries s.repairsUsed s.repair []
  { s with phase := 2, repair := l, repairsUsed := used,
           retired := (l.filter repairOpen).foldl (fun r e => cset false r (slotKey (repairChannel e) (repairSlot e)) true) [] }

/-- A stack is dead (R329). -/
def stackDead (s : State) (k : Nat) : Bool := (List.range 32).all (fun i => chanHealth s (32 * k + i) == .dead)

/-- A channel trains, or is marked DEAD (R402). -/
def bringUp (s : State) (c : Nat) : State :=
  if chanHealth s c == .dead then s
  else if Config.channelTrains c s.coldStarts then trainedNow { s with health := cset .good s.health c .good } c
  else { s with health := cset .good s.health c .dead }

/-- TRAIN ends (R402). -/
def endTrain (s : State) : State :=
  let s := (List.range Config.channels).foldl bringUp s
  if 1 < ((List.range 10).filter (stackDead s)).length then { s with phase := 5 }
  else { s with phase := 4, scrubFrom := s.now }

/-- A phase has met its end condition (R402). -/
def phaseEnds (s : State) : Bool :=
  match s.phase with
  | 0 | 1 | 3 => true
  | 2 => decide (0 ≤ lowestTemp s)
  | _ => false

/-- BOOT_PHASE_END (R402). -/
def execBootPhaseEnd (s : State) : Host.Outcome State Fault Refusal :=
  if !s.powered || !phaseEnds s then .next s
  else match s.phase with
    | 0 => .next (endHub s)
    | 1 => .next (endRepair s)
    | 2 => .next { s with phase := 3 }
    | _ => .next (endTrain s)

end Sys2Proof.Machine
end

