-- ==== Sys2Proof/Machine/Rubbing.lean ====
section
/-!
DEFINITION. Rubbings: the records of a saved block (R378, R381), their chunks and header (R347 to R350, R363, R380), and
what a restore reads back of them (R352, R384, R385).
-/

namespace Sys2Proof.Machine

/-! ### Records -/

/-- A course record of a word (R381). -/
def wordRec (tag : Nat) (w : Word) : TapeRec := .course .w32 tag (w.zeroExtend 64)

def natRec (tag n : Nat) : TapeRec := wordRec tag (BitVec.ofNat 32 n)

/-- A lane record of words, one for each set bit of the mask. -/
def laneRec (tag : Nat) (m : Lanes) (ws : List Word) : TapeRec := .lane .w32 tag m (ws.map (·.zeroExtend 64))

/-- A section's mark (R381). -/
def markRec (kind ord c : Nat) : TapeRec := .mark (BitVec.ofNat 32 (kind * 2 ^ 28 + ord * 2 ^ 12 + c))

/-- Words of a run of bytes. -/
def runWords (m : Cells Byte) (addr n : Nat) : List Word := bytesToWords (crun 0#8 m addr (4 * n))

/-- The words of a 128-bit mark. -/
def markWords (x : BitVec 128) : List Word := (List.range 4).map (fun i => BitVec.ofNat 32 (x.toNat / 2 ^ (32 * i)))

/-! ### The block section -/

/-- The lanes of a local-store record whose sectors carry no poison (R381). -/
def cleanLanes (b : Block) (i : Nat) : Lanes := maskOf (fun l => !cget false b.localPoison (4 * i + l / 8))

/-- The local store, 128 bytes per record (R381). -/
def localRecs (b : Block) : List TapeRec :=
  (List.range (b.alloc / 128)).map (fun i =>
    let ws := runWords b.localMem (128 * i) 32
    laneRec 0 (cleanLanes b i) ((lanesOf (cleanLanes b i)).map (fun l => ws.getD l 0)))

/-- A bank, row-major (R381). -/
def bankRecs (tag : Nat) (k : Bank) : List TapeRec :=
  (List.range 512).map (fun i => laneRec tag allLanes (cgetRun 0#32 k.elems (32 * i) 32))

/-- The 23 words of a block section (R381). -/
def blockWords (b : Block) (l : List Word) : List Word :=
  [BitVec.ofNat 32 (pw l 9 % 2 ^ 16 + b.replays * 2 ^ 16 + b2n b.done * 2 ^ 18), b.bx, b.byy, b.bz, BitVec.ofNat 32 b.alloc]
    ++ (List.range 16).map (fun i => cget 0#32 b.barriers i)
    ++ [BitVec.ofNat 32 b.job, BitVec.ofNat 32 (b.job / 2 ^ 32)]

/-- The block section (R381). -/
def blockSection (b : Block) (l : List Word) (ord : Nat) : List TapeRec :=
  markRec 1 ord 0 :: (blockWords b l).map (wordRec 127) ++ localRecs b ++
    (if b.team = 0 then [] else
      bankRecs 1 b.bank0 ++ bankRecs 2 b.bank1 ++
        (markWords b.bank0.rows ++ markWords b.bank0.cols ++ markWords b.bank1.rows ++ markWords b.bank1.cols).map (wordRec 3))

/-! ### The command section -/

/-- The command section: commands in order of acceptance (R272, R381). -/
def commandSection (cs : List (Nat × Command)) (ord : Nat) : List TapeRec :=
  markRec 2 ord 0 :: cs.flatMap (fun e =>
    natRec 1 (e.2.op + e.2.strm * 2 ^ 8 + b2n e.2.cont * 2 ^ 12 + e.2.course * 2 ^ 13)
      :: (e.2.card ++ e.2.record).map (wordRec 2))

/-! ### The course section -/

/-- Wake condition and datum of a saved path (R378); a command that has completed has no number in the section. -/
def wakeOf (cs : List (Nat × Command)) (p : Park) : Nat × Nat :=
  match p with
  | .barrier id => (1, id)
  | .phase a t => (2, a.toNat % 2 ^ 31 + b2n t * 2 ^ 31)
  | .fault fid => (3, fid)
  | .remote | .commands .. | .arrival | .submission | .longs .. => (4, 0)
  | .continuation id => (5, (cs.findIdx? (fun e => e.1 = id)).getD 0xFFFFFFFF)
  | .running | .acceptance .. | .rejoin | .stage | .tape => (0, 0)

/-- The five words of a path slot (R381). -/
def slotWords (code : Nat) (cs : List (Nat × Command)) : Option Path → List Word
  | none => [0, 0, 0, 0x7F#32, 0]
  | some p =>
    let (w, d) := wakeOf cs p.park
    [packPos code p.pc p.slot, p.mask, p.sig, BitVec.ofNat 32 (linkField p.region + 128 + w * 256), BitVec.ofNat 32 d]

/-- Code of an engine error's cause (R381). -/
def errCode (cause : Nat) : Nat := if cause = 0x09 then 0 else if cause = 0x06 then 1 else 2

/-- The four words of a pending engine error (R381). -/
def errWords (e : EngErr) : List Word :=
  [BitVec.ofNat 32 (1 + errCode e.cause * 2 + e.strm * 8 + e.tag.toNat * 2 ^ 16), e.off.truncate 32, (e.off >>> 32).truncate 32, e.pos]

/-- Words 30 to 41: the tape (R381). -/
def tapeWords (t : Tape) : List Word :=
  let kept := match t.mode with
    | .replay => recordsLeft t
    | _ => t.kept
  tapeStat t :: (List.range 8).map (fun i => t.record.getD i 0) ++
    [BitVec.ofNat 32 (min kept 0xFFFFFFFF), BitVec.ofNat 32 t.seq, BitVec.ofNat 32 (t.seq / 2 ^ 32)]

/-- The words of tag 127 of a course section (R381). -/
def courseWords (k : Course) (code : Nat) (cs : List (Nat × Command)) : List Word :=
  [BitVec.ofNat 32 (k.stackSlot + k.depth * 2 ^ 16 + k.preferred * 2 ^ 23), k.live, k.dead, k.helper,
    BitVec.ofNat 32 (k.fpflags.toNat + k.tilep * 2 ^ 8 + b2n k.contain * 2 ^ 16), k.cashdl, k.traphdl, k.latch, k.casualty,
    BitVec.ofNat 32 k.vspent.toNat, BitVec.ofNat 32 (k.vspent.toNat / 2 ^ 32), BitVec.ofNat 32 (k.vspent.toNat / 2 ^ 64),
    BitVec.ofNat 32 k.sspent.toNat]
    ++ (List.range 7).map (fun i => cget 0#32 k.preds (i + 1))
    ++ slotWords code cs k.path0 ++ slotWords code cs k.path1 ++ tapeWords k.tape
    ++ [BitVec.ofNat 32 (if k.tape.mode = .idle then 0 else k.tape.order), BitVec.ofNat 32 k.engErrs.length] ++ k.engErrs.flatMap errWords

/-- The course section (R381): the contents of a spent register are left out, of a scalar by a zero (R63). -/
def courseSection (k : Course) (code : Nat) (cs : List (Nat × Command)) (ord c : Nat) : List TapeRec :=
  markRec 3 ord c :: (courseWords k code cs).map (wordRec 127)
    ++ (List.range 31).map (fun i => wordRec (96 + i) (if sSpent k i then 0 else cget 0#32 k.sregs i))
    ++ ((List.range k.budget).filter (fun r => !vSpent k r)).map (fun r =>
        laneRec r allLanes ((List.range 32).map (fun l => cget 0#32 k.vregs (32 * r + l))))

/-! ### The tape section -/

/-- The 32 records of a chunk image (R381). -/
def imageRecs (bs : List Byte) : List TapeRec :=
  (List.range 32).map (fun i => laneRec 127 allLanes (bytesToWords ((bs.drop (128 * i)).take 128)))

/-- The images of a tape: the open chunk, and each stage that holds a chunk (R353, R381). -/
def tapeImages (t : Tape) : List (List Byte) :=
  match t.mode with
  | .idle => []
  | .record => (t.chunk.map (fun c => chunkBytes c.index c.seq c.count c.payload false false)).toList
  | .replay => ((t.current.toList ++ t.ahead.toList).filter (·.released)).map (·.image)

/-- The tape section (R381). -/
def tapeSection (t : Tape) (ord c : Nat) : List TapeRec := markRec 4 ord c :: (tapeImages t).flatMap imageRecs

/-! ### Blocks -/

/-- What is saved of a block: the block, its courses that have not exited, its commands in order (R377, R381). -/
structure Image where
  block : Block
  courses : List (Nat × Course)
  cmds : List (Nat × Command)
  /-- Courses that lost chunks kill (R385). -/
  kill : List Nat
  deriving DecidableEq, Repr

/-- The sections of a block (R381). -/
def imageSections (i : Image) (l : List Word) (ord : Nat) : List (List TapeRec) :=
  blockSection i.block l ord :: (if i.cmds.isEmpty then [] else [commandSection i.cmds ord]) ++
    i.courses.flatMap (fun e => courseSection e.2 (word64 l 2) i.cmds ord e.1 ::
      (if e.2.tape.mode = .idle then [] else [tapeSection e.2.tape ord e.1]))

/-! ### Chunks -/

/-- Put a record into the stream; `fresh` begins a new chunk (R350, R381). The last chunk stands first. -/
def streamRec (l : List OpenChunk) (fresh : Bool) (r : TapeRec) : List OpenChunk :=
  let start (n seq : Nat) : OpenChunk :=
    let (bs, pred) := codeRec [] r
    ⟨n, seq, 1, bs, pred⟩
  match l with
  | [] => [start 0 0]
  | c :: t =>
    let (bs, pred) := codeRec c.pred r
    if fresh || decide (4064 < c.payload.length + bs.length) || decide (4095 ≤ c.count) then
      start (c.index + 1) (c.seq + c.count) :: c :: t
    else { c with count := c.count + 1, payload := c.payload ++ bs, pred := pred } :: t

/-- A section's chunks. -/
def streamSection (l : List OpenChunk) : List TapeRec → List OpenChunk
  | [] => l
  | r :: t => t.foldl (fun l r => streamRec l false r) (streamRec l true r)

/-- The chunks of a rubbing, in order (R381). -/
def streamChunks (ss : List (List TapeRec)) : List OpenChunk := (ss.foldl streamSection []).reverse

/-- The header sector (R380). -/
def rubbingHeader (x : Context) (now : Nat) (chunks : List OpenChunk) (blocks courses : Nat) : List Byte :=
  let pcrc := chunks.flatMap (fun c => bytesOfNat 4 (crcStep 0 c.payload).toNat)
  let h := bytesOfNat 4 0x42425552 ++ bytesOfNat 1 1 ++ bytesOfNat 1 x.depth ++ bytesOfNat 2 x.asid.toNat
    ++ bytesOfNat 2 blocks ++ bytesOfNat 2 courses ++ bytesOfNat 4 chunks.length ++ bytesOfNat 8 now
    ++ bytesOfNat 4 (crcStep 0 pcrc).toNat
  h ++ bytesOfNat 4 (crcStep 0 h).toNat

/-- Every byte of a range of the rubbing region can be written. -/
def rubWritable (s : State) (asid : BitVec 16) (va n : Nat) : Bool :=
  accessible s asid va true && accessible s asid (va + n - 1) true

/-- Write the chunks; the first that does not fit the region, or cannot be written, stops the save: its index (R383). -/
def writeChunks (s : State) (x : Context) (last : Nat) : List OpenChunk → Option Nat × State
  | [] => (none, s)
  | c :: t =>
    let off := 32 + 4096 * c.index
    let va := x.rubBase.toNat + off
    if x.rubSize.toNat < off + 4096 || !rubWritable s x.asid va 4096 then (some c.index, s)
    else writeChunks (hubWrite s x.asid va (chunkBytes c.index c.seq c.count c.payload (c.index = last) false)) x last t

/-- Write a context's rubbing, its header last (R363, R380, R383). -/
def writeRubbing (s : State) (x : Context) (ims : List (Image × List Word)) : Option Nat × State :=
  let chunks := streamChunks (ims.zipIdx.flatMap (fun e => imageSections e.1.1 e.1.2 e.2))
  match writeChunks s x (chunks.length - 1) chunks with
  | (some n, s) => (some n, s)
  | (none, s) =>
    if x.rubSize.toNat < 32 || !rubWritable s x.asid x.rubBase.toNat 32 then (some 0, s)
    else (none, hubWrite s x.asid x.rubBase.toNat
      (rubbingHeader x s.now chunks ims.length ((ims.map (fun i => i.1.courses.length)).sum)))

/-! ### Reading chunks back -/

/-- Why a rubbing is not restored: DETAIL and the chunk (R384). -/
structure RubFault where
  detail : Nat
  chunk : Nat
  deriving DecidableEq, Repr

/-- The header's CHUNKS, BLOCKS, COURSES and SCRC, where it passes R384 item 1. -/
def readHeader (s : State) (x : Context) : Option (Nat × Nat × Nat × Nat) :=
  match hubRead s x.asid x.rubBase.toNat 32 with
  | some (bs, false) =>
    let w := natOfBytes bs
    if bits w 31 0 = 0x42425552 && bits w 39 32 = 1 && bits w 47 40 = x.depth && bits w 63 48 = x.asid.toNat
        && bits w 255 224 = (crcStep 0 (bs.take 28)).toNat then
      some (bits w 127 96, bits w 79 64, bits w 95 80, bits w 223 192)
    else none
  | _ => none

/-- A record with the chunk it stood in; nothing for one that a lost chunk held. -/
abbrev Item := Nat × Option TapeRec

/-- A chunk of a rubbing as read: lost, with its SEQ and COUNT where its header could be read, or its SEQ, its PCRC and its
records. -/
inductive RubChunk where
  | lost (h : Option (Nat × Nat))
  | read (seq pcrc : Nat) (recs : List TapeRec)
  deriving DecidableEq, Repr

/-- A clean header is that of chunk `n` of a rubbing whose last chunk is `last` (R348, R352, R384). -/
def rubHeaderOk (bs : List Byte) (n last : Nat) : Bool :=
  hdr bs 31 0 == chunkMagic && hdr bs 63 32 == n && hdr bs 95 64 == (if n = 0 then 0xFFFFFFFF else 4096 * (n - 1))
    && (hdr bs 120 120 == 1) == (n == 0) && decide (hdr bs 107 96 ≤ 4064) && hdr bs 127 122 == 0
    && (n != last || hdr bs 121 121 == 1) && hdr bs 255 224 == (crcStep 0 (bs.take 28)).toNat

/-- The sector at an address returns poison. -/
def sectorPois (s : State) (asid : BitVec 16) (va : Nat) : Bool := match hubRead s asid va 32 with
  | some (_, p) => p
  | none => true

/-- A chunk with a poisoned sector: lost, where nothing else of it fails (R352, R385). -/
def lostChunk (s : State) (x : Context) (bs : List Byte) (va n last : Nat) : Except RubFault RubChunk :=
  if sectorPois s x.asid va then .ok (.lost none)
  else if !rubHeaderOk bs n last then .error ⟨3, n⟩
  else
    let payload := (List.range (ceilDiv (hdr bs 107 96) 32)).any (fun i => sectorPois s x.asid (va + 32 * (i + 1)))
    if payload || (decodeChunk bs n none).isSome then .ok (.lost (some (hdr bs 191 128, hdr bs 119 108))) else .error ⟨3, n⟩

/-- Chunk `n`: lost, or its SEQ, its PCRC and its records (R384 item 2, R385). -/
def readRubChunk (s : State) (x : Context) (n last : Nat) : Except RubFault RubChunk :=
  let off := 32 + 4096 * n
  if x.rubSize.toNat < off + 4096 then .error ⟨3, n⟩
  else match hubRead s x.asid (x.rubBase.toNat + off) 4096 with
    | none => .error ⟨3, n⟩
    | some (bs, true) => lostChunk s x bs (x.rubBase.toNat + off) n last
    | some (bs, false) =>
      match rubHeaderOk bs n last, decodeChunk bs n none with
      | true, some (seq, _, _, rs) => .ok (.read seq (hdr bs 223 192) rs)
      | _, _ => .error ⟨3, n⟩

/-- What reading the chunks has found so far. -/
structure RubRead where
  /-- Records found, the latest chunk's last. -/
  items : List Item
  /-- The sequence number that comes next. -/
  seq : Nat
  /-- The first chunk lost with its header since the last one whose header was read. -/
  lost : Option Nat
  anyLost : Bool
  pcrc : List Byte
  deriving DecidableEq, Repr

/-- Records of chunk `n`, which begin at this SEQ: those that lost chunks before it held are counted by it (R385). -/
def addRecs (r : RubRead) (n seq : Nat) (l : List (Option TapeRec)) : Except RubFault RubRead :=
  if seq < r.seq || (r.lost.isNone && seq ≠ r.seq) then .error ⟨3, n⟩
  else .ok { r with
    items := r.items ++ List.replicate (seq - r.seq) ((r.lost.getD n, none) : Item) ++ l.map (fun x => (n, x))
    seq := seq + l.length, lost := none }

/-- Take one chunk into the stream (R384, R385). -/
def takeChunk (r : RubRead) (n : Nat) : RubChunk → Except RubFault RubRead
  | .lost none => .ok { r with lost := some (r.lost.getD n), anyLost := true }
  | .lost (some (seq, count)) => addRecs { r with anyLost := true } n seq (List.replicate count none)
  | .read seq crc rs => addRecs { r with pcrc := r.pcrc ++ bytesOfNat 4 crc } n seq (rs.map some)

/-- The chunks from `n` on. -/
def readChunks (s : State) (x : Context) (last : Nat) : List Nat → RubRead → Except RubFault RubRead
  | [], r => .ok r
  | n :: t, r =>
    match readRubChunk s x n last with
    | .error e => .error e
    | .ok c => match takeChunk r n c with
      | .error e => .error e
      | .ok r => readChunks s x last t r

/-! ### Sections -/

/-- A section as found: its mark word, where that was decoded, its chunk, and its records. -/
structure RubSection where
  mark : Option Nat
  chunk : Nat
  items : List (Option TapeRec)
  deriving DecidableEq, Repr

/-- Cut the stream at the decoded marks, each of which must begin a chunk (R381). -/
def cutSections : List Item → List RubSection → Option Nat → Except RubFault (List RubSection)
  | [], acc, _ => .ok acc.reverse
  | (n, some (.mark w)) :: t, acc, prev =>
    if prev = some n then .error ⟨4, n⟩ else cutSections t (⟨some w.toNat, n, []⟩ :: acc) (some n)
  | (n, r) :: t, acc, _ =>
    match acc with
    | [] => cutSections t [⟨none, n, [r]⟩] (some n)
    | a :: rest => cutSections t ({ a with items := a.items ++ [r] } :: rest) (some n)

/-- Fields of a mark: kind, ordinal, course (R381). -/
def markKind (w : Nat) : Nat := bits w 31 28
def markOrd (w : Nat) : Nat := bits w 27 12
def markCourse (w : Nat) : Nat := bits w 4 0

/-- The place of a section in the order of R381. -/
def markPlace (w : Nat) : Nat :=
  markOrd w * 128 + (if markKind w = 1 then 0 else if markKind w = 2 then 1 else 2 * markCourse w + markKind w - 1)

/-- A mark's fields are as R381 gives. -/
def markOk (blocks w : Nat) : Bool :=
  decide (1 ≤ markKind w) && decide (markKind w ≤ 4) && bits w 11 5 = 0 && decide (markOrd w < blocks)
    && (decide (3 ≤ markKind w) || markCourse w = 0)

/-- The sections stand in the order of R381, each with a good mark. -/
def orderOk (blocks : Nat) : List RubSection → Option Nat → Except RubFault Unit
  | [], _ => .ok ()
  | g :: t, prev =>
    match g.mark with
    | none => orderOk blocks t prev
    | some w =>
      if !markOk blocks w || (match prev with
        | some p => decide (markPlace w ≤ p)
        | none => false) then .error ⟨4, g.chunk⟩
      else orderOk blocks t (some (markPlace w))

/-- The stream of a rubbing, checked as a whole. -/
structure Stream where
  sections : List RubSection
  blocks : Nat
  courses : Nat
  anyLost : Bool
  /-- The last chunk is lost: the last section has no known end. -/
  endless : Bool
  deriving DecidableEq, Repr

/-- Sections of a kind. -/
def countKind (l : List RubSection) (kind : Nat) : Nat := (l.filter (fun g => g.mark.map markKind = some kind)).length

/-- Read and check a context's rubbing (R384). -/
def readStream (s : State) (x : Context) : Except RubFault Stream :=
  match readHeader s x with
  | none => .error ⟨2, 0⟩
  | some (chunks, blocks, courses, scrc) =>
    if x.rubSize.toNat < 32 + 4096 * chunks then .error ⟨3, x.rubSize.toNat / 4096⟩
    else match readChunks s x (chunks - 1) (List.range chunks) ⟨[], 0, none, false, []⟩ with
    | .error e => .error e
    | .ok r =>
      if !r.anyLost && (crcStep 0 r.pcrc).toNat ≠ scrc then .error ⟨3, 0⟩
      else match cutSections r.items [] none with
        | .error e => .error e
        | .ok l => match orderOk blocks l none with
          | .error e => .error e
          | .ok _ =>
            let b := countKind l 1
            let c := countKind l 3
            if blocks < b || courses < c || (!r.anyLost && (b ≠ blocks || c ≠ courses || l.any (fun g => g.mark.isNone))) then
              .error ⟨4, 0⟩
            else .ok ⟨l, blocks, courses, r.anyLost, r.lost.isSome⟩

/-- The section of a kind of a block or course, and whether it stands last in a stream with no known end. -/
def findSection (t : Stream) (kind ord c : Nat) : Option (RubSection × Bool) :=
  (t.sections.find? (fun g => g.mark = some (kind * 2 ^ 28 + ord * 2 ^ 12 + c))).map
    (fun g => (g, t.endless && (t.sections.getLast?.map (·.mark)) = some g.mark))

/-! ### Reading records back -/

/-- Records still to be read of a section. -/
structure Cursor where
  items : List (Option TapeRec)
  endless : Bool
  chunk : Nat
  deriving DecidableEq, Repr

/-- The next `n` records; beyond the end of a stream whose last chunk is lost, lost ones. -/
def takeRecs (c : Cursor) (n : Nat) : Except RubFault (List (Option TapeRec) × Cursor) :=
  let l := c.items.take n
  if l.length = n then .ok (l, { c with items := c.items.drop n })
  else if c.endless then .ok (l ++ List.replicate (n - l.length) none, { c with items := [] })
  else .error ⟨4, c.chunk⟩

/-- Nothing, or only what lost chunks of the next sections held, follows a section's own records. -/
def endRecs (c : Cursor) : Except RubFault Unit := if c.items.all (·.isNone) then .ok () else .error ⟨4, c.chunk⟩

/-- A course record of a word with this tag; nothing for a lost one. -/
def wordOf (chunk tag : Nat) : Option TapeRec → Except RubFault (Option Word)
  | none => .ok none
  | some (.course .w32 t v) => if t = tag then .ok (some (v.truncate 32)) else .error ⟨4, chunk⟩
  | some _ => .error ⟨4, chunk⟩

/-- A lane record with this tag: mask and words by lane. -/
def lanesOfRec (chunk tag : Nat) : Option TapeRec → Except RubFault (Option (Lanes × List Word))
  | none => .ok none
  | some (.lane .w32 t m vs) =>
    if t = tag then .ok (some (m, (List.range 32).map (fun l => ((find? ((lanesOf m).zip vs) l).getD 0).truncate 32)))
    else .error ⟨4, chunk⟩
  | some _ => .error ⟨4, chunk⟩

/-- Map with an error. -/
def mapE {α β : Type} (f : α → Except RubFault β) : List α → Except RubFault (List β)
  | [] => .ok []
  | a :: t => match f a with
    | .error e => .error e
    | .ok b => match mapE f t with
      | .error e => .error e
      | .ok bs => .ok (b :: bs)

/-- `n` words of a tag. -/
def takeWords (c : Cursor) (tag n : Nat) : Except RubFault (List (Option Word) × Cursor) :=
  match takeRecs c n with
  | .error e => .error e
  | .ok (l, c) => match mapE (wordOf c.chunk tag) l with
    | .error e => .error e
    | .ok ws => .ok (ws, c)

/-- `n` lane records of a tag. -/
def takeLanes (c : Cursor) (tag n : Nat) : Except RubFault (List (Option (Lanes × List Word)) × Cursor) :=
  match takeRecs c n with
  | .error e => .error e
  | .ok (l, c) => match mapE (lanesOfRec c.chunk tag) l with
    | .error e => .error e
    | .ok ws => .ok (ws, c)

/-- No record of the list is lost: the words. -/
def allThere {α : Type} : List (Option α) → Option (List α)
  | [] => some []
  | none :: _ => none
  | some a :: t => (allThere t).map (a :: ·)

/-! ### The block section, read -/

/-- Each sector's run of a mask is set or clear as a whole (R381). -/
def sectorMask (m : Lanes) : Bool :=
  (List.range 4).all (fun k => bits m.toNat (8 * k + 7) (8 * k) = 0 || bits m.toNat (8 * k + 7) (8 * k) = 255)

/-- Local store and poison bits from its records; a lost record's bytes are zero and its sectors poisoned (R385). -/
def readLocal (l : List (Option (Lanes × List Word))) : Cells Byte × Cells Bool :=
  let bytes := l.flatMap (fun r => match r with
    | some (_, ws) => ws.flatMap (fun w => bytesOfNat 4 w.toNat)
    | none => List.replicate 128 0#8)
  let poison := l.flatMap (fun r => (List.range 4).map (fun k => match r with
    | some (m, _) => !hasLane m (8 * k)
    | none => true))
  (sparse 0#8 bytes, sparse false poison)

/-- Elements of a bank from its records, and the rows that lost ones hold (R385). -/
def readElems (l : List (Option (Lanes × List Word))) : Cells Word × List Nat :=
  (sparse 0#32 (l.flatMap (fun r => match r with
      | some (_, ws) => ws
      | none => List.replicate 32 0#32)),
    l.zipIdx.filterMap (fun e => if e.1.isNone then some (e.2 / 4) else none))

/-- A 128-bit mark from four records; every bit where one is lost and `row` (R385). -/
def readMark (l : List (Option Word)) (row : Bool) : BitVec 128 :=
  match allThere l with
  | some ws => BitVec.ofNat 128 (ws.zipIdx.foldl (fun n e => n + e.1.toNat * 2 ^ (32 * e.2)) 0)
  | none => if row then BitVec.allOnes 128 else 0

/-- A bank from its records, its marks and its block sums. -/
def readBank (l : List (Option (Lanes × List Word))) (ms : List (Option Word)) (sums : Cells Word) : Bank :=
  let (els, rows) := readElems l
  let lostMark := ms.any (·.isNone)
  { elems := els, sums := sums, cols := readMark (ms.drop 4) false
    rows := if lostMark then BitVec.allOnes 128 else readMark (ms.take 4) true ||| mark128 (fun r => rows.contains r) }

/-- A block as it is placed again, before its section has said more: what its launch says (R34, R237). -/
def freshBlock (s : State) (id : Nat) (j : Job) (g : SavedBlock) : Block :=
  { startBlock s id j 0 0 0 with done := g.done, step := g.step, localMem := [], alone := false, estimate := g.estimate, ran := g.ran }

/-- The block that the words of its section give; nothing where one is lost. A wrong field is an error (R384 item 3). -/
def readBlockWords (j : Job) (g : SavedBlock) (b : Block) (chunk : Nat) (ws : List Word) : Except RubFault Block :=
  let w0 := (ws.getD 0 0).toNat
  let x := (ws.getD 1 0).toNat
  let y := (ws.getD 2 0).toNat
  let z := (ws.getD 3 0).toNat
  let l := j.words
  if w0 % 2 ^ 16 ≠ pw l 9 % 2 ^ 16 || 2 < bits w0 17 16 || bitAt w0 18 != g.done || w0 / 2 ^ 19 ≠ 0 || pw l 6 ≤ x || pw l 7 ≤ y
      || pw l 8 ≤ z || (ws.getD 4 0).toNat ≠ pkAlloc l || (ws.getD 21 0).toNat + 2 ^ 32 * (ws.getD 22 0).toNat ≠ g.job % 2 ^ 64 then
    .error ⟨4, chunk⟩
  else .ok { b with replays := bits w0 17 16, bx := ws.getD 1 0, byy := ws.getD 2 0, bz := ws.getD 3 0,
                    index := x + pw l 6 * (y + pw l 7 * z),
                    barriers := csetAll 0#32 [] ((List.range 16).map (fun i => (i, ws.getD (5 + i) 0))) }

/-- The team block's banks. -/
def readBanks (g : SavedBlock) (b : Block) (c : Cursor) : Except RubFault (Block × Cursor) :=
  match takeLanes c 1 512 with
  | .error e => .error e
  | .ok (e0, c) => match takeLanes c 2 512 with
    | .error e => .error e
    | .ok (e1, c) => match takeWords c 3 16 with
      | .error e => .error e
      | .ok (ms, c) => .ok ({ b with bank0 := readBank e0 (ms.take 8) g.sums0, bank1 := readBank e1 (ms.drop 8) g.sums1 }, c)

/-- What a section has given: the block, and that it kills every course. -/
structure BlockRead where
  block : Block
  dead : Bool
  deriving DecidableEq, Repr

/-- The block section (R381, R385). -/
def readBlockSection (s : State) (id : Nat) (j : Job) (g : SavedBlock) (t : Stream) : Except RubFault BlockRead :=
  let b := freshBlock s id j g
  match findSection t 1 g.ordinal 0 with
  | none => if t.anyLost then .ok ⟨b, true⟩ else .error ⟨4, 0⟩
  | some (sec, endless) =>
    match takeWords ⟨sec.items, endless, sec.chunk⟩ 127 23 with
    | .error e => .error e
    | .ok (ws, c) =>
      let head : Except RubFault (Block × Bool) := match allThere ws with
        | none => .ok (b, true)
        | some ws => (readBlockWords j g b c.chunk ws).map (fun b => (b, false))
      match head with
      | .error e => .error e
      | .ok (b, dead) => match takeLanes c 0 (b.alloc / 128) with
        | .error e => .error e
        | .ok (ls, c) =>
          if ls.any (fun r => match r with
            | some (m, _) => !sectorMask m
            | none => false) then .error ⟨4, c.chunk⟩
          else
            let (mem, poison) := readLocal ls
            let b := { b with localMem := mem, localPoison := poison }
            match (if b.team = 0 then Except.ok (b, c) else readBanks g b c) with
            | .error e => .error e
            | .ok (b, c) => (endRecs c).map (fun _ => ⟨b, dead⟩)

/-! ### The command section, read -/

/-- One command of a section: its words, and what follows. -/
def readCommand (b : Block) (w : Nat) (ws : List Word) : Option Command :=
  let op := bits w 7 0
  let n := cardSize op
  let card := ws.take n
  let record := ws.drop n
  if !([0x70, 0x71, 0x73, 0x74, 0x75].contains op) || w / 2 ^ 18 ≠ 0 || b.courses ≤ bits w 17 13 || ws.length < n
      || record.length ≠ (if (op = 0x73 || op = 0x74) || cardRs op card = 3 then 0 else 8) then none
  else some { newCommand 0 op (bits w 17 13) card record (bits w 11 8) (bitAt w 12) [] 0 0 with accepted := true }

/-- The words of tag 2 at the front of a list. -/
def cardRecs : List TapeRec → List Word × List TapeRec
  | .course .w32 2 v :: t =>
    let (ws, r) := cardRecs t
    (v.truncate 32 :: ws, r)
  | l => ([], l)

/-- The `n` commands of a section, from its records up to the first lost one; nothing where a lost record cuts them short
(R385). -/
def readCommands (b : Block) (chunk : Nat) (lossy : Bool) : Nat → List TapeRec → Except RubFault (Option (List Command))
  | 0, [] => .ok (some [])
  | n + 1, .course .w32 1 v :: t =>
    let (ws, r) := cardRecs t
    match readCommand b (v.toNat % 2 ^ 32) ws with
    | none => if r.isEmpty && lossy then .ok none else .error ⟨4, chunk⟩
    | some c => (readCommands b chunk lossy n r).map (fun l => l.map (c :: ·))
  | _ + 1, [] => if lossy then .ok none else .error ⟨4, chunk⟩
  | _, _ => .error ⟨4, chunk⟩

/-- The command section: its commands with their positions, or nothing where records of it are lost (R385). -/
def readCommandSection (g : SavedBlock) (t : Stream) (b : BlockRead) : Except RubFault (Option (List Command)) :=
  match findSection t 2 g.ordinal 0 with
  | none => if g.commands.isEmpty then .ok (some []) else if t.anyLost then .ok none else .error ⟨4, 0⟩
  | some (sec, endless) =>
    if g.commands.isEmpty then .error ⟨4, sec.chunk⟩
    else
      let lossy := endless || sec.items.any (·.isNone)
      let front := (sec.items.takeWhile (·.isSome)).filterMap id
      if !(sec.items.dropWhile (·.isSome)).all (·.isNone) then .ok none
      else (readCommands b.block sec.chunk lossy g.commands.length front).map (fun o =>
        o.map (fun l => (l.zip g.commands).map (fun e => { e.1 with pos := e.2 })))

/-! ### The course and tape sections, read -/

/-- A path slot from its five words, in a course with these live lanes (R378, R381). -/
def readSlot (code depth : Nat) (live : Lanes) (ws : List Word) : Option (Option Path) :=
  let pos := (ws.getD 0 0).toNat
  let w := (ws.getD 3 0).toNat
  let d := (ws.getD 4 0).toNat
  let region := bits w 6 0
  if w / 2 ^ 11 ≠ 0 then none
  else if !bitAt w 7 then some none
  else if 2 < pos % 4 || bits pos 3 2 ≠ 0 || (region ≠ 0x7F && depth ≤ region) || (ws.getD 1 0) &&& ~~~live ≠ 0 then none
  else
    let p := newPath (BitVec.ofNat 64 (code + pos / 16 * 16)) (pos % 4) (ws.getD 1 0) (ws.getD 2 0) (linkOf region) []
    match bits w 10 8 with
    | 0 | 4 => some (some p)
    | 1 => if d < 16 then some (some { p with park := .barrier d }) else none
    | 2 => some (some { p with park := .phase (BitVec.ofNat 32 (d % 2 ^ 31)) (bitAt d 31) })
    | 3 => if d < 65536 then some (some { p with park := .fault d }) else none
    | 5 => some (some { p with park := .continuation d })
    | _ => none

/-- A pending engine error from its four words (R381). -/
def readErr (ws : List Word) : Option EngErr :=
  let w := (ws.getD 0 0).toNat
  let code := bits w 2 1
  if !bitAt w 0 || code = 3 || bits w 15 7 ≠ 0 then none
  else some { cause := if code = 0 then 0x09 else if code = 1 then 0x06 else 0x14, strm := bits w 6 3
              tag := BitVec.ofNat 16 (bits w 31 16), off := (ws.getD 2 0) ++ (ws.getD 1 0), pos := ws.getD 3 0, cmd := 0 }

/-- All of a list, where each gives something. -/
def mapAll {α β : Type} (f : α → Option β) : List α → Option (List β)
  | [] => some []
  | a :: t => match f a with
    | none => none
    | some b => (mapAll f t).map (b :: ·)

/-- The tape's fields from words 30 to 42 (R356, R381). -/
def readTapeWords (ws : List Word) (order : Nat) : Option Tape :=
  let st := (ws.getD 0 0).toNat
  let mode := bits st 31 30
  if mode = 3 || (mode = 0 && order ≠ 0) then none
  else some { Tape.idle with
    mode := if mode = 0 then .idle else if mode = 1 then .record else .replay
    drop := bitAt st 29, ovf := bitAt st 28, trunc := bitAt st 27, err := bitAt st 26, released := bits st 25 16
    record := (ws.drop 1).take 8, next := bits st 15 0, kept := (ws.getD 9 0).toNat
    seq := (ws.getD 10 0).toNat + 2 ^ 32 * (ws.getD 11 0).toNat, order := order }

/-- The course from its words (R381): nothing where a field is not as R381 gives. -/
def readCourseWords (x : Context) (k : Course) (code stack : Nat) (ws : List Word) : Option Course :=
  let n (i : Nat) : Nat := (ws.getD i 0).toNat
  let depth := bits (n 0) 22 16
  let live := ws.getD 1 0
  if bits (n 0) 15 0 ≠ stack || n 0 / 2 ^ 24 ≠ 0 || x.depth < depth || n 4 / 2 ^ 17 ≠ 0 || bits (n 4) 7 6 ≠ 0
      || bits (n 4) 15 14 ≠ 0 || bitAt (n 12) 31 || 4 ≤ n 42 || ws.length ≠ 44 + 4 * n 43 then none
  else match readSlot code depth live ((ws.drop 20).take 5), readSlot code depth live ((ws.drop 25).take 5),
      readTapeWords ((ws.drop 30).take 12) (n 42), mapAll readErr (chunksOf 4 (n 43) (ws.drop 44)) with
    | some p0, some p1, some t, some es =>
      some { k with
        stackSlot := stack, depth := depth, preferred := bits (n 0) 23 23, live := live, dead := ws.getD 2 0
        helper := ws.getD 3 0, fpflags := BitVec.ofNat 6 (n 4), tilep := bits (n 4) 13 8, contain := bitAt (n 4) 16
        cashdl := ws.getD 5 0, traphdl := ws.getD 6 0, latch := ws.getD 7 0, casualty := ws.getD 8 0
        vspent := (ws.getD 11 0) ++ (ws.getD 10 0) ++ (ws.getD 9 0), sspent := BitVec.ofNat 31 (n 12)
        preds := csetAll 0#32 [] ((List.range 7).map (fun i => (i + 1, ws.getD (13 + i) 0)))
        path0 := p0, path1 := p1, tape := t, engErrs := es, collectives := 1 }
    | _, _, _, _ => none

/-- A course with its registers (R381). -/
def withRegs (k : Course) (ss : List Word) (vs : List (Nat × List Word)) : Course :=
  { k with sregs := sparse 0#32 ss
           vregs := csetAll 0#32 [] (vs.flatMap (fun e => e.2.zipIdx.map (fun w => (32 * e.1 + w.2, w.1)))) }

/-- What the course section has given: the course, and that it dies. -/
structure CourseRead where
  course : Course
  dead : Bool
  deriving DecidableEq, Repr

/-- The live lanes of a course whose section is lost in part: as its own word gives them, else a free value. -/
def lostCourse (k : Course) (stack : Nat) (live : Option Word) (free : Nat) : Course :=
  { k with stackSlot := stack, live := live.getD (Config.freeWord free), path0 := none, path1 := none }

/-- The course section (R381, R385). -/
def readCourseSection (x : Context) (k : Course) (code c stack free : Nat) (g : SavedBlock) (t : Stream) :
    Except RubFault CourseRead :=
  match findSection t 3 g.ordinal c with
  | none => if t.anyLost then .ok ⟨lostCourse k stack none free, true⟩ else .error ⟨4, 0⟩
  | some (sec, endless) =>
    match takeWords ⟨sec.items, endless, sec.chunk⟩ 127 44 with
    | .error e => .error e
    | .ok (ws, cur) =>
      let lost : Except RubFault CourseRead := .ok ⟨lostCourse k stack (ws.getD 1 none) free, true⟩
      match allThere ws with
      | none => lost
      | some ws => match takeWords cur 127 (4 * (ws.getD 43 0).toNat) with
        | .error e => .error e
        | .ok (es, cur) => match allThere es with
          | none => lost
          | some es => match readCourseWords x k code stack (ws ++ es) with
            | none => .error ⟨4, sec.chunk⟩
            | some k => match mapE (fun i => takeWords { cur with items := cur.items.drop i } (96 + i) 1) (List.range 31) with
              | .error e => .error e
              | .ok ss =>
                let rs := (List.range k.budget).filter (fun r => !vSpent k r)
                let cur := { cur with items := cur.items.drop 31 }
                match mapE (fun e => takeLanes { cur with items := cur.items.drop e.2 } e.1 1) rs.zipIdx with
                | .error e => .error e
                | .ok vs =>
                  let cur := { cur with items := cur.items.drop rs.length }
                  match allThere (ss.flatMap (·.1)), allThere (vs.flatMap (·.1)) with
                  | some ss, some vs =>
                    if vs.any (fun v => v.1 ≠ allLanes) then .error ⟨4, sec.chunk⟩
                    else (endRecs cur).map (fun _ => ⟨withRegs k ss (rs.zip (vs.map (·.2))), false⟩)
                  | _, _ => lost

/-- The `n` images of a tape section: their bytes, nothing for one that has lost a record (R381, R385). -/
def readImages : Nat → Cursor → Except RubFault (List (Option (List Byte)))
  | 0, c => (endRecs c).map (fun _ => [])
  | n + 1, c =>
    match takeLanes c 127 32 with
    | .error e => .error e
    | .ok (rs, cur) =>
      let image := (allThere rs).map (fun rs => rs.flatMap (fun r => r.2.flatMap (fun w => bytesOfNat 4 w.toNat)))
      (readImages n cur).map (image :: ·)

/-- An open chunk from its image (R381). -/
def openImage (bs : List Byte) : Option OpenChunk :=
  let n := hdr bs 63 32
  match decodeChunk bs n none with
  | some (seq, _, _, rs) => some
      { index := n, seq := seq, count := rs.length, payload := (bs.drop 32).take (hdr bs 107 96)
        pred := rs.foldl (fun t r => (codeRec t r).2) [] }
  | none => none

/-- A stage from its image, with the records that are left of it (R381). -/
def stageImage (bs : List Byte) (left : Option Nat) : Option Stage :=
  let n := hdr bs 63 32
  match decodeChunk bs n none with
  | some (seq, first, _, rs) => some
      { newStage n bs none with
        seq := seq, first := first, released := true
        recs := match left with
          | some m => rs.take (m - seq)
          | none => rs }
  | none => none

/-- A stage whose image is lost: the pop that needs it takes TAPEBAD (R385). -/
def lostStage (n : Nat) : Stage := { newStage n [] none with bad := true }

/-- What the machine keeps of a course's tape; nothing where it has none. -/
def savedTape (g : SavedBlock) (c : Nat) : SavedTape := (g.tapes.find? (fun e => e.course = c)).getD ⟨c, [], none, none, none⟩

/-- The images that a saved tape has in the rubbing. -/
def tapeImageCount (g : SavedTape) : Nat := ((g.current.toList ++ g.ahead.toList).filter (·.released)).length

/-- A chunk whose staging the save discarded is staged again (R353); where its page is not mapped, the pop that needs it reads
it (R351). -/
def stageAgain (s : State) (asid : BitVec 16) (t : Tape) (g : SavedStage) : Stage :=
  match readChunk s asid t g.index with
  | some bs => newStage g.index bs g.expect
  | none => lateStage g.index g.expect

/-- A stage of a restored tape: from its image, with the records that are left; with its error bit; or staged again. -/
def restoreStage (s : State) (asid : BitVec 16) (t : Tape) (left : Option Nat) (g : SavedStage) (image : Option (List Byte)) :
    Option Stage :=
  if g.released then
    match image with
    | none => some (lostStage g.index)
    | some bs => (stageImage bs left).bind (fun h => if h.index = g.index then some h else none)
  else if g.bad then some (lostStage g.index)
  else some (stageAgain s asid t g)

/-- The replaying tape with its stages (R353, R385). -/
def restoreStages (s : State) (asid : BitVec 16) (t : Tape) (g : SavedTape) (l : List (Option (List Byte))) : Option Tape :=
  match g.current with
  | none => some t
  | some c =>
    match restoreStage s asid t (some t.kept) c (l.headD none) with
    | none => none
    | some cur =>
      let l := if c.released then l.drop 1 else l
      match g.ahead with
      | none => some { t with current := some cur }
      | some a => (restoreStage s asid t none a (l.headD none)).map (fun h =>
          { t with current := some cur, ahead := if h.discarded then none else some h })

/-- The tape with its images (R347, R353, R385). -/
def tapeWith (s : State) (asid : BitVec 16) (t : Tape) (g : SavedTape) (l : List (Option (List Byte))) : Option Tape :=
  let t := { t with writeFault := g.writeFault }
  match t.mode with
  | .idle => some t
  | .record =>
    let t := { t with last := g.last, next := if g.last.isEmpty then 0 else hdr g.last 63 32 + 1 }
    match l with
    | [] => some t
    | some bs :: _ => (openImage bs).map (fun c => { t with chunk := some c, next := c.index + 1 })
    | none :: _ => some { t with drop := true, ovf := true }
  | .replay => restoreStages s asid t g l

/-- The tape section of a course (R381, R385). -/
def readTapeSection (s : State) (x : Context) (k : Course) (c : Nat) (g : SavedBlock) (t : Stream) : Except RubFault Course :=
  let h := savedTape g c
  let done (chunk : Nat) (l : List (Option (List Byte))) : Except RubFault Course :=
    match tapeWith s x.asid k.tape h l with
    | some u => .ok { k with tape := u }
    | none => .error ⟨4, chunk⟩
  match findSection t 4 g.ordinal c with
  | none =>
    if k.tape.mode = .idle then done 0 []
    else if t.anyLost then done 0 (List.replicate (tapeImageCount h) none) else .error ⟨4, 0⟩
  | some (sec, endless) =>
    if k.tape.mode = .idle then .error ⟨4, sec.chunk⟩
    else match readImages (tapeImageCount h) ⟨sec.items, endless, sec.chunk⟩ with
      | .error e => .error e
      | .ok l => done sec.chunk l

/-! ### A block, read -/

/-- The courses of a block, and those that die (R385). -/
def readCourses (s : State) (x : Context) (j : Job) (g : SavedBlock) (t : Stream) :
    List (Nat × Nat) → Except RubFault (List (Nat × Course) × List Nat)
  | [] => .ok ([], [])
  | (c, stack) :: rest =>
    let k := { startCourse s j 0 c stack with path0 := none }
    match readCourseSection x k (jobCode j) c stack (s.fresh + c) g t with
    | .error e => .error e
    | .ok r => match (if r.dead then .ok r.course else readTapeSection s x r.course c g t) with
      | .error e => .error e
      | .ok k => (readCourses s x j g t rest).map (fun l => ((c, k) :: l.1, if r.dead then c :: l.2 else l.2))

/-- A saved block from the stream (R381, R384, R385). -/
def readImage (s : State) (x : Context) (j : Job) (g : SavedBlock) (t : Stream) : Except RubFault Image :=
  match readBlockSection s g.job j g t with
  | .error e => .error e
  | .ok b => match readCommandSection g t b with
    | .error e => .error e
    | .ok cs => match readCourses s x j g t g.slots with
      | .error e => .error e
      | .ok (ks, dead) =>
        let all := b.dead || cs.isNone
        .ok ⟨b.block, ks, (cs.getD []).zipIdx.map (fun e => (e.2, e.1)), if all then ks.map (·.1) else dead⟩

/-- Every saved block of a context with its image (R384). -/
def readSaved (s : State) (x : Context) (t : Stream) : List SavedBlock → Except RubFault (List (SavedBlock × Image))
  | [] => .ok []
  | g :: rest =>
    match getJob s g.job with
    | none => readSaved s x t rest
    | some j => match readImage s x j g t with
      | .error e => .error e
      | .ok i => (readSaved s x t rest).map ((g, i) :: ·)

/-- What reading a rubbing does to the spans that hold it (R331). -/
def touchRubbing (s : State) (x : Context) : State :=
  if allGood s then s
  else match readHeader (hubTouch s x.asid x.rubBase.toNat 32) x with
    | none => hubTouch s x.asid x.rubBase.toNat 32
    | some (chunks, _) => (List.range (min chunks (x.rubSize.toNat / 4096))).foldl (fun s n =>
        hubTouch s x.asid (x.rubBase.toNat + 32 + 4096 * n) 4096) (hubTouch s x.asid x.rubBase.toNat 32)

/-- Read a context's rubbing back whole (R355, R384). -/
def readRubbing (s : State) (x : Context) : Except RubFault (List (SavedBlock × Image)) :=
  match readStream s x with
  | .error e => .error e
  | .ok t => readSaved s x t x.saved

end Sys2Proof.Machine
end

