-- ==== Sys2Proof/Machine/Save.lean ====
section
/-!
DEFINITION. The end of a save and the restore: SAVE_DONE (R272, R363, R377, R383) and RESTORE (R379, R384, R385).
-/

namespace Sys2Proof.Machine

/-! ### SAVE_DONE -/

/-- The resident blocks of a context, in the order of their placing. -/
def ctxBlocks (s : State) (asid : BitVec 16) : List (Nat × Block) := s.blocks.filter (fun e => e.2.asid = asid)

/-- A course has not exited. -/
def liveCourse (s : State) (blk c : Nat) : Bool := match getCourse s blk c with
  | some k => k.live ≠ 0
  | none => false

/-- Every path is stopped, every block that has exited or is replayed has left, and the commands that have begun have
ended (R272, R377). -/
def saveReady (s : State) (x : Context) : Bool :=
  x.state == .saving &&
  (ctxPaths s x.asid).all (fun e => match (getCourse s e.1 e.2.1).bind (fun k => getPath k e.2.2) with
    | some p => p.held
    | none => true) &&
  (ctxBlocks s x.asid).all (fun e => !e.2.replaying && (blockCourses s e.1).any (liveCourse s e.1)) &&
  s.commands.all (fun e => !e.2.begun || (match getBlock s e.2.blk with
    | some b => b.asid ≠ x.asid
    | none => true))

/-- Put a command at its place in the order of acceptance. -/
def insertCommand (a : Nat × Command) : List (Nat × Command) → List (Nat × Command)
  | [] => [a]
  | b :: t => if a.2.order < b.2.order then a :: b :: t else b :: insertCommand a t

/-- The image of a resident block (R381). -/
def captureBlock (s : State) (blk : Nat) (b : Block) : Image :=
  { block := b, kill := []
    courses := (List.range b.courses).filterMap (fun c => match getCourse s blk c with
      | some k => if k.live = 0 then none else some (c, k)
      | none => none)
    cmds := (s.commands.filter (fun e => e.2.blk = blk)).foldl (fun l a => insertCommand a l) [] }

/-- What the machine keeps of a stage. -/
def captureStage (g : Stage) : SavedStage := ⟨g.index, g.expect, g.released, g.bad⟩

/-- What the machine keeps of a course's tape. -/
def captureTape (c : Nat) (t : Tape) : SavedTape :=
  { course := c, last := t.last, writeFault := t.writeFault
    current := if t.mode = .record then t.chunk.map (fun o => ⟨o.index, none, true, false⟩) else t.current.map captureStage
    ahead := if t.mode = .record then none else t.ahead.map captureStage }

/-- A trap delivery that is still to be made, its record being written. -/
def keptDelivery (p : Path) : Option Delivery := match p.delivery with
  | some d => if d.recorded then some d else none
  | none => none

/-- What the machine keeps of the paths of a course. -/
def capturePaths (c : Nat) (k : Course) : List SavedPath :=
  [0, 1].filterMap (fun i => match getPath k i with
    | some p => if p.faultId.isSome || (keptDelivery p).isSome then some ⟨c, i, p.faultId, keptDelivery p⟩ else none
    | none => none)

/-- What the machine keeps of a block that it saves. -/
def captureEntry (s : State) (b : Block) (i : Image) : SavedBlock :=
  { ordinal := 0, job := b.job, done := b.done, slots := i.courses.map (fun e => (e.1, e.2.stackSlot)), step := b.step,
    idle := s.now - b.lastProgress, sums0 := b.bank0.sums, sums1 := b.bank1.sums, estimate := b.estimate, ran := ranCycles s b,
    commands := i.cmds.map (fun e => e.2.pos), paths := i.courses.flatMap (fun e => capturePaths e.1 e.2),
    tapes := i.courses.map (fun e => captureTape e.1 e.2.tape) }

/-- The rubbing of a context: blocks still saved from before, then the resident ones, with their launches' words. -/
def rubbingOf (s : State) (x : Context) : Except RubFault (List (SavedBlock × Image)) :=
  match (if x.saved.isEmpty then .ok [] else readRubbing s x) with
  | .error e => .error e
  | .ok old => .ok (old ++ (ctxBlocks s x.asid).map (fun e =>
      let i := captureBlock s e.1 e.2
      (captureEntry s e.2 i, i)))

/-- RESTORE at a chunk: the context is removed (R383, R384). -/
def restoreFault (s : State) (asid : BitVec 16) (detail chunk : Nat) : State :=
  removeContext s asid { plainFault 0x17 0 with detail := detail, info := chunk % 2 ^ 32 } 0 0 0 0 false

/-- The blocks of a saved context leave their cores. -/
def freeCores (s : State) (asid : BitVec 16) : State :=
  let bs := ctxBlocks s asid
  let s := { s with commands := s.commands.filter (fun e => !bs.any (fun b => b.1 = e.2.blk)) }
  bs.foldl (fun s e => removeBlock s e.1 e.2) s

/-- A pop that waits for its page is tried again at the restore: its request is closed. -/
def keptFaults (x : Context) : List OpenFault := x.faults.filter (fun f => !(f.owner matches .pop ..))

/-- Cycles for which the chunks of a block's sections hold a transform pipe (R28). -/
def imageCycles (i : Image) (l : List Word) : Nat :=
  ((streamChunks (imageSections i l 0)).map (fun c => chunkCycles c.payload.length)).sum

/-- The transform pipes of the blocks' cores encode the rubbing (R28, R377). -/
def encodeBlocks (s : State) (asid : BitVec 16) : State :=
  (ctxBlocks s asid).foldl (fun t e =>
    holdPipe t e.2.core (imageCycles (captureBlock s e.1 e.2) (((getJob s e.2.job).map (·.words)).getD []))) s

/-- The save ends: the rubbing is written and the cores are freed (R377, R383). -/
def finishSave (s : State) (x : Context) : State :=
  let s := touchRubbing (encodeBlocks ((ctxBlocks s x.asid).foldl (fun s e => drainCore s e.2.core) s) x.asid) x
  match rubbingOf s x with
  | .error e => restoreFault s x.asid e.detail e.chunk
  | .ok l => match writeRubbing s x (l.map (fun e => (e.2, ((getJob s e.1.job).map (·.words)).getD []))) with
    | (some n, s) => restoreFault s x.asid 1 n
    | (none, s) =>
      setCtx (freeCores s x.asid) x.asid
        { x with state := .saved, savedAt := s.now, faults := keptFaults x
                 saved := l.zipIdx.map (fun e => { e.1.1 with ordinal := e.2 }) }

/-- SAVE_DONE (R377). -/
def execSaveDone (asid : BitVec 16) (s : State) : Host.Outcome State Fault Refusal :=
  match getCtx s asid with
  | some x => .next (if saveReady s x then finishSave s x else s)
  | none => .next s

/-! ### Placing a saved block -/

/-- What the machine has kept of a path. -/
def keptPath (g : SavedBlock) (c slot : Nat) : Option SavedPath := g.paths.find? (fun e => e.course = c && e.slot = slot)

/-- A path as it is restored: one that waits on a page request still outstanding waits on; one that has been answered issues
again, and keeps the fault id (R361, R378). -/
def restorePath (x : Context) (g : SavedBlock) (c slot : Nat) (p : Path) : Path :=
  let h := keptPath g c slot
  let p := { p with faultId := h.bind (·.faultId), delivery := h.bind (·.delivery) }
  match p.park with
  | .fault fid => match x.faults.find? (fun e => e.fid = fid) with
    | some e => { p with faultId := some (fid, faultKey e.f) }
    | none => { p with park := .running }
  | _ => p

/-- A continuation park on a saved command, or none where the command had completed (R378). -/
def restoreContinuation (ids : List Nat) (p : Path) : Path :=
  match p.park with
  | .continuation i => match ids[i]? with
    | some id => { p with park := .continuation id }
    | none => { p with park := .running }
  | _ => p

/-- Change both paths of a course. -/
def mapPath (k : Course) (f : Path → Path) : Course := { k with path0 := k.path0.map f, path1 := k.path1.map f }

/-- The outstanding requests of a course's paths are its own again. -/
def reownFaults (x : Context) (blk c : Nat) (k : Course) : Context :=
  [0, 1].foldl (fun x i => match (getPath k i).map (fun p : Path => p.park) with
    | some (.fault fid) => { x with faults := x.faults.map (fun e => if e.fid = fid then { e with owner := .path blk c i } else e) }
    | _ => x) x

/-- The registers that a restored team command has still to read stand pending again (R205). -/
def holdSlices (s : State) (blk id : Nat) (c : Command) (team : Nat) : State :=
  let regs := if c.op = 0x73 || c.op = 0x74 then sliceRange c.card team else []
  if regs.isEmpty then s
  else c.members.foldl (fun s n => updCourse s blk n (fun k =>
    mapPath { k with longs := k.longs ++ [{ id := id, writes := [], holds := regs, kill := 0, killAll := false, tag := 0,
                                            va := 0, load := false, memory := false }] }
      (fun p => { p with pending := p.pending ++ [id] }))) s

/-- A saved command stands accepted on the new core (R272). -/
def restoreCommand (blk team : Nat) (acc : List Nat × State) (c : Command) : List Nat × State :=
  let (id, s) := newId acc.2
  let members := if c.op = 0x73 || c.op = 0x74 then
      match (getCourse s blk c.course).bind (·.team) with
      | some t => teamCourses s blk t
      | none => []
    else []
  let c := { c with blk := blk, order := id, members := members }
  (acc.1 ++ [id], holdSlices (setCmd s id c) blk id c team)

/-- The path goes on at the issue unit after the command at this position (R195). -/
def followsCommand (code : Nat) (pos : Word) (p : Path) : Bool :=
  let a := pos.toNat / 16 * 16
  let b := (p.pc.toNat + 2 ^ 64 - code) % 2 ^ 64
  (a = b && decide (pos.toNat % 16 < p.slot)) || (a + 16 = b && p.slot = 0)

/-- The error of a command that completed while its path was saved in a continuation park (R199, R378). -/
def restoreErrors (s : State) (blk c slot code : Nat) : State :=
  match getCourse s blk c with
  | none => s
  | some k => match getPath k slot with
    | none => s
    | some p => match k.engErrs.find? (fun e => followsCommand code e.pos p) with
      | none => s
      | some e => takeFault (updCourse s blk c (fun k => consumeError k (engFault e))) blk c slot (engFault e) false false 3

/-- The slots that were saved in the continuation park of a command that had completed. -/
def endedWaits (i : Image) : List (Nat × Nat) :=
  i.courses.flatMap (fun e => ([0, 1].filter (fun slot => match (getPath e.2 slot).map (fun p : Path => p.park) with
    | some (.continuation n) => decide (i.cmds.length ≤ n)
    | _ => false)).map (fun slot => (e.1, slot)))

/-- The courses of an image below `c` on the same quarter: those that take their resident slots before it (R241). -/
def slotsBefore (i : Image) (c : Nat) : Nat := (i.courses.filter (fun e => decide (e.1 < c) && e.1 % 4 == c % 4)).length

/-- A course as it stands on its core before the first issue (R237, R379). -/
def placedCourse (s : State) (x : Context) (g : SavedBlock) (j : Job) (i : Image) (m c : Nat) : Course :=
  match find? i.courses c with
  | some k => { k with path0 := k.path0.map (restorePath x g c 0), path1 := k.path1.map (restorePath x g c 1),
                       slot := residentSlot s m c (slotsBefore i c) }
  | none => emptyCourse { startCourse s j m c 0 with live := 0 }

/-- A launch whose saved block is placed holds no longer (R303). -/
def stopHolding (s : State) (id : Nat) (j : Job) : State := setJob s id { j with holding := false, firstSince := none }

/-- Place a saved block on core `m`, whole (R237, R379, R385). -/
def placeImage (s : State) (x : Context) (g : SavedBlock) (i : Image) (j : Job) (m : Nat) : State :=
  let s := holdPipe (stopHolding (holdCores { s with fresh := s.fresh + 64 } x.asid) g.job j) m (imageCycles i j.words)
  let ks := (List.range i.block.courses).map (fun c => (c, placedCourse s x g j i m c))
  let (blk, s) := newId s
  let b := { i.block with
    core := m, startCycle := (getCluster s (coreCluster m)).cycles, lastProgress := s.now - g.idle, placedAt := s.now,
    alone := !undeclared j && outright s j (coreCluster m) }
  let s := ks.foldl (fun s e => setCourse s blk e.1 e.2) (setBlock s blk b)
  let (ids, s) := i.cmds.foldl (fun acc e => restoreCommand blk b.team acc e.2) (([], s) : List Nat × State)
  let s := ks.foldl (fun s e => updCourse s blk e.1 (fun k => mapPath k (restoreContinuation ids))) s
  let s := match getCtx s x.asid with
    | some y => setCtx s x.asid (ks.foldl (fun y e => reownFaults y blk e.1 e.2)
        { y with state := .running, saved := y.saved.filter (fun h => h.ordinal ≠ g.ordinal) })
    | none => s
  let s := acquire s m .system true
  let s := i.kill.foldl (fun s c => killCourse s blk c) s
  let s := ks.foldl (fun s e => refillSlots s blk e.1 0 false) s
  (endedWaits i).foldl (fun s e => restoreErrors s blk e.1 e.2 (jobCode j)) s

/-! ### RESTORE -/

/-- Place these saved blocks, all or none. -/
def placeImages (s : State) (asid : BitVec 16) : List (SavedBlock × Image) → Option State
  | [] => some s
  | (g, i) :: rest =>
    match getCtx s asid, getJob s g.job with
    | some x, some j => match chooseCore s j with
      | some m => placeImages (placeImage s x g i j m) asid rest
      | none => none
    | _, _ => none

/-- The saved blocks of a launch that are to be placed next: of a COOP launch all of them (R379). -/
def savedNext (s : State) (id : Nat) (j : Job) : List SavedBlock :=
  if pkCoop j.words then savedOf s id j else (savedOf s id j).take 1

/-- A saved block of a launch can stand on some core. -/
def savedRoom (s : State) (id : Nat) (j : Job) : Bool := !(savedNext s id j).isEmpty && (chooseCore s j).isSome

/-- The launches of a context with saved blocks to place, in ready order (R302, R303, R379). -/
def savedLaunches (s : State) (x : Context) : List (Nat × Job) :=
  (upToHolding (readyOrder s x.part)).filter (fun e => e.2.asid = x.asid && savedRoom s e.1 e.2)

/-- The context's rubbing has been read whole (R355). -/
def noteRestore (s : State) (asid : BitVec 16) (n : Nat) (bad : Bool) : State :=
  match getCtx s asid with
  | some x => setCtx s asid { x with restored := some (n, bad) }
  | none => s

/-- Chunks of a rubbing that are not lost. -/
def rubbingChunks (s : State) (x : Context) : Nat := match readHeader s x with
  | some (n, _) => ((List.range n).filter (fun i => match readRubChunk s x i (n - 1) with
    | .ok (.read ..) => true
    | _ => false)).length
  | none => 0

/-- The restore that can be made now (R379, R384): nothing where no saved block can be placed. -/
def restoreNow (s : State) (x : Context) : Option State :=
  let l := savedLaunches s x
  let idle := x.state = .saved && !x.hostSaved && x.saved.isEmpty
  if !idle && l.isEmpty then none
  else
    let s := touchRubbing s x
    match readRubbing s x with
    | .error e => some (restoreFault (noteRestore s x.asid 0 true) x.asid e.detail e.chunk)
    | .ok ims =>
      let s := noteRestore s x.asid (rubbingChunks s x) false
      if idle then (getCtx s x.asid).map (fun x => setCtx s x.asid { x with state := .running })
      else l.findSome? (fun e => placeImages s x.asid (ims.filter (fun i =>
        (savedNext s e.1 e.2).any (fun g => g.ordinal = i.1.ordinal))))

/-- RESTORE (R379, R384). -/
def execRestoreBlocks (asid : BitVec 16) (s : State) : Host.Outcome State Fault Refusal :=
  match getCtx s asid with
  | none => .next s
  | some x => .next ((restoreNow s x).getD s)

end Sys2Proof.Machine
end

