-- ==== Sys2Proof/Machine/Due.lean ====
section
/-!
DEFINITION. The device's own events that are enabled, in the order in which a step takes them when no input stands on the
agenda. The manual leaves the order of independent events open: the agenda can bring any of them earlier.
-/

namespace Sys2Proof.Machine

/-- `i` where `b` holds. -/
def when (b : Bool) (i : Instr) : Option Instr := if b then some i else none

/-! ### Courses -/

/-- A path that finishes an MMA or MML whose collective is formed (R266). -/
def rejoinPath (s : State) : Option (Nat × Nat × Nat) :=
  s.courses.findSome? (fun e => [0, 1].findSome? (fun slot => match getPath e.2 slot with
    | some p => if p.park == .rejoin then some (e.1 / 32, e.1 % 32, slot) else none
    | none => none))

/-- Every quarter that can issue in this round has taken its cycle. -/
def roundOver (s : State) : Bool := match nextQuarter s with
  | some x => decide (x ≤ s.turn)
  | none => true

/-- A barrier that completes (R148): at the end of a round of cycles, since its courses go on in the next (R246). -/
def barrierDue (s : State) : Option Instr :=
  if !roundOver s then none
  else s.blocks.findSome? (fun e => e.2.barriers.findSome? (fun a =>
    when (barrierFull s e.1 e.2 a.1) (.barrierComplete e.1 (BitVec.ofNat 4 a.1))))

/-- A path whose phase word has come to match (R151). -/
def phaseDue (s : State) : Option Instr :=
  s.courses.findSome? (fun e => match getBlock s (e.1 / 32) with
    | none => none
    | some b => [0, 1].findSome? (fun slot => match getPath e.2 slot with
      | some p => when (phaseMatches b p) (.phaseWake (e.1 / 32) (e.1 % 32) (BitVec.ofNat 1 slot))
      | none => none))

/-- The long writes that a park names. -/
def parkLongs : Option Path → List Nat
  | some p => match p.park with
    | .longs ids _ => ids
    | _ => []
  | none => []

/-- The long writes that a course waits for: at a marker, at a park, or at a halt (R85, R179, R224, R368). -/
def awaitedLongs (k : Course) : List Nat :=
  k.waitLongs ++ parkLongs k.path0 ++ parkLongs k.path1 ++ (if k.stopped && k.allowance = 0 then k.longs.map (·.id) else [])

/-- A long write that a course or a path waits for. -/
def longDue (s : State) : Option Instr :=
  s.courses.findSome? (fun e =>
    ((awaitedLongs e.2).find? (mayLand e.2)).map (fun i => .longWriteComplete (e.1 / 32) (e.1 % 32) i))

/-- A course that has been eligible for 64 cycles without issuing (R241). -/
def starvedDue (s : State) : Option Instr :=
  s.courses.findSome? (fun e => when (64 ≤ e.2.eligible && !e.2.starved) (.courseStarved (e.1 / 32) (e.1 % 32)))

/-- The tape of a course moves on: a staging request, or a path that waits for the tape (R28, R351, R353). -/
def tapeMoves (s : State) (blk : Nat) (k : Course) : Bool :=
  let m := blockCore s blk
  let r := stageMoves s m k.tape
  r.1 ≠ 0 || r.2 != k.tape || [k.path0, k.path1].any (fun p => p.map (wakeTape r.2 (unitReady s m)) != p)

/-- A stage barrier that can be signalled, or a tape unit that can act (R28, R353). -/
def stageDue (s : State) : Option Instr :=
  s.courses.findSome? (fun e => when (tapeMoves s (e.1 / 32) e.2) (.tapeStageBarrier (e.1 / 32) (e.1 % 32)))

/-- An engine command that can be accepted, started or completed (R195, R196, R198). -/
def engineDue (s : State) : Option Instr :=
  match s.commands.find? (fun e => acceptable s e.1 e.2) with
  | some (i, _) => some (.engineAccept i)
  | none =>
    match s.commands.find? (fun e => e.2.done) with
    | some (i, _) => some (.engineComplete i)
    | none => (s.commands.find? (fun e => startable s e.2)).map (fun e => .engineStart e.1)

/-! ### Blocks and packets -/

/-- A block that leaves its core (R238). -/
def leaveDue (s : State) : Option Instr := s.blocks.findSome? (fun e => when (blockEnded s e.1 e.2) (.blockLeave e.1))

/-- A WAIT that is tested, for the first time or again (R45). -/
def waitDue (e : Nat × Job) : Option Instr :=
  if !e.2.tested then some (.waitPacket e.1) else when e.2.retest (.waitRetest e.1)

/-- A core of the launch's blocks has stores to perform. -/
def jobStores (s : State) (id : Nat) : Bool := s.blocks.any (fun e => e.2.job == id && !(getCore s e.2.core).stores.isEmpty)

/-- A packet does its work, or completes (R17, R18, R43, R45). -/
def completionDue (s : State) (e : Nat × Job) : Option Instr :=
  let j := e.2
  if launchDone j then when (!launchHeld s e.1 || jobStores s e.1) (.launchComplete e.1)
  else if !j.started || j.completed || j.failed || j.asking then none
  else match pkType j.words with
    | 2 => some (.copyPacket e.1)
    | 3 => some (.signalPacket e.1)
    | 4 => waitDue e
    | _ => none

/-- Packets by keys 4 and 5 of the ready order: slot, then queue (R302, R304). -/
def insertKey {α : Type} (key : α → Nat × Nat) (a : α) : List α → List α
  | [] => [a]
  | b :: t => if decide ((key a).1 < (key b).1) || ((key a).1 == (key b).1 && decide ((key a).2 < (key b).2)) then a :: b :: t
    else b :: insertKey key a t

def byKey {α : Type} (key : α → Nat × Nat) (l : List α) : List α := l.foldl (fun r a => insertKey key a r) []

/-- The first completion (R304 item 1). -/
def completionsDue (s : State) : Option Instr :=
  (byKey (fun (e : Nat × Job) => (e.2.idx, e.2.queue)) (s.jobs.filter (fun e => (completionDue s e).isSome))).findSome? (completionDue s)

/-- A packet of the device submission list is taken (R229). -/
def takesSubmission (s : State) (x : Context) : Bool :=
  !x.subs.isEmpty && ctxAlive x && !x.subHalted && !resetting s x.part

/-- A packet of the queue that has been consumed can start: the next slot is for a later cycle (R304). -/
def queueStarts (s : State) (p : BitVec 3) (q : Nat) (asid : BitVec 16) : Bool :=
  s.jobs.any (fun e => e.2.part == p && e.2.queue == q && (q < 256 || e.2.asid == asid) && packetStartable s e.2)

/-- The first slot or submission that is consumed (R15, R229, R304 item 2). -/
def consumeDue (s : State) : Option Instr :=
  let slots := (s.queues.filter (fun e =>
    consumable s e.2 && !queueStarts s (BitVec.ofNat 3 (e.1 / 256)) (e.1 % 256) e.2.asid)).map (fun e =>
    ((e.2.readIdx, e.1 % 256), Instr.consumeSlot (BitVec.ofNat 3 (e.1 / 256)) (BitVec.ofNat 8 (e.1 % 256))))
  let subs := (s.contexts.filter (fun e => takesSubmission s e.2 && !queueStarts s e.2.part 256 e.2.asid)).map (fun e =>
    (((e.2.subs.head?.map (·.1)).getD 0, 256), Instr.submissionTake e.2.asid))
  ((byKey (fun (e : (Nat × Nat) × Instr) => e.1) (slots ++ subs)).head?).map (·.2)

/-- The first packet that starts (R304 item 3). -/
def startsDue (s : State) : Option Instr :=
  ((byKey (fun (e : Nat × Job) => (e.2.idx, e.2.queue)) (s.jobs.filter (fun e => packetStartable s e.2))).head?).map
    (fun e => .packetStart e.1)

/-- Counter events of one cycle, in their order (R304). -/
def jobsDue (s : State) : Option Instr :=
  match completionsDue s with
  | some i => some i
  | none => match consumeDue s with
    | some i => some i
    | none => startsDue s

/-- The first of a ready order begins to count its time there, or comes to hold; another stops counting (R303). -/
def holdingChanges (s : State) (e : Nat × Job) : Bool :=
  if ((readyOrder s e.2.part).head?.map (·.1)) = some e.1 then
    match e.2.firstSince with
    | none => true
    | some t => decide (t + 100000 ≤ s.now) && !e.2.holding
  else e.2.firstSince.isSome || (e.2.holding && !pendingLaunch s e.1 e.2)

/-- A block of a launch can be placed (R236). -/
def canPlace (s : State) (e : Nat × Job) : Bool :=
  (upToHolding (readyOrder s e.2.part)).any (fun a => a.1 = e.1) && (savedOf s e.1 e.2).isEmpty && (placeNext s e.1 e.2).isSome

/-- A block of a launch is placed: one saved (R379), or the next (R236). -/
def placesBlock (s : State) (e : Nat × Job) : Option Instr :=
  if canPlace s e then some (.blockPlace e.1)
  else if savedRoom s e.1 e.2 then
    (getCtx s e.2.asid).bind (fun x => when (restoreNow s x).isSome (.restoreBlocks x.asid))
  else none

/-- Placing: the launches in ready order (R236, R302, R303, R379). -/
def placeDue (s : State) : Option Instr :=
  match s.jobs.find? (holdingChanges s) with
  | some (i, _) => some (.launchHolding i)
  | none => allParts.findSome? (fun p => (upToHolding (readyOrder s p)).findSome? (placesBlock s))

/-! ### Contexts and partitions -/

/-- A halted course that has still to take the answer of a remote atomic (R168). -/
def lendsDue (s : State) (blk c slot : Nat) : Bool :=
  match getCourse s blk c with
  | none => false
  | some k => k.stopped && k.allowance = 0 && match getPath k slot with
    | some p => p.park == .running && remoteOnce s blk k slot p
    | none => false

/-- A save stops a path, or lets one take an answer first (R168, R377). -/
def saveStops (s : State) (x : Context) : Bool :=
  x.state == .saving && (ctxPaths s x.asid).any (fun e =>
    savePath s (decide (saveLimit s x ≤ s.now)) e.1 e.2.1 e.2.2 || lendsDue s e.1 e.2.1 e.2.2)

/-- The next event of a context. -/
def contextDue (s : State) (x : Context) : Option Instr :=
  if x.state == .halting then some (.haltComplete x.asid)
  else if saveStops s x then some (.saveDeadline x.asid)
  else if saveReady s x then some (.saveDone x.asid)
  else if sliceOver s x || rivalled s x != x.rivalSince.isSome then some (.timeSliceExpiry x.asid)
  else when (x.state == .saved && !x.hostSaved && x.saved.isEmpty) (.restoreBlocks x.asid)

def contextsDue (s : State) : Option Instr := s.contexts.findSome? (fun e => contextDue s e.2)

/-- The next event of a partition's windows and of its scheduler. -/
def partDue (s : State) (p : BitVec 3) : Option Instr :=
  let part := getPart s p
  if part.creating.isSome then some (.queueCreationDone p)
  else if (match part.destroying with
    | some v => !queueRuns s p (bits v.toNat 7 0)
    | none => false) then some (.queueDestroyDone p)
  else if part.ccreating.isSome then some (.contextCreationDone p)
  else if part.xinv.any (xinvReady s) then some (.xinvDone p)
  else if resetEnded s p then some (.partitionResetDone p)
  else (preemptNow s p).map (fun x => .preempt x.asid)

def partsDue (s : State) : Option Instr := allParts.findSome? (partDue s)

/-! ### Timers -/

/-- A cluster's raise whose rail has settled, or an offset that falls (R311, R403). -/
def clusterDue (s : State) (e : Nat × Cluster) : Option Instr :=
  if e.2.raise.isSome && decide ((s.rails.getD (clusterRail s e.1) (0, 0)).2 ≤ s.now) then some (.clockRaise e.1)
  else when (e.2.offset ≠ 0 && decide (e.2.offsetSince + 60000000000 ≤ s.now)) (.marginOffsetDecay e.1)

/-- The end of a training, in time or not (R338). -/
def trainingDue (s : State) : Option Instr :=
  match s.retraining with
  | none => none
  | some (c, t) =>
    if t + 4000000 ≤ s.now then some .retrainTimeout
    else when (t + 2000000 ≤ s.now && Config.trainingEnds c t) .retrainEnd

/-- A virtual lane whose pause has run out, or whose pause flit is repeated (R399). -/
def laneDue (s : State) (e : Nat × Lane) : Option Instr :=
  let port := BitVec.ofNat 5 (e.1 / 4)
  let vl := BitVec.ofNat 2 (e.1 % 4)
  if e.2.pausedUntil ≠ 0 && decide (e.2.pausedUntil ≤ s.now) then some (.pauseExpiry port vl)
  else when (repeatDue s e.2) (.pauseFlitRepeat port vl)

/-- A module that is removed (R398). -/
def moduleDue (s : State) : Option Instr :=
  (s.modules.zipIdx.find? (fun e => moduleBad s e.1)).map (fun e => .moduleRemove (BitVec.ofNat 2 e.2))

/-- An event whose time has come. -/
def timerDue (s : State) : Option Instr :=
  if !s.powered then none
  else if phaseEnds s then some .bootPhaseEnd
  else if s.nextInterval ≤ s.now then some .intervalStart
  else if s.nextWindow ≤ s.now then some .sensitivityWindowEnd
  else if s.nextPoll ≤ s.now then some .waitPollTimer
  else if s.nextWatchdog ≤ s.now then some .watchdogCheck
  else if s.nextFlush ≤ s.now then some .counterFlush
  else match s.clusters.findSome? (clusterDue s) with
    | some i => some i
    | none => match s.recovering.find? (fun e => decide (e.2 ≤ s.now)) with
      | some e => some (.recoveryExpiry (BitVec.ofNat 14 e.1))
      | none => match trainingDue s with
        | some i => some i
        | none => match s.lanes.findSome? (laneDue s) with
          | some i => some i
          | none => match moduleDue s with
            | some i => some i
            | none => when (nextRetrain s).isSome .retrainStart

/-- A store that has waited for a microsecond is performed (R293); when it is before then is open (R408). -/
def storeDue (s : State) : Option Instr :=
  (s.cores.find? (fun e => e.2.stores.any (fun x => decide (x.since + 1000 ≤ s.now)))).map (fun e => .storePerformed e.1 0)

/-- The first event that is enabled now. -/
def dueEvent (s : State) : Option Instr :=
  if !s.powered then none
  else [timerDue, barrierDue, phaseDue, longDue, storeDue, starvedDue, stageDue, engineDue, leaveDue, jobsDue, partsDue,
    contextsDue, placeDue].findSome? (fun f => f s)

/-- With nothing else to do: a store is performed (R293), a long write lands (R84), the repointing engine and the scrubber
go on (R337, R340). -/
def settleDue (s : State) : Option Instr :=
  match s.cores.find? (fun e => !e.2.stores.isEmpty) with
  | some (m, _) => some (.storePerformed m 0)
  | none => match s.courses.findSome? (fun e =>
      (e.2.longs.find? (fun w => mayLand e.2 w.id)).map (fun w => .longWriteComplete (e.1 / 32) (e.1 % 32) w.id)) with
    | some i => some i
    | none =>
      if s.phase ≠ 4 then none
      else match nextRebuild s with
        | some r => some (if r.cursor < 128 then .rebuildSpan else .memberSwitch)
        | none =>
          if (staleSlot s).isSome then some .staleSlotRewrite
          else when (scrubDue s) .scrubSpan

/-- When a cluster's clock has run to a cycle (R311). -/
def cycleTime (s : State) (k n : Nat) : Nat :=
  let c := getCluster s k
  s.now + ceilDiv (1000 * (n - c.cycles)) (clockRate c)

/-- The times at which ports of cores that hold blocks, and stagings of the transform pipe, are through (R28, R239). -/
def pipeTimes (s : State) : List Nat :=
  s.courses.flatMap (fun e =>
    let m := blockCore s (e.1 / 32)
    let due := ((openStage e.2.tape).bind (·.due)).toList
    ((getCore s m).ports.map (·.1) ++ due).map (cycleTime s (coreCluster m)))

/-- The moments at which something can come to be due. -/
def timers (s : State) : List Nat :=
  [s.nextInterval, s.nextWindow, s.nextPoll, s.nextWatchdog, s.nextFlush]
  ++ s.jobs.filterMap (fun e => e.2.firstSince.map (· + 100000))
  ++ s.contexts.flatMap (fun e => (e.2.rivalSince.map (· + timeSlice s e.2)).toList ++ [saveLimit s e.2])
  ++ s.cores.flatMap (fun e => e.2.stores.map (·.since + 1000))
  ++ pipeTimes s
  ++ s.rails.map (·.2)
  ++ s.clusters.map (fun e => e.2.offsetSince + 60000000000)
  ++ s.recovering.map (·.2)
  ++ s.lanes.flatMap (fun e => [e.2.pausedUntil, e.2.lastPause + 1000])
  ++ (match s.retraining with
    | some (_, t) => [t + 2000000, t + 4000000]
    | none => [])

/-- The next of them. -/
def nextTimer (s : State) : Nat :=
  ((timers s).filter (fun t => decide (s.now < t))).foldl min (s.now + 10000)

end Sys2Proof.Machine
end

