-- ==== Sys2Proof/Machine/Mmio.lean ====
section
/-!
DEFINITION. Which row of the table a 64-bit write to an offset of the memory BAR is (R391): the register, and where the
register holds a command, its code.
-/

namespace Sys2Proof.Machine

/-- INJDEAD by KIND (R344). -/
def injdeadRow (off : BitVec 26) (v : Double) : Instr :=
  match bits v.toNat 62 60 with
  | 0 => .injdeadChannel v
  | 1 => .injdeadPseudoChannel v
  | 2 => .injdeadBank v
  | 3 => .injdeadStack v
  | 4 => .injdeadRetrainNow v
  | _ => .registerWrite off v

/-- MBCMD by OP (R404). -/
def mailboxRow (off : BitVec 26) (v : Double) : Instr :=
  match bits v.toNat 7 0 with
  | 1 => .attest v
  | 2 => .fwstage v
  | 3 => .fwcommit v
  | 4 => .readLifetimeCounters v
  | 5 => .clearRepairEntries v
  | 6 => .readIdentityKey v
  | _ => .registerWrite off v

/-- CTXCTL by OP (R389). -/
def ctxctlRow (off : BitVec 26) (p : BitVec 3) (v : Double) : Instr :=
  match bits v.toNat 3 0 with
  | 1 => .ctxctlHalt p v
  | 2 => .ctxctlResume p v
  | 3 => .ctxctlStep p v
  | 4 => .ctxctlSave p v
  | 5 => .ctxctlRemove p v
  | 6 => .ctxctlDestroy p v
  | _ => .registerWrite off v

/-- A write of the management window (R391, R392). -/
def managementRow (off : BitVec 26) (v : Double) : Instr :=
  let o := off.toNat
  if o = 0x08 then .railmap v
  else if o = 0x20 then .injpoison v
  else if o = 0x28 then injdeadRow off v
  else if o = 0x40 then mailboxRow off v
  else if 0x100 ≤ o && o < 0x500 && o % 0x80 = 0 then
    let p := BitVec.ofNat 3 ((o - 0x100) / 0x80)
    if v.getLsbD 63 then .pctlEnable p v else .pctlDisable p v
  else if 0x100 ≤ o && o < 0x500 && o % 0x80 = 0x30 then .partitionReset (BitVec.ofNat 3 ((o - 0x100) / 0x80)) v
  else .registerWrite off v

/-- A write of a queue window (R391). -/
def queueWindowRow (off : BitVec 26) (p : BitVec 3) (o : Nat) (v : Double) : Instr :=
  if 0x10000 ≤ o && o < 0x110000 && o % 0x1000 = 0 then .notifyWrite p (BitVec.ofNat 8 ((o - 0x10000) / 0x1000)) v
  else match o with
    | 0x00 => .qcreate p v
    | 0x10 => if v.getLsbD 32 then .cselClear p v else .csel p v
    | 0x28 => .qdestroy p v
    | 0x30 => .ccreate p v
    | 0x40 => .acsel p v
    | 0x50 => .xinv p v
    | 0x120 => if v.getLsbD 16 then .pgdoneAbort p v else .pgdone p v
    | 0x128 => ctxctlRow off p v
    | _ => .registerWrite off v

/-- The row that a write to the memory BAR is (R391). -/
def decodeMmio (off : BitVec 26) (v : Double) : Instr :=
  let o := off.toNat
  if o < 0x1000000 then managementRow off v
  else if o < 0x2000000 then queueWindowRow off (BitVec.ofNat 3 ((o - 0x1000000) / 0x200000)) ((o - 0x1000000) % 0x200000) v
  else .registerWrite off v

end Sys2Proof.Machine
end

