-- ==== Sys2Proof/Machine/Registers.lean ====
section
/-!
DEFINITION. Reads of the memory BAR (R391), and the inputs of the device that are no row of the table: host stores to host
memory, evictions of L1 lines, temperatures.
-/

namespace Sys2Proof.Machine

/-- A read of the management window (R391); write-only registers read zero. -/
def readManagement (s : State) (off : Nat) : Double :=
  if 0x100 ≤ off && off < 0x500 then readBlock (getPart s (BitVec.ofNat 3 ((off - 0x100) / 0x80))) ((off - 0x100) % 0x80)
  else if 0x1000 ≤ off && off < 0x2000 then BitVec.ofNat 64 (natOfBytes (cgetRun 0#8 s.mailbox (off - 0x1000) 8))
  else match off with
    | 0x00 => BitVec.ofNat 64 (readBootstat s)
    | 0x08 => s.railmap
    | 0x10 => s.memctl
    | 0x18 => readMemstat s
    | 0x30 => BitVec.ofNat 64 (readClkstat s)
    | 0x48 => s.mbstat
    | _ => 0

/-- A 64-bit read at an offset of the memory BAR (R391): unlisted offsets read zero. -/
def readRegister (s : State) (off : BitVec 26) : Double :=
  let o := off.toNat
  if o % 8 ≠ 0 then 0
  else if o < 0x1000000 then readManagement s o
  else if o < 0x2000000 then readQueueWindow s (BitVec.ofNat 3 ((o - 0x1000000) / 0x200000)) ((o - 0x1000000) % 0x200000)
  else 0

/-- A host thread stores to host memory; a line of 64 bytes written whole is poisoned no more. -/
def hostWrites (s : State) (pa : Nat) (bs : List Byte) : State :=
  let whole := (hostLines pa (max bs.length 1)).filter (fun l => decide (pa ≤ 64 * l ∧ 64 * l + 64 ≤ pa + bs.length))
  { s with hostMem := csetRun 0#8 s.hostMem pa bs
           hostPoison := whole.foldl (fun m l => cset false m l false) s.hostPoison }

/-- An L1 line is evicted (R283). -/
def evictLine (s : State) (core : Nat) (asid : BitVec 16) (line : Nat) : State :=
  dropLines s (fun m => m = core) (fun x => x.asid == asid && x.line == line)

/-- An in-stack temperature changes (R338, R402). -/
def setTemperature (s : State) (stack : Nat) (degrees : Int) : State :=
  if stack < 10 then { s with temps := cset 25 s.temps stack degrees } else s

end Sys2Proof.Machine
end

