-- ==== Sys2Proof/Machine/CrossLane.lean ====
section
/-!
DEFINITION. The XL class (R182 to R192): votes, shuffles, quad swaps, reductions, scans, MATCH and TILEP.
-/

namespace Sys2Proof.Machine

/-! ### Tiles and sources -/

/-- base(l): the lowest lane of the tile of lane `l` (R51, R183). -/
def tileBase (t l : Nat) : Nat := l / t * t

/-- The lanes of the tile of lane `l`. -/
def tileLanes (t l : Nat) : List Nat := (List.range t).map (tileBase t l + ·)

/-- src(k): A in lane `k` of active(c), 0 elsewhere (R183). -/
def xlSource (v : View) (a : Src) (k : Nat) : Word := if hasLane v.act k then readReg v.k a.reg k else 0

/-- The contributors of a tile, in lane order (R183). -/
def tileContrib (v : View) (l : Nat) : List Nat := (tileLanes v.k.tilep l).filter (hasLane v.contributors)

/-- The contributors of an instruction with a scalar destination: one tile of the active lanes (R184). -/
def courseContrib (v : View) : List Nat := lanesOf (v.act &&& ~~~v.k.helper)

/-- The contributors that the result of lane `l` combines (R183, R184). -/
def contribOf (v : View) (d : RegName) (l : Nat) : List Nat := if isScalar d then courseContrib v else tileContrib v l

/-! ### Votes (R187) -/

/-- The lanes of `l` in which PS is true. -/
def voteMask (v : View) (ps : PredName) (l : List Nat) : Lanes :=
  l.foldl (fun (m : Lanes) k => if hasLane (readPred v.k ps) k then m ||| bitLane k else m) 0

/-- A vote that writes a predicate. -/
def runVote (i : Instr) (pd : PredName) (s : State) (f : View → List Nat → Bool) : Host.Outcome State Fault Refusal :=
  runLong i s (fun v => (predLane v pd (fun l => f v (tileContrib v l)), 0))

/-- VOTE.any (R187). -/
def execVoteAny (pd ps : PredName) (s : State) : Host.Outcome State Fault Refusal :=
  runVote (.voteAny pd ps) pd s (fun v c => c.any (hasLane (readPred v.k ps)))

/-- VOTE.all (R187). -/
def execVoteAll (pd ps : PredName) (s : State) : Host.Outcome State Fault Refusal :=
  runVote (.voteAll pd ps) pd s (fun v c => c.all (hasLane (readPred v.k ps)))

/-- VOTE.uni (R187). -/
def execVoteUni (pd ps : PredName) (s : State) : Host.Outcome State Fault Refusal :=
  runVote (.voteUni pd ps) pd s (fun v c => c.all (hasLane (readPred v.k ps)) || !c.any (hasLane (readPred v.k ps)))

/-- VOTE.ballot (R187). -/
def execVoteBallot (d : RegName) (ps : PredName) (s : State) : Host.Outcome State Fault Refusal :=
  runLong (.voteBallot d ps) s (fun v => (perLane v d (fun l => voteMask v ps (contribOf v d l)), 0))

/-! ### Shuffles and quad swaps (R188, R189) -/

/-- A shuffle: `k` gives the source lane from tile, base, lane and b, or none for the lane's own A. -/
def runShuffle (i : Instr) (d : RegName) (a b : Src) (s : State) (k : Nat → Nat → Nat → Nat → Option Nat) :
    Host.Outcome State Fault Refusal :=
  runLong i s (fun v => (perLane v d (fun l =>
    match k v.k.tilep (tileBase v.k.tilep l) l (readReg v.k b.reg l).toNat with
    | some x => xlSource v a x
    | none => readReg v.k a.reg l), 0))

/-- SHFI (R188). -/
def execShfi (d : RegName) (a b : Src) (s : State) : Host.Outcome State Fault Refusal :=
  runShuffle (.shfi d a b) d a b s (fun t base _ b => some (base + b % t))

/-- SHFU (R188). -/
def execShfu (d : RegName) (a b : Src) (s : State) : Host.Outcome State Fault Refusal :=
  runShuffle (.shfu d a b) d a b s (fun _ base l b => if l < base + b then none else some (l - b))

/-- SHFD (R188). -/
def execShfd (d : RegName) (a b : Src) (s : State) : Host.Outcome State Fault Refusal :=
  runShuffle (.shfd d a b) d a b s (fun t base l b => if base + t ≤ l + b then none else some (l + b))

/-- SHFX (R188). -/
def execShfx (d : RegName) (a b : Src) (s : State) : Host.Outcome State Fault Refusal :=
  runShuffle (.shfx d a b) d a b s (fun t _ l b => some (l ^^^ (b % t)))

/-- The source lane of QSW (R189). -/
def quadLane (op : QuadOp) (l : Nat) : Nat :=
  match op with
  | .h => l ^^^ 1
  | .v => l ^^^ 2
  | .d => l ^^^ 3
  | .b0 => l / 4 * 4
  | .b1 => l / 4 * 4 + 1
  | .b2 => l / 4 * 4 + 2
  | .b3 => l / 4 * 4 + 3

/-- QSW (R189). -/
def execQsw (d : RegName) (a : Src) (op : QuadOp) (s : State) : Host.Outcome State Fault Refusal :=
  runLong (.qsw d a op) s (fun v => (perLane v d (fun l => xlSource v a (quadLane op l)), 0))

/-! ### Reductions and scans (R190, R191) -/

/-- FADD on words (R115). -/
def addFp (a b : Word) : Word × FpFlags := onWords2 (fAdd fp32Fmt) a b

/-- A value written under R114: a NaN as the canonical NaN, with NV when signalling. -/
def passFp (a : Word) : Word × FpFlags :=
  let x := unpack fp32Fmt a.toNat
  if isNaN x then (0x7FC00000#32, flagIf (isSNaN x) flagNV) else (a, 0)

/-- comb of R190's tree. -/
def treeComb (x y : Option (Word × FpFlags)) : Option (Word × FpFlags) :=
  match x, y with
  | some (a, f), some (b, g) => let (r, h) := addFp a b; some (r, f ||| g ||| h)
  | some a, none => some a
  | none, y => y

/-- One level of the tree: neighbours combine. -/
def treeLevel : List (Option (Word × FpFlags)) → List (Option (Word × FpFlags))
  | a :: b :: t => treeComb a b :: treeLevel t
  | l => l

/-- The tree, level by level. -/
def treeSum : Nat → List (Option (Word × FpFlags)) → Option (Word × FpFlags)
  | 0, l => l.head?.join
  | n + 1, l => treeSum n (treeLevel l)

/-- REDX.fadd over the lanes of a tile (R190). -/
def redFadd (contrib : Nat → Bool) (val : Nat → Word) (lanes : List Nat) : Word × FpFlags :=
  let slots := lanes.map (fun k => if contrib k then some (val k, (0 : FpFlags)) else none)
  match treeSum (Nat.log2 lanes.length) slots with
  | none => (0, 0)
  | some (x, f) => let (r, g) := passFp x; (r, f ||| g)

/-- Combine FP values pairwise by minimum or maximum (R116, R190). -/
def redMinMax (max : Bool) (vals : List Word) : Word × FpFlags :=
  match vals with
  | [] => (0x7FC00000#32, 0)
  | x :: t => t.foldl (fun (acc : Word × FpFlags) y =>
      let (r, g) := onWords2 (fMinMax fp32Fmt max) acc.1 y; (r, acc.2 ||| g)) (passFp x)

/-- The integer reductions and their identities (R190). -/
def redInt (op : RedOp) (vals : List Word) : Word :=
  match op with
  | .iadd => vals.foldl (· + ·) 0
  | .imin => vals.foldl (fun a b => if a.sle b then a else b) 0x7FFFFFFF#32
  | .imax => vals.foldl (fun a b => if a.sle b then b else a) 0x80000000#32
  | .umin => vals.foldl (fun a b => if a.ule b then a else b) 0xFFFFFFFF#32
  | .umax => vals.foldl (fun a b => if a.ule b then b else a) 0
  | .iand => vals.foldl (· &&& ·) 0xFFFFFFFF#32
  | .ior => vals.foldl (· ||| ·) 0
  | _ => vals.foldl (· ^^^ ·) 0

/-- A reduction over contributors among the lanes of a tile (R190). -/
def reduce (op : RedOp) (contrib : Nat → Bool) (val : Nat → Word) (lanes : List Nat) : Word × FpFlags :=
  let vals := (lanes.filter contrib).map val
  match op with
  | .fadd => redFadd contrib val lanes
  | .fmin => redMinMax false vals
  | .fmax => redMinMax true vals
  | op => (redInt op vals, 0)

/-- REDX (R190). Each tile combines its contributors once; a scalar destination combines the course. -/
def execRedx (d : RegName) (a : Src) (op : RedOp) (s : State) : Host.Outcome State Fault Refusal :=
  runLong (.redx d a op) s (fun v =>
    let val (k : Nat) := readReg v.k a.reg k
    let f (l : Nat) : Word × FpFlags :=
      if isScalar d then reduce op ((courseContrib v).contains ·) val (List.range 32)
      else reduce op (hasLane v.contributors) val (tileLanes v.k.tilep l)
    (perLane v d (fun l => (f l).1), laneFlags v (isScalar d) (fun l => (f l).2)))

/-- The prefix of R191 over contributors in ascending lane order. -/
def scanVals (op : ScanOp) (vals : List Word) : Word × FpFlags :=
  match op with
  | .iadd | .iaddx => (vals.foldl (· + ·) 0, 0)
  | .fadd =>
    match vals with
    | [] => (0, 0)
    | x :: t => t.foldl (fun (acc : Word × FpFlags) y => let (r, g) := addFp acc.1 y; (r, acc.2 ||| g)) (passFp x)
  | .imax => (redInt .imax vals, 0)
  | .imin => (redInt .imin vals, 0)
  | .ior => (redInt .ior vals, 0)

/-- SCAN (R191). -/
def execScan (d : RegName) (a : Src) (op : ScanOp) (s : State) : Host.Outcome State Fault Refusal :=
  runLong (.scan d a op) s (fun v =>
    let f (l : Nat) : Word × FpFlags :=
      let c := (tileContrib v l).filter (fun k => if op = .iaddx then decide (k < l) else decide (k ≤ l))
      scanVals op (c.map (fun k => readReg v.k a.reg k))
    (perLane v d (fun l => (f l).1), laneFlags v false (fun l => (f l).2)))

/-- MATCH (R192). -/
def execMatchLanes (d : RegName) (a : Src) (s : State) : Host.Outcome State Fault Refusal :=
  runLong (.matchLanes d a) s (fun v => (perLane v d (fun l =>
    (tileContrib v l).foldl (fun (m : Lanes) k =>
      if readReg v.k a.reg k = readReg v.k a.reg l then m ||| bitLane k else m) 0), 0))

/-- TILEP (R186). -/
def execTilep (n : Word) (s : State) : Host.Outcome State Fault Refusal :=
  runInstr (.tilep n) s (fun v =>
    retire (if v.never then s else updCourse s v.u.blk v.u.course (fun k => { k with tilep := n.toNat })) v.u (.tilep n) 0)

end Sys2Proof.Machine
end

