-- ==== Sys2Proof/Machine/Fp.lean ====
section
/-!
DEFINITION. The FP, FUN and CVT classes (R110 to R132). The arithmetic itself stands in Float.lean.
-/

namespace Sys2Proof.Machine

/-! ### Shared forms -/

/-- Results and flags of the executing lanes (R59, R111). -/
def fpLanes (v : View) (d : RegName) (f : Nat → Word × FpFlags) : List RegWrite × FpFlags :=
  (perLane v d (fun l => (f l).1), laneFlags v (isScalar d) (fun l => (f l).2))

/-- A compare's predicate and flags (R111, R118). -/
def fpPred (v : View) (p : PredName) (f : Nat → Bool × FpFlags) : List RegWrite × FpFlags :=
  (predLane v p (fun l => (f l).1), laneFlags v false (fun l => (f l).2))

/-- A short operation on two sources (R115, R116, R119, R120). -/
def runFp2 (i : Instr) (d : RegName) (a b : Src) (s : State) (op : Word → Word → Word × FpFlags) :
    Host.Outcome State Fault Refusal :=
  runShort i s (fun v => fpLanes v d (fun l => op (readReg v.k a.reg l) (readReg v.k b.reg l)))

/-- A short operation that also reads D (R115, R119). -/
def runFp3 (i : Instr) (d : RegName) (a b : Src) (s : State) (op : Word → Word → Word → Word × FpFlags) :
    Host.Outcome State Fault Refusal :=
  runShort i s (fun v => fpLanes v d (fun l => op (readReg v.k a.reg l) (readReg v.k b.reg l) (readReg v.k d l)))

/-- A short operation on one source (R117, R122). -/
def runFp1 (i : Instr) (d : RegName) (a : Src) (s : State) (op : Word → Word × FpFlags) : Host.Outcome State Fault Refusal :=
  runShort i s (fun v => fpLanes v d (fun l => op (readReg v.k a.reg l)))

/-- A FUN or CVT operation: its result is long (R96). -/
def runFun (i : Instr) (d : RegName) (a : Src) (s : State) (op : Word → Word × FpFlags) : Host.Outcome State Fault Refusal :=
  runLong i s (fun v => fpLanes v d (fun l => op (readReg v.k a.reg l)))

/-- The FP32 value of a floating immediate: imm[20:0] << 11 (R117). -/
def floatImm (imm : Word) : Word := imm <<< 11

/-- FFMA and FNFMA on words (R115). -/
def fmaWord (inv : Bool) (a b d : Word) : Word × FpFlags := fp32Word (fFma fp32Fmt inv a.toNat b.toNat d.toNat)

/-! ### Single precision (R115 to R118) -/

/-- FADD (R115). -/
def execFadd (d : RegName) (a b : Src) (s : State) : Host.Outcome State Fault Refusal :=
  runFp2 (.fadd d a b) d a b s (onWords2 (fAdd fp32Fmt))

/-- FSUB (R115). -/
def execFsub (d : RegName) (a b : Src) (s : State) : Host.Outcome State Fault Refusal :=
  runFp2 (.fsub d a b) d a b s (onWords2 (fSub fp32Fmt))

/-- FMUL (R115). -/
def execFmul (d : RegName) (a b : Src) (s : State) : Host.Outcome State Fault Refusal :=
  runFp2 (.fmul d a b) d a b s (onWords2 (fMul fp32Fmt))

/-- FFMA (R115). -/
def execFfma (d : RegName) (a b : Src) (s : State) : Host.Outcome State Fault Refusal :=
  runFp3 (.ffma d a b) d a b s (fmaWord false)

/-- FNFMA (R115). -/
def execFnfma (d : RegName) (a b : Src) (s : State) : Host.Outcome State Fault Refusal :=
  runFp3 (.fnfma d a b) d a b s (fmaWord true)

/-- FMIN (R116). -/
def execFmin (d : RegName) (a b : Src) (s : State) : Host.Outcome State Fault Refusal :=
  runFp2 (.fmin d a b) d a b s (onWords2 (fMinMax fp32Fmt false))

/-- FMAX (R116). -/
def execFmax (d : RegName) (a b : Src) (s : State) : Host.Outcome State Fault Refusal :=
  runFp2 (.fmax d a b) d a b s (onWords2 (fMinMax fp32Fmt true))

/-- FCMP (R118). -/
def execFcmp (pd : PredName) (cc : FpCC) (a b : Src) (s : State) : Host.Outcome State Fault Refusal :=
  runShort (.fcmp pd cc a b) s (fun v =>
    fpPred v pd (fun l => fCompare cc (readReg v.k a.reg l).toNat (readReg v.k b.reg l).toNat))

/-- FADDI (R117). -/
def execFaddi (d : RegName) (a : Src) (imm : Word) (s : State) : Host.Outcome State Fault Refusal :=
  runFp1 (.faddi d a imm) d a s (fun a => onWords2 (fAdd fp32Fmt) a (floatImm imm))

/-- FMULI (R117). -/
def execFmuli (d : RegName) (a : Src) (imm : Word) (s : State) : Host.Outcome State Fault Refusal :=
  runFp1 (.fmuli d a imm) d a s (fun a => onWords2 (fMul fp32Fmt) a (floatImm imm))

/-- FCMPI (R117, R118). -/
def execFcmpi (pd : PredName) (cc : FpCC) (a : Src) (imm : Word) (s : State) : Host.Outcome State Fault Refusal :=
  runShort (.fcmpi pd cc a imm) s (fun v =>
    fpPred v pd (fun l => fCompare cc (readReg v.k a.reg l).toNat (floatImm imm).toNat))

/-! ### Packed (R119, R120) -/

/-- HADD2 (R119). -/
def execHadd2 (d : RegName) (a b : Src) (s : State) : Host.Outcome State Fault Refusal :=
  runFp2 (.hadd2 d a b) d a b s (packed2 (fAdd fp16Fmt))

/-- HMUL2 (R119). -/
def execHmul2 (d : RegName) (a b : Src) (s : State) : Host.Outcome State Fault Refusal :=
  runFp2 (.hmul2 d a b) d a b s (packed2 (fMul fp16Fmt))

/-- BADD2 (R119). -/
def execBadd2 (d : RegName) (a b : Src) (s : State) : Host.Outcome State Fault Refusal :=
  runFp2 (.badd2 d a b) d a b s (packed2 (fAdd bf16Fmt))

/-- BMUL2 (R119). -/
def execBmul2 (d : RegName) (a b : Src) (s : State) : Host.Outcome State Fault Refusal :=
  runFp2 (.bmul2 d a b) d a b s (packed2 (fMul bf16Fmt))

/-- HMIN2 (R119). -/
def execHmin2 (d : RegName) (a b : Src) (s : State) : Host.Outcome State Fault Refusal :=
  runFp2 (.hmin2 d a b) d a b s (packed2 (fMinMax fp16Fmt false))

/-- HMAX2 (R119). -/
def execHmax2 (d : RegName) (a b : Src) (s : State) : Host.Outcome State Fault Refusal :=
  runFp2 (.hmax2 d a b) d a b s (packed2 (fMinMax fp16Fmt true))

/-- HFMA2 (R119). -/
def execHfma2 (d : RegName) (a b : Src) (s : State) : Host.Outcome State Fault Refusal :=
  runFp3 (.hfma2 d a b) d a b s (packed3 (fFma fp16Fmt false))

/-- BFMA2 (R119). -/
def execBfma2 (d : RegName) (a b : Src) (s : State) : Host.Outcome State Fault Refusal :=
  runFp3 (.bfma2 d a b) d a b s (packed3 (fFma bf16Fmt false))

/-- PKH (R120). -/
def execPkh (d : RegName) (a b : Src) (s : State) : Host.Outcome State Fault Refusal :=
  runFp2 (.pkh d a b) d a b s (packFloats fp16Fmt)

/-- PKB (R120). -/
def execPkb (d : RegName) (a b : Src) (s : State) : Host.Outcome State Fault Refusal :=
  runFp2 (.pkb d a b) d a b s (packFloats bf16Fmt)

/-! ### FUN (R121 to R127) -/

/-- FABS (R122): short. -/
def execFabs (d : RegName) (a : Src) (s : State) : Host.Outcome State Fault Refusal :=
  runFp1 (.fabs d a) d a s (fSign false)

/-- FNEG (R122): short. -/
def execFneg (d : RegName) (a : Src) (s : State) : Host.Outcome State Fault Refusal :=
  runFp1 (.fneg d a) d a s (fSign true)

/-- FRCP (R123). -/
def execFrcp (d : RegName) (a : Src) (s : State) : Host.Outcome State Fault Refusal :=
  runFun (.frcp d a) d a s fRcp

/-- FRSQ (R123). -/
def execFrsq (d : RegName) (a : Src) (s : State) : Host.Outcome State Fault Refusal :=
  runFun (.frsq d a) d a s fRsq

/-- FSQRT (R123). -/
def execFsqrt (d : RegName) (a : Src) (s : State) : Host.Outcome State Fault Refusal :=
  runFun (.fsqrt d a) d a s fSqrt

/-- FEXP2 (R124). -/
def execFexp2 (d : RegName) (a : Src) (s : State) : Host.Outcome State Fault Refusal :=
  runFun (.fexp2 d a) d a s fExp2

/-- FLOG2 (R124). -/
def execFlog2 (d : RegName) (a : Src) (s : State) : Host.Outcome State Fault Refusal :=
  runFun (.flog2 d a) d a s fLog2

/-- FSINP (R124). -/
def execFsinp (d : RegName) (a : Src) (s : State) : Host.Outcome State Fault Refusal :=
  runFun (.fsinp d a) d a s fSinp

/-- FCOSP (R124). -/
def execFcosp (d : RegName) (a : Src) (s : State) : Host.Outcome State Fault Refusal :=
  runFun (.fcosp d a) d a s fCosp

/-- FTANH (R124). -/
def execFtanh (d : RegName) (a : Src) (s : State) : Host.Outcome State Fault Refusal :=
  runFun (.ftanh d a) d a s fTanh

/-- FRNDN (R125). -/
def execFrndn (d : RegName) (a : Src) (s : State) : Host.Outcome State Fault Refusal :=
  runFun (.frndn d a) d a s (fRound .rne)

/-- FRNDZ (R125). -/
def execFrndz (d : RegName) (a : Src) (s : State) : Host.Outcome State Fault Refusal :=
  runFun (.frndz d a) d a s (fRound .rz)

/-- FRNDP (R125). -/
def execFrndp (d : RegName) (a : Src) (s : State) : Host.Outcome State Fault Refusal :=
  runFun (.frndp d a) d a s (fRound .rp)

/-- FRNDM (R125). -/
def execFrndm (d : RegName) (a : Src) (s : State) : Host.Outcome State Fault Refusal :=
  runFun (.frndm d a) d a s (fRound .rm)

/-- FCLASS (R126). -/
def execFclass (d : RegName) (a : Src) (s : State) : Host.Outcome State Fault Refusal :=
  runFun (.fclass d a) d a s fClass

/-- FSAT (R127). -/
def execFsat (d : RegName) (a : Src) (s : State) : Host.Outcome State Fault Refusal :=
  runFun (.fsat d a) d a s fSat

/-- FFRAC (R127). -/
def execFfrac (d : RegName) (a : Src) (s : State) : Host.Outcome State Fault Refusal :=
  runFun (.ffrac d a) d a s fFrac

/-- CVT (R128 to R132). -/
def execCvt (d : RegName) (a : Src) (src dst : NumFmt) (rnd : Rounding) (s : State) : Host.Outcome State Fault Refusal :=
  runFun (.cvt d a src dst rnd) d a s (convert src dst rnd)

end Sys2Proof.Machine
end

