-- ==== Sys2Proof/Machine/Int.lean ====
section
/-!
DEFINITION. The INT class (R97 to R109): integer arithmetic, bit fields, 64-bit pairs, immediates, compares, SEL and PLOP.
-/

namespace Sys2Proof.Machine

/-! ### Shared forms -/

/-- A register-register operation on single registers (R99, R101). -/
def runInt2 (i : Instr) (d : RegName) (a b : Src) (s : State) (op : Word → Word → Word) : Host.Outcome State Fault Refusal :=
  runShort i s (fun v => (perLane v d (fun l => op (readReg v.k a.reg l) (readReg v.k b.reg l)), 0))

/-- An operation that also reads D (R100). -/
def runInt3 (i : Instr) (d : RegName) (a b : Src) (s : State) (op : Word → Word → Word → Word) :
    Host.Outcome State Fault Refusal :=
  runShort i s (fun v =>
    (perLane v d (fun l => op (readReg v.k a.reg l) (readReg v.k b.reg l) (readReg v.k d l)), 0))

/-- An operation on one source: the immediate and unary forms (R105, R106). -/
def runInt1 (i : Instr) (d : RegName) (a : Src) (s : State) (op : Word → Word) : Host.Outcome State Fault Refusal :=
  runShort i s (fun v => (perLane v d (fun l => op (readReg v.k a.reg l)), 0))

/-- An operation with no source (R105). -/
def runInt0 (i : Instr) (d : RegName) (s : State) (x : Word) : Host.Outcome State Fault Refusal :=
  runShort i s (fun v => (perLane v d (fun _ => x), 0))

/-- An operation that writes a pair (R104). -/
def runIntPair (i : Instr) (d : RegName) (s : State) (op : Course → Nat → Double) : Host.Outcome State Fault Refusal :=
  runShort i s (fun v => (pairLane v d (op v.k), 0))

/-- A compare (R107): it writes a predicate. -/
def runCompare (i : Instr) (p : PredName) (s : State) (op : Course → Nat → Bool) : Host.Outcome State Fault Refusal :=
  runShort i s (fun v => (predLane v p (op v.k), 0))

/-! ### Operations (R101 to R106) -/

/-- sat32 (R101). -/
def sat32 (x : Int) : Word := BitVec.ofInt 32 (max (-2147483648) (min 2147483647 x))

/-- The high half of a signed product (R101). -/
def mulHs (a b : Word) : Word := BitVec.ofInt 32 (a.toInt * b.toInt / 4294967296)

/-- The high half of an unsigned product (R101). -/
def mulHu (a b : Word) : Word := BitVec.ofNat 32 (a.toNat * b.toNat / 4294967296)

/-- A left shift by b[7:0] (R101). -/
def shiftL (a b : Word) : Word := if b.toNat % 256 < 32 then a <<< (b.toNat % 256) else 0

/-- A right shift with zero fill (R101). -/
def shiftR (a b : Word) : Word := if b.toNat % 256 < 32 then a >>> (b.toNat % 256) else 0

/-- A right shift with sign fill (R101). -/
def shiftA (a b : Word) : Word :=
  if b.toNat % 256 < 32 then a.sshiftRight (b.toNat % 256) else if a.msb then 0xFFFFFFFF#32 else 0

/-- A rotate left by b[4:0] (R101). -/
def rotL (a b : Word) : Word := a.rotateLeft (b.toNat % 32)

/-- pos and len of a bit-field operation (R102). -/
def bfPos (b : Word) : Nat := b.toNat % 32
def bfLen (b : Word) : Nat := b.toNat / 256 % 32

/-- BFX (R102). -/
def bfExtract (a b : Word) : Word := BitVec.ofNat 32 (a.toNat / 2 ^ bfPos b % 2 ^ bfLen b)

/-- BFXS (R102). -/
def bfExtractS (a b : Word) : Word :=
  if bfLen b = 0 then 0
  else BitVec.ofInt 32 (toSigned (bfLen b) ((a.signExtend 64).toNat / 2 ^ bfPos b))

/-- BFI (R102). -/
def bfInsert (a b d : Word) : Word :=
  let n := min (bfLen b) (32 - bfPos b)
  let m : Word := BitVec.ofNat 32 ((2 ^ n - 1) * 2 ^ bfPos b)
  (d &&& ~~~m) ||| ((a <<< bfPos b) &&& m)

/-- Byte `i` of a word. -/
def byteOf (a : Word) (i : Nat) : Nat := a.toNat / 2 ^ (8 * i) % 256

/-- DP4S and DP4U (R103). -/
def dot4 (sign : Bool) (a b d : Word) : Word :=
  let ext (x : Nat) : Int := if sign then toSigned 8 x else (x : Int)
  BitVec.ofInt 32 ((List.range 4).foldl (fun t i => t + ext (byteOf a i) * ext (byteOf b i)) (d.toNat : Int))

/-- SHLW and SHRW (R104). -/
def shiftLW (a : Double) (b : Word) : Double := if b.toNat % 256 < 64 then a <<< (b.toNat % 256) else 0
def shiftRW (a : Double) (b : Word) : Double := if b.toNat % 256 < 64 then a >>> (b.toNat % 256) else 0

/-- IABS (R106). -/
def absWord (a : Word) : Word := if a.msb then 0 - a else a

/-- POPC (R106). -/
def popCount (a : Word) : Word := BitVec.ofNat 32 (countLanes a)

/-- CTZ (R106). -/
def trailZeros (a : Word) : Word := BitVec.ofNat 32 ((lowestLane a).getD 32)

/-- CLZ (R106). -/
def leadZeros (a : Word) : Word := BitVec.ofNat 32 (if a = 0 then 32 else 31 - Nat.log2 a.toNat)

/-- BREV (R106). -/
def bitReverse (a : Word) : Word := maskOf (fun i => a.getLsbD (31 - i))

/-- BSWAP (R106). -/
def byteSwap (a : Word) : Word :=
  BitVec.ofNat 32 (byteOf a 3 + byteOf a 2 * 2 ^ 8 + byteOf a 1 * 2 ^ 16 + byteOf a 0 * 2 ^ 24)

/-- The relations of ICMP, ICMPI and ICMP64 (R107). -/
def intRel {w : Nat} (cc : IntCC) (a b : BitVec w) : Bool :=
  match cc with
  | .eq => a == b
  | .ne => a != b
  | .lt => a.slt b
  | .le => a.sle b
  | .gt => b.slt a
  | .ge => b.sle a
  | .ltu => a.ult b
  | .leu => a.ule b
  | .gtu => b.ult a
  | .geu => b.ule a

/-- PLOP's table at one lane (R109). -/
def plopBit (lut : BitVec 8) (a b c : Bool) : Bool := lut.getLsbD (4 * b2n a + 2 * b2n b + b2n c)

/-! ### Register-register (R101, R102, R103) -/

/-- IADD (R101). -/
def execIadd (d : RegName) (a b : Src) (s : State) : Host.Outcome State Fault Refusal :=
  runInt2 (.iadd d a b) d a b s (fun a b => a + b)

/-- ISUB (R101). -/
def execIsub (d : RegName) (a b : Src) (s : State) : Host.Outcome State Fault Refusal :=
  runInt2 (.isub d a b) d a b s (fun a b => a - b)

/-- IMUL (R101). -/
def execImul (d : RegName) (a b : Src) (s : State) : Host.Outcome State Fault Refusal :=
  runInt2 (.imul d a b) d a b s (fun a b => a * b)

/-- IMULHS (R101). -/
def execImulhs (d : RegName) (a b : Src) (s : State) : Host.Outcome State Fault Refusal :=
  runInt2 (.imulhs d a b) d a b s (fun a b => mulHs a b)

/-- IMULHU (R101). -/
def execImulhu (d : RegName) (a b : Src) (s : State) : Host.Outcome State Fault Refusal :=
  runInt2 (.imulhu d a b) d a b s (fun a b => mulHu a b)

/-- IADDS (R101). -/
def execIadds (d : RegName) (a b : Src) (s : State) : Host.Outcome State Fault Refusal :=
  runInt2 (.iadds d a b) d a b s (fun a b => sat32 (a.toInt + b.toInt))

/-- ISUBS (R101). -/
def execIsubs (d : RegName) (a b : Src) (s : State) : Host.Outcome State Fault Refusal :=
  runInt2 (.isubs d a b) d a b s (fun a b => sat32 (a.toInt - b.toInt))

/-- IMIN (R101). -/
def execImin (d : RegName) (a b : Src) (s : State) : Host.Outcome State Fault Refusal :=
  runInt2 (.imin d a b) d a b s (fun a b => if a.sle b then a else b)

/-- IMAX (R101). -/
def execImax (d : RegName) (a b : Src) (s : State) : Host.Outcome State Fault Refusal :=
  runInt2 (.imax d a b) d a b s (fun a b => if a.sle b then b else a)

/-- UMIN (R101). -/
def execUmin (d : RegName) (a b : Src) (s : State) : Host.Outcome State Fault Refusal :=
  runInt2 (.umin d a b) d a b s (fun a b => if a.ule b then a else b)

/-- UMAX (R101). -/
def execUmax (d : RegName) (a b : Src) (s : State) : Host.Outcome State Fault Refusal :=
  runInt2 (.umax d a b) d a b s (fun a b => if a.ule b then b else a)

/-- AND (R101). -/
def execIand (d : RegName) (a b : Src) (s : State) : Host.Outcome State Fault Refusal :=
  runInt2 (.iand d a b) d a b s (fun a b => a &&& b)

/-- OR (R101). -/
def execIor (d : RegName) (a b : Src) (s : State) : Host.Outcome State Fault Refusal :=
  runInt2 (.ior d a b) d a b s (fun a b => a ||| b)

/-- XOR (R101). -/
def execIxor (d : RegName) (a b : Src) (s : State) : Host.Outcome State Fault Refusal :=
  runInt2 (.ixor d a b) d a b s (fun a b => a ^^^ b)

/-- ANDN (R101). -/
def execAndn (d : RegName) (a b : Src) (s : State) : Host.Outcome State Fault Refusal :=
  runInt2 (.andn d a b) d a b s (fun a b => a &&& ~~~b)

/-- SHL (R101). -/
def execShl (d : RegName) (a b : Src) (s : State) : Host.Outcome State Fault Refusal :=
  runInt2 (.shl d a b) d a b s (fun a b => shiftL a b)

/-- SHR (R101). -/
def execShr (d : RegName) (a b : Src) (s : State) : Host.Outcome State Fault Refusal :=
  runInt2 (.shr d a b) d a b s (fun a b => shiftR a b)

/-- SAR (R101). -/
def execSar (d : RegName) (a b : Src) (s : State) : Host.Outcome State Fault Refusal :=
  runInt2 (.sar d a b) d a b s (fun a b => shiftA a b)

/-- ROTL (R101). -/
def execRotl (d : RegName) (a b : Src) (s : State) : Host.Outcome State Fault Refusal :=
  runInt2 (.rotl d a b) d a b s (fun a b => rotL a b)

/-- BFX (R102). -/
def execBfx (d : RegName) (a b : Src) (s : State) : Host.Outcome State Fault Refusal :=
  runInt2 (.bfx d a b) d a b s (fun a b => bfExtract a b)

/-- BFXS (R102). -/
def execBfxs (d : RegName) (a b : Src) (s : State) : Host.Outcome State Fault Refusal :=
  runInt2 (.bfxs d a b) d a b s (fun a b => bfExtractS a b)

/-- IMAD (R101). -/
def execImad (d : RegName) (a b : Src) (s : State) : Host.Outcome State Fault Refusal :=
  runInt3 (.imad d a b) d a b s (fun a b d => a * b + d)

/-- BFI (R102). -/
def execBfi (d : RegName) (a b : Src) (s : State) : Host.Outcome State Fault Refusal :=
  runInt3 (.bfi d a b) d a b s (fun a b d => bfInsert a b d)

/-- DP4S (R103). -/
def execDp4s (d : RegName) (a b : Src) (s : State) : Host.Outcome State Fault Refusal :=
  runInt3 (.dp4s d a b) d a b s (fun a b d => dot4 true a b d)

/-- DP4U (R103). -/
def execDp4u (d : RegName) (a b : Src) (s : State) : Host.Outcome State Fault Refusal :=
  runInt3 (.dp4u d a b) d a b s (fun a b d => dot4 false a b d)

/-! ### Pairs (R104) -/

/-- IADD64 (R104). -/
def execIadd64 (d : RegName) (a b : Src) (s : State) : Host.Outcome State Fault Refusal :=
  runIntPair (.iadd64 d a b) d s (fun k l => readPair k a.reg l + readPair k b.reg l)

/-- ISUB64 (R104). -/
def execIsub64 (d : RegName) (a b : Src) (s : State) : Host.Outcome State Fault Refusal :=
  runIntPair (.isub64 d a b) d s (fun k l => readPair k a.reg l - readPair k b.reg l)

/-- IMULWS (R104). -/
def execImulws (d : RegName) (a b : Src) (s : State) : Host.Outcome State Fault Refusal :=
  runIntPair (.imulws d a b) d s (fun k l => BitVec.ofInt 64 ((readReg k a.reg l).toInt * (readReg k b.reg l).toInt))

/-- IMULWU (R104). -/
def execImulwu (d : RegName) (a b : Src) (s : State) : Host.Outcome State Fault Refusal :=
  runIntPair (.imulwu d a b) d s (fun k l => BitVec.ofNat 64 ((readReg k a.reg l).toNat * (readReg k b.reg l).toNat))

/-- SHLW (R104). -/
def execShlw (d : RegName) (a b : Src) (s : State) : Host.Outcome State Fault Refusal :=
  runIntPair (.shlw d a b) d s (fun k l => shiftLW (readPair k a.reg l) (readReg k b.reg l))

/-- SHRW (R104). -/
def execShrw (d : RegName) (a b : Src) (s : State) : Host.Outcome State Fault Refusal :=
  runIntPair (.shrw d a b) d s (fun k l => shiftRW (readPair k a.reg l) (readReg k b.reg l))

/-! ### Immediates (R105) -/

/-- IADDI (R105). -/
def execIaddi (d : RegName) (a : Src) (imm : Word) (s : State) : Host.Outcome State Fault Refusal :=
  runInt1 (.iaddi d a imm) d a s (fun a => a + imm)

/-- ANDI (R105). -/
def execAndi (d : RegName) (a : Src) (imm : Word) (s : State) : Host.Outcome State Fault Refusal :=
  runInt1 (.andi d a imm) d a s (fun a => a &&& imm)

/-- ORI (R105). -/
def execOri (d : RegName) (a : Src) (imm : Word) (s : State) : Host.Outcome State Fault Refusal :=
  runInt1 (.ori d a imm) d a s (fun a => a ||| imm)

/-- XORI (R105). -/
def execXori (d : RegName) (a : Src) (imm : Word) (s : State) : Host.Outcome State Fault Refusal :=
  runInt1 (.xori d a imm) d a s (fun a => a ^^^ imm)

/-- SHLI (R105). -/
def execShli (d : RegName) (a : Src) (imm : Word) (s : State) : Host.Outcome State Fault Refusal :=
  runInt1 (.shli d a imm) d a s (fun a => a <<< imm.toNat)

/-- SHRI (R105). -/
def execShri (d : RegName) (a : Src) (imm : Word) (s : State) : Host.Outcome State Fault Refusal :=
  runInt1 (.shri d a imm) d a s (fun a => a >>> imm.toNat)

/-- SARI (R105). -/
def execSari (d : RegName) (a : Src) (imm : Word) (s : State) : Host.Outcome State Fault Refusal :=
  runInt1 (.sari d a imm) d a s (fun a => a.sshiftRight imm.toNat)

/-- IMULI (R105). -/
def execImuli (d : RegName) (a : Src) (imm : Word) (s : State) : Host.Outcome State Fault Refusal :=
  runInt1 (.imuli d a imm) d a s (fun a => a * imm)

/-- MOVI (R105). -/
def execMovi (d : RegName) (imm : Word) (s : State) : Host.Outcome State Fault Refusal :=
  runInt0 (.movi d imm) d s imm

/-- LUI (R105): imm[20:0] << 11. -/
def execLui (d : RegName) (imm : Word) (s : State) : Host.Outcome State Fault Refusal :=
  runInt0 (.lui d imm) d s (imm <<< 11)

/-! ### Unary operations (R106) -/

/-- MOV (R106). -/
def execMov (d : RegName) (a : Src) (s : State) : Host.Outcome State Fault Refusal :=
  runInt1 (.mov d a) d a s (fun a => a)

/-- NOT (R106). -/
def execInot (d : RegName) (a : Src) (s : State) : Host.Outcome State Fault Refusal :=
  runInt1 (.inot d a) d a s (fun a => ~~~a)

/-- INEG (R106). -/
def execIneg (d : RegName) (a : Src) (s : State) : Host.Outcome State Fault Refusal :=
  runInt1 (.ineg d a) d a s (fun a => 0 - a)

/-- IABS (R106). -/
def execIabs (d : RegName) (a : Src) (s : State) : Host.Outcome State Fault Refusal :=
  runInt1 (.iabs d a) d a s (fun a => absWord a)

/-- POPC (R106). -/
def execPopc (d : RegName) (a : Src) (s : State) : Host.Outcome State Fault Refusal :=
  runInt1 (.popc d a) d a s (fun a => popCount a)

/-- CLZ (R106). -/
def execClz (d : RegName) (a : Src) (s : State) : Host.Outcome State Fault Refusal :=
  runInt1 (.clz d a) d a s (fun a => leadZeros a)

/-- CTZ (R106). -/
def execCtz (d : RegName) (a : Src) (s : State) : Host.Outcome State Fault Refusal :=
  runInt1 (.ctz d a) d a s (fun a => trailZeros a)

/-- BREV (R106). -/
def execBrev (d : RegName) (a : Src) (s : State) : Host.Outcome State Fault Refusal :=
  runInt1 (.brev d a) d a s (fun a => bitReverse a)

/-- BSWAP (R106). -/
def execBswap (d : RegName) (a : Src) (s : State) : Host.Outcome State Fault Refusal :=
  runInt1 (.bswap d a) d a s (fun a => byteSwap a)

/-- SEXT8 (R106). -/
def execSext8 (d : RegName) (a : Src) (s : State) : Host.Outcome State Fault Refusal :=
  runInt1 (.sext8 d a) d a s (fun a => (a.truncate 8).signExtend 32)

/-- SEXT16 (R106). -/
def execSext16 (d : RegName) (a : Src) (s : State) : Host.Outcome State Fault Refusal :=
  runInt1 (.sext16 d a) d a s (fun a => (a.truncate 16).signExtend 32)

/-- ZEXT8 (R106). -/
def execZext8 (d : RegName) (a : Src) (s : State) : Host.Outcome State Fault Refusal :=
  runInt1 (.zext8 d a) d a s (fun a => (a.truncate 8).zeroExtend 32)

/-- ZEXT16 (R106). -/
def execZext16 (d : RegName) (a : Src) (s : State) : Host.Outcome State Fault Refusal :=
  runInt1 (.zext16 d a) d a s (fun a => (a.truncate 16).zeroExtend 32)

/-! ### Compares, SEL and PLOP (R107 to R109) -/

/-- ICMP (R107). -/
def execIcmp (pd : PredName) (cc : IntCC) (a b : Src) (s : State) : Host.Outcome State Fault Refusal :=
  runCompare (.icmp pd cc a b) pd s (fun k l => intRel cc (readReg k a.reg l) (readReg k b.reg l))

/-- ICMPI (R107). -/
def execIcmpi (pd : PredName) (cc : IntCC) (a : Src) (imm : Word) (s : State) : Host.Outcome State Fault Refusal :=
  runCompare (.icmpi pd cc a imm) pd s (fun k l => intRel cc (readReg k a.reg l) imm)

/-- ICMP64 (R107). -/
def execIcmp64 (pd : PredName) (cc : IntCC) (a b : Src) (s : State) : Host.Outcome State Fault Refusal :=
  runCompare (.icmp64 pd cc a b) pd s (fun k l => intRel cc (readPair k a.reg l) (readPair k b.reg l))

/-- SEL (R108): every active lane is written; a uniform SEL follows R90. -/
def execSel (d : RegName) (a b : Src) (s : State) : Host.Outcome State Fault Refusal :=
  runShort (.sel d a b) s (fun v =>
    (destWrite d (if isScalar d then v.dest d else v.act) (fun l =>
      if isScalar d || hasLane v.exe l then readReg v.k a.reg l else readReg v.k b.reg l), 0))

/-- PLOP (R109). -/
def execPlop (pd pa pb pc : PredName) (lut : BitVec 8) (s : State) : Host.Outcome State Fault Refusal :=
  runCompare (.plop pd pa pb pc lut) pd s (fun k l =>
    plopBit lut (hasLane (readPred k pa) l) (hasLane (readPred k pb) l) (hasLane (readPred k pc) l))

end Sys2Proof.Machine
end

