-- ==== Sys2Proof/Machine/Dispatch.lean ====
section
/-!
DEFINITION. One arm for each row of the table: the meaning of every operation and event.
-/

namespace Sys2Proof.Machine

/-- The effect of an operation or event on the machine. -/
def exec (i : Instr) (s : State) : Host.Outcome State Fault Refusal :=
  match i with
  | .qcreate p v => Sys2Proof.Machine.execQcreate p v s
  | .queueCreationDone p => Sys2Proof.Machine.execQueueCreationDone p s
  | .qdestroy p v => Sys2Proof.Machine.execQdestroy p v s
  | .queueDestroyDone p => Sys2Proof.Machine.execQueueDestroyDone p s
  | .notifyWrite p q v => Sys2Proof.Machine.execNotifyWrite p q v s
  | .consumeSlot p q => Sys2Proof.Machine.execConsumeSlot p q s
  | .packetStart pkt => Sys2Proof.Machine.execPacketStart pkt s
  | .signalPacket pkt => Sys2Proof.Machine.execSignalPacket pkt s
  | .copyPacket pkt => Sys2Proof.Machine.execCopyPacket pkt s
  | .waitPacket pkt => Sys2Proof.Machine.execWaitPacket pkt s
  | .waitRetest pkt => Sys2Proof.Machine.execWaitRetest pkt s
  | .blockPlace pkt => Sys2Proof.Machine.execBlockPlace pkt s
  | .launchHolding pkt => Sys2Proof.Machine.execLaunchHolding pkt s
  | .blockLeave blk => Sys2Proof.Machine.execBlockLeave blk s
  | .launchComplete pkt => Sys2Proof.Machine.execLaunchComplete pkt s
  | .submissionTake asid => Sys2Proof.Machine.execSubmissionTake asid s
  | .csel p v => Sys2Proof.Machine.execCsel p v s
  | .cselClear p v => Sys2Proof.Machine.execCselClear p v s
  | .pgdone p v => Sys2Proof.Machine.execPgdone p v s
  | .pgdoneAbort p v => Sys2Proof.Machine.execPgdoneAbort p v s
  | .ctxctlHalt p v => Sys2Proof.Machine.execCtxctlHalt p v s
  | .haltComplete asid => Sys2Proof.Machine.execHaltComplete asid s
  | .ctxctlResume p v => Sys2Proof.Machine.execCtxctlResume p v s
  | .ctxctlStep p v => Sys2Proof.Machine.execCtxctlStep p v s
  | .ctxctlSave p v => Sys2Proof.Machine.execCtxctlSave p v s
  | .ctxctlRemove p v => Sys2Proof.Machine.execCtxctlRemove p v s
  | .ctxctlDestroy p v => Sys2Proof.Machine.execCtxctlDestroy p v s
  | .ccreate p v => Sys2Proof.Machine.execCcreate p v s
  | .contextCreationDone p => Sys2Proof.Machine.execContextCreationDone p s
  | .acsel p v => Sys2Proof.Machine.execAcsel p v s
  | .xinv p v => Sys2Proof.Machine.execXinv p v s
  | .xinvDone p => Sys2Proof.Machine.execXinvDone p s
  | .pctlEnable p v => Sys2Proof.Machine.execPctlEnable p v s
  | .pctlDisable p v => Sys2Proof.Machine.execPctlDisable p v s
  | .partitionReset p v => Sys2Proof.Machine.execPartitionReset p v s
  | .partitionResetDone p => Sys2Proof.Machine.execPartitionResetDone p s
  | .railmap v => Sys2Proof.Machine.execRailmap v s
  | .injpoison v => Sys2Proof.Machine.execInjpoison v s
  | .injdeadChannel v => Sys2Proof.Machine.execInjdeadChannel v s
  | .injdeadPseudoChannel v => Sys2Proof.Machine.execInjdeadPseudoChannel v s
  | .injdeadBank v => Sys2Proof.Machine.execInjdeadBank v s
  | .injdeadStack v => Sys2Proof.Machine.execInjdeadStack v s
  | .injdeadRetrainNow v => Sys2Proof.Machine.execInjdeadRetrainNow v s
  | .attest v => Sys2Proof.Machine.execAttest v s
  | .fwstage v => Sys2Proof.Machine.execFwstage v s
  | .fwcommit v => Sys2Proof.Machine.execFwcommit v s
  | .readLifetimeCounters v => Sys2Proof.Machine.execReadLifetimeCounters v s
  | .clearRepairEntries v => Sys2Proof.Machine.execClearRepairEntries v s
  | .readIdentityKey v => Sys2Proof.Machine.execReadIdentityKey v s
  | .registerWrite off v => Sys2Proof.Machine.execRegisterWrite off v s
  | .clockRaise k => Sys2Proof.Machine.execClockRaise k s
  | .droopStretch k => Sys2Proof.Machine.execDroopStretch k s
  | .marginOffsetDecay k => Sys2Proof.Machine.execMarginOffsetDecay k s
  | .timeSliceExpiry asid => Sys2Proof.Machine.execTimeSliceExpiry asid s
  | .preempt asid => Sys2Proof.Machine.execPreempt asid s
  | .saveDeadline asid => Sys2Proof.Machine.execSaveDeadline asid s
  | .saveDone asid => Sys2Proof.Machine.execSaveDone asid s
  | .restoreBlocks asid => Sys2Proof.Machine.execRestoreBlocks asid s
  | .recoveryNotice dev => Sys2Proof.Machine.execRecoveryNotice dev s
  | .recoveryExpiry dev => Sys2Proof.Machine.execRecoveryExpiry dev s
  | .remoteAccessDone dev id ok poison data => Sys2Proof.Machine.execRemoteAccessDone dev id ok poison data s
  | .longWriteComplete blk c id => Sys2Proof.Machine.execLongWriteComplete blk c id s
  | .barrierComplete blk id => Sys2Proof.Machine.execBarrierComplete blk id s
  | .phaseWake blk c slot => Sys2Proof.Machine.execPhaseWake blk c slot s
  | .engineAccept cmd => Sys2Proof.Machine.execEngineAccept cmd s
  | .engineStart cmd => Sys2Proof.Machine.execEngineStart cmd s
  | .engineComplete cmd => Sys2Proof.Machine.execEngineComplete cmd s
  | .tapeStageBarrier blk c => Sys2Proof.Machine.execTapeStageBarrier blk c s
  | .channelFail kind ch pc bank => Sys2Proof.Machine.execChannelFail kind ch pc bank s
  | .fabricPauseFlit port vl => Sys2Proof.Machine.execFabricPauseFlit port vl s
  | .fabricResumeFlit port vl => Sys2Proof.Machine.execFabricResumeFlit port vl s
  | .pauseExpiry port vl => Sys2Proof.Machine.execPauseExpiry port vl s
  | .flitReplay port vl => Sys2Proof.Machine.execFlitReplay port vl s
  | .moduleRemove m => Sys2Proof.Machine.execModuleRemove m s
  | .iadd d a b => Sys2Proof.Machine.execIadd d a b s
  | .isub d a b => Sys2Proof.Machine.execIsub d a b s
  | .imul d a b => Sys2Proof.Machine.execImul d a b s
  | .imulhs d a b => Sys2Proof.Machine.execImulhs d a b s
  | .imulhu d a b => Sys2Proof.Machine.execImulhu d a b s
  | .imad d a b => Sys2Proof.Machine.execImad d a b s
  | .iadds d a b => Sys2Proof.Machine.execIadds d a b s
  | .isubs d a b => Sys2Proof.Machine.execIsubs d a b s
  | .imin d a b => Sys2Proof.Machine.execImin d a b s
  | .imax d a b => Sys2Proof.Machine.execImax d a b s
  | .umin d a b => Sys2Proof.Machine.execUmin d a b s
  | .umax d a b => Sys2Proof.Machine.execUmax d a b s
  | .iand d a b => Sys2Proof.Machine.execIand d a b s
  | .ior d a b => Sys2Proof.Machine.execIor d a b s
  | .ixor d a b => Sys2Proof.Machine.execIxor d a b s
  | .andn d a b => Sys2Proof.Machine.execAndn d a b s
  | .shl d a b => Sys2Proof.Machine.execShl d a b s
  | .shr d a b => Sys2Proof.Machine.execShr d a b s
  | .sar d a b => Sys2Proof.Machine.execSar d a b s
  | .rotl d a b => Sys2Proof.Machine.execRotl d a b s
  | .bfx d a b => Sys2Proof.Machine.execBfx d a b s
  | .bfxs d a b => Sys2Proof.Machine.execBfxs d a b s
  | .bfi d a b => Sys2Proof.Machine.execBfi d a b s
  | .dp4s d a b => Sys2Proof.Machine.execDp4s d a b s
  | .dp4u d a b => Sys2Proof.Machine.execDp4u d a b s
  | .iadd64 d a b => Sys2Proof.Machine.execIadd64 d a b s
  | .isub64 d a b => Sys2Proof.Machine.execIsub64 d a b s
  | .imulws d a b => Sys2Proof.Machine.execImulws d a b s
  | .imulwu d a b => Sys2Proof.Machine.execImulwu d a b s
  | .shlw d a b => Sys2Proof.Machine.execShlw d a b s
  | .shrw d a b => Sys2Proof.Machine.execShrw d a b s
  | .iaddi d a imm => Sys2Proof.Machine.execIaddi d a imm s
  | .andi d a imm => Sys2Proof.Machine.execAndi d a imm s
  | .ori d a imm => Sys2Proof.Machine.execOri d a imm s
  | .xori d a imm => Sys2Proof.Machine.execXori d a imm s
  | .shli d a imm => Sys2Proof.Machine.execShli d a imm s
  | .shri d a imm => Sys2Proof.Machine.execShri d a imm s
  | .sari d a imm => Sys2Proof.Machine.execSari d a imm s
  | .movi d imm => Sys2Proof.Machine.execMovi d imm s
  | .lui d imm => Sys2Proof.Machine.execLui d imm s
  | .imuli d a imm => Sys2Proof.Machine.execImuli d a imm s
  | .mov d a => Sys2Proof.Machine.execMov d a s
  | .inot d a => Sys2Proof.Machine.execInot d a s
  | .ineg d a => Sys2Proof.Machine.execIneg d a s
  | .iabs d a => Sys2Proof.Machine.execIabs d a s
  | .popc d a => Sys2Proof.Machine.execPopc d a s
  | .clz d a => Sys2Proof.Machine.execClz d a s
  | .ctz d a => Sys2Proof.Machine.execCtz d a s
  | .brev d a => Sys2Proof.Machine.execBrev d a s
  | .bswap d a => Sys2Proof.Machine.execBswap d a s
  | .sext8 d a => Sys2Proof.Machine.execSext8 d a s
  | .sext16 d a => Sys2Proof.Machine.execSext16 d a s
  | .zext8 d a => Sys2Proof.Machine.execZext8 d a s
  | .zext16 d a => Sys2Proof.Machine.execZext16 d a s
  | .icmp pd cc a b => Sys2Proof.Machine.execIcmp pd cc a b s
  | .icmpi pd cc a imm => Sys2Proof.Machine.execIcmpi pd cc a imm s
  | .icmp64 pd cc a b => Sys2Proof.Machine.execIcmp64 pd cc a b s
  | .sel d a b => Sys2Proof.Machine.execSel d a b s
  | .plop pd pa pb pc lut => Sys2Proof.Machine.execPlop pd pa pb pc lut s
  | .fadd d a b => Sys2Proof.Machine.execFadd d a b s
  | .fsub d a b => Sys2Proof.Machine.execFsub d a b s
  | .fmul d a b => Sys2Proof.Machine.execFmul d a b s
  | .ffma d a b => Sys2Proof.Machine.execFfma d a b s
  | .fnfma d a b => Sys2Proof.Machine.execFnfma d a b s
  | .fmin d a b => Sys2Proof.Machine.execFmin d a b s
  | .fmax d a b => Sys2Proof.Machine.execFmax d a b s
  | .fcmp pd cc a b => Sys2Proof.Machine.execFcmp pd cc a b s
  | .faddi d a imm => Sys2Proof.Machine.execFaddi d a imm s
  | .fmuli d a imm => Sys2Proof.Machine.execFmuli d a imm s
  | .fcmpi pd cc a imm => Sys2Proof.Machine.execFcmpi pd cc a imm s
  | .hadd2 d a b => Sys2Proof.Machine.execHadd2 d a b s
  | .hmul2 d a b => Sys2Proof.Machine.execHmul2 d a b s
  | .hfma2 d a b => Sys2Proof.Machine.execHfma2 d a b s
  | .badd2 d a b => Sys2Proof.Machine.execBadd2 d a b s
  | .bmul2 d a b => Sys2Proof.Machine.execBmul2 d a b s
  | .bfma2 d a b => Sys2Proof.Machine.execBfma2 d a b s
  | .hmin2 d a b => Sys2Proof.Machine.execHmin2 d a b s
  | .hmax2 d a b => Sys2Proof.Machine.execHmax2 d a b s
  | .pkh d a b => Sys2Proof.Machine.execPkh d a b s
  | .pkb d a b => Sys2Proof.Machine.execPkb d a b s
  | .fabs d a => Sys2Proof.Machine.execFabs d a s
  | .fneg d a => Sys2Proof.Machine.execFneg d a s
  | .frcp d a => Sys2Proof.Machine.execFrcp d a s
  | .frsq d a => Sys2Proof.Machine.execFrsq d a s
  | .fsqrt d a => Sys2Proof.Machine.execFsqrt d a s
  | .fexp2 d a => Sys2Proof.Machine.execFexp2 d a s
  | .flog2 d a => Sys2Proof.Machine.execFlog2 d a s
  | .fsinp d a => Sys2Proof.Machine.execFsinp d a s
  | .fcosp d a => Sys2Proof.Machine.execFcosp d a s
  | .ftanh d a => Sys2Proof.Machine.execFtanh d a s
  | .frndn d a => Sys2Proof.Machine.execFrndn d a s
  | .frndz d a => Sys2Proof.Machine.execFrndz d a s
  | .frndp d a => Sys2Proof.Machine.execFrndp d a s
  | .frndm d a => Sys2Proof.Machine.execFrndm d a s
  | .fclass d a => Sys2Proof.Machine.execFclass d a s
  | .fsat d a => Sys2Proof.Machine.execFsat d a s
  | .ffrac d a => Sys2Proof.Machine.execFfrac d a s
  | .cvt d a src dst rnd => Sys2Proof.Machine.execCvt d a src dst rnd s
  | .voteAny pd ps => Sys2Proof.Machine.execVoteAny pd ps s
  | .voteAll pd ps => Sys2Proof.Machine.execVoteAll pd ps s
  | .voteUni pd ps => Sys2Proof.Machine.execVoteUni pd ps s
  | .voteBallot d ps => Sys2Proof.Machine.execVoteBallot d ps s
  | .shfi d a b => Sys2Proof.Machine.execShfi d a b s
  | .shfu d a b => Sys2Proof.Machine.execShfu d a b s
  | .shfd d a b => Sys2Proof.Machine.execShfd d a b s
  | .shfx d a b => Sys2Proof.Machine.execShfx d a b s
  | .qsw d a op => Sys2Proof.Machine.execQsw d a op s
  | .redx d a op => Sys2Proof.Machine.execRedx d a op s
  | .scan d a op => Sys2Proof.Machine.execScan d a op s
  | .matchLanes d a => Sys2Proof.Machine.execMatchLanes d a s
  | .tilep n => Sys2Proof.Machine.execTilep n s
  | .bra off => Sys2Proof.Machine.execBra off s
  | .brx a => Sys2Proof.Machine.execBrx a s
  | .call off => Sys2Proof.Machine.execCall off s
  | .callx a => Sys2Proof.Machine.execCallx a s
  | .rcv off => Sys2Proof.Machine.execRcv off s
  | .bar id => Sys2Proof.Machine.execBar id s
  | .pharr d a imm => Sys2Proof.Machine.execPharr d a imm s
  | .phwait d a imm => Sys2Proof.Machine.execPhwait d a imm s
  | .proof code => Sys2Proof.Machine.execProof code s
  | .trap code => Sys2Proof.Machine.execTrap code s
  | .ldr d a rs j => Sys2Proof.Machine.execLdr d a rs j s
  | .str d a rs j => Sys2Proof.Machine.execStr d a rs j s
  | .ldrp d a rs j => Sys2Proof.Machine.execLdrp d a rs j s
  | .atr op d a rs => Sys2Proof.Machine.execAtr op d a rs s
  | .pref lvl a rs j => Sys2Proof.Machine.execPref lvl a rs j s
  | .ldl d a imm => Sys2Proof.Machine.execLdl d a imm s
  | .stl d a imm => Sys2Proof.Machine.execStl d a imm s
  | .atl op d a => Sys2Proof.Machine.execAtl op d a s
  | .ldlp d a imm => Sys2Proof.Machine.execLdlp d a imm s
  | .fence kind scope eng => Sys2Proof.Machine.execFence kind scope eng s
  | .cinv scope => Sys2Proof.Machine.execCinv scope s
  | .recld dst a rs j => Sys2Proof.Machine.execRecld dst a rs j s
  | .cpy card strm c => Sys2Proof.Machine.execCpy card strm c s
  | .gath card strm c => Sys2Proof.Machine.execGath card strm c s
  | .xfmCrc32c d a cnt => Sys2Proof.Machine.execXfmCrc32c d a cnt s
  | .xfmHash d a cnt => Sys2Proof.Machine.execXfmHash d a cnt s
  | .xfmSort d a cnt => Sys2Proof.Machine.execXfmSort d a cnt s
  | .mma card strm c => Sys2Proof.Machine.execMma card strm c s
  | .mml card strm c => Sys2Proof.Machine.execMml card strm c s
  | .epi card strm c => Sys2Proof.Machine.execEpi card strm c s
  | .swait strm => Sys2Proof.Machine.execSwait strm s
  | .trec w tag a => Sys2Proof.Machine.execTrec w tag a s
  | .tpop w tag d => Sys2Proof.Machine.execTpop w tag d s
  | .brr off => Sys2Proof.Machine.execBrr off s
  | .tctlRecbegin drop rec hint => Sys2Proof.Machine.execTctlRecbegin drop rec hint s
  | .tctlRecbeginExt drop rec hint => Sys2Proof.Machine.execTctlRecbeginExt drop rec hint s
  | .tctlRecend d => Sys2Proof.Machine.execTctlRecend d s
  | .tctlRepbegin o rec hint => Sys2Proof.Machine.execTctlRepbegin o rec hint s
  | .tctlMark a => Sys2Proof.Machine.execTctlMark a s
  | .tctlStatus d => Sys2Proof.Machine.execTctlStatus d s
  | .srd d sr => Sys2Proof.Machine.execSrd d sr s
  | .swr sr a => Sys2Proof.Machine.execSwr sr a s
  | .taskSignal a => Sys2Proof.Machine.execTaskSignal a s
  | .taskEnq d a => Sys2Proof.Machine.execTaskEnq d a s
  | .stepBegin d a => Sys2Proof.Machine.execStepBegin d a s
  | .stepEnd d a => Sys2Proof.Machine.execStepEnd d a s
  | .stepSlack d a => Sys2Proof.Machine.execStepSlack d a s
  | .storePerformed core idx => Sys2Proof.Machine.execStorePerformed core idx s
  | .hostMemoryAccess pa len data => Sys2Proof.Machine.execHostMemoryAccess pa len data s
  | .hostSnoop pa => Sys2Proof.Machine.execHostSnoop pa s
  | .fabricRequest asid va kind data => Sys2Proof.Machine.execFabricRequest asid va kind data s
  | .courseStarved blk c => Sys2Proof.Machine.execCourseStarved blk c s
  | .supplyRecovers k => Sys2Proof.Machine.execSupplyRecovers k s
  | .pauseFlitRepeat port vl => Sys2Proof.Machine.execPauseFlitRepeat port vl s
  | .waitPollTimer => Sys2Proof.Machine.execWaitPollTimer s
  | .intervalStart => Sys2Proof.Machine.execIntervalStart s
  | .sensitivityWindowEnd => Sys2Proof.Machine.execSensitivityWindowEnd s
  | .watchdogCheck => Sys2Proof.Machine.execWatchdogCheck s
  | .retrainStart => Sys2Proof.Machine.execRetrainStart s
  | .retrainEnd => Sys2Proof.Machine.execRetrainEnd s
  | .retrainTimeout => Sys2Proof.Machine.execRetrainTimeout s
  | .rebuildSpan => Sys2Proof.Machine.execRebuildSpan s
  | .memberSwitch => Sys2Proof.Machine.execMemberSwitch s
  | .staleSlotRewrite => Sys2Proof.Machine.execStaleSlotRewrite s
  | .scrubSpan => Sys2Proof.Machine.execScrubSpan s
  | .counterFlush => Sys2Proof.Machine.execCounterFlush s
  | .powerGood => Sys2Proof.Machine.execPowerGood s
  | .bootPhaseEnd => Sys2Proof.Machine.execBootPhaseEnd s
  | .nop => Sys2Proof.Machine.execNop s
  | .ret => Sys2Proof.Machine.execRet s
  | .join => Sys2Proof.Machine.execJoin s
  | .exit => Sys2Proof.Machine.execExit s
  | .yield => Sys2Proof.Machine.execYield s
  | .tctlRepend => Sys2Proof.Machine.execTctlRepend s
  | .tctlFlush => Sys2Proof.Machine.execTctlFlush s
  | .taskDone => Sys2Proof.Machine.execTaskDone s
  | .packetFetch => Sys2Proof.Machine.execPacketFetch s
  | .powerLoss => Sys2Proof.Machine.execPowerLoss s

end Sys2Proof.Machine
end

