-- ==== Sys2Proof/Machine/Unit.lean ====
section
/-!
DEFINITION. The issue of one unit of a path: its members, the checks of a chained group as a whole (R81, R82, R92), the
masked mortar word (R357), and the members' effects in slot order.
-/

namespace Sys2Proof.Machine

/-- A NOP or a flow instruction: it folds nothing (R357). -/
def foldsNothing (c : SlotCode) : Bool := pipeClass c.instr == .none || pipeClass c.instr == .flow

/-- The masked mortar word of a packet (R357). -/
def maskedMortar (x : PacketCode) : Word :=
  let masked := (List.range 3).filter (fun k => match x.slots[k]? with
    | some c => foldsNothing c
    | none => false)
  let m := masked.foldl (fun m k => m - bits m (6 * k + 5) (6 * k) * 2 ^ (6 * k)) x.mortar.toNat
  let xs := bits m 31 30
  BitVec.ofNat 32 (if xs ≠ 0 && masked.contains (xs - 1) then m % 2 ^ 18 else m)

/-- The mortar word that a unit from slot `k` on folds first: none where a lower slot of the packet has folded (R357). -/
def unitMortar (x : PacketCode) (k : Nat) : Option Word :=
  if (x.slots.take k).any (fun c => !foldsNothing c) then none else some (maskedMortar x)

/-- The members of the issue unit of a path that stands at slot `k`: slots and their contents. -/
def unitMembers (x : PacketCode) (k : Nat) : List (Nat × SlotCode) := (groupFrom x k).zipIdx.map (fun e => (k + e.2, e.1))

/-- What the issue unit of a path begins with. -/
def unitStart (x : PacketCode) (p : Path) (k : Course) (blk c slot : Nat) : Issue :=
  { blk := blk, course := c, slot := slot, guard := 0, word := 0, wait := false, mortar := unitMortar x p.slot,
    pos := p.slot, first := p.slot, after := p.slot + (groupFrom x p.slot).length, last := false, before := k,
    spends := [], flags := 0, folds := [], waits := false, demotes := false }

/-- A unit at one of its members. -/
def atMember (u : Issue) (e : Nat × SlotCode) (last : Bool) : Issue :=
  { u with pos := e.1, guard := e.2.guard, word := e.2.word, wait := e.2.wait, last := last }

/-- What stops a member, by one class of checks (R92). -/
def memberStop (s : State) (u : Issue) (check : State → View → Instr → Option Stop) (e : Nat × SlotCode) :
    Option (Nat × SlotCode × Stop) :=
  match viewOf { s with issue := some (atMember u e false) } with
  | some v => (check s v e.2.instr).map (fun f => (e.1, e.2, f))
  | none => none

/-- The further registers that a record gives D, where the record and the name of D are sound (R81, R160). -/
def widthRes (v : View) (i : Instr) : List Res :=
  match i with
  | .ldr d _ rs _ | .str d _ rs _ | .ldrp d _ rs _ =>
    if recordBad (readRecord v.k rs.val) fmtAccess || !fmtNameOk d (readRecord v.k rs.val).fmt then [] else furtherRes v i
  | _ => []

/-- What a member of a chained group reads at issue (R81). -/
def groupReads (v : View) (c : SlotCode) : List Res :=
  reads c.instr ++ predRes (c.guard.truncate 3) ++ (match c.instr with
    | .str .. => widthRes v c.instr
    | _ => [])

/-- What a member of a chained group writes at issue (R81). -/
def groupWrites (v : View) (c : SlotCode) : List Res :=
  writes c.instr ++ (match c.instr with
    | .ldr .. | .ldrp .. => widthRes v c.instr
    | _ => [])

/-- A register that a record's width adds meets another member of the group: one that an earlier member writes is read or
written by a later one (R81). The registers that the words name have been compared at fetch. -/
def widthClash (v : View) : List SlotCode → Bool
  | [] => false
  | a :: t => t.any (fun b => (groupWrites v a).any (fun r => (groupReads v b ++ groupWrites v b).contains r)) || widthClash v t

/-- The tag of the record whose width adds registers to a group (R158, R369). -/
def groupTag (v : View) (l : List SlotCode) : Half :=
  (l.findSome? (fun c => match c.instr with
    | .ldr _ _ rs _ | .str _ _ rs _ | .ldrp _ _ rs _ =>
      if (widthRes v c.instr).isEmpty then none else some (readRecord v.k rs.val).tag
    | _ => none)).getD 0

/-- The uniform-operand faults of a chained group: its first member's, then a clash of widths at the first slot, then the
others', lowest slot first (R81, R92). -/
def groupUniform (s : State) (u : Issue) (l : List (Nat × SlotCode)) : Option (Nat × SlotCode × Stop) :=
  let own (e : Nat × SlotCode) : Option (Nat × SlotCode × Stop) := memberStop s u (fun s v i => (uniformStop s v i).map .fault) e
  match l with
  | [] => none
  | e :: rest =>
    match own e with
    | some r => some r
    | none =>
      match viewOf { s with issue := some (atMember u e false) } with
      | some v => if widthClash v (l.map (·.2)) then
          some (e.1, e.2, .fault { wholeFault v 0x01 with tag := groupTag v (l.map (·.2)) }) else rest.findSome? own
      | none => none

/-- What stops a chained group: the faults of the uniform-operand class, then those of the per-lane class, then the waits,
each at the lowest member (R82, R92). -/
def groupStop (s : State) (u : Issue) (l : List (Nat × SlotCode)) : Option (Nat × SlotCode × Stop) :=
  match groupUniform s u l with
  | some r => some r
  | none =>
    let lane := l.filterMap (memberStop s u laneStop)
    match lane.find? (fun r => match r.2.2 with
      | .fault _ => true
      | .hold _ => false) with
    | some r => some r
    | none => lane.head?

/-- The members of a unit take effect in slot order; a unit whose path or block is gone ends. -/
def runMembers : List (Nat × SlotCode) → State → Host.Outcome State Fault Refusal
  | [], s => .next s
  | e :: rest, s =>
    match s.issue with
    | none => .next s
    | some u =>
      let t := { s with issue := some (atMember u e rest.isEmpty) }
      match viewOf t with
      | none => .next { s with issue := none }
      | some _ =>
        match exec e.2.instr t with
        | .next t => runMembers rest t
        | o => o

/-- Run an issue unit whose members are given: a chained group is checked whole first (R82). -/
def runUnit (s : State) (u : Issue) (l : List (Nat × SlotCode)) : Host.Outcome State Fault Refusal :=
  match (if l.length ≤ 1 then none else groupStop s u l) with
  | some (_, c, .fault f) => .next (faultUnit s u c.instr f)
  | some (k, c, .hold p) =>
    match viewOf { s with issue := some (atMember u (k, c) false) } with
    | some v => .next (holdUnit s v c.instr p)
    | none => .next s
  | none => runMembers l { s with issue := some u }

/-- A PHWAIT whose phase has not come parks without retiring (R151). -/
def phaseParks (v : View) (i : Instr) : Bool :=
  match i with
  | .phwait d a imm => !localPoisoned v.b (phaseAddr v a imm) 4
      && phaseOfWord (localWord v.b (phaseAddr v a imm)) != (readReg v.k d 0).getLsbD 0
  | _ => false

/-- A unit that faults or waits retires nothing (R386). -/
def unitHeld (s : State) (u : Issue) (l : List (Nat × SlotCode)) : Bool :=
  match l with
  | [e] => (memberStop s u stopOf e).isSome || (match viewOf { s with issue := some (atMember u e true) } with
    | some v => phaseParks v e.2.instr
    | none => false)
  | l => (groupStop s u l).isSome

/-- The path in `slot` issues its next unit, its packet being fetched: its sources are those of its first issue, where it has
waited in place (R83). -/
def issueUnit (s : State) (blk c slot : Nat) : Host.Outcome State Fault Refusal :=
  match getCourse s blk c with
  | none => .next s
  | some k =>
    match getPath k slot, (getPath k slot).bind (pathPacket s blk k) with
    | some p, some x =>
      let u := unitStart x p (latchedCourse k p) blk c slot
      runUnit (if unitHeld s u (unitMembers x p.slot) then s else progress s blk) u (unitMembers x p.slot)
    | _, _ => .next s

end Sys2Proof.Machine
end

