-- ==== Sys2Proof/Machine/Run.lean ====
section
/-!
DEFINITION. What a step does: a formed collective's member first, then the input at the head of the agenda, then an event
that is enabled, then the next quarter's cycle; with none of these, time passes to the next timer.
-/

namespace Sys2Proof.Machine

/-! ### Cycles -/

/-- Time passes as a new round begins: quarters take their cycles in rounds, in rising order. -/
def enterRound (s : State) (x : Nat) : State := if x ≤ s.turn then passFs s (roundFs s) else s

/-- A quarter's cycle in which it issues nothing. -/
def emptyCycle (s : State) (x : Nat) (l : List Candidate) : State :=
  { advanceQuarter (countEligible s l none) (x / 4) (x % 4) none with turn := x }

/-- A quarter that issues what takes no unit does not stall in that cycle, whatever its courses wait for (R312). -/
def creditIssue (s : State) (x : Nat) : State :=
  let k := coreCluster (x / 4)
  let c := getCluster s k
  if quarterWaits s (x / 4) (x % 4) && decide (quarterFree s (x / 4) (x % 4) ≤ c.cycles) then
    setCluster s k { c with busy := c.busy + roundFs s * clockRate c }
  else s

/-- A halted course that STEP lets issue a unit has issued it (R390). -/
def spendAllowance (k : Course) : Course := if k.stopped then { k with allowance := k.allowance - 1 } else k

/-- The state in which a chosen path issues: its quarter has taken the cycle, and its packet has been fetched (R76, R239
to R242). -/
def issueState (s : State) (x : Nat) (l : List Candidate) (r : Candidate × Nat × List Nat) : State :=
  let s := creditIssue (advanceQuarter (countEligible s l (some r.1)) (x / 4) (x % 4) (some r)) x
  let s := updCourse s r.1.blk r.1.c spendAllowance
  fetchPath { s with turn := x } r.1.blk r.1.c r.2.1

/-- The chosen path has its packet: a fetch that fails has moved it, parked it or ended it. -/
def fetched (s : State) (blk c slot : Nat) : Bool :=
  match (getCourse s blk c).bind (fun k => getPath k slot) with
  | some p => !p.fetched.isEmpty
  | none => false

/-- The quarter has taken this cycle of its cluster's clock, which is slower than the round's. -/
def cycleTaken (s : State) (x : Nat) : Bool :=
  let q := (getCore s (x / 4)).quarters.getD (x % 4) Quarter.reset
  decide ((quarterNow s (x / 4) (x % 4)).cycle ≤ q.cycle)

/-- What a quarter does in its cycle (R241). -/
def takeCycle (s : State) (x : Nat) : Host.Outcome State Fault Refusal :=
  let l := eligibleCourses s (x / 4) (x % 4)
  match chooseUnit s (x / 4) (x % 4) l with
  | none => .next (emptyCycle s x l)
  | some r =>
    let t := issueState s x l r
    if fetched t r.1.blk r.1.c r.2.1 then issueUnit t r.1.blk r.1.c r.2.1 else .next t

/-- Quarter `x` takes a cycle (R239, R241). -/
def cycleQuarter (s : State) (x : Nat) : Host.Outcome State Fault Refusal :=
  let t := enterRound s x
  if cycleTaken t x then .next { t with turn := x } else takeCycle t x

/-- A path leaves its arrival park to finish the instruction it stands at (R266). -/
def rejoin (s : State) (blk c slot : Nat) : Host.Outcome State Fault Refusal :=
  issueUnit (updPath s blk c slot (fun p => { p with park := .running })) blk c slot

/-! ### Inputs -/

/-- `n` ns pass, but no further than the next timer; events whose time has come go first. -/
def applyTick (s : State) (n : Nat) (rest : List Move) : Host.Outcome State Fault Refusal :=
  if !s.powered then .next { s with now := s.now + n, offNs := s.offNs + n, agenda := rest }
  else match (timerDue s).or (storeDue s) with
    | some i => exec i s
    | none =>
      let d := nextTimer s - s.now
      if n ≤ d then .next { passTime s n with agenda := rest }
      else .next { passTime s d with agenda := .tick (n - d) :: rest }

/-- A row of the table as an input: an operation of the host or an event of the device. Without power only the supply's
return is seen. -/
def applyEvent (s : State) (i : Instr) : Host.Outcome State Fault Refusal :=
  if pipeClass i == .event && (s.powered || i == .powerGood) then exec i s else .next s

/-- An input takes effect. -/
def applyMove (s : State) (m : Move) (rest : List Move) : Host.Outcome State Fault Refusal :=
  let t := { s with agenda := rest }
  match m with
  | .tick n => applyTick s n rest
  | .event i => applyEvent t i
  | .mmio off v => applyEvent t (decodeMmio off v)
  | .mmioRead off => .next (if s.powered then { t with out := t.out ++ [.mmioData off (readRegister t off)] } else t)
  | .hostStore pa bytes => .next (hostWrites t pa bytes)
  | .cycle core q => if (eligibleCourses t core q).isEmpty then .next t else cycleQuarter t (4 * core + q)
  | .evict core asid line => .next (evictLine t core asid line)
  | .temperature stack degrees => .next (setTemperature t stack degrees)
  | .upset c slot q symbol v => .next (upsetSector t c slot q symbol v)
  | .flitIn port vl n => .next (flitArrives t port vl n)
  | .flitOut port vl n => .next (flitLeaves t port vl n)
  | .flitSend port vl id => .next (flitSends t port vl id)
  | .flitAck port vl id => .next (flitAcked t port vl id)
  | .parity m => .next (parityFails t m)

/-! ### A step -/

/-- Time passes to the next timer. -/
def passIdle (s : State) : State := passTime s (nextTimer s - s.now)

/-- With nothing enabled and no course to issue: what lies pending, then time. -/
def settle (s : State) : Host.Outcome State Fault Refusal :=
  match settleDue s with
  | some i => exec i s
  | none => .next (passIdle s)

/-- With no input: a page-request record that has found room, an enabled event, then a quarter's cycle. -/
def runIdle (s : State) : Host.Outcome State Fault Refusal :=
  match flushRecords s with
  | some t => .next t
  | none =>
    match dueEvent s with
    | some i => exec i s
    | none =>
      match nextQuarter s with
      | some x => cycleQuarter s x
      | none => settle s

/-- One step of the machine. -/
def runStep (s : State) : Host.Outcome State Fault Refusal :=
  match rejoinPath s with
  | some (blk, c, slot) => rejoin s blk c slot
  | none =>
    match s.agenda with
    | m :: rest => applyMove s m rest
    | [] => runIdle s

end Sys2Proof.Machine
end

