-- ==== Sys2Proof/Machine/Step.lean ====
section
/-!
DEFINITION. The step of the machine, and the state in which a given instruction is the next to issue.
-/

namespace Sys2Proof.Machine

/-- One step of the machine. -/
def step (s : State) : Host.Outcome State Fault Refusal := runStep s

/-! ### A state about to issue one instruction -/

/-- A launch of one block of one course: CODE 0x1000, entry 0x40, budget 96, 1 KiB of local store. -/
def probeWords : List Word := [1#32, 0, 0x1000#32, 0, 0, 0, 1#32, 1#32, 1#32, 1#32, 1#32, 96#32, 0x400#32] ++ List.replicate 19 0

def probeJob : Job :=
  { part := 0, queue := 0, idx := 0, asid := 1, words := probeWords, counter := none, started := true, failed := false,
    tested := false, met := [], release := 0, entry := 0x40, size := 0x10000, placed := 1, doneBlocks := 0,
    completed := false, retest := false, kappaNum := 1, kappaDen := 1, holding := false, firstSince := none, code := [],
    copied := 0, asking := false, brought := none }

/-- Context 1: its level-3 table at 0x2000, its area at 0x10_0000. -/
def probeContext : Context :=
  { asid := 1, part := 0, depth := 32, nc := 32, ptroot := 0x2000#64, area := 0x100000#64, rubBase := 0x200000#64,
    rubSize := 0x100000#64, state := .running, counter := false, nextFault := 0, faults := [], step := none, subs := [],
    subSeq := 0, subHalted := false, energy := 0, saved := [], savedAt := 0, saveFrom := 0,
    hostSaved := false, heldSince := 0, rivalSince := none, restored := none, destroying := false }

/-- Partition 0 with cluster 0 and the first 1 GiB of device memory. -/
def probePartition : Partition :=
  { Partition.reset with pctl := 0x8000000000000001#64, pmem := 0x0000400000000000#64, pstate := 1 }

/-- The tables, which map virtual addresses 0 to 1 GiB - 1 to the same physical ones, and the packet at 0x1040: an empty
mortar word, the instruction in slot 0, NOP in slots 1 and 2. -/
def probeMemory (dev : Cells Byte) (w : Nat) : Cells Byte :=
  let m := csetRun 0#8 dev 0x1040 (bytesOfNat 16 (w % 2 ^ 32 * 2 ^ 32))
  let m := csetRun 0#8 m 0x2000 (bytesOfNat 8 0x3101)
  csetRun 0#8 m 0x3000 (bytesOfNat 8 0x7)

/-- `s` with an enabled partition, a context and a running launch whose only course is about to issue the instruction
`w`, and with nothing else that could come first. -/
def State.withFetchWord (s : State) (_ w : Nat) : State :=
  let t : State := { s with
    agenda := [], turn := 0, issue := none, courses := [], blocks := [], commands := [], waitingBlocks := [], cores := []
    clusters := [], contexts := [(1, probeContext)], queues := [], jobs := [(0, probeJob)], partitions := [(0, probePartition)]
    dev := probeMemory s.dev w, devPoison := [], powered := true, phase := 4, memctl := 0, dueNow := [], retraining := none
    lanes := [], recovering := [], modules := s.modules.map (fun e => (e.1, []))
    nextInterval := max s.nextInterval (s.now + 1), nextWindow := max s.nextWindow (s.now + 1)
    nextPoll := max s.nextPoll (s.now + 1), nextWatchdog := max s.nextWatchdog (s.now + 1)
    nextFlush := max s.nextFlush (s.now + 1) }
  { t with blocks := [(0, startBlock t 0 probeJob 0 0 0)], courses := [(0, startCourse t probeJob 0 0 0)] }

end Sys2Proof.Machine
end

