-- ==== Sys2Proof/Safety.lean ====
section
/-!
DEFINITION. What a safe run is, in the terms that claims use: the machine goes on, its memories keep their one canonical
form, and its tables keep their keys in order.
-/

namespace Sys2Proof.Machine

/-- The local store of a block and its poison marks are in canonical form. -/
def blockMemWf (b : Block) : Bool := Memory.wf b.localMem && cellsWf false b.localPoison

/-- The local store that the last block left on a core is in canonical form (R235). -/
def coreMemWf (c : Core) : Bool := match c.left with
  | some e => Memory.wf e.2
  | none => true

/-- Every memory of the machine is in its canonical form: device and host memory, their poison marks, the local store and
its poison of every resident block, and what a block that has left leaves on its core. -/
def State.memWf (s : State) : Bool :=
  Memory.wf s.dev && cellsWf false s.devPoison && Memory.wf s.hostMem && cellsWf false s.hostPoison
    && s.blocks.all (fun e => blockMemWf e.2) && s.cores.all (fun e => coreMemWf e.2)

/-- The tables of the machine hold their keys in rising order, so equal contents are equal lists. -/
def State.tablesWf (s : State) : Bool :=
  rising s.courses && rising s.blocks && rising s.commands && rising s.cores && rising s.clusters && rising s.contexts
    && rising s.queues && rising s.jobs && rising s.counters && rising s.partitions

/-- The machine goes on for `n` steps from `s`. -/
def Runs (n : Nat) (s : State) : Prop := ∃ t, Host.Core.run Sys2Proof.core n s = .next t

/-- A safe run: it goes on for any number of steps, and its memories keep their canonical form at each. -/
def Safe (s : State) : Prop := ∀ n, ∃ t, Host.Core.run Sys2Proof.core n s = .next t ∧ t.memWf = true

end Sys2Proof.Machine
end

