-- ==== Sys2Proof/Safety/Effects.lean ====
section
/-!
DEFINITION. The terms in which claims say what an operation leaves: what an instruction sees, what stands in a register
after a write, what an issue unit leaves behind, and which memory is untouched.
-/

namespace Sys2Proof.Machine

/-! ### The issuing instruction -/

/-- An instruction is about to take effect: `v` is what it sees, `k` its course as it stands now (it may differ from
`v.k`, the course before the group, where an earlier member of its group has written), and no member before it demotes the
path. -/
structure Issuing (s : State) (v : View) (k : Course) : Prop where
  view : viewOf s = some v
  course : getCourse s v.u.blk v.u.course = some k
  stays : v.u.demotes = false

/-- A flow instruction is about to take effect: it is never chained (R81), so it is an issue unit of its own, and nothing
has been folded before it. -/
structure IssuingAlone (s : State) (v : View) : Prop where
  view : viewOf s = some v
  course : getCourse s v.u.blk v.u.course = some v.k
  stays : v.u.demotes = false
  alone : lone v.u = true
  fresh : v.u.folds = []
  slot : v.u.slot < 2

/-- An instruction that is an issue unit of its own names no register and no predicate with a long write pending in its
path (R86); the members of a chained group have been checked before the first of them took effect (R82). -/
def NoHazard (v : View) (i : Instr) : Prop := lone v.u = true → pendingAny v (namedRes v i) = false

/-- No check of R92 stops the instruction: the members of a chained group have been checked as a whole. -/
def Unstopped (s : State) (v : View) (i : Instr) : Prop := lone v.u = true → stopOf s v i = none

/-! ### Registers after a write -/

/-- `k'` is `k` but for its registers, its predicates and their spent bits. -/
def OnlyRegs (k k' : Course) : Prop :=
  k' = { k with vregs := k'.vregs, sregs := k'.sregs, preds := k'.preds, vspent := k'.vspent, sspent := k'.sspent }

/-- The lane whose result register `r` shows in lane `l` once destination `d` has been written for the lanes `m` of `k`:
a live lane of `m` in a vector register, the lowest lane of `m` for a scalar one, none in any other register and none in sz
(R55, R56, R59). -/
def resultLane (k : Course) (m : Lanes) (d r : RegName) (l : Nat) : Option Nat :=
  if d ≠ r then none
  else match r with
    | .v _ => if hasLane (m &&& k.live) l then some l else none
    | .s _ => lowestLane m
    | .sz => none

/-- What `r` reads in lane `l` once these destinations have been written, in order, for the lanes `m` of `k`. -/
def readAfter (k : Course) (m : Lanes) (ds : List (RegName × (Nat → Word))) (r : RegName) (l : Nat) : Word :=
  ds.foldl (fun w d => match resultLane k m d.1 r l with
    | some x => d.2 x
    | none => w) (readReg k r l)

/-- `k'` is `k` with these destinations written for the lanes `m`: every other register, lane and predicate reads as before,
and nothing else of the course has changed. -/
def Written (k k' : Course) (m : Lanes) (ds : List (RegName × (Nat → Word))) : Prop :=
  OnlyRegs k k' ∧ (∀ p, readPred k' p = readPred k p) ∧ ∀ r l, l < 32 → readReg k' r l = readAfter k m ds r l

/-- `k'` is `k` with predicate `p` written for the live lanes of `m`; p0 stays true (R58, R59). Registers and the other
predicates read as before. -/
def PredWritten (k k' : Course) (m : Lanes) (p : PredName) (f : Nat → Bool) : Prop :=
  OnlyRegs k k' ∧ (∀ r l, l < 32 → readReg k' r l = readReg k r l) ∧
  ∀ q l, hasLane (readPred k' q) l
    = if q = p ∧ p ≠ 0 ∧ hasLane (m &&& k.live) l = true then f l else hasLane (readPred k q) l

/-- The two words of a 64-bit result (R57). -/
def lowWord (x : Double) : Word := x.truncate 32
def highWord (x : Double) : Word := (x >>> 32).truncate 32

/-! ### What an issue unit leaves -/

/-- The unit after a member: its spent registers, its flags, its word for the signature and its wait marker are gathered
until the last member takes effect (R62, R82). -/
def gathered (u : Issue) (i : Instr) (flags : FpFlags) : Issue :=
  { u with spends := u.spends ++ spends i, flags := u.flags ||| flags, folds := memberFolds u i, waits := u.waits || u.wait }

/-- The machine after a member that leaves its course as `k'` and the rest of the machine as `s`: the last member ends the
unit, and the path stands at the next one. -/
def unitLeaves (s : State) (v : View) (i : Instr) (flags : FpFlags) (k' : Course) : State :=
  if v.u.last then { setCourse s v.u.blk v.u.course (unitCourse (gathered v.u i flags) true k') with issue := none }
  else { setCourse s v.u.blk v.u.course k' with issue := some (gathered v.u i flags) }

/-- The machine after a member that changes nothing of its own, where its course stands as `k`. -/
def unitPasses (s : State) (v : View) (i : Instr) (k : Course) : State :=
  if v.u.last then { setCourse s v.u.blk v.u.course (unitCourse (gathered v.u i 0) true k) with issue := none }
  else { s with issue := some (gathered v.u i 0) }

/-- The course after a flow instruction, but for the path's own move. -/
def flowCourse (v : View) (i : Instr) (k : Course) : Course := unitCourse (gathered v.u i 0) false k

/-- The machine after an instruction whose issue unit has ended and which leaves its course as `k'`. -/
def courseLeaves (s : State) (v : View) (k' : Course) : State := { setCourse s v.u.blk v.u.course k' with issue := none }

/-- The machine once a flow instruction has issued, before its path moves. -/
def flowIssued (s : State) (v : View) (i : Instr) (k : Course) : State := courseLeaves s v (flowCourse v i k)

/-- The machine after a flow instruction that moves its path by `g` and changes nothing else of its own. -/
def pathLeaves (s : State) (v : View) (i : Instr) (k : Course) (g : Path → Path) : State :=
  let k1 := flowCourse v i k
  courseLeaves s v (setPath k1 v.u.slot ((getPath k1 v.u.slot).map g))

/-- The packet address that a branch or a call goes to (R87, R139, R140, R141). -/
def targetOf (s : State) (v : View) (i : Instr) : Option Double :=
  match i with
  | .bra off | .call off => some (v.p.pc + 16 + 16 * off.signExtend 64)
  | .brx a | .callx a =>
    (lowestLane v.exe).map (fun l => BitVec.ofNat 64 (blockCode s v.u.blk + (readReg v.k a.reg l).toNat))
  | _ => none

/-- The machine after a push by the issuing path, whose course stands as `k` before it: the entry and its trap word are
written at the current depth, and the depth becomes one more (R137). -/
def pushLeaves (s : State) (v : View) (x : Context) (k : Course) (e : Entry) : State :=
  writeEntry (courseLeaves s v { k with depth := k.depth + 1 }) x k.stackSlot k.depth e

/-! ### Long writes -/

/-- `k'` is `k` with the long write pending in the path of `slot` (R84); one that brings nothing leaves the course as it
is. -/
def LongBegun (k k' : Course) (slot : Nat) (w : LongWrite) : Prop :=
  k' = if longBrings w then
      setPath { k with longs := k.longs ++ [w] } slot
        ((getPath k slot).map (fun p => { p with pending := p.pending ++ [w.id] }))
    else k

/-- A long write that only brings results: it kills no lane and holds nothing else pending. -/
def PureLong (w : LongWrite) : Prop := w.holds = [] ∧ w.kill = 0 ∧ w.killAll = false

/-- The machine once a long write has taken its identity. -/
def idTaken (s : State) : State := { s with nextId := s.nextId + 1 }

/-! ### Memory -/

/-- Every byte of device memory, of host memory and of each block's local store reads as before. -/
def SameMemory (s t : State) : Prop :=
  (∀ a, cget 0#8 t.dev a = cget 0#8 s.dev a) ∧ (∀ a, cget 0#8 t.hostMem a = cget 0#8 s.hostMem a) ∧
  ∀ b a, (getBlock t b).map (fun x => cget 0#8 x.localMem a) = (getBlock s b).map (fun x => cget 0#8 x.localMem a)

/-- `t` is `s` but for memory: bytes and poison, the host's lines, the cores' copies, pending stores and record numbers, what
is known of the channels that hold the memory, the lines of the L2 and its counters, the stack entries as written, the
requests to remote devices, and the output. No course, block, context, command, launch, queue, counter, partition or register
of the management window differs. -/
def OnlyMemory (s t : State) : Prop :=
  t = { s with cores := t.cores, entries := t.entries, dev := t.dev, devPoison := t.devPoison, hostMem := t.hostMem,
               hostPoison := t.hostPoison, hostHeld := t.hostHeld, stale := t.stale, retired := t.retired,
               symbols := t.symbols, skew := t.skew, repair := t.repair, chanCounts := t.chanCounts, passCe := t.passCe,
               passBad := t.passBad, l2 := t.l2, traffic := t.traffic, remotes := t.remotes, nextId := t.nextId, out := t.out }

/-! ### Long results -/

/-- What an instruction answers whose results come with one long write: the write is pending in its path, `brings` holds of
the results it will bring, and nothing else is left but the unit's own traces (R84, R111). -/
def LongLeaves (s : State) (v : View) (k : Course) (o : Host.Outcome State Fault Refusal) (i : Instr) (flags : FpFlags)
    (brings : List RegWrite → Prop) : Prop :=
  ∃ w k', PureLong w ∧ w.id = s.nextId ∧ LongBegun k k' v.u.slot w ∧ brings w.writes ∧
    o = .next (unitLeaves (idTaken s) v i flags k') ∧ SameMemory s (unitLeaves (idTaken s) v i flags k')

/-! ### Memory instructions -/

/-- The lanes that an instruction is performed in: the executing ones, or the one that stands for all of them where it is
uniform (R90). -/
def ranLanes (v : View) (uniform : Bool) : Lanes := maskOf (fun l => (v.lanes uniform).contains l)

/-- A word of the block's local store that an access may use: aligned, inside the allocation, without poison (R173, R174). -/
def LocalWordOk (b : Block) (addr : Nat) : Prop := addr % 4 = 0 ∧ addr + 4 ≤ b.alloc ∧ localPoisoned b addr 4 = false

/-- What an instruction answers whose path is demoted with an empty stack (R170, R174, R177, R243): its own long write has
completed, over the registers as its hints leave them (R61), the path stands at the next unit with nothing pending, and the
other slot is preferred. -/
def DemotedLeaves (t : State) (v : View) (o : Host.Outcome State Fault Refusal) (i : Instr) (m : Lanes)
    (ds : List (RegName × (Nat → Word))) : Prop :=
  ∃ k', o = .next (courseLeaves (idTaken t) v k') ∧
    getPath k' v.u.slot = some { nextPos v.p v.u.after with
      sig := (memberFolds v.u i).foldl foldSig v.p.sig, pending := [] } ∧
    getPath k' (1 - v.u.slot) = getPath v.k (1 - v.u.slot) ∧ k'.depth = 0 ∧ k'.live = v.k.live ∧
    k'.preferred = 1 - v.u.slot ∧ ∀ r l, l < 32 → readReg k' r l = readAfter (spendRegs v.k (v.u.spends ++ spends i)) m ds r l

/-- Where a load puts its element: the first register, how many, and their words and QI from the element's bytes (R160,
R165, R172). -/
def loadDest (v : View) (i : Instr) : Option (RegName × Nat × (List Byte → List Word × Bool)) :=
  match i with
  | .ldr d _ rs _ | .ldrp d _ rs _ =>
    let f := (readRecord v.k rs.val).fmt
    some (d, fmtRegs f, fmtLoad f)
  | .recld dst _ _ _ => some (.s ⟨8 * dst.val, by omega⟩, 8, fun bs => (bytesToWords bs, false))
  | _ => none

/-- The destinations of a load whose lane `l` receives the bytes `bs l`. -/
def loadWords (d : RegName) (n : Nat) (f : List Byte → List Word × Bool) (bs : Nat → List Byte) :
    List (RegName × (Nat → Word)) :=
  (List.range n).map (fun j => (regPlus d j, fun l => (f (bs l)).1.getD j 0))

/-- QI of a load whose lanes receive these bytes (R160, R251). -/
def loadFlags (f : List Byte → List Word × Bool) (lanes : List Nat) (bs : Nat → List Byte) : FpFlags :=
  flagIf (lanes.any (fun l => (f (bs l)).2)) flagQI

/-- Lane `l` of a record access is inside the record and aligned, and its core holds the line without poison (R162, R163,
R170): the bytes are those of the line. -/
def HitsL1 (s : State) (v : View) (x : RecordAccess) (l : Nat) (y : L1Line) : Prop :=
  let off := recordOff x.r (readReg v.k x.i.reg l) (readReg v.k x.j l)
  let va := recordVa x.r off
  x.viaL1 = true ∧ off + x.size ≤ x.r.extent ∧ va % x.align = 0 ∧ l1Find (getCore s v.b.core) v.b.asid va = some y ∧ y.poison = 0

/-- The address of lane `l` of a record access (R162). -/
def laneVa (v : View) (x : RecordAccess) (l : Nat) : Nat :=
  recordVa x.r (recordOff x.r (readReg v.k x.i.reg l) (readReg v.k x.j l))

/-- The bytes of an element in a line. -/
def lineBytes (y : L1Line) (va n : Nat) : List Byte := (y.data.drop (va % 128)).take n

/-- The line of an address as its home holds it (R23). -/
def heldLine (s : State) (asid : BitVec 16) (va : Nat) (h : Home) (loose : Bool) : L1Line :=
  ⟨asid, va / 128, homeLine h, loose, homeBytes s (homeLine h) 128, 0⟩

/-- The bytes `bs` stand at home `h` in `t`; every other byte of device and host memory is the one of `s`. -/
def StoredAt (s t : State) (h : Home) (bs : List Byte) : Prop :=
  match h with
  | .dev pa =>
    (∀ a, cget 0#8 t.dev a = if pa ≤ a ∧ a < pa + bs.length then bs.getD (a - pa) 0#8 else cget 0#8 s.dev a) ∧
      ∀ a, cget 0#8 t.hostMem a = cget 0#8 s.hostMem a
  | .host pa =>
    (∀ a, cget 0#8 t.hostMem a = if pa ≤ a ∧ a < pa + bs.length then bs.getD (a - pa) 0#8 else cget 0#8 s.hostMem a) ∧
      ∀ a, cget 0#8 t.dev a = cget 0#8 s.dev a
  | .fabric _ _ _ => (∀ a, cget 0#8 t.dev a = cget 0#8 s.dev a) ∧ ∀ a, cget 0#8 t.hostMem a = cget 0#8 s.hostMem a

end Sys2Proof.Machine
end

