-- ==== Sys2Proof/Safety/Events.lean ====
section
/-!
DEFINITION. The terms in which claims about queues, packets and contexts say what an event leaves.
-/

namespace Sys2Proof.Machine

/-- The halt of R32 and R394: the queue, or the submission list where `q` is 256, halts. QERR holds the cause, the queue and
the slot, or LOST where it held a halt before. One MSI-X message goes to ERRVEC. Launches, counters and memory stay. -/
def QueueHalts (s t : State) (p : BitVec 3) (asid : BitVec 16) (q slot cause : Nat) : Prop :=
  (∀ k, q < 256 → getQueue s p q = some k → getQueue t p q = some { k with halted := true }) ∧
  (∀ x, 256 ≤ q → getCtx s asid = some x → getCtx t asid = some { x with subHalted := true }) ∧
  t.out = s.out ++ [.msi p (bits (getPart s p).pvecIn.toNat 5 0)] ∧
  (getPart t p).qerr = (if (getPart s p).qerr.getLsbD 63 then (getPart s p).qerr ||| (1#64 <<< 62) else
    BitVec.ofNat 64 (2 ^ 63 + (getPart s p).qerr.toNat / 2 ^ 62 % 2 * 2 ^ 62 + cause * 2 ^ 48 + q % 256 * 2 ^ 40 +
      b2n (decide (256 ≤ q)) * 2 ^ 32 + slot % 2 ^ 32)) ∧
  t.jobs = s.jobs ∧ t.counters = s.counters ∧ SameMemory s t

/-- The fate of R32 for a packet that has been consumed: it never completes, its own counter is FREE with value 0, and its
queue halts. -/
def PacketRefused (s t : State) (id : Nat) (j : Job) (cause : Nat) : Prop :=
  ∃ r, getJob r id = some { j with failed := true } ∧ (∀ i, i ≠ id → getJob r i = getJob s i) ∧
    (∀ i, getCounter r i = if j.counter = some i then Counter.free else getCounter s i) ∧ r.queues = s.queues ∧
    r.contexts = s.contexts ∧ r.partitions = s.partitions ∧ r.out = s.out ∧ SameMemory s r ∧
    QueueHalts r t j.part j.asid j.queue j.idx cause

/-- A successor field names no counter, or one whose decrement raises no COUNTER (R40). -/
def Decrements (s : State) (j : Job) (i : Nat) : Prop :=
  i = 0xFFFFFFFF ∨ (let c := getCounter s (ctrBase (getPart s j.part) + i)
    (c.armed = true → c.value ≠ 0) ∧ (c.armed = false → -65535 < c.value))

/-- How many successor fields of a packet name the counter `i` of the device (R40). -/
def successors (s : State) (j : Job) (i : Nat) : Nat :=
  if pkType j.words = 1 ∨ pkType j.words = 2 then
    ([pw j.words 18, pw j.words 19].filter (fun n => n ≠ 0xFFFFFFFF && ctrBase (getPart s j.part) + n == i)).length
  else 0

/-- The successors of a launch or a copy are two counters, neither its own, and their decrement raises no COUNTER. -/
def SuccessorsCount (s : State) (j : Job) : Prop :=
  pkType j.words = 1 ∨ pkType j.words = 2 →
  Decrements s j (pw j.words 18) ∧ Decrements s j (pw j.words 19) ∧
  (pw j.words 18 = pw j.words 19 → pw j.words 18 = 0xFFFFFFFF) ∧
  ∀ n, n = pw j.words 18 ∨ n = pw j.words 19 → n ≠ 0xFFFFFFFF → j.counter ≠ some (ctrBase (getPart s j.part) + n)

/-- A packet completes (R17, R40, R41): it is gone, but for a launch with blocks still resident. Its own counter is FREE, its
successors count one less, and nothing of memory changes. -/
def PacketCompletes (s t : State) (id : Nat) (j : Job) : Prop :=
  getJob t id = (if jobHeld s id then some { j with completed := true } else none) ∧
  (∀ i, i ≠ id → getJob t i = getJob s i) ∧
  (∀ i, getCounter t i = (let c := if j.counter = some i then Counter.free else getCounter s i
    { c with value := c.value - successors s j i })) ∧
  t.dev = s.dev ∧ t.hostMem = s.hostMem ∧ t.blocks = s.blocks ∧ t.partitions = s.partitions ∧ t.contexts = s.contexts ∧
  t.out = s.out

/-! ### Contexts -/

/-- No path of a resident block of the context has a long write pending, has asked a remote device, or waits for a command that
it issued, accepted or not. -/
def QuietContext (s : State) (a : BitVec 16) : Prop :=
  ∀ b y c k p, getBlock s b = some y → y.asid = a → c < 32 → getCourse s b c = some k → k.path0 = some p ∨ k.path1 = some p →
    p.pending = [] ∧ p.remotes = [] ∧ (∀ id, p.park ≠ .continuation id) ∧ ∀ id full, p.park ≠ .acceptance id full

/-- A path as a save leaves it now (R377): stopped where it is parked at a park that a save stops, and also elsewhere, a rejoin
aside, where the save is forced or a halt has stopped its course. -/
def savedPath (force : Bool) (k : Course) (p : Path) : Path :=
  if stoppingPark p.park || ((force || k.stopped) && p.park != .rejoin) then { p with held := true } else p

/-- What stopping the paths of a context for a save leaves, of its blocks that no replay has removed. -/
def SaveStops (s t : State) (a : BitVec 16) (force : Bool) : Prop :=
  (∀ b y c, getBlock s b = some y → y.asid = a → y.replaying = false → c < 32 → getCourse t b c = (getCourse s b c).map (fun k =>
    { k with path0 := k.path0.map (savedPath force k), path1 := k.path1.map (savedPath force k) })) ∧
  t.commands = s.commands ∧ t.jobs = s.jobs ∧ t.queues = s.queues ∧ SameMemory s t

/-- The courses of the blocks of a context take the injected EXIT of R388; others stay. -/
def CoursesEnd (s t : State) (a : BitVec 16) : Prop :=
  ∀ b y c, getBlock s b = some y → c < 32 →
    getCourse t b c = (if y.asid = a then (getCourse s b c).map emptyCourse else getCourse s b c)

end Sys2Proof.Machine
end

