-- ==== Sys2Proof/Safety/Results.lean ====
section
/-!
DEFINITION. The results that the manual's tables give the instructions that only compute: their destination and its value in
each lane, read from the course before the group (R62, R99).
-/

namespace Sys2Proof.Machine

/-! ### INT (R101 to R109) -/

/-- Destination and value of an INT instruction that writes one register (R101 to R103, R105, R106). -/
def intResult (i : Instr) : Option (RegName × (Course → Nat → Word)) :=
  let two (d : RegName) (a b : Src) (f : Word → Word → Word) : Option (RegName × (Course → Nat → Word)) :=
    some (d, fun k l => f (readReg k a.reg l) (readReg k b.reg l))
  let three (d : RegName) (a b : Src) (f : Word → Word → Word → Word) : Option (RegName × (Course → Nat → Word)) :=
    some (d, fun k l => f (readReg k a.reg l) (readReg k b.reg l) (readReg k d l))
  let one (d : RegName) (a : Src) (f : Word → Word) : Option (RegName × (Course → Nat → Word)) :=
    some (d, fun k l => f (readReg k a.reg l))
  match i with
  | .iadd d a b => two d a b (fun a b => a + b)
  | .isub d a b => two d a b (fun a b => a - b)
  | .imul d a b => two d a b (fun a b => a * b)
  | .imulhs d a b => two d a b (fun a b => BitVec.ofInt 32 (a.toInt * b.toInt / 2 ^ 32))
  | .imulhu d a b => two d a b (fun a b => BitVec.ofNat 32 (a.toNat * b.toNat / 2 ^ 32))
  | .imad d a b => three d a b (fun a b d => a * b + d)
  | .iadds d a b => two d a b (fun a b => BitVec.ofInt 32 (max (-2 ^ 31) (min (2 ^ 31 - 1) (a.toInt + b.toInt))))
  | .isubs d a b => two d a b (fun a b => BitVec.ofInt 32 (max (-2 ^ 31) (min (2 ^ 31 - 1) (a.toInt - b.toInt))))
  | .imin d a b => two d a b (fun a b => if a.sle b then a else b)
  | .imax d a b => two d a b (fun a b => if a.sle b then b else a)
  | .umin d a b => two d a b (fun a b => if a ≤ b then a else b)
  | .umax d a b => two d a b (fun a b => if a ≤ b then b else a)
  | .iand d a b => two d a b (fun a b => a &&& b)
  | .ior d a b => two d a b (fun a b => a ||| b)
  | .ixor d a b => two d a b (fun a b => a ^^^ b)
  | .andn d a b => two d a b (fun a b => a &&& ~~~b)
  | .shl d a b => two d a b (fun a b => if b.toNat % 256 < 32 then a <<< (b.toNat % 256) else 0)
  | .shr d a b => two d a b (fun a b => if b.toNat % 256 < 32 then a >>> (b.toNat % 256) else 0)
  | .sar d a b => two d a b (fun a b =>
      if b.toNat % 256 < 32 then a.sshiftRight (b.toNat % 256) else if a.getLsbD 31 then 0xFFFFFFFF#32 else 0)
  | .rotl d a b => two d a b (fun a b => a.rotateLeft (b.toNat % 32))
  | .bfx d a b => two d a b bfExtract
  | .bfxs d a b => two d a b bfExtractS
  | .bfi d a b => three d a b bfInsert
  | .dp4s d a b => three d a b (dot4 true)
  | .dp4u d a b => three d a b (dot4 false)
  | .iaddi d a m => one d a (fun a => a + m)
  | .andi d a m => one d a (fun a => a &&& m)
  | .ori d a m => one d a (fun a => a ||| m)
  | .xori d a m => one d a (fun a => a ^^^ m)
  | .shli d a m => one d a (fun a => a <<< m.toNat)
  | .shri d a m => one d a (fun a => a >>> m.toNat)
  | .sari d a m => one d a (fun a => a.sshiftRight m.toNat)
  | .imuli d a m => one d a (fun a => a * m)
  | .movi d m => some (d, fun _ _ => m)
  | .lui d m => some (d, fun _ _ => m <<< 11)
  | .mov d a => one d a (fun a => a)
  | .inot d a => one d a (fun a => ~~~a)
  | .ineg d a => one d a (fun a => 0 - a)
  | .iabs d a => one d a (fun a => if a.toInt < 0 then 0 - a else a)
  | .popc d a => one d a popCount
  | .clz d a => one d a leadZeros
  | .ctz d a => one d a trailZeros
  | .brev d a => one d a bitReverse
  | .bswap d a => one d a byteSwap
  | .sext8 d a => one d a (fun a => (a.truncate 8).signExtend 32)
  | .sext16 d a => one d a (fun a => (a.truncate 16).signExtend 32)
  | .zext8 d a => one d a (fun a => (a.truncate 8).zeroExtend 32)
  | .zext16 d a => one d a (fun a => (a.truncate 16).zeroExtend 32)
  | _ => none

/-- Destination and value of an INT instruction that writes a pair (R104). -/
def pairResult (i : Instr) : Option (RegName × (Course → Nat → Double)) :=
  match i with
  | .iadd64 d a b => some (d, fun k l => readPair k a.reg l + readPair k b.reg l)
  | .isub64 d a b => some (d, fun k l => readPair k a.reg l - readPair k b.reg l)
  | .imulws d a b => some (d, fun k l => BitVec.ofInt 64 ((readReg k a.reg l).toInt * (readReg k b.reg l).toInt))
  | .imulwu d a b => some (d, fun k l => BitVec.ofNat 64 ((readReg k a.reg l).toNat * (readReg k b.reg l).toNat))
  | .shlw d a b => some (d, fun k l =>
      let n := (readReg k b.reg l).toNat % 256
      if n < 64 then readPair k a.reg l <<< n else 0)
  | .shrw d a b => some (d, fun k l =>
      let n := (readReg k b.reg l).toNat % 256
      if n < 64 then readPair k a.reg l >>> n else 0)
  | _ => none

/-- The relations of R107. -/
def relates {w : Nat} (cc : IntCC) (a b : BitVec w) : Bool :=
  match cc with
  | .eq => decide (a = b)
  | .ne => decide (a ≠ b)
  | .lt => decide (a.toInt < b.toInt)
  | .le => decide (a.toInt ≤ b.toInt)
  | .gt => decide (b.toInt < a.toInt)
  | .ge => decide (b.toInt ≤ a.toInt)
  | .ltu => decide (a.toNat < b.toNat)
  | .leu => decide (a.toNat ≤ b.toNat)
  | .gtu => decide (b.toNat < a.toNat)
  | .geu => decide (b.toNat ≤ a.toNat)

/-- Predicate and value of an instruction that only writes a predicate (R107, R109). -/
def predResult (i : Instr) : Option (PredName × (Course → Nat → Bool)) :=
  match i with
  | .icmp p cc a b => some (p, fun k l => relates cc (readReg k a.reg l) (readReg k b.reg l))
  | .icmpi p cc a m => some (p, fun k l => relates cc (readReg k a.reg l) m)
  | .icmp64 p cc a b => some (p, fun k l => relates cc (readPair k a.reg l) (readPair k b.reg l))
  | .plop p x y z lut => some (p, fun k l =>
      let n (q : PredName) : Nat := if hasLane (readPred k q) l then 1 else 0
      lut.getLsbD (4 * n x + 2 * n y + n z))
  | _ => none

/-! ### FP, FUN and CVT (R115 to R132) -/

/-- Destination, value and flags of a short FP instruction (R115 to R117, R119, R120, R122). -/
def fpResult (i : Instr) : Option (RegName × (Course → Nat → Word × FpFlags)) :=
  let two (d : RegName) (a b : Src) (f : Word → Word → Word × FpFlags) : Option (RegName × (Course → Nat → Word × FpFlags)) :=
    some (d, fun k l => f (readReg k a.reg l) (readReg k b.reg l))
  let three (d : RegName) (a b : Src) (f : Word → Word → Word → Word × FpFlags) :
      Option (RegName × (Course → Nat → Word × FpFlags)) :=
    some (d, fun k l => f (readReg k a.reg l) (readReg k b.reg l) (readReg k d l))
  match i with
  | .fadd d a b => two d a b (onWords2 (fAdd fp32Fmt))
  | .fsub d a b => two d a b (onWords2 (fSub fp32Fmt))
  | .fmul d a b => two d a b (onWords2 (fMul fp32Fmt))
  | .ffma d a b => three d a b (fun a b d => fp32Word (fFma fp32Fmt false a.toNat b.toNat d.toNat))
  | .fnfma d a b => three d a b (fun a b d => fp32Word (fFma fp32Fmt true a.toNat b.toNat d.toNat))
  | .fmin d a b => two d a b (onWords2 (fMinMax fp32Fmt false))
  | .fmax d a b => two d a b (onWords2 (fMinMax fp32Fmt true))
  | .faddi d a m => some (d, fun k l => onWords2 (fAdd fp32Fmt) (readReg k a.reg l) (m <<< 11))
  | .fmuli d a m => some (d, fun k l => onWords2 (fMul fp32Fmt) (readReg k a.reg l) (m <<< 11))
  | .hadd2 d a b => two d a b (packed2 (fAdd fp16Fmt))
  | .hmul2 d a b => two d a b (packed2 (fMul fp16Fmt))
  | .hfma2 d a b => three d a b (packed3 (fFma fp16Fmt false))
  | .badd2 d a b => two d a b (packed2 (fAdd bf16Fmt))
  | .bmul2 d a b => two d a b (packed2 (fMul bf16Fmt))
  | .bfma2 d a b => three d a b (packed3 (fFma bf16Fmt false))
  | .hmin2 d a b => two d a b (packed2 (fMinMax fp16Fmt false))
  | .hmax2 d a b => two d a b (packed2 (fMinMax fp16Fmt true))
  | .pkh d a b => two d a b (packFloats fp16Fmt)
  | .pkb d a b => two d a b (packFloats bf16Fmt)
  | .fabs d a => some (d, fun k l =>
      let x := readReg k a.reg l
      (if isNaN (unpack fp32Fmt x.toNat) then 0x7FC00000#32 else x &&& 0x7FFFFFFF#32, 0))
  | .fneg d a => some (d, fun k l =>
      let x := readReg k a.reg l
      (if isNaN (unpack fp32Fmt x.toNat) then 0x7FC00000#32 else x ^^^ 0x80000000#32, 0))
  | _ => none

/-- Predicate, value and flags of a floating compare (R117, R118). -/
def fcmpResult (i : Instr) : Option (PredName × (Course → Nat → Bool × FpFlags)) :=
  match i with
  | .fcmp p cc a b => some (p, fun k l => fCompare cc (readReg k a.reg l).toNat (readReg k b.reg l).toNat)
  | .fcmpi p cc a m => some (p, fun k l => fCompare cc (readReg k a.reg l).toNat (m <<< 11).toNat)
  | _ => none

/-- Destination, value and flags of an instruction of class FUN or CVT (R123 to R132). -/
def funResult (i : Instr) : Option (RegName × (Course → Nat → Word × FpFlags)) :=
  let one (d : RegName) (a : Src) (f : Word → Word × FpFlags) : Option (RegName × (Course → Nat → Word × FpFlags)) :=
    some (d, fun k l => f (readReg k a.reg l))
  match i with
  | .frcp d a => one d a fRcp
  | .frsq d a => one d a fRsq
  | .fsqrt d a => one d a fSqrt
  | .fexp2 d a => one d a fExp2
  | .flog2 d a => one d a fLog2
  | .fsinp d a => one d a fSinp
  | .fcosp d a => one d a fCosp
  | .ftanh d a => one d a fTanh
  | .frndn d a => one d a (fRound .rne)
  | .frndz d a => one d a (fRound .rz)
  | .frndp d a => one d a (fRound .rp)
  | .frndm d a => one d a (fRound .rm)
  | .fclass d a => one d a fClass
  | .fsat d a => one d a fSat
  | .ffrac d a => one d a fFrac
  | .cvt d a src dst rnd => one d a (convert src dst rnd)
  | _ => none

/-! ### XL and XFM (R183 to R192, R212) -/

/-- The lowest lane of the tile of lane `l` in tiles of `t` lanes (R51). -/
def tileFirst (t l : Nat) : Nat := l / t * t

/-- src(k) of R183. -/
def sourceLane (v : View) (a : Src) (k : Nat) : Word := if hasLane v.act k then readReg v.k a.reg k else 0

/-- Destination, value and flags of an instruction of class XL or of the transform pipe that writes registers (R187 to R192,
R212). The contributors are those of R183 and R184. -/
def xlResult (i : Instr) : Option (RegName × (View → Nat → Word) × (View → FpFlags)) :=
  match i with
  | .voteBallot d ps => some (d, fun v l => voteMask v ps (contribOf v d l), fun _ => 0)
  | .shfi d a b => some (d, fun v l =>
      sourceLane v a (tileFirst v.k.tilep l + (readReg v.k b.reg l).toNat % v.k.tilep), fun _ => 0)
  | .shfu d a b => some (d, fun v l =>
      let n := (readReg v.k b.reg l).toNat
      if l < tileFirst v.k.tilep l + n then readReg v.k a.reg l else sourceLane v a (l - n), fun _ => 0)
  | .shfd d a b => some (d, fun v l =>
      let n := (readReg v.k b.reg l).toNat
      if tileFirst v.k.tilep l + v.k.tilep ≤ l + n then readReg v.k a.reg l else sourceLane v a (l + n), fun _ => 0)
  | .shfx d a b => some (d, fun v l => sourceLane v a (l ^^^ ((readReg v.k b.reg l).toNat % v.k.tilep)), fun _ => 0)
  | .qsw d a op => some (d, fun v l => sourceLane v a (match op with
      | .h => l ^^^ 1
      | .v => l ^^^ 2
      | .d => l ^^^ 3
      | .b0 => l / 4 * 4
      | .b1 => l / 4 * 4 + 1
      | .b2 => l / 4 * 4 + 2
      | .b3 => l / 4 * 4 + 3), fun _ => 0)
  | .redx d a op =>
    let f (v : View) (l : Nat) : Word × FpFlags :=
      if isScalar d then reduce op ((courseContrib v).contains ·) (fun k => readReg v.k a.reg k) (List.range 32)
      else reduce op (hasLane v.contributors) (fun k => readReg v.k a.reg k) (tileLanes v.k.tilep l)
    some (d, fun v l => (f v l).1, fun v => laneFlags v (isScalar d) (fun l => (f v l).2))
  | .scan d a op =>
    let f (v : View) (l : Nat) : Word × FpFlags :=
      scanVals op (((tileContrib v l).filter (fun k => if op = .iaddx then decide (k < l) else decide (k ≤ l))).map
        (fun k => readReg v.k a.reg k))
    some (d, fun v l => (f v l).1, fun v => laneFlags v false (fun l => (f v l).2))
  | .matchLanes d a => some (d, fun v l =>
      (tileContrib v l).foldl (fun (m : Lanes) k => if readReg v.k a.reg k = readReg v.k a.reg l then m ||| bitLane k else m) 0,
      fun _ => 0)
  | .xfmCrc32c d a n => some (d, fun v l => crcStep (readReg v.k d l) (wordsToBytes (xfmWords v a n l)), fun _ => 0)
  | .xfmHash d a n => some (d, fun v l => hashMix (crcStep 0 (wordsToBytes (xfmWords v a n l))), fun _ => 0)
  | _ => none

/-- Predicate and value of a vote that writes a predicate (R187). -/
def voteResult (i : Instr) : Option (PredName × (View → Nat → Bool)) :=
  match i with
  | .voteAny p ps => some (p, fun v l => (tileContrib v l).any (hasLane (readPred v.k ps)))
  | .voteAll p ps => some (p, fun v l => (tileContrib v l).all (hasLane (readPred v.k ps)))
  | .voteUni p ps => some (p, fun v l =>
      (tileContrib v l).all (hasLane (readPred v.k ps)) || (tileContrib v l).all (fun x => !hasLane (readPred v.k ps) x))
  | _ => none

/-! ### Atomics and fences (R175 to R181) -/

/-- The word that an atomic leaves, from the word before it, D and the register after D; none where a CAS fails (R175). -/
def atomWord (op : AtomOp) (old x y : Word) : Option Word :=
  match op with
  | .add => some (old + x)
  | .sub => some (old - x)
  | .imin => some (if old.toInt ≤ x.toInt then old else x)
  | .imax => some (if x.toInt ≤ old.toInt then old else x)
  | .umin => some (if old.toNat ≤ x.toNat then old else x)
  | .umax => some (if x.toNat ≤ old.toNat then old else x)
  | .iand => some (old &&& x)
  | .ior => some (old ||| x)
  | .ixor => some (old ^^^ x)
  | .xch => some x
  | .cas => if old = x then some y else none
  | .fadd => some (BitVec.ofNat 32 (fAdd fp32Fmt old.toNat x.toNat).1)

/-- Atomics on the local store, one lane after another, each seeing the word the lane before left (R176): what each lane
reads, and the block after. A lane is given with its address and its two operands. -/
def atomSeq (op : AtomOp) : List (Nat × Nat × Word × Word) → Block → List (Nat × Word) × Block
  | [], b => ([], b)
  | (l, addr, x, y) :: t, b =>
    let old := localWord b addr
    let r := atomSeq op t (match atomWord op old x y with
      | some w => setLocalWord b addr w
      | none => b)
    ((l, old) :: r.1, r.2)

/-- The lines of a core that an acquire at a scope leaves (R179, R181): all below device scope; at device scope those homed
on its own die or not in device memory; at system scope those homed on its own die; a LOOSE line unless the fence is SEQ
(R289). -/
def staysAt (s : State) (m : Nat) (scope : Scope) (seq : Bool) (y : L1Line) : Bool :=
  (y.loose && !seq) ||
  match scope, y.home with
  | .course, _ | .block, _ | .die, _ => true
  | .device, .dev pa | .system, .dev pa => homeDie s pa == coreDie m
  | .device, _ => true
  | .system, _ => false

/-! ### Special registers (R64) -/

/-- Special registers by number with their samples in each lane (R64, R67). -/
def srSamples (s : State) (v : View) : List (Nat × (Nat → Word)) :=
  [(0x00, fun l => BitVec.ofNat 32 l), (0x01, fun l => BitVec.ofNat 32 (l % 4)), (0x02, fun _ => BitVec.ofNat 32 v.u.course),
    (0x03, fun _ => v.b.bx), (0x04, fun _ => v.b.byy), (0x05, fun _ => v.b.bz), (0x09, fun _ => v.act),
    (0x0A, fun _ => v.k.live), (0x0B, fun _ => v.k.dead), (0x0C, fun _ => v.k.helper),
    (0x0D, fun _ => BitVec.ofNat 32 v.k.tilep), (0x0E, fun _ => BitVec.ofNat 32 v.b.core),
    (0x0F, fun _ => BitVec.ofNat 32 (v.b.core / 64)), (0x11, fun _ => BitVec.ofNat 32 s.now), (0x12, fun _ => v.k.latch),
    (0x13, fun _ => v.k.fpflags.zeroExtend 32), (0x14, fun _ => v.p.sig), (0x16, fun _ => v.k.casualty),
    (0x17, fun _ => v.k.cashdl), (0x18, fun _ => if v.k.contain then 1 else 0), (0x19, fun _ => v.k.traphdl)]

end Sys2Proof.Machine
end

