-- ==== Sys2Proof/Certificates/Slice0/Obligations.lean ====
section
/-!
DEFINITION. What the model is claimed to do: the obligations, for the provers. The terms are those of Sys2Proof/Safety.lean
and of the files under Sys2Proof/Safety/.
-/

open Sys2Proof Sys2Proof.Machine

/-! ### Encoding and the step -/

/-- R87 to R94: the decoder gives back every well-formed instruction that the encoder writes, with every operand at every
value its encoding admits. -/
def Obligations.DecodingAnEncodedInstructionGivesItBack : Prop :=
  ∀ i : Instr, i.wf = true → decodeWord (encode i).1 (encode i).2 = .ok i

/-- R87, R93: words written out from the spec's encodings decode to the instructions they stand for: NOP; IADD v3, v1, v2 (the
word of R9's listing); MOVI v4, -1; BRA to the packet itself; RET; LDR v5, [s0; v6, sz]; CPY of the card at s8 on stream 3;
SRD v7, 0. -/
def Obligations.SpecWordsDecodeToTheirInstructions : Prop :=
  decodeWord 0x00000000#32 none = .ok .nop ∧
  decodeWord 0x020C0202#32 none = .ok (.iadd (.v 3) ⟨.v 1, .plain⟩ ⟨.v 2, .plain⟩) ∧
  decodeWord 0x4E1001FF#32 none = .ok (.movi (.v 4) 0xFFFFFFFF#32) ∧
  decodeWord 0xA5FFFFFF#32 none = .ok (.bra 0x1FFFFFF#25) ∧
  decodeWord 0xAC000000#32 none = .ok .ret ∧
  decodeWord 0xC0140C7F#32 none = .ok (.ldr (.v 5) ⟨.v 6, .plain⟩ 0 .sz) ∧
  decodeWord 0xE1A0C000#32 none = .ok (.cpy 1 3 false) ∧
  decodeWord 0xF61C0000#32 none = .ok (.srd (.v 7) 0)

/-- R76, R77, R92: a path that has fetched nothing and stands at a packet of its launch's code, mapped executable and clean,
fetches the four words that stand there, little-endian, where no store has touched them since the launch began; if they pass
the checks made at fetch it holds them, and, where the memory is in order, nothing else of the machine changes but the count
of free values. This is what PACKET_FETCH does when the path is the one that issues next. -/
def Obligations.AFetchReadsThePacketAtThePc : Prop :=
  ∀ (s : State) (blk c slot : Nat) (b : Block) (j : Job) (k : Course) (p : Path) (h : Home) (f : Leaf) (pk : PacketCode),
    getBlock s blk = some b → blockJob s blk = some j → getCourse s blk c = some k → getPath k slot = some p →
    p.delivery = none → p.fetched = [] → allGood s = true → jobCode j + 0x40 ≤ p.pc.toNat → p.pc.toNat < jobCode j + j.size →
    translate s b.asid p.pc.toNat = .mem h f → f.exec = true → homePoisoned s h 16 = false →
    j.code.getD ((p.pc.toNat - jobCode j) / 16) none = none →
    let w (i : Nat) : Word := BitVec.ofNat 32 (natOfBytes (((homeBytes s h 16).drop (4 * i)).take 4))
    decodePacket k.budget (w 0) (w 1) (w 2) (w 3) = .ok pk →
    let t := setCourse { s with fresh := s.fresh + 4 } blk c (setPath k slot (some { p with fetched := [w 0, w 1, w 2, w 3] }))
    fetchPath s blk c slot = t ∧
      ∀ n x u, nextIssue s = some (n, x, slot, u) → x.blk = blk → x.c = c → exec .packetFetch s = .next t

/-- R75, R76, R82, R83, R239, R386: with no input, no enabled event and a quarter's cycle to take, where the chosen path
stands at a slot of its fetched packet that chains to no other, the step is `exec` of the instruction decoded from that slot's
word, in the state in which the quarter has taken its cycle and the unit issues; its sources are those of its first issue
where it has waited in place, and its block has made progress unless the unit only waits or faults. -/
def Obligations.AStepRunsTheDecodedInstruction : Prop :=
  ∀ (s : State) (x : Nat) (r : Candidate × Nat × List Nat) (k : Course) (p : Path) (m w0 w1 w2 : Word) (pk : PacketCode)
    (c : SlotCode) (b : Block),
    rejoinPath s = none → s.agenda = [] → flushRecords s = none → dueEvent s = none → nextQuarter s = some x →
    cycleTaken (enterRound s x) x = false →
    chooseUnit (enterRound s x) (x / 4) (x % 4) (eligibleCourses (enterRound s x) (x / 4) (x % 4)) = some r →
    let t := issueState (enterRound s x) x (eligibleCourses (enterRound s x) (x / 4) (x % 4)) r
    getCourse t r.1.blk r.1.c = some k → getPath k r.2.1 = some p → p.fetched = [m, w0, w1, w2] →
    getBlock t r.1.blk = some b →
    decodePacket k.budget m w0 w1 w2 = .ok pk → pk.slots[p.slot]? = some c → c.chain = false →
    let u := unitStart pk p (latchedCourse k p) r.1.blk r.1.c r.2.1
    step s = exec c.instr { (if unitHeld t u [(p.slot, c)] then t else progress t r.1.blk) with
      issue := some (atMember u (p.slot, c) true) } ∧
    ([w0, w1, w2][p.slot]?).map (fun w => decodeWord w (slotExt m p.slot)) = some (.ok c.instr) ∧ c.instr.wf = true

/-- From every state a step answers a next state: no state stops the machine. -/
def Obligations.EveryStepAnswersANextState : Prop := ∀ s : State, ∃ t, step s = .next t

/-- Every step keeps device memory, host memory, their poison marks, every block's local store and its marks, and what a
block left on its core in their canonical form: keys rise strictly, and no entry equals what an unlisted one reads as. -/
def Obligations.EveryStepKeepsMemoryCanonical : Prop := ∀ s t : State, s.memWf = true → step s = .next t → t.memWf = true

/-- The memories of the reset state have that form. -/
def Obligations.ResetMemoryIsCanonical : Prop := State.reset.memWf = true

/-- R344, R313, R392, R402: the reset state shows the values that the register tables give: BOOTSTAT in PHASE 0; MEMCTL with
SCRUBMIN 480, REBUILD 26, RTMIN 10, RTDEG 10 and CETHR 8; every partition off, with PWGT 1, 1, 1, PTIME of WDOG 2000, PREDL
50 and TSLICE 0, SENSCTL of CEIL 84, FLOOR 0 and THRESH 0x599A, and zero in its other registers; no work of any kind. -/
def Obligations.ResetShowsTheValuesOfTheRegisterTables : Prop :=
  let s := State.reset
  s.phase = 0 ∧ s.powered = true ∧ bits s.memctl.toNat 63 48 = 480 ∧ bits s.memctl.toNat 47 40 = 26 ∧
  bits s.memctl.toNat 39 32 = 10 ∧ bits s.memctl.toNat 31 24 = 10 ∧ bits s.memctl.toNat 23 16 = 8 ∧
  bits s.memctl.toNat 15 0 = 0 ∧
  (∀ p : BitVec 3, let x := getPart s p
    x.pctl = 0 ∧ x.pres = 0 ∧ x.pmem = 0 ∧ bits x.pwgt.toNat 63 24 = 0 ∧ bits x.pwgt.toNat 23 16 = 1 ∧
    bits x.pwgt.toNat 15 8 = 1 ∧ bits x.pwgt.toNat 7 0 = 1 ∧ bits x.ptime.toNat 51 36 = 2000 ∧
    bits x.ptime.toNat 35 20 = 50 ∧ bits x.ptime.toNat 19 0 = 0 ∧ x.pvec = 0 ∧ x.err = false ∧ x.pstate = 0 ∧
    x.fwsel = 0 ∧ x.sensctl = 0x5400599A#64) ∧
  s.courses = [] ∧ s.blocks = [] ∧ s.commands = [] ∧ s.contexts = [] ∧ s.queues = [] ∧ s.jobs = []

/-! ### Instructions that only compute -/

/-- R101, R102, R103, R105, R106, with R55, R56, R59 and R99: an INT instruction that writes one register, with no long write
pending on what it names, leaves in D the value of its entry, computed from the course before its group, in the lanes it
executes in (a scalar D also where no lane is active); nothing else of the registers and predicates changes, and no byte of
memory. -/
def Obligations.IntInstructionsWriteTheirResult : Prop :=
  ∀ (s : State) (v : View) (k : Course) (i : Instr) (d : RegName) (f : Course → Nat → Word),
    Issuing s v k → NoHazard v i → intResult i = some (d, f) →
    ∃ k', Written k k' (v.dest d) [(d, f v.k)] ∧ exec i s = .next (unitLeaves s v i 0 k') ∧
      SameMemory s (unitLeaves s v i 0 k')

/-- R104, R57: the INT instructions on pairs leave the low word in D and the high word in the register after it. -/
def Obligations.PairInstructionsWriteBothWords : Prop :=
  ∀ (s : State) (v : View) (k : Course) (i : Instr) (d : RegName) (f : Course → Nat → Double),
    Issuing s v k → NoHazard v i → pairResult i = some (d, f) →
    ∃ k', Written k k' (v.dest d) [(d, fun l => lowWord (f v.k l)), (regPlus d 1, fun l => highWord (f v.k l))] ∧
      exec i s = .next (unitLeaves s v i 0 k') ∧ SameMemory s (unitLeaves s v i 0 k')

/-- R107, R109, with R58 and R59: ICMP, ICMPI, ICMP64 and PLOP leave their value in PD, and nothing elsewhere. -/
def Obligations.ComparesAndPlopWriteTheirPredicate : Prop :=
  ∀ (s : State) (v : View) (k : Course) (i : Instr) (p : PredName) (f : Course → Nat → Bool),
    Issuing s v k → NoHazard v i → predResult i = some (p, f) →
    ∃ k', PredWritten k k' v.exe p (f v.k) ∧ exec i s = .next (unitLeaves s v i 0 k') ∧
      SameMemory s (unitLeaves s v i 0 k')

/-- R115, R116, R117, R119, R120, R122, with R111: a short FP instruction leaves the value of its entry in D, and the flags
of its executing lanes are ORed into SR_FPFLAGS. -/
def Obligations.FpInstructionsWriteTheirResultAndFlags : Prop :=
  ∀ (s : State) (v : View) (k : Course) (i : Instr) (d : RegName) (f : Course → Nat → Word × FpFlags),
    Issuing s v k → NoHazard v i → fpResult i = some (d, f) →
    let fl := laneFlags v (isScalar d) (fun l => (f v.k l).2)
    ∃ k', Written k k' (v.dest d) [(d, fun l => (f v.k l).1)] ∧ exec i s = .next (unitLeaves s v i fl k') ∧
      SameMemory s (unitLeaves s v i fl k')

/-- R118, R111: FCMP and FCMPI leave their value in PD and their flags in SR_FPFLAGS. -/
def Obligations.FloatComparesWriteTheirPredicateAndFlags : Prop :=
  ∀ (s : State) (v : View) (k : Course) (i : Instr) (p : PredName) (f : Course → Nat → Bool × FpFlags),
    Issuing s v k → NoHazard v i → fcmpResult i = some (p, f) →
    let fl := laneFlags v false (fun l => (f v.k l).2)
    ∃ k', PredWritten k k' v.exe p (fun l => (f v.k l).1) ∧ exec i s = .next (unitLeaves s v i fl k') ∧
      SameMemory s (unitLeaves s v i fl k')

/-- R123 to R132, with R84 and R111: an instruction of class FUN or CVT leaves a long write of its value to D pending in its
path, and its flags in SR_FPFLAGS. -/
def Obligations.FunctionsAndConversionsBeginALongWrite : Prop :=
  ∀ (s : State) (v : View) (k : Course) (i : Instr) (d : RegName) (f : Course → Nat → Word × FpFlags),
    Issuing s v k → NoHazard v i → funResult i = some (d, f) →
    LongLeaves s v k (exec i s) i (laneFlags v (isScalar d) (fun l => (f v.k l).2))
      (fun w => ∀ k0, Written k0 (applyWrites k0 w) (v.dest d) [(d, fun l => (f v.k l).1)])

/-- R183, R184, R187 to R192, R212: ballots, shuffles, quad swaps, reductions, scans, MATCH, XFM.crc32c and XFM.hash leave a
long write of their value to D pending. -/
def Obligations.CrossLaneInstructionsBeginALongWrite : Prop :=
  ∀ (s : State) (v : View) (k : Course) (i : Instr) (d : RegName) (f : View → Nat → Word) (g : View → FpFlags),
    Issuing s v k → NoHazard v i → xlResult i = some (d, f, g) →
    LongLeaves s v k (exec i s) i (g v) (fun w => ∀ k0, Written k0 (applyWrites k0 w) (v.dest d) [(d, f v)])

/-- R187, R212: XFM.sort leaves a long write of its sorted words, ascending from D, pending; VOTE.any, VOTE.all and VOTE.uni
leave a long write of their value to PD pending. -/
def Obligations.SortsAndVotesBeginALongWrite : Prop :=
  (∀ (s : State) (v : View) (k : Course) (d : RegName) (a : Src) (n : BitVec 3), Issuing s v k → NoHazard v (.xfmSort d a n) →
    LongLeaves s v k (exec (.xfmSort d a n) s) (.xfmSort d a n) 0 (fun w => ∀ k0, Written k0 (applyWrites k0 w) (v.dest d)
      ((List.range (n.toNat + 1)).map (fun j => (regPlus d j, fun l => (sortWords (xfmWords v a n l)).getD j 0#32))))) ∧
  (∀ (s : State) (v : View) (k : Course) (i : Instr) (p : PredName) (f : View → Nat → Bool),
    Issuing s v k → NoHazard v i → voteResult i = some (p, f) →
    LongLeaves s v k (exec i s) i 0 (fun w => ∀ k0, PredWritten k0 (applyWrites k0 w) v.exe p (f v)))

/-- R95, R108, R186: SEL writes every active lane of a vector D, a where the guard is true and b elsewhere; a scalar D is written
as any other instruction's. NOP changes nothing of its own; TILEP sets the tile width under guard "always" and changes nothing
under "never". Neither touches a byte of memory. -/
def Obligations.SelNopAndTilep : Prop :=
  ∀ (s : State) (v : View) (k : Course), Issuing s v k →
    (∀ d a b, NoHazard v (.sel d a b) →
      ∃ k', Written k k' (if isScalar d then v.dest d else v.act)
          [(d, fun l => if isScalar d || hasLane v.exe l then readReg v.k a.reg l else readReg v.k b.reg l)] ∧
        exec (.sel d a b) s = .next (unitLeaves s v (.sel d a b) 0 k') ∧ SameMemory s (unitLeaves s v (.sel d a b) 0 k')) ∧
    (NoHazard v .nop → exec .nop s = .next (unitPasses s v .nop k) ∧ SameMemory s (unitPasses s v .nop k)) ∧
    (∀ n, NoHazard v (.tilep n) →
      (v.never = true → exec (.tilep n) s = .next (unitPasses s v (.tilep n) k)) ∧
      (v.never = false → exec (.tilep n) s = .next (unitLeaves s v (.tilep n) 0 { k with tilep := n.toNat })))
/-! ### Flow -/

/-- R139, R140, R141, R143, R145, R155: with no executing lane BRA (where it appends no branch record), BRX, CALL, CALLX,
RET, EXIT and TRAP go on at the next packet. -/
def Obligations.UntakenFlowInstructionsGoOn : Prop :=
  ∀ (s : State) (v : View), IssuingAlone s v → v.exe = 0 →
    let goesOn (i : Instr) : Prop := Unstopped s v i →
      exec i s = .next (pathLeaves s v i v.k (fun p => nextPos p 3)) ∧
        SameMemory s (pathLeaves s v i v.k (fun p => nextPos p 3))
    (∀ off, braRecords v = false → goesOn (.bra off)) ∧ (∀ a, goesOn (.brx a)) ∧ (∀ off, goesOn (.call off)) ∧
      (∀ a, goesOn (.callx a)) ∧ goesOn .ret ∧ goesOn .exit ∧ ∀ code, goesOn (.trap code)

/-- R137, R139, R140: BRA (outside RECORD mode, or with guard "always") and BRX with executing lanes. Where every active lane
is taken the path goes to the target with its signature 0. Where the lanes divide and the other slot is empty, the taken
part stays in the path's slot, and the other slot takes a path at the next packet with the fall-through mask, the path's
signature, region and pending set. Nothing else of the two paths, the lanes or the stack changes, and no byte of memory. -/
def Obligations.ATakenBranchMovesItsLanes : Prop :=
  ∀ (s : State) (v : View) (i : Instr) (t : Double), IssuingAlone s v → Unstopped s v i → v.exe ≠ 0 →
    ((∃ off, i = .bra off ∧ braRecords v = false) ∨ ∃ a, i = .brx a) → targetOf s v i = some t →
    (v.act &&& ~~~v.exe = 0 → exec i s = .next (pathLeaves s v i v.k (fun p => jumpTo p t)) ∧
      SameMemory s (pathLeaves s v i v.k (fun p => jumpTo p t))) ∧
    (v.act &&& ~~~v.exe ≠ 0 → getPath v.k (1 - v.u.slot) = none →
      ∃ k', exec i s = .next (courseLeaves s v k') ∧ SameMemory s (courseLeaves s v k') ∧
        getPath k' v.u.slot = some { jumpTo v.p t with mask := v.exe, region := v.p.region } ∧
        getPath k' (1 - v.u.slot) = some (newPath (v.p.pc + 16) 0 (v.act &&& ~~~v.exe)
          v.p.sig v.p.region v.p.pending) ∧
        k'.live = v.k.live ∧ k'.depth = v.k.depth ∧ k'.stackSlot = v.k.stackSlot ∧ k'.longs = v.k.longs ∧
        ∀ r l, readReg k' r l = readReg (flowCourse v i v.k) r l)

/-- R137: where the lanes of BRA or BRX divide with both slots full and nothing pending in the path, the fall-through part
is pushed as a path entry at the next packet, and the taken part stays in its slot. -/
def Obligations.ADivergentBranchWithBothSlotsFullPushes : Prop :=
  ∀ (s : State) (v : View) (i : Instr) (t : Double) (x : Context), IssuingAlone s v → Unstopped s v i → v.exe ≠ 0 →
    ((∃ off, i = .bra off ∧ braRecords v = false) ∨ ∃ a, i = .brx a) → targetOf s v i = some t →
    v.act &&& ~~~v.exe ≠ 0 → (getPath v.k (1 - v.u.slot)).isSome = true → v.p.pending = [] →
    blockCtx s v.u.blk = some x → v.k.tape.mode = .idle →
    ∃ k', exec i s = .next (setCourse (pushLeaves s v x (flowCourse v i v.k)
        ⟨v.p.sig, v.act &&& ~~~v.exe, v.p.region, 0, (v.p.pc + 16).toNat, 0, 0, false⟩) v.u.blk v.u.course k') ∧
      getPath k' v.u.slot = some { jumpTo v.p t with mask := v.exe, region := v.p.region } ∧
      getPath k' (1 - v.u.slot) = getPath v.k (1 - v.u.slot) ∧ k'.depth = v.k.depth + 1 ∧ k'.live = v.k.live

/-- R141, R142: CALL and CALLX with every active lane taken push a call frame of those lanes whose ADDR is the next packet,
and the path goes to the target with signature 0, in the frame's region; RCV pushes a reconvergence entry of the path's
lanes whose ADDR is its target, and the path goes on at the next packet in that region. -/
def Obligations.CallsAndRcvPushTheirRegion : Prop :=
  ∀ (s : State) (v : View) (x : Context), IssuingAlone s v → blockCtx s v.u.blk = some x →
    (∀ (i : Instr) (t : Double), Unstopped s v i → v.exe ≠ 0 → v.act &&& ~~~v.exe = 0 →
      ((∃ off, i = .call off) ∨ ∃ a, i = .callx a) → targetOf s v i = some t →
      ∃ k', exec i s = .next (setCourse (pushLeaves s v x (flowCourse v i v.k)
          ⟨0, v.exe, v.p.region, 2, v.p.pc.toNat + 16, 0, 0, false⟩) v.u.blk v.u.course k') ∧
        getPath k' v.u.slot = some { jumpTo v.p t with region := some v.k.depth } ∧
        getPath k' (1 - v.u.slot) = getPath v.k (1 - v.u.slot) ∧ k'.depth = v.k.depth + 1 ∧ k'.live = v.k.live) ∧
    (∀ off, Unstopped s v (.rcv off) →
      ∃ k', exec (.rcv off) s = .next (setCourse (pushLeaves s v x (flowCourse v (.rcv off) v.k)
          ⟨0, v.act, v.p.region, 1, (v.p.pc + 16 + 16 * off.signExtend 64).toNat, 0, 0, false⟩) v.u.blk v.u.course k') ∧
        getPath k' v.u.slot = some { nextPos v.p 3 with region := some v.k.depth } ∧
        getPath k' (1 - v.u.slot) = getPath v.k (1 - v.u.slot) ∧ k'.depth = v.k.depth + 1 ∧ k'.live = v.k.live)

/-- R143, R367: JOIN, or RET with every active lane taken, whose arrival completes a region on top of the stack that can be
read and written: the entry is written with its ARRIVED lanes, the path's slot takes the merged path, and the entry is popped.
Stated for a path with nothing pending, where the other slot holds a path or nothing stays on the stack; `r` is the machine
once the entry has been read. -/
def Obligations.AnArrivalThatCompletesItsRegionMerges : Prop :=
  ∀ (s : State) (v : View) (i : Instr) (x : Context) (n : Nat) (e : Entry),
    let r := touchEntry (courseLeaves s v (flowCourse v i v.k)) x v.k.stackSlot n
    IssuingAlone s v → Unstopped s v i →
    (i = .join ∧ e.kind = 1 ∨ i = .ret ∧ e.kind = 2 ∧ v.exe = v.act) → v.act ≠ 0 → v.p.pending = [] →
    v.p.mask &&& ~~~v.act = 0 → blockCtx s v.u.blk = some x → getCtx s v.b.asid = some x → v.p.region = some n →
    v.k.depth = n + 1 → readEntry r x v.k.stackSlot n = some (e, false) → entryWritable r x v.k.stackSlot n = true →
    (e.word3 ||| v.act) = e.mask &&& v.k.live → e.mask &&& v.k.live ≠ 0 →
    ((getPath v.k (1 - v.u.slot)).isSome = true ∨ n = 0) →
    let e' := { e with word3 := e.word3 ||| v.act }
    ∃ k', exec i s = .next (setCourse (writeEntry r x v.k.stackSlot n e') v.u.blk v.u.course k') ∧
      getPath k' v.u.slot = some (mergedPath e' v.k.live) ∧
      getPath k' (1 - v.u.slot) = getPath v.k (1 - v.u.slot) ∧ k'.depth = n ∧ k'.live = v.k.live


/-- R144, R145, R225: EXIT with executing lanes. Where no live lane is left, the course has exited: its paths and its stack
go, and a block none of whose courses is left is done, unless it is done already or removed for a replay. Where lanes are left
and the stack is empty, the exiting lanes leave live(c) and both slots, a slot left without a lane becomes empty, and the rest
goes on at the next packet. Registers stay, and no byte of memory changes. -/
def Obligations.ExitTakesItsLanesOut : Prop :=
  ∀ (s : State) (v : View) (x : Context), IssuingAlone s v → Unstopped s v .exit → v.exe ≠ 0 → blockCtx s v.u.blk = some x →
    let k1 := flowCourse v .exit v.k
    let k2 := setPath k1 v.u.slot ((getPath k1 v.u.slot).map (fun p => nextPos p 3))
    (v.k.live &&& ~~~v.exe = 0 → v.k.team = none → let t := courseLeaves s v (emptyCourse k1)
      ((v.b.done = true ∨ v.b.replaying = true ∨ ∃ c k, c < v.b.courses ∧ c ≠ v.u.course ∧ getCourse s v.u.blk c = some k ∧
        k.live ≠ 0) → exec .exit s = .next t ∧ SameMemory s t) ∧
      ∀ j, v.b.done = false → v.b.replaying = false → getJob s v.b.job = some j →
        (∀ c k, c < v.b.courses → c ≠ v.u.course → getCourse s v.u.blk c = some k → k.live = 0) →
        exec .exit s = .next (setJob (setBlock t v.u.blk { v.b with done := true }) v.b.job
          { j with doneBlocks := j.doneBlocks + 1 })) ∧
    (v.k.live &&& ~~~v.exe ≠ 0 → v.k.depth = 0 →
      let k' := { k2 with live := v.k.live &&& ~~~v.exe, path0 := leavePath v.exe k2.path0, path1 := leavePath v.exe k2.path1 }
      exec .exit s = .next (courseLeaves s v k') ∧ SameMemory s (courseLeaves s v k'))

/-- R146, R243, R154: YIELD with an empty stack, or under the tape, goes on at the next packet; with one sibling path on top
of the stack that can be read and written, the two change places, each at its own position (`r` is the
machine once the entry has been read). PROOF sets a signature equal to
its code to 0 and goes on. The other slot is preferred after each of them (R242). -/
def Obligations.YieldAndProof : Prop :=
  ∀ (s : State) (v : View) (x : Context), IssuingAlone s v → blockCtx s v.u.blk = some x →
    (Unstopped s v .yield → v.p.pending = [] → v.k.depth = 0 ∨ v.k.tape.mode ≠ .idle →
      exec .yield s = .next (pathLeaves s v .yield v.k (fun p => nextPos p 3))) ∧
    (∀ q, let r := touchEntry (pathLeaves s v .yield v.k (fun p => nextPos p 3)) x v.k.stackSlot 0
      Unstopped s v .yield → v.p.pending = [] → v.p.mask ≠ 0 → v.k.depth = 1 → v.k.tape.mode = .idle →
      readEntry r x v.k.stackSlot 0 = some (q, false) → q.kind = 0 → q.link = v.p.region →
      entryWritable r x v.k.stackSlot 0 = true →
      ∃ k', exec .yield s = .next (setCourse (writeEntry r x v.k.stackSlot 0 (pathEntry (nextPos v.p 3)))
          v.u.blk v.u.course k') ∧
        getPath k' v.u.slot = some (newPath (BitVec.ofNat 64 q.addr) q.slot q.mask q.word3 q.link []) ∧
        getPath k' (1 - v.u.slot) = getPath v.k (1 - v.u.slot) ∧ k'.depth = 1 ∧ k'.live = v.k.live ∧
        k'.preferred = 1 - v.u.slot) ∧
    (∀ code, NoHazard v (.proof code) →
      (v.p.sig.truncate 21 = code → exec (.proof code) s
        = .next (pathLeaves s v (.proof code) v.k (fun p => { nextPos p 3 with sig := 0 }))) ∧
      (v.p.sig.truncate 21 ≠ code → exec (.proof code) s = .next (faultUnit s v.u (.proof code)
        ⟨0x0C, 1, v.act, 0, v.p.sig.toNat, false⟩)))

/-- R148, R150, R151, R152: BAR in the course's only path arrives at its barrier and parks, at the packet after it; in any
other path it takes PROOF. PHARR at an aligned word of the allocation without poison makes one arrival on it, and a long
write brings the target phase. PHWAIT goes on where the phase is its target, and parks otherwise. -/
def Obligations.BarriersAndPhaseWords : Prop :=
  ∀ (s : State) (v : View), IssuingAlone s v →
    (∀ id, NoHazard v (.bar id) →
      let arrived := cget 0#32 v.b.barriers id.toNat ||| bitLane v.u.course
      (v.act = v.k.live → exec (.bar id) s
        = .next (setBlock (pathLeaves s v (.bar id) v.k (fun p => { nextPos p 3 with park := .barrier id.toNat })) v.u.blk
            { v.b with barriers := cset 0#32 v.b.barriers id.toNat arrived })) ∧
      (v.act ≠ v.k.live → exec (.bar id) s = .next (faultUnit s v.u (.bar id) ⟨0x0C, 4, v.act, 0, v.p.sig.toNat, false⟩))) ∧
    ∀ (d : RegName) (a : Src) (imm : Word),
      let addr := (readReg v.k a.reg 0 + imm).toNat
      let w := localWord v.b addr
      addr % 4 = 0 → addr + 4 ≤ v.b.alloc → localPoisoned v.b addr 4 = false →
      (NoHazard v (.pharr d a imm) → ∃ y k' w', PureLong y ∧ y.id = s.nextId ∧ LongBegun v.k k' v.u.slot y ∧
        (∀ k0, Written k0 (applyWrites k0 y.writes) (v.dest d) [(d, fun _ => if w.getLsbD 31 then 0#32 else 1#32)]) ∧
        exec (.pharr d a imm) s = .next (pathLeaves (idTaken (setBlock s v.u.blk (setLocalWord v.b addr w'))) v
          (.pharr d a imm) k' (fun p => nextPos p 3)) ∧
        bits w'.toNat 15 0 = bits w.toNat 15 0 ∧
        (let n := bits w.toNat 30 16 + 1
         let flips := bits w.toNat 15 0 ≤ n
         (w'.getLsbD 31 = if flips then !w.getLsbD 31 else w.getLsbD 31) ∧
           bits w'.toNat 30 16 = if flips ∨ n = 32768 then 0 else n)) ∧
      (NoHazard v (.phwait d a imm) →
        (w.getLsbD 31 = (readReg v.k d 0).getLsbD 0 →
          exec (.phwait d a imm) s = .next (pathLeaves s v (.phwait d a imm) v.k (fun p => nextPos p 3))) ∧
        (w.getLsbD 31 ≠ (readReg v.k d 0).getLsbD 0 →
          exec (.phwait d a imm) s = .next (pathLeaves s v (.phwait d a imm) v.k
            (fun p => { p with park := .phase (BitVec.ofNat 32 addr) ((readReg v.k d 0).getLsbD 0) }))))

/-- R86, R92: an instruction that is an issue unit of its own and names a register or a predicate with a long write pending
in its path takes HAZARD, at its own position, and has no effect. Stated for every instruction but the two engine
instructions of a team, whose members other than rank 0 name none. -/
def Obligations.HazardStopsTheInstruction : Prop :=
  ∀ (s : State) (v : View) (i : Instr), viewOf s = some v → lone v.u = true → pendingAny v (namedRes v i) = true →
    v.p.waited = [] → pipeClass i ≠ .event → (∀ c t k, i ≠ .mma c t k ∧ i ≠ .mml c t k) →
    exec i s = .next (faultUnit s v.u i ⟨0x03, 0, v.act, 0, 0, false⟩)

/-- R155, R365, R366: TRAP with executing lanes takes USER. With a handler set, nothing pending in the path and its course not
halted, the record is written, a call frame that returns to the next packet is pushed, s30 and s29 take the cause and the
code, and the path goes on at the handler with signature 0 in the frame's region. -/
def Obligations.TrapDeliversUserToItsHandler : Prop :=
  ∀ (s : State) (v : View) (x : Context) (code : BitVec 21), IssuingAlone s v → NoHazard v (.trap code) → v.exe ≠ 0 →
    blockCtx s v.u.blk = some x → ringWritable (courseLeaves s v v.k) x = true → v.p.pending = [] → v.p.remotes = [] → v.p.latched = none →
    (v.k.stopped = false ∨ v.k.allowance ≠ 0) → v.k.traphdl.toNat / 16 ≠ 0 →
    let s1 := courseRecord (courseLeaves s v v.k) v.u.blk v.u.course v.u.slot ⟨0x15, 0, v.exe, 0, code.toNat, false⟩
      (pathPos s v.u.blk v.p) false
    pushCheck s1 v.u.blk v.k 1 = none →
    let frame : Entry := ⟨0, v.p.mask, v.p.region, 2, (v.p.pc + 16).toNat, v.p.sig, 0, true⟩
    ∃ k', exec (.trap code) s = .next (setCourse (writeEntry (setCourse s1 v.u.blk v.u.course { v.k with depth := v.k.depth + 1 })
        x v.k.stackSlot v.k.depth frame) v.u.blk v.u.course k') ∧
      k'.depth = v.k.depth + 1 ∧ k'.live = v.k.live ∧ getPath k' (1 - v.u.slot) = getPath v.k (1 - v.u.slot) ∧
      (∃ p, getPath k' v.u.slot = some p ∧ p.mask = v.p.mask ∧ p.sig = 0 ∧ p.region = some v.k.depth ∧ p.pending = [] ∧
        p.slot = 0 ∧ p.pc = BitVec.ofNat 64 (blockCode s v.u.blk + v.k.traphdl.toNat / 16 * 16) ∧ p.park = .running) ∧
      (∀ p, readPred k' p = readPred v.k p) ∧
      ∀ r l, readReg k' r l = if r = .s 30 then 0x15#32 else if r = .s 29 then code.zeroExtend 32 else readReg v.k r l

/-! ### Memory instructions -/

/-- R163, R165, R172, R160: LDR and RECLD, in every lane inside the record, aligned, and with its line in the core's L1
without poison: the elements' words are pending as a long write of their destinations, and memory and the L1 stay. -/
def Obligations.LoadsFromL1BringTheirElements : Prop :=
  ∀ (s : State) (v : View) (k : Course) (i : Instr) (x : RecordAccess) (d : RegName) (n : Nat)
    (f : List Byte → List Word × Bool) (y : Nat → L1Line),
    Issuing s v k → Unstopped s v i → ((∃ d a rs j, i = .ldr d a rs j) ∨ ∃ d a rs j, i = .recld d a rs j) →
    recordAccess v i = some x → loadDest v i = some (d, n, f) → heldFor v = none → (∀ l ∈ x.lanes, HitsL1 s v x l (y l)) →
    let bs (l : Nat) : List Byte := lineBytes (y l) (laneVa v x l) x.size
    LongLeaves s v k (exec i s) i (loadFlags f x.lanes bs)
      (fun w => ∀ k0, Written k0 (applyWrites k0 w) (ranLanes v x.uniform) (loadWords d n f bs))

/-- R23, R161, R165, R172: LDR and RECLD performed in one lane whose line the core does not hold, through a page that is neither
STRONG nor uncached and a record that lets the L1 hold the line, where no store of the core is pending and no sector of the line
is lost or poisoned: the core's L1 gains the line, no byte of memory changes, and the element's words are pending. Through an
uncached page, or with a record that keeps the line out of the L1 (R161), the element comes from its home and the L1 stays. -/
def Obligations.LoadsThatMissFillTheirLine : Prop :=
  ∀ (s : State) (v : View) (k : Course) (i : Instr) (x : RecordAccess) (d : RegName) (n l va : Nat)
    (f : List Byte → List Word × Bool) (h : Home) (p : Leaf),
    Issuing s v k → Unstopped s v i → ((∃ d a rs j, i = .ldr d a rs j) ∨ ∃ d a rs j, i = .recld d a rs j) →
    recordAccess v i = some x → loadDest v i = some (d, n, f) → heldFor v = none → x.lanes = [l] → accessReach s v x = [(l, .mem va h p)] →
    p.order ≠ 1 → allGood s = true → (getCore s v.b.core).stores = [] →
    (p.cache ≠ 2 → x.r.cache < 2 → l1Find (getCore s v.b.core) v.b.asid va = none → linePoison s (homeLine h) = 0 →
      let y := heldLine s v.b.asid va h (p.order = 2)
      ∃ t, OnlyMemory s t ∧ SameMemory s t ∧ l1Find (getCore t v.b.core) v.b.asid va = some y ∧
        LongLeaves t v k (exec i s) i (loadFlags f [l] (fun _ => lineBytes y va x.size))
          (fun w => ∀ k0, Written k0 (applyWrites k0 w) (ranLanes v x.uniform)
            (loadWords d n f (fun _ => lineBytes y va x.size)))) ∧
    (p.cache = 2 ∨ (2 ≤ x.r.cache ∧ l1Find (getCore s v.b.core) v.b.asid va = none) → homePoisoned s h x.size = false →
      ∃ t, OnlyMemory s t ∧ SameMemory s t ∧ (getCore t v.b.core).l1 = (getCore s v.b.core).l1 ∧
        LongLeaves t v k (exec i s) i (loadFlags f [l] (fun _ => homeBytes s h x.size))
          (fun w => ∀ k0, Written k0 (applyWrites k0 w) (ranLanes v x.uniform)
            (loadWords d n f (fun _ => homeBytes s h x.size))))

/-- R173, R174: LDL brings the word at A + imm of the block's local store in each lane, where every word is aligned, inside
the allocation and clean. -/
def Obligations.LocalLoadsBringTheirWords : Prop :=
  ∀ (s : State) (v : View) (k : Course) (d : RegName) (a : Src) (imm : Word), Issuing s v k → NoHazard v (.ldl d a imm) →
    (∀ l ∈ v.lanes (isScalar d), LocalWordOk v.b (readReg v.k a.reg l + imm).toNat) →
    LongLeaves s v k (exec (.ldl d a imm) s) (.ldl d a imm) 0 (fun w => ∀ k0, Written k0 (applyWrites k0 w)
      (ranLanes v (isScalar d)) [(d, fun l => localWord v.b (readReg v.k a.reg l + imm).toNat)])

/-- R170, R174: LDRP whose lanes all hit the L1 (a scope below DEVICE), LDRP in one lane at scope DEVICE or SYSTEM, read at
the home without the L1, and LDLP, as units of their own with an empty stack and nothing pending or waited
for in the course: the values are those of LDR
and LDL, and the path is demoted, which completes its own load. -/
def Obligations.PollsLoadAndDemoteTheirPath : Prop :=
  ∀ (s : State) (v : View), IssuingAlone s v → v.k.depth = 0 → v.k.longs = [] → allPending v.k = [] →
    (∀ ids acks, v.p.park ≠ .longs ids acks) →
    (∀ q ids acks, getPath v.k (1 - v.u.slot) = some q → q.park ≠ .longs ids acks) → (blockCtx s v.u.blk).isSome = true →
    (∀ (d : RegName) (a : Src) (imm : Word), NoHazard v (.ldlp d a imm) →
      (∀ l ∈ v.lanes (isScalar d), LocalWordOk v.b (readReg v.k a.reg l + imm).toNat) →
      DemotedLeaves s v (exec (.ldlp d a imm) s) (.ldlp d a imm) (ranLanes v (isScalar d))
        [(d, fun l => localWord v.b (readReg v.k a.reg l + imm).toNat)]) ∧
    ∀ (d : RegName) (a : Src) (rs : RecName) (j : RegName) (x : RecordAccess) (d' : RegName) (n : Nat)
      (f : List Byte → List Word × Bool),
      Unstopped s v (.ldrp d a rs j) → recordAccess v (.ldrp d a rs j) = some x →
      loadDest v (.ldrp d a rs j) = some (d', n, f) → heldFor v = none →
      (∀ y : Nat → L1Line, (∀ l ∈ x.lanes, HitsL1 s v x l (y l)) →
        DemotedLeaves s v (exec (.ldrp d a rs j) s) (.ldrp d a rs j) (ranLanes v x.uniform)
          (loadWords d' n f (fun l => lineBytes (y l) (laneVa v x l) x.size))) ∧
      ∀ (l va : Nat) (h : Home) (p : Leaf), 3 ≤ x.r.scope → x.lanes = [l] → accessReach s v x = [(l, .mem va h p)] →
        p.order ≠ 1 → allGood s = true → (getCore s v.b.core).stores = [] → homePoisoned s h x.size = false →
        ∃ t, OnlyMemory s t ∧ SameMemory s t ∧ (getCore t v.b.core).l1 = (getCore s v.b.core).l1 ∧
          DemotedLeaves t v (exec (.ldrp d a rs j) s) (.ldrp d a rs j) (ranLanes v x.uniform)
            (loadWords d' n f (fun _ => homeBytes s h x.size))

/-- R165, R166, R293: STR through pages that are not STRONG leaves its bytes pending in the core, at the addresses its record
gives: of the lanes that store a byte the highest counts. No byte of memory changes before a store is performed.
STORE_PERFORMED performs a pending store of device memory that no earlier store of its core precedes: its bytes, and no other,
change. STL writes the words of the block's local store at once, the highest lane's where several meet. -/
def Obligations.StoresLeaveTheirBytes : Prop :=
  (∀ (s : State) (v : View) (k : Course) (d : RegName) (a : Src) (rs : RecName) (j : RegName) (x : RecordAccess),
    Issuing s v k → Unstopped s v (.str d a rs j) → recordAccess v (.str d a rs j) = some x →
    strongReach (accessReach s v x) = false →
    ∃ t new, exec (.str d a rs j) s = .next (unitPasses t v (.str d a rs j) k) ∧ OnlyMemory s t ∧
      (allGood s = true → SameMemory s t) ∧
      (getCore t v.b.core).stores = (getCore s v.b.core).stores ++ new ∧
      ∀ h b, (∃ y ∈ new, y.home = homeSector h ∧ find? y.cells (homeOffset h) = some b) ↔
        (((storeCells v x d (accessReach s v x)).filter (fun e => e.1 = h)).getLast?).map (·.2) = some b) ∧
  (∀ (s : State) (core pa : Nat) (y : PendingStore) (rest : List PendingStore), allGood s = true →
    (getCore s core).stores = y :: rest → rest.all (fun z => z.id ≠ y.id) = true → y.home = .dev pa →
    ∃ t, exec (.storePerformed core 0) s = .next t ∧ OnlyMemory s t ∧ (getCore t core).stores = rest ∧
      (∀ a, cget 0#8 t.dev a = ((y.cells.reverse.find? (fun c => pa + c.1 = a)).map (·.2)).getD (cget 0#8 s.dev a)) ∧
      ∀ a, cget 0#8 t.hostMem a = cget 0#8 s.hostMem a) ∧
  ∀ (s : State) (v : View) (k : Course) (d : RegName) (a : Src) (imm : Word), Issuing s v k → NoHazard v (.stl d a imm) →
    let addr (l : Nat) : Nat := (readReg v.k a.reg l + imm).toNat
    (∀ l ∈ lanesOf v.contributors, addr l % 4 = 0 ∧ addr l + 4 ≤ v.b.alloc) →
    ∃ b', exec (.stl d a imm) s = .next (unitPasses (setBlock s v.u.blk b') v (.stl d a imm) k) ∧
      b' = { v.b with localMem := b'.localMem, localPoison := b'.localPoison } ∧
      (∀ l ∈ lanesOf v.contributors, (∀ m ∈ lanesOf v.contributors, l < m → addr m ≠ addr l) →
        localWord b' (addr l) = readReg v.k d l) ∧
      ∀ n, (∀ l ∈ lanesOf v.contributors, n < addr l ∨ addr l + 4 ≤ n) → cget 0#8 b'.localMem n = cget 0#8 v.b.localMem n

/-- R173 to R177: ATL performs its operation in its lanes one after another, in ascending order, each on the word the lane
before left; D brings the old words. A CAS that fails in a lane demotes the path. ATR in one lane through a page that is not
STRONG performs its operation at the word's home, on a clean word with no store of the core pending and no member lost:
the word's four bytes change, or none for a CAS that fails, and no other byte. -/
def Obligations.AtomicsReadModifyWrite : Prop :=
  ∀ (s : State) (v : View) (k : Course) (op : AtomOp) (d : RegName) (a : Src), Issuing s v k →
    let quiet := IssuingAlone s v ∧ v.k.depth = 0 ∧ v.k.longs = [] ∧ allPending v.k = [] ∧ (∀ ids acks, v.p.park ≠ .longs ids acks) ∧
      (∀ q ids acks, getPath v.k (1 - v.u.slot) = some q → q.park ≠ .longs ids acks) ∧ (blockCtx s v.u.blk).isSome = true
    (let lanes := if isScalar d then v.lanes true else lanesOf v.contributors
     let addr (l : Nat) : Nat := (readReg v.k a.reg l).toNat
     let r := atomSeq op (lanes.map (fun l => (l, addr l, readReg v.k d l, readReg v.k (regPlus d 1) l))) v.b
     let ds : List (RegName × (Nat → Word)) := [(d, fun l => (find? r.1 l).getD 0)]
     NoHazard v (.atl op d a) → (op = .cas → sliceHolds v.k v.p = []) → (∀ l ∈ lanes, LocalWordOk v.b (addr l)) →
     ((op = .cas → ∀ e ∈ r.1, e.2 = readReg v.k d e.1) →
       LongLeaves (setBlock s v.u.blk r.2) v k (exec (.atl op d a) s) (.atl op d a) 0
         (fun w => ∀ k0, Written k0 (applyWrites k0 w) (maskOf lanes.contains) ds)) ∧
     (quiet → op = .cas → (∃ e ∈ r.1, e.2 ≠ readReg v.k d e.1) →
       DemotedLeaves (setBlock s v.u.blk r.2) v (exec (.atl op d a) s) (.atl op d a) (maskOf lanes.contains) ds)) ∧
    ∀ (rs : RecName) (x : RecordAccess) (l va : Nat) (h : Home) (p : Leaf),
      Unstopped s v (.atr op d a rs) → recordAccess v (.atr op d a rs) = some x → heldFor v = none → x.lanes = [l] →
      accessReach s v x = [(l, .mem va h p)] → p.order ≠ 1 → allGood s = true → (getCore s v.b.core).stores = [] →
      homePoisoned s h 4 = false → (∀ f r w, h ≠ .fabric f r w) →
      let old := BitVec.ofNat 32 (natOfBytes (homeBytes s h 4))
      let ds : List (RegName × (Nat → Word)) := [(d, fun _ => old)]
      (∀ w, atomWord op old (readReg v.k d l) (readReg v.k (regPlus d 1) l) = some w →
        ∃ t, OnlyMemory s t ∧ StoredAt s t h (bytesOfNat 4 w.toNat) ∧ LongLeaves t v k (exec (.atr op d a rs) s) (.atr op d a rs) 0
          (fun w => ∀ k0, Written k0 (applyWrites k0 w) (bitLane l) ds)) ∧
      (quiet → atomWord op old (readReg v.k d l) (readReg v.k (regPlus d 1) l) = none →
        ∃ t, OnlyMemory s t ∧ StoredAt s t h [] ∧ DemotedLeaves t v (exec (.atr op d a rs) s) (.atr op d a rs) (bitLane l) ds)

/-- R171, R178, R179, R181: PREF with a good record changes nothing. Under "never" FENCE and CINV change nothing. CINV and a
FENCE that acquires drop from their core's L1 the lines that their scope names; a FENCE that releases at die scope or wider,
and SEQ at any scope, performs the core's pending stores first; one that must await remote stores waits for their
acknowledgements; a FENCE that acquires parks its path on its pending loads. No course, block or context but the path itself is
touched. -/
def Obligations.FencesOrderAndInvalidate : Prop :=
  ∀ (s : State) (v : View), IssuingAlone s v →
    (∀ lvl a rs j, NoHazard v (.pref lvl a rs j) → recordBad (readRecord v.k rs.val) fmtKnown = false →
      exec (.pref lvl a rs j) s = .next (unitPasses s v (.pref lvl a rs j) v.k)) ∧
    (∀ scope, NoHazard v (.cinv scope) →
      (v.never = true → exec (.cinv scope) s = .next (unitPasses s v (.cinv scope) v.k)) ∧
      (v.never = false → ∃ t, exec (.cinv scope) s = .next (unitPasses t v (.cinv scope) v.k) ∧ OnlyMemory s t ∧
        SameMemory s t ∧ (getCore t v.b.core).stores = (getCore s v.b.core).stores ∧
        (getCore t v.b.core).l1 = (getCore s v.b.core).l1.filter (staysAt s v.b.core scope false))) ∧
    ∀ kind scope, NoHazard v (.fence kind scope false) →
      (v.never = true → exec (.fence kind scope false) s = .next (unitPasses s v (.fence kind scope false) v.k)) ∧
      (v.never = false → awaitsAcks kind scope = true → fabricStores s v.b.core = true → v.p.waited = [] →
        exec (.fence kind scope false) s = .next (holdUnit s v (.fence kind scope false) (.commands [] []))) ∧
      (v.never = false → (awaitsAcks kind scope = true → fabricStores s v.b.core = false) → ∃ t, OnlyMemory s t ∧
        let performs := kind = .seq ∨ (kind ≠ .acq ∧ (scope = .die ∨ scope = .device ∨ scope = .system))
        (performs → (getCore t v.b.core).stores = []) ∧
        (¬ performs → SameMemory s t ∧ (getCore t v.b.core).stores = (getCore s v.b.core).stores ∧
          (kind = .rel → (getCore t v.b.core).l1 = (getCore s v.b.core).l1) ∧
          (kind ≠ .rel → (getCore t v.b.core).l1 = (getCore s v.b.core).l1.filter (staysAt s v.b.core scope (kind == .seq)))) ∧
        (kind ≠ .rel → ∀ y ∈ (getCore t v.b.core).l1, staysAt t v.b.core scope (kind == .seq) y = true) ∧
        exec (.fence kind scope false) s = .next (unitPasses t v (.fence kind scope false)
          (if kind ≠ .rel ∧ pendingLoads v.k v.p ≠ [] then
            setPath v.k v.u.slot (some { v.p with park := .longs (pendingLoads v.k v.p) [] }) else v.k)))

/-! ### Engine commands -/

/-- R193, R194, R195, R22: CPY, GATH and EPI under guard "never" change nothing. Under "always", once no check stops them and
their engine has room and no earlier command of their block waits, one accepted command with the card, record, stream and
position of the issue stands in the table; the path parks with C = 1 for its completion, or goes on. Where the engine is full, the
command stands unaccepted and the path waits; once the engine has taken it, the path goes on with no second command. No other
command, no register and no byte of memory changes. -/
def Obligations.EngineCommandsAreIssued : Prop :=
  ∀ (s : State) (v : View) (k : Course) (i : Instr) (op : Nat) (c : RecName) (strm : BitVec 4) (cont : Bool) (p : Path),
    Issuing s v k → engineOf i = some (op, c, strm, cont) → op = 0x70 ∨ op = 0x71 ∨ op = 0x75 →
    getPath k v.u.slot = some p → p.park = .running → v.u.slot < 2 →
    let cmd := newCommand v.u.blk op v.u.course (cardWords v.k c 8) (cardRecord v.k op (cardWords v.k c 8)) strm.toNat cont [] 0
      (packPos (blockCode s v.u.blk) v.p.pc v.u.pos)
    let goesOn (t : State) (id : Nat) : Prop := ∃ k' p', getCourse t v.u.blk v.u.course = some k' ∧ getPath k' v.u.slot = some p' ∧
      p'.park = (if cont then .continuation id else .running) ∧
      ∀ r l, readReg k' r l = readReg (if v.u.last then spendRegs k (v.u.spends ++ spends i) else k) r l
    (Unstopped s v i → v.never = true → exec i s = .next (unitPasses s v i k)) ∧
    (Unstopped s v i → v.never = false → v.p.waited.contains v.u.pos = false → engineFull s v.u.blk op = false →
      ∃ t, exec i s = .next t ∧ SameMemory s t ∧ (∀ j, j ≠ s.nextId → getCmd t j = getCmd s j) ∧
        getCmd t s.nextId = some { cmd with accepted := true, order := s.nextId + 1 } ∧ goesOn t s.nextId) ∧
    (lone v.u = true → stopOf s v i = some (.hold (.acceptance 0 false)) →
      ∃ t k' p', exec i s = .next t ∧ SameMemory s t ∧ (∀ j, j ≠ s.nextId → getCmd t j = getCmd s j) ∧
        getCmd t s.nextId = some cmd ∧ getCourse t v.u.blk v.u.course = some k' ∧ getPath k' v.u.slot = some p' ∧
        p'.park = .acceptance s.nextId false ∧ ∀ r l, readReg k' r l = readReg k r l) ∧
    ∀ id, Unstopped s v i → v.never = false → takenCommand s v op = some id →
      ∃ t, exec i s = .next t ∧ SameMemory s t ∧ t.commands = s.commands ∧ goesOn t id

/-- R210, R289: SWAIT under "never" changes nothing; with a command of its stream outstanding it parks its path until that
completes; once none is, it continues, as an acquire that drops lines of its core's L1 and touches nothing else. -/
def Obligations.SwaitWaitsForItsStream : Prop :=
  ∀ (s : State) (v : View) (strm : BitVec 4), IssuingAlone s v → NoHazard v (.swait strm) →
    let ids := openCommands s v.u.blk v.u.course (fun c => c.strm == strm.toNat)
    (v.never = true → exec (.swait strm) s = .next (unitPasses s v (.swait strm) v.k)) ∧
    (v.never = false → ids ≠ [] → v.p.waited = [] → exec (.swait strm) s = .next (holdUnit s v (.swait strm) (.commands ids []))) ∧
    (v.never = false → ids = [] → (∀ e ∈ v.k.engErrs, e.strm ≠ strm.toNat) →
      ∃ t, exec (.swait strm) s = .next (unitPasses t v (.swait strm) v.k) ∧ OnlyMemory s t ∧ SameMemory s t ∧
        (getCore t v.b.core).stores = (getCore s v.b.core).stores ∧
        (∀ y ∈ (getCore t v.b.core).l1, y ∈ (getCore s v.b.core).l1) ∧
        (v.k.engScopes = [] → (getCore t v.b.core).l1 = (getCore s v.b.core).l1))

/-- R206, R266, R22: MMA and MML by a member before the last one park its path in the arrival park, and the collective lists it.
The last arrival creates the collective's command from rank 0's card where rank 0's guard was "always", with every course of
the team as a member, and none where it was "never"; where the engine is full, the command stands unaccepted and the last member
waits for its acceptance. A member that goes on once the collective is formed counts it. No byte of memory changes. -/
def Obligations.TeamsFormTheirCollectives : Prop :=
  ∀ (s : State) (v : View) (i : Instr) (op n r : Nat) (c : RecName) (strm : BitVec 4) (cont : Bool), IssuingAlone s v →
    engineOf i = some (op, c, strm, cont) → op = 0x73 ∨ op = 0x74 → v.k.team = some n → v.k.rank = some r →
    let x := (openCollective v.b v.k).getD ⟨n, v.k.collectives, [], [], 0, false, false, false, 0⟩
    let y : Collective := if r = 0 then { x with
        arrived := x.arrived ++ [(r, op)], card := cardWords v.k c (cardSize op), strm := strm.toNat, cont := cont,
        created := !v.never, pos := packPos (blockCode s v.u.blk) v.p.pc v.u.pos }
      else { x with arrived := x.arrived ++ [(r, op)] }
    let cmd := newCommand v.u.blk op (rankCourse s v.u.blk n 0) y.card [] y.strm y.cont (teamCourses s v.u.blk n) y.index y.pos
    (stopOf s v i = some (.hold .arrival) → ∃ t b' k' p', exec i s = .next t ∧ SameMemory s t ∧
      getBlock t v.u.blk = some b' ∧ b'.collectives.head? = some y ∧ t.commands = s.commands ∧
      getCourse t v.u.blk v.u.course = some k' ∧ getPath k' v.u.slot = some p' ∧ p'.park = .arrival) ∧
    (stopOf s v i = some (.hold (.acceptance 0 true)) → y.created = true → ∃ t b' k' p', exec i s = .next t ∧ SameMemory s t ∧
      getBlock t v.u.blk = some b' ∧ b'.collectives.head? = some y ∧
      (∀ j, j ≠ s.nextId → getCmd t j = getCmd s j) ∧ getCmd t s.nextId = some cmd ∧
      getCourse t v.u.blk v.u.course = some k' ∧ getPath k' v.u.slot = some p' ∧ p'.park = .acceptance s.nextId true) ∧
    (stopOf s v i = none → formedFor v = false → ∃ t, exec i s = .next t ∧ SameMemory s t ∧
        (y.created = false → t.commands = s.commands) ∧
        (y.created = true → engineFull s v.u.blk op = false → (∀ j, j ≠ s.nextId → getCmd t j = getCmd s j) ∧
          getCmd t s.nextId = some { cmd with accepted := true, order := s.nextId + 1 })) ∧
    (stopOf s v i = none → formedFor v = true → ∃ t k', exec i s = .next t ∧ SameMemory s t ∧ t.commands = s.commands ∧
      getCourse t v.u.blk v.u.course = some k' ∧ k'.collectives = v.k.collectives + 1)

/-! ### The tape -/

/-- R214, R218, R347: TREC and TCTL.mark in RECORD mode append their record to the open chunk where it fits and leaves room,
and open the next chunk with it where none is open and the record has room for it; a full stream of overflow mode DROP drops
it. Only the course's tape changes. -/
def Obligations.RecordingAppendsToTheOpenChunk : Prop :=
  ∀ (s : State) (v : View) (k : Course) (i : Instr) (r : TapeRec), Issuing s v k → Unstopped s v i → v.k.tape.mode = .record →
    ((∃ w tag a, i = .trec w tag a ∧ trecRecord v w tag a = some r) ∨
      ∃ a, i = .tctlMark a ∧ v.never = false ∧ r = .mark (readReg v.k a.reg 0)) →
    let t := v.k.tape
    (t.ovf = true → exec i s = .next (unitLeaves s v i 0 { k with tape := t })) ∧
    (∀ c, t.ovf = false → t.chunk = some c → c.count < 4095 → c.payload.length + (codeRec c.pred r).1.length < 4064 →
      exec i s = .next (unitLeaves s v i 0 { k with tape := { t with
        chunk := some { c with count := c.count + 1, payload := c.payload ++ (codeRec c.pred r).1, pred := (codeRec c.pred r).2 }
        seq := t.seq + 1, kept := t.kept + 1 } })) ∧
    (t.ovf = false → t.chunk = none → 4096 * (t.next + 1) ≤ (tapeRecord t).extent → (codeRec [] r).1.length < 4064 →
      exec i s = .next (unitLeaves s v i 0 { k with tape := { t with
        chunk := some ⟨t.next, t.seq, 1, (codeRec [] r).1, (codeRec [] r).2⟩
        next := t.next + 1, seq := t.seq + 1, kept := t.kept + 1 } }))

/-- R218, R220, R345, R347, R356: RECBEGIN under guard "always" goes to RECORD with an empty stream, the record of its block
and the path's slot in order; with EXT it replaces the record alone. FLUSH performs the core's stores, writes the open chunk
at BASE + 4,096 × its index and closes it. RECEND writes it with LAST, brings its byte offset to D as a long write and goes to
IDLE; the core keeps no older copy of the chunk's lines. STATUS brings the records kept, or left; D gets 0 in IDLE. The
chunk's write is stated where no member of the memory's redundancy is lost. -/
def Obligations.TapeControlBeginsAndEndsAStream : Prop :=
  ∀ (s : State) (v : View) (k : Course), Issuing s v k → v.never = false →
    let t := v.k.tape
    (∀ drop rec hint, Unstopped s v (.tctlRecbegin drop rec hint) →
      exec (.tctlRecbegin drop rec hint) s = .next (unitLeaves s v (.tctlRecbegin drop rec hint) 0 { k with tape := { t with
        mode := .record, drop := drop, ovf := false, trunc := false, record := recordWords v.k rec.val, chunk := none
        next := 0, seq := 0, kept := 0, last := [], order := v.u.slot + 1 } })) ∧
    (∀ drop rec hint, Unstopped s v (.tctlRecbeginExt drop rec hint) →
      exec (.tctlRecbeginExt drop rec hint) s =
        .next (unitLeaves s v (.tctlRecbeginExt drop rec hint) 0 { k with tape := { t with record := recordWords v.k rec.val } })) ∧
    (∀ c h f, t.mode = .record → t.chunk = some c → translate s v.b.asid ((tapeRecord t).base + 4096 * c.index) = .mem h f →
      f.write = true → allGood s = true →
      let stored (bs : List Byte) : State := storeChunk (holdPipe s v.b.core (chunkCycles (hdr bs 107 96))) v.b.core v.b.asid h bs
      (∀ bs, OnlyMemory s (stored bs) ∧
        (∀ y ∈ (getCore (stored bs) v.b.core).l1, ∀ i, i < 32 → y.home ≠ homeAdd h (128 * i))) ∧
      (Unstopped s v .tctlFlush →
        exec .tctlFlush s = .next (unitLeaves
          (stored (chunkBytes c.index c.seq c.count c.payload false false)) v .tctlFlush 0 { k with tape := { t with
            chunk := none
            last := chunkHeader c.index c.seq c.count c.payload.length false false (crcStep 0 c.payload) } })) ∧
      ∀ d, Unstopped s v (.tctlRecend d) →
        let trunc := t.drop && t.ovf
        let bs := chunkBytes c.index c.seq c.count c.payload true trunc
        LongLeaves (stored bs) v { k with tape := { t with
            mode := .idle, chunk := none, order := 0
            last := chunkHeader c.index c.seq c.count c.payload.length true trunc (crcStep 0 c.payload) } }
          (exec (.tctlRecend d) s) (.tctlRecend d) 0
          (fun ws => ∀ k0, Written k0 (applyWrites k0 ws) (v.dest d) [(d, fun _ => BitVec.ofNat 32 (4096 * c.index))])) ∧
    (∀ d, Unstopped s v (.tctlStatus d) → LongLeaves s v k (exec (.tctlStatus d) s) (.tctlStatus d) 0
      (fun ws => ∀ k0, Written k0 (applyWrites k0 ws) (v.dest d) [(d, fun _ => BitVec.ofNat 32 (min (match t.mode with
        | .idle => 0
        | .record => t.kept
        | .replay => recordsLeft t) 0xFFFFFFFF))]))

/-- R215, R217, R218, R351: TPOP, TCTL.mark and BRR take the newest record out of a replaying stream once their checks have
passed. TPOP brings its value to each lane of T or to a scalar D as a long write; BRR goes to its target with the record's
live lanes, or past itself with none. REPEND goes to IDLE and discards what is left. REPBEGIN acquires, goes to REPLAY and
holds the chunk at BASE + sO as read, with no chunk released. What the unit reads for them changes nothing but memory, and where
no member of the memory's redundancy is lost it changes nothing of it. -/
def Obligations.ReplayTakesTheNewestRecord : Prop :=
  ∀ (s : State) (v : View) (k : Course), Issuing s v k →
    let u := touchTape s v.b.asid v.k.tape
    OnlyMemory s u ∧ (allGood s = true → u = s) ∧
    (∀ r t t', newest s v.b.asid v.k.tape = .record r t t' →
      (∀ w tag d, Unstopped s v (.tpop w tag d) → ¬ (isScalar d = true ∧ v.never = true) →
        LongLeaves u v { k with tape := t' } (exec (.tpop w tag d) s) (.tpop w tag d) 0
          (fun ws => ∀ k0, Written k0 (applyWrites k0 ws) (v.dest d)
            (if w = .w64 then [(d, fun l => lowWord (recValue r l)), (regPlus d 1, fun l => highWord (recValue r l))]
              else [(d, fun l => lowWord (recValue r l))]))) ∧
      (∀ a, Unstopped s v (.tctlMark a) → v.never = false → v.k.tape.mode = .replay →
        exec (.tctlMark a) s = .next (unitLeaves u v (.tctlMark a) 0 { k with tape := t' })) ∧
      (∀ off m, Unstopped s v (.brr off) → r = .branch m →
        let k1 := { flowCourse v (.brr off) k with tape := t' }
        let goes (g : Path → Path) : Prop := exec (.brr off) s =
          .next (courseLeaves u v (setPath k1 v.u.slot ((getPath k1 v.u.slot).map g)))
        (m &&& v.k.live = 0 → goes (fun p => nextPos p 3)) ∧
        (m &&& v.k.live ≠ 0 → v.act &&& ~~~(m &&& v.k.live) = 0 →
          goes (fun p => jumpTo p (v.p.pc + 16 + 16 * off.signExtend 64))))) ∧
    (Unstopped s v .tctlRepend → v.never = false → v.k.tape.mode = .replay →
      exec .tctlRepend s = .next (unitLeaves s v .tctlRepend 0
        { k with tape := { v.k.tape with mode := .idle, current := none, ahead := none, order := 0 } })) ∧
    (∀ o rec hint, Unstopped s v (.tctlRepbegin o rec hint) → v.never = false →
      ∃ s' t g, exec (.tctlRepbegin o rec hint) s = .next (unitLeaves s' v (.tctlRepbegin o rec hint) 0 { k with tape := t }) ∧
        OnlyMemory s s' ∧ (allGood s = true → SameMemory s s') ∧ t.mode = .replay ∧ t.record = recordWords v.k rec.val ∧
        t.released = 0 ∧ t.err = false ∧ t.order = v.u.slot + 1 ∧ t.current = some g ∧
        g.index = (readReg v.k o 0).toNat / 4096 ∧ g.released = false ∧ g.bad = false ∧
        ∀ bs, hubRead s' v.b.asid ((recordOfWords (recordWords v.k rec.val)).base + 4096 * g.index) 4096 = some (bs, false) →
          g.image = bs)

/-! ### Special registers -/

/-- R64, R67, R68, R69, R223, R224: SRD leaves a long write of its register's sample to D pending, and SR_TIME latches
[63:32]; stated for the registers of `srSamples`. SWR under guard "always" writes SR_FPFLAGS [5:0], SR_CASHDL and SR_TRAPHDL
with [3:0] zero, and SR_CONTAIN [0], and under "never" changes nothing. No other register and no byte of memory changes. -/
def Obligations.SrdAndSwrUseTheirRegister : Prop :=
  ∀ (s : State) (v : View) (k : Course) (n : BitVec 9), Issuing s v k →
    (∀ d f, Unstopped s v (.srd d n) → ¬ (isScalar d = true ∧ v.never = true) → (n.toNat, f) ∈ srSamples s v →
      LongLeaves s v (if n = 0x11 then { k with latch := BitVec.ofNat 32 (s.now / 2 ^ 32) } else k) (exec (.srd d n) s) (.srd d n) 0
        (fun ws => ∀ k0, Written k0 (applyWrites k0 ws) (v.dest d) [(d, f)])) ∧
    ∀ a, Unstopped s v (.swr n a) →
      let w := readReg v.k a.reg 0
      let leaves (k' : Course) : Prop := exec (.swr n a) s = .next (unitLeaves s v (.swr n a) 0 k') ∧
        SameMemory s (unitLeaves s v (.swr n a) 0 k')
      (v.never = true → exec (.swr n a) s = .next (unitPasses s v (.swr n a) k)) ∧
      (v.never = false →
        (n = 0x13 → leaves { k with fpflags := w.truncate 6 }) ∧ (n = 0x17 → leaves { k with cashdl := w &&& 0xFFFFFFF0#32 }) ∧
        (n = 0x18 → leaves { k with contain := w.getLsbD 0 }) ∧ (n = 0x19 → leaves { k with traphdl := w &&& 0xFFFFFFF0#32 }))

/-! ### Engine commands, once issued -/

/-- R195, R196, R198, R201, R202, R206: ENGINE_ACCEPT takes a command that its engine can take, and its issuer leaves its park to
go on with its issue. ENGINE_START performs its core's pending stores; where the command accesses global memory and a remote store
is not yet acknowledged, that is all; else a local copy or fill writes its rows, poison included, and MMA and MML leave the sum
of their K-blocks in the bank they name; both are done. A command that cannot be taken or cannot start is left as it is.
Collectives are stated with BSRC 1 or with their slices read. -/
def Obligations.EngineCommandsAreAcceptedAndStarted : Prop :=
  ∀ (s : State) (id : Nat) (c : Command) (b : Block), getCmd s id = some c → getBlock s c.blk = some b →
    (acceptable s id c = false → exec (.engineAccept id) s = .next s) ∧
    (acceptable s id c = true → c.members = [] → ∃ t, exec (.engineAccept id) s = .next t ∧ SameMemory s t ∧
      getCmd t id = some { c with accepted := true, order := s.nextId } ∧ (∀ j, j ≠ id → getCmd t j = getCmd s j) ∧
      let wake (p : Path) : Path := match p.park with
        | .acceptance i _ => if i = id then { p with park := .rejoin } else p
        | _ => p
      ∀ n k, n < b.courses → getCourse s c.blk n = some k →
        getCourse t c.blk n = some { k with path0 := k.path0.map wake, path1 := k.path1.map wake }) ∧
    (startable s c = false → exec (.engineStart id) s = .next s) ∧
    (startable s c = true → awaitsStores (drainCore s b.core) c = true → exec (.engineStart id) s = .next (drainCore s b.core)) ∧
    (startable s c = true → awaitsStores (drainCore s b.core) c = false → (∀ n ∈ c.members, ∀ k, getCourse s c.blk n = some k → ∀ w ∈ k.longs, w.id ≠ id) →
      let s0 := drainCore s b.core
      let b0 := { b with lastProgress := s.now }
      let w := c.card
      (c.op = 0x70 → 2 ≤ bits (cw w 0) 1 0 →
        let n := 4 * bits (cw w 3) 31 16
        let row (i : Nat) : List (Poi Byte) :=
          if bits (cw w 0) 1 0 = 2 then localPois b ((cw w 1 + i * cw w 2) % 2 ^ 32) n
          else (List.range n).map (fun j => (BitVec.ofNat 8 (cw w 1 / 2 ^ (8 * (j % 4))), false))
        ∃ t c', exec (.engineStart id) s = .next t ∧ getCmd t id = some c' ∧ c'.done = true ∧ c'.errs = c.errs ∧
          getBlock t c.blk = some (putLocal b0 ((List.range (bits (cw w 3) 15 0)).flatMap (fun i =>
            cellsAt ((cw w 4 + i * bits (cw w 5) 19 0) % 2 ^ 32) (row i)))) ∧ t.dev = s0.dev ∧ t.hostMem = s0.hostMem) ∧
      (c.op = 0x73 ∨ c.op = 0x74 → ∃ t c', exec (.engineStart id) s = .next t ∧ getCmd t id = some c' ∧ c'.done = true ∧
        c'.card = c.card ∧ getBlock t c.blk = some (if bitAt (cw w 0) 17 then { b0 with bank1 := (kSteps b0 c').1 }
          else { b0 with bank0 := (kSteps b0 c').1 }) ∧ t.dev = s0.dev ∧ t.hostMem = s0.hostMem))

/-- R195, R198, R199, R252: ENGINE_COMPLETE takes a command whose work is done out of the table, arrives on its phase word
where it names one, gives its QI to a live issuer, and ends the issuer's continuation park and its waits on this command
alone; a command still at work stays. Stated for a command of one course without an error to report. -/
def Obligations.EngineCommandsComplete : Prop :=
  ∀ (s : State) (id : Nat) (c : Command) (b : Block) (k : Course), getCmd s id = some c → getBlock s c.blk = some b →
    (c.done = false → exec (.engineComplete id) s = .next s) ∧
    (c.done = true → c.members = [] → c.errs = [] → getCourse s c.blk c.course = some k → c.course < b.courses →
      (∀ e ∈ k.engErrs, e.cmd ≠ id) → k.stopped = false →
      ∃ t k', exec (.engineComplete id) s = .next t ∧ t.commands = del s.commands id ∧
        getBlock t c.blk = some (match (cmdPlan c).phase with
          | some a => setLocalWord { b with lastProgress := s.now } a (phaseArrive (localWord b a))
          | none => { b with lastProgress := s.now }) ∧
        t.dev = s.dev ∧ t.hostMem = s.hostMem ∧ getCourse t c.blk c.course = some k' ∧ k'.live = k.live ∧
        k'.fpflags = (if k.live ≠ 0 ∧ c.qi = true then k.fpflags ||| flagQI else k.fpflags) ∧
        ∀ slot p, slot < 2 → getPath k slot = some p → p.held = false →
          p.park = .continuation id ∨ p.park = .commands [id] [] → getPath k' slot = some { p with park := .running })

/-! ### TASK and STEP -/

/-- R225, R227, R228: TASK.done performs its core's pending stores and marks its block done, once, and its launch counts it.
TASK.signal subtracts 1 from the int64 at A at its home (stated for a clean word with no store of the core pending and no
member lost), and every started WAIT of the partition is to be tested again; in the fabric window it asks the remote device and
parks, and goes on when that device has made the subtraction. TASK.enq appends an accepted image to its
context's submission list and brings 0 to D; a rejected one brings its cause to D and submits nothing. Under "never" none
changes anything. -/
def Obligations.TaskInstructionsSignalAndSubmit : Prop :=
  ∀ (s : State) (v : View) (k : Course), Issuing s v k →
    let waits := s.jobs.map (fun e => if e.2.part = v.b.part ∧ pkType e.2.words = 4 ∧ e.2.started = true ∧ e.2.completed = false
      then (e.1, { e.2 with retest := true }) else e)
    (Unstopped s v .taskDone →
      (v.never = true ∨ v.b.done = true → exec .taskDone s = .next (unitPasses s v .taskDone k)) ∧
      (v.never = false → v.b.done = false → ∃ t, exec .taskDone s = .next (unitPasses t v .taskDone k) ∧
        (getCore t v.b.core).stores = [] ∧ getBlock t v.u.blk = some { v.b with done := true } ∧
        ∀ j, getJob s v.b.job = some j → getJob t v.b.job = some { j with doneBlocks := j.doneBlocks + 1 })) ∧
    (∀ a, Unstopped s v (.taskSignal a) →
      (v.never = true → exec (.taskSignal a) s = .next (unitPasses s v (.taskSignal a) k)) ∧
      (∀ h f, v.never = false → heldFor v = none → translate s v.b.asid (readPair v.k a.reg 0).toNat = .mem h f →
        (∀ x r w, h ≠ .fabric x r w) → allGood s = true → (getCore s v.b.core).stores = [] → homePoisoned s h 8 = false →
        ∃ t, exec (.taskSignal a) s = .next (unitPasses t v (.taskSignal a) k) ∧
          StoredAt s t h (bytesOfNat 8 ((natOfBytes (homeBytes s h 8) + 2 ^ 64 - 1) % 2 ^ 64)) ∧
          OnlyMemory s { t with jobs := s.jobs } ∧
          t.jobs = waits) ∧
      ∀ y, v.never = false → heldFor v = some y → (∀ e ∈ y.answers, e.2.poison = []) → allGood s = true →
        exec (.taskSignal a) s = .next (unitPasses { s with jobs := waits } v (.taskSignal a) k)) ∧
    (∀ a, lone v.u = true → stopOf s v (.taskSignal a) = some (.hold .remote) →
      exec (.taskSignal a) s = .next (holdUnit s v (.taskSignal a) .remote)) ∧
    ∀ d a, Unstopped s v (.taskEnq d a) →
      (v.never = true → exec (.taskEnq d a) s = .next (unitPasses s v (.taskEnq d a) k)) ∧
      (∀ x, v.never = false → localPoisoned v.b (readReg v.k a.reg 0).toNat 128 = false → getCtx s v.b.asid = some x →
        let image := bytesToWords (cgetRun 0#8 v.b.localMem (readReg v.k a.reg 0).toNat 128)
        let s' := drainCore s v.b.core
        let brings (n : Nat) (ws : List RegWrite) : Prop :=
          ∀ k0, Written k0 (applyWrites k0 ws) (v.dest d) [(d, fun _ => BitVec.ofNat 32 n)]
        (enqCause s' v.b.part x.nc image = none → LongLeaves
          (setCtx s' v.b.asid { x with subs := x.subs ++ [(x.subSeq, image)], subSeq := x.subSeq + 1 }) v k
          (exec (.taskEnq d a) s) (.taskEnq d a) 0 (brings 0)) ∧
        ∀ n, enqCause s' v.b.part x.nc image = some n → LongLeaves s' v k (exec (.taskEnq d a) s) (.taskEnq d a) 0 (brings n))

/-- R231, R232, R233: STEP.begin opens step A+1 with its deadline A ns away where no step is open (D := 0), and otherwise
changes nothing (D := 1 for the same id, 2 for another). STEP.end closes the open step of its id, takes its blocks out of it,
saved ones too, and brings deadline − SR_TIME to D, clamped to ±(2^31 − 1); otherwise D := 0x8000_0000. STEP.slack brings the
open step's slack, deadline − SR_TIME before the first projection and 0 with none, and keeps A as the block's estimate, with
the cycles it has run. -/
def Obligations.StepInstructionsKeepTheContextsStep : Prop :=
  ∀ (s : State) (v : View) (k : Course) (d : RegName) (a : Src) (x : Context), Issuing s v k → v.never = false →
    getCtx s v.b.asid = some x →
    let clamp (n : Int) : Word := BitVec.ofInt 32 (max (-2147483647) (min 2147483647 n))
    let brings (w : Word) (ws : List RegWrite) : Prop := ∀ k0, Written k0 (applyWrites k0 ws) (v.dest d) [(d, fun _ => w)]
    (Unstopped s v (.stepBegin d a) →
      let id := readReg v.k (regPlus a.reg 1) 0
      (x.step = none → LongLeaves
        (setCtx s v.b.asid { x with step := some ⟨id, ((s.now + (readReg v.k a.reg 0).toNat : Nat) : Int), none, false⟩ }) v k
        (exec (.stepBegin d a) s) (.stepBegin d a) 0 (brings 0)) ∧
      ∀ st, x.step = some st →
        LongLeaves s v k (exec (.stepBegin d a) s) (.stepBegin d a) 0 (brings (if st.id = id then 1 else 2))) ∧
    (Unstopped s v (.stepEnd d a) →
      (∀ st, x.step = some st → st.id = readReg v.k a.reg 0 → x.asid = v.b.asid → LongLeaves
        { setCtx s v.b.asid { x with step := none, saved := x.saved.map (fun b => { b with step := none }) } with
          blocks := s.blocks.map (fun e => if e.2.asid = v.b.asid then (e.1, { e.2 with step := none }) else e) } v k
        (exec (.stepEnd d a) s) (.stepEnd d a) 0 (brings (clamp (st.deadline - s.now)))) ∧
      ((∀ st, x.step = some st → st.id ≠ readReg v.k a.reg 0) →
        LongLeaves s v k (exec (.stepEnd d a) s) (.stepEnd d a) 0 (brings 0x80000000))) ∧
    (Unstopped s v (.stepSlack d a) →
      let n := readReg v.k a.reg 0
      LongLeaves (setBlock s v.u.blk { v.b with
          estimate := if n = 0xFFFFFFFF then none else some (n, ranCycles s v.b) }) v k
        (exec (.stepSlack d a) s) (.stepSlack d a) 0 (brings (match x.step with
          | none => 0
          | some st => match st.slack with
            | some w => clamp w
            | none => clamp (st.deadline - s.now))))

/-! ### What ends a course's waits -/

/-- R28, R84, R148, R151, R167, R168, R179, R241, R246, R353: LONG_WRITE_COMPLETE lands the results of a long write, which is
pending no longer, and a path that waited for it goes on; a load that kills lanes lands only at a wait that covers it.
BARRIER_COMPLETE lets every path parked at a full barrier go on, in the next cycle, and empties the barrier. PHASE_WAKE lets a
path go on at its next packet once its word's phase is the target. REMOTE_ACCESS_DONE hands a lane of a path its answer, and
the path goes on when it has all; a store's acknowledgement lets those go on that waited for it; an answer of a device that
was not asked is ignored. A course not chosen for 64 cycles is starved. A stage barrier comes when the transform pipe has
decoded the chunk: it releases the records, or carries the error bit where the chunk does not decode, and wakes the pop that
waits for it; before that it takes the pipe where that is free. Where an event's condition is not met nothing changes. -/
def Obligations.EventsEndTheWaitsOfCourses : Prop :=
  ∀ (s : State) (b c : Nat) (k : Course) (y : Block), getCourse s b c = some k → getBlock s b = some y →
    (∀ id w, k.longs.filter (fun w => w.id = id) = [w] → PureLong w →
      ∃ k', exec (.longWriteComplete b c id) s = .next (setCourse s b c k') ∧ k'.longs = k.longs.filter (fun w => w.id ≠ id) ∧
        k'.waitLongs = k.waitLongs.filter (· ≠ id) ∧ k'.live = k.live ∧
        (∀ r l, readReg k' r l = readReg (applyWrites k w.writes) r l) ∧
        (∀ p, readPred k' p = readPred (applyWrites k w.writes) p) ∧
        ∀ slot p, slot < 2 → getPath k slot = some p → getPath k' slot = some { p with
          pending := p.pending.filter (· ≠ id)
          park := match p.park with
            | .longs ids acks => if ids.all (fun i => !(k'.longs.any (·.id = i))) && acksIn s acks then .running else p.park
            | q => q }) ∧
    (∀ id, (k.longs.all (fun w => w.id ≠ id) = true ∨
        (awaited k id = false ∧ ∃ w ∈ k.longs, w.id = id ∧ longKills k w ≠ 0)) → exec (.longWriteComplete b c id) s = .next s) ∧
    (∀ id : BitVec 4,
      let m := cget 0#32 y.barriers id.toNat
      let full := m ≠ 0 ∧ ∀ n, n < y.courses → ∀ j, getCourse s b n = some j → hasLane m n = true ∨ j.live = 0
      (full → ∃ t, exec (.barrierComplete b id) s = .next t ∧ SameMemory s t ∧ t.turn = lastQuarter ∧
        getBlock t b = some { y with barriers := cset 0#32 y.barriers id.toNat 0 } ∧
        let wake (p : Path) : Path := if p.park = .barrier id.toNat then { p with park := .running } else p
        ∀ n j, n < y.courses → getCourse s b n = some j →
          getCourse t b n = some { j with path0 := j.path0.map wake, path1 := j.path1.map wake }) ∧
      (¬ full → exec (.barrierComplete b id) s = .next s)) ∧
    (∀ (slot : BitVec 1) p, getPath k slot.toNat = some p →
      ∀ addr target, p.park = .phase addr target →
        (phaseOfWord (localWord y addr.toNat) = target →
          exec (.phaseWake b c slot) s = .next (setBlock (setCourse s b c (setPath k slot.toNat
            (some { nextPos p 3 with park := .running }))) b { y with lastProgress := s.now })) ∧
        (phaseOfWord (localWord y addr.toNat) ≠ target → exec (.phaseWake b c slot) s = .next s)) ∧
    (∀ dev id ok poison data,
      let a : RemoteAnswer := ⟨ok, poison, data⟩
      let s1 := { s with remotes := del s.remotes id }
      ((∀ r, find? s.remotes id = some r → r.device ≠ dev) → exec (.remoteAccessDone dev id ok poison data) s = .next s) ∧
      (∀ r slot pos lane p, find? s.remotes id = some r → r.device = dev →
        r.owner = .lane b c slot pos lane → getPath k slot = some p →
        let hs := p.remotes.map (fun h => if h.pos = pos then { h with answers := h.answers ++ [(lane, a)] } else h)
        exec (.remoteAccessDone dev id ok poison data) s = .next (setCourse s1 b c (setPath k slot (some { p with
          remotes := hs, park := if p.park = .remote && hs.all heldComplete then .running else p.park })))) ∧
      ∀ r m n, find? s.remotes id = some r → r.device = dev → r.owner = .store m n →
        ∃ t, exec (.remoteAccessDone dev id ok poison data) s = .next t ∧ t = { s1 with courses := t.courses } ∧ ∃ k', getCourse t b c = some k' ∧
          ∀ slot p, slot < 2 → getPath k slot = some p → getPath k' slot = some (wakeLongs s1 k (wakeCommands s1 p))) ∧
    (64 ≤ k.eligible → exec (.courseStarved b c) s = .next (setCourse s b c { k with starved := true })) ∧
    (∀ g, k.tape.current = some g → g.released = false → g.bad = false → g.discarded = false →
      let wake (opened : Bool) (p : Path) : Path :=
        if (p.park = .stage ∧ opened = true) ∨ (p.park = .tape ∧ unitReady s y.core = true) then { p with park := .running } else p
      let leaves (t : Tape) (opened : Bool) : State :=
        setCourse s b c { k with tape := t, path0 := k.path0.map (wake opened), path1 := k.path1.map (wake opened) }
      let n := chunkCycles (stageBytes g)
      (g.due = none → pipeFree s y.core = true → exec (.tapeStageBarrier b c) s = .next (holdPipe (leaves { k.tape with
        current := some { g with due := some (coreCycle s y.core + n) } } false) y.core n)) ∧
      ∀ d, g.due = some d → d ≤ coreCycle s y.core →
        (∀ seq first trunc rs, decodeChunk g.image g.index g.expect = some (seq, first, trunc, rs) →
          exec (.tapeStageBarrier b c) s = .next (leaves { k.tape with
            released := min 1023 (k.tape.released + 1)
            err := false
            current := some { g with seq := seq, first := first, recs := rs, released := true } } true)) ∧
        (decodeChunk g.image g.index g.expect = none →
          exec (.tapeStageBarrier b c) s =
            .next (leaves { k.tape with err := true, current := some { g with bad := true } } true)))

/-! ### Queues -/

/-- R11, R12: a write to QCREATE or QDESTROY is ignored while the window is closed or a creation or destruction is in progress.
Otherwise QCREATE begins a creation, which ends with STATUS 3 where the ASID is unknown, 1 for a bad descriptor, 2 where no
number is free, and else a queue under the lowest free number (log 24 for that choice), READIDX 0. QDESTROY answers STATUS 3
for a queue that was not created under the ASID, and else stops the queue and discards its packets that have not started, a COOP
launch that has no block placed among them, their counters FREE; once none of its packets runs that can still end, the number is
free, and what is left of its packets is dropped, but for a launch whose blocks are still on a core. -/
def Obligations.QueuesAreCreatedAndDestroyed : Prop :=
  ∀ (s : State) (p : BitVec 3) (v : Double),
    let part := getPart s p
    let asid := BitVec.ofNat 16 (bits v.toNat 63 48)
    let desc := bits v.toNat 47 0
    let q := bits v.toNat 7 0
    let ours (j : Job) : Prop := j.part = p ∧ j.queue = q
    let begun (j : Job) : Prop := j.started = true ∧ ¬ (pkType j.words = 1 ∧ pkCoop j.words = true ∧ j.placed = 0)
    let answers (n : Nat) : State := setPart s p { part with creating := none, qresult := BitVec.ofNat 64 n }
    (windowOpen s p = false ∨ part.creating.isSome = true ∨ part.destroying.isSome = true →
      exec (.qcreate p v) s = .next s ∧ exec (.qdestroy p v) s = .next s) ∧
    (windowOpen s p = true → part.creating = none → part.destroying = none →
      exec (.qcreate p v) s = .next (setPart s p { part with creating := some v }) ∧
      ((∀ k, getQueue s p q = some k → k.asid ≠ asid) →
        exec (.qdestroy p v) s = .next (setPart s p { part with qresult := BitVec.ofNat 64 (3 * 2 ^ 28) })) ∧
      ∀ k, getQueue s p q = some k → k.asid = asid → ∃ t, exec (.qdestroy p v) s = .next t ∧
        getPart t p = { part with destroying := some v } ∧ getQueue t p q = some { k with destroying := true } ∧
        t.jobs = s.jobs.filter (fun e => ¬ (ours e.2 ∧ ¬ begun e.2)) ∧
        (∀ i, (∃ e ∈ s.jobs, ours e.2 ∧ ¬ begun e.2 ∧ e.2.failed = false ∧ e.2.counter = some i) →
          getCounter t i = Counter.free) ∧
        (∀ i, (∀ e ∈ s.jobs, ours e.2 → ¬ begun e.2 → e.2.failed = false → e.2.counter ≠ some i) →
          getCounter t i = getCounter s i) ∧ SameMemory s t) ∧
    (part.creating = some v →
      let good (w : Nat) : Prop := desc % 64 = 0 ∧ bits w 63 0 % 4096 = 0 ∧ 4 ≤ bits w 68 64 ∧ bits w 68 64 ≤ 16 ∧
        bits w 127 69 = 0 ∧ bits w 255 192 = 0 ∧ bits w 511 256 = 0
      (partCtx s p asid = none → exec (.queueCreationDone p) s = .next (answers (3 * 2 ^ 28))) ∧
      ((partCtx s p asid).isSome = true →
        let u := hubTouch s asid desc 64
        let answers (n : Nat) : State := setPart u p { part with creating := none, qresult := BitVec.ofNat 64 n }
        ((∀ bs, hubRead u asid desc 64 = some (bs, false) → ¬ good (natOfBytes bs)) →
          exec (.queueCreationDone p) s = .next (answers (1 * 2 ^ 28))) ∧
        ∀ bs, hubRead u asid desc 64 = some (bs, false) → good (natOfBytes bs) →
          ((∀ n, n < 256 → (getQueue s p n).isSome = true) → exec (.queueCreationDone p) s = .next (answers (2 * 2 ^ 28))) ∧
          ∀ n, n < 256 → getQueue s p n = none → (∀ m, m < n → (getQueue s p m).isSome = true) →
            exec (.queueCreationDone p) s = .next (setQueue (answers n) p n
              { asid := asid, desc := BitVec.ofNat 64 desc, ring := BitVec.ofNat 64 (bits (natOfBytes bs) 63 0),
                log2 := bits (natOfBytes bs) 68 64, readIdx := 0, notify := 0, halted := false, destroying := false,
                stopped := false, waiting := none }))) ∧
    (part.destroying = some v →
      let lives (j : Job) : Prop := pkType j.words = 2 ∨ pkType j.words = 3 ∨ (pkType j.words = 1 ∧ j.doneBlocks = pkBlocks j.words) ∨
        ∃ x, getCtx s j.asid = some x ∧ ctxAlive x = true
      let runs : Prop := ∃ e ∈ s.jobs, ours e.2 ∧ e.2.started = true ∧ e.2.completed = false ∧ e.2.failed = false ∧ lives e.2
      (runs → exec (.queueDestroyDone p) s = .next s) ∧
      (¬ runs → ∃ t, exec (.queueDestroyDone p) s = .next t ∧ getPart t p = { part with destroying := none, qresult := BitVec.ofNat 64 q } ∧
        getQueue t p q = none ∧ (∀ n, n < 256 → n ≠ q → getQueue t p n = getQueue s p n) ∧
        t.jobs = s.jobs.filterMap (fun e => if ours e.2 ∧ e.2.completed = false then
          (if jobHeld s e.1 then some (e.1, { e.2 with completed := true }) else none) else some e) ∧ SameMemory s t))

/-- R15, R16, R32, R40: a NOTIFY write that is below the largest, or for a queue that is halted, being destroyed or not open,
is ignored. One above READIDX + 2^LOG2SLOTS halts the queue with OVERRUN. Any other is the largest now, and a slot below it
at which consumption stands, or a WAIT of the queue, is taken up again. Consuming a slot stops at one without VALID, whatever else
is wrong with it. Else it halts the queue with XLATE, POISON or the packet's cause and consumes nothing, or clears VALID in the
slot, stores READIDX + 1 and admits the packet, whose own counter then is armed with its initial count added. What a read of the
slot finds is said of the state after the memory part has served it. -/
def Obligations.QueuesAreNotifiedAndConsumed : Prop :=
  ∀ (s : State) (p : BitVec 3) (q : BitVec 8) (k : Queue) (x : Context), getQueue s p q.toNat = some k →
    getCtx s k.asid = some x →
    (∀ v : Double,
      let ready : Prop := windowOpen s p = true ∧ resetting s p = false ∧ k.halted = false ∧ k.destroying = false ∧ ctxAlive x = true
      (¬ ready ∨ v.toNat < k.notify → exec (.notifyWrite p q v) s = .next s) ∧
      (ready → k.notify ≤ v.toNat →
        (k.readIdx + 2 ^ k.log2 < v.toNat → ∃ t, exec (.notifyWrite p q v) s = .next t ∧
          QueueHalts s t p k.asid q.toNat (v.toNat % 2 ^ 32) 0x0A) ∧
        (v.toNat ≤ k.readIdx + 2 ^ k.log2 → ∃ t, exec (.notifyWrite p q v) s = .next t ∧
          getQueue t p q.toNat = some { k with notify := v.toNat, stopped := k.stopped && decide (v.toNat ≤ k.readIdx) } ∧
          (∀ i, getJob t i = if k.waiting = some i then (getJob s i).map (fun j => { j with retest := true }) else getJob s i) ∧
          SameMemory s t))) ∧
    (consumable s k = false → exec (.consumeSlot p q) s = .next s) ∧
    (consumable s k = true →
      let slot := k.ring.toNat + 128 * (k.readIdx % 2 ^ k.log2)
      let u := hubTouch s k.asid slot 4
      (∀ bs, hubRead u k.asid slot 4 = some (bs, false) → bitAt (natOfBytes bs) 31 = false →
        exec (.consumeSlot p q) s = .next (setQueue u p q.toNat { k with stopped := true })) ∧
      ((∀ bs, hubRead u k.asid slot 4 = some (bs, false) → bitAt (natOfBytes bs) 31 = true) →
        let halts (r : State) (n : Nat) : Prop := ∃ t, exec (.consumeSlot p q) s = .next t ∧ QueueHalts r t p k.asid q.toNat k.readIdx n
        let open_ : Prop := accessible u k.asid slot true = true ∧ accessible u k.asid (k.desc.toNat + 0x18) true = true
        let w := hubTouch u k.asid slot 128
        (¬ open_ → halts u 0x07) ∧ (open_ → hubRead w k.asid slot 128 = none → halts w 0x07) ∧
        ∀ bs b, open_ → hubRead w k.asid slot 128 = some (bs, b) →
          (b = true → halts w 0x0B) ∧
          (b = false →
            let words := bytesToWords bs
            (∀ n, packetCause w p x.nc words = some n → halts w n) ∧
            let s1 := hubWrite (hubWrite w k.asid slot (bytesOfNat 4 (pw words 0 % 2 ^ 31))) k.asid (k.desc.toNat + 0x18)
              (bytesOfNat 8 (k.readIdx + 1))
            let own := if (pkType words = 1 ∨ pkType words = 2) ∧ pw words 16 ≠ 0xFFFFFFFF then
              some (ctrBase (getPart s p) + pw words 16) else none
            (packetCause w p x.nc words = none → (∀ i, own = some i → 0 ≤ (getCounter s i).value + (pw words 17 : Int)) →
              ∃ t j, exec (.consumeSlot p q) s = .next t ∧ t.dev = s1.dev ∧ t.hostMem = s1.hostMem ∧
                getQueue t p q.toNat = some { k with readIdx := k.readIdx + 1, waiting := if pkType words = 4 then some s1.nextId else none } ∧
                getJob t s1.nextId = some j ∧ (∀ i, i ≠ s1.nextId → getJob t i = getJob s i) ∧
                (j.part = p ∧ j.queue = q.toNat ∧ j.idx = k.readIdx ∧ j.asid = k.asid ∧ j.words = words ∧ j.counter = own ∧
                  j.started = false ∧ j.completed = false ∧ j.failed = false) ∧
                ∀ i, getCounter t i = if own = some i then ⟨true, (getCounter s i).value + (pw words 17 : Int), k.asid⟩ else getCounter s i))))

/-- R17, R37, R40, R41, R44, R45: a packet starts when its BARRIER and counter let it; a launch takes ENTRY, SIZE and the code
from its header, and is refused for a header that cannot be read, is poisoned or fails R37. A WAIT tests each entry it has not
met; it completes and frees its queue when all are at or below their limits, and otherwise keeps what it has met; a retest
happens only after an event that R45 names, among them the timer of 10 us. A header or a signal in the fabric window is asked
for (log 21), and the answer ends the start or the test in the same way. -/
def Obligations.PacketsStartAndWait : Prop :=
  ∀ (s : State) (id : Nat) (j : Job), getJob s id = some j →
    let local_ (u : State) (va : Nat) : Prop := ∀ d r a, translate u j.asid va ≠ .fabric d r a
    let starts (u : State) (i : Instr) (j' : Job) (bs : List Byte) (poison : Bool) : Prop :=
      (poison = true → ∃ t, exec i s = .next t ∧ PacketRefused u t id j' 0x0B) ∧
      (poison = false → headerOk (bytesToWords bs) j.words = false → ∃ t, exec i s = .next t ∧ PacketRefused u t id j' 0x06) ∧
      (poison = false → headerOk (bytesToWords bs) j.words = true → exec i s = .next (setJob u id { j' with
        entry := pw (bytesToWords bs) 2 / 16 * 16, size := pw (bytesToWords bs) 3,
        code := snapshot u j.asid (jobCode j) (pw (bytesToWords bs) 3) }))
    let ends (u : State) (i : Instr) (j' : Job) : Prop := (∀ x, getCtx s j.asid = some x → x.destroying = false) →
      ∃ t, exec i s = .next t ∧ PacketCompletes u t id { j' with asking := false } ∧
        ∀ k, getQueue s j.part j.queue = some k → getQueue t j.part j.queue = some { k with waiting := none }
    let n := bits (pw j.words 2) 2 0
    let sig (e : Nat) : Nat := word64 j.words (4 + 4 * e)
    let below (e : Nat) (bs : List Byte) : Bool :=
      decide ((BitVec.ofNat 64 (natOfBytes bs)).toInt ≤ (BitVec.ofNat 64 (word64 j.words (6 + 4 * e))).toInt)
    (packetStartable s j = false → exec (.packetStart id) s = .next s) ∧
    (packetStartable s j = true →
      let j' := { j with started := true, release := s.now }
      let u := hubTouch s j.asid (jobCode j) 64
      (pkType j.words ≠ 1 → exec (.packetStart id) s = .next (setJob s id j')) ∧
      (pkType j.words = 1 →
        (∀ d r a, translate u j.asid (jobCode j) = .fabric d r a → exec (.packetStart id) s =
          .next (askRemote (setJob u id { j' with started := false, asking := true }) (.header id) d r a (.load 64) [])) ∧
        (local_ u (jobCode j) →
          (hubRead u j.asid (jobCode j) 64 = none → ∃ t, exec (.packetStart id) s = .next t ∧ PacketRefused u t id j' 0x07) ∧
          ∀ bs b, hubRead u j.asid (jobCode j) 64 = some (bs, b) → starts u (.packetStart id) j' bs b))) ∧
    (pkType j.words = 4 → j.completed = false → j.failed = false → j.asking = false → ∀ i : Instr,
      (i = .waitPacket id ∧ j.started = true ∧ j.tested = false) ∨ (i = .waitRetest id ∧ j.tested = true ∧ j.retest = true) →
      let u := (List.range n).foldl (fun t e => hubTouch t j.asid (sig e) 8) s
      let reads (e : Nat) (b : Bool) : Prop := local_ u (sig e) ∧ ∃ bs, hubRead u j.asid (sig e) 8 = some (bs, false) ∧ b = below e bs
      let asks (e : Nat) : Prop := ∃ d r a, translate u j.asid (sig e) = .fabric d r a
      let good (e : Nat) : Prop := e ∈ j.met ∨ (∃ b, reads e b) ∨ asks e
      (∀ e c, e < n → e ∉ j.met → (∀ m, m < e → good m) → local_ u (sig e) →
        (c = 0x07 ∧ hubRead u j.asid (sig e) 8 = none) ∨ (c = 0x0B ∧ ∃ bs, hubRead u j.asid (sig e) 8 = some (bs, true)) →
        ∃ t, exec i s = .next t ∧ PacketRefused u t id j c) ∧
      ((∀ e, e < n → good e) → ∃ l, (∀ e, e ∈ l ↔ e ∈ j.met ∨ (e < n ∧ reads e true)) ∧
        let j' (b : Bool) : Job := { j with tested := true, retest := false, met := l, asking := b }
        let far := (List.range n).filter (fun e => match translate u j.asid (sig e) with
          | .fabric .. => !l.contains e
          | _ => false)
        let ask (t : State) (e : Nat) : State := match translate u j.asid (sig e) with
          | .fabric d r a => askRemote t (.wait id e) d r a (.load 8) []
          | _ => t
        ((∀ e, e < n → e ∈ l) → ends u i (j' false)) ∧
        ((∃ e, e < n ∧ e ∉ l) → exec i s = .next (far.foldl ask (setJob u id (j' (!far.isEmpty))))))) ∧
    (s.nextPoll ≤ s.now → exec .waitPollTimer s = .next { s with
      nextPoll := s.nextPoll + 10000
      jobs := s.jobs.map (fun e =>
        if pkType e.2.words = 4 ∧ e.2.started = true ∧ e.2.completed = false then (e.1, { e.2 with retest := true }) else e) }) ∧
    ∀ rid r ok poison data, find? s.remotes rid = some r → j.asking = true → j.completed = false → j.failed = false →
      let i : Instr := .remoteAccessDone r.device rid ok poison data
      let s1 := { s with remotes := del s.remotes rid }
      let refused (j' : Job) (n : Nat) : Prop := ∃ t, exec i s = .next t ∧ PacketRefused s1 t id j' n
      (r.owner = .header id →
        let j' := { j with started := true, asking := false, release := s.now }
        (ok = false → refused j' 0x07) ∧ (ok = true → starts s1 i j' (fitBytes 64 data) (!poison.isEmpty))) ∧
      ∀ e, r.owner = .wait id e → pkType j.words = 4 →
        (ok = false → refused j 0x07) ∧ (ok = true → poison ≠ [] → refused j 0x0B) ∧
        (ok = true → poison = [] →
          let l := if below e (fitBytes 8 data) = true ∧ e ∉ j.met then e :: j.met else j.met
          let j' := { j with met := l, asking := s1.remotes.any (fun x => match x.2.owner with
            | .wait k _ => k == id
            | _ => false) }
          ((∀ e, e < n → e ∈ l) → ends s1 i j') ∧ ((∃ e, e < n ∧ e ∉ l) → exec i s = .next (setJob s1 id j')))

/-- R17, R18, R41, R43, R46: a started SIGNAL stores, adds or subtracts its operand at its home as one update, and completes. A
COPY moves its bytes in units that cross no sector pair of the destination and no page of the source (log 22); one unit is stated
byte for byte, from its source, from its fill words or from what a remote device has brought, and the last of them completes the
packet. A launch whose blocks are all done, whose stores are performed and whose commands have ended subtracts 1 from its signal,
where it names one, and completes. Each completion frees the packet's counter and counts its successors down. What lies in the
fabric window is asked for, and the answer goes on in the same way. Stated where no update raises COUNTER and the context is not
being destroyed. -/
def Obligations.SignalsCopiesAndLaunchesComplete : Prop :=
  ∀ (s : State) (id : Nat) (j : Job), getJob s id = some j → j.started = true → j.completed = false → j.failed = false →
    SuccessorsCount s j → (∀ x, getCtx s j.asid = some x → x.destroying = false) →
    let waits (e : Nat × Job) : Nat × Job :=
      if e.2.part = j.part ∧ pkType e.2.words = 4 ∧ e.2.started = true ∧ e.2.completed = false then (e.1, { e.2 with retest := true }) else e
    let updates (u : State) (i : Instr) (va : Nat) (op : RemoteOp) (f : Double → Double) : Prop :=
      (∀ d, translate u j.asid va = .page d → ∃ t, exec i s = .next t ∧ PacketRefused u t id j 0x07) ∧
      (∀ d r a, translate u j.asid va = .fabric d r a →
        exec i s = .next (setJob (askRemote u (.signal id) d r a op []) id { j with asking := true })) ∧
      ∀ h g, translate u j.asid va = .mem h g → (∀ a r w, h ≠ .fabric a r w) →
        (g.write = false → ∃ t, exec i s = .next t ∧ PacketRefused u t id j 0x07) ∧
        (g.write = true →
          let w := homeTouch u h
          (homePoisoned w h 8 = true → ∃ r t, exec i s = .next t ∧ PacketCompletes w r id j ∧
            QueueHalts r t j.part j.asid j.queue j.idx 0x0B) ∧
          (homePoisoned w h 8 = false → allGood w = true → ∃ s1 t, exec i s = .next t ∧
            StoredAt w s1 h (bytesOfNat 8 (f (BitVec.ofNat 64 (natOfBytes (homeBytes w h 8)))).toNat) ∧ s1.jobs = s.jobs.map waits ∧
            OnlyMemory w { s1 with jobs := s.jobs } ∧ PacketCompletes s1 t id j))
    (pkType j.words = 3 → j.asking = false → ∀ op, bits (pw j.words 6) 1 0 = op →
      let x := BitVec.ofNat 64 (word64 j.words 4)
      updates (touchWalk s j.asid (word64 j.words 2)) (.signalPacket id) (word64 j.words 2) (if op = 0 then .storeWide x else .addWide (if op = 1 then x else 0 - x))
        (fun old => if op = 0 then x else if op = 1 then old + x else old - x)) ∧
    (pkType j.words = 1 → j.asking = false → j.doneBlocks = pkBlocks j.words →
      let u := drainJob s id
      let held : Prop := (∃ e ∈ u.remotes, ∃ m, e.2.owner = .store m id) ∨
        ∃ e ∈ u.commands, ∃ b, getBlock u e.2.blk = some b ∧ b.job = id ∧ coursesEnded u e.2.blk b = true
      (held → exec (.launchComplete id) s = .next u) ∧
      (¬ held → word64 j.words 22 = 0 → ∃ t, exec (.launchComplete id) s = .next t ∧ PacketCompletes u t id j) ∧
      (¬ held → word64 j.words 22 ≠ 0 →
        updates (touchWalk u j.asid (word64 j.words 22)) (.launchComplete id) (word64 j.words 22) (.addWide (0 - 1)) (fun old => old - 1))) ∧
    (pkType j.words = 1 → j.doneBlocks ≠ pkBlocks j.words → exec (.launchComplete id) s = .next s) ∧
    (pkType j.words = 2 → j.asking = false → word64 j.words 22 = 0 → j.copied = copyLength j.words →
      ∃ t, exec (.copyPacket id) s = .next t ∧ PacketCompletes s t id { j with brought := none }) ∧
    (pkType j.words = 2 → j.asking = false → word64 j.words 22 = 0 → j.copied < copyLength j.words →
      let at_ := j.copied
      let n := copyLength j.words - at_
      let src := word64 j.words 2 + at_
      let dst := word64 j.words 4 + at_
      n ≤ 64 - dst % 64 → n ≤ 65536 - src % 65536 →
      let fill : Prop := bits (pw j.words 8) 1 0 = 1
      let u := touchWalk (if bits (pw j.words 8) 1 0 = 1 then s else hubTouch s j.asid src n) j.asid dst
      let brings (bs : List (Poi Byte)) : Prop :=
        (fill ∧ bs = (List.range n).map (fun i => (BitVec.ofNat 8 (pw j.words 9 / 2 ^ (8 * ((at_ + i) % 4))), false))) ∨
        (¬ fill ∧ ∃ a, j.brought = some a ∧ a.ok = true ∧ bs = answerPois n a) ∨
        (¬ fill ∧ j.brought = none ∧ ∃ h g, translate u j.asid src = .mem h g ∧ bs = homePois u h n)
      let refused : Prop := ∃ t, exec (.copyPacket id) s = .next t ∧ PacketRefused u t id j 0x07
      let asked (t : State) (k : Nat) : Prop :=
        exec (.copyPacket id) s = .next (setJob t id { j with copied := k, asking := true, brought := none })
      (¬ fill → j.brought = none → (∀ d, translate u j.asid src = .page d → refused) ∧
        ∀ d r a, translate u j.asid src = .fabric d r a → asked (askRemote u (.copyRead id) d r a (.load n) []) at_) ∧
      ∀ bs, brings bs →
        (∀ d, translate u j.asid dst = .page d → refused) ∧
        (∀ d r a, translate u j.asid dst = .fabric d r a →
          asked (askRemote u (.copyWrite id) d r a (.store (bs.zipIdx.filterMap (fun e => if e.1.2 then some e.2 else none)))
            (bs.map (·.1))) (copyLength j.words)) ∧
        ∀ h g, translate u j.asid dst = .mem h g → (g.write = false → refused) ∧
          (g.write = true → ∃ t, exec (.copyPacket id) s = .next t ∧
            PacketCompletes (putGlobal u j.asid (bs.zipIdx.map (fun e => (homeAdd h e.2, e.1)))) t id
              { j with copied := copyLength j.words, brought := none })) ∧
    ∀ rid r ok poison data, find? s.remotes rid = some r → j.asking = true →
      let i : Instr := .remoteAccessDone r.device rid ok poison data
      let s1 := { s with remotes := del s.remotes rid }
      let j1 := { j with asking := false }
      (r.owner = .copyRead id ∨ r.owner = .copyWrite id →
        (ok = false → ∃ t, exec i s = .next t ∧ PacketRefused s1 t id j1 0x07) ∧
        (ok = true → exec i s = .next (setJob s1 id { j1 with
          brought := if r.owner = .copyRead id then some ⟨ok, poison, data⟩ else none }))) ∧
      (r.owner = .signal id →
        (ok = false → ∃ t, exec i s = .next t ∧ PacketRefused s1 t id j1 0x07) ∧
        (ok = true → poison ≠ [] → ∃ q t, exec i s = .next t ∧ PacketCompletes s1 q id j1 ∧
          QueueHalts q t j.part j.asid j.queue j.idx 0x0B) ∧
        (ok = true → poison = [] → ∃ t, exec i s = .next t ∧ PacketCompletes { s1 with jobs := s1.jobs.map waits } t id j1))

/-! ### Launches and blocks -/

/-- R35, R38, R39, R229, R236, R237, R238, R303: a launch first in its ready order counts its time there and holds after 100
us. The next block of a launch without COOP goes, whole, on the core that the distributor takes: its courses stand at ENTRY
with their lanes, stack slots and argument record, and with nothing in their vector and predicate registers. The fresh blocks
go in ascending grid index (log 62), and then those that a replay has sent back. A block all of whose courses and commands
have ended leaves its core with its local store left behind, and its context is charged the metered energy; one that is
replayed waits to be placed again. The oldest entry of a submission list is taken, refused for the cause that its checks find
or admitted with its counter armed. -/
def Obligations.BlocksArePlacedAndLeave : Prop :=
  ∀ s : State,
    (∀ id j, getJob s id = some j →
      let first := (readyOrder s j.part).head?.map (·.1)
      (first ≠ some id → exec (.launchHolding id) s =
        .next (setJob s id { j with firstSince := none, holding := j.holding && pendingLaunch s id j })) ∧
      (first = some id → j.firstSince = none → exec (.launchHolding id) s = .next (setJob s id { j with firstSince := some s.now })) ∧
      (∀ n, first = some id → j.firstSince = some n → exec (.launchHolding id) s =
        .next (if n + 100000 ≤ s.now then setJob s id { j with holding := true } else s)) ∧
      (¬ (∃ e ∈ upToHolding (readyOrder s j.part), e.1 = id) → exec (.blockPlace id) s = .next s) ∧
      ((∃ e ∈ upToHolding (readyOrder s j.part), e.1 = id) → savedOf s id j = [] → pkCoop j.words = false →
        pkCourses j.words ≤ 32 →
        ∀ x, getCtx s j.asid = some x →
        (chooseCore s j = none ∨ freeSlots s x (pkCourses j.words) = none → exec (.blockPlace id) s = .next s) ∧
        ∀ m slots, chooseCore s j = some m → freeSlots s x (pkCourses j.words) = some slots →
          let starts (placed index replays : Nat) (waiting : List Waiting) : Prop := ∃ t b, exec (.blockPlace id) s = .next t ∧
            getJob t id = some { j with placed := placed, holding := false, firstSince := none } ∧ t.waitingBlocks = waiting ∧
            getBlock t s.nextId = some b ∧ (∀ i, i ≠ s.nextId → getBlock t i = getBlock s i) ∧
            (b.core = m ∧ b.job = id ∧ b.asid = j.asid ∧ b.index = index ∧ b.replays = replays ∧ b.courses = pkCourses j.words ∧
              b.team = pkTeam j.words ∧ b.alloc = pkAlloc j.words ∧ b.barriers = [] ∧ b.done = false ∧
              b.bx = BitVec.ofNat 32 (index % pw j.words 6) ∧
              b.byy = BitVec.ofNat 32 (index / pw j.words 6 % pw j.words 7) ∧
              b.bz = BitVec.ofNat 32 (index / (pw j.words 6 * pw j.words 7))) ∧
            (∀ n, n < pkCourses j.words → ∃ k, getCourse t s.nextId n = some k ∧ k.live = (courseLanes j.words n).1 ∧
              k.helper = (courseLanes j.words n).2 ∧ k.role = courseRole j.words n ∧ k.budget = courseBudget j.words n ∧
              k.stackSlot = slots.getD n 0 ∧ k.depth = 0 ∧ k.vregs = [] ∧ k.preds = [] ∧
              (∀ r, r < 8 → cget 0#32 k.sregs r = (argRecord (word64 j.words 4)).getD r 0) ∧
              k.path0 = some (newPath (BitVec.ofNat 64 (jobCode j + j.entry)) 0 k.live 0 none []) ∧ k.path1 = none) ∧
            (∀ b' n, b' ≠ s.nextId → n < 32 → getCourse t b' n = getCourse s b' n) ∧ t.dev = s.dev ∧ t.hostMem = s.hostMem
          (j.placed < pkBlocks j.words → starts (j.placed + 1) j.placed 0 s.waitingBlocks) ∧
          (pkBlocks j.words ≤ j.placed → (s.waitingBlocks.find? (fun w => w.job = id) = none → exec (.blockPlace id) s = .next s) ∧
            ∀ w, s.waitingBlocks.find? (fun w => w.job = id) = some w →
              starts j.placed w.index w.replays (s.waitingBlocks.erase w)))) ∧
    (∀ blk b, getBlock s blk = some b →
      (blockEnded s blk b = false → exec (.blockLeave blk) s = .next s) ∧
      (blockEnded s blk b = true → ∃ t, exec (.blockLeave blk) s = .next t ∧ getBlock t blk = none ∧
        (∀ i, i ≠ blk → getBlock t i = getBlock s i) ∧ (∀ n, n < 32 → getCourse t blk n = none) ∧
        (getCore t b.core).left = some (b.asid, b.localMem) ∧ (getCore t b.core).stores = [] ∧
        t.dev = (drainCore s b.core).dev ∧ t.hostMem = (drainCore s b.core).hostMem ∧
        (b.replaying = true → t.waitingBlocks = s.waitingBlocks ++ [⟨b.job, b.index, b.replays + 1, b.replayAt⟩] ∧ t.jobs = s.jobs) ∧
        (b.replaying = false → t.waitingBlocks = s.waitingBlocks ∧
          (∀ x, getCtx s b.asid = some x →
            getCtx t b.asid = some { x with energy := (x.energy + Config.meteredEnergy s.fresh) % 2 ^ 64 }) ∧
          ∀ j, getJob s b.job = some j → j.completed = false → ∃ j', getJob t b.job = some j' ∧
            j' = { j with kappaNum := j'.kappaNum, kappaDen := j'.kappaDen }))) ∧
    (∀ asid x n words rest, getCtx s asid = some x → x.subs = (n, words) :: rest →
      (ctxAlive x = false ∨ x.subHalted = true ∨ resetting s x.part = true → exec (.submissionTake asid) s = .next s) ∧
      (ctxAlive x = true → x.subHalted = false → resetting s x.part = false →
        let s0 := wakeSubmissions (setCtx s asid { x with subs := rest }) asid
        let own := if (pkType words = 1 ∨ pkType words = 2) ∧ pw words 16 ≠ 0xFFFFFFFF then
          some (ctrBase (getPart s x.part) + pw words 16) else none
        (∀ c, packetCause s x.part x.nc words = some c → ∃ t, exec (.submissionTake asid) s = .next t ∧
          QueueHalts s0 t x.part asid 256 n c) ∧
        (packetCause s x.part x.nc words = none → (∀ i, own = some i → 0 ≤ (getCounter s i).value + (pw words 17 : Int)) →
          ∃ t j, exec (.submissionTake asid) s = .next t ∧ getCtx t asid = some { x with subs := rest } ∧
            getJob t s.nextId = some j ∧ (∀ i, i ≠ s.nextId → getJob t i = getJob s i) ∧
            (j.part = x.part ∧ j.queue = 256 ∧ j.idx = n ∧ j.asid = asid ∧ j.words = words ∧ j.counter = own ∧ j.started = false) ∧
            (∀ i, getCounter t i = if own = some i then ⟨true, (getCounter s i).value + (pw words 17 : Int), asid⟩ else getCounter s i) ∧
            t.courses = s0.courses ∧ SameMemory s t)))

/-! ### The window's registers of counters, contexts and translations -/

/-- R305, R343, R395, R396, R397: CSEL samples the counter that it names into CVIEW, and with CLEAR frees it where it is FREE or
its owner's context has gone or taken COUNTER, or sets REFUSED. ACSEL samples the six counters of a context of the partition, or
zeros for another. XINV shows BUSY until it is done, and no L1 keeps a line of the pages that it withdraws from a context of the
partition; it is done when no course of the context holds a remote access through them, and then no store of it is pending.
CCREATE begins a creation; it ends with STATUS 1 for a bad descriptor, 2 for a used ASID and 3 for a full partition, and
else with the context that the descriptor describes, running, its counters zero and nothing of an earlier context of its ASID left
in a local store. The lifetime counts go to the NVS once a minute. A closed window changes
nothing. -/
def Obligations.TheWindowsRegistersAct : Prop :=
  ∀ (s : State) (p : BitVec 3) (v : Double),
    let part := getPart s p
    let i := bits v.toNat 31 0
    let c := getCounter s (ctrBase part + i)
    let asid := BitVec.ofNat 16 (bits v.toNat 63 48)
    let shows (st refused value : Nat) : State :=
      setPart s p { part with cview := BitVec.ofNat 64 (st * 2 ^ 62 + refused * 2 ^ 61 + value) }
    let state : Nat := if c.armed = false then 0 else if c.value = 0 then 2 else 1
    let old := b2n (part.cview.getLsbD 61)
    (windowOpen s p = false → exec (.csel p v) s = .next s ∧ exec (.cselClear p v) s = .next s ∧ exec (.acsel p v) s = .next s ∧
      exec (.xinv p v) s = .next s ∧ exec (.ccreate p v) s = .next s) ∧
    (windowOpen s p = true →
      (v.getLsbD 32 = false →
        (i < ctrCount part → exec (.csel p v) s = .next (shows state old (c.value % 131072).toNat)) ∧
        (ctrCount part ≤ i → exec (.csel p v) s = .next (shows 3 old 0))) ∧
      (v.getLsbD 32 = true →
        let free : Prop := c.armed = false ∨ ∀ x, getCtx s c.owner = some x → ctxAlive x = false
        (ctrCount part ≤ i → exec (.cselClear p v) s = .next (shows 3 1 0)) ∧
        (i < ctrCount part → (free → exec (.cselClear p v) s =
          .next (setCounter (shows state 0 (c.value % 131072).toNat) (ctrBase part + i) ⟨false, 0, 0⟩)) ∧
          (¬ free → exec (.cselClear p v) s = .next (shows state 1 (c.value % 131072).toNat)))) ∧
      (∀ x, partCtx s p (BitVec.ofNat 16 (bits v.toNat 15 0)) = some x →
        let n := (find? s.traffic x.asid.toNat).getD ⟨0, 0, 0, 0, 0⟩
        exec (.acsel p v) s = .next (setPart s p { part with acsel :=
          [n.fills % 2 ^ 64, n.shared % 2 ^ 64, n.writeBacks % 2 ^ 64, n.reads % 2 ^ 64, n.writes % 2 ^ 64, x.energy % 2 ^ 64] })) ∧
      (partCtx s p (BitVec.ofNat 16 (bits v.toNat 15 0)) = none →
        exec (.acsel p v) s = .next (setPart s p { part with acsel := [0, 0, 0, 0, 0, 0] })) ∧
      (partCtx s p asid = none → exec (.xinv p v) s = .next (setPart s p { part with xinv := some v })) ∧
      ((partCtx s p asid).isSome = true → ∃ t, exec (.xinv p v) s = .next t ∧ getPart t p = { part with xinv := some v } ∧
        (∀ m, (getCore t m).l1 = (getCore s m).l1.filter (fun x => ¬ (x.asid = asid ∧ (bits v.toNat 15 0 = 0 ∨
          bits v.toNat 47 16 ≤ x.line / 512 ∧ x.line / 512 < bits v.toNat 47 16 + bits v.toNat 15 0)))) ∧
        (∀ m, (getCore t m).stores = (getCore s m).stores) ∧ SameMemory s t) ∧
      (resetting s p = true ∨ part.ccreating.isSome = true → exec (.ccreate p v) s = .next s) ∧
      (resetting s p = false → part.ccreating = none →
        exec (.ccreate p v) s = .next (setPart s p { part with ccreating := some v }))) ∧
    (part.xinv = none → exec (.xinvDone p) s = .next s) ∧
    (part.xinv = some v →
      let inUse : Prop := ∃ e ∈ s.courses, ∃ y, getBlock s (e.1 / 32) = some y ∧ y.asid = asid ∧
        ∃ q, (e.2.path0 = some q ∨ e.2.path1 = some q) ∧ heldWithdrawn v q = true
      (inUse → exec (.xinvDone p) s = .next s) ∧
      (¬ inUse → partCtx s p asid = none → exec (.xinvDone p) s = .next (setPart s p { part with xinv := none })) ∧
      (¬ inUse → (partCtx s p asid).isSome = true → ∃ t, exec (.xinvDone p) s = .next t ∧ getPart t p = { part with xinv := none } ∧
        OnlyMemory s { t with partitions := s.partitions } ∧
        ∀ m, ∀ x ∈ (getCore t m).stores, ∀ y, getBlock s x.blk = some y → y.asid ≠ asid)) ∧
    (part.ccreating = some v →
      let pa := bits v.toNat 47 0
      let bs := homeBytes s (.host pa) 64
      let answers (n : Nat) : State := setPart s p { part with ccreating := none, cresult := BitVec.ofNat 64 (n * 2 ^ 28) }
      let sound : Prop := bits v.toNat 63 48 = 0 ∧ pa % 64 = 0 ∧ homePoisoned s (.host pa) 64 = false
      (¬ sound ∨ readContext part p bs = none → exec (.contextCreationDone p) s = .next (answers 1)) ∧
      (sound → ∀ x, readContext part p bs = some x →
        let n := (s.contexts.filter (fun e => e.2.part = p ∧ ctxGone s e.2 = false)).length
        (∀ y, getCtx s x.asid = some y → ctxGone s y = false → exec (.contextCreationDone p) s = .next (answers 2)) ∧
        ((∀ y, getCtx s x.asid = some y → ctxGone s y = true) →
          (64 ≤ n → exec (.contextCreationDone p) s = .next (answers 3)) ∧
          (n < 64 → ∃ t, exec (.contextCreationDone p) s = .next t ∧
            t = setCtx { answers 0 with cores := t.cores, traffic := del s.traffic x.asid.toNat } x.asid x ∧
            (∀ m, getCore t m = { getCore s m with left := match (getCore s m).left with
              | some (a, l) => if a = x.asid then none else some (a, l)
              | none => none }) ∧ x.state = .running ∧ x.part = p ∧
            x.asid = BitVec.ofNat 16 (bits (natOfBytes bs) 15 0) ∧ x.depth = bits (natOfBytes bs) 23 16 ∧
            x.nc = bits (natOfBytes bs) 47 32 ∧ x.faults = [] ∧ x.subs = [] ∧ x.energy = 0)))) ∧
    (s.now < s.nextFlush → exec .counterFlush s = .next s) ∧
    (s.nextFlush ≤ s.now → exec .counterFlush s = .next { s with nvsCounts := s.chanCounts, nextFlush := s.nextFlush + 60000000000 })

/-! ### Contexts -/

/-- R374, R388, R389, R390: a CTXCTL write names its context in CTXSTAT and acts by its OP. HALT stops every live course of a
context that runs, is being saved, or was saved for pre-emption: it is halting and then halted, but for a save that the host
asked for, which goes on (or the context is removed, where its trap ring cannot be written, R364). STEP lets each halted
course issue one unit. RESUME lets a halted context run, or be restored, and gives one that the host saved back to the
scheduler; what goes on after a halt fetches its packet again. SAVE begins a save, or makes one that is under way the host's.
REMOVE, and PGDONE with ABORT, take the lanes out of every course of the context, discard its commands that have not begun,
raise ERRVEC and leave it removed. DESTROY also empties its submission list and discards its packets that will not complete.
PGDONE closes the fault and the path parked on it goes on. HALT, RESUME and SAVE are stated for a context with no long write
pending and no path that waits for a command of its own or a remote device. -/
def Obligations.TheHostControlsContexts : Prop :=
  ∀ (s : State) (p : BitVec 3) (v : Double) (x : Context),
    let a := asidField v
    let op := bits v.toNat 3 0
    let s0 := setPart s p { getPart s p with ctxsel := a }
    let changes (i : Instr) (x' : Context) (lost : Prop) (f : Course → Course) : Prop := ∃ t y, exec i s = .next t ∧ getCtx t a = some y ∧
      (y = x' ∨ (lost ∧ y.state = .removed)) ∧
      (y = x' → ∀ b z c, getBlock s b = some z → z.asid = a → c < 32 →
        getCourse t b c = (getCourse s b c).map (fun k => if k.live = 0 then k else f k))
    let removes (i : Instr) (q : Context → Prop) : Prop := ∃ t y, exec i s = .next t ∧ getCtx t a = some y ∧ y.state = .removed ∧
      y.step = none ∧ y.saved = [] ∧ q y ∧ CoursesEnd s t a ∧ .msi x.part (bits (getPart s x.part).pvecIn.toNat 5 0) ∈ t.out ∧
      ∀ e ∈ t.commands, ∀ z, getBlock s e.2.blk = some z → z.asid = a → e.2.begun = true
    ((windowOpen s p = false ∨ resetting s p = true) → ∀ i ∈ [Instr.ctxctlHalt p v, .ctxctlResume p v, .ctxctlStep p v,
      .ctxctlSave p v, .ctxctlRemove p v, .ctxctlDestroy p v], exec i s = .next s) ∧
    (windowOpen s p = true → resetting s p = false → partCtx s p a = some x → x.asid = a →
      let halts : Prop := x.state = .running ∨ x.state = .saving ∨ (x.state = .saved ∧ x.hostSaved = false)
      let free (q : Path) : Path := if x.hostSaved = true ∨ q.held = false then q
        else if q.park = .remote ∨ q.park = .arrival then { q with held := false, park := .running, waited := [], latched := none }
        else { q with held := false }
      let again (q : Path) : Path := { q with fetched := [] }
      (op = 1 → (¬ halts → exec (.ctxctlHalt p v) s = .next s0) ∧
        (halts → QuietContext s a →
          changes (.ctxctlHalt p v) { x with state := if x.state = .saving ∧ x.hostSaved = true then .saving else .halting } True
            (fun k => { k with
              stopped := true, allowance := 0, eligible := 0, starved := false, path0 := k.path0.map free, path1 := k.path1.map free }))) ∧
      (op = 2 → (x.state = .running ∨ x.state = .saving ∨ x.state = .removed → exec (.ctxctlResume p v) s = .next s0) ∧
        (x.state = .saved → exec (.ctxctlResume p v) s = .next (setCtx s0 a { x with hostSaved := false })) ∧
        (x.state = .halting ∨ x.state = .halted → QuietContext s a →
          changes (.ctxctlResume p v)
            { x with state := if x.saved = [] ∨ ∃ e ∈ s.blocks, e.2.asid = a then .running else .saved } False
            (fun k => { k with stopped := false, allowance := 0, path0 := k.path0.map again, path1 := k.path1.map again }))) ∧
      (op = 3 → (x.state ≠ .halted → exec (.ctxctlStep p v) s = .next s0) ∧
        (x.state = .halted → changes (.ctxctlStep p v) x False
          (fun k => { k with allowance := 1, path0 := k.path0.map again, path1 := k.path1.map again }))) ∧
      (op = 4 → (x.state = .removed → exec (.ctxctlSave p v) s = .next s0) ∧
        (x.state = .saving ∨ x.state = .saved → exec (.ctxctlSave p v) s = .next (setCtx s0 a { x with hostSaved := true })) ∧
        (x.state = .running ∨ x.state = .halting ∨ x.state = .halted → QuietContext s a →
          ∃ t, exec (.ctxctlSave p v) s = .next t ∧
            getCtx t a = some { x with state := .saving, saveFrom := s.now, hostSaved := true, rivalSince := none } ∧
            SaveStops s t a false)) ∧
      (op = 5 → x.state ≠ .removed → removes (.ctxctlRemove p v) (fun _ => True)) ∧
      (op = 5 → x.state = .removed → exec (.ctxctlRemove p v) s = .next s0) ∧
      (op = 6 → x.destroying = true → exec (.ctxctlDestroy p v) s = .next s0) ∧
      (op = 6 → x.destroying = false → x.state ≠ .removed → removes (.ctxctlDestroy p v) (fun y => y.destroying = true ∧ y.subs = []))) ∧
    (getCtx s a = some x → x.state = .halting → exec (.haltComplete a) s = .next (setCtx s a { x with state := .halted })) ∧
    (getCtx s a = some x → x.state ≠ .halting → exec (.haltComplete a) s = .next s) ∧
    (windowOpen s p = true → getCtx s a = some x → x.part = p → x.asid = a →
      ((∀ e ∈ x.faults, e.fid ≠ bits v.toNat 15 0) → (v.getLsbD 16 = false → exec (.pgdone p v) s = .next s) ∧
        (v.getLsbD 16 = true → exec (.pgdoneAbort p v) s = .next s)) ∧
      ∀ e, x.faults.find? (fun e => e.fid = bits v.toNat 15 0) = some e →
        let rest := x.faults.filter (fun f => f.fid ≠ e.fid)
        (v.getLsbD 16 = false → ∀ b c slot k q, e.owner = .path b c slot → slot < 2 → getCourse s b c = some k → getPath k slot = some q →
          ∃ t, exec (.pgdone p v) s = .next t ∧ getCtx t a = some { x with faults := rest } ∧
            getCourse t b c = some (setPath k slot (some (if q.park = .fault e.fid then { q with park := .running } else q))) ∧ SameMemory s t) ∧
        (v.getLsbD 16 = true → x.state ≠ .removed → (∀ id, e.owner ≠ .command id) →
          removes (.pgdoneAbort p v) (fun y => ∀ f ∈ y.faults, f ∈ rest)))

/-- R28, R303, R355, R375, R376, R377, R379, R384, R390: at the end of its time slice, or to make room for a holding launch, a
context begins a save; until then TIME_SLICE_EXPIRY keeps the time since which it has a rival. Its paths at a stopping park
are held at once, and at the deadline every path is. Once all is stopped the rubbing is written, its blocks leave their cores,
and it stands saved with one entry for each block; where the rubbing cannot be written, or read, the context is removed. A
saved context with no block left runs again when its rubbing reads, and a saved block is placed on the core that the
distributor takes: it has its image's memory and its courses as saved, and its launch holds no longer. Stated for paths with
no long write pending and no command of their own or remote device to wait for, and for a block saved without commands, deaths
or paths on the stack. -/
def Obligations.SavesGiveCoresUpAndTakeThemBack : Prop :=
  ∀ (s : State) (a : BitVec 16) (x : Context), getCtx s a = some x → x.asid = a →
    (let begins (i : Instr) : Prop := ∃ t, exec i s = .next t ∧
      getCtx t a = some { x with state := .saving, saveFrom := s.now, hostSaved := false, rivalSince := none } ∧ SaveStops s t a false
     (sliceOver s x = false → exec (.timeSliceExpiry a) s = .next (
        if rivalled s x = false then setCtx s a { x with rivalSince := none }
        else if x.rivalSince = none then setCtx s a { x with rivalSince := some s.now } else s)) ∧
     (sliceOver s x = true → QuietContext s a → begins (.timeSliceExpiry a)) ∧
     ((preemptNow s x.part).map (·.asid) ≠ some a → exec (.preempt a) s = .next s) ∧
     ((preemptNow s x.part).map (·.asid) = some a → QuietContext s a → begins (.preempt a))) ∧
    (x.state ≠ .saving → exec (.saveDeadline a) s = .next s) ∧
    (x.state = .saving → QuietContext s a → ∃ t, exec (.saveDeadline a) s = .next t ∧ getCtx t a = some x ∧
      SaveStops s t a (decide (x.saveFrom + 1000 * bits (getPart s x.part).ptimeIn.toNat 35 20 ≤ s.now))) ∧
    (saveReady s x = false → exec (.saveDone a) s = .next s) ∧
    (saveReady s x = true →
      let s1 := touchRubbing (encodeBlocks ((ctxBlocks s a).foldl (fun s e => drainCore s e.2.core) s) a) x
      let lost : Prop := ∃ t y, exec (.saveDone a) s = .next t ∧ getCtx t a = some y ∧ y.state = .removed ∧ CoursesEnd s t a
      (∀ e, rubbingOf s1 x = .error e → lost) ∧
      ∀ l, rubbingOf s1 x = .ok l →
        let w := writeRubbing s1 x (l.map (fun e => (e.2, ((getJob s1 e.1.job).map (·.words)).getD [])))
        (∀ n, w.1 = some n → lost) ∧
        (w.1 = none →
          ∃ t y, exec (.saveDone a) s = .next t ∧ getCtx t a = some y ∧ y.state = .saved ∧ y.savedAt = s.now ∧
            y.saved = l.zipIdx.map (fun e => { e.1.1 with ordinal := e.2 }) ∧ (∀ b z, getBlock t b = some z → z.asid ≠ a) ∧
            (∀ b, (∀ e ∈ s.blocks, e.1 = b → e.2.asid ≠ a) → getBlock t b = getBlock s b) ∧
            t.dev = w.2.dev ∧ t.hostMem = w.2.hostMem)) ∧
    (restoreNow s x = none → exec (.restoreBlocks a) s = .next s) ∧
    (let u := touchRubbing s x
     let idle : Prop := x.state = .saved ∧ x.hostSaved = false ∧ x.saved = []
     let x' := { x with restored := some (rubbingChunks u x, false) }
     (idle ∨ savedLaunches s x ≠ [] → ∀ e, readRubbing u x = .error e → x.state ≠ .removed →
        ∃ t y, exec (.restoreBlocks a) s = .next t ∧ getCtx t a = some y ∧ y.state = .removed ∧ CoursesEnd s t a) ∧
     (idle → ∀ l, readRubbing u x = .ok l → exec (.restoreBlocks a) s = .next (setCtx (setCtx u a x') a { x' with state := .running })) ∧
     ∀ id j q g i j' m l, x.saved ≠ [] → savedLaunches s x = (id, j) :: q → savedNext (setCtx u a x') id j = [g] →
      readRubbing u x = .ok l → l.filter (fun e => e.1.ordinal = g.ordinal) = [(g, i)] →
      getJob s g.job = some j' → chooseCore (setCtx u a x') j' = some m → i.cmds = [] → i.kill = [] →
      (∀ e ∈ i.courses, e.2.depth = 0 ∧ ∀ p, e.2.path0 = some p ∨ e.2.path1 = some p → ∀ id, p.park ≠ .continuation id) →
      ∃ t y z, exec (.restoreBlocks a) s = .next t ∧ getCtx t a = some y ∧ y.state = .running ∧
        y.saved = x.saved.filter (fun h => h.ordinal ≠ g.ordinal) ∧ y.restored = x'.restored ∧
        getJob t g.job = some { j' with holding := false, firstSince := none } ∧
        getBlock t s.nextId = some z ∧ z.core = m ∧
        z.localMem = i.block.localMem ∧ z.bank0 = i.block.bank0 ∧ z.bank1 = i.block.bank1 ∧ z.barriers = i.block.barriers ∧
        z.step = i.block.step ∧
        ∀ c k, c < i.block.courses → find? i.courses c = some k → ∃ n, getCourse t s.nextId c = some { k with
          slot := n, path0 := k.path0.map (restorePath x g c 0), path1 := k.path1.map (restorePath x g c 1) })

/-! ### The links -/

/-- R297, R398, R399, R401: a pause flit stops its virtual lane for 2 us; a resume flit, or the end of that time, lets what
has waited go out, in order, into the replay buffer. A replay sends the buffer again in order, or ahead of what waits on a
lane that is stopped, and a pause flit is repeated each 1 us while the occupancy stays above 16 KiB. A module with three
failures within 1 s is removed. Stated for the 18 ports. A host load of device memory is answered with the home's value and
takes the lines, and a host store changes its bytes alone; before READY both are answered with poison. A snoop of the host
drops the L2 copies of its line alone. Where memory's bytes are said, no part of the device's memory is lost. -/
def Obligations.TheLinksAct : Prop :=
  ∀ s : State,
    (∀ (port : BitVec 5) (vl : BitVec 2), port.toNat < 18 →
      let l := getLane s port.toNat vl.toNat
      let leaves (t : State) (l' : Lane) (o : List Output) : Prop := t = { s with lanes := t.lanes, out := s.out ++ o } ∧
        getLane t port.toNat vl.toNat = l' ∧ ∀ q w, q < 18 → w < 4 → ¬ (q = port.toNat ∧ w = vl.toNat) → getLane t q w = getLane s q w
      let goesOn (i : Instr) : Prop := ∃ t, exec i s = .next t ∧
        leaves t { l with pausedUntil := 0, waiting := [], replay := l.replay ++ l.waiting }
          (l.waiting.map (fun i => .flit port.toNat vl.toNat i))
      (∃ t, exec (.fabricPauseFlit port vl) s = .next t ∧ leaves t { l with pausedUntil := s.now + 2000 } []) ∧
      goesOn (.fabricResumeFlit port vl) ∧
      (l.pausedUntil = 0 ∨ s.now < l.pausedUntil → exec (.pauseExpiry port vl) s = .next s) ∧
      (l.pausedUntil ≠ 0 → l.pausedUntil ≤ s.now → goesOn (.pauseExpiry port vl)) ∧
      (l.pausedUntil ≤ s.now → l.waiting = [] →
        exec (.flitReplay port vl) s = .next { s with out := s.out ++ l.replay.map (fun i => .flit port.toNat vl.toNat i) }) ∧
      (s.now < l.pausedUntil ∨ l.waiting ≠ [] → ∃ t, exec (.flitReplay port vl) s = .next t ∧
        leaves t { l with waiting := l.replay ++ l.waiting, replay := [] } []) ∧
      (l.pausing = true → 16384 < l.occupancy → l.lastPause + 1000 ≤ s.now → ∃ t, exec (.pauseFlitRepeat port vl) s = .next t ∧
        leaves t { l with lastPause := s.now } [.pause port.toNat vl.toNat]) ∧
      (l.pausing = false ∨ l.occupancy ≤ 16384 ∨ s.now < l.lastPause + 1000 → exec (.pauseFlitRepeat port vl) s = .next s)) ∧
    (∀ m : BitVec 2, ∃ l, exec (.moduleRemove m) s = .next { s with modules := l } ∧
      ∀ i, l[i]? = (s.modules[i]?).map (fun e => if i = m.toNat ∧ e.1 = true ∧
        3 ≤ (e.2.filter (fun t => s.now < t + 1000000000)).length then (false, []) else e)) ∧
    (∀ a, ∃ l, exec (.hostSnoop a) s = .next { s with l2 := l } ∧ ∀ n x, (∃ e ∈ l, e.1 = n ∧ x ∈ e.2) ↔
      ((∃ e ∈ s.l2, e.1 = n ∧ x ∈ e.2) ∧ x.home ≠ .host (a.toNat / 128 * 128))) ∧
    (∀ pa, exec (.hostMemoryAccess pa 0 []) s = .next s) ∧
    (∀ (pa : BitVec 39) (n : Nat), pa.toNat + n ≤ 2 ^ 39 → 0 < n →
      (s.phase ≠ 4 → exec (.hostMemoryAccess pa n []) s =
        .next { s with out := s.out ++ [.hostData pa.toNat (List.replicate n 0#8) true] }) ∧
      (s.phase = 4 → allGood s = true → ∃ held, exec (.hostMemoryAccess pa n []) s =
          .next { s with hostHeld := held, out := s.out ++
            [.hostData pa.toNat (homeBytes s (.dev pa.toNat) n) (homePoisoned s (.dev pa.toNat) n)] } ∧
        ∀ k, k ∈ held ↔ k ∈ s.hostHeld ∨ pa.toNat / 64 ≤ k ∧ k ≤ (pa.toNat + n - 1) / 64)) ∧
    (∀ (pa : BitVec 39) (n : Nat) (data : List Byte), pa.toNat + data.length ≤ 2 ^ 39 → data ≠ [] →
      (s.phase ≠ 4 → exec (.hostMemoryAccess pa n data) s = .next { s with out := s.out ++ [.hostData pa.toNat [] true] }) ∧
      (s.phase = 4 → allGood s = true → ∃ t, exec (.hostMemoryAccess pa n data) s = .next t ∧ OnlyMemory s t ∧
        t.out = s.out ∧ t.hostMem = s.hostMem ∧ ∀ a, cget 0#8 t.dev a =
          if pa.toNat ≤ a ∧ a < pa.toNat + data.length then data.getD (a - pa.toNat) 0#8 else cget 0#8 s.dev a))

/-- R199, R293, R387, R400, R401: a request of a remote device is translated here, in the context that it names: a failure answers
so, a load answers with the bytes and says which come poisoned, a store performs its bytes, and an atomic or a wide store or add
performs its new value at its home and answers with the old one, or with poison and nothing written. A recovery notice gives a
remote device 20 s; then every access to it that a course still waits for has failed. -/
def Obligations.RemoteDevicesAskAndRecover : Prop :=
  ∀ s : State,
    (∀ (asid : BitVec 16) (va : BitVec 48) (kind : RemoteOp) (data : List Byte),
      let a := va.toNat
      let does (k : RemoteOp) (t : State) : Prop := kind = k → exec (.fabricRequest asid va kind data) s = .next t
      let answers (t : State) (ok : Bool) (poison : List Nat) (bs : List Byte) : State :=
        { t with out := t.out ++ [.reply ok poison bs] }
      let update (k : RemoteOp) (n : Nat) (f : Nat → Option Nat) : Prop := kind = k → s.phase = 4 →
        (remoteHome s asid a n = none → exec (.fabricRequest asid va kind data) s = .next (answers s false [] [])) ∧
        ∀ h, remoteHome s asid a n = some h → allGood s = true →
          ∃ t, exec (.fabricRequest asid va kind data) s = .next t ∧
            (homePoisoned s h n = true → t.out = s.out ++ [.reply true (List.range n) (List.replicate n 0#8)] ∧
              t.dev = s.dev ∧ t.hostMem = s.hostMem) ∧
            (homePoisoned s h n = false → t.out.getLast? = some (.reply true [] (homeBytes s h n)) ∧
              (∀ v, f (natOfBytes (homeBytes s h n)) = some v → StoredAt s t h (bytesOfNat n v)) ∧
              (f (natOfBytes (homeBytes s h n)) = none → t.dev = s.dev ∧ t.hostMem = s.hostMem))
      (s.phase ≠ 4 → exec (.fabricRequest asid va kind data) s = .next (answers s false [] [])) ∧
      (s.phase = 4 →
        (∀ n,
          let u := (pagePieces (n / 65536 + 2) a n).foldl (fun s p => hubTouch s asid p.1 p.2) s
          (hubPois u asid a n = none → does (.load n) (answers u false [] [])) ∧
          ∀ l, hubPois u asid a n = some l → does (.load n)
            (answers u true ((List.range l.length).filter (fun i => (l.map (·.2))[i]? = some true)) (l.map (·.1)))) ∧
        (∀ poison, remoteCells s asid a poison data = none → does (.store poison) (answers s false [] [])) ∧
        ∀ poison l, remoteCells s asid a poison data = some l →
          does (.store poison) (answers (putGlobal s asid l) true [] []) ∧ OnlyMemory s (putGlobal s asid l)) ∧
      (∀ op, update (.atomic op) 4 (atomNew op (BitVec.ofNat 32 (natOfBytes (data.take 4)))
        (BitVec.ofNat 32 (natOfBytes ((data.drop 4).take 4))))) ∧
      (∀ x, update (.storeWide x) 8 (fun _ => some x.toNat)) ∧
      (∀ x, update (.addWide x) 8 (fun o => some ((o + x.toNat) % 2 ^ 64)))) ∧
    (∀ dev : BitVec 14,
      let until_ := cget 0 s.recovering dev.toNat
      (dev.toNat = Config.ownDevice → exec (.recoveryNotice dev) s = .next s) ∧
      (dev.toNat ≠ Config.ownDevice → ∃ m, exec (.recoveryNotice dev) s = .next { s with recovering := m } ∧
        ∀ d, cget 0 m d = if d = dev.toNat then s.now + 20000000000 else cget 0 s.recovering d) ∧
      (until_ = 0 ∨ s.now < until_ → exec (.recoveryExpiry dev) s = .next s) ∧
      (until_ ≠ 0 → until_ ≤ s.now → (s.remotes.map (·.1)).Nodup →
        (∀ e ∈ s.remotes, e.2.device = dev.toNat → ∃ b c i pos lane, e.2.owner = .lane b c i pos lane ∧ c < 32 ∧ i < 2) →
        ∃ t, exec (.recoveryExpiry dev) s = .next t ∧
          (∀ d, cget 0 t.recovering d = if d = dev.toNat then 0 else cget 0 s.recovering d) ∧
          t = { s with recovering := t.recovering, courses := t.courses, remotes := t.remotes } ∧
          t.remotes = s.remotes.filter (fun e => e.2.device ≠ dev.toNat) ∧
          let fails (b c i : Nat) (p : Path) : Path := (s.remotes.filter (fun e => e.2.device = dev.toNat)).foldl (fun p e =>
            match e.2.owner with
            | .lane b' c' i' pos lane => if b' = b ∧ c' = c ∧ i' = i then answerPath pos lane ⟨false, [], []⟩ p else p
            | _ => p) p
          ∀ b c, c < 32 → getCourse t b c = (getCourse s b c).map (fun k =>
            { k with path0 := k.path0.map (fails b c 0), path1 := k.path1.map (fails b c 1) })))

/-! ### Clocks, rails and the watchdog -/

/-- R310, R311, R312, R313, R386, R392, R403: a rising clock is raised once its rail has settled; a droop stretches the clock
and is counted, up to 0xFFFF, until the supply recovers; a voltage offset falls by one after 60 s with margin. At an interval
start the settings of the partitions come into force, a cluster with low margin gains one offset, up to 4, no clock rises yet,
and each rail stands at what its clusters need, of at most 80. At the end of a window a cluster has the sensitivity of its
quarter-cycles and counts from zero; one that holds no step's block moves by one index, within FLOOR, CEIL and its cap. A
RAILMAP write moves the clusters whose field differs, if all are quiesced, to their floor clock, and is else ignored. Once a
millisecond a hung block's context is removed. The removal is stated where no block hangs, or one block is resident. -/
def Obligations.ClocksRailsAndTheWatchdogAct : Prop :=
  ∀ s : State,
    (∀ k : Nat,
      let c := getCluster s k
      let c' := { c with total := c.total + 32 * (s.now * 1000000 + s.frac - c.since) * ((600 + 25 * c.clock) / (if c.stretched then 2 else 1)),
                         since := s.now * 1000000 + s.frac }
      let settled := (s.rails.getD (bits s.railmap.toNat (2 * k + 1) (2 * k)) (0, 0)).2
      (c.raise = none → exec (.clockRaise k) s = .next s) ∧
      (∀ i, c.raise = some i → exec (.clockRaise k) s =
        .next (if settled ≤ s.now then setCluster s k { c' with clock := i, raise := none } else s)) ∧
      (c.stretched = true ∨ 24 ≤ k → exec (.droopStretch k) s = .next s) ∧
      (c.stretched = false → k < 24 → exec (.droopStretch k) s =
        .next (setCluster { s with stretchCount := min 0xFFFF (s.stretchCount + 1) } k { c' with stretched := true })) ∧
      exec (.supplyRecovers k) s = .next (if c.stretched then setCluster s k { c' with stretched := false } else s) ∧
      (c.offset = 0 ∨ s.now < c.offsetSince + 60000000000 → exec (.marginOffsetDecay k) s = .next s) ∧
      (c.offset ≠ 0 → c.offsetSince + 60000000000 ≤ s.now → exec (.marginOffsetDecay k) s =
        .next (setCluster s k { c with offset := c.offset - 1, offsetSince := s.now }))) ∧
    (s.now < s.nextInterval → exec .intervalStart s = .next s) ∧
    (s.nextInterval ≤ s.now → ∃ t, exec .intervalStart s = .next t ∧ t.nextInterval = s.nextInterval + 20000 ∧ SameMemory s t ∧
      (∀ p, (getPart t p).pwgtIn = (getPart s p).pwgt ∧ (getPart t p).ptimeIn = (getPart s p).ptime ∧
        (getPart t p).pvecIn = (getPart s p).pvec) ∧
      (s.phase ≠ 4 → t.clusters = s.clusters ∧ t.rails = s.rails) ∧
      (s.phase = 4 → t.rails.length = 4 ∧ (∀ r, r < 4 → (t.rails.getD r (0, 0)).1 ≤ 80) ∧ ∀ k, k < 24 →
        (getCluster t k).clock ≤ (getCluster s k).clock ∧
        (getCluster t k).offset = (if Config.marginLow (s.nextInterval / 20000) k then min 4 ((getCluster s k).offset + 1) else (getCluster s k).offset) ∧
        min 80 ((20 * ((getCluster t k).raise.getD (getCluster t k).clock) + 20) / 21 + (getCluster t k).offset) ≤
          (t.rails.getD (bits s.railmap.toNat (2 * k + 1) (2 * k)) (0, 0)).1)) ∧
    (s.now < s.nextWindow → exec .sensitivityWindowEnd s = .next s) ∧
    (s.nextWindow ≤ s.now → ∃ l, exec .sensitivityWindowEnd s = .next { s with nextWindow := s.nextWindow + 50000, clusters := l } ∧
      ∀ k, let c := getCluster s k
        let y := (find? l k).getD Cluster.reset
        (24 ≤ k → y = c) ∧
        (k < 24 → y.sigma = 65536 * c.busy / max (tally s k).total 1 ∧ y.busy = 0 ∧ y.total = 0 ∧ y.clock = c.clock ∧ y.raise = c.raise ∧
          (clusterPart s k = none ∨ holdsStep s k = true → y.wish = c.wish) ∧
          (∀ p, clusterPart s k = some p → holdsStep s k = false →
            let i := c.raise.getD c.clock
            let lo := bits (getPart s p).sensctl.toNat 23 16
            let hi := min 84 (bits (getPart s p).sensctl.toNat 31 24)
            y.wish = min hi (max (min hi lo) (min c.cap (if y.sigma < bits (getPart s p).sensctl.toNat 15 0 then i - 1 else i + 1)))))) ∧
    (∀ v : Double,
      let field (m : Nat) (k : Nat) : Nat := bits m (2 * k + 1) (2 * k)
      let moved (k : Nat) : Prop := k < 24 ∧ field v.toNat k ≠ field s.railmap.toNat k
      ((∃ k, moved k ∧ ∃ e ∈ s.blocks, coreCluster e.2.core = k) → exec (.railmap v) s = .next s) ∧
      ((∀ k, moved k → ∀ e ∈ s.blocks, coreCluster e.2.core ≠ k) → ∃ l, exec (.railmap v) s =
        .next { s with railmap := BitVec.ofNat 64 (bits v.toNat 47 0), clusters := l } ∧
        ∀ k, let y := (find? l k).getD Cluster.reset
          (¬ moved k → y = getCluster s k) ∧ (moved k → y.raise = none ∧ y.clock = y.wish ∧ y.clock = clusterFloor s k))) ∧
    (s.now < s.nextWatchdog → exec .watchdogCheck s = .next s) ∧
    (s.nextWatchdog ≤ s.now → (∀ e ∈ s.blocks, ∀ b, getBlock s e.1 = some b → hungBlock s e.1 b = false) →
      exec .watchdogCheck s = .next { s with nextWatchdog := s.nextWatchdog + 1000000 }) ∧
    (∀ blk b x, s.nextWatchdog ≤ s.now → s.blocks = [(blk, b)] → hungBlock s blk b = true → getCtx s b.asid = some x →
      x.asid = b.asid → ∃ t y, exec .watchdogCheck s = .next t ∧ getCtx t b.asid = some y ∧ y.state = .removed ∧
        CoursesEnd s t b.asid ∧ .msi x.part (bits (getPart s x.part).pvecIn.toNat 5 0) ∈ t.out)

/-! ### Partitions and registers -/

/-- R6, R7, R305, R391, R392, R393, R404: a write of PCTL with EN sets it where the partition may have its clusters, counters
and pages, and else sets ERR; one that clears EN, and a partition reset, leave the partition resetting with no packet, no armed
counter and its contexts created without work, until no block of it is on a core. A write of a register without a row of its own
keeps its fields and leaves every zero field zero; a write that is not aligned, or of a closed window, changes nothing. The reset
is stated where no packet of the partition has started; it leaves memory, where none of it is lost. -/
def Obligations.PartitionsAndTheirRegistersAct : Prop :=
  ∀ (s : State) (p : BitVec 3) (v : Double),
    let part := getPart s p
    let clears (t : State) : Prop := (getPart t p).pstate = 2 ∧ (∀ id j, getJob t id = some j → j.part ≠ p) ∧
      (∀ id j, getJob s id = some j → j.part ≠ p → getJob t id = some j) ∧
      (∀ i, getCounter t i = if bits part.pres.toNat 15 0 ≤ i ∧ i < bits part.pres.toNat 15 0 + bits part.pres.toNat 32 16 then
        Counter.free else getCounter s i) ∧
      (∀ a x, getCtx s a = some x → getCtx t a = some (if x.part = p then resetContext x else x)) ∧
      (∀ b y c, getBlock s b = some y → c < 32 →
        getCourse t b c = if y.part = p then (getCourse s b c).map emptyCourse else getCourse s b c) ∧
      (allGood s = true → SameMemory s t)
    (v.getLsbD 63 = false ∨ part.pctl.getLsbD 63 = true → exec (.pctlEnable p v) s = .next s) ∧
    (v.getLsbD 63 = true → part.pctl.getLsbD 63 = false →
      let inCounters (q : Partition) (i : Nat) : Prop := bits q.pres.toNat 15 0 ≤ i ∧ i < bits q.pres.toNat 15 0 + bits q.pres.toNat 32 16
      let inPages (q : Partition) (i : Nat) : Prop := bits q.pmem.toNat 22 0 ≤ i ∧ i < bits q.pmem.toNat 22 0 + bits q.pmem.toNat 55 32
      let ok : Prop := (∃ k, k < 24 ∧ v.getLsbD k = true) ∧ (∀ k, k < 24 → v.getLsbD k = true → ∀ e ∈ s.blocks, coreCluster e.2.core ≠ k) ∧
        (∀ q, q ≠ p → (getPart s q).pctl.getLsbD 63 = true → ∀ i, ¬ (i < 24 ∧ v.getLsbD i = true ∧ (getPart s q).pctl.getLsbD i = true) ∧
          ¬ (inCounters part i ∧ inCounters (getPart s q) i) ∧ ¬ (inPages part i ∧ inPages (getPart s q) i)) ∧
        bits part.pres.toNat 15 0 + bits part.pres.toNat 32 16 ≤ 65536 ∧ bits part.pmem.toNat 22 0 + bits part.pmem.toNat 55 32 ≤ 8388608
      (ok → exec (.pctlEnable p v) s =
        .next (setPart s p { part with pctl := BitVec.ofNat 64 (2 ^ 63 + bits v.toNat 23 0), err := false, pstate := 1 })) ∧
      (¬ ok → exec (.pctlEnable p v) s = .next (setPart s p { part with err := true }))) ∧
    (v.getLsbD 63 = true → exec (.pctlDisable p v) s = .next s) ∧
    (v.getLsbD 63 = false → part.pctl.getLsbD 63 = false →
      exec (.pctlDisable p v) s = .next (setPart s p { part with pctl := BitVec.ofNat 64 (bits v.toNat 23 0) })) ∧
    (v.getLsbD 0 = false ∨ part.pctl.getLsbD 63 = false ∨ part.pstate = 2 → exec (.partitionReset p v) s = .next s) ∧
    (part.pctl.getLsbD 63 = true → part.pstate ≠ 2 → (∀ e ∈ s.jobs, e.2.part = p → ∀ j, getJob s e.1 = some j → j.started = false) →
      (v.getLsbD 0 = true → ∃ t, exec (.partitionReset p v) s = .next t ∧ clears t) ∧
      (v.getLsbD 63 = false → ∃ t, exec (.pctlDisable p v) s = .next t ∧ clears t ∧ (getPart t p).pctl = BitVec.ofNat 64 (bits part.pctl.toNat 23 0))) ∧
    (part.pstate ≠ 2 ∨ (∃ e ∈ s.blocks, e.2.part = p) → exec (.partitionResetDone p) s = .next s) ∧
    (part.pstate = 2 → (∀ e ∈ s.blocks, e.2.part ≠ p) → exec (.partitionResetDone p) s =
      .next (setPart s p { part with pstate := if part.pctl.getLsbD 63 then 1 else 0 })) ∧
    (∀ off : BitVec 26, off.toNat % 8 ≠ 0 → exec (.registerWrite off v) s = .next s) ∧
    (∀ off : BitVec 26, off.toNat = 0x10 → ∃ m : Double, exec (.registerWrite off v) s = .next { s with memctl := m } ∧
      bits m.toNat 63 48 = bits v.toNat 63 48 ∧ bits m.toNat 47 40 = max 8 (bits v.toNat 47 40) ∧
      bits m.toNat 39 16 = bits v.toNat 39 16 ∧ bits m.toNat 15 0 = 0) ∧
    (∀ off : BitVec 26, off.toNat = 0x40 → (bits v.toNat 7 0 = 0 ∨ 6 < bits v.toNat 7 0) →
      exec (.registerWrite off v) s = .next { s with mbstat := BitVec.ofNat 64 (2 ^ 28) }) ∧
    (∀ off : BitVec 26, 0x1000 ≤ off.toNat → off.toNat < 0x2000 → off.toNat % 8 = 0 → exec (.registerWrite off v) s =
      .next { s with mailbox := csetRun 0#8 s.mailbox (off.toNat - 0x1000) (bytesOfNat 8 v.toNat) }) ∧
    (∀ off : BitVec 26,
      let base := 0x100 + 0x80 * p.toNat
      let writes (k : Partition) : Prop := exec (.registerWrite off v) s = .next (setPart s p k)
      (off.toNat = base + 0x08 → writes (if part.pctl.getLsbD 63 then part else { part with pres := v &&& 0x1FFFFFFFF })) ∧
      (off.toNat = base + 0x10 → writes (if part.pctl.getLsbD 63 then part else { part with pmem := v &&& 0x00FFFFFF007FFFFF })) ∧
      (off.toNat = base + 0x18 → ∃ w : Double, writes { part with pwgt := w } ∧ bits w.toNat 63 24 = 0 ∧
        ∀ i, i < 3 → bits w.toNat (8 * i + 7) (8 * i) = max 1 (bits v.toNat (8 * i + 7) (8 * i))) ∧
      (off.toNat = base + 0x20 → writes { part with ptime := v &&& 0xFFFFFFFFFFFFF }) ∧
      (off.toNat = base + 0x28 → writes { part with pvec := v &&& 0x0000003F003F003F }) ∧
      (off.toNat = base + 0x40 → writes { part with fwsel := v &&& 0xFF }) ∧
      (off.toNat = base + 0x48 → ∃ l, writes { part with fwent := l } ∧ ∀ i, cget 0#64 l i =
        if i = part.fwsel.toNat then v &&& 0xFFFFFFFE1FFE0000 else cget 0#64 part.fwent i)) ∧
    (∀ off : BitVec 26,
      let base := 0x1000000 + 0x200000 * p.toNat
      let writes (k : Partition) : Prop := exec (.registerWrite off v) s = .next (setPart s p k)
      (base ≤ off.toNat → off.toNat < base + 0x200000 → windowOpen s p = false → exec (.registerWrite off v) s = .next s) ∧
      (windowOpen s p = true →
        (off.toNat = base + 0x20 → writes { part with qerr := part.qerr &&& ~~~(v &&& 0xC000000000000000) }) ∧
        (off.toNat = base + 0x108 → writes { part with dlrisk := part.dlrisk &&& ~~~(v &&& 0xC000000000000000) }) ∧
        (off.toNat = base + 0x100 → ∃ m : Double, writes { part with sensctl := m } ∧ bits m.toNat 63 32 = 0 ∧
          bits m.toNat 31 24 = min 84 (bits v.toNat 31 24) ∧ bits m.toNat 23 16 = min (bits m.toNat 31 24) (bits v.toNat 23 16) ∧
          bits m.toNat 15 0 = bits v.toNat 15 0)))

/-! ### The resilience of device memory -/

/-- R320, R325, R329, R335, R336, R337, R338, R339, R340, R344: INJPOISON poisons its sector and no copy of its line stays in
an L1, in the L2 or with the host. INJDEAD and a failure mark a channel, a stack, a pseudo-channel or a bank dead, or make a
channel due; a channel that dies has no stale slot and no training. The due channel of lowest number is trained, and ends
GOOD, or DEAD after 4 ms. The engine decodes a span at a time, which changes no byte where fewer than three members are lost
and the rest agree; after the last it switches the member to its target and drops the unit's lines from every L1; a stale slot
is rewritten and its bit cleared, after every unit with two members lost. The scrubber reads what is due, and changes no byte
of a span whose members agree. -/
def Obligations.MemoryPartsFailAndAreMended : Prop :=
  ∀ s : State,
    let kills (i : Instr) (p : Nat → Prop) : Prop := ∃ t, exec i s = .next t ∧
      t = { s with health := t.health, stale := t.stale, dueNow := t.dueNow, retraining := t.retraining } ∧
      (∀ d, (p d → chanHealth t d = .dead) ∧ (¬ p d → chanHealth t d = chanHealth s d)) ∧
      (∀ k, cget false t.stale k = true ↔ cget false s.stale k = true ∧ ¬ p (k / 524288)) ∧
      ∀ d n, t.retraining = some (d, n) ↔ s.retraining = some (d, n) ∧ ¬ p d
    let marks (i : Instr) (k : Nat) (old : Cells Bool) (f : Cells Bool → State) : Prop := ∃ l, exec i s = .next (f l) ∧
      ∀ j, cget false l j = if j = k then true else cget false old j
    (∀ v : Double,
      let ok : Prop := v.getLsbD 63 = true ∧ bits v.toNat 62 39 = 0 ∧ bits v.toNat 4 0 = 0
      let pa := bits v.toNat 38 5 * 32
      (¬ ok → exec (.injpoison v) s = .next s) ∧
      (ok → ∃ t, exec (.injpoison v) s = .next t ∧ OnlyMemory s t ∧ devPoisoned t pa = true ∧
        (allGood s = true → ∀ a, a / 32 ≠ pa / 32 → cget 0#8 t.dev a = cget 0#8 s.dev a ∧ devPoisoned t a = devPoisoned s a) ∧
        (∀ m x, x ∈ (getCore t m).l1 → x.home ≠ .dev (pa / 128 * 128)) ∧
        (∀ e ∈ t.l2, ∀ x ∈ e.2, x.home ≠ .dev (pa / 128 * 128)) ∧ pa / 64 ∉ t.hostHeld)) ∧
    (∀ v : Double,
      let c := bits v.toNat 18 10
      let pc := bits v.toNat 9 9
      let acts (kind : Nat) : Prop := v.getLsbD 63 = true ∧ bits v.toNat 62 60 = kind ∧ bits v.toNat 59 19 = 0 ∧ bits v.toNat 3 0 = 0 ∧ c < 320
      (¬ acts 0 → exec (.injdeadChannel v) s = .next s) ∧ (acts 0 → kills (.injdeadChannel v) (fun d => d = c)) ∧
      (¬ acts 1 → exec (.injdeadPseudoChannel v) s = .next s) ∧
      (acts 1 → marks (.injdeadPseudoChannel v) (2 * c + pc) s.pcDead (fun l => { s with pcDead := l })) ∧
      (¬ acts 2 → exec (.injdeadBank v) s = .next s) ∧
      (acts 2 → marks (.injdeadBank v) (64 * c + 32 * pc + bits v.toNat 8 4) s.bankDead (fun l => { s with bankDead := l })) ∧
      (¬ acts 3 → exec (.injdeadStack v) s = .next s) ∧ (acts 3 → kills (.injdeadStack v) (fun d => d / 32 = c / 32)) ∧
      (¬ acts 4 → exec (.injdeadRetrainNow v) s = .next s) ∧
      (acts 4 → marks (.injdeadRetrainNow v) c s.dueNow (fun l => { s with dueNow := l }))) ∧
    (∀ (kind : BitVec 2) (ch : BitVec 9) (pc : BitVec 1) (bank : BitVec 5),
      let i : Instr := .channelFail kind ch pc bank
      (320 ≤ ch.toNat ∨ kind = 3 → exec i s = .next s) ∧
      (ch.toNat < 320 → (kind = 0 → kills i (fun d => d = ch.toNat)) ∧
        (kind = 1 → marks i (2 * ch.toNat + pc.toNat) s.pcDead (fun l => { s with pcDead := l })) ∧
        (kind = 2 → marks i (64 * ch.toNat + 32 * pc.toNat + bank.toNat) s.bankDead (fun l => { s with bankDead := l })))) ∧
    (nextRetrain s = none → exec .retrainStart s = .next s) ∧
    (∀ c, nextRetrain s = some c → exec .retrainStart s =
        .next { s with health := cset .good s.health c .retrain, retraining := some (c, s.now) } ∧
      s.phase = 4 ∧ s.retraining = none ∧
      let may (d : Nat) : Prop := chanHealth s d = .good ∧ retrainDue s d = true ∧ retrainDeferred s d = false
      may c ∧ ∀ d, d < c → ¬ may d) ∧
    (s.retraining = none → exec .retrainEnd s = .next s ∧ exec .retrainTimeout s = .next s) ∧
    (∀ c n, s.retraining = some (c, n) →
      (n + 4000000 ≤ s.now → exec .retrainEnd s = .next s ∧ kills .retrainTimeout (fun d => d = c)) ∧
      (s.now < n + 4000000 → exec .retrainTimeout s = .next s ∧ exec .retrainEnd s =
        .next { s with health := cset .good s.health c .good, retraining := none, trained := cset 0 s.trained c s.now,
                       trainTemp := cset 25 s.trainTemp c (cget 25 s.temps (c / 32)), dueNow := cset false s.dueNow c false,
                       unbond := (pinUnbondable s).unbond })) ∧
    (s.phase ≠ 4 → exec .rebuildSpan s = .next s ∧ exec .memberSwitch s = .next s ∧ exec .staleSlotRewrite s = .next s) ∧
    (s.phase = 4 →
      (nextRebuild s = none → exec .rebuildSpan s = .next { s with rebuild := none }) ∧
      (∀ r, nextRebuild s = some r → (128 ≤ r.cursor → exec .rebuildSpan s = .next { s with rebuild := some r }) ∧
        (r.cursor < 128 → ∃ t, exec .rebuildSpan s = .next t ∧ t.rebuild = some { r with cursor := r.cursor + 1 } ∧
          sectorBad t r.target (unitSlot r.unit) r.cursor = false ∧
          (lostCount s r.unit r.cursor < 3 → spanClean s r.unit r.cursor = true → memberLost s r.unit r.member r.cursor = true →
            t = { s with rebuild := t.rebuild, symbols := t.symbols }))) ∧
      (∀ r, s.rebuild = some r → 128 ≤ r.cursor → (rebuildStands s r = false ∨ memberField s r.unit r.member = none) →
        exec .memberSwitch s = .next { s with rebuild := none }) ∧
      (∀ r f, s.rebuild = some r → 128 ≤ r.cursor → rebuildStands s r = true → memberField s r.unit r.member = some f →
        r.member < 18 → r.target < 320 → ∃ t, exec .memberSwitch s = .next t ∧
          t = { s with rebuild := none, cores := t.cores, bond := t.bond, l2 := t.l2 } ∧ memberChannel t r.unit r.member = r.target ∧
          (∀ j, j ≠ r.member → memberChannel t r.unit j = memberChannel s r.unit j) ∧
          (∀ u j, u ≠ r.unit → memberChannel t u j = memberChannel s u j) ∧
          ∀ m x pa, x ∈ (getCore t m).l1 → x.home = .dev pa → unitOf pa ≠ r.unit) ∧
      (staleSlot s = none ∨ doubleLoss s ≠ none → exec .staleSlotRewrite s = .next s) ∧
      (∀ k, staleSlot s = some k → doubleLoss s = none → ∃ t, exec .staleSlotRewrite s = .next t ∧ OnlyMemory s t ∧
        (∀ j, cget false t.stale j = if j = k then false else cget false s.stale j) ∧
        ((∀ u, slotUser s (k / 524288) (k % 524288) = some u → ∀ q, q < 128 → lostCount s u q < 3 ∧ spanClean s u q = true) →
          t.dev = s.dev ∧ t.devPoison = s.devPoison))) ∧
    (scrubGoal s ≤ s.scrubAt → exec .scrubSpan s = .next s) ∧
    (s.scrubAt < scrubGoal s → (allGood s = true → exec .scrubSpan s = .next (scrubTo s (scrubGoal s))) ∧
      (allGood s = false → ∃ t, exec .scrubSpan s = .next t ∧ OnlyMemory (scrubTo s (s.scrubAt + 1)) t ∧
        let u := s.scrubAt / 128
        let q := s.scrubAt % 128
        (u < 8388608 → (∀ i, i < 18 → sectorClean s (memberChannel s u i) (unitSlot u) q = true) → spanClean s u q = true →
          t.dev = s.dev ∧ t.devPoison = s.devPoison)))

/-! ### The management controller and power -/

/-- R342, R343, R402, R404, R405, R406: a mailbox command of its OP ends with STATUS 1 where its input exceeds the buffer, or
a nonce has not 32 bytes, and else acts: ATTEST answers the signed report, FWSTAGE appends, FWCOMMIT ends with STATUS 2 or 3
or puts the image in the other slot and raises the counter, the counters and the identity key are read, and entries burned or
failed leave the repair list, which frees the slots that no entry pending or failed names. Power-good begins PHASE 0, each
phase ends in the next or in FAILED, and a loss of power leaves what the NVS and the host hold. -/
def Obligations.TheControllerAndPowerAct : Prop :=
  ∀ s : State,
    (∀ v : Double,
      let len := bits v.toNat 63 48
      let input := crun 0#8 s.mailbox 0 len
      let status (t : State) (n : Nat) : State := { t with mbstat := BitVec.ofNat 64 (n * 2 ^ 28) }
      let output (t : State) (l : List Byte) : State :=
        { t with mailbox := csetRun 0#8 t.mailbox 0 (l.take 4096), mbstat := BitVec.ofNat 64 (l.take 4096).length }
      let command (i : Instr) (op : Nat) (t : State) : Prop := (bits v.toNat 7 0 ≠ op → exec i s = .next s) ∧
        (bits v.toNat 7 0 = op → exec i s = .next (if 4096 < len then status s 1 else t))
      let body := attestBody s input
      let image := s.staged
      let level := Config.imageRollback (imageBody image)
      let s' : State := { s with staged := [] }
      command (.attest v) 1 (if len = 32 then output { s with fresh := s.fresh + 64 } (body ++
          rsaSign Config.identityModulus Config.identityPrivate body ((List.range 64).map (fun i => Config.freeByte (s.fresh + i))))
        else status s 1) ∧
      command (.fwstage v) 2 (status { s with staged := s.staged ++ input } 0) ∧
      command (.fwcommit v) 3 (if imageVerifies image = false then status s' 2
        else if level < s.rollback.toNat then status s' 3
        else status { s' with imageSlots := s.imageSlots.set (1 - s.runSlot) (some image), bootSlot := 1 - s.runSlot,
                              rollback := BitVec.ofNat 64 level } 0) ∧
      command (.readLifetimeCounters v) 4
        (output s (Config.counterLayout ((List.range 320).flatMap (fun c => countRow (chanCount s c))))) ∧
      command (.readIdentityKey v) 6 (output s identityKey) ∧ identityKey.length = 516 ∧
      (∃ l, command (.clearRepairEntries v) 5
          (status { s with
            repair := s.repair.filter (fun e => repairState e < 2), retired := l, unbond := (pinUnbondable s).unbond } 0) ∧
        ∀ k, cget false l k = true ↔ cget false s.retired k = true ∧ ¬ ∃ e ∈ s.repair, 2 ≤ repairState e ∧
          slotKey (repairChannel e) (repairSlot e) = k ∧ ∀ r ∈ s.repair, repairState r = 1 →
            ¬ (repairChannel r = repairChannel e ∧ repairSlot r = repairSlot e))) ∧
    (s.powered = true → exec .powerGood s = .next s) ∧
    (s.powered = false → exec .powerGood s = .next { s with
      powered := true, phase := 0, powerGoodAt := s.now, coldStarts := s.coldStarts + 1
      nextInterval := (s.now / 20000 + 1) * 20000, nextWindow := (s.now / 50000 + 1) * 50000, nextPoll := (s.now / 10000 + 1) * 10000
      nextWatchdog := (s.now / 1000000 + 1) * 1000000, nextFlush := s.now + 60000000000 }) ∧
    (s.powered = false ∨ 4 ≤ s.phase ∨ s.phase = 2 ∧ lowestTemp s < 0 → exec .bootPhaseEnd s = .next s) ∧
    (s.powered = true →
      (s.phase = 0 → ∃ m, exec .bootPhaseEnd s = .next (match bootFirmware s with
          | some l => { s with modules := m, phase := 1, images := l, runSlot := s.bootSlot }
          | none => { s with modules := m, phase := 5 }) ∧
        ∀ i, m[i]? = (s.modules[i]?).map (fun _ => (Config.moduleTrains i s.coldStarts, []))) ∧
      (s.phase = 1 → ∃ l r n, exec .bootPhaseEnd s = .next { s with phase := 2, repair := l, retired := r, repairsUsed := n } ∧ l.length = s.repair.length ∧
        ∀ k, cget false r k = true ↔ ∃ e ∈ l, repairOpen e = true ∧ slotKey (repairChannel e) (repairSlot e) = k) ∧
      (s.phase = 2 → 0 ≤ lowestTemp s → exec .bootPhaseEnd s = .next { s with phase := 3 }) ∧
      (s.phase = 3 → ∃ t, exec .bootPhaseEnd s = .next t ∧ (t.phase = 4 ∨ t.phase = 5) ∧
        (∀ c, c < 320 → chanHealth t c = if chanHealth s c ≠ .dead ∧ Config.channelTrains c s.coldStarts = true then .good else .dead) ∧
        (t.phase = 5 ↔ ∃ j k, j < k ∧ k < 10 ∧ stackDead t j = true ∧ stackDead t k = true) ∧ SameMemory s t)) ∧
    (∃ t, exec .powerLoss s = .next t ∧ t.powered = false ∧ t.blocks = [] ∧ t.contexts = [] ∧ t.queues = [] ∧ t.jobs = [] ∧ t.dev = [] ∧
      t.hostMem = s.hostMem ∧ t.imageSlots = s.imageSlots ∧ t.bootSlot = s.bootSlot ∧ t.rollback = s.rollback ∧ t.bond = s.bond ∧
      t.health = s.health ∧ t.pcDead = s.pcDead ∧ t.bankDead = s.bankDead ∧ t.repair = s.repair ∧ t.chanCounts = s.nvsCounts ∧
      t.nvsCounts = s.nvsCounts)
end

