-- ==== Sys2Proof/Laws/Answers.lean ====
section
/-!
SUPPORT. What a meaning and an issue unit answer: a next state, where a path issues or the instruction is an event; and
the instructions that the device brings on its own are events.
-/

namespace Sys2Proof.Machine

/-- The answer is a next state. -/
abbrev Answers (o : Host.Outcome State Fault Refusal) : Prop := ∃ t, o = .next t

/-- A Ralvas instruction answers a next state where a path issues it. -/
theorem runInstr_answers {s : State} (j : Instr) (e : View → State) (hv : viewOf s ≠ none) : Answers (runInstr j s e) := by
  unfold runInstr
  cases hq : viewOf s with
  | none => exact absurd hq hv
  | some v =>
    dsimp only
    split <;> exact ⟨_, rfl⟩

theorem execQueueCreationDone_answers (p : BitVec 3) (s : State) : Answers (execQueueCreationDone p s) := by
  unfold execQueueCreationDone
  dsimp only
  repeat' first | exact ⟨_, rfl⟩ | split

/-- Every meaning answers a next state where a path issues the instruction, or where it is an event. -/
theorem exec_answers (s : State) (i : Instr) (h : viewOf s ≠ none ∨ pipeClass i = .event) : Answers (exec i s) := by
  have hr : ∀ j e, pipeClass j ≠ .event → (viewOf s ≠ none ∨ pipeClass j = .event) → Answers (runInstr j s e) :=
    fun j e hj h => runInstr_answers j e (h.resolve_right hj)
  cases i <;> first
    | exact ⟨_, rfl⟩
    | exact execQueueCreationDone_answers _ _
    | exact hr _ _ (by intro hh; cases hh) h
    | (dsimp only [exec, execQcreate, execQdestroy, execQueueDestroyDone, execNotifyWrite, execConsumeSlot,
        execPacketStart, execSignalPacket, execCopyPacket, execWaitPacket, execWaitRetest, execWaitPollTimer,
        execLaunchComplete, execSubmissionTake, execCsel, execCselClear, execBlockPlace, execLaunchHolding,
        execBlockLeave, execSaveDeadline, execCtxctlHalt, execHaltComplete, execCtxctlResume, execCtxctlStep,
        execCtxctlSave, execCtxctlRemove, execCtxctlDestroy, execPgdone, execPgdoneAbort, execPreempt,
        execTimeSliceExpiry, execCcreate, execContextCreationDone, execAcsel, execXinv, execXinvDone,
        execWatchdogCheck, execRecoveryNotice, execRecoveryExpiry, execIntervalStart, execClockRaise,
        execSensitivityWindowEnd, execDroopStretch, execSupplyRecovers, execMarginOffsetDecay, execRailmap,
        execPctlEnable, execPartitionReset, execPctlDisable, execPartitionResetDone, execRegisterWrite, execAttest,
        execReadIdentityKey, execFwstage, execFwcommit, execReadLifetimeCounters, execClearRepairEntries,
        execInjpoison, execChannelFail, execInjdeadChannel, execInjdeadPseudoChannel, execInjdeadBank,
        execInjdeadStack, execInjdeadRetrainNow, execRebuildSpan, execMemberSwitch, execStaleSlotRewrite,
        execRetrainStart, execRetrainEnd, execRetrainTimeout, execScrubSpan, execCounterFlush, execHostMemoryAccess,
        execHostSnoop, execFabricRequest, execFabricPauseFlit, execFabricResumeFlit, execPauseExpiry,
        execFlitReplay, execPauseFlitRepeat, execModuleRemove, execPowerLoss, execPowerGood, execBootPhaseEnd,
        execSaveDone, execRestoreBlocks, execLongWriteComplete, execRemoteAccessDone, execBarrierComplete,
        execPhaseWake, execStorePerformed, execEngineAccept, execEngineStart, execEngineComplete,
        execTapeStageBarrier, execPacketFetch, execCourseStarved, mbCommand, injdead]
       repeat' first | exact ⟨_, rfl⟩ | split)

theorem runMembers_answers (l : List (Nat × SlotCode)) : ∀ s, Answers (runMembers l s) := by
  induction l with
  | nil => exact fun s => ⟨_, rfl⟩
  | cons e rest ih =>
    intro s
    unfold runMembers
    split
    · exact ⟨_, rfl⟩
    · dsimp only
      split
      · exact ⟨_, rfl⟩
      · rename_i u _ _ v hv
        obtain ⟨t, ht⟩ := exec_answers { s with issue := some (atMember u e rest.isEmpty) } e.2.instr (.inl (by rw [hv]; simp))
        rw [ht]
        exact ih t

theorem runUnit_answers (s : State) (u : Issue) (l : List (Nat × SlotCode)) : Answers (runUnit s u l) := by
  unfold runUnit
  split
  · exact ⟨_, rfl⟩
  · split <;> exact ⟨_, rfl⟩
  · exact runMembers_answers _ _

theorem issueUnit_answers (s : State) (blk c slot : Nat) : Answers (issueUnit s blk c slot) := by
  unfold issueUnit
  split
  · exact ⟨_, rfl⟩
  · split
    · exact runUnit_answers ..
    · exact ⟨_, rfl⟩

/-! ### The device's own events -/

/-- Nothing, or an event. -/
abbrev EventOnly (o : Option Instr) : Prop := ∀ i, o = some i → pipeClass i = .event

theorem eventOnly_none : EventOnly none := fun _ h => nomatch h

theorem eventOnly_some {i : Instr} (h : pipeClass i = .event) : EventOnly (some i) := fun _ e => by injection e with e; exact e ▸ h

theorem eventOnly_when {i : Instr} (b : Bool) (h : pipeClass i = .event) : EventOnly (when b i) := by
  unfold when
  split
  · exact eventOnly_some h
  · exact eventOnly_none

theorem eventOnly_map {α : Type} {f : α → Instr} (o : Option α) (h : ∀ a, pipeClass (f a) = .event) : EventOnly (o.map f) := by
  cases o with
  | none => exact eventOnly_none
  | some a => exact eventOnly_some (h a)

theorem eventOnly_findSome? {α : Type} {f : α → Option Instr} (l : List α) (h : ∀ a, EventOnly (f a)) :
    EventOnly (l.findSome? f) := fun i hi => by
  obtain ⟨a, _, ha⟩ := List.exists_of_findSome?_eq_some hi
  exact h a i ha

theorem barrierDue_event (s : State) : EventOnly (barrierDue s) := by
  unfold barrierDue
  split
  · exact eventOnly_none
  · exact eventOnly_findSome? _ fun _ => eventOnly_findSome? _ fun _ => eventOnly_when _ rfl

theorem phaseDue_event (s : State) : EventOnly (phaseDue s) :=
  eventOnly_findSome? _ fun e => by
    split
    · exact eventOnly_none
    · exact eventOnly_findSome? _ fun k => by
        split
        · exact eventOnly_when _ rfl
        · exact eventOnly_none

theorem longDue_event (s : State) : EventOnly (longDue s) := eventOnly_findSome? _ fun _ => eventOnly_map _ fun _ => rfl

theorem starvedDue_event (s : State) : EventOnly (starvedDue s) := eventOnly_findSome? _ fun _ => eventOnly_when _ rfl

theorem stageDue_event (s : State) : EventOnly (stageDue s) := eventOnly_findSome? _ fun _ => eventOnly_when _ rfl

theorem engineDue_event (s : State) : EventOnly (engineDue s) := by
  unfold engineDue
  split
  · exact eventOnly_some rfl
  · split
    · exact eventOnly_some rfl
    · exact eventOnly_map _ fun _ => rfl

theorem leaveDue_event (s : State) : EventOnly (leaveDue s) := eventOnly_findSome? _ fun _ => eventOnly_when _ rfl

theorem waitDue_event (e : Nat × Job) : EventOnly (waitDue e) := by
  unfold waitDue
  split
  · exact eventOnly_some rfl
  · exact eventOnly_when _ rfl

theorem completionDue_event (s : State) (e : Nat × Job) : EventOnly (completionDue s e) := by
  unfold completionDue
  dsimp only
  repeat' split
  all_goals first | exact eventOnly_none | exact eventOnly_some rfl | exact eventOnly_when _ rfl | exact waitDue_event e

theorem mem_insertKey {α : Type} (key : α → Nat × Nat) (a b : α) : ∀ l : List α, b ∈ insertKey key a l → b = a ∨ b ∈ l
  | [], h => Or.inl (List.mem_singleton.mp h)
  | c :: t, h => by
    unfold insertKey at h
    split at h
    · exact List.mem_cons.mp h
    · rcases List.mem_cons.mp h with h | h
      · exact Or.inr (h ▸ List.mem_cons_self)
      · exact (mem_insertKey key a b t h).imp_right (List.mem_cons_of_mem c)

theorem mem_foldl_insertKey {α : Type} (key : α → Nat × Nat) (b : α) : ∀ l r : List α,
    b ∈ l.foldl (fun r a => insertKey key a r) r → b ∈ l ∨ b ∈ r
  | [], _, h => Or.inr h
  | c :: t, r, h => by
    rcases mem_foldl_insertKey key b t _ h with h | h
    · exact Or.inl (List.mem_cons_of_mem c h)
    · rcases mem_insertKey key c b r h with rfl | h
      · exact Or.inl List.mem_cons_self
      · exact Or.inr h

/-- The ready order holds only what it orders. -/
theorem mem_byKey {α : Type} {key : α → Nat × Nat} {b : α} {l : List α} (h : b ∈ byKey key l) : b ∈ l :=
  (mem_foldl_insertKey key b l [] h).resolve_right (by simp)

theorem consumeDue_event (s : State) : EventOnly (consumeDue s) := fun i hi => by
  obtain ⟨e, he, rfl⟩ := Option.map_eq_some_iff.mp hi
  rcases List.mem_append.mp (mem_byKey (List.mem_of_mem_head? he)) with h | h <;>
    (obtain ⟨_, _, rfl⟩ := List.mem_map.mp h; rfl)

theorem jobsDue_event (s : State) : EventOnly (jobsDue s) := by
  unfold jobsDue
  split
  · next i h => exact fun k hk => eventOnly_findSome? _ (completionDue_event s) k (by unfold completionsDue at h; rw [← hk]; exact h)
  · split
    · next h => exact fun k hk => consumeDue_event s k (h.trans hk)
    · exact eventOnly_map _ fun _ => rfl

theorem placesBlock_event (s : State) (e : Nat × Job) : EventOnly (placesBlock s e) := by
  unfold placesBlock
  repeat' split
  · exact eventOnly_some rfl
  · intro i hi
    obtain ⟨_, _, h⟩ := Option.bind_eq_some_iff.mp hi
    exact eventOnly_when _ rfl i h
  · exact eventOnly_none

theorem placeDue_event (s : State) : EventOnly (placeDue s) := by
  unfold placeDue
  split
  · exact eventOnly_some rfl
  · exact eventOnly_findSome? _ fun _ => eventOnly_findSome? _ (placesBlock_event s)

theorem contextsDue_event (s : State) : EventOnly (contextsDue s) := eventOnly_findSome? _ fun e => by
  unfold contextDue
  repeat' first | exact eventOnly_some rfl | exact eventOnly_when _ rfl | split

theorem partsDue_event (s : State) : EventOnly (partsDue s) := eventOnly_findSome? _ fun p => by
  unfold partDue
  dsimp only
  repeat' first | exact eventOnly_some rfl | exact eventOnly_map _ fun _ => rfl | split

theorem clusterDue_event (s : State) (e : Nat × Cluster) : EventOnly (clusterDue s e) := by
  unfold clusterDue
  split
  · exact eventOnly_some rfl
  · exact eventOnly_when _ rfl

theorem trainingDue_event (s : State) : EventOnly (trainingDue s) := by
  unfold trainingDue
  repeat' first | exact eventOnly_none | exact eventOnly_some rfl | exact eventOnly_when _ rfl | split

theorem laneDue_event (s : State) (e : Nat × Lane) : EventOnly (laneDue s e) := by
  unfold laneDue
  dsimp only
  split
  · exact eventOnly_some rfl
  · exact eventOnly_when _ rfl

theorem timerDue_event (s : State) : EventOnly (timerDue s) := by
  have h1 := eventOnly_findSome? s.clusters (clusterDue_event s)
  have h2 := eventOnly_findSome? s.lanes (laneDue_event s)
  have h3 : EventOnly (moduleDue s) := eventOnly_map _ fun _ => rfl
  have h4 := trainingDue_event s
  unfold timerDue
  intro i hi
  repeat' split at hi
  all_goals first
    | contradiction
    | (injection hi with hi; subst hi; first | rfl | exact h1 _ ‹_› | exact h4 _ ‹_› | exact h2 _ ‹_› | exact h3 _ ‹_›)
    | exact eventOnly_when _ rfl i hi

theorem storeDue_event (s : State) : EventOnly (storeDue s) := eventOnly_map _ fun _ => rfl

theorem dueEvent_event (s : State) : EventOnly (dueEvent s) := by
  unfold dueEvent
  split
  · exact eventOnly_none
  · intro i hi
    obtain ⟨f, hf, hi⟩ := List.exists_of_findSome?_eq_some hi
    simp only [List.mem_cons, List.not_mem_nil, or_false] at hf
    rcases hf with rfl | rfl | rfl | rfl | rfl | rfl | rfl | rfl | rfl | rfl | rfl | rfl | rfl
    exacts [timerDue_event s i hi, barrierDue_event s i hi, phaseDue_event s i hi, longDue_event s i hi,
      storeDue_event s i hi, starvedDue_event s i hi, stageDue_event s i hi, engineDue_event s i hi,
      leaveDue_event s i hi, jobsDue_event s i hi, partsDue_event s i hi,
      contextsDue_event s i hi, placeDue_event s i hi]

theorem settleDue_event (s : State) : EventOnly (settleDue s) := by
  unfold settleDue
  intro i hi
  split at hi
  · injection hi with hi; subst hi; rfl
  · split at hi
    · rename_i j hj
      injection hi with hi; subst hi
      exact eventOnly_findSome? s.courses (fun e => eventOnly_map _ fun _ => rfl) _ hj
    · split at hi
      · contradiction
      · split at hi
        · injection hi with hi; subst hi; split <;> rfl
        · split at hi
          · injection hi with hi; subst hi; rfl
          · exact eventOnly_when _ rfl i hi

end Sys2Proof.Machine
end

