-- ==== Sys2Proof/Laws/Bits.lean ====
section
/-!
SUPPORT. Laws of tables, of cells with a default, and of lane masks: a read after a write, what a write leaves alone, and
that every write keeps the canonical form.
-/

namespace Sys2Proof.Machine

variable {α : Type}

/-! ### Tables -/

@[simp] theorem find?_put_self (m : Assoc α) (k : Nat) (v : α) : find? (put m k v) k = some v := by
  induction m with
  | nil => simp [put, find?]
  | cons e t ih =>
    obtain ⟨a, w⟩ := e
    simp only [put]
    split
    · simp [find?]
    · split
      · simp [find?]
      · simp [find?, *]

theorem find?_put_ne (m : Assoc α) {k j : Nat} (v : α) (h : j ≠ k) : find? (put m k v) j = find? m j := by
  induction m with
  | nil => simp [put, find?, Ne.symm h]
  | cons e t ih =>
    obtain ⟨a, w⟩ := e
    simp only [put]
    split
    · subst_vars; simp [find?, Ne.symm h]
    · split
      · simp [find?, Ne.symm h]
      · simp only [find?, ih]

theorem find?_put (m : Assoc α) (k j : Nat) (v : α) : find? (put m k v) j = if j = k then some v else find? m j := by
  split
  · subst_vars; exact find?_put_self m _ v
  · exact find?_put_ne m v ‹_›

@[simp] theorem find?_del_self (m : Assoc α) (k : Nat) : find? (del m k) k = none := by
  induction m with
  | nil => rfl
  | cons e t ih =>
    obtain ⟨a, w⟩ := e
    simp only [del]
    split
    · exact ih
    · simp [find?, *]

theorem find?_del_ne (m : Assoc α) {k j : Nat} (h : j ≠ k) : find? (del m k) j = find? m j := by
  induction m with
  | nil => rfl
  | cons e t ih =>
    obtain ⟨a, w⟩ := e
    simp only [del]
    split
    · subst_vars; simp [find?, ih, Ne.symm h]
    · simp only [find?, ih]

/-! ### Cells -/

theorem cget_cset [DecidableEq α] (d : α) (m : Cells α) (k j : Nat) (v : α) :
    cget d (cset d m k v) j = if j = k then v else cget d m j := by
  unfold cset cget
  by_cases hv : v = d <;> by_cases hj : j = k
  · subst_vars; simp
  · simp [hv, hj, find?_del_ne m hj]
  · subst_vars; simp [hv]
  · simp [hv, hj, find?_put_ne m v hj]

@[simp] theorem cget_cset_self [DecidableEq α] (d : α) (m : Cells α) (k : Nat) (v : α) : cget d (cset d m k v) k = v := by
  simp [cget_cset]

theorem cget_cset_ne [DecidableEq α] (d : α) (m : Cells α) {k j : Nat} (v : α) (h : j ≠ k) :
    cget d (cset d m k v) j = cget d m j := by simp [cget_cset, h]

/-- The last of several writes to a key decides. -/
theorem cget_csetAll_of_not_mem [DecidableEq α] (d : α) (l : List (Nat × α)) (m : Cells α) {j : Nat}
    (h : ∀ e ∈ l, e.1 ≠ j) : cget d (csetAll d m l) j = cget d m j := by
  induction l generalizing m with
  | nil => rfl
  | cons e t ih =>
    obtain ⟨k, v⟩ := e
    simp only [csetAll]
    rw [ih _ (fun e he => h e (List.mem_cons_of_mem _ he))]
    exact cget_cset_ne d m v (Ne.symm (h (k, v) (List.mem_cons_self)))

theorem cget_csetRun [DecidableEq α] (d : α) (l : List α) (m : Cells α) (k j : Nat) :
    cget d (csetRun d m k l) j = if h : k ≤ j ∧ j - k < l.length then l[j - k]'h.2 else cget d m j := by
  induction l generalizing m k with
  | nil => simp [csetRun]
  | cons v t ih =>
    rw [csetRun, ih, cget_cset]
    by_cases h1 : k + 1 ≤ j ∧ j - (k + 1) < t.length
    · have h2 : k ≤ j ∧ j - k < (v :: t).length := by simp only [List.length_cons]; omega
      rw [dif_pos h1, dif_pos h2]
      have : j - k = (j - (k + 1)) + 1 := by omega
      simp only [this, List.getElem_cons_succ]
    · rw [dif_neg h1]
      by_cases h3 : j = k
      · subst h3; simp
      · rw [if_neg h3, dif_neg]
        simp only [List.length_cons]
        omega

/-- Outside the run a write of a run changes nothing. -/
theorem cget_csetRun_outside [DecidableEq α] (d : α) (l : List α) (m : Cells α) {k j : Nat}
    (h : j < k ∨ k + l.length ≤ j) : cget d (csetRun d m k l) j = cget d m j := by
  rw [cget_csetRun, dif_neg]; omega

/-! ### The canonical form -/

theorem keysAbove_mono {lo hi : Nat} (h : lo ≤ hi) {m : Assoc α} (hm : keysAbove hi m = true) : keysAbove lo m = true := by
  cases m with
  | nil => rfl
  | cons e t =>
    obtain ⟨a, w⟩ := e
    simp only [keysAbove, Bool.and_eq_true, decide_eq_true_eq] at hm ⊢
    exact ⟨by omega, hm.2⟩

theorem keysAbove_put {lo k : Nat} {m : Assoc α} (v : α) (hm : keysAbove lo m = true) (hk : lo < k) :
    keysAbove lo (put m k v) = true := by
  induction m generalizing lo with
  | nil => simp [put, keysAbove, hk]
  | cons e t ih =>
    obtain ⟨a, w⟩ := e
    simp only [keysAbove, Bool.and_eq_true, decide_eq_true_eq] at hm
    simp only [put]
    split
    · subst_vars; simp [keysAbove, hm]
    · split
      · simp [keysAbove, *]
      · simp only [keysAbove, Bool.and_eq_true, decide_eq_true_eq]
        exact ⟨hm.1, ih hm.2 (by omega)⟩

theorem keysAbove_del {lo k : Nat} {m : Assoc α} (hm : keysAbove lo m = true) : keysAbove lo (del m k) = true := by
  induction m generalizing lo with
  | nil => rfl
  | cons e t ih =>
    obtain ⟨a, w⟩ := e
    simp only [keysAbove, Bool.and_eq_true, decide_eq_true_eq] at hm
    simp only [del]
    split
    · exact keysAbove_mono (Nat.le_of_lt hm.1) (ih hm.2)
    · simp only [keysAbove, Bool.and_eq_true, decide_eq_true_eq]
      exact ⟨hm.1, ih hm.2⟩

theorem rising_of_keysAbove {lo : Nat} {m : Assoc α} (h : keysAbove lo m = true) : rising m = true := by
  cases m with
  | nil => rfl
  | cons e t =>
    obtain ⟨a, w⟩ := e
    simp only [keysAbove, Bool.and_eq_true] at h
    exact h.2

/-- Putting an entry keeps the keys rising. -/
theorem rising_put {m : Assoc α} (k : Nat) (v : α) (h : rising m = true) : rising (put m k v) = true := by
  cases m with
  | nil => rfl
  | cons e t =>
    obtain ⟨a, w⟩ := e
    simp only [rising] at h
    simp only [put]
    split
    · subst_vars; exact h
    · split
      · simp only [rising, keysAbove, Bool.and_eq_true, decide_eq_true_eq]; exact ⟨‹_›, h⟩
      · exact keysAbove_put v h (by omega)

/-- Taking a key out keeps the keys rising. -/
theorem rising_del {m : Assoc α} (k : Nat) (h : rising m = true) : rising (del m k) = true := by
  cases m with
  | nil => rfl
  | cons e t =>
    obtain ⟨a, w⟩ := e
    simp only [rising] at h
    simp only [del]
    split
    · exact rising_of_keysAbove (keysAbove_del h)
    · exact keysAbove_del h

theorem mem_put {m : Assoc α} {k : Nat} {v : α} {e : Nat × α} (h : e ∈ put m k v) : e = (k, v) ∨ e ∈ m := by
  induction m with
  | nil => simpa [put] using h
  | cons x t ih =>
    obtain ⟨a, w⟩ := x
    simp only [put] at h
    split at h
    · rcases List.mem_cons.mp h with h | h
      · exact .inl h
      · exact .inr (List.mem_cons_of_mem _ h)
    · split at h
      · rcases List.mem_cons.mp h with h | h
        · exact .inl h
        · exact .inr h
      · rcases List.mem_cons.mp h with h | h
        · exact .inr (h ▸ List.mem_cons_self)
        · exact (ih h).imp id (List.mem_cons_of_mem _)

theorem mem_del {m : Assoc α} {k : Nat} {e : Nat × α} (h : e ∈ del m k) : e ∈ m := by
  induction m with
  | nil => exact h
  | cons x t ih =>
    obtain ⟨a, w⟩ := x
    simp only [del] at h
    split at h
    · exact List.mem_cons_of_mem _ (ih h)
    · rcases List.mem_cons.mp h with h | h
      · exact h ▸ List.mem_cons_self
      · exact List.mem_cons_of_mem _ (ih h)

/-- A write of one cell keeps the canonical form. -/
theorem cellsWf_cset [DecidableEq α] {d : α} {m : Cells α} (k : Nat) (v : α) (h : cellsWf d m = true) :
    cellsWf d (cset d m k v) = true := by
  simp only [cellsWf, Bool.and_eq_true, List.all_eq_true, decide_eq_true_eq] at h ⊢
  unfold cset
  split
  · exact ⟨rising_del k h.1, fun e he => h.2 e (mem_del he)⟩
  · refine ⟨rising_put k v h.1, fun e he => ?_⟩
    rcases mem_put he with rfl | he
    · assumption
    · exact h.2 e he

/-- A write of a run keeps the canonical form. -/
theorem cellsWf_csetRun [DecidableEq α] {d : α} (l : List α) {m : Cells α} (k : Nat) (h : cellsWf d m = true) :
    cellsWf d (csetRun d m k l) = true := by
  induction l generalizing m k with
  | nil => exact h
  | cons v t ih => exact ih (k + 1) (cellsWf_cset k v h)

/-- A write of many cells keeps the canonical form. -/
theorem cellsWf_csetAll [DecidableEq α] {d : α} (l : List (Nat × α)) {m : Cells α} (h : cellsWf d m = true) :
    cellsWf d (csetAll d m l) = true := by
  induction l generalizing m with
  | nil => exact h
  | cons e t ih => exact ih (cellsWf_cset e.1 e.2 h)

theorem keysAbove_filter {lo : Nat} {m : Assoc α} (p : Nat × α → Bool) (h : keysAbove lo m = true) :
    keysAbove lo (m.filter p) = true := by
  induction m generalizing lo with
  | nil => rfl
  | cons e t ih =>
    obtain ⟨a, w⟩ := e
    simp only [keysAbove, Bool.and_eq_true, decide_eq_true_eq] at h
    rw [List.filter_cons]
    split
    · simp only [keysAbove, Bool.and_eq_true, decide_eq_true_eq]
      exact ⟨h.1, ih h.2⟩
    · exact keysAbove_mono (Nat.le_of_lt h.1) (ih h.2)

theorem rising_filter {m : Assoc α} (p : Nat × α → Bool) (h : rising m = true) : rising (m.filter p) = true := by
  cases m with
  | nil => rfl
  | cons e t =>
    obtain ⟨a, w⟩ := e
    simp only [rising] at h
    rw [List.filter_cons]
    split
    · exact keysAbove_filter p h
    · exact rising_of_keysAbove (keysAbove_filter p h)

/-- Leaving cells out keeps the canonical form. -/
theorem cellsWf_filter [DecidableEq α] {d : α} {m : Cells α} (p : Nat × α → Bool) (h : cellsWf d m = true) :
    cellsWf d (m.filter p) = true := by
  simp only [cellsWf, Bool.and_eq_true, List.all_eq_true, decide_eq_true_eq] at h ⊢
  exact ⟨rising_filter p h.1, fun e he => h.2 e (List.mem_of_mem_filter he)⟩

/-! ### Lane masks -/

theorem mem_lanesOf {m : Lanes} {l : Nat} : l ∈ lanesOf m ↔ l < 32 ∧ m.getLsbD l = true := by
  simp [lanesOf, List.mem_filter]

theorem lanesOf_eq_nil {m : Lanes} : lanesOf m = [] ↔ m = 0 := by
  constructor
  · intro h
    apply BitVec.eq_of_getLsbD_eq
    intro i hi
    have : i ∉ lanesOf m := by simp [h]
    simp only [mem_lanesOf, not_and, Bool.not_eq_true] at this
    simpa using this hi
  · rintro rfl; simp [lanesOf]

theorem foldl_maskOf_getLsbD (f : Nat → Bool) (l : List Nat) (m : Lanes) (i : Nat) (hl : ∀ x ∈ l, x < 32) :
    (l.foldl (fun (m : Lanes) l => if f l then m ||| (1#32 <<< l) else m) m).getLsbD i
      = (m.getLsbD i || (decide (i ∈ l) && f i)) := by
  induction l generalizing m with
  | nil => simp
  | cons a t ih =>
    rw [List.foldl_cons, ih _ (fun x hx => hl x (List.mem_cons_of_mem _ hx))]
    have ha : a < 32 := hl a List.mem_cons_self
    by_cases hia : i = a
    · subst hia
      cases hf : f i <;> simp [ha]
    · have : (1#32 <<< a).getLsbD i = false := by
        simp only [BitVec.getLsbD_shiftLeft, BitVec.getLsbD_one]
        by_cases h1 : i < a
        · simp [h1]
        · have : i - a ≠ 0 := by omega
          simp [this]
      cases hf : f a <;> simp [hia, BitVec.getLsbD_or, this]

/-- Bit `i` of the mask of the lanes for which `f` holds. -/
@[simp] theorem getLsbD_maskOf (f : Nat → Bool) (i : Nat) : (maskOf f).getLsbD i = (decide (i < 32) && f i) := by
  rw [maskOf, foldl_maskOf_getLsbD f _ _ _ (fun x hx => List.mem_range.mp hx)]
  simp

end Sys2Proof.Machine
end

