-- ==== Sys2Proof/Laws/Registers.lean ====
section
/-!
SUPPORT. Laws of the register files (R54 to R63): what a read sees after a write, and what a write leaves alone.
-/

namespace Sys2Proof.Machine

/-! ### The fields that register writes leave alone -/

theorem OnlyRegs.refl (k : Course) : OnlyRegs k k := rfl

theorem OnlyRegs.trans {a b c : Course} (h : OnlyRegs a b) (g : OnlyRegs b c) : OnlyRegs a c := by
  unfold OnlyRegs at *
  rw [g, h]

theorem OnlyRegs.live {k k' : Course} (h : OnlyRegs k k') : k'.live = k.live := by rw [h]

theorem onlyRegs_writeV (k : Course) (r : Nat) (m : Lanes) (l : List Word) : OnlyRegs k (writeV k r m l) := by
  unfold writeV; split <;> rfl

theorem onlyRegs_writeS (k : Course) (r : Nat) (w : Word) : OnlyRegs k (writeS k r w) := rfl

theorem onlyRegs_writeP (k : Course) (p : Nat) (m v : Lanes) : OnlyRegs k (writeP k p m v) := by
  unfold writeP; split <;> rfl

theorem onlyRegs_applyWrite (k : Course) (w : RegWrite) : OnlyRegs k (applyWrite k w) := by
  cases w
  · exact onlyRegs_writeV ..
  · exact onlyRegs_writeS ..
  · exact onlyRegs_writeP ..

theorem onlyRegs_applyWrites (k : Course) (l : List RegWrite) : OnlyRegs k (applyWrites k l) := by
  induction l generalizing k with
  | nil => rfl
  | cons w t ih => exact (onlyRegs_applyWrite k w).trans (ih _)

@[simp] theorem live_applyWrites (k : Course) (l : List RegWrite) : (applyWrites k l).live = k.live :=
  (onlyRegs_applyWrites k l).live

theorem applyWrites_append (k : Course) (a b : List RegWrite) : applyWrites k (a ++ b) = applyWrites (applyWrites k a) b :=
  List.foldl_append

@[simp] theorem applyWrites_nil (k : Course) : applyWrites k [] = k := rfl

@[simp] theorem applyWrites_cons (k : Course) (w : RegWrite) (l : List RegWrite) :
    applyWrites k (w :: l) = applyWrites (applyWrite k w) l := rfl

/-! ### Spent bits -/

theorem getLsbD_clear {n : Nat} (x : BitVec n) (r i : Nat) : (x &&& ~~~(1#n <<< r)).getLsbD i = (x.getLsbD i && decide (i ≠ r)) := by
  by_cases hi : i < n
  · by_cases hr : i = r
    · subst hr; simp [hi]
    · have : (1#n <<< r).getLsbD i = false := by
        simp only [BitVec.getLsbD_shiftLeft, BitVec.getLsbD_one]
        by_cases h1 : i < r
        · simp [h1]
        · have : i - r ≠ 0 := by omega
          simp [this]
      simp only [BitVec.getLsbD_and, BitVec.getLsbD_not, this, Bool.not_false]
      simp [hi, hr]
  · simp [BitVec.getLsbD_of_ge _ _ (Nat.le_of_not_lt hi)]

theorem getLsbD_setBit {n : Nat} (x : BitVec n) {r : Nat} (i : Nat) (hr : r < n) :
    (x ||| (1#n <<< r)).getLsbD i = (x.getLsbD i || decide (i = r)) := by
  by_cases h : i = r
  · subst h; simp [hr]
  · have : (1#n <<< r).getLsbD i = false := by
      simp only [BitVec.getLsbD_shiftLeft, BitVec.getLsbD_one]
      by_cases h1 : i < r
      · simp [h1]
      · have : i - r ≠ 0 := by omega
        simp [this]
    simp [BitVec.getLsbD_or, this, h]

/-! ### Vector registers -/

/-- The cells of the lanes that a write names. -/
theorem cget_laneCells (b : Cells Word) (r : Nat) (m : Lanes) (l : List Word) (n j : Nat) (hj : j < 32) :
    cget 0#32 (csetAll 0#32 b ((lanesOf m).map (fun i => (32 * r + i, l.getD i 0#32)))) (32 * n + j)
      = if n = r ∧ m.getLsbD j = true then l.getD j 0#32 else cget 0#32 b (32 * n + j) := by
  have key : ∀ (ls : List Nat) (b : Cells Word), (∀ x ∈ ls, x < 32) →
      cget 0#32 (csetAll 0#32 b (ls.map (fun i => (32 * r + i, l.getD i 0#32)))) (32 * n + j)
        = if n = r ∧ j ∈ ls then l.getD j 0#32 else cget 0#32 b (32 * n + j) := by
    intro ls
    induction ls with
    | nil => intro b _; simp [csetAll]
    | cons a t ih =>
      intro b hb
      have ha : a < 32 := hb a List.mem_cons_self
      rw [List.map_cons, csetAll, ih _ (fun x hx => hb x (List.mem_cons_of_mem _ hx)), cget_cset]
      by_cases h1 : n = r
      · by_cases h2 : j ∈ t
        · simp [h1, h2]
        · by_cases h3 : j = a
          · subst h3; simp [h1]
          · have : ¬ (32 * n + j = 32 * r + a) := by omega
            simp [h2, h3, this]
      · have : ¬ (32 * n + j = 32 * r + a) := by omega
        simp [h1, this]
  rw [key (lanesOf m) b (fun x hx => (mem_lanesOf.mp hx).1)]
  simp [mem_lanesOf, hj]

theorem vSpent_writeV (k : Course) (r : Nat) (m : Lanes) (l : List Word) (n : Nat) :
    vSpent (writeV k r m l) n = (vSpent k n && !(decide (n = r) && decide (m ≠ 0))) := by
  unfold writeV vSpent
  by_cases hm : m = 0
  · simp [hm]
  · simp only [hm, if_false]
    rw [getLsbD_clear]
    have hm' : ¬ m = 0#32 := hm
    by_cases h : n = r <;> simp [h, hm']

/-- A read of lane `j` of a vector register after a write of lanes `m` of v r (R59, R61). -/
theorem readV_writeV (k : Course) (r : Nat) (m : Lanes) (l : List Word) (n j : Nat) (hj : j < 32) :
    readV (writeV k r m l) n j = if n = r ∧ m.getLsbD j = true then l.getD j 0#32 else readV k n j := by
  by_cases hm : m = 0
  · subst hm; simp [writeV]
  · unfold readV
    rw [vSpent_writeV]
    simp only [writeV, hm, if_false, ne_eq, not_false_eq_true, decide_true, Bool.and_true]
    rw [cget_laneCells _ _ _ _ _ _ hj]
    by_cases hn : n = r
    · subst hn
      by_cases hb : m.getLsbD j = true
      · simp [hb]
      · simp only [hb, decide_true, Bool.not_true, Bool.and_false]
        by_cases hs : vSpent k n = true
        · simp only [hs, if_true]
          rw [cget_csetRun, dif_pos (by rw [List.length_replicate]; omega)]
          exact List.getElem_replicate ..
        · simp [hs]
    · simp only [hn, false_and, if_false, decide_false, Bool.not_false, Bool.and_true]
      by_cases hs : vSpent k r = true
      · simp only [hs, if_true]
        rw [cget_csetRun_outside _ _ _ (by simp; omega)]
      · simp [hs]

@[simp] theorem readV_writeS (k : Course) (r : Nat) (w : Word) (n j : Nat) : readV (writeS k r w) n j = readV k n j := rfl

@[simp] theorem readV_writeP (k : Course) (p : Nat) (m v : Lanes) (n j : Nat) : readV (writeP k p m v) n j = readV k n j := by
  unfold writeP; split <;> rfl

/-! ### Scalar registers -/

/-- A read of a scalar register after a write of one (R55, R61). -/
theorem readS_writeS (k : Course) (r : Nat) (w : Word) (n : Nat) : readS (writeS k r w) n = if n = r then w else readS k n := by
  unfold readS sSpent writeS
  rw [getLsbD_clear, cget_cset]
  by_cases h : n = r <;> simp [h]

@[simp] theorem readS_writeV (k : Course) (r : Nat) (m : Lanes) (l : List Word) (n : Nat) : readS (writeV k r m l) n = readS k n := by
  unfold writeV; split <;> rfl

@[simp] theorem readS_writeP (k : Course) (p : Nat) (m v : Lanes) (n : Nat) : readS (writeP k p m v) n = readS k n := by
  unfold writeP; split <;> rfl

/-! ### Predicates -/

@[simp] theorem readPred_writeS (k : Course) (r : Nat) (w : Word) (p : PredName) : readPred (writeS k r w) p = readPred k p := rfl

@[simp] theorem readPred_writeV (k : Course) (r : Nat) (m : Lanes) (l : List Word) (p : PredName) :
    readPred (writeV k r m l) p = readPred k p := by
  unfold writeV; split <;> rfl

/-- A read of a predicate after a write of lanes of one; p0 stays true everywhere (R58, R59). -/
theorem readPred_writeP (k : Course) (q : PredName) (m v : Lanes) (p : PredName) :
    readPred (writeP k q.toNat m v) p
      = if p = q ∧ q ≠ 0 then (readPred k p &&& ~~~m) ||| (v &&& m) else readPred k p := by
  unfold writeP readPred
  by_cases hp : p = 0
  · subst hp
    by_cases hq : q = 0
    · subst hq; simp
    · have : ¬ (0#3 = q) := fun h => hq h.symm
      simp [this]
  · by_cases hq : q = 0
    · subst hq; simp
    · have hq' : ¬ q.toNat = 0 := by
        intro h; exact hq (BitVec.eq_of_toNat_eq (by simpa using h))
      simp only [hp, if_false, hq', cget_cset]
      by_cases h : p = q
      · subst h
        have hq2 : ¬ p = 0#3 := hq
        simp [hq2]
      · have : p.toNat ≠ q.toNat := fun e => h (BitVec.eq_of_toNat_eq e)
        simp [h, this]

end Sys2Proof.Machine
end

