-- ==== Sys2Proof/Laws/State.lean ====
section
/-!
SUPPORT. Laws of the state's named updates: the fields that each leaves alone, one lemma a field, and what a read of a table
sees after a write of one.
-/

namespace Sys2Proof.Machine

variable (s : State)

/-! ### `setCourse` -/

@[simp] theorem setCourse_now (b c : Nat) (k : Course) : (setCourse s b c k).now = s.now := rfl
@[simp] theorem setCourse_frac (b c : Nat) (k : Course) : (setCourse s b c k).frac = s.frac := rfl
@[simp] theorem setCourse_agenda (b c : Nat) (k : Course) : (setCourse s b c k).agenda = s.agenda := rfl
@[simp] theorem setCourse_turn (b c : Nat) (k : Course) : (setCourse s b c k).turn = s.turn := rfl
@[simp] theorem setCourse_fresh (b c : Nat) (k : Course) : (setCourse s b c k).fresh = s.fresh := rfl
@[simp] theorem setCourse_nextId (b c : Nat) (k : Course) : (setCourse s b c k).nextId = s.nextId := rfl
@[simp] theorem setCourse_issue (b c : Nat) (k : Course) : (setCourse s b c k).issue = s.issue := rfl
@[simp] theorem setCourse_blocks (b c : Nat) (k : Course) : (setCourse s b c k).blocks = s.blocks := rfl
@[simp] theorem setCourse_commands (b c : Nat) (k : Course) : (setCourse s b c k).commands = s.commands := rfl
@[simp] theorem setCourse_waitingBlocks (b c : Nat) (k : Course) : (setCourse s b c k).waitingBlocks = s.waitingBlocks := rfl
@[simp] theorem setCourse_cores (b c : Nat) (k : Course) : (setCourse s b c k).cores = s.cores := rfl
@[simp] theorem setCourse_clusters (b c : Nat) (k : Course) : (setCourse s b c k).clusters = s.clusters := rfl
@[simp] theorem setCourse_rails (b c : Nat) (k : Course) : (setCourse s b c k).rails = s.rails := rfl
@[simp] theorem setCourse_contexts (b c : Nat) (k : Course) : (setCourse s b c k).contexts = s.contexts := rfl
@[simp] theorem setCourse_entries (b c : Nat) (k : Course) : (setCourse s b c k).entries = s.entries := rfl
@[simp] theorem setCourse_queues (b c : Nat) (k : Course) : (setCourse s b c k).queues = s.queues := rfl
@[simp] theorem setCourse_jobs (b c : Nat) (k : Course) : (setCourse s b c k).jobs = s.jobs := rfl
@[simp] theorem setCourse_counters (b c : Nat) (k : Course) : (setCourse s b c k).counters = s.counters := rfl
@[simp] theorem setCourse_partitions (b c : Nat) (k : Course) : (setCourse s b c k).partitions = s.partitions := rfl
@[simp] theorem setCourse_dev (b c : Nat) (k : Course) : (setCourse s b c k).dev = s.dev := rfl
@[simp] theorem setCourse_devPoison (b c : Nat) (k : Course) : (setCourse s b c k).devPoison = s.devPoison := rfl
@[simp] theorem setCourse_hostMem (b c : Nat) (k : Course) : (setCourse s b c k).hostMem = s.hostMem := rfl
@[simp] theorem setCourse_hostPoison (b c : Nat) (k : Course) : (setCourse s b c k).hostPoison = s.hostPoison := rfl
@[simp] theorem setCourse_hostHeld (b c : Nat) (k : Course) : (setCourse s b c k).hostHeld = s.hostHeld := rfl
@[simp] theorem setCourse_powered (b c : Nat) (k : Course) : (setCourse s b c k).powered = s.powered := rfl
@[simp] theorem setCourse_phase (b c : Nat) (k : Course) : (setCourse s b c k).phase = s.phase := rfl
@[simp] theorem setCourse_powerGoodAt (b c : Nat) (k : Course) : (setCourse s b c k).powerGoodAt = s.powerGoodAt := rfl
@[simp] theorem setCourse_temps (b c : Nat) (k : Course) : (setCourse s b c k).temps = s.temps := rfl
@[simp] theorem setCourse_railmap (b c : Nat) (k : Course) : (setCourse s b c k).railmap = s.railmap := rfl
@[simp] theorem setCourse_memctl (b c : Nat) (k : Course) : (setCourse s b c k).memctl = s.memctl := rfl
@[simp] theorem setCourse_stretchCount (b c : Nat) (k : Course) : (setCourse s b c k).stretchCount = s.stretchCount := rfl
@[simp] theorem setCourse_mbstat (b c : Nat) (k : Course) : (setCourse s b c k).mbstat = s.mbstat := rfl
@[simp] theorem setCourse_mailbox (b c : Nat) (k : Course) : (setCourse s b c k).mailbox = s.mailbox := rfl
@[simp] theorem setCourse_staged (b c : Nat) (k : Course) : (setCourse s b c k).staged = s.staged := rfl
@[simp] theorem setCourse_imageSlots (b c : Nat) (k : Course) : (setCourse s b c k).imageSlots = s.imageSlots := rfl
@[simp] theorem setCourse_runSlot (b c : Nat) (k : Course) : (setCourse s b c k).runSlot = s.runSlot := rfl
@[simp] theorem setCourse_bootSlot (b c : Nat) (k : Course) : (setCourse s b c k).bootSlot = s.bootSlot := rfl
@[simp] theorem setCourse_rollback (b c : Nat) (k : Course) : (setCourse s b c k).rollback = s.rollback := rfl
@[simp] theorem setCourse_images (b c : Nat) (k : Course) : (setCourse s b c k).images = s.images := rfl
@[simp] theorem setCourse_coldStarts (b c : Nat) (k : Course) : (setCourse s b c k).coldStarts = s.coldStarts := rfl
@[simp] theorem setCourse_modules (b c : Nat) (k : Course) : (setCourse s b c k).modules = s.modules := rfl
@[simp] theorem setCourse_bond (b c : Nat) (k : Course) : (setCourse s b c k).bond = s.bond := rfl
@[simp] theorem setCourse_health (b c : Nat) (k : Course) : (setCourse s b c k).health = s.health := rfl
@[simp] theorem setCourse_pcDead (b c : Nat) (k : Course) : (setCourse s b c k).pcDead = s.pcDead := rfl
@[simp] theorem setCourse_bankDead (b c : Nat) (k : Course) : (setCourse s b c k).bankDead = s.bankDead := rfl
@[simp] theorem setCourse_stale (b c : Nat) (k : Course) : (setCourse s b c k).stale = s.stale := rfl
@[simp] theorem setCourse_retired (b c : Nat) (k : Course) : (setCourse s b c k).retired = s.retired := rfl
@[simp] theorem setCourse_symbols (b c : Nat) (k : Course) : (setCourse s b c k).symbols = s.symbols := rfl
@[simp] theorem setCourse_skew (b c : Nat) (k : Course) : (setCourse s b c k).skew = s.skew := rfl
@[simp] theorem setCourse_unbond (b c : Nat) (k : Course) : (setCourse s b c k).unbond = s.unbond := rfl
@[simp] theorem setCourse_repairsUsed (b c : Nat) (k : Course) : (setCourse s b c k).repairsUsed = s.repairsUsed := rfl
@[simp] theorem setCourse_repair (b c : Nat) (k : Course) : (setCourse s b c k).repair = s.repair := rfl
@[simp] theorem setCourse_chanCounts (b c : Nat) (k : Course) : (setCourse s b c k).chanCounts = s.chanCounts := rfl
@[simp] theorem setCourse_nvsCounts (b c : Nat) (k : Course) : (setCourse s b c k).nvsCounts = s.nvsCounts := rfl
@[simp] theorem setCourse_passCe (b c : Nat) (k : Course) : (setCourse s b c k).passCe = s.passCe := rfl
@[simp] theorem setCourse_passBad (b c : Nat) (k : Course) : (setCourse s b c k).passBad = s.passBad := rfl
@[simp] theorem setCourse_trained (b c : Nat) (k : Course) : (setCourse s b c k).trained = s.trained := rfl
@[simp] theorem setCourse_trainTemp (b c : Nat) (k : Course) : (setCourse s b c k).trainTemp = s.trainTemp := rfl
@[simp] theorem setCourse_retraining (b c : Nat) (k : Course) : (setCourse s b c k).retraining = s.retraining := rfl
@[simp] theorem setCourse_dueNow (b c : Nat) (k : Course) : (setCourse s b c k).dueNow = s.dueNow := rfl
@[simp] theorem setCourse_rebuild (b c : Nat) (k : Course) : (setCourse s b c k).rebuild = s.rebuild := rfl
@[simp] theorem setCourse_scrubAt (b c : Nat) (k : Course) : (setCourse s b c k).scrubAt = s.scrubAt := rfl
@[simp] theorem setCourse_scrubPass (b c : Nat) (k : Course) : (setCourse s b c k).scrubPass = s.scrubPass := rfl
@[simp] theorem setCourse_lanes (b c : Nat) (k : Course) : (setCourse s b c k).lanes = s.lanes := rfl
@[simp] theorem setCourse_remotes (b c : Nat) (k : Course) : (setCourse s b c k).remotes = s.remotes := rfl
@[simp] theorem setCourse_l2 (b c : Nat) (k : Course) : (setCourse s b c k).l2 = s.l2 := rfl
@[simp] theorem setCourse_traffic (b c : Nat) (k : Course) : (setCourse s b c k).traffic = s.traffic := rfl
@[simp] theorem setCourse_offNs (b c : Nat) (k : Course) : (setCourse s b c k).offNs = s.offNs := rfl
@[simp] theorem setCourse_recovering (b c : Nat) (k : Course) : (setCourse s b c k).recovering = s.recovering := rfl
@[simp] theorem setCourse_out (b c : Nat) (k : Course) : (setCourse s b c k).out = s.out := rfl
@[simp] theorem setCourse_nextInterval (b c : Nat) (k : Course) : (setCourse s b c k).nextInterval = s.nextInterval := rfl
@[simp] theorem setCourse_nextWindow (b c : Nat) (k : Course) : (setCourse s b c k).nextWindow = s.nextWindow := rfl
@[simp] theorem setCourse_nextPoll (b c : Nat) (k : Course) : (setCourse s b c k).nextPoll = s.nextPoll := rfl
@[simp] theorem setCourse_nextWatchdog (b c : Nat) (k : Course) : (setCourse s b c k).nextWatchdog = s.nextWatchdog := rfl
@[simp] theorem setCourse_nextFlush (b c : Nat) (k : Course) : (setCourse s b c k).nextFlush = s.nextFlush := rfl
@[simp] theorem setCourse_scrubFrom (b c : Nat) (k : Course) : (setCourse s b c k).scrubFrom = s.scrubFrom := rfl
@[simp] theorem getBlock_setCourse (b c : Nat) (k : Course) (d : Nat) : getBlock (setCourse s b c k) d = getBlock s d := rfl
@[simp] theorem getCore_setCourse (b c : Nat) (k : Course) (d : Nat) : getCore (setCourse s b c k) d = getCore s d := rfl
@[simp] theorem getCluster_setCourse (b c : Nat) (k : Course) (d : Nat) : getCluster (setCourse s b c k) d = getCluster s d := rfl
@[simp] theorem getPart_setCourse (b c : Nat) (k : Course) (d : BitVec 3) : getPart (setCourse s b c k) d = getPart s d := rfl
@[simp] theorem getCtx_setCourse (b c : Nat) (k : Course) (d : BitVec 16) : getCtx (setCourse s b c k) d = getCtx s d := rfl
@[simp] theorem getCmd_setCourse (b c : Nat) (k : Course) (d : Nat) : getCmd (setCourse s b c k) d = getCmd s d := rfl
@[simp] theorem getJob_setCourse (b c : Nat) (k : Course) (d : Nat) : getJob (setCourse s b c k) d = getJob s d := rfl
@[simp] theorem getQueue_setCourse (b c : Nat) (k : Course) (d : BitVec 3) (e : Nat) : getQueue (setCourse s b c k) d e = getQueue s d e := rfl
@[simp] theorem getCounter_setCourse (b c : Nat) (k : Course) (d : Nat) : getCounter (setCourse s b c k) d = getCounter s d := rfl

/-! ### `setBlock` -/

@[simp] theorem setBlock_now (b : Nat) (k : Block) : (setBlock s b k).now = s.now := rfl
@[simp] theorem setBlock_frac (b : Nat) (k : Block) : (setBlock s b k).frac = s.frac := rfl
@[simp] theorem setBlock_agenda (b : Nat) (k : Block) : (setBlock s b k).agenda = s.agenda := rfl
@[simp] theorem setBlock_turn (b : Nat) (k : Block) : (setBlock s b k).turn = s.turn := rfl
@[simp] theorem setBlock_fresh (b : Nat) (k : Block) : (setBlock s b k).fresh = s.fresh := rfl
@[simp] theorem setBlock_nextId (b : Nat) (k : Block) : (setBlock s b k).nextId = s.nextId := rfl
@[simp] theorem setBlock_issue (b : Nat) (k : Block) : (setBlock s b k).issue = s.issue := rfl
@[simp] theorem setBlock_courses (b : Nat) (k : Block) : (setBlock s b k).courses = s.courses := rfl
@[simp] theorem setBlock_commands (b : Nat) (k : Block) : (setBlock s b k).commands = s.commands := rfl
@[simp] theorem setBlock_waitingBlocks (b : Nat) (k : Block) : (setBlock s b k).waitingBlocks = s.waitingBlocks := rfl
@[simp] theorem setBlock_cores (b : Nat) (k : Block) : (setBlock s b k).cores = s.cores := rfl
@[simp] theorem setBlock_clusters (b : Nat) (k : Block) : (setBlock s b k).clusters = s.clusters := rfl
@[simp] theorem setBlock_rails (b : Nat) (k : Block) : (setBlock s b k).rails = s.rails := rfl
@[simp] theorem setBlock_contexts (b : Nat) (k : Block) : (setBlock s b k).contexts = s.contexts := rfl
@[simp] theorem setBlock_entries (b : Nat) (k : Block) : (setBlock s b k).entries = s.entries := rfl
@[simp] theorem setBlock_queues (b : Nat) (k : Block) : (setBlock s b k).queues = s.queues := rfl
@[simp] theorem setBlock_jobs (b : Nat) (k : Block) : (setBlock s b k).jobs = s.jobs := rfl
@[simp] theorem setBlock_counters (b : Nat) (k : Block) : (setBlock s b k).counters = s.counters := rfl
@[simp] theorem setBlock_partitions (b : Nat) (k : Block) : (setBlock s b k).partitions = s.partitions := rfl
@[simp] theorem setBlock_dev (b : Nat) (k : Block) : (setBlock s b k).dev = s.dev := rfl
@[simp] theorem setBlock_devPoison (b : Nat) (k : Block) : (setBlock s b k).devPoison = s.devPoison := rfl
@[simp] theorem setBlock_hostMem (b : Nat) (k : Block) : (setBlock s b k).hostMem = s.hostMem := rfl
@[simp] theorem setBlock_hostPoison (b : Nat) (k : Block) : (setBlock s b k).hostPoison = s.hostPoison := rfl
@[simp] theorem setBlock_hostHeld (b : Nat) (k : Block) : (setBlock s b k).hostHeld = s.hostHeld := rfl
@[simp] theorem setBlock_powered (b : Nat) (k : Block) : (setBlock s b k).powered = s.powered := rfl
@[simp] theorem setBlock_phase (b : Nat) (k : Block) : (setBlock s b k).phase = s.phase := rfl
@[simp] theorem setBlock_powerGoodAt (b : Nat) (k : Block) : (setBlock s b k).powerGoodAt = s.powerGoodAt := rfl
@[simp] theorem setBlock_temps (b : Nat) (k : Block) : (setBlock s b k).temps = s.temps := rfl
@[simp] theorem setBlock_railmap (b : Nat) (k : Block) : (setBlock s b k).railmap = s.railmap := rfl
@[simp] theorem setBlock_memctl (b : Nat) (k : Block) : (setBlock s b k).memctl = s.memctl := rfl
@[simp] theorem setBlock_stretchCount (b : Nat) (k : Block) : (setBlock s b k).stretchCount = s.stretchCount := rfl
@[simp] theorem setBlock_mbstat (b : Nat) (k : Block) : (setBlock s b k).mbstat = s.mbstat := rfl
@[simp] theorem setBlock_mailbox (b : Nat) (k : Block) : (setBlock s b k).mailbox = s.mailbox := rfl
@[simp] theorem setBlock_staged (b : Nat) (k : Block) : (setBlock s b k).staged = s.staged := rfl
@[simp] theorem setBlock_imageSlots (b : Nat) (k : Block) : (setBlock s b k).imageSlots = s.imageSlots := rfl
@[simp] theorem setBlock_runSlot (b : Nat) (k : Block) : (setBlock s b k).runSlot = s.runSlot := rfl
@[simp] theorem setBlock_bootSlot (b : Nat) (k : Block) : (setBlock s b k).bootSlot = s.bootSlot := rfl
@[simp] theorem setBlock_rollback (b : Nat) (k : Block) : (setBlock s b k).rollback = s.rollback := rfl
@[simp] theorem setBlock_images (b : Nat) (k : Block) : (setBlock s b k).images = s.images := rfl
@[simp] theorem setBlock_coldStarts (b : Nat) (k : Block) : (setBlock s b k).coldStarts = s.coldStarts := rfl
@[simp] theorem setBlock_modules (b : Nat) (k : Block) : (setBlock s b k).modules = s.modules := rfl
@[simp] theorem setBlock_bond (b : Nat) (k : Block) : (setBlock s b k).bond = s.bond := rfl
@[simp] theorem setBlock_health (b : Nat) (k : Block) : (setBlock s b k).health = s.health := rfl
@[simp] theorem setBlock_pcDead (b : Nat) (k : Block) : (setBlock s b k).pcDead = s.pcDead := rfl
@[simp] theorem setBlock_bankDead (b : Nat) (k : Block) : (setBlock s b k).bankDead = s.bankDead := rfl
@[simp] theorem setBlock_stale (b : Nat) (k : Block) : (setBlock s b k).stale = s.stale := rfl
@[simp] theorem setBlock_retired (b : Nat) (k : Block) : (setBlock s b k).retired = s.retired := rfl
@[simp] theorem setBlock_symbols (b : Nat) (k : Block) : (setBlock s b k).symbols = s.symbols := rfl
@[simp] theorem setBlock_skew (b : Nat) (k : Block) : (setBlock s b k).skew = s.skew := rfl
@[simp] theorem setBlock_unbond (b : Nat) (k : Block) : (setBlock s b k).unbond = s.unbond := rfl
@[simp] theorem setBlock_repairsUsed (b : Nat) (k : Block) : (setBlock s b k).repairsUsed = s.repairsUsed := rfl
@[simp] theorem setBlock_repair (b : Nat) (k : Block) : (setBlock s b k).repair = s.repair := rfl
@[simp] theorem setBlock_chanCounts (b : Nat) (k : Block) : (setBlock s b k).chanCounts = s.chanCounts := rfl
@[simp] theorem setBlock_nvsCounts (b : Nat) (k : Block) : (setBlock s b k).nvsCounts = s.nvsCounts := rfl
@[simp] theorem setBlock_passCe (b : Nat) (k : Block) : (setBlock s b k).passCe = s.passCe := rfl
@[simp] theorem setBlock_passBad (b : Nat) (k : Block) : (setBlock s b k).passBad = s.passBad := rfl
@[simp] theorem setBlock_trained (b : Nat) (k : Block) : (setBlock s b k).trained = s.trained := rfl
@[simp] theorem setBlock_trainTemp (b : Nat) (k : Block) : (setBlock s b k).trainTemp = s.trainTemp := rfl
@[simp] theorem setBlock_retraining (b : Nat) (k : Block) : (setBlock s b k).retraining = s.retraining := rfl
@[simp] theorem setBlock_dueNow (b : Nat) (k : Block) : (setBlock s b k).dueNow = s.dueNow := rfl
@[simp] theorem setBlock_rebuild (b : Nat) (k : Block) : (setBlock s b k).rebuild = s.rebuild := rfl
@[simp] theorem setBlock_scrubAt (b : Nat) (k : Block) : (setBlock s b k).scrubAt = s.scrubAt := rfl
@[simp] theorem setBlock_scrubPass (b : Nat) (k : Block) : (setBlock s b k).scrubPass = s.scrubPass := rfl
@[simp] theorem setBlock_lanes (b : Nat) (k : Block) : (setBlock s b k).lanes = s.lanes := rfl
@[simp] theorem setBlock_remotes (b : Nat) (k : Block) : (setBlock s b k).remotes = s.remotes := rfl
@[simp] theorem setBlock_l2 (b : Nat) (k : Block) : (setBlock s b k).l2 = s.l2 := rfl
@[simp] theorem setBlock_traffic (b : Nat) (k : Block) : (setBlock s b k).traffic = s.traffic := rfl
@[simp] theorem setBlock_offNs (b : Nat) (k : Block) : (setBlock s b k).offNs = s.offNs := rfl
@[simp] theorem setBlock_recovering (b : Nat) (k : Block) : (setBlock s b k).recovering = s.recovering := rfl
@[simp] theorem setBlock_out (b : Nat) (k : Block) : (setBlock s b k).out = s.out := rfl
@[simp] theorem setBlock_nextInterval (b : Nat) (k : Block) : (setBlock s b k).nextInterval = s.nextInterval := rfl
@[simp] theorem setBlock_nextWindow (b : Nat) (k : Block) : (setBlock s b k).nextWindow = s.nextWindow := rfl
@[simp] theorem setBlock_nextPoll (b : Nat) (k : Block) : (setBlock s b k).nextPoll = s.nextPoll := rfl
@[simp] theorem setBlock_nextWatchdog (b : Nat) (k : Block) : (setBlock s b k).nextWatchdog = s.nextWatchdog := rfl
@[simp] theorem setBlock_nextFlush (b : Nat) (k : Block) : (setBlock s b k).nextFlush = s.nextFlush := rfl
@[simp] theorem setBlock_scrubFrom (b : Nat) (k : Block) : (setBlock s b k).scrubFrom = s.scrubFrom := rfl
@[simp] theorem getCourse_setBlock (b : Nat) (k : Block) (d e : Nat) : getCourse (setBlock s b k) d e = getCourse s d e := rfl
@[simp] theorem getCore_setBlock (b : Nat) (k : Block) (d : Nat) : getCore (setBlock s b k) d = getCore s d := rfl
@[simp] theorem getCluster_setBlock (b : Nat) (k : Block) (d : Nat) : getCluster (setBlock s b k) d = getCluster s d := rfl
@[simp] theorem getPart_setBlock (b : Nat) (k : Block) (d : BitVec 3) : getPart (setBlock s b k) d = getPart s d := rfl
@[simp] theorem getCtx_setBlock (b : Nat) (k : Block) (d : BitVec 16) : getCtx (setBlock s b k) d = getCtx s d := rfl
@[simp] theorem getCmd_setBlock (b : Nat) (k : Block) (d : Nat) : getCmd (setBlock s b k) d = getCmd s d := rfl
@[simp] theorem getJob_setBlock (b : Nat) (k : Block) (d : Nat) : getJob (setBlock s b k) d = getJob s d := rfl
@[simp] theorem getQueue_setBlock (b : Nat) (k : Block) (d : BitVec 3) (e : Nat) : getQueue (setBlock s b k) d e = getQueue s d e := rfl
@[simp] theorem getCounter_setBlock (b : Nat) (k : Block) (d : Nat) : getCounter (setBlock s b k) d = getCounter s d := rfl

/-! ### `setCore` -/

@[simp] theorem setCore_now (m : Nat) (k : Core) : (setCore s m k).now = s.now := rfl
@[simp] theorem setCore_frac (m : Nat) (k : Core) : (setCore s m k).frac = s.frac := rfl
@[simp] theorem setCore_agenda (m : Nat) (k : Core) : (setCore s m k).agenda = s.agenda := rfl
@[simp] theorem setCore_turn (m : Nat) (k : Core) : (setCore s m k).turn = s.turn := rfl
@[simp] theorem setCore_fresh (m : Nat) (k : Core) : (setCore s m k).fresh = s.fresh := rfl
@[simp] theorem setCore_nextId (m : Nat) (k : Core) : (setCore s m k).nextId = s.nextId := rfl
@[simp] theorem setCore_issue (m : Nat) (k : Core) : (setCore s m k).issue = s.issue := rfl
@[simp] theorem setCore_courses (m : Nat) (k : Core) : (setCore s m k).courses = s.courses := rfl
@[simp] theorem setCore_blocks (m : Nat) (k : Core) : (setCore s m k).blocks = s.blocks := rfl
@[simp] theorem setCore_commands (m : Nat) (k : Core) : (setCore s m k).commands = s.commands := rfl
@[simp] theorem setCore_waitingBlocks (m : Nat) (k : Core) : (setCore s m k).waitingBlocks = s.waitingBlocks := rfl
@[simp] theorem setCore_clusters (m : Nat) (k : Core) : (setCore s m k).clusters = s.clusters := rfl
@[simp] theorem setCore_rails (m : Nat) (k : Core) : (setCore s m k).rails = s.rails := rfl
@[simp] theorem setCore_contexts (m : Nat) (k : Core) : (setCore s m k).contexts = s.contexts := rfl
@[simp] theorem setCore_entries (m : Nat) (k : Core) : (setCore s m k).entries = s.entries := rfl
@[simp] theorem setCore_queues (m : Nat) (k : Core) : (setCore s m k).queues = s.queues := rfl
@[simp] theorem setCore_jobs (m : Nat) (k : Core) : (setCore s m k).jobs = s.jobs := rfl
@[simp] theorem setCore_counters (m : Nat) (k : Core) : (setCore s m k).counters = s.counters := rfl
@[simp] theorem setCore_partitions (m : Nat) (k : Core) : (setCore s m k).partitions = s.partitions := rfl
@[simp] theorem setCore_dev (m : Nat) (k : Core) : (setCore s m k).dev = s.dev := rfl
@[simp] theorem setCore_devPoison (m : Nat) (k : Core) : (setCore s m k).devPoison = s.devPoison := rfl
@[simp] theorem setCore_hostMem (m : Nat) (k : Core) : (setCore s m k).hostMem = s.hostMem := rfl
@[simp] theorem setCore_hostPoison (m : Nat) (k : Core) : (setCore s m k).hostPoison = s.hostPoison := rfl
@[simp] theorem setCore_hostHeld (m : Nat) (k : Core) : (setCore s m k).hostHeld = s.hostHeld := rfl
@[simp] theorem setCore_powered (m : Nat) (k : Core) : (setCore s m k).powered = s.powered := rfl
@[simp] theorem setCore_phase (m : Nat) (k : Core) : (setCore s m k).phase = s.phase := rfl
@[simp] theorem setCore_powerGoodAt (m : Nat) (k : Core) : (setCore s m k).powerGoodAt = s.powerGoodAt := rfl
@[simp] theorem setCore_temps (m : Nat) (k : Core) : (setCore s m k).temps = s.temps := rfl
@[simp] theorem setCore_railmap (m : Nat) (k : Core) : (setCore s m k).railmap = s.railmap := rfl
@[simp] theorem setCore_memctl (m : Nat) (k : Core) : (setCore s m k).memctl = s.memctl := rfl
@[simp] theorem setCore_stretchCount (m : Nat) (k : Core) : (setCore s m k).stretchCount = s.stretchCount := rfl
@[simp] theorem setCore_mbstat (m : Nat) (k : Core) : (setCore s m k).mbstat = s.mbstat := rfl
@[simp] theorem setCore_mailbox (m : Nat) (k : Core) : (setCore s m k).mailbox = s.mailbox := rfl
@[simp] theorem setCore_staged (m : Nat) (k : Core) : (setCore s m k).staged = s.staged := rfl
@[simp] theorem setCore_imageSlots (m : Nat) (k : Core) : (setCore s m k).imageSlots = s.imageSlots := rfl
@[simp] theorem setCore_runSlot (m : Nat) (k : Core) : (setCore s m k).runSlot = s.runSlot := rfl
@[simp] theorem setCore_bootSlot (m : Nat) (k : Core) : (setCore s m k).bootSlot = s.bootSlot := rfl
@[simp] theorem setCore_rollback (m : Nat) (k : Core) : (setCore s m k).rollback = s.rollback := rfl
@[simp] theorem setCore_images (m : Nat) (k : Core) : (setCore s m k).images = s.images := rfl
@[simp] theorem setCore_coldStarts (m : Nat) (k : Core) : (setCore s m k).coldStarts = s.coldStarts := rfl
@[simp] theorem setCore_modules (m : Nat) (k : Core) : (setCore s m k).modules = s.modules := rfl
@[simp] theorem setCore_bond (m : Nat) (k : Core) : (setCore s m k).bond = s.bond := rfl
@[simp] theorem setCore_health (m : Nat) (k : Core) : (setCore s m k).health = s.health := rfl
@[simp] theorem setCore_pcDead (m : Nat) (k : Core) : (setCore s m k).pcDead = s.pcDead := rfl
@[simp] theorem setCore_bankDead (m : Nat) (k : Core) : (setCore s m k).bankDead = s.bankDead := rfl
@[simp] theorem setCore_stale (m : Nat) (k : Core) : (setCore s m k).stale = s.stale := rfl
@[simp] theorem setCore_retired (m : Nat) (k : Core) : (setCore s m k).retired = s.retired := rfl
@[simp] theorem setCore_symbols (m : Nat) (k : Core) : (setCore s m k).symbols = s.symbols := rfl
@[simp] theorem setCore_skew (m : Nat) (k : Core) : (setCore s m k).skew = s.skew := rfl
@[simp] theorem setCore_unbond (m : Nat) (k : Core) : (setCore s m k).unbond = s.unbond := rfl
@[simp] theorem setCore_repairsUsed (m : Nat) (k : Core) : (setCore s m k).repairsUsed = s.repairsUsed := rfl
@[simp] theorem setCore_repair (m : Nat) (k : Core) : (setCore s m k).repair = s.repair := rfl
@[simp] theorem setCore_chanCounts (m : Nat) (k : Core) : (setCore s m k).chanCounts = s.chanCounts := rfl
@[simp] theorem setCore_nvsCounts (m : Nat) (k : Core) : (setCore s m k).nvsCounts = s.nvsCounts := rfl
@[simp] theorem setCore_passCe (m : Nat) (k : Core) : (setCore s m k).passCe = s.passCe := rfl
@[simp] theorem setCore_passBad (m : Nat) (k : Core) : (setCore s m k).passBad = s.passBad := rfl
@[simp] theorem setCore_trained (m : Nat) (k : Core) : (setCore s m k).trained = s.trained := rfl
@[simp] theorem setCore_trainTemp (m : Nat) (k : Core) : (setCore s m k).trainTemp = s.trainTemp := rfl
@[simp] theorem setCore_retraining (m : Nat) (k : Core) : (setCore s m k).retraining = s.retraining := rfl
@[simp] theorem setCore_dueNow (m : Nat) (k : Core) : (setCore s m k).dueNow = s.dueNow := rfl
@[simp] theorem setCore_rebuild (m : Nat) (k : Core) : (setCore s m k).rebuild = s.rebuild := rfl
@[simp] theorem setCore_scrubAt (m : Nat) (k : Core) : (setCore s m k).scrubAt = s.scrubAt := rfl
@[simp] theorem setCore_scrubPass (m : Nat) (k : Core) : (setCore s m k).scrubPass = s.scrubPass := rfl
@[simp] theorem setCore_lanes (m : Nat) (k : Core) : (setCore s m k).lanes = s.lanes := rfl
@[simp] theorem setCore_remotes (m : Nat) (k : Core) : (setCore s m k).remotes = s.remotes := rfl
@[simp] theorem setCore_l2 (m : Nat) (k : Core) : (setCore s m k).l2 = s.l2 := rfl
@[simp] theorem setCore_traffic (m : Nat) (k : Core) : (setCore s m k).traffic = s.traffic := rfl
@[simp] theorem setCore_offNs (m : Nat) (k : Core) : (setCore s m k).offNs = s.offNs := rfl
@[simp] theorem setCore_recovering (m : Nat) (k : Core) : (setCore s m k).recovering = s.recovering := rfl
@[simp] theorem setCore_out (m : Nat) (k : Core) : (setCore s m k).out = s.out := rfl
@[simp] theorem setCore_nextInterval (m : Nat) (k : Core) : (setCore s m k).nextInterval = s.nextInterval := rfl
@[simp] theorem setCore_nextWindow (m : Nat) (k : Core) : (setCore s m k).nextWindow = s.nextWindow := rfl
@[simp] theorem setCore_nextPoll (m : Nat) (k : Core) : (setCore s m k).nextPoll = s.nextPoll := rfl
@[simp] theorem setCore_nextWatchdog (m : Nat) (k : Core) : (setCore s m k).nextWatchdog = s.nextWatchdog := rfl
@[simp] theorem setCore_nextFlush (m : Nat) (k : Core) : (setCore s m k).nextFlush = s.nextFlush := rfl
@[simp] theorem setCore_scrubFrom (m : Nat) (k : Core) : (setCore s m k).scrubFrom = s.scrubFrom := rfl
@[simp] theorem getCourse_setCore (m : Nat) (k : Core) (d e : Nat) : getCourse (setCore s m k) d e = getCourse s d e := rfl
@[simp] theorem getBlock_setCore (m : Nat) (k : Core) (d : Nat) : getBlock (setCore s m k) d = getBlock s d := rfl
@[simp] theorem getCluster_setCore (m : Nat) (k : Core) (d : Nat) : getCluster (setCore s m k) d = getCluster s d := rfl
@[simp] theorem getPart_setCore (m : Nat) (k : Core) (d : BitVec 3) : getPart (setCore s m k) d = getPart s d := rfl
@[simp] theorem getCtx_setCore (m : Nat) (k : Core) (d : BitVec 16) : getCtx (setCore s m k) d = getCtx s d := rfl
@[simp] theorem getCmd_setCore (m : Nat) (k : Core) (d : Nat) : getCmd (setCore s m k) d = getCmd s d := rfl
@[simp] theorem getJob_setCore (m : Nat) (k : Core) (d : Nat) : getJob (setCore s m k) d = getJob s d := rfl
@[simp] theorem getQueue_setCore (m : Nat) (k : Core) (d : BitVec 3) (e : Nat) : getQueue (setCore s m k) d e = getQueue s d e := rfl
@[simp] theorem getCounter_setCore (m : Nat) (k : Core) (d : Nat) : getCounter (setCore s m k) d = getCounter s d := rfl

/-! ### `setCluster` -/

@[simp] theorem setCluster_now (i : Nat) (k : Cluster) : (setCluster s i k).now = s.now := rfl
@[simp] theorem setCluster_frac (i : Nat) (k : Cluster) : (setCluster s i k).frac = s.frac := rfl
@[simp] theorem setCluster_agenda (i : Nat) (k : Cluster) : (setCluster s i k).agenda = s.agenda := rfl
@[simp] theorem setCluster_turn (i : Nat) (k : Cluster) : (setCluster s i k).turn = s.turn := rfl
@[simp] theorem setCluster_fresh (i : Nat) (k : Cluster) : (setCluster s i k).fresh = s.fresh := rfl
@[simp] theorem setCluster_nextId (i : Nat) (k : Cluster) : (setCluster s i k).nextId = s.nextId := rfl
@[simp] theorem setCluster_issue (i : Nat) (k : Cluster) : (setCluster s i k).issue = s.issue := rfl
@[simp] theorem setCluster_courses (i : Nat) (k : Cluster) : (setCluster s i k).courses = s.courses := rfl
@[simp] theorem setCluster_blocks (i : Nat) (k : Cluster) : (setCluster s i k).blocks = s.blocks := rfl
@[simp] theorem setCluster_commands (i : Nat) (k : Cluster) : (setCluster s i k).commands = s.commands := rfl
@[simp] theorem setCluster_waitingBlocks (i : Nat) (k : Cluster) : (setCluster s i k).waitingBlocks = s.waitingBlocks := rfl
@[simp] theorem setCluster_cores (i : Nat) (k : Cluster) : (setCluster s i k).cores = s.cores := rfl
@[simp] theorem setCluster_rails (i : Nat) (k : Cluster) : (setCluster s i k).rails = s.rails := rfl
@[simp] theorem setCluster_contexts (i : Nat) (k : Cluster) : (setCluster s i k).contexts = s.contexts := rfl
@[simp] theorem setCluster_entries (i : Nat) (k : Cluster) : (setCluster s i k).entries = s.entries := rfl
@[simp] theorem setCluster_queues (i : Nat) (k : Cluster) : (setCluster s i k).queues = s.queues := rfl
@[simp] theorem setCluster_jobs (i : Nat) (k : Cluster) : (setCluster s i k).jobs = s.jobs := rfl
@[simp] theorem setCluster_counters (i : Nat) (k : Cluster) : (setCluster s i k).counters = s.counters := rfl
@[simp] theorem setCluster_partitions (i : Nat) (k : Cluster) : (setCluster s i k).partitions = s.partitions := rfl
@[simp] theorem setCluster_dev (i : Nat) (k : Cluster) : (setCluster s i k).dev = s.dev := rfl
@[simp] theorem setCluster_devPoison (i : Nat) (k : Cluster) : (setCluster s i k).devPoison = s.devPoison := rfl
@[simp] theorem setCluster_hostMem (i : Nat) (k : Cluster) : (setCluster s i k).hostMem = s.hostMem := rfl
@[simp] theorem setCluster_hostPoison (i : Nat) (k : Cluster) : (setCluster s i k).hostPoison = s.hostPoison := rfl
@[simp] theorem setCluster_hostHeld (i : Nat) (k : Cluster) : (setCluster s i k).hostHeld = s.hostHeld := rfl
@[simp] theorem setCluster_powered (i : Nat) (k : Cluster) : (setCluster s i k).powered = s.powered := rfl
@[simp] theorem setCluster_phase (i : Nat) (k : Cluster) : (setCluster s i k).phase = s.phase := rfl
@[simp] theorem setCluster_powerGoodAt (i : Nat) (k : Cluster) : (setCluster s i k).powerGoodAt = s.powerGoodAt := rfl
@[simp] theorem setCluster_temps (i : Nat) (k : Cluster) : (setCluster s i k).temps = s.temps := rfl
@[simp] theorem setCluster_railmap (i : Nat) (k : Cluster) : (setCluster s i k).railmap = s.railmap := rfl
@[simp] theorem setCluster_memctl (i : Nat) (k : Cluster) : (setCluster s i k).memctl = s.memctl := rfl
@[simp] theorem setCluster_stretchCount (i : Nat) (k : Cluster) : (setCluster s i k).stretchCount = s.stretchCount := rfl
@[simp] theorem setCluster_mbstat (i : Nat) (k : Cluster) : (setCluster s i k).mbstat = s.mbstat := rfl
@[simp] theorem setCluster_mailbox (i : Nat) (k : Cluster) : (setCluster s i k).mailbox = s.mailbox := rfl
@[simp] theorem setCluster_staged (i : Nat) (k : Cluster) : (setCluster s i k).staged = s.staged := rfl
@[simp] theorem setCluster_imageSlots (i : Nat) (k : Cluster) : (setCluster s i k).imageSlots = s.imageSlots := rfl
@[simp] theorem setCluster_runSlot (i : Nat) (k : Cluster) : (setCluster s i k).runSlot = s.runSlot := rfl
@[simp] theorem setCluster_bootSlot (i : Nat) (k : Cluster) : (setCluster s i k).bootSlot = s.bootSlot := rfl
@[simp] theorem setCluster_rollback (i : Nat) (k : Cluster) : (setCluster s i k).rollback = s.rollback := rfl
@[simp] theorem setCluster_images (i : Nat) (k : Cluster) : (setCluster s i k).images = s.images := rfl
@[simp] theorem setCluster_coldStarts (i : Nat) (k : Cluster) : (setCluster s i k).coldStarts = s.coldStarts := rfl
@[simp] theorem setCluster_modules (i : Nat) (k : Cluster) : (setCluster s i k).modules = s.modules := rfl
@[simp] theorem setCluster_bond (i : Nat) (k : Cluster) : (setCluster s i k).bond = s.bond := rfl
@[simp] theorem setCluster_health (i : Nat) (k : Cluster) : (setCluster s i k).health = s.health := rfl
@[simp] theorem setCluster_pcDead (i : Nat) (k : Cluster) : (setCluster s i k).pcDead = s.pcDead := rfl
@[simp] theorem setCluster_bankDead (i : Nat) (k : Cluster) : (setCluster s i k).bankDead = s.bankDead := rfl
@[simp] theorem setCluster_stale (i : Nat) (k : Cluster) : (setCluster s i k).stale = s.stale := rfl
@[simp] theorem setCluster_retired (i : Nat) (k : Cluster) : (setCluster s i k).retired = s.retired := rfl
@[simp] theorem setCluster_symbols (i : Nat) (k : Cluster) : (setCluster s i k).symbols = s.symbols := rfl
@[simp] theorem setCluster_skew (i : Nat) (k : Cluster) : (setCluster s i k).skew = s.skew := rfl
@[simp] theorem setCluster_unbond (i : Nat) (k : Cluster) : (setCluster s i k).unbond = s.unbond := rfl
@[simp] theorem setCluster_repairsUsed (i : Nat) (k : Cluster) : (setCluster s i k).repairsUsed = s.repairsUsed := rfl
@[simp] theorem setCluster_repair (i : Nat) (k : Cluster) : (setCluster s i k).repair = s.repair := rfl
@[simp] theorem setCluster_chanCounts (i : Nat) (k : Cluster) : (setCluster s i k).chanCounts = s.chanCounts := rfl
@[simp] theorem setCluster_nvsCounts (i : Nat) (k : Cluster) : (setCluster s i k).nvsCounts = s.nvsCounts := rfl
@[simp] theorem setCluster_passCe (i : Nat) (k : Cluster) : (setCluster s i k).passCe = s.passCe := rfl
@[simp] theorem setCluster_passBad (i : Nat) (k : Cluster) : (setCluster s i k).passBad = s.passBad := rfl
@[simp] theorem setCluster_trained (i : Nat) (k : Cluster) : (setCluster s i k).trained = s.trained := rfl
@[simp] theorem setCluster_trainTemp (i : Nat) (k : Cluster) : (setCluster s i k).trainTemp = s.trainTemp := rfl
@[simp] theorem setCluster_retraining (i : Nat) (k : Cluster) : (setCluster s i k).retraining = s.retraining := rfl
@[simp] theorem setCluster_dueNow (i : Nat) (k : Cluster) : (setCluster s i k).dueNow = s.dueNow := rfl
@[simp] theorem setCluster_rebuild (i : Nat) (k : Cluster) : (setCluster s i k).rebuild = s.rebuild := rfl
@[simp] theorem setCluster_scrubAt (i : Nat) (k : Cluster) : (setCluster s i k).scrubAt = s.scrubAt := rfl
@[simp] theorem setCluster_scrubPass (i : Nat) (k : Cluster) : (setCluster s i k).scrubPass = s.scrubPass := rfl
@[simp] theorem setCluster_lanes (i : Nat) (k : Cluster) : (setCluster s i k).lanes = s.lanes := rfl
@[simp] theorem setCluster_remotes (i : Nat) (k : Cluster) : (setCluster s i k).remotes = s.remotes := rfl
@[simp] theorem setCluster_l2 (i : Nat) (k : Cluster) : (setCluster s i k).l2 = s.l2 := rfl
@[simp] theorem setCluster_traffic (i : Nat) (k : Cluster) : (setCluster s i k).traffic = s.traffic := rfl
@[simp] theorem setCluster_offNs (i : Nat) (k : Cluster) : (setCluster s i k).offNs = s.offNs := rfl
@[simp] theorem setCluster_recovering (i : Nat) (k : Cluster) : (setCluster s i k).recovering = s.recovering := rfl
@[simp] theorem setCluster_out (i : Nat) (k : Cluster) : (setCluster s i k).out = s.out := rfl
@[simp] theorem setCluster_nextInterval (i : Nat) (k : Cluster) : (setCluster s i k).nextInterval = s.nextInterval := rfl
@[simp] theorem setCluster_nextWindow (i : Nat) (k : Cluster) : (setCluster s i k).nextWindow = s.nextWindow := rfl
@[simp] theorem setCluster_nextPoll (i : Nat) (k : Cluster) : (setCluster s i k).nextPoll = s.nextPoll := rfl
@[simp] theorem setCluster_nextWatchdog (i : Nat) (k : Cluster) : (setCluster s i k).nextWatchdog = s.nextWatchdog := rfl
@[simp] theorem setCluster_nextFlush (i : Nat) (k : Cluster) : (setCluster s i k).nextFlush = s.nextFlush := rfl
@[simp] theorem setCluster_scrubFrom (i : Nat) (k : Cluster) : (setCluster s i k).scrubFrom = s.scrubFrom := rfl
@[simp] theorem getCourse_setCluster (i : Nat) (k : Cluster) (d e : Nat) : getCourse (setCluster s i k) d e = getCourse s d e := rfl
@[simp] theorem getBlock_setCluster (i : Nat) (k : Cluster) (d : Nat) : getBlock (setCluster s i k) d = getBlock s d := rfl
@[simp] theorem getCore_setCluster (i : Nat) (k : Cluster) (d : Nat) : getCore (setCluster s i k) d = getCore s d := rfl
@[simp] theorem getPart_setCluster (i : Nat) (k : Cluster) (d : BitVec 3) : getPart (setCluster s i k) d = getPart s d := rfl
@[simp] theorem getCtx_setCluster (i : Nat) (k : Cluster) (d : BitVec 16) : getCtx (setCluster s i k) d = getCtx s d := rfl
@[simp] theorem getCmd_setCluster (i : Nat) (k : Cluster) (d : Nat) : getCmd (setCluster s i k) d = getCmd s d := rfl
@[simp] theorem getJob_setCluster (i : Nat) (k : Cluster) (d : Nat) : getJob (setCluster s i k) d = getJob s d := rfl
@[simp] theorem getQueue_setCluster (i : Nat) (k : Cluster) (d : BitVec 3) (e : Nat) : getQueue (setCluster s i k) d e = getQueue s d e := rfl
@[simp] theorem getCounter_setCluster (i : Nat) (k : Cluster) (d : Nat) : getCounter (setCluster s i k) d = getCounter s d := rfl

/-! ### `setPart` -/

@[simp] theorem setPart_now (p : BitVec 3) (k : Partition) : (setPart s p k).now = s.now := rfl
@[simp] theorem setPart_frac (p : BitVec 3) (k : Partition) : (setPart s p k).frac = s.frac := rfl
@[simp] theorem setPart_agenda (p : BitVec 3) (k : Partition) : (setPart s p k).agenda = s.agenda := rfl
@[simp] theorem setPart_turn (p : BitVec 3) (k : Partition) : (setPart s p k).turn = s.turn := rfl
@[simp] theorem setPart_fresh (p : BitVec 3) (k : Partition) : (setPart s p k).fresh = s.fresh := rfl
@[simp] theorem setPart_nextId (p : BitVec 3) (k : Partition) : (setPart s p k).nextId = s.nextId := rfl
@[simp] theorem setPart_issue (p : BitVec 3) (k : Partition) : (setPart s p k).issue = s.issue := rfl
@[simp] theorem setPart_courses (p : BitVec 3) (k : Partition) : (setPart s p k).courses = s.courses := rfl
@[simp] theorem setPart_blocks (p : BitVec 3) (k : Partition) : (setPart s p k).blocks = s.blocks := rfl
@[simp] theorem setPart_commands (p : BitVec 3) (k : Partition) : (setPart s p k).commands = s.commands := rfl
@[simp] theorem setPart_waitingBlocks (p : BitVec 3) (k : Partition) : (setPart s p k).waitingBlocks = s.waitingBlocks := rfl
@[simp] theorem setPart_cores (p : BitVec 3) (k : Partition) : (setPart s p k).cores = s.cores := rfl
@[simp] theorem setPart_clusters (p : BitVec 3) (k : Partition) : (setPart s p k).clusters = s.clusters := rfl
@[simp] theorem setPart_rails (p : BitVec 3) (k : Partition) : (setPart s p k).rails = s.rails := rfl
@[simp] theorem setPart_contexts (p : BitVec 3) (k : Partition) : (setPart s p k).contexts = s.contexts := rfl
@[simp] theorem setPart_entries (p : BitVec 3) (k : Partition) : (setPart s p k).entries = s.entries := rfl
@[simp] theorem setPart_queues (p : BitVec 3) (k : Partition) : (setPart s p k).queues = s.queues := rfl
@[simp] theorem setPart_jobs (p : BitVec 3) (k : Partition) : (setPart s p k).jobs = s.jobs := rfl
@[simp] theorem setPart_counters (p : BitVec 3) (k : Partition) : (setPart s p k).counters = s.counters := rfl
@[simp] theorem setPart_dev (p : BitVec 3) (k : Partition) : (setPart s p k).dev = s.dev := rfl
@[simp] theorem setPart_devPoison (p : BitVec 3) (k : Partition) : (setPart s p k).devPoison = s.devPoison := rfl
@[simp] theorem setPart_hostMem (p : BitVec 3) (k : Partition) : (setPart s p k).hostMem = s.hostMem := rfl
@[simp] theorem setPart_hostPoison (p : BitVec 3) (k : Partition) : (setPart s p k).hostPoison = s.hostPoison := rfl
@[simp] theorem setPart_hostHeld (p : BitVec 3) (k : Partition) : (setPart s p k).hostHeld = s.hostHeld := rfl
@[simp] theorem setPart_powered (p : BitVec 3) (k : Partition) : (setPart s p k).powered = s.powered := rfl
@[simp] theorem setPart_phase (p : BitVec 3) (k : Partition) : (setPart s p k).phase = s.phase := rfl
@[simp] theorem setPart_powerGoodAt (p : BitVec 3) (k : Partition) : (setPart s p k).powerGoodAt = s.powerGoodAt := rfl
@[simp] theorem setPart_temps (p : BitVec 3) (k : Partition) : (setPart s p k).temps = s.temps := rfl
@[simp] theorem setPart_railmap (p : BitVec 3) (k : Partition) : (setPart s p k).railmap = s.railmap := rfl
@[simp] theorem setPart_memctl (p : BitVec 3) (k : Partition) : (setPart s p k).memctl = s.memctl := rfl
@[simp] theorem setPart_stretchCount (p : BitVec 3) (k : Partition) : (setPart s p k).stretchCount = s.stretchCount := rfl
@[simp] theorem setPart_mbstat (p : BitVec 3) (k : Partition) : (setPart s p k).mbstat = s.mbstat := rfl
@[simp] theorem setPart_mailbox (p : BitVec 3) (k : Partition) : (setPart s p k).mailbox = s.mailbox := rfl
@[simp] theorem setPart_staged (p : BitVec 3) (k : Partition) : (setPart s p k).staged = s.staged := rfl
@[simp] theorem setPart_imageSlots (p : BitVec 3) (k : Partition) : (setPart s p k).imageSlots = s.imageSlots := rfl
@[simp] theorem setPart_runSlot (p : BitVec 3) (k : Partition) : (setPart s p k).runSlot = s.runSlot := rfl
@[simp] theorem setPart_bootSlot (p : BitVec 3) (k : Partition) : (setPart s p k).bootSlot = s.bootSlot := rfl
@[simp] theorem setPart_rollback (p : BitVec 3) (k : Partition) : (setPart s p k).rollback = s.rollback := rfl
@[simp] theorem setPart_images (p : BitVec 3) (k : Partition) : (setPart s p k).images = s.images := rfl
@[simp] theorem setPart_coldStarts (p : BitVec 3) (k : Partition) : (setPart s p k).coldStarts = s.coldStarts := rfl
@[simp] theorem setPart_modules (p : BitVec 3) (k : Partition) : (setPart s p k).modules = s.modules := rfl
@[simp] theorem setPart_bond (p : BitVec 3) (k : Partition) : (setPart s p k).bond = s.bond := rfl
@[simp] theorem setPart_health (p : BitVec 3) (k : Partition) : (setPart s p k).health = s.health := rfl
@[simp] theorem setPart_pcDead (p : BitVec 3) (k : Partition) : (setPart s p k).pcDead = s.pcDead := rfl
@[simp] theorem setPart_bankDead (p : BitVec 3) (k : Partition) : (setPart s p k).bankDead = s.bankDead := rfl
@[simp] theorem setPart_stale (p : BitVec 3) (k : Partition) : (setPart s p k).stale = s.stale := rfl
@[simp] theorem setPart_retired (p : BitVec 3) (k : Partition) : (setPart s p k).retired = s.retired := rfl
@[simp] theorem setPart_symbols (p : BitVec 3) (k : Partition) : (setPart s p k).symbols = s.symbols := rfl
@[simp] theorem setPart_skew (p : BitVec 3) (k : Partition) : (setPart s p k).skew = s.skew := rfl
@[simp] theorem setPart_unbond (p : BitVec 3) (k : Partition) : (setPart s p k).unbond = s.unbond := rfl
@[simp] theorem setPart_repairsUsed (p : BitVec 3) (k : Partition) : (setPart s p k).repairsUsed = s.repairsUsed := rfl
@[simp] theorem setPart_repair (p : BitVec 3) (k : Partition) : (setPart s p k).repair = s.repair := rfl
@[simp] theorem setPart_chanCounts (p : BitVec 3) (k : Partition) : (setPart s p k).chanCounts = s.chanCounts := rfl
@[simp] theorem setPart_nvsCounts (p : BitVec 3) (k : Partition) : (setPart s p k).nvsCounts = s.nvsCounts := rfl
@[simp] theorem setPart_passCe (p : BitVec 3) (k : Partition) : (setPart s p k).passCe = s.passCe := rfl
@[simp] theorem setPart_passBad (p : BitVec 3) (k : Partition) : (setPart s p k).passBad = s.passBad := rfl
@[simp] theorem setPart_trained (p : BitVec 3) (k : Partition) : (setPart s p k).trained = s.trained := rfl
@[simp] theorem setPart_trainTemp (p : BitVec 3) (k : Partition) : (setPart s p k).trainTemp = s.trainTemp := rfl
@[simp] theorem setPart_retraining (p : BitVec 3) (k : Partition) : (setPart s p k).retraining = s.retraining := rfl
@[simp] theorem setPart_dueNow (p : BitVec 3) (k : Partition) : (setPart s p k).dueNow = s.dueNow := rfl
@[simp] theorem setPart_rebuild (p : BitVec 3) (k : Partition) : (setPart s p k).rebuild = s.rebuild := rfl
@[simp] theorem setPart_scrubAt (p : BitVec 3) (k : Partition) : (setPart s p k).scrubAt = s.scrubAt := rfl
@[simp] theorem setPart_scrubPass (p : BitVec 3) (k : Partition) : (setPart s p k).scrubPass = s.scrubPass := rfl
@[simp] theorem setPart_lanes (p : BitVec 3) (k : Partition) : (setPart s p k).lanes = s.lanes := rfl
@[simp] theorem setPart_remotes (p : BitVec 3) (k : Partition) : (setPart s p k).remotes = s.remotes := rfl
@[simp] theorem setPart_l2 (p : BitVec 3) (k : Partition) : (setPart s p k).l2 = s.l2 := rfl
@[simp] theorem setPart_traffic (p : BitVec 3) (k : Partition) : (setPart s p k).traffic = s.traffic := rfl
@[simp] theorem setPart_offNs (p : BitVec 3) (k : Partition) : (setPart s p k).offNs = s.offNs := rfl
@[simp] theorem setPart_recovering (p : BitVec 3) (k : Partition) : (setPart s p k).recovering = s.recovering := rfl
@[simp] theorem setPart_out (p : BitVec 3) (k : Partition) : (setPart s p k).out = s.out := rfl
@[simp] theorem setPart_nextInterval (p : BitVec 3) (k : Partition) : (setPart s p k).nextInterval = s.nextInterval := rfl
@[simp] theorem setPart_nextWindow (p : BitVec 3) (k : Partition) : (setPart s p k).nextWindow = s.nextWindow := rfl
@[simp] theorem setPart_nextPoll (p : BitVec 3) (k : Partition) : (setPart s p k).nextPoll = s.nextPoll := rfl
@[simp] theorem setPart_nextWatchdog (p : BitVec 3) (k : Partition) : (setPart s p k).nextWatchdog = s.nextWatchdog := rfl
@[simp] theorem setPart_nextFlush (p : BitVec 3) (k : Partition) : (setPart s p k).nextFlush = s.nextFlush := rfl
@[simp] theorem setPart_scrubFrom (p : BitVec 3) (k : Partition) : (setPart s p k).scrubFrom = s.scrubFrom := rfl
@[simp] theorem getCourse_setPart (p : BitVec 3) (k : Partition) (d e : Nat) : getCourse (setPart s p k) d e = getCourse s d e := rfl
@[simp] theorem getBlock_setPart (p : BitVec 3) (k : Partition) (d : Nat) : getBlock (setPart s p k) d = getBlock s d := rfl
@[simp] theorem getCore_setPart (p : BitVec 3) (k : Partition) (d : Nat) : getCore (setPart s p k) d = getCore s d := rfl
@[simp] theorem getCluster_setPart (p : BitVec 3) (k : Partition) (d : Nat) : getCluster (setPart s p k) d = getCluster s d := rfl
@[simp] theorem getCtx_setPart (p : BitVec 3) (k : Partition) (d : BitVec 16) : getCtx (setPart s p k) d = getCtx s d := rfl
@[simp] theorem getCmd_setPart (p : BitVec 3) (k : Partition) (d : Nat) : getCmd (setPart s p k) d = getCmd s d := rfl
@[simp] theorem getJob_setPart (p : BitVec 3) (k : Partition) (d : Nat) : getJob (setPart s p k) d = getJob s d := rfl
@[simp] theorem getQueue_setPart (p : BitVec 3) (k : Partition) (d : BitVec 3) (e : Nat) : getQueue (setPart s p k) d e = getQueue s d e := rfl
@[simp] theorem getCounter_setPart (p : BitVec 3) (k : Partition) (d : Nat) : getCounter (setPart s p k) d = getCounter s d := rfl

/-! ### `setCtx` -/

@[simp] theorem setCtx_now (a : BitVec 16) (k : Context) : (setCtx s a k).now = s.now := rfl
@[simp] theorem setCtx_frac (a : BitVec 16) (k : Context) : (setCtx s a k).frac = s.frac := rfl
@[simp] theorem setCtx_agenda (a : BitVec 16) (k : Context) : (setCtx s a k).agenda = s.agenda := rfl
@[simp] theorem setCtx_turn (a : BitVec 16) (k : Context) : (setCtx s a k).turn = s.turn := rfl
@[simp] theorem setCtx_fresh (a : BitVec 16) (k : Context) : (setCtx s a k).fresh = s.fresh := rfl
@[simp] theorem setCtx_nextId (a : BitVec 16) (k : Context) : (setCtx s a k).nextId = s.nextId := rfl
@[simp] theorem setCtx_issue (a : BitVec 16) (k : Context) : (setCtx s a k).issue = s.issue := rfl
@[simp] theorem setCtx_courses (a : BitVec 16) (k : Context) : (setCtx s a k).courses = s.courses := rfl
@[simp] theorem setCtx_blocks (a : BitVec 16) (k : Context) : (setCtx s a k).blocks = s.blocks := rfl
@[simp] theorem setCtx_commands (a : BitVec 16) (k : Context) : (setCtx s a k).commands = s.commands := rfl
@[simp] theorem setCtx_waitingBlocks (a : BitVec 16) (k : Context) : (setCtx s a k).waitingBlocks = s.waitingBlocks := rfl
@[simp] theorem setCtx_cores (a : BitVec 16) (k : Context) : (setCtx s a k).cores = s.cores := rfl
@[simp] theorem setCtx_clusters (a : BitVec 16) (k : Context) : (setCtx s a k).clusters = s.clusters := rfl
@[simp] theorem setCtx_rails (a : BitVec 16) (k : Context) : (setCtx s a k).rails = s.rails := rfl
@[simp] theorem setCtx_entries (a : BitVec 16) (k : Context) : (setCtx s a k).entries = s.entries := rfl
@[simp] theorem setCtx_queues (a : BitVec 16) (k : Context) : (setCtx s a k).queues = s.queues := rfl
@[simp] theorem setCtx_jobs (a : BitVec 16) (k : Context) : (setCtx s a k).jobs = s.jobs := rfl
@[simp] theorem setCtx_counters (a : BitVec 16) (k : Context) : (setCtx s a k).counters = s.counters := rfl
@[simp] theorem setCtx_partitions (a : BitVec 16) (k : Context) : (setCtx s a k).partitions = s.partitions := rfl
@[simp] theorem setCtx_dev (a : BitVec 16) (k : Context) : (setCtx s a k).dev = s.dev := rfl
@[simp] theorem setCtx_devPoison (a : BitVec 16) (k : Context) : (setCtx s a k).devPoison = s.devPoison := rfl
@[simp] theorem setCtx_hostMem (a : BitVec 16) (k : Context) : (setCtx s a k).hostMem = s.hostMem := rfl
@[simp] theorem setCtx_hostPoison (a : BitVec 16) (k : Context) : (setCtx s a k).hostPoison = s.hostPoison := rfl
@[simp] theorem setCtx_hostHeld (a : BitVec 16) (k : Context) : (setCtx s a k).hostHeld = s.hostHeld := rfl
@[simp] theorem setCtx_powered (a : BitVec 16) (k : Context) : (setCtx s a k).powered = s.powered := rfl
@[simp] theorem setCtx_phase (a : BitVec 16) (k : Context) : (setCtx s a k).phase = s.phase := rfl
@[simp] theorem setCtx_powerGoodAt (a : BitVec 16) (k : Context) : (setCtx s a k).powerGoodAt = s.powerGoodAt := rfl
@[simp] theorem setCtx_temps (a : BitVec 16) (k : Context) : (setCtx s a k).temps = s.temps := rfl
@[simp] theorem setCtx_railmap (a : BitVec 16) (k : Context) : (setCtx s a k).railmap = s.railmap := rfl
@[simp] theorem setCtx_memctl (a : BitVec 16) (k : Context) : (setCtx s a k).memctl = s.memctl := rfl
@[simp] theorem setCtx_stretchCount (a : BitVec 16) (k : Context) : (setCtx s a k).stretchCount = s.stretchCount := rfl
@[simp] theorem setCtx_mbstat (a : BitVec 16) (k : Context) : (setCtx s a k).mbstat = s.mbstat := rfl
@[simp] theorem setCtx_mailbox (a : BitVec 16) (k : Context) : (setCtx s a k).mailbox = s.mailbox := rfl
@[simp] theorem setCtx_staged (a : BitVec 16) (k : Context) : (setCtx s a k).staged = s.staged := rfl
@[simp] theorem setCtx_imageSlots (a : BitVec 16) (k : Context) : (setCtx s a k).imageSlots = s.imageSlots := rfl
@[simp] theorem setCtx_runSlot (a : BitVec 16) (k : Context) : (setCtx s a k).runSlot = s.runSlot := rfl
@[simp] theorem setCtx_bootSlot (a : BitVec 16) (k : Context) : (setCtx s a k).bootSlot = s.bootSlot := rfl
@[simp] theorem setCtx_rollback (a : BitVec 16) (k : Context) : (setCtx s a k).rollback = s.rollback := rfl
@[simp] theorem setCtx_images (a : BitVec 16) (k : Context) : (setCtx s a k).images = s.images := rfl
@[simp] theorem setCtx_coldStarts (a : BitVec 16) (k : Context) : (setCtx s a k).coldStarts = s.coldStarts := rfl
@[simp] theorem setCtx_modules (a : BitVec 16) (k : Context) : (setCtx s a k).modules = s.modules := rfl
@[simp] theorem setCtx_bond (a : BitVec 16) (k : Context) : (setCtx s a k).bond = s.bond := rfl
@[simp] theorem setCtx_health (a : BitVec 16) (k : Context) : (setCtx s a k).health = s.health := rfl
@[simp] theorem setCtx_pcDead (a : BitVec 16) (k : Context) : (setCtx s a k).pcDead = s.pcDead := rfl
@[simp] theorem setCtx_bankDead (a : BitVec 16) (k : Context) : (setCtx s a k).bankDead = s.bankDead := rfl
@[simp] theorem setCtx_stale (a : BitVec 16) (k : Context) : (setCtx s a k).stale = s.stale := rfl
@[simp] theorem setCtx_retired (a : BitVec 16) (k : Context) : (setCtx s a k).retired = s.retired := rfl
@[simp] theorem setCtx_symbols (a : BitVec 16) (k : Context) : (setCtx s a k).symbols = s.symbols := rfl
@[simp] theorem setCtx_skew (a : BitVec 16) (k : Context) : (setCtx s a k).skew = s.skew := rfl
@[simp] theorem setCtx_unbond (a : BitVec 16) (k : Context) : (setCtx s a k).unbond = s.unbond := rfl
@[simp] theorem setCtx_repairsUsed (a : BitVec 16) (k : Context) : (setCtx s a k).repairsUsed = s.repairsUsed := rfl
@[simp] theorem setCtx_repair (a : BitVec 16) (k : Context) : (setCtx s a k).repair = s.repair := rfl
@[simp] theorem setCtx_chanCounts (a : BitVec 16) (k : Context) : (setCtx s a k).chanCounts = s.chanCounts := rfl
@[simp] theorem setCtx_nvsCounts (a : BitVec 16) (k : Context) : (setCtx s a k).nvsCounts = s.nvsCounts := rfl
@[simp] theorem setCtx_passCe (a : BitVec 16) (k : Context) : (setCtx s a k).passCe = s.passCe := rfl
@[simp] theorem setCtx_passBad (a : BitVec 16) (k : Context) : (setCtx s a k).passBad = s.passBad := rfl
@[simp] theorem setCtx_trained (a : BitVec 16) (k : Context) : (setCtx s a k).trained = s.trained := rfl
@[simp] theorem setCtx_trainTemp (a : BitVec 16) (k : Context) : (setCtx s a k).trainTemp = s.trainTemp := rfl
@[simp] theorem setCtx_retraining (a : BitVec 16) (k : Context) : (setCtx s a k).retraining = s.retraining := rfl
@[simp] theorem setCtx_dueNow (a : BitVec 16) (k : Context) : (setCtx s a k).dueNow = s.dueNow := rfl
@[simp] theorem setCtx_rebuild (a : BitVec 16) (k : Context) : (setCtx s a k).rebuild = s.rebuild := rfl
@[simp] theorem setCtx_scrubAt (a : BitVec 16) (k : Context) : (setCtx s a k).scrubAt = s.scrubAt := rfl
@[simp] theorem setCtx_scrubPass (a : BitVec 16) (k : Context) : (setCtx s a k).scrubPass = s.scrubPass := rfl
@[simp] theorem setCtx_lanes (a : BitVec 16) (k : Context) : (setCtx s a k).lanes = s.lanes := rfl
@[simp] theorem setCtx_remotes (a : BitVec 16) (k : Context) : (setCtx s a k).remotes = s.remotes := rfl
@[simp] theorem setCtx_l2 (a : BitVec 16) (k : Context) : (setCtx s a k).l2 = s.l2 := rfl
@[simp] theorem setCtx_traffic (a : BitVec 16) (k : Context) : (setCtx s a k).traffic = s.traffic := rfl
@[simp] theorem setCtx_offNs (a : BitVec 16) (k : Context) : (setCtx s a k).offNs = s.offNs := rfl
@[simp] theorem setCtx_recovering (a : BitVec 16) (k : Context) : (setCtx s a k).recovering = s.recovering := rfl
@[simp] theorem setCtx_out (a : BitVec 16) (k : Context) : (setCtx s a k).out = s.out := rfl
@[simp] theorem setCtx_nextInterval (a : BitVec 16) (k : Context) : (setCtx s a k).nextInterval = s.nextInterval := rfl
@[simp] theorem setCtx_nextWindow (a : BitVec 16) (k : Context) : (setCtx s a k).nextWindow = s.nextWindow := rfl
@[simp] theorem setCtx_nextPoll (a : BitVec 16) (k : Context) : (setCtx s a k).nextPoll = s.nextPoll := rfl
@[simp] theorem setCtx_nextWatchdog (a : BitVec 16) (k : Context) : (setCtx s a k).nextWatchdog = s.nextWatchdog := rfl
@[simp] theorem setCtx_nextFlush (a : BitVec 16) (k : Context) : (setCtx s a k).nextFlush = s.nextFlush := rfl
@[simp] theorem setCtx_scrubFrom (a : BitVec 16) (k : Context) : (setCtx s a k).scrubFrom = s.scrubFrom := rfl
@[simp] theorem getCourse_setCtx (a : BitVec 16) (k : Context) (d e : Nat) : getCourse (setCtx s a k) d e = getCourse s d e := rfl
@[simp] theorem getBlock_setCtx (a : BitVec 16) (k : Context) (d : Nat) : getBlock (setCtx s a k) d = getBlock s d := rfl
@[simp] theorem getCore_setCtx (a : BitVec 16) (k : Context) (d : Nat) : getCore (setCtx s a k) d = getCore s d := rfl
@[simp] theorem getCluster_setCtx (a : BitVec 16) (k : Context) (d : Nat) : getCluster (setCtx s a k) d = getCluster s d := rfl
@[simp] theorem getPart_setCtx (a : BitVec 16) (k : Context) (d : BitVec 3) : getPart (setCtx s a k) d = getPart s d := rfl
@[simp] theorem getCmd_setCtx (a : BitVec 16) (k : Context) (d : Nat) : getCmd (setCtx s a k) d = getCmd s d := rfl
@[simp] theorem getJob_setCtx (a : BitVec 16) (k : Context) (d : Nat) : getJob (setCtx s a k) d = getJob s d := rfl
@[simp] theorem getQueue_setCtx (a : BitVec 16) (k : Context) (d : BitVec 3) (e : Nat) : getQueue (setCtx s a k) d e = getQueue s d e := rfl
@[simp] theorem getCounter_setCtx (a : BitVec 16) (k : Context) (d : Nat) : getCounter (setCtx s a k) d = getCounter s d := rfl

/-! ### `setCmd` -/

@[simp] theorem setCmd_now (i : Nat) (k : Command) : (setCmd s i k).now = s.now := rfl
@[simp] theorem setCmd_frac (i : Nat) (k : Command) : (setCmd s i k).frac = s.frac := rfl
@[simp] theorem setCmd_agenda (i : Nat) (k : Command) : (setCmd s i k).agenda = s.agenda := rfl
@[simp] theorem setCmd_turn (i : Nat) (k : Command) : (setCmd s i k).turn = s.turn := rfl
@[simp] theorem setCmd_fresh (i : Nat) (k : Command) : (setCmd s i k).fresh = s.fresh := rfl
@[simp] theorem setCmd_nextId (i : Nat) (k : Command) : (setCmd s i k).nextId = s.nextId := rfl
@[simp] theorem setCmd_issue (i : Nat) (k : Command) : (setCmd s i k).issue = s.issue := rfl
@[simp] theorem setCmd_courses (i : Nat) (k : Command) : (setCmd s i k).courses = s.courses := rfl
@[simp] theorem setCmd_blocks (i : Nat) (k : Command) : (setCmd s i k).blocks = s.blocks := rfl
@[simp] theorem setCmd_waitingBlocks (i : Nat) (k : Command) : (setCmd s i k).waitingBlocks = s.waitingBlocks := rfl
@[simp] theorem setCmd_cores (i : Nat) (k : Command) : (setCmd s i k).cores = s.cores := rfl
@[simp] theorem setCmd_clusters (i : Nat) (k : Command) : (setCmd s i k).clusters = s.clusters := rfl
@[simp] theorem setCmd_rails (i : Nat) (k : Command) : (setCmd s i k).rails = s.rails := rfl
@[simp] theorem setCmd_contexts (i : Nat) (k : Command) : (setCmd s i k).contexts = s.contexts := rfl
@[simp] theorem setCmd_entries (i : Nat) (k : Command) : (setCmd s i k).entries = s.entries := rfl
@[simp] theorem setCmd_queues (i : Nat) (k : Command) : (setCmd s i k).queues = s.queues := rfl
@[simp] theorem setCmd_jobs (i : Nat) (k : Command) : (setCmd s i k).jobs = s.jobs := rfl
@[simp] theorem setCmd_counters (i : Nat) (k : Command) : (setCmd s i k).counters = s.counters := rfl
@[simp] theorem setCmd_partitions (i : Nat) (k : Command) : (setCmd s i k).partitions = s.partitions := rfl
@[simp] theorem setCmd_dev (i : Nat) (k : Command) : (setCmd s i k).dev = s.dev := rfl
@[simp] theorem setCmd_devPoison (i : Nat) (k : Command) : (setCmd s i k).devPoison = s.devPoison := rfl
@[simp] theorem setCmd_hostMem (i : Nat) (k : Command) : (setCmd s i k).hostMem = s.hostMem := rfl
@[simp] theorem setCmd_hostPoison (i : Nat) (k : Command) : (setCmd s i k).hostPoison = s.hostPoison := rfl
@[simp] theorem setCmd_hostHeld (i : Nat) (k : Command) : (setCmd s i k).hostHeld = s.hostHeld := rfl
@[simp] theorem setCmd_powered (i : Nat) (k : Command) : (setCmd s i k).powered = s.powered := rfl
@[simp] theorem setCmd_phase (i : Nat) (k : Command) : (setCmd s i k).phase = s.phase := rfl
@[simp] theorem setCmd_powerGoodAt (i : Nat) (k : Command) : (setCmd s i k).powerGoodAt = s.powerGoodAt := rfl
@[simp] theorem setCmd_temps (i : Nat) (k : Command) : (setCmd s i k).temps = s.temps := rfl
@[simp] theorem setCmd_railmap (i : Nat) (k : Command) : (setCmd s i k).railmap = s.railmap := rfl
@[simp] theorem setCmd_memctl (i : Nat) (k : Command) : (setCmd s i k).memctl = s.memctl := rfl
@[simp] theorem setCmd_stretchCount (i : Nat) (k : Command) : (setCmd s i k).stretchCount = s.stretchCount := rfl
@[simp] theorem setCmd_mbstat (i : Nat) (k : Command) : (setCmd s i k).mbstat = s.mbstat := rfl
@[simp] theorem setCmd_mailbox (i : Nat) (k : Command) : (setCmd s i k).mailbox = s.mailbox := rfl
@[simp] theorem setCmd_staged (i : Nat) (k : Command) : (setCmd s i k).staged = s.staged := rfl
@[simp] theorem setCmd_imageSlots (i : Nat) (k : Command) : (setCmd s i k).imageSlots = s.imageSlots := rfl
@[simp] theorem setCmd_runSlot (i : Nat) (k : Command) : (setCmd s i k).runSlot = s.runSlot := rfl
@[simp] theorem setCmd_bootSlot (i : Nat) (k : Command) : (setCmd s i k).bootSlot = s.bootSlot := rfl
@[simp] theorem setCmd_rollback (i : Nat) (k : Command) : (setCmd s i k).rollback = s.rollback := rfl
@[simp] theorem setCmd_images (i : Nat) (k : Command) : (setCmd s i k).images = s.images := rfl
@[simp] theorem setCmd_coldStarts (i : Nat) (k : Command) : (setCmd s i k).coldStarts = s.coldStarts := rfl
@[simp] theorem setCmd_modules (i : Nat) (k : Command) : (setCmd s i k).modules = s.modules := rfl
@[simp] theorem setCmd_bond (i : Nat) (k : Command) : (setCmd s i k).bond = s.bond := rfl
@[simp] theorem setCmd_health (i : Nat) (k : Command) : (setCmd s i k).health = s.health := rfl
@[simp] theorem setCmd_pcDead (i : Nat) (k : Command) : (setCmd s i k).pcDead = s.pcDead := rfl
@[simp] theorem setCmd_bankDead (i : Nat) (k : Command) : (setCmd s i k).bankDead = s.bankDead := rfl
@[simp] theorem setCmd_stale (i : Nat) (k : Command) : (setCmd s i k).stale = s.stale := rfl
@[simp] theorem setCmd_retired (i : Nat) (k : Command) : (setCmd s i k).retired = s.retired := rfl
@[simp] theorem setCmd_symbols (i : Nat) (k : Command) : (setCmd s i k).symbols = s.symbols := rfl
@[simp] theorem setCmd_skew (i : Nat) (k : Command) : (setCmd s i k).skew = s.skew := rfl
@[simp] theorem setCmd_unbond (i : Nat) (k : Command) : (setCmd s i k).unbond = s.unbond := rfl
@[simp] theorem setCmd_repairsUsed (i : Nat) (k : Command) : (setCmd s i k).repairsUsed = s.repairsUsed := rfl
@[simp] theorem setCmd_repair (i : Nat) (k : Command) : (setCmd s i k).repair = s.repair := rfl
@[simp] theorem setCmd_chanCounts (i : Nat) (k : Command) : (setCmd s i k).chanCounts = s.chanCounts := rfl
@[simp] theorem setCmd_nvsCounts (i : Nat) (k : Command) : (setCmd s i k).nvsCounts = s.nvsCounts := rfl
@[simp] theorem setCmd_passCe (i : Nat) (k : Command) : (setCmd s i k).passCe = s.passCe := rfl
@[simp] theorem setCmd_passBad (i : Nat) (k : Command) : (setCmd s i k).passBad = s.passBad := rfl
@[simp] theorem setCmd_trained (i : Nat) (k : Command) : (setCmd s i k).trained = s.trained := rfl
@[simp] theorem setCmd_trainTemp (i : Nat) (k : Command) : (setCmd s i k).trainTemp = s.trainTemp := rfl
@[simp] theorem setCmd_retraining (i : Nat) (k : Command) : (setCmd s i k).retraining = s.retraining := rfl
@[simp] theorem setCmd_dueNow (i : Nat) (k : Command) : (setCmd s i k).dueNow = s.dueNow := rfl
@[simp] theorem setCmd_rebuild (i : Nat) (k : Command) : (setCmd s i k).rebuild = s.rebuild := rfl
@[simp] theorem setCmd_scrubAt (i : Nat) (k : Command) : (setCmd s i k).scrubAt = s.scrubAt := rfl
@[simp] theorem setCmd_scrubPass (i : Nat) (k : Command) : (setCmd s i k).scrubPass = s.scrubPass := rfl
@[simp] theorem setCmd_lanes (i : Nat) (k : Command) : (setCmd s i k).lanes = s.lanes := rfl
@[simp] theorem setCmd_remotes (i : Nat) (k : Command) : (setCmd s i k).remotes = s.remotes := rfl
@[simp] theorem setCmd_l2 (i : Nat) (k : Command) : (setCmd s i k).l2 = s.l2 := rfl
@[simp] theorem setCmd_traffic (i : Nat) (k : Command) : (setCmd s i k).traffic = s.traffic := rfl
@[simp] theorem setCmd_offNs (i : Nat) (k : Command) : (setCmd s i k).offNs = s.offNs := rfl
@[simp] theorem setCmd_recovering (i : Nat) (k : Command) : (setCmd s i k).recovering = s.recovering := rfl
@[simp] theorem setCmd_out (i : Nat) (k : Command) : (setCmd s i k).out = s.out := rfl
@[simp] theorem setCmd_nextInterval (i : Nat) (k : Command) : (setCmd s i k).nextInterval = s.nextInterval := rfl
@[simp] theorem setCmd_nextWindow (i : Nat) (k : Command) : (setCmd s i k).nextWindow = s.nextWindow := rfl
@[simp] theorem setCmd_nextPoll (i : Nat) (k : Command) : (setCmd s i k).nextPoll = s.nextPoll := rfl
@[simp] theorem setCmd_nextWatchdog (i : Nat) (k : Command) : (setCmd s i k).nextWatchdog = s.nextWatchdog := rfl
@[simp] theorem setCmd_nextFlush (i : Nat) (k : Command) : (setCmd s i k).nextFlush = s.nextFlush := rfl
@[simp] theorem setCmd_scrubFrom (i : Nat) (k : Command) : (setCmd s i k).scrubFrom = s.scrubFrom := rfl
@[simp] theorem getCourse_setCmd (i : Nat) (k : Command) (d e : Nat) : getCourse (setCmd s i k) d e = getCourse s d e := rfl
@[simp] theorem getBlock_setCmd (i : Nat) (k : Command) (d : Nat) : getBlock (setCmd s i k) d = getBlock s d := rfl
@[simp] theorem getCore_setCmd (i : Nat) (k : Command) (d : Nat) : getCore (setCmd s i k) d = getCore s d := rfl
@[simp] theorem getCluster_setCmd (i : Nat) (k : Command) (d : Nat) : getCluster (setCmd s i k) d = getCluster s d := rfl
@[simp] theorem getPart_setCmd (i : Nat) (k : Command) (d : BitVec 3) : getPart (setCmd s i k) d = getPart s d := rfl
@[simp] theorem getCtx_setCmd (i : Nat) (k : Command) (d : BitVec 16) : getCtx (setCmd s i k) d = getCtx s d := rfl
@[simp] theorem getJob_setCmd (i : Nat) (k : Command) (d : Nat) : getJob (setCmd s i k) d = getJob s d := rfl
@[simp] theorem getQueue_setCmd (i : Nat) (k : Command) (d : BitVec 3) (e : Nat) : getQueue (setCmd s i k) d e = getQueue s d e := rfl
@[simp] theorem getCounter_setCmd (i : Nat) (k : Command) (d : Nat) : getCounter (setCmd s i k) d = getCounter s d := rfl

/-! ### `setJob` -/

@[simp] theorem setJob_now (i : Nat) (k : Job) : (setJob s i k).now = s.now := rfl
@[simp] theorem setJob_frac (i : Nat) (k : Job) : (setJob s i k).frac = s.frac := rfl
@[simp] theorem setJob_agenda (i : Nat) (k : Job) : (setJob s i k).agenda = s.agenda := rfl
@[simp] theorem setJob_turn (i : Nat) (k : Job) : (setJob s i k).turn = s.turn := rfl
@[simp] theorem setJob_fresh (i : Nat) (k : Job) : (setJob s i k).fresh = s.fresh := rfl
@[simp] theorem setJob_nextId (i : Nat) (k : Job) : (setJob s i k).nextId = s.nextId := rfl
@[simp] theorem setJob_issue (i : Nat) (k : Job) : (setJob s i k).issue = s.issue := rfl
@[simp] theorem setJob_courses (i : Nat) (k : Job) : (setJob s i k).courses = s.courses := rfl
@[simp] theorem setJob_blocks (i : Nat) (k : Job) : (setJob s i k).blocks = s.blocks := rfl
@[simp] theorem setJob_commands (i : Nat) (k : Job) : (setJob s i k).commands = s.commands := rfl
@[simp] theorem setJob_waitingBlocks (i : Nat) (k : Job) : (setJob s i k).waitingBlocks = s.waitingBlocks := rfl
@[simp] theorem setJob_cores (i : Nat) (k : Job) : (setJob s i k).cores = s.cores := rfl
@[simp] theorem setJob_clusters (i : Nat) (k : Job) : (setJob s i k).clusters = s.clusters := rfl
@[simp] theorem setJob_rails (i : Nat) (k : Job) : (setJob s i k).rails = s.rails := rfl
@[simp] theorem setJob_contexts (i : Nat) (k : Job) : (setJob s i k).contexts = s.contexts := rfl
@[simp] theorem setJob_entries (i : Nat) (k : Job) : (setJob s i k).entries = s.entries := rfl
@[simp] theorem setJob_queues (i : Nat) (k : Job) : (setJob s i k).queues = s.queues := rfl
@[simp] theorem setJob_counters (i : Nat) (k : Job) : (setJob s i k).counters = s.counters := rfl
@[simp] theorem setJob_partitions (i : Nat) (k : Job) : (setJob s i k).partitions = s.partitions := rfl
@[simp] theorem setJob_dev (i : Nat) (k : Job) : (setJob s i k).dev = s.dev := rfl
@[simp] theorem setJob_devPoison (i : Nat) (k : Job) : (setJob s i k).devPoison = s.devPoison := rfl
@[simp] theorem setJob_hostMem (i : Nat) (k : Job) : (setJob s i k).hostMem = s.hostMem := rfl
@[simp] theorem setJob_hostPoison (i : Nat) (k : Job) : (setJob s i k).hostPoison = s.hostPoison := rfl
@[simp] theorem setJob_hostHeld (i : Nat) (k : Job) : (setJob s i k).hostHeld = s.hostHeld := rfl
@[simp] theorem setJob_powered (i : Nat) (k : Job) : (setJob s i k).powered = s.powered := rfl
@[simp] theorem setJob_phase (i : Nat) (k : Job) : (setJob s i k).phase = s.phase := rfl
@[simp] theorem setJob_powerGoodAt (i : Nat) (k : Job) : (setJob s i k).powerGoodAt = s.powerGoodAt := rfl
@[simp] theorem setJob_temps (i : Nat) (k : Job) : (setJob s i k).temps = s.temps := rfl
@[simp] theorem setJob_railmap (i : Nat) (k : Job) : (setJob s i k).railmap = s.railmap := rfl
@[simp] theorem setJob_memctl (i : Nat) (k : Job) : (setJob s i k).memctl = s.memctl := rfl
@[simp] theorem setJob_stretchCount (i : Nat) (k : Job) : (setJob s i k).stretchCount = s.stretchCount := rfl
@[simp] theorem setJob_mbstat (i : Nat) (k : Job) : (setJob s i k).mbstat = s.mbstat := rfl
@[simp] theorem setJob_mailbox (i : Nat) (k : Job) : (setJob s i k).mailbox = s.mailbox := rfl
@[simp] theorem setJob_staged (i : Nat) (k : Job) : (setJob s i k).staged = s.staged := rfl
@[simp] theorem setJob_imageSlots (i : Nat) (k : Job) : (setJob s i k).imageSlots = s.imageSlots := rfl
@[simp] theorem setJob_runSlot (i : Nat) (k : Job) : (setJob s i k).runSlot = s.runSlot := rfl
@[simp] theorem setJob_bootSlot (i : Nat) (k : Job) : (setJob s i k).bootSlot = s.bootSlot := rfl
@[simp] theorem setJob_rollback (i : Nat) (k : Job) : (setJob s i k).rollback = s.rollback := rfl
@[simp] theorem setJob_images (i : Nat) (k : Job) : (setJob s i k).images = s.images := rfl
@[simp] theorem setJob_coldStarts (i : Nat) (k : Job) : (setJob s i k).coldStarts = s.coldStarts := rfl
@[simp] theorem setJob_modules (i : Nat) (k : Job) : (setJob s i k).modules = s.modules := rfl
@[simp] theorem setJob_bond (i : Nat) (k : Job) : (setJob s i k).bond = s.bond := rfl
@[simp] theorem setJob_health (i : Nat) (k : Job) : (setJob s i k).health = s.health := rfl
@[simp] theorem setJob_pcDead (i : Nat) (k : Job) : (setJob s i k).pcDead = s.pcDead := rfl
@[simp] theorem setJob_bankDead (i : Nat) (k : Job) : (setJob s i k).bankDead = s.bankDead := rfl
@[simp] theorem setJob_stale (i : Nat) (k : Job) : (setJob s i k).stale = s.stale := rfl
@[simp] theorem setJob_retired (i : Nat) (k : Job) : (setJob s i k).retired = s.retired := rfl
@[simp] theorem setJob_symbols (i : Nat) (k : Job) : (setJob s i k).symbols = s.symbols := rfl
@[simp] theorem setJob_skew (i : Nat) (k : Job) : (setJob s i k).skew = s.skew := rfl
@[simp] theorem setJob_unbond (i : Nat) (k : Job) : (setJob s i k).unbond = s.unbond := rfl
@[simp] theorem setJob_repairsUsed (i : Nat) (k : Job) : (setJob s i k).repairsUsed = s.repairsUsed := rfl
@[simp] theorem setJob_repair (i : Nat) (k : Job) : (setJob s i k).repair = s.repair := rfl
@[simp] theorem setJob_chanCounts (i : Nat) (k : Job) : (setJob s i k).chanCounts = s.chanCounts := rfl
@[simp] theorem setJob_nvsCounts (i : Nat) (k : Job) : (setJob s i k).nvsCounts = s.nvsCounts := rfl
@[simp] theorem setJob_passCe (i : Nat) (k : Job) : (setJob s i k).passCe = s.passCe := rfl
@[simp] theorem setJob_passBad (i : Nat) (k : Job) : (setJob s i k).passBad = s.passBad := rfl
@[simp] theorem setJob_trained (i : Nat) (k : Job) : (setJob s i k).trained = s.trained := rfl
@[simp] theorem setJob_trainTemp (i : Nat) (k : Job) : (setJob s i k).trainTemp = s.trainTemp := rfl
@[simp] theorem setJob_retraining (i : Nat) (k : Job) : (setJob s i k).retraining = s.retraining := rfl
@[simp] theorem setJob_dueNow (i : Nat) (k : Job) : (setJob s i k).dueNow = s.dueNow := rfl
@[simp] theorem setJob_rebuild (i : Nat) (k : Job) : (setJob s i k).rebuild = s.rebuild := rfl
@[simp] theorem setJob_scrubAt (i : Nat) (k : Job) : (setJob s i k).scrubAt = s.scrubAt := rfl
@[simp] theorem setJob_scrubPass (i : Nat) (k : Job) : (setJob s i k).scrubPass = s.scrubPass := rfl
@[simp] theorem setJob_lanes (i : Nat) (k : Job) : (setJob s i k).lanes = s.lanes := rfl
@[simp] theorem setJob_remotes (i : Nat) (k : Job) : (setJob s i k).remotes = s.remotes := rfl
@[simp] theorem setJob_l2 (i : Nat) (k : Job) : (setJob s i k).l2 = s.l2 := rfl
@[simp] theorem setJob_traffic (i : Nat) (k : Job) : (setJob s i k).traffic = s.traffic := rfl
@[simp] theorem setJob_offNs (i : Nat) (k : Job) : (setJob s i k).offNs = s.offNs := rfl
@[simp] theorem setJob_recovering (i : Nat) (k : Job) : (setJob s i k).recovering = s.recovering := rfl
@[simp] theorem setJob_out (i : Nat) (k : Job) : (setJob s i k).out = s.out := rfl
@[simp] theorem setJob_nextInterval (i : Nat) (k : Job) : (setJob s i k).nextInterval = s.nextInterval := rfl
@[simp] theorem setJob_nextWindow (i : Nat) (k : Job) : (setJob s i k).nextWindow = s.nextWindow := rfl
@[simp] theorem setJob_nextPoll (i : Nat) (k : Job) : (setJob s i k).nextPoll = s.nextPoll := rfl
@[simp] theorem setJob_nextWatchdog (i : Nat) (k : Job) : (setJob s i k).nextWatchdog = s.nextWatchdog := rfl
@[simp] theorem setJob_nextFlush (i : Nat) (k : Job) : (setJob s i k).nextFlush = s.nextFlush := rfl
@[simp] theorem setJob_scrubFrom (i : Nat) (k : Job) : (setJob s i k).scrubFrom = s.scrubFrom := rfl
@[simp] theorem getCourse_setJob (i : Nat) (k : Job) (d e : Nat) : getCourse (setJob s i k) d e = getCourse s d e := rfl
@[simp] theorem getBlock_setJob (i : Nat) (k : Job) (d : Nat) : getBlock (setJob s i k) d = getBlock s d := rfl
@[simp] theorem getCore_setJob (i : Nat) (k : Job) (d : Nat) : getCore (setJob s i k) d = getCore s d := rfl
@[simp] theorem getCluster_setJob (i : Nat) (k : Job) (d : Nat) : getCluster (setJob s i k) d = getCluster s d := rfl
@[simp] theorem getPart_setJob (i : Nat) (k : Job) (d : BitVec 3) : getPart (setJob s i k) d = getPart s d := rfl
@[simp] theorem getCtx_setJob (i : Nat) (k : Job) (d : BitVec 16) : getCtx (setJob s i k) d = getCtx s d := rfl
@[simp] theorem getCmd_setJob (i : Nat) (k : Job) (d : Nat) : getCmd (setJob s i k) d = getCmd s d := rfl
@[simp] theorem getQueue_setJob (i : Nat) (k : Job) (d : BitVec 3) (e : Nat) : getQueue (setJob s i k) d e = getQueue s d e := rfl
@[simp] theorem getCounter_setJob (i : Nat) (k : Job) (d : Nat) : getCounter (setJob s i k) d = getCounter s d := rfl

/-! ### `setQueue` -/

@[simp] theorem setQueue_now (p : BitVec 3) (q : Nat) (k : Queue) : (setQueue s p q k).now = s.now := rfl
@[simp] theorem setQueue_frac (p : BitVec 3) (q : Nat) (k : Queue) : (setQueue s p q k).frac = s.frac := rfl
@[simp] theorem setQueue_agenda (p : BitVec 3) (q : Nat) (k : Queue) : (setQueue s p q k).agenda = s.agenda := rfl
@[simp] theorem setQueue_turn (p : BitVec 3) (q : Nat) (k : Queue) : (setQueue s p q k).turn = s.turn := rfl
@[simp] theorem setQueue_fresh (p : BitVec 3) (q : Nat) (k : Queue) : (setQueue s p q k).fresh = s.fresh := rfl
@[simp] theorem setQueue_nextId (p : BitVec 3) (q : Nat) (k : Queue) : (setQueue s p q k).nextId = s.nextId := rfl
@[simp] theorem setQueue_issue (p : BitVec 3) (q : Nat) (k : Queue) : (setQueue s p q k).issue = s.issue := rfl
@[simp] theorem setQueue_courses (p : BitVec 3) (q : Nat) (k : Queue) : (setQueue s p q k).courses = s.courses := rfl
@[simp] theorem setQueue_blocks (p : BitVec 3) (q : Nat) (k : Queue) : (setQueue s p q k).blocks = s.blocks := rfl
@[simp] theorem setQueue_commands (p : BitVec 3) (q : Nat) (k : Queue) : (setQueue s p q k).commands = s.commands := rfl
@[simp] theorem setQueue_waitingBlocks (p : BitVec 3) (q : Nat) (k : Queue) : (setQueue s p q k).waitingBlocks = s.waitingBlocks := rfl
@[simp] theorem setQueue_cores (p : BitVec 3) (q : Nat) (k : Queue) : (setQueue s p q k).cores = s.cores := rfl
@[simp] theorem setQueue_clusters (p : BitVec 3) (q : Nat) (k : Queue) : (setQueue s p q k).clusters = s.clusters := rfl
@[simp] theorem setQueue_rails (p : BitVec 3) (q : Nat) (k : Queue) : (setQueue s p q k).rails = s.rails := rfl
@[simp] theorem setQueue_contexts (p : BitVec 3) (q : Nat) (k : Queue) : (setQueue s p q k).contexts = s.contexts := rfl
@[simp] theorem setQueue_entries (p : BitVec 3) (q : Nat) (k : Queue) : (setQueue s p q k).entries = s.entries := rfl
@[simp] theorem setQueue_jobs (p : BitVec 3) (q : Nat) (k : Queue) : (setQueue s p q k).jobs = s.jobs := rfl
@[simp] theorem setQueue_counters (p : BitVec 3) (q : Nat) (k : Queue) : (setQueue s p q k).counters = s.counters := rfl
@[simp] theorem setQueue_partitions (p : BitVec 3) (q : Nat) (k : Queue) : (setQueue s p q k).partitions = s.partitions := rfl
@[simp] theorem setQueue_dev (p : BitVec 3) (q : Nat) (k : Queue) : (setQueue s p q k).dev = s.dev := rfl
@[simp] theorem setQueue_devPoison (p : BitVec 3) (q : Nat) (k : Queue) : (setQueue s p q k).devPoison = s.devPoison := rfl
@[simp] theorem setQueue_hostMem (p : BitVec 3) (q : Nat) (k : Queue) : (setQueue s p q k).hostMem = s.hostMem := rfl
@[simp] theorem setQueue_hostPoison (p : BitVec 3) (q : Nat) (k : Queue) : (setQueue s p q k).hostPoison = s.hostPoison := rfl
@[simp] theorem setQueue_hostHeld (p : BitVec 3) (q : Nat) (k : Queue) : (setQueue s p q k).hostHeld = s.hostHeld := rfl
@[simp] theorem setQueue_powered (p : BitVec 3) (q : Nat) (k : Queue) : (setQueue s p q k).powered = s.powered := rfl
@[simp] theorem setQueue_phase (p : BitVec 3) (q : Nat) (k : Queue) : (setQueue s p q k).phase = s.phase := rfl
@[simp] theorem setQueue_powerGoodAt (p : BitVec 3) (q : Nat) (k : Queue) : (setQueue s p q k).powerGoodAt = s.powerGoodAt := rfl
@[simp] theorem setQueue_temps (p : BitVec 3) (q : Nat) (k : Queue) : (setQueue s p q k).temps = s.temps := rfl
@[simp] theorem setQueue_railmap (p : BitVec 3) (q : Nat) (k : Queue) : (setQueue s p q k).railmap = s.railmap := rfl
@[simp] theorem setQueue_memctl (p : BitVec 3) (q : Nat) (k : Queue) : (setQueue s p q k).memctl = s.memctl := rfl
@[simp] theorem setQueue_stretchCount (p : BitVec 3) (q : Nat) (k : Queue) : (setQueue s p q k).stretchCount = s.stretchCount := rfl
@[simp] theorem setQueue_mbstat (p : BitVec 3) (q : Nat) (k : Queue) : (setQueue s p q k).mbstat = s.mbstat := rfl
@[simp] theorem setQueue_mailbox (p : BitVec 3) (q : Nat) (k : Queue) : (setQueue s p q k).mailbox = s.mailbox := rfl
@[simp] theorem setQueue_staged (p : BitVec 3) (q : Nat) (k : Queue) : (setQueue s p q k).staged = s.staged := rfl
@[simp] theorem setQueue_imageSlots (p : BitVec 3) (q : Nat) (k : Queue) : (setQueue s p q k).imageSlots = s.imageSlots := rfl
@[simp] theorem setQueue_runSlot (p : BitVec 3) (q : Nat) (k : Queue) : (setQueue s p q k).runSlot = s.runSlot := rfl
@[simp] theorem setQueue_bootSlot (p : BitVec 3) (q : Nat) (k : Queue) : (setQueue s p q k).bootSlot = s.bootSlot := rfl
@[simp] theorem setQueue_rollback (p : BitVec 3) (q : Nat) (k : Queue) : (setQueue s p q k).rollback = s.rollback := rfl
@[simp] theorem setQueue_images (p : BitVec 3) (q : Nat) (k : Queue) : (setQueue s p q k).images = s.images := rfl
@[simp] theorem setQueue_coldStarts (p : BitVec 3) (q : Nat) (k : Queue) : (setQueue s p q k).coldStarts = s.coldStarts := rfl
@[simp] theorem setQueue_modules (p : BitVec 3) (q : Nat) (k : Queue) : (setQueue s p q k).modules = s.modules := rfl
@[simp] theorem setQueue_bond (p : BitVec 3) (q : Nat) (k : Queue) : (setQueue s p q k).bond = s.bond := rfl
@[simp] theorem setQueue_health (p : BitVec 3) (q : Nat) (k : Queue) : (setQueue s p q k).health = s.health := rfl
@[simp] theorem setQueue_pcDead (p : BitVec 3) (q : Nat) (k : Queue) : (setQueue s p q k).pcDead = s.pcDead := rfl
@[simp] theorem setQueue_bankDead (p : BitVec 3) (q : Nat) (k : Queue) : (setQueue s p q k).bankDead = s.bankDead := rfl
@[simp] theorem setQueue_stale (p : BitVec 3) (q : Nat) (k : Queue) : (setQueue s p q k).stale = s.stale := rfl
@[simp] theorem setQueue_retired (p : BitVec 3) (q : Nat) (k : Queue) : (setQueue s p q k).retired = s.retired := rfl
@[simp] theorem setQueue_symbols (p : BitVec 3) (q : Nat) (k : Queue) : (setQueue s p q k).symbols = s.symbols := rfl
@[simp] theorem setQueue_skew (p : BitVec 3) (q : Nat) (k : Queue) : (setQueue s p q k).skew = s.skew := rfl
@[simp] theorem setQueue_unbond (p : BitVec 3) (q : Nat) (k : Queue) : (setQueue s p q k).unbond = s.unbond := rfl
@[simp] theorem setQueue_repairsUsed (p : BitVec 3) (q : Nat) (k : Queue) : (setQueue s p q k).repairsUsed = s.repairsUsed := rfl
@[simp] theorem setQueue_repair (p : BitVec 3) (q : Nat) (k : Queue) : (setQueue s p q k).repair = s.repair := rfl
@[simp] theorem setQueue_chanCounts (p : BitVec 3) (q : Nat) (k : Queue) : (setQueue s p q k).chanCounts = s.chanCounts := rfl
@[simp] theorem setQueue_nvsCounts (p : BitVec 3) (q : Nat) (k : Queue) : (setQueue s p q k).nvsCounts = s.nvsCounts := rfl
@[simp] theorem setQueue_passCe (p : BitVec 3) (q : Nat) (k : Queue) : (setQueue s p q k).passCe = s.passCe := rfl
@[simp] theorem setQueue_passBad (p : BitVec 3) (q : Nat) (k : Queue) : (setQueue s p q k).passBad = s.passBad := rfl
@[simp] theorem setQueue_trained (p : BitVec 3) (q : Nat) (k : Queue) : (setQueue s p q k).trained = s.trained := rfl
@[simp] theorem setQueue_trainTemp (p : BitVec 3) (q : Nat) (k : Queue) : (setQueue s p q k).trainTemp = s.trainTemp := rfl
@[simp] theorem setQueue_retraining (p : BitVec 3) (q : Nat) (k : Queue) : (setQueue s p q k).retraining = s.retraining := rfl
@[simp] theorem setQueue_dueNow (p : BitVec 3) (q : Nat) (k : Queue) : (setQueue s p q k).dueNow = s.dueNow := rfl
@[simp] theorem setQueue_rebuild (p : BitVec 3) (q : Nat) (k : Queue) : (setQueue s p q k).rebuild = s.rebuild := rfl
@[simp] theorem setQueue_scrubAt (p : BitVec 3) (q : Nat) (k : Queue) : (setQueue s p q k).scrubAt = s.scrubAt := rfl
@[simp] theorem setQueue_scrubPass (p : BitVec 3) (q : Nat) (k : Queue) : (setQueue s p q k).scrubPass = s.scrubPass := rfl
@[simp] theorem setQueue_lanes (p : BitVec 3) (q : Nat) (k : Queue) : (setQueue s p q k).lanes = s.lanes := rfl
@[simp] theorem setQueue_remotes (p : BitVec 3) (q : Nat) (k : Queue) : (setQueue s p q k).remotes = s.remotes := rfl
@[simp] theorem setQueue_l2 (p : BitVec 3) (q : Nat) (k : Queue) : (setQueue s p q k).l2 = s.l2 := rfl
@[simp] theorem setQueue_traffic (p : BitVec 3) (q : Nat) (k : Queue) : (setQueue s p q k).traffic = s.traffic := rfl
@[simp] theorem setQueue_offNs (p : BitVec 3) (q : Nat) (k : Queue) : (setQueue s p q k).offNs = s.offNs := rfl
@[simp] theorem setQueue_recovering (p : BitVec 3) (q : Nat) (k : Queue) : (setQueue s p q k).recovering = s.recovering := rfl
@[simp] theorem setQueue_out (p : BitVec 3) (q : Nat) (k : Queue) : (setQueue s p q k).out = s.out := rfl
@[simp] theorem setQueue_nextInterval (p : BitVec 3) (q : Nat) (k : Queue) : (setQueue s p q k).nextInterval = s.nextInterval := rfl
@[simp] theorem setQueue_nextWindow (p : BitVec 3) (q : Nat) (k : Queue) : (setQueue s p q k).nextWindow = s.nextWindow := rfl
@[simp] theorem setQueue_nextPoll (p : BitVec 3) (q : Nat) (k : Queue) : (setQueue s p q k).nextPoll = s.nextPoll := rfl
@[simp] theorem setQueue_nextWatchdog (p : BitVec 3) (q : Nat) (k : Queue) : (setQueue s p q k).nextWatchdog = s.nextWatchdog := rfl
@[simp] theorem setQueue_nextFlush (p : BitVec 3) (q : Nat) (k : Queue) : (setQueue s p q k).nextFlush = s.nextFlush := rfl
@[simp] theorem setQueue_scrubFrom (p : BitVec 3) (q : Nat) (k : Queue) : (setQueue s p q k).scrubFrom = s.scrubFrom := rfl
@[simp] theorem getCourse_setQueue (p : BitVec 3) (q : Nat) (k : Queue) (d e : Nat) : getCourse (setQueue s p q k) d e = getCourse s d e := rfl
@[simp] theorem getBlock_setQueue (p : BitVec 3) (q : Nat) (k : Queue) (d : Nat) : getBlock (setQueue s p q k) d = getBlock s d := rfl
@[simp] theorem getCore_setQueue (p : BitVec 3) (q : Nat) (k : Queue) (d : Nat) : getCore (setQueue s p q k) d = getCore s d := rfl
@[simp] theorem getCluster_setQueue (p : BitVec 3) (q : Nat) (k : Queue) (d : Nat) : getCluster (setQueue s p q k) d = getCluster s d := rfl
@[simp] theorem getPart_setQueue (p : BitVec 3) (q : Nat) (k : Queue) (d : BitVec 3) : getPart (setQueue s p q k) d = getPart s d := rfl
@[simp] theorem getCtx_setQueue (p : BitVec 3) (q : Nat) (k : Queue) (d : BitVec 16) : getCtx (setQueue s p q k) d = getCtx s d := rfl
@[simp] theorem getCmd_setQueue (p : BitVec 3) (q : Nat) (k : Queue) (d : Nat) : getCmd (setQueue s p q k) d = getCmd s d := rfl
@[simp] theorem getJob_setQueue (p : BitVec 3) (q : Nat) (k : Queue) (d : Nat) : getJob (setQueue s p q k) d = getJob s d := rfl
@[simp] theorem getCounter_setQueue (p : BitVec 3) (q : Nat) (k : Queue) (d : Nat) : getCounter (setQueue s p q k) d = getCounter s d := rfl

/-! ### `setCounter` -/

@[simp] theorem setCounter_now (i : Nat) (k : Counter) : (setCounter s i k).now = s.now := rfl
@[simp] theorem setCounter_frac (i : Nat) (k : Counter) : (setCounter s i k).frac = s.frac := rfl
@[simp] theorem setCounter_agenda (i : Nat) (k : Counter) : (setCounter s i k).agenda = s.agenda := rfl
@[simp] theorem setCounter_turn (i : Nat) (k : Counter) : (setCounter s i k).turn = s.turn := rfl
@[simp] theorem setCounter_fresh (i : Nat) (k : Counter) : (setCounter s i k).fresh = s.fresh := rfl
@[simp] theorem setCounter_nextId (i : Nat) (k : Counter) : (setCounter s i k).nextId = s.nextId := rfl
@[simp] theorem setCounter_issue (i : Nat) (k : Counter) : (setCounter s i k).issue = s.issue := rfl
@[simp] theorem setCounter_courses (i : Nat) (k : Counter) : (setCounter s i k).courses = s.courses := rfl
@[simp] theorem setCounter_blocks (i : Nat) (k : Counter) : (setCounter s i k).blocks = s.blocks := rfl
@[simp] theorem setCounter_commands (i : Nat) (k : Counter) : (setCounter s i k).commands = s.commands := rfl
@[simp] theorem setCounter_waitingBlocks (i : Nat) (k : Counter) : (setCounter s i k).waitingBlocks = s.waitingBlocks := rfl
@[simp] theorem setCounter_cores (i : Nat) (k : Counter) : (setCounter s i k).cores = s.cores := rfl
@[simp] theorem setCounter_clusters (i : Nat) (k : Counter) : (setCounter s i k).clusters = s.clusters := rfl
@[simp] theorem setCounter_rails (i : Nat) (k : Counter) : (setCounter s i k).rails = s.rails := rfl
@[simp] theorem setCounter_contexts (i : Nat) (k : Counter) : (setCounter s i k).contexts = s.contexts := rfl
@[simp] theorem setCounter_entries (i : Nat) (k : Counter) : (setCounter s i k).entries = s.entries := rfl
@[simp] theorem setCounter_queues (i : Nat) (k : Counter) : (setCounter s i k).queues = s.queues := rfl
@[simp] theorem setCounter_jobs (i : Nat) (k : Counter) : (setCounter s i k).jobs = s.jobs := rfl
@[simp] theorem setCounter_partitions (i : Nat) (k : Counter) : (setCounter s i k).partitions = s.partitions := rfl
@[simp] theorem setCounter_dev (i : Nat) (k : Counter) : (setCounter s i k).dev = s.dev := rfl
@[simp] theorem setCounter_devPoison (i : Nat) (k : Counter) : (setCounter s i k).devPoison = s.devPoison := rfl
@[simp] theorem setCounter_hostMem (i : Nat) (k : Counter) : (setCounter s i k).hostMem = s.hostMem := rfl
@[simp] theorem setCounter_hostPoison (i : Nat) (k : Counter) : (setCounter s i k).hostPoison = s.hostPoison := rfl
@[simp] theorem setCounter_hostHeld (i : Nat) (k : Counter) : (setCounter s i k).hostHeld = s.hostHeld := rfl
@[simp] theorem setCounter_powered (i : Nat) (k : Counter) : (setCounter s i k).powered = s.powered := rfl
@[simp] theorem setCounter_phase (i : Nat) (k : Counter) : (setCounter s i k).phase = s.phase := rfl
@[simp] theorem setCounter_powerGoodAt (i : Nat) (k : Counter) : (setCounter s i k).powerGoodAt = s.powerGoodAt := rfl
@[simp] theorem setCounter_temps (i : Nat) (k : Counter) : (setCounter s i k).temps = s.temps := rfl
@[simp] theorem setCounter_railmap (i : Nat) (k : Counter) : (setCounter s i k).railmap = s.railmap := rfl
@[simp] theorem setCounter_memctl (i : Nat) (k : Counter) : (setCounter s i k).memctl = s.memctl := rfl
@[simp] theorem setCounter_stretchCount (i : Nat) (k : Counter) : (setCounter s i k).stretchCount = s.stretchCount := rfl
@[simp] theorem setCounter_mbstat (i : Nat) (k : Counter) : (setCounter s i k).mbstat = s.mbstat := rfl
@[simp] theorem setCounter_mailbox (i : Nat) (k : Counter) : (setCounter s i k).mailbox = s.mailbox := rfl
@[simp] theorem setCounter_staged (i : Nat) (k : Counter) : (setCounter s i k).staged = s.staged := rfl
@[simp] theorem setCounter_imageSlots (i : Nat) (k : Counter) : (setCounter s i k).imageSlots = s.imageSlots := rfl
@[simp] theorem setCounter_runSlot (i : Nat) (k : Counter) : (setCounter s i k).runSlot = s.runSlot := rfl
@[simp] theorem setCounter_bootSlot (i : Nat) (k : Counter) : (setCounter s i k).bootSlot = s.bootSlot := rfl
@[simp] theorem setCounter_rollback (i : Nat) (k : Counter) : (setCounter s i k).rollback = s.rollback := rfl
@[simp] theorem setCounter_images (i : Nat) (k : Counter) : (setCounter s i k).images = s.images := rfl
@[simp] theorem setCounter_coldStarts (i : Nat) (k : Counter) : (setCounter s i k).coldStarts = s.coldStarts := rfl
@[simp] theorem setCounter_modules (i : Nat) (k : Counter) : (setCounter s i k).modules = s.modules := rfl
@[simp] theorem setCounter_bond (i : Nat) (k : Counter) : (setCounter s i k).bond = s.bond := rfl
@[simp] theorem setCounter_health (i : Nat) (k : Counter) : (setCounter s i k).health = s.health := rfl
@[simp] theorem setCounter_pcDead (i : Nat) (k : Counter) : (setCounter s i k).pcDead = s.pcDead := rfl
@[simp] theorem setCounter_bankDead (i : Nat) (k : Counter) : (setCounter s i k).bankDead = s.bankDead := rfl
@[simp] theorem setCounter_stale (i : Nat) (k : Counter) : (setCounter s i k).stale = s.stale := rfl
@[simp] theorem setCounter_retired (i : Nat) (k : Counter) : (setCounter s i k).retired = s.retired := rfl
@[simp] theorem setCounter_symbols (i : Nat) (k : Counter) : (setCounter s i k).symbols = s.symbols := rfl
@[simp] theorem setCounter_skew (i : Nat) (k : Counter) : (setCounter s i k).skew = s.skew := rfl
@[simp] theorem setCounter_unbond (i : Nat) (k : Counter) : (setCounter s i k).unbond = s.unbond := rfl
@[simp] theorem setCounter_repairsUsed (i : Nat) (k : Counter) : (setCounter s i k).repairsUsed = s.repairsUsed := rfl
@[simp] theorem setCounter_repair (i : Nat) (k : Counter) : (setCounter s i k).repair = s.repair := rfl
@[simp] theorem setCounter_chanCounts (i : Nat) (k : Counter) : (setCounter s i k).chanCounts = s.chanCounts := rfl
@[simp] theorem setCounter_nvsCounts (i : Nat) (k : Counter) : (setCounter s i k).nvsCounts = s.nvsCounts := rfl
@[simp] theorem setCounter_passCe (i : Nat) (k : Counter) : (setCounter s i k).passCe = s.passCe := rfl
@[simp] theorem setCounter_passBad (i : Nat) (k : Counter) : (setCounter s i k).passBad = s.passBad := rfl
@[simp] theorem setCounter_trained (i : Nat) (k : Counter) : (setCounter s i k).trained = s.trained := rfl
@[simp] theorem setCounter_trainTemp (i : Nat) (k : Counter) : (setCounter s i k).trainTemp = s.trainTemp := rfl
@[simp] theorem setCounter_retraining (i : Nat) (k : Counter) : (setCounter s i k).retraining = s.retraining := rfl
@[simp] theorem setCounter_dueNow (i : Nat) (k : Counter) : (setCounter s i k).dueNow = s.dueNow := rfl
@[simp] theorem setCounter_rebuild (i : Nat) (k : Counter) : (setCounter s i k).rebuild = s.rebuild := rfl
@[simp] theorem setCounter_scrubAt (i : Nat) (k : Counter) : (setCounter s i k).scrubAt = s.scrubAt := rfl
@[simp] theorem setCounter_scrubPass (i : Nat) (k : Counter) : (setCounter s i k).scrubPass = s.scrubPass := rfl
@[simp] theorem setCounter_lanes (i : Nat) (k : Counter) : (setCounter s i k).lanes = s.lanes := rfl
@[simp] theorem setCounter_remotes (i : Nat) (k : Counter) : (setCounter s i k).remotes = s.remotes := rfl
@[simp] theorem setCounter_l2 (i : Nat) (k : Counter) : (setCounter s i k).l2 = s.l2 := rfl
@[simp] theorem setCounter_traffic (i : Nat) (k : Counter) : (setCounter s i k).traffic = s.traffic := rfl
@[simp] theorem setCounter_offNs (i : Nat) (k : Counter) : (setCounter s i k).offNs = s.offNs := rfl
@[simp] theorem setCounter_recovering (i : Nat) (k : Counter) : (setCounter s i k).recovering = s.recovering := rfl
@[simp] theorem setCounter_out (i : Nat) (k : Counter) : (setCounter s i k).out = s.out := rfl
@[simp] theorem setCounter_nextInterval (i : Nat) (k : Counter) : (setCounter s i k).nextInterval = s.nextInterval := rfl
@[simp] theorem setCounter_nextWindow (i : Nat) (k : Counter) : (setCounter s i k).nextWindow = s.nextWindow := rfl
@[simp] theorem setCounter_nextPoll (i : Nat) (k : Counter) : (setCounter s i k).nextPoll = s.nextPoll := rfl
@[simp] theorem setCounter_nextWatchdog (i : Nat) (k : Counter) : (setCounter s i k).nextWatchdog = s.nextWatchdog := rfl
@[simp] theorem setCounter_nextFlush (i : Nat) (k : Counter) : (setCounter s i k).nextFlush = s.nextFlush := rfl
@[simp] theorem setCounter_scrubFrom (i : Nat) (k : Counter) : (setCounter s i k).scrubFrom = s.scrubFrom := rfl
@[simp] theorem getCourse_setCounter (i : Nat) (k : Counter) (d e : Nat) : getCourse (setCounter s i k) d e = getCourse s d e := rfl
@[simp] theorem getBlock_setCounter (i : Nat) (k : Counter) (d : Nat) : getBlock (setCounter s i k) d = getBlock s d := rfl
@[simp] theorem getCore_setCounter (i : Nat) (k : Counter) (d : Nat) : getCore (setCounter s i k) d = getCore s d := rfl
@[simp] theorem getCluster_setCounter (i : Nat) (k : Counter) (d : Nat) : getCluster (setCounter s i k) d = getCluster s d := rfl
@[simp] theorem getPart_setCounter (i : Nat) (k : Counter) (d : BitVec 3) : getPart (setCounter s i k) d = getPart s d := rfl
@[simp] theorem getCtx_setCounter (i : Nat) (k : Counter) (d : BitVec 16) : getCtx (setCounter s i k) d = getCtx s d := rfl
@[simp] theorem getCmd_setCounter (i : Nat) (k : Counter) (d : Nat) : getCmd (setCounter s i k) d = getCmd s d := rfl
@[simp] theorem getJob_setCounter (i : Nat) (k : Counter) (d : Nat) : getJob (setCounter s i k) d = getJob s d := rfl
@[simp] theorem getQueue_setCounter (i : Nat) (k : Counter) (d : BitVec 3) (e : Nat) : getQueue (setCounter s i k) d e = getQueue s d e := rfl

/-! ### Reads after writes of one table -/

@[simp] theorem getCourse_setCourse_self (b c : Nat) (k : Course) : getCourse (setCourse s b c k) b c = some k :=
  find?_put_self ..

theorem getCourse_setCourse_ne {b c d e : Nat} (k : Course) (h : courseKey d e ≠ courseKey b c) :
    getCourse (setCourse s b c k) d e = getCourse s d e := find?_put_ne _ _ h

@[simp] theorem getBlock_setBlock_self (b : Nat) (k : Block) : getBlock (setBlock s b k) b = some k := find?_put_self ..

theorem getBlock_setBlock_ne {b d : Nat} (k : Block) (h : d ≠ b) : getBlock (setBlock s b k) d = getBlock s d :=
  find?_put_ne _ _ h

@[simp] theorem getCore_setCore_self (m : Nat) (k : Core) : getCore (setCore s m k) m = k := by
  simp [getCore, setCore]

theorem getCore_setCore_ne {m d : Nat} (k : Core) (h : d ≠ m) : getCore (setCore s m k) d = getCore s d := by
  simp [getCore, setCore, find?_put_ne _ _ h]

@[simp] theorem getCluster_setCluster_self (i : Nat) (k : Cluster) : getCluster (setCluster s i k) i = k := by
  simp [getCluster, setCluster]

theorem getCluster_setCluster_ne {i d : Nat} (k : Cluster) (h : d ≠ i) : getCluster (setCluster s i k) d = getCluster s d := by
  simp [getCluster, setCluster, find?_put_ne _ _ h]

@[simp] theorem getPart_setPart_self (p : BitVec 3) (k : Partition) : getPart (setPart s p k) p = k := by
  simp [getPart, setPart]

theorem getPart_setPart_ne {p d : BitVec 3} (k : Partition) (h : d ≠ p) : getPart (setPart s p k) d = getPart s d := by
  have : d.toNat ≠ p.toNat := fun e => h (BitVec.eq_of_toNat_eq e)
  simp [getPart, setPart, find?_put_ne _ _ this]

@[simp] theorem getCtx_setCtx_self (a : BitVec 16) (k : Context) : getCtx (setCtx s a k) a = some k := find?_put_self ..

theorem getCtx_setCtx_ne {a d : BitVec 16} (k : Context) (h : d ≠ a) : getCtx (setCtx s a k) d = getCtx s d :=
  find?_put_ne _ _ (fun e => h (BitVec.eq_of_toNat_eq e))

@[simp] theorem getCmd_setCmd_self (i : Nat) (k : Command) : getCmd (setCmd s i k) i = some k := find?_put_self ..

@[simp] theorem getJob_setJob_self (i : Nat) (k : Job) : getJob (setJob s i k) i = some k := find?_put_self ..

@[simp] theorem getQueue_setQueue_self (p : BitVec 3) (q : Nat) (k : Queue) : getQueue (setQueue s p q k) p q = some k :=
  find?_put_self ..

@[simp] theorem getCounter_setCounter_self (i : Nat) (k : Counter) : getCounter (setCounter s i k) i = k := by
  simp [getCounter, setCounter]

end Sys2Proof.Machine
end

