-- ==== Sys2Proof/Laws/Issue.lean ====
section
/-!
SUPPORT. Laws of the issue of one instruction: what `runInstr` answers, what `retire` leaves, and what writes of results
are seen as.
-/

namespace Sys2Proof.Machine

/-! ### Tables written twice -/

theorem put_put {α : Type} (m : Assoc α) (k : Nat) (a b : α) : put (put m k a) k b = put m k b := by
  induction m with
  | nil => simp [put]
  | cons e t ih =>
    obtain ⟨x, w⟩ := e
    by_cases h1 : x = k
    · subst h1; simp [put]
    · by_cases h2 : k < x
      · simp [put, h1, h2]
      · simp [put, h1, h2, ih]

@[simp] theorem setCourse_setCourse (s : State) (b c : Nat) (j k : Course) :
    setCourse (setCourse s b c j) b c k = setCourse s b c k := by
  simp [setCourse, put_put]

theorem updCourse_of_get {s : State} {b c : Nat} {k : Course} (h : getCourse s b c = some k) (f : Course → Course) :
    updCourse s b c f = setCourse s b c (f k) := by
  simp [updCourse, h]

theorem updPath_of_get {s : State} {b c : Nat} {k : Course} (h : getCourse s b c = some k) (slot : Nat) (f : Path → Path) :
    updPath s b c slot f = setCourse s b c (setPath k slot ((getPath k slot).map f)) := by
  simp [updPath, updCourse_of_get h]

/-! ### Paths of a course -/

@[simp] theorem getPath_setPath_self (k : Course) (slot : Nat) (p : Option Path) : getPath (setPath k slot p) slot = p := by
  unfold getPath setPath; split <;> simp_all

@[simp] theorem setPath_setPath (k : Course) (slot : Nat) (p q : Option Path) :
    setPath (setPath k slot p) slot q = setPath k slot q := by
  unfold setPath; split <;> rfl

theorem getPath_setPath_other (k : Course) {slot : Nat} (p : Option Path) (h : slot = 0 ∨ slot = 1) :
    getPath (setPath k slot p) (1 - slot) = getPath k (1 - slot) := by
  rcases h with rfl | rfl <;> rfl

/-! ### Running an instruction -/

/-- An instruction that does not complete its path's long writes has only its own lane checks. -/
theorem laneStop_own {v : View} {i : Instr} (s : State) (h : settlesPath v i = false) : laneStop s v i = ownStop s v i := by
  unfold laneStop sliceStop
  rw [h]
  cases ownStop s v i <;> rfl

/-- The fault of an instruction that is no member of a mixed team and has met no poison on a walk. -/
theorem faultInstr_plain {s : State} {v : View} {i : Instr} {f : FaultInfo} (h : f.cause ≠ 0x0E) (h8 : f.cause ≠ 0x08) :
    faultInstr s v i f = faultUnit s v.u i f := by
  simp [faultInstr, teamMixed, h, h8]

/-- What running an instruction answers: its fault, its wait, or its effect. -/
theorem runInstr_cases {s : State} {v : View} (i : Instr) (e : View → State) (h : viewOf s = some v) :
    runInstr i s e = match (if lone v.u then stopOf s v i else none) with
      | some (.fault f) => .next (faultInstr s v i f)
      | some (.hold p) => .next (holdUnit s v i p)
      | none => .next (e v) := by
  unfold runInstr
  rw [h]
  all_goals rfl

/-- With nothing to stop it an instruction has its effect. -/
theorem runInstr_effect {s : State} {v : View} {i : Instr} (e : View → State) (h : viewOf s = some v)
    (hs : lone v.u = true → stopOf s v i = none) : runInstr i s e = .next (e v) := by
  rw [runInstr_cases i e h]
  cases hl : lone v.u
  · simp
  · simp [hs hl]

/-- Where a path issues, running an instruction always answers a next state. -/
theorem runInstr_next {s : State} {v : View} (i : Instr) (e : View → State) (h : viewOf s = some v) :
    ∃ t, runInstr i s e = .next t := by
  rw [runInstr_cases i e h]
  split <;> exact ⟨_, rfl⟩

/-- What a member leaves when it retires. -/
theorem retire_eq {s : State} {v : View} {k' : Course} (i : Instr) (fl : FpFlags)
    (hk : getCourse s v.u.blk v.u.course = some k') (hd : v.u.demotes = false) :
    retire s v.u i fl
      = if v.u.last then { setCourse s v.u.blk v.u.course (unitCourse (gathered v.u i fl) true k') with issue := none }
        else { s with issue := some (gathered v.u i fl) } := by
  unfold retire endUnit gathered
  simp only [hd]
  by_cases hl : v.u.last = true
  · simp [hl, updCourse_of_get hk]
  · simp [hl]

/-- A member that changes its course and retires. -/
theorem retire_setCourse {s : State} {v : View} (i : Instr) (fl : FpFlags) (k' : Course) (hd : v.u.demotes = false) :
    retire (setCourse s v.u.blk v.u.course k') v.u i fl = unitLeaves s v i fl k' := by
  rw [retire_eq i fl (getCourse_setCourse_self ..) hd]
  unfold unitLeaves
  split <;> simp

/-- Writing back what a table holds changes nothing. -/
theorem put_find? {α : Type} {m : Assoc α} {k : Nat} {a : α} (h : find? m k = some a) (hr : rising m = true) : put m k a = m := by
  have key : ∀ lo (m : Assoc α), keysAbove lo m = true → find? m k = some a → put m k a = m := by
    intro lo m
    induction m generalizing lo with
    | nil => intro _ h; simp [find?] at h
    | cons e t ih =>
      obtain ⟨x, w⟩ := e
      intro hr h
      simp only [keysAbove, Bool.and_eq_true, decide_eq_true_eq] at hr
      simp only [find?] at h
      split at h
      · simp only [Option.some.injEq] at h; subst_vars; simp [put]
      · rename_i hx
        have hlt : ¬ k < x := by
          intro hlt
          have : ∀ lo (t : Assoc α), keysAbove lo t = true → k ≤ lo → find? t k = none := by
            intro lo t
            induction t generalizing lo with
            | nil => intros; rfl
            | cons f t ih =>
              obtain ⟨y, z⟩ := f
              intro hy hk
              simp only [keysAbove, Bool.and_eq_true, decide_eq_true_eq] at hy
              have : y ≠ k := by omega
              simp [find?, this, ih _ hy.2 (by omega)]
          rw [this x t hr.2 (by omega)] at h
          exact absurd h (by simp)
        simp [put, hx, hlt, ih x hr.2 h]
  cases m with
  | nil => simp [find?] at h
  | cons e t =>
    obtain ⟨x, w⟩ := e
    by_cases hx : x = 0
    · subst hx
      by_cases hk : k = 0
      · subst hk; simp [find?] at h; subst h; simp [put]
      · have hk' : ¬ (0 = k) := fun e => hk e.symm
        simp only [find?, hk', if_false] at h
        simp only [rising] at hr
        simp [put, hk', key 0 t hr h]
    · exact key 0 ((x, w) :: t) (by simp only [rising] at hr; simp [keysAbove, hr]; omega) h

/-! ### Results -/

theorem readReg_writeV (k : Course) (n : Fin 96) (m : Lanes) (f : Nat → Word) (r : RegName) (l : Nat) (hl : l < 32) :
    readReg (writeV k n.val m ((List.range 32).map f)) r l = if r = .v n ∧ m.getLsbD l = true then f l else readReg k r l := by
  cases r with
  | v j =>
    simp only [readReg, readV_writeV _ _ _ _ _ _ hl, RegName.v.injEq, Fin.ext_iff]
    have : ((List.range 32).map f).getD l 0#32 = f l := by simp [hl]
    rw [this]
  | s j => simp [readReg]
  | sz => simp [readReg]

theorem readReg_writeS (k : Course) (n : Fin 31) (w : Word) (r : RegName) (l : Nat) :
    readReg (writeS k n.val w) r l = if r = .s n then w else readReg k r l := by
  cases r with
  | v j => simp [readReg]
  | s j => simp only [readReg, readS_writeS, RegName.s.injEq, Fin.ext_iff]
  | sz => simp [readReg]

theorem readReg_writeP (k : Course) (p : Nat) (m v : Lanes) (r : RegName) (l : Nat) :
    readReg (writeP k p m v) r l = readReg k r l := by
  cases r <;> simp [readReg]

theorem lowestLane_eq_none {m : Lanes} : lowestLane m = none ↔ m = 0 := by
  unfold lowestLane
  rw [List.head?_eq_none_iff, lanesOf_eq_nil]

theorem Written.refl (k : Course) (m : Lanes) : Written k k m [] := ⟨rfl, fun _ => rfl, fun _ _ _ => rfl⟩

theorem Written.live {k k' : Course} {m : Lanes} {ds : List (RegName × (Nat → Word))} (h : Written k k' m ds) :
    k'.live = k.live := h.1.live

/-- Two runs of writes for the same lanes, one after the other. -/
theorem Written.append {a b c : Course} {m : Lanes} {d e : List (RegName × (Nat → Word))} (h : Written a b m d)
    (g : Written b c m e) : Written a c m (d ++ e) := by
  refine ⟨h.1.trans g.1, fun p => (g.2.1 p).trans (h.2.1 p), fun r l hl => ?_⟩
  rw [g.2.2 r l hl]
  unfold readAfter
  rw [List.foldl_append, h.2.2 r l hl]
  unfold readAfter resultLane
  rw [h.live]

/-- The write of one destination (R55, R56, R59). -/
theorem written_destWrite (k : Course) (d : RegName) (m : Lanes) (f : Nat → Word) :
    Written k (applyWrites k (destWrite d m f)) m [(d, f)] := by
  refine ⟨onlyRegs_applyWrites _ _, fun p => ?_, fun r l hl => ?_⟩
  · cases d with
    | v n => simp [destWrite, applyWrite]
    | s n => by_cases hm : m = 0#32 <;> simp [destWrite, applyWrite, hm]
    | sz => simp [destWrite]
  · cases d with
    | v n =>
      simp only [destWrite, applyWrites_cons, applyWrite, applyWrites_nil]
      rw [readReg_writeV _ _ _ _ _ _ hl]
      simp only [readAfter, List.foldl_cons, List.foldl_nil, resultLane]
      by_cases hr : r = .v n
      · subst hr
        by_cases hb : (m &&& k.live).getLsbD l = true
        · simp [hasLane, hb]
        · simp only [hasLane, hb]; simp
      · simp [hr, Ne.symm hr]
    | s n =>
      simp only [readAfter, List.foldl_cons, List.foldl_nil, resultLane, destWrite]
      by_cases hm : m = 0
      · subst hm
        by_cases hr : r = .s n
        · subst hr; simp [lowestLane_eq_none.mpr]
        · simp [Ne.symm hr]
      · have hm' : ¬ m = 0#32 := hm
        obtain ⟨x, hx⟩ : ∃ x, lowestLane m = some x := by
          cases h : lowestLane m with
          | none => exact absurd (lowestLane_eq_none.mp h) hm
          | some x => exact ⟨x, rfl⟩
        rw [if_neg hm, applyWrites_cons, applyWrites_nil]
        simp only [applyWrite]
        rw [readReg_writeS]
        by_cases hr : r = .s n
        · subst hr; simp [hx]
        · simp [hr, Ne.symm hr]
    | sz =>
      simp only [destWrite, applyWrites_nil, readAfter, List.foldl_cons, List.foldl_nil, resultLane]
      by_cases hr : r = .sz
      · subst hr; simp
      · simp [Ne.symm hr]

/-- A result of one register (R59, R90). -/
theorem written_perLane (k : Course) (v : View) (d : RegName) (f : Nat → Word) :
    Written k (applyWrites k (perLane v d f)) (v.dest d) [(d, f)] := written_destWrite k d (v.dest d) f

/-- A result of a pair (R57, R104). -/
theorem written_pairLane (k : Course) (v : View) (d : RegName) (f : Nat → Double) :
    Written k (applyWrites k (pairLane v d f)) (v.dest d)
      [(d, fun l => lowWord (f l)), (regPlus d 1, fun l => highWord (f l))] := by
  rw [pairLane, applyWrites_append]
  exact (written_destWrite k d (v.dest d) _).append (written_destWrite _ (regPlus d 1) (v.dest d) _)

theorem getLsbD_merge (x m v : Lanes) (l : Nat) :
    ((x &&& ~~~m) ||| (v &&& m)).getLsbD l = if m.getLsbD l = true then v.getLsbD l else x.getLsbD l := by
  by_cases hl : l < 32
  · by_cases hb : m.getLsbD l = true <;> simp only [BitVec.getLsbD_or, BitVec.getLsbD_and, BitVec.getLsbD_not, hl, hb] <;> simp
  · have hl' := Nat.le_of_not_lt hl
    simp [BitVec.getLsbD_of_ge _ _ hl']

/-- A result in a predicate (R58, R59). -/
theorem predWritten_predLane (k : Course) (v : View) (p : PredName) (f : Nat → Bool) :
    PredWritten k (applyWrites k (predLane v p f)) v.exe p f := by
  unfold predLane
  by_cases hm : v.exe = 0
  · rw [if_pos hm]
    refine ⟨rfl, fun _ _ _ => rfl, fun q l => ?_⟩
    rw [hm]
    simp [hasLane]
  · rw [if_neg hm, applyWrites_cons, applyWrites_nil]
    simp only [applyWrite]
    refine ⟨onlyRegs_writeP .., fun r l _ => readReg_writeP .., fun q l => ?_⟩
    rw [readPred_writeP]
    by_cases hq : q = p ∧ p ≠ 0
    · rw [if_pos hq]
      unfold hasLane
      rw [getLsbD_merge, getLsbD_maskOf]
      by_cases hb : (v.exe &&& k.live).getLsbD l = true
      · have hl : l < 32 := by
          by_contra hl
          simp [BitVec.getLsbD_of_ge _ _ (Nat.le_of_not_lt hl)] at hb
        rw [if_pos hb, if_pos ⟨hq.1, hq.2, hb⟩]
        simp [hl]
      · rw [if_neg hb, if_neg (fun h => hb h.2.2)]
    · rw [if_neg hq, if_neg (fun h => hq ⟨h.1, h.2.1⟩)]

/-- A short instruction that nothing stops: its results stand in its course (R84). -/
theorem runShort_eq {s : State} {v : View} {k : Course} {i : Instr} (f : View → List RegWrite × FpFlags) (h : Issuing s v k)
    (hs : lone v.u = true → stopOf s v i = none) :
    runShort i s f = .next (unitLeaves s v i (f v).2 (applyWrites k (f v).1)) := by
  unfold runShort
  rw [runInstr_effect _ h.view hs]
  simp only [writeShort, updCourse_of_get h.course]
  rw [retire_setCourse _ _ _ h.stays]

/-! ### Long results -/

/-- Register writes that reach no lane change nothing; a predicate's are never among them. -/
theorem applyWrites_filter (k : Course) (l : List RegWrite)
    (hp : ∀ w ∈ l, (∃ p m x, w = .prd p m x) → writesLane w = true) :
    applyWrites k (l.filter writesLane) = applyWrites k l := by
  induction l generalizing k with
  | nil => rfl
  | cons w t ih =>
    rw [List.filter_cons]
    split
    · simp [ih _ (fun w hw => hp w (List.mem_cons_of_mem _ hw))]
    · rename_i h
      rw [ih _ (fun w hw => hp w (List.mem_cons_of_mem _ hw)), applyWrites_cons]
      congr 1
      cases w with
      | vec r m x =>
        simp only [writesLane, ne_eq, decide_not, Bool.not_eq_eq_eq_not, Bool.not_true, decide_eq_false_iff_not, not_not] at h
        simp [applyWrite, writeV, h]
      | scl r x => exact absurd rfl h
      | prd p m x => exact absurd (hp _ List.mem_cons_self ⟨p, m, x, rfl⟩) h

theorem prd_destWrite (d : RegName) (m : Lanes) (f : Nat → Word) :
    ∀ w ∈ destWrite d m f, (∃ p m x, w = .prd p m x) → writesLane w = true := by
  rintro w hw ⟨p, q, x, rfl⟩
  cases d <;> simp [destWrite] at hw

theorem prd_predLane (v : View) (p : PredName) (f : Nat → Bool) :
    ∀ w ∈ predLane v p f, (∃ p m x, w = .prd p m x) → writesLane w = true := by
  rintro w hw ⟨p, q, x, rfl⟩
  unfold predLane at hw
  split at hw
  · simp at hw
  · simp at hw; obtain ⟨rfl, rfl, rfl⟩ := hw
    simp only [writesLane, decide_eq_true_eq]; assumption

/-- A long instruction that nothing stops: a long write of its results is pending in its path (R84). -/
theorem runLong_eq {s : State} {v : View} {k : Course} {i : Instr} (f : View → List RegWrite × FpFlags) (h : Issuing s v k)
    (hs : lone v.u = true → stopOf s v i = none) :
    ∃ w k', PureLong w ∧ w.id = s.nextId ∧ LongBegun k k' v.u.slot w ∧ w.writes = (f v).1.filter writesLane ∧
      runLong i s f = .next (unitLeaves (idTaken s) v i (f v).2 k') := by
  refine ⟨{ id := s.nextId, writes := (f v).1.filter writesLane, holds := [], kill := 0, killAll := false, tag := 0,
            va := 0, load := false, memory := false }, _, ⟨rfl, rfl, rfl⟩, rfl, rfl, rfl, ?_⟩
  unfold runLong
  rw [runInstr_effect _ h.view hs]
  have hk : getCourse (idTaken s) v.u.blk v.u.course = some k := h.course
  exact congrArg Host.Outcome.next ((congrArg (retire · v.u i (f v).2) (updCourse_of_get hk _)).trans
    (retire_setCourse _ _ _ h.stays))

/-! ### What stops an instruction of the plain classes -/

/-- Instructions that make no check of their own (R92): the classes that only compute, and the transforms. -/
def plainChecks (i : Instr) : Bool :=
  match pipeClass i with
  | .none | .int | .fp | .funPipe | .cvt | .xl => true
  | _ => match i with
    | .xfmCrc32c .. | .xfmHash .. | .xfmSort .. => true
    | _ => false

/-- HAZARD alone stops an instruction of these classes (R86). -/
theorem plain_stop {s : State} {v : View} {i : Instr} (hi : plainChecks i = true) (hz : NoHazard v i) :
    lone v.u = true → stopOf s v i = none := by
  intro hl
  have hn := hz hl
  have hu : uniformStop s v i = none := by
    unfold uniformStop
    by_cases hw : v.p.waited.contains v.u.pos = true
    · exact if_pos hw
    · cases i <;> first
        | exact Bool.noConfusion hi
        | (simp only [hw, hn]; rfl)
  have hv : laneStop s v i = none := by
    cases i <;> first
        | exact Bool.noConfusion hi
        | rfl
  simp only [stopOf, hu, hv]

end Sys2Proof.Machine
end

