-- ==== Sys2Proof/Laws/Frames.lean ====
section
/-!
SUPPORT. What the operations over memory leave alone: each of them changes memory and its bookkeeping only.
-/

namespace Sys2Proof.Machine

theorem OnlyMemory.refl (s : State) : OnlyMemory s s := rfl

/-- A change of these fields alone. -/
theorem OnlyMemory.set {s : State} {cores entries dev devPoison hostMem hostPoison hostHeld stale retired symbols skew repair
    chanCounts passCe passBad l2 traffic remotes nextId out} : OnlyMemory s { s with
      cores := cores, entries := entries, dev := dev, devPoison := devPoison, hostMem := hostMem, hostPoison := hostPoison,
      hostHeld := hostHeld, stale := stale, retired := retired, symbols := symbols, skew := skew, repair := repair,
      chanCounts := chanCounts, passCe := passCe, passBad := passBad, l2 := l2, traffic := traffic, remotes := remotes,
      nextId := nextId, out := out } := rfl

theorem OnlyMemory.trans {a b c : State} (h : OnlyMemory a b) (g : OnlyMemory b c) : OnlyMemory a c := by
  unfold OnlyMemory at *
  rw [g, h]

theorem OnlyMemory.foldl {α : Type} {f : State → α → State} (hf : ∀ s x, OnlyMemory s (f s x)) (l : List α) (s : State) :
    OnlyMemory s (l.foldl f s) := by
  induction l generalizing s with
  | nil => rfl
  | cons a t ih => exact (hf s a).trans (ih _)

/-- Either of two machines is reached by memory operations where both are. -/
theorem OnlyMemory.ite {c : Prop} [Decidable c] {s a b : State} (ha : OnlyMemory s a) (hb : OnlyMemory s b) :
    OnlyMemory s (if c then a else b) := by
  split
  · exact ha
  · exact hb

theorem OnlyMemory.courses {s t : State} (h : OnlyMemory s t) : t.courses = s.courses := by rw [h]
theorem OnlyMemory.blocks {s t : State} (h : OnlyMemory s t) : t.blocks = s.blocks := by rw [h]
theorem OnlyMemory.contexts {s t : State} (h : OnlyMemory s t) : t.contexts = s.contexts := by rw [h]
theorem OnlyMemory.jobs {s t : State} (h : OnlyMemory s t) : t.jobs = s.jobs := by rw [h]
theorem OnlyMemory.issue {s t : State} (h : OnlyMemory s t) : t.issue = s.issue := by rw [h]
theorem OnlyMemory.partitions {s t : State} (h : OnlyMemory s t) : t.partitions = s.partitions := by rw [h]
theorem OnlyMemory.commands {s t : State} (h : OnlyMemory s t) : t.commands = s.commands := by rw [h]
theorem OnlyMemory.now {s t : State} (h : OnlyMemory s t) : t.now = s.now := by rw [h]

theorem OnlyMemory.getCourse {s t : State} (h : OnlyMemory s t) (b c : Nat) : getCourse t b c = getCourse s b c := by
  simp [Machine.getCourse, h.courses]

theorem OnlyMemory.getBlock {s t : State} (h : OnlyMemory s t) (b : Nat) : getBlock t b = getBlock s b := by
  simp [Machine.getBlock, h.blocks]

theorem OnlyMemory.getCtx {s t : State} (h : OnlyMemory s t) (a : BitVec 16) : getCtx t a = getCtx s a := by
  simp [Machine.getCtx, h.contexts]

theorem OnlyMemory.blockCtx {s t : State} (h : OnlyMemory s t) (b : Nat) : blockCtx t b = blockCtx s b := by
  simp [Machine.blockCtx, h.getBlock, h.getCtx]

theorem OnlyMemory.blockCode {s t : State} (h : OnlyMemory s t) (b : Nat) : blockCode t b = blockCode s b := by
  simp [Machine.blockCode, blockJob, h.getBlock, getJob, h.jobs]

theorem OnlyMemory.blockCore {s t : State} (h : OnlyMemory s t) (b : Nat) : blockCore t b = blockCore s b := by
  simp [Machine.blockCore, h.getBlock]

/-! ### Channels, spans and slices -/

/-- `t` is `s` but for the bytes and marks of device memory, what is known of its channels, and the lines and counters of the
slices. -/
def HomeOnly (s t : State) : Prop :=
  t = { s with dev := t.dev, devPoison := t.devPoison, stale := t.stale, retired := t.retired, symbols := t.symbols,
               skew := t.skew, repair := t.repair, chanCounts := t.chanCounts, passCe := t.passCe, passBad := t.passBad,
               l2 := t.l2, traffic := t.traffic }

theorem HomeOnly.refl (s : State) : HomeOnly s s := rfl

theorem HomeOnly.set {s : State} {dev devPoison stale retired symbols skew repair chanCounts passCe passBad l2 traffic} :
    HomeOnly s { s with
      dev := dev, devPoison := devPoison, stale := stale, retired := retired, symbols := symbols, skew := skew,
      repair := repair, chanCounts := chanCounts, passCe := passCe, passBad := passBad, l2 := l2, traffic := traffic } := rfl

theorem HomeOnly.trans {a b c : State} (h : HomeOnly a b) (g : HomeOnly b c) : HomeOnly a c := by
  unfold HomeOnly at *
  rw [g, h]

theorem HomeOnly.foldl {α : Type} {f : State → α → State} (hf : ∀ s x, HomeOnly s (f s x)) (l : List α) (s : State) :
    HomeOnly s (l.foldl f s) := by
  induction l generalizing s with
  | nil => rfl
  | cons a t ih => exact (hf s a).trans (ih _)

theorem HomeOnly.ite {c : Prop} [Decidable c] {s a b : State} (ha : HomeOnly s a) (hb : HomeOnly s b) :
    HomeOnly s (if c then a else b) := by
  split
  · exact ha
  · exact hb

theorem HomeOnly.onlyMemory {s t : State} (h : HomeOnly s t) : OnlyMemory s t := by
  unfold OnlyMemory
  rw [h]

theorem HomeOnly.cores {s t : State} (h : HomeOnly s t) : t.cores = s.cores := by rw [h]

theorem countChan_homeOnly (s : State) (c : Nat) (f : ChanCount → ChanCount) : HomeOnly s (countChan s c f) := .set

theorem appendRepair_homeOnly (s : State) (c slot reason pc : Nat) : HomeOnly s (appendRepair s c slot reason pc) :=
  .ite .set (countChan_homeOnly ..)

theorem retireSlot_homeOnly (s : State) (c slot reason : Nat) (pcs : List Nat) :
    HomeOnly s (retireSlot s c slot reason pcs) := by
  unfold retireSlot
  refine .ite (.refl s) ?_
  exact (HomeOnly.trans .set (countChan_homeOnly ..)).trans
    (.foldl (fun s pc => appendRepair_homeOnly s c slot reason pc) pcs _)

theorem countCe_homeOnly (s : State) (c slot q n : Nat) : HomeOnly s (countCe s c slot q n) := by
  unfold countCe
  dsimp only
  have h := countChan_homeOnly s c (fun k => { k with
    ce := k.ce + n
    bins := cset 0 k.bins (tempBin (chanTemp s c)) (cget 0 k.bins (tempBin (chanTemp s c)) + n)
    slots := cset 0 k.slots slot (cget 0 k.slots slot + n) })
  generalize countChan s c _ = x at h ⊢
  exact .ite ((h.trans .set).trans (retireSlot_homeOnly ..)) (h.trans .set)

theorem countBad_homeOnly (s : State) (c slot q : Nat) : HomeOnly s (countBad s c slot q) := by
  unfold countBad
  dsimp only
  have h := countChan_homeOnly s c (fun k => { k with uncorrectable := k.uncorrectable + 1 })
  generalize countChan s c _ = x at h ⊢
  have h2 : ∀ (y : State), HomeOnly s y → HomeOnly s (if (List.filter (fun pc => decide (firstBad y c slot pc ≠ 0)) [0, 1]).any
      (fun pc => decide (firstBad y c slot pc ≠ y.scrubPass + 1)) = true
      then retireSlot y c slot 1 (List.filter (fun pc => decide (firstBad y c slot pc ≠ 0)) [0, 1]) else y) :=
    fun y hy => .ite (hy.trans (retireSlot_homeOnly ..)) hy
  exact h2 _ (.ite (h.trans .set) h)

theorem poisonSector_homeOnly (s : State) (pa : Nat) : HomeOnly s (poisonSector s pa) := .set

theorem mendSector_homeOnly (s : State) (c slot q : Nat) : HomeOnly s (mendSector s c slot q) := .set

theorem setSkew_homeOnly (s : State) (u p q : Nat) (l : List Byte) : HomeOnly s (setSkew s u p q l) := .set

theorem flipSector_homeOnly (s : State) (u d q : Nat) (e : List Byte) : HomeOnly s (flipSector s u d q e) := .set

theorem writeChecks_homeOnly (s : State) (u q : Nat) : HomeOnly s (writeChecks s u q) :=
  .foldl (fun _ _ => .ite (.refl _) (mendSector_homeOnly ..)) _ s

theorem encodeSpan_homeOnly (s : State) (u q : Nat) : HomeOnly s (encodeSpan s u q) :=
  (HomeOnly.foldl (fun _ _ => setSkew_homeOnly ..) _ s).trans (writeChecks_homeOnly ..)

theorem poisonSpan_homeOnly (s : State) (u q : Nat) (all : Bool) : HomeOnly s (poisonSpan s u q all) := by
  unfold poisonSpan
  refine HomeOnly.trans (HomeOnly.trans (HomeOnly.foldl (fun t d => ?_) _ s) (encodeSpan_homeOnly ..))
    (countChan_homeOnly ..)
  have h := poisonSector_homeOnly t (spanAddr u d q)
  dsimp only
  generalize poisonSector t (spanAddr u d q) = x at h ⊢
  exact .ite h (h.trans (mendSector_homeOnly ..))

theorem slipMember_homeOnly (s : State) (u p q : Nat) (e : List Byte) : HomeOnly s (slipMember s u p q e) := by
  unfold slipMember
  exact .ite ((setSkew_homeOnly ..).trans (flipSector_homeOnly ..)) (setSkew_homeOnly ..)

theorem decodeMember_homeOnly (s : State) (u d q : Nat) : HomeOnly s (decodeMember s u d q) :=
  .ite (.refl s) (slipMember_homeOnly ..)

theorem readSectorCode_homeOnly (s : State) (u p q : Nat) : HomeOnly s (readSectorCode s u p q) := by
  unfold readSectorCode
  dsimp only
  split
  · exact .refl s
  · split
    · rename_i fix rest _ _
      have h : HomeOnly s (if fix.all (· == 0) then s else countCe s (memberChannel s u (posMember u p)) (unitSlot u) q 1) :=
        .ite (.refl s) (countCe_homeOnly ..)
      generalize (if fix.all (· == 0) then s else countCe s (memberChannel s u (posMember u p)) (unitSlot u) q 1) = x at h ⊢
      exact .ite h (h.trans (HomeOnly.trans .set (slipMember_homeOnly ..)))
    · exact .refl s

theorem readMember_homeOnly (s : State) (u p q : Nat) : HomeOnly s (readMember s u p q) := by
  unfold readMember
  dsimp only
  split
  · exact readSectorCode_homeOnly ..
  · have h : HomeOnly s (if (memberBad s u (posMember u p) q && !memberShut s u (posMember u p) q) = true then
        countBad s (memberChannel s u (posMember u p)) (unitSlot u) q else s) :=
      .ite (countBad_homeOnly ..) (.refl s)
    generalize (if (memberBad s u (posMember u p) q && !memberShut s u (posMember u p) q) = true then
        countBad s (memberChannel s u (posMember u p)) (unitSlot u) q else s) = x at h ⊢
    have g : HomeOnly s (if p < 16 then decodeMember x u p q else x) :=
      HomeOnly.ite (h.trans (decodeMember_homeOnly ..)) h
    exact HomeOnly.ite (h.trans (poisonSpan_homeOnly ..)) (HomeOnly.ite (g.trans (mendSector_homeOnly ..)) g)

theorem readTouch_homeOnly (s : State) (pa : Nat) : HomeOnly s (readTouch s pa) :=
  .ite (.refl s) (readMember_homeOnly ..)

theorem oldTouch_homeOnly (s : State) (pa : Nat) : HomeOnly s (oldTouch s pa) :=
  .ite (.refl s) (.ite (readSectorCode_homeOnly ..) (.ite (poisonSpan_homeOnly ..) (decodeMember_homeOnly ..)))

theorem writeTarget_homeOnly (s : State) (u i q : Nat) : HomeOnly s (writeTarget s u i q) := by
  unfold writeTarget
  split
  · exact .ite (mendSector_homeOnly ..) (.refl s)
  · exact .refl s

theorem writeTouch_homeOnly (s : State) (pa : Nat) : HomeOnly s (writeTouch s pa) := by
  unfold writeTouch
  refine .ite (.refl s) (HomeOnly.trans (HomeOnly.trans (.ite (mendSector_homeOnly ..) (.ite .set (.refl s)))
    (writeChecks_homeOnly ..)) (writeTarget_homeOnly ..))

/-! ### The slices -/

/-- `t` is `s` but for the lines and the counters of the slices. -/
def SlicesOnly (s t : State) : Prop := t = { s with l2 := t.l2, traffic := t.traffic }

theorem SlicesOnly.refl (s : State) : SlicesOnly s s := rfl

theorem SlicesOnly.set {s : State} {l2 traffic} : SlicesOnly s { s with l2 := l2, traffic := traffic } := rfl

theorem SlicesOnly.trans {a b c : State} (h : SlicesOnly a b) (g : SlicesOnly b c) : SlicesOnly a c := by
  unfold SlicesOnly at *
  rw [g, h]

theorem SlicesOnly.foldl {α : Type} {f : State → α → State} (hf : ∀ s x, SlicesOnly s (f s x)) (l : List α) (s : State) :
    SlicesOnly s (l.foldl f s) := by
  induction l generalizing s with
  | nil => rfl
  | cons a t ih => exact (hf s a).trans (ih _)

theorem SlicesOnly.ite {c : Prop} [Decidable c] {s a b : State} (ha : SlicesOnly s a) (hb : SlicesOnly s b) :
    SlicesOnly s (if c then a else b) := by
  split
  · exact ha
  · exact hb

theorem SlicesOnly.homeOnly {s t : State} (h : SlicesOnly s t) : HomeOnly s t := by
  unfold HomeOnly
  rw [h]

/-- No byte of memory, and no store that a core holds, changes. -/
theorem SlicesOnly.sameMemory {s t : State} (h : SlicesOnly s t) : SameMemory s t := by
  rw [h]
  exact ⟨fun _ => rfl, fun _ => rfl, fun _ _ => rfl⟩

theorem SlicesOnly.getCore {s t : State} (h : SlicesOnly s t) (m : Nat) : getCore t m = getCore s m := by
  rw [h]
  rfl

theorem SlicesOnly.homeBytes {s t : State} (h : SlicesOnly s t) (o : Home) (n : Nat) : homeBytes t o n = homeBytes s o n := by
  rw [h]
  cases o <;> rfl

theorem SlicesOnly.homePoisoned {s t : State} (h : SlicesOnly s t) (o : Home) (n : Nat) :
    homePoisoned t o n = homePoisoned s o n := by
  rw [h]
  cases o <;> rfl

theorem SlicesOnly.linePoison {s t : State} (h : SlicesOnly s t) (o : Home) : linePoison t o = linePoison s o := by
  rw [h]
  cases o <;> rfl

theorem SlicesOnly.allGood {s t : State} (h : SlicesOnly s t) : allGood t = allGood s := by
  rw [h]
  rfl

theorem addTraffic_slicesOnly (s : State) (a : BitVec 16) (f : Traffic → Traffic) : SlicesOnly s (addTraffic s a f) := rfl

theorem addReads_slicesOnly (s : State) (a : BitVec 16) (h : Home) (n : Nat) : SlicesOnly s (addReads s a h n) := by
  cases h
  · exact .set
  · exact .refl s
  · exact .refl s

theorem addWrites_slicesOnly (s : State) (a : BitVec 16) (h : Home) (n : Nat) : SlicesOnly s (addWrites s a h n) := by
  cases h
  · exact .set
  · exact .refl s
  · exact .refl s

theorem writeBack_slicesOnly (s : State) (x : L2Line) : SlicesOnly s (writeBack s x) := by
  unfold writeBack
  split
  · rfl
  · exact (addTraffic_slicesOnly ..).trans (SlicesOnly.foldl (fun s e => addWrites_slicesOnly s _ x.home 1) _ _)

theorem l2Room_slicesOnly (s : State) (l : List L2Line) (p : BitVec 3) : SlicesOnly s (l2Room s l p).2 := by
  unfold l2Room
  split
  · rfl
  · split
    · exact writeBack_slicesOnly ..
    · rfl

/-- An access at a slice changes the lines that the slices hold and the traffic counters, and nothing else (R318, R319). -/
theorem l2Access_slicesOnly (s : State) (a : BitVec 16) (h : Home) (need written : BitVec 4) (keep : Nat) :
    SlicesOnly s (l2Access s a h need written keep) := by
  unfold l2Access
  split
  · dsimp only
    split
    · rename_i x _
      have h1 := addReads_slicesOnly s a h (maskSectors (need &&& ~~~x.held)).length
      generalize addReads s a h (maskSectors (need &&& ~~~x.held)).length = t at h1 ⊢
      refine SlicesOnly.trans (b := if x.filler = a then t else addTraffic t a (fun t => { t with shared := t.shared + 1 }))
        (SlicesOnly.ite h1 (h1.trans rfl)) rfl
    · have h1 := addReads_slicesOnly s a h (maskSectors need).length
      generalize addReads s a h (maskSectors need).length = t at h1 ⊢
      refine SlicesOnly.ite (h1.trans (addWrites_slicesOnly ..)) ?_
      exact h1.trans ((l2Room_slicesOnly ..).trans rfl)
  · rfl

theorem l2Write_slicesOnly (s : State) (a : BitVec 16) (h : Home) (cells : List (Nat × Byte)) (keep : Nat) :
    SlicesOnly s (l2Write s a h cells keep) := by
  cases h
  · exact l2Access_slicesOnly ..
  · exact l2Access_slicesOnly ..
  · rfl

theorem l2Access_homeOnly (s : State) (a : BitVec 16) (h : Home) (need written : BitVec 4) (keep : Nat) :
    HomeOnly s (l2Access s a h need written keep) := (l2Access_slicesOnly ..).homeOnly

theorem l2Write_homeOnly (s : State) (a : BitVec 16) (h : Home) (cells : List (Nat × Byte)) (keep : Nat) :
    HomeOnly s (l2Write s a h cells keep) := (l2Write_slicesOnly ..).homeOnly

/-! ### Reads -/

theorem l2Range_slicesOnly (s : State) (a : BitVec 16) (h : Home) (n : Nat) (w : Bool) : SlicesOnly s (l2Range s a h n w) := by
  unfold l2Range
  split
  · exact SlicesOnly.foldl (fun _ _ => l2Access_slicesOnly ..) _ s
  · exact SlicesOnly.foldl (fun _ _ => l2Access_slicesOnly ..) _ s
  · exact .refl s

theorem l2Range_homeOnly (s : State) (a : BitVec 16) (h : Home) (n : Nat) (w : Bool) : HomeOnly s (l2Range s a h n w) :=
  (l2Range_slicesOnly ..).homeOnly

theorem homeTouch_homeOnly (s : State) (h : Home) : HomeOnly s (homeTouch s h) := by
  unfold homeTouch
  split
  · exact readTouch_homeOnly ..
  · exact .refl s

theorem touchRange_homeOnly (s : State) (h : Home) (n : Nat) : HomeOnly s (touchRange s h n) := by
  unfold touchRange
  split
  · exact .ite (.refl s) (HomeOnly.foldl (fun _ _ => readTouch_homeOnly ..) _ s)
  · exact .refl s

theorem walkTouch_homeOnly (va l : Nat) : ∀ (s : State) (host : Bool) (frame : Nat), HomeOnly s (walkTouch s va l host frame) := by
  induction l with
  | zero => intro s host frame; unfold walkTouch; exact .ite (homeTouch_homeOnly ..) (homeTouch_homeOnly ..)
  | succ l ih =>
    intro s host frame
    unfold walkTouch
    exact .ite (homeTouch_homeOnly ..) ((homeTouch_homeOnly ..).trans (ih ..))

theorem touchWalk_homeOnly (s : State) (a : BitVec 16) (va : Nat) : HomeOnly s (touchWalk s a va) := by
  unfold touchWalk
  refine .ite (.refl s) ?_
  split
  · exact .refl s
  · exact .ite (.refl s) (walkTouch_homeOnly ..)

/-- The checks of an access read homes, and change nothing else (R330, R331). -/
theorem touchAccess_homeOnly (s : State) (v : View) (i : Instr) : HomeOnly s (touchAccess s v i) := by
  unfold touchAccess
  refine .ite (.refl s) ?_
  split
  · refine HomeOnly.foldl (fun t e => ?_) _ _
    split
    · exact .ite (.refl t) (touchWalk_homeOnly ..)
    · exact touchWalk_homeOnly ..
    · exact .refl t
  · exact touchWalk_homeOnly ..
  · exact .refl s

theorem HomeOnly.getCore {s t : State} (h : HomeOnly s t) (m : Nat) : getCore t m = getCore s m := by
  rw [h]
  rfl

theorem hubSpans_homeOnly (s : State) (a : BitVec 16) (va n : Nat) : HomeOnly s (hubSpans s a va n) := by
  have part : ∀ (s : State) (va n : Nat), HomeOnly s (match translate (touchWalk s a va) a va with
      | .mem h _ => touchRange (touchWalk s a va) h n
      | _ => touchWalk s a va) := by
    intro s va n
    split
    · exact (touchWalk_homeOnly ..).trans (touchRange_homeOnly ..)
    · exact touchWalk_homeOnly ..
  unfold hubSpans
  exact .ite (.refl s) (.ite (part ..) ((part ..).trans (part ..)))

/-- A read of the hub leaves all but what a home holds of channels, spans and slices. -/
theorem hubTouch_homeOnly (s : State) (a : BitVec 16) (va n : Nat) : HomeOnly s (hubTouch s a va n) := by
  have part : ∀ (s : State) (va n : Nat), HomeOnly s (match translate s a va with
      | .mem h _ => l2Range s a h n false
      | _ => s) := by
    intro s va n
    split
    · exact l2Range_homeOnly ..
    · exact .refl s
  unfold hubTouch
  exact .ite ((hubSpans_homeOnly ..).trans (part ..)) (((hubSpans_homeOnly ..).trans (part ..)).trans (part ..))

/-- Where no member is lost, a read of the hub is seen at the slices alone. -/
theorem hubTouch_slicesOnly {s : State} (hg : allGood s = true) (a : BitVec 16) (va n : Nat) : SlicesOnly s (hubTouch s a va n) := by
  have part : ∀ (s : State) (va n : Nat), SlicesOnly s (match translate s a va with
      | .mem h _ => l2Range s a h n false
      | _ => s) := by
    intro s va n
    split
    · exact l2Range_slicesOnly ..
    · exact .refl s
  unfold hubTouch hubSpans
  rw [if_pos hg]
  exact .ite (part ..) ((part ..).trans (part ..))

theorem touchTape_homeOnly (s : State) (a : BitVec 16) (t : Tape) : HomeOnly s (touchTape s a t) := by
  unfold touchTape
  refine .ite (.refl s) ?_
  split
  · exact .refl s
  · exact HomeOnly.foldl (fun _ _ => .ite (hubTouch_homeOnly ..) (.refl _)) _ s

theorem touchEntry_onlyMemory (s : State) (x : Context) (t n : Nat) : OnlyMemory s (touchEntry s x t n) :=
  ((hubTouch_homeOnly ..).trans (hubTouch_homeOnly ..)).onlyMemory

/-! ### Writes at homes -/

theorem performHome_onlyMemory (s : State) (base : Nat) (cells : List (Nat × Byte)) : OnlyMemory s (performHome s base cells) := by
  unfold performHome
  exact ((oldTouch_homeOnly s base).trans (writeTouch_homeOnly _ base)).onlyMemory.trans rfl

theorem performDev_onlyMemory (s : State) (base : Nat) (cells : List (Nat × Byte)) : OnlyMemory s (performDev s base cells) := by
  unfold performDev
  refine OnlyMemory.trans ?_ (performHome_onlyMemory ..)
  unfold backInvalidate
  split <;> rfl

theorem performAt_onlyMemory (s : State) (h : Home) (cells : List (Nat × Byte)) : OnlyMemory s (performAt s h cells) := by
  unfold performAt
  split
  · exact performDev_onlyMemory ..
  · rfl
  · rfl

theorem performBy_onlyMemory (s : State) (a : BitVec 16) (h : Home) (cells : List (Nat × Byte)) (keep : Nat) :
    OnlyMemory s (performBy s a h cells keep) := (l2Write_homeOnly ..).onlyMemory.trans (performAt_onlyMemory ..)

theorem writeHome_onlyMemory (s : State) (a : BitVec 16) (h : Home) (bs : List Byte) : OnlyMemory s (writeHome s a h bs) :=
  OnlyMemory.foldl (f := fun t (g : Home × Assoc Byte) => performBy t a g.1 g.2 0) (fun _ _ => performBy_onlyMemory ..) _ s

theorem hubWrite_onlyMemory (s : State) (asid : BitVec 16) (va : Nat) (bs : List Byte) : OnlyMemory s (hubWrite s asid va bs) :=
  OnlyMemory.foldl (f := fun t (g : Home × Assoc Byte) => performBy t asid g.1 g.2 0) (fun _ _ => performBy_onlyMemory ..) _ s

theorem writeEntry_onlyMemory (s : State) (x : Context) (t n : Nat) (e : Entry) : OnlyMemory s (writeEntry s x t n e) := by
  unfold writeEntry
  exact (OnlyMemory.trans (b := { s with entries := put s.entries (entryKey x t n) e }) rfl
    (hubWrite_onlyMemory ..)).trans (hubWrite_onlyMemory ..)

theorem putRecord_onlyMemory (s : State) (x : Context) (bs : List Byte) : OnlyMemory s (putRecord s x bs) := by
  unfold putRecord
  split
  · rfl
  · split
    · split
      · exact hubWrite_onlyMemory ..
      · rfl
    · exact (hubWrite_onlyMemory ..).trans (hubWrite_onlyMemory ..)

/-- A record of a course changes nothing but memory where the ring can be written (R364, R371). -/
theorem courseRecord_onlyMemory {s : State} {blk : Nat} {x : Context} (c slot : Nat) (f : FaultInfo) (pos : Word)
    (replay : Bool) (hx : blockCtx s blk = some x) (hw : ringWritable s x = true) :
    OnlyMemory s (courseRecord s blk c slot f pos replay) := by
  unfold courseRecord
  simp only [hx, hw]
  exact OnlyMemory.trans (b := (nextSeq s (blockCore s blk)).2) rfl (putRecord_onlyMemory ..)

/-! ### Reads at homes, pending stores -/

theorem askRemote_onlyMemory (s : State) (own : RemoteOwner) (d r va : Nat) (op : RemoteOp) (data : List Byte) :
    OnlyMemory s (askRemote s own d r va op data) := rfl

theorem performStore_onlyMemory (s : State) (m : Nat) (x : PendingStore) : OnlyMemory s (performStore s m x) := by
  unfold performStore
  split
  · exact OnlyMemory.foldl (fun _ _ => askRemote_onlyMemory ..) _ s
  · exact performBy_onlyMemory ..

theorem drainStores_onlyMemory (s : State) (m : Nat) (p : PendingStore → Bool) : OnlyMemory s (drainStores s m p) := by
  unfold drainStores
  dsimp only
  exact OnlyMemory.trans (b := setCore s m { getCore s m with stores := (getCore s m).stores.filter (fun x => !p x) }) rfl
    (OnlyMemory.foldl (f := fun t (x : PendingStore) => performStore t m x) (fun _ _ => performStore_onlyMemory ..) _ _)

theorem drainCore_onlyMemory (s : State) (m : Nat) : OnlyMemory s (drainCore s m) := by
  unfold drainCore
  split
  · rfl
  · exact drainStores_onlyMemory ..

end Sys2Proof.Machine
end

