-- ==== Sys2Proof/Laws/Cores.lean ====
section
/-!
SUPPORT. What memory operations do to the cores: a write that is performed drops lines but no pending store.
-/

namespace Sys2Proof.Machine

/-- Lines that go take no pending store with them. -/
theorem stores_dropLines (s : State) (q : Nat → Bool) (p : L1Line → Bool) (m : Nat) :
    (getCore (dropLines s q p) m).stores = (getCore s m).stores := by
  unfold getCore dropLines
  dsimp only
  generalize s.cores = l
  induction l with
  | nil => rfl
  | cons e t ih =>
    simp only [List.map_cons]
    by_cases hq : q e.1 = true
    · simp only [hq, if_true, find?]
      by_cases he : e.1 = m
      · simp [he]
      · simp only [if_neg he]; exact ih
    · simp only [hq, find?]
      by_cases he : e.1 = m
      · simp [he]
      · simp only [Bool.false_eq_true, if_false, if_neg he]; exact ih

/-- A write that is performed leaves every core's pending stores. -/
theorem stores_performAt (s : State) (h : Home) (cells : List (Nat × Byte)) (m : Nat) :
    (getCore (performAt s h cells) m).stores = (getCore s m).stores := by
  cases h with
  | dev pa =>
    show (getCore (invalidateHomeDie _ pa) m).stores = _
    rw [invalidateHomeDie, stores_dropLines]
    unfold getCore
    rw [show (writeSector (writeTouch (oldTouch (backInvalidate s pa) pa) pa) pa cells).cores = s.cores from
      (writeTouch_homeOnly ..).cores.trans ((oldTouch_homeOnly ..).cores.trans (by unfold backInvalidate; split <;> rfl))]
  | host pa => rfl
  | fabric d r va => rfl

theorem stores_performStore (s : State) (n : Nat) (x : PendingStore) (m : Nat) :
    (getCore (performStore s n x) m).stores = (getCore s m).stores := by
  unfold performStore
  split
  · have : ∀ (l : List (Nat × List Byte)) (f : State → Nat × List Byte → State) (t : State),
        (∀ t e, (f t e).cores = t.cores) → (l.foldl f t).cores = t.cores := by
      intro l f t hf
      induction l generalizing t with
      | nil => rfl
      | cons a r ih => rw [List.foldl_cons, ih, hf]
    unfold getCore
    rw [this _ (fun t e => askRemote t (.store n (blockJobId t x.blk)) _ _ (_ + e.1) (.store []) e.2) s (fun _ _ => rfl)]
  · rw [performBy, stores_performAt]
    unfold getCore
    rw [(l2Write_homeOnly ..).cores]

/-- Performing the stores that `p` selects leaves the others. -/
theorem stores_drainStores (s : State) (m : Nat) (p : PendingStore → Bool) :
    (getCore (drainStores s m p) m).stores = (getCore s m).stores.filter (fun x => !p x) := by
  unfold drainStores
  dsimp only
  have : ∀ (l : List PendingStore) (t : State),
      (getCore (l.foldl (fun t x => performStore t m x) t) m).stores = (getCore t m).stores := by
    intro l
    induction l with
    | nil => intro t; rfl
    | cons a r ih => intro t; rw [List.foldl_cons, ih, stores_performStore]
  rw [this, getCore_setCore_self]

/-- A core whose stores have all been performed has none pending. -/
theorem stores_drainCore (s : State) (m : Nat) : (getCore (drainCore s m) m).stores = [] := by
  unfold drainCore
  split
  · rename_i h; exact List.isEmpty_iff.mp h
  · rw [stores_drainStores]; simp

end Sys2Proof.Machine
end

