-- ==== Sys2Proof/Laws/Encoding.lean ====
section
/-!
SUPPORT. The fields of an encoded word, each read back by the decoder as it was written: lemmas for one field, one
format and one opcode, from which the round trip of an instruction is put together.
-/

namespace Sys2Proof

open Machine

theorem decodeWord_of_parse {w : Word} {x i} (hx : x = none ∨ acceptsExt w = true) (hp : parseWord w x = .ok i) (hi : i.wf = true) :
    decodeWord w x = .ok i := by
  unfold decodeWord
  have h0 : (x.isSome && !acceptsExt w) = false := by
    rcases hx with rfl | h
    · rfl
    · simp [h]
  rw [h0, hp]
  simp only [Instr.wf, Option.isNone_iff_eq_none] at hi
  simp [hi]

def fieldsOf (op d a b : Nat) : Nat := op * 2 ^ 25 + d * 2 ^ 18 + a * 2 ^ 9 + b

theorem fieldsOf_lt {op d a b : Nat} (ho : op < 128) (hd : d < 128) (ha : a < 512) (hb : b < 512) : fieldsOf op d a b < 2 ^ 32 := by
  unfold fieldsOf; omega

theorem mkWord_toNat {op d a b : Nat} (ho : op < 128) (hd : d < 128) (ha : a < 512) (hb : b < 512) :
    (mkWord op d a b).toNat = fieldsOf op d a b := by
  have := fieldsOf_lt ho hd ha hb
  unfold mkWord
  rw [BitVec.toNat_ofNat]
  exact Nat.mod_eq_of_lt this

theorem fieldsOf_op {op d a b : Nat} (hd : d < 128) (ha : a < 512) (hb : b < 512) : fieldsOf op d a b / 2 ^ 25 = op := by
  unfold fieldsOf; omega

theorem fieldsOf_d {op d a b : Nat} (hd : d < 128) (ha : a < 512) (hb : b < 512) : bits (fieldsOf op d a b) 24 18 = d := by
  unfold fieldsOf bits; omega
theorem fieldsOf_a {op d a b : Nat} (ha : a < 512) (hb : b < 512) : bits (fieldsOf op d a b) 17 9 = a := by
  unfold fieldsOf bits; omega
theorem fieldsOf_b {op d a b : Nat} (hb : b < 512) : bits (fieldsOf op d a b) 8 0 = b := by
  unfold fieldsOf bits; omega

theorem parseWord_mkWord {op d a b : Nat} {x} (ho : op < 128) (hd : d < 128) (ha : a < 512) (hb : b < 512) :
    parseWord (mkWord op d a b) x = parseOp op x (fieldsOf op d a b) := by
  unfold parseWord
  rw [mkWord_toNat ho hd ha hb, fieldsOf_op hd ha hb]

theorem acceptsExt_mkWord {op d a b : Nat} (ho : op < 128) (hd : d < 128) (ha : a < 512) (hb : b < 512) :
    acceptsExt (mkWord op d a b) = acceptsExt (mkWord op 0 0 0) := by
  unfold acceptsExt
  rw [mkWord_toNat ho hd ha hb, fieldsOf_op hd ha hb, mkWord_toNat ho (by decide) (by decide) (by decide), fieldsOf_op (by decide) (by decide) (by decide)]

theorem regField_lt (r : RegName) : regField r < 128 := by
  cases r <;> simp only [regField] <;> omega
theorem hintField_lt (h : Hint) : hintField h < 3 := by cases h <;> decide
theorem srcField_lt (s : Src) : srcField s < 512 := by
  have := regField_lt s.reg; have := hintField_lt s.hint
  unfold srcField; omega
theorem regOfField_regField (r : RegName) : regOfField (regField r) = r := by
  cases r with
  | v n => simp [regField, regOfField]
  | s n => simp [regField, regOfField]; omega
  | sz => rfl
theorem srcOfField_srcField (s : Src) : srcOfField (srcField s) = .ok s := by
  have h1 := regField_lt s.reg; have h2 := hintField_lt s.hint
  have e1 : srcField s / 128 % 4 = hintField s.hint := by unfold srcField; omega
  have e2 : srcField s % 128 = regField s.reg := by unfold srcField; omega
  unfold srcOfField
  rw [e1, e2, regOfField_regField]
  rcases s with ⟨r, h⟩
  cases h <;> rfl

theorem formA_fields (f : RegName → Src → Src → Instr) (op : Nat) (d : RegName) (a b : Src) :
    formA f (fieldsOf op (regField d) (srcField a) (srcField b)) = .ok (f d a b) := by
  unfold formA
  rw [fieldsOf_d (regField_lt d) (srcField_lt a) (srcField_lt b), fieldsOf_a (srcField_lt a) (srcField_lt b), fieldsOf_b (srcField_lt b), srcOfField_srcField, srcOfField_srcField, regOfField_regField]
  rfl

theorem decode_formatA {op : Nat} {d : RegName} {a b : Src} {i : Instr} (ho : op < 128)
   (hp : parseOp op none (fieldsOf op (regField d) (srcField a) (srcField b)) = .ok i) (hi : i.wf = true) :
   decodeWord (encA op d a b).1 (encA op d a b).2 = .ok i :=
  decodeWord_of_parse (.inl rfl) ((parseWord_mkWord ho (regField_lt d) (srcField_lt a) (srcField_lt b)).trans hp) hi

theorem immField9_lt (m : Word) : (immField9 m).1 < 512 := Nat.mod_lt _ (by decide)

theorem immFits_of (m : Word) (h : immFits m = true) : m.toNat < 2^20 ∨ 2^32 - 2^20 ≤ m.toNat := by
  simpa [immFits] using h

theorem immOfField_immField9 (m : Word) (h : immFits m = true) : immOfField (immField9 m).2 (immField9 m).1 = m := by
  have h := immFits_of m h
  have hm := m.isLt
  unfold immField9
  simp only
  split
  · next h1 =>
    simp only [Bool.or_eq_true, decide_eq_true_eq] at h1
    unfold immOfField
    apply BitVec.eq_of_toNat_eq
    simp only [BitVec.toNat_ofNat]
    split <;> omega
  · next h1 =>
    simp only [Bool.or_eq_true, decide_eq_true_eq] at h1
    unfold immOfField
    apply BitVec.eq_of_toNat_eq
    simp only [BitVec.toNat_ofNat]
    split <;> omega

theorem decode_formatI {op : Nat} {d : Nat} {a : Nat} {m : Word} {i : Instr} (ho : op < 128) (hd : d < 128) (ha : a < 512)
   (hx : acceptsExt (mkWord op 0 0 0) = true)
   (hp : parseOp op (immField9 m).2 (fieldsOf op d a (immField9 m).1) = .ok i) (hi : i.wf = true) :
   decodeWord (mkWord op d a (immField9 m).1, (immField9 m).2).1 (mkWord op d a (immField9 m).1, (immField9 m).2).2 = .ok i :=
  decodeWord_of_parse (.inr ((acceptsExt_mkWord ho hd ha (immField9_lt m)).trans hx)) ((parseWord_mkWord ho hd ha (immField9_lt m)).trans hp) hi

theorem formI_fields (f : RegName → Src → Word → Instr) (op : Nat) (d : RegName) (a : Src) (m : Word) (h : immFits m = true) :
    formI f (immField9 m).2 (fieldsOf op (regField d) (srcField a) (immField9 m).1) = .ok (f d a m) := by
  unfold formI
  rw [fieldsOf_d (regField_lt d) (srcField_lt a) (immField9_lt m), fieldsOf_a (srcField_lt a) (immField9_lt m), fieldsOf_b (immField9_lt m), srcOfField_srcField, regOfField_regField, immOfField_immField9 m h]
  rfl

theorem formI0_fields (f : RegName → Word → Instr) (op : Nat) (d : RegName) (m : Word) (h : immFits m = true) :
    formI0 f (immField9 m).2 (fieldsOf op (regField d) 0 (immField9 m).1) = .ok (f d m) := by
  unfold formI0
  rw [fieldsOf_d (regField_lt d) (by decide) (immField9_lt m), fieldsOf_a (by decide) (immField9_lt m), fieldsOf_b (immField9_lt m), regOfField_regField, immOfField_immField9 m h]
  rfl

theorem decode_fields {op d a b : Nat} {i : Instr} (ho : op < 128) (hd : d < 128) (ha : a < 512) (hb : b < 512)
   (hp : parseOp op none (fieldsOf op d a b) = .ok i) (hi : i.wf = true) :
   decodeWord (bare (mkWord op d a b)).1 (bare (mkWord op d a b)).2 = .ok i :=
  decodeWord_of_parse (.inl rfl) ((parseWord_mkWord ho hd ha hb).trans hp) hi

theorem decode_formatU {op : Nat} {d : RegName} {a : Src} {b : Nat} {i : Instr} (ho : op < 128) (hb : b < 512)
   (hp : parseOp op none (fieldsOf op (regField d) (srcField a) b) = .ok i) (hi : i.wf = true) :
   decodeWord (encU op d a b).1 (encU op d a b).2 = .ok i := decode_fields ho (regField_lt d) (srcField_lt a) hb hp hi

theorem formU_fields (f : RegName → Src → Instr) (op : Nat) (d : RegName) (a : Src) (b : Nat) (hb : b < 512) :
    formU f (fieldsOf op (regField d) (srcField a) b) = .ok (f d a) := by
  unfold formU
  rw [fieldsOf_d (regField_lt d) (srcField_lt a) hb, fieldsOf_a (srcField_lt a) hb, srcOfField_srcField, regOfField_regField]
  rfl

theorem uni_fields (f : RegName → Src → Instr) (d : RegName) (a : Src) (b : Nat) (hb : b < 512) (hf : uniOf b = some f) :
    parseOp 0x2a none (fieldsOf 0x2a (regField d) (srcField a) b) = .ok (f d a) := by
  show (do let f ← listed (uniOf (bits (fieldsOf 0x2a (regField d) (srcField a) b) 8 0)); formU f (fieldsOf 0x2a (regField d) (srcField a) b)) = _
  rw [fieldsOf_b hb, hf]
  exact formU_fields f _ d a b hb

theorem fun_fields (f : RegName → Src → Instr) (d : RegName) (a : Src) (b : Nat) (hb : b < 512) (hf : funOf b = some f) :
    parseOp 0x43 none (fieldsOf 0x43 (regField d) (srcField a) b) = .ok (f d a) := by
  show (do let f ← listed (funOf (bits (fieldsOf 0x43 (regField d) (srcField a) b) 8 0)); formU f (fieldsOf 0x43 (regField d) (srcField a) b)) = _
  rw [fieldsOf_b hb, hf]
  exact formU_fields f _ d a b hb

theorem immOk_of_wf {i : Instr} (h : i.wf = true) : immOk i = true := by
  unfold Instr.wf at h
  simp only [Option.isNone_iff_eq_none] at h
  unfold illFormed at h
  repeat' split at h
  all_goals first | contradiction | simp_all

theorem immFits_of_small {m : Word} (h : m.toNat < 2^20) : immFits m = true := by
  simp [immFits]; omega

theorem not_event_of_wf {i : Instr} (h : i.wf = true) : pipeClass i ≠ .event := by
  unfold Instr.wf at h
  simp only [Option.isNone_iff_eq_none] at h
  unfold illFormed at h
  intro h1
  simp [h1] at h

-- format C
theorem compareField_lt (p : PredName) {cc : Nat} (h : cc < 16) : p.toNat * 16 + cc < 128 := by omega
theorem fieldsOf_compare {op d a b : Nat} (hd : d < 128) (ha : a < 512) (hb : b < 512) : bits (fieldsOf op d a b) 21 18 = d % 16 ∧ bits (fieldsOf op d a b) 24 22 = d / 16 := by
  unfold fieldsOf bits; omega
theorem intCCField_lt (c : IntCC) : intCCField c < 16 := by cases c <;> decide
theorem fpCCField_lt (c : FpCC) : fpCCField c < 16 := by cases c <;> decide
theorem intCCOf_field (c : IntCC) : intCCOf (intCCField c) = some c := by cases c <;> rfl
theorem fpCCOf_field (c : FpCC) : fpCCOf (fpCCField c) = some c := by cases c <;> rfl
theorem compareField_split (p : PredName) {cc : Nat} (h : cc < 16) : (p.toNat * 16 + cc) % 16 = cc ∧ BitVec.ofNat 3 ((p.toNat * 16 + cc) / 16) = p := by
  have := p.isLt
  refine ⟨by omega, ?_⟩
  have : (p.toNat * 16 + cc) / 16 = p.toNat := by omega
  rw [this]; simp

theorem icmpOf_fields (f) (op : Nat) (p : PredName) (c : IntCC) (a b : Src) :
   icmpOf f (fieldsOf op (p.toNat * 16 + intCCField c) (srcField a) (srcField b)) = .ok (f p c a b) := by
  unfold icmpOf
  have h := compareField_lt p (intCCField_lt c)
  rw [(fieldsOf_compare h (srcField_lt a) (srcField_lt b)).1, (fieldsOf_compare h (srcField_lt a) (srcField_lt b)).2, fieldsOf_a (srcField_lt a) (srcField_lt b), fieldsOf_b (srcField_lt b), srcOfField_srcField, srcOfField_srcField,
    (compareField_split p (intCCField_lt c)).1, (compareField_split p (intCCField_lt c)).2, intCCOf_field]
  rfl

-- branches
theorem decode_formatB {op : Nat} {off : BitVec 25} {i : Instr} (ho : op < 128) (hp : parseOp op none (op * 2^25 + off.toNat) = .ok i) (hi : i.wf = true) :
   decodeWord (encB op off).1 (encB op off).2 = .ok i := by
  have hl := off.isLt
  refine decodeWord_of_parse (.inl rfl) ?_ hi
  unfold parseWord encB bare
  simp only [BitVec.toNat_ofNat]
  have e : (op * 2^25 + off.toNat) % 2^32 = op * 2^25 + off.toNat := by omega
  have e2 : (op * 2^25 + off.toNat) / 2^25 = op := by omega
  rw [e, e2]; exact hp
theorem offset_field (op : Nat) (off : BitVec 25) : BitVec.ofNat 25 (op * 2^25 + off.toNat) = off := by
  apply BitVec.eq_of_toNat_eq
  have hl := off.isLt
  simp only [BitVec.toNat_ofNat]
  omega

-- M
theorem recordField_lt (r : RecName) {j : Nat} (hj : j < 128) : r.val * 128 + j < 512 := by omega
theorem fieldsOf_record {op d a b : Nat} (hb : b < 512) : bits (fieldsOf op d a b) 8 7 = b / 128 ∧ bits (fieldsOf op d a b) 6 0 = b % 128 := by
  unfold fieldsOf bits; omega
theorem recordField_split (r : RecName) {j : Nat} (hj : j < 128) : recOfField ((r.val * 128 + j) / 128) = .ok r ∧ (r.val * 128 + j) % 128 = j := by
  refine ⟨?_, by omega⟩
  have : (r.val * 128 + j) / 128 = r.val := by omega
  rw [this]; simp [recOfField]
theorem recOfField_val (r : RecName) : recOfField r.val = .ok r := by revert r; decide
theorem formM_fields (f) (op : Nat) (d : RegName) (a : Src) (r : RecName) (j : RegName) :
   formM f (fieldsOf op (regField d) (srcField a) (r.val * 128 + regField j)) = .ok (f d a r j) := by
  have hb := recordField_lt r (regField_lt j)
  unfold formM
  rw [fieldsOf_d (regField_lt d) (srcField_lt a) hb, fieldsOf_a (srcField_lt a) hb, (fieldsOf_record hb).1, (fieldsOf_record hb).2, (recordField_split r (regField_lt j)).1, (recordField_split r (regField_lt j)).2,
   srcOfField_srcField, regOfField_regField, regOfField_regField]
  rfl

theorem blockField_lt (r : RecName) : blockField r < 128 := by unfold blockField; omega
theorem blockOfField_blockField (r : RecName) : blockOfField (blockField r) = .ok r := by
  revert r; decide

theorem decode_formatE {op : Nat} {c : RecName} {s : BitVec 4} {k : Bool} {f} {i : Instr} (ho : op < 128)
   (hp : ∀ n, parseOp op none n = formE f n) (hf : f c s k = i) (hi : i.wf = true) :
   decodeWord (encE op c s k).1 (encE op c s k).2 = .ok i := by
  have hs := s.isLt
  have hc := blockField_lt c
  have hk : b2n k < 2 := by cases k <;> decide
  refine decodeWord_of_parse (.inl rfl) ?_ hi
  unfold parseWord encE bare
  simp only [BitVec.toNat_ofNat]
  generalize hn : op * 2 ^ 25 + blockField c * 2 ^ 18 + s.toNat * 2 ^ 14 + b2n k * 2 ^ 13 = n
  have e : n % 2^32 = n := by omega
  have e2 : n / 2^25 = op := by omega
  rw [e, e2, hp]
  unfold formE
  have b1 : bits n 24 18 = blockField c := by unfold bits; omega
  have b2 : bits n 12 0 = 0 := by unfold bits; omega
  have b3 : bits n 17 14 = s.toNat := by unfold bits; omega
  have b4 : bits n 13 13 = b2n k := by unfold bits; omega
  rw [b1, b2, b3, b4, blockOfField_blockField]
  subst hf
  cases k <;> simp [mustBe, b2n, bind, Except.bind, pure, Except.pure]

theorem decode_formatV {d : Nat} {ps pd : PredName} {m : Nat} {i : Instr} (hd : d < 128) (hm : m < 8)
   (hf : (match m with
  | 0 => (do mustBe d 127; pure (.voteAny pd ps) : Except IllegalWhy Instr)
  | 1 => do mustBe d 127; pure (.voteAll pd ps)
  | 2 => do mustBe d 127; pure (.voteUni pd ps)
  | 3 => do mustBe pd.toNat 0; pure (.voteBallot (regOfField d) ps)
  | _ => .error .subop) = .ok i) (hi : i.wf = true) :
   decodeWord (encV d ps pd m).1 (encV d ps pd m).2 = .ok i := by
  have h1 := ps.isLt
  have h2 := pd.isLt
  refine decodeWord_of_parse (.inl rfl) ?_ hi
  unfold parseWord encV bare
  simp only [BitVec.toNat_ofNat]
  generalize hn : 0x48 * 2 ^ 25 + d * 2 ^ 18 + ps.toNat * 2 ^ 15 + pd.toNat * 2 ^ 12 + m * 2 ^ 9 = n
  have e : n % 2^32 = n := by omega
  have e2 : n / 2^25 = 0x48 := by omega
  rw [e, e2]
  show voteOf n = _
  unfold voteOf
  have b1 : bits n 24 18 = d := by unfold bits; omega
  have b2 : bits n 8 0 = 0 := by unfold bits; omega
  have b3 : bits n 17 15 = ps.toNat := by unfold bits; omega
  have b4 : bits n 14 12 = pd.toNat := by unfold bits; omega
  have b5 : bits n 11 9 = m := by unfold bits; omega
  rw [b1, b2, b3, b4, b5, BitVec.ofNat_toNat, BitVec.ofNat_toNat, BitVec.setWidth_eq, BitVec.setWidth_eq]
  exact hf

theorem recSrcField_lt (r : RecName) (h : Hint) : recSrcField r h < 512 := by
  have := hintField_lt h; have := blockField_lt r; unfold recSrcField; omega
theorem recSrcField_split (r : RecName) (h : Hint) : (∃ g, srcOfField (recSrcField r h) = .ok ⟨g, h⟩) ∧ blockOfField (recSrcField r h % 128) = .ok r := by
  have h1 := hintField_lt h; have h2 := blockField_lt r
  have e1 : recSrcField r h / 128 % 4 = hintField h := by unfold recSrcField; omega
  have e2 : recSrcField r h % 128 = blockField r := by unfold recSrcField; omega
  refine ⟨⟨regOfField (blockField r), ?_⟩, by rw [e2, blockOfField_blockField]⟩
  unfold srcOfField
  rw [e1, e2]
  cases h <;> rfl


theorem atomOpField_lt16 (o : AtomOp) : atomOpField o < 16 := by cases o <;> decide
theorem atomOpField_lt (o : AtomOp) : atomOpField o < 128 := by cases o <;> decide
theorem atomOpOf_field (o : AtomOp) : atomOpOf (atomOpField o) = some o := by cases o <;> rfl
theorem tapeWidthField_lt (o : TapeWidth) : tapeWidthField o < 4 := by cases o <;> decide
theorem tapeWidthOf_field (o : TapeWidth) : tapeWidthOf (tapeWidthField o) = some o := by cases o <;> rfl
theorem b2n_lt (b : Bool) : b2n b < 2 := by cases b <;> decide
theorem b2n_beq_one (b : Bool) : (b2n b == 1) = b := by cases b <;> rfl
theorem scopeField_lt (o : Scope) : scopeField o < 5 := by cases o <;> decide
theorem scopeOf_field (o : Scope) : scopeOf (scopeField o) = some o := by cases o <;> rfl
theorem fenceKindField_lt (o : FenceKind) : fenceKindField o < 4 := by cases o <;> decide
theorem fenceKindOf_field (o : FenceKind) : fenceKindOf (fenceKindField o) = o := by cases o <;> rfl
theorem fenceField_lt (k : FenceKind) (s : Scope) (e : Bool) : b2n e * 32 + fenceKindField k * 8 + scopeField s < 512 := by
  have := b2n_lt e; have := fenceKindField_lt k; have := scopeField_lt s; omega
theorem numFmtField_lt (o : NumFmt) : numFmtField o < 8 := by cases o <;> decide
theorem numFmtOf_field (o : NumFmt) : numFmtOf (numFmtField o) = o := by cases o <;> rfl
theorem roundingField_lt (o : Rounding) : roundingField o < 8 := by cases o <;> decide
theorem roundingOf_field (o : Rounding) : roundingOf (roundingField o) = some o := by cases o <;> rfl
theorem quadOpField_lt (o : QuadOp) : quadOpField o < 16 := by cases o <;> decide
theorem quadOpOf_field (o : QuadOp) : quadOpOf (quadOpField o) = some o := by cases o <;> rfl
theorem redOpField_lt (o : RedOp) : redOpField o < 16 := by cases o <;> decide
theorem redOpOf_field (o : RedOp) : redOpOf (redOpField o) = some o := by cases o <;> rfl
theorem scanOpField_lt (o : ScanOp) : scanOpField o < 16 := by cases o <;> decide
theorem scanOpOf_field (o : ScanOp) : scanOpOf (scanOpField o) = some o := by cases o <;> rfl
theorem srcOfField_recSrcField (r : RecName) (h : Hint) : srcOfField (recSrcField r h) = .ok ⟨regOfField (blockField r), h⟩ := by
  have h1 := hintField_lt h; have h2 := blockField_lt r
  have e1 : recSrcField r h / 128 % 4 = hintField h := by unfold recSrcField; omega
  have e2 : recSrcField r h % 128 = blockField r := by unfold recSrcField; omega
  unfold srcOfField
  rw [e1, e2]
  cases h <;> rfl
theorem blockOfField_recSrcField (r : RecName) (h : Hint) : blockOfField (recSrcField r h % 128) = .ok r := (recSrcField_split r h).2
theorem immOfCode_toNat (c : BitVec 21) : (immOfCode c).toNat = if c.toNat < 2 ^ 20 then c.toNat else c.toNat + (2 ^ 32 - 2 ^ 21) := by
  have := c.isLt
  unfold immOfCode
  rw [BitVec.toNat_signExtend, BitVec.toNat_setWidth, BitVec.msb_eq_decide]
  by_cases h : c.toNat < 2 ^ 20
  · rw [if_pos h, if_neg (by simp; omega)]; omega
  · rw [if_neg h, if_pos (by simp; omega)]; omega
theorem immOfCode_fits (c : BitVec 21) : immFits (immOfCode c) = true := by
  have := c.isLt
  unfold immFits
  rw [immOfCode_toNat]
  simp only [Bool.or_eq_true, decide_eq_true_eq]
  split <;> omega
theorem immOfCode_truncate (c : BitVec 21) : BitVec.setWidth 21 (immOfCode c) = c := by
  have := c.isLt
  apply BitVec.eq_of_toNat_eq
  rw [BitVec.toNat_setWidth, immOfCode_toNat]
  split <;> omega

theorem parseOp_2c (x : Option (BitVec 12)) (n : Nat) : parseOp 0x2c x n = (do
      let c ← listed (intCCOf (bits n 21 18))
      let a ← srcOfField (bits n 17 9)
      pure (.icmpi (BitVec.ofNat 3 (bits n 24 22)) c a (immOfField x (bits n 8 0)))) := rfl
theorem parseOp_2f (x : Option (BitVec 12)) (n : Nat) : parseOp 0x2f x n = (do
      mustBe (bits n 12 8) 0
      pure (.plop (BitVec.ofNat 3 (bits n 24 22)) (BitVec.ofNat 3 (bits n 21 19)) (BitVec.ofNat 3 (bits n 18 16))
        (BitVec.ofNat 3 (bits n 15 13)) (BitVec.ofNat 8 (bits n 7 0)))) := rfl
theorem parseOp_37 (x : Option (BitVec 12)) (n : Nat) : parseOp 0x37 x n = (do
      let c ← listed (fpCCOf (bits n 21 18))
      let a ← srcOfField (bits n 17 9)
      let b ← srcOfField (bits n 8 0)
      pure (.fcmp (BitVec.ofNat 3 (bits n 24 22)) c a b)) := rfl
theorem parseOp_3a (x : Option (BitVec 12)) (n : Nat) : parseOp 0x3a x n = (do
      let c ← listed (fpCCOf (bits n 21 18))
      let a ← srcOfField (bits n 17 9)
      pure (.fcmpi (BitVec.ofNat 3 (bits n 24 22)) c a (immOfField x (bits n 8 0)))) := rfl
theorem parseOp_44 (x : Option (BitVec 12)) (n : Nat) : parseOp 0x44 x n = (do
      let a ← srcOfField (bits n 17 9)
      let r ← listed (roundingOf (bits n 2 0))
      pure (.cvt (regOfField (bits n 24 18)) a (numFmtOf (bits n 8 6)) (numFmtOf (bits n 5 3)) r)) := rfl
theorem parseOp_4d (x : Option (BitVec 12)) (n : Nat) : parseOp 0x4d x n = (do
      let a ← srcOfField (bits n 17 9)
      let o ← listed (quadOpOf (bits n 8 0))
      pure (.qsw (regOfField (bits n 24 18)) a o)) := rfl
theorem parseOp_4e (x : Option (BitVec 12)) (n : Nat) : parseOp 0x4e x n = (do
      let a ← srcOfField (bits n 17 9)
      let o ← listed (redOpOf (bits n 8 0))
      pure (.redx (regOfField (bits n 24 18)) a o)) := rfl
theorem parseOp_4f (x : Option (BitVec 12)) (n : Nat) : parseOp 0x4f x n = (do
      let a ← srcOfField (bits n 17 9)
      let o ← listed (scanOpOf (bits n 8 0))
      pure (.scan (regOfField (bits n 24 18)) a o)) := rfl
theorem parseOp_50 (x : Option (BitVec 12)) (n : Nat) : parseOp 0x50 x n = (do
      let a ← srcOfField (bits n 17 9)
      mustBe (bits n 8 0) 127
      pure (.matchLanes (regOfField (bits n 24 18)) a)) := rfl
theorem parseOp_51 (x : Option (BitVec 12)) (n : Nat) : parseOp 0x51 x n = (do let m ← formI00 x n; pure (.tilep m)) := rfl
theorem parseOp_53 (x : Option (BitVec 12)) (n : Nat) : parseOp 0x53 x n = (formU0 .brx n) := rfl
theorem parseOp_55 (x : Option (BitVec 12)) (n : Nat) : parseOp 0x55 x n = (formU0 .callx n) := rfl
theorem parseOp_5e (x : Option (BitVec 12)) (n : Nat) : parseOp 0x5e x n = (do let m ← formI00 x n; pure (.proof (m.truncate 21))) := rfl
theorem parseOp_5f (x : Option (BitVec 12)) (n : Nat) : parseOp 0x5f x n = (do let m ← formI00 x n; pure (.trap (m.truncate 21))) := rfl
theorem parseOp_63 (x : Option (BitVec 12)) (n : Nat) : parseOp 0x63 x n = (do
      let a ← srcOfField (bits n 17 9)
      let r ← recOfField (bits n 8 7)
      let o ← listed (atomOpOf (bits n 6 0))
      pure (.atr o (regOfField (bits n 24 18)) a r)) := rfl
theorem parseOp_64 (x : Option (BitVec 12)) (n : Nat) : parseOp 0x64 x n = (do
      let a ← srcOfField (bits n 17 9)
      let r ← recOfField (bits n 8 7)
      if bits n 24 18 < 2 then pure (.pref (BitVec.ofNat 1 (bits n 24 18)) a r (regOfField (bits n 6 0)))
      else .error .subop) := rfl
theorem parseOp_67 (x : Option (BitVec 12)) (n : Nat) : parseOp 0x67 x n = (do
      let a ← srcOfField (bits n 17 9)
      mustBe (bits n 8 4) 0
      let o ← listed (atomOpOf (bits n 3 0))
      pure (.atl o (regOfField (bits n 24 18)) a)) := rfl
theorem parseOp_69 (x : Option (BitVec 12)) (n : Nat) : parseOp 0x69 x n = (do
      mustBe (bits n 24 6) 0
      let s ← listed (scopeOf (bits n 2 0))
      pure (.fence (fenceKindOf (bits n 4 3)) s (bits n 5 5 == 1))) := rfl
theorem parseOp_6a (x : Option (BitVec 12)) (n : Nat) : parseOp 0x6a x n = (do
      mustBe (bits n 24 3) 0
      let s ← listed (scopeOf (bits n 2 0))
      pure (.cinv s)) := rfl
theorem parseOp_6b (x : Option (BitVec 12)) (n : Nat) : parseOp 0x6b x n = (do
      let d ← blockOfField (bits n 24 18)
      let a ← srcOfField (bits n 17 9)
      let r ← recOfField (bits n 8 7)
      pure (.recld d a r (regOfField (bits n 6 0)))) := rfl
theorem parseOp_72 (x : Option (BitVec 12)) (n : Nat) : parseOp 0x72 x n = (do
      let a ← srcOfField (bits n 17 9)
      let d := regOfField (bits n 24 18)
      let c := BitVec.ofNat 3 (bits n 8 6)
      match bits n 5 0 with
      | 0 => pure (.xfmCrc32c d a c)
      | 1 => pure (.xfmHash d a c)
      | 2 => pure (.xfmSort d a c)
      | _ => .error .subop) := rfl
theorem parseOp_76 (x : Option (BitVec 12)) (n : Nat) : parseOp 0x76 x n = (do mustBe (bits n 24 4) 0; pure (.swait (BitVec.ofNat 4 (bits n 3 0)))) := rfl
theorem parseOp_77 (x : Option (BitVec 12)) (n : Nat) : parseOp 0x77 x n = (do
      mustBe (bits n 24 18) 127
      let a ← srcOfField (bits n 17 9)
      let t ← listed (tapeWidthOf (bits n 1 0))
      pure (.trec t (BitVec.ofNat 7 (bits n 8 2)) a)) := rfl
theorem parseOp_78 (x : Option (BitVec 12)) (n : Nat) : parseOp 0x78 x n = (do
      mustBe (bits n 17 9) 0
      let t ← listed (tapeWidthOf (bits n 1 0))
      pure (.tpop t (BitVec.ofNat 7 (bits n 8 2)) (regOfField (bits n 24 18)))) := rfl
theorem parseOp_79 (x : Option (BitVec 12)) (n : Nat) : parseOp 0x79 x n = (tctlOf n) := rfl
theorem parseOp_7b (x : Option (BitVec 12)) (n : Nat) : parseOp 0x7b x n = (do mustBe (bits n 17 9) 0; pure (.srd (regOfField (bits n 24 18)) (BitVec.ofNat 9 (bits n 8 0)))) := rfl
theorem parseOp_7c (x : Option (BitVec 12)) (n : Nat) : parseOp 0x7c x n = (do
      mustBe (bits n 24 18) 127
      let a ← srcOfField (bits n 17 9)
      pure (.swr (BitVec.ofNat 9 (bits n 8 0)) a)) := rfl
theorem parseOp_7d (x : Option (BitVec 12)) (n : Nat) : parseOp 0x7d x n = (taskStepOf false n) := rfl
theorem parseOp_7e (x : Option (BitVec 12)) (n : Nat) : parseOp 0x7e x n = (taskStepOf true n) := rfl

end Sys2Proof
end

