-- ==== Sys2Proof/Laws/Flow.lean ====
section
/-!
SUPPORT. Laws of the flow instructions: what issuing one leaves of its course, and the moves of its path.
-/

namespace Sys2Proof.Machine

/-- A flow instruction issues. -/
theorem flowIssue_eq {s : State} {v : View} {k : Course} {i : Instr} (h : Issuing s v k) :
    flowIssue s v.u i = flowIssued s v i k := by
  unfold flowIssue endUnit flowIssued courseLeaves flowCourse gathered
  simp only [h.stays, updCourse_of_get h.course]
  simp

@[simp] theorem getCourse_courseLeaves (s : State) (v : View) (k : Course) :
    getCourse (courseLeaves s v k) v.u.blk v.u.course = some k := getCourse_setCourse_self ..

@[simp] theorem getCourse_flowIssued (s : State) (v : View) (i : Instr) (k : Course) :
    getCourse (flowIssued s v i k) v.u.blk v.u.course = some (flowCourse v i k) := getCourse_setCourse_self ..

@[simp] theorem setCourse_courseLeaves (s : State) (v : View) (k j : Course) :
    setCourse (courseLeaves s v k) v.u.blk v.u.course j = courseLeaves s v j := by
  simp [courseLeaves, setCourse, put_put]

@[simp] theorem setCourse_flowIssued (s : State) (v : View) (i : Instr) (k j : Course) :
    setCourse (flowIssued s v i k) v.u.blk v.u.course j = courseLeaves s v j := setCourse_courseLeaves ..

@[simp] theorem updCourse_courseLeaves (s : State) (v : View) (k : Course) (f : Course → Course) :
    updCourse (courseLeaves s v k) v.u.blk v.u.course f = courseLeaves s v (f k) := by
  rw [updCourse_of_get (getCourse_courseLeaves ..), setCourse_courseLeaves]

@[simp] theorem updPath_courseLeaves (s : State) (v : View) (k : Course) (slot : Nat) (g : Path → Path) :
    updPath (courseLeaves s v k) v.u.blk v.u.course slot g = courseLeaves s v (setPath k slot ((getPath k slot).map g)) := by
  rw [updPath, updCourse_courseLeaves]

/-- The path of a flow instruction moves. -/
theorem updPath_flowIssued (s : State) (v : View) (i : Instr) (k : Course) (g : Path → Path) :
    updPath (flowIssued s v i k) v.u.blk v.u.course v.u.slot g = pathLeaves s v i k g := updPath_courseLeaves ..

/-- A flow instruction that only goes on at the next packet. -/
theorem stepPath_flowIssue {s : State} {v : View} {k : Course} {i : Instr} (h : Issuing s v k) :
    stepPath (flowIssue s v.u i) v.u = pathLeaves s v i k (fun p => nextPos p 3) := by
  rw [flowIssue_eq h]
  exact updPath_flowIssued ..

theorem IssuingAlone.issuing {s : State} {v : View} (h : IssuingAlone s v) : Issuing s v v.k := ⟨h.view, h.course, h.stays⟩

/-- The view's path is the one of its course. -/
theorem path_of_viewOf {s : State} {v : View} (h : viewOf s = some v) : getPath v.k v.u.slot = some v.p := by
  unfold viewOf at h
  split at h
  · simp at h
  · split at h
    · simp only [Option.some.injEq] at h; subst h; assumption
    · simp at h

/-- The view's block is the one of the state. -/
theorem block_of_viewOf {s : State} {v : View} (h : viewOf s = some v) : getBlock s v.u.blk = some v.b := by
  unfold viewOf at h
  split at h
  · simp at h
  · split at h
    · simp only [Option.some.injEq] at h; subst h; assumption
    · simp at h

/-! ### The course of a flow instruction -/

theorem onlyRegs_spendRegs (k : Course) (l : List Nat) : OnlyRegs k (spendRegs k l) := by
  unfold spendRegs
  induction l generalizing k with
  | nil => rfl
  | cons r t ih =>
    rw [List.foldl_cons]
    refine OnlyRegs.trans ?_ (ih _)
    split
    · rfl
    · split <;> rfl

theorem OnlyRegs.getPath {a b : Course} (h : OnlyRegs a b) (slot : Nat) : getPath b slot = getPath a slot := by
  rw [h]
  rfl

/-- What a flow instruction leaves of its course: its paths but for the folded signature, its depth, lanes and tape. -/
theorem flowCourse_keeps (v : View) (i : Instr) (k : Course) :
    (flowCourse v i k).depth = k.depth ∧ (flowCourse v i k).stackSlot = k.stackSlot ∧ (flowCourse v i k).live = k.live ∧
      (flowCourse v i k).tape = k.tape ∧ (flowCourse v i k).popFault = k.popFault := by
  have e : ∀ (k : Course) j q, (setPath k j q).depth = k.depth ∧ (setPath k j q).stackSlot = k.stackSlot ∧
      (setPath k j q).live = k.live ∧ (setPath k j q).tape = k.tape ∧ (setPath k j q).popFault = k.popFault := by
    intro k j q
    unfold setPath
    split <;> exact ⟨rfl, rfl, rfl, rfl, rfl⟩
  have e1 : ∀ j, (spendRegs k j).depth = k.depth ∧ (spendRegs k j).stackSlot = k.stackSlot ∧
      (spendRegs k j).live = k.live ∧ (spendRegs k j).tape = k.tape ∧ (spendRegs k j).popFault = k.popFault := by
    intro j
    rw [onlyRegs_spendRegs k j]
    exact ⟨rfl, rfl, rfl, rfl, rfl⟩
  unfold flowCourse unitCourse gathered
  dsimp only
  split <;> simp [markWait, e, e1]

/-- The issuing path of a flow instruction differs in its signature alone. -/
theorem getPath_flowCourse {v : View} {k : Course} {q : Path} (i : Instr) (h : getPath k v.u.slot = some q) :
    getPath (flowCourse v i k) v.u.slot = some { q with sig := (memberFolds v.u i).foldl foldSig q.sig } := by
  have e : ∀ j, getPath (spendRegs k j) v.u.slot = getPath k v.u.slot := fun j => (onlyRegs_spendRegs k j).getPath _
  have e2 : ∀ a b c j, getPath { spendRegs k j with fpflags := a, preferred := b } c = getPath (spendRegs k j) c :=
    fun _ _ _ _ => rfl
  have e3 : ∀ (k : Course) w, getPath { k with waitLongs := w } v.u.slot = getPath k v.u.slot := fun _ _ => rfl
  unfold flowCourse unitCourse gathered
  dsimp only
  split
  · simp only [markWait, e3, getPath_setPath_self, e2, e, h]; rfl
  · simp only [getPath_setPath_self, e2, e, h]; rfl

/-- The other path stays as it is. -/
theorem getPath_flowCourse_other {v : View} {k : Course} (i : Instr) (hs : v.u.slot < 2) :
    getPath (flowCourse v i k) (1 - v.u.slot) = getPath k (1 - v.u.slot) := by
  have hs : v.u.slot = 0 ∨ v.u.slot = 1 := by omega
  have e : ∀ j, getPath (spendRegs k j) (1 - v.u.slot) = getPath k (1 - v.u.slot) :=
    fun j => (onlyRegs_spendRegs k j).getPath _
  have e2 : ∀ a b c j, getPath { spendRegs k j with fpflags := a, preferred := b } c = getPath (spendRegs k j) c :=
    fun _ _ _ _ => rfl
  have e3 : ∀ (k : Course) w, getPath { k with waitLongs := w } (1 - v.u.slot) = getPath k (1 - v.u.slot) :=
    fun _ _ => rfl
  unfold flowCourse unitCourse gathered
  dsimp only
  split
  · simp only [markWait, e3, getPath_setPath_other _ _ hs, e2, e]
  · simp only [getPath_setPath_other _ _ hs, e2, e]

/-- The path still stands where its instruction issued. -/
theorem pathThere_flowIssued {s : State} {v : View} {k : Course} {q : Path} (i : Instr) (h : getPath k v.u.slot = some q)
    (hp : q.pc = v.p.pc) (hs : q.slot = v.p.slot) (hm : q.mask &&& v.p.mask ≠ 0) :
    pathThere (flowIssued s v i k) v.u.blk v.u.course v.u.slot v.p = true := by
  simp [pathThere, getPath_flowCourse i h, hp, hs]
  exact hm

/-- With nothing pending a path's long writes are complete. -/
theorem completePath_none {s : State} {b c slot : Nat} {k : Course} {p : Path} (hk : getCourse s b c = some k)
    (hp : getPath k slot = some p) (he : p.pending = []) : completePath s b c slot = s := by
  simp [completePath, hk, hp, he]

/-! ### Pushes -/

theorem blockCtx_courseLeaves (s : State) (v : View) (k : Course) (b : Nat) : blockCtx (courseLeaves s v k) b = blockCtx s b := rfl

theorem getCourse_pushLeaves (s : State) (v : View) (x : Context) (k : Course) (e : Entry) :
    getCourse (pushLeaves s v x k e) v.u.blk v.u.course = some { k with depth := k.depth + 1 } := by
  rw [pushLeaves, (writeEntry_onlyMemory ..).getCourse, getCourse_courseLeaves]

/-- A push answers the entry's index and leaves what `pushLeaves` says. -/
theorem push_courseLeaves {s : State} {v : View} {x : Context} (k : Course) (e : Entry) (hx : blockCtx s v.u.blk = some x) :
    push (courseLeaves s v k) v.u.blk v.u.course e = (k.depth, pushLeaves s v x k e) := by
  unfold push
  simp only [getCourse_courseLeaves, blockCtx_courseLeaves, hx, setCourse_courseLeaves]
  rfl

theorem setPath_tape (k : Course) (slot : Nat) (p : Option Path) : (setPath k slot p).tape = k.tape := by
  unfold setPath
  split <;> rfl

theorem setPath_live (k : Course) (slot : Nat) (p : Option Path) : (setPath k slot p).live = k.live := by
  unfold setPath
  split <;> rfl

theorem setPath_depth (k : Course) (slot : Nat) (p : Option Path) : (setPath k slot p).depth = k.depth := by
  unfold setPath
  split <;> rfl

theorem setPath_stackSlot (k : Course) (slot : Nat) (p : Option Path) : (setPath k slot p).stackSlot = k.stackSlot := by
  unfold setPath
  split <;> rfl

end Sys2Proof.Machine
end

