-- ==== Sys2Proof/Laws/Loads.lean ====
section
/-!
SUPPORT. Laws of the loads: the lanes a load is performed in, the long write that brings what they received, and the checks
of an access to the local store.
-/

namespace Sys2Proof.Machine

/-- The lanes gathered from a list. -/
theorem hasLane_fold {α} (l : List (Nat × α)) (m : Lanes) (j : Nat) :
   hasLane (l.foldl (fun (m : Lanes) e => m ||| bitLane e.1) m) j = (hasLane m j || (decide (j < 32) && l.any (fun e => e.1 == j))) := by
  induction l generalizing m with
  | nil => simp
  | cons a t ih =>
    rw [List.foldl_cons, ih]
    have : hasLane (m ||| bitLane a.1) j = (hasLane m j || (decide (j < 32) && (a.1 == j))) := by
      unfold hasLane bitLane
      rw [BitVec.getLsbD_or, BitVec.getLsbD_shiftLeft]
      by_cases h : a.1 = j
      · subst h; simp
      · by_cases hj : j < a.1 
        · simp [hj, h]
        · have h3 : j - a.1 ≠ 0 := by omega
          have h4 : (1#32).getLsbD (j - a.1) = false := by
            rw [BitVec.getLsbD_one]; simp [h3]
          simp [h4, h]
    rw [this]
    simp only [List.any_cons]
    cases hasLane m j <;> cases decide (j < 32) <;> cases (a.1 == j) <;> simp

/-- The lanes that an instruction is performed in, gathered. -/
theorem fold_lanes (L : List Nat) {α} (g : Nat → α) : (L.map (fun l => (l, g l))).foldl (fun (m : Lanes) e => m ||| bitLane e.1) 0 = maskOf L.contains := by
  apply BitVec.eq_of_getLsbD_eq
  intro j hj
  have := hasLane_fold (L.map (fun l => (l, g l))) 0 j
  unfold hasLane at this
  rw [this]
  rw [getLsbD_maskOf]
  simp only [hj, decide_true, Bool.true_and, List.any_map]
  rw [show (0 : Lanes).getLsbD j = false from by simp, Bool.false_or]
  clear this
  induction L with
  | nil => rfl
  | cons a t ih =>
    simp only [List.any_cons, List.contains_cons, Function.comp] at *
    rw [ih]
    congr 1
    exact Bool.beq_comm

/-- A description of what was written may be replaced by one that reads the same. -/
theorem Written.congr {k k' : Course} {m : Lanes} {ds es : List (RegName × (Nat → Word))} (h : Written k k' m ds)
   (e : ∀ r l, l < 32 → readAfter k m ds r l = readAfter k m es r l) : Written k k' m es :=
  ⟨h.1, h.2.1, fun r l hl => (h.2.2 r l hl).trans (e r l hl)⟩

/-- The lowest lane is one of the mask. -/
theorem lowestLane_mem {m : Lanes} {x : Nat} (h : lowestLane m = some x) : hasLane m x = true ∧ x < 32 := by
  unfold lowestLane at h
  have h2 := List.mem_of_mem_head? h
  unfold lanesOf at h2
  rw [List.mem_filter, List.mem_range] at h2
  exact ⟨h2.2, h2.1⟩

/-- Values that agree on the lanes written. -/
theorem readAfter_congr (k : Course) (m : Lanes) (n : Nat) (D : Nat → RegName) (f g : Nat → Nat → Word) (h : ∀ j, j < n → ∀ l, hasLane m l = true → f j l = g j l) (r : RegName) (l : Nat) :
   readAfter k m ((List.range n).map (fun j => (D j, f j))) r l = readAfter k m ((List.range n).map (fun j => (D j, g j))) r l := by
  unfold readAfter
  generalize readReg k r l = w0
  have : ∀ L : List Nat, (∀ j ∈ L, j < n) → ∀ w, (L.map (fun j => (D j, f j))).foldl (fun w d => match resultLane k m d.1 r l with
    | some x => d.2 x
    | none => w) w = (L.map (fun j => (D j, g j))).foldl (fun w d => match resultLane k m d.1 r l with
    | some x => d.2 x
    | none => w) w := by
    intro L
    induction L with
    | nil => intro _ w; rfl
    | cons j t ih =>
      intro hL w
      simp only [List.map_cons, List.foldl_cons]
      rw [ih (fun j hj => hL j (List.mem_cons_of_mem _ hj))]
      congr 1
      cases hr : resultLane k m (D j) r l with
      | none => rfl
      | some x =>
        dsimp only
        refine h j (hL j List.mem_cons_self) x ?_
        unfold resultLane at hr
        split at hr
        · simp at hr
        · split at hr
          · split at hr
            · rename_i hh
              simp only [Option.some.injEq] at hr
              subst hr
              unfold hasLane at hh ⊢
              rw [BitVec.getLsbD_and] at hh
              simp only [Bool.and_eq_true] at hh
              exact hh.1
            · simp at hr
          · exact (lowestLane_mem hr).1
          · simp at hr
  exact this _ (fun j hj => List.mem_range.mp hj) _

/-- The writes of several registers, those that reach no lane left out. -/
theorem written_flat (k0 : Course) (m : Lanes) (n : Nat) (D : Nat → RegName) (f : Nat → Nat → Word) : 
   Written k0 (applyWrites k0 (((List.range n).flatMap (fun j => destWrite (D j) m (f j))).filter writesLane)) m ((List.range n).map (fun j => (D j, f j))) := by
  rw [applyWrites_filter]
  · generalize List.range n = L
    induction L generalizing k0 with
    | nil => exact Written.refl _ _
    | cons j t ih =>
      rw [List.flatMap_cons, applyWrites_append, List.map_cons]
      exact (written_destWrite k0 _ _ _).append (ih _)
  · intro w hw
    simp only [List.mem_flatMap] at hw
    obtain ⟨j, _, hw⟩ := hw
    exact prd_destWrite _ _ _ w hw

/-- What a list of lanes holds for one of them. -/
theorem find_map (lanes : List Nat) (ws : Nat → List Word) (l : Nat) (h : lanes.contains l = true) : find? (lanes.map (fun l => (l, ws l))) l = some (ws l) := by
  induction lanes with
  | nil => simp at h
  | cons a t ih =>
    simp only [List.map_cons, find?]
    by_cases e : a = l
    · subst e; simp
    · rw [if_neg e]; apply ih
      simpa [List.contains_cons, Ne.symm e] using h

/-- A load whose lanes all receive their words. -/
theorem loadWrite_lanes (id : Nat) (L : List Nat) (d : RegName) (va : Nat → Nat) (ws : Nat → List Word) (n : Nat) (tag : Half) (o : Bool) :
   let w := loadWrite id d (L.map (fun l => (l, va l, some (ws l)))) n tag o
   PureLong w ∧ w.id = id ∧ ∀ k0, Written k0 (applyWrites k0 w.writes) (maskOf L.contains) ((List.range n).map (fun j => (regPlus d j, fun l => (ws l).getD j 0))) := by
  have hok : (L.map (fun l => (l, va l, some (ws l)))).filterMap (fun e => e.2.2.map (fun w => (e.1, w))) = L.map (fun l => (l, ws l)) := by
    induction L with
    | nil => rfl
    | cons a t ih => simp only [List.map_cons, List.filterMap_cons, Option.map_some, ih]
  have hbad : poisoned (L.map (fun l => (l, va l, some (ws l)))) = [] := by
    unfold poisoned
    induction L with
    | nil => rfl
    | cons a t ih => simp at ih ⊢
  refine ⟨⟨?_, ?_, ?_⟩, rfl, fun k0 => ?_⟩
  · unfold loadWrite; rw [hbad]; rfl
  · unfold loadWrite; rw [hbad]; dsimp only; split <;> rfl
  · unfold loadWrite; rw [hbad]; simp
  · unfold loadWrite
    dsimp only
    rw [hok, fold_lanes]
    refine Written.congr (written_flat _ _ _ _ _) (fun r l hl => ?_)
    refine readAfter_congr _ _ _ _ _ _ (fun j _ l hl => ?_) r l
    have : L.contains l = true := by
      unfold hasLane at hl
      rw [getLsbD_maskOf] at hl
      simp only [Bool.and_eq_true] at hl
      exact hl.2
    rw [find_map _ _ _ this]; rfl

/-- The same for the lanes that an instruction is performed in (R90). -/
theorem loadWrite_good (id : Nat) (v : View) (u : Bool) (d : RegName) (va : Nat → Nat) (ws : Nat → List Word) (n : Nat) (tag : Half)
    (o : Bool) :
    let w := loadWrite id d ((v.lanes u).map (fun l => (l, va l, some (ws l)))) n tag o
    PureLong w ∧ w.id = id ∧
      ∀ k0, Written k0 (applyWrites k0 w.writes) (ranLanes v u) ((List.range n).map (fun j => (regPlus d j, fun l => (ws l).getD j 0))) :=
  loadWrite_lanes ..

/-- An instruction that begins a long write and retires. -/
theorem long_leaves {t : State} {v : View} {k : Course} {o i fl brings} (w : LongWrite) (hc : getCourse t v.u.blk v.u.course = some k) (hd : v.u.demotes = false)
   (hp : PureLong w) (hid : w.id = t.nextId) (hb : brings w.writes)
   (ho : o = .next (retire (addLong (idTaken t) v.u w) v.u i fl)) : LongLeaves t v k o i fl brings := by
  refine ⟨w, beginLong w v.u.slot k, hp, hid, rfl, hb, ?_, ?_⟩
  · rw [ho]
    have hk : getCourse (idTaken t) v.u.blk v.u.course = some k := hc
    exact congrArg Host.Outcome.next ((congrArg (retire · v.u i fl) (updCourse_of_get hk _)).trans (retire_setCourse _ _ _ hd))
  · unfold unitLeaves
    split <;> exact ⟨fun _ => rfl, fun _ => rfl, fun _ _ => rfl⟩

/-- No check stops an access to the local store whose words pass theirs (R173). -/
theorem local_stop {s v i l u} (hz : NoHazard v i) (hi : (∃ d a imm, i = .ldl d a imm) ∨ (∃ d a imm, i = .ldlp d a imm) ∨ (∃ d a imm, i = .stl d a imm) ∨ ∃ op d a, i = .atl op d a) 
   (hl : localAccess v i = some (l, u)) (hok : ∀ e ∈ l, localFault v.b e.2 = none)
   (hsl : sliceStop v (settlesPath v i) = none) : lone v.u = true → stopOf s v i = none := by
  intro ha
  have hn := hz ha
  have hu : uniformStop s v i = none := by
    unfold uniformStop
    rcases hi with ⟨d, a, imm, rfl⟩ | ⟨d, a, imm, rfl⟩ | ⟨d, a, imm, rfl⟩ | ⟨op, d, a, rfl⟩ <;> simp only [hn, Bool.false_eq_true, if_false, ite_self]
  have hf : l.filterMap (fun e => (localFault v.b e.2).map (fun f => (e.1, f.1, f.2, 0))) = [] := by
    rw [List.filterMap_eq_nil_iff]
    intro e he
    rw [hok e he]; rfl
  have hls : laneStop s v i = none := by
    have : ownStop s v i = (match localAccess v i with
      | some (l, u) => (lanesFault (l.filterMap (fun e => (localFault v.b e.2).map (fun f => (e.1, f.1, f.2, 0)))) 0
        (if u then some v.act else none)).map Stop.fault
      | none => none) := by
      rcases hi with ⟨d, a, imm, rfl⟩ | ⟨d, a, imm, rfl⟩ | ⟨d, a, imm, rfl⟩ | ⟨op, d, a, rfl⟩ <;> rfl
    unfold laneStop
    rw [this, hl]
    dsimp only
    rw [hf]
    exact hsl
  unfold stopOf; rw [hu, hls]

/-- A word that passes its checks. -/
theorem localFault_ok {b addr} (h : addr % 4 = 0) (h2 : addr + 4 ≤ b.alloc) : localFault b addr = none := by
  unfold localFault
  rw [if_neg (by exact fun x => x h), if_neg (by exact Nat.not_lt.mpr h2)]

/-! ### Loads through records -/

/-- How a lane that hits the L1 reaches memory (R163). -/
def ldHit (v : View) (x : RecordAccess) (y : Nat → L1Line) (l : Nat) : Reach := .mem (laneVa v x l) (homeAdd (y l).home (laneVa v x l % 128)) ⟨false, 0, 0, 0, if (y l).loose then 2 else 0, false, false⟩

/-- The checks of a lane that hits the L1. -/
theorem hit_reach {s v x l y} (h : HitsL1 s v x l y) (hw : x.write = false) : 
   recordReach s v.b.core v.b.asid x.r x.size x.align (recordOff x.r (readReg v.k x.i.reg l) (readReg v.k x.j l)) x.write x.viaL1
    = .mem (laneVa v x l) (homeAdd y.home (laneVa v x l % 128)) ⟨false, 0, 0, 0, if y.loose then 2 else 0, false, false⟩ := by
  obtain ⟨h1, h2, h3, h4, h5⟩ := h
  unfold recordReach
  rw [if_neg (by omega)]
  dsimp only
  rw [if_neg (by simpa using h3), if_pos h1]
  unfold translateLoad
  unfold l1Find at h4
  rw [h4]
  simp [hw, laneVa]

/-- A load that hits the L1 changes nothing and brings the line's bytes. -/
theorem hit_load {s v x l y} (h : HitsL1 s v x l y) : loadMem s v.b.core v.b.asid (laneVa v x l) (homeAdd y.home (laneVa v x l % 128)) ⟨false, 0, 0, 0, if y.loose then 2 else 0, false, false⟩ x.size (!x.viaL1) x.r.cache
    = (lineBytes y (laneVa v x l) x.size, false, s) := by
  obtain ⟨h1, h2, h3, h4, h5⟩ := h
  unfold loadMem
  have : ((!x.viaL1) || decide ((if y.loose then 2 else 0) = 1) || decide ((0:Nat) = 2)) = false := by
    rw [h1]; split <;> rfl
  dsimp only
  have h6 : l1Find (getCore s v.b.core) v.b.asid (laneVa v x l) = some y := h4
  have hno : ¬ ((((!x.viaL1) = true ∨ (if y.loose = true then 2 else 0) = 1) ∨ (0:Nat) = 2) ∨
      (decide (2 ≤ x.r.cache) && (l1Find (getCore s v.b.core) v.b.asid (laneVa v x l)).isNone) = true) := by
    rw [h1, h6]; split <;> simp
  simp only [Bool.or_eq_true, decide_eq_true_eq, if_neg hno]
  unfold loadL1
  rw [h6]
  dsimp only
  rw [h5]
  simp [lineBytes]

/-- The reaches of lanes that all hit. -/
theorem hits_reach {s v x y} (h : ∀ l ∈ x.lanes, HitsL1 s v x l (y l)) (hw : x.write = false) : accessReach s v x = x.lanes.map (fun l => (l, ldHit v x y l)) := by
  unfold accessReach
  exact List.map_congr_left (fun l hl => by rw [hit_reach (h l hl) hw]; rfl)

/-- A hit is never STRONG. -/
theorem hits_strong {v x y} (lanes : List Nat) : strongReach (lanes.map (fun l => (l, ldHit v x y l))) = false := by
  unfold strongReach
  rw [List.any_map]
  apply List.any_eq_false.mpr
  intro l _
  simp only [Function.comp, ldHit]
  split <;> simp

/-- Loads of lanes that all hit, one after another. -/
theorem hits_lanes {s : State} {v x y} (h : ∀ l ∈ x.lanes, HitsL1 s v x l (y l)) (g0 : Got (List Byte)) :
   (x.lanes.map (fun l => (l, ldHit v x y l))).foldl (loadLane v x) (g0, s) = (g0 ++ x.lanes.map (fun l => (l, laneVa v x l, some (lineBytes (y l) (laneVa v x l) x.size))), s) := by
  generalize x.lanes = L at h
  induction L generalizing g0 with
  | nil => simp
  | cons a t ih =>
    simp only [List.map_cons, List.foldl_cons]
    have : loadLane v x (g0, s) (a, ldHit v x y a) = (g0 ++ [(a, laneVa v x a, some (lineBytes (y a) (laneVa v x a) x.size))], s) := by
      unfold loadLane ldHit
      dsimp only
      rw [hit_load (h a List.mem_cons_self)]
      rfl
    rw [this, ih _ (fun l hl => h l (List.mem_cons_of_mem _ hl))]
    simp

/-- The loads of an instruction whose lanes all hit. -/
theorem hits_loadLanes {s : State} {v x y} (h : ∀ l ∈ x.lanes, HitsL1 s v x l (y l)) :
  loadLanes s v x (x.lanes.map (fun l => (l, ldHit v x y l))) = (x.lanes.map (fun l => (l, laneVa v x l, some (lineBytes (y l) (laneVa v x l) x.size))), s) := by
  unfold loadLanes
  rw [hits_strong]
  simp only [Bool.false_eq_true, if_false]
  rw [hits_lanes h]
  simp

/-- QI of a load. -/
theorem any_conv (lanes : List Nat) (f : List Byte → List Word × Bool) (va : Nat → Nat) (bs : Nat → List Byte) :
   (lanes.map (fun l => (l, va l, some (f (bs l))))).any (fun e => match e.2.2 with
      | some r => r.2
      | none => false) = lanes.any (fun l => (f (bs l)).2) := by
  rw [List.any_map]; rfl

/-- The lanes of a load through a record. -/
theorem rec_lanes {v i x} (hr : recordAccess v i = some x) (hi : (∃ d a rs j, i = .ldr d a rs j) ∨ (∃ d a rs j, i = .recld d a rs j) ∨ ∃ d a rs j, i = .ldrp d a rs j) : x.lanes = v.lanes x.uniform ∧ x.write = false := by
  rcases hi with ⟨d, a, rs, j, rfl⟩ | ⟨d, a, rs, j, rfl⟩ | ⟨d, a, rs, j, rfl⟩ <;> (simp only [recordAccess, Option.some.injEq] at hr; subst hr; exact ⟨rfl, rfl⟩)

/-- The effect of LDR, LDRP and RECLD once its lanes have been loaded without poison. -/
def loadEnd (t : State) (v : View) (i : Instr) (x : RecordAccess) (d : RegName) (n : Nat) (f : List Byte → List Word × Bool) (va : Nat → Nat) (bs : Nat → List Byte) (o dem : Bool) : State :=
   retire (addLong (idTaken t) v.u (loadWrite t.nextId d (x.lanes.map (fun l => (l, va l, some ((f (bs l)).1)))) n x.r.tag o)) { v.u with demotes := v.u.demotes || dem } i (loadFlags f x.lanes bs)

/-- LDRP demotes its path. -/
def pollDemotes : Instr → Bool
  | .ldrp .. => true
  | _ => false

/-- A load through a record, once its lanes have been loaded without poison. -/
theorem load_end {s v i x d n f t va bs} (h : viewOf s = some v) (hu : Unstopped s v i) (hi : (∃ d a rs j, i = .ldr d a rs j) ∨ (∃ d a rs j, i = .recld d a rs j) ∨ ∃ d a rs j, i = .ldrp d a rs j)
   (hr : recordAccess v i = some x) (hd : loadDest v i = some (d, n, f)) (hh : heldFor v = none)
   (hs : strongReach (accessReach s v x) = false) 
   (hl : loadLanes (touchAccess s v i) v x (accessReach s v x) = (x.lanes.map (fun l => (l, va l, some (bs l))), t)) :
   exec i s = .next (loadEnd t v i x d n f va bs (servedOutside s v x (accessReach s v x)) (pollDemotes i)) := by
  rcases hi with ⟨d, a, rs, j, rfl⟩ | ⟨d, a, rs, j, rfl⟩ | ⟨d, a, rs, j, rfl⟩
  · refine (runInstr_effect _ h hu).trans ?_
    unfold loadRecord heldReach
    rw [hr, hh]
    dsimp only
    rw [hl]
    dsimp only
    simp only [loadDest, Option.some.injEq, Prod.mk.injEq] at hd
    obtain ⟨rfl, rfl, rfl⟩ := hd
    have hx : x.r = readRecord v.k rs.val := by
      simp only [recordAccess, Option.some.injEq] at hr; rw [← hr]
    unfold loadEnd loadFlags
    rw [hs, hx]
    simp only [List.map_map, Function.comp_def, Option.map_some, Bool.false_eq_true, if_false]
    rw [← any_conv _ _ va]
    rfl
  · refine (runInstr_effect _ h hu).trans ?_
    unfold heldReach
    rw [hr, hh]
    dsimp only
    rw [hl]
    dsimp only
    simp only [loadDest, Option.some.injEq, Prod.mk.injEq] at hd
    obtain ⟨rfl, rfl, rfl⟩ := hd
    unfold loadEnd loadFlags
    rw [hs]
    simp only [List.map_map, Function.comp_def, Option.map_some, Bool.false_eq_true, if_false]
    have : (x.lanes.any fun _ => false) = false := by simp
    rw [this]
    simp only [pollDemotes, Bool.or_false]
    rfl
  · refine (runInstr_effect _ h hu).trans ?_
    unfold loadRecord heldReach
    rw [hr, hh]
    dsimp only
    rw [hl]
    dsimp only
    simp only [loadDest, Option.some.injEq, Prod.mk.injEq] at hd
    obtain ⟨rfl, rfl, rfl⟩ := hd
    have hx : x.r = readRecord v.k rs.val := by
      simp only [recordAccess, Option.some.injEq] at hr; rw [← hr]
    unfold loadEnd loadFlags
    rw [hs, hx]
    simp only [List.map_map, Function.comp_def, Option.map_some, Bool.false_eq_true, if_false]
    rw [← any_conv _ _ va]
    rfl

/-- The checks of lanes that all hit touch nothing. -/
theorem hits_touch {s : State} {v : View} {i : Instr} {x : RecordAccess} {y : Nat → L1Line} (hr : recordAccess v i = some x)
    (h : ∀ l ∈ x.lanes, HitsL1 s v x l (y l)) (hw : x.write = false) : touchAccess s v i = s := by
  unfold touchAccess
  split
  · rfl
  · rw [hr]
    dsimp only
    rw [hits_reach h hw]
    have key : ∀ L : List Nat, (∀ l ∈ L, HitsL1 s v x l (y l)) → (L.map (fun l => (l, ldHit v x y l))).foldl (fun t e => match e.2 with
        | .mem va _ _ => if x.viaL1 && (l1Find (getCore t v.b.core) v.b.asid va).isSome then t else touchWalk t v.b.asid va
        | .fail 0x08 va _ => touchWalk t v.b.asid va
        | _ => t) s = s := by
      intro L
      induction L with
      | nil => intro _; rfl
      | cons a t ih =>
        intro hL
        obtain ⟨h1, -, -, h4, -⟩ := hL a List.mem_cons_self
        have h6 : l1Find (getCore s v.b.core) v.b.asid (laneVa v x a) = some (y a) := h4
        rw [List.map_cons, List.foldl_cons]
        refine Eq.trans ?_ (ih (fun l hl => hL l (List.mem_cons_of_mem _ hl)))
        congr 1
        simp only [ldHit, h1, h6, Option.isSome_some, Bool.and_self, if_true]
    exact key x.lanes h

/-- Where no member is lost the checks touch nothing. -/
theorem touchAccess_good {s : State} (hg : allGood s = true) (v : View) (i : Instr) : touchAccess s v i = s := by
  unfold touchAccess
  rw [if_pos hg]

/-- A read changes nothing where no member is lost. -/
theorem touch_good {s : State} (hg : allGood s = true) (h : Home) : homeTouch s h = s := by
  cases h <;> simp [homeTouch, readTouch, hg]
/-- The core just set. -/
theorem setCore_l1 (s : State) (m : Nat) (c : Core) : getCore (setCore s m c) m = c := getCore_setCore_self ..
/-- No store is pending: there is nothing to perform. -/
theorem drain_none {s : State} {m} (h : (getCore s m).stores = []) (p) : OnlyMemory s (drainStores s m p) ∧ drainStores s m p = setCore s m { getCore s m with stores := [] } := by
  refine ⟨drainStores_onlyMemory .., ?_⟩
  unfold drainStores
  simp [h]

end Sys2Proof.Machine
end

