-- ==== Sys2Proof/Laws/Packets.lean ====
section
/-!
SUPPORT. Laws of the command processor's shared operations: what a halt, a refusal, a decrement and a completion leave.
-/

namespace Sys2Proof.Machine

theorem getJob_setJob_ne {s : State} {i d : Nat} (k : Job) (h : d ≠ i) : getJob (setJob s i k) d = getJob s d := find?_put_ne _ _ h

theorem getCounter_setCounter_ne {s : State} {i d : Nat} (k : Counter) (h : d ≠ i) :
    getCounter (setCounter s i k) d = getCounter s d := by simp [getCounter, setCounter, find?_put_ne _ _ h]

theorem getQueue_setQueue_ne {s : State} {p : BitVec 3} {q d : Nat} (k : Queue) (h : d ≠ q) :
    getQueue (setQueue s p q k) p d = getQueue s p d := find?_put_ne _ _ (by unfold queueKey; omega)

theorem SameMemory.of_eq {s t : State} (h1 : t.dev = s.dev) (h2 : t.hostMem = s.hostMem) (h3 : t.blocks = s.blocks) :
    SameMemory s t := ⟨fun _ => by rw [h1], fun _ => by rw [h2], fun _ _ => by unfold getBlock; rw [h3]⟩

theorem queueError_eq (s : State) (p : BitVec 3) (cause q slot : Nat) : queueError s p cause q slot true =
    { s with partitions := (queueError s p cause q slot true).partitions, out := (queueError s p cause q slot true).out } := rfl

/-- What a halt leaves (R32, R394). -/
theorem haltQueue_halts (s : State) (p : BitVec 3) (asid : BitVec 16) (q slot cause : Nat) :
    QueueHalts s (haltQueue s p asid q slot cause) p asid q slot cause := by
  have hp : (getPart (queueError s p cause q slot true) p).qerr = (if (getPart s p).qerr.getLsbD 63 then (getPart s p).qerr ||| (1#64 <<< 62) else
      BitVec.ofNat 64 (2 ^ 63 + (getPart s p).qerr.toNat / 2 ^ 62 % 2 * 2 ^ 62 + cause * 2 ^ 48 + q % 256 * 2 ^ 40 +
        b2n (decide (256 ≤ q)) * 2 ^ 32 + slot % 2 ^ 32)) := by
    unfold queueError raise
    exact congrArg Partition.qerr (getPart_setPart_self s p _)
  have ho : (queueError s p cause q slot true).out = s.out ++ [.msi p (bits (getPart s p).pvecIn.toNat 5 0)] := by
    unfold queueError raise
    simp
  unfold haltQueue
  dsimp only
  split
  · rename_i hq
    split
    · rename_i k hk
      refine ⟨fun k' _ h => ?_, fun x h => by omega, ho, hp, rfl, rfl, .of_eq rfl rfl rfl⟩
      have : some k = some k' := hk.symm.trans h
      rw [getQueue_setQueue_self]; injection this with e; rw [e]
    · rename_i hk
      exact ⟨fun k' _ h => absurd (hk.symm.trans h) (by simp), fun x h => by omega, ho, hp, rfl, rfl, .of_eq rfl rfl rfl⟩
  · rename_i hq
    split
    · rename_i x hx
      refine ⟨fun k' h => by omega, fun x' _ h => ?_, ho, hp, rfl, rfl, .of_eq rfl rfl rfl⟩
      have : some x = some x' := hx.symm.trans h
      rw [getCtx_setCtx_self]; injection this with e; rw [e]
    · rename_i hx
      exact ⟨fun k' h => by omega, fun x' _ h => absurd (hx.symm.trans h) (by simp), ho, hp, rfl, rfl, .of_eq rfl rfl rfl⟩

theorem freeOwn_eq (s : State) (j : Job) : freeOwn s j = { s with counters := (freeOwn s j).counters } := by
  unfold freeOwn; split <;> rfl

theorem getCounter_freeOwn (s : State) (j : Job) (i : Nat) :
    getCounter (freeOwn s j) i = if j.counter = some i then Counter.free else getCounter s i := by
  unfold freeOwn
  split
  · rename_i h; rw [h, if_neg (by simp)]
  · rename_i n h
    rw [h]
    by_cases e : i = n
    · subst e; rw [if_pos rfl, getCounter_setCounter_self]
    · rw [if_neg (by simpa using Ne.symm e), getCounter_setCounter_ne _ e]

/-- What the refusal of a consumed packet leaves (R32). -/
theorem refuseJob_refused (s : State) (id : Nat) (j : Job) (cause : Nat) : PacketRefused s (refuseJob s id j cause) id j cause := by
  refine ⟨setJob (freeOwn s j) id { j with failed := true }, getJob_setJob_self .., fun i h => ?_, fun i => ?_, ?_, ?_, ?_, ?_, ?_,
    haltQueue_halts ..⟩
  · rw [getJob_setJob_ne _ h, freeOwn_eq]; rfl
  · exact getCounter_freeOwn s j i
  all_goals first | (rw [freeOwn_eq]; rfl) | (rw [freeOwn_eq]; exact .of_eq rfl rfl rfl)

/-- What counting one successor down leaves, where it raises no COUNTER (R40). -/
theorem decrement_counts {s : State} {j : Job} {n : Nat} (h : Decrements s j n) :
    decrement s j n = { s with counters := (decrement s j n).counters } ∧
    ∀ i, getCounter (decrement s j n) i = (let c := getCounter s i
      { c with value := c.value - (if n ≠ 0xFFFFFFFF ∧ ctrBase (getPart s j.part) + n = i then 1 else 0 : Nat) }) := by
  unfold decrement
  by_cases hn : n = 0xFFFFFFFF
  · rw [if_pos hn]; exact ⟨rfl, fun i => by simp [hn]⟩
  · rw [if_neg hn]
    obtain h | ⟨h1, h2⟩ := h
    · exact absurd h hn
    · have hc : (counterReady (getCounter s (ctrBase (getPart s j.part) + n)) || (!(getCounter s (ctrBase (getPart s j.part) + n)).armed
          && decide ((getCounter s (ctrBase (getPart s j.part) + n)).value ≤ -65535))) = false := by
        unfold counterReady
        cases hb : (getCounter s (ctrBase (getPart s j.part) + n)).armed
        · have := h2 hb; simp; omega
        · have := h1 hb; simp [this]
      dsimp only
      rw [hc]
      refine ⟨rfl, fun i => ?_⟩
      by_cases e : ctrBase (getPart s j.part) + n = i
      · subst e
        rw [if_neg (by simp), getCounter_setCounter_self, if_pos ⟨hn, rfl⟩]; rfl
      · rw [if_neg (by simp), getCounter_setCounter_ne _ (Ne.symm e), if_neg (fun x => e x.2)]; simp

/-- What completion leaves (R17, R40, R41). -/
theorem finishJob_completes {s : State} {id : Nat} {j : Job} (hs : SuccessorsCount s j)
    (hx : ∀ x, getCtx s j.asid = some x → x.destroying = false) :
    PacketCompletes s (finishJob s id j) id j ∧ (finishJob s id j).queues = s.queues := by
  let s1 := setJob (freeOwn s j) id { j with completed := true }
  have e1 : s1 = { s with counters := s1.counters, jobs := put s.jobs id { j with completed := true } } := by
    simp only [s1]; rw [freeOwn_eq]; rfl
  have hcnt : ∀ i, getCounter s1 i = if j.counter = some i then Counter.free else getCounter s i := fun i => getCounter_freeOwn s j i
  have hpart : ∀ p, getPart s1 p = getPart s p := fun p => by rw [e1]; rfl
  let s2 := if pkType j.words = 1 || pkType j.words = 2 then decrement (decrement s1 j (pw j.words 18)) j (pw j.words 19) else s1
  have h2 : s2 = { s1 with counters := s2.counters } ∧ ∀ i, getCounter s2 i = (let c := getCounter s1 i
      { c with value := c.value - successors s j i }) := by
    simp only [s2, successors]
    by_cases ht : pkType j.words = 1 ∨ pkType j.words = 2
    · rw [if_pos (by simpa using ht)]
      obtain ⟨d1, d2, hne, hown⟩ := hs ht
      have d1' : Decrements s1 j (pw j.words 18) := by
        obtain h | h := d1
        · exact .inl h
        · by_cases hf : pw j.words 18 = 0xFFFFFFFF
          · exact .inl hf
          · right; rw [hcnt, hpart, if_neg (hown _ (.inl rfl) hf)]; exact h
      obtain ⟨f1, g1⟩ := decrement_counts d1'
      have hp1 : ∀ p, getPart (decrement s1 j (pw j.words 18)) p = getPart s p := fun p => by rw [f1]; exact hpart p
      have d2' : Decrements (decrement s1 j (pw j.words 18)) j (pw j.words 19) := by
        by_cases hf : pw j.words 19 = 0xFFFFFFFF
        · exact .inl hf
        · obtain h | h := d2
          · exact .inl h
          · right
            rw [hp1, g1, hcnt, if_neg (hown _ (.inr rfl) hf), hpart, if_neg]
            · simpa using h
            · rintro ⟨a, b⟩
              have : pw j.words 18 = pw j.words 19 := by omega
              exact a (hne this)
      obtain ⟨f2, g2⟩ := decrement_counts d2'
      refine ⟨by rw [f2, f1], fun i => ?_⟩
      rw [g2, g1, hp1, hpart, if_pos ht]
      dsimp only
      congr 1
      by_cases a : pw j.words 18 ≠ 0xFFFFFFFF ∧ ctrBase (getPart s j.part) + pw j.words 18 = i <;>
        by_cases b : pw j.words 19 ≠ 0xFFFFFFFF ∧ ctrBase (getPart s j.part) + pw j.words 19 = i <;>
        simp [a, b] <;> omega
    · rw [if_neg (by simpa using ht)]
      refine ⟨rfl, fun i => by rw [if_neg ht]; simp⟩
  have hjobs : s2.jobs = put s.jobs id { j with completed := true } := by rw [h2.1, e1]
  have hblk : s2.blocks = s.blocks ∧ s2.waitingBlocks = s.waitingBlocks := by rw [h2.1, e1]; exact ⟨rfl, rfl⟩
  have hheld : jobHeld s2 id = jobHeld s id := by unfold jobHeld; rw [hblk.1, hblk.2]
  have hget : getJob s2 id = some { j with completed := true } := by unfold getJob; rw [hjobs, find?_put_self]
  let s3 := retireJob s2 id
  have h3 : s3 = { s2 with jobs := if jobHeld s id then put s.jobs id { j with completed := true } else del (put s.jobs id { j with completed := true }) id } := by
    simp only [s3]; unfold retireJob
    rw [hget, hheld]
    dsimp only
    by_cases hh : jobHeld s id = true
    · simp only [hh, Bool.not_true, Bool.and_false, Bool.false_eq_true, if_false, if_true]; rw [← hjobs]
    · rw [Bool.not_eq_true] at hh; simp only [hh, Bool.not_false, Bool.and_true, Bool.false_eq_true, if_false, if_true]; rw [hjobs]
  have hctx : ∀ a, getCtx s3 a = getCtx s a := fun a => by rw [h3]; show find? s2.contexts _ = _; rw [h2.1, e1]; rfl
  have hfin : finishJob s id j = s3 := by
    show dropClosed s3 j.asid = s3
    unfold dropClosed
    rw [hctx]
    split
    · rfl
    · rename_i x hxx; rw [if_neg (by simp [hx x hxx])]
  rw [hfin]
  refine ⟨⟨?_, fun i hi => ?_, fun i => ?_, ?_, ?_, ?_, ?_, ?_, ?_⟩, ?_⟩
  · rw [h3]; show find? (if _ then _ else _) _ = _
    split
    · exact find?_put_self ..
    · exact find?_del_self ..
  · rw [h3]; show find? (if _ then _ else _) _ = _
    split
    · exact find?_put_ne _ _ hi
    · rw [find?_del_ne _ hi]; exact find?_put_ne _ _ hi
  · rw [h3]; exact (h2.2 i).trans (by rw [hcnt])
  all_goals rw [h3, h2.1, e1]

end Sys2Proof.Machine
end

