-- ==== Sys2Proof/Laws/Homes.lean ====
section
/-!
SUPPORT. Laws of homes: what performing bytes at a home leaves, where no member of the redundancy is lost.
-/

namespace Sys2Proof.Machine

theorem nodrain {s : State} {m} (h : (getCore s m).stores = []) (p) : drainStores s m p = setCore s m { getCore s m with stores := [] } := by
  unfold drainStores; simp [h]
theorem csetAll_run (m : Cells Byte) (pa : Nat) (bs : List Byte) (a : Nat) : cget 0#8 (csetAll 0#8 m (bs.zipIdx.map (fun e => (pa + e.2, e.1)))) a = if pa ≤ a ∧ a < pa + bs.length then bs.getD (a - pa) 0#8 else cget 0#8 m a := by
  have : ∀ (bs : List Byte) (i : Nat) (m : Cells Byte), csetAll 0#8 m ((bs.zipIdx i).map (fun e => (pa + e.2, e.1))) = csetRun 0#8 m (pa + i) bs := by
    intro bs
    induction bs with
    | nil => intro i m; rfl
    | cons b t ih => intro i m; simp only [List.zipIdx_cons, List.map_cons, csetAll, csetRun, ih]; rfl
  rw [this bs 0 m, cget_csetRun, Nat.add_zero]
  by_cases h : pa ≤ a ∧ a - pa < bs.length
  · rw [dif_pos h, if_pos ⟨h.1, by omega⟩]
    rw [List.getD_eq_getElem?_getD, List.getElem?_eq_getElem h.2]; rfl
  · rw [dif_neg h, if_neg (by omega)]
theorem back_good {t : State} {pa} (ht : allGood t = true) : allGood (backInvalidate t pa) = true ∧ (backInvalidate t pa).dev = t.dev ∧ (backInvalidate t pa).hostMem = t.hostMem := by
      unfold backInvalidate
      split
      · exact ⟨ht, rfl, rfl⟩
      · exact ⟨ht, rfl, rfl⟩
theorem perform_stored {s : State} (hg : allGood s = true) (h : Home) (hf : ∀ f r w, h ≠ .fabric f r w) (bs : List Byte) :
   StoredAt s (performAt s (homeSector h) (bs.zipIdx.map (fun e => (homeOffset h + e.2, e.1)))) h bs := by
  cases h with
  | fabric f r w => exact absurd rfl (hf _ _ _)
  | host pa =>
    have e : (bs.zipIdx.map (fun e => (pa % 32 + e.2, e.1))).map (fun c => (pa / 32 * 32 + c.1, c.2)) = bs.zipIdx.map (fun e => (pa + e.2, e.1)) := by
      rw [List.map_map]; refine List.map_congr_left (fun x _ => ?_); simp only [Function.comp]; congr 1; omega
    refine ⟨fun a => ?_, fun a => rfl⟩
    show cget 0#8 (csetAll 0#8 s.hostMem ((bs.zipIdx.map (fun e => (pa % 32 + e.2, e.1))).map (fun c => (pa / 32 * 32 + c.1, c.2)))) a = _
    rw [e, csetAll_run]
  | dev pa =>
    have e : (bs.zipIdx.map (fun e => (pa % 32 + e.2, e.1))).map (fun c => (pa / 32 * 32 + c.1, c.2)) = bs.zipIdx.map (fun e => (pa + e.2, e.1)) := by
      rw [List.map_map]; refine List.map_congr_left (fun x _ => ?_); simp only [Function.comp]; congr 1; omega
    have hb := back_good (pa := pa / 32 * 32) hg
    have hperf : performAt s (homeSector (.dev pa)) (bs.zipIdx.map (fun e => (homeOffset (.dev pa) + e.2, e.1))) = invalidateHomeDie (writeSector (backInvalidate s (pa / 32 * 32)) (pa / 32 * 32) (bs.zipIdx.map (fun e => (pa % 32 + e.2, e.1)))) (pa / 32 * 32) := by
      show performDev s _ _ = _
      unfold performDev performHome oldTouch
      rw [if_pos hb.1]
      unfold writeTouch
      rw [if_pos hb.1]
      rfl
    rw [hperf]
    refine ⟨fun a => ?_, fun a => ?_⟩
    · show cget 0#8 (csetAll 0#8 (backInvalidate s (pa / 32 * 32)).dev _) a = _
      rw [e, csetAll_run, hb.2.1]
    · show cget 0#8 (backInvalidate s (pa / 32 * 32)).hostMem a = _
      rw [hb.2.2]
theorem nat_lt (bs : List Byte) : natOfBytes bs < 256 ^ bs.length := by
  induction bs with
  | nil => simp [natOfBytes]
  | cons b t ih =>
    have := b.isLt
    simp only [natOfBytes, List.length_cons, Nat.pow_succ]
    omega
theorem run_len (d : Byte) (m : Cells Byte) (k n : Nat) : (cgetRun d m k n).length = n := by
  induction n generalizing k with
  | zero => rfl
  | succ n ih => simp [cgetRun, ih]

theorem markPoison_onlyMemory (s : State) (h : Home) : OnlyMemory s (markPoison s h) := by
  unfold markPoison; cases h <;> rfl

theorem wholeTouch_onlyMemory (s : State) (pa : Nat) : OnlyMemory s (wholeTouch s pa) :=
  (HomeOnly.ite (.refl s) ((writeTouch_homeOnly ..).trans (encodeSpan_homeOnly ..))).onlyMemory

theorem performRow_onlyMemory (s : State) (asid : BitVec 16) (l : List (Home × Assoc Byte)) :
    OnlyMemory s (performRow s asid l) := by
  refine .foldl (fun s g => ?_) l s
  split
  · rename_i pa _
    refine .ite (performBy_onlyMemory ..) ?_
    have h1 : OnlyMemory s (l2Write s asid g.1 g.2 0) := (l2Write_homeOnly ..).onlyMemory
    generalize l2Write s asid g.1 g.2 0 = x at h1
    have h2 : OnlyMemory s (backInvalidate x pa) := h1.trans (.ite .set (.refl _))
    exact (h2.trans (wholeTouch_onlyMemory ..)).trans .set
  · exact performBy_onlyMemory ..

theorem putGlobal_onlyMemory (s : State) (asid : BitVec 16) (cells : List (Home × Poi Byte)) :
    OnlyMemory s (putGlobal s asid cells) := by
  unfold putGlobal
  refine .trans (performRow_onlyMemory ..) (.foldl (fun s h => ?_) _ _)
  split
  · exact .refl _
  · exact markPoison_onlyMemory ..

end Sys2Proof.Machine
end

