-- ==== Sys2Proof/Laws/Memory.lean ====
section
/-!
SUPPORT. The memory operations keep the canonical form of every memory.
-/

namespace Sys2Proof.Machine

/-! ### The canonical form, part by part -/

theorem memWf_parts {s : State} (h : s.memWf = true) :
    cellsWf 0#8 s.dev = true ∧ cellsWf false s.devPoison = true ∧ cellsWf 0#8 s.hostMem = true ∧
    cellsWf false s.hostPoison = true ∧ (∀ e ∈ s.blocks, blockMemWf e.2 = true) ∧ ∀ e ∈ s.cores, coreMemWf e.2 = true := by
  simpa [State.memWf, Memory.wf, and_assoc] using h

theorem memWf_of_parts {s : State} (h1 : cellsWf 0#8 s.dev = true) (h2 : cellsWf false s.devPoison = true)
    (h3 : cellsWf 0#8 s.hostMem = true) (h4 : cellsWf false s.hostPoison = true)
    (h5 : ∀ e ∈ s.blocks, blockMemWf e.2 = true) (h6 : ∀ e ∈ s.cores, coreMemWf e.2 = true) : s.memWf = true := by
  simp only [State.memWf, Memory.wf, Bool.and_eq_true, List.all_eq_true]
  exact ⟨⟨⟨⟨⟨h1, h2⟩, h3⟩, h4⟩, h5⟩, h6⟩

/-- The form says nothing of the other fields. -/
theorem memWf_mk {s : State}
    {now frac agenda turn fresh nextId issue courses commands waitingBlocks clusters rails
    contexts entries queues jobs counters partitions hostHeld powered phase powerGoodAt temps
    railmap memctl stretchCount mbstat mailbox staged imageSlots runSlot bootSlot rollback
    images coldStarts modules bond health pcDead bankDead stale retired symbols skew unbond repairsUsed remotes l2 traffic offNs repair
    chanCounts nvsCounts passCe passBad trained trainTemp retraining dueNow rebuild scrubAt
    scrubPass lanes recovering out nextInterval nextWindow nextPoll nextWatchdog nextFlush
    scrubFrom}
    (hwf : s.memWf = true) : State.memWf {
      now := now, frac := frac, agenda := agenda, turn := turn, fresh := fresh, nextId := nextId, issue := issue,
      courses := courses, blocks := s.blocks, commands := commands, waitingBlocks := waitingBlocks,
      cores := s.cores, clusters := clusters, rails := rails, contexts := contexts, entries := entries,
      queues := queues, jobs := jobs, counters := counters, partitions := partitions, dev := s.dev,
      devPoison := s.devPoison, hostMem := s.hostMem, hostPoison := s.hostPoison, hostHeld := hostHeld,
      powered := powered, phase := phase, powerGoodAt := powerGoodAt, temps := temps, railmap := railmap,
      memctl := memctl, stretchCount := stretchCount, mbstat := mbstat, mailbox := mailbox, staged := staged,
      imageSlots := imageSlots, runSlot := runSlot, bootSlot := bootSlot, rollback := rollback, images := images,
      coldStarts := coldStarts, modules := modules, bond := bond, health := health, pcDead := pcDead,
      bankDead := bankDead, stale := stale, retired := retired, symbols := symbols, skew := skew, unbond := unbond, repairsUsed := repairsUsed, 
      remotes := remotes, l2 := l2, traffic := traffic, offNs := offNs, repair := repair,
      chanCounts := chanCounts, nvsCounts := nvsCounts, passCe := passCe, passBad := passBad, trained := trained,
      trainTemp := trainTemp, retraining := retraining, dueNow := dueNow, rebuild := rebuild, scrubAt := scrubAt,
      scrubPass := scrubPass, lanes := lanes, recovering := recovering, out := out, nextInterval := nextInterval,
      nextWindow := nextWindow, nextPoll := nextPoll, nextWatchdog := nextWatchdog, nextFlush := nextFlush,
      scrubFrom := scrubFrom } = true := hwf

theorem foldl_memWf {α : Type} {f : State → α → State} {l : List α} {s : State} (hwf : s.memWf = true)
    (hf : ∀ s a, s.memWf = true → (f s a).memWf = true) : (l.foldl f s).memWf = true := by
  induction l generalizing s with
  | nil => exact hwf
  | cons a t ih => exact ih (hf s a hwf)

theorem find?_mem {α : Type} {m : Assoc α} {k : Nat} {v : α} (h : find? m k = some v) : (k, v) ∈ m := by
  induction m with
  | nil => simp [find?] at h
  | cons e t ih =>
    obtain ⟨a, w⟩ := e
    by_cases hk : a = k
    · simp [find?, hk] at h; simp [hk, h]
    · rw [find?, if_neg hk] at h; exact List.mem_cons_of_mem _ (ih h)

/-- A resident block's local store is in canonical form. -/
theorem getBlock_memWf {s : State} {i : Nat} {b : Block} (hwf : s.memWf = true) (h : getBlock s i = some b) :
    blockMemWf b = true := (memWf_parts hwf).2.2.2.2.1 _ (find?_mem h)

/-- What a block left on a core is in canonical form. -/
theorem getCore_memWf {s : State} (m : Nat) (hwf : s.memWf = true) : coreMemWf (getCore s m) = true := by
  unfold getCore
  cases h : find? s.cores m with
  | none => rfl
  | some c => exact (memWf_parts hwf).2.2.2.2.2 _ (find?_mem h)

theorem snd_memWf {α : Type} {p : α × State} {a : α} {t : State} (h : p = (a, t)) (hp : p.2.memWf = true) :
    t.memWf = true := by subst h; exact hp

theorem snd2_memWf {α β : Type} {p : α × β × State} {a : α} {b : β} {t : State} (h : p = (a, b, t))
    (hp : p.2.2.memWf = true) : t.memWf = true := by subst h; exact hp

theorem setDev_memWf {s : State} {m : Cells Byte} {q : Cells Bool} (hwf : s.memWf = true) (h1 : cellsWf 0#8 m = true)
    (h2 : cellsWf false q = true) : State.memWf { s with dev := m, devPoison := q } = true :=
  memWf_of_parts h1 h2 (memWf_parts hwf).2.2.1 (memWf_parts hwf).2.2.2.1 (memWf_parts hwf).2.2.2.2.1
    (memWf_parts hwf).2.2.2.2.2

/-- Blocks changed elsewhere than in their local stores, or dropped, keep the form. -/
theorem setBlocks_memWf {s : State} {l : Assoc Block} (hwf : s.memWf = true) (hl : ∀ e ∈ l, blockMemWf e.2 = true) :
    State.memWf { s with blocks := l } = true := by
  obtain ⟨h1, h2, h3, h4, h5, h6⟩ := memWf_parts hwf
  exact memWf_of_parts h1 h2 h3 h4 hl h6

theorem mapBlocks_memWf {s : State} {f : Nat × Block → Nat × Block} (hwf : s.memWf = true)
    (hf : ∀ e, blockMemWf e.2 = true → blockMemWf (f e).2 = true) : State.memWf { s with blocks := s.blocks.map f } = true :=
  setBlocks_memWf hwf (fun e he => by
    obtain ⟨x, hx, rfl⟩ := List.mem_map.1 he
    exact hf x ((memWf_parts hwf).2.2.2.2.1 x hx))

theorem mendSector_memWf (s : State) (c slot q : Nat)  (hwf : s.memWf = true) :
    (mendSector s c slot q).memWf = true := by
  unfold mendSector
  repeat' first
    | with_reducible assumption | intro _ | split | dsimp only | fail_if_no_progress with_reducible refine memWf_mk ?_

theorem countChan_memWf (s : State) (c : Nat) (f : ChanCount → ChanCount)  (hwf : s.memWf = true) :
    (countChan s c f).memWf = true := by
  unfold countChan
  repeat' first
    | with_reducible assumption | intro _ | split | dsimp only | fail_if_no_progress with_reducible refine memWf_mk ?_

theorem appendRepair_memWf (s : State) (c slot reason pc : Nat)  (hwf : s.memWf = true) :
    (appendRepair s c slot reason pc).memWf = true := by
  unfold appendRepair
  repeat' first
    | with_reducible assumption | with_reducible apply countChan_memWf | intro _ | split | dsimp only
    | fail_if_no_progress with_reducible refine memWf_mk ?_

theorem retireSlot_memWf (s : State) (c slot reason : Nat) (pcs : List Nat)  (hwf : s.memWf = true) :
    (retireSlot s c slot reason pcs).memWf = true := by
  unfold retireSlot
  repeat' first
    | with_reducible assumption | with_reducible apply countChan_memWf | with_reducible apply appendRepair_memWf
    | with_reducible apply foldl_memWf | intro _ | split | dsimp only
    | fail_if_no_progress with_reducible refine memWf_mk ?_

theorem countCe_memWf (s : State) (c slot q n : Nat)  (hwf : s.memWf = true) :
    (countCe s c slot q n).memWf = true := by
  unfold countCe
  repeat' first
    | with_reducible assumption | with_reducible apply countChan_memWf | with_reducible apply retireSlot_memWf
    | intro _ | split | dsimp only | fail_if_no_progress with_reducible refine memWf_mk ?_

theorem countBad_memWf (s : State) (c slot q : Nat)  (hwf : s.memWf = true) :
    (countBad s c slot q).memWf = true := by
  unfold countBad
  repeat' first
    | with_reducible assumption | with_reducible apply countChan_memWf | with_reducible apply retireSlot_memWf
    | intro _ | split | dsimp only | fail_if_no_progress with_reducible refine memWf_mk ?_

theorem poisonSector_memWf (s : State) (pa : Nat)  (hwf : s.memWf = true) :
    (poisonSector s pa).memWf = true := by
  unfold poisonSector
  exact setDev_memWf hwf (cellsWf_csetRun _ _ (memWf_parts hwf).1) (cellsWf_cset _ _ (memWf_parts hwf).2.1)

theorem setSkew_memWf (s : State) (u p q : Nat) (l : List Byte)  (hwf : s.memWf = true) :
    (setSkew s u p q l).memWf = true := by
  unfold setSkew
  repeat' first
    | with_reducible assumption | intro _ | split | dsimp only | fail_if_no_progress with_reducible refine memWf_mk ?_

theorem flipSector_memWf (s : State) (u d q : Nat) (e : List Byte)  (hwf : s.memWf = true) :
    (flipSector s u d q e).memWf = true := by
  unfold flipSector
  exact setDev_memWf hwf (cellsWf_csetRun _ _ (memWf_parts hwf).1) (cellsWf_cset _ _ (memWf_parts hwf).2.1)

theorem slipMember_memWf (s : State) (u p q : Nat) (e : List Byte)  (hwf : s.memWf = true) :
    (slipMember s u p q e).memWf = true := by
  unfold slipMember
  repeat' first
    | with_reducible assumption | with_reducible apply setSkew_memWf | with_reducible apply flipSector_memWf | intro _
    | split

theorem decodeMember_memWf (s : State) (u d q : Nat)  (hwf : s.memWf = true) :
    (decodeMember s u d q).memWf = true := by
  unfold decodeMember
  repeat' first
    | with_reducible assumption | with_reducible apply slipMember_memWf | intro _ | split

theorem writeChecks_memWf (s : State) (u q : Nat)  (hwf : s.memWf = true) :
    (writeChecks s u q).memWf = true := by
  unfold writeChecks
  repeat' first
    | with_reducible assumption | with_reducible apply mendSector_memWf | with_reducible apply foldl_memWf | intro _
    | split

theorem encodeSpan_memWf (s : State) (u q : Nat)  (hwf : s.memWf = true) :
    (encodeSpan s u q).memWf = true := by
  unfold encodeSpan
  repeat' first
    | with_reducible assumption | with_reducible apply setSkew_memWf | with_reducible apply writeChecks_memWf
    | with_reducible apply foldl_memWf | intro _

theorem poisonSpan_memWf (s : State) (u q : Nat) (all : Bool)  (hwf : s.memWf = true) :
    (poisonSpan s u q all).memWf = true := by
  unfold poisonSpan
  repeat' first
    | with_reducible assumption | with_reducible apply mendSector_memWf | with_reducible apply countChan_memWf
    | with_reducible apply poisonSector_memWf | with_reducible apply encodeSpan_memWf
    | with_reducible apply foldl_memWf | intro _ | split

theorem readSectorCode_memWf (s : State) (u p q : Nat)  (hwf : s.memWf = true) :
    (readSectorCode s u p q).memWf = true := by
  unfold readSectorCode
  repeat' first
    | with_reducible assumption | with_reducible apply countCe_memWf | with_reducible apply slipMember_memWf | intro _
    | split | dsimp only | fail_if_no_progress with_reducible refine memWf_mk ?_

theorem readMember_memWf (s : State) (u p q : Nat)  (hwf : s.memWf = true) :
    (readMember s u p q).memWf = true := by
  unfold readMember
  repeat' first
    | with_reducible assumption | with_reducible apply mendSector_memWf | with_reducible apply countBad_memWf
    | with_reducible apply decodeMember_memWf | with_reducible apply poisonSpan_memWf
    | with_reducible apply readSectorCode_memWf | intro _ | split | dsimp only

theorem readTouch_memWf (s : State) (pa : Nat)  (hwf : s.memWf = true) :
    (readTouch s pa).memWf = true := by
  unfold readTouch
  repeat' first
    | with_reducible assumption | with_reducible apply readMember_memWf | intro _ | split

theorem oldTouch_memWf (s : State) (pa : Nat)  (hwf : s.memWf = true) :
    (oldTouch s pa).memWf = true := by
  unfold oldTouch
  repeat' first
    | with_reducible assumption | with_reducible apply decodeMember_memWf | with_reducible apply poisonSpan_memWf
    | with_reducible apply readSectorCode_memWf | intro _ | split | dsimp only

theorem writeTarget_memWf (s : State) (u i q : Nat)  (hwf : s.memWf = true) :
    (writeTarget s u i q).memWf = true := by
  unfold writeTarget
  repeat' first
    | with_reducible assumption | with_reducible apply mendSector_memWf | intro _ | split

theorem writeTouch_memWf (s : State) (pa : Nat)  (hwf : s.memWf = true) :
    (writeTouch s pa).memWf = true := by
  unfold writeTouch
  repeat' first
    | with_reducible assumption | with_reducible apply mendSector_memWf | with_reducible apply writeChecks_memWf
    | with_reducible apply writeTarget_memWf | intro _ | split | dsimp only
    | fail_if_no_progress with_reducible refine memWf_mk ?_

theorem wholeTouch_memWf (s : State) (pa : Nat)  (hwf : s.memWf = true) :
    (wholeTouch s pa).memWf = true := by
  unfold wholeTouch
  repeat' first
    | with_reducible assumption | with_reducible apply encodeSpan_memWf | with_reducible apply writeTouch_memWf
    | intro _ | split

theorem setCourse_memWf (s : State) (blk c : Nat) (k : Course)  (hwf : s.memWf = true) :
    (setCourse s blk c k).memWf = true := by
  unfold setCourse
  repeat' first
    | with_reducible assumption | intro _ | split | dsimp only | fail_if_no_progress with_reducible refine memWf_mk ?_

theorem setBlock_memWf {s : State} {b : Nat} {k : Block} (hwf : s.memWf = true) (hk : blockMemWf k = true) :
    (setBlock s b k).memWf = true := by
  obtain ⟨h1, h2, h3, h4, h5, h6⟩ := memWf_parts hwf
  refine memWf_of_parts h1 h2 h3 h4 (fun e he => ?_) h6
  rcases mem_put he with rfl | he
  · exact hk
  · exact h5 e he


theorem setCore_memWf {s : State} {m : Nat} {k : Core} (hwf : s.memWf = true) (hk : coreMemWf k = true) :
    (setCore s m k).memWf = true := by
  obtain ⟨h1, h2, h3, h4, h5, h6⟩ := memWf_parts hwf
  refine memWf_of_parts h1 h2 h3 h4 h5 (fun e he => ?_)
  rcases mem_put he with rfl | he
  · exact hk
  · exact h6 e he


theorem setCluster_memWf (s : State) (k : Nat) (c : Cluster)  (hwf : s.memWf = true) :
    (setCluster s k c).memWf = true := by
  unfold setCluster
  repeat' first
    | with_reducible assumption | intro _ | split | dsimp only | fail_if_no_progress with_reducible refine memWf_mk ?_

theorem setPart_memWf (s : State) (p : BitVec 3) (k : Partition)  (hwf : s.memWf = true) :
    (setPart s p k).memWf = true := by
  unfold setPart
  repeat' first
    | with_reducible assumption | intro _ | split | dsimp only | fail_if_no_progress with_reducible refine memWf_mk ?_

theorem setCtx_memWf (s : State) (a : BitVec 16) (k : Context)  (hwf : s.memWf = true) :
    (setCtx s a k).memWf = true := by
  unfold setCtx
  repeat' first
    | with_reducible assumption | intro _ | split | dsimp only | fail_if_no_progress with_reducible refine memWf_mk ?_

theorem setCmd_memWf (s : State) (i : Nat) (k : Command)  (hwf : s.memWf = true) :
    (setCmd s i k).memWf = true := by
  unfold setCmd
  repeat' first
    | with_reducible assumption | intro _ | split | dsimp only | fail_if_no_progress with_reducible refine memWf_mk ?_

theorem setJob_memWf (s : State) (i : Nat) (k : Job)  (hwf : s.memWf = true) :
    (setJob s i k).memWf = true := by
  unfold setJob
  repeat' first
    | with_reducible assumption | intro _ | split | dsimp only | fail_if_no_progress with_reducible refine memWf_mk ?_

theorem draw_memWf (s : State)  (hwf : s.memWf = true) :
    (draw s).2.memWf = true := by
  unfold draw
  repeat' first
    | with_reducible assumption | intro _ | split | dsimp only | fail_if_no_progress with_reducible refine memWf_mk ?_

theorem newId_memWf (s : State)  (hwf : s.memWf = true) :
    (newId s).2.memWf = true := by
  unfold newId
  repeat' first
    | with_reducible assumption | intro _ | split | dsimp only | fail_if_no_progress with_reducible refine memWf_mk ?_

theorem addTraffic_memWf (s : State) (asid : BitVec 16) (f : Traffic → Traffic)  (hwf : s.memWf = true) :
    (addTraffic s asid f).memWf = true := by
  unfold addTraffic
  repeat' first
    | with_reducible assumption | intro _ | split | dsimp only | fail_if_no_progress with_reducible refine memWf_mk ?_

theorem addReads_memWf (s : State) (asid : BitVec 16) (h : Home) (n : Nat)  (hwf : s.memWf = true) :
    (addReads s asid h n).memWf = true := by
  unfold addReads
  repeat' first
    | with_reducible assumption | with_reducible apply addTraffic_memWf | intro _ | split

theorem addWrites_memWf (s : State) (asid : BitVec 16) (h : Home) (n : Nat)  (hwf : s.memWf = true) :
    (addWrites s asid h n).memWf = true := by
  unfold addWrites
  repeat' first
    | with_reducible assumption | with_reducible apply addTraffic_memWf | intro _ | split

theorem writeBack_memWf (s : State) (x : L2Line)  (hwf : s.memWf = true) :
    (writeBack s x).memWf = true := by
  unfold writeBack
  repeat' first
    | with_reducible assumption | with_reducible apply addTraffic_memWf | with_reducible apply addWrites_memWf
    | with_reducible apply foldl_memWf | intro _ | split

theorem l2Room_memWf (s : State) (l : List L2Line) (p : BitVec 3)  (hwf : s.memWf = true) :
    (l2Room s l p).2.memWf = true := by
  unfold l2Room
  repeat' first
    | with_reducible assumption | with_reducible apply writeBack_memWf | intro _ | split

theorem l2Access_memWf (s : State) (asid : BitVec 16) (h : Home) (need written : BitVec 4) (keep : Nat)  (hwf : s.memWf = true) :
    (l2Access s asid h need written keep).memWf = true := by
  unfold l2Access
  repeat' first
    | with_reducible assumption | refine snd_memWf (by assumption) ?_ | with_reducible apply addTraffic_memWf
    | with_reducible apply addReads_memWf | with_reducible apply addWrites_memWf | with_reducible apply l2Room_memWf
    | intro _ | split | dsimp only | fail_if_no_progress with_reducible refine memWf_mk ?_

theorem l2Range_memWf (s : State) (asid : BitVec 16) (h : Home) (n : Nat) (write : Bool)  (hwf : s.memWf = true) :
    (l2Range s asid h n write).memWf = true := by
  unfold l2Range
  repeat' first
    | with_reducible assumption | with_reducible apply l2Access_memWf | with_reducible apply foldl_memWf | intro _
    | split

theorem l2Write_memWf (s : State) (asid : BitVec 16) (h : Home) (cells : List (Nat × Byte)) (keep : Nat)  (hwf : s.memWf = true) :
    (l2Write s asid h cells keep).memWf = true := by
  unfold l2Write
  repeat' first
    | with_reducible assumption | with_reducible apply l2Access_memWf | intro _ | split

theorem dropL2_memWf (s : State) (p : L2Line → Bool)  (hwf : s.memWf = true) :
    (dropL2 s p).memWf = true := by
  unfold dropL2
  repeat' first
    | with_reducible assumption | intro _ | split | dsimp only | fail_if_no_progress with_reducible refine memWf_mk ?_

theorem dropLines_memWf (s : State) (q : Nat → Bool) (p : L1Line → Bool)  (hwf : s.memWf = true) :
    (dropLines s q p).memWf = true := by
  obtain ⟨h1, h2, h3, h4, h5, h6⟩ := memWf_parts hwf
  refine memWf_of_parts h1 h2 h3 h4 h5 (fun e he => ?_)
  obtain ⟨x, hx, rfl⟩ := List.mem_map.1 he
  have := h6 x hx
  split <;> exact this

theorem invalidateHomeDie_memWf (s : State) (pa : Nat)  (hwf : s.memWf = true) :
    (invalidateHomeDie s pa).memWf = true := by
  unfold invalidateHomeDie
  repeat' first
    | with_reducible assumption | with_reducible apply dropLines_memWf

theorem backInvalidate_memWf (s : State) (pa : Nat)  (hwf : s.memWf = true) :
    (backInvalidate s pa).memWf = true := by
  unfold backInvalidate
  repeat' first
    | with_reducible assumption | intro _ | split | dsimp only | fail_if_no_progress with_reducible refine memWf_mk ?_

theorem writeSector_memWf (s : State) (base : Nat) (cells : List (Nat × Byte))  (hwf : s.memWf = true) :
    (writeSector s base cells).memWf = true := by
  obtain ⟨h1, h2, h3, h4, h5, h6⟩ := memWf_parts hwf
  refine memWf_of_parts (cellsWf_csetAll _ h1) ?_ h3 h4 h5 h6
  simp only [writeSector]
  split
  · exact cellsWf_cset _ _ h2
  · exact h2

theorem performHome_memWf (s : State) (base : Nat) (cells : List (Nat × Byte))  (hwf : s.memWf = true) :
    (performHome s base cells).memWf = true := by
  unfold performHome
  repeat' first
    | with_reducible assumption | with_reducible apply oldTouch_memWf | with_reducible apply writeTouch_memWf
    | with_reducible apply invalidateHomeDie_memWf | with_reducible apply writeSector_memWf

theorem performDev_memWf (s : State) (base : Nat) (cells : List (Nat × Byte))  (hwf : s.memWf = true) :
    (performDev s base cells).memWf = true := by
  unfold performDev
  repeat' first
    | with_reducible assumption | with_reducible apply backInvalidate_memWf | with_reducible apply performHome_memWf

theorem performHost_memWf (s : State) (base : Nat) (cells : List (Nat × Byte))  (hwf : s.memWf = true) :
    (performHost s base cells).memWf = true := by
  obtain ⟨h1, h2, h3, h4, h5, h6⟩ := memWf_parts hwf
  exact memWf_of_parts h1 h2 (cellsWf_csetAll _ h3) h4 h5 h6

theorem markPoison_memWf (s : State) (h : Home) (hwf : s.memWf = true) : (markPoison s h).memWf = true := by
  obtain ⟨h1, h2, h3, h4, h5, h6⟩ := memWf_parts hwf
  cases h with
  | dev pa =>
    refine memWf_of_parts h1 ?_ h3 h4 h5 h6
    simp only [markPoison]; exact cellsWf_cset _ _ h2
  | host pa =>
    refine memWf_of_parts h1 h2 h3 ?_ h5 h6
    simp only [markPoison]; exact cellsWf_cset _ _ h4
  | fabric d r va => exact hwf


theorem performAt_memWf (s : State) (h : Home) (cells : List (Nat × Byte))  (hwf : s.memWf = true) :
    (performAt s h cells).memWf = true := by
  unfold performAt
  repeat' first
    | with_reducible assumption | with_reducible apply performDev_memWf | with_reducible apply performHost_memWf
    | intro _ | split

theorem performBy_memWf (s : State) (asid : BitVec 16) (h : Home) (cells : List (Nat × Byte)) (keep : Nat)  (hwf : s.memWf = true) :
    (performBy s asid h cells keep).memWf = true := by
  unfold performBy
  repeat' first
    | with_reducible assumption | with_reducible apply l2Write_memWf | with_reducible apply performAt_memWf

theorem performRow_memWf (s : State) (asid : BitVec 16) (l : List (Home × Assoc Byte))  (hwf : s.memWf = true) :
    (performRow s asid l).memWf = true := by
  unfold performRow
  repeat' first
    | with_reducible assumption | with_reducible apply wholeTouch_memWf | with_reducible apply l2Write_memWf
    | with_reducible apply invalidateHomeDie_memWf | with_reducible apply backInvalidate_memWf
    | with_reducible apply writeSector_memWf | with_reducible apply performBy_memWf | with_reducible apply foldl_memWf
    | intro _ | split

theorem askRemote_memWf (s : State) (own : RemoteOwner) (device rasid va : Nat) (op : RemoteOp) (data : List Byte)  (hwf : s.memWf = true) :
    (askRemote s own device rasid va op data).memWf = true := by
  unfold askRemote
  repeat' first
    | with_reducible assumption | refine snd_memWf (by assumption) ?_ | with_reducible apply newId_memWf | intro _
    | split | dsimp only | fail_if_no_progress with_reducible refine memWf_mk ?_

theorem dropRemotes_memWf (s : State) (p : RemoteOwner → Bool)  (hwf : s.memWf = true) :
    (dropRemotes s p).memWf = true := by
  unfold dropRemotes
  repeat' first
    | with_reducible assumption | intro _ | split | dsimp only | fail_if_no_progress with_reducible refine memWf_mk ?_

theorem performStore_memWf (s : State) (m : Nat) (x : PendingStore)  (hwf : s.memWf = true) :
    (performStore s m x).memWf = true := by
  unfold performStore
  repeat' first
    | with_reducible assumption | with_reducible apply performBy_memWf | with_reducible apply askRemote_memWf
    | with_reducible apply foldl_memWf | intro _ | split

theorem drainStores_memWf (s : State) (m : Nat) (p : PendingStore → Bool)  (hwf : s.memWf = true) :
    (drainStores s m p).memWf = true := by
  unfold drainStores
  repeat' first
    | with_reducible assumption | with_reducible apply setCore_memWf | with_reducible apply performStore_memWf
    | with_reducible apply foldl_memWf | intro _ | split | dsimp only
    | fail_if_no_progress with_reducible refine memWf_mk ?_ | apply getCore_memWf

theorem drainCore_memWf (s : State) (m : Nat)  (hwf : s.memWf = true) :
    (drainCore s m).memWf = true := by
  unfold drainCore
  repeat' first
    | with_reducible assumption | with_reducible apply drainStores_memWf | intro _ | split

theorem acquire_memWf (s : State) (m : Nat) (scope : Scope) (seq : Bool)  (hwf : s.memWf = true) :
    (acquire s m scope seq).memWf = true := by
  unfold acquire
  repeat' first
    | with_reducible assumption | with_reducible apply setCore_memWf | intro _ | split | dsimp only
    | fail_if_no_progress with_reducible refine memWf_mk ?_ | apply getCore_memWf

theorem homeTouch_memWf (s : State) (h : Home)  (hwf : s.memWf = true) :
    (homeTouch s h).memWf = true := by
  unfold homeTouch
  repeat' first
    | with_reducible assumption | with_reducible apply readTouch_memWf | intro _ | split

theorem touchRange_memWf (s : State) (h : Home) (n : Nat)  (hwf : s.memWf = true) :
    (touchRange s h n).memWf = true := by
  unfold touchRange
  repeat' first
    | with_reducible assumption | with_reducible apply readTouch_memWf | with_reducible apply foldl_memWf | intro _
    | split

theorem readHome_memWf (s : State) (h : Home) (n : Nat)  (hwf : s.memWf = true) :
    (readHome s h n).2.2.memWf = true := by
  unfold readHome
  repeat' first
    | with_reducible assumption | with_reducible apply homeTouch_memWf

theorem walkTouch_memWf (s : State) (va : Nat)  (y0 : Nat) (y1 : Bool) (y2 : Nat) (hwf : s.memWf = true) :
    (walkTouch s va y0 y1 y2).memWf = true := by
  have key : ∀ (x : State) (h : Home) (c : Bool) (t : State), x.memWf = true → (x.memWf = true → t.memWf = true) →
      State.memWf (if c = true then x else t) = true := by
    intro x h c t hx ht
    cases c
    · exact ht hx
    · exact hx
  induction y0 generalizing s y1 y2 with
  | zero =>
    unfold walkTouch
    exact key _ (.dev 0) _ _ (homeTouch_memWf s _ hwf) id
  | succ n ih =>
    unfold walkTouch
    exact key _ (.dev 0) _ _ (homeTouch_memWf s _ hwf) (fun h => ih _ _ _ h)

theorem touchWalk_memWf (s : State) (asid : BitVec 16) (va : Nat)  (hwf : s.memWf = true) :
    (touchWalk s asid va).memWf = true := by
  unfold touchWalk
  repeat' first
    | with_reducible assumption | with_reducible apply walkTouch_memWf | intro _ | split

theorem l1Fill_memWf (s : State) (m : Nat) (asid : BitVec 16) (va : Nat) (h : Home) (loose : Bool)  (hwf : s.memWf = true) :
    (l1Fill s m asid va h loose).2.memWf = true := by
  unfold l1Fill
  repeat' first
    | with_reducible assumption | with_reducible apply setCore_memWf | with_reducible apply homeTouch_memWf
    | with_reducible apply foldl_memWf | intro _ | split | dsimp only
    | fail_if_no_progress with_reducible refine memWf_mk ?_ | apply getCore_memWf

theorem loadHome_memWf (s : State) (m : Nat) (asid : BitVec 16) (h : Home) (n keep : Nat)  (hwf : s.memWf = true) :
    (loadHome s m asid h n keep).2.2.memWf = true := by
  unfold loadHome
  repeat' first
    | with_reducible assumption | refine snd_memWf (by assumption) ?_ | refine snd2_memWf (by assumption) ?_
    | with_reducible apply l2Access_memWf | with_reducible apply drainStores_memWf
    | with_reducible apply readHome_memWf

theorem loadL1_memWf (s : State) (m : Nat) (asid : BitVec 16) (va : Nat) (h : Home) (n : Nat) (loose : Bool) (keep : Nat)  (hwf : s.memWf = true) :
    (loadL1 s m asid va h n loose keep).2.2.memWf = true := by
  unfold loadL1
  cases hl : l1Find (getCore s m) asid va with
  | some x => exact hwf
  | none => exact l1Fill_memWf _ _ _ _ _ _ (l2Access_memWf _ _ _ _ _ _ hwf)

theorem loadMem_memWf (s : State) (m : Nat) (asid : BitVec 16) (va : Nat) (h : Home) (f : Leaf) (n : Nat) (poll : Bool) (cache : Nat)  (hwf : s.memWf = true) :
    (loadMem s m asid va h f n poll cache).2.2.memWf = true := by
  unfold loadMem
  repeat' first
    | with_reducible assumption | refine snd_memWf (by assumption) ?_ | refine snd2_memWf (by assumption) ?_
    | with_reducible apply loadHome_memWf | with_reducible apply loadL1_memWf | intro _ | split

theorem pushStore_memWf (s : State) (m blk c : Nat) (keep : Home → Nat) (g : Home × Assoc Byte)  (hwf : s.memWf = true) :
    (pushStore s m blk c keep g).memWf = true := by
  unfold pushStore
  repeat' first
    | with_reducible assumption | refine snd_memWf (by assumption) ?_ | with_reducible apply setCore_memWf
    | with_reducible apply newId_memWf | intro _ | split | dsimp only
    | fail_if_no_progress with_reducible refine memWf_mk ?_ | apply getCore_memWf

theorem storeMem_memWf (s : State) (m blk c : Nat) (keep : Home → Nat) (cells : List (Home × Byte))  (hwf : s.memWf = true) :
    (storeMem s m blk c keep cells).memWf = true := by
  unfold storeMem
  repeat' first
    | with_reducible assumption | with_reducible apply pushStore_memWf | with_reducible apply foldl_memWf | intro _

theorem atomicAt_memWf (s : State) (m : Nat) (asid : BitVec 16) (h : Home) (n : Nat) (f : Nat → Option Nat)  (hwf : s.memWf = true) :
    (atomicAt s m asid h n f).2.memWf = true := by
  unfold atomicAt
  repeat' first
    | with_reducible assumption | with_reducible apply setCore_memWf | with_reducible apply l2Access_memWf
    | with_reducible apply performBy_memWf | with_reducible apply drainStores_memWf
    | with_reducible apply homeTouch_memWf | intro _ | split | dsimp only
    | fail_if_no_progress with_reducible refine memWf_mk ?_ | apply getCore_memWf

theorem hubSpans_memWf (s : State) (asid : BitVec 16) (va n : Nat)  (hwf : s.memWf = true) :
    (hubSpans s asid va n).memWf = true := by
  unfold hubSpans
  repeat' first
    | with_reducible assumption | with_reducible apply touchRange_memWf | with_reducible apply touchWalk_memWf
    | intro _ | split | dsimp only

theorem hubTouch_memWf (s : State) (asid : BitVec 16) (va n : Nat)  (hwf : s.memWf = true) :
    (hubTouch s asid va n).memWf = true := by
  unfold hubTouch
  repeat' first
    | with_reducible assumption | with_reducible apply l2Range_memWf | with_reducible apply hubSpans_memWf | intro _
    | split | dsimp only

theorem writeHome_memWf (s : State) (asid : BitVec 16) (h : Home) (bs : List Byte)  (hwf : s.memWf = true) :
    (writeHome s asid h bs).memWf = true := by
  unfold writeHome
  repeat' first
    | with_reducible assumption | with_reducible apply performBy_memWf | with_reducible apply foldl_memWf | intro _

theorem hubWrite_memWf (s : State) (asid : BitVec 16) (va : Nat) (bs : List Byte)  (hwf : s.memWf = true) :
    (hubWrite s asid va bs).memWf = true := by
  unfold hubWrite
  repeat' first
    | with_reducible assumption | with_reducible apply performBy_memWf | with_reducible apply foldl_memWf | intro _

end Sys2Proof.Machine
end

