-- ==== Sys2Proof/Laws/MemOps.lean ====
section
/-!
SUPPORT. Registers, the divergence stack and taking a fault keep the canonical form of every memory.
-/

namespace Sys2Proof.Machine

theorem updCourse_memWf (s : State) (blk c : Nat) (f : Course → Course)  (hwf : s.memWf = true) :
    (updCourse s blk c f).memWf = true := by
  unfold updCourse
  repeat' first
    | with_reducible assumption | with_reducible apply setCourse_memWf | intro _ | split

theorem updPath_memWf (s : State) (blk c slot : Nat) (f : Path → Path)  (hwf : s.memWf = true) :
    (updPath s blk c slot f).memWf = true := by
  unfold updPath
  repeat' first
    | with_reducible assumption | with_reducible apply updCourse_memWf

theorem markDone_memWf (s : State) (blk : Nat)  (hwf : s.memWf = true) :
    (markDone s blk).memWf = true := by
  unfold markDone
  repeat' first
    | with_reducible assumption | with_reducible apply setBlock_memWf | with_reducible apply setJob_memWf | intro _
    | split | dsimp only | fail_if_no_progress with_reducible refine memWf_mk ?_
    | (have hb := fun h => getBlock_memWf h ‹getBlock _ _ = some _›; refine hb ?_)

theorem progress_memWf (s : State) (blk : Nat)  (hwf : s.memWf = true) :
    (progress s blk).memWf = true := by
  unfold progress
  repeat' first
    | with_reducible assumption | with_reducible apply setBlock_memWf | intro _ | split | dsimp only
    | fail_if_no_progress with_reducible refine memWf_mk ?_
    | (have hb := fun h => getBlock_memWf h ‹getBlock _ _ = some _›; refine hb ?_)

theorem markExited_memWf (s : State) (blk : Nat)  (hwf : s.memWf = true) :
    (markExited s blk).memWf = true := by
  unfold markExited
  repeat' first
    | with_reducible assumption | with_reducible apply markDone_memWf | intro _ | split

theorem raise_memWf (s : State) (p : BitVec 3) (which : Nat)  (hwf : s.memWf = true) :
    (raise s p which).memWf = true := by
  unfold raise
  repeat' first
    | with_reducible assumption | intro _ | split | dsimp only | fail_if_no_progress with_reducible refine memWf_mk ?_

theorem touchEntry_memWf (s : State) (x : Context) (t n : Nat)  (hwf : s.memWf = true) :
    (touchEntry s x t n).memWf = true := by
  unfold touchEntry
  repeat' first
    | with_reducible assumption | with_reducible apply hubTouch_memWf

theorem writeEntry_memWf (s : State) (x : Context) (t n : Nat) (e : Entry)  (hwf : s.memWf = true) :
    (writeEntry s x t n e).memWf = true := by
  unfold writeEntry
  repeat' first
    | with_reducible assumption | with_reducible apply hubWrite_memWf | intro _ | split | dsimp only
    | fail_if_no_progress with_reducible refine memWf_mk ?_

theorem putRecord_memWf (s : State) (x : Context) (bs : List Byte)  (hwf : s.memWf = true) :
    (putRecord s x bs).memWf = true := by
  unfold putRecord
  repeat' first
    | with_reducible assumption | with_reducible apply hubWrite_memWf | intro _ | split

theorem nextSeq_memWf (s : State) (m : Nat)  (hwf : s.memWf = true) :
    (nextSeq s m).2.memWf = true := by
  unfold nextSeq
  repeat' first
    | with_reducible assumption | with_reducible apply setCore_memWf | intro _ | split | dsimp only
    | fail_if_no_progress with_reducible refine memWf_mk ?_ | apply getCore_memWf

theorem emptyBlocks_memWf (s : State) (p : Nat → Block → Bool)  (hwf : s.memWf = true) :
    (emptyBlocks s p).memWf = true := by
  unfold emptyBlocks
  repeat' first
    | with_reducible assumption | intro _ | split | dsimp only | fail_if_no_progress with_reducible refine memWf_mk ?_

theorem discardCommands_memWf (s : State) (p : Nat → Block → Bool)  (hwf : s.memWf = true) :
    (discardCommands s p).memWf = true := by
  unfold discardCommands
  repeat' first
    | with_reducible assumption | intro _ | split | dsimp only | fail_if_no_progress with_reducible refine memWf_mk ?_

theorem dropContext_memWf (s : State) (x : Context)  (hwf : s.memWf = true) :
    (dropContext s x).memWf = true := by
  have h1 : (discardCommands (emptyBlocks s fun _ b => b.asid == x.asid) fun _ b => b.asid == x.asid).memWf = true :=
    discardCommands_memWf _ _ (emptyBlocks_memWf _ _ hwf)
  exact setCtx_memWf _ _ _ (mapBlocks_memWf (s := { discardCommands (emptyBlocks s fun _ b => b.asid == x.asid)
    (fun _ b => b.asid == x.asid) with waitingBlocks := _ }) h1 (fun e he => by split <;> exact he))

theorem fatalRecord_memWf (x : Context) (core : Nat) (s : State) (e : FatalSite)  (hwf : s.memWf = true) :
    (fatalRecord x core s e).memWf = true := by
  unfold fatalRecord
  repeat' first
    | with_reducible assumption | refine snd_memWf (by assumption) ?_ | with_reducible apply putRecord_memWf
    | with_reducible apply nextSeq_memWf | intro _ | split

theorem removeAll_memWf (s : State) (asid : BitVec 16) (core : Nat) (l : List FatalSite) (quiet : Bool)  (hwf : s.memWf = true) :
    (removeAll s asid core l quiet).memWf = true := by
  unfold removeAll
  repeat' first
    | with_reducible assumption | with_reducible apply raise_memWf | with_reducible apply dropContext_memWf
    | with_reducible apply fatalRecord_memWf | with_reducible apply foldl_memWf | intro _ | split | dsimp only

theorem removeContext_memWf (s : State) (asid : BitVec 16) (f : FaultInfo) (pos : Word) (core course slot : Nat) (quiet : Bool)  (hwf : s.memWf = true) :
    (removeContext s asid f pos core course slot quiet).memWf = true := by
  unfold removeContext
  repeat' first
    | with_reducible assumption | with_reducible apply removeAll_memWf

theorem loseContext_memWf (s : State) (asid : BitVec 16)  (hwf : s.memWf = true) :
    (loseContext s asid).memWf = true := by
  unfold loseContext
  repeat' first
    | with_reducible assumption | with_reducible apply raise_memWf | with_reducible apply dropContext_memWf | intro _
    | split

theorem rewriteEntry_memWf (s : State) (x : Context) (t n : Nat) (e : Entry)  (hwf : s.memWf = true) :
    (rewriteEntry s x t n e).memWf = true := by
  unfold rewriteEntry
  repeat' first
    | with_reducible assumption | with_reducible apply writeEntry_memWf | with_reducible apply loseContext_memWf
    | intro _ | split

theorem courseRecord_memWf (s : State) (blk c slot : Nat) (f : FaultInfo) (pos : Word) (replay : Bool)  (hwf : s.memWf = true) :
    (courseRecord s blk c slot f pos replay).memWf = true := by
  unfold courseRecord
  repeat' first
    | with_reducible assumption | refine snd_memWf (by assumption) ?_ | with_reducible apply putRecord_memWf
    | with_reducible apply nextSeq_memWf | with_reducible apply loseContext_memWf | intro _ | split

theorem teamBroken_memWf (s : State) (blk : Nat) (team : Option Nat)  (hwf : s.memWf = true) :
    (teamBroken s blk team).memWf = true := by
  unfold teamBroken
  repeat' first
    | with_reducible assumption | with_reducible apply removeAll_memWf | intro _ | split

theorem courseExited_memWf (s : State) (blk : Nat) (team : Option Nat)  (hwf : s.memWf = true) :
    (courseExited s blk team).memWf = true := by
  unfold courseExited
  repeat' first
    | with_reducible assumption | with_reducible apply markExited_memWf | with_reducible apply teamBroken_memWf

theorem killCourse_memWf (s : State) (blk c : Nat)  (hwf : s.memWf = true) :
    (killCourse s blk c).memWf = true := by
  unfold killCourse
  repeat' first
    | with_reducible assumption | with_reducible apply setCourse_memWf | with_reducible apply courseRecord_memWf
    | with_reducible apply courseExited_memWf | intro _ | split

theorem openFault_memWf (s : State) (blk c slot : Nat) (f : FaultInfo) (pos : Word) (owner : FaultOwner) (old : Option (Nat × Nat))  (hwf : s.memWf = true) :
    (openFault s blk c slot f pos owner old).2.memWf = true := by
  unfold openFault
  repeat' first
    | with_reducible assumption | refine snd_memWf (by assumption) ?_ | with_reducible apply setCtx_memWf
    | with_reducible apply raise_memWf | with_reducible apply putRecord_memWf | with_reducible apply nextSeq_memWf
    | with_reducible apply loseContext_memWf | intro _ | split | dsimp only

theorem spillPop_memWf (s : State) (blk c slot va : Nat) (e : Entry)  (hwf : s.memWf = true) :
    (spillPop s blk c slot va e).memWf = true := by
  unfold spillPop
  repeat' first
    | with_reducible assumption | refine snd_memWf (by assumption) ?_ | with_reducible apply updCourse_memWf
    | with_reducible apply openFault_memWf

theorem refillSlot_memWf (s : State) (blk c slot : Nat) (front : Bool)  (hwf : s.memWf = true) :
    (refillSlot s blk c slot front).memWf = true := by
  unfold refillSlot
  repeat' first
    | with_reducible assumption | with_reducible apply setCourse_memWf | with_reducible apply touchEntry_memWf
    | with_reducible apply killCourse_memWf | with_reducible apply spillPop_memWf | intro _ | split | dsimp only
    | fail_if_no_progress with_reducible refine memWf_mk ?_

theorem refillSlots_memWf (s : State) (blk c first : Nat) (merged : Bool)  (hwf : s.memWf = true) :
    (refillSlots s blk c first merged).memWf = true := by
  unfold refillSlots
  repeat' first
    | with_reducible assumption | with_reducible apply refillSlot_memWf

theorem removeEntry_memWf (s : State) (x : Context) (blk c t n : Nat) (e : Entry)  (hwf : s.memWf = true) :
    (removeEntry s x blk c t n e).memWf = true := by
  unfold removeEntry
  repeat' first
    | with_reducible assumption | with_reducible apply setCourse_memWf | with_reducible apply rewriteEntry_memWf
    | intro _ | split

theorem completeRegion_memWf (s : State) (x : Context) (blk c n : Nat) (e : Entry) (first : Nat)  (hwf : s.memWf = true) :
    (completeRegion s x blk c n e first).memWf = true := by
  unfold completeRegion
  repeat' first
    | with_reducible assumption | with_reducible apply setCourse_memWf | with_reducible apply rewriteEntry_memWf
    | with_reducible apply removeEntry_memWf | intro _ | split

theorem leaveStack_memWf (s : State) (x : Context) (blk c : Nat) (m : Lanes) (n : Nat) (hwf : s.memWf = true) :
    (leaveStack s x blk c m n).memWf = true := by
  induction n generalizing s with
  | zero => exact hwf
  | succ n ih =>
    unfold leaveStack
    split
    · exact hwf
    · apply ih
      repeat' first
        | assumption | with_reducible apply completeRegion_memWf | with_reducible apply removeEntry_memWf
        | with_reducible apply rewriteEntry_memWf | split | dsimp only


theorem lanesLeft_memWf (s : State) (blk c : Nat) (m : Lanes)  (hwf : s.memWf = true) :
    (lanesLeft s blk c m).memWf = true := by
  unfold lanesLeft
  repeat' first
    | with_reducible assumption | with_reducible apply setCourse_memWf | with_reducible apply courseExited_memWf
    | with_reducible apply refillSlots_memWf | with_reducible apply leaveStack_memWf | intro _ | split

theorem replayBlock_memWf (s : State) (blk c slot : Nat) (f : FaultInfo) (pos : Word)  (hwf : s.memWf = true) :
    (replayBlock s blk c slot f pos).memWf = true := by
  unfold replayBlock
  repeat' first
    | with_reducible assumption | with_reducible apply setBlock_memWf | with_reducible apply emptyBlocks_memWf
    | with_reducible apply courseRecord_memWf | intro _ | split | dsimp only
    | fail_if_no_progress with_reducible refine memWf_mk ?_
    | (have hb := fun h => getBlock_memWf h ‹getBlock _ _ = some _›; refine hb ?_)

theorem checkStarved_memWf (s : State) (blk c slot : Nat) (pos : Word) (sig : Word)  (hwf : s.memWf = true) :
    (checkStarved s blk c slot pos sig).memWf = true := by
  unfold checkStarved
  repeat' first
    | with_reducible assumption | with_reducible apply removeContext_memWf | with_reducible apply replayBlock_memWf
    | intro _ | split

theorem casualty_memWf (s : State) (blk c slot : Nat) (d : Lanes) (tag : Half) (va : Double)  (hwf : s.memWf = true) :
    (casualty s blk c slot d tag va).memWf = true := by
  unfold casualty
  repeat' first
    | with_reducible assumption | with_reducible apply setCourse_memWf | with_reducible apply updPath_memWf
    | with_reducible apply courseRecord_memWf | with_reducible apply lanesLeft_memWf
    | with_reducible apply checkStarved_memWf | intro _ | split | dsimp only

theorem completeLongs_memWf (s : State) (blk c : Nat) (ids : List Nat)  (hwf : s.memWf = true) :
    (completeLongs s blk c ids).memWf = true := by
  unfold completeLongs
  repeat' first
    | with_reducible assumption | with_reducible apply setCourse_memWf | with_reducible apply casualty_memWf
    | with_reducible apply foldl_memWf | intro _ | split

theorem completePath_memWf (s : State) (blk c slot : Nat)  (hwf : s.memWf = true) :
    (completePath s blk c slot).memWf = true := by
  unfold completePath
  repeat' first
    | with_reducible assumption | with_reducible apply completeLongs_memWf | intro _ | split

theorem push_memWf (s : State) (blk c : Nat) (e : Entry)  (hwf : s.memWf = true) :
    (push s blk c e).2.memWf = true := by
  unfold push
  repeat' first
    | with_reducible assumption | with_reducible apply setCourse_memWf | with_reducible apply writeEntry_memWf
    | intro _ | split

theorem hostFault_memWf (s : State) (blk c slot : Nat) (f : FaultInfo)  (hwf : s.memWf = true) :
    (hostFault s blk c slot f).memWf = true := by
  unfold hostFault
  repeat' first
    | with_reducible assumption | refine snd_memWf (by assumption) ?_ | with_reducible apply updPath_memWf
    | with_reducible apply openFault_memWf | intro _ | split

theorem fatalFault_memWf (s : State) (blk c slot : Nat) (f : FaultInfo)  (hwf : s.memWf = true) :
    (fatalFault s blk c slot f).memWf = true := by
  unfold fatalFault
  repeat' first
    | with_reducible assumption | with_reducible apply removeContext_memWf | intro _ | split

theorem makeDelivery_memWf (s : State) (blk c slot : Nat) (d : Delivery)  (hwf : s.memWf = true) :
    (makeDelivery s blk c slot d).memWf = true := by
  unfold makeDelivery
  repeat' first
    | with_reducible assumption | refine snd_memWf (by assumption) ?_ | with_reducible apply updCourse_memWf
    | with_reducible apply updPath_memWf | with_reducible apply push_memWf | with_reducible apply hostFault_memWf
    | with_reducible apply fatalFault_memWf | intro _ | split

theorem recordDelivery_memWf (s : State) (blk c slot : Nat) (p : Path) (d : Delivery)  (hwf : s.memWf = true) :
    (recordDelivery s blk c slot p d).memWf = true := by
  unfold recordDelivery
  repeat' first
    | with_reducible assumption | with_reducible apply updPath_memWf | with_reducible apply courseRecord_memWf
    | with_reducible apply makeDelivery_memWf | intro _ | split | dsimp only

theorem resumeDelivery_memWf (s : State) (blk c slot : Nat) (p : Path) (d : Delivery)  (hwf : s.memWf = true) :
    (resumeDelivery s blk c slot p d).memWf = true := by
  unfold resumeDelivery
  repeat' first
    | with_reducible assumption | with_reducible apply makeDelivery_memWf | with_reducible apply recordDelivery_memWf
    | intro _ | split

theorem deliver_memWf (s : State) (blk c slot : Nat) (f : FaultInfo) (r : Resume) (after : Nat)  (hwf : s.memWf = true) :
    (deliver s blk c slot f r after).memWf = true := by
  unfold deliver
  repeat' first
    | with_reducible assumption | with_reducible apply updPath_memWf | with_reducible apply completePath_memWf
    | with_reducible apply fatalFault_memWf | with_reducible apply recordDelivery_memWf | intro _ | split | dsimp only

theorem takeFault_memWf (s : State) (blk c slot : Nat) (f : FaultInfo) (decode : Bool) (retry : Bool) (after : Nat)  (hwf : s.memWf = true) :
    (takeFault s blk c slot f decode retry after).memWf = true := by
  unfold takeFault
  repeat' first
    | with_reducible assumption | with_reducible apply replayBlock_memWf | with_reducible apply hostFault_memWf
    | with_reducible apply fatalFault_memWf | with_reducible apply deliver_memWf | intro _ | split

end Sys2Proof.Machine
end

