-- ==== Sys2Proof/Laws/MemInstr.lean ====
section
/-!
SUPPORT. Instructions of the flow, memory and engine classes keep the canonical form of every memory.
-/

namespace Sys2Proof.Machine

/-! ### Local store -/

theorem blockMemWf_mk {b : Block} (h1 : cellsWf 0#8 b.localMem = true) (h2 : cellsWf false b.localPoison = true) :
    blockMemWf b = true := by simp [blockMemWf, Memory.wf, h1, h2]

theorem blockMemWf_parts {b : Block} (h : blockMemWf b = true) :
    cellsWf 0#8 b.localMem = true ∧ cellsWf false b.localPoison = true := by simpa [blockMemWf, Memory.wf] using h

theorem setLocalWord_memWf {b : Block} (addr : Nat) (w : Word) (h : blockMemWf b = true) :
    blockMemWf (setLocalWord b addr w) = true :=
  blockMemWf_mk (cellsWf_csetRun _ _ (blockMemWf_parts h).1) (blockMemWf_parts h).2

theorem localStore_memWf {b : Block} (cells : List (Nat × Byte)) (h : blockMemWf b = true) :
    blockMemWf (localStore b cells) = true :=
  blockMemWf_mk (cellsWf_csetAll _ (blockMemWf_parts h).1) (cellsWf_csetAll _ (blockMemWf_parts h).2)

theorem putLocal_memWf {b : Block} (cells : List (Nat × Poi Byte)) (h : blockMemWf b = true) :
    blockMemWf (putLocal b cells) = true := by
  have h1 := blockMemWf_parts (localStore_memWf (cells.map (fun c => (c.1, c.2.1))) h)
  exact blockMemWf_mk h1.1 (cellsWf_csetAll _ h1.2)

theorem atomLocal_memWf (v : View) (op : AtomOp) (d : RegName) (acc : Got Word × Block) (e : Nat × Nat)
    (h : blockMemWf acc.2 = true) : blockMemWf (atomLocal v op d acc e).2 = true := by
  obtain ⟨g, b⟩ := acc
  unfold atomLocal
  dsimp only
  split
  · exact h
  · dsimp only
    split
    · exact setLocalWord_memWf _ _ h
    · exact h

theorem foldl_inv {α β : Type} {p : β → Prop} {f : β → α → β} (hf : ∀ b a, p b → p (f b a)) {l : List α} {b : β}
    (hb : p b) : p (l.foldl f b) := by
  induction l generalizing b with
  | nil => exact hb
  | cons a t ih => exact ih (hf b a hb)

theorem holdPipe_memWf (s : State) (m n : Nat)  (hwf : s.memWf = true) :
    (holdPipe s m n).memWf = true := by
  unfold holdPipe
  repeat' first
    | with_reducible assumption | with_reducible apply setCore_memWf | intro _ | split | dsimp only
    | fail_if_no_progress with_reducible refine memWf_mk ?_ | apply getCore_memWf

theorem touchTape_memWf (s : State) (asid : BitVec 16) (t : Tape)  (hwf : s.memWf = true) :
    (touchTape s asid t).memWf = true := by
  unfold touchTape
  repeat' first
    | with_reducible assumption | with_reducible apply hubTouch_memWf | with_reducible apply foldl_memWf | intro _
    | split

theorem storeChunk_memWf (s : State) (m : Nat) (asid : BitVec 16) (h : Home) (bs : List Byte)  (hwf : s.memWf = true) :
    (storeChunk s m asid h bs).memWf = true := by
  unfold storeChunk
  repeat' first
    | with_reducible assumption | with_reducible apply dropLines_memWf | with_reducible apply drainCore_memWf
    | with_reducible apply writeHome_memWf

theorem writeChunk_memWf (s : State) (m : Nat) (asid : BitVec 16) (t : Tape) (n : Nat) (bs : List Byte)
    (hwf : s.memWf = true) : (writeChunk s m asid t n bs).1.memWf = true := by
  unfold writeChunk
  dsimp only
  have h := holdPipe_memWf _ m (chunkCycles (hdr bs 107 96)) (touchWalk_memWf s asid (chunkVa t n) hwf)
  generalize holdPipe _ m (chunkCycles (hdr bs 107 96)) = x at h ⊢
  split
  · split
    · exact storeChunk_memWf _ _ _ _ _ h
    · exact h
  · exact h


theorem closeChunk_memWf (s : State) (m : Nat) (asid : BitVec 16) (t : Tape) (last trunc : Bool) (hwf : s.memWf = true) :
    (closeChunk s m asid t last trunc).1.memWf = true := by
  unfold closeChunk
  split
  · exact hwf
  · exact writeChunk_memWf _ _ _ _ _ _ hwf


theorem appendRec_memWf (s : State) (m : Nat) (asid : BitVec 16) (t : Tape) (r : TapeRec) (hwf : s.memWf = true) :
    (appendRec s m asid t r).1.memWf = true := by
  unfold appendRec
  repeat' first
      | assumption | with_reducible apply closeChunk_memWf | with_reducible apply writeChunk_memWf | split | dsimp only


theorem rotateRun_memWf (s : State) (x : Context) (t : Nat) (e : Entry) (l : List (Nat × Entry × Bool))
    (hwf : s.memWf = true) : (rotateRun s x t e l).memWf = true := by
  induction l generalizing s with
  | nil => exact hwf
  | cons a rest ih =>
    obtain ⟨n, f, p⟩ := a
    cases rest with
    | nil => exact writeEntry_memWf _ _ _ _ _ hwf
    | cons b rest => exact ih _ (writeEntry_memWf _ _ _ _ _ hwf)


theorem touchRun_memWf (s : State) (x : Context) (t : Nat) (region : Option Nat) (n : Nat) (hwf : s.memWf = true) :
    (touchRun s x t region n).memWf = true := by
  induction n generalizing s with
  | zero => exact hwf
  | succ n ih =>
    unfold touchRun
    have h := touchEntry_memWf s x t n hwf
    dsimp only
    split
    · split
      · exact ih _ h
      · exact h
    · exact h


theorem demote_memWf (s : State) (blk c slot : Nat)  (hwf : s.memWf = true) :
    (demote s blk c slot).memWf = true := by
  unfold demote
  repeat' first
    | with_reducible assumption | with_reducible apply updCourse_memWf | with_reducible apply killCourse_memWf
    | with_reducible apply completePath_memWf | with_reducible apply rotateRun_memWf
    | with_reducible apply touchRun_memWf | intro _ | split | dsimp only

theorem endUnit_memWf (s : State) (u : Issue) (advance : Bool)  (hwf : s.memWf = true) :
    (endUnit s u advance).memWf = true := by
  unfold endUnit
  repeat' first
    | with_reducible assumption | with_reducible apply updCourse_memWf | with_reducible apply demote_memWf | intro _
    | split | dsimp only | fail_if_no_progress with_reducible refine memWf_mk ?_

theorem retire_memWf (s : State) (u : Issue) (i : Instr) (flags : FpFlags)  (hwf : s.memWf = true) :
    (retire s u i flags).memWf = true := by
  unfold retire
  repeat' first
    | with_reducible assumption | with_reducible apply endUnit_memWf | intro _ | split | dsimp only
    | fail_if_no_progress with_reducible refine memWf_mk ?_

theorem flowIssue_memWf (s : State) (u : Issue) (i : Instr)  (hwf : s.memWf = true) :
    (flowIssue s u i).memWf = true := by
  unfold flowIssue
  repeat' first
    | with_reducible assumption | with_reducible apply endUnit_memWf

theorem teamFault_memWf (s : State) (v : View) (f : FaultInfo)  (hwf : s.memWf = true) :
    (teamFault s v f).memWf = true := by
  unfold teamFault
  repeat' first
    | with_reducible assumption | with_reducible apply removeAll_memWf

theorem faultUnit_memWf (s : State) (u : Issue) (i : Instr) (f : FaultInfo)  (hwf : s.memWf = true) :
    (faultUnit s u i f).memWf = true := by
  unfold faultUnit
  repeat' first
    | with_reducible assumption | with_reducible apply updCourse_memWf | with_reducible apply updPath_memWf
    | with_reducible apply takeFault_memWf | intro _ | split | dsimp only
    | fail_if_no_progress with_reducible refine memWf_mk ?_

theorem askLanes_memWf (s : State) (v : View) (i : Instr) (reach : List (Nat × Reach))  (hwf : s.memWf = true) :
    (askLanes s v i reach).memWf = true := by
  unfold askLanes
  repeat' first
    | with_reducible assumption | with_reducible apply askRemote_memWf | with_reducible apply foldl_memWf | intro _
    | split

theorem arrive_memWf (s : State) (v : View) (op : Nat) (c : RecName) (strm : BitVec 4) (cont : Bool)  (hwf : s.memWf = true) :
    (arrive s v op c strm cont).memWf = true := by
  unfold arrive
  repeat' first
    | with_reducible assumption | with_reducible apply setBlock_memWf | intro _ | split | dsimp only
    | fail_if_no_progress with_reducible refine memWf_mk ?_
    | (have hb := fun h => getBlock_memWf h ‹getBlock _ _ = some _›; refine hb ?_)

theorem queueCommand_memWf (s : State) (c : Command)  (hwf : s.memWf = true) :
    (queueCommand s c).2.memWf = true := by
  unfold queueCommand
  repeat' first
    | with_reducible assumption | refine snd_memWf (by assumption) ?_ | with_reducible apply setCmd_memWf
    | with_reducible apply newId_memWf

theorem receiveCommand_memWf (s : State) (v : View) (i : Instr) (team : Bool)  (hwf : s.memWf = true) :
    (receiveCommand s v i team).2.memWf = true := by
  unfold receiveCommand
  repeat' first
    | with_reducible assumption | refine snd_memWf (by assumption) ?_ | with_reducible apply arrive_memWf
    | with_reducible apply queueCommand_memWf | intro _ | split | dsimp only

theorem holdUnit_memWf (s : State) (v : View) (i : Instr) (p : Park)  (hwf : s.memWf = true) :
    (holdUnit s v i p).memWf = true := by
  unfold holdUnit
  repeat' first
    | with_reducible assumption | refine snd_memWf (by assumption) ?_ | with_reducible apply drainCore_memWf
    | with_reducible apply updCourse_memWf | with_reducible apply updPath_memWf | with_reducible apply askLanes_memWf
    | with_reducible apply arrive_memWf | with_reducible apply receiveCommand_memWf | intro _ | split | dsimp only
    | fail_if_no_progress with_reducible refine memWf_mk ?_

theorem touchAccess_memWf (s : State) (v : View) (i : Instr)  (hwf : s.memWf = true) :
    (touchAccess s v i).memWf = true := by
  unfold touchAccess
  repeat' first
    | with_reducible assumption | with_reducible apply touchWalk_memWf | with_reducible apply foldl_memWf | intro _
    | split

theorem faultInstr_memWf (s : State) (v : View) (i : Instr) (f : FaultInfo)  (hwf : s.memWf = true) :
    (faultInstr s v i f).memWf = true := by
  unfold faultInstr
  repeat' first
    | with_reducible assumption | with_reducible apply teamFault_memWf | with_reducible apply faultUnit_memWf
    | with_reducible apply touchAccess_memWf | intro _ | split | dsimp only
    | fail_if_no_progress with_reducible refine memWf_mk ?_

/-- What an instruction sees of its block is canonical. -/
theorem viewOf_memWf {s : State} {v : View} (hwf : s.memWf = true) (h : viewOf s = some v) : blockMemWf v.b = true := by
  unfold viewOf at h
  split at h
  · cases h
  · split at h
    · cases h
      exact getBlock_memWf hwf (by assumption)
    · cases h

theorem runInstr_memWf {i : Instr} {s : State} {e : View → State} (hwf : s.memWf = true)
    (he : ∀ v, blockMemWf v.b = true → (e v).memWf = true) : ∀ t, runInstr i s e = .next t → t.memWf = true := by
  intro t ht
  unfold runInstr at ht
  split at ht
  · cases ht
  · split at ht
    · injection ht with ht
      subst ht
      exact faultInstr_memWf _ _ _ _ hwf
    · injection ht with ht
      subst ht
      exact holdUnit_memWf _ _ _ _ hwf
    · injection ht with ht
      subst ht
      exact he _ (viewOf_memWf hwf ‹_›)


theorem writeShort_memWf (s : State) (u : Issue) (l : List RegWrite)  (hwf : s.memWf = true) :
    (writeShort s u l).memWf = true := by
  unfold writeShort
  repeat' first
    | with_reducible assumption | with_reducible apply updCourse_memWf

theorem addLong_memWf (s : State) (u : Issue) (w : LongWrite)  (hwf : s.memWf = true) :
    (addLong s u w).memWf = true := by
  unfold addLong
  repeat' first
    | with_reducible assumption | with_reducible apply updCourse_memWf

theorem writeLong_memWf (s : State) (u : Issue) (l : List RegWrite)  (hwf : s.memWf = true) :
    (writeLong s u l).memWf = true := by
  unfold writeLong
  repeat' first
    | with_reducible assumption | refine snd_memWf (by assumption) ?_ | with_reducible apply newId_memWf
    | with_reducible apply addLong_memWf

theorem runShort_memWf {i : Instr} {s : State} (f : View → List RegWrite × FpFlags) (hwf : s.memWf = true) :
    ∀ t, runShort i s f = .next t → t.memWf = true :=
  runInstr_memWf hwf (fun _ _ => retire_memWf _ _ _ _ (writeShort_memWf _ _ _ hwf))


theorem runLong_memWf {i : Instr} {s : State} (f : View → List RegWrite × FpFlags) (hwf : s.memWf = true) :
    ∀ t, runLong i s f = .next t → t.memWf = true :=
  runInstr_memWf hwf (fun _ _ => retire_memWf _ _ _ _ (writeLong_memWf _ _ _ hwf))


theorem stepPath_memWf (s : State) (u : Issue)  (hwf : s.memWf = true) :
    (stepPath s u).memWf = true := by
  unfold stepPath
  repeat' first
    | with_reducible assumption | with_reducible apply updPath_memWf

theorem splitPath_memWf (s : State) (v : View) (t f : Lanes) (target : Double) (region : Option Nat)  (hwf : s.memWf = true) :
    (splitPath s v t f target region).memWf = true := by
  unfold splitPath
  repeat' first
    | with_reducible assumption | refine snd_memWf (by assumption) ?_ | with_reducible apply updCourse_memWf
    | with_reducible apply push_memWf | intro _ | split | dsimp only

theorem settlePath_memWf (s : State) (v : View) (needed : Bool)  (hwf : s.memWf = true) :
    (settlePath s v needed).memWf = true := by
  unfold settlePath
  repeat' first
    | with_reducible assumption | with_reducible apply completePath_memWf | intro _ | split

theorem divide_memWf (s : State) (v : View) (t f : Lanes) (target : Double) (region : Option Nat)  (hwf : s.memWf = true) :
    (divide s v t f target region).memWf = true := by
  unfold divide
  repeat' first
    | with_reducible assumption | with_reducible apply updPath_memWf | with_reducible apply stepPath_memWf
    | with_reducible apply splitPath_memWf | intro _ | split

theorem branchPath_memWf (s : State) (v : View) (t : Lanes) (target : Double)  (hwf : s.memWf = true) :
    (branchPath s v t target).memWf = true := by
  unfold branchPath
  repeat' first
    | with_reducible assumption | with_reducible apply updPath_memWf | with_reducible apply stepPath_memWf
    | with_reducible apply settlePath_memWf | with_reducible apply divide_memWf | intro _ | split | dsimp only

theorem callPath_memWf (s : State) (v : View) (t : Lanes) (target : Double)  (hwf : s.memWf = true) :
    (callPath s v t target).memWf = true := by
  unfold callPath
  repeat' first
    | with_reducible assumption | refine snd_memWf (by assumption) ?_ | with_reducible apply push_memWf
    | with_reducible apply stepPath_memWf | with_reducible apply settlePath_memWf | with_reducible apply divide_memWf
    | intro _ | split | dsimp only

theorem execBra_memWf (off : BitVec 25) (s : State)  (hwf : s.memWf = true) :
    ∀ t, execBra off s = .next t → t.memWf = true := by
  unfold execBra
  refine runInstr_memWf hwf (fun v _ => branchPath_memWf _ _ _ _ ?_)
  dsimp only
  have h := flowIssue_memWf _ v.u (.bra off) hwf
  split
  · exact updCourse_memWf _ _ _ _ (appendRec_memWf _ _ _ _ _ h)
  · exact h

theorem execBrx_memWf (a : Src) (s : State)  (hwf : s.memWf = true) :
    ∀ t, execBrx a s = .next t → t.memWf = true := by
  unfold execBrx
  refine runInstr_memWf hwf (fun v hv => ?_)
  repeat' first
    | with_reducible assumption | with_reducible apply flowIssue_memWf | with_reducible apply branchPath_memWf

theorem execCall_memWf (off : BitVec 25) (s : State)  (hwf : s.memWf = true) :
    ∀ t, execCall off s = .next t → t.memWf = true := by
  unfold execCall
  refine runInstr_memWf hwf (fun v hv => ?_)
  repeat' first
    | with_reducible assumption | with_reducible apply flowIssue_memWf | with_reducible apply callPath_memWf

theorem execCallx_memWf (a : Src) (s : State)  (hwf : s.memWf = true) :
    ∀ t, execCallx a s = .next t → t.memWf = true := by
  unfold execCallx
  refine runInstr_memWf hwf (fun v hv => ?_)
  repeat' first
    | with_reducible assumption | with_reducible apply flowIssue_memWf | with_reducible apply callPath_memWf

theorem execRcv_memWf (off : BitVec 25) (s : State)  (hwf : s.memWf = true) :
    ∀ t, execRcv off s = .next t → t.memWf = true := by
  unfold execRcv
  refine runInstr_memWf hwf (fun v hv => ?_)
  repeat' first
    | with_reducible assumption | refine snd_memWf (by assumption) ?_ | with_reducible apply updPath_memWf
    | with_reducible apply push_memWf | with_reducible apply flowIssue_memWf

theorem execBrr_memWf (off : BitVec 25) (s : State)  (hwf : s.memWf = true) :
    ∀ t, execBrr off s = .next t → t.memWf = true := by
  unfold execBrr
  refine runInstr_memWf hwf (fun v hv => ?_)
  repeat' first
    | with_reducible assumption | with_reducible apply updCourse_memWf | with_reducible apply touchTape_memWf
    | with_reducible apply flowIssue_memWf | with_reducible apply branchPath_memWf | intro _ | split

theorem arrivePath_memWf (s : State) (v : View) (m : Lanes)  (hwf : s.memWf = true) :
    (arrivePath s v m).memWf = true := by
  unfold arrivePath
  repeat' first
    | with_reducible assumption | with_reducible apply updCourse_memWf | with_reducible apply updPath_memWf
    | with_reducible apply touchEntry_memWf | with_reducible apply loseContext_memWf
    | with_reducible apply rewriteEntry_memWf | with_reducible apply killCourse_memWf
    | with_reducible apply refillSlots_memWf | with_reducible apply completeRegion_memWf
    | with_reducible apply checkStarved_memWf | with_reducible apply settlePath_memWf | intro _ | split | dsimp only

theorem execJoin_memWf (s : State)  (hwf : s.memWf = true) :
    ∀ t, execJoin s = .next t → t.memWf = true := by
  unfold execJoin
  refine runInstr_memWf hwf (fun v hv => ?_)
  repeat' first
    | with_reducible assumption | with_reducible apply flowIssue_memWf | with_reducible apply arrivePath_memWf

theorem execRet_memWf (s : State)  (hwf : s.memWf = true) :
    ∀ t, execRet s = .next t → t.memWf = true := by
  unfold execRet
  refine runInstr_memWf hwf (fun v hv => ?_)
  repeat' first
    | with_reducible assumption | with_reducible apply flowIssue_memWf | with_reducible apply stepPath_memWf
    | with_reducible apply arrivePath_memWf | intro _ | split

theorem execExit_memWf (s : State)  (hwf : s.memWf = true) :
    ∀ t, execExit s = .next t → t.memWf = true := by
  unfold execExit
  refine runInstr_memWf hwf (fun v hv => ?_)
  repeat' first
    | with_reducible assumption | with_reducible apply updCourse_memWf | with_reducible apply lanesLeft_memWf
    | with_reducible apply checkStarved_memWf | with_reducible apply flowIssue_memWf
    | with_reducible apply stepPath_memWf | intro _ | split

theorem execYield_memWf (s : State)  (hwf : s.memWf = true) :
    ∀ t, execYield s = .next t → t.memWf = true := by
  unfold execYield
  refine runInstr_memWf hwf (fun v hv => ?_)
  repeat' first
    | with_reducible assumption | with_reducible apply demote_memWf | with_reducible apply flowIssue_memWf
    | with_reducible apply stepPath_memWf

theorem parkPath_memWf (s : State) (u : Issue) (p : Park)  (hwf : s.memWf = true) :
    (parkPath s u p).memWf = true := by
  unfold parkPath
  repeat' first
    | with_reducible assumption | with_reducible apply updPath_memWf

theorem execBar_memWf (id : BitVec 4) (s : State)  (hwf : s.memWf = true) :
    ∀ t, execBar id s = .next t → t.memWf = true := by
  unfold execBar
  refine runInstr_memWf hwf (fun v _ => ?_)
  dsimp only
  have h : (parkPath (stepPath (flowIssue s v.u (.bar id)) v.u) v.u (.barrier id.toNat)).memWf = true :=
    parkPath_memWf _ _ _ (stepPath_memWf _ _ (flowIssue_memWf _ _ _ hwf))
  generalize parkPath _ v.u (.barrier id.toNat) = x at h ⊢
  split
  · rename_i b hb
    have := getBlock_memWf h hb
    exact setBlock_memWf h this
  · exact h

theorem execPharr_memWf (d : RegName) (a : Src) (imm : Word) (s : State)  (hwf : s.memWf = true) :
    ∀ t, execPharr d a imm s = .next t → t.memWf = true := by
  unfold execPharr
  refine runInstr_memWf hwf (fun v hv => ?_)
  repeat' first
    | with_reducible assumption | with_reducible apply setBlock_memWf | with_reducible apply casualty_memWf
    | with_reducible apply flowIssue_memWf | with_reducible apply writeLong_memWf
    | with_reducible apply stepPath_memWf | intro _ | split | dsimp only
    | fail_if_no_progress with_reducible refine memWf_mk ?_ | contradiction | exact hv | apply setLocalWord_memWf

theorem execPhwait_memWf (d : RegName) (a : Src) (imm : Word) (s : State)  (hwf : s.memWf = true) :
    ∀ t, execPhwait d a imm s = .next t → t.memWf = true := by
  unfold execPhwait
  refine runInstr_memWf hwf (fun v hv => ?_)
  repeat' first
    | with_reducible assumption | with_reducible apply casualty_memWf | with_reducible apply flowIssue_memWf
    | with_reducible apply stepPath_memWf | with_reducible apply parkPath_memWf | intro _ | split | dsimp only

theorem execProof_memWf (code : BitVec 21) (s : State)  (hwf : s.memWf = true) :
    ∀ t, execProof code s = .next t → t.memWf = true := by
  unfold execProof
  refine runInstr_memWf hwf (fun v hv => ?_)
  repeat' first
    | with_reducible assumption | with_reducible apply updPath_memWf | with_reducible apply flowIssue_memWf

theorem execTrap_memWf (code : BitVec 21) (s : State)  (hwf : s.memWf = true) :
    ∀ t, execTrap code s = .next t → t.memWf = true := by
  unfold execTrap
  refine runInstr_memWf hwf (fun v hv => ?_)
  repeat' first
    | with_reducible assumption | with_reducible apply flowIssue_memWf | with_reducible apply stepPath_memWf

theorem execNop_memWf (s : State)  (hwf : s.memWf = true) :
    ∀ t, execNop s = .next t → t.memWf = true := by
  unfold execNop
  refine runInstr_memWf hwf (fun v hv => ?_)
  repeat' first
    | with_reducible assumption | with_reducible apply retire_memWf

theorem strongFence_memWf (s : State) (m : Nat)  (hwf : s.memWf = true) :
    (strongFence s m).memWf = true := by
  unfold strongFence
  repeat' first
    | with_reducible assumption | with_reducible apply drainCore_memWf | with_reducible apply acquire_memWf

theorem parkAfter_memWf (s : State) (u : Issue) (acks : List Nat)  (hwf : s.memWf = true) :
    (parkAfter s u acks).memWf = true := by
  unfold parkAfter
  repeat' first
    | with_reducible assumption | with_reducible apply parkPath_memWf | intro _ | split

theorem parkLoads_memWf (s : State) (u : Issue)  (hwf : s.memWf = true) :
    (parkLoads s u).memWf = true := by
  unfold parkLoads
  repeat' first
    | with_reducible assumption | with_reducible apply parkAfter_memWf

theorem parkStrong_memWf (s : State) (u : Issue) (m : Nat)  (hwf : s.memWf = true) :
    (parkStrong s u m).memWf = true := by
  unfold parkStrong
  repeat' first
    | with_reducible assumption | with_reducible apply parkAfter_memWf

theorem engAcquire_memWf (s : State) (v : View) (p : Nat → Bool)  (hwf : s.memWf = true) :
    (engAcquire s v p).memWf = true := by
  unfold engAcquire
  repeat' first
    | with_reducible assumption | with_reducible apply acquire_memWf

theorem execFence_memWf (kind : FenceKind) (scope : Scope) (eng : Bool) (s : State)  (hwf : s.memWf = true) :
    ∀ t, execFence kind scope eng s = .next t → t.memWf = true := by
  unfold execFence
  refine runInstr_memWf hwf (fun v hv => ?_)
  repeat' first
    | with_reducible assumption | with_reducible apply drainCore_memWf | with_reducible apply acquire_memWf
    | with_reducible apply retire_memWf | with_reducible apply parkLoads_memWf | with_reducible apply engAcquire_memWf
    | intro _ | split

theorem execCinv_memWf (scope : Scope) (s : State)  (hwf : s.memWf = true) :
    ∀ t, execCinv scope s = .next t → t.memWf = true := by
  unfold execCinv
  refine runInstr_memWf hwf (fun v hv => ?_)
  repeat' first
    | with_reducible assumption | with_reducible apply acquire_memWf | with_reducible apply retire_memWf | intro _
    | split

theorem loadLane_memWf (v : View) (x : RecordAccess) (acc : Got (List Byte) × State) (e : Nat × Reach)  (hacc : acc.2.memWf = true) :
    (loadLane v x acc e).2.memWf = true := by
  unfold loadLane
  repeat' first
    | with_reducible assumption | refine snd_memWf (by assumption) ?_ | refine snd2_memWf (by assumption) ?_
    | with_reducible apply loadMem_memWf | intro _ | split

theorem loadLanes_memWf (s : State) (v : View) (x : RecordAccess) (l : List (Nat × Reach))  (hwf : s.memWf = true) :
    (loadLanes s v x l).2.memWf = true := by
  unfold loadLanes
  have h1 : ∀ t : State, t.memWf = true → (List.foldl (loadLane v x) ([], t) l).2.memWf = true := fun t ht =>
    foldl_inv (p := fun (a : Got (List Byte) × State) => a.2.memWf = true)
      (fun b a hb => loadLane_memWf _ _ b _ hb) ht
  dsimp only
  split
  · exact strongFence_memWf _ _ (h1 _ (strongFence_memWf _ _ hwf))
  · exact h1 _ hwf

theorem loadRecord_memWf (i : Instr) (d : RegName) (demotes : Bool) (s : State) (v : View)  (hwf : s.memWf = true) :
    (loadRecord i d demotes s v).memWf = true := by
  unfold loadRecord
  repeat' first
    | with_reducible assumption | refine snd_memWf (by assumption) ?_ | with_reducible apply newId_memWf
    | with_reducible apply retire_memWf | with_reducible apply touchAccess_memWf | with_reducible apply addLong_memWf
    | with_reducible apply parkStrong_memWf | with_reducible apply loadLanes_memWf | intro _ | split

theorem execLdr_memWf (d : RegName) (a : Src) (rs : RecName) (j : RegName) (s : State)  (hwf : s.memWf = true) :
    ∀ t, execLdr d a rs j s = .next t → t.memWf = true := by
  unfold execLdr
  refine runInstr_memWf hwf (fun v hv => ?_)
  repeat' first
    | with_reducible assumption | with_reducible apply loadRecord_memWf

theorem execLdrp_memWf (d : RegName) (a : Src) (rs : RecName) (j : RegName) (s : State)  (hwf : s.memWf = true) :
    ∀ t, execLdrp d a rs j s = .next t → t.memWf = true := by
  unfold execLdrp
  refine runInstr_memWf hwf (fun v hv => ?_)
  repeat' first
    | with_reducible assumption | with_reducible apply loadRecord_memWf

theorem execRecld_memWf (dst : RecName) (a : Src) (rs : RecName) (j : RegName) (s : State)  (hwf : s.memWf = true) :
    ∀ t, execRecld dst a rs j s = .next t → t.memWf = true := by
  unfold execRecld
  refine runInstr_memWf hwf (fun v hv => ?_)
  repeat' first
    | with_reducible assumption | refine snd_memWf (by assumption) ?_ | with_reducible apply newId_memWf
    | with_reducible apply retire_memWf | with_reducible apply touchAccess_memWf | with_reducible apply addLong_memWf
    | with_reducible apply parkStrong_memWf | with_reducible apply loadLanes_memWf | intro _ | split

theorem execPref_memWf (lvl : BitVec 1) (a : Src) (rs : RecName) (j : RegName) (s : State)  (hwf : s.memWf = true) :
    ∀ t, execPref lvl a rs j s = .next t → t.memWf = true := by
  unfold execPref
  refine runInstr_memWf hwf (fun v hv => ?_)
  repeat' first
    | with_reducible assumption | with_reducible apply retire_memWf

theorem execStr_memWf (d : RegName) (a : Src) (rs : RecName) (j : RegName) (s : State)  (hwf : s.memWf = true) :
    ∀ t, execStr d a rs j s = .next t → t.memWf = true := by
  unfold execStr
  refine runInstr_memWf hwf (fun v hv => ?_)
  repeat' first
    | with_reducible assumption | with_reducible apply storeMem_memWf | with_reducible apply retire_memWf
    | with_reducible apply touchAccess_memWf | with_reducible apply strongFence_memWf
    | with_reducible apply parkStrong_memWf | intro _ | split

theorem atomLane_memWf (v : View) (op : AtomOp) (d : RegName) (acc : Got Word × State) (e : Nat × Reach)  (hacc : acc.2.memWf = true) :
    (atomLane v op d acc e).2.memWf = true := by
  unfold atomLane
  repeat' first
    | with_reducible assumption | refine snd_memWf (by assumption) ?_ | with_reducible apply atomicAt_memWf | intro _
    | split

theorem execAtr_memWf (op : AtomOp) (d : RegName) (a : Src) (rs : RecName) (s : State)  (hwf : s.memWf = true) :
    ∀ t, execAtr op d a rs s = .next t → t.memWf = true := by
  unfold execAtr
  refine runInstr_memWf hwf (fun v hv => ?_)
  dsimp only
  split
  · exact hwf
  · rename_i x _
    have h0 : ∀ t : State, t.memWf = true →
        (if strongReach (heldReach s v x) then strongFence t v.b.core else t).memWf = true := fun t ht => by
      split
      · exact strongFence_memWf _ _ ht
      · exact ht
    have h1 := fun t (ht : t.memWf = true) => foldl_inv (p := fun (a : Got Word × State) => a.2.memWf = true)
      (l := heldReach s v x) (f := atomLane v op d) (b := ([], t))
      (fun b a hb => atomLane_memWf _ _ _ b _ hb) ht
    have h2 := h0 _ (h1 _ (h0 _ (touchAccess_memWf _ v (.atr op d a rs) hwf)))
    revert h2
    generalize (if strongReach (heldReach s v x) then strongFence _ v.b.core else _) = t
    intro h2
    apply retire_memWf
    split
    · exact parkStrong_memWf _ _ _ (addLong_memWf _ _ _ (newId_memWf _ h2))
    · exact addLong_memWf _ _ _ (newId_memWf _ h2)

theorem loadLocal_memWf (i : Instr) (d : RegName) (demotes : Bool) (s : State) (v : View)  (hwf : s.memWf = true) :
    (loadLocal i d demotes s v).memWf = true := by
  unfold loadLocal
  repeat' first
    | with_reducible assumption | refine snd_memWf (by assumption) ?_ | with_reducible apply newId_memWf
    | with_reducible apply retire_memWf | with_reducible apply addLong_memWf | intro _ | split

theorem execLdl_memWf (d : RegName) (a : Src) (imm : Word) (s : State)  (hwf : s.memWf = true) :
    ∀ t, execLdl d a imm s = .next t → t.memWf = true := by
  unfold execLdl
  refine runInstr_memWf hwf (fun v hv => ?_)
  repeat' first
    | with_reducible assumption | with_reducible apply loadLocal_memWf

theorem execLdlp_memWf (d : RegName) (a : Src) (imm : Word) (s : State)  (hwf : s.memWf = true) :
    ∀ t, execLdlp d a imm s = .next t → t.memWf = true := by
  unfold execLdlp
  refine runInstr_memWf hwf (fun v hv => ?_)
  repeat' first
    | with_reducible assumption | with_reducible apply loadLocal_memWf

theorem execStl_memWf (d : RegName) (a : Src) (imm : Word) (s : State)  (hwf : s.memWf = true) :
    ∀ t, execStl d a imm s = .next t → t.memWf = true := by
  unfold execStl
  refine runInstr_memWf hwf (fun v hv => ?_)
  repeat' first
    | with_reducible assumption | with_reducible apply setBlock_memWf | with_reducible apply retire_memWf | intro _
    | split | dsimp only | fail_if_no_progress with_reducible refine memWf_mk ?_ | contradiction | exact hv
    | apply setLocalWord_memWf | apply localStore_memWf

theorem execAtl_memWf (op : AtomOp) (d : RegName) (a : Src) (s : State)  (hwf : s.memWf = true) :
    ∀ t, execAtl op d a s = .next t → t.memWf = true := by
  unfold execAtl
  refine runInstr_memWf hwf (fun v hv => ?_)
  dsimp only
  split
  · exact hwf
  · exact retire_memWf _ _ _ _ (addLong_memWf _ _ _ (newId_memWf _ (setBlock_memWf hwf
      (foldl_inv (p := fun (a : Got Word × Block) => blockMemWf a.2 = true) (fun b a h => atomLocal_memWf _ _ _ b _ h) hv))))

theorem mapPaths_memWf (s : State) (blk : Nat) (f : Course → Path → Path)  (hwf : s.memWf = true) :
    (mapPaths s blk f).memWf = true := by
  unfold mapPaths
  repeat' first
    | with_reducible assumption | with_reducible apply updCourse_memWf | with_reducible apply foldl_memWf | intro _

theorem formCollective_memWf (s : State) (blk team index : Nat)  (hwf : s.memWf = true) :
    (formCollective s blk team index).memWf = true := by
  unfold formCollective
  repeat' first
    | with_reducible assumption | with_reducible apply setBlock_memWf | with_reducible apply mapPaths_memWf | intro _
    | split | dsimp only | fail_if_no_progress with_reducible refine memWf_mk ?_
    | (have hb := fun h => getBlock_memWf h ‹getBlock _ _ = some _›; refine hb ?_)

theorem acceptCmd_memWf (s : State) (id : Nat)  (hwf : s.memWf = true) :
    (acceptCmd s id).memWf = true := by
  unfold acceptCmd
  repeat' first
    | with_reducible assumption | refine snd_memWf (by assumption) ?_ | with_reducible apply setCmd_memWf
    | with_reducible apply newId_memWf | with_reducible apply mapPaths_memWf
    | with_reducible apply formCollective_memWf | intro _ | split | dsimp only

theorem addCommand_memWf (s : State) (c : Command)  (hwf : s.memWf = true) :
    (addCommand s c).2.memWf = true := by
  unfold addCommand
  repeat' first
    | with_reducible assumption | refine snd_memWf (by assumption) ?_ | with_reducible apply queueCommand_memWf
    | with_reducible apply acceptCmd_memWf | intro _ | split

theorem afterIssue_memWf (s : State) (u : Issue) (id : Nat) (cont : Bool)  (hwf : s.memWf = true) :
    (afterIssue s u id cont).memWf = true := by
  unfold afterIssue
  repeat' first
    | with_reducible assumption | with_reducible apply parkPath_memWf | intro _ | split

theorem issueCommand_memWf (i : Instr) (op : Nat) (c : RecName) (strm : BitVec 4) (cont : Bool) (s : State) (v : View)  (hwf : s.memWf = true) :
    (issueCommand i op c strm cont s v).memWf = true := by
  unfold issueCommand
  repeat' first
    | with_reducible assumption | refine snd_memWf (by assumption) ?_ | with_reducible apply retire_memWf
    | with_reducible apply addCommand_memWf | with_reducible apply afterIssue_memWf | intro _ | split

theorem countCollective_memWf (s : State) (v : View) (cmd : Option (Nat × Command))  (hwf : s.memWf = true) :
    (countCollective s v cmd).memWf = true := by
  unfold countCollective
  repeat' first
    | with_reducible assumption | with_reducible apply setBlock_memWf | with_reducible apply updCourse_memWf
    | with_reducible apply addLong_memWf | intro _ | split | dsimp only
    | fail_if_no_progress with_reducible refine memWf_mk ?_
    | (have hb := fun h => getBlock_memWf h ‹getBlock _ _ = some _›; refine hb ?_)

theorem joinTeam_memWf (i : Instr) (cont : Bool) (s : State) (v : View)  (hwf : s.memWf = true) :
    (joinTeam i cont s v).memWf = true := by
  unfold joinTeam
  repeat' first
    | with_reducible assumption | with_reducible apply retire_memWf | with_reducible apply afterIssue_memWf
    | with_reducible apply countCollective_memWf | intro _ | split

theorem issueTeam_memWf (i : Instr) (op : Nat) (c : RecName) (strm : BitVec 4) (cont : Bool) (s : State) (v : View)  (hwf : s.memWf = true) :
    (issueTeam i op c strm cont s v).memWf = true := by
  unfold issueTeam
  repeat' first
    | with_reducible assumption | refine snd_memWf (by assumption) ?_ | with_reducible apply arrive_memWf
    | with_reducible apply formCollective_memWf | with_reducible apply addCommand_memWf
    | with_reducible apply joinTeam_memWf | intro _ | split | dsimp only

theorem execCpy_memWf (card : RecName) (strm : BitVec 4) (c : Bool) (s : State)  (hwf : s.memWf = true) :
    ∀ t, execCpy card strm c s = .next t → t.memWf = true := by
  unfold execCpy
  refine runInstr_memWf hwf (fun v hv => ?_)
  repeat' first
    | with_reducible assumption | with_reducible apply issueCommand_memWf

theorem execGath_memWf (card : RecName) (strm : BitVec 4) (c : Bool) (s : State)  (hwf : s.memWf = true) :
    ∀ t, execGath card strm c s = .next t → t.memWf = true := by
  unfold execGath
  refine runInstr_memWf hwf (fun v hv => ?_)
  repeat' first
    | with_reducible assumption | with_reducible apply issueCommand_memWf

theorem execMma_memWf (card : RecName) (strm : BitVec 4) (c : Bool) (s : State)  (hwf : s.memWf = true) :
    ∀ t, execMma card strm c s = .next t → t.memWf = true := by
  unfold execMma
  refine runInstr_memWf hwf (fun v hv => ?_)
  repeat' first
    | with_reducible assumption | with_reducible apply issueTeam_memWf

theorem execMml_memWf (card : RecName) (strm : BitVec 4) (c : Bool) (s : State)  (hwf : s.memWf = true) :
    ∀ t, execMml card strm c s = .next t → t.memWf = true := by
  unfold execMml
  refine runInstr_memWf hwf (fun v hv => ?_)
  repeat' first
    | with_reducible assumption | with_reducible apply issueTeam_memWf

theorem execEpi_memWf (card : RecName) (strm : BitVec 4) (c : Bool) (s : State)  (hwf : s.memWf = true) :
    ∀ t, execEpi card strm c s = .next t → t.memWf = true := by
  unfold execEpi
  refine runInstr_memWf hwf (fun v hv => ?_)
  repeat' first
    | with_reducible assumption | with_reducible apply issueCommand_memWf

theorem execSwait_memWf (strm : BitVec 4) (s : State)  (hwf : s.memWf = true) :
    ∀ t, execSwait strm s = .next t → t.memWf = true := by
  unfold execSwait
  refine runInstr_memWf hwf (fun v hv => ?_)
  repeat' first
    | with_reducible assumption | with_reducible apply retire_memWf | with_reducible apply engAcquire_memWf | intro _
    | split

theorem putGlobal_memWf (s : State) (asid : BitVec 16) (cells : List (Home × Poi Byte))  (hwf : s.memWf = true) :
    (putGlobal s asid cells).memWf = true := by
  unfold putGlobal
  repeat' first
    | with_reducible assumption | with_reducible apply markPoison_memWf | with_reducible apply performRow_memWf
    | with_reducible apply foldl_memWf | intro _ | split

theorem workMatrix_memWf (s : State) (id : Nat) (c : Command) (b : Block) (hwf : s.memWf = true)
    (hb : blockMemWf b = true) : (workMatrix s id c b).memWf = true := by
  unfold workMatrix
  dsimp only
  apply setCmd_memWf
  apply setBlock_memWf hwf
  split <;> exact hb


theorem workRows_memWf (s : State) (id : Nat) (c : Command) (b : Block) (hwf : s.memWf = true)
    (hb : blockMemWf b = true) : (workRows s id c b).memWf = true := by
  unfold workRows
  dsimp only
  split
  · exact setCmd_memWf _ _ _ (setBlock_memWf hwf (putLocal_memWf _ hb))
  · split
    · exact setCmd_memWf _ _ _ (setBlock_memWf (putGlobal_memWf _ _ _ hwf) (putLocal_memWf _ hb))
    · split
      · exact setCmd_memWf _ _ _ (setBlock_memWf hwf (putLocal_memWf _ hb))
      · exact setCmd_memWf _ _ _ (putGlobal_memWf _ _ _ hwf)


theorem askRow_memWf (s : State) (b : Block) (id : Nat) (c : Command) (o : EngRow) (l : List (Nat × Nat × Xlate))  (hwf : s.memWf = true) :
    (askRow s b id c o l).memWf = true := by
  have key : ∀ (l : List ((Nat × Nat × Xlate) × Nat)) (f : State × List (Poi Byte) → (Nat × Nat × Xlate) × Nat → State × List (Poi Byte))
      (a : State × List (Poi Byte)), (∀ a p, a.1.memWf = true → (f a p).1.memWf = true) → a.1.memWf = true →
      (l.foldl f a).1.memWf = true := by
    intro l f a hf ha
    induction l generalizing a with
    | nil => exact ha
    | cons p t ih => exact ih _ (hf a p ha)
  unfold askRow
  refine key _ _ _ (fun a p ha => ?_) hwf
  split
  · dsimp only
    split
    · exact askRemote_memWf _ _ _ _ _ _ _ ha
    · exact askRemote_memWf _ _ _ _ _ _ _ ha
  · exact ha

theorem touchRows_memWf (s : State) (asid : BitVec 16) (c : Command) (rows : List (EngRow × List (Nat × Nat × Xlate)))  (hwf : s.memWf = true) :
    (touchRows s asid c rows).memWf = true := by
  unfold touchRows
  repeat' first
    | with_reducible assumption | with_reducible apply touchRange_memWf | with_reducible apply touchWalk_memWf
    | with_reducible apply foldl_memWf | intro _ | split

theorem chargeRows_memWf (s : State) (asid : BitVec 16) (c : Command) (rows : List (EngRow × List (Nat × Nat × Xlate)))  (hwf : s.memWf = true) :
    (chargeRows s asid c rows).memWf = true := by
  unfold chargeRows
  repeat' first
    | with_reducible assumption | with_reducible apply l2Range_memWf | with_reducible apply foldl_memWf | intro _
    | split

theorem runCmd_memWf (s : State) (id : Nat)  (hwf : s.memWf = true) :
    (runCmd s id).memWf = true := by
  unfold runCmd
  split
  · exact hwf
  · rename_i c _
    split
    · exact hwf
    · rename_i b _
      have hb := getBlock_memWf hwf ‹_›
      split
      · exact workMatrix_memWf _ _ _ _ hwf hb
      · dsimp only
        have hwf := touchRows_memWf s b.asid c (liveRows s b c) hwf
        generalize touchRows s b.asid c (liveRows s b c) = x at hwf ⊢
        split
        · split
          · exact setCmd_memWf _ _ _ (openFault_memWf _ _ _ _ _ _ _ _ hwf)
          · exact openFault_memWf _ _ _ _ _ _ _ _ hwf
        · split
          · exact askRow_memWf _ _ _ _ _ _ (setCmd_memWf _ _ _ hwf)
          · exact workRows_memWf _ _ _ _ (chargeRows_memWf _ _ _ _ hwf) hb

theorem beginCmd_memWf (s : State) (id : Nat) (c : Command)  (hwf : s.memWf = true) :
    (beginCmd s id c).memWf = true := by
  unfold beginCmd
  repeat' first
    | with_reducible assumption | with_reducible apply setCmd_memWf | with_reducible apply progress_memWf
    | with_reducible apply completeLongs_memWf | with_reducible apply runCmd_memWf | with_reducible apply foldl_memWf
    | intro _

theorem startCmd_memWf (s : State) (id : Nat) (c : Command)  (hwf : s.memWf = true) :
    (startCmd s id c).memWf = true := by
  unfold startCmd
  repeat' first
    | with_reducible assumption | with_reducible apply drainCore_memWf | with_reducible apply beginCmd_memWf | intro _
    | split | dsimp only

theorem execEngineAccept_memWf (cmd : Nat) (s : State)  (hwf : s.memWf = true) :
    ∀ t, execEngineAccept cmd s = .next t → t.memWf = true := by
  unfold execEngineAccept
  intro t ht
  repeat' first
    | with_reducible assumption | with_reducible apply acceptCmd_memWf | intro _ | split | dsimp only
    | fail_if_no_progress with_reducible refine memWf_mk ?_ | split at ht | (injection ht with ht; subst ht)

theorem execEngineStart_memWf (cmd : Nat) (s : State)  (hwf : s.memWf = true) :
    ∀ t, execEngineStart cmd s = .next t → t.memWf = true := by
  unfold execEngineStart
  intro t ht
  repeat' first
    | with_reducible assumption | with_reducible apply startCmd_memWf | intro _ | split | dsimp only
    | fail_if_no_progress with_reducible refine memWf_mk ?_ | split at ht | (injection ht with ht; subst ht)

theorem enginePhase_memWf (s : State) (c : Command)  (hwf : s.memWf = true) :
    (enginePhase s c).memWf = true := by
  unfold enginePhase
  split
  · exact setBlock_memWf hwf (setLocalWord_memWf _ _ (getBlock_memWf hwf ‹_›))
  · exact hwf

theorem endContinuation_memWf (s : State) (blk n slot id : Nat) (scope : Scope)  (hwf : s.memWf = true) :
    (endContinuation s blk n slot id scope).memWf = true := by
  unfold endContinuation
  repeat' first
    | with_reducible assumption | with_reducible apply acquire_memWf | with_reducible apply updCourse_memWf
    | with_reducible apply updPath_memWf | with_reducible apply takeFault_memWf | intro _ | split | dsimp only

theorem endContinuations_memWf (s : State) (c : Command) (id n : Nat)  (hwf : s.memWf = true) :
    (endContinuations s c id n).memWf = true := by
  unfold endContinuations
  repeat' first
    | with_reducible assumption | with_reducible apply endContinuation_memWf | with_reducible apply foldl_memWf
    | intro _ | split

theorem completeCmd_memWf (s : State) (id : Nat) (c : Command)  (hwf : s.memWf = true) :
    (completeCmd s id c).memWf = true := by
  unfold completeCmd
  repeat' first
    | with_reducible assumption | with_reducible apply updCourse_memWf | with_reducible apply progress_memWf
    | with_reducible apply mapPaths_memWf | with_reducible apply enginePhase_memWf
    | with_reducible apply endContinuations_memWf | with_reducible apply foldl_memWf | intro _ | split | dsimp only
    | fail_if_no_progress with_reducible refine memWf_mk ?_

theorem execEngineComplete_memWf (cmd : Nat) (s : State)  (hwf : s.memWf = true) :
    ∀ t, execEngineComplete cmd s = .next t → t.memWf = true := by
  unfold execEngineComplete
  intro t ht
  repeat' first
    | with_reducible assumption | with_reducible apply completeCmd_memWf | intro _ | split | dsimp only
    | fail_if_no_progress with_reducible refine memWf_mk ?_ | split at ht | (injection ht with ht; subst ht)

theorem execXfmCrc32c_memWf (d : RegName) (a : Src) (cnt : BitVec 3) (s : State)  (hwf : s.memWf = true) :
    ∀ t, execXfmCrc32c d a cnt s = .next t → t.memWf = true := by
  unfold execXfmCrc32c
  exact runLong_memWf _ hwf

theorem execXfmHash_memWf (d : RegName) (a : Src) (cnt : BitVec 3) (s : State)  (hwf : s.memWf = true) :
    ∀ t, execXfmHash d a cnt s = .next t → t.memWf = true := by
  unfold execXfmHash
  exact runLong_memWf _ hwf

theorem execXfmSort_memWf (d : RegName) (a : Src) (cnt : BitVec 3) (s : State)  (hwf : s.memWf = true) :
    ∀ t, execXfmSort d a cnt s = .next t → t.memWf = true := by
  unfold execXfmSort
  exact runLong_memWf _ hwf

end Sys2Proof.Machine
end

