-- ==== Sys2Proof/Laws/MemClasses.lean ====
section
/-!
SUPPORT. Instructions of the other classes keep the canonical form of every memory.
-/

namespace Sys2Proof.Machine

theorem runVote_memWf (i : Instr) (pd : PredName) (s : State) (f : View → List Nat → Bool)  (hwf : s.memWf = true) :
    ∀ t, runVote i pd s f = .next t → t.memWf = true := by
  unfold runVote
  exact runLong_memWf _ hwf

theorem execVoteAny_memWf (pd ps : PredName) (s : State)  (hwf : s.memWf = true) :
    ∀ t, execVoteAny pd ps s = .next t → t.memWf = true := by
  unfold execVoteAny
  intro t ht
  repeat' first
    | with_reducible assumption | (with_reducible apply runVote_memWf; case a => with_reducible assumption)

theorem execVoteAll_memWf (pd ps : PredName) (s : State)  (hwf : s.memWf = true) :
    ∀ t, execVoteAll pd ps s = .next t → t.memWf = true := by
  unfold execVoteAll
  intro t ht
  repeat' first
    | with_reducible assumption | (with_reducible apply runVote_memWf; case a => with_reducible assumption)

theorem execVoteUni_memWf (pd ps : PredName) (s : State)  (hwf : s.memWf = true) :
    ∀ t, execVoteUni pd ps s = .next t → t.memWf = true := by
  unfold execVoteUni
  intro t ht
  repeat' first
    | with_reducible assumption | (with_reducible apply runVote_memWf; case a => with_reducible assumption)

theorem execVoteBallot_memWf (d : RegName) (ps : PredName) (s : State)  (hwf : s.memWf = true) :
    ∀ t, execVoteBallot d ps s = .next t → t.memWf = true := by
  unfold execVoteBallot
  exact runLong_memWf _ hwf

theorem runShuffle_memWf (i : Instr) (d : RegName) (a b : Src) (s : State) (k : Nat → Nat → Nat → Nat → Option Nat)  (hwf : s.memWf = true) :
    ∀ t, runShuffle i d a b s k = .next t → t.memWf = true := by
  unfold runShuffle
  exact runLong_memWf _ hwf

theorem execShfi_memWf (d : RegName) (a b : Src) (s : State)  (hwf : s.memWf = true) :
    ∀ t, execShfi d a b s = .next t → t.memWf = true := by
  unfold execShfi
  intro t ht
  repeat' first
    | with_reducible assumption | (with_reducible apply runShuffle_memWf; case a => with_reducible assumption)

theorem execShfu_memWf (d : RegName) (a b : Src) (s : State)  (hwf : s.memWf = true) :
    ∀ t, execShfu d a b s = .next t → t.memWf = true := by
  unfold execShfu
  intro t ht
  repeat' first
    | with_reducible assumption | (with_reducible apply runShuffle_memWf; case a => with_reducible assumption)

theorem execShfd_memWf (d : RegName) (a b : Src) (s : State)  (hwf : s.memWf = true) :
    ∀ t, execShfd d a b s = .next t → t.memWf = true := by
  unfold execShfd
  intro t ht
  repeat' first
    | with_reducible assumption | (with_reducible apply runShuffle_memWf; case a => with_reducible assumption)

theorem execShfx_memWf (d : RegName) (a b : Src) (s : State)  (hwf : s.memWf = true) :
    ∀ t, execShfx d a b s = .next t → t.memWf = true := by
  unfold execShfx
  intro t ht
  repeat' first
    | with_reducible assumption | (with_reducible apply runShuffle_memWf; case a => with_reducible assumption)

theorem execQsw_memWf (d : RegName) (a : Src) (op : QuadOp) (s : State)  (hwf : s.memWf = true) :
    ∀ t, execQsw d a op s = .next t → t.memWf = true := by
  unfold execQsw
  exact runLong_memWf _ hwf

theorem execRedx_memWf (d : RegName) (a : Src) (op : RedOp) (s : State)  (hwf : s.memWf = true) :
    ∀ t, execRedx d a op s = .next t → t.memWf = true := by
  unfold execRedx
  exact runLong_memWf _ hwf

theorem execScan_memWf (d : RegName) (a : Src) (op : ScanOp) (s : State)  (hwf : s.memWf = true) :
    ∀ t, execScan d a op s = .next t → t.memWf = true := by
  unfold execScan
  exact runLong_memWf _ hwf

theorem execMatchLanes_memWf (d : RegName) (a : Src) (s : State)  (hwf : s.memWf = true) :
    ∀ t, execMatchLanes d a s = .next t → t.memWf = true := by
  unfold execMatchLanes
  exact runLong_memWf _ hwf

theorem execTilep_memWf (n : Word) (s : State)  (hwf : s.memWf = true) :
    ∀ t, execTilep n s = .next t → t.memWf = true := by
  unfold execTilep
  refine runInstr_memWf hwf (fun v hv => ?_)
  repeat' first
    | with_reducible assumption | with_reducible apply updCourse_memWf | with_reducible apply retire_memWf | intro _
    | split

theorem runInt2_memWf (i : Instr) (d : RegName) (a b : Src) (s : State) (op : Word → Word → Word)  (hwf : s.memWf = true) :
    ∀ t, runInt2 i d a b s op = .next t → t.memWf = true := by
  unfold runInt2
  exact runShort_memWf _ hwf

theorem runInt3_memWf (i : Instr) (d : RegName) (a b : Src) (s : State) (op : Word → Word → Word → Word)  (hwf : s.memWf = true) :
    ∀ t, runInt3 i d a b s op = .next t → t.memWf = true := by
  unfold runInt3
  exact runShort_memWf _ hwf

theorem runInt1_memWf (i : Instr) (d : RegName) (a : Src) (s : State) (op : Word → Word)  (hwf : s.memWf = true) :
    ∀ t, runInt1 i d a s op = .next t → t.memWf = true := by
  unfold runInt1
  exact runShort_memWf _ hwf

theorem runInt0_memWf (i : Instr) (d : RegName) (s : State) (x : Word)  (hwf : s.memWf = true) :
    ∀ t, runInt0 i d s x = .next t → t.memWf = true := by
  unfold runInt0
  exact runShort_memWf _ hwf

theorem runIntPair_memWf (i : Instr) (d : RegName) (s : State) (op : Course → Nat → Double)  (hwf : s.memWf = true) :
    ∀ t, runIntPair i d s op = .next t → t.memWf = true := by
  unfold runIntPair
  exact runShort_memWf _ hwf

theorem runCompare_memWf (i : Instr) (p : PredName) (s : State) (op : Course → Nat → Bool)  (hwf : s.memWf = true) :
    ∀ t, runCompare i p s op = .next t → t.memWf = true := by
  unfold runCompare
  exact runShort_memWf _ hwf

theorem execIadd_memWf (d : RegName) (a b : Src) (s : State)  (hwf : s.memWf = true) :
    ∀ t, execIadd d a b s = .next t → t.memWf = true := by
  unfold execIadd
  intro t ht
  repeat' first
    | with_reducible assumption | (with_reducible apply runInt2_memWf; case a => with_reducible assumption)

theorem execIsub_memWf (d : RegName) (a b : Src) (s : State)  (hwf : s.memWf = true) :
    ∀ t, execIsub d a b s = .next t → t.memWf = true := by
  unfold execIsub
  intro t ht
  repeat' first
    | with_reducible assumption | (with_reducible apply runInt2_memWf; case a => with_reducible assumption)

theorem execImul_memWf (d : RegName) (a b : Src) (s : State)  (hwf : s.memWf = true) :
    ∀ t, execImul d a b s = .next t → t.memWf = true := by
  unfold execImul
  intro t ht
  repeat' first
    | with_reducible assumption | (with_reducible apply runInt2_memWf; case a => with_reducible assumption)

theorem execImulhs_memWf (d : RegName) (a b : Src) (s : State)  (hwf : s.memWf = true) :
    ∀ t, execImulhs d a b s = .next t → t.memWf = true := by
  unfold execImulhs
  intro t ht
  repeat' first
    | with_reducible assumption | (with_reducible apply runInt2_memWf; case a => with_reducible assumption)

theorem execImulhu_memWf (d : RegName) (a b : Src) (s : State)  (hwf : s.memWf = true) :
    ∀ t, execImulhu d a b s = .next t → t.memWf = true := by
  unfold execImulhu
  intro t ht
  repeat' first
    | with_reducible assumption | (with_reducible apply runInt2_memWf; case a => with_reducible assumption)

theorem execIadds_memWf (d : RegName) (a b : Src) (s : State)  (hwf : s.memWf = true) :
    ∀ t, execIadds d a b s = .next t → t.memWf = true := by
  unfold execIadds
  intro t ht
  repeat' first
    | with_reducible assumption | (with_reducible apply runInt2_memWf; case a => with_reducible assumption)

theorem execIsubs_memWf (d : RegName) (a b : Src) (s : State)  (hwf : s.memWf = true) :
    ∀ t, execIsubs d a b s = .next t → t.memWf = true := by
  unfold execIsubs
  intro t ht
  repeat' first
    | with_reducible assumption | (with_reducible apply runInt2_memWf; case a => with_reducible assumption)

theorem execImin_memWf (d : RegName) (a b : Src) (s : State)  (hwf : s.memWf = true) :
    ∀ t, execImin d a b s = .next t → t.memWf = true := by
  unfold execImin
  intro t ht
  repeat' first
    | with_reducible assumption | (with_reducible apply runInt2_memWf; case a => with_reducible assumption)

theorem execImax_memWf (d : RegName) (a b : Src) (s : State)  (hwf : s.memWf = true) :
    ∀ t, execImax d a b s = .next t → t.memWf = true := by
  unfold execImax
  intro t ht
  repeat' first
    | with_reducible assumption | (with_reducible apply runInt2_memWf; case a => with_reducible assumption)

theorem execUmin_memWf (d : RegName) (a b : Src) (s : State)  (hwf : s.memWf = true) :
    ∀ t, execUmin d a b s = .next t → t.memWf = true := by
  unfold execUmin
  intro t ht
  repeat' first
    | with_reducible assumption | (with_reducible apply runInt2_memWf; case a => with_reducible assumption)

theorem execUmax_memWf (d : RegName) (a b : Src) (s : State)  (hwf : s.memWf = true) :
    ∀ t, execUmax d a b s = .next t → t.memWf = true := by
  unfold execUmax
  intro t ht
  repeat' first
    | with_reducible assumption | (with_reducible apply runInt2_memWf; case a => with_reducible assumption)

theorem execIand_memWf (d : RegName) (a b : Src) (s : State)  (hwf : s.memWf = true) :
    ∀ t, execIand d a b s = .next t → t.memWf = true := by
  unfold execIand
  intro t ht
  repeat' first
    | with_reducible assumption | (with_reducible apply runInt2_memWf; case a => with_reducible assumption)

theorem execIor_memWf (d : RegName) (a b : Src) (s : State)  (hwf : s.memWf = true) :
    ∀ t, execIor d a b s = .next t → t.memWf = true := by
  unfold execIor
  intro t ht
  repeat' first
    | with_reducible assumption | (with_reducible apply runInt2_memWf; case a => with_reducible assumption)

theorem execIxor_memWf (d : RegName) (a b : Src) (s : State)  (hwf : s.memWf = true) :
    ∀ t, execIxor d a b s = .next t → t.memWf = true := by
  unfold execIxor
  intro t ht
  repeat' first
    | with_reducible assumption | (with_reducible apply runInt2_memWf; case a => with_reducible assumption)

theorem execAndn_memWf (d : RegName) (a b : Src) (s : State)  (hwf : s.memWf = true) :
    ∀ t, execAndn d a b s = .next t → t.memWf = true := by
  unfold execAndn
  intro t ht
  repeat' first
    | with_reducible assumption | (with_reducible apply runInt2_memWf; case a => with_reducible assumption)

theorem execShl_memWf (d : RegName) (a b : Src) (s : State)  (hwf : s.memWf = true) :
    ∀ t, execShl d a b s = .next t → t.memWf = true := by
  unfold execShl
  intro t ht
  repeat' first
    | with_reducible assumption | (with_reducible apply runInt2_memWf; case a => with_reducible assumption)

theorem execShr_memWf (d : RegName) (a b : Src) (s : State)  (hwf : s.memWf = true) :
    ∀ t, execShr d a b s = .next t → t.memWf = true := by
  unfold execShr
  intro t ht
  repeat' first
    | with_reducible assumption | (with_reducible apply runInt2_memWf; case a => with_reducible assumption)

theorem execSar_memWf (d : RegName) (a b : Src) (s : State)  (hwf : s.memWf = true) :
    ∀ t, execSar d a b s = .next t → t.memWf = true := by
  unfold execSar
  intro t ht
  repeat' first
    | with_reducible assumption | (with_reducible apply runInt2_memWf; case a => with_reducible assumption)

theorem execRotl_memWf (d : RegName) (a b : Src) (s : State)  (hwf : s.memWf = true) :
    ∀ t, execRotl d a b s = .next t → t.memWf = true := by
  unfold execRotl
  intro t ht
  repeat' first
    | with_reducible assumption | (with_reducible apply runInt2_memWf; case a => with_reducible assumption)

theorem execBfx_memWf (d : RegName) (a b : Src) (s : State)  (hwf : s.memWf = true) :
    ∀ t, execBfx d a b s = .next t → t.memWf = true := by
  unfold execBfx
  intro t ht
  repeat' first
    | with_reducible assumption | (with_reducible apply runInt2_memWf; case a => with_reducible assumption)

theorem execBfxs_memWf (d : RegName) (a b : Src) (s : State)  (hwf : s.memWf = true) :
    ∀ t, execBfxs d a b s = .next t → t.memWf = true := by
  unfold execBfxs
  intro t ht
  repeat' first
    | with_reducible assumption | (with_reducible apply runInt2_memWf; case a => with_reducible assumption)

theorem execImad_memWf (d : RegName) (a b : Src) (s : State)  (hwf : s.memWf = true) :
    ∀ t, execImad d a b s = .next t → t.memWf = true := by
  unfold execImad
  intro t ht
  repeat' first
    | with_reducible assumption | (with_reducible apply runInt3_memWf; case a => with_reducible assumption)

theorem execBfi_memWf (d : RegName) (a b : Src) (s : State)  (hwf : s.memWf = true) :
    ∀ t, execBfi d a b s = .next t → t.memWf = true := by
  unfold execBfi
  intro t ht
  repeat' first
    | with_reducible assumption | (with_reducible apply runInt3_memWf; case a => with_reducible assumption)

theorem execDp4s_memWf (d : RegName) (a b : Src) (s : State)  (hwf : s.memWf = true) :
    ∀ t, execDp4s d a b s = .next t → t.memWf = true := by
  unfold execDp4s
  intro t ht
  repeat' first
    | with_reducible assumption | (with_reducible apply runInt3_memWf; case a => with_reducible assumption)

theorem execDp4u_memWf (d : RegName) (a b : Src) (s : State)  (hwf : s.memWf = true) :
    ∀ t, execDp4u d a b s = .next t → t.memWf = true := by
  unfold execDp4u
  intro t ht
  repeat' first
    | with_reducible assumption | (with_reducible apply runInt3_memWf; case a => with_reducible assumption)

theorem execIadd64_memWf (d : RegName) (a b : Src) (s : State)  (hwf : s.memWf = true) :
    ∀ t, execIadd64 d a b s = .next t → t.memWf = true := by
  unfold execIadd64
  intro t ht
  repeat' first
    | with_reducible assumption | (with_reducible apply runIntPair_memWf; case a => with_reducible assumption)

theorem execIsub64_memWf (d : RegName) (a b : Src) (s : State)  (hwf : s.memWf = true) :
    ∀ t, execIsub64 d a b s = .next t → t.memWf = true := by
  unfold execIsub64
  intro t ht
  repeat' first
    | with_reducible assumption | (with_reducible apply runIntPair_memWf; case a => with_reducible assumption)

theorem execImulws_memWf (d : RegName) (a b : Src) (s : State)  (hwf : s.memWf = true) :
    ∀ t, execImulws d a b s = .next t → t.memWf = true := by
  unfold execImulws
  intro t ht
  repeat' first
    | with_reducible assumption | (with_reducible apply runIntPair_memWf; case a => with_reducible assumption)

theorem execImulwu_memWf (d : RegName) (a b : Src) (s : State)  (hwf : s.memWf = true) :
    ∀ t, execImulwu d a b s = .next t → t.memWf = true := by
  unfold execImulwu
  intro t ht
  repeat' first
    | with_reducible assumption | (with_reducible apply runIntPair_memWf; case a => with_reducible assumption)

theorem execShlw_memWf (d : RegName) (a b : Src) (s : State)  (hwf : s.memWf = true) :
    ∀ t, execShlw d a b s = .next t → t.memWf = true := by
  unfold execShlw
  intro t ht
  repeat' first
    | with_reducible assumption | (with_reducible apply runIntPair_memWf; case a => with_reducible assumption)

theorem execShrw_memWf (d : RegName) (a b : Src) (s : State)  (hwf : s.memWf = true) :
    ∀ t, execShrw d a b s = .next t → t.memWf = true := by
  unfold execShrw
  intro t ht
  repeat' first
    | with_reducible assumption | (with_reducible apply runIntPair_memWf; case a => with_reducible assumption)

theorem execIaddi_memWf (d : RegName) (a : Src) (imm : Word) (s : State)  (hwf : s.memWf = true) :
    ∀ t, execIaddi d a imm s = .next t → t.memWf = true := by
  unfold execIaddi
  intro t ht
  repeat' first
    | with_reducible assumption | (with_reducible apply runInt1_memWf; case a => with_reducible assumption)

theorem execAndi_memWf (d : RegName) (a : Src) (imm : Word) (s : State)  (hwf : s.memWf = true) :
    ∀ t, execAndi d a imm s = .next t → t.memWf = true := by
  unfold execAndi
  intro t ht
  repeat' first
    | with_reducible assumption | (with_reducible apply runInt1_memWf; case a => with_reducible assumption)

theorem execOri_memWf (d : RegName) (a : Src) (imm : Word) (s : State)  (hwf : s.memWf = true) :
    ∀ t, execOri d a imm s = .next t → t.memWf = true := by
  unfold execOri
  intro t ht
  repeat' first
    | with_reducible assumption | (with_reducible apply runInt1_memWf; case a => with_reducible assumption)

theorem execXori_memWf (d : RegName) (a : Src) (imm : Word) (s : State)  (hwf : s.memWf = true) :
    ∀ t, execXori d a imm s = .next t → t.memWf = true := by
  unfold execXori
  intro t ht
  repeat' first
    | with_reducible assumption | (with_reducible apply runInt1_memWf; case a => with_reducible assumption)

theorem execShli_memWf (d : RegName) (a : Src) (imm : Word) (s : State)  (hwf : s.memWf = true) :
    ∀ t, execShli d a imm s = .next t → t.memWf = true := by
  unfold execShli
  intro t ht
  repeat' first
    | with_reducible assumption | (with_reducible apply runInt1_memWf; case a => with_reducible assumption)

theorem execShri_memWf (d : RegName) (a : Src) (imm : Word) (s : State)  (hwf : s.memWf = true) :
    ∀ t, execShri d a imm s = .next t → t.memWf = true := by
  unfold execShri
  intro t ht
  repeat' first
    | with_reducible assumption | (with_reducible apply runInt1_memWf; case a => with_reducible assumption)

theorem execSari_memWf (d : RegName) (a : Src) (imm : Word) (s : State)  (hwf : s.memWf = true) :
    ∀ t, execSari d a imm s = .next t → t.memWf = true := by
  unfold execSari
  intro t ht
  repeat' first
    | with_reducible assumption | (with_reducible apply runInt1_memWf; case a => with_reducible assumption)

theorem execImuli_memWf (d : RegName) (a : Src) (imm : Word) (s : State)  (hwf : s.memWf = true) :
    ∀ t, execImuli d a imm s = .next t → t.memWf = true := by
  unfold execImuli
  intro t ht
  repeat' first
    | with_reducible assumption | (with_reducible apply runInt1_memWf; case a => with_reducible assumption)

theorem execMovi_memWf (d : RegName) (imm : Word) (s : State)  (hwf : s.memWf = true) :
    ∀ t, execMovi d imm s = .next t → t.memWf = true := by
  unfold execMovi
  intro t ht
  repeat' first
    | with_reducible assumption | (with_reducible apply runInt0_memWf; case a => with_reducible assumption)

theorem execLui_memWf (d : RegName) (imm : Word) (s : State)  (hwf : s.memWf = true) :
    ∀ t, execLui d imm s = .next t → t.memWf = true := by
  unfold execLui
  intro t ht
  repeat' first
    | with_reducible assumption | (with_reducible apply runInt0_memWf; case a => with_reducible assumption)

theorem execMov_memWf (d : RegName) (a : Src) (s : State)  (hwf : s.memWf = true) :
    ∀ t, execMov d a s = .next t → t.memWf = true := by
  unfold execMov
  intro t ht
  repeat' first
    | with_reducible assumption | (with_reducible apply runInt1_memWf; case a => with_reducible assumption)

theorem execInot_memWf (d : RegName) (a : Src) (s : State)  (hwf : s.memWf = true) :
    ∀ t, execInot d a s = .next t → t.memWf = true := by
  unfold execInot
  intro t ht
  repeat' first
    | with_reducible assumption | (with_reducible apply runInt1_memWf; case a => with_reducible assumption)

theorem execIneg_memWf (d : RegName) (a : Src) (s : State)  (hwf : s.memWf = true) :
    ∀ t, execIneg d a s = .next t → t.memWf = true := by
  unfold execIneg
  intro t ht
  repeat' first
    | with_reducible assumption | (with_reducible apply runInt1_memWf; case a => with_reducible assumption)

theorem execIabs_memWf (d : RegName) (a : Src) (s : State)  (hwf : s.memWf = true) :
    ∀ t, execIabs d a s = .next t → t.memWf = true := by
  unfold execIabs
  intro t ht
  repeat' first
    | with_reducible assumption | (with_reducible apply runInt1_memWf; case a => with_reducible assumption)

theorem execPopc_memWf (d : RegName) (a : Src) (s : State)  (hwf : s.memWf = true) :
    ∀ t, execPopc d a s = .next t → t.memWf = true := by
  unfold execPopc
  intro t ht
  repeat' first
    | with_reducible assumption | (with_reducible apply runInt1_memWf; case a => with_reducible assumption)

theorem execClz_memWf (d : RegName) (a : Src) (s : State)  (hwf : s.memWf = true) :
    ∀ t, execClz d a s = .next t → t.memWf = true := by
  unfold execClz
  intro t ht
  repeat' first
    | with_reducible assumption | (with_reducible apply runInt1_memWf; case a => with_reducible assumption)

theorem execCtz_memWf (d : RegName) (a : Src) (s : State)  (hwf : s.memWf = true) :
    ∀ t, execCtz d a s = .next t → t.memWf = true := by
  unfold execCtz
  intro t ht
  repeat' first
    | with_reducible assumption | (with_reducible apply runInt1_memWf; case a => with_reducible assumption)

theorem execBrev_memWf (d : RegName) (a : Src) (s : State)  (hwf : s.memWf = true) :
    ∀ t, execBrev d a s = .next t → t.memWf = true := by
  unfold execBrev
  intro t ht
  repeat' first
    | with_reducible assumption | (with_reducible apply runInt1_memWf; case a => with_reducible assumption)

theorem execBswap_memWf (d : RegName) (a : Src) (s : State)  (hwf : s.memWf = true) :
    ∀ t, execBswap d a s = .next t → t.memWf = true := by
  unfold execBswap
  intro t ht
  repeat' first
    | with_reducible assumption | (with_reducible apply runInt1_memWf; case a => with_reducible assumption)

theorem execSext8_memWf (d : RegName) (a : Src) (s : State)  (hwf : s.memWf = true) :
    ∀ t, execSext8 d a s = .next t → t.memWf = true := by
  unfold execSext8
  intro t ht
  repeat' first
    | with_reducible assumption | (with_reducible apply runInt1_memWf; case a => with_reducible assumption)

theorem execSext16_memWf (d : RegName) (a : Src) (s : State)  (hwf : s.memWf = true) :
    ∀ t, execSext16 d a s = .next t → t.memWf = true := by
  unfold execSext16
  intro t ht
  repeat' first
    | with_reducible assumption | (with_reducible apply runInt1_memWf; case a => with_reducible assumption)

theorem execZext8_memWf (d : RegName) (a : Src) (s : State)  (hwf : s.memWf = true) :
    ∀ t, execZext8 d a s = .next t → t.memWf = true := by
  unfold execZext8
  intro t ht
  repeat' first
    | with_reducible assumption | (with_reducible apply runInt1_memWf; case a => with_reducible assumption)

theorem execZext16_memWf (d : RegName) (a : Src) (s : State)  (hwf : s.memWf = true) :
    ∀ t, execZext16 d a s = .next t → t.memWf = true := by
  unfold execZext16
  intro t ht
  repeat' first
    | with_reducible assumption | (with_reducible apply runInt1_memWf; case a => with_reducible assumption)

theorem execIcmp_memWf (pd : PredName) (cc : IntCC) (a b : Src) (s : State)  (hwf : s.memWf = true) :
    ∀ t, execIcmp pd cc a b s = .next t → t.memWf = true := by
  unfold execIcmp
  intro t ht
  repeat' first
    | with_reducible assumption | (with_reducible apply runCompare_memWf; case a => with_reducible assumption)

theorem execIcmpi_memWf (pd : PredName) (cc : IntCC) (a : Src) (imm : Word) (s : State)  (hwf : s.memWf = true) :
    ∀ t, execIcmpi pd cc a imm s = .next t → t.memWf = true := by
  unfold execIcmpi
  intro t ht
  repeat' first
    | with_reducible assumption | (with_reducible apply runCompare_memWf; case a => with_reducible assumption)

theorem execIcmp64_memWf (pd : PredName) (cc : IntCC) (a b : Src) (s : State)  (hwf : s.memWf = true) :
    ∀ t, execIcmp64 pd cc a b s = .next t → t.memWf = true := by
  unfold execIcmp64
  intro t ht
  repeat' first
    | with_reducible assumption | (with_reducible apply runCompare_memWf; case a => with_reducible assumption)

theorem execSel_memWf (d : RegName) (a b : Src) (s : State)  (hwf : s.memWf = true) :
    ∀ t, execSel d a b s = .next t → t.memWf = true := by
  unfold execSel
  exact runShort_memWf _ hwf

theorem execPlop_memWf (pd pa pb pc : PredName) (lut : BitVec 8) (s : State)  (hwf : s.memWf = true) :
    ∀ t, execPlop pd pa pb pc lut s = .next t → t.memWf = true := by
  unfold execPlop
  intro t ht
  repeat' first
    | with_reducible assumption | (with_reducible apply runCompare_memWf; case a => with_reducible assumption)

theorem runFp2_memWf (i : Instr) (d : RegName) (a b : Src) (s : State) (op : Word → Word → Word × FpFlags)  (hwf : s.memWf = true) :
    ∀ t, runFp2 i d a b s op = .next t → t.memWf = true := by
  unfold runFp2
  exact runShort_memWf _ hwf

theorem runFp3_memWf (i : Instr) (d : RegName) (a b : Src) (s : State) (op : Word → Word → Word → Word × FpFlags)  (hwf : s.memWf = true) :
    ∀ t, runFp3 i d a b s op = .next t → t.memWf = true := by
  unfold runFp3
  exact runShort_memWf _ hwf

theorem runFp1_memWf (i : Instr) (d : RegName) (a : Src) (s : State) (op : Word → Word × FpFlags)  (hwf : s.memWf = true) :
    ∀ t, runFp1 i d a s op = .next t → t.memWf = true := by
  unfold runFp1
  exact runShort_memWf _ hwf

theorem runFun_memWf (i : Instr) (d : RegName) (a : Src) (s : State) (op : Word → Word × FpFlags)  (hwf : s.memWf = true) :
    ∀ t, runFun i d a s op = .next t → t.memWf = true := by
  unfold runFun
  exact runLong_memWf _ hwf

theorem execFadd_memWf (d : RegName) (a b : Src) (s : State)  (hwf : s.memWf = true) :
    ∀ t, execFadd d a b s = .next t → t.memWf = true := by
  unfold execFadd
  intro t ht
  repeat' first
    | with_reducible assumption | (with_reducible apply runFp2_memWf; case a => with_reducible assumption)

theorem execFsub_memWf (d : RegName) (a b : Src) (s : State)  (hwf : s.memWf = true) :
    ∀ t, execFsub d a b s = .next t → t.memWf = true := by
  unfold execFsub
  intro t ht
  repeat' first
    | with_reducible assumption | (with_reducible apply runFp2_memWf; case a => with_reducible assumption)

theorem execFmul_memWf (d : RegName) (a b : Src) (s : State)  (hwf : s.memWf = true) :
    ∀ t, execFmul d a b s = .next t → t.memWf = true := by
  unfold execFmul
  intro t ht
  repeat' first
    | with_reducible assumption | (with_reducible apply runFp2_memWf; case a => with_reducible assumption)

theorem execFfma_memWf (d : RegName) (a b : Src) (s : State)  (hwf : s.memWf = true) :
    ∀ t, execFfma d a b s = .next t → t.memWf = true := by
  unfold execFfma
  intro t ht
  repeat' first
    | with_reducible assumption | (with_reducible apply runFp3_memWf; case a => with_reducible assumption)

theorem execFnfma_memWf (d : RegName) (a b : Src) (s : State)  (hwf : s.memWf = true) :
    ∀ t, execFnfma d a b s = .next t → t.memWf = true := by
  unfold execFnfma
  intro t ht
  repeat' first
    | with_reducible assumption | (with_reducible apply runFp3_memWf; case a => with_reducible assumption)

theorem execFmin_memWf (d : RegName) (a b : Src) (s : State)  (hwf : s.memWf = true) :
    ∀ t, execFmin d a b s = .next t → t.memWf = true := by
  unfold execFmin
  intro t ht
  repeat' first
    | with_reducible assumption | (with_reducible apply runFp2_memWf; case a => with_reducible assumption)

theorem execFmax_memWf (d : RegName) (a b : Src) (s : State)  (hwf : s.memWf = true) :
    ∀ t, execFmax d a b s = .next t → t.memWf = true := by
  unfold execFmax
  intro t ht
  repeat' first
    | with_reducible assumption | (with_reducible apply runFp2_memWf; case a => with_reducible assumption)

theorem execFcmp_memWf (pd : PredName) (cc : FpCC) (a b : Src) (s : State)  (hwf : s.memWf = true) :
    ∀ t, execFcmp pd cc a b s = .next t → t.memWf = true := by
  unfold execFcmp
  exact runShort_memWf _ hwf

theorem execFaddi_memWf (d : RegName) (a : Src) (imm : Word) (s : State)  (hwf : s.memWf = true) :
    ∀ t, execFaddi d a imm s = .next t → t.memWf = true := by
  unfold execFaddi
  intro t ht
  repeat' first
    | with_reducible assumption | (with_reducible apply runFp1_memWf; case a => with_reducible assumption)

theorem execFmuli_memWf (d : RegName) (a : Src) (imm : Word) (s : State)  (hwf : s.memWf = true) :
    ∀ t, execFmuli d a imm s = .next t → t.memWf = true := by
  unfold execFmuli
  intro t ht
  repeat' first
    | with_reducible assumption | (with_reducible apply runFp1_memWf; case a => with_reducible assumption)

theorem execFcmpi_memWf (pd : PredName) (cc : FpCC) (a : Src) (imm : Word) (s : State)  (hwf : s.memWf = true) :
    ∀ t, execFcmpi pd cc a imm s = .next t → t.memWf = true := by
  unfold execFcmpi
  exact runShort_memWf _ hwf

theorem execHadd2_memWf (d : RegName) (a b : Src) (s : State)  (hwf : s.memWf = true) :
    ∀ t, execHadd2 d a b s = .next t → t.memWf = true := by
  unfold execHadd2
  intro t ht
  repeat' first
    | with_reducible assumption | (with_reducible apply runFp2_memWf; case a => with_reducible assumption)

theorem execHmul2_memWf (d : RegName) (a b : Src) (s : State)  (hwf : s.memWf = true) :
    ∀ t, execHmul2 d a b s = .next t → t.memWf = true := by
  unfold execHmul2
  intro t ht
  repeat' first
    | with_reducible assumption | (with_reducible apply runFp2_memWf; case a => with_reducible assumption)

theorem execBadd2_memWf (d : RegName) (a b : Src) (s : State)  (hwf : s.memWf = true) :
    ∀ t, execBadd2 d a b s = .next t → t.memWf = true := by
  unfold execBadd2
  intro t ht
  repeat' first
    | with_reducible assumption | (with_reducible apply runFp2_memWf; case a => with_reducible assumption)

theorem execBmul2_memWf (d : RegName) (a b : Src) (s : State)  (hwf : s.memWf = true) :
    ∀ t, execBmul2 d a b s = .next t → t.memWf = true := by
  unfold execBmul2
  intro t ht
  repeat' first
    | with_reducible assumption | (with_reducible apply runFp2_memWf; case a => with_reducible assumption)

theorem execHmin2_memWf (d : RegName) (a b : Src) (s : State)  (hwf : s.memWf = true) :
    ∀ t, execHmin2 d a b s = .next t → t.memWf = true := by
  unfold execHmin2
  intro t ht
  repeat' first
    | with_reducible assumption | (with_reducible apply runFp2_memWf; case a => with_reducible assumption)

theorem execHmax2_memWf (d : RegName) (a b : Src) (s : State)  (hwf : s.memWf = true) :
    ∀ t, execHmax2 d a b s = .next t → t.memWf = true := by
  unfold execHmax2
  intro t ht
  repeat' first
    | with_reducible assumption | (with_reducible apply runFp2_memWf; case a => with_reducible assumption)

theorem execHfma2_memWf (d : RegName) (a b : Src) (s : State)  (hwf : s.memWf = true) :
    ∀ t, execHfma2 d a b s = .next t → t.memWf = true := by
  unfold execHfma2
  intro t ht
  repeat' first
    | with_reducible assumption | (with_reducible apply runFp3_memWf; case a => with_reducible assumption)

theorem execBfma2_memWf (d : RegName) (a b : Src) (s : State)  (hwf : s.memWf = true) :
    ∀ t, execBfma2 d a b s = .next t → t.memWf = true := by
  unfold execBfma2
  intro t ht
  repeat' first
    | with_reducible assumption | (with_reducible apply runFp3_memWf; case a => with_reducible assumption)

theorem execPkh_memWf (d : RegName) (a b : Src) (s : State)  (hwf : s.memWf = true) :
    ∀ t, execPkh d a b s = .next t → t.memWf = true := by
  unfold execPkh
  intro t ht
  repeat' first
    | with_reducible assumption | (with_reducible apply runFp2_memWf; case a => with_reducible assumption)

theorem execPkb_memWf (d : RegName) (a b : Src) (s : State)  (hwf : s.memWf = true) :
    ∀ t, execPkb d a b s = .next t → t.memWf = true := by
  unfold execPkb
  intro t ht
  repeat' first
    | with_reducible assumption | (with_reducible apply runFp2_memWf; case a => with_reducible assumption)

theorem execFabs_memWf (d : RegName) (a : Src) (s : State)  (hwf : s.memWf = true) :
    ∀ t, execFabs d a s = .next t → t.memWf = true := by
  unfold execFabs
  intro t ht
  repeat' first
    | with_reducible assumption | (with_reducible apply runFp1_memWf; case a => with_reducible assumption)

theorem execFneg_memWf (d : RegName) (a : Src) (s : State)  (hwf : s.memWf = true) :
    ∀ t, execFneg d a s = .next t → t.memWf = true := by
  unfold execFneg
  intro t ht
  repeat' first
    | with_reducible assumption | (with_reducible apply runFp1_memWf; case a => with_reducible assumption)

theorem execFrcp_memWf (d : RegName) (a : Src) (s : State)  (hwf : s.memWf = true) :
    ∀ t, execFrcp d a s = .next t → t.memWf = true := by
  unfold execFrcp
  intro t ht
  repeat' first
    | with_reducible assumption | (with_reducible apply runFun_memWf; case a => with_reducible assumption)

theorem execFrsq_memWf (d : RegName) (a : Src) (s : State)  (hwf : s.memWf = true) :
    ∀ t, execFrsq d a s = .next t → t.memWf = true := by
  unfold execFrsq
  intro t ht
  repeat' first
    | with_reducible assumption | (with_reducible apply runFun_memWf; case a => with_reducible assumption)

theorem execFsqrt_memWf (d : RegName) (a : Src) (s : State)  (hwf : s.memWf = true) :
    ∀ t, execFsqrt d a s = .next t → t.memWf = true := by
  unfold execFsqrt
  intro t ht
  repeat' first
    | with_reducible assumption | (with_reducible apply runFun_memWf; case a => with_reducible assumption)

theorem execFexp2_memWf (d : RegName) (a : Src) (s : State)  (hwf : s.memWf = true) :
    ∀ t, execFexp2 d a s = .next t → t.memWf = true := by
  unfold execFexp2
  intro t ht
  repeat' first
    | with_reducible assumption | (with_reducible apply runFun_memWf; case a => with_reducible assumption)

theorem execFlog2_memWf (d : RegName) (a : Src) (s : State)  (hwf : s.memWf = true) :
    ∀ t, execFlog2 d a s = .next t → t.memWf = true := by
  unfold execFlog2
  intro t ht
  repeat' first
    | with_reducible assumption | (with_reducible apply runFun_memWf; case a => with_reducible assumption)

theorem execFsinp_memWf (d : RegName) (a : Src) (s : State)  (hwf : s.memWf = true) :
    ∀ t, execFsinp d a s = .next t → t.memWf = true := by
  unfold execFsinp
  intro t ht
  repeat' first
    | with_reducible assumption | (with_reducible apply runFun_memWf; case a => with_reducible assumption)

theorem execFcosp_memWf (d : RegName) (a : Src) (s : State)  (hwf : s.memWf = true) :
    ∀ t, execFcosp d a s = .next t → t.memWf = true := by
  unfold execFcosp
  intro t ht
  repeat' first
    | with_reducible assumption | (with_reducible apply runFun_memWf; case a => with_reducible assumption)

theorem execFtanh_memWf (d : RegName) (a : Src) (s : State)  (hwf : s.memWf = true) :
    ∀ t, execFtanh d a s = .next t → t.memWf = true := by
  unfold execFtanh
  intro t ht
  repeat' first
    | with_reducible assumption | (with_reducible apply runFun_memWf; case a => with_reducible assumption)

theorem execFrndn_memWf (d : RegName) (a : Src) (s : State)  (hwf : s.memWf = true) :
    ∀ t, execFrndn d a s = .next t → t.memWf = true := by
  unfold execFrndn
  intro t ht
  repeat' first
    | with_reducible assumption | (with_reducible apply runFun_memWf; case a => with_reducible assumption)

theorem execFrndz_memWf (d : RegName) (a : Src) (s : State)  (hwf : s.memWf = true) :
    ∀ t, execFrndz d a s = .next t → t.memWf = true := by
  unfold execFrndz
  intro t ht
  repeat' first
    | with_reducible assumption | (with_reducible apply runFun_memWf; case a => with_reducible assumption)

theorem execFrndp_memWf (d : RegName) (a : Src) (s : State)  (hwf : s.memWf = true) :
    ∀ t, execFrndp d a s = .next t → t.memWf = true := by
  unfold execFrndp
  intro t ht
  repeat' first
    | with_reducible assumption | (with_reducible apply runFun_memWf; case a => with_reducible assumption)

theorem execFrndm_memWf (d : RegName) (a : Src) (s : State)  (hwf : s.memWf = true) :
    ∀ t, execFrndm d a s = .next t → t.memWf = true := by
  unfold execFrndm
  intro t ht
  repeat' first
    | with_reducible assumption | (with_reducible apply runFun_memWf; case a => with_reducible assumption)

theorem execFclass_memWf (d : RegName) (a : Src) (s : State)  (hwf : s.memWf = true) :
    ∀ t, execFclass d a s = .next t → t.memWf = true := by
  unfold execFclass
  intro t ht
  repeat' first
    | with_reducible assumption | (with_reducible apply runFun_memWf; case a => with_reducible assumption)

theorem execFsat_memWf (d : RegName) (a : Src) (s : State)  (hwf : s.memWf = true) :
    ∀ t, execFsat d a s = .next t → t.memWf = true := by
  unfold execFsat
  intro t ht
  repeat' first
    | with_reducible assumption | (with_reducible apply runFun_memWf; case a => with_reducible assumption)

theorem execFfrac_memWf (d : RegName) (a : Src) (s : State)  (hwf : s.memWf = true) :
    ∀ t, execFfrac d a s = .next t → t.memWf = true := by
  unfold execFfrac
  intro t ht
  repeat' first
    | with_reducible assumption | (with_reducible apply runFun_memWf; case a => with_reducible assumption)

theorem execCvt_memWf (d : RegName) (a : Src) (src dst : NumFmt) (rnd : Rounding) (s : State)  (hwf : s.memWf = true) :
    ∀ t, execCvt d a src dst rnd s = .next t → t.memWf = true := by
  unfold execCvt
  intro t ht
  repeat' first
    | with_reducible assumption | (with_reducible apply runFun_memWf; case a => with_reducible assumption)

theorem execLongWriteComplete_memWf (blk c id : Nat) (s : State)  (hwf : s.memWf = true) :
    ∀ t, execLongWriteComplete blk c id s = .next t → t.memWf = true := by
  unfold execLongWriteComplete
  intro t ht
  repeat' first
    | with_reducible assumption | with_reducible apply completeLongs_memWf | intro _ | split | dsimp only
    | fail_if_no_progress with_reducible refine memWf_mk ?_ | split at ht | (injection ht with ht; subst ht)

theorem execBarrierComplete_memWf (blk : Nat) (id : BitVec 4) (s : State)  (hwf : s.memWf = true) :
    ∀ t, execBarrierComplete blk id s = .next t → t.memWf = true := by
  unfold execBarrierComplete
  intro t ht
  repeat' first
    | with_reducible assumption | with_reducible apply setBlock_memWf | with_reducible apply mapPaths_memWf | intro _
    | split | dsimp only | fail_if_no_progress with_reducible refine memWf_mk ?_
    | (have hb := fun h => getBlock_memWf h ‹getBlock _ _ = some _›; refine hb ?_) | split at ht
    | (injection ht with ht; subst ht)

theorem execPhaseWake_memWf (blk c : Nat) (slot : BitVec 1) (s : State)  (hwf : s.memWf = true) :
    ∀ t, execPhaseWake blk c slot s = .next t → t.memWf = true := by
  unfold execPhaseWake
  intro t ht
  repeat' first
    | with_reducible assumption | with_reducible apply updPath_memWf | with_reducible apply progress_memWf | intro _
    | split | dsimp only | fail_if_no_progress with_reducible refine memWf_mk ?_ | split at ht
    | (injection ht with ht; subst ht)

theorem execStorePerformed_memWf (core idx : Nat) (s : State)  (hwf : s.memWf = true) :
    ∀ t, execStorePerformed core idx s = .next t → t.memWf = true := by
  unfold execStorePerformed
  intro t ht
  repeat' first
    | with_reducible assumption | with_reducible apply drainStores_memWf | intro _ | split | dsimp only
    | fail_if_no_progress with_reducible refine memWf_mk ?_ | split at ht | (injection ht with ht; subst ht)

theorem execSrd_memWf (d : RegName) (sr : BitVec 9) (s : State)  (hwf : s.memWf = true) :
    ∀ t, execSrd d sr s = .next t → t.memWf = true := by
  unfold execSrd
  refine runInstr_memWf hwf (fun v hv => ?_)
  repeat' first
    | with_reducible assumption | with_reducible apply updCourse_memWf | with_reducible apply retire_memWf
    | with_reducible apply writeLong_memWf | intro _ | split

theorem execSwr_memWf (sr : BitVec 9) (a : Src) (s : State)  (hwf : s.memWf = true) :
    ∀ t, execSwr sr a s = .next t → t.memWf = true := by
  unfold execSwr
  refine runInstr_memWf hwf (fun v hv => ?_)
  repeat' first
    | with_reducible assumption | with_reducible apply updCourse_memWf | with_reducible apply retire_memWf | intro _
    | split

theorem execTaskDone_memWf (s : State)  (hwf : s.memWf = true) :
    ∀ t, execTaskDone s = .next t → t.memWf = true := by
  unfold execTaskDone
  refine runInstr_memWf hwf (fun v hv => ?_)
  repeat' first
    | with_reducible assumption | with_reducible apply drainCore_memWf | with_reducible apply markDone_memWf
    | with_reducible apply retire_memWf | intro _ | split

theorem retestWaits_memWf (s : State) (p : BitVec 3)  (hwf : s.memWf = true) :
    (retestWaits s p).memWf = true := by
  unfold retestWaits
  repeat' first
    | with_reducible assumption | intro _ | split | dsimp only | fail_if_no_progress with_reducible refine memWf_mk ?_

theorem poisonAll_memWf (s : State) (v : View) (va : Nat) (tag : Half)  (hwf : s.memWf = true) :
    (poisonAll s v va tag).memWf = true := by
  unfold poisonAll
  repeat' first
    | with_reducible assumption | refine snd_memWf (by assumption) ?_ | with_reducible apply newId_memWf
    | with_reducible apply updCourse_memWf | with_reducible apply addLong_memWf

theorem signalHome_memWf (s : State) (v : View) (va : Nat) (h : Home)  (hwf : s.memWf = true) :
    (signalHome s v va h).memWf = true := by
  unfold signalHome
  repeat' first
    | with_reducible assumption | refine snd_memWf (by assumption) ?_ | with_reducible apply atomicAt_memWf
    | with_reducible apply retestWaits_memWf | with_reducible apply poisonAll_memWf | intro _ | split

theorem execTaskSignal_memWf (a : Src) (s : State)  (hwf : s.memWf = true) :
    ∀ t, execTaskSignal a s = .next t → t.memWf = true := by
  unfold execTaskSignal
  refine runInstr_memWf hwf (fun v hv => ?_)
  repeat' first
    | with_reducible assumption | with_reducible apply drainCore_memWf | with_reducible apply retire_memWf
    | with_reducible apply touchAccess_memWf | with_reducible apply retestWaits_memWf
    | with_reducible apply poisonAll_memWf | with_reducible apply signalHome_memWf | intro _ | split | dsimp only

theorem execTaskEnq_memWf (d : RegName) (a : Src) (s : State)  (hwf : s.memWf = true) :
    ∀ t, execTaskEnq d a s = .next t → t.memWf = true := by
  unfold execTaskEnq
  refine runInstr_memWf hwf (fun v hv => ?_)
  repeat' first
    | with_reducible assumption | with_reducible apply setCtx_memWf | with_reducible apply drainCore_memWf
    | with_reducible apply retire_memWf | with_reducible apply writeLong_memWf | with_reducible apply poisonAll_memWf
    | intro _ | split | dsimp only

theorem execStepBegin_memWf (d : RegName) (a : Src) (s : State)  (hwf : s.memWf = true) :
    ∀ t, execStepBegin d a s = .next t → t.memWf = true := by
  unfold execStepBegin
  refine runInstr_memWf hwf (fun v hv => ?_)
  repeat' first
    | with_reducible assumption | with_reducible apply setCtx_memWf | with_reducible apply retire_memWf
    | with_reducible apply writeLong_memWf | intro _ | split

theorem closeStep_memWf (s : State) (x : Context)  (hwf : s.memWf = true) :
    (closeStep s x).memWf = true := by
  exact mapBlocks_memWf (setCtx_memWf _ _ _ hwf) (fun e he => by split <;> exact he)

theorem execStepEnd_memWf (d : RegName) (a : Src) (s : State)  (hwf : s.memWf = true) :
    ∀ t, execStepEnd d a s = .next t → t.memWf = true := by
  unfold execStepEnd
  refine runInstr_memWf hwf (fun v hv => ?_)
  repeat' first
    | with_reducible assumption | with_reducible apply retire_memWf | with_reducible apply writeLong_memWf
    | with_reducible apply closeStep_memWf | intro _ | split

theorem execStepSlack_memWf (d : RegName) (a : Src) (s : State)  (hwf : s.memWf = true) :
    ∀ t, execStepSlack d a s = .next t → t.memWf = true := by
  unfold execStepSlack
  refine runInstr_memWf hwf (fun v hv => ?_)
  repeat' first
    | with_reducible assumption | with_reducible apply setBlock_memWf | with_reducible apply retire_memWf
    | with_reducible apply writeLong_memWf | intro _ | split | dsimp only
    | fail_if_no_progress with_reducible refine memWf_mk ?_ | contradiction | exact hv

theorem setTape_memWf (s : State) (v : View) (t : Tape)  (hwf : s.memWf = true) :
    (setTape s v t).memWf = true := by
  unfold setTape
  repeat' first
    | with_reducible assumption | with_reducible apply updCourse_memWf

theorem appendTape_memWf (s : State) (v : View) (r : TapeRec)  (hwf : s.memWf = true) :
    (appendTape s v r).memWf = true := by
  unfold appendTape
  repeat' first
    | with_reducible assumption | with_reducible apply appendRec_memWf | with_reducible apply setTape_memWf

theorem popTape_memWf (s : State) (v : View)  (hwf : s.memWf = true) :
    (popTape s v).2.memWf = true := by
  unfold popTape
  repeat' first
    | with_reducible assumption | with_reducible apply touchTape_memWf | with_reducible apply setTape_memWf | intro _
    | split

theorem execTrec_memWf (w : TapeWidth) (tag : BitVec 7) (a : Src) (s : State)  (hwf : s.memWf = true) :
    ∀ t, execTrec w tag a s = .next t → t.memWf = true := by
  unfold execTrec
  refine runInstr_memWf hwf (fun v hv => ?_)
  repeat' first
    | with_reducible assumption | with_reducible apply retire_memWf | with_reducible apply appendTape_memWf | intro _
    | split

theorem execTpop_memWf (w : TapeWidth) (tag : BitVec 7) (d : RegName) (s : State)  (hwf : s.memWf = true) :
    ∀ t, execTpop w tag d s = .next t → t.memWf = true := by
  unfold execTpop
  refine runInstr_memWf hwf (fun v hv => ?_)
  repeat' first
    | with_reducible assumption | refine snd_memWf (by assumption) ?_ | with_reducible apply retire_memWf
    | with_reducible apply writeLong_memWf | with_reducible apply popTape_memWf | intro _ | split

theorem execTctlRecbegin_memWf (drop : Bool) (rec : RecName) (hint : Hint) (s : State)  (hwf : s.memWf = true) :
    ∀ t, execTctlRecbegin drop rec hint s = .next t → t.memWf = true := by
  unfold execTctlRecbegin
  refine runInstr_memWf hwf (fun v hv => ?_)
  repeat' first
    | with_reducible assumption | with_reducible apply retire_memWf | with_reducible apply setTape_memWf | intro _
    | split

theorem execTctlRecbeginExt_memWf (drop : Bool) (rec : RecName) (hint : Hint) (s : State)  (hwf : s.memWf = true) :
    ∀ t, execTctlRecbeginExt drop rec hint s = .next t → t.memWf = true := by
  unfold execTctlRecbeginExt
  refine runInstr_memWf hwf (fun v hv => ?_)
  repeat' first
    | with_reducible assumption | with_reducible apply retire_memWf | with_reducible apply setTape_memWf | intro _
    | split

theorem endStream_memWf (s : State) (v : View) (hwf : s.memWf = true) : (endStream s v).2.1.memWf = true := by
  unfold endStream
  repeat' first
      | assumption | with_reducible apply closeChunk_memWf | with_reducible apply writeChunk_memWf | with_reducible apply writeHome_memWf | with_reducible apply hubWrite_memWf | split | dsimp only


theorem execTctlRecend_memWf (d : RegName) (s : State)  (hwf : s.memWf = true) :
    ∀ t, execTctlRecend d s = .next t → t.memWf = true := by
  unfold execTctlRecend
  refine runInstr_memWf hwf (fun v hv => ?_)
  repeat' first
    | with_reducible assumption | with_reducible apply retire_memWf | with_reducible apply writeLong_memWf
    | with_reducible apply setTape_memWf | with_reducible apply endStream_memWf | intro _ | split

theorem execTctlRepbegin_memWf (o : RegName) (rec : RecName) (hint : Hint) (s : State)  (hwf : s.memWf = true) :
    ∀ t, execTctlRepbegin o rec hint s = .next t → t.memWf = true := by
  unfold execTctlRepbegin
  refine runInstr_memWf hwf (fun v hv => ?_)
  repeat' first
    | with_reducible assumption | with_reducible apply acquire_memWf | with_reducible apply hubTouch_memWf
    | with_reducible apply retire_memWf | with_reducible apply setTape_memWf | intro _ | split

theorem execTctlRepend_memWf (s : State)  (hwf : s.memWf = true) :
    ∀ t, execTctlRepend s = .next t → t.memWf = true := by
  unfold execTctlRepend
  refine runInstr_memWf hwf (fun v hv => ?_)
  repeat' first
    | with_reducible assumption | with_reducible apply retire_memWf | with_reducible apply setTape_memWf | intro _
    | split

theorem execTctlMark_memWf (a : Src) (s : State)  (hwf : s.memWf = true) :
    ∀ t, execTctlMark a s = .next t → t.memWf = true := by
  unfold execTctlMark
  refine runInstr_memWf hwf (fun v hv => ?_)
  repeat' first
    | with_reducible assumption | refine snd_memWf (by assumption) ?_ | with_reducible apply retire_memWf
    | with_reducible apply appendTape_memWf | with_reducible apply popTape_memWf | intro _ | split

theorem execTctlFlush_memWf (s : State)  (hwf : s.memWf = true) :
    ∀ t, execTctlFlush s = .next t → t.memWf = true := by
  unfold execTctlFlush
  refine runInstr_memWf hwf (fun v hv => ?_)
  repeat' first
    | with_reducible assumption | with_reducible apply closeChunk_memWf | with_reducible apply retire_memWf
    | with_reducible apply setTape_memWf | intro _ | split

theorem execTctlStatus_memWf (d : RegName) (s : State)  (hwf : s.memWf = true) :
    ∀ t, execTctlStatus d s = .next t → t.memWf = true := by
  unfold execTctlStatus
  refine runInstr_memWf hwf (fun v hv => ?_)
  repeat' first
    | with_reducible assumption | with_reducible apply retire_memWf | with_reducible apply writeLong_memWf | intro _
    | split

theorem execTapeStageBarrier_memWf (blk c : Nat) (s : State)  (hwf : s.memWf = true) :
    ∀ t, execTapeStageBarrier blk c s = .next t → t.memWf = true := by
  unfold execTapeStageBarrier
  intro t ht
  repeat' first
    | with_reducible assumption | with_reducible apply setCourse_memWf | with_reducible apply holdPipe_memWf | intro _
    | split | dsimp only | fail_if_no_progress with_reducible refine memWf_mk ?_ | split at ht
    | (injection ht with ht; subst ht)

theorem checkFetched_memWf (s : State) (blk c slot : Nat) (k : Course) (p : Path) (l : List Word)  (hwf : s.memWf = true) :
    (checkFetched s blk c slot k p l).memWf = true := by
  unfold checkFetched
  repeat' first
    | with_reducible assumption | with_reducible apply updPath_memWf | with_reducible apply takeFault_memWf | intro _
    | split | dsimp only | fail_if_no_progress with_reducible refine memWf_mk ?_

theorem touchFetch_memWf (s : State) (blk : Nat) (pc : Double)  (hwf : s.memWf = true) :
    (touchFetch s blk pc).memWf = true := by
  unfold touchFetch
  repeat' first
    | with_reducible assumption | with_reducible apply hubSpans_memWf | intro _ | split

theorem fetchPath_memWf (s : State) (blk c slot : Nat)  (hwf : s.memWf = true) :
    (fetchPath s blk c slot).memWf = true := by
  unfold fetchPath
  repeat' first
    | with_reducible assumption | with_reducible apply updPath_memWf | with_reducible apply casualty_memWf
    | with_reducible apply resumeDelivery_memWf | with_reducible apply takeFault_memWf
    | with_reducible apply checkFetched_memWf | with_reducible apply touchFetch_memWf | intro _ | split | dsimp only

theorem countEligible_memWf (s : State) (l : List Candidate) (issued : Option Candidate)  (hwf : s.memWf = true) :
    (countEligible s l issued).memWf = true := by
  unfold countEligible
  repeat' first
    | with_reducible assumption | with_reducible apply updCourse_memWf | with_reducible apply foldl_memWf | intro _

theorem advanceQuarter_memWf (s : State) (m q : Nat) (issued : Option (Candidate × Nat × List Nat))  (hwf : s.memWf = true) :
    (advanceQuarter s m q issued).memWf = true := by
  unfold advanceQuarter
  repeat' first
    | with_reducible assumption | with_reducible apply setCore_memWf | intro _ | split | dsimp only
    | fail_if_no_progress with_reducible refine memWf_mk ?_ | apply getCore_memWf

theorem execPacketFetch_memWf (s : State)  (hwf : s.memWf = true) :
    ∀ t, execPacketFetch s = .next t → t.memWf = true := by
  unfold execPacketFetch
  intro t ht
  repeat' first
    | with_reducible assumption | with_reducible apply fetchPath_memWf | intro _ | split | dsimp only
    | fail_if_no_progress with_reducible refine memWf_mk ?_ | split at ht | (injection ht with ht; subst ht)

theorem execCourseStarved_memWf (blk c : Nat) (s : State)  (hwf : s.memWf = true) :
    ∀ t, execCourseStarved blk c s = .next t → t.memWf = true := by
  unfold execCourseStarved
  intro t ht
  repeat' first
    | with_reducible assumption | with_reducible apply updCourse_memWf | intro _ | split | dsimp only
    | fail_if_no_progress with_reducible refine memWf_mk ?_ | split at ht | (injection ht with ht; subst ht)

end Sys2Proof.Machine
end

