-- ==== Sys2Proof/Laws/MemDevice.lean ====
section
/-!
SUPPORT. Events of the device keep the canonical form of every memory.
-/

namespace Sys2Proof.Machine

theorem setQueue_memWf (s : State) (p : BitVec 3) (q : Nat) (k : Queue)  (hwf : s.memWf = true) :
    (setQueue s p q k).memWf = true := by
  unfold setQueue
  repeat' first
    | with_reducible assumption | intro _ | split | dsimp only | fail_if_no_progress with_reducible refine memWf_mk ?_

theorem queueError_memWf (s : State) (p : BitVec 3) (cause queue slot : Nat) (send : Bool)  (hwf : s.memWf = true) :
    (queueError s p cause queue slot send).memWf = true := by
  unfold queueError
  repeat' first
    | with_reducible assumption | with_reducible apply setPart_memWf | with_reducible apply raise_memWf | intro _
    | split

theorem haltQueue_memWf (s : State) (p : BitVec 3) (asid : BitVec 16) (q slot cause : Nat)  (hwf : s.memWf = true) :
    (haltQueue s p asid q slot cause).memWf = true := by
  unfold haltQueue
  repeat' first
    | with_reducible assumption | with_reducible apply setCtx_memWf | with_reducible apply setQueue_memWf
    | with_reducible apply queueError_memWf | intro _ | split | dsimp only

theorem setCounter_memWf (s : State) (i : Nat) (c : Counter)  (hwf : s.memWf = true) :
    (setCounter s i c).memWf = true := by
  unfold setCounter
  repeat' first
    | with_reducible assumption | intro _ | split | dsimp only | fail_if_no_progress with_reducible refine memWf_mk ?_

theorem takeCounter_memWf (s : State) (j : Job) (i : Nat)  (hwf : s.memWf = true) :
    (takeCounter s j i).memWf = true := by
  unfold takeCounter
  repeat' first
    | with_reducible assumption | with_reducible apply setCtx_memWf | with_reducible apply removeContext_memWf
    | with_reducible apply closeStep_memWf | with_reducible apply queueError_memWf | intro _ | split

theorem freeOwn_memWf (s : State) (j : Job)  (hwf : s.memWf = true) :
    (freeOwn s j).memWf = true := by
  unfold freeOwn
  repeat' first
    | with_reducible assumption | with_reducible apply setCounter_memWf | intro _ | split

theorem armCounter_memWf (s : State) (id : Nat) (j : Job)  (hwf : s.memWf = true) :
    (armCounter s id j).memWf = true := by
  unfold armCounter
  repeat' first
    | with_reducible assumption | with_reducible apply setJob_memWf | with_reducible apply setCounter_memWf
    | with_reducible apply takeCounter_memWf | intro _ | split | dsimp only

theorem decrement_memWf (s : State) (j : Job) (i : Nat)  (hwf : s.memWf = true) :
    (decrement s j i).memWf = true := by
  unfold decrement
  repeat' first
    | with_reducible assumption | with_reducible apply setCounter_memWf | with_reducible apply takeCounter_memWf
    | intro _ | split | dsimp only

theorem execQcreate_memWf (p : BitVec 3) (v : Double) (s : State)  (hwf : s.memWf = true) :
    ∀ t, execQcreate p v s = .next t → t.memWf = true := by
  unfold execQcreate
  intro t ht
  repeat' first
    | with_reducible assumption | with_reducible apply setPart_memWf | intro _ | split | dsimp only
    | fail_if_no_progress with_reducible refine memWf_mk ?_ | split at ht | (injection ht with ht; subst ht)

theorem execQueueCreationDone_memWf (p : BitVec 3) (s : State)  (hwf : s.memWf = true) :
    ∀ t, execQueueCreationDone p s = .next t → t.memWf = true := by
  unfold execQueueCreationDone
  intro t ht
  repeat' first
    | with_reducible assumption | with_reducible apply setPart_memWf | with_reducible apply hubTouch_memWf
    | with_reducible apply setQueue_memWf | intro _ | split | dsimp only
    | fail_if_no_progress with_reducible refine memWf_mk ?_ | split at ht | (injection ht with ht; subst ht)
    | dsimp only at ht

theorem discardJobs_memWf (s : State) (sel : Job → Bool)  (hwf : s.memWf = true) :
    (discardJobs s sel).memWf = true := by
  have h1 : (s.jobs.foldl (fun s e => if (sel e.2 && !jobBegun e.2) && !e.2.failed then freeOwn s e.2 else s) s).memWf = true :=
    foldl_memWf hwf (fun t e ht => by
      split
      · exact freeOwn_memWf _ _ ht
      · exact ht)
  exact memWf_mk h1

theorem closeQueue_memWf (s : State) (p : BitVec 3) (q : Nat) (k : Queue)  (hwf : s.memWf = true) :
    (closeQueue s p q k).memWf = true := by
  unfold closeQueue
  repeat' first
    | with_reducible assumption | with_reducible apply setQueue_memWf | with_reducible apply discardJobs_memWf

theorem dropQueue_memWf (s : State) (p : BitVec 3) (q : Nat)  (hwf : s.memWf = true) :
    (dropQueue s p q).memWf = true := by
  unfold dropQueue
  repeat' first
    | with_reducible assumption | intro _ | split | dsimp only | fail_if_no_progress with_reducible refine memWf_mk ?_

theorem execQdestroy_memWf (p : BitVec 3) (v : Double) (s : State)  (hwf : s.memWf = true) :
    ∀ t, execQdestroy p v s = .next t → t.memWf = true := by
  unfold execQdestroy
  intro t ht
  repeat' first
    | with_reducible assumption | with_reducible apply setPart_memWf | with_reducible apply closeQueue_memWf | intro _
    | split | dsimp only | fail_if_no_progress with_reducible refine memWf_mk ?_ | split at ht
    | (injection ht with ht; subst ht) | dsimp only at ht

theorem execQueueDestroyDone_memWf (p : BitVec 3) (s : State)  (hwf : s.memWf = true) :
    ∀ t, execQueueDestroyDone p s = .next t → t.memWf = true := by
  unfold execQueueDestroyDone
  intro t ht
  repeat' first
    | with_reducible assumption | with_reducible apply setPart_memWf | with_reducible apply dropQueue_memWf | intro _
    | split | dsimp only | fail_if_no_progress with_reducible refine memWf_mk ?_ | split at ht
    | (injection ht with ht; subst ht)

theorem retestQueue_memWf (s : State) (k : Queue)  (hwf : s.memWf = true) :
    (retestQueue s k).memWf = true := by
  unfold retestQueue
  repeat' first
    | with_reducible assumption | with_reducible apply setJob_memWf | intro _ | split

theorem execNotifyWrite_memWf (p : BitVec 3) (q : BitVec 8) (v : Double) (s : State)  (hwf : s.memWf = true) :
    ∀ t, execNotifyWrite p q v s = .next t → t.memWf = true := by
  unfold execNotifyWrite
  intro t ht
  repeat' first
    | with_reducible assumption | with_reducible apply setQueue_memWf | with_reducible apply haltQueue_memWf
    | with_reducible apply retestQueue_memWf | intro _ | split | dsimp only
    | fail_if_no_progress with_reducible refine memWf_mk ?_ | split at ht | (injection ht with ht; subst ht)

theorem admitJob_memWf (s : State) (j : Job)  (hwf : s.memWf = true) :
    (admitJob s j).2.memWf = true := by
  unfold admitJob
  repeat' first
    | with_reducible assumption | refine snd_memWf (by assumption) ?_ | with_reducible apply setJob_memWf
    | with_reducible apply newId_memWf | with_reducible apply armCounter_memWf

theorem consume_memWf (s : State) (p : BitVec 3) (q : Nat) (k : Queue) (words : List Word)  (hwf : s.memWf = true) :
    (consume s p q k words).memWf = true := by
  unfold consume
  repeat' first
    | with_reducible assumption | refine snd_memWf (by assumption) ?_ | with_reducible apply hubWrite_memWf
    | with_reducible apply setQueue_memWf | with_reducible apply admitJob_memWf | intro _ | split | dsimp only

theorem consumeValid_memWf (s : State) (p : BitVec 3) (q : Nat) (k : Queue)  (hwf : s.memWf = true) :
    (consumeValid s p q k).memWf = true := by
  unfold consumeValid
  repeat' first
    | with_reducible assumption | with_reducible apply hubTouch_memWf | with_reducible apply haltQueue_memWf
    | with_reducible apply consume_memWf | intro _ | split | dsimp only

theorem execConsumeSlot_memWf (p : BitVec 3) (q : BitVec 8) (s : State)  (hwf : s.memWf = true) :
    ∀ t, execConsumeSlot p q s = .next t → t.memWf = true := by
  unfold execConsumeSlot
  intro t ht
  repeat' first
    | with_reducible assumption | with_reducible apply hubTouch_memWf | with_reducible apply setQueue_memWf
    | with_reducible apply consumeValid_memWf | intro _ | split | dsimp only
    | fail_if_no_progress with_reducible refine memWf_mk ?_ | split at ht | (injection ht with ht; subst ht)
    | dsimp only at ht

theorem refuseJob_memWf (s : State) (id : Nat) (j : Job) (cause : Nat)  (hwf : s.memWf = true) :
    (refuseJob s id j cause).memWf = true := by
  unfold refuseJob
  repeat' first
    | with_reducible assumption | with_reducible apply setJob_memWf | with_reducible apply haltQueue_memWf
    | with_reducible apply freeOwn_memWf

theorem startLaunch_memWf (s : State) (id : Nat) (j : Job) (bs : List Byte) (poison : Bool)  (hwf : s.memWf = true) :
    (startLaunch s id j bs poison).memWf = true := by
  unfold startLaunch
  repeat' first
    | with_reducible assumption | with_reducible apply setJob_memWf | with_reducible apply refuseJob_memWf | intro _
    | split | dsimp only

theorem readHeaderOf_memWf (s : State) (id : Nat) (j : Job)  (hwf : s.memWf = true) :
    (readHeaderOf s id j).memWf = true := by
  unfold readHeaderOf
  repeat' first
    | with_reducible assumption | with_reducible apply setJob_memWf | with_reducible apply askRemote_memWf
    | with_reducible apply hubTouch_memWf | with_reducible apply refuseJob_memWf
    | with_reducible apply startLaunch_memWf | intro _ | split | dsimp only

theorem execPacketStart_memWf (pkt : Nat) (s : State)  (hwf : s.memWf = true) :
    ∀ t, execPacketStart pkt s = .next t → t.memWf = true := by
  unfold execPacketStart
  intro t ht
  repeat' first
    | with_reducible assumption | with_reducible apply setJob_memWf | with_reducible apply readHeaderOf_memWf
    | intro _ | split | dsimp only | fail_if_no_progress with_reducible refine memWf_mk ?_ | split at ht
    | (injection ht with ht; subst ht)

theorem updateSignal_memWf (s : State) (id : Nat) (p : BitVec 3) (asid : BitVec 16) (va op : Nat) (x : Double)  (hwf : s.memWf = true) :
    (updateSignal s id p asid va op x).2.memWf = true := by
  unfold updateSignal
  repeat' first
    | with_reducible assumption | with_reducible apply performBy_memWf | with_reducible apply askRemote_memWf
    | with_reducible apply homeTouch_memWf | with_reducible apply touchWalk_memWf
    | with_reducible apply retestWaits_memWf | intro _ | split | dsimp only

theorem retireJob_memWf (s : State) (id : Nat)  (hwf : s.memWf = true) :
    (retireJob s id).memWf = true := by
  unfold retireJob
  repeat' first
    | with_reducible assumption | intro _ | split | dsimp only | fail_if_no_progress with_reducible refine memWf_mk ?_

theorem dropClosed_memWf (s : State) (asid : BitVec 16)  (hwf : s.memWf = true) :
    (dropClosed s asid).memWf = true := by
  unfold dropClosed
  repeat' first
    | with_reducible assumption | intro _ | split | dsimp only | fail_if_no_progress with_reducible refine memWf_mk ?_

theorem finishJob_memWf (s : State) (id : Nat) (j : Job)  (hwf : s.memWf = true) :
    (finishJob s id j).memWf = true := by
  unfold finishJob
  repeat' first
    | with_reducible assumption | with_reducible apply setJob_memWf | with_reducible apply freeOwn_memWf
    | with_reducible apply decrement_memWf | with_reducible apply retireJob_memWf
    | with_reducible apply dropClosed_memWf | intro _ | split

theorem endSignal_memWf (s : State) (id : Nat) (j : Job) (e : SignalEnd)  (hwf : s.memWf = true) :
    (endSignal s id j e).memWf = true := by
  unfold endSignal
  repeat' first
    | with_reducible assumption | with_reducible apply setJob_memWf | with_reducible apply haltQueue_memWf
    | with_reducible apply refuseJob_memWf | with_reducible apply finishJob_memWf | intro _ | split

theorem completeJob_memWf (s : State) (id : Nat) (j : Job)  (hwf : s.memWf = true) :
    (completeJob s id j).memWf = true := by
  unfold completeJob
  repeat' first
    | with_reducible assumption | refine snd_memWf (by assumption) ?_ | with_reducible apply updateSignal_memWf
    | with_reducible apply finishJob_memWf | with_reducible apply endSignal_memWf | intro _ | split | dsimp only

theorem execSignalPacket_memWf (pkt : Nat) (s : State)  (hwf : s.memWf = true) :
    ∀ t, execSignalPacket pkt s = .next t → t.memWf = true := by
  unfold execSignalPacket
  intro t ht
  repeat' first
    | with_reducible assumption | refine snd_memWf (by assumption) ?_ | with_reducible apply updateSignal_memWf
    | with_reducible apply endSignal_memWf | intro _ | split | dsimp only
    | fail_if_no_progress with_reducible refine memWf_mk ?_ | split at ht | (injection ht with ht; subst ht)

theorem copyUnits_memWf (id : Nat) (j : Job) (fuel i : Nat) (got : Option RemoteAnswer) (s : State) (hwf : s.memWf = true) :
    (copyUnits id j fuel i got s).2.memWf = true := by
  induction fuel generalizing i got s with
  | zero => exact hwf
  | succ n ih =>
    unfold copyUnits
    dsimp only
    split
    · exact hwf
    · have h : (touchWalk (if bits (pw j.words 8) 1 0 = 1 then s else hubTouch s j.asid (word64 j.words 2 + i)
          (min (copyLength j.words - i) (min (64 - (word64 j.words 4 + i) % 64) (65536 - (word64 j.words 2 + i) % 65536))))
          j.asid (word64 j.words 4 + i)).memWf = true := by
        apply touchWalk_memWf
        split
        · exact hwf
        · exact hubTouch_memWf _ _ _ _ hwf
      generalize touchWalk _ j.asid (word64 j.words 4 + i) = x at h ⊢
      split
      · exact h
      · exact askRemote_memWf _ _ _ _ _ _ _ h
      · split
        · split
          · exact ih _ _ _ (putGlobal_memWf _ _ _ h)
          · exact h
        · exact askRemote_memWf _ _ _ _ _ _ _ h
        · exact h


theorem execCopyPacket_memWf (pkt : Nat) (s : State)  (hwf : s.memWf = true) :
    ∀ t, execCopyPacket pkt s = .next t → t.memWf = true := by
  unfold execCopyPacket
  intro t ht
  repeat' first
    | with_reducible assumption | refine snd_memWf (by assumption) ?_ | with_reducible apply setJob_memWf
    | with_reducible apply refuseJob_memWf | with_reducible apply completeJob_memWf
    | with_reducible apply copyUnits_memWf | intro _ | split | dsimp only
    | fail_if_no_progress with_reducible refine memWf_mk ?_ | split at ht | (injection ht with ht; subst ht)

theorem askWaits_memWf (s : State) (id : Nat) (j : Job) (l : List Nat)  (hwf : s.memWf = true) :
    (askWaits s id j l).memWf = true := by
  unfold askWaits
  repeat' first
    | with_reducible assumption | with_reducible apply askRemote_memWf | with_reducible apply foldl_memWf | intro _
    | split

theorem releaseQueue_memWf (s : State) (j : Job)  (hwf : s.memWf = true) :
    (releaseQueue s j).memWf = true := by
  unfold releaseQueue
  repeat' first
    | with_reducible assumption | with_reducible apply setQueue_memWf | intro _ | split

theorem endWait_memWf (s : State) (id : Nat) (j : Job)  (hwf : s.memWf = true) :
    (endWait s id j).memWf = true := by
  unfold endWait
  repeat' first
    | with_reducible assumption | with_reducible apply setJob_memWf | with_reducible apply finishJob_memWf
    | with_reducible apply releaseQueue_memWf | intro _ | split

theorem testWait_memWf (s : State) (id : Nat) (j : Job)  (hwf : s.memWf = true) :
    (testWait s id j).memWf = true := by
  unfold testWait
  repeat' first
    | with_reducible assumption | with_reducible apply hubTouch_memWf | with_reducible apply refuseJob_memWf
    | with_reducible apply askWaits_memWf | with_reducible apply endWait_memWf | with_reducible apply foldl_memWf
    | intro _ | split | dsimp only

theorem execWaitPacket_memWf (pkt : Nat) (s : State)  (hwf : s.memWf = true) :
    ∀ t, execWaitPacket pkt s = .next t → t.memWf = true := by
  unfold execWaitPacket
  intro t ht
  repeat' first
    | with_reducible assumption | with_reducible apply testWait_memWf | intro _ | split | dsimp only
    | fail_if_no_progress with_reducible refine memWf_mk ?_ | split at ht | (injection ht with ht; subst ht)

theorem execWaitRetest_memWf (pkt : Nat) (s : State)  (hwf : s.memWf = true) :
    ∀ t, execWaitRetest pkt s = .next t → t.memWf = true := by
  unfold execWaitRetest
  intro t ht
  repeat' first
    | with_reducible assumption | with_reducible apply testWait_memWf | intro _ | split | dsimp only
    | fail_if_no_progress with_reducible refine memWf_mk ?_ | split at ht | (injection ht with ht; subst ht)

theorem execWaitPollTimer_memWf (s : State)  (hwf : s.memWf = true) :
    ∀ t, execWaitPollTimer s = .next t → t.memWf = true := by
  unfold execWaitPollTimer
  intro t ht
  repeat' first
    | with_reducible assumption | with_reducible apply retestWaits_memWf | with_reducible apply foldl_memWf | intro _
    | split | dsimp only | fail_if_no_progress with_reducible refine memWf_mk ?_ | split at ht
    | (injection ht with ht; subst ht)

theorem drainJob_memWf (s : State) (id : Nat)  (hwf : s.memWf = true) :
    (drainJob s id).memWf = true := by
  unfold drainJob
  repeat' first
    | with_reducible assumption | with_reducible apply drainCore_memWf | with_reducible apply foldl_memWf | intro _

theorem execLaunchComplete_memWf (pkt : Nat) (s : State)  (hwf : s.memWf = true) :
    ∀ t, execLaunchComplete pkt s = .next t → t.memWf = true := by
  unfold execLaunchComplete
  intro t ht
  repeat' first
    | with_reducible assumption | with_reducible apply completeJob_memWf | with_reducible apply drainJob_memWf
    | intro _ | split | dsimp only | fail_if_no_progress with_reducible refine memWf_mk ?_ | split at ht
    | (injection ht with ht; subst ht)

theorem wakeSubmissions_memWf (s : State) (asid : BitVec 16)  (hwf : s.memWf = true) :
    (wakeSubmissions s asid).memWf = true := by
  unfold wakeSubmissions
  repeat' first
    | with_reducible assumption | intro _ | split | dsimp only | fail_if_no_progress with_reducible refine memWf_mk ?_

theorem execSubmissionTake_memWf (asid : BitVec 16) (s : State)  (hwf : s.memWf = true) :
    ∀ t, execSubmissionTake asid s = .next t → t.memWf = true := by
  unfold execSubmissionTake
  intro t ht
  repeat' first
    | with_reducible assumption | refine snd_memWf (by assumption) ?_ | with_reducible apply setCtx_memWf
    | with_reducible apply haltQueue_memWf | with_reducible apply admitJob_memWf
    | with_reducible apply wakeSubmissions_memWf | intro _ | split | dsimp only
    | fail_if_no_progress with_reducible refine memWf_mk ?_ | split at ht | (injection ht with ht; subst ht)
    | dsimp only at ht

theorem execCsel_memWf (p : BitVec 3) (v : Double) (s : State)  (hwf : s.memWf = true) :
    ∀ t, execCsel p v s = .next t → t.memWf = true := by
  unfold execCsel
  intro t ht
  repeat' first
    | with_reducible assumption | with_reducible apply setPart_memWf | intro _ | split | dsimp only
    | fail_if_no_progress with_reducible refine memWf_mk ?_ | split at ht | (injection ht with ht; subst ht)

theorem execCselClear_memWf (p : BitVec 3) (v : Double) (s : State)  (hwf : s.memWf = true) :
    ∀ t, execCselClear p v s = .next t → t.memWf = true := by
  unfold execCselClear
  intro t ht
  repeat' first
    | with_reducible assumption | with_reducible apply setPart_memWf | with_reducible apply setCounter_memWf | intro _
    | split | dsimp only | fail_if_no_progress with_reducible refine memWf_mk ?_ | split at ht
    | (injection ht with ht; subst ht) | dsimp only at ht

theorem wakeParked_memWf (s : State)  (hwf : s.memWf = true) :
    (wakeParked s).memWf = true := by
  unfold wakeParked
  repeat' first
    | with_reducible assumption | intro _ | split | dsimp only | fail_if_no_progress with_reducible refine memWf_mk ?_

theorem answerRow_memWf (s : State) (cmd key piece : Nat) (a : RemoteAnswer)  (hwf : s.memWf = true) :
    (answerRow s cmd key piece a).memWf = true := by
  unfold answerRow
  repeat' first
    | with_reducible assumption | with_reducible apply setCmd_memWf | with_reducible apply runCmd_memWf | intro _
    | split | dsimp only

theorem answerCopy_memWf (s : State) (id : Nat) (j : Job) (a : RemoteAnswer) (read : Bool)  (hwf : s.memWf = true) :
    (answerCopy s id j a read).memWf = true := by
  unfold answerCopy
  repeat' first
    | with_reducible assumption | with_reducible apply setJob_memWf | with_reducible apply refuseJob_memWf | intro _
    | split

theorem answerWait_memWf (s : State) (id entry : Nat) (j : Job) (a : RemoteAnswer)  (hwf : s.memWf = true) :
    (answerWait s id entry j a).memWf = true := by
  unfold answerWait
  repeat' first
    | with_reducible assumption | with_reducible apply refuseJob_memWf | with_reducible apply endWait_memWf | intro _
    | split

theorem answerHeader_memWf (s : State) (id : Nat) (j : Job) (a : RemoteAnswer)  (hwf : s.memWf = true) :
    (answerHeader s id j a).memWf = true := by
  unfold answerHeader
  repeat' first
    | with_reducible assumption | with_reducible apply refuseJob_memWf | with_reducible apply startLaunch_memWf
    | intro _ | split

theorem answerSignal_memWf (s : State) (id : Nat) (j : Job) (a : RemoteAnswer)  (hwf : s.memWf = true) :
    (answerSignal s id j a).memWf = true := by
  unfold answerSignal
  repeat' first
    | with_reducible assumption | with_reducible apply retestWaits_memWf | with_reducible apply endSignal_memWf
    | intro _ | split

theorem answerJob_memWf (s : State) (id : Nat) (f : Job → State) (hwf : s.memWf = true) (hf : ∀ j, (f j).memWf = true) :
    (answerJob s id f).memWf = true := by
  unfold answerJob
  split
  · split
    · exact hf _
    · exact hwf
  · exact hwf


theorem answerOwner_memWf (s : State) (o : RemoteOwner) (a : RemoteAnswer)  (hwf : s.memWf = true) :
    (answerOwner s o a).memWf = true := by
  unfold answerOwner
  repeat' first
    | with_reducible assumption | with_reducible apply updPath_memWf | with_reducible apply wakeParked_memWf
    | with_reducible apply answerRow_memWf | with_reducible apply answerCopy_memWf
    | with_reducible apply answerWait_memWf | with_reducible apply answerHeader_memWf
    | with_reducible apply answerSignal_memWf | with_reducible apply answerJob_memWf | intro _ | split

theorem answerRemote_memWf (s : State) (id : Nat) (a : RemoteAnswer)  (hwf : s.memWf = true) :
    (answerRemote s id a).memWf = true := by
  unfold answerRemote
  repeat' first
    | with_reducible assumption | with_reducible apply answerOwner_memWf | intro _ | split | dsimp only
    | fail_if_no_progress with_reducible refine memWf_mk ?_

theorem execRemoteAccessDone_memWf (dev id : Nat) (ok : Bool) (poison : List Nat) (data : List Byte) (s : State)  (hwf : s.memWf = true) :
    ∀ t, execRemoteAccessDone dev id ok poison data s = .next t → t.memWf = true := by
  unfold execRemoteAccessDone
  intro t ht
  repeat' first
    | with_reducible assumption | with_reducible apply answerRemote_memWf | intro _ | split | dsimp only
    | fail_if_no_progress with_reducible refine memWf_mk ?_ | split at ht | (injection ht with ht; subst ht)

theorem holdCores_memWf (s : State) (asid : BitVec 16)  (hwf : s.memWf = true) :
    (holdCores s asid).memWf = true := by
  unfold holdCores
  repeat' first
    | with_reducible assumption | with_reducible apply setCtx_memWf | intro _ | split

theorem putBlock_memWf (s : State) (id : Nat) (j : Job) (m index replays : Nat) (slots : List Nat)  (hwf : s.memWf = true) :
    (putBlock s id j m index replays slots).memWf = true := by
  have h1 := holdCores_memWf s j.asid hwf
  have h2 : blockMemWf (startBlock (holdCores s j.asid) id j m index replays) = true := by
    refine blockMemWf_mk ?_ rfl
    show cellsWf 0#8 (startLocal _ _ _ _) = true
    unfold startLocal
    have := getCore_memWf m h1
    split
    · rename_i a l hl
      split
      · rw [coreMemWf, hl] at this
        exact cellsWf_filter _ this
      · rfl
    · rfl
  exact acquire_memWf _ _ _ _ (foldl_memWf (setBlock_memWf (s := { (newId (holdCores s j.asid)).2 with fresh := _ }) h1 h2)
    (fun t e ht => setCourse_memWf _ _ _ _ ht))

theorem placeOne_memWf (s : State) (id : Nat)  (hwf : s.memWf = true) :
    ∀ t, placeOne s id = some t → t.memWf = true := by
  unfold placeOne
  intro t ht
  repeat' first
    | with_reducible assumption | with_reducible apply setJob_memWf | with_reducible apply putBlock_memWf | intro _
    | split | dsimp only | fail_if_no_progress with_reducible refine memWf_mk ?_ | split at ht
    | (injection ht with ht; subst ht) | dsimp only at ht | contradiction

theorem placeMany_memWf (s : State) (id n : Nat) (hwf : s.memWf = true) :
    ∀ t, placeMany s id n = some t → t.memWf = true := by
  induction n generalizing s with
  | zero => intro t ht; cases ht; exact hwf
  | succ n ih =>
    intro t ht
    unfold placeMany at ht
    cases h : placeOne s id with
    | none => rw [h] at ht; cases ht
    | some u => rw [h] at ht; exact ih u (placeOne_memWf _ _ hwf u h) t ht


theorem placeNext_memWf (s : State) (id : Nat) (j : Job)  (hwf : s.memWf = true) :
    ∀ t, placeNext s id j = some t → t.memWf = true := by
  unfold placeNext
  split
  · exact placeMany_memWf _ _ _ hwf
  · exact placeOne_memWf _ _ hwf

theorem execBlockPlace_memWf (pkt : Nat) (s : State)  (hwf : s.memWf = true) :
    ∀ t, execBlockPlace pkt s = .next t → t.memWf = true := by
  intro t ht
  unfold execBlockPlace at ht
  split at ht
  · injection ht with ht; subst ht; exact hwf
  · split at ht
    · injection ht with ht; subst ht; exact hwf
    · split at ht
      · injection ht with ht; subst ht; exact hwf
      · have h1 := placeNext_memWf _ _ _ hwf _ ‹_›
        split at ht <;> injection ht with ht <;> subst ht
        · exact setJob_memWf _ _ _ h1
        · exact h1

theorem execLaunchHolding_memWf (pkt : Nat) (s : State)  (hwf : s.memWf = true) :
    ∀ t, execLaunchHolding pkt s = .next t → t.memWf = true := by
  unfold execLaunchHolding
  intro t ht
  repeat' first
    | with_reducible assumption | with_reducible apply setJob_memWf | intro _ | split | dsimp only
    | fail_if_no_progress with_reducible refine memWf_mk ?_ | split at ht | (injection ht with ht; subst ht)

theorem chargeEnergy_memWf (s : State) (asid : BitVec 16) (n : Nat)  (hwf : s.memWf = true) :
    (chargeEnergy s asid n).memWf = true := by
  unfold chargeEnergy
  repeat' first
    | with_reducible assumption | with_reducible apply setCtx_memWf | intro _ | split

theorem keepCharge_memWf (s : State) (b : Block)  (hwf : s.memWf = true) :
    (keepCharge s b).memWf = true := by
  unfold keepCharge
  repeat' first
    | with_reducible assumption | with_reducible apply setCluster_memWf | intro _ | split

theorem removeBlock_memWf (s : State) (blk : Nat) (b : Block) (hwf : s.memWf = true) (hb : blockMemWf b = true) :
    (removeBlock s blk b).memWf = true := by
  unfold removeBlock
  dsimp only
  have h0 := keepCharge_memWf _ b hwf
  generalize keepCharge s b = x at h0 ⊢
  have h1 : (setCore x b.core { getCore x b.core with left := some (b.asid, b.localMem) }).memWf = true :=
    setCore_memWf h0 (blockMemWf_parts hb).1
  exact setBlocks_memWf (s := { setCore x b.core { getCore x b.core with left := some (b.asid, b.localMem) } with
    courses := _ }) h1 (fun e he => (memWf_parts h1).2.2.2.2.1 e (mem_del he))


theorem meterBlock_memWf (s : State) (b : Block)  (hwf : s.memWf = true) :
    (meterBlock s b).memWf = true := by
  unfold meterBlock
  repeat' first
    | with_reducible assumption | refine snd_memWf (by assumption) ?_ | with_reducible apply setJob_memWf
    | with_reducible apply draw_memWf | with_reducible apply chargeEnergy_memWf | intro _ | split | dsimp only

theorem leaveBlock_memWf (s : State) (blk : Nat) (b : Block) (hwf : s.memWf = true) (hb : blockMemWf b = true) :
    (leaveBlock s blk b).memWf = true := by
  unfold leaveBlock
  have h0 := drainCore_memWf s b.core hwf
  dsimp only
  split
  · exact memWf_mk (removeBlock_memWf _ _ _ h0 hb)
  · exact retireJob_memWf _ _ (removeBlock_memWf _ _ _ (meterBlock_memWf _ _ h0) hb)


theorem execBlockLeave_memWf (blk : Nat) (s : State)  (hwf : s.memWf = true) :
    ∀ t, execBlockLeave blk s = .next t → t.memWf = true := by
  unfold execBlockLeave
  split
  · intro t ht; cases ht; exact hwf
  · intro t ht; cases ht
    split
    · exact leaveBlock_memWf _ _ _ hwf (getBlock_memWf hwf ‹_›)
    · exact hwf

theorem runCluster_memWf (s : State) (f k : Nat)  (hwf : s.memWf = true) :
    (runCluster s f k).memWf = true := by
  unfold runCluster
  repeat' first
    | with_reducible assumption | with_reducible apply setCluster_memWf

theorem runBlocks_memWf (s : State) (n : Nat)  (hwf : s.memWf = true) :
    (runBlocks s n).memWf = true := by
  exact mapBlocks_memWf hwf (fun e he => by split <;> exact he)

theorem passFs_memWf (s : State) (f : Nat)  (hwf : s.memWf = true) :
    (passFs s f).memWf = true := by
  unfold passFs
  repeat' first
    | with_reducible assumption | with_reducible apply runCluster_memWf | with_reducible apply runBlocks_memWf
    | with_reducible apply foldl_memWf | intro _ | split | dsimp only
    | fail_if_no_progress with_reducible refine memWf_mk ?_

theorem passTime_memWf (s : State) (n : Nat)  (hwf : s.memWf = true) :
    (passTime s n).memWf = true := by
  unfold passTime
  repeat' first
    | with_reducible assumption | with_reducible apply passFs_memWf

theorem dropUnaccepted_memWf (s : State) (p : Path)  (hwf : s.memWf = true) :
    (dropUnaccepted s p).memWf = true := by
  unfold dropUnaccepted
  repeat' first
    | with_reducible assumption | intro _ | split | dsimp only | fail_if_no_progress with_reducible refine memWf_mk ?_

theorem dropLoads_memWf (s : State) (blk c slot : Nat)  (hwf : s.memWf = true) :
    (dropLoads s blk c slot).memWf = true := by
  unfold dropLoads
  repeat' first
    | with_reducible assumption | with_reducible apply dropRemotes_memWf

theorem holdPath_memWf (s : State) (blk c slot : Nat)  (hwf : s.memWf = true) :
    (holdPath s blk c slot).memWf = true := by
  unfold holdPath
  repeat' first
    | with_reducible assumption | with_reducible apply updPath_memWf | with_reducible apply completePath_memWf
    | with_reducible apply dropUnaccepted_memWf | with_reducible apply dropLoads_memWf | intro _ | split

theorem lendAllowance_memWf (s : State) (blk c slot : Nat)  (hwf : s.memWf = true) :
    (lendAllowance s blk c slot).memWf = true := by
  unfold lendAllowance
  repeat' first
    | with_reducible assumption | with_reducible apply updCourse_memWf

theorem dropCollectives_memWf (s : State) (asid : BitVec 16)  (hwf : s.memWf = true) :
    (dropCollectives s asid).memWf = true := by
  exact mapBlocks_memWf hwf (fun e he => by split <;> exact he)

theorem stopPaths_memWf (s : State) (asid : BitVec 16) (force : Bool)  (hwf : s.memWf = true) :
    (stopPaths s asid force).memWf = true := by
  unfold stopPaths
  repeat' first
    | with_reducible assumption | with_reducible apply holdPath_memWf | with_reducible apply lendAllowance_memWf
    | with_reducible apply dropCollectives_memWf | with_reducible apply foldl_memWf | intro _ | split

theorem startSave_memWf (s : State) (x : Context) (host : Bool)  (hwf : s.memWf = true) :
    (startSave s x host).memWf = true := by
  unfold startSave
  repeat' first
    | with_reducible assumption | with_reducible apply setCtx_memWf | with_reducible apply stopPaths_memWf

theorem execSaveDeadline_memWf (asid : BitVec 16) (s : State)  (hwf : s.memWf = true) :
    ∀ t, execSaveDeadline asid s = .next t → t.memWf = true := by
  unfold execSaveDeadline
  intro t ht
  repeat' first
    | with_reducible assumption | with_reducible apply stopPaths_memWf | intro _ | split | dsimp only
    | fail_if_no_progress with_reducible refine memWf_mk ?_ | split at ht | (injection ht with ht; subst ht)

theorem selectCtx_memWf (s : State) (p : BitVec 3) (v : Double)  (hwf : s.memWf = true) :
    (selectCtx s p v).memWf = true := by
  unfold selectCtx
  repeat' first
    | with_reducible assumption | with_reducible apply setPart_memWf

theorem onContext_memWf {p : BitVec 3} {v : Double} {op : Nat} {s : State} {f : State → Context → State}
    (hwf : s.memWf = true) (hf : ∀ s x, s.memWf = true → (f s x).memWf = true) : (onContext p v op s f).memWf = true := by
  unfold onContext
  repeat' first
      | with_reducible assumption | with_reducible apply hf | with_reducible apply selectCtx_memWf | split | dsimp only


theorem mapCtxCourses_memWf (s : State) (asid : BitVec 16) (f : Course → Course)  (hwf : s.memWf = true) :
    (mapCtxCourses s asid f).memWf = true := by
  unfold mapCtxCourses
  repeat' first
    | with_reducible assumption | intro _ | split | dsimp only | fail_if_no_progress with_reducible refine memWf_mk ?_

theorem haltRecord_memWf (s : State) (asid : BitVec 16)  (hwf : s.memWf = true) :
    (haltRecord s asid).memWf = true := by
  unfold haltRecord
  repeat' first
    | with_reducible assumption | with_reducible apply courseRecord_memWf | intro _ | split

theorem haltContext_memWf (s : State) (x : Context)  (hwf : s.memWf = true) :
    (haltContext s x).memWf = true := by
  unfold haltContext
  repeat' first
    | with_reducible assumption | with_reducible apply setCtx_memWf | with_reducible apply completePath_memWf
    | with_reducible apply mapCtxCourses_memWf | with_reducible apply haltRecord_memWf
    | with_reducible apply foldl_memWf | intro _ | split

theorem execCtxctlHalt_memWf (p : BitVec 3) (v : Double) (s : State)  (hwf : s.memWf = true) :
    ∀ t, execCtxctlHalt p v s = .next t → t.memWf = true := by
  unfold execCtxctlHalt
  intro t ht
  repeat' first
    | with_reducible assumption | with_reducible apply onContext_memWf | with_reducible apply haltContext_memWf
    | intro _ | split | dsimp only | fail_if_no_progress with_reducible refine memWf_mk ?_ | split at ht
    | (injection ht with ht; subst ht)

theorem execHaltComplete_memWf (asid : BitVec 16) (s : State)  (hwf : s.memWf = true) :
    ∀ t, execHaltComplete asid s = .next t → t.memWf = true := by
  unfold execHaltComplete
  intro t ht
  repeat' first
    | with_reducible assumption | with_reducible apply setCtx_memWf | intro _ | split | dsimp only
    | fail_if_no_progress with_reducible refine memWf_mk ?_ | split at ht | (injection ht with ht; subst ht)

theorem endStoppedWaits_memWf (s : State) (asid : BitVec 16)  (hwf : s.memWf = true) :
    (endStoppedWaits s asid).memWf = true := by
  unfold endStoppedWaits
  repeat' first
    | with_reducible assumption | with_reducible apply endContinuation_memWf | with_reducible apply foldl_memWf
    | intro _ | split

theorem resumeHalted_memWf (s : State) (x : Context)  (hwf : s.memWf = true) :
    (resumeHalted s x).memWf = true := by
  unfold resumeHalted
  repeat' first
    | with_reducible assumption | with_reducible apply setCtx_memWf | with_reducible apply mapCtxCourses_memWf
    | with_reducible apply endStoppedWaits_memWf

theorem execCtxctlResume_memWf (p : BitVec 3) (v : Double) (s : State)  (hwf : s.memWf = true) :
    ∀ t, execCtxctlResume p v s = .next t → t.memWf = true := by
  unfold execCtxctlResume
  intro t ht
  repeat' first
    | with_reducible assumption | with_reducible apply setCtx_memWf | with_reducible apply onContext_memWf
    | with_reducible apply resumeHalted_memWf | intro _ | split | dsimp only
    | fail_if_no_progress with_reducible refine memWf_mk ?_ | split at ht | (injection ht with ht; subst ht)

theorem execCtxctlStep_memWf (p : BitVec 3) (v : Double) (s : State)  (hwf : s.memWf = true) :
    ∀ t, execCtxctlStep p v s = .next t → t.memWf = true := by
  unfold execCtxctlStep
  intro t ht
  repeat' first
    | with_reducible assumption | with_reducible apply onContext_memWf | with_reducible apply mapCtxCourses_memWf
    | intro _ | split | dsimp only | fail_if_no_progress with_reducible refine memWf_mk ?_ | split at ht
    | (injection ht with ht; subst ht)

theorem execCtxctlSave_memWf (p : BitVec 3) (v : Double) (s : State)  (hwf : s.memWf = true) :
    ∀ t, execCtxctlSave p v s = .next t → t.memWf = true := by
  unfold execCtxctlSave
  intro t ht
  repeat' first
    | with_reducible assumption | with_reducible apply setCtx_memWf | with_reducible apply startSave_memWf
    | with_reducible apply onContext_memWf | intro _ | split | dsimp only
    | fail_if_no_progress with_reducible refine memWf_mk ?_ | split at ht | (injection ht with ht; subst ht)

theorem debugRemove_memWf (s : State) (x : Context)  (hwf : s.memWf = true) :
    (debugRemove s x).memWf = true := by
  unfold debugRemove
  repeat' first
    | with_reducible assumption | with_reducible apply removeContext_memWf

theorem execCtxctlRemove_memWf (p : BitVec 3) (v : Double) (s : State)  (hwf : s.memWf = true) :
    ∀ t, execCtxctlRemove p v s = .next t → t.memWf = true := by
  unfold execCtxctlRemove
  intro t ht
  repeat' first
    | with_reducible assumption | with_reducible apply onContext_memWf | with_reducible apply debugRemove_memWf
    | intro _ | split | dsimp only | fail_if_no_progress with_reducible refine memWf_mk ?_ | split at ht
    | (injection ht with ht; subst ht)

theorem discardDead_memWf (s : State) (sel : Job → Bool)  (hwf : s.memWf = true) :
    (discardDead s sel).memWf = true := by
  exact memWf_mk (foldl_memWf hwf (fun t e ht => by
    split
    · exact freeOwn_memWf _ _ ht
    · exact ht))

theorem destroyContext_memWf (s : State) (x : Context)  (hwf : s.memWf = true) :
    (destroyContext s x).memWf = true := by
  unfold destroyContext
  repeat' first
    | with_reducible assumption | with_reducible apply setCtx_memWf | with_reducible apply closeQueue_memWf
    | with_reducible apply dropClosed_memWf | with_reducible apply debugRemove_memWf
    | with_reducible apply discardDead_memWf | with_reducible apply foldl_memWf | intro _ | split

theorem execCtxctlDestroy_memWf (p : BitVec 3) (v : Double) (s : State)  (hwf : s.memWf = true) :
    ∀ t, execCtxctlDestroy p v s = .next t → t.memWf = true := by
  unfold execCtxctlDestroy
  intro t ht
  repeat' first
    | with_reducible assumption | with_reducible apply onContext_memWf | with_reducible apply destroyContext_memWf
    | intro _ | split | dsimp only | fail_if_no_progress with_reducible refine memWf_mk ?_ | split at ht
    | (injection ht with ht; subst ht)

theorem closeFault_memWf (s : State) (x : Context) (e : OpenFault)  (hwf : s.memWf = true) :
    (closeFault s x e).memWf = true := by
  unfold closeFault
  repeat' first
    | with_reducible assumption | with_reducible apply setCtx_memWf

theorem retryPop_memWf (s : State) (e : OpenFault) (blk c slot : Nat)  (hwf : s.memWf = true) :
    (retryPop s e blk c slot).memWf = true := by
  unfold retryPop
  repeat' first
    | with_reducible assumption | refine snd_memWf (by assumption) ?_ | with_reducible apply setCourse_memWf
    | with_reducible apply draw_memWf | with_reducible apply acquire_memWf | with_reducible apply refillSlots_memWf
    | with_reducible apply checkStarved_memWf | intro _ | split

theorem wakeFault_memWf (s : State) (e : OpenFault)  (hwf : s.memWf = true) :
    (wakeFault s e).memWf = true := by
  unfold wakeFault
  repeat' first
    | with_reducible assumption | with_reducible apply setCmd_memWf | with_reducible apply acquire_memWf
    | with_reducible apply updPath_memWf | with_reducible apply runCmd_memWf | with_reducible apply retryPop_memWf
    | intro _ | split

theorem execPgdone_memWf (p : BitVec 3) (v : Double) (s : State)  (hwf : s.memWf = true) :
    ∀ t, execPgdone p v s = .next t → t.memWf = true := by
  unfold execPgdone
  intro t ht
  repeat' first
    | with_reducible assumption | with_reducible apply closeFault_memWf | with_reducible apply wakeFault_memWf
    | intro _ | split | dsimp only | fail_if_no_progress with_reducible refine memWf_mk ?_ | split at ht
    | (injection ht with ht; subst ht)

theorem dropStalled_memWf (s : State) (e : OpenFault)  (hwf : s.memWf = true) :
    (dropStalled s e).memWf = true := by
  unfold dropStalled
  repeat' first
    | with_reducible assumption | intro _ | split | dsimp only | fail_if_no_progress with_reducible refine memWf_mk ?_

theorem execPgdoneAbort_memWf (p : BitVec 3) (v : Double) (s : State)  (hwf : s.memWf = true) :
    ∀ t, execPgdoneAbort p v s = .next t → t.memWf = true := by
  unfold execPgdoneAbort
  intro t ht
  repeat' first
    | with_reducible assumption | with_reducible apply removeContext_memWf | with_reducible apply closeFault_memWf
    | with_reducible apply dropStalled_memWf | intro _ | split | dsimp only
    | fail_if_no_progress with_reducible refine memWf_mk ?_ | split at ht | (injection ht with ht; subst ht)

theorem withoutBlocks_memWf (s : State) (asid : BitVec 16) (m : Nat)  (hwf : s.memWf = true) :
    (withoutBlocks s asid m).memWf = true := by
  exact memWf_mk (setBlocks_memWf hwf (fun e he => (memWf_parts hwf).2.2.2.2.1 e (List.mem_of_mem_filter he)))

theorem execPreempt_memWf (asid : BitVec 16) (s : State)  (hwf : s.memWf = true) :
    ∀ t, execPreempt asid s = .next t → t.memWf = true := by
  unfold execPreempt
  intro t ht
  repeat' first
    | with_reducible assumption | with_reducible apply startSave_memWf | intro _ | split | dsimp only
    | fail_if_no_progress with_reducible refine memWf_mk ?_ | split at ht | (injection ht with ht; subst ht)

theorem execTimeSliceExpiry_memWf (asid : BitVec 16) (s : State)  (hwf : s.memWf = true) :
    ∀ t, execTimeSliceExpiry asid s = .next t → t.memWf = true := by
  unfold execTimeSliceExpiry
  intro t ht
  repeat' first
    | with_reducible assumption | with_reducible apply setCtx_memWf | with_reducible apply startSave_memWf | intro _
    | split | dsimp only | fail_if_no_progress with_reducible refine memWf_mk ?_ | split at ht
    | (injection ht with ht; subst ht)

theorem execCcreate_memWf (p : BitVec 3) (v : Double) (s : State)  (hwf : s.memWf = true) :
    ∀ t, execCcreate p v s = .next t → t.memWf = true := by
  unfold execCcreate
  intro t ht
  repeat' first
    | with_reducible assumption | with_reducible apply setPart_memWf | intro _ | split | dsimp only
    | fail_if_no_progress with_reducible refine memWf_mk ?_ | split at ht | (injection ht with ht; subst ht)

theorem forgetLocal_memWf (s : State) (asid : BitVec 16)  (hwf : s.memWf = true) :
    (forgetLocal s asid).memWf = true := by
  obtain ⟨h1, h2, h3, h4, h5, h6⟩ := memWf_parts hwf
  refine memWf_of_parts h1 h2 h3 h4 h5 (fun e he => ?_)
  obtain ⟨x, hx, rfl⟩ := List.mem_map.1 he
  split
  · split
    · rfl
    · exact h6 _ hx
  · exact h6 _ hx

theorem execContextCreationDone_memWf (p : BitVec 3) (s : State)  (hwf : s.memWf = true) :
    ∀ t, execContextCreationDone p s = .next t → t.memWf = true := by
  unfold execContextCreationDone
  intro t ht
  repeat' first
    | with_reducible assumption | with_reducible apply setPart_memWf | with_reducible apply setCtx_memWf
    | with_reducible apply forgetLocal_memWf | intro _ | split | dsimp only
    | fail_if_no_progress with_reducible refine memWf_mk ?_ | split at ht | (injection ht with ht; subst ht)
    | dsimp only at ht

theorem execAcsel_memWf (p : BitVec 3) (v : Double) (s : State)  (hwf : s.memWf = true) :
    ∀ t, execAcsel p v s = .next t → t.memWf = true := by
  unfold execAcsel
  intro t ht
  repeat' first
    | with_reducible assumption | with_reducible apply setPart_memWf | intro _ | split | dsimp only
    | fail_if_no_progress with_reducible refine memWf_mk ?_ | split at ht | (injection ht with ht; subst ht)

theorem execXinv_memWf (p : BitVec 3) (v : Double) (s : State)  (hwf : s.memWf = true) :
    ∀ t, execXinv p v s = .next t → t.memWf = true := by
  unfold execXinv
  intro t ht
  repeat' first
    | with_reducible assumption | with_reducible apply setPart_memWf | with_reducible apply dropLines_memWf | intro _
    | split | dsimp only | fail_if_no_progress with_reducible refine memWf_mk ?_ | split at ht
    | (injection ht with ht; subst ht)

theorem drainContext_memWf (s : State) (asid : BitVec 16)  (hwf : s.memWf = true) :
    (drainContext s asid).memWf = true := by
  unfold drainContext
  repeat' first
    | with_reducible assumption | with_reducible apply drainStores_memWf | with_reducible apply foldl_memWf | intro _

theorem execXinvDone_memWf (p : BitVec 3) (s : State)  (hwf : s.memWf = true) :
    ∀ t, execXinvDone p s = .next t → t.memWf = true := by
  unfold execXinvDone
  intro t ht
  repeat' first
    | with_reducible assumption | with_reducible apply setPart_memWf | with_reducible apply drainContext_memWf
    | intro _ | split | dsimp only | fail_if_no_progress with_reducible refine memWf_mk ?_ | split at ht
    | (injection ht with ht; subst ht)

theorem barkAt_memWf (s : State) (blk : Nat)  (hwf : s.memWf = true) :
    (barkAt s blk).memWf = true := by
  unfold barkAt
  repeat' first
    | with_reducible assumption | with_reducible apply removeContext_memWf | intro _ | split

theorem execWatchdogCheck_memWf (s : State)  (hwf : s.memWf = true) :
    ∀ t, execWatchdogCheck s = .next t → t.memWf = true := by
  unfold execWatchdogCheck
  intro t ht
  repeat' first
    | with_reducible assumption | with_reducible apply barkAt_memWf | with_reducible apply foldl_memWf | intro _
    | split | dsimp only | fail_if_no_progress with_reducible refine memWf_mk ?_ | split at ht
    | (injection ht with ht; subst ht)

theorem execRecoveryNotice_memWf (dev : BitVec 14) (s : State)  (hwf : s.memWf = true) :
    ∀ t, execRecoveryNotice dev s = .next t → t.memWf = true := by
  unfold execRecoveryNotice
  intro t ht
  repeat' first
    | with_reducible assumption | intro _ | split | dsimp only | fail_if_no_progress with_reducible refine memWf_mk ?_
    | split at ht | (injection ht with ht; subst ht)

theorem failDevice_memWf (s : State) (dev : Nat)  (hwf : s.memWf = true) :
    (failDevice s dev).memWf = true := by
  unfold failDevice
  repeat' first
    | with_reducible assumption | with_reducible apply answerRemote_memWf | with_reducible apply foldl_memWf | intro _

theorem execRecoveryExpiry_memWf (dev : BitVec 14) (s : State)  (hwf : s.memWf = true) :
    ∀ t, execRecoveryExpiry dev s = .next t → t.memWf = true := by
  unfold execRecoveryExpiry
  intro t ht
  repeat' first
    | with_reducible assumption | with_reducible apply failDevice_memWf | intro _ | split | dsimp only
    | fail_if_no_progress with_reducible refine memWf_mk ?_ | split at ht | (injection ht with ht; subst ht)
    | dsimp only at ht

theorem setBudgets_memWf (s : State) (n : Nat)  (hwf : s.memWf = true) :
    (setBudgets s n).memWf = true := by
  unfold setBudgets
  repeat' first
    | with_reducible assumption | with_reducible apply setCluster_memWf | with_reducible apply foldl_memWf | intro _
    | split | dsimp only

theorem reportRisk_memWf (s : State) (p : BitVec 3) (x : Context) (st : Step) (excess : Nat)  (hwf : s.memWf = true) :
    (reportRisk s p x st excess).memWf = true := by
  unfold reportRisk
  repeat' first
    | with_reducible assumption | with_reducible apply setPart_memWf | with_reducible apply raise_memWf

theorem settleStep_memWf (p : BitVec 3) (n budget : Nat) (caps final : List Choice) (s : State) (e : Context × Step)  (hwf : s.memWf = true) :
    (settleStep p n budget caps final s e).memWf = true := by
  unfold settleStep
  repeat' first
    | with_reducible assumption | with_reducible apply setCtx_memWf | with_reducible apply reportRisk_memWf | intro _
    | split | dsimp only

theorem takeChoice_memWf (s : State) (c : Choice)  (hwf : s.memWf = true) :
    (takeChoice s c).memWf = true := by
  unfold takeChoice
  repeat' first
    | with_reducible assumption | with_reducible apply setCluster_memWf

theorem moveRails_memWf (s : State)  (hwf : s.memWf = true) :
    (moveRails s).memWf = true := by
  unfold moveRails
  repeat' first
    | with_reducible assumption | with_reducible apply foldl_memWf | intro _ | split | dsimp only
    | fail_if_no_progress with_reducible refine memWf_mk ?_

theorem marginOffsets_memWf (s : State) (n : Nat)  (hwf : s.memWf = true) :
    (marginOffsets s n).memWf = true := by
  unfold marginOffsets
  repeat' first
    | with_reducible assumption | with_reducible apply setCluster_memWf | with_reducible apply foldl_memWf | intro _
    | split

theorem enforceSettings_memWf (s : State)  (hwf : s.memWf = true) :
    (enforceSettings s).memWf = true := by
  unfold enforceSettings
  repeat' first
    | with_reducible assumption | intro _ | split | dsimp only | fail_if_no_progress with_reducible refine memWf_mk ?_

theorem governPart_memWf (s : State) (n : Nat) (p : BitVec 3)  (hwf : s.memWf = true) :
    (governPart s n p).memWf = true := by
  unfold governPart
  repeat' first
    | with_reducible assumption | with_reducible apply setCluster_memWf | with_reducible apply settleStep_memWf
    | with_reducible apply takeChoice_memWf | with_reducible apply foldl_memWf | intro _ | split | dsimp only

theorem execIntervalStart_memWf (s : State)  (hwf : s.memWf = true) :
    ∀ t, execIntervalStart s = .next t → t.memWf = true := by
  unfold execIntervalStart
  intro t ht
  repeat' first
    | with_reducible assumption | with_reducible apply setBudgets_memWf | with_reducible apply moveRails_memWf
    | with_reducible apply marginOffsets_memWf | with_reducible apply enforceSettings_memWf
    | with_reducible apply governPart_memWf | with_reducible apply foldl_memWf | intro _ | split | dsimp only
    | fail_if_no_progress with_reducible refine memWf_mk ?_ | split at ht | (injection ht with ht; subst ht)
    | dsimp only at ht

theorem execClockRaise_memWf (k : Nat) (s : State)  (hwf : s.memWf = true) :
    ∀ t, execClockRaise k s = .next t → t.memWf = true := by
  unfold execClockRaise
  intro t ht
  repeat' first
    | with_reducible assumption | with_reducible apply setCluster_memWf | with_reducible apply raise_memWf | intro _
    | split | dsimp only | fail_if_no_progress with_reducible refine memWf_mk ?_ | split at ht
    | (injection ht with ht; subst ht) | dsimp only at ht

theorem endWindow_memWf (s : State) (k : Nat)  (hwf : s.memWf = true) :
    (endWindow s k).memWf = true := by
  unfold endWindow
  repeat' first
    | with_reducible assumption | with_reducible apply setCluster_memWf | with_reducible apply raise_memWf | intro _
    | split

theorem execSensitivityWindowEnd_memWf (s : State)  (hwf : s.memWf = true) :
    ∀ t, execSensitivityWindowEnd s = .next t → t.memWf = true := by
  unfold execSensitivityWindowEnd
  intro t ht
  repeat' first
    | with_reducible assumption | with_reducible apply endWindow_memWf | with_reducible apply foldl_memWf | intro _
    | split | dsimp only | fail_if_no_progress with_reducible refine memWf_mk ?_ | split at ht
    | (injection ht with ht; subst ht)

theorem execDroopStretch_memWf (k : Nat) (s : State)  (hwf : s.memWf = true) :
    ∀ t, execDroopStretch k s = .next t → t.memWf = true := by
  unfold execDroopStretch
  intro t ht
  repeat' first
    | with_reducible assumption | with_reducible apply setCluster_memWf | intro _ | split | dsimp only
    | fail_if_no_progress with_reducible refine memWf_mk ?_ | split at ht | (injection ht with ht; subst ht)

theorem execSupplyRecovers_memWf (k : Nat) (s : State)  (hwf : s.memWf = true) :
    ∀ t, execSupplyRecovers k s = .next t → t.memWf = true := by
  unfold execSupplyRecovers
  intro t ht
  repeat' first
    | with_reducible assumption | with_reducible apply setCluster_memWf | intro _ | split | dsimp only
    | fail_if_no_progress with_reducible refine memWf_mk ?_ | split at ht | (injection ht with ht; subst ht)

theorem execMarginOffsetDecay_memWf (k : Nat) (s : State)  (hwf : s.memWf = true) :
    ∀ t, execMarginOffsetDecay k s = .next t → t.memWf = true := by
  unfold execMarginOffsetDecay
  intro t ht
  repeat' first
    | with_reducible assumption | with_reducible apply setCluster_memWf | intro _ | split | dsimp only
    | fail_if_no_progress with_reducible refine memWf_mk ?_ | split at ht | (injection ht with ht; subst ht)
    | dsimp only at ht

theorem execRailmap_memWf (v : Double) (s : State)  (hwf : s.memWf = true) :
    ∀ t, execRailmap v s = .next t → t.memWf = true := by
  unfold execRailmap
  intro t ht
  repeat' first
    | with_reducible assumption | with_reducible apply setCluster_memWf | with_reducible apply raise_memWf
    | with_reducible apply foldl_memWf | intro _ | split | dsimp only
    | fail_if_no_progress with_reducible refine memWf_mk ?_ | split at ht | (injection ht with ht; subst ht)
    | dsimp only at ht

theorem execPctlEnable_memWf (p : BitVec 3) (v : Double) (s : State)  (hwf : s.memWf = true) :
    ∀ t, execPctlEnable p v s = .next t → t.memWf = true := by
  unfold execPctlEnable
  intro t ht
  repeat' first
    | with_reducible assumption | with_reducible apply setPart_memWf | intro _ | split | dsimp only
    | fail_if_no_progress with_reducible refine memWf_mk ?_ | split at ht | (injection ht with ht; subst ht)
    | dsimp only at ht

theorem settleSignal_memWf (s : State) (id : Nat) (j : Job)  (hwf : s.memWf = true) :
    (settleSignal s id j).memWf = true := by
  unfold settleSignal
  repeat' first
    | with_reducible assumption | refine snd_memWf (by assumption) ?_ | with_reducible apply updateSignal_memWf
    | intro _ | split

theorem settleJob_memWf (s : State) (id : Nat)  (hwf : s.memWf = true) :
    (settleJob s id).memWf = true := by
  unfold settleJob
  repeat' first
    | with_reducible assumption | refine snd_memWf (by assumption) ?_ | with_reducible apply updateSignal_memWf
    | with_reducible apply copyUnits_memWf | with_reducible apply drainJob_memWf
    | with_reducible apply settleSignal_memWf | intro _ | split

theorem dropBlocks_memWf (s : State) (p : BitVec 3)  (hwf : s.memWf = true) :
    (dropBlocks s p).memWf = true := by
  have h1 : (discardCommands (emptyBlocks s fun _ b => b.part == p) fun _ b => b.part == p).memWf = true :=
    discardCommands_memWf _ _ (emptyBlocks_memWf _ _ hwf)
  exact memWf_mk (mapBlocks_memWf (s := { discardCommands (emptyBlocks s fun _ b => b.part == p)
    (fun _ b => b.part == p) with commands := _ }) h1 (fun e he => by split <;> exact he))

theorem rearmQueue_memWf (s : State) (p : BitVec 3) (q : Nat) (k : Queue)  (hwf : s.memWf = true) :
    (rearmQueue s p q k).memWf = true := by
  unfold rearmQueue
  repeat' first
    | with_reducible assumption | with_reducible apply hubTouch_memWf | with_reducible apply setQueue_memWf
    | with_reducible apply haltQueue_memWf | intro _ | split | dsimp only

theorem resetPartition_memWf (s : State) (p : BitVec 3)  (hwf : s.memWf = true) :
    (resetPartition s p).memWf = true := by
  unfold resetPartition
  repeat' first
    | with_reducible assumption | with_reducible apply setPart_memWf | with_reducible apply dropClosed_memWf
    | with_reducible apply settleJob_memWf | with_reducible apply dropBlocks_memWf
    | with_reducible apply rearmQueue_memWf | with_reducible apply foldl_memWf | intro _ | split | dsimp only
    | fail_if_no_progress with_reducible refine memWf_mk ?_

theorem execPartitionReset_memWf (p : BitVec 3) (v : Double) (s : State)  (hwf : s.memWf = true) :
    ∀ t, execPartitionReset p v s = .next t → t.memWf = true := by
  unfold execPartitionReset
  intro t ht
  repeat' first
    | with_reducible assumption | with_reducible apply resetPartition_memWf | intro _ | split | dsimp only
    | fail_if_no_progress with_reducible refine memWf_mk ?_ | split at ht | (injection ht with ht; subst ht)

theorem execPctlDisable_memWf (p : BitVec 3) (v : Double) (s : State)  (hwf : s.memWf = true) :
    ∀ t, execPctlDisable p v s = .next t → t.memWf = true := by
  unfold execPctlDisable
  intro t ht
  repeat' first
    | with_reducible assumption | with_reducible apply setPart_memWf | with_reducible apply resetPartition_memWf
    | intro _ | split | dsimp only | fail_if_no_progress with_reducible refine memWf_mk ?_ | split at ht
    | (injection ht with ht; subst ht) | dsimp only at ht

theorem execPartitionResetDone_memWf (p : BitVec 3) (s : State)  (hwf : s.memWf = true) :
    ∀ t, execPartitionResetDone p s = .next t → t.memWf = true := by
  unfold execPartitionResetDone
  intro t ht
  repeat' first
    | with_reducible assumption | with_reducible apply setPart_memWf | intro _ | split | dsimp only
    | fail_if_no_progress with_reducible refine memWf_mk ?_ | split at ht | (injection ht with ht; subst ht)

theorem writeMailbox_memWf (s : State) (off : Nat) (v : Double)  (hwf : s.memWf = true) :
    (writeMailbox s off v).memWf = true := by
  unfold writeMailbox
  repeat' first
    | with_reducible assumption | intro _ | split | dsimp only | fail_if_no_progress with_reducible refine memWf_mk ?_

theorem writeManagement_memWf (s : State) (off : Nat) (v : Double)  (hwf : s.memWf = true) :
    (writeManagement s off v).memWf = true := by
  unfold writeManagement
  repeat' first
    | with_reducible assumption | with_reducible apply setPart_memWf | with_reducible apply writeMailbox_memWf
    | intro _ | split | dsimp only | fail_if_no_progress with_reducible refine memWf_mk ?_

theorem writeCtxctl_memWf (s : State) (p : BitVec 3) (v : Double)  (hwf : s.memWf = true) :
    (writeCtxctl s p v).memWf = true := by
  unfold writeCtxctl
  repeat' first
    | with_reducible assumption | with_reducible apply selectCtx_memWf | intro _ | split | dsimp only

theorem writeQueueWindow_memWf (s : State) (p : BitVec 3) (off : Nat) (v : Double)  (hwf : s.memWf = true) :
    (writeQueueWindow s p off v).memWf = true := by
  unfold writeQueueWindow
  repeat' first
    | with_reducible assumption | with_reducible apply setPart_memWf | with_reducible apply writeCtxctl_memWf
    | intro _ | split

theorem execRegisterWrite_memWf (off : BitVec 26) (v : Double) (s : State)  (hwf : s.memWf = true) :
    ∀ t, execRegisterWrite off v s = .next t → t.memWf = true := by
  unfold execRegisterWrite
  intro t ht
  repeat' first
    | with_reducible assumption | with_reducible apply writeManagement_memWf
    | with_reducible apply writeQueueWindow_memWf | intro _ | split | dsimp only
    | fail_if_no_progress with_reducible refine memWf_mk ?_ | split at ht | (injection ht with ht; subst ht)
    | dsimp only at ht

theorem execInjpoison_memWf (v : Double) (s : State)  (hwf : s.memWf = true) :
    ∀ t, execInjpoison v s = .next t → t.memWf = true := by
  unfold execInjpoison
  intro t ht
  repeat' first
    | with_reducible assumption | with_reducible apply poisonSector_memWf | with_reducible apply oldTouch_memWf
    | with_reducible apply writeTouch_memWf | with_reducible apply dropL2_memWf | with_reducible apply dropLines_memWf
    | with_reducible apply backInvalidate_memWf | intro _ | split | dsimp only
    | fail_if_no_progress with_reducible refine memWf_mk ?_ | split at ht | (injection ht with ht; subst ht)
    | dsimp only at ht

theorem killChannel_memWf (s : State) (c : Nat)  (hwf : s.memWf = true) :
    (killChannel s c).memWf = true := by
  unfold killChannel
  repeat' first
    | with_reducible assumption | intro _ | split | dsimp only | fail_if_no_progress with_reducible refine memWf_mk ?_

theorem killPseudo_memWf (s : State) (c pc : Nat)  (hwf : s.memWf = true) :
    (killPseudo s c pc).memWf = true := by
  unfold killPseudo
  repeat' first
    | with_reducible assumption | intro _ | split | dsimp only | fail_if_no_progress with_reducible refine memWf_mk ?_

theorem killBank_memWf (s : State) (c pc bank : Nat)  (hwf : s.memWf = true) :
    (killBank s c pc bank).memWf = true := by
  unfold killBank
  repeat' first
    | with_reducible assumption | intro _ | split | dsimp only | fail_if_no_progress with_reducible refine memWf_mk ?_

theorem execChannelFail_memWf (kind : BitVec 2) (ch : BitVec 9) (pc : BitVec 1) (bank : BitVec 5) (s : State)  (hwf : s.memWf = true) :
    ∀ t, execChannelFail kind ch pc bank s = .next t → t.memWf = true := by
  unfold execChannelFail
  intro t ht
  repeat' first
    | with_reducible assumption | with_reducible apply killChannel_memWf | with_reducible apply killPseudo_memWf
    | with_reducible apply killBank_memWf | intro _ | split | dsimp only
    | fail_if_no_progress with_reducible refine memWf_mk ?_ | split at ht | (injection ht with ht; subst ht)

theorem injdead_memWf {v : Double} {kind : Nat} {s : State} {f : Nat → State} (hwf : s.memWf = true)
    (hf : ∀ c, (f c).memWf = true) : ∀ t, injdead v kind s f = .next t → t.memWf = true := by
  intro t ht
  unfold injdead at ht
  dsimp only at ht
  split at ht <;> cases ht
  · exact hwf
  · exact hf _


theorem execInjdeadChannel_memWf (v : Double) (s : State)  (hwf : s.memWf = true) :
    ∀ t, execInjdeadChannel v s = .next t → t.memWf = true := by
  unfold execInjdeadChannel
  refine injdead_memWf hwf (fun c => ?_)
  repeat' first
    | with_reducible assumption | with_reducible apply killChannel_memWf

theorem execInjdeadPseudoChannel_memWf (v : Double) (s : State)  (hwf : s.memWf = true) :
    ∀ t, execInjdeadPseudoChannel v s = .next t → t.memWf = true := by
  unfold execInjdeadPseudoChannel
  refine injdead_memWf hwf (fun c => ?_)
  repeat' first
    | with_reducible assumption | with_reducible apply killPseudo_memWf

theorem execInjdeadBank_memWf (v : Double) (s : State)  (hwf : s.memWf = true) :
    ∀ t, execInjdeadBank v s = .next t → t.memWf = true := by
  unfold execInjdeadBank
  refine injdead_memWf hwf (fun c => ?_)
  repeat' first
    | with_reducible assumption | with_reducible apply killBank_memWf

theorem execInjdeadStack_memWf (v : Double) (s : State)  (hwf : s.memWf = true) :
    ∀ t, execInjdeadStack v s = .next t → t.memWf = true := by
  unfold execInjdeadStack
  refine injdead_memWf hwf (fun c => ?_)
  repeat' first
    | with_reducible assumption | with_reducible apply killChannel_memWf | with_reducible apply foldl_memWf | intro _

theorem execInjdeadRetrainNow_memWf (v : Double) (s : State)  (hwf : s.memWf = true) :
    ∀ t, execInjdeadRetrainNow v s = .next t → t.memWf = true := by
  unfold execInjdeadRetrainNow
  refine injdead_memWf hwf (fun c => ?_)
  repeat' first
    | with_reducible assumption | intro _ | split | dsimp only | fail_if_no_progress with_reducible refine memWf_mk ?_

theorem pinUnbondable_memWf (s : State)  (hwf : s.memWf = true) :
    (pinUnbondable s).memWf = true := by
  unfold pinUnbondable
  repeat' first
    | with_reducible assumption | intro _ | split | dsimp only | fail_if_no_progress with_reducible refine memWf_mk ?_

theorem decodeSpan_memWf (s : State) (u p q : Nat)  (hwf : s.memWf = true) :
    (decodeSpan s u p q).memWf = true := by
  unfold decodeSpan
  repeat' first
    | with_reducible assumption | with_reducible apply decodeMember_memWf | with_reducible apply poisonSpan_memWf
    | intro _ | split

theorem rebuildRead_memWf (s : State) (u i q : Nat)  (hwf : s.memWf = true) :
    (rebuildRead s u i q).memWf = true := by
  unfold rebuildRead
  repeat' first
    | with_reducible assumption | with_reducible apply readSectorCode_memWf | with_reducible apply decodeSpan_memWf
    | intro _ | split

theorem execRebuildSpan_memWf (s : State)  (hwf : s.memWf = true) :
    ∀ t, execRebuildSpan s = .next t → t.memWf = true := by
  unfold execRebuildSpan
  intro t ht
  repeat' first
    | with_reducible assumption | with_reducible apply mendSector_memWf | with_reducible apply rebuildRead_memWf
    | intro _ | split | dsimp only | fail_if_no_progress with_reducible refine memWf_mk ?_ | split at ht
    | (injection ht with ht; subst ht)

theorem execMemberSwitch_memWf (s : State)  (hwf : s.memWf = true) :
    ∀ t, execMemberSwitch s = .next t → t.memWf = true := by
  unfold execMemberSwitch
  intro t ht
  repeat' first
    | with_reducible assumption | with_reducible apply dropL2_memWf | with_reducible apply dropLines_memWf | intro _
    | split | dsimp only | fail_if_no_progress with_reducible refine memWf_mk ?_ | split at ht
    | (injection ht with ht; subst ht)

theorem execStaleSlotRewrite_memWf (s : State)  (hwf : s.memWf = true) :
    ∀ t, execStaleSlotRewrite s = .next t → t.memWf = true := by
  unfold execStaleSlotRewrite
  intro t ht
  repeat' first
    | with_reducible assumption | with_reducible apply mendSector_memWf | with_reducible apply decodeSpan_memWf
    | with_reducible apply foldl_memWf | intro _ | split | dsimp only
    | fail_if_no_progress with_reducible refine memWf_mk ?_ | split at ht | (injection ht with ht; subst ht)
    | dsimp only at ht

theorem execRetrainStart_memWf (s : State)  (hwf : s.memWf = true) :
    ∀ t, execRetrainStart s = .next t → t.memWf = true := by
  unfold execRetrainStart
  intro t ht
  repeat' first
    | with_reducible assumption | intro _ | split | dsimp only | fail_if_no_progress with_reducible refine memWf_mk ?_
    | split at ht | (injection ht with ht; subst ht)

theorem trainedNow_memWf (s : State) (c : Nat)  (hwf : s.memWf = true) :
    (trainedNow s c).memWf = true := by
  unfold trainedNow
  repeat' first
    | with_reducible assumption | intro _ | split | dsimp only | fail_if_no_progress with_reducible refine memWf_mk ?_

theorem execRetrainEnd_memWf (s : State)  (hwf : s.memWf = true) :
    ∀ t, execRetrainEnd s = .next t → t.memWf = true := by
  unfold execRetrainEnd
  intro t ht
  repeat' first
    | with_reducible assumption | with_reducible apply pinUnbondable_memWf | with_reducible apply trainedNow_memWf
    | intro _ | split | dsimp only | fail_if_no_progress with_reducible refine memWf_mk ?_ | split at ht
    | (injection ht with ht; subst ht)

theorem execRetrainTimeout_memWf (s : State)  (hwf : s.memWf = true) :
    ∀ t, execRetrainTimeout s = .next t → t.memWf = true := by
  unfold execRetrainTimeout
  intro t ht
  repeat' first
    | with_reducible assumption | with_reducible apply killChannel_memWf | intro _ | split | dsimp only
    | fail_if_no_progress with_reducible refine memWf_mk ?_ | split at ht | (injection ht with ht; subst ht)

theorem scrubSector_memWf (s : State) (c slot q : Nat)  (hwf : s.memWf = true) :
    (scrubSector s c slot q).memWf = true := by
  unfold scrubSector
  repeat' first
    | with_reducible assumption | with_reducible apply mendSector_memWf | with_reducible apply countCe_memWf
    | with_reducible apply countBad_memWf | intro _ | split

theorem scrubMember_memWf (s : State) (u q p : Nat)  (hwf : s.memWf = true) :
    (scrubMember s u q p).memWf = true := by
  unfold scrubMember
  repeat' first
    | with_reducible assumption | with_reducible apply mendSector_memWf | with_reducible apply countBad_memWf
    | with_reducible apply readSectorCode_memWf | intro _ | split | dsimp only

theorem mendSymbol_memWf (u q : Nat) (s : State) (b : Nat)  (hwf : s.memWf = true) :
    (mendSymbol u q s b).memWf = true := by
  unfold mendSymbol
  repeat' first
    | with_reducible assumption | with_reducible apply countChan_memWf | with_reducible apply slipMember_memWf
    | intro _ | split

theorem scrubSyndromes_memWf (s : State) (u q : Nat)  (hwf : s.memWf = true) :
    (scrubSyndromes s u q).memWf = true := by
  unfold scrubSyndromes
  repeat' first
    | with_reducible assumption | with_reducible apply poisonSpan_memWf | with_reducible apply mendSymbol_memWf
    | with_reducible apply foldl_memWf | intro _ | split

theorem scrubUnitSpan_memWf (s : State) (u q : Nat)  (hwf : s.memWf = true) :
    (scrubUnitSpan s u q).memWf = true := by
  unfold scrubUnitSpan
  repeat' first
    | with_reducible assumption | with_reducible apply scrubMember_memWf | with_reducible apply scrubSyndromes_memWf
    | with_reducible apply foldl_memWf | intro _ | split | dsimp only

theorem scrubItem_memWf (s : State) (n : Nat)  (hwf : s.memWf = true) :
    (scrubItem s n).memWf = true := by
  unfold scrubItem
  repeat' first
    | with_reducible assumption | with_reducible apply scrubSector_memWf | with_reducible apply scrubUnitSpan_memWf
    | with_reducible apply foldl_memWf | intro _ | split | dsimp only

theorem scrubTo_memWf (s : State) (n : Nat)  (hwf : s.memWf = true) :
    (scrubTo s n).memWf = true := by
  unfold scrubTo
  repeat' first
    | with_reducible assumption | intro _ | split | dsimp only | fail_if_no_progress with_reducible refine memWf_mk ?_

theorem execScrubSpan_memWf (s : State)  (hwf : s.memWf = true) :
    ∀ t, execScrubSpan s = .next t → t.memWf = true := by
  unfold execScrubSpan
  intro t ht
  repeat' first
    | with_reducible assumption | with_reducible apply scrubItem_memWf | with_reducible apply scrubTo_memWf | intro _
    | split | dsimp only | fail_if_no_progress with_reducible refine memWf_mk ?_ | split at ht
    | (injection ht with ht; subst ht)

theorem execCounterFlush_memWf (s : State)  (hwf : s.memWf = true) :
    ∀ t, execCounterFlush s = .next t → t.memWf = true := by
  unfold execCounterFlush
  intro t ht
  repeat' first
    | with_reducible assumption | intro _ | split | dsimp only | fail_if_no_progress with_reducible refine memWf_mk ?_
    | split at ht | (injection ht with ht; subst ht)

theorem upsetSector_memWf (s : State) (c slot q symbol : Nat) (v : Byte)  (hwf : s.memWf = true) :
    (upsetSector s c slot q symbol v).memWf = true := by
  unfold upsetSector
  repeat' first
    | with_reducible assumption | intro _ | split | dsimp only | fail_if_no_progress with_reducible refine memWf_mk ?_

theorem mbResult_memWf (s : State) (status out : Nat)  (hwf : s.memWf = true) :
    (mbResult s status out).memWf = true := by
  unfold mbResult
  repeat' first
    | with_reducible assumption | intro _ | split | dsimp only | fail_if_no_progress with_reducible refine memWf_mk ?_

theorem mbOutput_memWf (s : State) (l : List Byte)  (hwf : s.memWf = true) :
    (mbOutput s l).memWf = true := by
  unfold mbOutput
  repeat' first
    | with_reducible assumption | with_reducible apply mbResult_memWf | intro _ | split | dsimp only
    | fail_if_no_progress with_reducible refine memWf_mk ?_

theorem mbCommand_memWf {v : Double} {op : Nat} {s : State} {f : State → State} (hwf : s.memWf = true)
    (hf : ∀ s, s.memWf = true → (f s).memWf = true) : ∀ t, mbCommand v op s f = .next t → t.memWf = true := by
  intro t ht
  unfold mbCommand at ht
  split at ht
  · cases ht; exact hwf
  · split at ht <;> cases ht
    · exact mbResult_memWf _ _ _ hwf
    · exact hf _ hwf


theorem attestReport_memWf (s : State) (nonce : List Byte)  (hwf : s.memWf = true) :
    (attestReport s nonce).2.memWf = true := by
  unfold attestReport
  repeat' first
    | with_reducible assumption | intro _ | split | dsimp only | fail_if_no_progress with_reducible refine memWf_mk ?_

theorem execAttest_memWf (v : Double) (s : State)  (hwf : s.memWf = true) :
    ∀ t, execAttest v s = .next t → t.memWf = true := by
  unfold execAttest
  refine mbCommand_memWf hwf (fun t hwf => ?_)
  repeat' first
    | with_reducible assumption | refine snd_memWf (by assumption) ?_ | with_reducible apply mbResult_memWf
    | with_reducible apply mbOutput_memWf | with_reducible apply attestReport_memWf | intro _ | split

theorem execReadIdentityKey_memWf (v : Double) (s : State)  (hwf : s.memWf = true) :
    ∀ t, execReadIdentityKey v s = .next t → t.memWf = true := by
  unfold execReadIdentityKey
  refine mbCommand_memWf hwf (fun t hwf => ?_)
  repeat' first
    | with_reducible assumption | with_reducible apply mbOutput_memWf

theorem execFwstage_memWf (v : Double) (s : State)  (hwf : s.memWf = true) :
    ∀ t, execFwstage v s = .next t → t.memWf = true := by
  unfold execFwstage
  refine mbCommand_memWf hwf (fun t hwf => ?_)
  repeat' first
    | with_reducible assumption | with_reducible apply mbResult_memWf | intro _ | split | dsimp only
    | fail_if_no_progress with_reducible refine memWf_mk ?_

theorem commitImage_memWf (s : State)  (hwf : s.memWf = true) :
    (commitImage s).memWf = true := by
  unfold commitImage
  repeat' first
    | with_reducible assumption | with_reducible apply mbResult_memWf | intro _ | split | dsimp only
    | fail_if_no_progress with_reducible refine memWf_mk ?_

theorem execFwcommit_memWf (v : Double) (s : State)  (hwf : s.memWf = true) :
    ∀ t, execFwcommit v s = .next t → t.memWf = true := by
  unfold execFwcommit
  refine mbCommand_memWf hwf (fun t hwf => ?_)
  repeat' first
    | with_reducible assumption | with_reducible apply commitImage_memWf

theorem execReadLifetimeCounters_memWf (v : Double) (s : State)  (hwf : s.memWf = true) :
    ∀ t, execReadLifetimeCounters v s = .next t → t.memWf = true := by
  unfold execReadLifetimeCounters
  refine mbCommand_memWf hwf (fun t hwf => ?_)
  repeat' first
    | with_reducible assumption | with_reducible apply mbOutput_memWf

theorem freeRepaired_memWf (s : State) (was : List Double)  (hwf : s.memWf = true) :
    (freeRepaired s was).memWf = true := by
  unfold freeRepaired
  repeat' first
    | with_reducible assumption | with_reducible apply foldl_memWf | intro _ | split | dsimp only
    | fail_if_no_progress with_reducible refine memWf_mk ?_

theorem execClearRepairEntries_memWf (v : Double) (s : State)  (hwf : s.memWf = true) :
    ∀ t, execClearRepairEntries v s = .next t → t.memWf = true := by
  unfold execClearRepairEntries
  refine mbCommand_memWf hwf (fun t hwf => ?_)
  repeat' first
    | with_reducible assumption | with_reducible apply pinUnbondable_memWf | with_reducible apply mbResult_memWf
    | with_reducible apply freeRepaired_memWf | intro _ | split | dsimp only
    | fail_if_no_progress with_reducible refine memWf_mk ?_

end Sys2Proof.Machine
end

