-- ==== Sys2Proof/Laws/MemStep.lean ====
section
/-!
SUPPORT. A step keeps the canonical form of every memory.
-/

namespace Sys2Proof.Machine

/-! ### A saved block as it is read back -/

theorem startLocal_wf {s : State} (m : Nat) (asid : BitVec 16) (alloc : Nat) (hwf : s.memWf = true) :
    cellsWf 0#8 (startLocal s m asid alloc) = true := by
  have := getCore_memWf m hwf
  unfold startLocal
  split
  · rename_i a l hl
    split
    · rw [coreMemWf, hl] at this
      exact cellsWf_filter _ this
    · rfl
  · rfl

theorem keysAbove_ofZip {α : Type} (f : α × Nat → Option (Nat × α)) (hf : ∀ e x, f e = some x → x.1 = e.2) (l : List α) :
    ∀ (n lo : Nat), lo < n → keysAbove lo ((l.zipIdx n).filterMap f) = true := by
  induction l with
  | nil => intros; rfl
  | cons a t ih =>
    intro n lo h
    rw [List.zipIdx_cons, List.filterMap_cons]
    cases hx : f (a, n) with
    | none => exact ih (n + 1) lo (by omega)
    | some x =>
      have h1 : x.1 = n := hf _ _ hx
      simp only [keysAbove, h1, h, decide_true, Bool.true_and]
      exact ih (n + 1) n (by omega)

/-- Cells built from a list of values are in canonical form. -/
theorem cellsWf_sparse {α : Type} [DecidableEq α] (d : α) (l : List α) : cellsWf d (sparse d l) = true := by
  simp only [cellsWf, Bool.and_eq_true, List.all_eq_true, decide_eq_true_eq]
  constructor
  · unfold sparse
    cases l with
    | nil => rfl
    | cons a t =>
      rw [List.zipIdx_cons, List.filterMap_cons]
      have h := fun n => keysAbove_ofZip (fun e : α × Nat => if e.1 = d then none else some (e.2, e.1))
        (fun e x hx => by
          simp only [Option.ite_none_left_eq_some] at hx
          simp [← Option.some.inj hx.2]) t (0 + 1) n
      dsimp only
      split
      · exact rising_of_keysAbove (h 0 (by omega))
      · rename_i heq
        simp only [Option.ite_none_left_eq_some] at heq
        rw [← Option.some.inj heq.2]
        exact h 0 (by omega)
  · intro e he
    unfold sparse at he
    obtain ⟨x, _, hx⟩ := List.mem_filterMap.1 he
    simp only [Option.ite_none_left_eq_some] at hx
    rw [← Option.some.inj hx.2]
    exact hx.1

theorem readBlockWords_memWf {j : Job} {g : SavedBlock} {b b' : Block} {chunk : Nat} {ws : List Word}
    (h : readBlockWords j g b chunk ws = .ok b') (hb : blockMemWf b = true) : blockMemWf b' = true := by
  unfold readBlockWords at h
  dsimp only at h
  split at h
  · cases h
  · injection h with h; subst h; exact hb

theorem readBanks_memWf {g : SavedBlock} {b b' : Block} {c c' : Cursor} (h : readBanks g b c = .ok (b', c'))
    (hb : blockMemWf b = true) : blockMemWf b' = true := by
  unfold readBanks at h
  split at h
  · cases h
  · split at h
    · cases h
    · split at h
      · cases h
      · injection h with h; injection h with h _; subst h; exact hb

theorem freshBlock_memWf (s : State) (id : Nat) (j : Job) (g : SavedBlock) : blockMemWf (freshBlock s id j g) = true := rfl

theorem readBlockSection_memWf {s : State} {id : Nat} {j : Job} {g : SavedBlock} {t : Stream} {r : BlockRead}
    (h : readBlockSection s id j g t = .ok r) : blockMemWf r.block = true := by
  unfold readBlockSection at h
  have hf := freshBlock_memWf s id j g
  dsimp only at h
  split at h
  · split at h
    · injection h with h; subst h; exact hf
    · cases h
  · split at h
    · cases h
    · split at h
      · cases h
      · split at h
        · cases h
        · split at h
          · cases h
          · split at h
            · cases h
            · rename_i b' c heq
              have hm : ∀ (q : Block) (ls : List (Option (Lanes × List Word))), blockMemWf
                  { q with localMem := (readLocal ls).1, localPoison := (readLocal ls).2 } = true := fun q ls =>
                blockMemWf_mk (cellsWf_sparse _ _) (cellsWf_sparse _ _)
              have hb' : blockMemWf b' = true := by
                split at heq
                · injection heq with heq; injection heq with heq _; subst heq; exact hm _ _
                · exact readBanks_memWf heq (hm _ _)
              cases he : endRecs c with
              | error e => rw [he] at h; cases h
              | ok m => rw [he] at h; injection h with h; subst h; exact hb'

theorem readImage_memWf {s : State} {x : Context} {j : Job} {g : SavedBlock} {t : Stream} {i : Image}
    (h : readImage s x j g t = .ok i) : blockMemWf i.block = true := by
  unfold readImage at h
  split at h
  · cases h
  · split at h
    · cases h
    · split at h
      · cases h
      · injection h with h; subst h
        exact readBlockSection_memWf ‹_›

theorem readSaved_memWf {s : State} {x : Context} {t : Stream} {l : List SavedBlock} :
    ∀ {r : List (SavedBlock × Image)}, readSaved s x t l = .ok r → ∀ e ∈ r, blockMemWf e.2.block = true := by
  induction l with
  | nil => intro r h e he; injection h with h; subst h; cases he
  | cons g rest ih =>
    intro r h e he
    unfold readSaved at h
    split at h
    · exact ih h e he
    · split at h
      · cases h
      · rename_i i hi
        cases hr : readSaved s x t rest with
        | error e => rw [hr] at h; cases h
        | ok r' =>
          rw [hr] at h
          injection h with h; subst h
          rcases List.mem_cons.1 he with rfl | he
          · exact readImage_memWf hi
          · exact ih hr e he

theorem readRubbing_memWf {s : State} {x : Context} {r : List (SavedBlock × Image)} (h : readRubbing s x = .ok r) :
    ∀ e ∈ r, blockMemWf e.2.block = true := by
  unfold readRubbing at h
  split at h
  · cases h
  · exact readSaved_memWf h

theorem flushRecord_memWf (s : State) (x : Context)  (hwf : s.memWf = true) :
    ∀ t, flushRecord s x = some t → t.memWf = true := by
  unfold flushRecord
  intro t ht
  repeat' first
    | with_reducible assumption | with_reducible apply setCtx_memWf | with_reducible apply raise_memWf
    | with_reducible apply putRecord_memWf | with_reducible apply loseContext_memWf
    | with_reducible apply dropStalled_memWf | intro _ | split | dsimp only
    | fail_if_no_progress with_reducible refine memWf_mk ?_ | split at ht | (injection ht with ht; subst ht)
    | dsimp only at ht | contradiction

theorem flushRecords_memWf (s : State)  (hwf : s.memWf = true) :
    ∀ t, flushRecords s = some t → t.memWf = true := by
  intro t ht
  obtain ⟨e, _, he⟩ := List.exists_of_findSome?_eq_some ht
  exact flushRecord_memWf _ _ hwf _ he

theorem hostLoad_memWf (s : State) (pa n : Nat)  (hwf : s.memWf = true) :
    (hostLoad s pa n).memWf = true := by
  unfold hostLoad
  repeat' first
    | with_reducible assumption | with_reducible apply readTouch_memWf | with_reducible apply foldl_memWf | intro _
    | split | dsimp only | fail_if_no_progress with_reducible refine memWf_mk ?_

theorem hostStore_memWf (s : State) (pa : Nat) (bs : List Byte)  (hwf : s.memWf = true) :
    (hostStore s pa bs).memWf = true := by
  unfold hostStore
  repeat' first
    | with_reducible assumption | with_reducible apply performHome_memWf | with_reducible apply foldl_memWf | intro _
    | split

theorem execHostMemoryAccess_memWf (pa : BitVec 39) (len : Nat) (data : List Byte) (s : State)  (hwf : s.memWf = true) :
    ∀ t, execHostMemoryAccess pa len data s = .next t → t.memWf = true := by
  unfold execHostMemoryAccess
  intro t ht
  repeat' first
    | with_reducible assumption | with_reducible apply hostLoad_memWf | with_reducible apply hostStore_memWf | intro _
    | split | dsimp only | fail_if_no_progress with_reducible refine memWf_mk ?_ | split at ht
    | (injection ht with ht; subst ht) | dsimp only at ht

theorem execHostSnoop_memWf (pa : BitVec 52) (s : State) (hwf : s.memWf = true) :
    ∀ t, execHostSnoop pa s = .next t → t.memWf = true := by
  intro t ht
  injection ht with ht; subst ht; exact hwf


theorem reply_memWf (s : State) (ok : Bool) (poison : List Nat) (bs : List Byte)  (hwf : s.memWf = true) :
    (reply s ok poison bs).memWf = true := by
  unfold reply
  repeat' first
    | with_reducible assumption | intro _ | split | dsimp only | fail_if_no_progress with_reducible refine memWf_mk ?_

theorem replyFail_memWf (s : State)  (hwf : s.memWf = true) :
    (replyFail s).memWf = true := by
  unfold replyFail
  repeat' first
    | with_reducible assumption | with_reducible apply reply_memWf

theorem remoteLoad_memWf (s : State) (asid : BitVec 16) (va n : Nat)  (hwf : s.memWf = true) :
    (remoteLoad s asid va n).memWf = true := by
  unfold remoteLoad
  repeat' first
    | with_reducible assumption | with_reducible apply hubTouch_memWf | with_reducible apply reply_memWf
    | with_reducible apply replyFail_memWf | with_reducible apply foldl_memWf | intro _ | split | dsimp only

theorem remoteStore_memWf (s : State) (asid : BitVec 16) (va : Nat) (poison : List Nat) (bs : List Byte)  (hwf : s.memWf = true) :
    (remoteStore s asid va poison bs).memWf = true := by
  unfold remoteStore
  repeat' first
    | with_reducible assumption | with_reducible apply putGlobal_memWf | with_reducible apply reply_memWf
    | with_reducible apply replyFail_memWf | intro _ | split

theorem remoteUpdate_memWf (s : State) (asid : BitVec 16) (h : Home) (n : Nat) (f : Nat → Option Nat)  (hwf : s.memWf = true) :
    (remoteUpdate s asid h n f).memWf = true := by
  unfold remoteUpdate
  repeat' first
    | with_reducible assumption | with_reducible apply l2Access_memWf | with_reducible apply performBy_memWf
    | with_reducible apply homeTouch_memWf | with_reducible apply reply_memWf | intro _ | split | dsimp only

theorem retestContext_memWf (s : State) (asid : BitVec 16)  (hwf : s.memWf = true) :
    (retestContext s asid).memWf = true := by
  unfold retestContext
  repeat' first
    | with_reducible assumption | with_reducible apply retestWaits_memWf | intro _ | split

theorem execFabricRequest_memWf (asid : BitVec 16) (va : BitVec 48) (kind : RemoteOp) (data : List Byte) (s : State)  (hwf : s.memWf = true) :
    ∀ t, execFabricRequest asid va kind data s = .next t → t.memWf = true := by
  unfold execFabricRequest
  intro t ht
  repeat' first
    | with_reducible assumption | with_reducible apply replyFail_memWf | with_reducible apply remoteLoad_memWf
    | with_reducible apply remoteStore_memWf | with_reducible apply remoteUpdate_memWf
    | with_reducible apply retestContext_memWf | intro _ | split | dsimp only
    | fail_if_no_progress with_reducible refine memWf_mk ?_ | split at ht | (injection ht with ht; subst ht)

theorem updLane_memWf (s : State) (port vl : Nat) (f : Lane → Lane)  (hwf : s.memWf = true) :
    (updLane s port vl f).memWf = true := by
  unfold updLane
  repeat' first
    | with_reducible assumption | intro _ | split | dsimp only | fail_if_no_progress with_reducible refine memWf_mk ?_

theorem sendFlit_memWf (s : State) (port vl id : Nat)  (hwf : s.memWf = true) :
    (sendFlit s port vl id).memWf = true := by
  unfold sendFlit
  repeat' first
    | with_reducible assumption | with_reducible apply updLane_memWf | intro _ | split | dsimp only
    | fail_if_no_progress with_reducible refine memWf_mk ?_

theorem resumeLane_memWf (s : State) (port vl : Nat)  (hwf : s.memWf = true) :
    (resumeLane s port vl).memWf = true := by
  unfold resumeLane
  repeat' first
    | with_reducible assumption | with_reducible apply updLane_memWf | with_reducible apply sendFlit_memWf
    | with_reducible apply foldl_memWf | intro _

theorem execFabricPauseFlit_memWf (port : BitVec 5) (vl : BitVec 2) (s : State)  (hwf : s.memWf = true) :
    ∀ t, execFabricPauseFlit port vl s = .next t → t.memWf = true := by
  unfold execFabricPauseFlit
  intro t ht
  repeat' first
    | with_reducible assumption | with_reducible apply updLane_memWf | intro _ | split | dsimp only
    | fail_if_no_progress with_reducible refine memWf_mk ?_ | split at ht | (injection ht with ht; subst ht)

theorem execFabricResumeFlit_memWf (port : BitVec 5) (vl : BitVec 2) (s : State)  (hwf : s.memWf = true) :
    ∀ t, execFabricResumeFlit port vl s = .next t → t.memWf = true := by
  unfold execFabricResumeFlit
  intro t ht
  repeat' first
    | with_reducible assumption | with_reducible apply resumeLane_memWf | intro _ | split | dsimp only
    | fail_if_no_progress with_reducible refine memWf_mk ?_ | split at ht | (injection ht with ht; subst ht)

theorem execPauseExpiry_memWf (port : BitVec 5) (vl : BitVec 2) (s : State)  (hwf : s.memWf = true) :
    ∀ t, execPauseExpiry port vl s = .next t → t.memWf = true := by
  unfold execPauseExpiry
  intro t ht
  repeat' first
    | with_reducible assumption | with_reducible apply resumeLane_memWf | intro _ | split | dsimp only
    | fail_if_no_progress with_reducible refine memWf_mk ?_ | split at ht | (injection ht with ht; subst ht)

theorem execFlitReplay_memWf (port : BitVec 5) (vl : BitVec 2) (s : State)  (hwf : s.memWf = true) :
    ∀ t, execFlitReplay port vl s = .next t → t.memWf = true := by
  unfold execFlitReplay
  intro t ht
  repeat' first
    | with_reducible assumption | with_reducible apply updLane_memWf | intro _ | split | dsimp only
    | fail_if_no_progress with_reducible refine memWf_mk ?_ | split at ht | (injection ht with ht; subst ht)

theorem sendPause_memWf (s : State) (port vl : Nat)  (hwf : s.memWf = true) :
    (sendPause s port vl).memWf = true := by
  unfold sendPause
  repeat' first
    | with_reducible assumption | with_reducible apply updLane_memWf | intro _ | split | dsimp only
    | fail_if_no_progress with_reducible refine memWf_mk ?_

theorem execPauseFlitRepeat_memWf (port : BitVec 5) (vl : BitVec 2) (s : State)  (hwf : s.memWf = true) :
    ∀ t, execPauseFlitRepeat port vl s = .next t → t.memWf = true := by
  unfold execPauseFlitRepeat
  intro t ht
  repeat' first
    | with_reducible assumption | with_reducible apply sendPause_memWf | intro _ | split | dsimp only
    | fail_if_no_progress with_reducible refine memWf_mk ?_ | split at ht | (injection ht with ht; subst ht)

theorem flitArrives_memWf (s : State) (port vl n : Nat)  (hwf : s.memWf = true) :
    (flitArrives s port vl n).memWf = true := by
  unfold flitArrives
  repeat' first
    | with_reducible assumption | with_reducible apply updLane_memWf | with_reducible apply sendPause_memWf | intro _
    | split | dsimp only

theorem flitLeaves_memWf (s : State) (port vl n : Nat)  (hwf : s.memWf = true) :
    (flitLeaves s port vl n).memWf = true := by
  unfold flitLeaves
  repeat' first
    | with_reducible assumption | with_reducible apply updLane_memWf | intro _ | split | dsimp only
    | fail_if_no_progress with_reducible refine memWf_mk ?_

theorem flitSends_memWf (s : State) (port vl id : Nat)  (hwf : s.memWf = true) :
    (flitSends s port vl id).memWf = true := by
  unfold flitSends
  repeat' first
    | with_reducible assumption | with_reducible apply updLane_memWf | with_reducible apply sendFlit_memWf | intro _
    | split

theorem flitAcked_memWf (s : State) (port vl id : Nat)  (hwf : s.memWf = true) :
    (flitAcked s port vl id).memWf = true := by
  unfold flitAcked
  repeat' first
    | with_reducible assumption | with_reducible apply updLane_memWf

theorem parityFails_memWf (s : State) (m : Nat)  (hwf : s.memWf = true) :
    (parityFails s m).memWf = true := by
  unfold parityFails
  repeat' first
    | with_reducible assumption | intro _ | split | dsimp only | fail_if_no_progress with_reducible refine memWf_mk ?_

theorem execModuleRemove_memWf (m : BitVec 2) (s : State)  (hwf : s.memWf = true) :
    ∀ t, execModuleRemove m s = .next t → t.memWf = true := by
  unfold execModuleRemove
  intro t ht
  repeat' first
    | with_reducible assumption | intro _ | split | dsimp only | fail_if_no_progress with_reducible refine memWf_mk ?_
    | split at ht | (injection ht with ht; subst ht)

theorem execPowerLoss_memWf (s : State)  (hwf : s.memWf = true) :
    ∀ t, execPowerLoss s = .next t → t.memWf = true := by
  intro t ht
  injection ht with ht; subst ht
  exact memWf_of_parts rfl rfl (memWf_parts hwf).2.2.1 (memWf_parts hwf).2.2.2.1 (fun _ h => nomatch h) (fun _ h => nomatch h)

theorem execPowerGood_memWf (s : State)  (hwf : s.memWf = true) :
    ∀ t, execPowerGood s = .next t → t.memWf = true := by
  unfold execPowerGood
  intro t ht
  repeat' first
    | with_reducible assumption | intro _ | split | dsimp only | fail_if_no_progress with_reducible refine memWf_mk ?_
    | split at ht | (injection ht with ht; subst ht)

theorem endHub_memWf (s : State)  (hwf : s.memWf = true) :
    (endHub s).memWf = true := by
  unfold endHub
  repeat' first
    | with_reducible assumption | intro _ | split | dsimp only | fail_if_no_progress with_reducible refine memWf_mk ?_

theorem endRepair_memWf (s : State)  (hwf : s.memWf = true) :
    (endRepair s).memWf = true := by
  unfold endRepair
  repeat' first
    | with_reducible assumption | with_reducible apply foldl_memWf | intro _ | split | dsimp only
    | fail_if_no_progress with_reducible refine memWf_mk ?_

theorem bringUp_memWf (s : State) (c : Nat)  (hwf : s.memWf = true) :
    (bringUp s c).memWf = true := by
  unfold bringUp
  repeat' first
    | with_reducible assumption | with_reducible apply trainedNow_memWf | intro _ | split | dsimp only
    | fail_if_no_progress with_reducible refine memWf_mk ?_

theorem endTrain_memWf (s : State)  (hwf : s.memWf = true) :
    (endTrain s).memWf = true := by
  unfold endTrain
  repeat' first
    | with_reducible assumption | with_reducible apply bringUp_memWf | with_reducible apply foldl_memWf | intro _
    | split | dsimp only | fail_if_no_progress with_reducible refine memWf_mk ?_

theorem execBootPhaseEnd_memWf (s : State)  (hwf : s.memWf = true) :
    ∀ t, execBootPhaseEnd s = .next t → t.memWf = true := by
  have hn : ∀ {a t : State}, a.memWf = true → (Host.Outcome.next a : Host.Outcome State Fault Refusal) = .next t →
      t.memWf = true := fun ha ht => by injection ht with ht; exact ht ▸ ha
  unfold execBootPhaseEnd
  intro t
  by_cases h : (!s.powered || !phaseEnds s) = true
  · rw [if_pos h]; exact hn hwf
  · rw [if_neg h]
    split
    · exact hn (endHub_memWf _ hwf)
    · exact hn (endRepair_memWf _ hwf)
    · exact hn (memWf_mk hwf)
    · exact hn (endTrain_memWf _ hwf)

theorem writeChunks_memWf (s : State) (x : Context) (last : Nat) (l : List OpenChunk) (hwf : s.memWf = true) :
    (writeChunks s x last l).2.memWf = true := by
  induction l generalizing s with
  | nil => exact hwf
  | cons c t ih =>
    unfold writeChunks
    dsimp only
    split
    · exact hwf
    · exact ih _ (hubWrite_memWf _ _ _ _ hwf)


theorem writeRubbing_memWf (s : State) (x : Context) (ims : List (Image × List Word))  (hwf : s.memWf = true) :
    (writeRubbing s x ims).2.memWf = true := by
  unfold writeRubbing
  repeat' first
    | with_reducible assumption | refine snd_memWf (by assumption) ?_ | with_reducible apply hubWrite_memWf
    | with_reducible apply writeChunks_memWf | intro _ | split | dsimp only

theorem touchRubbing_memWf (s : State) (x : Context)  (hwf : s.memWf = true) :
    (touchRubbing s x).memWf = true := by
  unfold touchRubbing
  repeat' first
    | with_reducible assumption | with_reducible apply hubTouch_memWf | with_reducible apply foldl_memWf | intro _
    | split

theorem restoreFault_memWf (s : State) (asid : BitVec 16) (detail chunk : Nat)  (hwf : s.memWf = true) :
    (restoreFault s asid detail chunk).memWf = true := by
  unfold restoreFault
  repeat' first
    | with_reducible assumption | with_reducible apply removeContext_memWf

theorem freeCores_memWf (s : State) (asid : BitVec 16)  (hwf : s.memWf = true) :
    (freeCores s asid).memWf = true := by
  have hb : ∀ e ∈ ctxBlocks s asid, blockMemWf e.2 = true := fun e he =>
    (memWf_parts hwf).2.2.2.2.1 e (List.mem_of_mem_filter he)
  have hl : ∀ (l : List (Nat × Block)), (∀ e ∈ l, blockMemWf e.2 = true) → ∀ u : State, u.memWf = true →
      (l.foldl (fun s e => removeBlock s e.1 e.2) u).memWf = true := by
    intro l
    induction l with
    | nil => intro _ u h; exact h
    | cons a t ih =>
      intro hb u h
      exact ih (fun e he => hb e (List.mem_cons_of_mem _ he)) _ (removeBlock_memWf _ _ _ h (hb a (List.mem_cons_self ..)))
  exact hl _ hb _ (memWf_mk hwf)

theorem encodeBlocks_memWf (s : State) (asid : BitVec 16)  (hwf : s.memWf = true) :
    (encodeBlocks s asid).memWf = true := by
  unfold encodeBlocks
  repeat' first
    | with_reducible assumption | with_reducible apply holdPipe_memWf | with_reducible apply foldl_memWf | intro _

theorem finishSave_memWf (s : State) (x : Context)  (hwf : s.memWf = true) :
    (finishSave s x).memWf = true := by
  unfold finishSave
  repeat' first
    | with_reducible assumption | refine snd_memWf (by assumption) ?_ | with_reducible apply setCtx_memWf
    | with_reducible apply drainCore_memWf | with_reducible apply writeRubbing_memWf
    | with_reducible apply touchRubbing_memWf | with_reducible apply restoreFault_memWf
    | with_reducible apply freeCores_memWf | with_reducible apply encodeBlocks_memWf
    | with_reducible apply foldl_memWf | intro _ | split | dsimp only

theorem execSaveDone_memWf (asid : BitVec 16) (s : State)  (hwf : s.memWf = true) :
    ∀ t, execSaveDone asid s = .next t → t.memWf = true := by
  unfold execSaveDone
  intro t ht
  repeat' first
    | with_reducible assumption | with_reducible apply finishSave_memWf | intro _ | split | dsimp only
    | fail_if_no_progress with_reducible refine memWf_mk ?_ | split at ht | (injection ht with ht; subst ht)

theorem holdSlices_memWf (s : State) (blk id : Nat) (c : Command) (team : Nat)  (hwf : s.memWf = true) :
    (holdSlices s blk id c team).memWf = true := by
  unfold holdSlices
  repeat' first
    | with_reducible assumption | with_reducible apply updCourse_memWf | with_reducible apply foldl_memWf | intro _
    | split | dsimp only

theorem restoreCommand_memWf (blk team : Nat) (acc : List Nat × State) (c : Command)  (hacc : acc.2.memWf = true) :
    (restoreCommand blk team acc c).2.memWf = true := by
  unfold restoreCommand
  repeat' first
    | with_reducible assumption | refine snd_memWf (by assumption) ?_ | with_reducible apply setCmd_memWf
    | with_reducible apply newId_memWf | with_reducible apply holdSlices_memWf

theorem restoreErrors_memWf (s : State) (blk c slot code : Nat)  (hwf : s.memWf = true) :
    (restoreErrors s blk c slot code).memWf = true := by
  unfold restoreErrors
  repeat' first
    | with_reducible assumption | with_reducible apply updCourse_memWf | with_reducible apply takeFault_memWf
    | intro _ | split

theorem stopHolding_memWf (s : State) (id : Nat) (j : Job)  (hwf : s.memWf = true) :
    (stopHolding s id j).memWf = true := by
  unfold stopHolding
  repeat' first
    | with_reducible assumption | with_reducible apply setJob_memWf

theorem placeImage_memWf (s : State) (x : Context) (g : SavedBlock) (i : Image) (j : Job) (m : Nat) (hwf : s.memWf = true)
    (hi : blockMemWf i.block = true) : (placeImage s x g i j m).memWf = true := by
  unfold placeImage
  have hf : ∀ {α : Type} (l : List α) (u : State) (f : State → α → State), u.memWf = true →
      (∀ s a, s.memWf = true → (f s a).memWf = true) → (l.foldl f u).memWf = true := fun l u f h1 h2 => foldl_memWf h1 h2
  have h0 : State.memWf (holdPipe (stopHolding (holdCores { s with fresh := s.fresh + 64 } x.asid) g.job j) m (imageCycles i j.words)) = true :=
    holdPipe_memWf _ _ _ (stopHolding_memWf _ _ _ (holdCores_memWf _ _ (memWf_mk hwf)))
  refine hf _ _ _ (hf _ _ _ (hf _ _ _ (acquire_memWf _ _ _ _ ?_) (fun _ _ h => killCourse_memWf _ _ _ h))
    (fun _ _ h => refillSlots_memWf _ _ _ _ _ h)) (fun _ _ h => restoreErrors_memWf _ _ _ _ _ h)
  have h1 : ∀ (u : List Nat × State), u.2.memWf = true → ∀ (blk team : Nat) (l : List (Nat × Command)),
      (l.foldl (fun acc e => restoreCommand blk team acc e.2) u).2.memWf = true := fun u hu blk team l =>
    foldl_inv (p := fun a : List Nat × State => a.2.memWf = true) (fun a e h => restoreCommand_memWf _ _ a _ h) hu
  dsimp only
  split
  · apply setCtx_memWf
    refine hf _ _ _ (h1 _ ?_ _ _ _) (fun _ _ h => updCourse_memWf _ _ _ _ h)
    exact hf _ _ _ (setBlock_memWf (newId_memWf _ h0) hi) (fun _ _ h => setCourse_memWf _ _ _ _ h)
  · refine hf _ _ _ (h1 _ ?_ _ _ _) (fun _ _ h => updCourse_memWf _ _ _ _ h)
    exact hf _ _ _ (setBlock_memWf (newId_memWf _ h0) hi) (fun _ _ h => setCourse_memWf _ _ _ _ h)


theorem placeImages_memWf (s : State) (asid : BitVec 16) (l : List (SavedBlock × Image)) (hwf : s.memWf = true)
    (hl : ∀ e ∈ l, blockMemWf e.2.block = true) : ∀ t, placeImages s asid l = some t → t.memWf = true := by
  induction l generalizing s with
  | nil => intro t ht; injection ht with ht; subst ht; exact hwf
  | cons a rest ih =>
    obtain ⟨g, i⟩ := a
    intro t ht
    unfold placeImages at ht
    split at ht
    · split at ht
      · exact ih _ (placeImage_memWf _ _ _ _ _ _ hwf (hl _ (List.mem_cons_self ..)))
          (fun e he => hl e (List.mem_cons_of_mem _ he)) t ht
      · cases ht
    · cases ht


theorem noteRestore_memWf (s : State) (asid : BitVec 16) (n : Nat) (bad : Bool)  (hwf : s.memWf = true) :
    (noteRestore s asid n bad).memWf = true := by
  unfold noteRestore
  repeat' first
    | with_reducible assumption | with_reducible apply setCtx_memWf | intro _ | split

theorem restoreNow_memWf (s : State) (x : Context)  (hwf : s.memWf = true) :
    ∀ t, restoreNow s x = some t → t.memWf = true := by
  intro t ht
  unfold restoreNow at ht
  dsimp only at ht
  obtain ⟨_, ht⟩ := Option.ite_none_left_eq_some.1 ht
  have hwf := touchRubbing_memWf s x hwf
  generalize touchRubbing s x = s at hwf ht
  split at ht
  · injection ht with ht; subst ht; exact restoreFault_memWf _ _ _ _ (noteRestore_memWf _ _ _ _ hwf)
  · rename_i ims hr
    have h1 := noteRestore_memWf s x.asid (rubbingChunks s x) false hwf
    generalize noteRestore s x.asid (rubbingChunks s x) false = u at h1 ht
    split at ht
    · obtain ⟨y, _, rfl⟩ := Option.map_eq_some_iff.1 ht
      exact setCtx_memWf _ _ _ h1
    · obtain ⟨e, _, ht⟩ := List.exists_of_findSome?_eq_some ht
      exact placeImages_memWf _ _ _ h1 (fun e he => readRubbing_memWf hr e (List.mem_of_mem_filter he)) t ht

theorem execRestoreBlocks_memWf (asid : BitVec 16) (s : State)  (hwf : s.memWf = true) :
    ∀ t, execRestoreBlocks asid s = .next t → t.memWf = true := by
  intro t ht
  unfold execRestoreBlocks at ht
  split at ht <;> injection ht with ht <;> subst ht
  · exact hwf
  · cases h : restoreNow s _ with
    | none => exact hwf
    | some u => exact restoreNow_memWf _ _ hwf u h

theorem hostWrites_memWf (s : State) (pa : Nat) (bs : List Byte)  (hwf : s.memWf = true) :
    (hostWrites s pa bs).memWf = true := by
  obtain ⟨h1, h2, h3, h4, h5, h6⟩ := memWf_parts hwf
  refine memWf_of_parts h1 h2 (cellsWf_csetRun _ _ h3) ?_ h5 h6
  exact foldl_inv (p := fun m => cellsWf false m = true) (fun m l h => cellsWf_cset _ _ h) h4

theorem evictLine_memWf (s : State) (core : Nat) (asid : BitVec 16) (line : Nat)  (hwf : s.memWf = true) :
    (evictLine s core asid line).memWf = true := by
  unfold evictLine
  repeat' first
    | with_reducible assumption | with_reducible apply dropLines_memWf

theorem setTemperature_memWf (s : State) (stack : Nat) (degrees : Int)  (hwf : s.memWf = true) :
    (setTemperature s stack degrees).memWf = true := by
  unfold setTemperature
  repeat' first
    | with_reducible assumption | intro _ | split | dsimp only | fail_if_no_progress with_reducible refine memWf_mk ?_

/-- Every instruction and every event keeps the canonical form. -/
theorem exec_memWf (i : Instr) (s : State) (hwf : s.memWf = true) : ∀ t, exec i s = .next t → t.memWf = true := by
  cases i with
  | qcreate p v => exact execQcreate_memWf p v s hwf
  | queueCreationDone p => exact execQueueCreationDone_memWf p s hwf
  | qdestroy p v => exact execQdestroy_memWf p v s hwf
  | queueDestroyDone p => exact execQueueDestroyDone_memWf p s hwf
  | notifyWrite p q v => exact execNotifyWrite_memWf p q v s hwf
  | consumeSlot p q => exact execConsumeSlot_memWf p q s hwf
  | packetStart pkt => exact execPacketStart_memWf pkt s hwf
  | signalPacket pkt => exact execSignalPacket_memWf pkt s hwf
  | copyPacket pkt => exact execCopyPacket_memWf pkt s hwf
  | waitPacket pkt => exact execWaitPacket_memWf pkt s hwf
  | waitRetest pkt => exact execWaitRetest_memWf pkt s hwf
  | blockPlace pkt => exact execBlockPlace_memWf pkt s hwf
  | launchHolding pkt => exact execLaunchHolding_memWf pkt s hwf
  | blockLeave blk => exact execBlockLeave_memWf blk s hwf
  | launchComplete pkt => exact execLaunchComplete_memWf pkt s hwf
  | submissionTake asid => exact execSubmissionTake_memWf asid s hwf
  | csel p v => exact execCsel_memWf p v s hwf
  | cselClear p v => exact execCselClear_memWf p v s hwf
  | pgdone p v => exact execPgdone_memWf p v s hwf
  | pgdoneAbort p v => exact execPgdoneAbort_memWf p v s hwf
  | ctxctlHalt p v => exact execCtxctlHalt_memWf p v s hwf
  | haltComplete asid => exact execHaltComplete_memWf asid s hwf
  | ctxctlResume p v => exact execCtxctlResume_memWf p v s hwf
  | ctxctlStep p v => exact execCtxctlStep_memWf p v s hwf
  | ctxctlSave p v => exact execCtxctlSave_memWf p v s hwf
  | ctxctlRemove p v => exact execCtxctlRemove_memWf p v s hwf
  | ctxctlDestroy p v => exact execCtxctlDestroy_memWf p v s hwf
  | ccreate p v => exact execCcreate_memWf p v s hwf
  | contextCreationDone p => exact execContextCreationDone_memWf p s hwf
  | acsel p v => exact execAcsel_memWf p v s hwf
  | xinv p v => exact execXinv_memWf p v s hwf
  | xinvDone p => exact execXinvDone_memWf p s hwf
  | pctlEnable p v => exact execPctlEnable_memWf p v s hwf
  | pctlDisable p v => exact execPctlDisable_memWf p v s hwf
  | partitionReset p v => exact execPartitionReset_memWf p v s hwf
  | partitionResetDone p => exact execPartitionResetDone_memWf p s hwf
  | railmap v => exact execRailmap_memWf v s hwf
  | injpoison v => exact execInjpoison_memWf v s hwf
  | injdeadChannel v => exact execInjdeadChannel_memWf v s hwf
  | injdeadPseudoChannel v => exact execInjdeadPseudoChannel_memWf v s hwf
  | injdeadBank v => exact execInjdeadBank_memWf v s hwf
  | injdeadStack v => exact execInjdeadStack_memWf v s hwf
  | injdeadRetrainNow v => exact execInjdeadRetrainNow_memWf v s hwf
  | attest v => exact execAttest_memWf v s hwf
  | fwstage v => exact execFwstage_memWf v s hwf
  | fwcommit v => exact execFwcommit_memWf v s hwf
  | readLifetimeCounters v => exact execReadLifetimeCounters_memWf v s hwf
  | clearRepairEntries v => exact execClearRepairEntries_memWf v s hwf
  | readIdentityKey v => exact execReadIdentityKey_memWf v s hwf
  | registerWrite off v => exact execRegisterWrite_memWf off v s hwf
  | clockRaise k => exact execClockRaise_memWf k s hwf
  | droopStretch k => exact execDroopStretch_memWf k s hwf
  | marginOffsetDecay k => exact execMarginOffsetDecay_memWf k s hwf
  | timeSliceExpiry asid => exact execTimeSliceExpiry_memWf asid s hwf
  | preempt asid => exact execPreempt_memWf asid s hwf
  | saveDeadline asid => exact execSaveDeadline_memWf asid s hwf
  | saveDone asid => exact execSaveDone_memWf asid s hwf
  | restoreBlocks asid => exact execRestoreBlocks_memWf asid s hwf
  | recoveryNotice dev => exact execRecoveryNotice_memWf dev s hwf
  | recoveryExpiry dev => exact execRecoveryExpiry_memWf dev s hwf
  | remoteAccessDone dev id ok poison data => exact execRemoteAccessDone_memWf dev id ok poison data s hwf
  | longWriteComplete blk c id => exact execLongWriteComplete_memWf blk c id s hwf
  | barrierComplete blk id => exact execBarrierComplete_memWf blk id s hwf
  | phaseWake blk c slot => exact execPhaseWake_memWf blk c slot s hwf
  | engineAccept cmd => exact execEngineAccept_memWf cmd s hwf
  | engineStart cmd => exact execEngineStart_memWf cmd s hwf
  | engineComplete cmd => exact execEngineComplete_memWf cmd s hwf
  | tapeStageBarrier blk c => exact execTapeStageBarrier_memWf blk c s hwf
  | channelFail kind ch pc bank => exact execChannelFail_memWf kind ch pc bank s hwf
  | fabricPauseFlit port vl => exact execFabricPauseFlit_memWf port vl s hwf
  | fabricResumeFlit port vl => exact execFabricResumeFlit_memWf port vl s hwf
  | pauseExpiry port vl => exact execPauseExpiry_memWf port vl s hwf
  | flitReplay port vl => exact execFlitReplay_memWf port vl s hwf
  | moduleRemove m => exact execModuleRemove_memWf m s hwf
  | iadd d a b => exact execIadd_memWf d a b s hwf
  | isub d a b => exact execIsub_memWf d a b s hwf
  | imul d a b => exact execImul_memWf d a b s hwf
  | imulhs d a b => exact execImulhs_memWf d a b s hwf
  | imulhu d a b => exact execImulhu_memWf d a b s hwf
  | imad d a b => exact execImad_memWf d a b s hwf
  | iadds d a b => exact execIadds_memWf d a b s hwf
  | isubs d a b => exact execIsubs_memWf d a b s hwf
  | imin d a b => exact execImin_memWf d a b s hwf
  | imax d a b => exact execImax_memWf d a b s hwf
  | umin d a b => exact execUmin_memWf d a b s hwf
  | umax d a b => exact execUmax_memWf d a b s hwf
  | iand d a b => exact execIand_memWf d a b s hwf
  | ior d a b => exact execIor_memWf d a b s hwf
  | ixor d a b => exact execIxor_memWf d a b s hwf
  | andn d a b => exact execAndn_memWf d a b s hwf
  | shl d a b => exact execShl_memWf d a b s hwf
  | shr d a b => exact execShr_memWf d a b s hwf
  | sar d a b => exact execSar_memWf d a b s hwf
  | rotl d a b => exact execRotl_memWf d a b s hwf
  | bfx d a b => exact execBfx_memWf d a b s hwf
  | bfxs d a b => exact execBfxs_memWf d a b s hwf
  | bfi d a b => exact execBfi_memWf d a b s hwf
  | dp4s d a b => exact execDp4s_memWf d a b s hwf
  | dp4u d a b => exact execDp4u_memWf d a b s hwf
  | iadd64 d a b => exact execIadd64_memWf d a b s hwf
  | isub64 d a b => exact execIsub64_memWf d a b s hwf
  | imulws d a b => exact execImulws_memWf d a b s hwf
  | imulwu d a b => exact execImulwu_memWf d a b s hwf
  | shlw d a b => exact execShlw_memWf d a b s hwf
  | shrw d a b => exact execShrw_memWf d a b s hwf
  | iaddi d a imm => exact execIaddi_memWf d a imm s hwf
  | andi d a imm => exact execAndi_memWf d a imm s hwf
  | ori d a imm => exact execOri_memWf d a imm s hwf
  | xori d a imm => exact execXori_memWf d a imm s hwf
  | shli d a imm => exact execShli_memWf d a imm s hwf
  | shri d a imm => exact execShri_memWf d a imm s hwf
  | sari d a imm => exact execSari_memWf d a imm s hwf
  | movi d imm => exact execMovi_memWf d imm s hwf
  | lui d imm => exact execLui_memWf d imm s hwf
  | imuli d a imm => exact execImuli_memWf d a imm s hwf
  | mov d a => exact execMov_memWf d a s hwf
  | inot d a => exact execInot_memWf d a s hwf
  | ineg d a => exact execIneg_memWf d a s hwf
  | iabs d a => exact execIabs_memWf d a s hwf
  | popc d a => exact execPopc_memWf d a s hwf
  | clz d a => exact execClz_memWf d a s hwf
  | ctz d a => exact execCtz_memWf d a s hwf
  | brev d a => exact execBrev_memWf d a s hwf
  | bswap d a => exact execBswap_memWf d a s hwf
  | sext8 d a => exact execSext8_memWf d a s hwf
  | sext16 d a => exact execSext16_memWf d a s hwf
  | zext8 d a => exact execZext8_memWf d a s hwf
  | zext16 d a => exact execZext16_memWf d a s hwf
  | icmp pd cc a b => exact execIcmp_memWf pd cc a b s hwf
  | icmpi pd cc a imm => exact execIcmpi_memWf pd cc a imm s hwf
  | icmp64 pd cc a b => exact execIcmp64_memWf pd cc a b s hwf
  | sel d a b => exact execSel_memWf d a b s hwf
  | plop pd pa pb pc lut => exact execPlop_memWf pd pa pb pc lut s hwf
  | fadd d a b => exact execFadd_memWf d a b s hwf
  | fsub d a b => exact execFsub_memWf d a b s hwf
  | fmul d a b => exact execFmul_memWf d a b s hwf
  | ffma d a b => exact execFfma_memWf d a b s hwf
  | fnfma d a b => exact execFnfma_memWf d a b s hwf
  | fmin d a b => exact execFmin_memWf d a b s hwf
  | fmax d a b => exact execFmax_memWf d a b s hwf
  | fcmp pd cc a b => exact execFcmp_memWf pd cc a b s hwf
  | faddi d a imm => exact execFaddi_memWf d a imm s hwf
  | fmuli d a imm => exact execFmuli_memWf d a imm s hwf
  | fcmpi pd cc a imm => exact execFcmpi_memWf pd cc a imm s hwf
  | hadd2 d a b => exact execHadd2_memWf d a b s hwf
  | hmul2 d a b => exact execHmul2_memWf d a b s hwf
  | hfma2 d a b => exact execHfma2_memWf d a b s hwf
  | badd2 d a b => exact execBadd2_memWf d a b s hwf
  | bmul2 d a b => exact execBmul2_memWf d a b s hwf
  | bfma2 d a b => exact execBfma2_memWf d a b s hwf
  | hmin2 d a b => exact execHmin2_memWf d a b s hwf
  | hmax2 d a b => exact execHmax2_memWf d a b s hwf
  | pkh d a b => exact execPkh_memWf d a b s hwf
  | pkb d a b => exact execPkb_memWf d a b s hwf
  | fabs d a => exact execFabs_memWf d a s hwf
  | fneg d a => exact execFneg_memWf d a s hwf
  | frcp d a => exact execFrcp_memWf d a s hwf
  | frsq d a => exact execFrsq_memWf d a s hwf
  | fsqrt d a => exact execFsqrt_memWf d a s hwf
  | fexp2 d a => exact execFexp2_memWf d a s hwf
  | flog2 d a => exact execFlog2_memWf d a s hwf
  | fsinp d a => exact execFsinp_memWf d a s hwf
  | fcosp d a => exact execFcosp_memWf d a s hwf
  | ftanh d a => exact execFtanh_memWf d a s hwf
  | frndn d a => exact execFrndn_memWf d a s hwf
  | frndz d a => exact execFrndz_memWf d a s hwf
  | frndp d a => exact execFrndp_memWf d a s hwf
  | frndm d a => exact execFrndm_memWf d a s hwf
  | fclass d a => exact execFclass_memWf d a s hwf
  | fsat d a => exact execFsat_memWf d a s hwf
  | ffrac d a => exact execFfrac_memWf d a s hwf
  | cvt d a src dst rnd => exact execCvt_memWf d a src dst rnd s hwf
  | voteAny pd ps => exact execVoteAny_memWf pd ps s hwf
  | voteAll pd ps => exact execVoteAll_memWf pd ps s hwf
  | voteUni pd ps => exact execVoteUni_memWf pd ps s hwf
  | voteBallot d ps => exact execVoteBallot_memWf d ps s hwf
  | shfi d a b => exact execShfi_memWf d a b s hwf
  | shfu d a b => exact execShfu_memWf d a b s hwf
  | shfd d a b => exact execShfd_memWf d a b s hwf
  | shfx d a b => exact execShfx_memWf d a b s hwf
  | qsw d a op => exact execQsw_memWf d a op s hwf
  | redx d a op => exact execRedx_memWf d a op s hwf
  | scan d a op => exact execScan_memWf d a op s hwf
  | matchLanes d a => exact execMatchLanes_memWf d a s hwf
  | tilep n => exact execTilep_memWf n s hwf
  | bra off => exact execBra_memWf off s hwf
  | brx a => exact execBrx_memWf a s hwf
  | call off => exact execCall_memWf off s hwf
  | callx a => exact execCallx_memWf a s hwf
  | rcv off => exact execRcv_memWf off s hwf
  | bar id => exact execBar_memWf id s hwf
  | pharr d a imm => exact execPharr_memWf d a imm s hwf
  | phwait d a imm => exact execPhwait_memWf d a imm s hwf
  | proof code => exact execProof_memWf code s hwf
  | trap code => exact execTrap_memWf code s hwf
  | ldr d a rs j => exact execLdr_memWf d a rs j s hwf
  | str d a rs j => exact execStr_memWf d a rs j s hwf
  | ldrp d a rs j => exact execLdrp_memWf d a rs j s hwf
  | atr op d a rs => exact execAtr_memWf op d a rs s hwf
  | pref lvl a rs j => exact execPref_memWf lvl a rs j s hwf
  | ldl d a imm => exact execLdl_memWf d a imm s hwf
  | stl d a imm => exact execStl_memWf d a imm s hwf
  | atl op d a => exact execAtl_memWf op d a s hwf
  | ldlp d a imm => exact execLdlp_memWf d a imm s hwf
  | fence kind scope eng => exact execFence_memWf kind scope eng s hwf
  | cinv scope => exact execCinv_memWf scope s hwf
  | recld dst a rs j => exact execRecld_memWf dst a rs j s hwf
  | cpy card strm c => exact execCpy_memWf card strm c s hwf
  | gath card strm c => exact execGath_memWf card strm c s hwf
  | xfmCrc32c d a cnt => exact execXfmCrc32c_memWf d a cnt s hwf
  | xfmHash d a cnt => exact execXfmHash_memWf d a cnt s hwf
  | xfmSort d a cnt => exact execXfmSort_memWf d a cnt s hwf
  | mma card strm c => exact execMma_memWf card strm c s hwf
  | mml card strm c => exact execMml_memWf card strm c s hwf
  | epi card strm c => exact execEpi_memWf card strm c s hwf
  | swait strm => exact execSwait_memWf strm s hwf
  | trec w tag a => exact execTrec_memWf w tag a s hwf
  | tpop w tag d => exact execTpop_memWf w tag d s hwf
  | brr off => exact execBrr_memWf off s hwf
  | tctlRecbegin drop rec hint => exact execTctlRecbegin_memWf drop rec hint s hwf
  | tctlRecbeginExt drop rec hint => exact execTctlRecbeginExt_memWf drop rec hint s hwf
  | tctlRecend d => exact execTctlRecend_memWf d s hwf
  | tctlRepbegin o rec hint => exact execTctlRepbegin_memWf o rec hint s hwf
  | tctlMark a => exact execTctlMark_memWf a s hwf
  | tctlStatus d => exact execTctlStatus_memWf d s hwf
  | srd d sr => exact execSrd_memWf d sr s hwf
  | swr sr a => exact execSwr_memWf sr a s hwf
  | taskSignal a => exact execTaskSignal_memWf a s hwf
  | taskEnq d a => exact execTaskEnq_memWf d a s hwf
  | stepBegin d a => exact execStepBegin_memWf d a s hwf
  | stepEnd d a => exact execStepEnd_memWf d a s hwf
  | stepSlack d a => exact execStepSlack_memWf d a s hwf
  | storePerformed core idx => exact execStorePerformed_memWf core idx s hwf
  | hostMemoryAccess pa len data => exact execHostMemoryAccess_memWf pa len data s hwf
  | hostSnoop pa => exact execHostSnoop_memWf pa s hwf
  | fabricRequest asid va kind data => exact execFabricRequest_memWf asid va kind data s hwf
  | courseStarved blk c => exact execCourseStarved_memWf blk c s hwf
  | supplyRecovers k => exact execSupplyRecovers_memWf k s hwf
  | pauseFlitRepeat port vl => exact execPauseFlitRepeat_memWf port vl s hwf
  | waitPollTimer => exact execWaitPollTimer_memWf s hwf
  | intervalStart => exact execIntervalStart_memWf s hwf
  | sensitivityWindowEnd => exact execSensitivityWindowEnd_memWf s hwf
  | watchdogCheck => exact execWatchdogCheck_memWf s hwf
  | retrainStart => exact execRetrainStart_memWf s hwf
  | retrainEnd => exact execRetrainEnd_memWf s hwf
  | retrainTimeout => exact execRetrainTimeout_memWf s hwf
  | rebuildSpan => exact execRebuildSpan_memWf s hwf
  | memberSwitch => exact execMemberSwitch_memWf s hwf
  | staleSlotRewrite => exact execStaleSlotRewrite_memWf s hwf
  | scrubSpan => exact execScrubSpan_memWf s hwf
  | counterFlush => exact execCounterFlush_memWf s hwf
  | powerGood => exact execPowerGood_memWf s hwf
  | bootPhaseEnd => exact execBootPhaseEnd_memWf s hwf
  | nop => exact execNop_memWf s hwf
  | ret => exact execRet_memWf s hwf
  | join => exact execJoin_memWf s hwf
  | exit => exact execExit_memWf s hwf
  | yield => exact execYield_memWf s hwf
  | tctlRepend => exact execTctlRepend_memWf s hwf
  | tctlFlush => exact execTctlFlush_memWf s hwf
  | taskDone => exact execTaskDone_memWf s hwf
  | packetFetch => exact execPacketFetch_memWf s hwf
  | powerLoss => exact execPowerLoss_memWf s hwf

theorem runMembers_memWf (l : List (Nat × SlotCode)) (s : State) (hwf : s.memWf = true) :
    ∀ t, runMembers l s = .next t → t.memWf = true := by
  induction l generalizing s with
  | nil => intro t ht; injection ht with ht; subst ht; exact hwf
  | cons e rest ih =>
    intro t ht
    unfold runMembers at ht
    split at ht
    · injection ht with ht; subst ht; exact hwf
    · dsimp only at ht
      split at ht
      · injection ht with ht; subst ht; exact memWf_mk hwf
      · split at ht
        · exact ih _ (exec_memWf _ _ (memWf_mk hwf) _ ‹_›) t ht
        · exact exec_memWf _ _ (memWf_mk hwf) t ht


theorem runUnit_memWf (s : State) (u : Issue) (l : List (Nat × SlotCode))  (hwf : s.memWf = true) :
    ∀ t, runUnit s u l = .next t → t.memWf = true := by
  unfold runUnit
  intro t ht
  repeat' first
    | with_reducible assumption | with_reducible apply faultUnit_memWf | with_reducible apply holdUnit_memWf
    | (with_reducible apply runMembers_memWf; case a => with_reducible assumption) | intro _ | split | dsimp only
    | fail_if_no_progress with_reducible refine memWf_mk ?_ | split at ht | (injection ht with ht; subst ht)

theorem issueUnit_memWf (s : State) (blk c slot : Nat)  (hwf : s.memWf = true) :
    ∀ t, issueUnit s blk c slot = .next t → t.memWf = true := by
  unfold issueUnit
  intro t ht
  repeat' first
    | with_reducible assumption | with_reducible apply progress_memWf
    | (with_reducible apply runUnit_memWf; case a => with_reducible assumption) | intro _ | split | dsimp only
    | fail_if_no_progress with_reducible refine memWf_mk ?_ | split at ht | (injection ht with ht; subst ht)

theorem enterRound_memWf (s : State) (x : Nat)  (hwf : s.memWf = true) :
    (enterRound s x).memWf = true := by
  unfold enterRound
  repeat' first
    | with_reducible assumption | with_reducible apply passFs_memWf | intro _ | split

theorem emptyCycle_memWf (s : State) (x : Nat) (l : List Candidate)  (hwf : s.memWf = true) :
    (emptyCycle s x l).memWf = true := by
  unfold emptyCycle
  repeat' first
    | with_reducible assumption | with_reducible apply countEligible_memWf | with_reducible apply advanceQuarter_memWf
    | intro _ | split | dsimp only | fail_if_no_progress with_reducible refine memWf_mk ?_

theorem creditIssue_memWf (s : State) (x : Nat)  (hwf : s.memWf = true) :
    (creditIssue s x).memWf = true := by
  unfold creditIssue
  repeat' first
    | with_reducible assumption | with_reducible apply setCluster_memWf | intro _ | split | dsimp only

theorem issueState_memWf (s : State) (x : Nat) (l : List Candidate) (r : Candidate × Nat × List Nat)  (hwf : s.memWf = true) :
    (issueState s x l r).memWf = true := by
  unfold issueState
  repeat' first
    | with_reducible assumption | with_reducible apply updCourse_memWf | with_reducible apply fetchPath_memWf
    | with_reducible apply countEligible_memWf | with_reducible apply advanceQuarter_memWf
    | with_reducible apply creditIssue_memWf | intro _ | split | dsimp only
    | fail_if_no_progress with_reducible refine memWf_mk ?_

theorem takeCycle_memWf (s : State) (x : Nat)  (hwf : s.memWf = true) :
    ∀ t, takeCycle s x = .next t → t.memWf = true := by
  unfold takeCycle
  intro t ht
  repeat' first
    | with_reducible assumption | (with_reducible apply issueUnit_memWf; case a => with_reducible assumption)
    | with_reducible apply emptyCycle_memWf | with_reducible apply issueState_memWf | intro _ | split | dsimp only
    | fail_if_no_progress with_reducible refine memWf_mk ?_ | split at ht | (injection ht with ht; subst ht)
    | dsimp only at ht

theorem cycleQuarter_memWf (s : State) (x : Nat)  (hwf : s.memWf = true) :
    ∀ t, cycleQuarter s x = .next t → t.memWf = true := by
  unfold cycleQuarter
  intro t ht
  repeat' first
    | with_reducible assumption | with_reducible apply enterRound_memWf
    | (with_reducible apply takeCycle_memWf; case a => with_reducible assumption) | intro _ | split | dsimp only
    | fail_if_no_progress with_reducible refine memWf_mk ?_ | split at ht | (injection ht with ht; subst ht)
    | dsimp only at ht

theorem rejoin_memWf (s : State) (blk c slot : Nat)  (hwf : s.memWf = true) :
    ∀ t, rejoin s blk c slot = .next t → t.memWf = true := by
  unfold rejoin
  intro t ht
  repeat' first
    | with_reducible assumption | with_reducible apply updPath_memWf
    | (with_reducible apply issueUnit_memWf; case a => with_reducible assumption)

theorem applyTick_memWf (s : State) (n : Nat) (rest : List Move)  (hwf : s.memWf = true) :
    ∀ t, applyTick s n rest = .next t → t.memWf = true := by
  unfold applyTick
  intro t ht
  repeat' first
    | with_reducible assumption | with_reducible apply passTime_memWf
    | (with_reducible apply exec_memWf; case a => with_reducible assumption) | intro _ | split | dsimp only
    | fail_if_no_progress with_reducible refine memWf_mk ?_ | split at ht | (injection ht with ht; subst ht)
    | dsimp only at ht

theorem applyEvent_memWf (s : State) (i : Instr)  (hwf : s.memWf = true) :
    ∀ t, applyEvent s i = .next t → t.memWf = true := by
  unfold applyEvent
  intro t ht
  repeat' first
    | with_reducible assumption | (with_reducible apply exec_memWf; case a => with_reducible assumption) | intro _
    | split | dsimp only | fail_if_no_progress with_reducible refine memWf_mk ?_ | split at ht
    | (injection ht with ht; subst ht)

theorem applyMove_memWf (s : State) (m : Move) (rest : List Move)  (hwf : s.memWf = true) :
    ∀ t, applyMove s m rest = .next t → t.memWf = true := by
  unfold applyMove
  intro t ht
  repeat' first
    | with_reducible assumption | with_reducible apply upsetSector_memWf | with_reducible apply hostStore_memWf
    | with_reducible apply flitArrives_memWf | with_reducible apply flitLeaves_memWf
    | with_reducible apply flitSends_memWf | with_reducible apply flitAcked_memWf
    | with_reducible apply parityFails_memWf | with_reducible apply hostWrites_memWf
    | with_reducible apply evictLine_memWf | with_reducible apply setTemperature_memWf
    | (with_reducible apply cycleQuarter_memWf; case a => with_reducible assumption)
    | (with_reducible apply applyTick_memWf; case a => with_reducible assumption)
    | (with_reducible apply applyEvent_memWf; case a => with_reducible assumption) | intro _ | split | dsimp only
    | fail_if_no_progress with_reducible refine memWf_mk ?_ | split at ht | (injection ht with ht; subst ht)
    | dsimp only at ht

theorem passIdle_memWf (s : State)  (hwf : s.memWf = true) :
    (passIdle s).memWf = true := by
  unfold passIdle
  repeat' first
    | with_reducible assumption | with_reducible apply passTime_memWf

theorem settle_memWf (s : State)  (hwf : s.memWf = true) :
    ∀ t, settle s = .next t → t.memWf = true := by
  unfold settle
  intro t ht
  repeat' first
    | with_reducible assumption | (with_reducible apply exec_memWf; case a => with_reducible assumption)
    | with_reducible apply passIdle_memWf | intro _ | split | dsimp only
    | fail_if_no_progress with_reducible refine memWf_mk ?_ | split at ht | (injection ht with ht; subst ht)

theorem runIdle_memWf (s : State)  (hwf : s.memWf = true) :
    ∀ t, runIdle s = .next t → t.memWf = true := by
  unfold runIdle
  intro t ht
  repeat' first
    | with_reducible assumption | (with_reducible apply exec_memWf; case a => with_reducible assumption)
    | (with_reducible apply flushRecords_memWf; case a => with_reducible assumption)
    | (with_reducible apply cycleQuarter_memWf; case a => with_reducible assumption)
    | (with_reducible apply settle_memWf; case a => with_reducible assumption) | intro _ | split | dsimp only
    | fail_if_no_progress with_reducible refine memWf_mk ?_ | split at ht | (injection ht with ht; subst ht)

end Sys2Proof.Machine
end

