-- ==== Sys2Proof/Laws/Polls.lean ====
section
/-!
SUPPORT. Laws of the instructions that demote their path: polls and a CAS that fails.
-/

namespace Sys2Proof.Machine

/-- Courses of the same registers and lanes read the same after a write. -/
theorem readAfter_base {k j : Course} (hl : k.live = j.live) (hr : ∀ r l, readReg k r l = readReg j r l) (m ds r l) : readAfter k m ds r l = readAfter j m ds r l := by
  unfold readAfter resultLane
  rw [hr, hl]
/-- A path's move changes no register. -/
theorem reg_setPath (k : Course) (j p r l) : readReg (setPath k j p) r l = readReg k r l := by
  unfold setPath; split <;> rfl
/-- What the registers read once a unit has ended: its hints alone. -/
theorem reg_unit (u : Issue) (b k r l) : readReg (unitCourse u b k) r l = readReg (spendRegs k u.spends) r l := by
  unfold unitCourse
  dsimp only
  split
  · refine Eq.trans (b := readReg (setPath _ _ _) r l) rfl ?_
    rw [reg_setPath]; rfl
  · rw [reg_setPath]; rfl
/-- What the end of a unit keeps. -/
theorem unit_live (u : Issue) (b k) : (unitCourse u b k).live = k.live ∧ (unitCourse u b k).depth = k.depth ∧ (unitCourse u b k).tape = k.tape ∧ (unitCourse u b k).stackSlot = k.stackSlot ∧ (unitCourse u b k).longs = k.longs := by
  have e : ∀ (k : Course) j q, (setPath k j q).live = k.live ∧ (setPath k j q).depth = k.depth ∧ (setPath k j q).tape = k.tape ∧ (setPath k j q).stackSlot = k.stackSlot ∧ (setPath k j q).longs = k.longs := by
    intro k j q; unfold setPath; split <;> exact ⟨rfl, rfl, rfl, rfl, rfl⟩
  have e1 : ∀ j, (spendRegs k j).live = k.live ∧ (spendRegs k j).depth = k.depth ∧ (spendRegs k j).tape = k.tape ∧ (spendRegs k j).stackSlot = k.stackSlot ∧ (spendRegs k j).longs = k.longs := by
    intro j; rw [onlyRegs_spendRegs k j]; exact ⟨rfl, rfl, rfl, rfl, rfl⟩
  unfold unitCourse
  dsimp only
  split <;> simp [markWait, e, e1]
/-- The issuing path once its unit has ended. -/
theorem path_unit (u : Issue) (k : Course) : getPath (unitCourse u true k) u.slot = (getPath k u.slot).map (fun p => nextPos { p with sig := u.folds.foldl foldSig p.sig } u.after) := by
  have e1 : ∀ j, getPath (spendRegs k j) u.slot = getPath k u.slot := fun j => (onlyRegs_spendRegs k j).getPath _
  unfold unitCourse
  dsimp only
  split
  · refine Eq.trans (b := getPath (setPath _ u.slot _) u.slot) rfl ?_
    rw [getPath_setPath_self]
    refine Eq.trans (b := (getPath (spendRegs k u.spends) u.slot).map _) rfl ?_
    rw [e1]; rfl
  · rw [getPath_setPath_self]
    refine Eq.trans (b := (getPath (spendRegs k u.spends) u.slot).map _) rfl ?_
    rw [e1]; rfl
/-- The other path once a unit has ended. -/
theorem path_unit_other (u : Issue) (k : Course) (hs : u.slot < 2) : getPath (unitCourse u true k) (1 - u.slot) = getPath k (1 - u.slot) := by
  have hs : u.slot = 0 ∨ u.slot = 1 := by omega
  have e1 : ∀ j, getPath (spendRegs k j) (1 - u.slot) = getPath k (1 - u.slot) := fun j => (onlyRegs_spendRegs k j).getPath _
  unfold unitCourse
  dsimp only
  split
  · refine Eq.trans (b := getPath (setPath _ u.slot _) (1 - u.slot)) rfl ?_
    rw [getPath_setPath_other _ _ hs]
    exact e1 _
  · rw [getPath_setPath_other _ _ hs]
    exact e1 _
/-- The other path is preferred. -/
theorem unit_pref (u : Issue) (k : Course) : (unitCourse u true k).preferred = 1 - u.slot := by
  have e : ∀ (k : Course) a q, (setPath k a q).preferred = k.preferred := by intro k a q; unfold setPath; split <;> rfl
  unfold unitCourse
  dsimp only
  split <;> simp [markWait, e]
/-- A path once long writes have completed. -/
theorem unpend_path (k : Course) (ids j) : getPath (unpend k ids) j = (getPath k j).map (fun p => { p with pending := p.pending.filter (fun i => !ids.contains i) }) := by
  unfold unpend getPath
  dsimp only
  split <;> rfl

/-- What the hints leave depends on the registers alone. -/
theorem spend_congr (l : List Nat) (a b : Course) (h : a.vregs = b.vregs ∧ a.sregs = b.sregs ∧ a.vspent = b.vspent ∧ a.sspent = b.sspent) (r x) : readReg (spendRegs a l) r x = readReg (spendRegs b l) r x := by
  unfold spendRegs
  induction l generalizing a b with
  | nil =>
    cases r <;> simp [readReg, readV, readS, vSpent, sSpent, h]
  | cons n t ih =>
    rw [List.foldl_cons, List.foldl_cons]
    apply ih
    split
    · exact ⟨h.1, h.2.1, by rw [h.2.2.1], h.2.2.2⟩
    · split
      · exact ⟨h.1, h.2.1, h.2.2.1, by rw [h.2.2.2]⟩
      · exact h
/-- A long write that begins changes no register. -/
theorem begin_regs (w : LongWrite) (j : Nat) (k : Course) : (beginLong w j k).vregs = k.vregs ∧ (beginLong w j k).sregs = k.sregs ∧ (beginLong w j k).vspent = k.vspent ∧ (beginLong w j k).sspent = k.sspent := by
  unfold beginLong
  split
  · unfold setPath; dsimp only; split <;> exact ⟨rfl, rfl, rfl, rfl⟩
  · exact ⟨rfl, rfl, rfl, rfl⟩
/-- A path that stands alone, with an empty stack: its demotion completes its long writes, and the other slot is preferred
(R243). -/
theorem demote_empty {t : State} {v : View} {i : Instr} {m : Lanes} {ds : List (RegName × (Nat → Word))} {k2 : Course} (k1 : Course)
    (hcp : completePath (courseLeaves (idTaken t) v k1) v.u.blk v.u.course v.u.slot = courseLeaves (idTaken t) v k2)
    (hp : getPath k2 v.u.slot = some { nextPos v.p v.u.after with
      sig := (memberFolds v.u i).foldl foldSig v.p.sig, pending := [] })
    (hd : k2.depth = 0) (hx : (blockCtx t v.u.blk).isSome = true)
    (ho : getPath k2 (1 - v.u.slot) = getPath v.k (1 - v.u.slot)) (hl : k2.live = v.k.live)
    (hf : k2.preferred = 1 - v.u.slot)
    (hr : ∀ r l, l < 32 → readReg k2 r l = readAfter (spendRegs v.k (v.u.spends ++ spends i)) m ds r l) :
    DemotedLeaves t v (.next (demote (courseLeaves (idTaken t) v k1) v.u.blk v.u.course v.u.slot)) i m ds := by
  unfold demote
  rw [hcp]
  dsimp only
  rw [getCourse_courseLeaves]
  obtain ⟨x, hx⟩ := Option.isSome_iff_exists.mp hx
  rw [show blockCtx (courseLeaves (idTaken t) v k2) v.u.blk = some x from hx]
  dsimp only
  rw [hp]
  dsimp only
  generalize keepsLanes k2 v.u.slot _ = w
  split
  · exact ⟨k2, rfl, hp, ho, hd, hl, hf, hr⟩
  · rw [hd, touchRun, siblingRun]
    dsimp only
    rw [updCourse_courseLeaves]
    exact ⟨_, rfl, hp, ho, hd, hl, rfl, hr⟩

/-- An instruction whose long write begins and whose path is demoted with an empty stack (R170, R174, R177, R243). -/
theorem demoted {t : State} {v : View} (w : LongWrite) (i : Instr) (fl : FpFlags) (m : Lanes) (ds) (hc : getCourse t v.u.blk v.u.course = some v.k)
   (hp : getPath v.k v.u.slot = some v.p) (hs : v.u.slot < 2) (hla : v.u.last = true) (hd : v.k.depth = 0) (hlo : v.k.longs = []) (hap : allPending v.k = [])
   (hpk : ∀ ids acks, v.p.park ≠ .longs ids acks) (hok : ∀ q, getPath v.k (1 - v.u.slot) = some q → ∀ ids acks, q.park ≠ .longs ids acks)
   (hx : (blockCtx t v.u.blk).isSome = true) (hw : PureLong w) (hid : w.id = t.nextId) (hwr : ∀ k0, Written k0 (applyWrites k0 w.writes) m ds) :
   DemotedLeaves t v (.next (retire (addLong (idTaken t) v.u w) { v.u with demotes := v.u.demotes || true } i fl)) i m ds := by
  have hsl : v.u.slot = 0 ∨ v.u.slot = 1 := by omega
  have hpe : v.p.pending = [] ∧ ∀ q, getPath v.k (1 - v.u.slot) = some q → q.pending = [] := by
    unfold allPending at hap
    rw [List.append_eq_nil_iff] at hap
    unfold getPath at *
    rcases hsl with e | e <;> simp only [e] at *
    · simp only [if_true, Nat.reduceSub, Nat.one_ne_zero, if_false] at *
      rw [hp] at hap
      exact ⟨hap.1, fun q hq => by rw [hq] at hap; exact hap.2⟩
    · simp only [if_true, Nat.one_ne_zero, if_false] at *
      rw [hp] at hap
      exact ⟨hap.2, fun q hq => by rw [hq] at hap; exact hap.1⟩
  let u2 : Issue := { v.u with demotes := v.u.demotes || true, spends := v.u.spends ++ spends i, flags := v.u.flags ||| fl, folds := memberFolds { v.u with demotes := v.u.demotes || true } i, waits := v.u.waits || v.u.wait }
  have hk1 : getCourse (idTaken t) v.u.blk v.u.course = some v.k := hc
  let k1 := unitCourse u2 true (beginLong w v.u.slot v.k)
  have hR : retire (addLong (idTaken t) v.u w) { v.u with demotes := v.u.demotes || true } i fl = demote (courseLeaves (idTaken t) v k1) v.u.blk v.u.course v.u.slot := by
    unfold retire
    dsimp only
    rw [if_pos hla]
    unfold endUnit addLong
    dsimp only
    rw [updCourse_of_get hk1, updCourse_of_get (getCourse_setCourse_self ..)]
    rw [if_pos (by simp)]
    congr 1
    simp only [courseLeaves, setCourse, put_put]
    rfl
  rw [hR]
  have hbl : (beginLong w v.u.slot v.k).live = v.k.live ∧ (beginLong w v.u.slot v.k).depth = v.k.depth ∧ (beginLong w v.u.slot v.k).tape = v.k.tape := by
    unfold beginLong
    split
    · refine ⟨setPath_live .., setPath_depth .., setPath_tape ..⟩
    · exact ⟨rfl, rfl, rfl⟩
  have hbo : getPath (beginLong w v.u.slot v.k) (1 - v.u.slot) = getPath v.k (1 - v.u.slot) := by
    unfold beginLong
    split
    · exact getPath_setPath_other _ _ hsl
    · rfl
  have hbr : ∀ r l, readReg (spendRegs (beginLong w v.u.slot v.k) u2.spends) r l = readReg (spendRegs v.k (v.u.spends ++ spends i)) r l := fun r l => spend_congr _ _ _ (begin_regs ..) r l
  have hfo : u2.folds = memberFolds v.u i := rfl
  have hk1o : getPath k1 (1 - v.u.slot) = getPath v.k (1 - v.u.slot) := (path_unit_other u2 _ hs).trans hbo
  have hu1 := unit_live u2 true (beginLong w v.u.slot v.k)
  by_cases hb : longBrings w = true
  · have hbp : getPath (beginLong w v.u.slot v.k) v.u.slot = some { v.p with pending := [t.nextId] } := by
      unfold beginLong
      rw [if_pos hb, getPath_setPath_self]
      refine (congrArg (Option.map _) (show getPath { v.k with longs := v.k.longs ++ [w] } v.u.slot = some v.p from hp)).trans ?_
      simp [hpe.1, hid]
    have hbl2 : (beginLong w v.u.slot v.k).longs = [w] := by
      unfold beginLong
      rw [if_pos hb]
      have : ∀ (k : Course) a q, (setPath k a q).longs = k.longs := by intro k a q; unfold setPath; split <;> rfl
      rw [this]
      simp [hlo]
    have hk1p : getPath k1 v.u.slot = some (nextPos { v.p with pending := [t.nextId], sig := (memberFolds v.u i).foldl foldSig v.p.sig } v.u.after) := by
      have := path_unit u2 (beginLong w v.u.slot v.k)
      rw [show u2.slot = v.u.slot from rfl, hbp] at this
      exact this
    have hk1l : k1.longs = [w] := hu1.2.2.2.2.trans hbl2
    let k0 := unpend (applyWrites k1 w.writes) [t.nextId]
    let u := courseLeaves (idTaken t) v k1
    let k2 := wakeCourse u k0
    have hor := onlyRegs_applyWrites k1 w.writes
    have hcp : completePath u v.u.blk v.u.course v.u.slot = courseLeaves (idTaken t) v k2 := by
      have hland : landable k1 t.nextId = true := by simp [landable, hk1l, hid, hw.1]
      have hlands : landedWith k1 [t.nextId] = [t.nextId] := by
        unfold landedWith
        rw [hk1l]
        have : longKills k1 w = 0 := by simp [longKills, hw.2.1, hw.2.2]
        simp [this]
      unfold completePath
      rw [getCourse_courseLeaves]
      dsimp only
      rw [hk1p]
      dsimp only [nextPos]
      rw [List.filter_cons_of_pos hland, List.filter_nil, if_neg (by simp)]
      unfold completeLongs
      rw [getCourse_courseLeaves]
      dsimp only
      rw [hlands, hk1l]
      have : [w].filter (fun w => [t.nextId].contains w.id) = [w] := by simp [hid]
      rw [this]
      simp only [List.foldl_cons, List.foldl_nil]
      rw [if_pos (by simp [longKills, hw.2.1, hw.2.2]), setCourse_courseLeaves]
    have hwake : ∀ j q, getPath k0 j = some q → (∀ ids acks, q.park ≠ .longs ids acks) → getPath k2 j = some q := by
      intro j q hq hn
      have : getPath k2 j = (getPath k0 j).map (wakeLongs u k0) := by
        simp only [k2, wakeCourse, getPath]
        split <;> rfl
      rw [this, hq, Option.map_some]
      congr 1
      unfold wakeLongs
      split
      · rename_i ids acks he
        exact absurd he (hn ids acks)
      · rfl
    have hk0p : getPath k0 v.u.slot = some { nextPos v.p v.u.after with sig := (memberFolds v.u i).foldl foldSig v.p.sig, pending := [] } := by
      simp only [k0]
      rw [unpend_path, hor.getPath, hk1p]
      simp [nextPos]
    have hk2p : getPath k2 v.u.slot = some { nextPos v.p v.u.after with sig := (memberFolds v.u i).foldl foldSig v.p.sig, pending := [] } :=
      hwake _ _ hk0p hpk
    have hk2t : k2.tape = v.k.tape := by
      have : k2.tape = (applyWrites k1 w.writes).tape := rfl
      rw [this, hor]
      exact hu1.2.2.1.trans hbl.2.2
    have hk2d : k2.depth = 0 := by
      have : k2.depth = (applyWrites k1 w.writes).depth := rfl
      rw [this, hor]
      exact (hu1.2.1.trans hbl.2.1).trans hd
    have hk2l : k2.live = v.k.live := by
      have : k2.live = (applyWrites k1 w.writes).live := rfl
      rw [this, hor]
      exact hu1.1.trans hbl.1
    have hk2f : k2.preferred = 1 - v.u.slot := by
      have : k2.preferred = (applyWrites k1 w.writes).preferred := rfl
      rw [this, hor]
      exact unit_pref u2 _
    have hk2o : getPath k2 (1 - v.u.slot) = getPath v.k (1 - v.u.slot) := by
      cases hq : getPath v.k (1 - v.u.slot) with
      | none =>
        have : getPath k2 (1 - v.u.slot) = (getPath k0 (1 - v.u.slot)).map (wakeLongs u k0) := by
          simp only [k2, wakeCourse, getPath]
          split <;> rfl
        rw [this]
        simp only [k0]
        rw [unpend_path, hor.getPath, hk1o, hq]
        rfl
      | some q =>
        refine hwake _ _ ?_ (hok q hq)
        simp only [k0]
        rw [unpend_path, hor.getPath, hk1o, hq]
        have := hpe.2 q hq
        simp only [Option.map_some, this, List.filter_nil]
        rw [← this]
    have hk2r : ∀ r l, l < 32 → readReg k2 r l = readAfter (spendRegs v.k (v.u.spends ++ spends i)) m ds r l := by
      intro r l hl
      refine Eq.trans (b := readReg (applyWrites k1 w.writes) r l) rfl ?_
      rw [(hwr k1).2.2 r l hl]
      refine readAfter_base ?_ ?_ _ _ _ _
      · rw [show k1.live = v.k.live from hu1.1.trans hbl.1, onlyRegs_spendRegs v.k _]
      · intro r l
        exact (reg_unit u2 true _ r l).trans (hbr r l)
    exact demote_empty _ hcp hk2p hk2d hx hk2o hk2l hk2f hk2r
  · have hbk : beginLong w v.u.slot v.k = v.k := by unfold beginLong; rw [if_neg hb]
    have hwn : w.writes = [] := by
      unfold longBrings at hb
      simp only [Bool.not_eq_true, Bool.not_eq_false', Bool.and_eq_true, List.isEmpty_iff] at hb
      exact hb.1.1.1
    have hk1p : getPath k1 v.u.slot = some { nextPos v.p v.u.after with sig := (memberFolds v.u i).foldl foldSig v.p.sig, pending := [] } := by
      have := path_unit u2 (beginLong w v.u.slot v.k)
      rw [show u2.slot = v.u.slot from rfl, hbk, hp] at this
      rw [show k1 = unitCourse u2 true v.k by simp only [k1, hbk], this, ← hpe.1]
      rfl
    have hk2t : k1.tape = v.k.tape := hu1.2.2.1.trans hbl.2.2
    have hk2d : k1.depth = 0 := (hu1.2.1.trans hbl.2.1).trans hd
    have hk2l : k1.live = v.k.live := hu1.1.trans hbl.1
    refine demote_empty _ (completePath_none (getCourse_courseLeaves ..) hk1p rfl) hk1p hk2d hx hk1o hk2l
      (unit_pref u2 _) ?_
    intro r l hl
    have h1 := (hwr k1).2.2 r l hl
    rw [hwn, applyWrites_nil] at h1
    rw [h1]
    refine readAfter_base ?_ ?_ _ _ _ _
    · rw [hk2l, onlyRegs_spendRegs v.k _]
    · intro r l
      exact (reg_unit u2 true _ r l).trans (hbr r l)

end Sys2Proof.Machine
end

