-- ==== Sys2Proof/Tests/Slice0.lean ====
section
/-!
SUPPORT. Tests: words written out from the encodings of the spec, ill-formed terms, and a witness for the hypotheses of each
statement that has some.
-/

namespace Sys2Proof.Tests

open Sys2Proof Sys2Proof.Machine

set_option Elab.async false

/-! ### Decoding -/

/-- Each word of the list decodes to its instruction. -/
abbrev Decodes (l : List (Word × Instr)) : Prop := ∀ e ∈ l, decodeWord e.1 none = .ok e.2

/-- INT of format A (R87, R93, R101 to R103): D v3, A v1, B v2. -/
theorem test_decode_int : Decodes [
    (0x020C0202#32, .iadd (.v 3) ⟨.v 1, .plain⟩ ⟨.v 2, .plain⟩),
    (0x040C0202#32, .isub (.v 3) ⟨.v 1, .plain⟩ ⟨.v 2, .plain⟩),
    (0x060C0202#32, .imul (.v 3) ⟨.v 1, .plain⟩ ⟨.v 2, .plain⟩),
    (0x080C0202#32, .imulhs (.v 3) ⟨.v 1, .plain⟩ ⟨.v 2, .plain⟩),
    (0x0A0C0202#32, .imulhu (.v 3) ⟨.v 1, .plain⟩ ⟨.v 2, .plain⟩),
    (0x0C0C0202#32, .imad (.v 3) ⟨.v 1, .plain⟩ ⟨.v 2, .plain⟩),
    (0x0E0C0202#32, .iadds (.v 3) ⟨.v 1, .plain⟩ ⟨.v 2, .plain⟩),
    (0x100C0202#32, .isubs (.v 3) ⟨.v 1, .plain⟩ ⟨.v 2, .plain⟩),
    (0x120C0202#32, .imin (.v 3) ⟨.v 1, .plain⟩ ⟨.v 2, .plain⟩),
    (0x140C0202#32, .imax (.v 3) ⟨.v 1, .plain⟩ ⟨.v 2, .plain⟩),
    (0x160C0202#32, .umin (.v 3) ⟨.v 1, .plain⟩ ⟨.v 2, .plain⟩),
    (0x180C0202#32, .umax (.v 3) ⟨.v 1, .plain⟩ ⟨.v 2, .plain⟩),
    (0x1A0C0202#32, .iand (.v 3) ⟨.v 1, .plain⟩ ⟨.v 2, .plain⟩),
    (0x1C0C0202#32, .ior (.v 3) ⟨.v 1, .plain⟩ ⟨.v 2, .plain⟩),
    (0x1E0C0202#32, .ixor (.v 3) ⟨.v 1, .plain⟩ ⟨.v 2, .plain⟩),
    (0x200C0202#32, .andn (.v 3) ⟨.v 1, .plain⟩ ⟨.v 2, .plain⟩),
    (0x220C0202#32, .shl (.v 3) ⟨.v 1, .plain⟩ ⟨.v 2, .plain⟩),
    (0x240C0202#32, .shr (.v 3) ⟨.v 1, .plain⟩ ⟨.v 2, .plain⟩),
    (0x260C0202#32, .sar (.v 3) ⟨.v 1, .plain⟩ ⟨.v 2, .plain⟩),
    (0x280C0202#32, .rotl (.v 3) ⟨.v 1, .plain⟩ ⟨.v 2, .plain⟩),
    (0x2A0C0202#32, .bfx (.v 3) ⟨.v 1, .plain⟩ ⟨.v 2, .plain⟩),
    (0x2C0C0202#32, .bfxs (.v 3) ⟨.v 1, .plain⟩ ⟨.v 2, .plain⟩),
    (0x2E0C0202#32, .bfi (.v 3) ⟨.v 1, .plain⟩ ⟨.v 2, .plain⟩),
    (0x300C0202#32, .dp4s (.v 3) ⟨.v 1, .plain⟩ ⟨.v 2, .plain⟩),
    (0x320C0202#32, .dp4u (.v 3) ⟨.v 1, .plain⟩ ⟨.v 2, .plain⟩)] := by decide

/-- INT on pairs (R104). -/
theorem test_decode_pairs : Decodes [
    (0x34100C08#32, .iadd64 (.v 4) ⟨.v 6, .plain⟩ ⟨.v 8, .plain⟩),
    (0x36100C08#32, .isub64 (.v 4) ⟨.v 6, .plain⟩ ⟨.v 8, .plain⟩),
    (0x3810025F#32, .imulws (.v 4) ⟨.v 1, .plain⟩ ⟨.v 95, .plain⟩),
    (0x3A10025F#32, .imulwu (.v 4) ⟨.v 1, .plain⟩ ⟨.v 95, .plain⟩),
    (0x3C100C02#32, .shlw (.v 4) ⟨.v 6, .plain⟩ ⟨.v 2, .plain⟩),
    (0x3E100C02#32, .shrw (.v 4) ⟨.v 6, .plain⟩ ⟨.v 2, .plain⟩)] := by decide

/-- INT with an immediate (R105, R107): IMM9 is sign-extended; hints keep and last. -/
theorem test_decode_immediates : Decodes [
    (0x400D03FE#32, .iaddi (.v 3) ⟨.v 1, .keep⟩ 0xFFFFFFFE#32),
    (0x420D03FE#32, .andi (.v 3) ⟨.v 1, .keep⟩ 0xFFFFFFFE#32),
    (0x440D03FE#32, .ori (.v 3) ⟨.v 1, .keep⟩ 0xFFFFFFFE#32),
    (0x460D03FE#32, .xori (.v 3) ⟨.v 1, .keep⟩ 0xFFFFFFFE#32),
    (0x480E021F#32, .shli (.v 3) ⟨.v 1, .last⟩ 31#32),
    (0x4A0E021F#32, .shri (.v 3) ⟨.v 1, .last⟩ 31#32),
    (0x4C0E021F#32, .sari (.v 3) ⟨.v 1, .last⟩ 31#32),
    (0x4F940001#32, .movi (.s 5) 1#32),
    (0x5004008A#32, .lui (.v 1) 0x8A#32),
    (0x520C0203#32, .imuli (.v 3) ⟨.v 1, .plain⟩ 3#32),
    (0x58400005#32, .icmpi 1 .eq ⟨.v 0, .plain⟩ 5#32)] := by decide

/-- UNI by its sub-op (R106). -/
theorem test_decode_uni : Decodes [
    (0x540C0200#32, .mov (.v 3) ⟨.v 1, .plain⟩),
    (0x540C0201#32, .inot (.v 3) ⟨.v 1, .plain⟩),
    (0x540C0202#32, .ineg (.v 3) ⟨.v 1, .plain⟩),
    (0x540C0203#32, .iabs (.v 3) ⟨.v 1, .plain⟩),
    (0x540C0204#32, .popc (.v 3) ⟨.v 1, .plain⟩),
    (0x540C0205#32, .clz (.v 3) ⟨.v 1, .plain⟩),
    (0x540C0206#32, .ctz (.v 3) ⟨.v 1, .plain⟩),
    (0x540C0207#32, .brev (.v 3) ⟨.v 1, .plain⟩),
    (0x540C0208#32, .bswap (.v 3) ⟨.v 1, .plain⟩),
    (0x540C0209#32, .sext8 (.v 3) ⟨.v 1, .plain⟩),
    (0x540C020A#32, .sext16 (.v 3) ⟨.v 1, .plain⟩),
    (0x540C020B#32, .zext8 (.v 3) ⟨.v 1, .plain⟩),
    (0x540C020C#32, .zext16 (.v 3) ⟨.v 1, .plain⟩)] := by decide

/-- ICMP, ICMP64, SEL and PLOP (R107, R108, R109). -/
theorem test_decode_compares : Decodes [
    (0x56A40202#32, .icmp 2 .geu ⟨.v 1, .plain⟩ ⟨.v 2, .plain⟩),
    (0x5A880404#32, .icmp64 2 .lt ⟨.v 2, .plain⟩ ⟨.v 4, .plain⟩),
    (0x5C0C0202#32, .sel (.v 3) ⟨.v 1, .plain⟩ ⟨.v 2, .plain⟩),
    (0x5E538096#32, .plop 1 2 3 4 0x96#8)] := by decide

/-- FP (R115 to R120). -/
theorem test_decode_fp : Decodes [
    (0x600C0202#32, .fadd (.v 3) ⟨.v 1, .plain⟩ ⟨.v 2, .plain⟩),
    (0x620C0202#32, .fsub (.v 3) ⟨.v 1, .plain⟩ ⟨.v 2, .plain⟩),
    (0x640C0202#32, .fmul (.v 3) ⟨.v 1, .plain⟩ ⟨.v 2, .plain⟩),
    (0x660C0202#32, .ffma (.v 3) ⟨.v 1, .plain⟩ ⟨.v 2, .plain⟩),
    (0x680C0202#32, .fnfma (.v 3) ⟨.v 1, .plain⟩ ⟨.v 2, .plain⟩),
    (0x6A0C0202#32, .fmin (.v 3) ⟨.v 1, .plain⟩ ⟨.v 2, .plain⟩),
    (0x6C0C0202#32, .fmax (.v 3) ⟨.v 1, .plain⟩ ⟨.v 2, .plain⟩),
    (0x6EC80805#32, .fcmp 3 .lt ⟨.v 4, .plain⟩ ⟨.v 5, .plain⟩),
    (0x700C0207#32, .faddi (.v 3) ⟨.v 1, .plain⟩ 7#32),
    (0x720C0207#32, .fmuli (.v 3) ⟨.v 1, .plain⟩ 7#32),
    (0x74DC0207#32, .fcmpi 3 .un ⟨.v 1, .plain⟩ 7#32),
    (0x760C0202#32, .hadd2 (.v 3) ⟨.v 1, .plain⟩ ⟨.v 2, .plain⟩),
    (0x780C0202#32, .hmul2 (.v 3) ⟨.v 1, .plain⟩ ⟨.v 2, .plain⟩),
    (0x7A0C0202#32, .hfma2 (.v 3) ⟨.v 1, .plain⟩ ⟨.v 2, .plain⟩),
    (0x7C0C0202#32, .badd2 (.v 3) ⟨.v 1, .plain⟩ ⟨.v 2, .plain⟩),
    (0x7E0C0202#32, .bmul2 (.v 3) ⟨.v 1, .plain⟩ ⟨.v 2, .plain⟩),
    (0x800C0202#32, .bfma2 (.v 3) ⟨.v 1, .plain⟩ ⟨.v 2, .plain⟩),
    (0x820C0202#32, .hmin2 (.v 3) ⟨.v 1, .plain⟩ ⟨.v 2, .plain⟩),
    (0x840C0202#32, .hmax2 (.v 3) ⟨.v 1, .plain⟩ ⟨.v 2, .plain⟩),
    (0x8A0C0202#32, .pkh (.v 3) ⟨.v 1, .plain⟩ ⟨.v 2, .plain⟩),
    (0x8C0C0202#32, .pkb (.v 3) ⟨.v 1, .plain⟩ ⟨.v 2, .plain⟩)] := by decide

/-- FUN by its sub-op (R121), and CVT.fp32.n32.rz (R128). -/
theorem test_decode_functions : Decodes [
    (0x860C0200#32, .fabs (.v 3) ⟨.v 1, .plain⟩),
    (0x860C0201#32, .fneg (.v 3) ⟨.v 1, .plain⟩),
    (0x860C0202#32, .frcp (.v 3) ⟨.v 1, .plain⟩),
    (0x860C0203#32, .frsq (.v 3) ⟨.v 1, .plain⟩),
    (0x860C0204#32, .fsqrt (.v 3) ⟨.v 1, .plain⟩),
    (0x860C0205#32, .fexp2 (.v 3) ⟨.v 1, .plain⟩),
    (0x860C0206#32, .flog2 (.v 3) ⟨.v 1, .plain⟩),
    (0x860C0207#32, .fsinp (.v 3) ⟨.v 1, .plain⟩),
    (0x860C0208#32, .fcosp (.v 3) ⟨.v 1, .plain⟩),
    (0x860C0209#32, .ftanh (.v 3) ⟨.v 1, .plain⟩),
    (0x860C020A#32, .frndn (.v 3) ⟨.v 1, .plain⟩),
    (0x860C020B#32, .frndz (.v 3) ⟨.v 1, .plain⟩),
    (0x860C020C#32, .frndp (.v 3) ⟨.v 1, .plain⟩),
    (0x860C020D#32, .frndm (.v 3) ⟨.v 1, .plain⟩),
    (0x860C020E#32, .fclass (.v 3) ⟨.v 1, .plain⟩),
    (0x860C020F#32, .fsat (.v 3) ⟨.v 1, .plain⟩),
    (0x860C0210#32, .ffrac (.v 3) ⟨.v 1, .plain⟩),
    (0x881C0C21#32, .cvt (.v 7) ⟨.v 6, .plain⟩ .fp32 .n32 .rz)] := by decide

/-- XL (R185 to R192). -/
theorem test_decode_crosslane : Decodes [
    (0x91FD1000#32, .voteAny 1 2),
    (0x91FD1200#32, .voteAll 1 2),
    (0x91FD1400#32, .voteUni 1 2),
    (0x918D0600#32, .voteBallot (.s 3) 2),
    (0x92100265#32, .shfi (.v 4) ⟨.v 1, .plain⟩ ⟨.s 5, .plain⟩),
    (0x94100265#32, .shfu (.v 4) ⟨.v 1, .plain⟩ ⟨.s 5, .plain⟩),
    (0x96100265#32, .shfd (.v 4) ⟨.v 1, .plain⟩ ⟨.s 5, .plain⟩),
    (0x98100265#32, .shfx (.v 4) ⟨.v 1, .plain⟩ ⟨.s 5, .plain⟩),
    (0x9A0C0206#32, .qsw (.v 3) ⟨.v 1, .plain⟩ .b3),
    (0x9C080200#32, .redx (.v 2) ⟨.v 1, .plain⟩ .iadd),
    (0x9E0C0201#32, .scan (.v 3) ⟨.v 1, .plain⟩ .iaddx),
    (0xA00C027F#32, .matchLanes (.v 3) ⟨.v 1, .plain⟩),
    (0xA2000008#32, .tilep 8#32)] := by decide

/-- FLOW (R134 to R155, R217). -/
theorem test_decode_flow : Decodes [
    (0xA5FFFFFF#32, .bra 0x1FFFFFF#25),
    (0xA6000200#32, .brx ⟨.v 1, .plain⟩),
    (0xA8000005#32, .call 5#25),
    (0xAA00C400#32, .callx ⟨.s 2, .plain⟩),
    (0xAC000000#32, .ret),
    (0xAE000002#32, .rcv 2#25),
    (0xB0000000#32, .join),
    (0xB2000000#32, .exit),
    (0xB4000000#32, .yield),
    (0xB600000F#32, .bar 15#4),
    (0xB984C408#32, .pharr (.s 1) ⟨.s 2, .plain⟩ 8#32),
    (0xBB84C408#32, .phwait (.s 1) ⟨.s 2, .plain⟩ 8#32),
    (0xBC000033#32, .proof 0x33#21),
    (0xBE000044#32, .trap 0x44#21),
    (0xF4000009#32, .brr 9#25)] := by decide

/-- MEM (R158, R165 to R181). -/
theorem test_decode_memory : Decodes [
    (0xC0140C7F#32, .ldr (.v 5) ⟨.v 6, .plain⟩ 0 .sz),
    (0xC21C027F#32, .str (.v 7) ⟨.v 1, .plain⟩ 0 .sz),
    (0xC4140CE4#32, .ldrp (.v 5) ⟨.v 6, .plain⟩ 1 (.s 4)),
    (0xC6100D0A#32, .atr .cas (.v 4) ⟨.v 6, .plain⟩ 2),
    (0xC8040C7F#32, .pref 1 ⟨.v 6, .plain⟩ 0 .sz),
    (0xCA140C0C#32, .ldl (.v 5) ⟨.v 6, .plain⟩ 12#32),
    (0xCC140C0C#32, .stl (.v 5) ⟨.v 6, .plain⟩ 12#32),
    (0xCE140C0B#32, .atl .fadd (.v 5) ⟨.v 6, .plain⟩),
    (0xD0140C0C#32, .ldlp (.v 5) ⟨.v 6, .plain⟩ 12#32),
    (0xD200000B#32, .fence .rel .device false),
    (0xD200003C#32, .fence .seq .system true),
    (0xD4000002#32, .cinv .die),
    (0xD7A0C87F#32, .recld 1 ⟨.s 4, .plain⟩ 0 .sz)] := by decide

/-- ENG (R193, R202 to R212). -/
theorem test_decode_engine : Decodes [
    (0xE1A0C000#32, .cpy 1 3 false),
    (0xE383E000#32, .gath 0 15 true),
    (0xE40C1080#32, .xfmCrc32c (.v 3) ⟨.v 8, .plain⟩ 2),
    (0xE40C1081#32, .xfmHash (.v 3) ⟨.v 8, .plain⟩ 2),
    (0xE42008C2#32, .xfmSort (.v 8) ⟨.v 4, .plain⟩ 3),
    (0xE7C04000#32, .mma 2 1 false),
    (0xE9A04000#32, .mml 1 1 false),
    (0xEB804000#32, .epi 0 1 false),
    (0xEC000003#32, .swait 3)] := by decide

/-- TAPE (R213 to R218). -/
theorem test_decode_tape : Decodes [
    (0xEFFC0C15#32, .trec .w64 5 ⟨.v 6, .plain⟩),
    (0xF0180016#32, .tpop .w16 5 (.v 6)),
    (0xF3FCD010#32, .tctlRecbegin true 1 .plain),
    (0xF3FCE020#32, .tctlRecbeginExt false 2 .plain),
    (0xF3900001#32, .tctlRecend (.s 4)),
    (0xF390C002#32, .tctlRepbegin (.s 4) 0 .plain),
    (0xF3FC0003#32, .tctlRepend),
    (0xF3FCCC04#32, .tctlMark ⟨.s 6, .plain⟩),
    (0xF3FC0005#32, .tctlFlush),
    (0xF3900006#32, .tctlStatus (.s 4))] := by decide

/-- SYS (R222 to R233), and NOP (R95). -/
theorem test_decode_system : Decodes [
    (0xF61C0000#32, .srd (.v 7) 0),
    (0xF9FCC413#32, .swr 0x13#9 ⟨.s 2, .plain⟩),
    (0xFBFC0000#32, .taskDone),
    (0xFBFCC401#32, .taskSignal ⟨.s 2, .plain⟩),
    (0xFB84C402#32, .taskEnq (.s 1) ⟨.s 2, .plain⟩),
    (0xFD84C400#32, .stepBegin (.s 1) ⟨.s 2, .plain⟩),
    (0xFD84C401#32, .stepEnd (.s 1) ⟨.s 2, .plain⟩),
    (0xFD84C402#32, .stepSlack (.s 1) ⟨.s 2, .plain⟩),
    (0x00000000#32, .nop)] := by decide

/-- ORI with the extension of its mortar word: the immediate is {X, IMM9} (R80). -/
theorem test_decode_extension :
    decodeWord 0x44040278#32 (some 1#12) = .ok (.ori (.v 1) ⟨.v 1, .plain⟩ 0x278#32) ∧
    decodeWord 0x020C0202#32 (some 1#12) = .error .extension := by
  decide +kernel

/-- Words that R89 to R94 refuse: an opcode of no row, a sub-op of no row, a set bit in a zero field, the hint 0b11, a
record 3. -/
theorem test_decode_refuses :
    decodeWord 0xFE000000#32 none = .error .opcode ∧ decodeWord 0x540C020D#32 none = .error .subop ∧
    decodeWord 0x00000001#32 none = .error .zeroField ∧ decodeWord 0x020F0202#32 none = .error .hint ∧
    decodeWord 0xC0140DFF#32 none = .error .blockName := by decide

/-! ### Ill-formed terms -/

/-- Each term of the list is refused for its reason. -/
abbrev IllFormed (l : List (Instr × IllegalWhy)) : Prop := ∀ e ∈ l, illFormed e.1 = some e.2 ∧ e.1.wf = false

/-- An event of the device is no instruction that a word encodes. -/
theorem test_illformed_event : IllFormed [(.qcreate 0 0, .notEncodable), (.packetFetch, .notEncodable)] := by decide

/-- Pairs at an odd register and at s30 (R57). -/
theorem test_illformed_pair : IllFormed [
    (.iadd64 (.v 3) ⟨.v 2, .plain⟩ ⟨.v 4, .plain⟩, .pairName), (.atl .cas (.v 1) ⟨.v 2, .plain⟩, .pairName),
    (.taskSignal ⟨.s 30, .plain⟩, .pairName), (.tpop .w64 0 (.v 5), .pairName)] := by decide

/-- Fields that take only scalar registers, or only vector ones (R134, R184, R218, R222). -/
theorem test_illformed_kind : IllFormed [
    (.pharr (.v 1) ⟨.s 2, .plain⟩ 0, .regKind), (.shfi (.s 1) ⟨.s 2, .plain⟩ ⟨.s 3, .plain⟩, .regKind),
    (.tctlStatus (.v 1), .regKind), (.taskEnq (.s 1) ⟨.v 2, .plain⟩, .regKind), (.swr 0x13 ⟨.v 1, .plain⟩, .regKind)] := by decide

/-- Immediates: a shift by 32, a tile of 3, 21 bits (R80, R105, R186). -/
theorem test_illformed_immediate : IllFormed [
    (.shli (.v 1) ⟨.v 2, .plain⟩ 32, .immediate), (.tilep 3, .immediate), (.movi (.v 1) 0x100000#32, .immediate)] := by decide

/-- A range of XFM past its bank (R211). -/
theorem test_illformed_range : IllFormed [
    (.xfmHash (.v 0) ⟨.v 95, .plain⟩ 1, .range), (.xfmSort (.s 30) ⟨.s 4, .plain⟩ 1, .range)] := by decide

/-- A scalar D with a vector source (R90). -/
theorem test_illformed_uniform : IllFormed [(.iadd (.s 1) ⟨.v 2, .plain⟩ ⟨.s 3, .plain⟩, .uniform)] := by decide

/-- CVT between equal formats, and MML with a card of sixteen words at s16 (R128, R207). -/
theorem test_illformed_code : IllFormed [
    (.cvt (.v 1) ⟨.v 2, .plain⟩ .fp32 .fp32 .rne, .subop), (.mml 2 0 false, .blockName)] := by decide

/-! ### The bench: one running course -/

/-- A machine with one partition, one context and one running launch. -/
def bench : State := State.reset.withFetchWord 32 0

/-- The block of the bench, its course, and the course's path in its lowest lane. -/
def block0 : Block := startBlock bench 0 probeJob 0 0 0

def path0 : Path := newPath 0x1040#64 0 1#32 0 none []

def course0 : Course := { startCourse bench probeJob 0 0 0 with path0 := some path0 }

/-- An issue unit of one member, at slot 0 of its packet, of a course that stands as `k`. -/
def unitOf (k : Course) (g : BitVec 4) : Issue :=
  { blk := 0, course := 0, slot := 0, guard := g, word := 0, wait := false, mortar := none, pos := 0, first := 0, after := 1
    last := true, before := k, spends := [], flags := 0, folds := [], waits := false, demotes := false }

/-- The bench `s` with that unit issuing. -/
def issuingOn (s : State) (k : Course) (b : Block) (g : BitVec 4) : State :=
  { s with courses := [(0, k)], blocks := [(0, b)], issue := some (unitOf k g) }

/-- What its instruction sees. -/
def seen (k : Course) (b : Block) (p : Path) (g : BitVec 4) : View := ⟨unitOf k g, p, b⟩

theorem issues (s : State) (k : Course) (b : Block) (p : Path) (g : BitVec 4) (h : k.path0 = some p) :
    Issuing (issuingOn s k b g) (seen k b p g) k :=
  ⟨by simp [viewOf, issuingOn, unitOf, getPath, h, getBlock, find?, seen], rfl, rfl⟩

theorem issuesAlone (s : State) (k : Course) (b : Block) (p : Path) (g : BitVec 4) (h : k.path0 = some p) :
    IssuingAlone (issuingOn s k b g) (seen k b p g) :=
  ⟨(issues s k b p g h).view, rfl, rfl, rfl, rfl, by show 0 < 2; decide⟩

/-- The bench with a plain course about to issue. -/
abbrev ready : State := issuingOn bench course0 block0 0

abbrev view0 : View := seen course0 block0 path0 0

theorem ready_issues : Issuing ready view0 course0 := issues _ _ _ _ _ rfl

theorem ready_alone : IssuingAlone ready view0 := issuesAlone _ _ _ _ _ rfl

/-! ### Witnesses: encoding and the step -/

theorem witness_DecodingAnEncodedInstructionGivesItBack : (Instr.iadd (.v 3) ⟨.v 1, .last⟩ ⟨.sz, .plain⟩).wf = true := by decide

theorem witness_EveryStepKeepsMemoryCanonical : ∃ s t : State, s.memWf = true ∧ step s = .next t :=
  ⟨State.reset, _, by decide +kernel, rfl⟩

/-! ### Witnesses: instructions that only compute -/

theorem witness_IntInstructionsWriteTheirResult : ∃ s v k i d f, Issuing s v k ∧ NoHazard v i ∧ intResult i = some (d, f) :=
  ⟨ready, view0, course0, .iadd (.v 95) ⟨.v 0, .plain⟩ ⟨.sz, .plain⟩, _, _, ready_issues, fun _ => by decide +kernel, rfl⟩

theorem witness_PairInstructionsWriteBothWords : ∃ s v k i d f, Issuing s v k ∧ NoHazard v i ∧ pairResult i = some (d, f) :=
  ⟨ready, view0, course0, .iadd64 (.v 94) ⟨.v 0, .plain⟩ ⟨.sz, .plain⟩, _, _, ready_issues, fun _ => by decide +kernel, rfl⟩

theorem witness_ComparesAndPlopWriteTheirPredicate : ∃ s v k i p f, Issuing s v k ∧ NoHazard v i ∧ predResult i = some (p, f) :=
  ⟨ready, view0, course0, .icmp 7 .lt ⟨.v 0, .plain⟩ ⟨.sz, .plain⟩, _, _, ready_issues, fun _ => by decide +kernel, rfl⟩

theorem witness_FpInstructionsWriteTheirResultAndFlags : ∃ s v k i d f, Issuing s v k ∧ NoHazard v i ∧ fpResult i = some (d, f) :=
  ⟨ready, view0, course0, .fadd (.v 95) ⟨.v 0, .plain⟩ ⟨.sz, .plain⟩, _, _, ready_issues, fun _ => by decide +kernel, rfl⟩

theorem witness_FloatComparesWriteTheirPredicateAndFlags : ∃ s v k i p f, Issuing s v k ∧ NoHazard v i ∧ fcmpResult i = some (p, f) :=
  ⟨ready, view0, course0, .fcmp 7 .lt ⟨.v 0, .plain⟩ ⟨.sz, .plain⟩, _, _, ready_issues, fun _ => by decide +kernel, rfl⟩

theorem witness_FunctionsAndConversionsBeginALongWrite : ∃ s v k i d f, Issuing s v k ∧ NoHazard v i ∧ funResult i = some (d, f) :=
  ⟨ready, view0, course0, .frcp (.v 95) ⟨.v 0, .plain⟩, _, _, ready_issues, fun _ => by decide +kernel, rfl⟩

theorem witness_CrossLaneInstructionsBeginALongWrite : ∃ s v k i d f g, Issuing s v k ∧ NoHazard v i ∧ xlResult i = some (d, f, g) :=
  ⟨ready, view0, course0, .redx (.s 30) ⟨.v 0, .plain⟩ .fadd, _, _, _, ready_issues, fun _ => by decide +kernel, rfl⟩

theorem witness_SortsAndVotesBeginALongWrite : Issuing ready view0 course0 ∧ NoHazard view0 (.xfmSort (.v 88) ⟨.v 0, .plain⟩ 7) ∧
    ∃ i p f, NoHazard view0 i ∧ voteResult i = some (p, f) :=
  ⟨ready_issues, fun _ => by decide +kernel, .voteUni 7 0, _, _, fun _ => by decide +kernel, rfl⟩

theorem witness_SelNopAndTilep : Issuing ready view0 course0 ∧ NoHazard view0 (.sel (.v 0) ⟨.v 1, .plain⟩ ⟨.sz, .plain⟩) ∧
    NoHazard view0 .nop ∧ NoHazard view0 (.tilep 32) ∧ view0.never = false ∧ (seen course0 block0 path0 8).never = true :=
  ⟨ready_issues, fun _ => by decide +kernel, fun _ => by decide +kernel, fun _ => by decide +kernel, rfl, rfl⟩

/-- The context of the bench. -/
theorem bench_ctx : blockCtx ready 0 = some probeContext := by decide +kernel

/-- The mapping of the bench, of address 0x1040. -/
def leaf0 : Leaf := ⟨false, 0, 30, 0, 0, true, true⟩

/-- The packet at 0x1040: four empty words. -/
def packet0 : PacketCode := (decodePacket 96 0 0 0 0).toOption.getD ⟨0, []⟩

theorem witness_AFetchReadsThePacketAtThePc : let s := { bench with courses := [(0, course0)] }
    getBlock s 0 = some block0 ∧ blockJob s 0 = some probeJob ∧ getCourse s 0 0 = some course0 ∧ getPath course0 0 = some path0 ∧
    path0.delivery = none ∧ path0.fetched = [] ∧ allGood s = true ∧ jobCode probeJob + 0x40 ≤ path0.pc.toNat ∧ path0.pc.toNat < jobCode probeJob + probeJob.size ∧
    translate s 1 path0.pc.toNat = .mem (.dev 0x1040) leaf0 ∧ leaf0.exec = true ∧ homePoisoned s (.dev 0x1040) 16 = false ∧
    probeJob.code.getD ((path0.pc.toNat - jobCode probeJob) / 16) none = none ∧ decodePacket 96 0 0 0 0 = .ok packet0 ∧
    ∃ n x u, nextIssue s = some (n, x, 0, u) ∧ x.blk = 0 ∧ x.c = 0 :=
  ⟨rfl, rfl, rfl, rfl, rfl, rfl, rfl, by decide +kernel, by decide +kernel, by decide +kernel, rfl, by decide +kernel, rfl, by decide +kernel, by
    have h : (nextIssue { bench with courses := [(0, course0)] }).isSome = true := by decide +kernel
    obtain ⟨⟨n, x, y, u⟩, h⟩ := Option.isSome_iff_exists.1 h
    have e : (nextIssue { bench with courses := [(0, course0)] }).map (fun r => (r.2.1.blk, r.2.1.c, r.2.2.1)) = some (0, 0, 0) := by
      decide +kernel
    rw [h] at e
    simp only [Option.map_some, Option.some.injEq, Prod.mk.injEq] at e
    exact ⟨n, x, u, by rw [h, e.2.2], e.1, e.2.1⟩⟩

/-- The bench as it steps: its course issues next. -/
def bench1 : State := { bench with courses := [(0, course0)] }

def next1 : Candidate × Nat × List Nat :=
  (chooseUnit (enterRound bench1 0) 0 0 (eligibleCourses (enterRound bench1 0) 0 0)).getD (⟨0, 0, course0⟩, 0, [])

def issue1 : State := issueState (enterRound bench1 0) 0 (eligibleCourses (enterRound bench1 0) 0 0) next1

def issued1 : Course := (getCourse issue1 0 0).getD course0

def fetched1 : Path := (getPath issued1 0).getD path0

theorem witness_AStepRunsTheDecodedInstruction :
    rejoinPath bench1 = none ∧ bench1.agenda = [] ∧ flushRecords bench1 = none ∧ dueEvent bench1 = none ∧
    nextQuarter bench1 = some 0 ∧ cycleTaken (enterRound bench1 0) 0 = false ∧
    chooseUnit (enterRound bench1 0) 0 0 (eligibleCourses (enterRound bench1 0) 0 0) = some next1 ∧
    next1.1.blk = 0 ∧ next1.1.c = 0 ∧ next1.2.1 = 0 ∧ getCourse issue1 0 0 = some issued1 ∧ getPath issued1 0 = some fetched1 ∧
    fetched1.fetched = [0, 0, 0, 0] ∧ (getBlock (progress issue1 0) 0).isSome = true ∧
    decodePacket issued1.budget 0 0 0 0 = .ok packet0 ∧ packet0.slots[fetched1.slot]? = some ⟨.nop, 0, false, false, 0⟩ := by
  refine ⟨?_, ?_, ?_, ?_, ?_, ?_, ?_, ?_, ?_, ?_, ?_, ?_, ?_, ?_, ?_, ?_⟩ <;> decide +kernel
/-! ### Witnesses: flow -/

/-- A course of two lanes, with p1 true in the lower one. -/
def path2 : Path := { path0 with mask := 3#32 }

def course2 : Course := { course0 with live := 3#32, path0 := some path2, preds := [(1, 1#32)] }

/-- Issuing on a course, its path, and a guard. -/
abbrev rdy (k : Course) (g : BitVec 4) : State := issuingOn bench k block0 g

abbrev vw (k : Course) (p : Path) (g : BitVec 4) : View := seen k block0 p g

theorem rdy_alone (k : Course) (p : Path) (g : BitVec 4) (h : k.path0 = some p) : IssuingAlone (rdy k g) (vw k p g) :=
  issuesAlone _ _ _ _ _ h

theorem rdy_issues (k : Course) (p : Path) (g : BitVec 4) (h : k.path0 = some p) : Issuing (rdy k g) (vw k p g) k :=
  issues _ _ _ _ _ h

theorem witness_UntakenFlowInstructionsGoOn : let v := vw course0 path0 8
    IssuingAlone (rdy course0 8) v ∧ v.exe = 0 ∧ braRecords v = false ∧
    ∀ i ∈ [Instr.bra 0, .brx ⟨.v 0, .plain⟩, .call 0, .callx ⟨.v 0, .plain⟩, .ret, .exit, .trap 0], Unstopped (rdy course0 8) v i :=
  ⟨rdy_alone _ _ _ rfl, by decide +kernel, by decide +kernel, fun i h _ => by revert i; decide +kernel⟩

theorem witness_ATakenBranchMovesItsLanes :
    (let v := vw course0 path0 0
     IssuingAlone (rdy course0 0) v ∧ Unstopped (rdy course0 0) v (.bra 0x1FFFFFF#25) ∧ v.exe ≠ 0 ∧ braRecords v = false ∧
     (targetOf (rdy course0 0) v (.bra 0x1FFFFFF#25)).isSome = true ∧ v.act &&& ~~~v.exe = 0) ∧
    (let v := vw course2 path2 1
     IssuingAlone (rdy course2 1) v ∧ Unstopped (rdy course2 1) v (.brx ⟨.s 5, .plain⟩) ∧ v.exe ≠ 0 ∧
     (targetOf (rdy course2 1) v (.brx ⟨.s 5, .plain⟩)).isSome = true ∧ v.act &&& ~~~v.exe ≠ 0 ∧ getPath v.k (1 - v.u.slot) = none) :=
  ⟨⟨rdy_alone _ _ _ rfl, fun _ => by decide +kernel, by decide +kernel, by decide +kernel, by decide +kernel, by decide +kernel⟩,
    rdy_alone _ _ _ rfl, fun _ => by decide +kernel, by decide +kernel, by decide +kernel, by decide +kernel, by decide +kernel⟩

theorem witness_ADivergentBranchWithBothSlotsFullPushes : let k := { course2 with path1 := some path0 }
    let v := vw k path2 1
    IssuingAlone (rdy k 1) v ∧ Unstopped (rdy k 1) v (.bra 0) ∧ v.exe ≠ 0 ∧ braRecords v = false ∧
    (targetOf (rdy k 1) v (.bra 0)).isSome = true ∧ v.act &&& ~~~v.exe ≠ 0 ∧ (getPath v.k (1 - v.u.slot)).isSome = true ∧
    v.p.pending = [] ∧ blockCtx (rdy k 1) v.u.blk = some probeContext ∧ v.k.tape.mode = .idle :=
  ⟨rdy_alone _ _ _ rfl, fun _ => by decide +kernel, by decide +kernel, by decide +kernel, by decide +kernel, by decide +kernel,
    by decide +kernel, rfl, by decide +kernel, rfl⟩

theorem witness_CallsAndRcvPushTheirRegion :
    (let v := vw course0 path0 0
     IssuingAlone (rdy course0 0) v ∧ blockCtx (rdy course0 0) v.u.blk = some probeContext ∧ v.exe ≠ 0 ∧ v.act &&& ~~~v.exe = 0 ∧
     ∀ i ∈ [Instr.call 1, .callx ⟨.s 5, .plain⟩, .rcv 1], Unstopped (rdy course0 0) v i) ∧
    (targetOf ready view0 (.call 1)).isSome = true ∧ (targetOf ready view0 (.callx ⟨.s 5, .plain⟩)).isSome = true :=
  ⟨⟨rdy_alone _ _ _ rfl, by decide +kernel, by decide +kernel, by decide +kernel, fun i h _ => by revert i; decide +kernel⟩,
    by decide +kernel, by decide +kernel⟩

/-- A reconvergence entry of lane 0, and the bench with it at the bottom of the stack. -/
def entry0 (kind : Nat) : Entry := ⟨0, 1#32, none, kind, 0x1040, 0, 0, false⟩

def stacked (e : Entry) : State := writeEntry bench probeContext 0 0 e

/-- A course whose only entry is its path's region. -/
def path1 : Path := { path0 with region := some 0 }

def course1 : Course := { course0 with depth := 1, stackSlot := 0, path0 := some path1 }

theorem witness_AnArrivalThatCompletesItsRegionMerges : ∀ e ∈ [(Instr.join, 1), (.ret, 2)],
    let s := issuingOn (stacked (entry0 e.2)) course1 block0 0
    let v := seen course1 block0 path1 0
    let r := touchEntry (courseLeaves s v (flowCourse v e.1 v.k)) probeContext v.k.stackSlot 0
    IssuingAlone s v ∧ Unstopped s v e.1 ∧ v.exe = v.act ∧ v.act ≠ 0 ∧ v.p.pending = [] ∧ v.p.mask &&& ~~~v.act = 0 ∧
    blockCtx s 0 = some probeContext ∧ getCtx s v.b.asid = some probeContext ∧ v.p.region = some 0 ∧ v.k.depth = 1 ∧
    readEntry r probeContext v.k.stackSlot 0 = some (entry0 e.2, false) ∧ entryWritable r probeContext v.k.stackSlot 0 = true ∧
    (entry0 e.2).word3 ||| v.act = (entry0 e.2).mask &&& v.k.live ∧ (entry0 e.2).mask &&& v.k.live ≠ 0 := by
  intro e h
  simp only [List.mem_cons, List.not_mem_nil, or_false] at h
  rcases h with rfl | rfl <;>
    exact ⟨issuesAlone _ _ _ _ _ rfl, fun _ => by decide +kernel, by decide +kernel, by decide +kernel, rfl, by decide +kernel,
      by decide +kernel, by decide +kernel, rfl, rfl, by decide +kernel, by decide +kernel, by decide +kernel, by decide +kernel⟩

theorem witness_ExitTakesItsLanesOut :
    (let k := { course0 with live := 1#32 }
     let v := vw k path0 0
     IssuingAlone (rdy k 0) v ∧ Unstopped (rdy k 0) v .exit ∧ v.exe ≠ 0 ∧ blockCtx (rdy k 0) 0 = some probeContext ∧
     v.k.live &&& ~~~v.exe = 0 ∧ v.k.team = none ∧ v.b.done = false ∧ v.b.replaying = false ∧
     getJob (rdy k 0) v.b.job = some probeJob ∧ v.b.courses = 1) ∧
    (let k := { course0 with live := 1#32 }
     let b := { block0 with done := true }
     let v := seen k b path0 0
     IssuingAlone (issuingOn bench k b 0) v ∧ Unstopped (issuingOn bench k b 0) v .exit ∧ v.exe ≠ 0 ∧ v.k.live &&& ~~~v.exe = 0 ∧
     v.b.done = true) ∧
    (let v := vw course2 path2 1
     IssuingAlone (rdy course2 1) v ∧ Unstopped (rdy course2 1) v .exit ∧ v.exe ≠ 0 ∧ v.k.live &&& ~~~v.exe ≠ 0 ∧ v.k.depth = 0) :=
  ⟨⟨rdy_alone _ _ _ rfl, fun _ => by decide +kernel, by decide +kernel, by decide +kernel, by decide +kernel, rfl, rfl, rfl, rfl,
      by decide +kernel⟩,
    ⟨issuesAlone _ _ _ _ _ rfl, fun _ => by decide +kernel, by decide +kernel, by decide +kernel, rfl⟩,
    rdy_alone _ _ _ rfl, fun _ => by decide +kernel, by decide +kernel, by decide +kernel, rfl⟩

theorem witness_YieldAndProof :
    (let v := vw course0 path0 0
     IssuingAlone (rdy course0 0) v ∧ blockCtx (rdy course0 0) 0 = some probeContext ∧ Unstopped (rdy course0 0) v .yield ∧
     v.p.pending = [] ∧ v.k.depth = 0 ∧ NoHazard v (.proof 0) ∧ v.p.sig.truncate 21 = 0#21 ∧ NoHazard v (.proof 1) ∧
     v.p.sig.truncate 21 ≠ 1#21) ∧
    (let k := { course0 with depth := 1, stackSlot := 0 }
     let s := issuingOn (stacked (entry0 0)) k block0 0
     let v := vw k path0 0
     let r := touchEntry (pathLeaves s v .yield v.k (fun p => nextPos p 3)) probeContext v.k.stackSlot 0
     IssuingAlone s v ∧ blockCtx s 0 = some probeContext ∧ Unstopped s v .yield ∧ v.p.pending = [] ∧ v.p.mask ≠ 0 ∧ v.k.depth = 1 ∧
     v.k.tape.mode = .idle ∧ readEntry r probeContext v.k.stackSlot 0 = some (entry0 0, false) ∧ (entry0 0).kind = 0 ∧
     (entry0 0).link = v.p.region ∧ entryWritable r probeContext v.k.stackSlot 0 = true) :=
  ⟨⟨rdy_alone _ _ _ rfl, by decide +kernel, fun _ => by decide +kernel, rfl, rfl, fun _ => by decide +kernel, by decide,
      fun _ => by decide +kernel, by decide⟩,
    issuesAlone _ _ _ _ _ rfl, by decide +kernel, fun _ => by decide +kernel, rfl, by decide, rfl, rfl, by decide +kernel, rfl, rfl,
    by decide +kernel⟩

theorem witness_BarriersAndPhaseWords :
    (let k := { course0 with live := 1#32 }
     let v := vw k path0 0
     IssuingAlone (rdy k 0) v ∧ NoHazard v (.bar 15) ∧ v.act = v.k.live) ∧
    (let v := vw { course2 with path0 := some path0 } path0 0
     NoHazard v (.bar 0) ∧ v.act ≠ v.k.live) ∧
    (let v := view0
     ∀ imm ∈ [0#32, 0x3FC#32],
      let addr := (readReg v.k .sz 0 + imm).toNat
      addr % 4 = 0 ∧ addr + 4 ≤ v.b.alloc ∧ localPoisoned v.b addr 4 = false ∧ NoHazard v (.pharr (.s 1) ⟨.sz, .plain⟩ imm) ∧
      NoHazard v (.phwait .sz ⟨.sz, .plain⟩ imm) ∧ NoHazard v (.phwait (.s 2) ⟨.sz, .plain⟩ imm) ∧
      (localWord v.b addr).getLsbD 31 = (readReg v.k .sz 0).getLsbD 0) :=
  ⟨⟨rdy_alone _ _ _ rfl, fun _ => by decide +kernel, by decide +kernel⟩, ⟨fun _ => by decide +kernel, by decide +kernel⟩, fun imm h => by
    simp only [List.mem_cons, List.not_mem_nil, or_false] at h
    rcases h with rfl | rfl <;>
      exact ⟨by decide +kernel, by decide +kernel, by decide +kernel, fun _ => by decide +kernel, fun _ => by decide +kernel,
        fun _ => by decide +kernel, by decide +kernel⟩⟩

/-- A long write of v3 that is pending in its path. -/
def long0 : LongWrite := ⟨5, [.vec 3 1#32 []], [], 0, false, 0, 0, false, false⟩

def pathLong : Path := { path0 with pending := [5] }

def courseLong : Course := { course0 with longs := [long0], path0 := some pathLong }

theorem witness_HazardStopsTheInstruction : let v := vw courseLong pathLong 0
    viewOf (rdy courseLong 0) = some v ∧ lone v.u = true ∧ v.p.waited = [] ∧
    pendingAny v (namedRes v (.iadd (.v 1) ⟨.v 3, .plain⟩ ⟨.v 2, .plain⟩)) = true ∧
    pipeClass (.iadd (.v 1) ⟨.v 3, .plain⟩ ⟨.v 2, .plain⟩) ≠ .event :=
  ⟨(rdy_alone courseLong pathLong 0 rfl).view, rfl, rfl, by decide +kernel, by decide⟩

theorem witness_TrapDeliversUserToItsHandler : let k := { course0 with traphdl := 0x100#32 }
    let v := vw k path0 0
    let s := rdy k 0
    let s1 := courseRecord (courseLeaves s v v.k) v.u.blk v.u.course v.u.slot ⟨0x15, 0, v.exe, 0, (7#21).toNat, false⟩
      (pathPos s v.u.blk v.p) false
    IssuingAlone s v ∧ NoHazard v (.trap 7) ∧ v.exe ≠ 0 ∧ blockCtx s v.u.blk = some probeContext ∧
    ringWritable (courseLeaves s v v.k) probeContext = true ∧ v.p.pending = [] ∧ v.p.remotes = [] ∧ v.p.latched = none ∧
    v.k.stopped = false ∧ v.k.traphdl.toNat / 16 ≠ 0 ∧ pushCheck s1 v.u.blk v.k 1 = none :=
  ⟨rdy_alone _ _ _ rfl, fun _ => by decide +kernel, by decide +kernel, by decide +kernel, by decide +kernel, rfl, rfl, by decide +kernel,
    by decide +kernel⟩

/-! ### Witnesses: memory instructions -/

/-- Scalar registers of a course. -/
def withS (k : Course) (l : List (Nat × Word)) : Course := { k with sregs := csetAll 0#32 k.sregs l }

/-- The line of address 0, held by core 0; and a record access of one lane at offset `i`. -/
def line0 : L1Line := ⟨1, 0, .dev 0, false, List.replicate 128 0, 0⟩

def held0 : State := { bench with cores := [(0, { Core.reset with l1 := [line0] })] }

/-- v6 of lane 0 holds an element index. -/
def courseAt (i : Word) (l : List (Nat × Word)) : Course := withS { course0 with vregs := [(192, i)] } l

abbrev LDR0 : Instr := .ldr (.v 5) ⟨.v 6, .plain⟩ 0 .sz
abbrev RECLD0 : Instr := .recld 1 ⟨.sz, .plain⟩ 0 .sz
abbrev LDRP0 : Instr := .ldrp (.v 5) ⟨.v 6, .plain⟩ 0 .sz
abbrev STR0 : Instr := .str (.v 5) ⟨.v 6, .plain⟩ 0 .sz
abbrev ATR0 (op : AtomOp) : Instr := .atr op (.v 4) ⟨.v 6, .plain⟩ 0

/-- The access of an instruction that goes through record 0 in lane 0. -/
def acc (k : Course) (size align : Nat) (write viaL1 : Bool) (a : RegName) (uniform : Bool) : RecordAccess :=
  ⟨readRecord k 0, size, align, write, viaL1, ⟨a, .plain⟩, .sz, [0], uniform⟩

theorem witness_LoadsFromL1BringTheirElements :
    (∀ i ∈ [0#32, 31#32], let k := courseAt i []
      let s := issuingOn held0 k block0 0
      let v := seen k block0 path0 0
      let x := acc k 4 4 false true (.v 6) false
      Issuing s v k ∧ Unstopped s v LDR0 ∧ recordAccess v LDR0 = some x ∧ (∃ f, loadDest v LDR0 = some (.v 5, 1, f)) ∧
      heldFor v = none ∧ ∀ l ∈ x.lanes, HitsL1 s v x l line0) ∧
    (let s := issuingOn held0 course0 block0 0
     let x := acc course0 32 32 false true .sz true
     Issuing s view0 course0 ∧ Unstopped s view0 RECLD0 ∧ recordAccess view0 RECLD0 = some x ∧
     (∃ f, loadDest view0 RECLD0 = some (.s 8, 8, f)) ∧ heldFor view0 = none ∧ ∀ l ∈ x.lanes, HitsL1 s view0 x l line0) := by
  refine ⟨fun i h => ?_, issues _ _ _ _ _ rfl, fun _ => by decide +kernel, by decide +kernel, ⟨_, rfl⟩, rfl, fun l h => ?_⟩
  · simp only [List.mem_cons, List.not_mem_nil, or_false] at h
    rcases h with rfl | rfl <;>
      exact ⟨issues _ _ _ _ _ rfl, fun _ => by decide +kernel, by decide +kernel, ⟨_, rfl⟩, rfl, fun l h => by
        obtain rfl := List.mem_singleton.1 h
        exact ⟨rfl, by decide +kernel, by decide +kernel, by decide +kernel, rfl⟩⟩
  · obtain rfl := List.mem_singleton.1 h
    exact ⟨rfl, by decide +kernel, by decide +kernel, by decide +kernel, rfl⟩

/-- The page of the bench, uncached. -/
def uncached : State := { bench with dev := csetRun 0#8 bench.dev 0x3000 (bytesOfNat 8 0x47) }

def leafU : Leaf := ⟨false, 0, 30, 2, 0, true, true⟩

theorem witness_LoadsThatMissFillTheirLine :
    (let k := courseAt 31 []
     let s := rdy k 0
     let v := vw k path0 0
     let x := acc k 4 4 false true (.v 6) false
     Issuing s v k ∧ Unstopped s v LDR0 ∧ recordAccess v LDR0 = some x ∧ (∃ f, loadDest v LDR0 = some (.v 5, 1, f)) ∧ heldFor v = none ∧
     x.lanes = [0] ∧ accessReach s v x = [(0, .mem 124 (.dev 124) leaf0)] ∧ leaf0.order ≠ 1 ∧ leaf0.cache ≠ 2 ∧ x.r.cache < 2 ∧
     allGood s = true ∧ (getCore s v.b.core).stores = [] ∧ l1Find (getCore s v.b.core) v.b.asid 124 = none ∧
     linePoison s (homeLine (.dev 124)) = 0) ∧
    ∀ e ∈ [(0x100#32, uncached, leafU), (0x140#32, bench, leaf0), (0x160#32, bench, leaf0)], let k := courseAt 31 [(5, e.1)]
     let s := issuingOn e.2.1 k block0 0
     let v := seen k block0 path0 0
     let x := acc k 4 4 false true (.v 6) false
     Issuing s v k ∧ Unstopped s v LDR0 ∧ recordAccess v LDR0 = some x ∧ heldFor v = none ∧
     accessReach s v x = [(0, .mem 124 (.dev 124) e.2.2)] ∧ e.2.2.order ≠ 1 ∧
     (e.2.2.cache = 2 ∨ 2 ≤ x.r.cache ∧ l1Find (getCore s v.b.core) v.b.asid 124 = none) ∧
     allGood s = true ∧ (getCore s v.b.core).stores = [] ∧ homePoisoned s (.dev 124) x.size = false := by
  refine ⟨⟨rdy_issues _ _ _ rfl, fun _ => by decide +kernel, by decide +kernel, ⟨_, rfl⟩, rfl, rfl, by decide +kernel, by decide, by decide,
    by decide +kernel, rfl, rfl, by decide +kernel, by decide +kernel⟩, fun e h => ?_⟩
  simp only [List.mem_cons, List.not_mem_nil, or_false] at h
  rcases h with rfl | rfl | rfl <;>
    exact ⟨issues _ _ _ _ _ rfl, fun _ => by decide +kernel, by decide +kernel, rfl, by decide +kernel, by decide, by decide +kernel, rfl, rfl,
      by decide +kernel⟩

theorem localOk (addr : Nat) (h : addr % 4 = 0 ∧ addr + 4 ≤ 1024) : LocalWordOk block0 addr :=
  ⟨h.1, h.2, by
    have e : ∀ l : List Nat, l.any (fun i => cget false ([] : Cells Bool) (addr / 32 + i)) = false := fun l => by simp [cget, find?]
    exact e _⟩

theorem readReg_sz (k : Course) (l : Nat) : readReg k .sz l = 0#32 := rfl

theorem witness_LocalLoadsBringTheirWords : ∀ imm ∈ [0#32, 0x3FC#32],
    Issuing ready view0 course0 ∧ NoHazard view0 (.ldl (.v 5) ⟨.sz, .plain⟩ imm) ∧
    ∀ l ∈ view0.lanes (isScalar (.v 5)), LocalWordOk view0.b (readReg view0.k .sz l + imm).toNat := by
  intro imm h
  simp only [List.mem_cons, List.not_mem_nil, or_false] at h
  rcases h with rfl | rfl <;>
    exact ⟨ready_issues, fun _ => by decide +kernel, fun l _ => localOk _ (by rw [readReg_sz]; decide)⟩

theorem witness_PollsLoadAndDemoteTheirPath :
    (IssuingAlone ready view0 ∧ view0.k.depth = 0 ∧ view0.k.longs = [] ∧ allPending view0.k = [] ∧
      view0.p.park = .running ∧ getPath view0.k (1 - view0.u.slot) = none ∧ (blockCtx ready view0.u.blk).isSome = true ∧ NoHazard view0 (.ldlp (.v 5) ⟨.sz, .plain⟩ 0x3FC) ∧
      ∀ l ∈ view0.lanes (isScalar (.v 5)), LocalWordOk view0.b (readReg view0.k .sz l + 0x3FC#32).toNat) ∧
    (let k := courseAt 31 [(5, 0x108#32)]
     let s := issuingOn held0 k block0 0
     let v := seen k block0 path0 0
     let x := acc k 4 4 false true (.v 6) false
     IssuingAlone s v ∧ Unstopped s v LDRP0 ∧ recordAccess v LDRP0 = some x ∧ (∃ f, loadDest v LDRP0 = some (.v 5, 1, f)) ∧
     heldFor v = none ∧ ∀ l ∈ x.lanes, HitsL1 s v x l line0) ∧
    (∀ w ∈ [0x10C#32, 0x110#32], let k := courseAt 31 [(5, w)]
     let v := vw k path0 0
     let x := acc k 4 4 false false (.v 6) false
     Unstopped (rdy k 0) v LDRP0 ∧ recordAccess v LDRP0 = some x ∧ 3 ≤ x.r.scope ∧ x.lanes = [0] ∧
     accessReach (rdy k 0) v x = [(0, .mem 124 (.dev 124) leaf0)] ∧ leaf0.order ≠ 1 ∧ allGood (rdy k 0) = true ∧
     (getCore (rdy k 0) v.b.core).stores = [] ∧ homePoisoned (rdy k 0) (.dev 124) x.size = false) := by
  refine ⟨⟨ready_alone, rfl, rfl, by decide +kernel, rfl, rfl, by decide +kernel, fun _ => by decide +kernel,
      fun l _ => localOk _ (by rw [readReg_sz]; decide)⟩,
    ⟨issuesAlone _ _ _ _ _ rfl, fun _ => by decide +kernel, by decide +kernel, ⟨_, rfl⟩, rfl, fun l h => ?_⟩, fun w h => ?_⟩
  · obtain rfl := List.mem_singleton.1 h
    exact ⟨rfl, by decide +kernel, by decide +kernel, by decide +kernel, rfl⟩
  · simp only [List.mem_cons, List.not_mem_nil, or_false] at h
    rcases h with rfl | rfl <;>
      exact ⟨fun _ => by decide +kernel, by decide +kernel, by decide +kernel, rfl, by decide +kernel, by decide, rfl, rfl, by decide +kernel⟩

/-- A pending store of one byte. -/
def store0 : PendingStore := ⟨9, 0, 0, .dev 0x4000, [(3, 7)], 0, 0⟩

theorem witness_StoresLeaveTheirBytes :
    (let x := acc course0 4 4 true false (.v 6) false
     Issuing ready view0 course0 ∧ Unstopped ready view0 STR0 ∧ recordAccess view0 STR0 = some x ∧
     strongReach (accessReach ready view0 x) = false) ∧
    (let s := { bench with cores := [(0, { Core.reset with stores := [store0] })] }
     allGood s = true ∧ (getCore s 0).stores = [store0] ∧ [].all (fun z : PendingStore => z.id ≠ store0.id) = true ∧
     store0.home = .dev 0x4000) ∧
    (NoHazard view0 (.stl (.v 5) ⟨.sz, .plain⟩ 0x3FC) ∧ ∀ l ∈ lanesOf view0.contributors,
      (readReg view0.k .sz l + 0x3FC#32).toNat % 4 = 0 ∧ (readReg view0.k .sz l + 0x3FC#32).toNat + 4 ≤ view0.b.alloc) :=
  ⟨⟨ready_issues, fun _ => by decide +kernel, by decide +kernel, by decide +kernel⟩, ⟨rfl, rfl, rfl, rfl⟩, fun _ => by decide +kernel,
    by decide +kernel⟩

theorem witness_AtomicsReadModifyWrite :
    (Issuing ready view0 course0 ∧ sliceHolds view0.k view0.p = [] ∧
      ∀ op ∈ [AtomOp.add, .cas], NoHazard view0 (.atl op (.v 4) ⟨.sz, .plain⟩)) ∧
    LocalWordOk view0.b 0 ∧
    (let k := { course0 with vregs := [(128, 1#32)] }
     let v := vw k path0 0
     IssuingAlone (rdy k 0) v ∧ v.k.depth = 0 ∧ v.k.longs = [] ∧ allPending v.k = [] ∧
     v.p.park = .running ∧ getPath v.k (1 - v.u.slot) = none ∧ (blockCtx (rdy k 0) v.u.blk).isSome = true ∧ NoHazard v (.atl .cas (.v 4) ⟨.sz, .plain⟩) ∧
     localWord v.b 0 ≠ readReg v.k (.v 4) 0) ∧
    (∀ e ∈ [(AtomOp.fadd, 0#32), (.cas, 0#32), (.cas, 1#32)],
     let k := { course0 with vregs := [(128, e.2)] }
     let s := rdy k 0
     let v := vw k path0 0
     let x := acc k 4 4 true false (.v 6) false
     Unstopped s v (ATR0 e.1) ∧ recordAccess v (ATR0 e.1) = some x ∧ heldFor v = none ∧ x.lanes = [0] ∧
     accessReach s v x = [(0, .mem 0 (.dev 0) leaf0)] ∧ allGood s = true ∧ (getCore s v.b.core).stores = [] ∧
     homePoisoned s (.dev 0) 4 = false ∧
     ((atomWord e.1 0 e.2 0).isSome = true ∨ e = (.cas, 1#32) ∧ atomWord e.1 0 e.2 0 = none)) := by
  refine ⟨⟨ready_issues, by decide +kernel, fun op h _ => by revert op; decide +kernel⟩, localOk 0 (by decide),
    ⟨rdy_alone _ _ _ rfl, rfl, rfl, by decide +kernel, rfl, rfl, by decide +kernel, fun _ => by decide +kernel, by decide +kernel⟩, fun e h => ?_⟩
  simp only [List.mem_cons, List.not_mem_nil, or_false] at h
  rcases h with rfl | rfl | rfl <;>
    exact ⟨fun _ => by decide +kernel, by decide +kernel, rfl, rfl, by decide +kernel, rfl, rfl, by decide +kernel, by decide +kernel⟩

/-- A pending store of a remote device. -/
def storeF : PendingStore := ⟨9, 0, 0, .fabric 5 0 0x4000, [(3, 7)], 0, 0⟩

theorem witness_FencesOrderAndInvalidate :
    (IssuingAlone ready view0 ∧ view0.never = false ∧ NoHazard view0 (.pref 1 ⟨.v 6, .plain⟩ 0 .sz) ∧
      recordBad (readRecord view0.k (0 : RecName).val) fmtKnown = false ∧ fabricStores ready view0.b.core = false ∧
      view0.k.longs = [] ∧
      (∀ scope ∈ [Scope.course, .block, .die, .device, .system], NoHazard view0 (.cinv scope) ∧
        ∀ kind ∈ [FenceKind.acq, .rel, .acqrel, .seq], NoHazard view0 (.fence kind scope false))) ∧
    (IssuingAlone (rdy course0 8) (vw course0 path0 8) ∧ (vw course0 path0 8).never = true ∧
      NoHazard (vw course0 path0 8) (.cinv .die) ∧ NoHazard (vw course0 path0 8) (.fence .seq .system false)) ∧
    (let s := { ready with cores := [(0, { Core.reset with stores := [storeF] })] }
     viewOf s = some view0 ∧ fabricStores s view0.b.core = true ∧ view0.p.waited = [] ∧
     ∀ e ∈ [(FenceKind.seq, Scope.course), (.rel, .system), (.acqrel, .system)], awaitsAcks e.1 e.2 = true) ∧
    (let k := { course0 with longs := [{ long0 with load := true }], path0 := some pathLong }
     IssuingAlone (rdy k 0) (vw k pathLong 0) ∧ pendingLoads k pathLong ≠ []) := by
  refine ⟨⟨ready_alone, rfl, fun _ => by decide +kernel, by decide +kernel, by decide +kernel, rfl, fun sc h => ⟨fun _ => rfl, fun kd h _ => rfl⟩⟩,
    ⟨rdy_alone _ _ _ rfl, rfl, fun _ => rfl, fun _ => rfl⟩, ⟨ready_alone.view, by decide +kernel, rfl, by decide⟩,
    rdy_alone _ _ _ rfl, by decide +kernel⟩

/-! ### Witnesses: engine commands -/

/-- A card that fills one word of the local store, and one that multiplies tiles of BF16, both at s8. -/
def fillCard : List (Nat × Word) := [(8, 3#32), (11, 0x10001#32), (13, 4#32), (14, 0xFFFFF#32)]

def mmaCard : List (Nat × Word) := [(8, 0x52323#32), (10, 0x100#32), (13, 0x100#32), (15, 0xFFFFF#32)]

def courseFill : Course := withS course0 fillCard

/-- A command of the bench's course: the fill, on stream 3. -/
def cmd0 (accepted begun done : Bool) : Command :=
  { newCommand 0 0x70 0 (cardWords courseFill 1 8) (cardRecord courseFill 0x70 (cardWords courseFill 1 8)) 3 false [] 0 0 with
    accepted := accepted, order := 1, begun := begun, done := done }

/-- The fill as `courseFill` issues it on stream 15, accepted, at its unit's position. -/
def cmdTaken : Command :=
  { cmd0 true false false with pos := unitPos (rdy courseFill 0) (vw courseFill path0 0) }

/-- The path of a unit that has waited once. -/
def pathWaited : Path := { path0 with waited := [0] }

theorem witness_EngineCommandsAreIssued :
    (∀ g ∈ [0#4, 8#4], let v := vw courseFill path0 g
     Issuing (rdy courseFill g) v courseFill ∧ Unstopped (rdy courseFill g) v (.cpy 1 15 true) ∧
     engineOf (.cpy 1 15 true) = some (0x70, 1, 15, true) ∧ getPath courseFill v.u.slot = some path0 ∧ path0.park = .running ∧
     v.u.slot < 2 ∧ (v.never = true ↔ g = 8) ∧ v.p.waited.contains v.u.pos = false ∧ engineFull (rdy courseFill g) v.u.blk 0x70 = false) ∧
    (∀ l ∈ [[(7, cmd0 false false false)], (List.range 256).map (fun i => (i, cmd0 true false false))],
     let s := { rdy courseFill 0 with commands := l }
     viewOf s = some (vw courseFill path0 0) ∧ stopOf s (vw courseFill path0 0) (.cpy 1 15 true) = some (.hold (.acceptance 0 false))) ∧
    (let k := { courseFill with path0 := some pathWaited }
     let s := { rdy k 0 with commands := [(7, cmdTaken)] }
     let v := vw k pathWaited 0
     viewOf s = some v ∧ Unstopped s v (.cpy 1 15 true) ∧ v.never = false ∧ takenCommand s v 0x70 = some 7) := by
  refine ⟨fun g h => ?_, fun l h => ?_, (rdy_alone { courseFill with path0 := some pathWaited } pathWaited 0 rfl).view,
    fun _ => by decide +kernel, rfl, by decide +kernel⟩
  · simp only [List.mem_cons, List.not_mem_nil, or_false] at h
    rcases h with rfl | rfl <;>
      exact ⟨rdy_issues _ _ _ rfl, fun _ => by decide +kernel, rfl, rfl, rfl, by decide, by decide +kernel, rfl, by decide +kernel⟩
  · simp only [List.mem_cons, List.not_mem_nil, or_false] at h
    rcases h with rfl | rfl <;> exact ⟨(rdy_alone courseFill path0 0 rfl).view, by decide +kernel⟩

theorem witness_SwaitWaitsForItsStream :
    (IssuingAlone ready view0 ∧ NoHazard view0 (.swait 3) ∧ view0.never = false ∧
      openCommands ready view0.u.blk view0.u.course (fun c => c.strm == (3#4).toNat) = [] ∧
      (∀ e ∈ view0.k.engErrs, e.strm ≠ (3#4).toNat) ∧ view0.k.engScopes = []) ∧
    (let s := { ready with commands := [(7, cmd0 true true false)] }
     viewOf s = some view0 ∧ openCommands s view0.u.blk view0.u.course (fun c => c.strm == (3#4).toNat) ≠ [] ∧ view0.p.waited = []) ∧
    (vw course0 path0 8).never = true :=
  ⟨⟨ready_alone, fun _ => rfl, rfl, rfl, by decide, rfl⟩, ⟨ready_alone.view, by decide +kernel, rfl⟩, rfl⟩

/-- Member `r` of team 0, and its block of four members of which `n` have arrived. -/
def member (r : Nat) : Course := { withS course0 mmaCard with live := 1#32, team := some 0, rank := some r }

def teamBlock (n : Nat) : Block :=
  { block0 with team := 4, courses := 4, alloc := 0x20000
                collectives := if n = 0 then [] else
                  [⟨0, 0, (List.range n).map (fun i => (3 - i, 0x73)), [], 0, false, false, false, 0⟩] }

theorem witness_TeamsFormTheirCollectives :
    (∀ e ∈ [(3, 0, 0#4), (1, 2, 0#4), (0, 3, 0#4), (0, 3, 8#4)],
     let s := issuingOn bench (member e.1) (teamBlock e.2.1) e.2.2
     let v := seen (member e.1) (teamBlock e.2.1) path0 e.2.2
     IssuingAlone s v ∧ engineOf (.mma 1 0 false) = some (0x73, 1, 0, false) ∧ v.k.team = some 0 ∧ v.k.rank = some e.1 ∧
     (e.2.1 < 3 → stopOf s v (.mma 1 0 false) = some (.hold .arrival)) ∧
     (e.2.1 = 3 → stopOf s v (.mma 1 0 false) = none ∧ formedFor v = false ∧ engineFull s v.u.blk 0x73 = false)) ∧
    (let s := { issuingOn bench (member 0) (teamBlock 3) 0 with commands := [(7, cmd0 false false false)] }
     let v := seen (member 0) (teamBlock 3) path0 0
     viewOf s = some v ∧ stopOf s v (.mma 1 0 false) = some (.hold (.acceptance 0 true))) ∧
    (let b := { teamBlock 0 with collectives := [⟨0, 0, [(3, 0x73), (2, 0x73), (1, 0x73), (0, 0x73)], [], 0, false, true, true, 0⟩] }
     let s := issuingOn bench (member 3) b 0
     let v := seen (member 3) b path0 0
     IssuingAlone s v ∧ stopOf s v (.mma 1 0 false) = none ∧ formedFor v = true) := by
  refine ⟨fun e h => ?_, ⟨(issuesAlone bench (member 0) (teamBlock 3) path0 0 rfl).view, by decide +kernel⟩,
    issuesAlone _ _ _ _ _ rfl, by decide +kernel, by decide +kernel⟩
  simp only [List.mem_cons, List.not_mem_nil, or_false] at h
  rcases h with rfl | rfl | rfl | rfl <;>
    exact ⟨issuesAlone _ _ _ _ _ rfl, rfl, rfl, rfl, by decide +kernel, by decide +kernel⟩

/-- A copy of one word from element 0 of the bench's record. -/
def loadCard : List (Nat × Word) := [(11, 0x10001#32), (13, 4#32), (14, 0xFFFFF#32)]

def cmdLoad : Command :=
  { newCommand 0 0x70 0 (cardWords (withS course0 loadCard) 1 8)
      (cardRecord (withS course0 loadCard) 0x70 (cardWords (withS course0 loadCard) 1 8)) 3 false [] 0 0 with
    accepted := true, order := 1 }

theorem witness_EngineCommandsAreAcceptedAndStarted :
    (let s := { bench with commands := [(7, cmd0 false false false)] }
     getCmd s 7 = some (cmd0 false false false) ∧ getBlock s 0 = some block0 ∧ acceptable s 7 (cmd0 false false false) = true ∧
     startable s (cmd0 false false false) = false) ∧
    (let s := { bench with commands := [(7, cmd0 true false false)] }
     acceptable s 7 (cmd0 true false false) = false ∧ startable s (cmd0 true false false) = true ∧ (cmd0 true false false).op = 0x70 ∧
     awaitsStores (drainCore s block0.core) (cmd0 true false false) = false ∧
     2 ≤ bits (cw (cmd0 true false false).card 0) 1 0) ∧
    (let s := { bench with commands := [(7, cmdLoad)], cores := [(0, { Core.reset with stores := [storeF] })] }
     getCmd s 7 = some cmdLoad ∧ startable s cmdLoad = true ∧ awaitsStores (drainCore s block0.core) cmdLoad = true) ∧
    (let c := { newCommand 0 0x73 0 (cardWords (member 0) 1 8) [] 0 false [0] 0 0 with accepted := true, order := 1 }
     let s := { bench with commands := [(7, c)], courses := [(0, { member 0 with collectives := 1 })], blocks := [(0, teamBlock 0)] }
     getCmd s 7 = some c ∧ getBlock s c.blk = some (teamBlock 0) ∧ startable s c = true ∧
     ∀ n ∈ c.members, ∀ k, getCourse s c.blk n = some k → ∀ w ∈ k.longs, w.id ≠ 7) := by
  refine ⟨⟨rfl, rfl, by decide +kernel, by decide +kernel⟩, ⟨by decide +kernel, by decide +kernel, rfl, by decide +kernel, by decide +kernel⟩,
    ⟨rfl, by decide +kernel, by decide +kernel⟩,
    rfl, rfl, by decide +kernel, fun n h k e w hw => ?_⟩
  obtain rfl := List.mem_singleton.1 h
  obtain rfl : { member 0 with collectives := 1 } = k := Option.some.inj e
  cases hw

theorem witness_EngineCommandsComplete : let c := cmd0 true true true
    let s := { bench with commands := [(7, c)], courses := [(0, course0)] }
    getCmd s 7 = some c ∧ getBlock s c.blk = some block0 ∧ c.done = true ∧ c.members = [] ∧ c.errs = [] ∧
    getCourse s c.blk c.course = some course0 ∧ c.course < block0.courses ∧ (∀ e ∈ course0.engErrs, e.cmd ≠ 7) ∧
    course0.stopped = false ∧ getPath course0 0 = some path0 ∧ path0.held = false ∧ (cmd0 true true false).done = false :=
  ⟨rfl, rfl, rfl, rfl, rfl, rfl, by decide +kernel, by decide, rfl, rfl, rfl, rfl⟩

/-! ### Witnesses: the tape -/

/-- A tape record of two chunks at 0x8000. -/
def tapeWords : List Word := [0x8000#32, 0, 0x2000#32, 0, 0x01000000#32, 0x100#32, 0, 0]

def tapeS : List (Nat × Word) := tapeWords.zipIdx.map (fun e => (8 + e.2, e.1))

def taped (t : Tape) : Course := { withS course0 tapeS with tape := t }

def recording : Tape := { Tape.idle with mode := .record, record := tapeWords, order := 1 }

def chunk0 : OpenChunk := ⟨0, 0, 0, [], []⟩

abbrev TREC0 : Instr := .trec .w32 5 ⟨.v 6, .plain⟩

theorem witness_RecordingAppendsToTheOpenChunk : ∀ t ∈ [recording, { recording with chunk := some chunk0, next := 1 },
      { recording with ovf := true, drop := true }],
    let v := vw (taped t) path0 0
    Issuing (rdy (taped t) 0) v (taped t) ∧ Unstopped (rdy (taped t) 0) v TREC0 ∧ v.k.tape.mode = .record ∧
    Unstopped (rdy (taped t) 0) v (.tctlMark ⟨.s 5, .plain⟩) ∧ v.never = false ∧
    ∃ r, trecRecord v .w32 5 ⟨.v 6, .plain⟩ = some r ∧ (codeRec [] r).1.length < 4064 ∧
      (t.chunk = none → t.ovf = false → 4096 * (t.next + 1) ≤ (tapeRecord t).extent) := by
  intro t h
  simp only [List.mem_cons, List.not_mem_nil, or_false] at h
  rcases h with rfl | rfl | rfl <;>
    exact ⟨rdy_issues _ _ _ rfl, fun _ => by decide +kernel, rfl, fun _ => by decide +kernel, rfl, .lane .w32 5 1#32 [0], by decide +kernel,
      by decide +kernel, by decide +kernel⟩

theorem witness_TapeControlBeginsAndEndsAStream :
    (let v := vw (taped Tape.idle) path0 0
     Issuing (rdy (taped Tape.idle) 0) v (taped Tape.idle) ∧ v.never = false ∧
     Unstopped (rdy (taped Tape.idle) 0) v (.tctlRecbegin true 1 .plain) ∧
     Unstopped (rdy (taped Tape.idle) 0) v (.tctlStatus (.s 20))) ∧
    (let t := { recording with chunk := some chunk0, next := 1 }
     let s := rdy (taped t) 0
     let v := vw (taped t) path0 0
     Issuing s v (taped t) ∧ Unstopped s v (.tctlRecbeginExt false 1 .plain) ∧ t.mode = .record ∧
     translate s v.b.asid ((tapeRecord t).base + 4096 * chunk0.index) = .mem (.dev 0x8000) leaf0 ∧ leaf0.write = true ∧ allGood s = true ∧
     Unstopped s v .tctlFlush ∧ Unstopped s v (.tctlRecend (.s 20))) :=
  ⟨⟨rdy_issues _ _ _ rfl, rfl, fun _ => by decide +kernel, fun _ => by decide +kernel⟩, rdy_issues _ _ _ rfl, fun _ => by decide +kernel,
    rfl, by decide +kernel, rfl, rfl, fun _ => by decide +kernel, fun _ => by decide +kernel⟩

/-- A tape that replays chunk 0, whose newest record is `r`. -/
def stage0 (r : TapeRec) : Stage := { newStage 0 [] none with recs := [r], first := true, released := true }

def replaying (r : TapeRec) : Tape := { recording with mode := .replay, current := some (stage0 r) }

def popped (r : TapeRec) : Tape := { replaying r with current := some { stage0 r with recs := [] } }

theorem witness_ReplayTakesTheNewestRecord :
    (∀ e ∈ [(TapeRec.lane .w32 5 1#32 [7], Instr.tpop .w32 5 (.v 6)), (.course .w64 127 7, .tpop .w64 127 (.s 20)),
        (.mark 0, .tctlMark ⟨.s 6, .plain⟩), (.branch 0#32, .brr 1), (.branch 1#32, .brr 1)],
      let k := taped (replaying e.1)
      let v := vw k path0 0
      Issuing (rdy k 0) v k ∧ newest (rdy k 0) v.b.asid v.k.tape = .record e.1 (replaying e.1) (popped e.1) ∧
      Unstopped (rdy k 0) v e.2 ∧ v.never = false ∧ v.k.tape.mode = .replay ∧ Unstopped (rdy k 0) v .tctlRepend) ∧
    (let v := vw (taped Tape.idle) path0 0
     readReg v.k (.s 20) 0 = 0 ∧ Unstopped (rdy (taped Tape.idle) 0) v (.tctlRepbegin (.s 20) 1 .plain)) := by
  refine ⟨fun e h => ?_, by decide +kernel, fun _ => by decide +kernel⟩
  simp only [List.mem_cons, List.not_mem_nil, or_false] at h
  rcases h with rfl | rfl | rfl | rfl | rfl <;>
    exact ⟨rdy_issues _ _ _ rfl, by decide +kernel, fun _ => by decide +kernel, rfl, rfl, fun _ => by decide +kernel⟩

/-! ### Witnesses: special registers, TASK and STEP -/

theorem witness_SrdAndSwrUseTheirRegister :
    (Issuing ready view0 course0 ∧ Unstopped ready view0 (.srd (.v 7) 0) ∧ (∃ f, ((0#9).toNat, f) ∈ srSamples ready view0) ∧
      Unstopped ready view0 (.srd (.s 30) 0x11) ∧ Unstopped ready view0 (.srd .sz 0x19) ∧ view0.never = false ∧
      ∀ n ∈ [0x13#9, 0x17, 0x18, 0x19], Unstopped ready view0 (.swr n ⟨.s 3, .plain⟩)) ∧
    (vw course0 path0 8).never = true ∧ Unstopped (rdy course0 8) (vw course0 path0 8) (.swr 0x13 ⟨.s 3, .plain⟩) :=
  ⟨⟨ready_issues, fun _ => by decide +kernel, ⟨_, List.mem_cons_self⟩, fun _ => by decide +kernel, fun _ => by decide +kernel, rfl,
    fun n h _ => by revert n; decide +kernel⟩, rfl, fun _ => by decide +kernel⟩

/-- A WAIT packet's and a LAUNCH packet's image, as words of the local store. -/
def blockWith (ws : List Word) : Block := { block0 with localMem := csetRun 0#8 [] 0 (wordsToBytes ws) }

/-- Changes of the bench's partition. -/
def withPart (s : State) (f : Partition → Partition) : State := { s with partitions := [(0, f probePartition)] }

/-- The bench whose fabric window begins with memory of device 5. -/
def windowed (s : State) : State := withPart s (fun p => { p with fwent := [(0, 0x800A000000000000#64)] })

/-- An address of that memory in s8 and s9. -/
def farS : List (Nat × Word) := [(8, 0x4000#32), (9, 0xF000#32)]

def heldAnswer : Held := ⟨0, [], [(0, ⟨true, [], []⟩)]⟩

def pathAnswered : Path := { path0 with remotes := [heldAnswer] }

theorem witness_TaskInstructionsSignalAndSubmit :
    (Issuing ready view0 course0 ∧ Unstopped ready view0 .taskDone ∧ view0.never = false ∧ view0.b.done = false ∧
      getJob ready view0.b.job = some probeJob) ∧
    (let k := withS course0 [(8, 0x4000#32)]
     let s := rdy k 0
     let v := vw k path0 0
     Unstopped s v (.taskSignal ⟨.s 8, .plain⟩) ∧ translate s v.b.asid (readPair v.k (.s 8) 0).toNat = .mem (.dev 0x4000) leaf0 ∧
     heldFor v = none ∧ allGood s = true ∧ (getCore s v.b.core).stores = [] ∧ homePoisoned s (.dev 0x4000) 8 = false) ∧
    (let k := withS course0 farS
     let s := issuingOn (windowed bench) k block0 0
     let v := seen k block0 path0 0
     viewOf s = some v ∧ translate s v.b.asid (readPair v.k (.s 8) 0).toNat = .fabric 5 0 0x4000 ∧
     stopOf s v (.taskSignal ⟨.s 8, .plain⟩) = some (.hold .remote)) ∧
    (let k := { withS course0 farS with path0 := some pathAnswered }
     let s := issuingOn (windowed bench) k block0 0
     let v := seen k block0 pathAnswered 0
     Issuing s v k ∧ Unstopped s v (.taskSignal ⟨.s 8, .plain⟩) ∧ v.never = false ∧ heldFor v = some heldAnswer ∧
     (∀ e ∈ heldAnswer.answers, e.2.poison = []) ∧ allGood s = true) ∧
    (∀ e ∈ [(0x80000003#32, none), (0x80000004#32, some 1), (0x00000003#32, some 2)],
      let b := blockWith [e.1]
      let s := issuingOn bench course0 b 0
      let v := seen course0 b path0 0
      Unstopped s v (.taskEnq (.s 20) ⟨.s 6, .plain⟩) ∧ localPoisoned v.b (readReg v.k (.s 6) 0).toNat 128 = false ∧
      getCtx s v.b.asid = some probeContext ∧
      enqCause (drainCore s v.b.core) v.b.part probeContext.nc
        (bytesToWords (cgetRun 0#8 v.b.localMem (readReg v.k (.s 6) 0).toNat 128)) = e.2) := by
  refine ⟨⟨ready_issues, fun _ => by decide +kernel, rfl, rfl, rfl⟩, ⟨fun _ => by decide +kernel, by decide +kernel, rfl, rfl, rfl,
    by decide +kernel⟩, ⟨(issuesAlone (windowed bench) (withS course0 farS) block0 path0 0 rfl).view, by decide +kernel, by decide +kernel⟩,
    ⟨issues _ _ _ _ _ rfl, fun _ => by decide +kernel, rfl, by decide +kernel, by decide, by decide +kernel⟩, fun e h => ?_⟩
  simp only [List.mem_cons, List.not_mem_nil, or_false] at h
  rcases h with rfl | rfl | rfl <;>
    exact ⟨fun _ => by decide +kernel, by decide +kernel, by decide +kernel, by decide +kernel⟩

/-- The bench with step 1 open in its context. -/
def stepped : State := { bench with contexts := [(1, { probeContext with step := some ⟨1, 100, none, false⟩ })] }

theorem witness_StepInstructionsKeepTheContextsStep :
    (let k := withS course0 [(8, 50#32), (9, 1#32)]
     let v := vw k path0 0
     Issuing (rdy k 0) v k ∧ v.never = false ∧ getCtx (rdy k 0) v.b.asid = some probeContext ∧ probeContext.step = none ∧
     Unstopped (rdy k 0) v (.stepBegin (.s 20) ⟨.s 8, .plain⟩) ∧ Unstopped (rdy k 0) v (.stepSlack (.s 20) ⟨.s 8, .plain⟩) ∧
     Unstopped (rdy k 0) v (.stepEnd (.s 20) ⟨.s 8, .plain⟩)) ∧
    (∀ id ∈ [1#32, 2#32], let k := withS course0 [(8, id), (9, id)]
     let s := issuingOn stepped k block0 0
     let v := vw k path0 0
     Issuing s v k ∧ (getCtx s v.b.asid).map (·.step) = some (some ⟨1, 100, none, false⟩) ∧
     (getCtx s v.b.asid).map (·.asid) = some v.b.asid ∧
     Unstopped s v (.stepBegin (.s 20) ⟨.s 8, .plain⟩) ∧ Unstopped s v (.stepEnd (.s 20) ⟨.s 8, .plain⟩)) := by
  refine ⟨⟨rdy_issues _ _ _ rfl, rfl, rfl, rfl, fun _ => by decide +kernel, fun _ => by decide +kernel, fun _ => by decide +kernel⟩, fun id h => ?_⟩
  simp only [List.mem_cons, List.not_mem_nil, or_false] at h
  rcases h with rfl | rfl <;>
    exact ⟨issues _ _ _ _ _ rfl, rfl, rfl, fun _ => by decide +kernel, fun _ => by decide +kernel⟩

/-! ### Witnesses: what ends a course's waits -/

/-- The bench, whose course is `k` and whose block is `b`. -/
def withCourse (k : Course) (b : Block) : State := { bench with courses := [(0, k)], blocks := [(0, b)] }

def parked (p : Park) : Course := { course0 with path0 := some { path0 with park := p } }

/-- The bench with one request to device 5. -/
def asked (s : State) (o : RemoteOwner) : State := { s with remotes := [(3, ⟨5, o⟩)] }

/-- A load that kills lane 0, and its course. -/
def courseKill : Course := { courseLong with longs := [{ long0 with kill := 1#32 }] }

theorem witness_EventsEndTheWaitsOfCourses :
    (getCourse (withCourse courseLong block0) 0 0 = some courseLong ∧ getBlock (withCourse courseLong block0) 0 = some block0 ∧
      courseLong.longs.filter (fun w => w.id = 5) = [long0] ∧ PureLong long0 ∧
      courseLong.longs.all (fun w => w.id ≠ 6) = true) ∧
    (awaited courseKill 5 = false ∧ ∃ w ∈ courseKill.longs, w.id = 5 ∧ longKills courseKill w ≠ 0) ∧
    (let y := { block0 with barriers := [(15, 1#32)] }
     getBlock (withCourse course0 y) 0 = some y ∧ cget 0#32 y.barriers (15#4).toNat ≠ 0 ∧
     (∀ n, n < y.courses → ∀ j, getCourse (withCourse course0 y) 0 n = some j → hasLane (cget 0#32 y.barriers (15#4).toNat) n = true ∨ j.live = 0) ∧
     cget 0#32 y.barriers (0#4).toNat = 0) ∧
    (getPath (parked (.phase 0x3FC false)) 0 = some { path0 with park := .phase 0x3FC false } ∧
      getPath (parked (.phase 0x3FC true)) 0 = some { path0 with park := .phase 0x3FC true } ∧
      phaseOfWord (localWord block0 0x3FC) = false) ∧
    (find? (asked bench (.lane 0 0 0 0 31)).remotes 3 = some ⟨5, .lane 0 0 0 0 31⟩ ∧
      find? (asked bench (.lane 0 0 0 0 31)).remotes 4 = none ∧
      getPath { course0 with path0 := some pathAnswered } (0#1).toNat = some pathAnswered ∧
      find? (asked bench (.store 0 0)).remotes 3 = some ⟨5, .store 0 0⟩) ∧
    64 ≤ ({ course0 with eligible := 64 } : Course).eligible ∧
    (∀ e ∈ [([], false), (chunkBytes 0 0 0 [] true false, true)], ∀ due ∈ [none, some 0],
      let g := { newStage 0 e.1 none with due := due }
      (taped { replaying (.mark 0) with current := some g }).tape.current = some g ∧ g.released = false ∧ g.bad = false ∧
      g.discarded = false ∧ (decodeChunk g.image g.index g.expect).isSome = e.2 ∧
      pipeFree bench block0.core = true ∧ 0 ≤ coreCycle bench block0.core) := by
  refine ⟨⟨rfl, rfl, by decide, ⟨rfl, rfl, rfl⟩, by decide⟩, ⟨by decide, _, List.mem_cons_self, rfl, by decide⟩,
    ⟨rfl, by decide, fun n hn j hj => ?_, by decide⟩, ⟨rfl, rfl, by decide +kernel⟩, ⟨rfl, rfl, rfl, rfl⟩, by decide, fun e h d h2 => ?_⟩
  · obtain rfl : n = 0 := by
      have : (block0).courses = 1 := by decide +kernel
      have h : n < 1 := this ▸ hn
      omega
    exact .inl (by decide)
  · simp only [List.mem_cons, List.not_mem_nil, or_false] at h h2
    rcases h with rfl | rfl <;> rcases h2 with rfl | rfl <;>
      exact ⟨rfl, rfl, rfl, rfl, by decide +kernel, by decide +kernel, Nat.zero_le _⟩

/-! ### Witnesses: queues and packets -/

/-- The bench with nothing running. -/
def quiet : State := { bench with blocks := [], courses := [], jobs := [] }

/-- A queue of the bench's context whose ring is at 0x8000. -/
def queue0 : Queue :=
  { asid := 1, desc := 0x4000, ring := 0x8000, log2 := 4, readIdx := 15, notify := 16, halted := false, destroying := false,
    stopped := false, waiting := none }

def withQueue (q : Queue) : State := { quiet with queues := [(255, q)] }

/-- Bytes of device memory. -/
def withDev (s : State) (a : Nat) (bs : List Byte) : State := { s with dev := csetRun 0#8 s.dev a bs }

/-- A packet image from some of its words. -/
def pkt (l : List (Nat × Word)) : List Word := l.foldl (fun w e => w.set e.1 e.2) (List.replicate 32 0)

/-- A write of QCREATE for ASID 1 and the descriptor at 0x4000; and one of QDESTROY for queue 255. -/
abbrev vCreate : Double := 0x0001000000004000#64
abbrev vDestroy : Double := 0x00010000000000FF#64

theorem witness_QueuesAreCreatedAndDestroyed :
    (windowOpen { quiet with phase := 3 } 0 = false ∧ windowOpen quiet 0 = true ∧ (getPart quiet 0).creating = none ∧
      (getPart quiet 0).destroying = none ∧ getQueue quiet 0 255 = none) ∧
    (getQueue (withQueue queue0) 0 255 = some queue0 ∧ queue0.asid = BitVec.ofNat 16 (bits vDestroy.toNat 63 48) ∧
      bits vDestroy.toNat 7 0 = 255) ∧
    (let s := withPart quiet (fun p => { p with creating := some vCreate })
     (getPart s 0).creating = some vCreate ∧ partCtx s 0 2 = none ∧ partCtx s 0 1 = some probeContext ∧
     (hubRead (hubTouch s 1 0x4000 64) 1 0x4000 64).any (fun r => !r.2 && decide (bits (natOfBytes r.1) 68 64 < 4)) = true ∧
     ∀ n ∈ [4, 16], let t := withDev s 0x4000 (bytesOfNat 16 (0x8000 + n * 2 ^ 64))
      (hubRead (hubTouch t 1 0x4000 64) 1 0x4000 64).any (fun r => let w := natOfBytes r.1
        !r.2 && decide (bits w 63 0 % 4096 = 0 ∧ bits w 68 64 = n ∧ bits w 127 69 = 0 ∧ bits w 255 192 = 0 ∧ bits w 511 256 = 0)) = true) ∧
    (∀ n ∈ [0, 255, 256], let s := { quiet with queues := (List.range n).map (fun i => (i, queue0)) }
      (n < 256 → getQueue s 0 n = none) ∧ ∀ m ∈ List.range n, (getQueue s 0 m).isSome = true) ∧
    (let s := withPart (withQueue queue0) (fun p => { p with destroying := some vDestroy })
     (getPart s 0).destroying = some vDestroy ∧ s.jobs = []) ∧
    (∀ e ∈ [(1, 1#32), (2, 0#32)],
      let j : Job := { probeJob with queue := 255, asid := BitVec.ofNat 16 e.1 }
      let s := { withQueue queue0 with jobs := [(0, j)] }
      j.started = true ∧ j.completed = false ∧ j.failed = false ∧ pkType j.words = 1 ∧ j.doneBlocks ≠ pkBlocks j.words ∧
      ((getCtx s j.asid).isSome = true ↔ e.1 = 1)) := by
  refine ⟨⟨by decide +kernel, by decide +kernel, rfl, rfl, by decide +kernel⟩,
    ⟨by decide +kernel, by decide +kernel, by decide +kernel⟩, ⟨by decide +kernel, by decide +kernel, by decide +kernel, by decide +kernel, fun n h => ?_⟩,
    fun n h => ?_, ⟨rfl, rfl⟩, fun e h => ?_⟩
  · simp only [List.mem_cons, List.not_mem_nil, or_false] at h
    rcases h with rfl | rfl <;> decide +kernel
  · simp only [List.mem_cons, List.not_mem_nil, or_false] at h
    rcases h with rfl | rfl | rfl <;> decide +kernel
  · simp only [List.mem_cons, List.not_mem_nil, or_false] at h
    rcases h with rfl | rfl <;> exact ⟨rfl, rfl, rfl, by decide +kernel, by decide +kernel, by decide +kernel⟩

/-- A SIGNAL packet that stores to 0x5000. -/
def signalWords (first : Word) : List Word := pkt [(0, first), (2, 0x5000#32), (4, 7#32)]

/-- The ring's last slot with a packet image in it. -/
def ringed (q : Queue) (ws : List Word) : State := withDev (withQueue q) 0x8780 (wordsToBytes ws)

theorem witness_QueuesAreNotifiedAndConsumed :
    (getQueue (withQueue queue0) 0 255 = some queue0 ∧ getCtx (withQueue queue0) queue0.asid = some probeContext ∧
      windowOpen (withQueue queue0) 0 = true ∧ resetting (withQueue queue0) 0 = false ∧ queue0.halted = false ∧
      queue0.destroying = false ∧ ctxAlive probeContext = true ∧ (15#64).toNat < queue0.notify ∧
      queue0.notify ≤ (31#64).toNat ∧ (31#64).toNat ≤ queue0.readIdx + 2 ^ queue0.log2 ∧
      queue0.readIdx + 2 ^ queue0.log2 < (32#64).toNat) ∧
    consumable (withQueue queue0) { queue0 with notify := 15 } = false ∧
    (∀ e ∈ [(0x00000000#32, false, none), (0x80000003#32, true, none), (0x80000007#32, true, some 1)],
      let s := ringed queue0 (signalWords e.1)
      let u := hubTouch s 1 0x8780 4
      let w := hubTouch u 1 0x8780 128
      consumable s queue0 = true ∧ accessible u 1 0x8780 true = true ∧ accessible u 1 0x4018 true = true ∧
      (hubRead u 1 0x8780 4).any (fun r => !r.2 && bitAt (natOfBytes r.1) 31 == e.2.1) = true ∧
      (hubRead w 1 0x8780 128).any (fun r => !r.2 && bytesToWords r.1 == signalWords e.1) = true ∧
        (e.2.1 = true → packetCause w 0 probeContext.nc (signalWords e.1) = e.2.2)) ∧
    (let s := { ringed queue0 (signalWords 0x80000003#32) with devPoison := [(0x87A0 / 32, true)] }
     let u := hubTouch s 1 0x8780 4
     (hubRead u 1 0x8780 4).any (fun r => !r.2 && bitAt (natOfBytes r.1) 31) = true ∧ accessible u 1 0x8780 true = true ∧
     (hubRead (hubTouch u 1 0x8780 128) 1 0x8780 128).any (·.2) = true) ∧
    (let q := { queue0 with ring := 0x3FFFF840#64, readIdx := 31, notify := 32 }
     let s := withDev (withQueue q) 0x3FFFFFC0 (bytesOfNat 4 0x80000003)
     let u := hubTouch s 1 0x3FFFFFC0 4
     consumable s q = true ∧ (hubRead u 1 0x3FFFFFC0 4).any (fun r => !r.2 && bitAt (natOfBytes r.1) 31) = true ∧
     accessible u 1 0x3FFFFFC0 true = true ∧ accessible u 1 0x4018 true = true ∧
     hubRead (hubTouch u 1 0x3FFFFFC0 128) 1 0x3FFFFFC0 128 = none) ∧
    (let q := { queue0 with ring := 0x40000000#64 }
     let u := hubTouch (withQueue q) 1 0x40000780 4
     consumable (withQueue q) q = true ∧ hubRead u 1 0x40000780 4 = none ∧ accessible u 1 0x40000780 true = false) := by
  refine ⟨⟨by decide +kernel, by decide +kernel, by decide +kernel, by decide +kernel, rfl, rfl,
    by decide +kernel, by decide, by decide, by decide, by decide⟩, by decide +kernel, fun e h => ?_,
    ⟨by decide +kernel, by decide +kernel, by decide +kernel⟩,
    ⟨by decide +kernel, by decide +kernel, by decide +kernel, by decide +kernel, by decide +kernel⟩,
    by decide +kernel, by decide +kernel, by decide +kernel⟩
  simp only [List.mem_cons, List.not_mem_nil, or_false] at h
  rcases h with rfl | rfl | rfl <;>
    exact ⟨by decide +kernel, by decide +kernel, by decide +kernel, by decide +kernel, by decide +kernel, by decide +kernel⟩

/-- The bench with one packet. -/
def withJob (j : Job) : State := { quiet with jobs := [(0, j)] }

def job0 (ws : List Word) : Job := { probeJob with words := ws, placed := 0 }

def waiting0 (n limit : Nat) : Job :=
  job0 (pkt ([(0, 4#32), (2, BitVec.ofNat 32 n)] ++ (List.range n).flatMap (fun e => [(4 + 4 * e, 0x5000#32), (6 + 4 * e, BitVec.ofNat 32 limit)])))

/-- A WAIT on an address. -/
def waitOn (lo hi : Word) : Job := job0 (pkt [(0, 4#32), (2, 1#32), (4, lo), (5, hi)])

theorem witness_PacketsStartAndWait :
    (packetStartable (withJob probeJob) probeJob = false) ∧
    (∀ e ∈ [([], false), (wordsToBytes [0x56414C52#32, 1, 0x40, 0x50, 0, 0, 0, 0], true)],
      let j := { probeJob with started := false }
      let s := withDev (withJob j) 0x1000 e.1
      let u := hubTouch s j.asid (jobCode j) 64
      getJob s 0 = some j ∧ packetStartable s j = true ∧ pkType j.words = 1 ∧ translate u j.asid (jobCode j) = .mem (.dev 0x1000) leaf0 ∧
      (hubRead u j.asid (jobCode j) 64).any (fun r => !r.2 && headerOk (bytesToWords r.1) j.words == e.2) = true) ∧
    (let j := { job0 (pkt [(0, 1#32), (2, 0x40000000#32)]) with started := false }
     let u := hubTouch (withJob j) j.asid (jobCode j) 64
     packetStartable (withJob j) j = true ∧ pkType j.words = 1 ∧ translate u j.asid (jobCode j) = .page false ∧
     hubRead u j.asid (jobCode j) 64 = none) ∧
    (let j := { job0 (pkt [(0, 1#32), (2, 0x4000#32), (3, 0xF000#32)]) with started := false }
     let s := windowed (withJob j)
     packetStartable s j = true ∧ pkType j.words = 1 ∧ translate (hubTouch s j.asid (jobCode j) 64) j.asid (jobCode j) = .fabric 5 0 0x4000) ∧
    (let j := { probeJob with started := false }
     let s := { withJob j with devPoison := [(0x1000 / 32, true)] }
     (hubRead (hubTouch s j.asid (jobCode j) 64) j.asid (jobCode j) 64).any (·.2) = true) ∧
    (∀ n ∈ [1, 4], ∀ limit ∈ [0, 7], let j := waiting0 n limit
      let s := withDev (withJob j) 0x5000 [7#8]
      getJob s 0 = some j ∧ j.started = true ∧ j.tested = false ∧ pkType j.words = 4 ∧ j.completed = false ∧ j.failed = false ∧
      j.asking = false ∧ j.met = [] ∧ bits (pw j.words 2) 2 0 = n ∧
      let u := (List.range n).foldl (fun t e => hubTouch t j.asid (word64 j.words (4 + 4 * e)) 8) s
      (∀ e, e < n → hubRead u j.asid (word64 j.words (4 + 4 * e)) 8 = some (bytesOfNat 8 7, false)) ∧
      ∀ e, e < n → ((7#64).toInt ≤ (BitVec.ofNat 64 (word64 j.words (6 + 4 * e))).toInt ↔ limit = 7)) ∧
    (let j := { waiting0 1 0 with tested := true, retest := true }
     j.tested = true ∧ j.retest = true ∧ pkType j.words = 4) ∧
    (let j := waitOn 0x40000000#32 0
     let u := hubTouch (withJob j) j.asid (word64 j.words 4) 8
     translate u j.asid (word64 j.words 4) = .page false ∧ hubRead u j.asid (word64 j.words 4) 8 = none) ∧
    (let j := waitOn 0x5000#32 0
     let s := { withJob j with devPoison := [(0x5000 / 32, true)] }
     (hubRead (hubTouch s j.asid (word64 j.words 4) 8) j.asid (word64 j.words 4) 8).any (·.2) = true) ∧
    (let j := waitOn 0x4000#32 0xF000#32
     let s := windowed (withJob j)
     translate (hubTouch s j.asid (word64 j.words 4) 8) j.asid (word64 j.words 4) = .fabric 5 0 0x4000) ∧
    ({ quiet with now := 10000, nextPoll := 10000 } : State).nextPoll ≤ 10000 ∧
    (∀ o ∈ [RemoteOwner.header 0, .wait 0 0], let j := { waitOn 0x4000#32 0xF000#32 with asking := true }
      getJob (asked (withJob j) o) 0 = some j ∧ find? (asked (withJob j) o).remotes 3 = some ⟨5, o⟩ ∧ j.asking = true ∧
      j.completed = false ∧ j.failed = false ∧ pkType j.words = 4) := by
  refine ⟨by decide +kernel, fun e h => ?_, ⟨by decide +kernel, by decide +kernel, by decide +kernel, by decide +kernel⟩,
    ⟨by decide +kernel, by decide +kernel, by decide +kernel⟩, by decide +kernel,
    fun n h l h2 => ?_, ⟨rfl, rfl, by decide +kernel⟩, ⟨by decide +kernel, by decide +kernel⟩, by decide +kernel, by decide +kernel, by decide,
    fun o _ => ⟨rfl, rfl, rfl, rfl, rfl, by decide +kernel⟩⟩
  · simp only [List.mem_cons, List.not_mem_nil, or_false] at h
    rcases h with rfl | rfl <;>
      exact ⟨rfl, by decide +kernel, by decide +kernel, by decide +kernel, by decide +kernel⟩
  · simp only [List.mem_cons, List.not_mem_nil, or_false] at h h2
    rcases h with rfl | rfl <;> rcases h2 with rfl | rfl <;>
      exact ⟨rfl, rfl, rfl, by decide +kernel, rfl, rfl, rfl, rfl, by decide +kernel, by decide +kernel, by decide +kernel⟩

/-- A COPY of `n` bytes to 0x503F: a fill of 4 bytes, or from 0x6000. -/
def copyWords (l : List (Nat × Word)) : List Word := pkt ([(0, 2#32), (16, 0xFFFFFFFF#32), (18, 0xFFFFFFFF#32), (19, 5#32)] ++ l)

/-- The page of the bench, read only. -/
def readOnly (s : State) : State := withDev s 0x3000 (bytesOfNat 8 0x5)

def leafR : Leaf := ⟨false, 0, 30, 0, 0, true, false⟩

/-- A SIGNAL packet to an address. -/
def signalJob (lo hi op : Word) : Job := job0 (pkt [(0, 3#32), (2, lo), (3, hi), (4, 7#32), (6, op)])

/-- A launch of one block, done, whose signal is at an address. -/
def launchJob (lo hi : Word) : Job :=
  { job0 (pkt [(0, 1#32), (6, 1#32), (7, 1#32), (8, 1#32), (18, 5#32), (19, 6#32), (22, lo), (23, hi)]) with doneBlocks := 1 }

theorem witness_SignalsCopiesAndLaunchesComplete :
    (∀ op ∈ [0#32, 1, 2], let j := signalJob 0x5000#32 0 op
      getJob (withJob j) 0 = some j ∧ j.started = true ∧ j.completed = false ∧ j.failed = false ∧ SuccessorsCount (withJob j) j ∧
      getCtx (withJob j) j.asid = some probeContext ∧ probeContext.destroying = false ∧ pkType j.words = 3 ∧ j.asking = false ∧
      bits (pw j.words 6) 1 0 = op.toNat ∧
      (let u := touchWalk (withJob j) j.asid (word64 j.words 2)
       translate u j.asid (word64 j.words 2) = .mem (.dev 0x5000) leaf0 ∧ leaf0.write = true ∧
       homePoisoned (homeTouch u (.dev 0x5000)) (.dev 0x5000) 8 = false ∧ allGood (homeTouch u (.dev 0x5000)) = true) ∧
      (let u := touchWalk { withJob j with devPoison := [(0x280, true)] } j.asid (word64 j.words 2)
       homePoisoned (homeTouch u (.dev 0x5000)) (.dev 0x5000) 8 = true) ∧
      let u := touchWalk (readOnly (withJob j)) j.asid (word64 j.words 2)
      translate u j.asid (word64 j.words 2) = .mem (.dev 0x5000) leafR ∧ leafR.write = false) ∧
    (translate (touchWalk quiet 1 0x40000000) 1 0x40000000 = .page false ∧
      translate (touchWalk (windowed quiet) 1 0xF00000004000) 1 0xF00000004000 = .fabric 5 0 0x4000) ∧
    (∀ a ∈ [0#32, 0x5000#32], let j := launchJob a 0
      SuccessorsCount (withJob j) j ∧ pkType j.words = 1 ∧ j.asking = false ∧ j.doneBlocks = pkBlocks j.words ∧
      (word64 j.words 22 = 0 ↔ a = 0) ∧ (0 : Nat) ≠ pkBlocks j.words ∧
      (drainJob (withJob j) 0).remotes = [] ∧ (drainJob (withJob j) 0).commands = [] ∧
      (∃ e ∈ (drainJob (asked (withJob j) (.store 0 0)) 0).remotes, ∃ m, e.2.owner = .store m 0) ∧
      (a ≠ 0 → translate (touchWalk (drainJob (withJob j) 0) j.asid (word64 j.words 22)) j.asid (word64 j.words 22) = .mem (.dev 0x5000) leaf0)) ∧
    (∀ l ∈ [[(4, 0x503C#32), (6, 4#32), (8, 1#32), (9, 7#32)], [(2, 0xFFC0#32), (4, 0x5000#32), (6, 64#32)], [(2, 0x6000#32), (4, 0x503F#32), (6, 1#32)]],
      let j := job0 (copyWords l)
      SuccessorsCount (withJob j) j ∧ pkType j.words = 2 ∧ j.asking = false ∧ word64 j.words 22 = 0 ∧ j.copied = 0 ∧
      0 < copyLength j.words ∧ j.brought = none ∧
      copyLength j.words ≤ 64 - word64 j.words 4 % 64 ∧ copyLength j.words ≤ 65536 - word64 j.words 2 % 65536 ∧
      let u := touchWalk (if bits (pw j.words 8) 1 0 = 1 then withJob j else hubTouch (withJob j) j.asid (word64 j.words 2) (copyLength j.words)) j.asid
        (word64 j.words 4)
      translate u j.asid (word64 j.words 4) = .mem (.dev (word64 j.words 4)) leaf0 ∧
      (bits (pw j.words 8) 1 0 = 1 ∨ bits (pw j.words 8) 1 0 ≠ 1 ∧ translate u j.asid (word64 j.words 2) = .mem (.dev (word64 j.words 2)) leaf0)) ∧
    (∀ o ∈ [RemoteOwner.copyRead 0, .copyWrite 0, .signal 0], let j := { signalJob 0x4000#32 0xF000#32 0 with asking := true }
      find? (asked (withJob j) o).remotes 3 = some ⟨5, o⟩ ∧ getJob (asked (withJob j) o) 0 = some j ∧ j.asking = true ∧
      SuccessorsCount (asked (withJob j) o) j) := by
  refine ⟨fun op h => ?_, ⟨by decide +kernel, by decide +kernel⟩, fun a h => ?_, fun l h => ?_,
    fun o _ => ⟨rfl, rfl, rfl, fun h => absurd h (by decide +kernel)⟩⟩
  · simp only [List.mem_cons, List.not_mem_nil, or_false] at h
    rcases h with rfl | rfl | rfl <;>
      exact ⟨rfl, rfl, rfl, rfl, fun h => absurd h (by decide +kernel), rfl, rfl, by decide +kernel, rfl, by decide +kernel,
        ⟨by decide +kernel, rfl, by decide +kernel, by decide +kernel⟩, by decide +kernel, by decide +kernel, rfl⟩
  · simp only [List.mem_cons, List.not_mem_nil, or_false] at h
    rcases h with rfl | rfl <;>
      exact ⟨fun _ => ⟨.inr (by decide +kernel), .inr (by decide +kernel), fun h => absurd h (by decide +kernel),
          fun n _ _ => by intro h; cases h⟩,
        by decide +kernel, rfl, by decide +kernel, by decide +kernel, by decide +kernel, by decide +kernel, by decide +kernel,
        ⟨(3, ⟨5, .store 0 0⟩), by decide +kernel, 0, rfl⟩, by decide +kernel⟩
  · simp only [List.mem_cons, List.not_mem_nil, or_false] at h
    rcases h with rfl | rfl | rfl <;>
      exact ⟨fun _ => ⟨.inl (by decide +kernel), .inr (by decide +kernel), fun h => absurd h (by decide +kernel),
          fun n _ _ => by intro h; cases h⟩,
        by decide +kernel, rfl, by decide +kernel, rfl, by decide +kernel, rfl, by decide +kernel, by decide +kernel, by decide +kernel,
        by decide +kernel⟩

/-! ### Witnesses: blocks -/

theorem witness_BlocksArePlacedAndLeave :
    (let j := { probeJob with placed := 0 }
     let s := withJob j
     getJob s 0 = some j ∧ (readyOrder s j.part).head?.map (·.1) = some 0 ∧ j.firstSince = none ∧
     (∃ e ∈ upToHolding (readyOrder s j.part), e.1 = 0) ∧ savedOf s 0 j = [] ∧ pkCoop j.words = false ∧
     s.waitingBlocks.find? (fun w => w.job = 0) = none ∧ j.placed < pkBlocks j.words ∧ pkCourses j.words ≤ 32 ∧
     getCtx s j.asid = some probeContext ∧ (∃ m, chooseCore s j = some m) ∧ freeSlots s probeContext (pkCourses j.words) = some [0]) ∧
    (let j := { probeJob with placed := 0, words := probeWords.set 9 32#32 |>.set 10 32#32 }
     (∃ e ∈ upToHolding (readyOrder (withJob j) j.part), e.1 = 0) ∧ j.placed < pkBlocks j.words ∧ pkCourses j.words = 32 ∧
     (∃ m, chooseCore (withJob j) j = some m) ∧ (freeSlots (withJob j) probeContext 32).isSome = true) ∧
    (let j := { probeJob with placed := 0, words := probeWords.set 12 0xFFFFFFFF#32 }
     chooseCore (withJob j) j = none) ∧
    (let s := { withJob probeJob with waitingBlocks := [⟨0, 0, 1, 0⟩] }
     (∃ e ∈ upToHolding (readyOrder s 0), e.1 = 0) ∧ pkBlocks probeJob.words ≤ probeJob.placed ∧
     s.waitingBlocks.find? (fun w => w.job = 0) = some ⟨0, 0, 1, 0⟩ ∧ (∃ m, chooseCore s probeJob = some m)) ∧
    ((readyOrder (withJob probeJob) 0).head?.map (·.1) ≠ some 0 ∧ ¬ ∃ e ∈ upToHolding (readyOrder (withJob probeJob) 0), e.1 = 0) ∧
    (∀ r ∈ [false, true], let b := { block0 with replaying := r }
      let s := { bench with blocks := [(0, b)] }
      getBlock s 0 = some b ∧ blockEnded s 0 b = false ∧ blockEnded { s with courses := [] } 0 b = true ∧
      b.replaying = r ∧ getCtx s b.asid = some probeContext ∧ getJob s b.job = some probeJob ∧ probeJob.completed = false) ∧
    (∀ e ∈ [(0x80000003#32, none), (7#32, some 1)],
      let x := { probeContext with subs := [(0, signalWords e.1)] }
      let s := { quiet with contexts := [(1, x)] }
      getCtx s 1 = some x ∧ x.subs = (0, signalWords e.1) :: [] ∧ ctxAlive x = true ∧ x.subHalted = false ∧
      resetting s x.part = false ∧ packetCause s x.part x.nc (signalWords e.1) = e.2) := by
  refine ⟨⟨rfl, by decide +kernel, rfl, by decide +kernel, by decide +kernel, by decide +kernel, rfl, by decide +kernel, by decide +kernel, rfl,
      Option.isSome_iff_exists.1 (by decide +kernel), by decide +kernel⟩,
    ⟨by decide +kernel, by decide +kernel, by decide +kernel, Option.isSome_iff_exists.1 (by decide +kernel), by decide +kernel⟩,
    by decide +kernel, ⟨by decide +kernel, by decide +kernel, by decide +kernel, Option.isSome_iff_exists.1 (by decide +kernel)⟩,
    ⟨by decide +kernel, by decide +kernel⟩, fun r h => ?_, fun e h => ?_⟩
  · simp only [List.mem_cons, List.not_mem_nil, or_false] at h
    rcases h with rfl | rfl <;> exact ⟨rfl, by decide +kernel, by decide +kernel, rfl, rfl, rfl, rfl⟩
  · simp only [List.mem_cons, List.not_mem_nil, or_false] at h
    rcases h with rfl | rfl <;> exact ⟨rfl, rfl, rfl, rfl, rfl, by decide +kernel⟩

/-! ### Witnesses: the window's registers -/

/-- The bench with 16 counters for its partition. -/
def counted (l : Assoc Counter) : State := { withPart quiet (fun p => { p with pres := 0x100000#64 }) with counters := l }

/-- A context descriptor for ASID 2: depth 16, one course, its tables in the partition. -/
def descriptor : List Byte := bytesOfNat 64 (2 + 16 * 2 ^ 16 + 2 ^ 32 + 0x2000 * 2 ^ 64 + 0x100000 * 2 ^ 128 + 0x200000 * 2 ^ 192 + 0x100000 * 2 ^ 256)

/-- A withdrawal of one page of ASID 1, in progress. -/
abbrev vXinv : Double := 0x0001000000040001#64

theorem witness_TheWindowsRegistersAct :
    (windowOpen quiet 0 = true ∧ windowOpen { quiet with phase := 5 } 0 = false ∧ ctrCount (getPart (counted []) 0) = 16 ∧
      bits (15#64).toNat 31 0 < 16 ∧ 16 ≤ bits (16#64).toNat 31 0 ∧ (15#64).getLsbD 32 = false ∧ (0x10000000F#64).getLsbD 32 = true ∧
      bits (0x10000000F#64).toNat 31 0 < 16) ∧
    ((getCounter (counted []) 15).armed = false ∧
      (let s := counted [(15, ⟨true, 3, 1⟩)]
       ¬ ((getCounter s 15).armed = false ∨ ∀ x, getCtx s (getCounter s 15).owner = some x → ctxAlive x = false)) ∧
      let s := counted [(15, ⟨true, 3, 7⟩)]
      ∀ x, getCtx s (getCounter s 15).owner = some x → ctxAlive x = false) ∧
    (partCtx quiet 0 (BitVec.ofNat 16 (bits (1#64).toNat 15 0)) = some probeContext ∧
      partCtx quiet 0 (BitVec.ofNat 16 (bits (9#64).toNat 15 0)) = none ∧
      (partCtx quiet 0 (BitVec.ofNat 16 (bits vXinv.toNat 63 48))).isSome = true ∧
      partCtx quiet 0 (BitVec.ofNat 16 (bits (0x0009000000000000#64).toNat 63 48)) = none ∧ resetting quiet 0 = false ∧
      (getPart quiet 0).ccreating = none) ∧
    (let s := withPart { bench with courses := [(0, course0)] } (fun p => { p with xinv := some vXinv })
     (getPart s 0).xinv = some vXinv ∧ getBlock s 0 = some block0 ∧ block0.asid = BitVec.ofNat 16 (bits vXinv.toNat 63 48) ∧
     heldWithdrawn vXinv path0 = false ∧
     heldWithdrawn vXinv { path0 with remotes := [⟨0, [(0, .mem 0x40000 (.dev 0x40000) leaf0)], []⟩] } = true) ∧
    (∀ d ∈ [descriptor, []],
      let s := { withPart quiet (fun p => { p with ccreating := some 0x7000#64 }) with hostMem := csetRun 0#8 [] 0x7000 d }
      (getPart s 0).ccreating = some 0x7000#64 ∧ bits (0x7000#64).toNat 63 48 = 0 ∧ bits (0x7000#64).toNat 47 0 % 64 = 0 ∧
      homePoisoned s (.host 0x7000) 64 = false ∧ ((readContext (getPart s 0) 0 (homeBytes s (.host 0x7000) 64)).isSome = true ↔ d ≠ []) ∧
      (d ≠ [] → (readContext (getPart s 0) 0 (homeBytes s (.host 0x7000) 64)).map (·.asid) = some 2 ∧ getCtx s 2 = none ∧
        (s.contexts.filter (fun e => e.2.part = 0 ∧ ctxGone s e.2 = false)).length < 64)) ∧
    (let x := { probeContext with asid := 2 }
     let s := { quiet with contexts := [(1, probeContext), (2, x)] }
     getCtx s 2 = some x ∧ ctxGone s x = false) ∧
    (let s := { quiet with contexts := (List.range 64).map (fun n => (n, probeContext)) }
     64 ≤ (s.contexts.filter (fun e => e.2.part = 0 ∧ ctxGone s e.2 = false)).length) ∧
    quiet.now < quiet.nextFlush ∧ ({ quiet with nextFlush := 0 } : State).nextFlush ≤ quiet.now := by
  refine ⟨⟨by decide +kernel, by decide +kernel, by decide +kernel, by decide +kernel, by decide +kernel, by decide +kernel, by decide +kernel,
      by decide +kernel⟩,
    ⟨by decide +kernel, fun h => ?_, fun x h => ?_⟩, ⟨by decide +kernel, by decide +kernel, by decide +kernel, by decide +kernel,
      by decide +kernel, rfl⟩, ⟨rfl, rfl, by decide +kernel, by decide +kernel, by decide +kernel⟩, fun d h => ?_, ⟨rfl, by decide +kernel⟩, by decide +kernel,
    by decide +kernel, by decide +kernel⟩
  · rcases h with h | h
    · exact absurd h (by decide +kernel)
    · exact absurd (h probeContext rfl) (by decide +kernel)
  · exact absurd (show none = some x from h) (by simp)
  · simp only [List.mem_cons, List.not_mem_nil, or_false] at h
    rcases h with rfl | rfl <;>
      exact ⟨rfl, by decide +kernel, by decide +kernel, by decide +kernel, by decide +kernel, by decide +kernel⟩
/-! ### Witnesses: contexts -/

theorem quietOne (s : State) (k : Course) (p : Path) (a : BitVec 16) (h : s.courses = [(0, k)]) (h0 : k.path0 = some p)
    (h1 : k.path1 = none) (hp : p.pending = [] ∧ p.park = .running ∧ p.remotes = []) : QuietContext s a := by
  intro b y c k' p' _ _ _ hk hq
  have e : k' = k := by
    unfold getCourse at hk
    rw [h] at hk
    simp only [find?] at hk
    split at hk
    · exact (Option.some.inj hk).symm
    · cases hk
  subst e
  rw [h0, h1] at hq
  rcases hq with hq | hq
  · cases hq
    rw [hp.2.1]
    exact ⟨hp.1, hp.2.2, fun _ h => (by cases h), fun _ _ h => (by cases h)⟩
  · cases hq

/-- The bench whose context is in this state. -/
def inState (st : CtxState) : State := { bench1 with contexts := [(1, { probeContext with state := st })] }

/-- A CTXCTL write of an operation on ASID 1. -/
def ctl (op : Nat) : Double := BitVec.ofNat 64 (2 ^ 48 + op)

abbrev allStates : List CtxState := [.running, .halting, .halted, .saving, .saved, .removed]

theorem inState_open : ∀ st ∈ allStates, windowOpen (inState st) 0 = true ∧ resetting (inState st) 0 = false ∧
    partCtx (inState st) 0 1 = some { probeContext with state := st } := by decide +kernel

theorem inState_quiet (st : CtxState) : QuietContext (inState st) 1 := quietOne _ course0 path0 _ rfl rfl rfl ⟨rfl, rfl, rfl⟩

theorem witness_TheHostControlsContexts :
    (∀ st ∈ allStates, windowOpen (inState st) 0 = true ∧ resetting (inState st) 0 = false ∧
      partCtx (inState st) 0 1 = some { probeContext with state := st } ∧ QuietContext (inState st) 1) ∧
    (∀ op ∈ [1, 2, 3, 4, 5, 6], asidField (ctl op) = 1 ∧ bits (ctl op).toNat 3 0 = op) ∧ probeContext.asid = 1 ∧
    probeContext.destroying = false ∧ probeContext.hostSaved = false ∧ probeContext.saved = [] :=
  ⟨fun st h => ⟨(inState_open st h).1, (inState_open st h).2.1, (inState_open st h).2.2, inState_quiet st⟩,
    by decide +kernel, rfl, rfl, rfl, rfl⟩

/-- An open fault of the bench's path. -/
def fault0 : OpenFault := ⟨0, plainFault 8 1#32, 0, 0, 0, 0, .path 0 0 0, none⟩

def faultedX : Context := { probeContext with faults := [fault0] }

def faulted : State := { bench1 with contexts := [(1, faultedX)], courses := [(0, parked (.fault 0))] }

theorem witness_TheHostControlsContexts_faults :
    windowOpen faulted 0 = true ∧ getCtx faulted 1 = some faultedX ∧ faultedX.part = 0 ∧
    (∀ op ∈ [0, 0x10000], asidField (ctl op) = 1 ∧ bits (ctl op).toNat 15 0 = 0) ∧ faultedX.faults.find? (fun e => e.fid = 0) = some fault0 ∧
    (ctl 0).getLsbD 16 = false ∧ (ctl 0x10000).getLsbD 16 = true ∧ (∀ e ∈ faultedX.faults, e.fid ≠ bits (ctl 1).toNat 15 0) ∧
    getCourse faulted 0 0 = some (parked (.fault 0)) ∧ getPath (parked (.fault 0)) 0 = some { path0 with park := .fault 0 } :=
  ⟨by decide +kernel, rfl, rfl, by decide +kernel, rfl, by decide +kernel, by decide +kernel, by decide +kernel, rfl, rfl⟩

/-- Context 2 with a launch of PRIO 1 that has blocks to place. -/
def context2 : Context := { probeContext with asid := 2 }

def rivalJob (holding : Bool) : Job := { probeJob with asid := 2, words := probeWords.set 0 0x101#32, placed := 0, holding := holding }

/-- The bench, whose slice is 1 us, at 1 us, with that rival, and a rival of context 1 since this time. -/
def rivalX (since : Option Nat) : Context := { probeContext with rivalSince := since }

def rivals (holding : Bool) (since : Option Nat) : State :=
  { withPart bench1 (fun p => { p with ptimeIn := 1 }) with
    now := 1000, contexts := [(1, rivalX since), (2, context2)], jobs := [(0, probeJob), (1, rivalJob holding)] }

/-- The bench's context as it is being saved, with its path held. -/
def savingX : Context := { probeContext with state := .saving }

def saving : State :=
  { bench1 with contexts := [(1, savingX)], courses := [(0, { course0 with path0 := some { path0 with held := true } })] }

/-- A context that is being saved with no block left, whose rubbing has room for `n` bytes. -/
def savingIdle (n : Nat) : State := { quiet with contexts := [(1, { savingX with
  rubSize := BitVec.ofNat 64 n })] }

/-- A saved block without courses, of a launch without local store, and its context. -/
def ghost : SavedBlock :=
  { ordinal := 0, job := 0, done := false, slots := [], step := none, idle := 0, sums0 := [], sums1 := [], estimate := none, ran := 0,
    commands := [], paths := [], tapes := [] }

def savedCtx (l : List SavedBlock) : Context := { probeContext with state := .saved, saved := l }

def ghostJob : Job := { probeJob with words := probeWords.set 12 0 }

/-- The rubbing of these saved blocks, in no chunk, or in one. -/
def rubbing (l : List SavedBlock) (n : Nat) : List Byte :=
  rubbingHeader (savedCtx l) 0 (List.replicate n { index := 0, seq := 0, count := 0, payload := [], pred := [] }) l.length 0

/-- The bench with that rubbing, whose chunk is lost with its header. -/
def rubbed (l : List SavedBlock) (n : Nat) : State :=
  { quiet with contexts := [(1, savedCtx l)], jobs := [(0, ghostJob)], devPoison := [(0x200020 / 32, true)]
               dev := quiet.dev ++ (sparse 0 (rubbing l n)).map (fun e => (e.1 + 0x200000, e.2)) }

/-- What a check of a result shows of it. -/
theorem ok_of {α β : Type} {f : Except β α} {p : α → Bool} (h : (match f with
    | .ok l => p l
    | .error _ => false) = true) : ∃ l, f = .ok l ∧ p l = true := by
  cases f with
  | ok l => exact ⟨l, rfl, h⟩
  | error e => cases h

theorem err_of {α β : Type} {f : Except β α} (h : f.toOption.isSome = false) : ∃ e, f = .error e := by
  cases f with
  | ok l => cases h
  | error e => exact ⟨e, rfl⟩

def roomX (n : Nat) : Context := { savingX with rubSize := BitVec.ofNat 64 n }

/-- What is left to write of a save with no block, and with such room. -/
def writing (n : Nat) : State :=
  touchRubbing (encodeBlocks ((ctxBlocks (savingIdle n) 1).foldl (fun s e => drainCore s e.2.core) (savingIdle n)) 1) (roomX n)

theorem witness_SavesGiveCoresUpAndTakeThemBack :
    (∀ t ∈ [none, some 0, some 500], getCtx (rivals false t) 1 = some (rivalX t) ∧ (rivalX t).asid = 1 ∧
      rivalled (rivals false t) (rivalX t) = true ∧ sliceOver (rivals false t) (rivalX t) = decide (t = some 0) ∧
      QuietContext (rivals false t) 1) ∧
    rivalled bench1 probeContext = false ∧ sliceOver bench1 probeContext = false ∧
    (preemptNow (rivals true none) (rivalX none).part).map (·.asid) = some 1 ∧ QuietContext (rivals true none) 1 ∧
    (preemptNow bench1 probeContext.part).map (·.asid) ≠ some 1 ∧ probeContext.state ≠ .saving ∧
    getCtx saving 1 = some savingX ∧ savingX.state = .saving ∧ QuietContext (inState .saving) 1 ∧
    saveReady (inState .saving) savingX = false ∧
    (∀ n ∈ [0, 4096], getCtx (savingIdle n) 1 = some (roomX n) ∧ saveReady (savingIdle n) (roomX n) = true ∧
      rubbingOf (writing n) (roomX n) = .ok [] ∧ (writeRubbing (writing n) (roomX n) []).1 = if n = 0 then some 0 else none) ∧
    restoreNow bench1 probeContext = none := by
  have q : ∀ b t, QuietContext (rivals b t) 1 := fun _ _ => quietOne _ course0 path0 _ rfl rfl rfl ⟨rfl, rfl, rfl⟩
  refine ⟨?_, by decide +kernel, by decide +kernel, by decide +kernel, q _ _, by decide +kernel, by decide +kernel, rfl, rfl,
    inState_quiet _, by decide +kernel, ?_, by decide +kernel⟩
  · intro t h
    refine ⟨rfl, rfl, ?_, ?_, q _ _⟩ <;>
      (simp only [List.mem_cons, List.not_mem_nil, or_false] at h; rcases h with rfl | rfl | rfl <;> decide +kernel)
  · intro n h
    refine ⟨rfl, ?_, ?_, ?_⟩ <;>
      (simp only [List.mem_cons, List.not_mem_nil, or_false] at h; rcases h with rfl | rfl) <;> rfl

/-- A rubbing that does not read, at a save and at a restore, and one that reads with no block. -/
theorem witness_SavesGiveCoresUpAndTakeThemBack_faults :
    (let x := { roomX 0 with saved := [ghost] }
     let s := { quiet with contexts := [(1, x)], jobs := [(0, ghostJob)] }
     getCtx s 1 = some x ∧ saveReady s x = true ∧
       ∃ e, rubbingOf (touchRubbing (encodeBlocks ((ctxBlocks s 1).foldl (fun s e => drainCore s e.2.core) s) 1) x) x = .error e) ∧
    (let x := { savedCtx [] with rubSize := 0 }
     x.state = .saved ∧ x.hostSaved = false ∧ x.saved = [] ∧ ∃ e, readRubbing (touchRubbing quiet x) x = .error e) ∧
    (savedLaunches (rubbed [ghost] 0) (savedCtx [ghost]) ≠ [] ∧
      ∃ e, readRubbing (touchRubbing (rubbed [ghost] 0) (savedCtx [ghost])) (savedCtx [ghost]) = .error e) ∧
    ∃ l, readRubbing (touchRubbing (rubbed [] 0) (savedCtx [])) (savedCtx []) = .ok l ∧ l.isEmpty = true :=
  ⟨⟨rfl, by decide +kernel, err_of (by decide +kernel)⟩, ⟨rfl, rfl, rfl, err_of (by decide +kernel)⟩, ⟨by decide +kernel, err_of (by decide +kernel)⟩, ok_of (by decide +kernel)⟩

theorem witness_SavesGiveCoresUpAndTakeThemBack_restored :
    getCtx (rubbed [ghost] 1) 1 = some (savedCtx [ghost]) ∧ (savedCtx [ghost]).asid = 1 ∧
    savedLaunches (rubbed [ghost] 1) (savedCtx [ghost]) = [(0, ghostJob)] ∧ getJob (rubbed [ghost] 1) 0 = some ghostJob ∧
    savedNext (setCtx (rubbed [ghost] 1) 1 { savedCtx [ghost] with restored := some (1, false) }) 0 ghostJob = [ghost] ∧
    ∃ l i m, readRubbing (touchRubbing (rubbed [ghost] 1) (savedCtx [ghost])) (savedCtx [ghost]) = .ok l ∧
      l.filter (fun e => e.1.ordinal = ghost.ordinal) = [(ghost, i)] ∧ i.cmds = [] ∧ i.kill = [] ∧ i.courses = [] ∧
      chooseCore (setCtx (rubbed [ghost] 1) 1 { savedCtx [ghost] with restored := some (1, false) }) ghostJob = some m := by
  refine ⟨rfl, rfl, by decide +kernel, rfl, by decide +kernel, ?_⟩
  obtain ⟨l, h, hp⟩ := ok_of (f := readRubbing (touchRubbing (rubbed [ghost] 1) (savedCtx [ghost])) (savedCtx [ghost]))
    (p := fun l => match l with
      | [(g, i)] => g == ghost && i.cmds.isEmpty && i.kill.isEmpty && i.courses.isEmpty
      | _ => false) (by decide +kernel)
  obtain ⟨m, hm⟩ := Option.isSome_iff_exists.1 (show (chooseCore (setCtx (rubbed [ghost] 1) 1
    { savedCtx [ghost] with restored := some (1, false) }) ghostJob).isSome = true by decide +kernel)
  split at hp
  · rename_i g i
    simp only [Bool.and_eq_true, beq_iff_eq, List.isEmpty_iff] at hp
    obtain ⟨⟨⟨rfl, hc⟩, hk⟩, hi⟩ := hp
    exact ⟨_, i, m, h, rfl, hc, hk, hi, hm⟩
  · cases hp
/-! ### Witnesses: the links -/

/-- A lane that sends, or is stopped until this time, with one flit waiting and one sent. -/
def laneAt (t : Nat) (w : List Nat) : Lane := { Lane.reset with pausedUntil := t, waiting := w, replay := [7] }

/-- Nothing runs, at 10 us, with this lane of port 2. -/
def laned (l : Lane) : State := { quiet with now := 10000, lanes := [(laneKey 2 1, l)] }

/-- A lane that pauses its sender, last at this time, with this occupancy. -/
def pausingAt (occ last : Nat) : Lane := { Lane.reset with occupancy := occ, pausing := true, lastPause := last }

theorem witness_TheLinksAct :
    (∀ l, getLane (laned l) 2 1 = l) ∧ (2#5).toNat < 18 ∧
    ((laneAt 0 []).pausedUntil = 0 ∧ (laned Lane.reset).now < (laneAt 12000 [8]).pausedUntil ∧ (laneAt 9000 [8]).pausedUntil ≠ 0 ∧
      (laneAt 9000 [8]).pausedUntil ≤ (laned Lane.reset).now ∧ (laneAt 0 []).waiting = [] ∧ (laneAt 9000 [8]).waiting ≠ []) ∧
    ((pausingAt 16385 9000).pausing = true ∧ 16384 < (pausingAt 16385 9000).occupancy ∧
      (pausingAt 16385 9000).lastPause + 1000 ≤ (laned Lane.reset).now ∧ Lane.reset.pausing = false ∧
      (pausingAt 16384 0).occupancy ≤ 16384 ∧ (laned Lane.reset).now < (pausingAt 16385 9001).lastPause + 1000) ∧
    (∀ pa ∈ [0, 2 ^ 39 - 8], (BitVec.ofNat 39 pa).toNat + 8 ≤ 2 ^ 39 ∧
      (BitVec.ofNat 39 pa).toNat + (List.replicate 8 1#8).length ≤ 2 ^ 39) ∧
    quiet.phase = 4 ∧ allGood quiet = true ∧ State.reset.phase ≠ 4 := by
  refine ⟨fun l => rfl, by decide, by decide, by decide, by decide, rfl, by decide +kernel, by decide⟩

/-! ### Witnesses: remote devices -/

/-- Nothing runs, with three words of device memory, whose sectors from 0x5020 on are poisoned. -/
def remoteMem : State := { withDev quiet 0x5000 (bytesOfNat 4 9) with devPoison := [(0x5020 / 32, true)] }

theorem witness_RemoteDevicesAskAndRecover :
    State.reset.phase ≠ 4 ∧ remoteMem.phase = 4 ∧ allGood remoteMem = true ∧
    (hubPois remoteMem 1 0x5000 4).isSome = true ∧ hubPois remoteMem 2 0x5000 4 = none ∧
    (remoteCells remoteMem 1 0x5000 [0] [1, 2]).isSome = true ∧ remoteCells remoteMem 2 0x5000 [] [1] = none ∧
    (∀ n ∈ [4, 8], remoteHome remoteMem 1 0x5000 n = some (.dev 0x5000) ∧ remoteHome remoteMem 1 0x5001 n = none ∧
      remoteHome remoteMem 1 0x5020 n = some (.dev 0x5020) ∧ homePoisoned remoteMem (.dev 0x5000) n = false ∧
      homePoisoned remoteMem (.dev 0x5020) n = true) ∧
    (∃ v, atomNew .cas 9 1 9 = some v) ∧ atomNew .cas 8 1 9 = none := by
  refine ⟨by decide +kernel, by decide +kernel, by decide +kernel, by decide +kernel, by decide +kernel, by decide +kernel,
    by decide +kernel, by decide +kernel, ⟨1, by decide +kernel⟩, by decide +kernel⟩

/-- The bench with a load of its path sent to device 5, which recovers until 20 us. -/
def recoveringAt (now : Nat) : State :=
  { asked (withCourse (parked .remote) block0) (.lane 0 0 0 0 0) with now := now, recovering := [(5, 20000)] }

theorem witness_RemoteDevicesAskAndRecover_recovery :
    (∃ dev : BitVec 14, dev.toNat ≠ Config.ownDevice) ∧ cget 0 (recoveringAt 0).recovering 4 = 0 ∧
    cget 0 (recoveringAt 0).recovering (5#14).toNat = 20000 ∧ (recoveringAt 0).now < 20000 ∧ 20000 ≤ (recoveringAt 20000).now ∧
    ((recoveringAt 20000).remotes.map (·.1)).Nodup ∧
    ∀ e ∈ (recoveringAt 20000).remotes, e.2.device = (5#14).toNat → e.2.owner = .lane 0 0 0 0 0 := by
  refine ⟨?_, by decide +kernel, by decide +kernel, by decide, by decide, by decide, ?_⟩
  · by_cases h : Config.ownDevice = 0
    · exact ⟨1, by rw [h]; decide⟩
    · exact ⟨0, fun e => h e.symm⟩
  · intro e h _
    rw [List.mem_singleton.1 h]
/-! ### Witnesses: clocks, rails, the watchdog and partitions -/

/-- Nothing runs, at this time, and cluster 0 is this one. -/
def clocked (now : Nat) (c : Cluster) : State := { quiet with now := now, clusters := [(0, c)] }

/-- The bench, whose block made its latest progress at 0, at this time. -/
def barking (now : Nat) : State := { bench1 with now := now, blocks := [(0, { block0 with lastProgress := 0 })] }

theorem witness_ClocksRailsAndTheWatchdogAct :
    (∀ now c, getCluster (clocked now c) 0 = c) ∧
    (Cluster.reset.raise = none ∧ Cluster.reset.stretched = false ∧ { Cluster.reset with stretched := true }.stretched = true ∧
      Cluster.reset.offset = 0 ∧ (0 : Nat) + 60000000000 ≤ (clocked 60000000000 Cluster.reset).now ∧
      (clocked 9 Cluster.reset).now < 0 + 60000000000) ∧
    (∀ m ∈ [quiet, State.reset], m.now < { m with nextInterval := m.now + 1 }.nextInterval ∧
      { m with nextInterval := m.now }.nextInterval ≤ m.now ∧ m.now < { m with nextWindow := m.now + 1 }.nextWindow ∧
      { m with nextWindow := m.now }.nextWindow ≤ m.now ∧ m.now < { m with nextWatchdog := m.now + 1 }.nextWatchdog ∧
      { m with nextWatchdog := m.now }.nextWatchdog ≤ m.now) ∧
    quiet.phase = 4 ∧ State.reset.phase ≠ 4 ∧
    (clusterPart quiet 0 = some 0 ∧ clusterPart quiet 23 = none ∧ holdsStep quiet 0 = false ∧
      holdsStep { bench1 with blocks := [(0, { block0 with step := some 1 })] } 0 = true) ∧
    (bits (2 : Double).toNat 1 0 ≠ bits quiet.railmap.toNat 1 0 ∧ bits (2 : Double).toNat 47 46 = bits quiet.railmap.toNat 47 46 ∧
      (∃ e ∈ bench1.blocks, coreCluster e.2.core = 0) ∧ quiet.blocks = []) ∧
    (hungBlock (barking 2000000000) 0 { block0 with lastProgress := 0 } = true ∧
      hungBlock (barking 1999999999) 0 { block0 with lastProgress := 0 } = false ∧
      getCtx (barking 2000000000) 1 = some probeContext ∧ block0.asid = 1 ∧ probeContext.asid = 1 ∧
      (barking 2000000000).nextWatchdog ≤ (barking 2000000000).now) := by
  refine ⟨fun _ _ => rfl, by decide, fun m _ => by simp, by decide +kernel, by decide +kernel, by decide +kernel, by decide +kernel,
    by decide +kernel⟩

/-- Nothing runs, with partition 0 as this one. -/
def parted (q : Partition) : State := { quiet with partitions := [(0, q)] }

/-- A partition that has cluster 1, counters 0 to 15 and 16 pages. -/
def partHas (en : Double) : Partition :=
  { probePartition with pctl := en + 2#64, pres := 0x100000#64, pmem := 0x0000001000000000#64 }

/-- The same asked for beside partition 1, which has it. -/
def contested : State := { quiet with partitions := [(0, partHas 0), (1, partHas 0x8000000000000000#64)] }

theorem witness_PartitionsAndTheirRegistersAct :
    (let v := 0x8000000000000001#64
     v.getLsbD 63 = true ∧ (2#64).getLsbD 63 = false ∧ (getPart (parted (partHas 0)) 0).pctl.getLsbD 63 = false ∧
     (getPart (parted (partHas 0x8000000000000000#64)) 0).pctl.getLsbD 63 = true ∧ v.getLsbD 0 = true ∧ (2#64).getLsbD 0 = false) ∧
    (let q := getPart (parted (partHas 0)) 0
     (∃ k, k < 24 ∧ (0x8000000000000002#64).getLsbD k = true) ∧ (parted (partHas 0)).blocks = [] ∧
     (∀ p ∈ [1, 2, 3, 4, 5, 6, 7], (getPart (parted (partHas 0)) p).pctl.getLsbD 63 = false) ∧
     bits q.pres.toNat 15 0 + bits q.pres.toNat 32 16 ≤ 65536 ∧ bits q.pmem.toNat 22 0 + bits q.pmem.toNat 55 32 ≤ 8388608) ∧
    ((getPart contested 0).pctl.getLsbD 63 = false ∧ (getPart contested 1).pctl.getLsbD 63 = true ∧
      (0x8000000000000002#64).getLsbD 1 = true ∧ (getPart contested 1).pctl.getLsbD 1 = true) ∧
    ((getPart (parted (partHas 0x8000000000000000#64)) 0).pstate ≠ 2 ∧ quiet.jobs = [] ∧ allGood quiet = true ∧
      (getPart (parted { partHas 0 with pstate := 2 }) 0).pstate = 2 ∧ ∃ e ∈ bench1.blocks, e.2.part = 0) ∧
    (∀ off ∈ [0x10, 0x40, 0x1000, 0x1FF8, 0x108, 0x110, 0x118, 0x120, 0x128, 0x140, 0x148, 0x1000020, 0x1000108, 0x1000100],
      (BitVec.ofNat 26 off).toNat = off ∧ off % 8 = 0) ∧ (BitVec.ofNat 26 4).toNat % 8 ≠ 0 ∧
    (∀ v : Nat, v ∈ [0, 7] → (bits (BitVec.ofNat 64 v).toNat 7 0 = 0 ∨ 6 < bits (BitVec.ofNat 64 v).toNat 7 0)) ∧
    windowOpen quiet 0 = true ∧ windowOpen quiet 1 = false := by
  refine ⟨by decide +kernel, ⟨⟨1, by decide +kernel⟩, rfl, by decide +kernel, by decide +kernel, by decide +kernel⟩, by decide +kernel,
    by decide +kernel, by decide +kernel, by decide +kernel, by decide +kernel, by decide +kernel, by decide +kernel⟩
/-! ### Witnesses: the resilience of device memory, the controller and power -/

/-- Nothing runs, and the members 0 and 1 of unit 0 stand on dead channels. -/
def deadTwo : State := { quiet with health := [(32, .dead), (33, .dead)] }

/-- The rebuild of member 0 that comes first. -/
def rebuild0 (n : Nat) : Rebuild := ⟨0, 0, 0, n⟩

theorem witness_MemoryPartsFailAndAreMended :
    (let ok (v : Double) : Prop := v.getLsbD 63 = true ∧ bits v.toNat 62 39 = 0 ∧ bits v.toNat 4 0 = 0
     ok 0x8000000000005020#64 ∧ ¬ ok 0x8000000000005021#64 ∧ ok 0x8000007FFFFFFFE0#64) ∧ allGood quiet = true ∧
    (let acts (v : Double) (kind : Nat) : Prop := v.getLsbD 63 = true ∧ bits v.toNat 62 60 = kind ∧ bits v.toNat 59 19 = 0 ∧
       bits v.toNat 3 0 = 0 ∧ bits v.toNat 18 10 < 320
     (∀ kind ∈ [0, 1, 2, 3, 4], acts (BitVec.ofNat 64 (2 ^ 63 + kind * 2 ^ 60 + 319 * 2 ^ 10 + 2 ^ 9)) kind) ∧
       ¬ acts (BitVec.ofNat 64 (2 ^ 63 + 320 * 2 ^ 10)) 0 ∧ ¬ acts 0x8000000000000000#64 1) ∧
    (320 ≤ (320#9).toNat ∧ (319#9).toNat < 320) ∧
    (nextRetrain quiet = none ∧ nextRetrain { quiet with dueNow := [(3, true)] } = some 3) ∧
    (quiet.retraining = none ∧ (let s := { quiet with retraining := some (3, 0), now := 4000000 }
      (0 : Nat) + 4000000 ≤ s.now ∧ { s with now := 3999999 }.now < 0 + 4000000)) ∧
    State.reset.phase ≠ 4 ∧ quiet.phase = 4 ∧ nextRebuild quiet = none := by
  decide +kernel

theorem witness_MemoryPartsFailAndAreMended_rebuild :
    deadTwo.phase = 4 ∧ nextRebuild deadTwo = some (rebuild0 0) ∧ lostCount deadTwo 0 0 < 3 ∧ spanClean deadTwo 0 0 = true ∧
    memberLost deadTwo 0 0 0 = true ∧
    (∀ n ∈ [127, 128], nextRebuild { deadTwo with rebuild := some (rebuild0 n) } = some (rebuild0 n)) ∧
    (let s := { deadTwo with rebuild := some (rebuild0 128) }
     rebuildStands s (rebuild0 128) = true ∧ memberField s 0 0 = some 0 ∧ rebuildStands quiet (rebuild0 128) = false) ∧
    (let s := { quiet with stale := [(slotKey 32 0, true)] }
     staleSlot quiet = none ∧ doubleLoss deadTwo ≠ none ∧ staleSlot s = some (slotKey 32 0) ∧ doubleLoss s = none) := by
  decide +kernel

/-- Nothing runs, with a pass of a minute begun at 0, at this time. -/
def scrubbing (now : Nat) : State := { quiet with memctl := 0x0001080000000000#64, now := now }

theorem witness_MemoryPartsFailAndAreMended_scrub :
    scrubGoal (scrubbing 0) ≤ (scrubbing 0).scrubAt ∧ (scrubbing 1000).scrubAt < scrubGoal (scrubbing 1000) ∧
    allGood (scrubbing 1000) = true ∧
    (let s := { scrubbing 1000 with bankDead := [(5, true)] }
     s.scrubAt < scrubGoal s ∧ allGood s = false ∧ s.scrubAt / 128 < 8388608 ∧ spanClean s 0 0 = true ∧
     ∀ i, i < 18 → sectorClean s (memberChannel s 0 i) (unitSlot 0) 0 = true) := by
  decide +kernel

theorem witness_TheControllerAndPowerAct :
    (∀ op ∈ [1, 2, 3, 4, 5, 6], ∀ len ∈ [0, 32, 4096, 4097],
      bits (BitVec.ofNat 64 (len * 2 ^ 48 + op)).toNat 7 0 = op ∧ bits (BitVec.ofNat 64 (len * 2 ^ 48 + op)).toNat 63 48 = len) ∧
    imageVerifies quiet.staged = false ∧
    quiet.powered = true ∧ { quiet with powered := false }.powered = false ∧ 4 ≤ quiet.phase ∧
    (let cold := { quiet with phase := 2, temps := [(0, -1)] }
     cold.phase = 2 ∧ lowestTemp cold < 0) ∧
    ∀ n ∈ [0, 1, 2, 3], { quiet with phase := n }.powered = true ∧ { quiet with phase := n }.phase = n ∧
      0 ≤ lowestTemp { quiet with phase := n } := by
  refine ⟨by decide +kernel, rfl, by decide +kernel, by decide, by decide +kernel, by decide +kernel, by decide +kernel⟩

end Sys2Proof.Tests
end

/-!
SUPPORT and PROOF. Partitions: the reset of one, the writes that enable and disable it, and the registers written (R6, R392,
R393).
-/

namespace Sys2Proof.Machine

/-! ### Tables whose entries are left out or rewritten -/

section Tables

variable {α : Type}

/-- A rewriting that keeps every key is read through. -/
theorem find?_map_of_keys {f : Nat × α → Nat × α} (hf : ∀ e, (f e).1 = e.1) (m : Assoc α) (k : Nat) :
    find? (m.map f) k = (find? m k).map (fun v => (f (k, v)).2) := by
  induction m with
  | nil => rfl
  | cons e t ih =>
    obtain ⟨a, v⟩ := e
    have ha : (f (a, v)).1 = a := hf (a, v)
    rw [List.map_cons, show f (a, v) = (a, (f (a, v)).2) from Prod.ext ha rfl]
    by_cases h : a = k
    · subst h; simp [find?]
    · simp [find?, h, ih]

/-- An entry that is not left out is still found. -/
theorem find?_filter_of_kept {f : Nat × α → Bool} {m : Assoc α} {k : Nat} {v : α} (h : find? m k = some v)
    (hf : f (k, v) = true) : find? (m.filter f) k = some v := by
  induction m with
  | nil => exact h
  | cons e t ih =>
    obtain ⟨a, w⟩ := e
    by_cases ha : a = k
    · subst ha
      obtain rfl : w = v := by simpa [find?] using h
      simp [hf, find?]
    · have ht : find? t k = some v := by simpa [find?, ha] using h
      cases hw : f (a, w) <;> simp [hw, find?, ha, ih ht]

/-- Leaving entries out by their keys alone is seen at those keys alone. -/
theorem find?_filter_keys (f : Nat → Bool) (m : Assoc α) (k : Nat) :
    find? (m.filter (fun e => f e.1)) k = if f k then find? m k else none := by
  induction m with
  | nil => simp [find?]
  | cons e t ih =>
    obtain ⟨a, w⟩ := e
    by_cases ha : a = k
    · subst ha; cases hf : f a <;> simp [hf, find?, ih]
    · cases hf : f a <;> simp [hf, find?, ha, ih]

end Tables

/-! ### Memory that reads as before -/

theorem SameMemory.refl (s : State) : SameMemory s s := .of_eq rfl rfl rfl

theorem SameMemory.trans {a b c : State} (h : SameMemory a b) (g : SameMemory b c) : SameMemory a c := by
  obtain ⟨hdev, hhost, hloc⟩ := h
  obtain ⟨gdev, ghost, gloc⟩ := g
  exact ⟨fun i => (gdev i).trans (hdev i), fun i => (ghost i).trans (hhost i), fun k i => (gloc k i).trans (hloc k i)⟩

/-! ### The blocks of a partition go (R388, R393) -/

/-- A course of a block is emptied where the block is chosen. -/
theorem getCourse_emptyBlocks {s : State} {b c : Nat} {y : Block} (q : Nat → Block → Bool) (hb : getBlock s b = some y)
    (hc : c < 32) : getCourse (emptyBlocks s q) b c =
      if q b y then (getCourse s b c).map emptyCourse else getCourse s b c := by
  have hk : courseKey b c / 32 = b := by unfold courseKey; omega
  refine (find?_map_of_keys (fun e => ?_) s.courses (courseKey b c)).trans ?_
  · split
    · split <;> rfl
    · rfl
  · simp only [hk, hb]
    cases q b y <;> simp [getCourse]

theorem getCourse_dropBlocks {s : State} {b c : Nat} {y : Block} (p : BitVec 3) (hb : getBlock s b = some y) (hc : c < 32) :
    getCourse (dropBlocks s p) b c = if y.part = p then (getCourse s b c).map emptyCourse else getCourse s b c := by
  have h : getCourse (dropBlocks s p) b c = _ := getCourse_emptyBlocks (fun _ y => y.part == p) hb hc
  rw [h]
  simp only [beq_iff_eq]

/-- No block is gone from its core yet, and none has another local store. -/
theorem dropBlocks_sameMemory (s : State) (p : BitVec 3) : SameMemory s (dropBlocks s p) := by
  refine ⟨fun _ => rfl, fun _ => rfl, fun b a => ?_⟩
  have h : getBlock (dropBlocks s p) b = _ := find?_map_of_keys (fun e => by split <;> rfl) s.blocks b
  rw [h, Option.map_map]
  refine congrArg (fun f => Option.map f (getBlock s b)) (funext fun y => ?_)
  dsimp only [Function.comp]
  split <;> rfl

/-! ### The work of a partition (R393) -/

/-- `t` has the launches, counters, contexts, courses and blocks of `s`, leaves the state of partition `p` as it is, and
changes no byte of memory where none of it is lost. -/
structure KeepsWork (p : BitVec 3) (s t : State) : Prop where
  jobs : t.jobs = s.jobs
  counters : t.counters = s.counters
  contexts : t.contexts = s.contexts
  courses : t.courses = s.courses
  blocks : t.blocks = s.blocks
  pstate : (getPart t p).pstate = (getPart s p).pstate
  memory : allGood s = true → allGood t = true ∧ SameMemory s t

namespace KeepsWork

variable {p : BitVec 3} {s t u : State}

theorem refl (p : BitVec 3) (s : State) : KeepsWork p s s := ⟨rfl, rfl, rfl, rfl, rfl, rfl, fun h => ⟨h, .refl s⟩⟩

theorem trans (h : KeepsWork p s t) (g : KeepsWork p t u) : KeepsWork p s u where
  jobs := g.jobs.trans h.jobs
  counters := g.counters.trans h.counters
  contexts := g.contexts.trans h.contexts
  courses := g.courses.trans h.courses
  blocks := g.blocks.trans h.blocks
  pstate := g.pstate.trans h.pstate
  memory hs := by
    obtain ⟨ht, hst⟩ := h.memory hs
    obtain ⟨hu, htu⟩ := g.memory ht
    exact ⟨hu, hst.trans htu⟩

theorem foldl {α : Type} {f : State → α → State} (l : List α) (s : State) (hf : ∀ e ∈ l, ∀ s, KeepsWork p s (f s e)) :
    KeepsWork p s (l.foldl f s) := by
  induction l generalizing s with
  | nil => exact refl p s
  | cons a l ih =>
    exact (hf a List.mem_cons_self s).trans (ih _ fun e he => hf e (List.mem_cons_of_mem _ he))

end KeepsWork

theorem setQueue_keepsWork (p r : BitVec 3) (s : State) (q : Nat) (k : Queue) : KeepsWork p s (setQueue s r q k) :=
  ⟨rfl, rfl, rfl, rfl, rfl, rfl, fun h => ⟨h, .of_eq rfl rfl rfl⟩⟩

/-- A write of a partition's registers that leaves its state as it is. -/
theorem setPart_keepsWork (s : State) (p : BitVec 3) {k : Partition} (h : k.pstate = (getPart s p).pstate) :
    KeepsWork p s (setPart s p k) :=
  ⟨rfl, rfl, rfl, rfl, rfl, by rw [getPart_setPart_self, h], fun hg => ⟨hg, .of_eq rfl rfl rfl⟩⟩

theorem dropClosed_keepsWork (p : BitVec 3) (s : State) (a : BitVec 16) : KeepsWork p s (dropClosed s a) := by
  unfold dropClosed
  split
  · exact .refl p s
  · split
    · exact ⟨rfl, rfl, rfl, rfl, rfl, rfl, fun h => ⟨h, .of_eq rfl rfl rfl⟩⟩
    · exact .refl p s

theorem hubTouch_keepsWork (p : BitVec 3) (s : State) (a : BitVec 16) (va n : Nat) : KeepsWork p s (hubTouch s a va n) := by
  have h := (hubTouch_homeOnly s a va n).onlyMemory
  refine ⟨h.jobs, ?_, h.contexts, h.courses, h.blocks, ?_, fun hg => ?_⟩
  · rw [h]
  · rw [getPart, h.partitions, ← getPart]
  · have hs := hubTouch_slicesOnly hg a va n
    exact ⟨hs.allGood.trans hg, hs.sameMemory⟩

theorem queueError_keepsWork (s : State) (p : BitVec 3) (cause q slot : Nat) :
    KeepsWork p s (queueError s p cause q slot true) := by
  refine ⟨rfl, rfl, rfl, rfl, rfl, ?_, fun h => ⟨h, .of_eq rfl rfl rfl⟩⟩
  exact (congrArg Partition.pstate (getPart_setPart_self s p _)).trans rfl

/-- The halt of a queue, other than the submission list of a context. -/
theorem haltQueue_keepsWork (s : State) (p : BitVec 3) (a : BitVec 16) {q : Nat} (slot cause : Nat) (hq : q < 256) :
    KeepsWork p s (haltQueue s p a q slot cause) := by
  unfold haltQueue
  dsimp only
  rw [if_pos hq]
  split
  · exact (queueError_keepsWork ..).trans (setQueue_keepsWork ..)
  · exact queueError_keepsWork ..

theorem rearmQueue_keepsWork (s : State) (p : BitVec 3) {q : Nat} (k : Queue) (hq : q < 256) :
    KeepsWork p s (rearmQueue s p q k) := by
  have touched := hubTouch_keepsWork p s k.asid (k.desc.toNat + 0x10) 16
  unfold rearmQueue
  dsimp only
  split
  · exact touched.trans ((setQueue_keepsWork ..).trans (haltQueue_keepsWork _ _ _ _ _ hq))
  · exact touched.trans ((setQueue_keepsWork ..).trans (haltQueue_keepsWork _ _ _ _ _ hq))
  · exact touched.trans (setQueue_keepsWork ..)

theorem partQueues_number_lt {s : State} {p : BitVec 3} {e : Nat × Queue} (h : e ∈ partQueues s p) : e.1 < 256 := by
  obtain ⟨x, _, rfl⟩ := List.mem_map.mp h
  exact Nat.mod_lt _ (by decide)

/-! ### The reset of a partition (R393) -/

/-- A packet that has not started has nothing to settle. -/
theorem settleJob_unstarted {s : State} {id : Nat} (h : ∀ j, getJob s id = some j → j.started = false) :
    settleJob s id = s := by
  unfold settleJob
  split
  · rfl
  · rename_i j hj
    simp [h j hj]

theorem settleJobs_unstarted {s : State} {p : BitVec 3} (l : List (Nat × Job))
    (h : ∀ e ∈ l, e.2.part = p → ∀ j, getJob s e.1 = some j → j.started = false) :
    l.foldl (fun (s : State) e => if e.2.part == p then settleJob s e.1 else s) s = s := by
  induction l with
  | nil => rfl
  | cons a l ih =>
    have ha : (if a.2.part == p then settleJob s a.1 else s) = s := by
      split
      · exact settleJob_unstarted (h a List.mem_cons_self (beq_iff_eq.mp ‹_›))
      · rfl
    rw [List.foldl_cons, ha]
    exact ih fun e he => h e (List.mem_cons_of_mem _ he)

/-- The tables once the work of a partition is dropped, before its queues are re-armed (R393, steps 1 to 3). -/
def resetTables (s : State) (p : BitVec 3) : State :=
  let part := getPart s p
  { setPart (dropBlocks s p) p { part with pstate := 2, qerr := 0 } with
    jobs := s.jobs.filter (fun e => e.2.part != p)
    contexts := s.contexts.map (fun e => if e.2.part == p then (e.1, resetContext e.2) else e)
    counters := s.counters.filter (fun e => !(decide (ctrBase part ≤ e.1) && decide (e.1 < ctrBase part + ctrCount part))) }

/-- Where no packet has started, what follows the dropped work closes and re-arms queues. -/
theorem resetPartition_keepsWork {s : State} {p : BitVec 3}
    (h : ∀ e ∈ s.jobs, e.2.part = p → ∀ j, getJob s e.1 = some j → j.started = false) :
    KeepsWork p (resetTables s p) (resetPartition s p) := by
  unfold resetPartition
  rw [settleJobs_unstarted s.jobs h]
  refine KeepsWork.trans (KeepsWork.foldl _ (resetTables s p) fun e _ t => ?_)
    (KeepsWork.foldl _ _ fun e he t => rearmQueue_keepsWork t p e.2 (partQueues_number_lt he))
  split
  · exact dropClosed_keepsWork ..
  · exact .refl p t

theorem getJob_resetTables_of_part_ne {s : State} {p : BitVec 3} {id : Nat} {j : Job} (h : getJob s id = some j) (hp : j.part ≠ p) :
    getJob (resetTables s p) id = some j :=
  find?_filter_of_kept h (by simpa using hp)

theorem part_ne_of_getJob_resetTables {s : State} {p : BitVec 3} {id : Nat} {j : Job} (h : getJob (resetTables s p) id = some j) :
    j.part ≠ p := by
  have hm : (id, j) ∈ s.jobs.filter (fun e => e.2.part != p) := find?_mem h
  simpa using (List.mem_filter.mp hm).2

theorem getCounter_resetTables (s : State) (p : BitVec 3) (i : Nat) : getCounter (resetTables s p) i =
    if ctrBase (getPart s p) ≤ i ∧ i < ctrBase (getPart s p) + ctrCount (getPart s p) then Counter.free else getCounter s i := by
  have h : find? (resetTables s p).counters i = _ := find?_filter_keys (fun i => !(decide (ctrBase (getPart s p) ≤ i) &&
    decide (i < ctrBase (getPart s p) + ctrCount (getPart s p)))) s.counters i
  rw [getCounter, h]
  by_cases hi : ctrBase (getPart s p) ≤ i ∧ i < ctrBase (getPart s p) + ctrCount (getPart s p)
  · simp [hi]
  · simp only [← Bool.decide_and, hi, decide_false, Bool.not_false, if_true, if_false, getCounter]

theorem getCtx_resetTables {s : State} (p : BitVec 3) {a : BitVec 16} {x : Context} (h : getCtx s a = some x) :
    getCtx (resetTables s p) a = some (if x.part = p then resetContext x else x) := by
  have hm : getCtx (resetTables s p) a = (getCtx s a).map _ := find?_map_of_keys (fun e => by split <;> rfl) s.contexts a.toNat
  rw [hm, h, Option.map_some]
  by_cases hp : x.part = p <;> simp [hp]

theorem getCourse_resetTables {s : State} (p : BitVec 3) {b c : Nat} {y : Block} (hb : getBlock s b = some y) (hc : c < 32) :
    getCourse (resetTables s p) b c = if y.part = p then (getCourse s b c).map emptyCourse else getCourse s b c :=
  getCourse_dropBlocks p hb hc

theorem getPart_resetTables (s : State) (p : BitVec 3) :
    getPart (resetTables s p) p = { getPart s p with pstate := 2, qerr := 0 } :=
  getPart_setPart_self (dropBlocks s p) p _

/-- What a reset of partition `p` leaves of it: it is resetting, with no packet, no armed counter, its contexts created without
work and its courses empty; nothing of another partition changes (R393). -/
def PartitionCleared (s : State) (p : BitVec 3) (t : State) : Prop :=
  let inCounters (i : Nat) : Prop := ctrBase (getPart s p) ≤ i ∧ i < ctrBase (getPart s p) + ctrCount (getPart s p)
  (getPart t p).pstate = 2 ∧ (∀ id j, getJob t id = some j → j.part ≠ p) ∧
  (∀ id j, getJob s id = some j → j.part ≠ p → getJob t id = some j) ∧
  (∀ i, getCounter t i = if inCounters i then Counter.free else getCounter s i) ∧
  (∀ a x, getCtx s a = some x → getCtx t a = some (if x.part = p then resetContext x else x)) ∧
  (∀ b y c, getBlock s b = some y → c < 32 →
    getCourse t b c = if y.part = p then (getCourse s b c).map emptyCourse else getCourse s b c) ∧
  (allGood s = true → SameMemory s t)

/-- A machine with the work that a reset has left has what a reset leaves. -/
theorem PartitionCleared.of_keepsWork {s t : State} {p : BitVec 3} (h : KeepsWork p (resetTables s p) t) :
    PartitionCleared s p t := by
  refine ⟨h.pstate.trans (by rw [getPart_resetTables]), ?_, ?_, ?_, ?_, ?_, fun hg => ?_⟩
  · unfold getJob; rw [h.jobs]; exact fun _ _ => part_ne_of_getJob_resetTables
  · unfold getJob; rw [h.jobs]; exact fun _ _ => getJob_resetTables_of_part_ne
  · unfold getCounter; rw [h.counters]; exact getCounter_resetTables s p
  · unfold getCtx; rw [h.contexts]; exact fun _ _ => getCtx_resetTables p
  · unfold getCourse; rw [h.courses]; exact fun _ _ _ => getCourse_resetTables p
  · have tables : SameMemory s (resetTables s p) := (dropBlocks_sameMemory s p).trans (.of_eq rfl rfl rfl)
    exact tables.trans (h.memory hg).2

/-! ### The instructions that disable and reset a partition (R392, R393) -/

theorem resetting_iff {s : State} {p : BitVec 3} : resetting s p = true ↔ (getPart s p).pstate = 2 := beq_iff_eq

theorem exec_partitionReset (p : BitVec 3) (v : Double) (s : State) : exec (.partitionReset p v) s =
    .next (if v.getLsbD 0 && partEnabled (getPart s p) && !resetting s p then resetPartition s p else s) := rfl

/-- A reset that is not asked for, or of a partition that is not enabled or already resetting, changes nothing. -/
theorem exec_partitionReset_idle {p : BitVec 3} {v : Double} {s : State}
    (h : v.getLsbD 0 = false ∨ (getPart s p).pctl.getLsbD 63 = false ∨ (getPart s p).pstate = 2) :
    exec (.partitionReset p v) s = .next s := by
  rw [exec_partitionReset, if_neg]
  rw [Bool.and_eq_true, Bool.and_eq_true, Bool.not_eq_true', ← Bool.not_eq_true, resetting_iff, partEnabled]
  rintro ⟨⟨hv, hen⟩, hst⟩
  rcases h with h | h | h
  · exact absurd (h.symm.trans hv) Bool.false_ne_true
  · exact absurd (h.symm.trans hen) Bool.false_ne_true
  · exact hst h

theorem exec_partitionReset_resets {p : BitVec 3} {v : Double} {s : State} (hv : v.getLsbD 0 = true)
    (hen : (getPart s p).pctl.getLsbD 63 = true) (hst : (getPart s p).pstate ≠ 2) :
    exec (.partitionReset p v) s = .next (resetPartition s p) := by
  have hr : resetting s p = false := by rwa [← Bool.not_eq_true, resetting_iff]
  rw [exec_partitionReset, partEnabled, hv, hen, hr]
  rfl

theorem exec_pctlDisable_set {p : BitVec 3} {v : Double} {s : State} (hv : v.getLsbD 63 = true) :
    exec (.pctlDisable p v) s = .next s := if_pos hv

/-- EN clear where it is clear already: the clusters are written (R392). -/
theorem exec_pctlDisable_disabled {p : BitVec 3} {v : Double} {s : State} (hv : v.getLsbD 63 = false)
    (hen : (getPart s p).pctl.getLsbD 63 = false) : exec (.pctlDisable p v) s =
      .next (setPart s p { getPart s p with pctl := BitVec.ofNat 64 (bits v.toNat 23 0) }) := by
  show execPctlDisable p v s = _
  simp only [execPctlDisable, partEnabled, hv, hen, Bool.false_eq_true, if_false]

/-- EN is cleared: the partition is reset, and keeps its clusters (R392, R393). -/
theorem exec_pctlDisable_resets {p : BitVec 3} {v : Double} {s : State} (hv : v.getLsbD 63 = false)
    (hen : (getPart s p).pctl.getLsbD 63 = true) (hst : (getPart s p).pstate ≠ 2) :
    exec (.pctlDisable p v) s = .next (setPart (resetPartition s p) p
      { getPart (resetPartition s p) p with pctl := BitVec.ofNat 64 (bits (getPart s p).pctl.toNat 23 0) }) := by
  have hr : resetting s p = false := by rwa [← Bool.not_eq_true, resetting_iff]
  show execPctlDisable p v s = _
  simp only [execPctlDisable, partEnabled, hv, hen, hr, Bool.false_eq_true, if_false, if_true]

/-- The reset has ended where no block of the partition is on a core (R393). -/
theorem resetEnded_iff {s : State} {p : BitVec 3} :
    resetEnded s p = true ↔ (getPart s p).pstate = 2 ∧ ∀ e ∈ s.blocks, e.2.part ≠ p := by
  simp [resetEnded, resetting_iff]

theorem exec_partitionResetDone_waits {p : BitVec 3} {s : State} (h : (getPart s p).pstate ≠ 2 ∨ ∃ e ∈ s.blocks, e.2.part = p) :
    exec (.partitionResetDone p) s = .next s := by
  have hn : ¬ resetEnded s p = true := by
    rw [resetEnded_iff]
    rintro ⟨hst, hb⟩
    rcases h with h | ⟨e, he, hp⟩
    · exact h hst
    · exact hb e he hp
  exact congrArg Host.Outcome.next (if_neg hn)

theorem exec_partitionResetDone_ends {p : BitVec 3} {s : State} (hst : (getPart s p).pstate = 2)
    (hb : ∀ e ∈ s.blocks, e.2.part ≠ p) : exec (.partitionResetDone p) s = .next (setPart s p
      { getPart s p with pstate := if (getPart s p).pctl.getLsbD 63 then 1 else 0 }) :=
  congrArg Host.Outcome.next (if_pos (resetEnded_iff.mpr ⟨hst, hb⟩))

/-! ### Enabling a partition (R392) -/

theorem mem_namedClusters {v : Double} {k : Nat} : k ∈ namedClusters v ↔ k < 24 ∧ v.getLsbD k = true := by
  simp [namedClusters, Config.clusters]

theorem quiesced_iff {s : State} {k : Nat} : quiesced s k = true ↔ ∀ e ∈ s.blocks, coreCluster e.2.core ≠ k := by
  simp [quiesced]

theorem mem_allParts (q : BitVec 3) : q ∈ allParts := by
  revert q; decide

/-- Two ranges meet in a member of both. -/
theorem rangesMeet_iff {a n b m : Nat} : rangesMeet a n b m = true ↔ ∃ i, (a ≤ i ∧ i < a + n) ∧ b ≤ i ∧ i < b + m := by
  rw [rangesMeet, decide_eq_true_eq]
  constructor
  · rintro ⟨hn, hm, hab, hba⟩
    exact ⟨max a b, by omega⟩
  · rintro ⟨i, hi⟩
    omega

/-- Index `i` is in the counters that a partition is given (R40). -/
def InCounters (q : Partition) (i : Nat) : Prop := ctrBase q ≤ i ∧ i < ctrBase q + ctrCount q

/-- Page `i` is in the pages that a partition is given. -/
def InPages (q : Partition) (i : Nat) : Prop := pageFirst q ≤ i ∧ i < pageFirst q + pageCount q

/-- No cluster, counter or page is one of both partitions. -/
theorem resourcesMeet_eq_false {v : Double} {p q : Partition} : resourcesMeet v p q = false ↔
    ∀ i, ¬ (i < 24 ∧ v.getLsbD i = true ∧ q.pctl.getLsbD i = true) ∧ ¬ (InCounters p i ∧ InCounters q i) ∧
      ¬ (InPages p i ∧ InPages q i) := by
  have hc : (namedClusters v).any (fun k => q.pctl.getLsbD k) = true ↔
      ∃ i, i < 24 ∧ v.getLsbD i = true ∧ q.pctl.getLsbD i = true := by
    simp only [List.any_eq_true, mem_namedClusters, and_assoc]
  rw [← Bool.not_eq_true, resourcesMeet, Bool.or_eq_true, Bool.or_eq_true, hc, rangesMeet_iff, rangesMeet_iff]
  simp only [not_or, not_exists, forall_and, InCounters, InPages, and_assoc]

/-- The clusters of `v` are quiesced and its resources, with those of partition `p`, are within the device's and meet none of
another enabled partition (R392). -/
def MayEnable (s : State) (p : BitVec 3) (v : Double) : Prop :=
  (∃ k, k < 24 ∧ v.getLsbD k = true) ∧
  (∀ k, k < 24 → v.getLsbD k = true → ∀ e ∈ s.blocks, coreCluster e.2.core ≠ k) ∧
  (∀ q, q ≠ p → (getPart s q).pctl.getLsbD 63 = true →
    ∀ i, ¬ (i < 24 ∧ v.getLsbD i = true ∧ (getPart s q).pctl.getLsbD i = true) ∧
      ¬ (InCounters (getPart s p) i ∧ InCounters (getPart s q) i) ∧ ¬ (InPages (getPart s p) i ∧ InPages (getPart s q) i)) ∧
  ctrBase (getPart s p) + ctrCount (getPart s p) ≤ 65536 ∧ pageFirst (getPart s p) + pageCount (getPart s p) ≤ 8388608

theorem enableOk_iff {s : State} {p : BitVec 3} {v : Double} : enableOk s p v = true ↔ MayEnable s p v := by
  have hsome : (!(namedClusters v).isEmpty) = true ↔ ∃ k, k < 24 ∧ v.getLsbD k = true := by
    rw [Bool.not_eq_true', List.isEmpty_eq_false_iff_exists_mem]
    simp only [mem_namedClusters]
  have hquiet : (namedClusters v).all (quiesced s) = true ↔
      ∀ k, k < 24 → v.getLsbD k = true → ∀ e ∈ s.blocks, coreCluster e.2.core ≠ k := by
    simp only [List.all_eq_true, mem_namedClusters, quiesced_iff, and_imp]
  have hothers : allParts.all (fun q => q == p || !partEnabled (getPart s q) || !resourcesMeet v (getPart s p) (getPart s q)) =
      true ↔ ∀ q, q ≠ p → (getPart s q).pctl.getLsbD 63 = true → resourcesMeet v (getPart s p) (getPart s q) = false := by
    simp only [List.all_eq_true, mem_allParts, true_imp_iff, Bool.or_eq_true, beq_iff_eq, Bool.not_eq_true', partEnabled,
      or_assoc]
    simp only [or_iff_not_imp_left, Bool.not_eq_false, ne_eq]
  simp only [enableOk, Bool.and_eq_true, hsome, hquiet, hothers, decide_eq_true_eq, resourcesMeet_eq_false, MayEnable,
    and_assoc]
  rfl

theorem exec_pctlEnable_idle {p : BitVec 3} {v : Double} {s : State}
    (h : v.getLsbD 63 = false ∨ (getPart s p).pctl.getLsbD 63 = true) : exec (.pctlEnable p v) s = .next s :=
  if_pos (by simpa [partEnabled] using h)

theorem exec_pctlEnable {p : BitVec 3} {v : Double} {s : State} (hv : v.getLsbD 63 = true)
    (hen : (getPart s p).pctl.getLsbD 63 = false) : exec (.pctlEnable p v) s =
      if enableOk s p v then .next (setPart s p
        { getPart s p with pctl := BitVec.ofNat 64 (2 ^ 63 + bits v.toNat 23 0), err := false, pstate := 1 })
      else .next (setPart s p { getPart s p with err := true }) := by
  show execPctlEnable p v s = _
  simp only [execPctlEnable, partEnabled, hv, hen, Bool.not_true, Bool.or_false, Bool.false_eq_true, if_false]

theorem exec_pctlEnable_enables {p : BitVec 3} {v : Double} {s : State} (hv : v.getLsbD 63 = true)
    (hen : (getPart s p).pctl.getLsbD 63 = false) (h : MayEnable s p v) : exec (.pctlEnable p v) s = .next (setPart s p
      { getPart s p with pctl := BitVec.ofNat 64 (2 ^ 63 + bits v.toNat 23 0), err := false, pstate := 1 }) := by
  rw [exec_pctlEnable hv hen, if_pos (enableOk_iff.mpr h)]

theorem exec_pctlEnable_errs {p : BitVec 3} {v : Double} {s : State} (hv : v.getLsbD 63 = true)
    (hen : (getPart s p).pctl.getLsbD 63 = false) (h : ¬ MayEnable s p v) :
    exec (.pctlEnable p v) s = .next (setPart s p { getPart s p with err := true }) := by
  rw [exec_pctlEnable hv hen, if_neg (fun e => h (enableOk_iff.mp e))]

/-! ### Fields of the registers written (R313, R344, R392) -/

theorem bits_lt (x h l : Nat) : bits x h l < 2 ^ (h - l + 1) := Nat.mod_lt _ (by positivity)

theorem writeMemctl_fields (v : Double) :
    bits (writeMemctl v).toNat 63 48 = bits v.toNat 63 48 ∧ bits (writeMemctl v).toNat 47 40 = max 8 (bits v.toNat 47 40) ∧
    bits (writeMemctl v).toNat 39 16 = bits v.toNat 39 16 ∧ bits (writeMemctl v).toNat 15 0 = 0 := by
  have ha := bits_lt v.toNat 63 48
  have hb := bits_lt v.toNat 47 40
  have hc := bits_lt v.toNat 39 16
  unfold writeMemctl
  generalize bits v.toNat 63 48 = a at *
  generalize bits v.toNat 47 40 = b at *
  generalize bits v.toNat 39 16 = c at *
  simp only [bits, BitVec.toNat_ofNat]
  omega

theorem writePwgt_fields (v : Double) : bits (writePwgt v).toNat 63 24 = 0 ∧
    ∀ i, i < 3 → bits (writePwgt v).toNat (8 * i + 7) (8 * i) = max 1 (bits v.toNat (8 * i + 7) (8 * i)) := by
  have h0 := bits_lt v.toNat 7 0
  have h1 := bits_lt v.toNat 15 8
  have h2 := bits_lt v.toNat 23 16
  have hw : writePwgt v = BitVec.ofNat 64
      (max 1 (bits v.toNat 7 0) + 2 ^ 8 * max 1 (bits v.toNat 15 8) + 2 ^ 16 * max 1 (bits v.toNat 23 16)) := rfl
  rw [hw, BitVec.toNat_ofNat, Nat.mod_eq_of_lt (by omega)]
  refine ⟨?_, fun i hi => ?_⟩
  · rw [bits]; omega
  · obtain rfl | rfl | rfl : i = 0 ∨ i = 1 ∨ i = 2 := by omega
    · show bits _ 7 0 = max 1 (bits v.toNat 7 0)
      rw [bits]; omega
    · show bits _ 15 8 = max 1 (bits v.toNat 15 8)
      rw [bits]; omega
    · show bits _ 23 16 = max 1 (bits v.toNat 23 16)
      rw [bits]; omega

theorem writeSensctl_fields (v : Double) :
    bits (writeSensctl v).toNat 63 32 = 0 ∧ bits (writeSensctl v).toNat 31 24 = min 84 (bits v.toNat 31 24) ∧
    bits (writeSensctl v).toNat 23 16 = min (bits (writeSensctl v).toNat 31 24) (bits v.toNat 23 16) ∧
    bits (writeSensctl v).toNat 15 0 = bits v.toNat 15 0 := by
  have hl := bits_lt v.toNat 15 0
  have hc : min 84 (bits v.toNat 31 24) ≤ 84 := min_le_left ..
  have hf := min_le_left (min 84 (bits v.toNat 31 24)) (bits v.toNat 23 16)
  have hw : writeSensctl v = BitVec.ofNat 64 (min 84 (bits v.toNat 31 24) * 2 ^ 24 +
      min (min 84 (bits v.toNat 31 24)) (bits v.toNat 23 16) * 2 ^ 16 + bits v.toNat 15 0) := rfl
  rw [hw, BitVec.toNat_ofNat, Nat.mod_eq_of_lt (by omega)]
  have hceil : ∀ c f l, c ≤ 84 → f ≤ c → l < 2 ^ 16 → bits (c * 2 ^ 24 + f * 2 ^ 16 + l) 31 24 = c := by
    intro c f l _ _ _; rw [bits]; omega
  rw [hceil _ _ _ hc hf hl]
  refine ⟨?_, rfl, ?_, ?_⟩ <;> (rw [bits]; omega)

/-! ### Register writes (R6, R391) -/

theorem exec_registerWrite_unaligned {off : BitVec 26} (v : Double) (s : State) (h : off.toNat % 8 ≠ 0) :
    exec (.registerWrite off v) s = .next s := if_pos h

theorem exec_registerWrite_management {off : BitVec 26} {o : Nat} (v : Double) (s : State) (ho : off.toNat = o)
    (ha : o % 8 = 0) (h : o < 0x1000000) : exec (.registerWrite off v) s = .next (writeManagement s o v) := by
  show execRegisterWrite off v s = _
  simp only [execRegisterWrite, ho, ha, h, ne_eq, not_true, if_false, if_true]

theorem writeManagement_mailbox (s : State) {o : Nat} (v : Double) (h1 : 0x1000 ≤ o) (h2 : o < 0x2000) :
    writeManagement s o v = writeMailbox s (o - 0x1000) v := by
  unfold writeManagement
  rw [if_neg (by omega), if_neg (by omega), if_neg (by simp; omega), if_pos (by simp; omega)]

/-- A write of MBCMD whose OP names no command (R404). -/
theorem writeManagement_badCommand (s : State) {v : Double} (h : bits v.toNat 7 0 = 0 ∨ 6 < bits v.toNat 7 0) :
    writeManagement s 0x40 v = { s with mbstat := BitVec.ofNat 64 (2 ^ 28) } := by
  have hop : mailboxOp v = false := decide_eq_false (by omega)
  unfold writeManagement
  rw [if_neg (by decide), if_pos rfl, hop]
  rfl

/-- A write of the block of partition `p`, at offset `o` of it. -/
theorem exec_registerWrite_block {off : BitVec 26} {p : BitVec 3} {o : Nat} (v : Double) (s : State)
    (ho : off.toNat = 0x100 + 0x80 * p.toNat + o) (h : o < 0x80) (ha : o % 8 = 0) :
    exec (.registerWrite off v) s = .next (setPart s p (writeBlock (getPart s p) o v)) := by
  have hp := p.isLt
  have hq : BitVec.ofNat 3 ((0x100 + 0x80 * p.toNat + o - 0x100) / 0x80) = p :=
    BitVec.eq_of_toNat_eq (by rw [BitVec.toNat_ofNat]; omega)
  rw [exec_registerWrite_management v s ho (by omega) (by omega), writeManagement, if_neg (by omega), if_neg (by omega),
    if_pos (by simp; omega), hq, show (0x100 + 0x80 * p.toNat + o - 0x100) % 0x80 = o by omega]

/-- A write of the window of partition `p`, at offset `o` of it. -/
theorem exec_registerWrite_window {off : BitVec 26} {p : BitVec 3} {o : Nat} (v : Double) (s : State)
    (ho : off.toNat = 0x1000000 + 0x200000 * p.toNat + o) (h : o < 0x200000) (ha : o % 8 = 0) :
    exec (.registerWrite off v) s = .next (writeQueueWindow s p o v) := by
  have hp := p.isLt
  have hq : BitVec.ofNat 3 ((0x1000000 + 0x200000 * p.toNat + o - 0x1000000) / 0x200000) = p :=
    BitVec.eq_of_toNat_eq (by rw [BitVec.toNat_ofNat]; omega)
  show execRegisterWrite off v s = _
  rw [execRegisterWrite, ho, if_neg (by omega), if_neg (by omega), if_pos (by omega), hq,
    show (0x1000000 + 0x200000 * p.toNat + o - 0x1000000) % 0x200000 = o by omega]

theorem writeQueueWindow_closed {s : State} {p : BitVec 3} (o : Nat) (v : Double) (h : windowOpen s p = false) :
    writeQueueWindow s p o v = s := if_pos (by rw [h]; rfl)

theorem exec_registerWrite_closed {off : BitVec 26} {p : BitVec 3} (v : Double) (s : State)
    (h1 : 0x1000000 + 0x200000 * p.toNat ≤ off.toNat) (h2 : off.toNat < 0x1000000 + 0x200000 * p.toNat + 0x200000)
    (h : windowOpen s p = false) : exec (.registerWrite off v) s = .next s := by
  by_cases ha : off.toNat % 8 = 0
  · rw [exec_registerWrite_window (p := p) (o := off.toNat - (0x1000000 + 0x200000 * p.toNat)) v s (by omega) (by omega)
      (by omega), writeQueueWindow_closed _ v h]
  · exact exec_registerWrite_unaligned v s ha

/-- The registers of an open window that have no row of their own (R6, R313, R391). -/
theorem writeQueueWindow_open {s : State} {p : BitVec 3} (v : Double) (h : windowOpen s p = true) :
    writeQueueWindow s p 0x20 v = setPart s p { getPart s p with qerr := clearOnes (getPart s p).qerr v 0xC000000000000000 } ∧
    writeQueueWindow s p 0x100 v = setPart s p { getPart s p with sensctl := writeSensctl v } ∧
    writeQueueWindow s p 0x108 v =
      setPart s p { getPart s p with dlrisk := clearOnes (getPart s p).dlrisk v 0xC000000000000000 } := by
  simp only [writeQueueWindow, h, Bool.not_true, Bool.false_eq_true, if_false, and_self]

/-! ### The obligation -/

/-- Settles O58, by a lemma for each instruction: a reset drops the work of its partition, and what follows it only closes and
re-arms queues. -/
theorem partitionsAndTheirRegistersAct : Obligations.PartitionsAndTheirRegistersAct := by
  unfold Obligations.PartitionsAndTheirRegistersAct
  intro s p v part clears
  refine ⟨exec_pctlEnable_idle, fun hv hen => ⟨exec_pctlEnable_enables hv hen, exec_pctlEnable_errs hv hen⟩,
    exec_pctlDisable_set, exec_pctlDisable_disabled, exec_partitionReset_idle, fun hen hst hjobs => ⟨fun hv => ?reset, fun hv => ?disable⟩,
    exec_partitionResetDone_waits, exec_partitionResetDone_ends, fun off => exec_registerWrite_unaligned v s,
    fun off ho => ?memctl, fun off ho hop => ?badCommand, fun off h1 h2 ha => ?mailbox, ?block, ?window⟩
  case reset =>
    exact ⟨_, exec_partitionReset_resets hv hen hst, PartitionCleared.of_keepsWork (resetPartition_keepsWork hjobs)⟩
  case disable =>
    refine ⟨_, exec_pctlDisable_resets hv hen hst, ?_, ?_⟩
    · exact PartitionCleared.of_keepsWork ((resetPartition_keepsWork hjobs).trans (setPart_keepsWork _ p rfl))
    · rw [getPart_setPart_self]
  case memctl =>
    exact ⟨writeMemctl v, exec_registerWrite_management v s ho (by decide) (by decide), writeMemctl_fields v⟩
  case badCommand =>
    rw [exec_registerWrite_management v s ho (by decide) (by decide), writeManagement_badCommand s hop]
  case mailbox =>
    rw [exec_registerWrite_management v s rfl ha (by omega), writeManagement_mailbox s v h1 h2]
    rfl
  case block =>
    intro off base writes
    have written : ∀ o, o < 0x80 → o % 8 = 0 → off.toNat = base + o → writes (writeBlock part o v) :=
      fun o h ha ho => exec_registerWrite_block v s ho h ha
    refine ⟨written 0x08 (by decide) (by decide), written 0x10 (by decide) (by decide),
      fun ho => ⟨writePwgt v, written 0x18 (by decide) (by decide) ho, writePwgt_fields v⟩,
      written 0x20 (by decide) (by decide), written 0x28 (by decide) (by decide), written 0x40 (by decide) (by decide),
      fun ho => ⟨_, written 0x48 (by decide) (by decide) ho, fun i => ?_⟩⟩
    exact cget_cset 0#64 part.fwent part.fwsel.toNat i _
  case window =>
    intro off base writes
    refine ⟨exec_registerWrite_closed v s, fun hopen => ?_⟩
    obtain ⟨hqerr, hsens, hrisk⟩ := writeQueueWindow_open v hopen
    refine ⟨fun ho => ?_, fun ho => ?_, fun ho => ⟨writeSensctl v, ?_, writeSensctl_fields v⟩⟩
    · exact (exec_registerWrite_window v s ho (by decide) (by decide)).trans (congrArg Host.Outcome.next hqerr)
    · exact (exec_registerWrite_window v s ho (by decide) (by decide)).trans (congrArg Host.Outcome.next hrisk)
    · exact (exec_registerWrite_window v s ho (by decide) (by decide)).trans (congrArg Host.Outcome.next hsens)

end Sys2Proof.Machine

/-!
SUPPORT and PROOF. The command processor: queues created, destroyed, notified and consumed, and packets that complete (R11,
R12, R15, R16, R17, R18, R40, R43).
-/

namespace Sys2Proof.Machine

/-! ### What memory operations leave of the command processor -/

theorem OnlyMemory.queues {s t : State} (h : OnlyMemory s t) : t.queues = s.queues := by rw [h]
theorem OnlyMemory.counters {s t : State} (h : OnlyMemory s t) : t.counters = s.counters := by rw [h]

theorem OnlyMemory.getQueue {s t : State} (h : OnlyMemory s t) (p : BitVec 3) (q : Nat) : getQueue t p q = getQueue s p q := by
  simp [Machine.getQueue, h.queues]

theorem OnlyMemory.getPart {s t : State} (h : OnlyMemory s t) (p : BitVec 3) : getPart t p = getPart s p := by
  simp [Machine.getPart, h.partitions]

theorem OnlyMemory.getJob {s t : State} (h : OnlyMemory s t) (i : Nat) : getJob t i = getJob s i := by
  simp [Machine.getJob, h.jobs]

theorem OnlyMemory.getCounter {s t : State} (h : OnlyMemory s t) (i : Nat) : getCounter t i = getCounter s i := by
  simp [Machine.getCounter, h.counters]

theorem hubTouch_onlyMemory (s : State) (a : BitVec 16) (va n : Nat) : OnlyMemory s (hubTouch s a va n) :=
  (hubTouch_homeOnly s a va n).onlyMemory

/-! ### QCREATE and QDESTROY (R10, R11, R12) -/

theorem queueBusy_iff {k : Partition} : queueBusy k = true ↔ k.creating.isSome = true ∨ k.destroying.isSome = true := by
  simp [queueBusy]

theorem queueBusy_eq_false {k : Partition} (hc : k.creating = none) (hd : k.destroying = none) : queueBusy k = false := by
  simp [queueBusy, hc, hd]

theorem exec_qcreate (p : BitVec 3) (v : Double) (s : State) : exec (.qcreate p v) s =
    .next (if windowOpen s p && !queueBusy (getPart s p) then setPart s p { getPart s p with creating := some v } else s) := rfl

theorem exec_qdestroy (p : BitVec 3) (v : Double) (s : State) : exec (.qdestroy p v) s = execQdestroy p v s := rfl

/-- A write while the window is closed, or while a creation or a destruction is in progress, is ignored. -/
theorem exec_queueWrites_idle {s : State} {p : BitVec 3} (v : Double)
    (h : windowOpen s p = false ∨ queueBusy (getPart s p) = true) :
    exec (.qcreate p v) s = .next s ∧ exec (.qdestroy p v) s = .next s := by
  rw [exec_qcreate, exec_qdestroy, execQdestroy]
  rcases h with h | h <;> simp [h]

theorem exec_qcreate_begins {s : State} {p : BitVec 3} (v : Double) (ho : windowOpen s p = true)
    (hb : queueBusy (getPart s p) = false) :
    exec (.qcreate p v) s = .next (setPart s p { getPart s p with creating := some v }) := by
  simp [exec_qcreate, ho, hb]

/-- The ASID that a written value names. -/
theorem eq_writtenAsid_iff {a : BitVec 16} {v : Double} : a = BitVec.ofNat 16 (bits v.toNat 63 48) ↔ a.toNat = bits v.toNat 63 48 := by
  rw [← BitVec.toNat_inj, BitVec.toNat_ofNat, Nat.mod_eq_of_lt (bits_lt v.toNat 63 48)]

theorem exec_qdestroy_unknown {s : State} {p : BitVec 3} {v : Double} (ho : windowOpen s p = true)
    (hb : queueBusy (getPart s p) = false)
    (h : ∀ k, getQueue s p (bits v.toNat 7 0) = some k → k.asid.toNat ≠ bits v.toNat 63 48) :
    exec (.qdestroy p v) s = .next (setPart s p { getPart s p with qresult := BitVec.ofNat 64 (3 * 2 ^ 28) }) := by
  rw [exec_qdestroy, execQdestroy, if_neg (by simp [ho, hb])]
  dsimp only
  split
  · exact if_neg (h _ ‹_›)
  · rfl

theorem exec_qdestroy_closes {s : State} {p : BitVec 3} {v : Double} {k : Queue} (ho : windowOpen s p = true)
    (hb : queueBusy (getPart s p) = false) (hq : getQueue s p (bits v.toNat 7 0) = some k)
    (ha : k.asid.toNat = bits v.toNat 63 48) : exec (.qdestroy p v) s =
      .next (closeQueue (setPart s p { getPart s p with destroying := some v }) p (bits v.toNat 7 0) k) := by
  rw [exec_qdestroy, execQdestroy]
  simp [ho, hb, hq, ha]

theorem jobBegun_iff {j : Job} :
    jobBegun j = true ↔ j.started = true ∧ ¬ (pkType j.words = 1 ∧ pkCoop j.words = true ∧ j.placed = 0) := by
  rw [jobBegun, Bool.and_eq_true, Bool.not_eq_true', ← Bool.not_eq_true]
  simp only [Bool.and_eq_true, beq_iff_eq, and_assoc]

/-- The own counters of the packets of `l` that `f` selects return to FREE. -/
def freeOwns (s : State) (f : Job → Bool) (l : List (Nat × Job)) : State :=
  l.foldl (fun s e => if f e.2 then freeOwn s e.2 else s) s

theorem freeOwns_eq (s : State) (f : Job → Bool) (l : List (Nat × Job)) : ∃ c, freeOwns s f l = { s with counters := c } := by
  induction l generalizing s with
  | nil => exact ⟨_, rfl⟩
  | cons e l ih =>
    obtain ⟨c, hc⟩ := ih (if f e.2 then freeOwn s e.2 else s)
    refine ⟨c, hc.trans ?_⟩
    split
    · rw [freeOwn_eq]
    · rfl

/-- A counter is FREE where one of those packets had it, and as before elsewhere. -/
theorem getCounter_freeOwns (s : State) (f : Job → Bool) (l : List (Nat × Job)) (i : Nat) : getCounter (freeOwns s f l) i =
      if ∃ e ∈ l, f e.2 = true ∧ e.2.counter = some i then Counter.free else getCounter s i := by
  induction l generalizing s with
  | nil => simp [freeOwns]
  | cons e l ih =>
    have head : getCounter (if f e.2 then freeOwn s e.2 else s) i =
        if f e.2 = true ∧ e.2.counter = some i then Counter.free else getCounter s i := by
      cases hf : f e.2 <;> simp [getCounter_freeOwn]
    refine (ih _).trans ?_
    rw [head]
    simp only [List.exists_mem_cons_iff]
    by_cases ht : ∃ e ∈ l, f e.2 = true ∧ e.2.counter = some i
    · rw [if_pos ht, if_pos (.inr ht)]
    · simp only [ht, if_false, or_false]

/-- The packets that a discard takes out. -/
def discards (sel : Job → Bool) (j : Job) : Bool := sel j && !jobBegun j

theorem discardJobs_eq (s : State) (sel : Job → Bool) : ∃ c, discardJobs s sel =
    { s with counters := c, jobs := s.jobs.filter (fun e => !discards sel e.2) } := by
  obtain ⟨c, hc⟩ := freeOwns_eq s (fun j => discards sel j && !j.failed) s.jobs
  have hd : discardJobs s sel = (fun t : State => { t with jobs := t.jobs.filter (fun e => !discards sel e.2) })
      (freeOwns s (fun j => discards sel j && !j.failed) s.jobs) := rfl
  exact ⟨c, by rw [hd, hc]⟩

theorem getCounter_discardJobs (s : State) (sel : Job → Bool) (i : Nat) : getCounter (discardJobs s sel) i =
    if ∃ e ∈ s.jobs, (discards sel e.2 && !e.2.failed) = true ∧ e.2.counter = some i then Counter.free else getCounter s i :=
  getCounter_freeOwns s (fun j => discards sel j && !j.failed) s.jobs i

/-- The packets of a queue. -/
def inQueue (p : BitVec 3) (q : Nat) (j : Job) : Bool := j.part == p && j.queue == q

theorem inQueue_iff {p : BitVec 3} {q : Nat} {j : Job} : inQueue p q j = true ↔ j.part = p ∧ j.queue = q := by
  simp [inQueue]

theorem closeQueue_eq (s : State) (p : BitVec 3) (q : Nat) (k : Queue) : ∃ c, closeQueue s p q k =
    { setQueue s p q { k with destroying := true } with
      counters := c, jobs := s.jobs.filter (fun e => !discards (inQueue p q) e.2) } :=
  discardJobs_eq _ (inQueue p q)

theorem getPart_closeQueue (s : State) (p : BitVec 3) (q : Nat) (k : Queue) (d : BitVec 3) :
    getPart (closeQueue s p q k) d = getPart s d := by
  obtain ⟨c, h⟩ := closeQueue_eq s p q k
  rw [h]
  rfl

theorem getQueue_closeQueue_self (s : State) (p : BitVec 3) (q : Nat) (k : Queue) :
    getQueue (closeQueue s p q k) p q = some { k with destroying := true } := by
  obtain ⟨c, h⟩ := closeQueue_eq s p q k
  rw [h]
  exact getQueue_setQueue_self ..

theorem jobs_closeQueue (s : State) (p : BitVec 3) (q : Nat) (k : Queue) :
    (closeQueue s p q k).jobs = s.jobs.filter (fun e => !discards (inQueue p q) e.2) := by
  obtain ⟨c, h⟩ := closeQueue_eq s p q k
  rw [h]

theorem closeQueue_sameMemory (s : State) (p : BitVec 3) (q : Nat) (k : Queue) : SameMemory s (closeQueue s p q k) := by
  obtain ⟨c, h⟩ := closeQueue_eq s p q k
  rw [h]
  exact .of_eq rfl rfl rfl

theorem getCounter_closeQueue (s : State) (p : BitVec 3) (q : Nat) (k : Queue) (i : Nat) : getCounter (closeQueue s p q k) i =
    if ∃ e ∈ s.jobs, (discards (inQueue p q) e.2 && !e.2.failed) = true ∧ e.2.counter = some i then Counter.free
    else getCounter s i :=
  getCounter_discardJobs (setQueue s p q { k with destroying := true }) (inQueue p q) i

/-! ### The end of a creation (R11, R13) -/

/-- A descriptor at `desc` that holds `w` is as R11 and R13 ask. -/
def DescriptorOk (desc w : Nat) : Prop :=
  desc % 64 = 0 ∧ bits w 63 0 % 4096 = 0 ∧ 4 ≤ bits w 68 64 ∧ bits w 68 64 ≤ 16 ∧ bits w 127 69 = 0 ∧ bits w 255 192 = 0 ∧
    bits w 511 256 = 0

/-- The queue that a descriptor creates. -/
def queueOf (asid : BitVec 16) (desc w : Nat) : Queue :=
  { asid := asid, desc := BitVec.ofNat 64 desc, ring := BitVec.ofNat 64 (bits w 63 0), log2 := bits w 68 64, readIdx := 0,
    notify := 0, halted := false, destroying := false, stopped := false, waiting := none }

theorem readDescriptor_some {s : State} {asid : BitVec 16} {desc : Nat} {bs : List Byte}
    (hr : hubRead s asid desc 64 = some (bs, false)) (hd : DescriptorOk desc (natOfBytes bs)) :
    readDescriptor s asid desc = some (queueOf asid desc (natOfBytes bs)) := by
  obtain ⟨h1, h2, h3, h4, h5, h6, h7⟩ := hd
  rw [readDescriptor, if_neg (by omega), hr]
  dsimp only
  rw [if_neg (by simp [h2, h5, h6, h7]; omega)]
  rfl

theorem readDescriptor_none {s : State} {asid : BitVec 16} {desc : Nat}
    (h : ∀ bs, hubRead s asid desc 64 = some (bs, false) → ¬ DescriptorOk desc (natOfBytes bs)) :
    readDescriptor s asid desc = none := by
  unfold readDescriptor
  split
  · rfl
  · rename_i h0
    split
    · rfl
    · rfl
    · rename_i bs hr
      refine if_pos ?_
      by_contra hg
      refine h bs hr ?_
      simp only [Bool.or_eq_true, decide_eq_true_eq, not_or, not_not, not_lt] at hg h0
      obtain ⟨⟨⟨⟨⟨h2, h3⟩, h4⟩, h5⟩, h6⟩, h7⟩ := hg
      exact ⟨h0, h2, h3, h4, h5, h6, h7⟩

theorem freeQueue_none {s : State} {p : BitVec 3} (h : ∀ n, n < 256 → (getQueue s p n).isSome = true) :
    freeQueue s p = none := by
  rw [freeQueue, List.find?_eq_none]
  intro n hn
  simp [Option.isNone_eq_false_iff.mpr (h n (List.mem_range.mp hn))]

theorem freeQueue_lowest {s : State} {p : BitVec 3} {n : Nat} (hn : n < 256) (hq : getQueue s p n = none)
    (h : ∀ m, m < n → (getQueue s p m).isSome = true) : freeQueue s p = some n := by
  rw [freeQueue, List.find?_range_eq_some]
  exact ⟨by simp [hq], List.mem_range.mpr hn, fun m hm => by simpa using h m hm⟩

theorem freeQueue_onlyMemory {s t : State} (h : OnlyMemory s t) (p : BitVec 3) : freeQueue t p = freeQueue s p := by
  unfold freeQueue
  simp only [h.getQueue]

/-- A creation in partition `p`, which stood as `part`, ends with this STATUS and queue number (R10, R11). -/
def creationEnds (part : Partition) (s : State) (p : BitVec 3) (status q : Nat) : State :=
  setPart s p { part with creating := none, qresult := BitVec.ofNat 64 (status * 2 ^ 28 + q) }

section

variable {s : State} {p : BitVec 3} {v : Double} (hv : (getPart s p).creating = some v)

include hv

theorem exec_queueCreationDone_unknown (h : partCtx s p (BitVec.ofNat 16 (bits v.toNat 63 48)) = none) :
    exec (.queueCreationDone p) s = .next (creationEnds (getPart s p) s p 3 0) := by
  show execQueueCreationDone p s = _
  simp [execQueueCreationDone, hv, h, creationEnds]

/-- The machine once the descriptor of a creation has been read. -/
def descriptorRead (s : State) (v : Double) : State :=
  hubTouch s (BitVec.ofNat 16 (bits v.toNat 63 48)) (bits v.toNat 47 0) 64

/-- What a descriptor that has been read creates, where it is good. -/
def descriptorOf (s : State) (v : Double) : Option Queue :=
  readDescriptor (descriptorRead s v) (BitVec.ofNat 16 (bits v.toNat 63 48)) (bits v.toNat 47 0)

/-- How a creation for a known ASID ends: the descriptor decides, and then the lowest free number. -/
def creationAnswer (part : Partition) (s : State) (p : BitVec 3) : Option Queue → Option Nat → State
  | none, _ => creationEnds part s p 1 0
  | some _, none => creationEnds part s p 2 0
  | some k, some q => creationEnds part (setQueue s p q k) p 0 q

theorem exec_queueCreationDone_known (h : (partCtx s p (BitVec.ofNat 16 (bits v.toNat 63 48))).isSome = true)
    {k : Option Queue} (hd : descriptorOf s v = k) {q : Option Nat} (hf : freeQueue s p = q) :
    exec (.queueCreationDone p) s = .next (creationAnswer (getPart s p) (descriptorRead s v) p k q) := by
  unfold descriptorOf descriptorRead at hd
  show execQueueCreationDone p s = _
  simp only [execQueueCreationDone, hv, Option.isNone_eq_false_iff.mpr h, Bool.false_eq_true, if_false, hd,
    freeQueue_onlyMemory (hubTouch_onlyMemory ..), hf]
  cases k <;> cases q <;> rfl

end

/-! ### The end of a destruction (R12, R388) -/

theorem jobLives_iff {s : State} {j : Job} : jobLives s j = true ↔ pkType j.words = 2 ∨ pkType j.words = 3 ∨
    (pkType j.words = 1 ∧ j.doneBlocks = pkBlocks j.words) ∨ ∃ x, getCtx s j.asid = some x ∧ ctxAlive x = true := by
  unfold jobLives
  cases hx : getCtx s j.asid <;> simp [or_assoc]

theorem queueRuns_iff {s : State} {p : BitVec 3} {q : Nat} : queueRuns s p q = true ↔
    ∃ e ∈ s.jobs, (e.2.part = p ∧ e.2.queue = q) ∧ e.2.started = true ∧ e.2.completed = false ∧ e.2.failed = false ∧
      jobLives s e.2 = true := by
  simp [queueRuns, queueJobs, and_assoc]

theorem exec_queueDestroyDone {s : State} {p : BitVec 3} {v : Double} (hv : (getPart s p).destroying = some v) :
    exec (.queueDestroyDone p) s = .next (if queueRuns s p (bits v.toNat 7 0) then s
      else dropQueue (setPart s p { getPart s p with destroying := none, qresult := BitVec.ofNat 64 (bits v.toNat 7 0) }) p
        (bits v.toNat 7 0)) := by
  show execQueueDestroyDone p s = _
  simp only [execQueueDestroyDone, hv]

theorem getQueue_dropQueue_self (s : State) (p : BitVec 3) (q : Nat) : getQueue (dropQueue s p q) p q = none :=
  find?_del_self ..

theorem getQueue_dropQueue_ne (s : State) (p : BitVec 3) {q n : Nat} (h : n ≠ q) :
    getQueue (dropQueue s p q) p n = getQueue s p n :=
  find?_del_ne _ (by unfold queueKey; omega)

/-- Of the packets of a dropped queue that have not completed, those whose blocks are held are kept, as completed. -/
theorem jobs_dropQueue (s : State) (p : BitVec 3) (q : Nat) : (dropQueue s p q).jobs =
    s.jobs.filterMap (fun e => if (e.2.part = p ∧ e.2.queue = q) ∧ e.2.completed = false then
      (if jobHeld s e.1 then some (e.1, { e.2 with completed := true }) else none) else some e) := by
  show (s.jobs.map _).filter _ = _
  rw [← List.filterMap_eq_filter, List.filterMap_map]
  refine List.filterMap_congr fun e _ => ?_
  obtain ⟨i, j⟩ := e
  by_cases ho : j.part = p ∧ j.queue = q
  · cases hc : j.completed <;> cases hh : jobHeld s i <;> simp [ho, hc, hh, Option.guard]
    rw [← hc, ← ho.1, ← ho.2]
  · rcases not_and_or.mp ho with h | h <;> simp [h, Option.guard]

/-! ### Queues are created and destroyed -/

/-- Settles O47, by an equation for each answer of the four instructions. -/
theorem queuesAreCreatedAndDestroyed : Obligations.QueuesAreCreatedAndDestroyed := by
  unfold Obligations.QueuesAreCreatedAndDestroyed
  intro s p v part asid desc q ours begun answers
  have discarded (j : Job) : discards (inQueue p q) j = true ↔ ours j ∧ ¬ begun j := by
    rw [discards, Bool.and_eq_true, Bool.not_eq_true', ← Bool.not_eq_true, inQueue_iff, jobBegun_iff]
  refine ⟨fun h => ?idle, fun ho hc hd => ?write, fun hv => ?create, fun hv => ?destroy⟩
  case idle => exact exec_queueWrites_idle v (h.imp_right queueBusy_iff.mpr)
  case write =>
    have hb : queueBusy (getPart s p) = false := queueBusy_eq_false hc hd
    refine ⟨exec_qcreate_begins v ho hb, fun h => exec_qdestroy_unknown ho hb fun k hk ha => h k hk (eq_writtenAsid_iff.mpr ha),
      fun k hk ha => ⟨_, exec_qdestroy_closes ho hb hk (eq_writtenAsid_iff.mp ha), ?_⟩⟩
    refine ⟨?_, getQueue_closeQueue_self .., ?_, fun i hi => ?_, fun i hi => ?_, ?_⟩
    · rw [getPart_closeQueue, getPart_setPart_self]
    · refine (jobs_closeQueue ..).trans (List.filter_congr fun e _ => ?_)
      simp only [decide_not, ← discarded, Bool.decide_eq_true]
      rfl
    · obtain ⟨e, he, ho, hb, hf, hi⟩ := hi
      refine (getCounter_closeQueue ..).trans (if_pos ⟨e, he, ?_, hi⟩)
      rw [(discarded e.2).mpr ⟨ho, hb⟩, hf]
      rfl
    · refine (getCounter_closeQueue ..).trans (if_neg ?_)
      rintro ⟨e, he, hsel, hci⟩
      rw [Bool.and_eq_true, Bool.not_eq_true', discarded] at hsel
      obtain ⟨⟨ho, hb⟩, hf⟩ := hsel
      exact hi e he ho hb hf hci
    · exact (SameMemory.of_eq rfl rfl rfl).trans (closeQueue_sameMemory ..)
  case create =>
    intro good
    refine ⟨exec_queueCreationDone_unknown hv, fun ha => ?_⟩
    intro u answers
    have known {k : Option Queue} {n : Option Nat} (hd : descriptorOf s v = k) (hf : freeQueue s p = n) :=
      exec_queueCreationDone_known hv ha hd hf
    refine ⟨fun h => known (readDescriptor_none h) rfl, fun bs hr hg => ?_⟩
    have hd : descriptorOf s v = some (queueOf asid desc (natOfBytes bs)) := readDescriptor_some hr hg
    refine ⟨fun h => known hd (freeQueue_none h), fun n hn hq hlow => (known hd (freeQueue_lowest hn hq hlow)).trans ?_⟩
    rw [creationAnswer, creationEnds, Nat.zero_mul, Nat.zero_add]
    rfl
  case destroy =>
    intro lives runs
    have hruns : queueRuns s p q = true ↔ runs := by simp only [queueRuns_iff, jobLives_iff]; rfl
    refine ⟨fun h => (exec_queueDestroyDone hv).trans (congrArg Host.Outcome.next (if_pos (hruns.mpr h))), fun h =>
      ⟨_, (exec_queueDestroyDone hv).trans (congrArg Host.Outcome.next (if_neg (hruns.not.mpr h))), ?_⟩⟩
    exact ⟨getPart_setPart_self s p _, getQueue_dropQueue_self .., fun n _ hn => getQueue_dropQueue_ne _ p hn,
      jobs_dropQueue .., .of_eq rfl rfl rfl⟩

/-! ### NOTIFY (R15, R32, R45) -/

/-- A NOTIFY write is taken: the window answers, and the queue and its context are at work. -/
def NotifyTaken (s : State) (p : BitVec 3) (k : Queue) (x : Context) : Prop :=
  windowOpen s p = true ∧ resetting s p = false ∧ k.halted = false ∧ k.destroying = false ∧ ctxAlive x = true

section

variable {s : State} {p : BitVec 3} {q : BitVec 8} {k : Queue} {x : Context} (hq : getQueue s p q.toNat = some k)
  (hx : getCtx s k.asid = some x)

include hq hx

theorem exec_notifyWrite_ignored {v : Double} (h : ¬ NotifyTaken s p k x ∨ v.toNat < k.notify) :
    exec (.notifyWrite p q v) s = .next s := by
  show execNotifyWrite p q v s = _
  simp only [execNotifyWrite, hq, hx]
  refine if_pos ?_
  by_contra hn
  simp only [Bool.or_eq_true, Bool.not_eq_true', decide_eq_true_eq, not_or, Bool.not_eq_true, Bool.not_eq_false] at hn
  obtain ⟨⟨⟨⟨⟨ho, hr⟩, hh⟩, hd⟩, hc⟩, hv⟩ := hn
  exact h.elim (fun h => h ⟨ho, hr, hh, hd, hc⟩) hv

/-- A NOTIFY that is taken halts the queue where it runs past the ring, and else is the largest now. -/
theorem exec_notifyWrite_taken {v : Double} (ht : NotifyTaken s p k x) (hv : k.notify ≤ v.toNat) :
    exec (.notifyWrite p q v) s = if k.readIdx + 2 ^ k.log2 < v.toNat
      then .next (haltQueue s p k.asid q.toNat (v.toNat % 2 ^ 32) 0x0A)
      else .next (retestQueue (setQueue s p q.toNat
        { k with notify := v.toNat, stopped := k.stopped && decide (v.toNat ≤ k.readIdx) }) k) := by
  obtain ⟨ho, hr, hh, hd, hc⟩ := ht
  show execNotifyWrite p q v s = _
  simp only [execNotifyWrite, hq, hx, ho, hr, hh, hd, hc, Nat.not_lt.mpr hv, Bool.not_true, Bool.or_self, decide_false,
    Bool.false_eq_true, if_false]

end

/-- Taking up a WAIT again changes the table of packets alone. -/
theorem retestQueue_eq (s : State) (k : Queue) : ∃ j, retestQueue s k = { s with jobs := j } := by
  unfold retestQueue
  split
  · exact ⟨_, rfl⟩
  · split <;> exact ⟨_, rfl⟩

theorem getJob_retestQueue (s : State) (k : Queue) (i : Nat) : getJob (retestQueue s k) i =
    if k.waiting = some i then (getJob s i).map (fun j => { j with retest := true }) else getJob s i := by
  unfold retestQueue
  cases hw : k.waiting with
  | none => rfl
  | some w =>
    by_cases hi : i = w
    · subst hi
      cases hj : getJob s i <;> simp [hj]
    · rw [if_neg (by simpa using Ne.symm hi)]
      dsimp only
      split
      · exact getJob_setJob_ne _ hi
      · rfl

/-! ### Consuming a slot (R15, R16, R32) -/

theorem consumable_waiting {s : State} {k : Queue} (h : consumable s k = true) : k.waiting = none := by
  unfold consumable at h
  simp only [Bool.and_eq_true, Option.isNone_iff_eq_none] at h
  obtain ⟨⟨⟨_, hw⟩, _⟩, _⟩ := h
  exact hw

/-- The machine once the header of the slot at READIDX has been read. -/
def headerRead (s : State) (k : Queue) : State := hubTouch s k.asid (slotVa k) 4

/-- The machine once the whole slot has been read. -/
def slotRead (s : State) (k : Queue) : State := hubTouch s k.asid (slotVa k) 128

/-- The slot and the field READIDX of the descriptor can be written. -/
def SlotOpen (s : State) (k : Queue) : Prop :=
  accessible s k.asid (slotVa k) true = true ∧ accessible s k.asid (k.desc.toNat + 0x18) true = true

section

variable {s : State} {p : BitVec 3} {q : BitVec 8} {k : Queue} (hq : getQueue s p q.toNat = some k)

include hq

theorem exec_consumeSlot_idle (hc : consumable s k = false) : exec (.consumeSlot p q) s = .next s := by
  show execConsumeSlot p q s = _
  simp only [execConsumeSlot, hq, hc, Bool.not_false, if_true]

theorem exec_consumeSlot_stops (hc : consumable s k = true) {bs : List Byte}
    (hr : hubRead (headerRead s k) k.asid (slotVa k) 4 = some (bs, false)) (hv : bitAt (natOfBytes bs) 31 = false) :
    exec (.consumeSlot p q) s = .next (setQueue (headerRead s k) p q.toNat { k with stopped := true }) := by
  unfold headerRead at hr
  show execConsumeSlot p q s = _
  simp only [execConsumeSlot, hq, hc, hr, hv, Bool.not_true, Bool.false_eq_true, if_false]
  rfl

/-- A slot whose header does not read with VALID clear goes on to its checks. -/
theorem exec_consumeSlot_valid (hc : consumable s k = true)
    (hv : ∀ bs, hubRead (headerRead s k) k.asid (slotVa k) 4 = some (bs, false) → bitAt (natOfBytes bs) 31 = true) :
    exec (.consumeSlot p q) s = .next (consumeValid (headerRead s k) p q.toNat k) := by
  show execConsumeSlot p q s = _
  simp only [execConsumeSlot, hq, hc, Bool.not_true, Bool.false_eq_true, if_false]
  split
  · rename_i bs hr
    rw [if_pos (hv bs hr)]
    rfl
  · rfl

end

section

variable {s : State} {p : BitVec 3} {q : Nat} {k : Queue}

theorem consumeValid_shut (h : ¬ SlotOpen s k) : consumeValid s p q k = haltQueue s p k.asid q k.readIdx 0x07 := by
  refine if_pos ?_
  rwa [Bool.not_eq_true', ← Bool.not_eq_true, Bool.and_eq_true]

variable (h : SlotOpen s k)

include h

theorem consumeValid_open : consumeValid s p q k =
    match hubRead (slotRead s k) k.asid (slotVa k) 128 with
    | none => haltQueue (slotRead s k) p k.asid q k.readIdx 0x07
    | some (_, true) => haltQueue (slotRead s k) p k.asid q k.readIdx 0x0B
    | some (bs, false) =>
      match packetCause (slotRead s k) p (ctxNc (slotRead s k) k.asid) (bytesToWords bs) with
      | some c => haltQueue (slotRead s k) p k.asid q k.readIdx c
      | none => consume (slotRead s k) p q k (bytesToWords bs) := by
  obtain ⟨hs, hd⟩ := h
  unfold consumeValid
  rw [hs, hd]
  rfl

theorem consumeValid_unmapped (hr : hubRead (slotRead s k) k.asid (slotVa k) 128 = none) :
    consumeValid s p q k = haltQueue (slotRead s k) p k.asid q k.readIdx 0x07 := by
  rw [consumeValid_open h, hr]

theorem consumeValid_poisoned {bs : List Byte} (hr : hubRead (slotRead s k) k.asid (slotVa k) 128 = some (bs, true)) :
    consumeValid s p q k = haltQueue (slotRead s k) p k.asid q k.readIdx 0x0B := by
  rw [consumeValid_open h, hr]

variable {bs : List Byte} (hr : hubRead (slotRead s k) k.asid (slotVa k) 128 = some (bs, false))

include hr

theorem consumeValid_refused {c : Nat}
    (hc : packetCause (slotRead s k) p (ctxNc (slotRead s k) k.asid) (bytesToWords bs) = some c) :
    consumeValid s p q k = haltQueue (slotRead s k) p k.asid q k.readIdx c := by
  rw [consumeValid_open h, hr]
  dsimp only
  rw [hc]

theorem consumeValid_consumes
    (hc : packetCause (slotRead s k) p (ctxNc (slotRead s k) k.asid) (bytesToWords bs) = none) :
    consumeValid s p q k = consume (slotRead s k) p q k (bytesToWords bs) := by
  rw [consumeValid_open h, hr]
  dsimp only
  rw [hc]

end

/-- Arming a packet's own counter, where its initial count does not end below 0, changes that counter alone (R40). -/
theorem armCounter_arms {s : State} {id : Nat} {j : Job}
    (h : ∀ i, j.counter = some i → 0 ≤ (getCounter s i).value + (pw j.words 17 : Int)) :
    (∃ c, armCounter s id j = { s with counters := c }) ∧ ∀ i, getCounter (armCounter s id j) i =
      if j.counter = some i then ⟨true, (getCounter s i).value + (pw j.words 17 : Int), j.asid⟩ else getCounter s i := by
  unfold armCounter
  cases hj : j.counter with
  | none => exact ⟨⟨_, rfl⟩, fun i => rfl⟩
  | some n =>
    dsimp only
    rw [if_neg (Int.not_lt.mpr (h n hj))]
    refine ⟨⟨_, rfl⟩, fun i => ?_⟩
    by_cases hi : i = n
    · subst hi
      rw [if_pos rfl, getCounter_setCounter_self]
    · rw [if_neg (by simpa using Ne.symm hi), getCounter_setCounter_ne _ hi]

/-- The machine once VALID is clear in the slot and READIDX is stored. -/
def slotTaken (s : State) (k : Queue) (words : List Word) : State :=
  hubWrite (hubWrite s k.asid (slotVa k) (bytesOfNat 4 (pw words 0 % 2 ^ 31))) k.asid (k.desc.toNat + 0x18)
    (bytesOfNat 8 (k.readIdx + 1))

theorem slotTaken_onlyMemory (s : State) (k : Queue) (words : List Word) : OnlyMemory s (slotTaken s k words) :=
  (hubWrite_onlyMemory ..).trans (hubWrite_onlyMemory ..)

/-- What consuming a slot leaves: the queue stands at the next slot, and the packet is admitted with its counter armed. -/
theorem consume_admits {s : State} {p : BitVec 3} {q : Nat} {k : Queue} {words : List Word} {j : Job}
    (hq : getQueue s p q = some k) (hj : j = newJob p (getPart s p) k.asid q k.readIdx words)
    (h : ∀ i, j.counter = some i → 0 ≤ (getCounter s i).value + (pw words 17 : Int)) :
    let u := slotTaken s k words
    let t := consume s p q k words
    t.dev = u.dev ∧ t.hostMem = u.hostMem ∧
    getQueue t p q = some { k with readIdx := k.readIdx + 1, waiting := if pkType words = 4 then some u.nextId else k.waiting } ∧
    getJob t u.nextId = some j ∧ (∀ i, i ≠ u.nextId → getJob t i = getJob s i) ∧
    ∀ i, getCounter t i = if j.counter = some i then ⟨true, (getCounter s i).value + (pw words 17 : Int), k.asid⟩
      else getCounter s i := by
  intro u t
  have hu : OnlyMemory s u := slotTaken_onlyMemory s k words
  have hjob : newJob p (getPart u p) k.asid q k.readIdx words = j := by rw [hu.getPart, hj]
  have hwords : j.words = words := by rw [hj]; rfl
  have hasid : j.asid = k.asid := by rw [hj]; rfl
  let w := setJob { u with nextId := u.nextId + 1 } u.nextId j
  have hcount : ∀ i, getCounter w i = getCounter s i := hu.getCounter
  obtain ⟨⟨c, harm⟩, hcounter⟩ := armCounter_arms (s := w) (id := u.nextId) (j := j)
    (fun i hi => by rw [hcount, hwords]; exact h i hi)
  have hqueue : getQueue (armCounter w u.nextId j) p q = some k := by
    rw [harm]
    exact (hu.getQueue p q).trans hq
  have ht : t = setQueue (armCounter w u.nextId j) p q
      { k with readIdx := k.readIdx + 1, waiting := if pkType words = 4 then some u.nextId else k.waiting } := by
    show consume s p q k words = _
    unfold consume admitJob newId
    dsimp only
    rw [← slotTaken, hjob, hqueue]
  rw [ht]
  refine ⟨?_, ?_, getQueue_setQueue_self .., ?_, fun i hi => ?_, fun i => ?_⟩
  · rw [setQueue_dev, harm]; rfl
  · rw [setQueue_hostMem, harm]; rfl
  · rw [getJob_setQueue, harm]; exact getJob_setJob_self ..
  · rw [getJob_setQueue, harm]; exact (getJob_setJob_ne j hi).trans (hu.getJob i)
  · rw [getCounter_setQueue, hcounter, hcount, hwords, hasid]

/-! ### Queues are notified and consumed -/

/-- Settles O48, by an equation for each answer of the two instructions. -/
theorem queuesAreNotifiedAndConsumed : Obligations.QueuesAreNotifiedAndConsumed := by
  unfold Obligations.QueuesAreNotifiedAndConsumed
  intro s p q k x hq hx
  refine ⟨fun v => ?notify, exec_consumeSlot_idle hq, fun hc => ?consume⟩
  case notify =>
    intro ready
    refine ⟨exec_notifyWrite_ignored hq hx, fun hr hn => ?_⟩
    have hexec := exec_notifyWrite_taken hq hx hr hn
    refine ⟨fun hv => ⟨_, hexec.trans (if_pos hv), haltQueue_halts ..⟩, fun hv => ⟨_, hexec.trans (if_neg (by omega)), ?_⟩⟩
    refine ⟨?_, getJob_retestQueue _ k, ?_⟩
    · obtain ⟨j, hj⟩ := retestQueue_eq (setQueue s p q.toNat _) k
      rw [hj]
      exact getQueue_setQueue_self ..
    · obtain ⟨j, hj⟩ := retestQueue_eq (setQueue s p q.toNat _) k
      rw [hj]
      exact .of_eq rfl rfl rfl
  case consume =>
    intro slot u
    refine ⟨fun bs => exec_consumeSlot_stops hq hc, fun hv => ?_⟩
    have hexec : exec (.consumeSlot p q) s = .next (consumeValid u p q.toNat k) := exec_consumeSlot_valid hq hc hv
    intro halts open_ w
    have hw : OnlyMemory s w := (hubTouch_onlyMemory ..).trans (hubTouch_onlyMemory ..)
    have hnc : ctxNc w k.asid = x.nc := by rw [ctxNc, hw.getCtx, hx]
    have halted {r : State} {n : Nat} (h : consumeValid u p q.toNat k = haltQueue r p k.asid q.toNat k.readIdx n) : halts r n :=
      ⟨_, hexec.trans (congrArg Host.Outcome.next h), haltQueue_halts ..⟩
    refine ⟨fun ho => halted (consumeValid_shut ho), fun ho hr => halted (consumeValid_unmapped ho hr), fun bs b ho hr => ?_⟩
    refine ⟨fun hb => halted (consumeValid_poisoned ho (hb ▸ hr)), fun hb => ?_⟩
    subst hb
    intro words
    refine ⟨fun n hn => halted (consumeValid_refused ho hr (hnc.symm ▸ hn)), ?_⟩
    intro s1 own hn hown
    have hj : newJob p (getPart w p) k.asid q.toNat k.readIdx words = newJob p (getPart s p) k.asid q.toNat k.readIdx words := by
      rw [hw.getPart]
    have hcounter : (newJob p (getPart s p) k.asid q.toNat k.readIdx words).counter = own := by
      show (if _ then _ else _) = (if _ then _ else _)
      simp only [Bool.and_eq_true, Bool.or_eq_true, decide_eq_true_eq]
    obtain ⟨hdev, hhost, hqueue, hjob, hjobs, hcounters⟩ := consume_admits ((hw.getQueue p q.toNat).trans hq) hj.symm
      (fun i hi => by rw [hw.getCounter]; exact hown i (hcounter ▸ hi))
    refine ⟨_, _, hexec.trans (congrArg Host.Outcome.next (consumeValid_consumes ho hr (hnc.symm ▸ hn))), hdev, hhost, ?_, hjob,
      fun i hi => (hjobs i hi).trans (hw.getJob i), ⟨rfl, rfl, rfl, rfl, rfl, hcounter, rfl, rfl, rfl⟩, fun i => ?_⟩
    · rw [consumable_waiting hc] at hqueue
      exact hqueue
    · refine (hcounters i).trans ?_
      rw [hcounter, hw.getCounter]

/-! ### Packets under way, and what lets one complete (R17, R40, R41) -/

/-- Packet `id` is `j`, which has started and has not come to its end. -/
structure Underway (s : State) (id : Nat) (j : Job) : Prop where
  found : getJob s id = some j
  started : j.started = true
  incomplete : j.completed = false
  sound : j.failed = false

theorem Underway.of_jobs {s t : State} {id : Nat} {j : Job} (h : Underway s id j) (ht : t.jobs = s.jobs) : Underway t id j where
  found := by rw [getJob, ht]; exact h.found
  started := h.started
  incomplete := h.incomplete
  sound := h.sound

/-- No counter that the packet counts down raises COUNTER, and its context is not being destroyed. -/
def MayComplete (s : State) (j : Job) : Prop :=
  SuccessorsCount s j ∧ ∀ x, getCtx s j.asid = some x → x.destroying = false

theorem MayComplete.of_eq {s t : State} {j : Job} (h : MayComplete s j) (hc : t.counters = s.counters)
    (hp : t.partitions = s.partitions) (hx : t.contexts = s.contexts) : MayComplete t j := by
  unfold MayComplete SuccessorsCount Decrements getCounter getPart getCtx at *
  rwa [hc, hp, hx]

theorem MayComplete.of_onlyMemory {s t : State} {j : Job} (h : MayComplete s j) (ht : OnlyMemory s t) : MayComplete t j :=
  h.of_eq ht.counters ht.partitions ht.contexts

theorem MayComplete.completes {s : State} {j : Job} (h : MayComplete s j) (id : Nat) :
    PacketCompletes s (finishJob s id j) id j := by
  obtain ⟨hs, hx⟩ := h
  exact (finishJob_completes hs hx).1

/-! ### Updates of signals (R18, R45, R46) -/

/-- The WAITs of a partition that have started and not completed are to be tested again. -/
theorem retestWaits_eq (s : State) (p : BitVec 3) : retestWaits s p = { s with jobs := s.jobs.map (fun e =>
    if e.2.part = p ∧ pkType e.2.words = 4 ∧ e.2.started = true ∧ e.2.completed = false then (e.1, { e.2 with retest := true })
    else e) } := by
  simp only [retestWaits, Bool.and_eq_true, decide_eq_true_eq, Bool.not_eq_true', and_assoc]

/-- A write of one unit of bytes by a context stands at its home, where no member is lost. -/
theorem performBy_storedAt {s : State} (hg : allGood s = true) (a : BitVec 16) {h : Home} (hf : ∀ d r w, h ≠ .fabric d r w)
    (bs : List Byte) (keep : Nat) :
    StoredAt s (performBy s a (homeSector h) (bs.zipIdx.map (fun e => (homeOffset h + e.2, e.1))) keep) h bs := by
  let cells := bs.zipIdx.map (fun e => (homeOffset h + e.2, e.1))
  have hw : SlicesOnly s (l2Write s a (homeSector h) cells keep) := l2Write_slicesOnly ..
  have hdev : (l2Write s a (homeSector h) cells keep).dev = s.dev := by rw [hw]
  have hhost : (l2Write s a (homeSector h) cells keep).hostMem = s.hostMem := by rw [hw]
  have hst := perform_stored (hw.allGood.trans hg) h hf bs
  unfold StoredAt at hst ⊢
  rw [hdev, hhost] at hst
  exact hst

/-- The value of a signal that was `old`, once updated: OP 0 stores, 1 adds, 2 subtracts. -/
def signalNew (op : Nat) (x old : Double) : Double := if op = 0 then x else if op = 1 then old + x else old - x

/-- What a remote device is asked for, to update a signal. -/
def signalAsk (op : Nat) (x : Double) : RemoteOp := if op = 0 then .storeWide x else .addWide (if op = 1 then x else 0 - x)

/-- The update of a signal at its home. -/
def signalStored (s : State) (a : BitVec 16) (h : Home) (op : Nat) (x : Double) : State :=
  performBy s a (homeSector h) ((bytesOfNat 8 (signalNew op x (BitVec.ofNat 64 (natOfBytes (homeBytes s h 8)))).toNat).zipIdx.map
    (fun e => (homeOffset h + e.2, e.1))) 0

/-- The machine once the signal at `va` has been updated for a packet, as that leaves the packet. -/
def signalled (s : State) (id : Nat) (j : Job) (va op : Nat) (x : Double) : State :=
  endSignal (updateSignal s id j.part j.asid va op x).2 id j (updateSignal s id j.part j.asid va op x).1

section

variable {s : State} {id : Nat} {j : Job} {va op : Nat} {x : Double}

theorem signalled_page {d : Bool} (h : translate (touchWalk s j.asid va) j.asid va = .page d) :
    signalled s id j va op x = refuseJob (touchWalk s j.asid va) id j 0x07 := by
  simp only [signalled, updateSignal, h, endSignal]

theorem signalled_fabric {d r a : Nat} (h : translate (touchWalk s j.asid va) j.asid va = .fabric d r a) :
    signalled s id j va op x =
      setJob (askRemote (touchWalk s j.asid va) (.signal id) d r a (signalAsk op x) []) id { j with asking := true } := by
  simp only [signalled, updateSignal, h, endSignal, signalAsk]

variable {h : Home} {f : Leaf} (ht : translate (touchWalk s j.asid va) j.asid va = .mem h f)

include ht

theorem signalled_readOnly (hf : f.write = false) :
    signalled s id j va op x = refuseJob (touchWalk s j.asid va) id j 0x07 := by
  simp only [signalled, updateSignal, ht, hf, Bool.not_false, Bool.false_eq_true, if_true, if_false, endSignal]

theorem signalled_poisoned (hf : f.write = true)
    (hp : homePoisoned (homeTouch (touchWalk s j.asid va) h) h 8 = true) : signalled s id j va op x =
      haltQueue (finishJob (homeTouch (touchWalk s j.asid va) h) id j) j.part j.asid j.queue j.idx 0x0B := by
  simp only [signalled, updateSignal, ht, hf, hp, Bool.not_true, Bool.false_eq_true, if_true, if_false, endSignal]

theorem signalled_stored (hf : f.write = true)
    (hp : homePoisoned (homeTouch (touchWalk s j.asid va) h) h 8 = false) : signalled s id j va op x =
      finishJob (retestWaits (signalStored (homeTouch (touchWalk s j.asid va) h) j.asid h op x) j.part) id j := by
  simp only [signalled, updateSignal, ht, hf, hp, Bool.not_true, Bool.false_eq_true, if_true, if_false, endSignal, signalStored,
    signalNew]

end

theorem exec_signalPacket {s : State} {id : Nat} {j : Job} (hu : Underway s id j) (ht : pkType j.words = 3)
    (ha : j.asking = false) : exec (.signalPacket id) s = .next (signalled s id j (word64 j.words 2) (bits (pw j.words 6) 1 0)
      (BitVec.ofNat 64 (word64 j.words 4))) := by
  show execSignalPacket id s = _
  simp only [execSignalPacket, hu.found, hu.started, hu.incomplete, hu.sound, ht, ha, ne_eq, not_true, decide_false, Bool.not_true,
    Bool.or_self, Bool.false_eq_true, if_false]
  rfl

theorem completeJob_unsignalled {s : State} {id : Nat} {j : Job} (h : word64 j.words 22 = 0) :
    completeJob s id j = finishJob s id j := if_pos h

theorem completeJob_signalled {s : State} {id : Nat} {j : Job} (h : word64 j.words 22 ≠ 0) :
    completeJob s id j = signalled s id j (word64 j.words 22) 2 1 := if_neg h

/-! ### The completion of a launch (R17, R179, R225) -/

theorem drainJob_onlyMemory (s : State) (id : Nat) : OnlyMemory s (drainJob s id) :=
  .foldl (fun _ _ => drainCore_onlyMemory ..) _ s

theorem launchHeld_iff {s : State} {id : Nat} : launchHeld s id = true ↔ (∃ e ∈ s.remotes, ∃ m, e.2.owner = .store m id) ∨
    ∃ e ∈ s.commands, ∃ b, getBlock s e.2.blk = some b ∧ b.job = id ∧ coursesEnded s e.2.blk b = true := by
  rw [launchHeld, Bool.or_eq_true, remoteOpen, List.any_eq_true, List.any_eq_true]
  refine or_congr (exists_congr fun e => and_congr_right fun _ => ?_) (exists_congr fun e => and_congr_right fun _ => ?_)
  · cases e.2.owner <;> simp
  · cases getBlock s e.2.blk <;> simp

theorem exec_launchComplete {s : State} {id : Nat} {j : Job} (hu : Underway s id j) (ht : pkType j.words = 1)
    (ha : j.asking = false) (hd : j.doneBlocks = pkBlocks j.words) : exec (.launchComplete id) s =
      .next (if launchHeld (drainJob s id) id then drainJob s id else completeJob (drainJob s id) id j) := by
  have hl : launchDone j = true := by simp [launchDone, ht, hu.started, hu.incomplete, hu.sound, ha, hd]
  show execLaunchComplete id s = _
  simp only [execLaunchComplete, hu.found, hl, if_true]

theorem exec_launchComplete_undone {s : State} {id : Nat} {j : Job} (hj : getJob s id = some j)
    (hd : j.doneBlocks ≠ pkBlocks j.words) : exec (.launchComplete id) s = .next s := by
  have hl : launchDone j = false := by simp [launchDone, hd]
  show execLaunchComplete id s = _
  simp only [execLaunchComplete, hj, hl, Bool.false_eq_true, if_false]

/-! ### The units of a COPY (R43) -/

/-- What the end of its units leaves of a COPY. -/
def copyEnds (s : State) (id : Nat) (j : Job) : CopyEnd → State
  | .done => completeJob s id { j with copied := copyLength j.words, brought := none }
  | .failed => refuseJob s id j 0x07
  | .asked n => setJob s id { j with copied := n, asking := true, brought := none }

theorem exec_copyPacket {s u : State} {id : Nat} {j : Job} {e : CopyEnd} (hu : Underway s id j) (ht : pkType j.words = 2)
    (ha : j.asking = false) (h : copyUnits id j (copyLength j.words - j.copied) j.copied j.brought s = (e, u)) :
    exec (.copyPacket id) s = .next (copyEnds u id j e) := by
  show execCopyPacket id s = _
  simp only [execCopyPacket, hu.found]
  rw [if_neg (by simp [ht, hu.started, hu.incomplete, hu.sound, ha]), h]
  cases e <;> rfl

/-- No byte is left: every unit is written. -/
theorem copyUnits_end {id : Nat} {j : Job} {i : Nat} (h : copyLength j.words ≤ i) (fuel : Nat) (got : Option RemoteAnswer)
    (s : State) : copyUnits id j fuel i got s = (.done, s) := by
  cases fuel with
  | zero => rfl
  | succ fuel => exact if_pos (Nat.sub_eq_zero_of_le h)

/-- The bytes of the unit of a COPY that begins at byte `i`: it crosses no sector pair of the destination and no page of the
source (log 22). -/
def unitLength (j : Job) (i : Nat) : Nat :=
  min (copyLength j.words - i) (min (64 - (word64 j.words 4 + i) % 64) (65536 - (word64 j.words 2 + i) % 65536))

/-- The machine once a unit of `n` bytes has been read and its destination walked. -/
def unitTouched (s : State) (j : Job) (i n : Nat) : State :=
  touchWalk (if bits (pw j.words 8) 1 0 = 1 then s else hubTouch s j.asid (word64 j.words 2 + i) n) j.asid (word64 j.words 4 + i)

theorem unitTouched_onlyMemory (s : State) (j : Job) (i n : Nat) : OnlyMemory s (unitTouched s j i n) :=
  (HomeOnly.trans (.ite (.refl s) (hubTouch_homeOnly ..)) (touchWalk_homeOnly ..)).onlyMemory

/-- What a unit of `n` bytes from byte `i` on does, whose bytes come from `src`; `next` is how the COPY goes on. -/
def copyUnit (id : Nat) (j : Job) (i n : Nat) (next : State → CopyEnd × State) (s : State) (src : CopySource) : CopyEnd × State :=
  match src with
  | .none => (.failed, s)
  | .ask d r va => (.asked i, askRemote s (.copyRead id) d r va (.load n) [])
  | .bytes bs =>
    match translate s j.asid (word64 j.words 4 + i) with
    | .mem h f =>
      if f.write then next (putGlobal s j.asid (bs.zipIdx.map (fun e => (homeAdd h e.2, e.1)))) else (.failed, s)
    | .fabric d r va => (.asked (i + n), askRemote s (.copyWrite id) d r va
        (.store (bs.zipIdx.filterMap (fun e => if e.1.2 then some e.2 else none))) (bs.map (·.1)))
    | .page _ => (.failed, s)

theorem copyUnits_succ {j : Job} {i n : Nat} (hi : i < copyLength j.words) (hn : unitLength j i = n) (id fuel : Nat)
    (got : Option RemoteAnswer) (s : State) : copyUnits id j (fuel + 1) i got s =
      copyUnit id j i n (copyUnits id j fuel (i + n) none) (unitTouched s j i n) (copySource (unitTouched s j i n) j i n got) := by
  subst hn
  exact (if_neg (Nat.sub_ne_zero_of_lt hi)).trans rfl

/-- A unit that holds every byte left is the last. -/
theorem copyUnits_last {j : Job} {i n : Nat} (hi : i < copyLength j.words) (hn : unitLength j i = n)
    (hlast : i + n = copyLength j.words) (id : Nat) (got : Option RemoteAnswer) (s : State) :
    copyUnits id j (copyLength j.words - i) i got s =
      copyUnit id j i n (fun t => (.done, t)) (unitTouched s j i n) (copySource (unitTouched s j i n) j i n got) := by
  obtain ⟨fuel, hfuel⟩ : ∃ fuel, copyLength j.words - i = fuel + 1 := Nat.exists_eq_succ_of_ne_zero (Nat.sub_ne_zero_of_lt hi)
  rw [hfuel, copyUnits_succ hi hn, funext (copyUnits_end hlast.ge fuel none)]

section

variable {s : State} {id : Nat} {j : Job} {i n : Nat} {next : State → CopyEnd × State} {bs : List (Poi Byte)}

theorem copyUnit_page {d : Bool} (h : translate s j.asid (word64 j.words 4 + i) = .page d) :
    copyUnit id j i n next s (.bytes bs) = (.failed, s) := by
  simp only [copyUnit, h]

theorem copyUnit_fabric {d r a : Nat} (h : translate s j.asid (word64 j.words 4 + i) = .fabric d r a) :
    copyUnit id j i n next s (.bytes bs) = (.asked (i + n), askRemote s (.copyWrite id) d r a
      (.store (bs.zipIdx.filterMap (fun e => if e.1.2 then some e.2 else none))) (bs.map (·.1))) := by
  simp only [copyUnit, h]

theorem copyUnit_mem {h : Home} {f : Leaf} (ht : translate s j.asid (word64 j.words 4 + i) = .mem h f) :
    copyUnit id j i n next s (.bytes bs) =
      if f.write then next (putGlobal s j.asid (bs.zipIdx.map (fun e => (homeAdd h e.2, e.1)))) else (.failed, s) := by
  simp only [copyUnit, ht]

end

section

variable {s : State} {j : Job} {i n : Nat} {got : Option RemoteAnswer}

theorem copySource_fill (h : bits (pw j.words 8) 1 0 = 1) : copySource s j i n got =
    .bytes ((List.range n).map (fun k => (BitVec.ofNat 8 (pw j.words 9 / 2 ^ (8 * ((i + k) % 4))), false))) := if_pos h

variable (h : ¬ bits (pw j.words 8) 1 0 = 1)

include h

theorem copySource_brought {a : RemoteAnswer} (hg : got = some a) (ha : a.ok = true) :
    copySource s j i n got = .bytes (answerPois n a) := by
  subst hg
  exact (if_neg h).trans (if_pos ha)

theorem copySource_mem (hg : got = none) {o : Home} {f : Leaf} (ht : translate s j.asid (word64 j.words 2 + i) = .mem o f) :
    copySource s j i n got = .bytes (homePois s o n) := by
  subst hg
  refine (if_neg h).trans ?_
  simp only [ht]

theorem copySource_fabric (hg : got = none) {d r a : Nat}
    (ht : translate s j.asid (word64 j.words 2 + i) = .fabric d r a) : copySource s j i n got = .ask d r a := by
  subst hg
  refine (if_neg h).trans ?_
  simp only [ht]

theorem copySource_page (hg : got = none) {d : Bool} (ht : translate s j.asid (word64 j.words 2 + i) = .page d) :
    copySource s j i n got = .none := by
  subst hg
  refine (if_neg h).trans ?_
  simp only [ht]

end

/-! ### Answers of remote devices to packets (R18, R43, R400) -/

theorem exec_remoteAccessDone_answers {s : State} {rid : Nat} {r : Remote} (hr : find? s.remotes rid = some r) (ok : Bool)
    (poison : List Nat) (data : List Byte) : exec (.remoteAccessDone r.device rid ok poison data) s =
      .next (answerOwner { s with remotes := del s.remotes rid } r.owner ⟨ok, poison, data⟩) := by
  show execRemoteAccessDone r.device rid ok poison data s = _
  simp only [execRemoteAccessDone, answerRemote, hr, if_true]

theorem answerJob_asking {s : State} {id : Nat} {j : Job} (hu : Underway s id j) (ha : j.asking = true) (f : Job → State) :
    answerJob s id f = f j := by
  simp only [answerJob, hu.found, hu.incomplete, hu.sound, ha, Bool.not_false, Bool.and_self, if_true]

/-- An answer to a COPY: what a read has brought is kept for the unit, and a failure is XLATE. -/
theorem answerOwner_copy {s : State} {id : Nat} {j : Job} {o : RemoteOwner} (hu : Underway s id j) (ha : j.asking = true)
    (ho : o = .copyRead id ∨ o = .copyWrite id) (a : RemoteAnswer) : answerOwner s o a =
      if a.ok then setJob s id { j with asking := false, brought := if o = .copyRead id then some a else none }
      else refuseJob s id { j with asking := false } 0x07 := by
  rcases ho with rfl | rfl <;> simp only [answerOwner, answerJob_asking hu ha, answerCopy] <;> cases a.ok <;> rfl

/-- An answer for a signal: a failure is XLATE, poison halts the queue of the packet that completes. -/
theorem answerOwner_signal {s : State} {id : Nat} {j : Job} {o : RemoteOwner} (hu : Underway s id j) (ha : j.asking = true)
    (ho : o = .signal id) (a : RemoteAnswer) : answerOwner s o a = endSignal
      (if a.ok && a.poison.isEmpty then retestWaits s j.part else s) id { j with asking := false }
      (if a.ok then if a.poison.isEmpty then .done else .poison else .xlate) := by
  subst ho
  rw [answerOwner, answerJob_asking hu ha, answerSignal]
  cases a.ok <;> cases a.poison.isEmpty <;> rfl

/-! ### SIGNAL, COPY and LAUNCH packets complete -/

/-- Settles O50, by an equation for each answer of the four instructions. -/
theorem signalsCopiesAndLaunchesComplete : Obligations.SignalsCopiesAndLaunchesComplete := by
  unfold Obligations.SignalsCopiesAndLaunchesComplete
  intro s id j hj hstarted hopen hsound hsucc hctx waits updates
  have hu : Underway s id j := ⟨hj, hstarted, hopen, hsound⟩
  have hmay : MayComplete s j := ⟨hsucc, hctx⟩
  have updated {w : State} {i : Instr} {va op : Nat} {x : Double} (hw : OnlyMemory s w)
      (hexec : exec i s = .next (signalled w id j va op x)) :
      updates (touchWalk w j.asid va) i va (signalAsk op x) (signalNew op x) := by
    have hwalk : OnlyMemory s (touchWalk w j.asid va) := hw.trans (touchWalk_homeOnly ..).onlyMemory
    refine ⟨fun d hd => ⟨_, hexec.trans (congrArg _ (signalled_page hd)), refuseJob_refused ..⟩,
      fun d r a hd => hexec.trans (congrArg _ (signalled_fabric hd)), fun h g hm hf => ⟨fun hg =>
      ⟨_, hexec.trans (congrArg _ (signalled_readOnly hm hg)), refuseJob_refused ..⟩, fun hg => ?_⟩⟩
    intro v
    have hv : OnlyMemory s v := hwalk.trans (homeTouch_homeOnly ..).onlyMemory
    refine ⟨fun hp => ⟨_, _, hexec.trans (congrArg _ (signalled_poisoned hm hg hp)), (hmay.of_onlyMemory hv).completes id,
      haltQueue_halts ..⟩, fun hp hgood => ?_⟩
    have hst : OnlyMemory v (signalStored v j.asid h op x) := performBy_onlyMemory ..
    have hjobs : (signalStored v j.asid h op x).jobs = s.jobs := (hv.trans hst).jobs
    have hmay' : MayComplete (retestWaits (signalStored v j.asid h op x) j.part) j :=
      (hmay.of_onlyMemory (hv.trans hst)).of_eq rfl rfl rfl
    refine ⟨_, _, hexec.trans (congrArg _ (signalled_stored hm hg hp)), ?_, ?_, ?_, hmay'.completes id⟩
    · exact performBy_storedAt hgood j.asid hf _ 0
    · rw [retestWaits_eq, hjobs]
    · rw [← hjobs]
      exact hst
  refine ⟨fun ht ha op hop => ?signal, fun ht ha hd => ?launch, fun _ hd => exec_launchComplete_undone hj hd,
    fun ht ha hv hc => ?copied, fun ht ha hv hc => ?copy, fun rid r ok poison data hr ha => ?answer⟩
  case signal =>
    subst hop
    exact updated (.refl s) (exec_signalPacket hu ht ha)
  case launch =>
    intro u held
    have hdrain : OnlyMemory s u := drainJob_onlyMemory s id
    have hexec := exec_launchComplete hu ht ha hd
    have hheld : launchHeld u id = true ↔ held := launchHeld_iff
    refine ⟨fun h => hexec.trans (congrArg _ (if_pos (hheld.mpr h))), fun h h0 => ?_, fun h h0 => ?_⟩
    all_goals replace hexec := hexec.trans (congrArg _ (if_neg (hheld.not.mpr h)))
    · exact ⟨_, hexec.trans (congrArg _ (completeJob_unsignalled h0)), (hmay.of_onlyMemory hdrain).completes id⟩
    · exact updated hdrain (hexec.trans (congrArg _ (completeJob_signalled h0)))
  case copied =>
    have hjob : { j with copied := copyLength j.words, brought := none } = { j with brought := none } := by rw [← hc]
    have hexec : exec (.copyPacket id) s = .next (completeJob s id { j with copied := copyLength j.words, brought := none }) :=
      exec_copyPacket hu ht ha (copyUnits_end hc.ge ..)
    rw [hjob] at hexec
    have hmay' : MayComplete s { j with brought := none } := hmay
    exact ⟨_, hexec.trans (congrArg _ (completeJob_unsignalled hv)), hmay'.completes id⟩
  case copy =>
    intro at_ n src dst hdst hsrc fill u brings refused asked
    have hn : unitLength j at_ = n := min_eq_left (le_min hdst hsrc)
    have hlast : at_ + n = copyLength j.words := Nat.add_sub_of_le hc.le
    have hunit := copyUnits_last hc hn hlast id j.brought s
    have touched : OnlyMemory s u := unitTouched_onlyMemory s j at_ n
    have fails (h : copyUnits id j n at_ j.brought s = (.failed, u)) : refused :=
      ⟨_, exec_copyPacket hu ht ha h, refuseJob_refused ..⟩
    have asks {t : State} {k : Nat} (h : copyUnits id j n at_ j.brought s = (.asked k, t)) : asked t k :=
      exec_copyPacket hu ht ha h
    refine ⟨fun hf hb => ⟨fun d hd => fails ?_, fun d r a hd => asks ?_⟩, fun bs hbs => ?_⟩
    · exact hunit.trans (congrArg _ (copySource_page hf hb hd))
    · exact hunit.trans (congrArg _ (copySource_fabric hf hb hd))
    have hsource : copySource u j at_ n j.brought = .bytes bs := by
      obtain ⟨hf, rfl⟩ | ⟨hf, a, hb, ha, rfl⟩ | ⟨hf, hb, h, g, hm, rfl⟩ := hbs
      · exact copySource_fill hf
      · exact copySource_brought hf hb ha
      · exact copySource_mem hf hb hm
    replace hunit := hunit.trans (congrArg _ hsource)
    refine ⟨fun d hd => fails (hunit.trans (copyUnit_page hd)), fun d r a hd => ?_, fun h g hm => ⟨fun hg => ?_, fun hg => ?_⟩⟩
    · rw [← hlast]
      exact asks (hunit.trans (copyUnit_fabric hd))
    · exact fails ((hunit.trans (copyUnit_mem hm)).trans (if_neg (by simp [hg])))
    · have hexec := exec_copyPacket hu ht ha ((hunit.trans (copyUnit_mem hm)).trans (if_pos hg))
      have hmay' : MayComplete (putGlobal u j.asid (bs.zipIdx.map (fun e => (homeAdd h e.2, e.1))))
          { j with copied := copyLength j.words, brought := none } :=
        hmay.of_onlyMemory (touched.trans (putGlobal_onlyMemory ..))
      exact ⟨_, hexec.trans (congrArg _ (completeJob_unsignalled hv)), hmay'.completes id⟩
  case answer =>
    intro i s1 j1
    have hu1 : Underway s1 id j := hu.of_jobs rfl
    have hmay1 : MayComplete s1 j1 := hmay.of_eq rfl rfl rfl
    have hexec := exec_remoteAccessDone_answers hr ok poison data
    refine ⟨fun ho => ?_, fun ho => ?_⟩
    · rw [answerOwner_copy hu1 ha ho] at hexec
      exact ⟨fun hok => ⟨_, hexec.trans (congrArg _ (if_neg (by simp [hok]))), refuseJob_refused ..⟩,
        fun hok => hexec.trans (congrArg _ (if_pos hok))⟩
    · rw [answerOwner_signal hu1 ha ho] at hexec
      refine ⟨fun hok => ?_, fun hok hp => ?_, fun hok hp => ?_⟩
      · subst hok
        exact ⟨_, hexec, refuseJob_refused ..⟩
      · obtain ⟨e, l, rfl⟩ := List.exists_cons_of_ne_nil hp
        subst hok
        exact ⟨_, _, hexec, hmay1.completes id, haltQueue_halts ..⟩
      · subst hok hp
        have hmay' : MayComplete (retestWaits s1 j.part) j1 := hmay1.of_eq rfl rfl rfl
        rw [← retestWaits_eq s1 j.part]
        exact ⟨_, hexec, hmay'.completes id⟩

end Sys2Proof.Machine

/-!
PROOF. A step keeps the canonical form of every memory (R20, R173, R297).
-/

namespace Sys2Proof.Machine

/-- Settles O7, by evaluating the memories of the reset state. -/
theorem resetMemoryIsCanonical : Obligations.ResetMemoryIsCanonical := by
  unfold Obligations.ResetMemoryIsCanonical
  rfl

/-- A step is a member of a formed collective, the head of the agenda, or what is due: each keeps the canonical form. -/
theorem step_memWf {s t : State} (hwf : s.memWf = true) (hstep : step s = .next t) : t.memWf = true := by
  unfold step runStep at hstep
  split at hstep
  · exact rejoin_memWf s _ _ _ hwf t hstep
  · split at hstep
    · exact applyMove_memWf s _ _ hwf t hstep
    · exact runIdle_memWf s hwf t hstep

/-- Settles O6, by cases on what the step does. -/
theorem everyStepKeepsMemoryCanonical : Obligations.EveryStepKeepsMemoryCanonical := by
  unfold Obligations.EveryStepKeepsMemoryCanonical
  exact fun _ _ => step_memWf

end Sys2Proof.Machine

/-!
SUPPORT and PROOF. Loads through records: one lane that misses the L1, and the fill of its line (R23, R161, R165, R172).
-/

namespace Sys2Proof.Machine

/-! ### Loads that end in a long write -/

/-- LDR or RECLD whose lanes have received the bytes `bs`, with the machine left as `t`: the words are pending (R84). -/
theorem exec_load_longLeaves {s t : State} {v : View} {k : Course} {i : Instr} {x : RecordAccess} {d : RegName} {n : Nat}
    {f : List Byte → List Word × Bool} {va : Nat → Nat} {bs : Nat → List Byte} (h : Issuing s v k) (hu : Unstopped s v i)
    (hi : (∃ d a rs j, i = .ldr d a rs j) ∨ ∃ d a rs j, i = .recld d a rs j) (hr : recordAccess v i = some x)
    (hd : loadDest v i = some (d, n, f)) (hh : heldFor v = none) (hs : strongReach (accessReach s v x) = false)
    (ht : OnlyMemory s t) (hl : loadLanes (touchAccess s v i) v x (accessReach s v x) =
      (x.lanes.map (fun l => (l, va l, some (bs l))), t)) :
    LongLeaves t v k (exec i s) i (loadFlags f x.lanes bs)
      (fun w => ∀ k0, Written k0 (applyWrites k0 w) (ranLanes v x.uniform) (loadWords d n f bs)) := by
  have hi' : (∃ d a rs j, i = .ldr d a rs j) ∨ (∃ d a rs j, i = .recld d a rs j) ∨ ∃ d a rs j, i = .ldrp d a rs j :=
    hi.imp_right .inl
  have demotes : { v.u with demotes := v.u.demotes || pollDemotes i } = v.u := by
    rcases hi with ⟨d, a, rs, j, rfl⟩ | ⟨d, a, rs, j, rfl⟩ <;> simp [pollDemotes]
  have hexec := load_end h.view hu hi' hr hd hh hs hl
  rw [loadEnd, demotes, (rec_lanes hr hi').1] at hexec
  rw [(rec_lanes hr hi').1]
  obtain ⟨pure, hid, hwritten⟩ := loadWrite_good t.nextId v x.uniform d va (fun l => (f (bs l)).1) n x.r.tag
    (servedOutside s v x (accessReach s v x))
  exact long_leaves _ ((ht.getCourse ..).trans h.course) h.stays pure hid hwritten hexec

theorem recordAccess_load_viaL1 {v : View} {i : Instr} {x : RecordAccess} (hr : recordAccess v i = some x)
    (hi : (∃ d a rs j, i = .ldr d a rs j) ∨ ∃ d a rs j, i = .recld d a rs j) : x.viaL1 = true := by
  rcases hi with ⟨d, a, rs, j, rfl⟩ | ⟨d, a, rs, j, rfl⟩ <;>
    (simp only [recordAccess, Option.some.injEq] at hr; subst hr; rfl)

theorem strongReach_mem (l va : Nat) (h : Home) {p : Leaf} (ho : p.order ≠ 1) : strongReach [(l, .mem va h p)] = false := by
  simp [strongReach, ho]

/-- One lane that reaches memory through a page that is not STRONG loads between no fences. -/
theorem loadLanes_one {s t : State} {v : View} {x : RecordAccess} {l va : Nat} {h : Home} {p : Leaf} {bs : List Byte}
    (ho : p.order ≠ 1)
    (hm : loadMem s v.b.core v.b.asid va h p x.size (!x.viaL1) x.r.cache = (bs, false, t)) :
    loadLanes s v x [(l, .mem va h p)] = ([(l, va, some bs)], t) := by
  simp only [loadLanes, strongReach_mem l va h ho, Bool.false_eq_true, if_false, List.foldl_cons, List.foldl_nil, loadLane, hm]
  rfl

/-! ### What a load that misses reads -/

/-- The machine once the line of an address stands in the L1 of core `m` as its home holds it. -/
def lineFilled (s : State) (m : Nat) (asid : BitVec 16) (va : Nat) (h : Home) (loose : Bool) : State :=
  let c := getCore s m
  let others := c.l1.filter (fun z => !(z.asid == asid && z.line == va / 128))
  setCore s m { c with l1 := (heldLine s asid va h loose :: others).take l1Lines }

theorem setCore_onlyMemory (s : State) (m : Nat) (c : Core) : OnlyMemory s (setCore s m c) := .set

theorem setCore_sameMemory (s : State) (m : Nat) (c : Core) : SameMemory s (setCore s m c) := .of_eq rfl rfl rfl

theorem homeBytes_setCore (s : State) (m : Nat) (c : Core) (h : Home) (n : Nat) :
    homeBytes (setCore s m c) h n = homeBytes s h n := by
  cases h <;> rfl

theorem homePoisoned_setCore (s : State) (m : Nat) (c : Core) (h : Home) (n : Nat) :
    homePoisoned (setCore s m c) h n = homePoisoned s h n := by
  cases h <;> rfl

theorem lineFilled_onlyMemory (s : State) (m : Nat) (asid : BitVec 16) (va : Nat) (h : Home) (loose : Bool) :
    OnlyMemory s (lineFilled s m asid va h loose) := setCore_onlyMemory ..

theorem lineFilled_sameMemory (s : State) (m : Nat) (asid : BitVec 16) (va : Nat) (h : Home) (loose : Bool) :
    SameMemory s (lineFilled s m asid va h loose) := setCore_sameMemory ..

theorem l1Find_lineFilled (s : State) (m : Nat) (asid : BitVec 16) (va : Nat) (h : Home) (loose : Bool) :
    l1Find (getCore (lineFilled s m asid va h loose) m) asid va = some (heldLine s asid va h loose) := by
  rw [lineFilled, setCore_l1, l1Find, l1Lines, List.take_succ_cons]
  exact List.find?_cons_of_pos (by simp [heldLine])

theorem SlicesOnly.heldLine {s t : State} (ht : SlicesOnly s t) (asid : BitVec 16) (va : Nat) (h : Home) (loose : Bool) :
    heldLine t asid va h loose = heldLine s asid va h loose := by
  rw [Machine.heldLine, ht.homeBytes, ← Machine.heldLine]

theorem SlicesOnly.onlyMemory {s t : State} (ht : SlicesOnly s t) : OnlyMemory s t := ht.homeOnly.onlyMemory

section

variable {s : State} {m va n cache : Nat} {asid : BitVec 16} {h : Home} {p : Leaf}

/-- A fill whose core has no store pending brings the line as its home holds it (R23). -/
theorem l1Fill_of_clean (hgood : allGood s = true) (hstores : (getCore s m).stores = [])
    (hpoison : linePoison s (homeLine h) = 0) (loose : Bool) :
    l1Fill s m asid va h loose = (heldLine s asid va h loose, lineFilled s m asid va h loose) := by
  have touched : (List.range 4).foldl (fun t k => homeTouch t (homeAdd (homeLine h) (32 * k))) s = s := by
    simp [List.range_succ, touch_good hgood]
  have kept : ∀ q : BitVec 4, clearedPoison [] (homeLine h) q = q := fun q => by simp [clearedPoison, List.range_succ]
  simp only [l1Fill, touched, hstores, hpoison, kept, overlay, List.foldl_nil, lineFilled, heldLine]

variable (hgood : allGood s = true) (hstores : (getCore s m).stores = []) (horder : p.order ≠ 1)

include hgood hstores horder

/-- A load that misses the L1 fills its line (R23, R165). -/
theorem loadMem_fills (hpage : p.cache ≠ 2) (hrecord : cache < 2) (hmiss : l1Find (getCore s m) asid va = none)
    (hpoison : linePoison s (homeLine h) = 0) :
    ∃ t, loadMem s m asid va h p n false cache = (lineBytes (heldLine s asid va h (p.order = 2)) va n, false, t) ∧
      OnlyMemory s t ∧ SameMemory s t ∧ l1Find (getCore t m) asid va = some (heldLine s asid va h (p.order = 2)) := by
  have sliced : SlicesOnly s (l2Access s asid h (homeSectors h n) 0 (keepOf p.cache cache)) := l2Access_slicesOnly ..
  refine ⟨lineFilled (l2Access s asid h (homeSectors h n) 0 (keepOf p.cache cache)) m asid va h (p.order = 2), ?_,
    sliced.onlyMemory.trans (lineFilled_onlyMemory ..), sliced.sameMemory.trans (lineFilled_sameMemory ..),
    (l1Find_lineFilled ..).trans (congrArg some (sliced.heldLine ..))⟩
  have filled := l1Fill_of_clean (asid := asid) (va := va) (h := h) (sliced.allGood.trans hgood)
    ((congrArg Core.stores (sliced.getCore m)).trans hstores) ((sliced.linePoison _).trans hpoison) (p.order = 2)
  rw [loadMem, if_neg (by simp [horder, hpage, hrecord]), loadL1, hmiss]
  simp only [filled, sliced.heldLine]
  simp [lineBytes, heldLine]

/-- A load that the L1 is not to keep reads its home and leaves the L1 (R161, R170). -/
theorem loadMem_passes (hpass : p.cache = 2 ∨ (2 ≤ cache ∧ l1Find (getCore s m) asid va = none))
    (hpoison : homePoisoned s h n = false) :
    ∃ t, loadMem s m asid va h p n false cache = (homeBytes s h n, false, t) ∧
      OnlyMemory s t ∧ SameMemory s t ∧ (getCore t m).l1 = (getCore s m).l1 := by
  obtain ⟨c, drained, hl1⟩ : ∃ c, drainStores s m (storesTo (homeLine h)) = setCore s m c ∧ c.l1 = (getCore s m).l1 :=
    ⟨_, nodrain hstores _, rfl⟩
  have sliced : SlicesOnly (setCore s m c) (l2Access (setCore s m c) asid h (homeSectors h n) 0 (keepOf p.cache cache)) :=
    l2Access_slicesOnly ..
  refine ⟨l2Access (setCore s m c) asid h (homeSectors h n) 0 (keepOf p.cache cache), ?_,
    (setCore_onlyMemory ..).trans sliced.onlyMemory, (setCore_sameMemory ..).trans sliced.sameMemory, ?_⟩
  · rw [loadMem, if_pos (by simpa [horder] using hpass), loadHome, drained, readHome, touch_good (sliced.allGood.trans hgood),
      sliced.homeBytes, sliced.homePoisoned, homeBytes_setCore, homePoisoned_setCore, hpoison]
  · rw [sliced.getCore, setCore_l1, hl1]

end

/-! ### The obligation -/

/-- Settles O29, from what a load that misses reads and the long write that brings it. -/
theorem loadsThatMissFillTheirLine : Obligations.LoadsThatMissFillTheirLine := by
  unfold Obligations.LoadsThatMissFillTheirLine
  intro s v k i x d n l va f h p hissue hun hi hr hd hh hlanes hreach horder hgood hstores
  have leaves {t : State} {bs : List Byte} (ht : OnlyMemory s t)
      (hm : loadMem s v.b.core v.b.asid va h p x.size false x.r.cache = (bs, false, t)) :
      LongLeaves t v k (exec i s) i (loadFlags f [l] (fun _ => bs))
        (fun w => ∀ k0, Written k0 (applyWrites k0 w) (ranLanes v x.uniform) (loadWords d n f (fun _ => bs))) := by
    rw [← hlanes]
    refine exec_load_longLeaves (va := fun _ => va) hissue hun hi hr hd hh (by rw [hreach, strongReach_mem l va h horder]) ht ?_
    rw [touchAccess_good hgood, hreach, hlanes]
    exact loadLanes_one horder (by rwa [recordAccess_load_viaL1 hr hi])
  refine ⟨fun hpage hrecord hmiss hpoison => ?_, fun hpass hpoison => ?_⟩
  · obtain ⟨t, hm, only, same, found⟩ := loadMem_fills (n := x.size) hgood hstores horder hpage hrecord hmiss hpoison
    exact ⟨t, only, same, found, leaves only hm⟩
  · obtain ⟨t, hm, only, same, kept⟩ := loadMem_passes hgood hstores horder hpass hpoison
    exact ⟨t, only, same, kept, leaves only hm⟩

end Sys2Proof.Machine

/-!
SUPPORT and PROOF. The distributor and the submission list: a launch holds and places its blocks, a block leaves its core, and
the oldest submission is taken (R35, R38, R39, R229, R236, R237, R238, R303).
-/

namespace Sys2Proof.Machine

/-! ### Holding (R303) -/

section

variable {s : State} {id : Nat} {j : Job} (hj : getJob s id = some j)

include hj

/-- A launch that is not first in its ready order counts no time there, and holds no longer than it is pending. -/
theorem exec_launchHolding_behind (h : (readyOrder s j.part).head?.map (·.1) ≠ some id) : exec (.launchHolding id) s =
    .next (setJob s id { j with firstSince := none, holding := j.holding && pendingLaunch s id j }) := by
  show execLaunchHolding id s = _
  simp only [execLaunchHolding, hj]
  exact if_pos h

variable (hfirst : (readyOrder s j.part).head?.map (·.1) = some id)

include hfirst

theorem exec_launchHolding_counts (h : j.firstSince = none) :
    exec (.launchHolding id) s = .next (setJob s id { j with firstSince := some s.now }) := by
  show execLaunchHolding id s = _
  simp only [execLaunchHolding, hj, hfirst, h, ne_eq, not_true, if_false]

theorem exec_launchHolding_counted {n : Nat} (h : j.firstSince = some n) : exec (.launchHolding id) s =
    .next (if n + 100000 ≤ s.now then setJob s id { j with holding := true } else s) := by
  show execLaunchHolding id s = _
  simp only [execLaunchHolding, hj, hfirst, h, ne_eq, not_true, if_false]

end

/-! ### The courses of a block that starts (R35, R38, R39) -/

/-- A course starts with the eight words of the argument record in its scalar registers. -/
theorem sregs_startCourse (s : State) (j : Job) (m n stack : Nat) {r : Nat} (hr : r < 8) :
    cget 0#32 (startCourse s j m n stack).sregs r = (argRecord (word64 j.words 4)).getD r 0 := by
  show cget 0#32 (csetAll 0#32 [] ((argRecord (word64 j.words 4)).zipIdx.map (fun e => (e.2, e.1)))) r = _
  simp only [argRecord, List.zipIdx_cons, List.zipIdx_nil, List.map_cons, List.map_nil, csetAll, cget_cset]
  interval_cases r <;> rfl

/-- The courses 0 to `n - 1` of a block are put in the table, course `c` as `f c`. -/
def putCourses (s : State) (blk : Nat) (f : Nat → Course) (n : Nat) : State :=
  ((List.range n).map (fun c => (c, f c))).foldl (fun s e => setCourse s blk e.1 e.2) s

theorem putCourses_succ (s : State) (blk : Nat) (f : Nat → Course) (n : Nat) :
    putCourses s blk f (n + 1) = setCourse (putCourses s blk f n) blk n (f n) := by
  simp only [putCourses, List.range_succ, List.map_append, List.foldl_append, List.map_cons, List.map_nil, List.foldl_cons,
    List.foldl_nil]

theorem putCourses_eq (s : State) (blk : Nat) (f : Nat → Course) (n : Nat) :
    ∃ courses, putCourses s blk f n = { s with courses := courses } := by
  induction n with
  | zero => exact ⟨_, rfl⟩
  | succ n ih =>
    obtain ⟨courses, h⟩ := ih
    rw [putCourses_succ, h]
    exact ⟨_, rfl⟩

/-- A read of the table finds those courses, and the others as before. -/
theorem getCourse_putCourses (s : State) (blk : Nat) (f : Nat → Course) {n b c : Nat} (hn : n ≤ 32) (hc : c < 32) :
    getCourse (putCourses s blk f n) b c = if b = blk ∧ c < n then some (f c) else getCourse s b c := by
  induction n with
  | zero => simp [putCourses]
  | succ n ih =>
    rw [putCourses_succ]
    by_cases h : b = blk ∧ c = n
    · obtain ⟨rfl, rfl⟩ := h
      rw [getCourse_setCourse_self, if_pos ⟨rfl, Nat.lt_succ_self c⟩]
    · have hkey : courseKey b c ≠ courseKey blk n := by unfold courseKey; omega
      have hlt : (b = blk ∧ c < n + 1) ↔ (b = blk ∧ c < n) := by omega
      rw [getCourse_setCourse_ne _ _ hkey, ih (Nat.le_of_succ_le hn)]
      simp only [hlt]

/-! ### A block is put on a core (R236, R237) -/

/-- `t` has the packets, the blocks that wait and the memory of `s`. -/
structure KeepsQueued (s t : State) : Prop where
  jobs : t.jobs = s.jobs
  waitingBlocks : t.waitingBlocks = s.waitingBlocks
  dev : t.dev = s.dev
  hostMem : t.hostMem = s.hostMem

theorem KeepsQueued.trans {s t u : State} (h : KeepsQueued s t) (g : KeepsQueued t u) : KeepsQueued s u where
  jobs := g.jobs.trans h.jobs
  waitingBlocks := g.waitingBlocks.trans h.waitingBlocks
  dev := g.dev.trans h.dev
  hostMem := g.hostMem.trans h.hostMem

theorem holdCores_eq (s : State) (a : BitVec 16) : ∃ contexts, holdCores s a = { s with contexts := contexts } := by
  unfold holdCores
  split
  · split <;> exact ⟨_, rfl⟩
  · exact ⟨_, rfl⟩

theorem nextId_holdCores (s : State) (a : BitVec 16) : (holdCores s a).nextId = s.nextId := by
  obtain ⟨_, h⟩ := holdCores_eq s a
  rw [h]

theorem acquire_eq (s : State) (m : Nat) (scope : Scope) (seq : Bool) :
    ∃ cores, acquire s m scope seq = { s with cores := cores } := by
  unfold acquire
  dsimp only
  split <;> exact ⟨_, rfl⟩

section

variable (s : State) (id : Nat) (j : Job) (m index replays : Nat) (slots : List Nat)

/-- The machine once a block is in its table, before its courses are in theirs. -/
def blockEntered : State :=
  let h := holdCores s j.asid
  let b := startBlock h id j m index replays
  setBlock { h with nextId := h.nextId + 1, fresh := h.fresh + b.alloc / 4 + 1 } h.nextId b

/-- Course `n` of that block. -/
def courseEntered (n : Nat) : Course := startCourse (holdCores s j.asid) j m n (slots.getD n 0)

theorem blockEntered_keepsQueued : KeepsQueued s (blockEntered s id j m index replays) := by
  obtain ⟨_, h⟩ := holdCores_eq s j.asid
  unfold blockEntered
  constructor <;> rw [h] <;> rfl

theorem getBlock_blockEntered (i : Nat) : getBlock (blockEntered s id j m index replays) i =
    if i = s.nextId then some (startBlock (holdCores s j.asid) id j m index replays) else getBlock s i := by
  obtain ⟨_, h⟩ := holdCores_eq s j.asid
  have hb : (holdCores s j.asid).blocks = s.blocks := by rw [h]
  unfold blockEntered getBlock
  exact (find?_put ..).trans (by rw [hb, nextId_holdCores])

theorem getCourse_blockEntered (b c : Nat) : getCourse (blockEntered s id j m index replays) b c = getCourse s b c := by
  obtain ⟨_, h⟩ := holdCores_eq s j.asid
  unfold blockEntered
  rw [getCourse_setBlock, h]
  rfl

theorem putBlock_eq : ∃ cores, putBlock s id j m index replays slots =
    { putCourses (blockEntered s id j m index replays) s.nextId
        (courseEntered s j m slots) (pkCourses j.words) with cores := cores } := by
  have hput : putBlock s id j m index replays slots = acquire (putCourses (blockEntered s id j m index replays)
      (holdCores s j.asid).nextId (courseEntered s j m slots) (pkCourses j.words)) m .system true := rfl
  rw [hput, nextId_holdCores]
  exact acquire_eq ..

theorem putBlock_keepsQueued : KeepsQueued s (putBlock s id j m index replays slots) := by
  obtain ⟨_, h⟩ := putBlock_eq s id j m index replays slots
  obtain ⟨_, hc⟩ := putCourses_eq (blockEntered s id j m index replays) s.nextId
    (courseEntered s j m slots) (pkCourses j.words)
  refine (blockEntered_keepsQueued s id j m index replays).trans ?_
  rw [h, hc]
  exact ⟨rfl, rfl, rfl, rfl⟩

theorem getJob_putBlock (i : Nat) : getJob (putBlock s id j m index replays slots) i = getJob s i := by
  unfold getJob
  rw [(putBlock_keepsQueued s id j m index replays slots).jobs]

theorem getBlock_putBlock (i : Nat) : getBlock (putBlock s id j m index replays slots) i =
    if i = s.nextId then some (startBlock (holdCores s j.asid) id j m index replays) else getBlock s i := by
  obtain ⟨_, h⟩ := putBlock_eq s id j m index replays slots
  obtain ⟨_, hc⟩ := putCourses_eq (blockEntered s id j m index replays) s.nextId
    (courseEntered s j m slots) (pkCourses j.words)
  rw [← getBlock_blockEntered s id j m index replays i, h, hc]
  rfl

theorem getCourse_putBlock (hn : pkCourses j.words ≤ 32) (b : Nat) {c : Nat} (hc : c < 32) :
    getCourse (putBlock s id j m index replays slots) b c = if b = s.nextId ∧ c < pkCourses j.words
      then some (courseEntered s j m slots c) else getCourse s b c := by
  obtain ⟨_, h⟩ := putBlock_eq s id j m index replays slots
  rw [h, ← getCourse_blockEntered s id j m index replays b c]
  exact getCourse_putCourses _ _ _ hn hc

end

/-! ### BLOCK_PLACE (R49, R236, R303) -/

theorem mayPlace_iff {l : List (Nat × Job)} {id : Nat} : l.any (fun e => e.1 = id) = true ↔ ∃ e ∈ l, e.1 = id := by
  simp only [List.any_eq_true, decide_eq_true_eq]

section

variable {s : State} {id : Nat} {j : Job} (hj : getJob s id = some j)

include hj

/-- A launch behind one that holds, or that is not pending, places nothing. -/
theorem exec_blockPlace_behind (h : ¬ ∃ e ∈ upToHolding (readyOrder s j.part), e.1 = id) :
    exec (.blockPlace id) s = .next s := by
  have hany : (upToHolding (readyOrder s j.part)).any (fun e => e.1 = id) = false := by
    rwa [← Bool.not_eq_true, mayPlace_iff]
  show execBlockPlace id s = _
  simp only [execBlockPlace, hj, hany, Bool.not_false, Bool.true_or, if_true]

section

variable (hready : ∃ e ∈ upToHolding (readyOrder s j.part), e.1 = id) (hsaved : savedOf s id j = [])
  (hcoop : pkCoop j.words = false)

include hready hsaved hcoop

theorem exec_blockPlace_stays (h : placeOne s id = none) : exec (.blockPlace id) s = .next s := by
  show execBlockPlace id s = _
  simp only [execBlockPlace, hj, mayPlace_iff.mpr hready, hsaved, placeNext, hcoop, h, List.isEmpty_nil, Bool.not_true,
    Bool.or_self, Bool.false_eq_true, if_false]

/-- A launch whose next block is put on a core ends its holding and its time at the head of the order. -/
theorem exec_blockPlace_places {u : State} {k : Job} {m index replays : Nat} {slots : List Nat}
    (h : placeOne s id = some (putBlock u id j m index replays slots)) (hk : getJob u id = some k) :
    exec (.blockPlace id) s =
      .next (setJob (putBlock u id j m index replays slots) id { k with holding := false, firstSince := none }) := by
  show execBlockPlace id s = _
  simp only [execBlockPlace, hj, mayPlace_iff.mpr hready, hsaved, placeNext, hcoop, h, getJob_putBlock, hk, List.isEmpty_nil,
    Bool.not_true, Bool.or_self, Bool.false_eq_true, if_false]

end

variable {x : Context} (hx : getCtx s j.asid = some x)

include hx

theorem placeOne_noRoom (h : chooseCore s j = none ∨ freeSlots s x (pkCourses j.words) = none) : placeOne s id = none := by
  simp only [placeOne, hj, hx]
  split
  · rename_i hm hslots
    simp [hm, hslots] at h
  · rfl

variable {m : Nat} {slots : List Nat} (hm : chooseCore s j = some m) (hslots : freeSlots s x (pkCourses j.words) = some slots)

include hm hslots

theorem placeOne_fresh (h : j.placed < pkBlocks j.words) : placeOne s id =
    some (putBlock (setJob s id { j with placed := j.placed + 1 }) id j m j.placed 0 slots) := by
  simp only [placeOne, hj, hx, hm, hslots, h, if_true]

theorem placeOne_used (h : pkBlocks j.words ≤ j.placed) (hw : s.waitingBlocks.find? (fun w => w.job = id) = none) :
    placeOne s id = none := by
  simp only [placeOne, hj, hx, hm, hslots, hw, Nat.not_lt.mpr h, if_false]

theorem placeOne_replayed (h : pkBlocks j.words ≤ j.placed) {w : Waiting}
    (hw : s.waitingBlocks.find? (fun w => w.job = id) = some w) : placeOne s id =
      some (putBlock { s with waitingBlocks := s.waitingBlocks.erase w } id j m w.index w.replays slots) := by
  simp only [placeOne, hj, hx, hm, hslots, hw, Nat.not_lt.mpr h, if_false]

end

/-! ### BLOCK_LEAVE (R235, R238, R309, R359) -/

theorem exec_blockLeave {s : State} {blk : Nat} {b : Block} (hb : getBlock s blk = some b) :
    exec (.blockLeave blk) s = .next (if blockEnded s blk b then leaveBlock s blk b else s) := by
  show execBlockLeave blk s = _
  simp only [execBlockLeave, hb]

theorem kappaAfter_eq (j : Job) (e : Nat) :
    kappaAfter j e = { j with kappaNum := (kappaAfter j e).kappaNum, kappaDen := (kappaAfter j e).kappaDen } := by
  unfold kappaAfter
  dsimp only
  (repeat' split) <;> rfl

theorem keepCharge_eq (s : State) (b : Block) : ∃ clusters, keepCharge s b = { s with clusters := clusters } := by
  unfold keepCharge
  split <;> exact ⟨_, rfl⟩

theorem retireJob_eq (s : State) (id : Nat) : ∃ jobs, retireJob s id = { s with jobs := jobs } := by
  unfold retireJob
  split
  · split <;> exact ⟨_, rfl⟩
  · exact ⟨_, rfl⟩

/-- A packet that has not completed is kept. -/
theorem retireJob_incomplete {s : State} {id : Nat} (h : ∀ j, getJob s id = some j → j.completed = false) :
    retireJob s id = s := by
  unfold retireJob
  split
  · rename_i j hj
    simp [h j hj]
  · rfl

theorem chargeEnergy_eq (s : State) (a : BitVec 16) (n : Nat) :
    ∃ contexts, chargeEnergy s a n = { s with contexts := contexts } := by
  unfold chargeEnergy
  split <;> exact ⟨_, rfl⟩

theorem getCtx_chargeEnergy {s : State} {a : BitVec 16} {x : Context} (h : getCtx s a = some x) (n : Nat) :
    getCtx (chargeEnergy s a n) a = some { x with energy := (x.energy + n) % 2 ^ 64 } := by
  unfold chargeEnergy
  rw [h]
  exact getCtx_setCtx_self ..

/-- Metering a block changes its context and its launch. -/
theorem meterBlock_eq (s : State) (b : Block) :
    ∃ fresh contexts jobs, meterBlock s b = { s with fresh := fresh, contexts := contexts, jobs := jobs } := by
  obtain ⟨contexts, h⟩ := chargeEnergy_eq (draw s).2 b.asid (Config.meteredEnergy (draw s).1)
  unfold meterBlock
  dsimp only
  rw [h]
  split <;> exact ⟨_, _, _, rfl⟩

theorem getCtx_meterBlock {s : State} {b : Block} {x : Context} (h : getCtx s b.asid = some x) :
    getCtx (meterBlock s b) b.asid = some { x with energy := (x.energy + Config.meteredEnergy s.fresh) % 2 ^ 64 } := by
  unfold meterBlock
  dsimp only
  split <;> exact getCtx_chargeEnergy (s := (draw s).2) h _

theorem getJob_meterBlock (s : State) (b : Block) :
    getJob (meterBlock s b) b.job = (getJob s b.job).map (fun j => kappaAfter j (Config.meteredEnergy s.fresh)) := by
  obtain ⟨_, h⟩ := chargeEnergy_eq (draw s).2 b.asid (Config.meteredEnergy (draw s).1)
  have hjobs : getJob (chargeEnergy (draw s).2 b.asid (Config.meteredEnergy (draw s).1)) b.job = getJob s b.job := by
    rw [h]
    rfl
  unfold meterBlock
  dsimp only
  split
  · rename_i j hj
    rw [getJob_setJob_self, ← hjobs, hj]
    rfl
  · rename_i hj
    rw [hj, ← hjobs, hj]
    rfl

/-- Block `blk`, which was `b`, is gone from its core with its courses; its local store stays behind, and memory is that of
`s`. -/
structure BlockGone (s t : State) (blk : Nat) (b : Block) : Prop where
  blocks : t.blocks = del s.blocks blk
  courses : t.courses = s.courses.filter (fun e => e.1 / 32 ≠ blk)
  cores : t.cores = put s.cores b.core { getCore s b.core with left := some (b.asid, b.localMem) }
  dev : t.dev = s.dev
  hostMem : t.hostMem = s.hostMem

namespace BlockGone

variable {s t : State} {blk : Nat} {b : Block} (h : BlockGone s t blk b)

include h

theorem getBlock_self : getBlock t blk = none := by
  unfold getBlock
  rw [h.blocks, find?_del_self]

theorem getBlock_ne {i : Nat} (hi : i ≠ blk) : getBlock t i = getBlock s i := by
  unfold getBlock
  rw [h.blocks, find?_del_ne _ hi]

theorem getCourse_eq_none {n : Nat} (hn : n < 32) : getCourse t blk n = none := by
  have hkey : courseKey blk n / 32 = blk := by unfold courseKey; omega
  unfold getCourse
  rw [h.courses, find?_filter_keys (fun k => decide (k / 32 ≠ blk)), hkey]
  simp

theorem getCore_self : getCore t b.core = { getCore s b.core with left := some (b.asid, b.localMem) } := by
  unfold getCore
  rw [h.cores, find?_put_self]
  rfl

end BlockGone

/-- A block that is gone leaves the other tables but the clusters', which keep its charge. -/
theorem removeBlock_gone (s : State) (blk : Nat) (b : Block) : BlockGone s (removeBlock s blk b) blk b ∧
    (removeBlock s blk b).contexts = s.contexts ∧ (removeBlock s blk b).jobs = s.jobs ∧
    (removeBlock s blk b).waitingBlocks = s.waitingBlocks := by
  obtain ⟨_, h⟩ := keepCharge_eq s b
  unfold removeBlock
  rw [h]
  exact ⟨⟨rfl, rfl, rfl, rfl, rfl⟩, rfl, rfl, rfl⟩

/-- A block that is replayed waits to be placed again. -/
theorem leaveBlock_replayed (s : State) (blk : Nat) {b : Block} (h : b.replaying = true) :
    leaveBlock s blk b = { removeBlock (drainCore s b.core) blk b with
      waitingBlocks := s.waitingBlocks ++ [⟨b.job, b.index, b.replays + 1, b.replayAt⟩] } := by
  obtain ⟨_, _, _, hwaiting⟩ := removeBlock_gone (drainCore s b.core) blk b
  have hdrained : (drainCore s b.core).waitingBlocks = s.waitingBlocks := by rw [drainCore_onlyMemory s b.core]
  rw [← hdrained, ← hwaiting]
  exact if_pos h

/-- A block that has ended is metered, and its launch is dropped where it has completed. -/
theorem leaveBlock_ended (s : State) (blk : Nat) {b : Block} (h : b.replaying = false) :
    leaveBlock s blk b = retireJob (removeBlock (meterBlock (drainCore s b.core) b) blk b) b.job :=
  if_neg (by simp [h])

theorem leaveBlock_gone (s : State) (blk : Nat) (b : Block) : BlockGone (drainCore s b.core) (leaveBlock s blk b) blk b := by
  cases h : b.replaying
  case true =>
    obtain ⟨⟨hblocks, hcourses, hcores, hdev, hhost⟩, _⟩ := removeBlock_gone (drainCore s b.core) blk b
    rw [leaveBlock_replayed s blk h]
    exact ⟨hblocks, hcourses, hcores, hdev, hhost⟩
  case false =>
    obtain ⟨⟨hblocks, hcourses, hcores, hdev, hhost⟩, _⟩ := removeBlock_gone (meterBlock (drainCore s b.core) b) blk b
    obtain ⟨_, hretire⟩ := retireJob_eq (removeBlock (meterBlock (drainCore s b.core) b) blk b) b.job
    obtain ⟨_, _, _, hmeter⟩ := meterBlock_eq (drainCore s b.core) b
    rw [leaveBlock_ended s blk h, hretire]
    rw [hmeter] at hblocks hcourses hcores hdev hhost ⊢
    exact ⟨hblocks, hcourses, hcores, hdev, hhost⟩

section

variable {s : State} {blk : Nat} {b : Block} (h : b.replaying = false)

include h

theorem waitingBlocks_leaveBlock : (leaveBlock s blk b).waitingBlocks = s.waitingBlocks := by
  obtain ⟨_, _, _, hwaiting⟩ := removeBlock_gone (meterBlock (drainCore s b.core) b) blk b
  obtain ⟨_, hretire⟩ := retireJob_eq (removeBlock (meterBlock (drainCore s b.core) b) blk b) b.job
  obtain ⟨_, _, _, hmeter⟩ := meterBlock_eq (drainCore s b.core) b
  rw [leaveBlock_ended s blk h, hretire]
  exact hwaiting.trans (by rw [hmeter, drainCore_onlyMemory s b.core])

/-- The context is charged the metered energy of the block. -/
theorem getCtx_leaveBlock {x : Context} (hx : getCtx s b.asid = some x) : getCtx (leaveBlock s blk b) b.asid =
    some { x with energy := (x.energy + Config.meteredEnergy s.fresh) % 2 ^ 64 } := by
  have drained := drainCore_onlyMemory s b.core
  have hfresh : (drainCore s b.core).fresh = s.fresh := by rw [drained]
  obtain ⟨_, hcontexts, _⟩ := removeBlock_gone (meterBlock (drainCore s b.core) b) blk b
  obtain ⟨_, hretire⟩ := retireJob_eq (removeBlock (meterBlock (drainCore s b.core) b) blk b) b.job
  rw [leaveBlock_ended s blk h, hretire, ← hfresh, ← getCtx_meterBlock ((drained.getCtx b.asid).trans hx)]
  unfold getCtx
  rw [← hcontexts]

/-- A launch that has not completed is kept, with its factor kappa after the block. -/
theorem getJob_leaveBlock {j : Job} (hj : getJob s b.job = some j) (hc : j.completed = false) :
    getJob (leaveBlock s blk b) b.job = some (kappaAfter j (Config.meteredEnergy s.fresh)) := by
  have drained := drainCore_onlyMemory s b.core
  have hfresh : (drainCore s b.core).fresh = s.fresh := by rw [drained]
  obtain ⟨_, _, hjobs, _⟩ := removeBlock_gone (meterBlock (drainCore s b.core) b) blk b
  have metered : getJob (removeBlock (meterBlock (drainCore s b.core) b) blk b) b.job =
      some (kappaAfter j (Config.meteredEnergy s.fresh)) := by
    unfold getJob
    rw [hjobs, ← getJob, getJob_meterBlock, drained.getJob, hj, hfresh]
    rfl
  rw [leaveBlock_ended s blk h, retireJob_incomplete, metered]
  intro k hk
  obtain rfl := Option.some.inj (metered.symm.trans hk)
  rw [kappaAfter_eq]
  exact hc

end

/-! ### SUBMISSION_TAKE (R229) -/

/-- The machine once the oldest entry of a submission list has been taken, and the paths that wait for room go on. -/
def submissionTaken (s : State) (asid : BitVec 16) (x : Context) (rest : List (Nat × List Word)) : State :=
  wakeSubmissions (setCtx s asid { x with subs := rest }) asid

/-- The packet of that entry. -/
def submitted (s : State) (asid : BitVec 16) (x : Context) (n : Nat) (words : List Word) : Job :=
  newJob x.part (getPart s x.part) asid 256 n words

section

variable {s : State} {asid : BitVec 16} {x : Context} {n : Nat} {words : List Word} {rest : List (Nat × List Word)}
  (hx : getCtx s asid = some x) (hsubs : x.subs = (n, words) :: rest)

include hx hsubs

theorem exec_submissionTake_idle (h : ctxAlive x = false ∨ x.subHalted = true ∨ resetting s x.part = true) :
    exec (.submissionTake asid) s = .next s := by
  show execSubmissionTake asid s = _
  simp only [execSubmissionTake, hx, hsubs]
  exact if_pos (by simpa [or_assoc] using h)

variable (halive : ctxAlive x = true) (hhalted : x.subHalted = false) (hreset : resetting s x.part = false)

include halive hhalted hreset

/-- The checks of a taken entry decide between its halt and its admission. -/
theorem exec_submissionTake_checks : exec (.submissionTake asid) s = .next ((packetCause s x.part x.nc words).elim
    (admitJob (submissionTaken s asid x rest) (submitted s asid x n words)).2
    (haltQueue (submissionTaken s asid x rest) x.part asid 256 n)) := by
  have hopen : (!ctxAlive x || x.subHalted || resetting s x.part) = false := by simp [halive, hhalted, hreset]
  have hcause : packetCause (submissionTaken s asid x rest) x.part x.nc words = packetCause s x.part x.nc words := rfl
  rw [← hcause]
  show execSubmissionTake asid s = _
  simp only [execSubmissionTake, hx, hsubs, hopen, Bool.false_eq_true, if_false, submissionTaken]
  split <;> (rename_i hc; rw [hc]; rfl)

theorem exec_submissionTake_halts {c : Nat} (hc : packetCause s x.part x.nc words = some c) :
    exec (.submissionTake asid) s = .next (haltQueue (submissionTaken s asid x rest) x.part asid 256 n c) := by
  rw [exec_submissionTake_checks hx hsubs halive hhalted hreset, hc]
  rfl

theorem exec_submissionTake_admits (hc : packetCause s x.part x.nc words = none) : exec (.submissionTake asid) s =
    .next (admitJob (submissionTaken s asid x rest) (submitted s asid x n words)).2 := by
  rw [exec_submissionTake_checks hx hsubs halive hhalted hreset, hc]
  rfl

end

/-- What admitting a packet leaves: it has the next identity, and its own counter is armed (R16, R40). -/
theorem admitJob_admits {s : State} {j : Job}
    (h : ∀ i, j.counter = some i → 0 ≤ (getCounter s i).value + (pw j.words 17 : Int)) :
    let t := (admitJob s j).2
    (∃ counters, t = { s with nextId := s.nextId + 1, jobs := put s.jobs s.nextId j, counters := counters }) ∧
    ∀ i, getCounter t i = if j.counter = some i then ⟨true, (getCounter s i).value + (pw j.words 17 : Int), j.asid⟩
      else getCounter s i :=
  armCounter_arms (s := setJob { s with nextId := s.nextId + 1 } s.nextId j) h

/-! ### Blocks are placed and leave their core -/

/-- Settles O51, by an equation for each answer of the four instructions. -/
theorem blocksArePlacedAndLeave : Obligations.BlocksArePlacedAndLeave := by
  unfold Obligations.BlocksArePlacedAndLeave
  intro s
  refine ⟨fun id j hj => ?launch, fun blk b hb => ?leave, fun asid x n words rest hx hsubs => ?take⟩
  case launch =>
    intro first
    refine ⟨exec_launchHolding_behind hj, exec_launchHolding_counts hj, fun n hf => exec_launchHolding_counted hj hf,
      exec_blockPlace_behind hj, fun hready hsaved hcoop hcourses x hx => ?_⟩
    refine ⟨fun h => exec_blockPlace_stays hj hready hsaved hcoop (placeOne_noRoom hj hx h), fun m slots hm hslots => ?_⟩
    intro starts
    have started {jobs : Assoc Job} {waiting : List Waiting} (placed index replays : Nat)
        (h : placeOne s id = some (putBlock { s with jobs := jobs, waitingBlocks := waiting } id j m index replays slots))
        (hk : find? jobs id = some { j with placed := placed }) : starts placed index replays waiting := by
      have kept := putBlock_keepsQueued { s with jobs := jobs, waitingBlocks := waiting } id j m index replays slots
      have hblock := getBlock_putBlock { s with jobs := jobs, waitingBlocks := waiting } id j m index replays slots
      have hcourse (b : Nat) {c : Nat} (hc : c < 32) :=
        getCourse_putBlock { s with jobs := jobs, waitingBlocks := waiting } id j m index replays slots hcourses b hc
      refine ⟨_, _, exec_blockPlace_places hj hready hsaved hcoop h hk, getJob_setJob_self .., kept.waitingBlocks,
        (hblock s.nextId).trans (if_pos rfl), fun i hi => (hblock i).trans (if_neg hi),
        ⟨rfl, rfl, rfl, rfl, rfl, rfl, rfl, rfl, rfl, rfl, rfl, rfl, rfl⟩, fun n hn => ?_,
        fun b' n hb' hn => (hcourse b' hn).trans (if_neg (fun h => hb' h.1)), kept.dev, kept.hostMem⟩
      exact ⟨_, (hcourse s.nextId (Nat.lt_of_lt_of_le hn hcourses)).trans (if_pos ⟨rfl, hn⟩), rfl, rfl, rfl, rfl, rfl, rfl,
        rfl, rfl, fun r => sregs_startCourse _ j m n _, rfl, rfl⟩
    refine ⟨fun hfresh => started (j.placed + 1) _ _ (placeOne_fresh hj hx hm hslots hfresh) (find?_put_self ..),
      fun hused => ⟨fun hw => ?_, fun w hw => started j.placed _ _ (placeOne_replayed hj hx hm hslots hused hw) hj⟩⟩
    exact exec_blockPlace_stays hj hready hsaved hcoop (placeOne_used hj hx hm hslots hused hw)
  case leave =>
    have hexec := exec_blockLeave hb
    refine ⟨fun h => by rw [hexec, h]; rfl, fun h => ⟨leaveBlock s blk b, by rw [hexec, h]; rfl, ?_⟩⟩
    have drained := drainCore_onlyMemory s b.core
    have gone := leaveBlock_gone s blk b
    refine ⟨gone.getBlock_self, fun i hi => (gone.getBlock_ne hi).trans (drained.getBlock i),
      fun n hn => gone.getCourse_eq_none hn, by rw [gone.getCore_self], by rw [gone.getCore_self, ← stores_drainCore s b.core],
      gone.dev, gone.hostMem, fun hr => ?replayed, fun hr => ?ended⟩
    case replayed =>
      obtain ⟨_, _, hjobs, _⟩ := removeBlock_gone (drainCore s b.core) blk b
      rw [leaveBlock_replayed s blk hr]
      exact ⟨rfl, hjobs.trans drained.jobs⟩
    case ended =>
      exact ⟨waitingBlocks_leaveBlock hr, fun x hx => getCtx_leaveBlock hr hx,
        fun j hj hc => ⟨_, getJob_leaveBlock hr hj hc, kappaAfter_eq ..⟩⟩
  case take =>
    refine ⟨exec_submissionTake_idle hx hsubs, fun halive hhalted hreset => ?_⟩
    intro s0 own
    refine ⟨fun c hc => ⟨_, exec_submissionTake_halts hx hsubs halive hhalted hreset hc, haltQueue_halts ..⟩,
      fun hc hown => ?_⟩
    have hcounter : (submitted s asid x n words).counter = own := by
      show (if _ then _ else _) = (if _ then _ else _)
      simp only [Bool.and_eq_true, Bool.or_eq_true, decide_eq_true_eq]
    obtain ⟨⟨_, ht⟩, hcounters⟩ := admitJob_admits (s := submissionTaken s asid x rest) (j := submitted s asid x n words)
      (fun i hi => hown i (hcounter ▸ hi))
    refine ⟨_, submitted s asid x n words, exec_submissionTake_admits hx hsubs halive hhalted hreset hc, ?_⟩
    refine ⟨?_, ?_, fun i hi => ?_, ⟨rfl, rfl, rfl, rfl, rfl, hcounter, rfl⟩, fun i => ?_, ?_, ?_⟩
    · rw [ht]
      exact getCtx_setCtx_self ..
    · rw [ht]
      exact find?_put_self ..
    · rw [ht]
      exact find?_put_ne _ _ hi
    · rw [hcounters, hcounter]
      rfl
    · rw [ht]
      rfl
    · rw [ht]
      exact .of_eq rfl rfl rfl

end Sys2Proof.Machine

/-!
SUPPORT and PROOF. Special registers: what SRD samples, what it latches, and what SWR writes (R64, R67, R68, R69, R223, R224).
-/

namespace Sys2Proof.Machine

/-! ### What special registers read and keep -/

/-- Where a special register has a sample in `srSamples`, it reads that sample (R64, R67). -/
theorem srValue_of_mem_srSamples (s : State) (v : View) : ∀ e ∈ srSamples s v, srValue s v e.1 = e.2 := by
  have contain : srValue s v 0x18 = fun _ => if v.k.contain then 1 else 0 := by
    funext l
    show BitVec.ofNat 32 (b2n v.k.contain) = _
    cases v.k.contain <;> rfl
  simp only [srSamples, List.forall_mem_cons]
  exact ⟨rfl, rfl, rfl, rfl, rfl, rfl, rfl, rfl, rfl, rfl, rfl, rfl, rfl, rfl, rfl, rfl, rfl, rfl, rfl, contain, rfl,
    List.forall_mem_nil _⟩

/-- The course once SR_TIME, where it is the register read, has latched the high half of the time (R67). -/
def srLatched (s : State) (n : BitVec 9) (k : Course) : Course :=
  if n = 0x11 then { k with latch := BitVec.ofNat 32 (s.now / 2 ^ 32) } else k

/-- The latch is no part of what a long write changes. -/
theorem beginLong_srLatched (w : LongWrite) (slot : Nat) (s : State) (n : BitVec 9) (k : Course) :
    beginLong w slot (srLatched s n k) = srLatched s n (beginLong w slot k) := by
  unfold srLatched
  split
  · unfold beginLong
    split
    · unfold setPath getPath
      split <;> rfl
    · rfl
  · rfl

/-- The update by which SR_TIME latches, on a course just set. -/
theorem updCourse_srLatched (s t : State) (b c : Nat) (k : Course) : updCourse (setCourse t b c k) b c
    (fun k => { k with latch := BitVec.ofNat 32 (s.now / 2 ^ 32) }) = setCourse t b c (srLatched s 0x11 k) := by
  rw [updCourse_of_get (getCourse_setCourse_self ..), setCourse_setCourse]
  rfl

/-! ### What SRD and SWR leave -/

/-- What a unit leaves of its course is no memory. -/
theorem unitLeaves_sameMemory (s : State) (v : View) (i : Instr) (flags : FpFlags) (k : Course) :
    SameMemory s (unitLeaves s v i flags k) := by
  unfold unitLeaves
  split <;> exact .of_eq rfl rfl rfl

/-- The long write of an SRD (R64, R84). -/
def srdWrite (s : State) (v : View) (d : RegName) (n : BitVec 9) : LongWrite :=
  { id := s.nextId, writes := (perLane v d (srValue s v n.toNat)).filter writesLane, holds := [], kill := 0, killAll := false,
    tag := 0, va := 0, load := false, memory := false }

theorem written_srdWrite (s : State) (v : View) (d : RegName) (n : BitVec 9) (k : Course) :
    Written k (applyWrites k (srdWrite s v d n).writes) (v.dest d) [(d, srValue s v n.toNat)] := by
  have every : applyWrites k (srdWrite s v d n).writes = applyWrites k (perLane v d (srValue s v n.toNat)) :=
    applyWrites_filter k _ (prd_destWrite d (v.dest d) _)
  exact every ▸ written_perLane k v d _

section

variable {s : State} {v : View} {k : Course} {n : BitVec 9} (h : Issuing s v k)

include h

/-- An SRD that nothing stops begins its long write, and SR_TIME latches (R64, R67, R223). -/
theorem exec_srd {d : RegName} (hs : Unstopped s v (.srd d n)) (hd : ¬ (isScalar d = true ∧ v.never = true)) :
    exec (.srd d n) s =
      .next (unitLeaves (idTaken s) v (.srd d n) 0 (beginLong (srdWrite s v d n) v.u.slot (srLatched s n k))) := by
  have runs : (isScalar d && v.never) = false := by simpa using hd
  have began : writeLong s v.u (perLane v d (srValue s v n.toNat)) =
      setCourse (idTaken s) v.u.blk v.u.course (beginLong (srdWrite s v d n) v.u.slot k) :=
    updCourse_of_get (s := idTaken s) h.course _
  show execSrd d n s = _
  rw [execSrd, runInstr_effect _ h.view hs, ← retire_setCourse _ _ _ h.stays, beginLong_srLatched]
  by_cases hn : n = 0x11
  · subst hn
    simp only [began, runs, decide_true, Bool.not_false, Bool.and_self, if_true, updCourse_srLatched]
  · simp only [began, hn, decide_false, Bool.false_and, Bool.false_eq_true, if_false, srLatched]

/-- An SWR whose guard is never only ends its part of the unit (R224). -/
theorem exec_swr_never {a : Src} (hs : Unstopped s v (.swr n a)) (hn : v.never = true) :
    exec (.swr n a) s = .next (unitPasses s v (.swr n a) k) := by
  show execSwr n a s = _
  rw [execSwr, runInstr_effect _ h.view hs]
  simp only [hn, if_true, retire_eq _ _ h.course h.stays, unitPasses]

/-- Any other SWR leaves its course with the register written (R68, R69, R224). -/
theorem exec_swr {a : Src} (hs : Unstopped s v (.swr n a)) (hn : v.never = false) :
    exec (.swr n a) s = .next (unitLeaves s v (.swr n a) 0 (srWrite n.toNat (readReg v.k a.reg 0) k)) := by
  show execSwr n a s = _
  rw [execSwr, runInstr_effect _ h.view hs]
  simp only [hn, Bool.false_eq_true, if_false, updCourse_of_get h.course, retire_setCourse _ _ _ h.stays]

end

/-! ### SRD and SWR use their special register -/

/-- Settles O41, by an equation for what each of SRD and SWR leaves. -/
theorem srdAndSwrUseTheirRegister : Obligations.SrdAndSwrUseTheirRegister := by
  unfold Obligations.SrdAndSwrUseTheirRegister
  intro s v k n h
  refine ⟨fun d f hs hd hf => ?srd, fun a hs => ?swr⟩
  case srd =>
    have sample : srValue s v n.toNat = f := srValue_of_mem_srSamples s v _ hf
    exact ⟨srdWrite s v d n, _, ⟨rfl, rfl, rfl⟩, rfl, rfl, fun k0 => sample ▸ written_srdWrite s v d n k0, exec_srd h hs hd,
      unitLeaves_sameMemory (idTaken s) ..⟩
  case swr =>
    intro w leaves
    refine ⟨exec_swr_never h hs, fun hn => ?_⟩
    have written (k' : Course) (hk : srWrite n.toNat w k = k') : leaves k' :=
      ⟨hk ▸ exec_swr h hs hn, unitLeaves_sameMemory ..⟩
    refine ⟨?_, ?_, ?_, ?_⟩ <;> (rintro rfl; exact written _ rfl)

end Sys2Proof.Machine

/-!
SUPPORT and PROOF. The encoding: the decoder gives back every word that the encoder writes, format by format (R87 to R94).
-/

namespace Sys2Proof
open Machine

/-! ### Fields of single formats -/

/-- A format that is all zeros but for its opcode (R87). -/
theorem formN_fields (i : Instr) (op : Nat) : formN i (fieldsOf op 0 0 0) = .ok i := by
  have zero : bits (fieldsOf op 0 0 0) 24 0 = 0 := by unfold fieldsOf bits; omega
  rw [formN, zero]
  rfl

theorem formU0_fields (f : Src → Instr) (op : Nat) (a : Src) : formU0 f (fieldsOf op 0 (srcField a) 0) = .ok (f a) := by
  have ha := srcField_lt a
  rw [formU0, fieldsOf_d (by decide) ha (by decide), fieldsOf_a ha (by decide), fieldsOf_b (by decide), srcOfField_srcField]
  rfl

theorem formI00_fields (op : Nat) {m : Word} (h : immFits m = true) :
    formI00 (immField9 m).2 (fieldsOf op 0 0 (immField9 m).1) = .ok m := by
  have hm := immField9_lt m
  have zero : bits (fieldsOf op 0 0 (immField9 m).1) 24 9 = 0 := by unfold fieldsOf bits; omega
  rw [formI00, zero, fieldsOf_b hm, immOfField_immField9 m h]
  rfl

/-! ### One decoded word of each format -/

theorem decode_formatN {op : Nat} {i : Instr} (ho : op < 128) (hp : ∀ n, parseOp op none n = formN i n) (hi : i.wf = true) :
    decodeWord (bare (mkWord op 0 0 0)).1 (bare (mkWord op 0 0 0)).2 = .ok i :=
  decode_fields ho (by decide) (by decide) (by decide) ((hp _).trans (formN_fields i op)) hi

theorem decode_formatU0 {op : Nat} {f : Src → Instr} {a : Src} (ho : op < 128) (hp : ∀ n, parseOp op none n = formU0 f n)
    (hi : (f a).wf = true) :
    decodeWord (bare (mkWord op 0 (srcField a) 0)).1 (bare (mkWord op 0 (srcField a) 0)).2 = .ok (f a) :=
  decode_fields ho (by decide) (srcField_lt a) (by decide) ((hp _).trans (formU0_fields f op a)) hi

theorem decode_formatM {op : Nat} {f : RegName → Src → RecName → RegName → Instr} {d : RegName} {a : Src} {r : RecName}
    {j : RegName} (ho : op < 128) (hp : ∀ n, parseOp op none n = formM f n) (hi : (f d a r j).wf = true) :
    decodeWord (encM op (regField d) a r j).1 (encM op (regField d) a r j).2 = .ok (f d a r j) :=
  decode_fields ho (regField_lt d) (srcField_lt a) (recordField_lt r (regField_lt j))
    ((hp _).trans (formM_fields f op d a r j)) hi

/-- The immediate of a well-formed instruction fits its field. -/
theorem immFits_of_wf {i : Instr} {m : Word} (h : i.wf = true) (hm : immField i = some m) : immFits m = true := by
  have ok := immOk_of_wf h
  unfold immOk at ok
  split at ok
  case h_5 => simpa [hm] using ok
  all_goals
    cases hm
    refine immFits_of_small ?_
    simp only [Bool.or_eq_true, beq_iff_eq, decide_eq_true_eq] at ok
  · omega
  · omega
  · omega
  · obtain (((rfl | rfl) | rfl) | rfl) | rfl := ok <;> decide


/-- The offset formats: everything below the opcode is the offset (R87). -/
theorem decode_offset {op : Nat} {f : BitVec 25 → Instr} {off : BitVec 25} (ho : op < 128)
    (hp : ∀ n, parseOp op none n = .ok (f (BitVec.ofNat 25 n))) (hi : (f off).wf = true) :
    decodeWord (encB op off).1 (encB op off).2 = .ok (f off) :=
  decode_formatB ho ((hp _).trans (by rw [offset_field])) hi

/-- A field below the opcode that nothing but an immediate takes. -/
theorem decode_formatI00 {op : Nat} {m : Word} {i : Instr} (ho : op < 128) (hx : acceptsExt (mkWord op 0 0 0) = true)
    (hm : immFits m = true) (hp : ∀ x n, formI00 x n = .ok m → parseOp op x n = .ok i) (hi : i.wf = true) :
    decodeWord (encI0 op 0 m).1 (encI0 op 0 m).2 = .ok i :=
  decode_formatI ho (by decide) (by decide) hx (hp _ _ (formI00_fields op hm)) hi

/-! ### Fields below the operands -/

/-- A field of the lowest nine bits is the one of the B-field. -/
theorem bits_fieldsOf_b {op d a b hi lo : Nat} (hl : lo ≤ hi) (h : hi ≤ 8) : bits (fieldsOf op d a b) hi lo = bits b hi lo := by
  have cut : fieldsOf op d a b = b + 2 ^ lo * (2 ^ (hi - lo + 1) * (2 ^ (8 - hi) * (op * 2 ^ 16 + d * 2 ^ 9 + a))) := by
    have nine : 2 ^ lo * (2 ^ (hi - lo + 1) * 2 ^ (8 - hi)) = 2 ^ 9 := by
      rw [← Nat.pow_add, ← Nat.pow_add]
      congr 1
      omega
    rw [← Nat.mul_assoc (2 ^ (hi - lo + 1)), ← Nat.mul_assoc (2 ^ lo), nine, fieldsOf]
    omega
  unfold bits
  rw [cut, Nat.add_mul_div_left _ _ (Nat.two_pow_pos lo), Nat.add_mul_mod_self_left]

theorem parse_icmpi (p : PredName) (c : IntCC) (a : Src) {m : Word} (h : immFits m = true) :
    parseOp 0x2c (immField9 m).2 (fieldsOf 0x2c (p.toNat * 16 + intCCField c) (srcField a) (immField9 m).1)
      = .ok (.icmpi p c a m) := by
  have hd := compareField_lt p (intCCField_lt c)
  obtain ⟨hc, hp⟩ := fieldsOf_compare (op := 0x2c) hd (srcField_lt a) (immField9_lt m)
  obtain ⟨hc', hp'⟩ := compareField_split p (intCCField_lt c)
  rw [parseOp_2c, hc, hp, hc', hp', fieldsOf_a (srcField_lt a) (immField9_lt m), fieldsOf_b (immField9_lt m),
    srcOfField_srcField, intCCOf_field, immOfField_immField9 m h]
  rfl

theorem parse_fcmpi (p : PredName) (c : FpCC) (a : Src) {m : Word} (h : immFits m = true) :
    parseOp 0x3a (immField9 m).2 (fieldsOf 0x3a (p.toNat * 16 + fpCCField c) (srcField a) (immField9 m).1)
      = .ok (.fcmpi p c a m) := by
  have hd := compareField_lt p (fpCCField_lt c)
  obtain ⟨hc, hp⟩ := fieldsOf_compare (op := 0x3a) hd (srcField_lt a) (immField9_lt m)
  obtain ⟨hc', hp'⟩ := compareField_split p (fpCCField_lt c)
  rw [parseOp_3a, hc, hp, hc', hp', fieldsOf_a (srcField_lt a) (immField9_lt m), fieldsOf_b (immField9_lt m),
    srcOfField_srcField, fpCCOf_field, immOfField_immField9 m h]
  rfl

theorem parse_fcmp (p : PredName) (c : FpCC) (a b : Src) :
    parseOp 0x37 none (fieldsOf 0x37 (p.toNat * 16 + fpCCField c) (srcField a) (srcField b)) = .ok (.fcmp p c a b) := by
  have hd := compareField_lt p (fpCCField_lt c)
  obtain ⟨hc, hp⟩ := fieldsOf_compare (op := 0x37) hd (srcField_lt a) (srcField_lt b)
  obtain ⟨hc', hp'⟩ := compareField_split p (fpCCField_lt c)
  rw [parseOp_37, hc, hp, hc', hp', fieldsOf_a (srcField_lt a) (srcField_lt b), fieldsOf_b (srcField_lt b),
    srcOfField_srcField, srcOfField_srcField, fpCCOf_field]
  rfl

/-- Format C with two sources (R107, R118). -/
theorem decode_formatC {op cc : Nat} {p : PredName} {a b : Src} {i : Instr} (ho : op < 128) (hc : cc < 16)
    (hp : parseOp op none (fieldsOf op (p.toNat * 16 + cc) (srcField a) (srcField b)) = .ok i) (hi : i.wf = true) :
    decodeWord (bare (encC op p cc a (srcField b))).1 (bare (encC op p cc a (srcField b))).2 = .ok i :=
  decode_fields ho (compareField_lt p hc) (srcField_lt a) (srcField_lt b) hp hi

/-- Format L of PLOP (R109). -/
theorem decode_plop {pd pa pb pc : PredName} {l : BitVec 8} (h : (Instr.plop pd pa pb pc l).wf = true) :
    decodeWord (BitVec.ofNat 32 (0x2f * 2 ^ 25 + pd.toNat * 2 ^ 22 + pa.toNat * 2 ^ 19 + pb.toNat * 2 ^ 16 + pc.toNat * 2 ^ 13
      + l.toNat)) none = .ok (.plop pd pa pb pc l) := by
  have := pd.isLt; have := pa.isLt; have := pb.isLt; have := pc.isLt; have := l.isLt
  refine decodeWord_of_parse (.inl rfl) ?_ h
  rw [parseWord, BitVec.toNat_ofNat]
  generalize hn : 0x2f * 2 ^ 25 + pd.toNat * 2 ^ 22 + pa.toNat * 2 ^ 19 + pb.toNat * 2 ^ 16 + pc.toNat * 2 ^ 13 + l.toNat = n
  have whole : n % 2 ^ 32 = n := by omega
  have opcode : n / 2 ^ 25 = 0x2f := by omega
  have zero : bits n 12 8 = 0 := by unfold bits; omega
  have fpd : bits n 24 22 = pd.toNat := by unfold bits; omega
  have fpa : bits n 21 19 = pa.toNat := by unfold bits; omega
  have fpb : bits n 18 16 = pb.toNat := by unfold bits; omega
  have fpc : bits n 15 13 = pc.toNat := by unfold bits; omega
  have flut : bits n 7 0 = l.toNat := by unfold bits; omega
  rw [whole, opcode, parseOp_2f, zero, fpd, fpa, fpb, fpc, flut]
  simp only [BitVec.ofNat_toNat, BitVec.setWidth_eq]
  rfl

theorem parse_cvt (d : RegName) (a : Src) (s t : NumFmt) (r : Rounding) :
    parseOp 0x44 none (fieldsOf 0x44 (regField d) (srcField a) (numFmtField s * 64 + numFmtField t * 8 + roundingField r))
      = .ok (.cvt d a s t r) := by
  have hs := numFmtField_lt s; have ht := numFmtField_lt t; have hr := roundingField_lt r
  generalize hn : numFmtField s * 64 + numFmtField t * 8 + roundingField r = n
  have hb : n < 512 := by omega
  have from' : bits n 8 6 = numFmtField s := by unfold bits; omega
  have to' : bits n 5 3 = numFmtField t := by unfold bits; omega
  have round : bits n 2 0 = roundingField r := by unfold bits; omega
  rw [parseOp_44, fieldsOf_d (regField_lt d) (srcField_lt a) hb, fieldsOf_a (srcField_lt a) hb,
    bits_fieldsOf_b (by decide) (by decide), bits_fieldsOf_b (by decide) (by decide), bits_fieldsOf_b (by decide) (by decide),
    from', to', round, srcOfField_srcField, regOfField_regField, numFmtOf_field, numFmtOf_field, roundingOf_field]
  rfl

/-- A listed code in the B-field of format U (R183, R184, R190). -/
theorem listed_fields {α : Type} {of : Nat → Option α} {field : α → Nat} (f : RegName → Src → α → Instr) (op : Nat)
    (d : RegName) (a : Src) (o : α) (hb : field o < 512) (ho : of (field o) = some o) :
    (do let y ← srcOfField (bits (fieldsOf op (regField d) (srcField a) (field o)) 17 9)
        let x ← listed (of (bits (fieldsOf op (regField d) (srcField a) (field o)) 8 0))
        pure (f (regOfField (bits (fieldsOf op (regField d) (srcField a) (field o)) 24 18)) y x))
      = (.ok (f d a o) : Except IllegalWhy Instr) := by
  rw [fieldsOf_d (regField_lt d) (srcField_lt a) hb, fieldsOf_a (srcField_lt a) hb, fieldsOf_b hb, srcOfField_srcField,
    regOfField_regField, ho]
  rfl

theorem parse_matchLanes (d : RegName) (a : Src) :
    parseOp 0x50 none (fieldsOf 0x50 (regField d) (srcField a) 127) = .ok (.matchLanes d a) := by
  rw [parseOp_50, fieldsOf_d (regField_lt d) (srcField_lt a) (by decide), fieldsOf_a (srcField_lt a) (by decide),
    fieldsOf_b (by decide), srcOfField_srcField, regOfField_regField]
  rfl

theorem parse_bar (id : BitVec 4) : parseOp 0x5b none (fieldsOf 0x5b 0 0 id.toNat) = .ok (.bar id) := by
  have hid := id.isLt
  have hb : id.toNat < 512 := by omega
  have zero : bits (fieldsOf 0x5b 0 0 id.toNat) 24 9 = 0 := by unfold fieldsOf bits; omega
  have imm : immOfField none id.toNat = BitVec.ofNat 32 id.toNat :=
    congrArg (BitVec.ofNat 32) (if_pos (show id.toNat < 256 by omega))
  have small : (BitVec.ofNat 32 id.toNat).toNat = id.toNat := by rw [BitVec.toNat_ofNat]; omega
  show (do let m ← formI00 none _; if m.toNat < 16 then pure (Instr.bar (BitVec.ofNat 4 m.toNat)) else .error .immediate) = _
  rw [formI00, zero, fieldsOf_b hb, imm]
  show (if (BitVec.ofNat 32 id.toNat).toNat < 16 then _ else _) = _
  rw [small, if_pos hid, BitVec.ofNat_toNat, BitVec.setWidth_eq]
  rfl

/-- Two fields in the B-field of format M: the record, and an operation or a register (R88). -/
theorem parse_atr (o : AtomOp) (d : RegName) (a : Src) (r : RecName) :
    parseOp 0x63 none (fieldsOf 0x63 (regField d) (srcField a) (r.val * 128 + atomOpField o)) = .ok (.atr o d a r) := by
  have ho := atomOpField_lt o
  have hb := recordField_lt r ho
  obtain ⟨hr, hlow⟩ := recordField_split r ho
  obtain ⟨hi, lo⟩ := fieldsOf_record (op := 0x63) (d := regField d) (a := srcField a) hb
  rw [parseOp_63, fieldsOf_d (regField_lt d) (srcField_lt a) hb, fieldsOf_a (srcField_lt a) hb, hi, lo, hr, hlow,
    srcOfField_srcField, regOfField_regField, atomOpOf_field]
  rfl

theorem parse_pref (l : BitVec 1) (a : Src) (r : RecName) (j : RegName) :
    parseOp 0x64 none (fieldsOf 0x64 l.toNat (srcField a) (r.val * 128 + regField j)) = .ok (.pref l a r j) := by
  have hl := l.isLt
  have hb := recordField_lt r (regField_lt j)
  obtain ⟨hr, hlow⟩ := recordField_split r (regField_lt j)
  obtain ⟨hi, lo⟩ := fieldsOf_record (op := 0x64) (d := l.toNat) (a := srcField a) hb
  rw [parseOp_64, fieldsOf_d (by omega) (srcField_lt a) hb, fieldsOf_a (srcField_lt a) hb, hi, lo, hr, hlow,
    srcOfField_srcField, regOfField_regField, BitVec.ofNat_toNat, BitVec.setWidth_eq]
  exact if_pos hl

theorem parse_recld (d : RecName) (a : Src) (r : RecName) (j : RegName) :
    parseOp 0x6b none (fieldsOf 0x6b (blockField d) (srcField a) (r.val * 128 + regField j)) = .ok (.recld d a r j) := by
  have hb := recordField_lt r (regField_lt j)
  obtain ⟨hr, hlow⟩ := recordField_split r (regField_lt j)
  obtain ⟨hi, lo⟩ := fieldsOf_record (op := 0x6b) (d := blockField d) (a := srcField a) hb
  rw [parseOp_6b, fieldsOf_d (blockField_lt d) (srcField_lt a) hb, fieldsOf_a (srcField_lt a) hb, hi, lo, hr, hlow,
    srcOfField_srcField, regOfField_regField, blockOfField_blockField]
  rfl

theorem parse_atl (o : AtomOp) (d : RegName) (a : Src) :
    parseOp 0x67 none (fieldsOf 0x67 (regField d) (srcField a) (atomOpField o)) = .ok (.atl o d a) := by
  have ho := atomOpField_lt16 o
  have hb : atomOpField o < 512 := by omega
  have zero : bits (atomOpField o) 8 4 = 0 := by unfold bits; omega
  have low : bits (atomOpField o) 3 0 = atomOpField o := by unfold bits; omega
  rw [parseOp_67, fieldsOf_d (regField_lt d) (srcField_lt a) hb, fieldsOf_a (srcField_lt a) hb,
    bits_fieldsOf_b (by decide) (by decide), bits_fieldsOf_b (by decide) (by decide), zero, low, srcOfField_srcField,
    regOfField_regField, atomOpOf_field]
  rfl

theorem parse_fence (k : FenceKind) (s : Scope) (e : Bool) :
    parseOp 0x69 none (fieldsOf 0x69 0 0 (b2n e * 32 + fenceKindField k * 8 + scopeField s)) = .ok (.fence k s e) := by
  have he := b2n_lt e; have hk := fenceKindField_lt k; have hs := scopeField_lt s
  generalize hn : b2n e * 32 + fenceKindField k * 8 + scopeField s = n
  have zero : bits (fieldsOf 0x69 0 0 n) 24 6 = 0 := by unfold fieldsOf bits; omega
  have scope : bits n 2 0 = scopeField s := by unfold bits; omega
  have kind : bits n 4 3 = fenceKindField k := by unfold bits; omega
  have eng : bits n 5 5 = b2n e := by unfold bits; omega
  rw [parseOp_69, zero, bits_fieldsOf_b (by decide) (by decide), bits_fieldsOf_b (by decide) (by decide),
    bits_fieldsOf_b (by decide) (by decide), scope, kind, eng, scopeOf_field, fenceKindOf_field, b2n_beq_one]
  rfl

theorem parse_cinv (s : Scope) : parseOp 0x6a none (fieldsOf 0x6a 0 0 (scopeField s)) = .ok (.cinv s) := by
  have hs := scopeField_lt s
  have zero : bits (fieldsOf 0x6a 0 0 (scopeField s)) 24 3 = 0 := by unfold fieldsOf bits; omega
  have low : bits (scopeField s) 2 0 = scopeField s := by unfold bits; omega
  rw [parseOp_6a, zero, bits_fieldsOf_b (by decide) (by decide), low, scopeOf_field]
  rfl

/-- The transforms share an opcode: the count, and the transform below it (R211, R212). -/
theorem parse_xfm (d : RegName) (a : Src) (c : BitVec 3) {k : Nat} {i : Instr} (hk : k < 64)
    (hf : (match (generalizing := false) k with
      | 0 => .ok (.xfmCrc32c d a c)
      | 1 => .ok (.xfmHash d a c)
      | 2 => .ok (.xfmSort d a c)
      | _ => .error .subop : Except IllegalWhy Instr) = .ok i) :
    parseOp 0x72 none (fieldsOf 0x72 (regField d) (srcField a) (c.toNat * 64 + k)) = .ok i := by
  have hc := c.isLt
  have hb : c.toNat * 64 + k < 512 := by omega
  have count : bits (c.toNat * 64 + k) 8 6 = c.toNat := by unfold bits; omega
  have low : bits (c.toNat * 64 + k) 5 0 = k := by unfold bits; omega
  rw [parseOp_72, fieldsOf_d (regField_lt d) (srcField_lt a) hb, fieldsOf_a (srcField_lt a) hb,
    bits_fieldsOf_b (by decide) (by decide), bits_fieldsOf_b (by decide) (by decide), count, low, srcOfField_srcField,
    regOfField_regField, BitVec.ofNat_toNat, BitVec.setWidth_eq]
  exact hf

theorem parse_swait (s : BitVec 4) : parseOp 0x76 none (fieldsOf 0x76 0 0 s.toNat) = .ok (.swait s) := by
  have hs := s.isLt
  have zero : bits (fieldsOf 0x76 0 0 s.toNat) 24 4 = 0 := by unfold fieldsOf bits; omega
  have low : bits s.toNat 3 0 = s.toNat := by unfold bits; omega
  rw [parseOp_76, zero, bits_fieldsOf_b (by decide) (by decide), low, BitVec.ofNat_toNat, BitVec.setWidth_eq]
  rfl

/-- The width and the tag in the B-field of TREC and TPOP (R213). -/
theorem tapeField_split (w : TapeWidth) (t : BitVec 7) :
    t.toNat * 4 + tapeWidthField w < 512 ∧ tapeWidthOf (bits (t.toNat * 4 + tapeWidthField w) 1 0) = some w ∧
      BitVec.ofNat 7 (bits (t.toNat * 4 + tapeWidthField w) 8 2) = t := by
  have ht := t.isLt
  have hw := tapeWidthField_lt w
  have width : bits (t.toNat * 4 + tapeWidthField w) 1 0 = tapeWidthField w := by unfold bits; omega
  have tag : bits (t.toNat * 4 + tapeWidthField w) 8 2 = t.toNat := by unfold bits; omega
  refine ⟨by omega, ?_, ?_⟩
  · rw [width, tapeWidthOf_field]
  · rw [tag, BitVec.ofNat_toNat, BitVec.setWidth_eq]

theorem parse_trec (w : TapeWidth) (t : BitVec 7) (a : Src) :
    parseOp 0x77 none (fieldsOf 0x77 127 (srcField a) (t.toNat * 4 + tapeWidthField w)) = .ok (.trec w t a) := by
  obtain ⟨hb, width, tag⟩ := tapeField_split w t
  rw [parseOp_77, fieldsOf_d (by decide) (srcField_lt a) hb, fieldsOf_a (srcField_lt a) hb,
    bits_fieldsOf_b (by decide) (by decide), bits_fieldsOf_b (by decide) (by decide), width, tag, srcOfField_srcField]
  rfl

theorem parse_tpop (w : TapeWidth) (t : BitVec 7) (d : RegName) :
    parseOp 0x78 none (fieldsOf 0x78 (regField d) 0 (t.toNat * 4 + tapeWidthField w)) = .ok (.tpop w t d) := by
  obtain ⟨hb, width, tag⟩ := tapeField_split w t
  rw [parseOp_78, fieldsOf_d (regField_lt d) (by decide) hb, fieldsOf_a (by decide) hb,
    bits_fieldsOf_b (by decide) (by decide), bits_fieldsOf_b (by decide) (by decide), width, tag, regOfField_regField]
  rfl

theorem parse_srd (d : RegName) (n : BitVec 9) : parseOp 0x7b none (fieldsOf 0x7b (regField d) 0 n.toNat) = .ok (.srd d n) := by
  rw [parseOp_7b, fieldsOf_d (regField_lt d) (by decide) n.isLt, fieldsOf_a (by decide) n.isLt, fieldsOf_b n.isLt,
    regOfField_regField, BitVec.ofNat_toNat, BitVec.setWidth_eq]
  rfl

theorem parse_swr (n : BitVec 9) (a : Src) : parseOp 0x7c none (fieldsOf 0x7c 127 (srcField a) n.toNat) = .ok (.swr n a) := by
  rw [parseOp_7c, fieldsOf_d (by decide) (srcField_lt a) n.isLt, fieldsOf_a (srcField_lt a) n.isLt, fieldsOf_b n.isLt,
    srcOfField_srcField, BitVec.ofNat_toNat, BitVec.setWidth_eq]
  rfl

/-! ### TCTL, TASK and STEP: a sub-op in the lowest bits (R218, R222) -/

/-- TCTL of separate fields. -/
theorem tctlOf_fieldsOf {d a b : Nat} (hd : d < 128) (ha : a < 512) (hb : b < 512) : tctlOf (fieldsOf 0x79 d a b) = (do
    mustBe (bits b 8 6) 0
    if bits b 3 0 ≠ 0 && bits b 5 4 ≠ 0 then .error .zeroField
    else match bits b 3 0 with
    | 0 => do
      mustBe d 127
      let x ← srcOfField a
      let r ← blockOfField (a % 128)
      pure (if bits b 5 5 = 1 then .tctlRecbeginExt (bits b 4 4 == 1) r x.hint else .tctlRecbegin (bits b 4 4 == 1) r x.hint)
    | 1 => do mustBe a 0; pure (.tctlRecend (regOfField d))
    | 2 => do
      let x ← srcOfField a
      let r ← blockOfField (a % 128)
      pure (.tctlRepbegin (regOfField d) r x.hint)
    | 3 => do mustBe d 127; mustBe a 0; pure .tctlRepend
    | 4 => do
      mustBe d 127
      let x ← srcOfField a
      pure (.tctlMark x)
    | 5 => do mustBe d 127; mustBe a 0; pure .tctlFlush
    | 6 => do mustBe a 0; pure (.tctlStatus (regOfField d))
    | _ => .error .subop) := by
  rw [tctlOf, fieldsOf_d hd ha hb, fieldsOf_a ha hb, bits_fieldsOf_b (by decide) (by decide),
    bits_fieldsOf_b (by decide) (by decide), bits_fieldsOf_b (by decide) (by decide), bits_fieldsOf_b (by decide) (by decide),
    bits_fieldsOf_b (by decide) (by decide)] <;> rfl

theorem parse_tctlRecbegin (dr : Bool) (r : RecName) (h : Hint) :
    parseOp 0x79 none (fieldsOf 0x79 127 (recSrcField r h) (b2n dr * 16)) = .ok (.tctlRecbegin dr r h) := by
  rw [parseOp_79, tctlOf_fieldsOf (by decide) (recSrcField_lt r h) (by have := b2n_lt dr; omega), srcOfField_recSrcField,
    blockOfField_recSrcField]
  cases dr <;> rfl

theorem parse_tctlRecbeginExt (dr : Bool) (r : RecName) (h : Hint) :
    parseOp 0x79 none (fieldsOf 0x79 127 (recSrcField r h) (32 + b2n dr * 16)) = .ok (.tctlRecbeginExt dr r h) := by
  rw [parseOp_79, tctlOf_fieldsOf (by decide) (recSrcField_lt r h) (by have := b2n_lt dr; omega), srcOfField_recSrcField,
    blockOfField_recSrcField]
  cases dr <;> rfl

theorem parse_tctlRepbegin (o : RegName) (r : RecName) (h : Hint) :
    parseOp 0x79 none (fieldsOf 0x79 (regField o) (recSrcField r h) 2) = .ok (.tctlRepbegin o r h) := by
  rw [parseOp_79, tctlOf_fieldsOf (regField_lt o) (recSrcField_lt r h) (by decide), srcOfField_recSrcField,
    blockOfField_recSrcField, regOfField_regField]
  rfl

theorem parse_tctlMark (a : Src) : parseOp 0x79 none (fieldsOf 0x79 127 (srcField a) 4) = .ok (.tctlMark a) := by
  rw [parseOp_79, tctlOf_fieldsOf (by decide) (srcField_lt a) (by decide), srcOfField_srcField]
  rfl

theorem parse_tctlRecend (d : RegName) : parseOp 0x79 none (fieldsOf 0x79 (regField d) 0 1) = .ok (.tctlRecend d) := by
  rw [parseOp_79, tctlOf_fieldsOf (regField_lt d) (by decide) (by decide), regOfField_regField]
  rfl

theorem parse_tctlStatus (d : RegName) : parseOp 0x79 none (fieldsOf 0x79 (regField d) 0 6) = .ok (.tctlStatus d) := by
  rw [parseOp_79, tctlOf_fieldsOf (regField_lt d) (by decide) (by decide), regOfField_regField]
  rfl

/-- TASK and STEP of separate fields. -/
theorem taskStepOf_fieldsOf (step : Bool) {op d a b : Nat} (hd : d < 128) (ha : a < 512) (hb : b < 512) :
    taskStepOf step (fieldsOf op d a b) = match (generalizing := false) step, b with
      | false, 0 => do mustBe d 127; mustBe a 0; pure .taskDone
      | false, 1 => do mustBe d 127; let x ← srcOfField a; pure (.taskSignal x)
      | false, 2 => do let x ← srcOfField a; pure (.taskEnq (regOfField d) x)
      | true, 0 => do let x ← srcOfField a; pure (.stepBegin (regOfField d) x)
      | true, 1 => do let x ← srcOfField a; pure (.stepEnd (regOfField d) x)
      | true, 2 => do let x ← srcOfField a; pure (.stepSlack (regOfField d) x)
      | _, _ => .error .subop := by
  unfold taskStepOf
  rw [fieldsOf_d hd ha hb, fieldsOf_a ha hb, fieldsOf_b hb] <;> rfl

theorem parse_taskSignal (a : Src) : parseOp 0x7d none (fieldsOf 0x7d 127 (srcField a) 1) = .ok (.taskSignal a) := by
  rw [parseOp_7d, taskStepOf_fieldsOf false (by decide) (srcField_lt a) (by decide), srcOfField_srcField]
  rfl

theorem parse_taskEnq (d : RegName) (a : Src) :
    parseOp 0x7d none (fieldsOf 0x7d (regField d) (srcField a) 2) = .ok (.taskEnq d a) := by
  rw [parseOp_7d, taskStepOf_fieldsOf false (regField_lt d) (srcField_lt a) (by decide), srcOfField_srcField,
    regOfField_regField]
  rfl

/-- The three step operations, each by its sub-op. -/
theorem parse_step (d : RegName) (a : Src) :
    parseOp 0x7e none (fieldsOf 0x7e (regField d) (srcField a) 0) = .ok (.stepBegin d a) ∧
    parseOp 0x7e none (fieldsOf 0x7e (regField d) (srcField a) 1) = .ok (.stepEnd d a) ∧
    parseOp 0x7e none (fieldsOf 0x7e (regField d) (srcField a) 2) = .ok (.stepSlack d a) := by
  refine ⟨?_, ?_, ?_⟩ <;>
    (rw [parseOp_7e, taskStepOf_fieldsOf true (regField_lt d) (srcField_lt a) (by decide), srcOfField_srcField,
      regOfField_regField]
     rfl)

/-! ### The round trip -/

/-- The decoder gives back what the encoder writes, format by format (R87, R93). -/
theorem decode_encode {i : Instr} (h : i.wf = true) : decodeWord (encode i).1 (encode i).2 = .ok i := by
  cases i with
  | iadd | isub | imul | imulhs | imulhu | imad | iadds | isubs | imin | imax | umin | umax | iand | ior | ixor | andn | shl
    | shr | sar | rotl | bfx | bfxs | bfi | dp4s | dp4u | iadd64 | isub64 | imulws | imulwu | shlw | shrw | sel | fadd | fsub
    | fmul | ffma | fnfma | fmin | fmax | hadd2 | hmul2 | hfma2 | badd2 | bmul2 | bfma2 | hmin2 | hmax2 | pkh | pkb | shfi
    | shfu | shfd | shfx =>
    exact decode_formatA (by decide) (formA_fields ..) h
  | iaddi | andi | ori | xori | shli | shri | sari | imuli | faddi | fmuli | pharr | phwait | ldl | stl | ldlp =>
    exact decode_formatI (by decide) (regField_lt _) (srcField_lt _) rfl (formI_fields _ _ _ _ _ (immFits_of_wf h rfl)) h
  | movi | lui =>
    exact decode_formatI (by decide) (regField_lt _) (by decide) rfl (formI0_fields _ _ _ _ (immFits_of_wf h rfl)) h
  | mov | inot | ineg | iabs | popc | clz | ctz | brev | bswap | sext8 | sext16 | zext8 | zext16 =>
    exact decode_formatU (by decide) (by decide) (uni_fields _ _ _ _ (by decide) rfl) h
  | fabs | fneg | frcp | frsq | fsqrt | fexp2 | flog2 | fsinp | fcosp | ftanh | frndn | frndz | frndp | frndm | fclass | fsat
    | ffrac =>
    exact decode_formatU (by decide) (by decide) (fun_fields _ _ _ _ (by decide) rfl) h
  | ldr | str | ldrp => exact decode_formatM (by decide) (fun _ => rfl) h
  | bra | call | rcv | brr => exact decode_offset (by decide) (fun _ => rfl) h
  | brx | callx => exact decode_formatU0 (by decide) (fun _ => rfl) h
  | nop => rfl
  | ret | join | exit | yield => exact decode_formatN (by decide) (fun _ => rfl) h
  | cpy | gath | mma | mml | epi => exact decode_formatE (by decide) (fun _ => rfl) rfl h
  | voteAny | voteAll | voteUni => exact decode_formatV (by decide) (by decide) rfl h
  | voteBallot d =>
    exact decode_formatV (regField_lt d) (by decide) (congrArg (Except.ok <| Instr.voteBallot · _) (regOfField_regField d)) h
  | icmp | icmp64 => exact decode_formatC (by decide) (intCCField_lt _) (icmpOf_fields ..) h
  | icmpi pd c a =>
    exact decode_formatI (by decide) (compareField_lt pd (intCCField_lt c)) (srcField_lt a) rfl
      (parse_icmpi pd c a (immFits_of_wf h rfl)) h
  | plop => exact decode_plop h
  | fcmp => exact decode_formatC (by decide) (fpCCField_lt _) (parse_fcmp ..) h
  | fcmpi pd c a =>
    exact decode_formatI (by decide) (compareField_lt pd (fpCCField_lt c)) (srcField_lt a) rfl
      (parse_fcmpi pd c a (immFits_of_wf h rfl)) h
  | cvt d a s t r =>
    exact decode_formatU (by decide) (by have := numFmtField_lt s; have := numFmtField_lt t; have := roundingField_lt r; omega)
      (parse_cvt d a s t r) h
  | qsw d a o =>
    have ho := (quadOpField_lt o).trans (by decide : 16 < 512)
    exact decode_formatU (by decide) ho ((parseOp_4d ..).trans (listed_fields .qsw _ d a o ho (quadOpOf_field o))) h
  | redx d a o =>
    have ho := (redOpField_lt o).trans (by decide : 16 < 512)
    exact decode_formatU (by decide) ho ((parseOp_4e ..).trans (listed_fields .redx _ d a o ho (redOpOf_field o))) h
  | scan d a o =>
    have ho := (scanOpField_lt o).trans (by decide : 16 < 512)
    exact decode_formatU (by decide) ho ((parseOp_4f ..).trans (listed_fields .scan _ d a o ho (scanOpOf_field o))) h
  | matchLanes d a => exact decode_formatU (by decide) (by decide) (parse_matchLanes d a) h
  | tilep m => exact decode_formatI00 (by decide) rfl (immFits_of_wf h rfl) (fun x n hm => by rw [parseOp_51, hm]; rfl) h
  | bar id => exact decode_fields (by decide) (by decide) (by decide) (by have := id.isLt; omega) (parse_bar id) h
  | proof c =>
    exact decode_formatI00 (by decide) rfl (immOfCode_fits c)
      (fun x n hm => by rw [parseOp_5e, hm]; exact congrArg (Except.ok <| Instr.proof ·) (immOfCode_truncate c)) h
  | trap c =>
    exact decode_formatI00 (by decide) rfl (immOfCode_fits c)
      (fun x n hm => by rw [parseOp_5f, hm]; exact congrArg (Except.ok <| Instr.trap ·) (immOfCode_truncate c)) h
  | atr o d a r =>
    exact decode_fields (by decide) (regField_lt d) (srcField_lt a) (recordField_lt r (atomOpField_lt o)) (parse_atr o d a r) h
  | pref l a r j =>
    exact decode_fields (by decide) (by have := l.isLt; omega) (srcField_lt a) (recordField_lt r (regField_lt j))
      (parse_pref l a r j) h
  | recld d a r j =>
    exact decode_fields (by decide) (blockField_lt d) (srcField_lt a) (recordField_lt r (regField_lt j)) (parse_recld d a r j) h
  | atl o d a => exact decode_formatU (by decide) ((atomOpField_lt o).trans (by decide)) (parse_atl o d a) h
  | fence k s e => exact decode_fields (by decide) (by decide) (by decide) (fenceField_lt k s e) (parse_fence k s e) h
  | cinv s => exact decode_fields (by decide) (by decide) (by decide) ((scopeField_lt s).trans (by decide)) (parse_cinv s) h
  | xfmCrc32c d a c => exact decode_formatU (by decide) (by have := c.isLt; omega) (parse_xfm d a c (k := 0) (by decide) rfl) h
  | xfmHash d a c => exact decode_formatU (by decide) (by have := c.isLt; omega) (parse_xfm d a c (k := 1) (by decide) rfl) h
  | xfmSort d a c => exact decode_formatU (by decide) (by have := c.isLt; omega) (parse_xfm d a c (k := 2) (by decide) rfl) h
  | swait s => exact decode_fields (by decide) (by decide) (by decide) (by have := s.isLt; omega) (parse_swait s) h
  | trec w t a => exact decode_fields (by decide) (by decide) (srcField_lt a) (tapeField_split w t).1 (parse_trec w t a) h
  | tpop w t d => exact decode_fields (by decide) (regField_lt d) (by decide) (tapeField_split w t).1 (parse_tpop w t d) h
  | tctlRecbegin dr r k =>
    exact decode_fields (by decide) (by decide) (recSrcField_lt r k) (by have := b2n_lt dr; omega) (parse_tctlRecbegin dr r k) h
  | tctlRecbeginExt dr r k =>
    exact decode_fields (by decide) (by decide) (recSrcField_lt r k) (by have := b2n_lt dr; omega) (parse_tctlRecbeginExt dr r k) h
  | tctlRepbegin o r k =>
    exact decode_fields (by decide) (regField_lt o) (recSrcField_lt r k) (by decide) (parse_tctlRepbegin o r k) h
  | tctlMark a => exact decode_fields (by decide) (by decide) (srcField_lt a) (by decide) (parse_tctlMark a) h
  | tctlRecend d => exact decode_fields (by decide) (regField_lt d) (by decide) (by decide) (parse_tctlRecend d) h
  | tctlStatus d => exact decode_fields (by decide) (regField_lt d) (by decide) (by decide) (parse_tctlStatus d) h
  | tctlRepend | tctlFlush | taskDone => rfl
  | srd d n => exact decode_fields (by decide) (regField_lt d) (by decide) n.isLt (parse_srd d n) h
  | swr n a => exact decode_fields (by decide) (by decide) (srcField_lt a) n.isLt (parse_swr n a) h
  | taskSignal a => exact decode_fields (by decide) (by decide) (srcField_lt a) (by decide) (parse_taskSignal a) h
  | taskEnq d a => exact decode_formatU (by decide) (by decide) (parse_taskEnq d a) h
  | stepBegin d a => exact decode_formatU (by decide) (by decide) (parse_step d a).1 h
  | stepEnd d a => exact decode_formatU (by decide) (by decide) (parse_step d a).2.1 h
  | stepSlack d a => exact decode_formatU (by decide) (by decide) (parse_step d a).2.2 h
  | _ => exact absurd rfl (not_event_of_wf h)

/-- Settles O1, from the round trip of each format. -/
theorem decodingAnEncodedInstructionGivesItBack : Obligations.DecodingAnEncodedInstructionGivesItBack := by
  unfold Obligations.DecodingAnEncodedInstructionGivesItBack
  exact fun _ => decode_encode

/-- Settles O2: the words are those that the encoder writes. -/
theorem specWordsDecodeToTheirInstructions : Obligations.SpecWordsDecodeToTheirInstructions := by
  unfold Obligations.SpecWordsDecodeToTheirInstructions
  exact ⟨decode_encode (i := .nop) rfl, decode_encode (i := .iadd (.v 3) ⟨.v 1, .plain⟩ ⟨.v 2, .plain⟩) rfl,
    decode_encode (i := .movi (.v 4) 0xFFFFFFFF#32) rfl, decode_encode (i := .bra 0x1FFFFFF#25) rfl, decode_encode (i := .ret) rfl,
    decode_encode (i := .ldr (.v 5) ⟨.v 6, .plain⟩ 0 .sz) rfl, decode_encode (i := .cpy 1 3 false) rfl,
    decode_encode (i := .srd (.v 7) 0) rfl⟩

end Sys2Proof

/-!
PROOF. A step always answers a next state: every unit that a step issues has an issuer, and what the device does on its own is an
event (R92, R365).
-/

namespace Sys2Proof.Machine

theorem execEvent_answers {s : State} {o : Option Instr} {i : Instr} (h : EventOnly o) (hi : o = some i) : Answers (exec i s) :=
  exec_answers s i (.inr (h i hi))

theorem takeCycle_answers (s : State) (x : Nat) : Answers (takeCycle s x) := by
  unfold takeCycle
  dsimp only
  split
  · exact ⟨_, rfl⟩
  · split
    · exact issueUnit_answers ..
    · exact ⟨_, rfl⟩

theorem cycleQuarter_answers (s : State) (x : Nat) : Answers (cycleQuarter s x) := by
  unfold cycleQuarter
  dsimp only
  split
  · exact ⟨_, rfl⟩
  · exact takeCycle_answers ..

theorem eventOnly_or {o p : Option Instr} (ho : EventOnly o) (hp : EventOnly p) : EventOnly (o.or p) := by
  cases o with
  | none => exact hp
  | some i => exact ho

theorem applyTick_answers (s : State) (n : Nat) (rest : List Move) : Answers (applyTick s n rest) := by
  unfold applyTick
  split
  · exact ⟨_, rfl⟩
  · split
    next hi => exact execEvent_answers (eventOnly_or (timerDue_event s) (storeDue_event s)) hi
    next =>
      dsimp only
      split <;> exact ⟨_, rfl⟩

theorem applyEvent_answers (s : State) (i : Instr) : Answers (applyEvent s i) := by
  unfold applyEvent
  split
  next h =>
    rw [Bool.and_eq_true, beq_iff_eq] at h
    exact exec_answers s i (.inr h.1)
  next => exact ⟨_, rfl⟩

theorem applyMove_answers (s : State) (m : Move) (rest : List Move) : Answers (applyMove s m rest) := by
  cases m with
  | tick n => exact applyTick_answers s n rest
  | event | mmio => exact applyEvent_answers ..
  | cycle core q =>
    show Answers (if _ then _ else _)
    split
    · exact ⟨_, rfl⟩
    · exact cycleQuarter_answers ..
  | _ => exact ⟨_, rfl⟩

theorem settle_answers (s : State) : Answers (settle s) := by
  unfold settle
  split
  next hi => exact execEvent_answers (settleDue_event s) hi
  next => exact ⟨_, rfl⟩

theorem runIdle_answers (s : State) : Answers (runIdle s) := by
  unfold runIdle
  split
  · exact ⟨_, rfl⟩
  · split
    next hi => exact execEvent_answers (dueEvent_event s) hi
    next =>
      split
      · exact cycleQuarter_answers ..
      · exact settle_answers s

/-- Settles O5, by cases on what the step does. -/
theorem everyStepAnswersANextState : Obligations.EveryStepAnswersANextState := by
  unfold Obligations.EveryStepAnswersANextState
  intro s
  show Answers (runStep s)
  unfold runStep
  split
  · exact issueUnit_answers ..
  · split
    · exact applyMove_answers ..
    · exact runIdle_answers s

end Sys2Proof.Machine

/-!
SUPPORT and PROOF. Instructions of the classes FUN and CVT, SEL, NOP and TILEP, and the HAZARD of an instruction (R86, R95, R108,
R123 to R132, R186).
-/

namespace Sys2Proof.Machine

/-! ### FUN and CVT -/

/-- An instruction of class FUN or CVT makes no check of its own, and runs as a long instruction whose lanes take its value. -/
theorem exec_of_funResult {i : Instr} {d : RegName} {f : Course → Nat → Word × FpFlags} (h : funResult i = some (d, f)) :
    plainChecks i = true ∧ ∀ s, exec i s = runLong i s (fun v => fpLanes v d (f v.k)) := by
  cases i with
  | frcp | frsq | fsqrt | fexp2 | flog2 | fsinp | fcosp | ftanh | frndn | frndz | frndp | frndm | fclass | fsat | ffrac | cvt =>
    obtain ⟨rfl, rfl⟩ := Prod.mk.inj (Option.some.inj h)
    exact ⟨rfl, fun _ => rfl⟩
  | _ => cases h

/-- Settles O14, from what a long instruction leaves. -/
theorem functionsAndConversionsBeginALongWrite : Obligations.FunctionsAndConversionsBeginALongWrite := by
  unfold Obligations.FunctionsAndConversionsBeginALongWrite
  intro s v k i d f h hz hf
  obtain ⟨plain, runs⟩ := exec_of_funResult hf
  obtain ⟨w, k', pure, id, begun, writes, leaves⟩ := runLong_eq (fun v => fpLanes v d (f v.k)) h (plain_stop plain hz)
  refine ⟨w, k', pure, id, begun, fun k0 => ?_, (runs s).trans leaves, unitLeaves_sameMemory (idTaken s) ..⟩
  have every : applyWrites k0 w.writes = applyWrites k0 (perLane v d (fun l => (f v.k l).1)) :=
    writes ▸ applyWrites_filter k0 _ (prd_destWrite d (v.dest d) _)
  exact every ▸ written_perLane k0 v d _

/-! ### SEL, NOP and TILEP -/

theorem unitPasses_sameMemory (s : State) (v : View) (i : Instr) (k : Course) : SameMemory s (unitPasses s v i k) := by
  unfold unitPasses
  split <;> exact .of_eq rfl rfl rfl

section

variable {s : State} {v : View} {k : Course} (h : Issuing s v k)

include h

theorem exec_sel {d : RegName} {a b : Src} (hz : NoHazard v (.sel d a b)) :
    exec (.sel d a b) s = .next (unitLeaves s v (.sel d a b) 0 (applyWrites k (destWrite d (if isScalar d then v.dest d else v.act)
      (fun l => if isScalar d || hasLane v.exe l then readReg v.k a.reg l else readReg v.k b.reg l)))) :=
  runShort_eq _ h (plain_stop rfl hz)

theorem exec_nop (hz : NoHazard v .nop) : exec .nop s = .next (unitPasses s v .nop k) := by
  show execNop s = _
  rw [execNop, runInstr_effect _ h.view (plain_stop rfl hz), retire_eq _ _ h.course h.stays, unitPasses]

theorem exec_tilep_never {n : Word} (hz : NoHazard v (.tilep n)) (hn : v.never = true) :
    exec (.tilep n) s = .next (unitPasses s v (.tilep n) k) := by
  show execTilep n s = _
  rw [execTilep, runInstr_effect _ h.view (plain_stop rfl hz), hn, if_pos rfl, retire_eq _ _ h.course h.stays, unitPasses]

theorem exec_tilep {n : Word} (hz : NoHazard v (.tilep n)) (hn : v.never = false) :
    exec (.tilep n) s = .next (unitLeaves s v (.tilep n) 0 { k with tilep := n.toNat }) := by
  show execTilep n s = _
  rw [execTilep, runInstr_effect _ h.view (plain_stop rfl hz), hn, if_neg Bool.false_ne_true, updCourse_of_get h.course,
    retire_setCourse _ _ _ h.stays]

end

/-- Settles O17, by an equation for each of the three instructions. -/
theorem selNopAndTilep : Obligations.SelNopAndTilep := by
  unfold Obligations.SelNopAndTilep
  intro s v k h
  refine ⟨fun d a b hz => ?sel, fun hz => ?nop, fun n hz => ?tilep⟩
  case sel => exact ⟨_, written_destWrite k d _ _, exec_sel h hz, unitLeaves_sameMemory ..⟩
  case nop => exact ⟨exec_nop h hz, unitPasses_sameMemory ..⟩
  case tilep => exact ⟨exec_tilep_never h hz, exec_tilep h hz⟩

/-! ### HAZARD -/

/-- Every Ralvas instruction is run by `runInstr`. -/
theorem exec_eq_runInstr (s : State) {i : Instr} (h : pipeClass i ≠ .event) : ∃ e, exec i s = runInstr i s e := by
  cases i with
  | nop | iadd | isub | imul | imulhs | imulhu | imad | iadds | isubs | imin | imax | umin | umax | iand | ior | ixor | andn
    | shl | shr | sar | rotl | bfx | bfxs | bfi | dp4s | dp4u | iadd64 | isub64 | imulws | imulwu | shlw | shrw | iaddi | andi
    | ori | xori | shli | shri | sari | movi | lui | imuli | mov | inot | ineg | iabs | popc | clz | ctz | brev | bswap
    | sext8 | sext16 | zext8 | zext16 | icmp | icmpi | icmp64 | sel | plop | fadd | fsub | fmul | ffma | fnfma | fmin | fmax
    | fcmp | faddi | fmuli | fcmpi | hadd2 | hmul2 | hfma2 | badd2 | bmul2 | bfma2 | hmin2 | hmax2 | pkh | pkb | fabs | fneg
    | frcp | frsq | fsqrt | fexp2 | flog2 | fsinp | fcosp | ftanh | frndn | frndz | frndp | frndm | fclass | fsat | ffrac
    | cvt | voteAny | voteAll | voteUni | voteBallot | shfi | shfu | shfd | shfx | qsw | redx | scan | matchLanes | tilep
    | bra | brx | call | callx | ret | rcv | join | exit | yield | bar | pharr | phwait | proof | trap | brr | ldr | str
    | ldrp | atr | pref | ldl | stl | atl | ldlp | fence | cinv | recld | cpy | gath | xfmCrc32c | xfmHash | xfmSort | mma
    | mml | epi | swait | trec | tpop | tctlRecbegin | tctlRecbeginExt | tctlRecend | tctlRepbegin | tctlRepend | tctlMark
    | tctlFlush | tctlStatus | srd | swr | taskDone | taskSignal | taskEnq | stepBegin | stepEnd | stepSlack =>
    exact ⟨_, rfl⟩
  | _ => exact absurd rfl h

/-- Naming a register with a long write pending comes before every other check (R92). -/
theorem uniformStop_of_pending {s : State} {v : View} {i : Instr} (hp : pendingAny v (namedRes v i) = true)
    (hw : v.p.waited = []) (hi : ∀ c t k, i ≠ .mma c t k ∧ i ≠ .mml c t k) :
    uniformStop s v i = some (wholeFault v 0x03) := by
  have waits : v.p.waited.contains v.u.pos = false := by rw [hw]; rfl
  unfold uniformStop
  dsimp only
  rw [waits, hp, if_neg Bool.false_ne_true]
  split
  · exact absurd rfl (hi _ _ _).1
  · exact absurd rfl (hi _ _ _).2
  · rfl

/-- Settles O26, from the order of the checks. -/
theorem hazardStopsTheInstruction : Obligations.HazardStopsTheInstruction := by
  unfold Obligations.HazardStopsTheInstruction
  intro s v i view alone pending waited ralvas noTeam
  obtain ⟨e, run⟩ := exec_eq_runInstr s ralvas
  have stop : stopOf s v i = some (.fault (wholeFault v 0x03)) := by
    rw [stopOf, uniformStop_of_pending pending waited noTeam]
  have fault : faultInstr s v i (wholeFault v 0x03) = faultUnit s v.u i (wholeFault v 0x03) :=
    faultInstr_plain (show (0x03 : Nat) ≠ 0x0E by decide) (show (0x03 : Nat) ≠ 0x08 by decide)
  rw [run, runInstr_cases i e view, alone, if_pos rfl, stop]
  exact congrArg Host.Outcome.next fault

end Sys2Proof.Machine

/-!
SUPPORT and PROOF. The fetch of a packet, and the step that issues one of its slots (R75, R76, R77, R82, R92, R239).
-/

namespace Sys2Proof.Machine

/-! ### Fetching a packet -/

/-- Where no member is lost a fetch touches no span. -/
theorem touchFetch_good {s : State} (hg : allGood s = true) (blk : Nat) (pc : Double) : touchFetch s blk pc = s := by
  unfold touchFetch
  split
  · exact if_pos hg
  · rfl

/-- The `i`th word of the packet at a home, little-endian (R75). -/
def packetWord (s : State) (h : Home) (i : Nat) : Word :=
  BitVec.ofNat 32 (natOfBytes (((homeBytes s h 16).drop (4 * i)).take 4))

/-- What a fetch finds at an executable, clean packet of the code that no store has touched (R37, R77). -/
theorem fetchPacket_words {s : State} {blk : Nat} {b : Block} {j : Job} {pc : Double} {h : Home} {f : Leaf} (act : Lanes)
    (hb : getBlock s blk = some b) (hj : blockJob s blk = some j) (hlow : jobCode j + 0x40 ≤ pc.toNat)
    (hhigh : pc.toNat < jobCode j + j.size) (ht : translate s b.asid pc.toNat = .mem h f) (hx : f.exec = true)
    (hclean : homePoisoned s h 16 = false) (hcode : j.code.getD ((pc.toNat - jobCode j) / 16) none = none) :
    fetchPacket s blk act pc = .words [packetWord s h 0, packetWord s h 1, packetWord s h 2, packetWord s h 3] := by
  have inside : (decide (pc.toNat < jobCode j + 0x40) || decide (jobCode j + j.size ≤ pc.toNat)) = false := by
    simp only [Bool.or_eq_false_iff, decide_eq_false_iff_not]
    omega
  unfold fetchPacket
  simp only [hb, hj, ht, hx, hclean, hcode, inside, if_false, Bool.not_true, Bool.false_eq_true]
  rfl

/-- Words that pass the checks made at fetch are held (R92). -/
theorem checkFetched_ok {s : State} {blk c slot : Nat} {k : Course} {p : Path} {m x y z : Word} {pk : PacketCode}
    (hk : getCourse s blk c = some k) (hp : getPath k slot = some p) (hd : decodePacket k.budget m x y z = .ok pk) :
    checkFetched s blk c slot k p [m, x, y, z] =
      setCourse { s with fresh := s.fresh + 4 } blk c (setPath k slot (some { p with fetched := [m, x, y, z] })) := by
  have hk' : getCourse { s with fresh := s.fresh + 4 } blk c = some k := hk
  unfold checkFetched
  simp only [hd, updPath_of_get hk', hp, Option.map_some]

/-- PACKET_FETCH fetches for the path that issues next (R92). -/
theorem exec_packetFetch {s : State} {n : Nat} {x : Candidate} {slot : Nat} {u : List Nat}
    (h : nextIssue s = some (n, x, slot, u)) : exec .packetFetch s = .next (fetchPath s x.blk x.c slot) := by
  show execPacketFetch s = _
  rw [execPacketFetch, h]

/-- Settles O3, from what a fetch finds and the checks it makes. -/
theorem aFetchReadsThePacketAtThePc : Obligations.AFetchReadsThePacketAtThePc := by
  unfold Obligations.AFetchReadsThePacketAtThePc
  intro s blk c slot b j k p h f pk hb hj hk hp hdel hfet hgood hlow hhigh ht hx hclean hcode w hd t
  have held : fetchPath s blk c slot = t := by
    unfold fetchPath
    simp only [hk, hp, hdel, hfet, List.isEmpty_nil, Bool.not_true, Bool.false_eq_true, if_false, touchFetch_good hgood,
      fetchPacket_words (activeOf k p) hb hj hlow hhigh ht hx hclean hcode]
    exact checkFetched_ok hk hp hd
  refine ⟨held, fun n x u next hblk hc => ?_⟩
  rw [exec_packetFetch next, hblk, hc, held]

/-! ### The unit of one slot -/

theorem getPath_latchedCourse (k : Course) (p : Path) (slot : Nat) : getPath (latchedCourse k p) slot = getPath k slot := by
  unfold latchedCourse
  split <;> rfl

/-- Progress keeps a block in its place. -/
theorem getBlock_progress {s : State} {blk : Nat} {b : Block} (h : getBlock s blk = some b) :
    getBlock (progress s blk) blk = some { b with lastProgress := s.now } := by
  simp [progress, h]

/-- A unit whose path and block are there has an issuer. -/
theorem viewOf_of_issue {s : State} {u : Issue} {p : Path} {b : Block} (hu : s.issue = some u)
    (hp : getPath u.before u.slot = some p) (hb : getBlock s u.blk = some b) : viewOf s = some ⟨u, p, b⟩ := by
  unfold viewOf
  simp only [hu, hp, hb]

/-- The packet that a path has fetched. -/
theorem pathPacket_of_fetched {s : State} {blk : Nat} {k : Course} {p : Path} {m x y z : Word} {pk : PacketCode}
    (hf : p.fetched = [m, x, y, z]) (hd : decodePacket k.budget m x y z = .ok pk) : pathPacket s blk k p = some pk := by
  unfold pathPacket
  simp only [hf, hd]

/-- A slot that chains to no other is a unit of its own (R81). -/
theorem unitMembers_of_unchained {pk : PacketCode} {n : Nat} {e : SlotCode} (he : pk.slots[n]? = some e) (hc : e.chain = false) :
    unitMembers pk n = [(n, e)] := by
  simp [unitMembers, groupFrom, he, hc]

/-- A unit of one member that has an issuer is that member's instruction. -/
theorem runUnit_one {s : State} {u : Issue} {e : Nat × SlotCode} {v : View}
    (hv : viewOf { s with issue := some (atMember u e true) } = some v) :
    runUnit s u [e] = exec e.2.instr { s with issue := some (atMember u e true) } := by
  have issuer : viewOf { s with issue := some (atMember u e true) } ≠ none := hv ▸ Option.some_ne_none v
  obtain ⟨t, ht⟩ := exec_answers _ e.2.instr (.inl issuer)
  show runMembers [e] { s with issue := some u } = _
  simp only [runMembers, List.isEmpty_nil, hv, ht]

/-- The unit of a path that stands at a slot of its packet that chains to no other (R76, R81, R386). -/
theorem issueUnit_one {t : State} {blk c slot : Nat} {k : Course} {p : Path} {pk : PacketCode} {e : SlotCode} {b : Block}
    (hk : getCourse t blk c = some k) (hp : getPath k slot = some p) (hb : getBlock t blk = some b)
    (hpk : pathPacket t blk k p = some pk) (he : pk.slots[p.slot]? = some e) (hc : e.chain = false) :
    let u := unitStart pk p (latchedCourse k p) blk c slot
    issueUnit t blk c slot = exec e.instr { (if unitHeld t u [(p.slot, e)] then t else progress t blk) with
      issue := some (atMember u (p.slot, e) true) } := by
  intro u
  have path : getPath u.before u.slot = some p := (getPath_latchedCourse k p slot).trans hp
  have issuer : ∃ v, viewOf { (if unitHeld t u [(p.slot, e)] then t else progress t blk) with
      issue := some (atMember u (p.slot, e) true) } = some v := by
    split
    · exact ⟨_, viewOf_of_issue rfl path hb⟩
    · exact ⟨_, viewOf_of_issue rfl path (getBlock_progress hb)⟩
  obtain ⟨v, hv⟩ := issuer
  rw [← runUnit_one hv]
  unfold issueUnit
  simp only [hk, hp, Option.bind_some, hpk, unitMembers_of_unchained he hc]
  rfl

/-! ### What a decoded packet holds -/

/-- Slots that pass the checks made at fetch are those that were given, one after another. -/
theorem checkSlots_ok {l : List (Except IllegalWhy SlotCode)} {done r : List SlotCode} {k : Nat} {all : List SlotCode}
    (h : checkSlots l done k all = .ok r) : r.map Except.ok = done.map Except.ok ++ l := by
  induction l generalizing done k with
  | nil =>
    obtain rfl : done = r := Except.ok.inj h
    exact (List.append_nil _).symm
  | cons e t ih =>
    cases e with
    | error e => cases h
    | ok c =>
      unfold checkSlots at h
      split at h
      · cases h
      · split at h
        · cases h
        · simpa using ih h

/-- The slots of a decoded packet are its decoded words (R75). -/
theorem slots_of_decodePacket {budget : Nat} {m w0 w1 w2 : Word} {pk : PacketCode} (h : decodePacket budget m w0 w1 w2 = .ok pk) :
    pk.slots.map Except.ok = [decodeSlot budget m 0 w0, decodeSlot budget m 1 w1, decodeSlot budget m 2 w2] := by
  unfold decodePacket at h
  dsimp only at h
  split at h
  next l hl =>
    obtain rfl := Except.ok.inj h
    exact checkSlots_ok hl
  next => cases h

/-- A decoded word is well formed (R91, R94). -/
theorem wf_of_decodeWord {w : Word} {x : Option (BitVec 12)} {i : Instr} (h : decodeWord w x = .ok i) : i.wf = true := by
  unfold decodeWord at h
  split at h
  · cases h
  · split at h
    · cases h
    next j _ =>
      split at h
      · cases h
      next formed =>
        obtain rfl : j = i := Except.ok.inj h
        rw [Instr.wf, formed]
        rfl

/-- A decoded slot holds the instruction of its word (R75, R78). -/
theorem decodeWord_of_decodeSlot {budget : Nat} {m w : Word} {k : Nat} {c : SlotCode} (h : decodeSlot budget m k w = .ok c) :
    decodeWord w (slotExt m k) = .ok c.instr := by
  unfold decodeSlot at h
  dsimp only at h
  split at h
  · cases h
  · split at h
    · cases h
    next i decoded =>
      split at h
      · cases h
      · split at h
        · cases h
        · obtain rfl := Except.ok.inj h
          exact decoded

/-- The slot at which a path stands holds the instruction of its word. -/
theorem decodeWord_of_slot {budget : Nat} {m w0 w1 w2 : Word} {pk : PacketCode} (h : decodePacket budget m w0 w1 w2 = .ok pk)
    {n : Nat} {c : SlotCode} (hc : pk.slots[n]? = some c) :
    ([w0, w1, w2][n]?).map (fun w => decodeWord w (slotExt m n)) = some (.ok c.instr) ∧ c.instr.wf = true := by
  have slot : [decodeSlot budget m 0 w0, decodeSlot budget m 1 w1, decodeSlot budget m 2 w2][n]? = some (.ok c) := by
    rw [← slots_of_decodePacket h, List.getElem?_map, hc]
    rfl
  have word {i : Nat} {w : Word} (hw : decodeSlot budget m i w = .ok c) :
      some (decodeWord w (slotExt m i)) = some (.ok c.instr) ∧ c.instr.wf = true := by
    have decoded := decodeWord_of_decodeSlot hw
    exact ⟨congrArg some decoded, wf_of_decodeWord decoded⟩
  match n with
  | 0 | 1 | 2 => exact word (Option.some.inj slot)
  | n + 3 => cases slot

/-! ### The step -/

/-- With no input and no enabled event a step is the next quarter's cycle (R239). -/
theorem step_of_nextQuarter {s : State} {x : Nat} (rejoins : rejoinPath s = none) (agenda : s.agenda = [])
    (flush : flushRecords s = none) (due : dueEvent s = none) (next : nextQuarter s = some x) : step s = cycleQuarter s x := by
  unfold step runStep
  simp only [rejoins, agenda, runIdle, flush, due, next]

/-- Settles O4, from the unit of the slot at which the chosen path stands. -/
theorem aStepRunsTheDecodedInstruction : Obligations.AStepRunsTheDecodedInstruction := by
  unfold Obligations.AStepRunsTheDecodedInstruction
  intro s x r k p m w0 w1 w2 pk c b rejoins agenda flush due next time chosen t hk hp hf hb hd hs hc u
  have packet : fetched t r.1.blk r.1.c r.2.1 = true := by simp [fetched, hk, hp, hf]
  refine ⟨?_, decodeWord_of_slot hd hs⟩
  calc step s = cycleQuarter s x := step_of_nextQuarter rejoins agenda flush due next
    _ = takeCycle (enterRound s x) x := by rw [cycleQuarter, time]; rfl
    _ = issueUnit t r.1.blk r.1.c r.2.1 := by simp only [takeCycle, chosen]; exact if_pos packet
    _ = _ := issueUnit_one hk hp hb (pathPacket_of_fetched hf hd) hs hc

end Sys2Proof.Machine

/-!
SUPPORT and PROOF. The events that end the waits of courses: long writes that land, barriers and phases, answers of remote devices,
starvation, and stage barriers (R28, R84, R148, R151, R168, R241, R353).
-/

namespace Sys2Proof.Machine

/-! ### Long writes that land -/

/-- A long write that only brings results kills no lane (R167). -/
theorem longKills_pure (k : Course) {w : LongWrite} (h : PureLong w) : longKills k w = 0 := by
  obtain ⟨-, hkill, hall⟩ := h
  rw [longKills, hall, hkill]
  exact BitVec.zero_and

section

variable {k : Course} {id : Nat} {w : LongWrite} (only : k.longs.filter (fun w => w.id = id) = [w]) (pure : PureLong w)

include only pure

/-- The only long write of an identity kills nothing where it is pure. -/
theorem longKills_of_only {w' : LongWrite} (hw : w' ∈ k.longs) (hid : w'.id = id) : longKills k w' = 0 := by
  have here : w' ∈ k.longs.filter (fun w => w.id = id) := List.mem_filter.mpr ⟨hw, decide_eq_true hid⟩
  rw [only] at here
  rw [List.mem_singleton.mp here]
  exact longKills_pure k pure

theorem mayLand_pure : mayLand k id = true := by
  have here : w ∈ k.longs.filter (fun w => w.id = id) := only ▸ List.mem_singleton_self w
  obtain ⟨mem, hid⟩ := List.mem_filter.mp here
  have lands : landable k id = true :=
    List.any_eq_true.mpr ⟨w, mem, by rw [Bool.and_eq_true, pure.1]; exact ⟨hid, Bool.or_true _⟩⟩
  have harmless : k.longs.all (fun w => w.id ≠ id || longKills k w = 0) = true := List.all_eq_true.mpr fun w' hw' => by
    by_cases hid' : w'.id = id
    · simp [longKills_of_only only pure hw' hid']
    · simp [hid']
  rw [mayLand, lands, harmless, Bool.or_true]
  rfl

/-- No other long write lands with one that kills nothing (R321). -/
theorem landedWith_pure : landedWith k [id] = [id] := by
  have none_kills : k.longs.filter (fun w => [id].contains w.id && longKills k w != 0) = [] :=
    List.filter_eq_nil_iff.mpr fun w' hw' h => by
      obtain ⟨hid, hkill⟩ := (Bool.and_eq_true ..).mp h
      have hid : w'.id = id := by simpa using hid
      simp [longKills_of_only only pure hw' hid] at hkill
  rw [landedWith, none_kills]
  rfl

/-- A pure long write lands: its results stand, it is pending no longer, and the paths that waited for it go on (R84, R179). -/
theorem completeLongs_pure {s : State} {b c : Nat} (hk : getCourse s b c = some k) :
    completeLongs s b c [id] = setCourse s b c (wakeCourse s (unpend (applyWrites k w.writes) [id])) := by
  have mine : k.longs.filter (fun w => [id].contains w.id) = [w] := by
    rw [← only]
    exact List.filter_congr fun w' _ => by simp [eq_comm]
  unfold completeLongs
  simp only [hk, landedWith_pure only pure, mine, List.foldl_cons, List.foldl_nil, longKills_pure k pure, if_true]

end

/-- A course whose two paths have changed alike. -/
def bothPaths (f : Path → Path) (k : Course) : Course := { k with path0 := k.path0.map f, path1 := k.path1.map f }

theorem getPath_bothPaths (f : Path → Path) (k : Course) (slot : Nat) :
    getPath (bothPaths f k) slot = (getPath k slot).map f := by
  unfold getPath bothPaths
  split <;> rfl

theorem OnlyRegs.longs {k k' : Course} (h : OnlyRegs k k') : k'.longs = k.longs := by rw [h]
theorem OnlyRegs.waitLongs {k k' : Course} (h : OnlyRegs k k') : k'.waitLongs = k.waitLongs := by rw [h]

/-- A path when long writes of its course are pending no longer and it goes on where it waited for no other (R84, R179). -/
theorem getPath_wakeCourse_unpend (s : State) (k : Course) (ids : List Nat) (slot : Nat) :
    getPath (wakeCourse s (unpend k ids)) slot = (getPath k slot).map (fun p =>
      wakeLongs s (unpend k ids) { p with pending := p.pending.filter (fun i => !ids.contains i) }) := by
  have woken : getPath (wakeCourse s (unpend k ids)) slot = (getPath (unpend k ids) slot).map (wakeLongs s (unpend k ids)) :=
    getPath_bothPaths ..
  have left : getPath (unpend k ids) slot =
      (getPath k slot).map (fun p => { p with pending := p.pending.filter (fun i => !ids.contains i) }) :=
    getPath_bothPaths _ { unpend k ids with path0 := k.path0, path1 := k.path1 } slot
  rw [woken, left, Option.map_map]
  rfl

theorem wakeLongs_eq (s : State) (k : Course) (p : Path) : wakeLongs s k p = { p with
    park := match p.park with
      | .longs ids acks => if ids.all (fun i => !(k.longs.any (·.id = i))) && acksIn s acks then .running else p.park
      | q => q } := by
  unfold wakeLongs
  cases hp : p.park with
  | longs ids acks =>
    dsimp only
    split
    · rfl
    · rw [← hp]
  | _ => simp only [← hp]

/-- What LONG_WRITE_COMPLETE leaves of a long write that only brings results (R84). -/
theorem exec_longWriteComplete_pure {s : State} {b c id : Nat} {k : Course} {w : LongWrite} (hk : getCourse s b c = some k)
    (only : k.longs.filter (fun w => w.id = id) = [w]) (pure : PureLong w) :
    exec (.longWriteComplete b c id) s =
      .next (setCourse s b c (wakeCourse s (unpend (applyWrites k w.writes) [id]))) := by
  show execLongWriteComplete b c id s = _
  rw [execLongWriteComplete, hk]
  simp only [mayLand_pure only pure, if_true, completeLongs_pure only pure hk]

/-- A long write that is not there, or one that kills lanes and that nothing waits for, does not land. -/
theorem mayLand_eq_false {k : Course} {id : Nat} (h : k.longs.all (fun w => w.id ≠ id) = true ∨
    (awaited k id = false ∧ ∃ w ∈ k.longs, w.id = id ∧ longKills k w ≠ 0)) : mayLand k id = false := by
  rcases h with absent | ⟨alone, w, hw, hid, hkill⟩
  · have no_landing : landable k id = false := by
      rw [landable, List.any_eq_false]
      intro w hw h
      obtain ⟨hid, -⟩ := (Bool.and_eq_true ..).mp h
      exact of_decide_eq_true (List.all_eq_true.mp absent w hw) (of_decide_eq_true hid)
    rw [mayLand, no_landing, Bool.false_and]
  · have kills : k.longs.all (fun w => w.id ≠ id || longKills k w = 0) = false :=
      List.all_eq_false.mpr ⟨w, hw, by simpa [hid] using hkill⟩
    rw [mayLand, alone, kills, Bool.or_false, Bool.and_false]

/-! ### Barriers -/

theorem getCourse_updCourse (s : State) (b c n : Nat) (f : Course → Course) :
    getCourse (updCourse s b c f) b n = if n = c then (getCourse s b n).map f else getCourse s b n := by
  unfold updCourse
  by_cases h : n = c
  · subst h
    cases hk : getCourse s b n <;> simp [hk]
  · have key : courseKey b n ≠ courseKey b c := by unfold courseKey; omega
    rw [if_neg h]
    split
    · exact getCourse_setCourse_ne _ _ key
    · rfl

/-- Changing the courses of a list, each once. -/
theorem getCourse_foldl_updCourse (b n : Nat) (f : Course → Course) (l : List Nat) (hl : l.Nodup) (s : State) :
    getCourse (l.foldl (fun s c => updCourse s b c f) s) b n =
      if n ∈ l then (getCourse s b n).map f else getCourse s b n := by
  induction l generalizing s with
  | nil => rfl
  | cons c l ih =>
    obtain ⟨hc, hl⟩ := List.nodup_cons.mp hl
    rw [List.foldl_cons, ih hl, getCourse_updCourse]
    by_cases hn : n = c
    · subst hn
      simp [hc]
    · simp [hn]

/-- A course is changed and nothing else. -/
theorem foldl_updCourse_eq (b : Nat) (f : Course → Course) (l : List Nat) (s : State) :
    l.foldl (fun s c => updCourse s b c f) s = { s with courses := (l.foldl (fun s c => updCourse s b c f) s).courses } := by
  induction l generalizing s with
  | nil => rfl
  | cons c l ih =>
    have one : updCourse s b c f = { s with courses := (updCourse s b c f).courses } := by
      unfold updCourse
      split <;> rfl
    rw [List.foldl_cons, ih, one]

/-- The paths of a block are changed and nothing else. -/
theorem mapPaths_eq (s : State) (b : Nat) (f : Course → Path → Path) :
    mapPaths s b f = { s with courses := (mapPaths s b f).courses } := foldl_updCourse_eq ..

theorem getCourse_mapPaths {s : State} {b : Nat} {y : Block} (hb : getBlock s b = some y) (f : Course → Path → Path) {n : Nat}
    (hn : n < y.courses) : getCourse (mapPaths s b f) b n = (getCourse s b n).map (fun k => bothPaths (f k) k) := by
  have courses : blockCourses s b = List.range y.courses := by rw [blockCourses, hb]
  rw [mapPaths, courses, getCourse_foldl_updCourse _ _ _ _ List.nodup_range, if_pos (List.mem_range.mpr hn)]
  rfl

/-- A barrier is full when one course has arrived and every other has arrived or exited (R148). -/
theorem barrierFull_iff (s : State) (b : Nat) (y : Block) (id : Nat) : barrierFull s b y id = true ↔
    cget 0#32 y.barriers id ≠ 0 ∧ ∀ n, n < y.courses → ∀ j, getCourse s b n = some j →
      hasLane (cget 0#32 y.barriers id) n = true ∨ j.live = 0 := by
  unfold barrierFull
  simp only [Bool.and_eq_true, decide_eq_true_eq, List.all_eq_true, List.mem_range, Bool.or_eq_true]
  refine and_congr_right fun _ => forall₂_congr fun n _ => ?_
  cases getCourse s b n <;> simp

/-- The block with a barrier emptied. -/
def barrierEmptied (s : State) (b : Nat) (y : Block) (id : Nat) : State :=
  setBlock s b { y with barriers := cset 0#32 y.barriers id 0 }

theorem barrierEmptied_sameMemory {s : State} {b : Nat} {y : Block} (hb : getBlock s b = some y) (id : Nat) :
    SameMemory s (barrierEmptied s b y id) := by
  refine ⟨fun _ => rfl, fun _ => rfl, fun d a => ?_⟩
  by_cases hd : d = b
  · subst hd
    rw [barrierEmptied, getBlock_setBlock_self, hb]
    rfl
  · rw [barrierEmptied, getBlock_setBlock_ne _ _ hd]

/-- The machine after a full barrier has let its paths go on, in the round that begins next (R148, R246). -/
def barrierResumed (s : State) (b : Nat) (y : Block) (id : Nat) : State :=
  { mapPaths (barrierEmptied s b y id) b (fun _ => barrierResume id) with turn := lastQuarter }

theorem barrierResumed_sameMemory {s : State} {b : Nat} {y : Block} (hb : getBlock s b = some y) (id : Nat) :
    SameMemory s (barrierResumed s b y id) := by
  rw [barrierResumed, mapPaths_eq]
  exact barrierEmptied_sameMemory hb id

theorem getBlock_barrierResumed (s : State) (b : Nat) (y : Block) (id : Nat) :
    getBlock (barrierResumed s b y id) b = some { y with barriers := cset 0#32 y.barriers id 0 } := by
  rw [barrierResumed, mapPaths_eq]
  exact getBlock_setBlock_self ..

theorem getCourse_barrierResumed (s : State) (b : Nat) (y : Block) (id : Nat) {n : Nat} (hn : n < y.courses) :
    getCourse (barrierResumed s b y id) b n = (getCourse s b n).map (bothPaths (barrierResume id)) := by
  have emptied : getBlock (barrierEmptied s b y id) b = some _ := getBlock_setBlock_self ..
  exact getCourse_mapPaths emptied (fun _ => barrierResume id) hn

theorem exec_barrierComplete {s : State} {b : Nat} {y : Block} (hb : getBlock s b = some y) (id : BitVec 4) :
    exec (.barrierComplete b id) s = .next (if barrierFull s b y id.toNat then barrierResumed s b y id.toNat else s) := by
  show execBarrierComplete b id s = _
  rw [execBarrierComplete, hb]
  rfl

/-! ### Phases -/

theorem phaseMatches_of_park {y : Block} {p : Path} {addr : Word} {target : Bool} (h : p.park = .phase addr target) :
    phaseMatches y p = (phaseOfWord (localWord y addr.toNat) == target) := by
  rw [phaseMatches, h]

theorem exec_phaseWake {s : State} {b c : Nat} {k : Course} {y : Block} {slot : BitVec 1} {p : Path}
    (hk : getCourse s b c = some k) (hb : getBlock s b = some y) (hp : getPath k slot.toNat = some p) :
    exec (.phaseWake b c slot) s = .next (if phaseMatches y p then setBlock (setCourse s b c (setPath k slot.toNat
      (some { nextPos p 3 with park := .running }))) b { y with lastProgress := s.now } else s) := by
  show execPhaseWake b c slot s = _
  have woken : progress (updPath s b c slot.toNat (fun p => { nextPos p 3 with park := .running })) b =
      setBlock (setCourse s b c (setPath k slot.toNat (some { nextPos p 3 with park := .running }))) b
        { y with lastProgress := s.now } := by
    rw [updPath_of_get hk, hp, progress, getBlock_setCourse, hb]
    rfl
  rw [execPhaseWake, hb]
  simp only [hk, Option.bind_some, hp, woken]

/-! ### Answers of remote devices -/

theorem exec_remoteAccessDone_ignored {s : State} {dev id : Nat} (h : ∀ r, find? s.remotes id = some r → r.device ≠ dev)
    (ok : Bool) (poison : List Nat) (data : List Byte) : exec (.remoteAccessDone dev id ok poison data) s = .next s := by
  show execRemoteAccessDone dev id ok poison data s = _
  unfold execRemoteAccessDone
  split
  next r hr => rw [if_neg (h r hr)]
  next => rfl

/-- The answer of the device that was asked goes to whom it was asked for (R168). -/
theorem exec_remoteAccessDone {s : State} {id : Nat} {r : Remote} (hr : find? s.remotes id = some r)
    (ok : Bool) (poison : List Nat) (data : List Byte) : exec (.remoteAccessDone r.device id ok poison data) s =
      .next (answerOwner { s with remotes := del s.remotes id } r.owner ⟨ok, poison, data⟩) := by
  show execRemoteAccessDone r.device id ok poison data s = _
  unfold execRemoteAccessDone
  simp only [hr, if_true, answerRemote]

/-- What has come for the store of some core wakes the paths that wait for it, wherever they are (R179, R210). -/
theorem getCourse_wakeParked (s : State) (b c : Nat) : getCourse (wakeParked s) b c =
    (getCourse s b c).map (fun k => bothPaths (fun p => wakeLongs s k (wakeCommands s p)) k) :=
  find?_map_of_keys (f := fun e => (e.1, bothPaths (fun p => wakeLongs s e.2 (wakeCommands s p)) e.2)) (fun _ => rfl) s.courses _

/-! ### Starvation -/

theorem exec_courseStarved {s : State} {b c : Nat} {k : Course} (hk : getCourse s b c = some k) (h : 64 ≤ k.eligible) :
    exec (.courseStarved b c) s = .next (setCourse s b c { k with starved := true }) := by
  show execCourseStarved b c s = _
  rw [execCourseStarved, updCourse_of_get hk, if_pos h]

/-! ### Stage barriers -/

/-- Which paths go on after a move of a stage: those at its barrier where the stage no longer owes it, and those that wait for
the tape unit where it can act (R28, R351, R354). -/
theorem wakeTape_eq {t : Tape} {g : Stage} {opened : Bool} (hg : t.current = some g) (ho : stageOpen g = !opened) (ready : Bool)
    (p : Path) : wakeTape t ready p =
      if (p.park = .stage ∧ opened = true) ∨ (p.park = .tape ∧ ready = true) then { p with park := .running } else p := by
  unfold wakeTape
  rw [hg]
  cases p.park with
  | stage => cases opened <;> simp [ho]
  | tape => cases ready <;> simp
  | _ => simp

/-- The course whose tape is `t` now, its paths woken where `t`'s stage and the tape unit let them go on. -/
def tapeMoved (k : Course) (t : Tape) (ready : Bool) : Course := bothPaths (wakeTape t ready) { k with tape := t }

theorem exec_tapeStageBarrier {s : State} {b c n : Nat} {k : Course} {y : Block} {t : Tape} (hk : getCourse s b c = some k)
    (hb : getBlock s b = some y) (moves : stageMoves s y.core k.tape = (n, t)) :
    exec (.tapeStageBarrier b c) s = .next (if n = 0 then setCourse s b c (tapeMoved k t (unitReady s y.core))
      else holdPipe (setCourse s b c (tapeMoved k t (unitReady s y.core))) y.core n) := by
  have core : blockCore s b = y.core := by rw [blockCore, hb]
  show execTapeStageBarrier b c s = _
  rw [execTapeStageBarrier, hk]
  simp only [core, moves]
  rfl

theorem signalStage_decodes {g : Stage} {seq : Nat} {first trunc : Bool} {rs : List TapeRec}
    (h : decodeChunk g.image g.index g.expect = some (seq, first, trunc, rs)) (t : Tape) : signalStage t g =
      ({ t with released := min 1023 (t.released + 1), err := false },
        { g with seq := seq, first := first, recs := rs, released := true }) := by
  rw [signalStage, h]

theorem signalStage_fails {g : Stage} (h : decodeChunk g.image g.index g.expect = none) (t : Tape) :
    signalStage t g = ({ t with err := true }, { g with bad := true }) := by
  rw [signalStage, h]

section

variable {s : State} {k : Course} {g : Stage} (hg : k.tape.current = some g) (owes : stageOpen g = true)

include hg owes

theorem openStage_current : openStage k.tape = some g := by
  rw [openStage, hg]
  exact List.find?_cons_of_pos owes

theorem updStage_current (f : Tape → Stage → Tape × Stage) :
    updStage k.tape f = { (f k.tape g).1 with current := some (f k.tape g).2 } := by
  unfold updStage
  simp only [hg, owes, if_true]

/-- The transform pipe takes a chunk that it has still to decode (R28). -/
theorem stageMoves_takes {m : Nat} (hd : g.due = none) (free : pipeFree s m = true) : stageMoves s m k.tape =
    (chunkCycles (stageBytes g), { k.tape with
      current := some { g with due := some (coreCycle s m + chunkCycles (stageBytes g)) } }) := by
  unfold stageMoves
  simp only [openStage_current hg owes, Option.map_some, hd, free, if_true, updStage_current hg owes]

/-- A chunk that the transform pipe has decoded has its barrier (R353). -/
theorem stageMoves_signals {m d : Nat} (hd : g.due = some d) (hdone : d ≤ coreCycle s m) : stageMoves s m k.tape =
    (0, { (signalStage k.tape g).1 with current := some (signalStage k.tape g).2 }) := by
  unfold stageMoves
  simp only [openStage_current hg owes, Option.map_some, hd, hdone, if_true, signalTape, updStage_current hg owes]

end

/-! ### Events end the waits of courses -/

/-- Settles O46, by an equation for what each of the events leaves. -/
theorem eventsEndTheWaitsOfCourses : Obligations.EventsEndTheWaitsOfCourses := by
  unfold Obligations.EventsEndTheWaitsOfCourses
  intro s b c k y hk hb
  refine ⟨fun id w only pure => ?lands, fun id h => ?stays, fun id => ?barrier, fun slot p hp addr target park => ?phase,
    fun dev id ok poison data => ?remote, exec_courseStarved hk, fun g hg released bad discarded => ?stage⟩
  case lands =>
    have regs := onlyRegs_applyWrites k w.writes
    refine ⟨_, exec_longWriteComplete_pure hk only pure, ?_, ?_, regs.live, fun _ _ => rfl, fun _ => rfl, fun slot p _ hp => ?_⟩
    · exact (congrArg _ regs.longs).trans (List.filter_congr fun w _ => by simp)
    · exact (congrArg _ regs.waitLongs).trans (List.filter_congr fun i _ => by simp)
    · have rest : p.pending.filter (fun i => !List.contains [id] i) = p.pending.filter (· ≠ id) :=
        List.filter_congr fun i _ => by simp
      rw [getPath_wakeCourse_unpend, regs.getPath, hp, Option.map_some, wakeLongs_eq, rest]
      rfl
  case stays =>
    show execLongWriteComplete b c id s = _
    rw [execLongWriteComplete, hk]
    simp only [mayLand_eq_false h, Bool.false_eq_true, if_false]
  case barrier =>
    intro m full
    rw [exec_barrierComplete hb]
    refine ⟨fun h => ⟨_, congrArg Host.Outcome.next (if_pos ((barrierFull_iff ..).mpr h)), barrierResumed_sameMemory hb _, rfl,
      getBlock_barrierResumed .., fun n j hn hj => ?_⟩, fun h => ?_⟩
    · exact (getCourse_barrierResumed s b y id.toNat hn).trans (congrArg _ hj)
    · rw [if_neg fun full => h ((barrierFull_iff ..).mp full)]
  case phase =>
    rw [exec_phaseWake hk hb hp, phaseMatches_of_park park]
    refine ⟨fun h => ?_, fun h => ?_⟩
    · rw [h, beq_self_eq_true, if_pos rfl]
    · rw [beq_eq_false_iff_ne.mpr h, if_neg Bool.false_ne_true]
  case remote =>
    intro a s1
    refine ⟨fun h => exec_remoteAccessDone_ignored h ok poison data, fun r slot pos lane p hr hdev howner hp => ?_,
      fun r m n hr hdev howner => ?_⟩
    · intro hs
      subst hdev
      have asked : getCourse s1 b c = some k := hk
      rw [exec_remoteAccessDone hr, howner]
      exact congrArg Host.Outcome.next ((updPath_of_get asked slot _).trans (by rw [hp]; rfl))
    · subst hdev
      refine ⟨_, (exec_remoteAccessDone hr ok poison data).trans (by rw [howner]; rfl), rfl, _,
        (getCourse_wakeParked s1 b c).trans (congrArg _ hk), fun slot p _ hp => ?_⟩
      exact (getPath_bothPaths ..).trans (congrArg _ hp)
  case stage =>
    have owes : stageOpen g = true := by rw [stageOpen, released, bad, discarded]; rfl
    intro wake leaves n
    have moved {t : Tape} {g' : Stage} {opened : Bool} (ht : t.current = some g') (ho : stageOpen g' = !opened) :
        setCourse s b c (tapeMoved k t (unitReady s y.core)) = leaves t opened := by
      have woken : wakeTape t (unitReady s y.core) = wake opened := funext (wakeTape_eq ht ho _)
      rw [tapeMoved, woken]
      rfl
    refine ⟨fun hd free => ?_, fun d hd done => ⟨fun seq first trunc rs decoded => ?_, fun decoded => ?_⟩⟩
    · have busy : n ≠ 0 := by simp only [n, chunkCycles]; omega
      have still : stageOpen { g with due := some (coreCycle s y.core + n) } = !false := owes
      rw [exec_tapeStageBarrier hk hb (stageMoves_takes hg owes hd free), if_neg busy, moved rfl still]
    · rw [exec_tapeStageBarrier hk hb (stageMoves_signals hg owes hd done), if_pos rfl, signalStage_decodes decoded,
        moved (opened := true) rfl rfl]
    · have ended : stageOpen { g with bad := true } = !true := by simp [stageOpen]
      rw [exec_tapeStageBarrier hk hb (stageMoves_signals hg owes hd done), if_pos rfl, signalStage_fails decoded, moved rfl ended]

end Sys2Proof.Machine

/-!
SUPPORT and PROOF. The INT class: the value of each entry in its destination, its pair or its predicate (R101 to R107, R109).
-/

namespace Sys2Proof.Machine

/-! ### Operations as the tables give them -/

/-- SAR fills with bit 31 (R101). -/
theorem shiftA_eq (a b : Word) : shiftA a b = if b.toNat % 256 < 32 then a.sshiftRight (b.toNat % 256)
    else if a.getLsbD 31 then 0xFFFFFFFF#32 else 0 := by
  rw [shiftA, BitVec.msb_eq_getLsbD_last]

/-- IABS negates the negative words (R106). -/
theorem absWord_eq (a : Word) : absWord a = if a.toInt < 0 then 0 - a else a := by
  simp only [absWord, BitVec.msb_eq_toInt, decide_eq_true_eq]

/-- The relations of the compares, over the numbers that the words stand for (R107). -/
theorem intRel_eq_relates {w : Nat} (cc : IntCC) (a b : BitVec w) : intRel cc a b = relates cc a b := by
  cases cc with
  | eq => exact beq_eq_decide a b
  | ne => simp [intRel, relates, bne, beq_eq_decide]
  | lt | gt => exact BitVec.slt_eq_decide
  | le | ge => exact BitVec.sle_eq_decide
  | ltu | gtu | leu | geu => rfl

/-! ### What each instruction writes -/

/-- An INT instruction of one register makes no check of its own, and writes its value to D (R101 to R103, R105, R106). -/
theorem exec_of_intResult {i : Instr} {d : RegName} {f : Course → Nat → Word} (h : intResult i = some (d, f)) :
    plainChecks i = true ∧ ∀ s, exec i s = runShort i s (fun v => (perLane v d (f v.k), 0)) := by
  cases i with
  | iadd | isub | imul | imulhs | imulhu | imad | iadds | isubs | imin | imax | iand | ior | ixor | andn | shl | shr | rotl
  | bfx | bfxs | bfi | dp4s | dp4u | iaddi | andi | ori | xori | shli | shri | sari | movi | lui | imuli | mov | inot | ineg
  | popc | clz | ctz | brev | bswap | sext8 | sext16 | zext8 | zext16 =>
    obtain ⟨rfl, rfl⟩ := Prod.mk.inj (Option.some.inj h)
    exact ⟨rfl, fun _ => rfl⟩
  | umin | umax | sar | iabs =>
    obtain ⟨rfl, rfl⟩ := Prod.mk.inj (Option.some.inj h)
    refine ⟨rfl, fun s => ?_⟩
    dsimp only [exec]
    simp only [execUmin, execUmax, execSar, execIabs, runInt2, runInt1, BitVec.ule_iff_le, shiftA_eq, absWord_eq]
  | _ => cases h

/-- An INT instruction on pairs makes no check of its own, and writes its value to the pair at D (R104). -/
theorem exec_of_pairResult {i : Instr} {d : RegName} {f : Course → Nat → Double} (h : pairResult i = some (d, f)) :
    plainChecks i = true ∧ ∀ s, exec i s = runShort i s (fun v => (pairLane v d (f v.k), 0)) := by
  cases i with
  | iadd64 | isub64 | imulws | imulwu | shlw | shrw =>
    obtain ⟨rfl, rfl⟩ := Prod.mk.inj (Option.some.inj h)
    exact ⟨rfl, fun _ => rfl⟩
  | _ => cases h

/-- A compare of integers and PLOP make no check of their own, and write their value to PD (R107, R109). -/
theorem exec_of_predResult {i : Instr} {p : PredName} {f : Course → Nat → Bool} (h : predResult i = some (p, f)) :
    plainChecks i = true ∧ ∀ s, exec i s = runShort i s (fun v => (predLane v p (f v.k), 0)) := by
  cases i with
  | icmp | icmpi | icmp64 =>
    obtain ⟨rfl, rfl⟩ := Prod.mk.inj (Option.some.inj h)
    refine ⟨rfl, fun s => ?_⟩
    dsimp only [exec]
    simp only [execIcmp, execIcmpi, execIcmp64, runCompare, intRel_eq_relates]
  | plop =>
    obtain ⟨rfl, rfl⟩ := Prod.mk.inj (Option.some.inj h)
    exact ⟨rfl, fun _ => rfl⟩
  | _ => cases h

/-! ### The results of the INT class -/

/-- Settles O9, from the value that each instruction writes to D. -/
theorem intInstructionsWriteTheirResult : Obligations.IntInstructionsWriteTheirResult := by
  unfold Obligations.IntInstructionsWriteTheirResult
  intro s v k i d f h hz hf
  obtain ⟨plain, runs⟩ := exec_of_intResult hf
  exact ⟨_, written_perLane k v d (f v.k), (runs s).trans (runShort_eq _ h (plain_stop plain hz)), unitLeaves_sameMemory ..⟩

/-- Settles O10, from the value that each instruction writes to the pair at D. -/
theorem pairInstructionsWriteBothWords : Obligations.PairInstructionsWriteBothWords := by
  unfold Obligations.PairInstructionsWriteBothWords
  intro s v k i d f h hz hf
  obtain ⟨plain, runs⟩ := exec_of_pairResult hf
  exact ⟨_, written_pairLane k v d (f v.k), (runs s).trans (runShort_eq _ h (plain_stop plain hz)), unitLeaves_sameMemory ..⟩

/-- Settles O11, from the value that each instruction writes to PD. -/
theorem comparesAndPlopWriteTheirPredicate : Obligations.ComparesAndPlopWriteTheirPredicate := by
  unfold Obligations.ComparesAndPlopWriteTheirPredicate
  intro s v k i p f h hz hf
  obtain ⟨plain, runs⟩ := exec_of_predResult hf
  exact ⟨_, predWritten_predLane k v p (f v.k), (runs s).trans (runShort_eq _ h (plain_stop plain hz)),
    unitLeaves_sameMemory ..⟩

end Sys2Proof.Machine

/-!
SUPPORT and PROOF. The FP class: the value and the flags of each entry, in its destination or its predicate (R111, R115 to R120,
R122).
-/

namespace Sys2Proof.Machine

/-! ### What each instruction writes -/

/-- FABS and FNEG set no flag, a NaN or not (R122). -/
theorem fSign_eq (flip : Bool) (a : Word) : fSign flip a = (if isNaN (unpack fp32Fmt a.toNat) then 0x7FC00000#32
    else if flip then a ^^^ 0x80000000#32 else a &&& 0x7FFFFFFF#32, 0) := by
  unfold fSign
  split <;> rfl

/-- A short FP instruction makes no check of its own, and writes its value to D and its flags (R115 to R117, R119, R120, R122). -/
theorem exec_of_fpResult {i : Instr} {d : RegName} {f : Course → Nat → Word × FpFlags} (h : fpResult i = some (d, f)) :
    plainChecks i = true ∧ ∀ s, exec i s = runShort i s (fun v => fpLanes v d (f v.k)) := by
  cases i with
  | fadd | fsub | fmul | ffma | fnfma | fmin | fmax | faddi | fmuli | hadd2 | hmul2 | hfma2 | badd2 | bmul2 | bfma2 | hmin2
  | hmax2 | pkh | pkb =>
    obtain ⟨rfl, rfl⟩ := Prod.mk.inj (Option.some.inj h)
    exact ⟨rfl, fun _ => rfl⟩
  | fabs | fneg =>
    obtain ⟨rfl, rfl⟩ := Prod.mk.inj (Option.some.inj h)
    refine ⟨rfl, fun s => ?_⟩
    dsimp only [exec]
    simp only [execFabs, execFneg, runFp1, fSign_eq, if_true, Bool.false_eq_true, if_false]
  | _ => cases h

/-- A floating compare makes no check of its own, and writes its value to PD and its flags (R117, R118). -/
theorem exec_of_fcmpResult {i : Instr} {p : PredName} {f : Course → Nat → Bool × FpFlags} (h : fcmpResult i = some (p, f)) :
    plainChecks i = true ∧ ∀ s, exec i s = runShort i s (fun v => fpPred v p (f v.k)) := by
  cases i with
  | fcmp | fcmpi =>
    obtain ⟨rfl, rfl⟩ := Prod.mk.inj (Option.some.inj h)
    exact ⟨rfl, fun _ => rfl⟩
  | _ => cases h

/-! ### The results of the FP class -/

/-- Settles O12, from the value and the flags that each instruction writes. -/
theorem fpInstructionsWriteTheirResultAndFlags : Obligations.FpInstructionsWriteTheirResultAndFlags := by
  unfold Obligations.FpInstructionsWriteTheirResultAndFlags
  intro s v k i d f h hz hf
  obtain ⟨plain, runs⟩ := exec_of_fpResult hf
  exact ⟨_, written_perLane k v d (fun l => (f v.k l).1), (runs s).trans (runShort_eq _ h (plain_stop plain hz)),
    unitLeaves_sameMemory ..⟩

/-- Settles O13, from the truth value and the flags that each compare writes. -/
theorem floatComparesWriteTheirPredicateAndFlags : Obligations.FloatComparesWriteTheirPredicateAndFlags := by
  unfold Obligations.FloatComparesWriteTheirPredicateAndFlags
  intro s v k i p f h hz hf
  obtain ⟨plain, runs⟩ := exec_of_fcmpResult hf
  exact ⟨_, predWritten_predLane k v p (fun l => (f v.k l).1), (runs s).trans (runShort_eq _ h (plain_stop plain hz)),
    unitLeaves_sameMemory ..⟩

end Sys2Proof.Machine

/-!
SUPPORT and PROOF. Branches and calls: what a flow instruction finds when it issues, and how its path moves (R87,
R137, R139 to R142, R155).
-/

namespace Sys2Proof.Machine

/-! ### The lanes and the course of a flow instruction -/

theorem act_and_live (v : View) : v.act &&& v.k.live = v.act := by
  rw [View.act, View.k, BitVec.and_assoc, BitVec.and_self]

/-- Lanes taken out of the active ones are live. -/
theorem activeOf_and_live (v : View) (m : Lanes) : v.act &&& m &&& v.k.live = v.act &&& m := by
  rw [BitVec.and_assoc, BitVec.and_comm m, ← BitVec.and_assoc, act_and_live]

theorem exe_and_live (v : View) : v.exe &&& v.k.live = v.exe := activeOf_and_live v _

theorem mask_ne_zero_of_act {v : View} (h : v.act ≠ 0) : v.p.mask ≠ 0 := fun e => h (by simp [View.act, e])

theorem act_ne_zero_of_exe {v : View} (h : v.exe ≠ 0) : v.act ≠ 0 := fun e => h (by simp [View.exe, e])

/-- A flow instruction keeps of its course all but its registers' hints, its flags, the preference, its paths and its wait (R61,
R62, R85, R111, R242). -/
theorem flowCourse_eq (v : View) (i : Instr) (k : Course) : ∃ r, OnlyRegs k r ∧ ∃ flags path0 path1 waits, flowCourse v i k =
    { r with fpflags := flags, preferred := 1 - v.u.slot, path0 := path0, path1 := path1, waitLongs := waits } := by
  refine ⟨_, onlyRegs_spendRegs k (gathered v.u i 0).spends, ?_⟩
  unfold flowCourse unitCourse
  dsimp only [setPath]
  split <;> split <;> exact ⟨_, _, _, _, rfl⟩

theorem OnlyRegs.team {k k' : Course} (h : OnlyRegs k k') : k'.team = k.team := by rw [h]

theorem flowCourse_team (v : View) (i : Instr) (k : Course) : (flowCourse v i k).team = k.team := by
  obtain ⟨r, regs, _, _, _, _, e⟩ := flowCourse_eq v i k
  exact (congrArg Course.team e).trans regs.team

theorem flowCourse_longs (v : View) (i : Instr) (k : Course) : (flowCourse v i k).longs = k.longs := by
  obtain ⟨r, regs, _, _, _, _, e⟩ := flowCourse_eq v i k
  exact (congrArg Course.longs e).trans regs.longs

theorem flowCourse_preferred (v : View) (i : Instr) (k : Course) : (flowCourse v i k).preferred = 1 - v.u.slot := by
  obtain ⟨r, -, _, _, _, _, e⟩ := flowCourse_eq v i k
  exact congrArg Course.preferred e

theorem flowCourse_live (v : View) (i : Instr) (k : Course) : (flowCourse v i k).live = k.live :=
  have ⟨_, _, live, _⟩ := flowCourse_keeps v i k
  live

theorem flowCourse_depth (v : View) (i : Instr) (k : Course) : (flowCourse v i k).depth = k.depth :=
  have ⟨depth, _⟩ := flowCourse_keeps v i k
  depth

theorem flowCourse_stackSlot (v : View) (i : Instr) (k : Course) : (flowCourse v i k).stackSlot = k.stackSlot :=
  have ⟨_, stackSlot, _⟩ := flowCourse_keeps v i k
  stackSlot

theorem flowCourse_tape (v : View) (i : Instr) (k : Course) : (flowCourse v i k).tape = k.tape :=
  have ⟨_, _, _, tape, _⟩ := flowCourse_keeps v i k
  tape

theorem courseLeaves_sameMemory (s : State) (v : View) (k : Course) : SameMemory s (courseLeaves s v k) := .of_eq rfl rfl rfl

theorem pathLeaves_sameMemory (s : State) (v : View) (i : Instr) (k : Course) (g : Path → Path) :
    SameMemory s (pathLeaves s v i k g) := courseLeaves_sameMemory ..

/-! ### The issue of a flow instruction -/

section

variable {s : State} {v : View} {i : Instr} (h : IssuingAlone s v)

include h

theorem IssuingAlone.path : getPath v.k v.u.slot = some v.p := path_of_viewOf h.view

theorem IssuingAlone.block : getBlock s v.u.blk = some v.b := block_of_viewOf h.view

/-- A flow instruction folds nothing into the signature (R357): its path is the one it found. -/
theorem getPath_flow (hi : pipeClass i = .flow) : getPath (flowCourse v i v.k) v.u.slot = some v.p := by
  have folds : memberFolds v.u i = [] := by simp [memberFolds, hi, h.fresh]
  rw [getPath_flowCourse i h.path, folds]
  rfl

theorem getPath_flow_other : getPath (flowCourse v i v.k) (1 - v.u.slot) = getPath v.k (1 - v.u.slot) :=
  getPath_flowCourse_other i h.slot

theorem getPath_setPath_twin (k : Course) (p : Option Path) :
    getPath (setPath k v.u.slot p) (1 - v.u.slot) = getPath k (1 - v.u.slot) :=
  getPath_setPath_other k p (by have := h.slot; omega)

theorem pathThere_flow (hm : v.p.mask ≠ 0) : pathThere (flowIssued s v i v.k) v.u.blk v.u.course v.u.slot v.p = true :=
  pathThere_flowIssued i h.path rfl rfl (by rwa [BitVec.and_self])

/-- With nothing pending in the path there is nothing to settle (R137, R138). -/
theorem settlePath_quiet (hi : pipeClass i = .flow) (hp : v.p.pending = []) (needed : Bool) :
    settlePath (flowIssued s v i v.k) v needed = flowIssued s v i v.k := by
  have quiet := completePath_none (getCourse_flowIssued s v i v.k) (getPath_flow h hi) hp
  rw [settlePath, quiet, ite_self]

end

theorem liveLanes_flow (s : State) (v : View) (i : Instr) (m : Lanes) :
    liveLanes (flowIssued s v i v.k) v.u m = m &&& v.k.live := by
  simp [liveLanes, flowCourse_live]

/-! ### Branches and calls -/

/-- BRA that appends no branch record (R216), or BRX. -/
def Branches (v : View) (i : Instr) : Prop := (∃ off, i = .bra off ∧ braRecords v = false) ∨ ∃ a, i = .brx a

/-- CALL or CALLX. -/
def Calls (i : Instr) : Prop := (∃ off, i = .call off) ∨ ∃ a, i = .callx a

theorem Branches.flow {v : View} {i : Instr} (hi : Branches v i) : pipeClass i = .flow := by
  obtain ⟨off, rfl, -⟩ | ⟨a, rfl⟩ := hi <;> rfl

theorem Calls.flow {i : Instr} (hi : Calls i) : pipeClass i = .flow := by
  obtain ⟨off, rfl⟩ | ⟨a, rfl⟩ := hi <;> rfl

/-- The target of BRX and CALLX is read in the lowest executing lane (R140). -/
theorem indexTarget_of_lowestLane {s : State} {v : View} {a : Src} {x : Double}
    (ht : (lowestLane v.exe).map (fun l => BitVec.ofNat 64 (blockCode s v.u.blk + (readReg v.k a.reg l).toNat)) = some x) :
    indexTarget s v a = x := by
  obtain ⟨l, hl, rfl⟩ := Option.map_eq_some_iff.1 ht
  rw [indexTarget, hl]
  rfl

section

variable {s : State} {v : View} {i : Instr} (h : IssuingAlone s v)

include h

theorem exec_branch (hs : Unstopped s v i) (hi : Branches v i) :
    ∃ x, exec i s = .next (branchPath (flowIssued s v i v.k) v v.exe x) ∧ ∀ t, targetOf s v i = some t → x = t := by
  obtain ⟨off, rfl, hr⟩ | ⟨a, rfl⟩ := hi
  · refine ⟨branchTarget v.p off, ?_, fun t ht => Option.some.inj ht⟩
    show execBra off s = _
    rw [execBra, runInstr_effect _ h.view hs, flowIssue_eq h.issuing, hr]
    rfl
  · refine ⟨indexTarget s v a, ?_, fun t ht => indexTarget_of_lowestLane ht⟩
    show execBrx a s = _
    rw [execBrx, runInstr_effect _ h.view hs, flowIssue_eq h.issuing]

theorem exec_call (hs : Unstopped s v i) (hi : Calls i) :
    ∃ x, exec i s = .next (callPath (flowIssued s v i v.k) v v.exe x) ∧ ∀ t, targetOf s v i = some t → x = t := by
  obtain ⟨off, rfl⟩ | ⟨a, rfl⟩ := hi
  · refine ⟨branchTarget v.p off, ?_, fun t ht => Option.some.inj ht⟩
    show execCall off s = _
    rw [execCall, runInstr_effect _ h.view hs, flowIssue_eq h.issuing]
  · refine ⟨indexTarget s v a, ?_, fun t ht => indexTarget_of_lowestLane ht⟩
    show execCallx a s = _
    rw [execCallx, runInstr_effect _ h.view hs, flowIssue_eq h.issuing]

theorem exec_join (hs : Unstopped s v .join) : exec .join s = .next (arrivePath (flowIssued s v .join v.k) v v.act) := by
  show execJoin s = _
  rw [execJoin, runInstr_effect _ h.view hs, flowIssue_eq h.issuing]

theorem exec_ret (hs : Unstopped s v .ret) : exec .ret s = .next (if v.exe = 0 then pathLeaves s v .ret v.k (fun p => nextPos p 3)
    else arrivePath (flowIssued s v .ret v.k) v v.exe) := by
  show execRet s = _
  rw [execRet, runInstr_effect _ h.view hs, ← stepPath_flowIssue h.issuing, flowIssue_eq h.issuing]

theorem exec_exit_untaken (hs : Unstopped s v .exit) (hx : v.exe = 0) :
    exec .exit s = .next (pathLeaves s v .exit v.k (fun p => nextPos p 3)) := by
  show execExit s = _
  rw [execExit, runInstr_effect _ h.view hs, stepPath_flowIssue h.issuing]
  dsimp only
  rw [if_pos hx]

theorem exec_trap_untaken {code : BitVec 21} (hs : Unstopped s v (.trap code)) :
    exec (.trap code) s = .next (pathLeaves s v (.trap code) v.k (fun p => nextPos p 3)) := by
  show execTrap code s = _
  rw [execTrap, runInstr_effect _ h.view hs, stepPath_flowIssue h.issuing]

/-! ### Nothing taken -/

theorem exec_branch_untaken (hs : Unstopped s v i) (hi : Branches v i) (hx : v.exe = 0) :
    exec i s = .next (pathLeaves s v i v.k (fun p => nextPos p 3)) := by
  obtain ⟨x, run, -⟩ := exec_branch h hs hi
  rw [run, branchPath, if_pos hx]
  exact congrArg Host.Outcome.next (updPath_flowIssued ..)

theorem exec_call_untaken (hs : Unstopped s v i) (hi : Calls i) (hx : v.exe = 0) :
    exec i s = .next (pathLeaves s v i v.k (fun p => nextPos p 3)) := by
  obtain ⟨x, run, -⟩ := exec_call h hs hi
  rw [run, callPath, if_pos hx]
  exact congrArg Host.Outcome.next (updPath_flowIssued ..)

end

/-- Settles O18: with no lane taken each of the seven only steps to the next packet. -/
theorem untakenFlowInstructionsGoOn : Obligations.UntakenFlowInstructionsGoOn := by
  unfold Obligations.UntakenFlowInstructionsGoOn
  intro s v h hx goesOn
  refine ⟨fun off hr hs => ?bra, fun a hs => ?brx, fun off hs => ?call, fun a hs => ?callx, fun hs => ?ret, fun hs => ?exit,
    fun code hs => ?trap⟩
  case bra => exact ⟨exec_branch_untaken h hs (.inl ⟨off, rfl, hr⟩) hx, pathLeaves_sameMemory ..⟩
  case brx => exact ⟨exec_branch_untaken h hs (.inr ⟨a, rfl⟩) hx, pathLeaves_sameMemory ..⟩
  case call => exact ⟨exec_call_untaken h hs (.inl ⟨off, rfl⟩) hx, pathLeaves_sameMemory ..⟩
  case callx => exact ⟨exec_call_untaken h hs (.inr ⟨a, rfl⟩) hx, pathLeaves_sameMemory ..⟩
  case ret => exact ⟨by rw [exec_ret h hs, if_pos hx], pathLeaves_sameMemory ..⟩
  case exit => exact ⟨exec_exit_untaken h hs hx, pathLeaves_sameMemory ..⟩
  case trap => exact ⟨exec_trap_untaken h hs, pathLeaves_sameMemory ..⟩

/-! ### A branch or a call whose lanes are taken -/

/-- `k'` is `k` but for its paths and its tape. -/
def OnlyMoves (k k' : Course) : Prop := k' = { k with path0 := k'.path0, path1 := k'.path1, tape := k'.tape }

theorem OnlyMoves.trans {a b c : Course} (h : OnlyMoves a b) (g : OnlyMoves b c) : OnlyMoves a c := by
  unfold OnlyMoves at *
  rw [g, h]

theorem setPath_onlyMoves (k : Course) (slot : Nat) (p : Option Path) : OnlyMoves k (setPath k slot p) := by
  unfold setPath
  split <;> rfl

theorem splitOrder_onlyMoves (k : Course) (slot : Nat) (filled : Bool) : OnlyMoves k (splitOrder k slot filled) := by
  unfold splitOrder
  split <;> rfl

theorem OnlyMoves.live {k k' : Course} (h : OnlyMoves k k') : k'.live = k.live := by rw [h]
theorem OnlyMoves.depth {k k' : Course} (h : OnlyMoves k k') : k'.depth = k.depth := by rw [h]
theorem OnlyMoves.stackSlot {k k' : Course} (h : OnlyMoves k k') : k'.stackSlot = k.stackSlot := by rw [h]
theorem OnlyMoves.longs {k k' : Course} (h : OnlyMoves k k') : k'.longs = k.longs := by rw [h]

theorem OnlyMoves.readReg {k k' : Course} (h : OnlyMoves k k') (r : RegName) (l : Nat) : readReg k' r l = readReg k r l := by
  rw [h]
  rfl

/-- Which slot issues next is no part of a path (R219). -/
theorem getPath_splitOrder (k : Course) (slot : Nat) (filled : Bool) (j : Nat) :
    getPath (splitOrder k slot filled) j = getPath k j := by
  unfold splitOrder
  split <;> rfl

theorem splitOrder_idle {k : Course} (ht : k.tape.mode = .idle) (slot : Nat) (filled : Bool) : splitOrder k slot filled = k := by
  rw [splitOrder, ht]

theorem branchPath_uniform (s : State) {v : View} (i : Instr) (hx : v.exe ≠ 0) (hall : v.act &&& ~~~v.exe = 0) (x : Double) :
    branchPath (flowIssued s v i v.k) v v.exe x = pathLeaves s v i v.k (fun p => jumpTo p x) := by
  rw [branchPath, if_neg hx, if_pos hall]
  exact updPath_flowIssued ..

section

variable {s : State} {v : View} {i : Instr} (h : IssuingAlone s v)

include h

/-- A branch that divides its path and has nothing to settle splits it as it stands (R137, R139). -/
theorem branchPath_divides (hx : v.exe ≠ 0) (hrest : v.act &&& ~~~v.exe ≠ 0) (x : Double)
    (settled : settlePath (flowIssued s v i v.k) v (otherHeld v) = flowIssued s v i v.k) :
    branchPath (flowIssued s v i v.k) v v.exe x
      = splitPath (flowIssued s v i v.k) v v.exe (v.act &&& ~~~v.exe) x v.p.region := by
  have there := pathThere_flow (i := i) h (mask_ne_zero_of_act (act_ne_zero_of_exe hx))
  rw [branchPath, if_neg hx, if_neg hrest, settled]
  dsimp only
  rw [if_pos there, liveLanes_flow, liveLanes_flow, exe_and_live, activeOf_and_live, divide, if_neg hx, if_neg hrest]

/-- With the other slot empty the fall-through part takes it (R137). -/
theorem splitPath_free (hi : pipeClass i = .flow) (hfree : getPath v.k (1 - v.u.slot) = none) (t f : Lanes) (x : Double)
    (region : Option Nat) : splitPath (flowIssued s v i v.k) v t f x region = courseLeaves s v
      (splitOrder (setPath (setPath (flowCourse v i v.k) (1 - v.u.slot)
          (some (newPath (v.p.pc + 16) 0 f v.p.sig v.p.region v.p.pending)))
        v.u.slot (some { jumpTo v.p x with mask := t, region := region })) v.u.slot true) := by
  have here := getPath_flow h hi
  have free : getPath (flowCourse v i v.k) (1 - v.u.slot) = none := (getPath_flow_other h).trans hfree
  rw [splitPath]
  dsimp only
  rw [getCourse_flowIssued]
  dsimp only
  rw [free, here, if_pos Option.isNone_none, flowIssued, updCourse_courseLeaves, here]
  rfl

/-- With both slots full and no tape the fall-through part is pushed (R137). -/
theorem splitPath_full {x : Context} (hi : pipeClass i = .flow) (hfull : (getPath v.k (1 - v.u.slot)).isSome = true)
    (hidle : v.k.tape.mode = .idle) (hx : blockCtx s v.u.blk = some x) (t f : Lanes) (pc : Double) (region : Option Nat) :
    splitPath (flowIssued s v i v.k) v t f pc region =
      setCourse (pushLeaves s v x (flowCourse v i v.k) ⟨v.p.sig, f, v.p.region, 0, (v.p.pc + 16).toNat, 0, 0, false⟩)
        v.u.blk v.u.course (setPath { flowCourse v i v.k with depth := v.k.depth + 1 } v.u.slot
          (some { jumpTo v.p pc with mask := t, region := region })) := by
  have full : (getPath (flowCourse v i v.k) (1 - v.u.slot)).isNone = false := by
    rw [getPath_flow_other h, Option.isNone_eq_false_iff, hfull]
  have idle : (flowCourse v i v.k).tape.mode = .idle := by rw [flowCourse_tape, hidle]
  rw [splitPath]
  dsimp only
  rw [getCourse_flowIssued]
  dsimp only
  rw [full, if_neg Bool.false_ne_true, if_neg (by rw [idle]; decide), flowIssued, push_courseLeaves _ _ hx]
  dsimp only
  rw [updCourse_of_get (getCourse_pushLeaves ..), splitOrder_idle (by rw [setPath_tape]; exact idle), flowCourse_depth]
  congr 2
  exact congrArg (Option.map _) (getPath_flow h hi)

/-- A call by every active lane pushes its frame and goes to the target in its region (R141). -/
theorem callPath_uniform {x : Context} (hi : pipeClass i = .flow) (hx : v.exe ≠ 0) (hall : v.act &&& ~~~v.exe = 0)
    (hctx : blockCtx s v.u.blk = some x) (pc : Double) : callPath (flowIssued s v i v.k) v v.exe pc =
      setCourse (pushLeaves s v x (flowCourse v i v.k) ⟨0, v.exe, v.p.region, 2, v.p.pc.toNat + 16, 0, 0, false⟩)
        v.u.blk v.u.course (setPath { flowCourse v i v.k with depth := v.k.depth + 1 } v.u.slot
          (some { jumpTo v.p pc with region := some v.k.depth })) := by
  have there := pathThere_flow (i := i) h (mask_ne_zero_of_act (act_ne_zero_of_exe hx))
  have settled : settlePath (flowIssued s v i v.k) v (decide (v.act &&& ~~~v.exe ≠ 0) && otherHeld v) =
      flowIssued s v i v.k := by
    simp [settlePath, hall]
  have none (t : State) : liveLanes t v.u 0 = 0 := by
    unfold liveLanes
    split <;> simp
  rw [callPath, if_neg hx]
  dsimp only
  rw [settled, liveLanes_flow, exe_and_live, there, if_neg (by decide), if_neg hx, flowIssued, push_courseLeaves _ _ hctx]
  dsimp only
  rw [hall, none, divide, if_neg hx, if_pos rfl, updPath_of_get (getCourse_pushLeaves ..), flowCourse_depth]
  congr 2
  exact congrArg (Option.map _) (getPath_flow h hi)

theorem exec_rcv {x : Context} {off : BitVec 25} (hs : Unstopped s v (.rcv off)) (hctx : blockCtx s v.u.blk = some x) :
    exec (.rcv off) s = .next (setCourse (pushLeaves s v x (flowCourse v (.rcv off) v.k)
        ⟨0, v.act, v.p.region, 1, (v.p.pc + 16 + 16 * off.signExtend 64).toNat, 0, 0, false⟩) v.u.blk v.u.course
      (setPath { flowCourse v (.rcv off) v.k with depth := v.k.depth + 1 } v.u.slot
        (some { nextPos v.p 3 with region := some v.k.depth }))) := by
  show execRcv off s = _
  rw [execRcv, runInstr_effect _ h.view hs, flowIssue_eq h.issuing]
  dsimp only
  rw [flowIssued, push_courseLeaves _ _ hctx]
  dsimp only
  rw [updPath_of_get (getCourse_pushLeaves ..), flowCourse_depth]
  congr 3
  exact congrArg (Option.map _) (getPath_flow h rfl)

/-- What a push leaves of its course: the path moved, the other one, the depth and the lanes. -/
theorem pushed_fields (p : Path) : let k' := setPath { flowCourse v i v.k with depth := v.k.depth + 1 } v.u.slot (some p)
    getPath k' v.u.slot = some p ∧ getPath k' (1 - v.u.slot) = getPath v.k (1 - v.u.slot) ∧ k'.depth = v.k.depth + 1 ∧
      k'.live = v.k.live :=
  ⟨getPath_setPath_self .., (getPath_setPath_twin h ..).trans (getPath_flow_other h), setPath_depth ..,
    (setPath_live ..).trans (flowCourse_live ..)⟩

end

/-- Settles O19: with the other slot empty nothing of the path is settled, and the fall-through part takes that slot. -/
theorem aTakenBranchMovesItsLanes : Obligations.ATakenBranchMovesItsLanes := by
  unfold Obligations.ATakenBranchMovesItsLanes
  intro s v i t h hs hx hi ht
  obtain ⟨x, run, target⟩ := exec_branch h hs hi
  obtain rfl : x = t := target t ht
  refine ⟨fun hall => ⟨by rw [run, branchPath_uniform s i hx hall], pathLeaves_sameMemory ..⟩, fun hrest hfree => ?_⟩
  have settled : settlePath (flowIssued s v i v.k) v (otherHeld v) = flowIssued s v i v.k := by
    simp [settlePath, otherHeld, hfree]
  have leaves := (branchPath_divides h hx hrest x settled).trans (splitPath_free h (Branches.flow hi) hfree ..)
  have moves (q r : Option Path) : OnlyMoves (flowCourse v i v.k)
      (splitOrder (setPath (setPath (flowCourse v i v.k) (1 - v.u.slot) q) v.u.slot r) v.u.slot true) :=
    ((setPath_onlyMoves ..).trans (setPath_onlyMoves ..)).trans (splitOrder_onlyMoves ..)
  refine ⟨_, run.trans (congrArg _ leaves), courseLeaves_sameMemory .., ?taken, ?rest,
    (moves _ _).live.trans (flowCourse_live ..), (moves _ _).depth.trans (flowCourse_depth ..),
    (moves _ _).stackSlot.trans (flowCourse_stackSlot ..), (moves _ _).longs.trans (flowCourse_longs ..),
    (moves _ _).readReg⟩
  case taken => exact (getPath_splitOrder ..).trans (getPath_setPath_self ..)
  case rest => exact (getPath_splitOrder ..).trans ((getPath_setPath_twin h ..).trans (getPath_setPath_self ..))

/-- Settles O20: with nothing pending the split has nothing to settle, and pushes. -/
theorem aDivergentBranchWithBothSlotsFullPushes : Obligations.ADivergentBranchWithBothSlotsFullPushes := by
  unfold Obligations.ADivergentBranchWithBothSlotsFullPushes
  intro s v i t x h hs hx hi ht hrest hfull hp hctx hidle
  obtain ⟨pc, run, target⟩ := exec_branch h hs hi
  obtain rfl : pc = t := target t ht
  have leaves := branchPath_divides h hx hrest pc (settlePath_quiet h (Branches.flow hi) hp _)
  rw [splitPath_full h (Branches.flow hi) hfull hidle hctx] at leaves
  exact ⟨_, run.trans (congrArg _ leaves), pushed_fields h _⟩

/-- Settles O21: the push comes before the path's move. -/
theorem callsAndRcvPushTheirRegion : Obligations.CallsAndRcvPushTheirRegion := by
  unfold Obligations.CallsAndRcvPushTheirRegion
  intro s v x h hctx
  refine ⟨fun i t hs hx hall hi ht => ?call, fun off hs => ⟨_, exec_rcv h hs hctx, pushed_fields h _⟩⟩
  case call =>
    obtain ⟨pc, run, target⟩ := exec_call h hs hi
    obtain rfl : pc = t := target t ht
    exact ⟨_, run.trans (congrArg _ (callPath_uniform h (Calls.flow hi) hx hall hctx pc)), pushed_fields h _⟩

end Sys2Proof.Machine

/-!
SUPPORT and PROOF. Arrivals and exits: a region that completes on top of the stack, and the lanes that leave a course
(R138, R143 to R145, R225).
-/

namespace Sys2Proof.Machine

/-! ### Slots that stay, and regions on top of the stack -/

/-- A slot that holds a path, or a course whose stack is empty, has nothing to refill (R138). -/
theorem refillSlot_stays (s : State) (b c : Nat) {k : Course} {slot : Nat} (front : Bool)
    (h : (getPath k slot).isSome = true ∨ k.depth = 0) : refillSlot (setCourse s b c k) b c slot front = setCourse s b c k := by
  unfold refillSlot
  rw [getCourse_setCourse_self]
  split
  next j x e _ =>
    obtain rfl := Option.some.inj e
    dsimp only
    split
    · rfl
    · next full =>
      have depth : k.depth = 0 := h.resolve_left fun held => full (by simp [held])
      rw [depth, if_pos rfl, topEntry]
      dsimp only
      rw [setCourse_setCourse]
      congr 1
      rw [← depth]
  · rfl

/-- Where neither slot has anything to refill, the course stays (R138). -/
theorem refillSlots_stays (s : State) (b c : Nat) {k : Course} {first : Nat} (merged : Bool)
    (h : (getPath k first).isSome = true ∨ k.depth = 0) (g : (getPath k (1 - first)).isSome = true ∨ k.depth = 0) :
    refillSlots (setCourse s b c k) b c first merged = setCourse s b c k := by
  rw [refillSlots, refillSlot_stays _ _ _ _ h]
  exact refillSlot_stays _ _ _ _ g

/-- A course without live lanes, without a stack or with a path in a slot is not starved (R138). -/
theorem checkStarved_fed {s : State} {b c : Nat} {k : Course} (hk : getCourse s b c = some k)
    (h : k.live = 0 ∨ k.depth = 0 ∨ ∃ slot, (getPath k slot).isSome = true) (slot : Nat) (pos sig : Word) :
    checkStarved s b c slot pos sig = s := by
  have fed : slotsStarved s b c = false := by
    rw [slotsStarved, hk]
    obtain live | depth | ⟨j, held⟩ := h
    · simp [live]
    · simp [depth]
    · unfold getPath at held
      split at held
      · simp [Option.isSome_iff_ne_none.1 held]
      · simp [Option.isSome_iff_ne_none.1 held]
  rw [checkStarved, fed, if_neg Bool.false_ne_true]

theorem tapeFront_onlyMoves (k : Course) (slot : Nat) : OnlyMoves k (tapeFront k slot) := by
  unfold tapeFront
  split <;> rfl

theorem getPath_tapeFront (k : Course) (slot j : Nat) : getPath (tapeFront k slot) j = getPath k j := by
  unfold tapeFront
  split <;> rfl

/-- The course once region `n` on top of its stack has merged into the empty slot of its last arrival (R143, R219). -/
def mergedCourse (k : Course) (slot n : Nat) (e : Entry) : Course :=
  { tapeFront (setPath k slot (some (mergedPath e k.live))) slot with depth := n }

theorem getPath_mergedCourse (k : Course) (slot n : Nat) (e : Entry) (j : Nat) :
    getPath (mergedCourse k slot n e) j = getPath (setPath k slot (some (mergedPath e k.live))) j :=
  getPath_tapeFront ..

theorem mergedCourse_live (k : Course) (slot n : Nat) (e : Entry) : (mergedCourse k slot n e).live = k.live :=
  ((setPath_onlyMoves ..).trans (tapeFront_onlyMoves ..)).live

/-- A region on top of the stack that completes is popped, and its merged path takes the slot that the arrival has left
(R143). -/
theorem completeRegion_top {s : State} {b c : Nat} {k : Course} {n slot : Nat} (x : Context) (e : Entry)
    (hk : getCourse s b c = some k) (hfree : getPath k slot = none) (hd : k.depth = n + 1) :
    completeRegion s x b c n e slot = setCourse s b c (mergedCourse k slot n e) := by
  have found : [slot, 1 - slot].find? (fun i => (getPath k i).isNone) = some slot := by simp [hfree]
  have depth : (tapeFront (setPath k slot (some (mergedPath e k.live))) slot).depth = n + 1 :=
    ((setPath_onlyMoves ..).trans (tapeFront_onlyMoves ..)).depth.trans hd
  rw [completeRegion, hk]
  dsimp only
  rw [found]
  dsimp only
  rw [removeEntry, getCourse_setCourse_self]
  dsimp only
  rw [if_pos depth.symm, setCourse_setCourse, mergedCourse]

/-- The entry of a region once the active lanes have arrived (R143). -/
def arrivedEntry (v : View) (e : Entry) : Entry := { e with word3 := e.word3 ||| v.act }

/-- The machine once a flow instruction has issued and entry `n` of its course's stack has been read. -/
def entryRead (s : State) (v : View) (i : Instr) (x : Context) (n : Nat) : State :=
  touchEntry (flowIssued s v i v.k) x v.k.stackSlot n

theorem getCourse_writeEntryRead (s : State) (v : View) (i : Instr) (x : Context) (n m : Nat) (e : Entry) :
    getCourse (writeEntry (entryRead s v i x n) x v.k.stackSlot m e) v.u.blk v.u.course = some (flowCourse v i v.k) := by
  rw [(writeEntry_onlyMemory ..).getCourse, entryRead, (touchEntry_onlyMemory ..).getCourse, getCourse_flowIssued]

/-- The course once the active lanes, which are all of its path's, have completed region `n` on top of its stack. -/
def arrivedCourse (v : View) (i : Instr) (n : Nat) (e : Entry) : Course :=
  mergedCourse (setPath (flowCourse v i v.k) v.u.slot none) v.u.slot n (arrivedEntry v e)

theorem arrivedCourse_live (v : View) (i : Instr) (n : Nat) (e : Entry) : (arrivedCourse v i n e).live = v.k.live := by
  rw [arrivedCourse, mergedCourse_live, setPath_live, flowCourse_live]

theorem getPath_arrivedCourse (v : View) (i : Instr) (n : Nat) (e : Entry) :
    getPath (arrivedCourse v i n e) v.u.slot = some (mergedPath (arrivedEntry v e) v.k.live) := by
  rw [arrivedCourse, getPath_mergedCourse, getPath_setPath_self, setPath_live, flowCourse_live]

theorem getPath_arrivedCourse_other {s : State} {v : View} (h : IssuingAlone s v) (i : Instr) (n : Nat) (e : Entry) :
    getPath (arrivedCourse v i n e) (1 - v.u.slot) = getPath v.k (1 - v.u.slot) := by
  rw [arrivedCourse, getPath_mergedCourse, getPath_setPath_twin h, getPath_setPath_twin h, getPath_flow_other h]

/-- The arrival of every lane of a path that completes the region on top of the stack (R143). -/
theorem arrivePath_completes {s : State} {v : View} {i : Instr} {x : Context} {n : Nat} {e : Entry} (h : IssuingAlone s v)
    (hi : pipeClass i = .flow) (ha : v.act ≠ 0) (hp : v.p.pending = []) (hall : v.p.mask &&& ~~~v.act = 0)
    (hctx : getCtx s v.b.asid = some x) (hr : v.p.region = some n) (hd : v.k.depth = n + 1)
    (he : readEntry (entryRead s v i x n) x v.k.stackSlot n = some (e, false))
    (hw : entryWritable (entryRead s v i x n) x v.k.stackSlot n = true)
    (hc : regionComplete (arrivedEntry v e) v.k.live = true) (ho : (getPath v.k (1 - v.u.slot)).isSome = true ∨ n = 0) :
    arrivePath (flowIssued s v i v.k) v v.act =
      setCourse (writeEntry (entryRead s v i x n) x v.k.stackSlot n (arrivedEntry v e)) v.u.blk v.u.course
        (arrivedCourse v i n e) := by
  have there := pathThere_flow (i := i) h (mask_ne_zero_of_act ha)
  have merged : completeRegion (setCourse (writeEntry (entryRead s v i x n) x v.k.stackSlot n (arrivedEntry v e)) v.u.blk
      v.u.course (setPath (flowCourse v i v.k) v.u.slot none)) x v.u.blk v.u.course n (arrivedEntry v e) v.u.slot = _ :=
    completeRegion_top x _ (getCourse_setCourse_self ..) (getPath_setPath_self ..)
      (by rw [setPath_depth, flowCourse_depth, hd])
  have held : (getPath (arrivedCourse v i n e) v.u.slot).isSome = true := by
    rw [getPath_arrivedCourse]
    rfl
  have other : (getPath (arrivedCourse v i n e) (1 - v.u.slot)).isSome = true ∨ n = 0 := by
    rwa [getPath_arrivedCourse_other h]
  unfold arrivePath
  dsimp only
  rw [settlePath_quiet h hi hp, there, Bool.not_true, if_neg Bool.false_ne_true, getCourse_flowIssued,
    show getCtx (flowIssued s v i v.k) v.b.asid = some x from hctx, hr]
  dsimp only
  rw [flowCourse_stackSlot, ← entryRead, he]
  dsimp only
  rw [if_neg Bool.false_ne_true, flowCourse_live, act_and_live, ← arrivedEntry, rewriteEntry, if_pos hw, getPath_flow h hi,
    Option.getD_some, if_pos hall, updCourse_of_get (getCourse_writeEntryRead ..), hc, if_pos rfl, merged, setCourse_setCourse,
    ← arrivedCourse, refillSlots_stays _ _ _ _ (.inl held) other]
  exact checkStarved_fed (getCourse_setCourse_self ..) (.inr (.inr ⟨_, held⟩)) ..

/-- Settles O22: JOIN and RET arrive alike, with every active lane. -/
theorem anArrivalThatCompletesItsRegionMerges : Obligations.AnArrivalThatCompletesItsRegionMerges := by
  unfold Obligations.AnArrivalThatCompletesItsRegionMerges
  intro s v i x n e r h hs hi ha hp hall _ hctx hr hd he hw hc hl ho e'
  have arrives : pipeClass i = .flow ∧ (e.kind = 1 ∨ e.kind = 2) ∧
      exec i s = .next (arrivePath (flowIssued s v i v.k) v v.act) := by
    obtain ⟨rfl, kind⟩ | ⟨rfl, kind, every⟩ := hi
    · exact ⟨rfl, .inl kind, exec_join h hs⟩
    · exact ⟨rfl, .inr kind, by rw [exec_ret h hs, every, if_neg ha]⟩
  obtain ⟨flow, kind, run⟩ := arrives
  have complete : regionComplete (arrivedEntry v e) v.k.live = true := by
    obtain kind | kind := kind <;> simpa [regionComplete, arrivedEntry, kind, hc] using hl
  exact ⟨_, run.trans (congrArg _ (arrivePath_completes h flow ha hp hall hctx hr hd he hw complete ho)),
    getPath_arrivedCourse .., getPath_arrivedCourse_other h .., rfl, arrivedCourse_live ..⟩

/-! ### EXIT -/

/-- A course in no team breaks none (R267). -/
theorem teamBroken_none (s : State) (blk : Nat) : teamBroken s blk none = s := by
  unfold teamBroken
  split
  · rfl
  · simp

theorem getCourse_markExited (s : State) (blk b c : Nat) : getCourse (markExited s blk) b c = getCourse s b c := by
  unfold markExited markDone
  split
  · split
    · split
      · rfl
      · split
        · rfl
        · dsimp only
          split <;> rfl
    · rfl
  · rfl

section

variable {s : State} {blk : Nat} {b : Block} (hb : getBlock s blk = some b)

include hb

/-- A block that is done, is to be replayed or has a course left takes no note of an exit (R225, R359). -/
theorem markExited_stays (h : b.done = true ∨ b.replaying = true ∨
    ∃ c k, c < b.courses ∧ getCourse s blk c = some k ∧ k.live ≠ 0) : markExited s blk = s := by
  rw [markExited, hb]
  dsimp only
  obtain done | replaying | ⟨c, k, hc, hk, live⟩ := h
  · rw [markDone, hb]
    dsimp only
    rw [if_pos done, ite_self]
  · rw [replaying]
    rfl
  · have ended : coursesEnded s blk b = false := by
      rw [coursesEnded, List.all_eq_false]
      refine ⟨c, List.mem_range.2 hc, ?_⟩
      rw [hk]
      simpa using live
    rw [ended, Bool.and_false, if_neg Bool.false_ne_true]

/-- A block whose courses have all exited is done (R225). -/
theorem markExited_ends {j : Job} (hd : b.done = false) (hr : b.replaying = false) (hj : getJob s b.job = some j)
    (h : ∀ c k, c < b.courses → getCourse s blk c = some k → k.live = 0) : markExited s blk =
      setJob (setBlock s blk { b with done := true }) b.job { j with doneBlocks := j.doneBlocks + 1 } := by
  have ended : coursesEnded s blk b = true := by
    rw [coursesEnded, List.all_eq_true]
    intro c hc
    split
    next k hk => simpa using h c k (List.mem_range.1 hc) hk
    next => rfl
  have ends : (!b.replaying && coursesEnded s blk b) = true := by
    rw [hr, ended]
    rfl
  rw [markExited, hb]
  dsimp only
  rw [if_pos ends, markDone, hb]
  dsimp only
  rw [if_neg (Bool.eq_false_iff.1 hd), getJob_setBlock, hj]

end

theorem emptyCourse_of_moves {k k' : Course} (h : OnlyMoves k k') (l : Lanes) :
    emptyCourse { k' with live := l } = emptyCourse k := by
  rw [h]
  rfl

/-- Where no live lane is left the course exits (R144, R225). -/
theorem lanesLeft_none {s : State} {v : View} {x : Context} {k : Course} (m : Lanes) (hctx : blockCtx s v.u.blk = some x)
    (hl : k.live = 0) (ht : k.team = none) : lanesLeft (courseLeaves s v k) v.u.blk v.u.course m =
      markExited (courseLeaves s v (emptyCourse k)) v.u.blk := by
  rw [lanesLeft, getCourse_courseLeaves, blockCtx_courseLeaves, hctx]
  dsimp only
  rw [if_pos hl, ht, courseExited, teamBroken_none, setCourse_courseLeaves]

/-- A course once lanes have left its slots (R144). -/
def leftCourse (m : Lanes) (k : Course) : Course := { k with path0 := leavePath m k.path0, path1 := leavePath m k.path1 }

/-- Where lanes are left and the stack is empty they leave the slots alone (R144). -/
theorem lanesLeft_some {s : State} {v : View} {x : Context} {k : Course} (m : Lanes) (hctx : blockCtx s v.u.blk = some x)
    (hl : k.live ≠ 0) (hd : k.depth = 0) : lanesLeft (courseLeaves s v k) v.u.blk v.u.course m =
      courseLeaves s v (leftCourse m k) := by
  have bottom (t : State) : leaveStack t x v.u.blk v.u.course m k.depth = t := by
    rw [hd]
    rfl
  have depth : (leftCourse m k).depth = 0 := hd
  rw [lanesLeft, getCourse_courseLeaves, blockCtx_courseLeaves, hctx]
  dsimp only
  rw [if_neg hl, bottom, ← leftCourse, refillSlots_stays _ _ _ _ (.inr depth) (.inr depth), setCourse_courseLeaves]

/-- The course of an EXIT whose lanes have left live(c), its path at the next packet (R145). -/
def exitingCourse (v : View) : Course :=
  { setPath (flowCourse v .exit v.k) v.u.slot ((getPath (flowCourse v .exit v.k) v.u.slot).map (fun p => nextPos p 3)) with
    live := v.k.live &&& ~~~v.exe }

section

variable {s : State} {v : View} {x : Context} (h : IssuingAlone s v) (hs : Unstopped s v .exit) (hx : v.exe ≠ 0)

include h hs hx

theorem exec_exit : exec .exit s = .next (
    let t := lanesLeft (courseLeaves s v (exitingCourse v)) v.u.blk v.u.course v.exe
    checkStarved t v.u.blk v.u.course v.u.slot (pathPos t v.u.blk v.p) v.p.sig) := by
  have live (p : Option Path) : (setPath (flowCourse v .exit v.k) v.u.slot p).live = v.k.live :=
    (setPath_live ..).trans (flowCourse_live ..)
  show execExit s = _
  rw [execExit, runInstr_effect _ h.view hs, stepPath_flowIssue h.issuing, pathLeaves]
  dsimp only
  rw [if_neg hx, updCourse_courseLeaves, live]
  rfl

variable (hctx : blockCtx s v.u.blk = some x)

include hctx

theorem exec_exit_last (hl : v.k.live &&& ~~~v.exe = 0) (ht : v.k.team = none) : exec .exit s =
    .next (markExited (courseLeaves s v (emptyCourse (flowCourse v .exit v.k))) v.u.blk) := by
  have moves := setPath_onlyMoves (flowCourse v .exit v.k) v.u.slot
  have team : (exitingCourse v).team = none := (congrArg Course.team (moves _)).trans ((flowCourse_team ..).trans ht)
  rw [exec_exit h hs hx, lanesLeft_none _ hctx hl team, exitingCourse, emptyCourse_of_moves (moves _)]
  exact congrArg _ (checkStarved_fed ((getCourse_markExited ..).trans (getCourse_courseLeaves ..)) (.inl rfl) ..)

theorem exec_exit_rest (hl : v.k.live &&& ~~~v.exe ≠ 0) (hd : v.k.depth = 0) :
    exec .exit s = .next (courseLeaves s v (leftCourse v.exe (exitingCourse v))) := by
  have depth : (exitingCourse v).depth = 0 := ((setPath_depth ..).trans (flowCourse_depth ..)).trans hd
  rw [exec_exit h hs hx, lanesLeft_some _ hctx hl depth]
  exact congrArg _ (checkStarved_fed (k := leftCourse v.exe (exitingCourse v)) (getCourse_courseLeaves ..)
    (.inr (.inl depth)) ..)

end

/-- Settles O23: the exit of a course's last lanes is noted by its block, that of others moves its paths alone. -/
theorem exitTakesItsLanesOut : Obligations.ExitTakesItsLanesOut := by
  unfold Obligations.ExitTakesItsLanesOut
  intro s v x h hs hx hctx k1 k2
  refine ⟨fun hl ht => ?last, fun hl hd => ⟨exec_exit_rest h hs hx hctx hl hd, courseLeaves_sameMemory ..⟩⟩
  case last =>
    intro t
    have run : exec .exit s = .next (markExited t v.u.blk) := exec_exit_last h hs hx hctx hl ht
    have block : getBlock t v.u.blk = some v.b := h.block
    have others {c : Nat} (hc : c ≠ v.u.course) : getCourse t v.u.blk c = getCourse s v.u.blk c :=
      getCourse_setCourse_ne s _ (by unfold courseKey; omega)
    refine ⟨fun stays => ⟨?_, courseLeaves_sameMemory ..⟩, fun j hd hr hj ended => ?_⟩
    · rw [run, markExited_stays block]
      obtain done | replaying | ⟨c, k, hc, hne, hk, live⟩ := stays
      · exact .inl done
      · exact .inr (.inl replaying)
      · exact .inr (.inr ⟨c, k, hc, (others hne).trans hk, live⟩)
    · rw [run, markExited_ends block hd hr hj]
      intro c k hc hk
      by_cases own : c = v.u.course
      · subst own
        obtain rfl : emptyCourse k1 = k := Option.some.inj ((getCourse_courseLeaves ..).symm.trans hk)
        rfl
      · exact ended c k hc own ((others own).symm.trans hk)

end Sys2Proof.Machine

/-!
SUPPORT and PROOF. YIELD, PROOF, barriers and phase words (R146, R148, R150 to R152, R154, R243).
-/

namespace Sys2Proof.Machine

/-! ### YIELD -/

theorem siblingRun_zero (s : State) (x : Context) (t : Nat) (region : Option Nat) : siblingRun s x t region 0 = some [] := rfl

/-- One sibling at the bottom of the stack is a run of its own (R243). -/
theorem siblingRun_one {s : State} {x : Context} {t : Nat} {q : Entry} {region : Option Nat}
    (hq : readEntry s x t 0 = some (q, false)) (hk : q.kind = 0) (hl : q.link = region) :
    siblingRun s x t region 1 = some [(0, q, false)] := by
  simp [siblingRun, hq, hk, hl]

theorem touchRun_one {s : State} {x : Context} {t : Nat} {q : Entry} {region : Option Nat}
    (hq : readEntry (touchEntry s x t 0) x t 0 = some (q, false)) (hk : q.kind = 0) (hl : q.link = region) :
    touchRun s x t region 1 = touchEntry s x t 0 := by
  simp [touchRun, hq, hk, hl]

section

variable {s : State} {v : View} {x : Context} {k : Course} {p : Path} (hctx : blockCtx s v.u.blk = some x)
  (hk : getPath k v.u.slot = some p) (hp : p.pending = [])

include hctx hk hp

/-- Under the tape, or with an empty stack, a demotion only prefers the other slot (R146, R243). -/
theorem demote_alone (hf : k.preferred = 1 - v.u.slot) (hd : k.depth = 0 ∨ k.tape.mode ≠ .idle) :
    demote (courseLeaves s v k) v.u.blk v.u.course v.u.slot = courseLeaves s v k := by
  rw [demote, completePath_none (getCourse_courseLeaves ..) hk hp]
  dsimp only
  rw [getCourse_courseLeaves, blockCtx_courseLeaves, hctx]
  dsimp only
  rw [Option.bind_some, hk]
  dsimp only
  split
  · rfl
  · next idle =>
    have depth : k.depth = 0 := hd.resolve_right fun tape => idle (by simp [tape])
    rw [depth, siblingRun_zero, touchRun]
    dsimp only
    rw [updCourse_courseLeaves, ← hf]

/-- With one sibling path on the stack a demotion exchanges the two (R146, R243). -/
theorem demote_exchanges {q : Entry} (hm : p.mask ≠ 0) (hd : k.depth = 1) (ht : k.tape.mode = .idle)
    (hq : readEntry (touchEntry (courseLeaves s v k) x k.stackSlot 0) x k.stackSlot 0 = some (q, false)) (hkind : q.kind = 0)
    (hl : q.link = p.region) (hw : entryWritable (touchEntry (courseLeaves s v k) x k.stackSlot 0) x k.stackSlot 0 = true) :
    demote (courseLeaves s v k) v.u.blk v.u.course v.u.slot =
      setCourse (writeEntry (touchEntry (courseLeaves s v k) x k.stackSlot 0) x k.stackSlot 0 (pathEntry p)) v.u.blk v.u.course
        { setPath k v.u.slot (some (newPath (BitVec.ofNat 64 q.addr) q.slot q.mask q.word3 q.link [])) with
          preferred := 1 - v.u.slot } := by
  have keeps : keepsLanes k v.u.slot p.mask = true := by simpa [keepsLanes, hk] using hm
  have course : getCourse (writeEntry (touchEntry (courseLeaves s v k) x k.stackSlot 0) x k.stackSlot 0 (pathEntry p))
      v.u.blk v.u.course = some k := by
    rw [(writeEntry_onlyMemory ..).getCourse, (touchEntry_onlyMemory ..).getCourse, getCourse_courseLeaves]
  rw [demote, completePath_none (getCourse_courseLeaves ..) hk hp]
  dsimp only
  rw [getCourse_courseLeaves, blockCtx_courseLeaves, hctx]
  dsimp only
  rw [Option.bind_some, hk]
  dsimp only
  rw [ht, keeps, if_neg (by decide), hd, touchRun_one hq hkind hl, siblingRun_one hq hkind hl]
  dsimp only
  rw [if_neg (by decide), if_neg (by simpa using hw), rotateRun, updCourse_of_get course,
    updCourse_of_get (getCourse_setCourse_self ..), setCourse_setCourse]

end

theorem exec_yield {s : State} {v : View} (h : IssuingAlone s v) (hs : Unstopped s v .yield) : exec .yield s =
    .next (demote (pathLeaves s v .yield v.k (fun p => nextPos p 3)) v.u.blk v.u.course v.u.slot) := by
  show execYield s = _
  rw [execYield, runInstr_effect _ h.view hs, stepPath_flowIssue h.issuing]

/-- A flow instruction that goes on leaves its path at the next packet. -/
theorem getPath_stepped {s : State} {v : View} {i : Instr} (h : IssuingAlone s v) (hi : pipeClass i = .flow) (g : Path → Path) :
    getPath (setPath (flowCourse v i v.k) v.u.slot ((getPath (flowCourse v i v.k) v.u.slot).map g)) v.u.slot = some (g v.p) := by
  rw [getPath_setPath_self, getPath_flow h hi]
  rfl

/-! ### The checks of the instructions that only name a register or a code -/

/-- Flow instructions whose only check before their own is HAZARD (R92), and which complete none of their path's long writes. -/
def checksLate (i : Instr) : Bool :=
  match i with
  | .bar _ | .pharr .. | .phwait .. | .proof _ | .trap _ => true
  | _ => false

/-- With no hazard their own check is the one that stops them (R92). -/
theorem stopOf_late {s : State} {v : View} {i : Instr} (h : IssuingAlone s v) (hi : checksLate i = true) (hz : NoHazard v i) :
    stopOf s v i = ownStop s v i := by
  have free := hz h.alone
  have operands : uniformStop s v i = none := by
    unfold uniformStop
    dsimp only
    rw [free]
    cases i with
    | bar | pharr | phwait | proof | trap => exact ite_self _
    | _ => exact Bool.noConfusion hi
  have settles : settlesPath v i = false := by
    cases i with
    | bar | pharr | phwait | proof | trap => rfl
    | _ => exact Bool.noConfusion hi
  rw [stopOf, operands]
  exact laneStop_own s settles

theorem runLate_effect {s : State} {v : View} {i : Instr} (h : IssuingAlone s v) (hi : checksLate i = true) (hz : NoHazard v i)
    (ho : ownStop s v i = none) (e : View → State) : runInstr i s e = .next (e v) :=
  runInstr_effect e h.view fun _ => (stopOf_late h hi hz).trans ho

theorem runLate_fault {s : State} {v : View} {i : Instr} {f : FaultInfo} (h : IssuingAlone s v) (hi : checksLate i = true)
    (hz : NoHazard v i) (ho : ownStop s v i = some (.fault f)) (hf : f.cause ≠ 0x0E) (hw : f.cause ≠ 0x08)
    (e : View → State) : runInstr i s e = .next (faultUnit s v.u i f) := by
  rw [runInstr_cases i e h.view, if_pos h.alone, stopOf_late h hi hz, ho]
  exact congrArg _ (faultInstr_plain hf hw)

/-! ### PROOF -/

/-- The check of a PROOF compares the low bits of the signature with its code (R154). -/
theorem proofMatches_iff {v : View} {code : BitVec 21} : v.p.sig.toNat % 2 ^ 21 = code.toNat ↔ v.p.sig.truncate 21 = code := by
  rw [← BitVec.toNat_inj]
  exact Iff.of_eq (congrArg (· = code.toNat) (BitVec.toNat_setWidth 21 v.p.sig).symm)

theorem exec_proof {s : State} {v : View} {code : BitVec 21} (h : IssuingAlone s v) (hz : NoHazard v (.proof code))
    (hc : v.p.sig.truncate 21 = code) :
    exec (.proof code) s = .next (pathLeaves s v (.proof code) v.k (fun p => { nextPos p 3 with sig := 0 })) := by
  have own : ownStop s v (.proof code) = none := if_pos (proofMatches_iff.2 hc)
  show execProof code s = _
  rw [execProof, runLate_effect h rfl hz own, flowIssue_eq h.issuing, updPath_flowIssued]

theorem exec_proof_fails {s : State} {v : View} {code : BitVec 21} (h : IssuingAlone s v) (hz : NoHazard v (.proof code))
    (hc : v.p.sig.truncate 21 ≠ code) :
    exec (.proof code) s = .next (faultUnit s v.u (.proof code) ⟨0x0C, 1, v.act, 0, v.p.sig.toNat, false⟩) := by
  have own : ownStop s v (.proof code) = some (.fault (proofFault v 1)) := if_neg (mt proofMatches_iff.1 hc)
  show execProof code s = _
  exact runLate_fault h rfl hz own (show (0x0C : Nat) ≠ 0x0E by decide) (show (0x0C : Nat) ≠ 0x08 by decide) _

/-- Settles O24: a YIELD is a demotion at the next packet. -/
theorem yieldAndProof : Obligations.YieldAndProof := by
  unfold Obligations.YieldAndProof
  intro s v x h hctx
  have here := getPath_stepped (i := .yield) h rfl (fun p => nextPos p 3)
  have moves := setPath_onlyMoves (flowCourse v .yield v.k) v.u.slot
  refine ⟨fun hs hp ha => ?alone, fun q => ?exchange, fun code hz => ⟨exec_proof h hz, exec_proof_fails h hz⟩⟩
  case alone =>
    rw [exec_yield h hs]
    refine congrArg _ (demote_alone hctx here hp ?_ ?_)
    · exact (congrArg Course.preferred (moves _)).trans (flowCourse_preferred ..)
    · rwa [setPath_depth, flowCourse_depth, setPath_tape, flowCourse_tape]
  case exchange =>
    intro r hs hp hm hd ht hq hk hl hw
    have stack (p : Option Path) : (setPath (flowCourse v .yield v.k) v.u.slot p).stackSlot = v.k.stackSlot :=
      (setPath_stackSlot ..).trans (flowCourse_stackSlot ..)
    have depth (p : Option Path) : (setPath (flowCourse v .yield v.k) v.u.slot p).depth = 1 :=
      ((setPath_depth ..).trans (flowCourse_depth ..)).trans hd
    have exchanges := demote_exchanges hctx here hp hm (depth _) (by rwa [setPath_tape, flowCourse_tape])
      (by rw [stack]; exact hq) hk hl (by rw [stack]; exact hw)
    rw [stack] at exchanges
    refine ⟨_, (exec_yield h hs).trans (congrArg _ exchanges), ?_, ?_, ?_, ?_, rfl⟩
    · exact getPath_setPath_self ..
    · exact (getPath_setPath_twin h ..).trans ((getPath_setPath_twin h ..).trans (getPath_flow_other h))
    · exact (setPath_depth ..).trans (depth _)
    · exact (setPath_live ..).trans ((setPath_live ..).trans (flowCourse_live ..))

/-! ### BAR -/

theorem getBlock_pathLeaves {s : State} {v : View} (h : IssuingAlone s v) (i : Instr) (k : Course) (g : Path → Path) :
    getBlock (pathLeaves s v i k g) v.u.blk = some v.b := h.block

/-- A path that has moved parks where it stands. -/
theorem parkPath_pathLeaves (s : State) (v : View) (i : Instr) (k : Course) (g : Path → Path) (p : Park) :
    parkPath (pathLeaves s v i k g) v.u p = pathLeaves s v i k (fun q => { g q with park := p }) := by
  rw [parkPath, pathLeaves]
  dsimp only
  rw [updPath_courseLeaves, getPath_setPath_self, setPath_setPath, Option.map_map]
  rfl

section

variable {s : State} {v : View} {id : BitVec 4} (h : IssuingAlone s v) (hz : NoHazard v (.bar id))

include h hz

theorem exec_bar (ha : v.act = v.k.live) : exec (.bar id) s =
    .next (setBlock (pathLeaves s v (.bar id) v.k (fun p => { nextPos p 3 with park := .barrier id.toNat })) v.u.blk
      { v.b with barriers := cset 0#32 v.b.barriers id.toNat (cget 0#32 v.b.barriers id.toNat ||| bitLane v.u.course) }) := by
  have own : ownStop s v (.bar id) = none := if_neg (not_not_intro ha)
  show execBar id s = _
  rw [execBar, runLate_effect h rfl hz own, stepPath_flowIssue h.issuing, parkPath_pathLeaves]
  dsimp only
  rw [getBlock_pathLeaves h]

theorem exec_bar_fails (ha : v.act ≠ v.k.live) : exec (.bar id) s =
    .next (faultUnit s v.u (.bar id) ⟨0x0C, 4, v.act, 0, v.p.sig.toNat, false⟩) := by
  have own : ownStop s v (.bar id) = some (.fault (proofFault v 4)) := if_pos ha
  show execBar id s = _
  exact runLate_fault h rfl hz own (show (0x0C : Nat) ≠ 0x0E by decide) (show (0x0C : Nat) ≠ 0x08 by decide) _

end

/-! ### Phase words -/

/-- A phase word of a threshold, a count and a phase (R150). -/
def phaseWord (t c b : Nat) : Word := BitVec.ofNat 32 (t + c * 2 ^ 16 + b * 2 ^ 31)

theorem phaseWord_fields {t c b : Nat} (ht : t < 65536) (hc : c < 32768) (hb : b < 2) :
    bits (phaseWord t c b).toNat 15 0 = t ∧ bits (phaseWord t c b).toNat 30 16 = c ∧
      bits (phaseWord t c b).toNat 31 31 = b := by
  rw [phaseWord, BitVec.toNat_ofNat]
  unfold bits
  omega

/-- One arrival keeps the threshold, flips the phase where it is reached, and counts up or starts again (R150). -/
theorem phaseArrive_eq (w : Word) : phaseArrive w =
    let n := bits w.toNat 30 16 + 1
    let flips := bits w.toNat 15 0 ≤ n
    phaseWord (bits w.toNat 15 0) (if flips ∨ n = 32768 then 0 else n)
      (if flips then 1 - bits w.toNat 31 31 else bits w.toNat 31 31) := by
  unfold phaseArrive phaseWord
  dsimp only
  generalize bits w.toNat 30 16 + 1 = n
  by_cases reached : bits w.toNat 15 0 ≤ n
  · simp [reached]
  · by_cases full : n = 32768
    · subst full
      simp [reached]
    · simp [reached, full]

theorem phaseArrive_fields (w : Word) :
    let n := bits w.toNat 30 16 + 1
    let flips := bits w.toNat 15 0 ≤ n
    bits (phaseArrive w).toNat 15 0 = bits w.toNat 15 0 ∧
      bits (phaseArrive w).toNat 30 16 = (if flips ∨ n = 32768 then 0 else n) ∧
      bits (phaseArrive w).toNat 31 31 = if flips then 1 - bits w.toNat 31 31 else bits w.toNat 31 31 := by
  have threshold : bits w.toNat 15 0 < 65536 := bits_lt w.toNat 15 0
  have count : bits w.toNat 30 16 < 32768 := bits_lt w.toNat 30 16
  have phase : bits w.toNat 31 31 < 2 := bits_lt w.toNat 31 31
  rw [phaseArrive_eq]
  refine phaseWord_fields threshold ?_ ?_
  · split <;> omega
  · split <;> omega

theorem getLsbD_31_iff (w : Word) : w.getLsbD 31 = true ↔ bits w.toNat 31 31 = 1 := by
  rw [BitVec.getLsbD, Nat.testBit_eq_decide_div_mod_eq, decide_eq_true_eq]
  exact Iff.rfl

/-- The phase after an arrival (R150). -/
theorem phaseArrive_phase (w : Word) : (phaseArrive w).getLsbD 31 =
    if bits w.toNat 15 0 ≤ bits w.toNat 30 16 + 1 then !w.getLsbD 31 else w.getLsbD 31 := by
  have phase : bits w.toNat 31 31 < 2 := bits_lt w.toNat 31 31
  obtain ⟨-, -, after⟩ := phaseArrive_fields w
  rw [Bool.eq_iff_iff, getLsbD_31_iff, after]
  split
  · rw [Bool.not_eq_true', ← Bool.not_eq_true, getLsbD_31_iff]
    omega
  · rw [getLsbD_31_iff]

/-- The phase that a PHARR brings is the one that follows the present one (R150). -/
theorem targetPhase_eq (w : Word) : BitVec.ofNat 32 (1 - bits w.toNat 31 31) = if w.getLsbD 31 then 0#32 else 1#32 := by
  have phase : bits w.toNat 31 31 < 2 := bits_lt w.toNat 31 31
  split
  next set =>
    rw [(getLsbD_31_iff w).1 set]
  next clear =>
    rw [show bits w.toNat 31 31 = 0 by have := mt (getLsbD_31_iff w).2 clear; omega]

/-- A flow instruction issues after its course has been changed. -/
theorem flowIssue_setCourse (t : State) {v : View} (hd : v.u.demotes = false) (i : Instr) (k : Course) :
    flowIssue (setCourse t v.u.blk v.u.course k) v.u i = flowIssued t v i k := by
  unfold flowIssue endUnit flowIssued courseLeaves flowCourse gathered
  simp only [hd, updCourse_of_get (getCourse_setCourse_self ..)]
  simp

/-- The long write of a PHARR on word `w` (R84, R150). -/
def phaseWrite (s : State) (v : View) (d : RegName) (w : Word) : LongWrite :=
  { id := s.nextId, writes := (destWrite d (v.dest d) (fun _ => BitVec.ofNat 32 (1 - bits w.toNat 31 31))).filter writesLane,
    holds := [], kill := 0, killAll := false, tag := 0, va := 0, load := false, memory := false }

theorem written_phaseWrite (s : State) (v : View) (d : RegName) (w : Word) (k : Course) :
    Written k (applyWrites k (phaseWrite s v d w).writes) (v.dest d) [(d, fun _ => if w.getLsbD 31 then 0#32 else 1#32)] := by
  have every := applyWrites_filter k _ (prd_destWrite d (v.dest d) (fun _ => BitVec.ofNat 32 (1 - bits w.toNat 31 31)))
  rw [phaseWrite, every, targetPhase_eq]
  exact written_destWrite k d (v.dest d) _

section

variable {s : State} {v : View} {d : RegName} {a : Src} {imm : Word} (h : IssuingAlone s v)
  (align : (readReg v.k a.reg 0 + imm).toNat % 4 = 0) (inside : (readReg v.k a.reg 0 + imm).toNat + 4 ≤ v.b.alloc)
  (clean : localPoisoned v.b (readReg v.k a.reg 0 + imm).toNat 4 = false)

/-- An aligned word of the allocation passes the checks of R152. -/
theorem phaseStop_none (align : (readReg v.k a.reg 0 + imm).toNat % 4 = 0)
    (inside : (readReg v.k a.reg 0 + imm).toNat + 4 ≤ v.b.alloc) : phaseStop v a imm = none := by
  rw [phaseStop, localFault, localAddr, if_neg (not_not_intro align), if_neg (Nat.not_lt.2 inside)]

include h align inside clean

theorem exec_pharr (hz : NoHazard v (.pharr d a imm)) :
    let w := localWord v.b (readReg v.k a.reg 0 + imm).toNat
    exec (.pharr d a imm) s = .next (pathLeaves (idTaken (setBlock s v.u.blk
        (setLocalWord v.b (readReg v.k a.reg 0 + imm).toNat (phaseArrive w)))) v (.pharr d a imm)
      (beginLong (phaseWrite s v d w) v.u.slot v.k) (fun p => nextPos p 3)) := by
  intro w
  have began (t : State) (ht : t.nextId = s.nextId) (hk : getCourse t v.u.blk v.u.course = some v.k) :
      writeLong t v.u (destWrite d (v.dest d) (fun _ => BitVec.ofNat 32 (1 - bits w.toNat 31 31))) =
        setCourse (idTaken t) v.u.blk v.u.course (beginLong (phaseWrite s v d w) v.u.slot v.k) := by
    rw [phaseWrite, ← ht]
    exact updCourse_of_get (s := idTaken t) hk _
  show execPharr d a imm s = _
  rw [execPharr, runLate_effect h rfl hz (phaseStop_none align inside), phaseAddr, localAddr]
  dsimp only
  rw [clean, if_neg Bool.false_ne_true, began (setBlock s v.u.blk _) rfl h.course, flowIssue_setCourse _ h.stays]
  exact congrArg _ (updPath_flowIssued ..)

theorem exec_phwait (hz : NoHazard v (.phwait d a imm)) : exec (.phwait d a imm) s = .next (
    if (localWord v.b (readReg v.k a.reg 0 + imm).toNat).getLsbD 31 = (readReg v.k d 0).getLsbD 0 then
      pathLeaves s v (.phwait d a imm) v.k (fun p => nextPos p 3)
    else pathLeaves s v (.phwait d a imm) v.k (fun p => { p with
      park := .phase (BitVec.ofNat 32 (readReg v.k a.reg 0 + imm).toNat) ((readReg v.k d 0).getLsbD 0) })) := by
  show execPhwait d a imm s = _
  rw [execPhwait, runLate_effect h rfl hz (phaseStop_none align inside), phaseAddr, localAddr]
  dsimp only
  rw [clean, if_neg Bool.false_ne_true, stepPath_flowIssue h.issuing, phaseOfWord, parkPath, flowIssue_eq h.issuing,
    updPath_flowIssued]
  simp only [beq_iff_eq]

end

/-- Settles O25: each of the three is checked by its own word alone, then has its effect. -/
theorem barriersAndPhaseWords : Obligations.BarriersAndPhaseWords := by
  unfold Obligations.BarriersAndPhaseWords
  intro s v h
  refine ⟨fun id hz => ⟨exec_bar h hz, exec_bar_fails h hz⟩, fun d a imm => ?words⟩
  intro addr w align inside clean
  refine ⟨fun hz => ?pharr, fun hz => ⟨fun same => ?goes, fun differs => ?parks⟩⟩
  case pharr =>
    obtain ⟨threshold, count, -⟩ := phaseArrive_fields w
    exact ⟨phaseWrite s v d w, _, phaseArrive w, ⟨rfl, rfl, rfl⟩, rfl, rfl, written_phaseWrite s v d w,
      exec_pharr h align inside clean hz, threshold, phaseArrive_phase w, count⟩
  case goes => rw [exec_phwait h align inside clean hz, if_pos same]
  case parks => rw [exec_phwait h align inside clean hz, if_neg differs]

end Sys2Proof.Machine

/-!
SUPPORT and PROOF. TRAP: the delivery of a fault of a quiet path to its handler (R155, R365, R366).
-/

namespace Sys2Proof.Machine

/-! ### TRAP -/

theorem setPath_getPath {k : Course} {slot : Nat} {p : Option Path} (h : getPath k slot = p) : setPath k slot p = k := by
  subst h
  unfold setPath getPath
  split <;> rfl

/-- A path with nothing asked or latched is as the fault finds it, and its course too (R82, R155). -/
theorem faultUnit_trap {s : State} {v : View} (h : IssuingAlone s v) (code : BitVec 21) (f : FaultInfo) (hf : f.cause = 0x15)
    (he : f.engine = false) (hr : v.p.remotes = []) (hl : v.p.latched = none) : faultUnit s v.u (.trap code) f =
      takeFault (courseLeaves s v v.k) v.u.blk v.u.course v.u.slot f false false v.u.after := by
  have course : faultCourse (.trap code) f v.k = v.k := by simp [faultCourse, hf, he]
  have issued : updCourse { s with issue := none } v.u.blk v.u.course (faultCourse (.trap code) f) = courseLeaves s v v.k := by
    rw [updCourse_of_get (s := { s with issue := none }) h.course, course]
    rfl
  have path : { v.p with remotes := [], latched := none } = v.p := by rw [← hr, ← hl]
  rw [faultUnit, issued, updPath_courseLeaves, h.path, Option.map_some, path, setPath_getPath h.path]

/-- The path of a trap at its handler, in its frame's region (R366). -/
def handlerPath (pc : Double) (n : Nat) (p : Path) : Path :=
  { p with pc := pc, slot := 0, sig := 0, region := some n, pending := [], park := .running, waited := [], faultId := none,
           remotes := [], latched := none, delivery := none, fetched := [] }

/-- The course once its frame is pushed, with s30 and s29 written (R366). -/
def handlerCourse (k : Course) (cause info : Word) : Course := writeS (writeS { k with depth := k.depth + 1 } 30 cause) 29 info

/-- What s30 takes of a fault (R366). -/
def causeWord (f : FaultInfo) : Word :=
  BitVec.ofNat 32 (f.cause + f.detail * 256 + b2n f.engine * 4096 + f.tag.toNat * 65536)

/-- A course that is not halted makes its delivery once the record is written (R366, R375). -/
theorem recordDelivery_goes {s : State} {b c slot : Nat} {k : Course} {p : Path} {x : Context}
    (hk : getCourse s b c = some k) (hctx : blockCtx s b = some x) (hring : ringWritable s x = true)
    (hgo : k.stopped = false ∨ k.allowance ≠ 0) (d : Delivery) : recordDelivery s b c slot p d =
      makeDelivery (courseRecord s b c slot d.f (pathPos s b p) false) b c slot d := by
  have recorded := (courseRecord_onlyMemory c slot d.f (pathPos s b p) false hctx hring).getCourse b c
  have goes : ¬ (k.stopped && decide (k.allowance = 0)) = true := by simpa [imp_iff_not_or] using hgo
  rw [recordDelivery, recorded, hk]
  exact if_neg goes

section

variable {s : State} {b c slot : Nat} {k : Course} {p : Path} (hk : getCourse s b c = some k) (hp : getPath k slot = some p)

include hk hp

/-- A fault of a quiet path with a handler set comes to its record at once (R366). -/
theorem deliver_quiet (hq : p.pending = []) (hm : p.mask ≠ 0) (hh : k.traphdl.toNat / 16 ≠ 0) (f : FaultInfo) (r : Resume)
    (after : Nat) : deliver s b c slot f r after =
      recordDelivery s b c slot p ⟨f, (resumeAt p after r).1, (resumeAt p after r).2, false⟩ := by
  have there : pathThere s b c slot p = true := by simpa [pathThere, hk, hp] using hm
  have sliced : (sliceHolds k p).isEmpty = true := by simp [sliceHolds, hq]
  rw [deliver, hk, Option.bind_some, hp, Option.map_some]
  dsimp only
  rw [if_neg hh, completePath_none hk hp hq, there, Bool.not_true, if_neg Bool.false_ne_true, if_pos sliced]

/-- A delivery whose frame can be pushed reaches its handler (R366). -/
theorem makeDelivery_pushes {x : Context} (hctx : blockCtx s b = some x) (hc : pushCheck s b k 1 = none) (d : Delivery) :
    makeDelivery s b c slot d = setCourse (writeEntry (setCourse s b c { k with depth := k.depth + 1 }) x k.stackSlot k.depth
        ⟨0, p.mask, p.region, 2, d.pc.toNat, p.sig, d.slot, true⟩) b c
      (setPath (handlerCourse k (causeWord d.f) (BitVec.ofNat 32 d.f.info)) slot
        (some (handlerPath (BitVec.ofNat 64 (blockCode s b + k.traphdl.toNat / 16 * 16)) k.depth p))) := by
  have course (e : Entry) : getCourse (writeEntry (setCourse s b c { k with depth := k.depth + 1 }) x k.stackSlot k.depth e) b c =
      some { k with depth := k.depth + 1 } := by
    rw [(writeEntry_onlyMemory ..).getCourse, getCourse_setCourse_self]
  have code (e : Entry) (j : Course) : blockCode (setCourse (writeEntry (setCourse s b c { k with depth := k.depth + 1 }) x
      k.stackSlot k.depth e) b c j) b = blockCode s b := (writeEntry_onlyMemory ..).blockCode b
  have path : getPath (handlerCourse k (causeWord d.f) (BitVec.ofNat 32 d.f.info)) slot = some p := hp
  rw [makeDelivery, hk]
  dsimp only
  rw [hp]
  dsimp only
  rw [hc, push, hk, hctx]
  dsimp only
  rw [updCourse_of_get (course _), updPath_of_get (getCourse_setCourse_self ..), setCourse_setCourse, code,
    ← causeWord, ← handlerCourse, path]
  rfl

end

theorem handlerCourse_depth (k : Course) (cause info : Word) : (handlerCourse k cause info).depth = k.depth + 1 := rfl
theorem handlerCourse_live (k : Course) (cause info : Word) : (handlerCourse k cause info).live = k.live := rfl

theorem getPath_handlerCourse (k : Course) (cause info : Word) (j : Nat) :
    getPath (handlerCourse k cause info) j = getPath k j := rfl

theorem readPred_handlerCourse (k : Course) (cause info : Word) (p : PredName) :
    readPred (handlerCourse k cause info) p = readPred k p := by
  rw [handlerCourse, readPred_writeS, readPred_writeS]
  rfl

/-- A path's move changes no predicate. -/
theorem pred_setPath (k : Course) (slot : Nat) (q : Option Path) (p : PredName) :
    readPred (setPath k slot q) p = readPred k p := by
  unfold setPath
  split <;> rfl

theorem readReg_handlerCourse (k : Course) (cause info : Word) (r : RegName) (l : Nat) :
    readReg (handlerCourse k cause info) r l = if r = .s 30 then cause else if r = .s 29 then info else readReg k r l := by
  have reads (j : Course) := readReg_writeS j (29 : Fin 31) info r l
  have below (j : Course) := readReg_writeS j (30 : Fin 31) cause r l
  rw [handlerCourse, show (writeS (writeS _ 30 cause) 29 info) = writeS (writeS _ (30 : Fin 31).val cause) (29 : Fin 31).val info
    from rfl, reads, below]
  by_cases high : r = .s 30
  · subst high
    rfl
  · rw [if_neg high, if_neg high]
    rfl

/-- Settles O27: the record is written, then the frame is pushed over it. -/
theorem trapDeliversUserToItsHandler : Obligations.TrapDeliversUserToItsHandler := by
  unfold Obligations.TrapDeliversUserToItsHandler
  intro s v x code h hz hx hctx hring hq hr hl hrun hh s1 hc frame
  have own : ownStop s v (.trap code) = some (.fault ⟨0x15, 0, v.exe, 0, code.toNat, false⟩) := if_neg hx
  have fault : exec (.trap code) s = .next (takeFault (courseLeaves s v v.k) v.u.blk v.u.course v.u.slot
      ⟨0x15, 0, v.exe, 0, code.toNat, false⟩ false false v.u.after) := by
    rw [← faultUnit_trap h code _ rfl rfl hr hl]
    show execTrap code s = _
    exact runLate_fault h rfl hz own (show (0x15 : Nat) ≠ 0x0E by decide) (show (0x15 : Nat) ≠ 0x08 by decide) _
  have recorded : OnlyMemory (courseLeaves s v v.k) s1 := courseRecord_onlyMemory _ _ _ _ _ hctx hring
  have course : getCourse s1 v.u.blk v.u.course = some v.k := (recorded.getCourse ..).trans (getCourse_courseLeaves ..)
  have delivers : takeFault (courseLeaves s v v.k) v.u.blk v.u.course v.u.slot ⟨0x15, 0, v.exe, 0, code.toNat, false⟩ false
      false v.u.after = makeDelivery s1 v.u.blk v.u.course v.u.slot
        ⟨⟨0x15, 0, v.exe, 0, code.toNat, false⟩, v.p.pc + 16, 0, false⟩ :=
    (deliver_quiet (getCourse_courseLeaves ..) h.path hq (mask_ne_zero_of_act (act_ne_zero_of_exe hx)) hh ..).trans
      (recordDelivery_goes (getCourse_courseLeaves ..) hctx hring hrun _)
  have pushes := makeDelivery_pushes course h.path ((recorded.blockCtx ..).trans hctx) hc
    ⟨⟨0x15, 0, v.exe, 0, code.toNat, false⟩, v.p.pc + 16, 0, false⟩
  have code0 : blockCode s1 v.u.blk = blockCode s v.u.blk := recorded.blockCode _
  refine ⟨_, fault.trans (congrArg _ (delivers.trans pushes)),
    (setPath_depth ..).trans (handlerCourse_depth ..), (setPath_live ..).trans (handlerCourse_live ..),
    (getPath_setPath_twin h ..).trans (getPath_handlerCourse ..),
    ⟨_, getPath_setPath_self .., rfl, rfl, rfl, rfl, rfl, ?target, rfl⟩, fun p => ?pred, fun r l => ?reg⟩
  case target =>
    have pc (x : Double) (n : Nat) (p : Path) : (handlerPath x n p).pc = x := rfl
    rw [pc, code0]
  case pred => exact (pred_setPath ..).trans (readPred_handlerCourse ..)
  case reg =>
    have cause : causeWord ⟨0x15, 0, v.exe, 0, code.toNat, false⟩ = 0x15#32 := by simp [causeWord, b2n]
    have info : BitVec.ofNat 32 code.toNat = code.zeroExtend 32 := BitVec.ofNat_toNat 32 code
    rw [reg_setPath, readReg_handlerCourse, cause, info]

end Sys2Proof.Machine

/-!
SUPPORT and PROOF. Loads that hit the L1, loads of the local store, and polls: the values they bring, and the demotion of a quiet
path (R160, R165, R170, R172, R173, R174, R243).
-/

namespace Sys2Proof.Machine

/-! ### Loads whose lanes all hit the L1 -/

section

variable {s : State} {v : View} {i : Instr} {x : RecordAccess} {y : Nat → L1Line} (hits : ∀ l ∈ x.lanes, HitsL1 s v x l (y l))

include hits

theorem strongReach_hits (hw : x.write = false) : strongReach (accessReach s v x) = false := by
  rw [hits_reach hits hw, hits_strong]

/-- Every lane receives the bytes of its line, and the machine stays. -/
theorem loadLanes_hits (hr : recordAccess v i = some x) (hw : x.write = false) :
    loadLanes (touchAccess s v i) v x (accessReach s v x) =
      (x.lanes.map (fun l => (l, laneVa v x l, some (lineBytes (y l) (laneVa v x l) x.size))), s) := by
  rw [hits_touch hr hits hw, hits_reach hits hw, hits_loadLanes hits]

end

/-- Settles O28: lanes that hit leave the machine, and their bytes come with the load's long write. -/
theorem loadsFromL1BringTheirElements : Obligations.LoadsFromL1BringTheirElements := by
  unfold Obligations.LoadsFromL1BringTheirElements
  intro s v k i x d n f y h hu hi hr hd hh hits bs
  obtain ⟨-, reads⟩ := rec_lanes hr (hi.imp_right .inl)
  exact exec_load_longLeaves (va := laneVa v x) h hu hi hr hd hh (strongReach_hits hits reads) (.refl s)
    (loadLanes_hits hits hr reads)

/-! ### Words of the local store (R173, R174) -/

theorem regPlus_zero (r : RegName) : regPlus r 0 = r := by
  cases r with
  | v n => exact dif_pos n.isLt
  | s n => exact dif_pos n.isLt
  | sz => rfl

/-- The long write of a load whose lanes `L` each receive one word. -/
theorem loadWrite_words (id : Nat) (L : List Nat) (d : RegName) (va : Nat → Nat) (w : Nat → Word) (tag : Half) (o : Bool) :
    let y := loadWrite id d (L.map (fun l => (l, va l, some [w l]))) 1 tag o
    PureLong y ∧ y.id = id ∧ ∀ k0, Written k0 (applyWrites k0 y.writes) (maskOf L.contains) [(d, w)] := by
  obtain ⟨pure, hid, written⟩ := loadWrite_lanes id L d va (fun l => [w l]) 1 tag o
  refine ⟨pure, hid, fun k0 => ?_⟩
  have one := written k0
  rwa [List.range_one, List.map_singleton, regPlus_zero] at one

/-- No check stops an access to the local store whose words are aligned and inside the allocation. -/
theorem unstopped_local {s : State} {v : View} {i : Instr} {L : List Nat} {addr : Nat → Nat} {u : Bool} (hz : NoHazard v i)
    (hi : (∃ d a imm, i = .ldl d a imm) ∨ (∃ d a imm, i = .ldlp d a imm) ∨ (∃ d a imm, i = .stl d a imm) ∨
      ∃ op d a, i = .atl op d a)
    (ha : localAccess v i = some (L.map (fun l => (l, addr l)), u)) (ok : ∀ l ∈ L, addr l % 4 = 0 ∧ addr l + 4 ≤ v.b.alloc)
    (hs : sliceStop v (settlesPath v i) = none) : Unstopped s v i :=
  local_stop hz hi ha (List.forall_mem_map.mpr fun l hl => localFault_ok (ok l hl).1 (ok l hl).2) hs

/-- What LDL and LDLP do with words that pass their checks. -/
theorem loadLocal_clean {s : State} {v : View} {i : Instr} {L : List Nat} {addr : Nat → Nat} {u : Bool} (d : RegName)
    (demotes : Bool) (ha : localAccess v i = some (L.map (fun l => (l, addr l)), u))
    (ok : ∀ l ∈ L, LocalWordOk v.b (addr l)) :
    loadLocal i d demotes s v = retire (addLong (idTaken s) v.u
      (loadWrite s.nextId d (L.map (fun l => (l, addr l, some [localWord v.b (addr l)]))) 1 0 false))
      { v.u with demotes := v.u.demotes || demotes } i 0 := by
  have got : (L.map (fun l => (l, addr l))).map (localGot v) = L.map (fun l => (l, addr l, some [localWord v.b (addr l)])) := by
    rw [List.map_map]
    refine List.map_congr_left fun l hl => ?_
    obtain ⟨-, -, clean⟩ := ok l hl
    simp [localGot, clean]
  unfold loadLocal
  rw [ha]
  dsimp only
  rw [got]
  rfl

/-- Settles O30: each word passes its checks, and comes with the load's long write. -/
theorem localLoadsBringTheirWords : Obligations.LocalLoadsBringTheirWords := by
  unfold Obligations.LocalLoadsBringTheirWords
  intro s v k d a imm h hz ok
  have unstopped : Unstopped s v (.ldl d a imm) :=
    unstopped_local hz (.inl ⟨d, a, imm, rfl⟩) rfl (fun l hl => ⟨(ok l hl).1, (ok l hl).2.1⟩) rfl
  have runs : exec (.ldl d a imm) s = .next (loadLocal (.ldl d a imm) d false s v) := runInstr_effect _ h.view unstopped
  rw [loadLocal_clean d false rfl ok, Bool.or_false] at runs
  obtain ⟨pure, hid, written⟩ := loadWrite_words s.nextId (v.lanes (isScalar d)) d (fun l => (readReg v.k a.reg l + imm).toNat)
    (fun l => localWord v.b (readReg v.k a.reg l + imm).toNat) 0 false
  exact long_leaves _ h.course h.stays pure hid written runs

/-! ### A quiet path that is demoted (R243) -/

/-- A path issues alone, with an empty stack and nothing pending or waited for in its course. -/
structure QuietPath (s : State) (v : View) : Prop where
  alone : IssuingAlone s v
  depth : v.k.depth = 0
  longs : v.k.longs = []
  pending : allPending v.k = []
  park : ∀ ids acks, v.p.park ≠ .longs ids acks
  other : ∀ q ids acks, getPath v.k (1 - v.u.slot) = some q → q.park ≠ .longs ids acks
  context : (blockCtx s v.u.blk).isSome = true

section

variable {s t : State} {v : View} (h : QuietPath s v)

include h

/-- No engine has still to read a register of it. -/
theorem QuietPath.sliceHolds_eq : sliceHolds v.k v.p = [] := by
  have none_pending : v.p.pending = [] := by
    have mine := h.alone.path
    have both := h.pending
    rw [allPending, List.append_eq_nil_iff] at both
    obtain ⟨slot0, slot1⟩ := both
    unfold getPath at mine
    split at mine
    · rwa [mine] at slot0
    · rwa [mine] at slot1
  rw [sliceHolds, none_pending, List.filter_nil]

theorem QuietPath.sliceStop_eq (needed : Bool) : sliceStop v needed = none := by
  simp [sliceStop, h.sliceHolds_eq]

/-- The path's own long write completes as it is demoted, whatever its effect has done to memory before. -/
theorem QuietPath.demotes (hc : getCourse t v.u.blk v.u.course = some v.k) (hx : (blockCtx t v.u.blk).isSome = true) {i : Instr}
    {fl : FpFlags} {w : LongWrite} {m : Lanes} {ds : List (RegName × (Nat → Word))} (pure : PureLong w) (hid : w.id = t.nextId)
    (written : ∀ k0, Written k0 (applyWrites k0 w.writes) m ds) :
    DemotedLeaves t v (.next (retire (addLong (idTaken t) v.u w) { v.u with demotes := v.u.demotes || true } i fl)) i m ds := by
  have last : v.u.last = true := ((Bool.and_eq_true ..).mp h.alone.alone).2
  exact demoted w i fl m ds hc h.alone.path h.alone.slot last h.depth h.longs h.pending h.park
    (fun q hq ids acks => h.other q ids acks hq) hx pure hid written

/-- LDRP whose lanes have received the bytes `bs`, with the machine left as `t`. -/
theorem QuietPath.exec_ldrp {d : RegName} {a : Src} {rs : RecName} {j : RegName} {x : RecordAccess} {d' : RegName} {n : Nat}
    {f : List Byte → List Word × Bool} {va : Nat → Nat} {bs : Nat → List Byte} (hu : Unstopped s v (.ldrp d a rs j))
    (hr : recordAccess v (.ldrp d a rs j) = some x) (hd : loadDest v (.ldrp d a rs j) = some (d', n, f)) (hh : heldFor v = none)
    (hs : strongReach (accessReach s v x) = false) (ht : OnlyMemory s t)
    (hl : loadLanes (touchAccess s v (.ldrp d a rs j)) v x (accessReach s v x) =
      (x.lanes.map (fun l => (l, va l, some (bs l))), t)) :
    DemotedLeaves t v (exec (.ldrp d a rs j) s) (.ldrp d a rs j) (ranLanes v x.uniform) (loadWords d' n f bs) := by
  have poll : (∃ d' a' rs' j', Instr.ldrp d a rs j = .ldr d' a' rs' j') ∨
      (∃ d' a' rs' j', Instr.ldrp d a rs j = .recld d' a' rs' j') ∨
      ∃ d' a' rs' j', Instr.ldrp d a rs j = .ldrp d' a' rs' j' := .inr (.inr ⟨d, a, rs, j, rfl⟩)
  rw [load_end h.alone.view hu poll hr hd hh hs hl, loadEnd, (rec_lanes hr poll).1]
  obtain ⟨pure, hid, written⟩ := loadWrite_good t.nextId v x.uniform d' va (fun l => (f (bs l)).1) n x.r.tag
    (servedOutside s v x (accessReach s v x))
  exact h.demotes ((ht.getCourse ..).trans h.alone.course) ((congrArg _ (ht.blockCtx _)).trans h.context) pure hid written

end

/-! ### Accesses at a home (R170, R176) -/

/-- The machine once an access of core `m` has passed its L1 and stands at the home. -/
def homeReached (s : State) (m : Nat) (asid : BitVec 16) (h : Home) (n keep : Nat) : State :=
  l2Access (drainStores s m (storesTo (homeLine h))) asid h (homeSectors h n) 0 keep

section

variable {s : State} {m : Nat} (hstores : (getCore s m).stores = []) (asid : BitVec 16) (h : Home) (n keep : Nat)

include hstores

/-- With no store pending only the slices see the access. -/
theorem homeReached_slicesOnly : SlicesOnly (setCore s m { getCore s m with stores := [] }) (homeReached s m asid h n keep) := by
  rw [homeReached, nodrain hstores]
  exact l2Access_slicesOnly ..

theorem homeReached_onlyMemory : OnlyMemory s (homeReached s m asid h n keep) :=
  (setCore_onlyMemory ..).trans (homeReached_slicesOnly hstores ..).onlyMemory

theorem homeReached_sameMemory : SameMemory s (homeReached s m asid h n keep) :=
  (setCore_sameMemory ..).trans (homeReached_slicesOnly hstores ..).sameMemory

theorem homeReached_allGood : allGood (homeReached s m asid h n keep) = allGood s := (homeReached_slicesOnly hstores ..).allGood

theorem homeReached_l1 : (getCore (homeReached s m asid h n keep) m).l1 = (getCore s m).l1 := by
  rw [(homeReached_slicesOnly hstores ..).getCore, setCore_l1]

theorem homeReached_bytes : homeBytes (homeReached s m asid h n keep) h n = homeBytes s h n := by
  rw [(homeReached_slicesOnly hstores ..).homeBytes, homeBytes_setCore]

theorem homeReached_poisoned : homePoisoned (homeReached s m asid h n keep) h n = homePoisoned s h n := by
  rw [(homeReached_slicesOnly hstores ..).homePoisoned, homePoisoned_setCore]

/-- Where no member is lost, reading the home does nothing more. -/
theorem homeTouch_homeReached (hgood : allGood s = true) :
    homeTouch (homeReached s m asid h n keep) h = homeReached s m asid h n keep :=
  touch_good ((homeReached_allGood hstores ..).trans hgood) h

/-- A poll of a clean place reads its home (R170). -/
theorem loadMem_polls (va : Nat) (p : Leaf) (cache : Nat) (hgood : allGood s = true) (hpoison : homePoisoned s h n = false) :
    loadMem s m asid va h p n true cache = (homeBytes s h n, false, homeReached s m asid h n (keepOf p.cache cache)) := by
  have reads : loadMem s m asid va h p n true cache = readHome (homeReached s m asid h n (keepOf p.cache cache)) h n := rfl
  rw [reads, readHome, homeTouch_homeReached hstores asid h n _ hgood, homeReached_bytes hstores, homeReached_poisoned hstores,
    hpoison]

end

/-! ### Polls -/

theorem recordAccess_ldrp_poll {v : View} {d : RegName} {a : Src} {rs : RecName} {j : RegName} {x : RecordAccess}
    (hr : recordAccess v (.ldrp d a rs j) = some x) (hscope : 3 ≤ x.r.scope) : x.viaL1 = false := by
  obtain rfl := Option.some.inj hr
  exact decide_eq_false (Nat.not_lt.mpr hscope)

/-- Settles O31: the poll's values are those of LDR and LDL, and the quiet path is demoted. -/
theorem pollsLoadAndDemoteTheirPath : Obligations.PollsLoadAndDemoteTheirPath := by
  unfold Obligations.PollsLoadAndDemoteTheirPath
  intro s v alone depth longs pending park other context
  have quiet : QuietPath s v := ⟨alone, depth, longs, pending, park, other, context⟩
  refine ⟨fun d a imm hz ok => ?ldlp, fun d a rs j x d' n f hu hr hd hh => ⟨fun y hits => ?hits,
    fun l va h p hscope hlanes hreach horder hgood hstores hpoison => ?home⟩⟩
  case ldlp =>
    have unstopped : Unstopped s v (.ldlp d a imm) :=
      unstopped_local hz (.inr (.inl ⟨d, a, imm, rfl⟩)) rfl (fun l hl => ⟨(ok l hl).1, (ok l hl).2.1⟩) (quiet.sliceStop_eq _)
    have runs : exec (.ldlp d a imm) s = .next (loadLocal (.ldlp d a imm) d true s v) := runInstr_effect _ alone.view unstopped
    rw [runs, loadLocal_clean d true rfl ok]
    obtain ⟨pure, hid, written⟩ := loadWrite_words s.nextId (v.lanes (isScalar d)) d (fun l => (readReg v.k a.reg l + imm).toNat)
      (fun l => localWord v.b (readReg v.k a.reg l + imm).toNat) 0 false
    exact quiet.demotes alone.course context pure hid written
  case hits =>
    obtain ⟨-, reads⟩ := rec_lanes hr (.inr (.inr ⟨d, a, rs, j, rfl⟩))
    exact quiet.exec_ldrp (va := laneVa v x) hu hr hd hh (strongReach_hits hits reads) (.refl s) (loadLanes_hits hits hr reads)
  case home =>
    have polls := loadMem_polls hstores v.b.asid h x.size va p x.r.cache hgood hpoison
    refine ⟨_, homeReached_onlyMemory hstores v.b.asid h x.size (keepOf p.cache x.r.cache), homeReached_sameMemory hstores ..,
      homeReached_l1 hstores .., quiet.exec_ldrp (va := fun _ => va) hu hr hd hh ?_ (homeReached_onlyMemory hstores ..) ?_⟩
    · rw [hreach, strongReach_mem l va h horder]
    · rw [touchAccess_good hgood, hreach, hlanes]
      exact loadLanes_one horder (by rwa [recordAccess_ldrp_poll hr hscope])

end Sys2Proof.Machine

/-!
SUPPORT and PROOF. PREF, CINV and FENCE: which checks stop them, the lines an acquire leaves, and what a fence performs (R171,
R178, R179, R181).
-/

namespace Sys2Proof.Machine

/-! ### What stops them -/

section

variable {s : State} {v : View}

/-- Once its own per-lane checks pass, an instruction that completes none of its path's long writes is not stopped. -/
theorem unstopped_of_checks {i : Instr} (operands : uniformStop s v i = none) (own : ownStop s v i = none)
    (settles : settlesPath v i = false) : Unstopped s v i := by
  intro _
  rw [stopOf, operands]
  exact (laneStop_own s settles).trans own

theorem unstopped_pref {lvl : BitVec 1} {a : Src} {rs : RecName} {j : RegName} (alone : lone v.u = true)
    (hz : NoHazard v (.pref lvl a rs j)) (good : recordBad (readRecord v.k rs.val) fmtKnown = false) :
    Unstopped s v (.pref lvl a rs j) := by
  refine unstopped_of_checks ?_ rfl rfl
  unfold uniformStop recordStop
  simp [hz alone, good]

theorem unstopped_cinv {scope : Scope} (alone : lone v.u = true) (hz : NoHazard v (.cinv scope)) : Unstopped s v (.cinv scope) := by
  refine unstopped_of_checks ?_ rfl rfl
  unfold uniformStop
  simp [hz alone]

theorem uniformStop_fence {kind : FenceKind} {scope : Scope} {eng : Bool} (alone : lone v.u = true)
    (hz : NoHazard v (.fence kind scope eng)) : uniformStop s v (.fence kind scope eng) = none := by
  unfold uniformStop
  simp [hz alone]

/-- No command is waited for by a fence without ENG: it waits for remote stores alone (R179, R180). -/
theorem commandHold_acks (acks : Bool) : commandHold s v acks (fun _ => false) =
    if v.p.waited.contains v.u.pos = false ∧ acks = true ∧ fabricStores s v.b.core = true then some (.hold (.commands [] []))
    else none := by
  have no_command : openCommands s v.u.blk v.u.course (fun _ => false) = [] := by simp [openCommands]
  unfold commandHold
  rw [no_command]
  cases v.p.waited.contains v.u.pos <;> cases acks <;> cases fabricStores s v.b.core <;> rfl

end

/-! ### The lines that an acquire leaves (R181, R289, R294) -/

theorem staysAt_eq (s : State) (m : Nat) (scope : Scope) (seq : Bool) (y : L1Line) :
    staysAt s m scope seq y = !acquireDrops s m scope seq y := by
  unfold staysAt acquireDrops
  cases scope <;> cases y.home <;> cases seq <;> cases y.loose <;> simp [bne]

/-- A line stays or not by the home die of its address alone. -/
theorem staysAt_setCore (s : State) (n : Nat) (c : Core) (m : Nat) (scope : Scope) (seq : Bool) (y : L1Line) :
    staysAt (setCore s n c) m scope seq y = staysAt s m scope seq y := rfl

theorem acquire_onlyMemory (s : State) (m : Nat) (scope : Scope) (seq : Bool) : OnlyMemory s (acquire s m scope seq) := by
  obtain ⟨_, h⟩ := acquire_eq s m scope seq
  rw [h]
  exact .set

theorem acquire_sameMemory (s : State) (m : Nat) (scope : Scope) (seq : Bool) : SameMemory s (acquire s m scope seq) := by
  obtain ⟨_, h⟩ := acquire_eq s m scope seq
  rw [h]
  exact .of_eq rfl rfl rfl

theorem staysAt_acquire (s : State) (m : Nat) (scope : Scope) (seq : Bool) (n : Nat) (scope' : Scope) (seq' : Bool) (y : L1Line) :
    staysAt (acquire s m scope seq) n scope' seq' y = staysAt s n scope' seq' y := by
  obtain ⟨_, h⟩ := acquire_eq s m scope seq
  rw [h]
  rfl

/-- An acquire drops lines of its core and no store. -/
theorem getCore_acquire (s : State) (m : Nat) (scope : Scope) (seq : Bool) :
    getCore (acquire s m scope seq) m = { getCore s m with l1 := (getCore s m).l1.filter (staysAt s m scope seq) } := by
  have kept : (getCore s m).l1.filter (staysAt s m scope seq) = (getCore s m).l1.filter (fun y => !acquireDrops s m scope seq y) :=
    List.filter_congr fun y _ => staysAt_eq s m scope seq y
  unfold acquire
  dsimp only
  rw [kept]
  split
  next none_held =>
    rw [List.isEmpty_iff.mp none_held]
    exact congrArg (fun l => { getCore s m with l1 := l }) (List.isEmpty_iff.mp none_held)
  next => exact getCore_setCore_self ..

/-! ### What a fence performs and drops (R179) -/

theorem fenceDrains_iff {kind : FenceKind} {scope : Scope} : fenceDrains kind scope = true ↔
    kind = .seq ∨ (kind ≠ .acq ∧ (scope = .die ∨ scope = .device ∨ scope = .system)) := by
  cases kind <;> cases scope <;> decide

theorem kindAcquires_iff {kind : FenceKind} : kindAcquires kind = true ↔ kind ≠ .rel := by
  cases kind <;> decide

/-- The machine once a fence has performed its stores, before it drops lines. -/
def fencePerformed (s : State) (m : Nat) (kind : FenceKind) (scope : Scope) : State :=
  if fenceDrains kind scope then drainCore s m else s

/-- The machine once a fence has performed its stores and dropped its lines. -/
def fenceDone (s : State) (m : Nat) (kind : FenceKind) (scope : Scope) : State :=
  if kindAcquires kind then acquire (fencePerformed s m kind scope) m scope (kind == .seq) else fencePerformed s m kind scope

section

variable (s : State) (m : Nat) (kind : FenceKind) (scope : Scope)

theorem fenceDone_onlyMemory : OnlyMemory s (fenceDone s m kind scope) := by
  have performed : OnlyMemory s (fencePerformed s m kind scope) := .ite (drainCore_onlyMemory ..) (.refl s)
  exact .ite (performed.trans (acquire_onlyMemory ..)) performed

theorem stores_fenceDone : (getCore (fenceDone s m kind scope) m).stores = (getCore (fencePerformed s m kind scope) m).stores := by
  unfold fenceDone
  split
  · rw [getCore_acquire]
  · rfl

/-- Where it acquires, the lines that stay are those of its scope (R294). -/
theorem l1_fenceDone (acquires : kind ≠ .rel) : (getCore (fenceDone s m kind scope) m).l1 =
    (getCore (fencePerformed s m kind scope) m).l1.filter (staysAt (fencePerformed s m kind scope) m scope (kind == .seq)) := by
  rw [fenceDone, if_pos (kindAcquires_iff.mpr acquires), getCore_acquire]

theorem fenceDone_rel : fenceDone s m .rel scope = fencePerformed s m .rel scope := rfl

theorem staysAt_fenceDone (seq : Bool) (y : L1Line) :
    staysAt (fenceDone s m kind scope) m scope seq y = staysAt (fencePerformed s m kind scope) m scope seq y := by
  unfold fenceDone
  split
  · exact staysAt_acquire ..
  · rfl

end

/-! ### PREF and CINV -/

section

variable {s : State} {v : View} (h : IssuingAlone s v)

include h

/-- An instruction that only changes memory before it retires. -/
theorem retire_passes {t : State} (ht : OnlyMemory s t) (i : Instr) : retire t v.u i 0 = unitPasses t v i v.k :=
  retire_eq i 0 ((ht.getCourse ..).trans h.course) h.stays

/-- A fence that acquires parks its path on the loads that are pending (R179). -/
theorem parkLoads_retires {t : State} (ht : OnlyMemory s t) (i : Instr) : retire (parkLoads t v.u) v.u i 0 =
    unitPasses t v i (if pendingLoads v.k v.p ≠ [] then
      setPath v.k v.u.slot (some { v.p with park := .longs (pendingLoads v.k v.p) [] }) else v.k) := by
  have course := (ht.getCourse ..).trans h.course
  have last : v.u.last = true := ((Bool.and_eq_true ..).mp h.alone).2
  unfold parkLoads parkAfter
  simp only [course, h.path, List.isEmpty_nil, Bool.and_true]
  by_cases waits : pendingLoads v.k v.p = []
  · simp only [waits, List.isEmpty_nil, if_true, ne_eq, not_true, if_false]
    exact retire_passes h ht i
  · have parked : parkPath t v.u (.longs (pendingLoads v.k v.p) []) = setCourse t v.u.blk v.u.course
        (setPath v.k v.u.slot (some { v.p with park := .longs (pendingLoads v.k v.p) [] })) := by
      rw [parkPath, updPath_of_get course, h.path, Option.map_some]
    rw [if_neg (by simpa using waits), if_pos waits, parked, retire_setCourse _ _ _ h.stays, unitLeaves, unitPasses, if_pos last,
      if_pos last]

theorem exec_pref {lvl : BitVec 1} {a : Src} {rs : RecName} {j : RegName} (hz : NoHazard v (.pref lvl a rs j))
    (good : recordBad (readRecord v.k rs.val) fmtKnown = false) :
    exec (.pref lvl a rs j) s = .next (unitPasses s v (.pref lvl a rs j) v.k) := by
  rw [← retire_passes h (.refl s)]
  exact runInstr_effect _ h.view (unstopped_pref h.alone hz good)

theorem exec_cinv {scope : Scope} (hz : NoHazard v (.cinv scope)) : exec (.cinv scope) s =
    .next (unitPasses (if v.never then s else acquire s v.b.core scope false) v (.cinv scope) v.k) := by
  rw [← retire_passes h (.ite (.refl s) (acquire_onlyMemory ..))]
  exact runInstr_effect _ h.view (unstopped_cinv h.alone hz)

/-! ### FENCE (R178, R179) -/

variable {kind : FenceKind} {scope : Scope} (hz : NoHazard v (.fence kind scope false))

include hz

theorem exec_fence_never (hn : v.never = true) :
    exec (.fence kind scope false) s = .next (unitPasses s v (.fence kind scope false) v.k) := by
  have unstopped : Unstopped s v (.fence kind scope false) :=
    unstopped_of_checks (uniformStop_fence h.alone hz) (if_pos hn) rfl
  rw [← retire_passes h (.refl s)]
  show execFence kind scope false s = _
  rw [execFence, runInstr_effect _ h.view unstopped, if_pos hn]

variable (hn : v.never = false)

include hn

theorem exec_fence_waits (acks : awaitsAcks kind scope = true) (remote : fabricStores s v.b.core = true) (fresh : v.p.waited = []) :
    exec (.fence kind scope false) s = .next (holdUnit s v (.fence kind scope false) (.commands [] [])) := by
  have unwaited : v.p.waited.contains v.u.pos = false := by rw [fresh]; rfl
  have own : ownStop s v (.fence kind scope false) = some (.hold (.commands [] [])) := by
    unfold ownStop
    simp only [hn, commandHold_acks, unwaited, acks, remote, Bool.false_eq_true, and_self, if_true, if_false]
  have stop : stopOf s v (.fence kind scope false) = some (.hold (.commands [] [])) := by
    rw [stopOf, uniformStop_fence h.alone hz]
    exact (laneStop_own s rfl).trans own
  show execFence kind scope false s = _
  rw [execFence, runInstr_cases _ _ h.view, if_pos h.alone, stop]

/-- A fence that waits for nothing performs and drops, and parks on its path's loads where it acquires (R179). -/
theorem exec_fence (done : awaitsAcks kind scope = true → fabricStores s v.b.core = false) : exec (.fence kind scope false) s =
    .next (unitPasses (fenceDone s v.b.core kind scope) v (.fence kind scope false)
      (if kind ≠ .rel ∧ pendingLoads v.k v.p ≠ [] then
        setPath v.k v.u.slot (some { v.p with park := .longs (pendingLoads v.k v.p) [] }) else v.k)) := by
  have nothing : ¬ (v.p.waited.contains v.u.pos = false ∧ awaitsAcks kind scope = true ∧ fabricStores s v.b.core = true) := by
    rintro ⟨-, acks, remote⟩
    rw [done acks] at remote
    exact Bool.false_ne_true remote
  have own : ownStop s v (.fence kind scope false) = none := by
    unfold ownStop
    simp only [hn, commandHold_acks, if_neg nothing, Bool.false_eq_true, if_false]
  have unstopped : Unstopped s v (.fence kind scope false) := unstopped_of_checks (uniformStop_fence h.alone hz) own rfl
  have only := fenceDone_onlyMemory s v.b.core kind scope
  have effect : exec (.fence kind scope false) s = .next (retire (if kindAcquires kind then
      parkLoads (fenceDone s v.b.core kind scope) v.u else fenceDone s v.b.core kind scope) v.u (.fence kind scope false) 0) := by
    show execFence kind scope false s = _
    rw [execFence, runInstr_effect _ h.view unstopped, if_neg (by rw [hn]; exact Bool.false_ne_true)]
    rfl
  rw [effect]
  by_cases acquires : kind = .rel
  · subst acquires
    exact congrArg _ (retire_passes h only _)
  · rw [if_pos (kindAcquires_iff.mpr acquires), parkLoads_retires h only]
    simp only [ne_eq, acquires, not_false_eq_true, true_and]

end

/-- Settles O34: an equation for what each of them leaves, and for the lines and stores of its core after it. -/
theorem fencesOrderAndInvalidate : Obligations.FencesOrderAndInvalidate := by
  unfold Obligations.FencesOrderAndInvalidate
  intro s v h
  refine ⟨fun lvl a rs j => exec_pref h, fun scope hz => ⟨fun hn => ?cinvNever, fun hn => ?cinv⟩,
    fun kind scope hz => ⟨exec_fence_never h hz, exec_fence_waits h hz, fun hn done => ?fence⟩⟩
  case cinvNever =>
    rw [exec_cinv h hz, if_pos hn]
  case cinv =>
    refine ⟨acquire s v.b.core scope false, ?_, acquire_onlyMemory .., acquire_sameMemory .., ?_, ?_⟩
    · rw [exec_cinv h hz, hn]
      rfl
    · rw [getCore_acquire]
    · rw [getCore_acquire]
  case fence =>
    refine ⟨fenceDone s v.b.core kind scope, fenceDone_onlyMemory .., ?_⟩
    intro performs
    refine ⟨fun yes => ?drained, fun no => ?idle, fun acquires y hy => ?stays, exec_fence h hz hn done⟩
    case drained =>
      rw [stores_fenceDone, fencePerformed, if_pos (fenceDrains_iff.mpr yes), stores_drainCore]
    case idle =>
      have untouched : fencePerformed s v.b.core kind scope = s := if_neg (fun drains => no (fenceDrains_iff.mp drains))
      refine ⟨?_, ?_, fun rel => ?_, fun acquires => ?_⟩
      · unfold fenceDone
        rw [untouched]
        split
        · exact acquire_sameMemory ..
        · exact .refl s
      · rw [stores_fenceDone, untouched]
      · subst rel
        rw [fenceDone_rel, untouched]
      · rw [l1_fenceDone _ _ _ _ acquires, untouched]
    case stays =>
      rw [l1_fenceDone _ _ _ _ acquires] at hy
      rw [staysAt_fenceDone]
      exact (List.mem_filter.mp hy).2

end Sys2Proof.Machine

/-!
SUPPORT and PROOF. STR, STORE_PERFORMED and STL: the bytes that a store leaves pending, those that a performed store changes, and
the words of the local store (R165, R166, R173, R293).
-/

namespace Sys2Proof.Machine

/-! ### The sectors of a store (R166) -/

theorem homeAdd_sector_offset (h : Home) : homeAdd (homeSector h) (homeOffset h) = h := by
  cases h with
  | dev pa => exact congrArg Home.dev (Nat.div_add_mod' pa 32)
  | host pa => exact congrArg Home.host (Nat.div_add_mod' pa 32)
  | fabric d r va => exact congrArg (Home.fabric d r) (Nat.div_add_mod' va 32)

theorem home_eq_iff {g h : Home} : g = h ↔ homeSector g = homeSector h ∧ homeOffset g = homeOffset h := by
  refine ⟨fun same => same ▸ ⟨rfl, rfl⟩, fun ⟨sector, offset⟩ => ?_⟩
  rw [← homeAdd_sector_offset g, sector, offset, homeAdd_sector_offset]

/-- A sector of a store holds byte `b` at home `h`. -/
def SectorHolds (h : Home) (b : Byte) (e : Home × Assoc Byte) : Prop := e.1 = homeSector h ∧ find? e.2 (homeOffset h) = some b

/-- Some sector of the list holds byte `b` at home `h`. -/
def HoldsByte (l : List (Home × Assoc Byte)) (h : Home) (b : Byte) : Prop := ∃ e ∈ l, SectorHolds h b e

/-- A sector with one cell more, where the cell is one of its own. -/
def sectorWith (c : Home × Byte) (e : Home × Assoc Byte) : Home × Assoc Byte :=
  if e.1 == homeSector c.1 then (homeSector c.1, put e.2 (homeOffset c.1) c.2) else e

/-- The sectors of a store with one cell more. -/
def groupCell (l : List (Home × Assoc Byte)) (c : Home × Byte) : List (Home × Assoc Byte) :=
  if l.any (fun e => e.1 == homeSector c.1) then l.map (sectorWith c)
  else l ++ [(homeSector c.1, [(homeOffset c.1, c.2)])]

theorem groupCells_eq_foldl (cells : List (Home × Byte)) (l : List (Home × Assoc Byte)) :
    groupCells cells l = cells.foldl groupCell l := by
  induction cells generalizing l with
  | nil => rfl
  | cons c t ih =>
    rw [List.foldl_cons, ← ih, groupCell]
    show (if _ then _ else _) = _
    split <;> rfl

/-- A cell that a sector takes in decides at its own home, and is seen nowhere else. -/
theorem sectorHolds_sectorWith (c : Home × Byte) (e : Home × Assoc Byte) (h : Home) (b : Byte) :
    SectorHolds h b (sectorWith c e) ↔ if e.1 = homeSector c.1 ∧ c.1 = h then c.2 = b else SectorHolds h b e := by
  by_cases mine : e.1 = homeSector c.1
  · have taken : sectorWith c e = (e.1, put e.2 (homeOffset c.1) c.2) := by simp [sectorWith, mine]
    rw [taken]
    unfold SectorHolds
    rw [find?_put]
    by_cases sector : homeSector c.1 = homeSector h
    · by_cases offset : homeOffset h = homeOffset c.1
      · simp [mine, sector, offset, home_eq_iff]
      · simp [mine, sector, offset, Ne.symm offset, home_eq_iff]
    · simp [mine, sector, home_eq_iff]
  · have left : sectorWith c e = e := by simp [sectorWith, mine]
    simp [left, mine]

/-- The cell added last decides at its own home, and is seen nowhere else. -/
theorem holdsByte_groupCell (l : List (Home × Assoc Byte)) (c : Home × Byte) (h : Home) (b : Byte) :
    HoldsByte (groupCell l c) h b ↔ if c.1 = h then c.2 = b else HoldsByte l h b := by
  unfold HoldsByte groupCell
  split
  next present =>
    obtain ⟨g, hg, sector⟩ : ∃ g ∈ l, g.1 = homeSector c.1 := by
      simpa only [List.any_eq_true, beq_iff_eq] using present
    simp only [List.mem_map, exists_exists_and_eq_and, sectorHolds_sectorWith]
    by_cases here : c.1 = h
    · rw [if_pos here]
      refine ⟨fun ⟨e, he, holds⟩ => ?_, fun same => ⟨g, hg, by rwa [if_pos ⟨sector, here⟩]⟩⟩
      by_cases mine : e.1 = homeSector c.1
      · rwa [if_pos ⟨mine, here⟩] at holds
      · rw [if_neg (fun both => mine both.1)] at holds
        exact absurd (here ▸ holds.1) mine
    · simp only [here, and_false, if_false]
  next absent =>
    have elsewhere : ∀ e ∈ l, ¬ e.1 = homeSector c.1 := fun e he sector =>
      absent (List.any_eq_true.mpr ⟨e, he, beq_iff_eq.mpr sector⟩)
    have added : SectorHolds h b (homeSector c.1, [(homeOffset c.1, c.2)]) ↔ c.1 = h ∧ c.2 = b := by
      rw [home_eq_iff, and_assoc]
      simp [SectorHolds, find?]
    simp only [List.mem_append, or_and_right, exists_or, List.mem_singleton, exists_eq_left, added]
    by_cases here : c.1 = h
    · subst here
      simp only [true_and, if_true, or_iff_right_iff_imp]
      rintro ⟨e, he, holds⟩
      exact absurd holds.1 (elsewhere e he)
    · simp only [here, false_and, or_false, if_false]

theorem holdsByte_groupCells (cells : List (Home × Byte)) (h : Home) (b : Byte) :
    HoldsByte (groupCells cells []) h b ↔ ((cells.filter (fun e => e.1 = h)).getLast?).map (·.2) = some b := by
  rw [groupCells_eq_foldl]
  induction cells using List.reverseRecOn with
  | nil => simp [HoldsByte]
  | append_singleton l c ih =>
    rw [List.foldl_append, List.foldl_cons, List.foldl_nil, holdsByte_groupCell, List.filter_append]
    by_cases here : c.1 = h
    · simp [here]
    · simp [here, ih]

/-! ### Stores that reach the L1 (R293) -/

section

variable (m blk c : Nat) (keep : Home → Nat)

theorem pushStore_onlyMemory (s : State) (g : Home × Assoc Byte) : OnlyMemory s (pushStore s m blk c keep g) := .set

theorem storeMem_onlyMemory (s : State) (cells : List (Home × Byte)) : OnlyMemory s (storeMem s m blk c keep cells) :=
  .foldl (fun _ _ => pushStore_onlyMemory ..) _ s

theorem storeMem_sameMemory (s : State) (cells : List (Home × Byte)) : SameMemory s (storeMem s m blk c keep cells) := by
  unfold storeMem
  generalize groupCells cells [] = l
  induction l generalizing s with
  | nil => exact .refl s
  | cons g t ih => exact SameMemory.trans (.of_eq rfl rfl rfl) (ih (pushStore s m blk c keep g))

/-- A pending store more for each sector, in their order. -/
theorem stores_foldl_pushStore (l : List (Home × Assoc Byte)) (s : State) :
    ∃ new, (getCore (l.foldl (pushStore · m blk c keep ·) s) m).stores = (getCore s m).stores ++ new ∧
      new.map (fun y => (y.home, y.cells)) = l := by
  induction l generalizing s with
  | nil => exact ⟨[], (List.append_nil _).symm, rfl⟩
  | cons g t ih =>
    obtain ⟨new, stores, sectors⟩ := ih (pushStore s m blk c keep g)
    have pushed : (getCore (pushStore s m blk c keep g) m).stores =
        (getCore s m).stores ++ [⟨s.nextId, blk, c, g.1, g.2, s.now, keep g.1⟩] :=
      congrArg Core.stores (getCore_setCore_self ..)
    refine ⟨⟨s.nextId, blk, c, g.1, g.2, s.now, keep g.1⟩ :: new, ?_, ?_⟩
    · rw [List.foldl_cons, stores, pushed, List.append_assoc]
      rfl
    · rw [List.map_cons, sectors]

/-- The bytes that a store leaves pending: at each home the last of its cells. -/
theorem stores_storeMem (s : State) (cells : List (Home × Byte)) :
    ∃ new, (getCore (storeMem s m blk c keep cells) m).stores = (getCore s m).stores ++ new ∧
      ∀ h b, (∃ y ∈ new, y.home = homeSector h ∧ find? y.cells (homeOffset h) = some b) ↔
        ((cells.filter (fun e => e.1 = h)).getLast?).map (·.2) = some b := by
  obtain ⟨new, stores, sectors⟩ := stores_foldl_pushStore m blk c keep (groupCells cells []) s
  refine ⟨new, stores, fun h b => ?_⟩
  rw [← holdsByte_groupCells, ← sectors]
  simp [HoldsByte, SectorHolds]

end

/-- STR through pages that are not STRONG only adds its stores (R165, R166). -/
theorem exec_str {s : State} {v : View} {k : Course} {d : RegName} {a : Src} {rs : RecName} {j : RegName} {x : RecordAccess}
    (h : Issuing s v k) (hu : Unstopped s v (.str d a rs j)) (hr : recordAccess v (.str d a rs j) = some x)
    (hs : strongReach (accessReach s v x) = false) : exec (.str d a rs j) s =
      .next (unitPasses (storeMem (touchAccess s v (.str d a rs j)) v.b.core v.u.blk v.u.course (storeKeep x (accessReach s v x))
        (storeCells v x d (accessReach s v x))) v (.str d a rs j) k) := by
  have only : OnlyMemory s (storeMem (touchAccess s v (.str d a rs j)) v.b.core v.u.blk v.u.course
      (storeKeep x (accessReach s v x)) (storeCells v x d (accessReach s v x))) :=
    (touchAccess_homeOnly ..).onlyMemory.trans (storeMem_onlyMemory ..)
  show execStr d a rs j s = _
  rw [execStr, runInstr_effect _ h.view hu, hr]
  simp only [hs, Bool.false_eq_true, if_false]
  rw [retire_eq _ _ ((only.getCourse ..).trans h.course) h.stays]
  rfl

/-! ### A store is performed (R293) -/

/-- The last of several writes to a key decides. -/
theorem cget_csetAll_last {α : Type} [DecidableEq α] (d : α) (l : List (Nat × α)) (m : Cells α) (j : Nat) :
    cget d (csetAll d m l) j = ((l.reverse.find? (fun e => e.1 = j)).map (·.2)).getD (cget d m j) := by
  induction l generalizing m with
  | nil => rfl
  | cons e t ih =>
    obtain ⟨k, w⟩ := e
    rw [csetAll, ih, cget_cset, List.reverse_cons, List.find?_append]
    cases t.reverse.find? (fun e => e.1 = j) with
    | some f => rfl
    | none => by_cases here : j = k <;> simp [here, eq_comm]

/-- Where no member is lost, a write performed in device memory changes the bytes of its cells. -/
theorem performDev_bytes {s : State} (hgood : allGood s = true) (pa : Nat) (cells : List (Nat × Byte)) :
    (∀ a, cget 0#8 (performDev s pa cells).dev a =
      ((cells.reverse.find? (fun c => pa + c.1 = a)).map (·.2)).getD (cget 0#8 s.dev a)) ∧
    (performDev s pa cells).hostMem = s.hostMem := by
  obtain ⟨good, dev, host⟩ := back_good (pa := pa) hgood
  have performed : performDev s pa cells = invalidateHomeDie (writeSector (backInvalidate s pa) pa cells) pa := by
    unfold performDev performHome oldTouch
    rw [if_pos good]
    unfold writeTouch
    rw [if_pos good]
  rw [performed]
  refine ⟨fun a => ?_, host⟩
  show cget 0#8 (csetAll 0#8 (backInvalidate s pa).dev _) a = _
  rw [cget_csetAll_last, dev, ← List.map_reverse, List.find?_map, Option.map_map]
  rfl

section

variable {s : State} {core : Nat} {y : PendingStore} {rest : List PendingStore} (hstores : (getCore s core).stores = y :: rest)
  (hid : rest.all (fun z => z.id ≠ y.id) = true)

include hstores hid

/-- The oldest pending store of a core is performed alone. -/
theorem exec_storePerformed_head : exec (.storePerformed core 0) s =
    .next (performStore (setCore s core { getCore s core with stores := rest }) core y) := by
  have others : ∀ z ∈ rest, ¬ z.id = y.id := fun z hz => of_decide_eq_true (List.all_eq_true.mp hid z hz)
  have this_one : (y :: rest).filter (fun z => z.id = y.id) = [y] := by
    rw [List.filter_cons_of_pos (by simp), List.filter_eq_nil_iff.mpr (by simpa using others)]
  have stay : (y :: rest).filter (fun z => !decide (z.id = y.id)) = rest := by
    rw [List.filter_cons_of_neg (by simp), List.filter_eq_self.mpr (by simpa using others)]
  have ready : storeReady (getCore s core) 0 = true := by
    rw [storeReady, hstores]
    rfl
  show execStorePerformed core 0 s = _
  rw [execStorePerformed, hstores]
  simp only [List.getElem?_cons_zero, ready, if_true]
  rw [drainStores, hstores]
  simp only [this_one, stay, List.foldl_cons, List.foldl_nil]

end

/-- In device memory its bytes, and no other, change (R293). -/
theorem performStore_dev {s : State} (hgood : allGood s = true) (core : Nat) {y : PendingStore} {pa : Nat} (hy : y.home = .dev pa) :
    (∀ a, cget 0#8 (performStore s core y).dev a =
      ((y.cells.reverse.find? (fun c => pa + c.1 = a)).map (·.2)).getD (cget 0#8 s.dev a)) ∧
    (performStore s core y).hostMem = s.hostMem := by
  have sliced : SlicesOnly s (l2Write s (blockAsid s y.blk) (.dev pa) y.cells y.keep) := l2Write_slicesOnly ..
  have performed : performStore s core y = performDev (l2Write s (blockAsid s y.blk) (.dev pa) y.cells y.keep) pa y.cells := by
    rw [performStore, hy]
    rfl
  obtain ⟨bytes, host⟩ := performDev_bytes (sliced.allGood.trans hgood) pa y.cells
  have dev : (l2Write s (blockAsid s y.blk) (.dev pa) y.cells y.keep).dev = s.dev := by rw [sliced]
  have hostBefore : (l2Write s (blockAsid s y.blk) (.dev pa) y.cells y.keep).hostMem = s.hostMem := by rw [sliced]
  rw [performed]
  exact ⟨fun a => (bytes a).trans (by rw [dev]), host.trans hostBefore⟩

/-! ### Words of the local store (R173) -/

theorem length_bytesOfNat (n v : Nat) : (bytesOfNat n v).length = n := by
  induction n generalizing v with
  | zero => rfl
  | succ n ih => rw [bytesOfNat, List.length_cons, ih]

/-- Bytes of a number give it back, as far as they reach. -/
theorem natOfBytes_bytesOfNat (n v : Nat) : natOfBytes (bytesOfNat n v) = v % 256 ^ n := by
  induction n generalizing v with
  | zero => simp [bytesOfNat, natOfBytes, Nat.mod_one]
  | succ n ih =>
    have low : (BitVec.ofNat 8 v).toNat = v % 256 := BitVec.toNat_ofNat ..
    rw [bytesOfNat, natOfBytes, ih, low, Nat.pow_succ' (n := n), Nat.mod_mul]

/-- A run of cells reads as the list whose elements they hold. -/
theorem cgetRun_eq {α : Type} {d : α} {m : Cells α} {l : List α} {k : Nat}
    (h : ∀ i (hi : i < l.length), cget d m (k + i) = l[i]) : cgetRun d m k l.length = l := by
  induction l generalizing k with
  | nil => rfl
  | cons b t ih =>
    have head : cget d m k = b := h 0 (Nat.succ_pos _)
    rw [List.length_cons, cgetRun, head]
    refine congrArg _ (ih fun i hi => ?_)
    rw [Nat.add_assoc, Nat.add_comm 1 i]
    exact h (i + 1) (Nat.succ_lt_succ hi)

/-- A word reads as the one whose bytes stand there. -/
theorem localWord_eq {b : Block} {addr : Nat} {w : Word}
    (h : ∀ n, addr ≤ n → n < addr + 4 → cget 0#8 b.localMem n = (bytesOfNat 4 w.toNat).getD (n - addr) 0#8) :
    localWord b addr = w := by
  have run : cgetRun 0#8 b.localMem addr 4 = bytesOfNat 4 w.toNat := by
    refine cgetRun_eq (l := bytesOfNat 4 w.toNat) fun i hi => ?_
    have byte := h (addr + i) (Nat.le_add_right ..) (Nat.add_lt_add_left (length_bytesOfNat 4 w.toNat ▸ hi) addr)
    rwa [Nat.add_sub_cancel_left, List.getD_eq_getElem _ _ hi] at byte
  have fits : w.toNat < 256 ^ 4 := w.isLt
  rw [localWord, run, natOfBytes_bytesOfNat, Nat.mod_eq_of_lt fits, BitVec.ofNat_toNat, BitVec.setWidth_eq]

theorem csetAll_append {α : Type} [DecidableEq α] (d : α) (m : Cells α) (l r : List (Nat × α)) :
    csetAll d m (l ++ r) = csetAll d (csetAll d m l) r := by
  induction l generalizing m with
  | nil => rfl
  | cons e t ih => exact ih _

/-- The cells of words `w l` at `addr l`, one lane after another. -/
def wordCells (addr : Nat → Nat) (w : Nat → Word) (L : List Nat) : List (Nat × Byte) :=
  L.flatMap (fun l => (bytesOfNat 4 (w l).toNat).zipIdx.map (fun b => (addr l + b.2, b.1)))

section

variable (addr : Nat → Nat) (w : Nat → Word)

theorem key_mem_wordCells {L : List Nat} {e : Nat × Byte} (he : e ∈ wordCells addr w L) :
    ∃ l ∈ L, addr l ≤ e.1 ∧ e.1 < addr l + 4 := by
  obtain ⟨l, hl, he⟩ := List.mem_flatMap.mp he
  obtain ⟨⟨x, i⟩, hx, rfl⟩ := List.mem_map.mp he
  have bound := (List.mem_zipIdx' hx).1
  rw [length_bytesOfNat] at bound
  exact ⟨l, hl, Nat.le_add_right .., Nat.add_lt_add_left bound _⟩

/-- A byte that is in none of the words stays. -/
theorem cget_wordCells_outside (m : Cells Byte) {L : List Nat} {n : Nat} (h : ∀ l ∈ L, n < addr l ∨ addr l + 4 ≤ n) :
    cget 0#8 (csetAll 0#8 m (wordCells addr w L)) n = cget 0#8 m n := by
  refine cget_csetAll_of_not_mem _ _ _ fun e he key => ?_
  obtain ⟨l, hl, low, high⟩ := key_mem_wordCells addr w he
  have := h l hl
  omega

/-- A lane's bytes stand where no lane after it writes them again. -/
theorem cget_wordCells {m : Cells Byte} {before after : List Nat} {l n : Nat} (low : addr l ≤ n) (high : n < addr l + 4)
    (h : ∀ j ∈ after, n < addr j ∨ addr j + 4 ≤ n) :
    cget 0#8 (csetAll 0#8 m (wordCells addr w (before ++ l :: after))) n = (bytesOfNat 4 (w l).toNat).getD (n - addr l) 0#8 := by
  rw [wordCells, List.flatMap_append, List.flatMap_cons, csetAll_append, csetAll_append]
  rw [← wordCells, ← wordCells, cget_wordCells_outside addr w _ h, csetAll_run, length_bytesOfNat, if_pos ⟨low, high⟩]

end

theorem pairwise_lanesOf (m : Lanes) : (lanesOf m).Pairwise (· < ·) := List.pairwise_lt_range.filter _

/-- STL writes its words where they are aligned and inside the allocation (R173). -/
theorem exec_stl {s : State} {v : View} {k : Course} {d : RegName} {a : Src} {imm : Word} (h : Issuing s v k)
    (hz : NoHazard v (.stl d a imm)) (ok : ∀ l ∈ lanesOf v.contributors, (readReg v.k a.reg l + imm).toNat % 4 = 0 ∧
      (readReg v.k a.reg l + imm).toNat + 4 ≤ v.b.alloc) :
    let cells := wordCells (fun l => (readReg v.k a.reg l + imm).toNat) (readReg v.k d) (lanesOf v.contributors)
    exec (.stl d a imm) s = .next (unitPasses (setBlock s v.u.blk (localStore v.b cells)) v (.stl d a imm) k) := by
  intro cells
  have unstopped : Unstopped s v (.stl d a imm) :=
    unstopped_local hz (.inr (.inr (.inl ⟨d, a, imm, rfl⟩))) rfl ok rfl
  have access : localAccess v (.stl d a imm) =
      some ((lanesOf v.contributors).map (fun l => (l, (readReg v.k a.reg l + imm).toNat)), false) := rfl
  show execStl d a imm s = _
  rw [execStl, runInstr_effect _ h.view unstopped, access]
  dsimp only
  rw [List.flatMap_map, retire_eq (s := setBlock s v.u.blk _) _ _ h.course h.stays]
  rfl

/-! ### The obligation -/

/-- Settles O32: the last cell at a home decides what STR leaves pending, the last at an address what a performed store writes, and
the last lane at a word what STL writes. -/
theorem storesLeaveTheirBytes : Obligations.StoresLeaveTheirBytes := by
  unfold Obligations.StoresLeaveTheirBytes
  refine ⟨fun s v k d a rs j x h hu hr hs => ?str, fun s core pa y rest hgood hstores hid hy => ?performed,
    fun s v k d a imm h hz => ?stl⟩
  case str =>
    have touched := touchAccess_homeOnly s v (.str d a rs j)
    obtain ⟨new, stores, bytes⟩ := stores_storeMem v.b.core v.u.blk v.u.course (storeKeep x (accessReach s v x))
      (touchAccess s v (.str d a rs j)) (storeCells v x d (accessReach s v x))
    refine ⟨_, new, exec_str h hu hr hs, touched.onlyMemory.trans (storeMem_onlyMemory ..), fun hgood => ?_, ?_, bytes⟩
    · rw [touchAccess_good hgood]
      exact storeMem_sameMemory ..
    · rw [stores, touched.getCore]
  case performed =>
    obtain ⟨bytes, host⟩ := performStore_dev (s := setCore s core { getCore s core with stores := rest }) hgood core hy
    refine ⟨_, exec_storePerformed_head hstores hid, (setCore_onlyMemory ..).trans (performStore_onlyMemory ..), ?_, bytes,
      fun a => by rw [host]; rfl⟩
    rw [stores_performStore, setCore_l1]
  case stl =>
    intro addr ok
    refine ⟨_, exec_stl h hz ok, rfl, fun l hl last => ?_, fun n outside => cget_wordCells_outside addr _ _ outside⟩
    obtain ⟨before, after, split⟩ := List.append_of_mem hl
    have later : ∀ j ∈ after, l < j := by
      have order := pairwise_lanesOf v.contributors
      rw [split, List.pairwise_append, List.pairwise_cons] at order
      exact order.2.1.1
    refine localWord_eq fun n low high => ?_
    have here : l ∈ before ++ l :: after := List.mem_append_right _ List.mem_cons_self
    show cget 0#8 (csetAll 0#8 v.b.localMem (wordCells addr (readReg v.k d) (lanesOf v.contributors))) n = _
    rw [split] at ok last ⊢
    refine cget_wordCells addr _ low high fun j hj => ?_
    have there : j ∈ before ++ l :: after := List.mem_append_right _ (List.mem_cons_of_mem _ hj)
    have differs := last j there (later j hj)
    obtain ⟨alignedL, -⟩ := ok l here
    obtain ⟨alignedJ, -⟩ := ok j there
    omega

end Sys2Proof.Machine

/-!
SUPPORT and PROOF. ATL and ATR: the word that an atomic leaves, its lanes in the local store one after another, and one lane at a
home (R173, R175, R176, R177).
-/

namespace Sys2Proof.Machine

/-! ### The word of an atomic (R175) -/

theorem map_atomNew (op : AtomOp) (x y : Word) (n : Nat) :
    (atomNew op x y n).map (BitVec.ofNat 32) = atomWord op (BitVec.ofNat 32 n) x y := by
  cases op with
  | cas =>
    unfold atomNew atomWord
    dsimp only
    split <;> simp
  | add | sub | imin | imax | umin | umax | iand | ior | ixor | xch =>
    simp only [atomNew, atomWord, Option.map_some, BitVec.ofNat_toNat, BitVec.setWidth_eq]
  | fadd => rfl

/-- Only a CAS whose word is not D leaves none (R177). -/
theorem atomWord_isNone (op : AtomOp) (old x y : Word) : (atomWord op old x y).isNone = (op == .cas && old != x) := by
  cases op with
  | cas => by_cases same : old = x <;> simp [atomWord, same]
  | _ => rfl

/-! ### The lanes of ATL, one after another (R176) -/

/-- The local store once an atomic has been performed on a word of it. -/
def atomBlock (op : AtomOp) (b : Block) (addr : Nat) (x y : Word) : Block :=
  match atomWord op (localWord b addr) x y with
  | some w => setLocalWord b addr w
  | none => b

theorem atomSeq_cons (op : AtomOp) (l addr : Nat) (x y : Word) (t : List (Nat × Nat × Word × Word)) (b : Block) :
    atomSeq op ((l, addr, x, y) :: t) b = ((l, localWord b addr) :: (atomSeq op t (atomBlock op b addr x y)).1,
      (atomSeq op t (atomBlock op b addr x y)).2) := rfl

theorem atomBlock_asid (op : AtomOp) (b : Block) (addr : Nat) (x y : Word) : (atomBlock op b addr x y).asid = b.asid := by
  unfold atomBlock
  split <;> rfl

/-- An atomic marks no sector. -/
theorem localPoisoned_atomBlock (op : AtomOp) (b : Block) (addr : Nat) (x y : Word) (start n : Nat) :
    localPoisoned (atomBlock op b addr x y) start n = localPoisoned b start n := by
  unfold atomBlock
  split <;> rfl

theorem atomSeq_asid (op : AtomOp) (l : List (Nat × Nat × Word × Word)) (b : Block) : (atomSeq op l b).2.asid = b.asid := by
  induction l generalizing b with
  | nil => rfl
  | cons e t ih => rw [atomSeq_cons, ih, atomBlock_asid]

theorem atomSeq_lanes (op : AtomOp) (l : List (Nat × Nat × Word × Word)) (b : Block) :
    (atomSeq op l b).1.map (·.1) = l.map (·.1) := by
  induction l generalizing b with
  | nil => rfl
  | cons e t ih => rw [atomSeq_cons, List.map_cons, List.map_cons, ih]

/-- A lane of ATL on a clean word. -/
theorem atomLocal_clean {v : View} {op : AtomOp} {d : RegName} {g : Got Word} {b : Block} {l addr : Nat}
    (clean : localPoisoned b addr 4 = false) : atomLocal v op d (g, b) (l, addr) = (g ++ [(l, addr, some (localWord b addr))],
      atomBlock op b addr (readReg v.k d l) (readReg v.k (regPlus d 1) l)) := by
  have word := map_atomNew op (readReg v.k d l) (readReg v.k (regPlus d 1) l) (localWord b addr).toNat
  rw [BitVec.ofNat_toNat, BitVec.setWidth_eq] at word
  unfold atomLocal atomArgs atomBlock
  simp only [clean, Bool.false_eq_true, if_false, ← word]
  cases atomNew op (readReg v.k d l) (readReg v.k (regPlus d 1) l) (localWord b addr).toNat <;> rfl

/-- The lanes of ATL on clean words are those of `atomSeq`. -/
theorem foldl_atomLocal {v : View} {op : AtomOp} {d : RegName} {addr : Nat → Nat} (L : List Nat) (g : Got Word) (b : Block)
    (clean : ∀ l ∈ L, localPoisoned b (addr l) 4 = false) :
    let r := atomSeq op (L.map (fun l => (l, addr l, readReg v.k d l, readReg v.k (regPlus d 1) l))) b
    (L.map (fun l => (l, addr l))).foldl (atomLocal v op d) (g, b) = (g ++ r.1.map (fun e => (e.1, addr e.1, some e.2)), r.2) := by
  induction L generalizing g b with
  | nil => simp [atomSeq]
  | cons l t ih =>
    rw [List.forall_mem_cons] at clean
    rw [List.map_cons, List.map_cons, List.foldl_cons, atomLocal_clean clean.1, atomSeq_cons,
      ih _ _ (fun j hj => (localPoisoned_atomBlock ..).trans (clean.2 j hj))]
    simp

/-- A table of distinct keys holds what it is asked for. -/
theorem eq_map_find? {α : Type} (m : Assoc α) (d : α) (h : (m.map (·.1)).Nodup) :
    m = (m.map (·.1)).map (fun k => (k, (find? m k).getD d)) := by
  induction m with
  | nil => rfl
  | cons e t ih =>
    obtain ⟨k, a⟩ := e
    rw [List.map_cons, List.nodup_cons] at h
    obtain ⟨fresh, h⟩ := h
    have rest : t = (t.map (·.1)).map (fun j => (j, (find? ((k, a) :: t) j).getD d)) := by
      refine (ih h).trans (List.map_congr_left fun j hj => ?_)
      rw [find?, if_neg (fun same : k = j => fresh (same ▸ hj))]
    rw [List.map_cons, List.map_cons, ← rest, find?, if_pos rfl]
    rfl

/-! ### ATL -/

/-- The lanes that an atomic is performed in (R157, R175). -/
def atomLanes (v : View) (d : RegName) : List Nat := if isScalar d then v.lanes true else lanesOf v.contributors

theorem nodup_atomLanes (v : View) (d : RegName) : (atomLanes v d).Nodup := by
  unfold atomLanes View.lanes
  split
  · simp only [if_true]
    split
    · exact List.nodup_singleton _
    · exact List.nodup_nil
  · exact List.nodup_range.filter _

section

variable (v : View) (op : AtomOp) (d : RegName) (a : Src)

/-- What ATL's lanes read, and the block after. -/
def atlRun : List (Nat × Word) × Block :=
  atomSeq op ((atomLanes v d).map (fun l => (l, (readReg v.k a.reg l).toNat, readReg v.k d l, readReg v.k (regPlus d 1) l))) v.b

/-- What lane `l` of ATL reads. -/
def atlOld (l : Nat) : Word := (find? (atlRun v op d a).1 l).getD 0

theorem atlRun_fst : (atlRun v op d a).1 = (atomLanes v d).map (fun l => (l, atlOld v op d a l)) := by
  have lanes : (atlRun v op d a).1.map (·.1) = atomLanes v d := by
    rw [atlRun, atomSeq_lanes, List.map_map]
    exact List.map_id _
  have held := eq_map_find? (atlRun v op d a).1 0 (by rw [lanes]; exact nodup_atomLanes v d)
  rwa [lanes] at held

/-- A lane of ATL finds a word that is not its D (R177). -/
def atlFails : Bool := op == .cas && (atlRun v op d a).1.any (fun e => e.2 != readReg v.k d e.1)

theorem atlFails_iff : atlFails v op d a = true ↔ op = .cas ∧ ∃ e ∈ (atlRun v op d a).1, e.2 ≠ readReg v.k d e.1 := by
  simp [atlFails]

/-- The long write of ATL (R84). -/
def atlWrite (id : Nat) : LongWrite :=
  loadWrite id d ((atomLanes v d).map (fun l => (l, (readReg v.k a.reg l).toNat, some [atlOld v op d a l]))) 1 0 false

end

/-- The block keeps its context. -/
theorem blockCtx_atlRun {s : State} {v : View} (hb : getBlock s v.u.blk = some v.b) (op : AtomOp) (d : RegName) (a : Src) :
    blockCtx (setBlock s v.u.blk (atlRun v op d a).2) v.u.blk = blockCtx s v.u.blk := by
  have asid : (atlRun v op d a).2.asid = v.b.asid := atomSeq_asid ..
  rw [blockCtx, blockCtx, getBlock_setBlock_self, hb]
  dsimp only
  rw [asid]
  rfl

theorem sliceStop_atl {v : View} {op : AtomOp} {d : RegName} {a : Src} (h : op = .cas → sliceHolds v.k v.p = []) :
    sliceStop v (settlesPath v (.atl op d a)) = none := by
  cases op with
  | cas => simp [sliceStop, h rfl]
  | _ => rfl

/-- ATL on clean words: the block is left as the lanes' atomics leave it, and a long write brings the old words (R176). -/
theorem exec_atl {s : State} {v : View} {op : AtomOp} {d : RegName} {a : Src} (view : viewOf s = some v)
    (hz : NoHazard v (.atl op d a)) (slices : op = .cas → sliceHolds v.k v.p = [])
    (ok : ∀ l ∈ atomLanes v d, LocalWordOk v.b (readReg v.k a.reg l).toNat) : exec (.atl op d a) s = .next (retire
      (addLong (idTaken (setBlock s v.u.blk (atlRun v op d a).2)) v.u (atlWrite v op d a s.nextId))
      { v.u with demotes := v.u.demotes || atlFails v op d a } (.atl op d a) 0) := by
  have own (w : Word) : localAddr w 0 = w.toNat := congrArg BitVec.toNat (BitVec.add_zero w)
  have access : localAccess v (.atl op d a) =
      some ((atomLanes v d).map (fun l => (l, (readReg v.k a.reg l).toNat)), isScalar d) := by
    simp only [localAccess, own]
    rfl
  have unstopped : Unstopped s v (.atl op d a) := unstopped_local hz (.inr (.inr (.inr ⟨op, d, a, rfl⟩))) access
    (fun l hl => ⟨(ok l hl).1, (ok l hl).2.1⟩) (sliceStop_atl slices)
  have run := foldl_atomLocal (v := v) (op := op) (d := d) (addr := fun l => (readReg v.k a.reg l).toNat) (atomLanes v d) [] v.b
    (fun l hl => (ok l hl).2.2)
  have brought : ((atlRun v op d a).1.map (fun e => (e.1, (readReg v.k a.reg e.1).toNat, some e.2))).map
      (fun e => (e.1, e.2.1, e.2.2.map (fun w => [w]))) =
        (atomLanes v d).map (fun l => (l, (readReg v.k a.reg l).toNat, some [atlOld v op d a l])) := by
    rw [atlRun_fst, List.map_map, List.map_map]
    rfl
  have fails : casFailed v op d ((atlRun v op d a).1.map (fun e => (e.1, (readReg v.k a.reg e.1).toNat, some e.2))) =
      atlFails v op d a := by
    rw [casFailed, atlFails, List.any_map]
    rfl
  show execAtl op d a s = _
  rw [execAtl, runInstr_effect _ view unstopped, access]
  dsimp only
  rw [run, List.nil_append, ← atlRun, fails, brought]
  rfl

/-! ### An atomic at its home (R176) -/

theorem bytesOfNat_mod (n v : Nat) : bytesOfNat n (v % 256 ^ n) = bytesOfNat n v := by
  induction n generalizing v with
  | zero => rfl
  | succ n ih =>
    have low : BitVec.ofNat 8 (v % 256 ^ (n + 1)) = BitVec.ofNat 8 v := by
      apply BitVec.eq_of_toNat_eq
      rw [BitVec.toNat_ofNat, BitVec.toNat_ofNat]
      exact Nat.mod_mod_of_dvd v (Dvd.intro_left _ rfl)
    have high : v % 256 ^ (n + 1) / 256 = v / 256 % 256 ^ n := by
      rw [Nat.pow_succ', Nat.mod_mul_right_div_self]
    rw [bytesOfNat, bytesOfNat, low, high, ih]

/-- Bytes that are stored in a machine of the same memory are stored in this one. -/
theorem StoredAt.of_sameMemory {s t u : State} {h : Home} {bs : List Byte} (same : SameMemory s u) (stored : StoredAt u t h bs) :
    StoredAt s t h bs := by
  obtain ⟨dev, host, -⟩ := same
  cases h with
  | dev pa => exact ⟨fun a => (stored.1 a).trans (by rw [dev]), fun a => (stored.2 a).trans (host a)⟩
  | host pa => exact ⟨fun a => (stored.1 a).trans (by rw [host]), fun a => (stored.2 a).trans (dev a)⟩
  | fabric f r va => exact ⟨fun a => (stored.1 a).trans (dev a), fun a => (stored.2 a).trans (host a)⟩

/-- Where memory is the same, no byte has been stored. -/
theorem StoredAt.none {s t : State} (same : SameMemory s t) (h : Home) : StoredAt s t h [] := by
  have nowhere (pa a : Nat) : ¬ (pa ≤ a ∧ a < pa + ([] : List Byte).length) := by simp only [List.length_nil]; omega
  obtain ⟨dev, host, -⟩ := same
  cases h with
  | dev pa => exact ⟨fun a => by rw [if_neg (nowhere pa a), dev], host⟩
  | host pa => exact ⟨fun a => by rw [if_neg (nowhere pa a), host], dev⟩
  | fabric f r va => exact ⟨dev, host⟩

/-- The machine once an atomic has written bytes at a home that it has read: its core's own copy follows (R293). -/
def atomStored (u : State) (m : Nat) (asid : BitVec 16) (h : Home) (bs : List Byte) : State :=
  let cells := bs.zipIdx.map (fun e => (homeOffset h + e.2, e.1))
  let t := performBy u asid (homeSector h) cells 0
  let c := getCore t m
  if c.l1.isEmpty then t else setCore t m { c with l1 := c.l1.map (fun x => l1Update x (homeSector h) cells) }

theorem atomStored_onlyMemory (u : State) (m : Nat) (asid : BitVec 16) (h : Home) (bs : List Byte) :
    OnlyMemory u (atomStored u m asid h bs) :=
  .ite (performBy_onlyMemory ..) ((performBy_onlyMemory ..).trans (setCore_onlyMemory ..))

theorem atomStored_storedAt {u : State} (hgood : allGood u = true) (m : Nat) (asid : BitVec 16) {h : Home}
    (device : ∀ f r w, h ≠ .fabric f r w) (bs : List Byte) : StoredAt u (atomStored u m asid h bs) h bs := by
  have sliced : SlicesOnly u (l2Write u asid (homeSector h) (bs.zipIdx.map (fun e => (homeOffset h + e.2, e.1))) 0) :=
    l2Write_slicesOnly ..
  have performed := (perform_stored (sliced.allGood.trans hgood) h device bs).of_sameMemory sliced.sameMemory
  unfold atomStored
  dsimp only
  split
  · exact performed
  · cases h <;> exact performed

/-- An atomic on a clean word, with no store of its core pending and no member lost (R176). -/
theorem atomicAt_clean {s : State} {m : Nat} {h : Home} {n : Nat} (hstores : (getCore s m).stores = []) (asid : BitVec 16)
    (f : Nat → Option Nat) (hgood : allGood s = true) (hpoison : homePoisoned s h n = false) :
    atomicAt s m asid h n f = (some (natOfBytes (homeBytes s h n)), ((f (natOfBytes (homeBytes s h n))).map
      (fun v => atomStored (homeReached s m asid h n 0) m asid h (bytesOfNat n v))).getD (homeReached s m asid h n 0)) := by
  unfold atomicAt
  rw [← homeReached, homeTouch_homeReached hstores asid h n 0 hgood]
  dsimp only
  rw [homeReached_poisoned hstores, hpoison, homeReached_bytes hstores]
  cases f (natOfBytes (homeBytes s h n)) <;> rfl

/-! ### ATR -/

theorem maskOf_singleton (l : Nat) : maskOf [l].contains = bitLane l := by
  have gathered := fold_lanes [l] (fun _ => ())
  rw [← gathered]
  exact BitVec.zero_or

/-- The word that ATR's lane finds at its home. -/
def homeWord (s : State) (h : Home) : Word := BitVec.ofNat 32 (natOfBytes (homeBytes s h 4))

/-- The machine once ATR's lane has been performed. -/
def atrStored (s : State) (v : View) (h : Home) (w : Option Word) : State :=
  (w.map (fun w => atomStored (homeReached s v.b.core v.b.asid h 4 0) v.b.core v.b.asid h (bytesOfNat 4 w.toNat))).getD
    (homeReached s v.b.core v.b.asid h 4 0)

section

variable {s : State} {v : View} {op : AtomOp} {d : RegName} {a : Src} {rs : RecName} {x : RecordAccess} {l va : Nat} {h : Home}
  {p : Leaf} (hgood : allGood s = true) (hstores : (getCore s v.b.core).stores = [])

include hstores

theorem atrStored_onlyMemory (w : Option Word) : OnlyMemory s (atrStored s v h w) := by
  have reached := homeReached_onlyMemory hstores v.b.asid h 4 0
  cases w with
  | none => exact reached
  | some w => exact reached.trans (atomStored_onlyMemory ..)

include hgood

/-- One lane of ATR reads its word and leaves the one of R175. -/
theorem atomLane_clean (hpoison : homePoisoned s h 4 = false) : atomLane v op d ([], s) (l, .mem va h p) =
    ([(l, va, some (homeWord s h))],
      atrStored s v h (atomWord op (homeWord s h) (readReg v.k d l) (readReg v.k (regPlus d 1) l))) := by
  have word := map_atomNew op (readReg v.k d l) (readReg v.k (regPlus d 1) l) (natOfBytes (homeBytes s h 4))
  have bytes (n : Nat) : bytesOfNat 4 (BitVec.ofNat 32 n).toNat = bytesOfNat 4 n := by
    rw [BitVec.toNat_ofNat]
    exact bytesOfNat_mod 4 n
  unfold atomLane atomArgs
  simp only [atomicAt_clean hstores v.b.asid _ hgood hpoison]
  rw [atrStored, homeWord, ← word]
  cases atomNew op (readReg v.k d l) (readReg v.k (regPlus d 1) l) (natOfBytes (homeBytes s h 4)) with
  | none => rfl
  | some n =>
    simp only [Option.map_some, Option.getD_some, bytes]
    rfl

/-- ATR in one lane, through a page that is not STRONG (R175 to R177). -/
theorem exec_atr (view : viewOf s = some v) (hu : Unstopped s v (.atr op d a rs)) (hr : recordAccess v (.atr op d a rs) = some x)
    (hh : heldFor v = none) (hreach : accessReach s v x = [(l, .mem va h p)]) (horder : p.order ≠ 1)
    (hpoison : homePoisoned s h 4 = false) :
    let t := atrStored s v h (atomWord op (homeWord s h) (readReg v.k d l) (readReg v.k (regPlus d 1) l))
    exec (.atr op d a rs) s = .next (retire
      (addLong (idTaken t) v.u (loadWrite t.nextId d ([l].map (fun j => (j, va, some [homeWord s h]))) 1 x.r.tag true))
      { v.u with demotes := v.u.demotes || (atomWord op (homeWord s h) (readReg v.k d l) (readReg v.k (regPlus d 1) l)).isNone }
      (.atr op d a rs) 0) := by
  intro t
  have here : heldReach s v x = [(l, .mem va h p)] := by rw [heldReach, hh, hreach]
  have lane : [(l, Reach.mem va h p)].foldl (atomLane v op d) ([], s) = ([(l, va, some (homeWord s h))], t) :=
    atomLane_clean hgood hstores hpoison
  have fails : casFailed v op d [(l, va, some (homeWord s h))] =
      (atomWord op (homeWord s h) (readReg v.k d l) (readReg v.k (regPlus d 1) l)).isNone := by
    simp [atomWord_isNone, casFailed, atomArgs]
  show execAtr op d a rs s = _
  rw [execAtr, runInstr_effect _ view hu, hr]
  simp only [here, strongReach_mem l va h horder, touchAccess_good hgood, Bool.false_eq_true, if_false]
  rw [lane, fails]
  rfl

/-- The word's four bytes change, or none where no word is left. -/
theorem atrStored_storedAt (device : ∀ f r w, h ≠ .fabric f r w) (w : Option Word) :
    StoredAt s (atrStored s v h w) h ((w.map (fun w => bytesOfNat 4 w.toNat)).getD []) := by
  have same := homeReached_sameMemory hstores v.b.asid h 4 0
  cases w with
  | none => exact .none same h
  | some w =>
    exact (atomStored_storedAt ((homeReached_allGood hstores ..).trans hgood) v.b.core v.b.asid device _).of_sameMemory same

end

/-! ### The obligation -/

/-- Settles O33: an atomic in each lane of ATL and in the lane of ATR, and the long write that brings what it read. -/
theorem atomicsReadModifyWrite : Obligations.AtomicsReadModifyWrite := by
  unfold Obligations.AtomicsReadModifyWrite
  intro s v k op d a issuing quiet
  have quietPath : quiet → QuietPath s v := fun ⟨alone, depth, longs, pending, park, other, context⟩ =>
    ⟨alone, depth, longs, pending, park, other, context⟩
  refine ⟨?atl, fun rs x l va h p hu hr hh hlanes hreach horder hgood hstores hpoison device => ?atr⟩
  case atl =>
    intro lanes addr r ds hz slices ok
    have runs := exec_atl issuing.view hz slices ok
    obtain ⟨pure, hid, written⟩ := loadWrite_words s.nextId (atomLanes v d) d (fun l => (readReg v.k a.reg l).toNat)
      (atlOld v op d a) 0 false
    refine ⟨fun succeeds => ?_, fun q cas fails => ?_⟩
    · have kept : atlFails v op d a = false := by
        rw [← Bool.not_eq_true, atlFails_iff]
        rintro ⟨cas, e, he, differs⟩
        exact differs (succeeds cas e he)
      rw [kept, Bool.or_false] at runs
      exact long_leaves (t := setBlock s v.u.blk r.2) _ issuing.course issuing.stays pure hid written runs
    · have path := quietPath q
      have context := (congrArg _ (blockCtx_atlRun path.alone.block op d a)).trans path.context
      rw [runs, (atlFails_iff v op d a).mpr ⟨cas, fails⟩]
      exact path.demotes (t := setBlock s v.u.blk r.2) path.alone.course context pure hid written
  case atr =>
    intro old ds
    have runs := exec_atr hgood hstores issuing.view hu hr hh hreach horder hpoison
    have only := atrStored_onlyMemory (v := v) (h := h) hstores
    have stored := atrStored_storedAt hgood hstores device
    have brings (t : State) := loadWrite_words t.nextId [l] d (fun _ => va) (fun _ => old) x.r.tag true
    rw [maskOf_singleton] at brings
    refine ⟨fun w hw => ?_, fun q hw => ?_⟩
    · rw [show atomWord op (homeWord s h) (readReg v.k d l) (readReg v.k (regPlus d 1) l) = some w from hw] at runs
      rw [Option.isNone_some, Bool.or_false] at runs
      obtain ⟨pure, hid, written⟩ := brings (atrStored s v h (some w))
      have course := ((only (some w)).getCourse ..).trans issuing.course
      exact ⟨_, only _, stored _, long_leaves _ course issuing.stays pure hid written runs⟩
    · rw [show atomWord op (homeWord s h) (readReg v.k d l) (readReg v.k (regPlus d 1) l) = none from hw] at runs
      obtain ⟨pure, hid, written⟩ := brings (atrStored s v h none)
      have path := quietPath q
      refine ⟨_, only none, stored none, ?_⟩
      rw [runs]
      exact path.demotes (((only none).getCourse ..).trans path.alone.course)
        ((congrArg _ ((only none).blockCtx _)).trans path.context) pure hid written

end Sys2Proof.Machine

/-!
SUPPORT and PROOF. The classes that combine lanes and the transforms that write registers: each leaves a long write of its value
pending (R183 to R192, R212).
-/

namespace Sys2Proof.Machine

/-! ### Long results of an instruction that only computes -/

/-- A long instruction that nothing stops leaves the results it computes pending, those that reach no lane left out (R84). -/
theorem runLong_longLeaves {s : State} {v : View} {k : Course} {i : Instr} {brings : List RegWrite → Prop}
    (f : View → List RegWrite × FpFlags) (h : Issuing s v k) (hs : Unstopped s v i)
    (hb : brings ((f v).1.filter writesLane)) : LongLeaves s v k (runLong i s f) i (f v).2 brings := by
  obtain ⟨w, k', pure, id, begun, writes, leaves⟩ := runLong_eq f h hs
  exact ⟨w, k', pure, id, begun, writes ▸ hb, leaves, unitLeaves_sameMemory (idTaken s) ..⟩

/-- A result of one register that lands later (R59, R84). -/
theorem written_filter_perLane (k : Course) (v : View) (d : RegName) (f : Nat → Word) :
    Written k (applyWrites k ((perLane v d f).filter writesLane)) (v.dest d) [(d, f)] := by
  have every : applyWrites k ((perLane v d f).filter writesLane) = applyWrites k (perLane v d f) :=
    applyWrites_filter k _ (prd_destWrite d (v.dest d) f)
  exact every ▸ written_perLane k v d f

/-- A result in a predicate that lands later (R58, R59, R84). -/
theorem predWritten_filter_predLane (k : Course) (v : View) (p : PredName) (f : Nat → Bool) :
    PredWritten k (applyWrites k ((predLane v p f).filter writesLane)) v.exe p f := by
  rw [applyWrites_filter k _ (prd_predLane v p f)]
  exact predWritten_predLane k v p f

/-! ### Source lanes (R183, R188, R189) -/

/-- What a shuffle gives lane `l`: A of the source lane that `source` names, or the lane's own A where it names none. -/
theorem runShuffle_eq {i : Instr} {d : RegName} {a b : Src} {s : State} {source : Nat → Nat → Nat → Nat → Option Nat}
    {f : View → Nat → Word} (value : ∀ v l, f v l =
      (source v.k.tilep (tileFirst v.k.tilep l) l (readReg v.k b.reg l).toNat).elim (readReg v.k a.reg l) (sourceLane v a)) :
    runShuffle i d a b s source = runLong i s (fun v => (perLane v d (f v), 0)) := by
  refine congrArg (runLong i s) (funext fun v => congrArg (perLane v d · , 0) (funext fun l => ?_))
  rw [value v l, show tileBase = tileFirst from rfl]
  cases source v.k.tilep (tileFirst v.k.tilep l) l (readReg v.k b.reg l).toNat <;> rfl

/-! ### What each instruction writes -/

/-- A cross-lane instruction or a transform of one register makes no check of its own, and runs as a long instruction whose
lanes take its value (R184, R187 to R192, R212). -/
theorem exec_of_xlResult {i : Instr} {d : RegName} {f : View → Nat → Word} {g : View → FpFlags}
    (h : xlResult i = some (d, f, g)) :
    plainChecks i = true ∧ ∀ s, exec i s = runLong i s (fun v => (perLane v d (f v), g v)) := by
  cases i with
  | voteBallot | redx | scan | matchLanes | xfmCrc32c | xfmHash =>
    obtain ⟨rfl, rfl, rfl⟩ := h
    exact ⟨rfl, fun _ => rfl⟩
  | shfi d a b =>
    obtain ⟨rfl, rfl, rfl⟩ := h
    exact ⟨rfl, fun s => show execShfi d a b s = _ from runShuffle_eq fun _ _ => rfl⟩
  | shfx d a b =>
    obtain ⟨rfl, rfl, rfl⟩ := h
    exact ⟨rfl, fun s => show execShfx d a b s = _ from runShuffle_eq fun _ _ => rfl⟩
  | shfu d a b =>
    obtain ⟨rfl, rfl, rfl⟩ := h
    exact ⟨rfl, fun s => show execShfu d a b s = _ from runShuffle_eq fun v l => by dsimp only; split <;> rfl⟩
  | shfd d a b =>
    obtain ⟨rfl, rfl, rfl⟩ := h
    exact ⟨rfl, fun s => show execShfd d a b s = _ from runShuffle_eq fun v l => by dsimp only; split <;> rfl⟩
  | qsw d a op =>
    obtain ⟨rfl, rfl, rfl⟩ := h
    refine ⟨rfl, fun s => ?_⟩
    cases op <;> rfl
  | _ => cases h

/-- A vote that writes a predicate makes no check of its own, and runs as a long instruction whose lanes take its value
(R187). -/
theorem exec_of_voteResult {i : Instr} {p : PredName} {f : View → Nat → Bool} (h : voteResult i = some (p, f)) :
    plainChecks i = true ∧ ∀ s, exec i s = runLong i s (fun v => (predLane v p (f v), 0)) := by
  cases i with
  | voteAny | voteAll =>
    obtain ⟨rfl, rfl⟩ := Prod.mk.inj (Option.some.inj h)
    exact ⟨rfl, fun _ => rfl⟩
  | voteUni pd ps =>
    obtain ⟨rfl, rfl⟩ := Prod.mk.inj (Option.some.inj h)
    refine ⟨rfl, fun s => ?_⟩
    show execVoteUni pd ps s = _
    simp only [execVoteUni, runVote, List.not_any_eq_all_not]
  | _ => cases h

/-! ### XFM.sort (R212) -/

/-- The registers of a range are written in the same lanes as its first: one outside the bank is not written at all. -/
theorem perLane_regPlus (v : View) (d : RegName) (j : Nat) (f : Nat → Word) :
    perLane v (regPlus d j) f = destWrite (regPlus d j) (v.dest d) f := by
  cases d with
  | v n | s n =>
    unfold regPlus
    dsimp only
    split <;> rfl
  | sz => rfl

/-- The sorted words land in the range at D, in ascending order. -/
theorem written_sorted (k : Course) (v : View) (d : RegName) (n : Nat) (ws : Nat → List Word) :
    Written k (applyWrites k (((List.range n).flatMap (fun j =>
        perLane v (regPlus d j) (fun l => (ws l).getD j 0#32))).filter writesLane)) (v.dest d)
      ((List.range n).map (fun j => (regPlus d j, fun l => (ws l).getD j 0#32))) := by
  simp only [perLane_regPlus]
  exact written_flat k (v.dest d) n (regPlus d) (fun j l => (ws l).getD j 0#32)

/-! ### Cross-lane instructions and transforms begin a long write -/

/-- Settles O15, from the value that each instruction computes. -/
theorem crossLaneInstructionsBeginALongWrite : Obligations.CrossLaneInstructionsBeginALongWrite := by
  unfold Obligations.CrossLaneInstructionsBeginALongWrite
  intro s v k i d f g h hz hf
  obtain ⟨plain, runs⟩ := exec_of_xlResult hf
  rw [runs s]
  exact runLong_longLeaves _ h (plain_stop plain hz) (fun k0 => written_filter_perLane k0 v d (f v))

/-- Settles O16, from the words that XFM.sort writes and the value that each vote computes. -/
theorem sortsAndVotesBeginALongWrite : Obligations.SortsAndVotesBeginALongWrite := by
  unfold Obligations.SortsAndVotesBeginALongWrite
  refine ⟨fun s v k d a n h hz => ?sort, fun s v k i p f h hz hf => ?vote⟩
  case sort =>
    exact runLong_longLeaves _ h (plain_stop rfl hz)
      (fun k0 => written_sorted k0 v d (n.toNat + 1) (fun l => sortWords (xfmWords v a n l)))
  case vote =>
    obtain ⟨plain, runs⟩ := exec_of_voteResult hf
    rw [runs s]
    exact runLong_longLeaves _ h (plain_stop plain hz) (fun k0 => predWritten_filter_predLane k0 v p (f v))

end Sys2Proof.Machine

/-!
PROOF. What the reset state shows (R344, R391, R392).
-/

namespace Sys2Proof.Machine

/-- Settles O8, by evaluating the fields of the reset state, those of each partition as a partition begins. -/
theorem resetShowsTheValuesOfTheRegisterTables : Obligations.ResetShowsTheValuesOfTheRegisterTables := by
  unfold Obligations.ResetShowsTheValuesOfTheRegisterTables
  have part : ∀ p : BitVec 3, getPart State.reset p = Partition.reset := fun _ => rfl
  dsimp only
  simp only [part]
  decide

end Sys2Proof.Machine

/-!
SUPPORT and PROOF. SWAIT: what stops it, and the acquire that it ends with (R210, R289).
-/

namespace Sys2Proof.Machine

section

variable {s : State} {v : View} {strm : BitVec 4}

theorem uniformStop_swait (alone : lone v.u = true) (hz : NoHazard v (.swait strm)) : uniformStop s v (.swait strm) = none := by
  unfold uniformStop
  simp [hz alone]

/-- The commands of the stream that the issuing course has outstanding (R210). -/
def streamCommands (s : State) (v : View) (strm : BitVec 4) : List Nat :=
  openCommands s v.u.blk v.u.course (fun c => c.strm == strm.toNat)

/-- SWAIT waits for the commands of its stream, or takes the first error of one (R210). -/
theorem ownStop_swait (hn : v.never = false) : ownStop s v (.swait strm) =
    if v.p.waited.contains v.u.pos ∨ streamCommands s v strm = [] then
      (engStop v.k (fun e => e.strm == strm.toNat)).map .fault
    else some (.hold (.commands (streamCommands s v strm) [])) := by
  have waits : commandHold s v false (fun c => c.strm == strm.toNat) =
      if v.p.waited.contains v.u.pos ∨ streamCommands s v strm = [] then none
      else some (.hold (.commands (streamCommands s v strm) [])) := by
    unfold commandHold streamCommands
    cases v.p.waited.contains v.u.pos <;> simp
  unfold ownStop
  simp only [hn, Bool.false_eq_true, if_false, waits]
  by_cases goes : v.p.waited.contains v.u.pos = true ∨ streamCommands s v strm = []
  · rw [if_pos goes, if_pos goes]
  · rw [if_neg goes, if_neg goes]

/-- No error of another stream stops a SWAIT. -/
theorem engStop_other {k : Course} (none_of : ∀ e ∈ k.engErrs, e.strm ≠ strm.toNat) :
    engStop k (fun e => e.strm == strm.toNat) = none := by
  rw [engStop, Option.map_eq_none_iff, List.find?_eq_none]
  exact fun e he => by simpa using none_of e he

theorem engAcquire_onlyMemory (s : State) (v : View) (p : Nat → Bool) : OnlyMemory s (engAcquire s v p) := acquire_onlyMemory ..

/-- The acquire of a course that no command has released to drops no line (R210, R294). -/
theorem l1_engAcquire_nothing (p : Nat → Bool) (none_released : v.k.engScopes = []) :
    (getCore (engAcquire s v p) v.b.core).l1 = (getCore s v.b.core).l1 := by
  rw [engAcquire, none_released, getCore_acquire]
  exact List.filter_eq_self.mpr fun y _ => Bool.or_true _

variable (h : IssuingAlone s v) (hz : NoHazard v (.swait strm))

include h hz

theorem exec_swait (hn : v.never = false) (own : ownStop s v (.swait strm) = none) : exec (.swait strm) s =
    .next (unitPasses (engAcquire s v (fun x => x == strm.toNat)) v (.swait strm) v.k) := by
  have unstopped : Unstopped s v (.swait strm) := unstopped_of_checks (uniformStop_swait h.alone hz) own rfl
  rw [← retire_passes h (engAcquire_onlyMemory ..)]
  show execSwait strm s = _
  rw [execSwait, runInstr_effect _ h.view unstopped, if_neg (by rw [hn]; exact Bool.false_ne_true)]

theorem exec_swait_never (hn : v.never = true) : exec (.swait strm) s = .next (unitPasses s v (.swait strm) v.k) := by
  have unstopped : Unstopped s v (.swait strm) := unstopped_of_checks (uniformStop_swait h.alone hz) (if_pos hn) rfl
  rw [← retire_passes h (.refl s)]
  show execSwait strm s = _
  rw [execSwait, runInstr_effect _ h.view unstopped, if_pos hn]

theorem exec_swait_waits (hn : v.never = false) (outstanding : streamCommands s v strm ≠ []) (fresh : v.p.waited = []) :
    exec (.swait strm) s = .next (holdUnit s v (.swait strm) (.commands (streamCommands s v strm) [])) := by
  have own : ownStop s v (.swait strm) = some (.hold (.commands (streamCommands s v strm) [])) := by
    rw [ownStop_swait hn, fresh, if_neg (by simpa using outstanding)]
  have stop : stopOf s v (.swait strm) = some (.hold (.commands (streamCommands s v strm) [])) := by
    rw [stopOf, uniformStop_swait h.alone hz]
    exact (laneStop_own s rfl).trans own
  show execSwait strm s = _
  rw [execSwait, runInstr_cases _ _ h.view, if_pos h.alone, stop]

end

/-- Settles O36: a wait for the commands of the stream, then the acquire of what they have released. -/
theorem swaitWaitsForItsStream : Obligations.SwaitWaitsForItsStream := by
  unfold Obligations.SwaitWaitsForItsStream
  intro s v strm h hz
  refine ⟨exec_swait_never h hz, exec_swait_waits h hz, fun hn done no_errors => ?goesOn⟩
  have own : ownStop s v (.swait strm) = none := by
    rw [ownStop_swait hn, if_pos (.inr done)]
    exact Option.map_eq_none_iff.mpr (engStop_other no_errors)
  refine ⟨_, exec_swait h hz hn own, engAcquire_onlyMemory .., acquire_sameMemory .., ?stores, ?lines, l1_engAcquire_nothing _⟩
  case stores => rw [engAcquire, getCore_acquire]
  case lines =>
    rw [engAcquire, getCore_acquire]
    exact fun y hy => (List.mem_filter.mp hy).1

end Sys2Proof.Machine

/-!
SUPPORT and PROOF. The issue of CPY, GATH and EPI (R193 to R195): a command enters the table, the engine takes it, and the path
that issued it parks or goes on.
-/

namespace Sys2Proof.Machine

/-! ### What an issue of a command can change -/

/-- `t` is `s` but for its courses and the issuing unit. -/
def CoursesOnly (s t : State) : Prop := t = { s with courses := t.courses, issue := t.issue }

/-- `t` is `s` but for its courses, its commands, the ids given out and the issuing unit. -/
def IssueOnly (s t : State) : Prop :=
  t = { s with courses := t.courses, commands := t.commands, nextId := t.nextId, issue := t.issue }

theorem CoursesOnly.refl (s : State) : CoursesOnly s s := rfl

theorem CoursesOnly.trans {a b c : State} (h : CoursesOnly a b) (g : CoursesOnly b c) : CoursesOnly a c := by
  rw [CoursesOnly, g, h]

theorem CoursesOnly.issueOnly {s t : State} (h : CoursesOnly s t) : IssueOnly s t := by rw [IssueOnly, h]

theorem IssueOnly.trans {a b c : State} (h : IssueOnly a b) (g : IssueOnly b c) : IssueOnly a c := by
  rw [IssueOnly, g, h]

theorem CoursesOnly.commands {s t : State} (h : CoursesOnly s t) : t.commands = s.commands := by rw [h]

theorem CoursesOnly.blocks {s t : State} (h : CoursesOnly s t) : t.blocks = s.blocks := by rw [h]

theorem CoursesOnly.getCmd {s t : State} (h : CoursesOnly s t) (j : Nat) : getCmd t j = getCmd s j := by
  rw [Machine.getCmd, h.commands, Machine.getCmd]

theorem IssueOnly.sameMemory {s t : State} (h : IssueOnly s t) : SameMemory s t := by
  rw [h]
  exact .of_eq rfl rfl rfl

theorem CoursesOnly.setIssue {s t : State} (h : CoursesOnly s t) (u : Option Issue) : CoursesOnly s { t with issue := u } := by
  rw [CoursesOnly, h]

theorem setCourse_coursesOnly (s : State) (b c : Nat) (k : Course) : CoursesOnly s (setCourse s b c k) := rfl

theorem updCourse_coursesOnly (s : State) (b c : Nat) (f : Course → Course) : CoursesOnly s (updCourse s b c f) := by
  unfold updCourse
  split <;> rfl

theorem updPath_coursesOnly (s : State) (b c slot : Nat) (f : Path → Path) : CoursesOnly s (updPath s b c slot f) :=
  updCourse_coursesOnly ..

theorem mapPaths_coursesOnly (s : State) (b : Nat) (f : Course → Path → Path) : CoursesOnly s (mapPaths s b f) := by
  rw [mapPaths_eq]
  rfl

theorem afterIssue_coursesOnly (s : State) (u : Issue) (id : Nat) (cont : Bool) : CoursesOnly s (afterIssue s u id cont) := by
  unfold afterIssue
  split
  · exact updPath_coursesOnly ..
  · exact .refl s

theorem retire_coursesOnly {s : State} {v : View} (stays : v.u.demotes = false) (i : Instr) (fl : FpFlags) :
    CoursesOnly s (retire s v.u i fl) := by
  unfold retire endUnit
  simp only [stays, Bool.false_eq_true, if_false]
  split
  · exact (updCourse_coursesOnly ..).setIssue none
  · exact (CoursesOnly.refl s).setIssue _

theorem mapPaths_course (s : State) (b : Nat) (f : Course → Path → Path) (n : Nat) :
    getCourse (mapPaths s b f) b n = (getCourse s b n).map (fun k => bothPaths (f k) k) ∨
      getCourse (mapPaths s b f) b n = getCourse s b n := by
  have nodup : (blockCourses s b).Nodup := by
    unfold blockCourses
    split
    · exact List.nodup_range
    · exact List.nodup_nil
  rw [mapPaths, getCourse_foldl_updCourse _ _ _ _ nodup]
  split
  · exact .inl rfl
  · exact .inr rfl

/-! ### A command enters the table and is taken (R195) -/

/-- The machine with a command at the end of its table. -/
def queued (s : State) (c : Command) : State := setCmd { s with nextId := s.nextId + 1 } s.nextId c

theorem queueCommand_eq (s : State) (c : Command) : queueCommand s c = (s.nextId, queued s c) := rfl

theorem queued_issueOnly (s : State) (c : Command) : IssueOnly s (queued s c) := rfl

theorem getCmd_queued_self (s : State) (c : Command) : getCmd (queued s c) s.nextId = some c := getCmd_setCmd_self ..

theorem getCmd_queued_ne {s : State} {j : Nat} (hj : j ≠ s.nextId) (c : Command) : getCmd (queued s c) j = getCmd s j :=
  find?_put_ne _ _ hj

/-- The path of an accepted command's issuer goes on with its issue. -/
def wakeAccepted (id : Nat) (p : Path) : Path := match p.park with
  | .acceptance i _ => if i = id then { p with park := .rejoin } else p
  | _ => p

theorem wakeAccepted_running {p : Path} (running : p.park = .running) (id : Nat) : wakeAccepted id p = p := by
  unfold wakeAccepted
  rw [running]

/-- The machine with a command marked as accepted. -/
def marked (s : State) (id : Nat) (c : Command) : State :=
  setCmd { s with nextId := s.nextId + 1 } id { c with accepted := true, order := s.nextId }

/-- The engine takes a command of one course (R195). -/
theorem acceptCmd_alone {s : State} {id : Nat} {c : Command} (there : getCmd s id = some c) (alone : c.members = []) :
    acceptCmd s id = mapPaths (marked s id c) c.blk (fun _ => wakeAccepted id) := by
  have no_team : c.members.isEmpty = true := by
    rw [alone]
    rfl
  unfold acceptCmd
  simp only [there, newId, no_team, if_true]
  rfl

theorem acceptCmd_issueOnly {s : State} {id : Nat} {c : Command} (there : getCmd s id = some c) (alone : c.members = []) :
    IssueOnly s (acceptCmd s id) := by
  rw [acceptCmd_alone there alone]
  exact IssueOnly.trans (b := marked s id c) rfl (mapPaths_coursesOnly ..).issueOnly

theorem getCmd_acceptCmd {s : State} {id : Nat} {c : Command} (there : getCmd s id = some c) (alone : c.members = []) :
    getCmd (acceptCmd s id) id = some { c with accepted := true, order := s.nextId } ∧
      ∀ j, j ≠ id → getCmd (acceptCmd s id) j = getCmd s j := by
  rw [acceptCmd_alone there alone]
  refine ⟨?_, fun j hj => ?_⟩
  · exact ((mapPaths_coursesOnly ..).getCmd id).trans (getCmd_setCmd_self ..)
  · exact ((mapPaths_coursesOnly ..).getCmd j).trans (find?_put_ne _ _ hj)

/-- No table counts more of what a new entry is not. -/
theorem filter_put_length_le {α : Type} (p : Nat × α → Bool) (m : Assoc α) {k : Nat} {a : α} (hp : p (k, a) = false) :
    ((put m k a).filter p).length ≤ (m.filter p).length := by
  induction m with
  | nil => simp [put, hp]
  | cons e t ih =>
    obtain ⟨x, w⟩ := e
    unfold put
    have drop : (t.filter p).length ≤ (((x, w) :: t).filter p).length := (List.sublist_cons_self ..).filter p |>.length_le
    split
    · rw [List.filter_cons, hp]
      exact drop
    · split
      · rw [List.filter_cons, hp]
        exact le_refl _
      · simp only [List.filter_cons]
        split
        · exact Nat.succ_le_succ ih
        · exact ih

/-- An engine that is not full takes a new command of the block at once (R22, R195). -/
theorem acceptable_queued {s : State} {c : Command} (new : c.accepted = false) (room : engineFull s c.blk c.op = false) :
    acceptable (queued s c) s.nextId c = true := by
  simp only [engineFull, Bool.or_eq_false_iff, Bool.not_eq_false', decide_eq_true_eq, List.any_eq_false, Bool.and_eq_true,
    Bool.not_eq_true', beq_iff_eq, not_and] at room
  obtain ⟨below, no_earlier⟩ := room
  have count : engineCount (queued s c) (cmdCore (queued s c) c) (engineKind c.op) ≤
      engineCount s (blockCore s c.blk) (engineKind c.op) := filter_put_length_le _ s.commands (by simp [new])
  simp only [acceptable, new, Bool.not_false, Bool.true_and, Bool.and_eq_true, decide_eq_true_eq, List.all_eq_true]
  refine ⟨lt_of_le_of_lt count below, fun e he => ?_⟩
  rcases mem_put he with rfl | he
  · simp
  · have := no_earlier e he
    cases accepted : e.2.accepted <;> simp_all

/-- A new command that the engine takes at once. -/
theorem addCommand_room {s : State} {c : Command} (new : c.accepted = false) (room : engineFull s c.blk c.op = false) :
    addCommand s c = (s.nextId, acceptCmd (queued s c) s.nextId) := by
  unfold addCommand
  rw [queueCommand_eq]
  simp only [acceptable_queued new room, if_true]

/-! ### The issuing path goes on (R195) -/

/-- A course whose paths alone may differ from those of `k`. -/
def PathsOnly (k k' : Course) : Prop := k' = { k with path0 := k'.path0, path1 := k'.path1 }

theorem pathsOnly_bothPaths (f : Path → Path) (k : Course) : PathsOnly k (bothPaths f k) := rfl

theorem pathsOnly_setPath (k : Course) (slot : Nat) (p : Option Path) : PathsOnly k (setPath k slot p) := by
  unfold setPath
  split <;> rfl

theorem PathsOnly.trans {a b c : Course} (h : PathsOnly a b) (g : PathsOnly b c) : PathsOnly a c := by
  rw [PathsOnly, g, h]

theorem PathsOnly.readReg {k k' : Course} (h : PathsOnly k k') (r : RegName) (l : Nat) : readReg k' r l = readReg k r l := by
  rw [h]
  rfl

theorem PathsOnly.spends {k k' : Course} (h : PathsOnly k k') (l : List Nat) (r : RegName) (x : Nat) :
    Machine.readReg (spendRegs k' l) r x = Machine.readReg (spendRegs k l) r x :=
  spend_congr l k' k (by rw [h]; exact ⟨rfl, rfl, rfl, rfl⟩) r x

/-- What a course and its path stand at once a unit has retired. -/
theorem getCourse_retire {t : State} {v : View} {k : Course} {p : Path} (stays : v.u.demotes = false) (i : Instr)
    (course : getCourse t v.u.blk v.u.course = some k) (path : getPath k v.u.slot = some p) :
    ∃ k' p', getCourse (retire t v.u i 0) v.u.blk v.u.course = some k' ∧ getPath k' v.u.slot = some p' ∧ p'.park = p.park ∧
      ∀ r l, readReg k' r l = readReg (if v.u.last then spendRegs k (v.u.spends ++ spends i) else k) r l := by
  rw [retire_eq i 0 course stays]
  by_cases last : v.u.last = true
  · simp only [last, if_true]
    have there : getPath (unitCourse (gathered v.u i 0) true k) v.u.slot = some _ :=
      (path_unit (gathered v.u i 0) k).trans (congrArg _ path)
    exact ⟨_, _, getCourse_setCourse_self .., there, rfl, fun r l => reg_unit ..⟩
  · simp only [last, Bool.false_eq_true, if_false]
    exact ⟨k, p, course, path, rfl, fun _ _ => rfl⟩

/-- The issuer of a command parks for its completion, or goes on. -/
theorem getCourse_issued {t : State} {v : View} {k k1 : Course} {p : Path} (stays : v.u.demotes = false) (i : Instr) (id : Nat)
    (cont : Bool) (course : getCourse t v.u.blk v.u.course = some k1) (same : PathsOnly k k1) (path : getPath k1 v.u.slot = some p)
    (running : p.park = .running) :
    ∃ k' p', getCourse (retire (afterIssue t v.u id cont) v.u i 0) v.u.blk v.u.course = some k' ∧
      getPath k' v.u.slot = some p' ∧ p'.park = (if cont then .continuation id else .running) ∧
      ∀ r l, readReg k' r l = readReg (if v.u.last then spendRegs k (v.u.spends ++ spends i) else k) r l := by
  have reads : ∀ {k2 : Course}, PathsOnly k k2 → ∀ r l,
      readReg (if v.u.last then spendRegs k2 (v.u.spends ++ spends i) else k2) r l =
        readReg (if v.u.last then spendRegs k (v.u.spends ++ spends i) else k) r l := fun hk r l => by
    split
    · exact hk.spends ..
    · exact hk.readReg ..
  cases cont with
  | false =>
    obtain ⟨k', p', hk, hp, park, regs⟩ := getCourse_retire stays i course path
    exact ⟨k', p', hk, hp, park.trans running, fun r l => (regs r l).trans (reads same r l)⟩
  | true =>
    have parked : afterIssue t v.u id true = setCourse t v.u.blk v.u.course
        (setPath k1 v.u.slot (some { p with park := .continuation id })) := by
      show updPath t v.u.blk v.u.course v.u.slot _ = _
      rw [updPath_of_get course, path, Option.map_some]
    rw [parked]
    obtain ⟨k', p', hk, hp, park, regs⟩ := getCourse_retire stays i (getCourse_setCourse_self t v.u.blk v.u.course _)
      (getPath_setPath_self ..)
    exact ⟨k', p', hk, hp, park, fun r l => (regs r l).trans (reads (same.trans (pathsOnly_setPath ..)) r l)⟩

/-! ### A path that waits (R83, R249) -/

/-- The machine once no unit issues. -/
def unissued (s : State) : State := { s with issue := none }

/-- A path that waits in its place, with what its unit has read. -/
def waitingPath (u : Issue) (park : Park) (q : Path) : Path :=
  { q with park := park, latched := if q.latched.isSome then q.latched else some (latchOf u.before), waited := u.pos :: q.waited }

/-- The course of a path that waits in its place. -/
def waitingCourse (u : Issue) (park : Park) (k : Course) : Course :=
  let k := setPath k u.slot ((getPath k u.slot).map (waitingPath u park))
  { (if u.waits || u.wait then markWait k else k) with preferred := 1 - u.slot }

theorem getPath_waitingCourse {u : Issue} {k : Course} {p : Path} (path : getPath k u.slot = some p) (park : Park) :
    getPath (waitingCourse u park k) u.slot = some (waitingPath u park p) := by
  have stands : getPath (waitingCourse u park k) u.slot =
      getPath (setPath k u.slot ((getPath k u.slot).map (waitingPath u park))) u.slot := by
    unfold waitingCourse
    dsimp only
    split <;> rfl
  rw [stands, getPath_setPath_self, path, Option.map_some]

theorem readReg_waitingCourse (u : Issue) (park : Park) (k : Course) (r : RegName) (l : Nat) :
    readReg (waitingCourse u park k) r l = readReg k r l := by
  refine Eq.trans ?_ (reg_setPath k u.slot ((getPath k u.slot).map (waitingPath u park)) r l)
  unfold waitingCourse
  dsimp only
  split <;> rfl

/-- The machine once a path of it waits in its place. -/
theorem holds_waitingCourse {t : State} {b c : Nat} {k : Course} (course : getCourse t b c = some k) (u : Issue) (park : Park) :
    updCourse (updPath t b c u.slot (waitingPath u park)) b c
      (fun k => { (if u.waits || u.wait then markWait k else k) with preferred := 1 - u.slot }) =
    setCourse t b c (waitingCourse u park k) := by
  rw [updPath_of_get course, updCourse_of_get (getCourse_setCourse_self ..), setCourse_setCourse]
  rfl

/-- A wait for acceptance receives the command, and parks (R195). -/
theorem holdUnit_acceptance_eq (s : State) (v : View) (i : Instr) (team : Bool) :
    holdUnit s v i (.acceptance 0 team) =
      let r := receiveCommand (unissued s) v i team
      updCourse (updPath r.2 v.u.blk v.u.course v.u.slot (waitingPath v.u (.acceptance r.1 team))) v.u.blk v.u.course
        (fun k => { (if v.u.waits || v.u.wait then markWait k else k) with preferred := 1 - v.u.slot }) := rfl

/-! ### CPY, GATH and EPI -/

/-- CPY, GATH and EPI run as the issue of a command of their course (R193). -/
theorem exec_issueCommand {i : Instr} {op : Nat} {c : RecName} {strm : BitVec 4} {cont : Bool}
    (hi : engineOf i = some (op, c, strm, cont)) (hop : op = 0x70 ∨ op = 0x71 ∨ op = 0x75) (s : State) :
    exec i s = runInstr i s (issueCommand i op c strm cont s) := by
  cases i with
  | cpy | gath | epi =>
    simp only [engineOf, Option.some.injEq, Prod.mk.injEq] at hi
    obtain ⟨rfl, rfl, rfl, rfl⟩ := hi
    rfl
  | mma | mml =>
    simp only [engineOf, Option.some.injEq, Prod.mk.injEq] at hi
    obtain ⟨rfl, -⟩ := hi
    omega
  | _ => cases hi

/-- Every card but that of MML has eight words (R193). -/
theorem cardSize_course {op : Nat} (hop : op = 0x70 ∨ op = 0x71 ∨ op = 0x75) : cardSize op = 8 := by
  rcases hop with rfl | rfl | rfl <;> rfl

section

variable {s : State} {v : View} {k : Course} {i : Instr} {op : Nat} {c : RecName} {strm : BitVec 4} {cont : Bool} {p : Path}
  (h : Issuing s v k)

include h

theorem exec_command_never (hi : engineOf i = some (op, c, strm, cont)) (hop : op = 0x70 ∨ op = 0x71 ∨ op = 0x75)
    (unstopped : Unstopped s v i) (hn : v.never = true) : exec i s = .next (unitPasses s v i k) := by
  rw [exec_issueCommand hi hop, runInstr_effect _ h.view unstopped, issueCommand, if_pos hn, retire_eq _ _ h.course h.stays]
  rfl

/-- Where a command has waited until the engine has taken it, its issue ends with no second command (R195). -/
theorem exec_command_taken (hi : engineOf i = some (op, c, strm, cont)) (hop : op = 0x70 ∨ op = 0x71 ∨ op = 0x75)
    (unstopped : Unstopped s v i) (hn : v.never = false) {id : Nat} (taken : takenCommand s v op = some id) :
    exec i s = .next (retire (afterIssue s v.u id cont) v.u i 0) := by
  rw [exec_issueCommand hi hop, runInstr_effect _ h.view unstopped, issueCommand, if_neg (by rw [hn]; exact Bool.false_ne_true), taken]

/-- A first issue puts its command in the table, and the engine with room takes it at once (R194, R195). -/
theorem exec_command_room (hi : engineOf i = some (op, c, strm, cont)) (hop : op = 0x70 ∨ op = 0x71 ∨ op = 0x75)
    (unstopped : Unstopped s v i) (hn : v.never = false) (first : v.p.waited.contains v.u.pos = false)
    (room : engineFull s v.u.blk op = false) : exec i s = .next (retire (afterIssue
      (acceptCmd (queued s (courseCommand s v op c strm cont)) s.nextId) v.u s.nextId cont) v.u i 0) := by
  have none_taken : takenCommand s v op = none := by
    rw [takenCommand, first]
    rfl
  rw [exec_issueCommand hi hop, runInstr_effect _ h.view unstopped, issueCommand, if_neg (by rw [hn]; exact Bool.false_ne_true),
    none_taken]
  dsimp only
  rw [addCommand_room (c := courseCommand s v op c strm cont) rfl room]

/-- Where the engine is full the command stands unaccepted, and the path waits for its acceptance (R22, R195). -/
theorem exec_command_full (hi : engineOf i = some (op, c, strm, cont)) (hop : op = 0x70 ∨ op = 0x71 ∨ op = 0x75)
    (alone : lone v.u = true) (full : stopOf s v i = some (.hold (.acceptance 0 false))) :
    exec i s = .next (holdUnit s v i (.acceptance 0 false)) := by
  rw [exec_issueCommand hi hop, runInstr_cases _ _ h.view, if_pos alone, full]

/-- A wait for acceptance leaves the command in the table and parks the path. -/
theorem holdUnit_acceptance (hi : engineOf i = some (op, c, strm, cont)) : holdUnit s v i (.acceptance 0 false) =
    setCourse (queued (unissued s) (courseCommand s v op c strm cont)) v.u.blk v.u.course
      (waitingCourse v.u (.acceptance s.nextId false) k) := by
  have received : receiveCommand (unissued s) v i false = (s.nextId, queued (unissued s) (courseCommand s v op c strm cont)) := by
    simp only [receiveCommand, hi]
    rfl
  rw [holdUnit_acceptance_eq, received]
  exact holds_waitingCourse (t := queued (unissued s) (courseCommand s v op c strm cont)) h.course ..

end

/-- Settles O35: a command is put in the table and taken, or stands there until it is, and its issuer parks or goes on. -/
theorem engineCommandsAreIssued : Obligations.EngineCommandsAreIssued := by
  unfold Obligations.EngineCommandsAreIssued
  intro s v k i op c strm cont p h hi hop path running _
  have card : courseCommand s v op c strm cont = newCommand v.u.blk op v.u.course (cardWords v.k c 8)
      (cardRecord v.k op (cardWords v.k c 8)) strm.toNat cont [] 0 (packPos (blockCode s v.u.blk) v.p.pc v.u.pos) := by
    rw [courseCommand, cardSize_course hop]
    rfl
  refine ⟨exec_command_never h hi hop, fun unstopped hn first room => ?room, fun alone full => ?full,
    fun id unstopped hn taken => ?taken⟩
  case room =>
    rw [← card]
    obtain ⟨cmd, hcmd⟩ : ∃ cmd, courseCommand s v op c strm cont = cmd := ⟨_, rfl⟩
    have alone : cmd.members = [] := by
      rw [← hcmd]
      rfl
    have own : cmd.blk = v.u.blk := by
      rw [← hcmd]
      rfl
    have there := getCmd_queued_self s cmd
    have left := ((afterIssue_coursesOnly (acceptCmd (queued s cmd) s.nextId) v.u s.nextId cont).trans
      (retire_coursesOnly h.stays i 0))
    obtain ⟨self, others⟩ := getCmd_acceptCmd there alone
    have course : getCourse (queued s cmd) v.u.blk v.u.course = some k := h.course
    have accepted := acceptCmd_alone there alone
    rw [own] at accepted
    rw [exec_command_room h hi hop unstopped hn first room, hcmd]
    refine ⟨_, rfl, ?_, fun j hj => ?_, ?_, ?_⟩
    · exact ((queued_issueOnly s cmd).trans ((acceptCmd_issueOnly there alone).trans left.issueOnly)).sameMemory
    · exact (left.getCmd j).trans ((others j hj).trans (getCmd_queued_ne hj cmd))
    · exact (left.getCmd _).trans self
    · rw [accepted]
      rcases mapPaths_course (marked (queued s cmd) s.nextId cmd) v.u.blk (fun _ => wakeAccepted s.nextId) v.u.course with
        moved | stayed
      · refine getCourse_issued h.stays i s.nextId cont (moved.trans (congrArg _ course)) (pathsOnly_bothPaths ..) ?_ running
        rw [getPath_bothPaths, path, Option.map_some, wakeAccepted_running running]
      · exact getCourse_issued h.stays i s.nextId cont (stayed.trans course) rfl path running
  case full =>
    rw [exec_command_full h hi hop alone full, holdUnit_acceptance h hi, ← card]
    refine ⟨_, _, _, rfl, ?_, fun j hj => ?_, ?_, getCourse_setCourse_self .., getPath_waitingCourse path _, rfl,
      fun r l => readReg_waitingCourse ..⟩
    · exact .of_eq rfl rfl rfl
    · exact getCmd_queued_ne (s := unissued s) hj _
    · exact getCmd_queued_self (unissued s) _
  case taken =>
    have left := (afterIssue_coursesOnly s v.u id cont).trans (retire_coursesOnly h.stays i 0)
    rw [exec_command_taken h hi hop unstopped hn taken]
    exact ⟨_, rfl, left.issueOnly.sameMemory, left.commands, getCourse_issued h.stays i id cont h.course rfl path running⟩

end Sys2Proof.Machine

/-!
SUPPORT and PROOF. The collectives of a team (R206, R266): what an arrival lists, the command that the last one creates, and
what a member counts.
-/

namespace Sys2Proof.Machine

/-! ### What an issue of a team can change -/

/-- A block whose local store is kept is no change of memory. -/
theorem setBlock_sameMemory {s : State} {n : Nat} {b b' : Block} (hb : getBlock s n = some b) (kept : b'.localMem = b.localMem) :
    SameMemory s (setBlock s n b') := by
  refine ⟨fun _ => rfl, fun _ => rfl, fun d a => ?_⟩
  by_cases hd : d = n
  · subst hd
    rw [getBlock_setBlock_self, hb, Option.map_some, Option.map_some, kept]
  · rw [getBlock_setBlock_ne _ _ hd]

/-- `t` is `s` but for its courses, its blocks and the issuing unit, and no byte of memory differs. -/
structure TeamOnly (s t : State) : Prop where
  rest : t = { s with courses := t.courses, blocks := t.blocks, issue := t.issue }
  memory : SameMemory s t

theorem TeamOnly.refl (s : State) : TeamOnly s s := ⟨rfl, .refl s⟩

theorem TeamOnly.trans {a b c : State} (h : TeamOnly a b) (g : TeamOnly b c) : TeamOnly a c :=
  ⟨by rw [g.rest, h.rest], h.memory.trans g.memory⟩

theorem TeamOnly.commands {s t : State} (h : TeamOnly s t) : t.commands = s.commands := by rw [h.rest]

theorem TeamOnly.getCmd {s t : State} (h : TeamOnly s t) (j : Nat) : getCmd t j = getCmd s j := by
  rw [Machine.getCmd, h.commands, Machine.getCmd]

theorem CoursesOnly.teamOnly {s t : State} (h : CoursesOnly s t) : TeamOnly s t := ⟨by rw [h], h.issueOnly.sameMemory⟩

theorem setBlock_teamOnly {s : State} {n : Nat} {b b' : Block} (hb : getBlock s n = some b) (kept : b'.localMem = b.localMem) :
    TeamOnly s (setBlock s n b') := ⟨rfl, setBlock_sameMemory hb kept⟩

/-- Forming a collective changes paths of its block and what the block lists. -/
theorem formCollective_teamOnly (s : State) (blk team index : Nat) : TeamOnly s (formCollective s blk team index) := by
  unfold formCollective
  split
  · exact .refl s
  next b hb =>
    dsimp only
    refine TeamOnly.trans ?_ (mapPaths_coursesOnly ..).teamOnly
    exact setBlock_teamOnly (b' := { b with collectives := _ }) hb rfl

/-! ### Counting a collective (R205, R265) -/

/-- The machine once the slices that a collective's command has still to read stand pending in the issuing path (R205). -/
def slicesPending (s : State) (v : View) (cmd : Option (Nat × Command)) : State :=
  match cmd with
  | some (id, c) =>
    if c.begun then s
    else addLong s v.u { id := id, writes := [], holds := sliceRange c.card v.b.team, kill := 0, killAll := false,
                         tag := 0, va := 0, load := false, memory := false }
  | none => s

/-- The machine once the issuing course has counted its collective. -/
def counted (s : State) (v : View) (cmd : Option (Nat × Command)) : State :=
  updCourse (slicesPending s v cmd) v.u.blk v.u.course (fun k => { k with collectives := k.collectives + 1 })

/-- A collective that every member has counted goes (R266). -/
def collectiveGone (s : State) (v : View) : State :=
  match getBlock s v.u.blk, v.k.team with
  | some b, some t =>
    if (teamCourses s v.u.blk t).all (fun c => match getCourse s v.u.blk c with
      | some k => decide (v.k.collectives < k.collectives)
      | none => true) then
      setBlock s v.u.blk { b with collectives := b.collectives.filter (fun x => !(x.team = t && x.index = v.k.collectives)) }
    else s
  | _, _ => s

theorem countCollective_eq (s : State) (v : View) (cmd : Option (Nat × Command)) :
    countCollective s v cmd = collectiveGone (counted s v cmd) v := rfl

theorem slicesPending_eq (s : State) (v : View) (cmd : Option (Nat × Command)) :
    slicesPending s v cmd = s ∨ ∃ w, slicesPending s v cmd = addLong s v.u w := by
  unfold slicesPending
  split
  · split
    · exact .inl rfl
    · exact .inr ⟨_, rfl⟩
  · exact .inl rfl

theorem counted_coursesOnly (s : State) (v : View) (cmd : Option (Nat × Command)) : CoursesOnly s (counted s v cmd) := by
  refine CoursesOnly.trans ?_ (updCourse_coursesOnly ..)
  rcases slicesPending_eq s v cmd with same | ⟨w, long⟩
  · rw [same]
    exact .refl s
  · rw [long]
    exact updCourse_coursesOnly ..

theorem beginLong_collectives (w : LongWrite) (slot : Nat) (k : Course) : (beginLong w slot k).collectives = k.collectives := by
  unfold beginLong
  split
  · unfold setPath
    dsimp only
    split <;> rfl
  · rfl

theorem getCourse_counted {s : State} {v : View} {k : Course} (course : getCourse s v.u.blk v.u.course = some k)
    (cmd : Option (Nat × Command)) :
    ∃ k', getCourse (counted s v cmd) v.u.blk v.u.course = some k' ∧ k'.collectives = k.collectives + 1 := by
  have pending : ∃ k', getCourse (slicesPending s v cmd) v.u.blk v.u.course = some k' ∧ k'.collectives = k.collectives := by
    rcases slicesPending_eq s v cmd with same | ⟨w, long⟩
    · exact ⟨k, by rw [same, course], rfl⟩
    · refine ⟨beginLong w v.u.slot k, ?_, beginLong_collectives ..⟩
      rw [long, addLong, updCourse_of_get course, getCourse_setCourse_self]
  obtain ⟨k', course', same⟩ := pending
  refine ⟨{ k' with collectives := k'.collectives + 1 }, ?_, congrArg (· + 1) same⟩
  rw [counted, updCourse_of_get course', getCourse_setCourse_self]

theorem collectiveGone_teamOnly (s : State) (v : View) : TeamOnly s (collectiveGone s v) := by
  unfold collectiveGone
  split
  next b t hb _ =>
    split
    · exact setBlock_teamOnly (b' := { b with collectives := _ }) hb rfl
    · exact .refl s
  · exact .refl s

theorem collectiveGone_courses (s : State) (v : View) : (collectiveGone s v).courses = s.courses := by
  unfold collectiveGone
  split
  · split <;> rfl
  · rfl

/-- The command of the collective that a member is counting. -/
def teamCmd (s : State) (v : View) : Option (Nat × Command) :=
  s.commands.find? (fun e => e.2.blk == v.u.blk && e.2.members.contains v.u.course && e.2.index == v.k.collectives)

/-- A member parks for the completion of its collective's command where it asks to (R206). -/
def afterTeam (s : State) (v : View) (cmd : Option (Nat × Command)) (cont : Bool) : State :=
  match cmd with
  | some (id, _) => afterIssue s v.u id cont
  | none => s

theorem joinTeam_eq (i : Instr) (cont : Bool) (s : State) (v : View) : joinTeam i cont s v =
    retire (afterTeam (collectiveGone (counted s v (teamCmd s v)) v) v (teamCmd s v) cont) v.u i 0 := rfl

theorem afterTeam_coursesOnly (s : State) (v : View) (cmd : Option (Nat × Command)) (cont : Bool) :
    CoursesOnly s (afterTeam s v cmd cont) := by
  unfold afterTeam
  split
  · exact afterIssue_coursesOnly ..
  · exact .refl s

/-- The end of a member's issue changes no command and no memory. -/
theorem joinTeam_teamOnly {v : View} (stays : v.u.demotes = false) (i : Instr) (cont : Bool) (s : State) :
    TeamOnly s (joinTeam i cont s v) := by
  rw [joinTeam_eq]
  exact (counted_coursesOnly ..).teamOnly.trans ((collectiveGone_teamOnly ..).trans
    ((afterTeam_coursesOnly ..).trans (retire_coursesOnly stays ..)).teamOnly)

theorem setPath_collectives (k : Course) (slot : Nat) (p : Option Path) : (setPath k slot p).collectives = k.collectives := by
  unfold setPath
  split <;> rfl

theorem unitCourse_collectives (u : Issue) (advance : Bool) (k : Course) :
    (unitCourse u advance k).collectives = k.collectives := by
  have spent : ∀ l, (spendRegs k l).collectives = k.collectives := fun l => by rw [onlyRegs_spendRegs k l]
  unfold unitCourse
  dsimp only
  split <;> simp [markWait, setPath_collectives, spent]

theorem getCourse_parkPath {s : State} {u : Issue} {k : Course} (course : getCourse s u.blk u.course = some k) (park : Park) :
    getCourse (parkPath s u park) u.blk u.course =
      some (setPath k u.slot ((getPath k u.slot).map (fun q => { q with park := park }))) := by
  rw [parkPath, updPath_of_get course, getCourse_setCourse_self]

/-- A member that ends its issue has counted its collective (R266). -/
theorem joinTeam_counts {s : State} {v : View} {k : Course} (stays : v.u.demotes = false) (i : Instr) (cont : Bool)
    (course : getCourse s v.u.blk v.u.course = some k) :
    ∃ k', getCourse (joinTeam i cont s v) v.u.blk v.u.course = some k' ∧ k'.collectives = k.collectives + 1 := by
  obtain ⟨k1, course1, count1⟩ := getCourse_counted course (teamCmd s v)
  have course2 : getCourse (collectiveGone (counted s v (teamCmd s v)) v) v.u.blk v.u.course = some k1 := by
    rw [getCourse, collectiveGone_courses]
    exact course1
  obtain ⟨k3, course3, count3⟩ : ∃ k3, getCourse (afterTeam (collectiveGone (counted s v (teamCmd s v)) v) v (teamCmd s v) cont)
      v.u.blk v.u.course = some k3 ∧ k3.collectives = k1.collectives := by
    unfold afterTeam afterIssue
    split
    · split
      · exact ⟨_, getCourse_parkPath course2 _, setPath_collectives ..⟩
      · exact ⟨k1, course2, rfl⟩
    · exact ⟨k1, course2, rfl⟩
  rw [joinTeam_eq, retire_eq i 0 course3 stays]
  split
  · exact ⟨_, getCourse_setCourse_self .., (unitCourse_collectives ..).trans (count3.trans count1)⟩
  · exact ⟨k3, course3, count3.trans count1⟩

/-! ### An arrival (R266) -/

/-- A collective as the arrival of a member leaves it. -/
def arrival (s : State) (v : View) (op : Nat) (c : RecName) (strm : BitVec 4) (cont : Bool) (n r : Nat) : Collective :=
  let x := (openCollective v.b v.k).getD ⟨n, v.k.collectives, [], [], 0, false, false, false, 0⟩
  if r = 0 then { x with
      arrived := x.arrived ++ [(r, op)], card := cardWords v.k c (cardSize op), strm := strm.toNat, cont := cont,
      created := !v.never, pos := packPos (blockCode s v.u.blk) v.p.pc v.u.pos }
    else { x with arrived := x.arrived ++ [(r, op)] }

/-- The block with a collective at the head of its list. -/
def listed (b : Block) (y : Collective) : Block :=
  { b with collectives := y :: b.collectives.filter (fun z => !(z.team == y.team && z.index == y.index)) }

section

variable {s : State} {v : View} {op n r : Nat} {c : RecName} {strm : BitVec 4} {cont : Bool}

theorem arrive_eq (hb : getBlock s v.u.blk = some v.b) (team : v.k.team = some n) (rank : v.k.rank = some r) :
    arrive s v op c strm cont = setBlock s v.u.blk (listed v.b (arrival s v op c strm cont n r)) := by
  unfold arrive arrival listed
  simp only [team, rank, hb]

/-- The collective of an arrival is the one that the course's next MMA or MML belongs to. -/
theorem openCollective_arrival (team : v.k.team = some n) :
    openCollective (listed v.b (arrival s v op c strm cont n r)) v.k = some (arrival s v op c strm cont n r) := by
  have own : some (arrival s v op c strm cont n r).team = v.k.team ∧ (arrival s v op c strm cont n r).index = v.k.collectives := by
    have of_open : ∀ x, (openCollective v.b v.k).getD ⟨n, v.k.collectives, [], [], 0, false, false, false, 0⟩ = x →
        some x.team = v.k.team ∧ x.index = v.k.collectives := by
      intro x hx
      cases found : openCollective v.b v.k with
      | none =>
        rw [found] at hx
        exact hx ▸ ⟨team.symm, rfl⟩
      | some z =>
        rw [found] at hx
        have := List.find?_some found
        simp only [Bool.and_eq_true, beq_iff_eq] at this
        exact hx ▸ this
    have := of_open _ rfl
    unfold arrival
    split <;> exact this
  rw [openCollective, listed, List.find?_cons_of_pos]
  simp [own]

/-- What an arrival leaves of the machine. -/
def arrivedAt (s : State) (v : View) (y : Collective) : State := setBlock s v.u.blk (listed v.b y)

theorem arrivedAt_teamOnly (hb : getBlock s v.u.blk = some v.b) (y : Collective) : TeamOnly s (arrivedAt s v y) :=
  setBlock_teamOnly (b' := listed v.b y) hb rfl

theorem getBlock_arrivedAt (s : State) (v : View) (y : Collective) : getBlock (arrivedAt s v y) v.u.blk = some (listed v.b y) :=
  getBlock_setBlock_self ..

/-- The courses of a team and the cores of blocks stay as they are when a member arrives. -/
theorem teamCourses_arrivedAt (hb : getBlock s v.u.blk = some v.b) (y : Collective) (t : Nat) :
    teamCourses (arrivedAt s v y) v.u.blk t = teamCourses s v.u.blk t := by
  have courses : blockCourses (arrivedAt s v y) v.u.blk = blockCourses s v.u.blk := by
    rw [blockCourses, getBlock_arrivedAt, blockCourses, hb]
    rfl
  rw [teamCourses, courses]
  rfl

theorem blockCore_arrivedAt (hb : getBlock s v.u.blk = some v.b) (y : Collective) (d : Nat) :
    blockCore (arrivedAt s v y) d = blockCore s d := by
  by_cases hd : d = v.u.blk
  · subst hd
    rw [blockCore, getBlock_arrivedAt, blockCore, hb]
    rfl
  · rw [blockCore, arrivedAt, getBlock_setBlock_ne _ _ hd]
    rfl

theorem engineFull_arrivedAt (hb : getBlock s v.u.blk = some v.b) (y : Collective) (blk op : Nat) :
    engineFull (arrivedAt s v y) blk op = engineFull s blk op := by
  have commands : (arrivedAt s v y).commands = s.commands := rfl
  unfold engineFull engineCount cmdCore
  simp only [blockCore_arrivedAt hb, commands]

/-- The command of a collective, as the last arrival creates it (R206). -/
def collectiveCommand (s : State) (v : View) (op n : Nat) (y : Collective) : Command :=
  newCommand v.u.blk op (rankCourse s v.u.blk n 0) y.card [] y.strm y.cont (teamCourses s v.u.blk n) y.index y.pos

theorem teamCommand_arrivedAt (hb : getBlock s v.u.blk = some v.b) (x y : Collective) :
    teamCommand (arrivedAt s v x) v op n y = collectiveCommand s v op n y := by
  unfold teamCommand collectiveCommand rankCourse
  rw [teamCourses_arrivedAt hb]

end

/-- What the engine's taking of a command leaves: the command is marked, and nothing else of the table differs. -/
theorem acceptCmd_marks {s : State} {id : Nat} {c : Command} (there : getCmd s id = some c) :
    TeamOnly (marked s id c) (acceptCmd s id) := by
  unfold acceptCmd
  simp only [there, newId]
  have woken := (mapPaths_coursesOnly (marked s id c) c.blk (fun _ p => match p.park with
    | .acceptance i _ => if i = id then { p with park := .rejoin } else p
    | _ => p)).teamOnly
  split
  · exact woken
  · split
    · exact woken.trans (formCollective_teamOnly ..)
    · exact woken

theorem acceptCmd_sameMemory {s : State} {id : Nat} {c : Command} (there : getCmd s id = some c) :
    SameMemory s (acceptCmd s id) := by
  have mark : SameMemory s (marked s id c) := .of_eq rfl rfl rfl
  exact mark.trans (acceptCmd_marks there).memory

/-- A new command, taken at once or not, is no change of memory. -/
theorem addCommand_sameMemory (s : State) (c : Command) : SameMemory s (addCommand s c).2 := by
  have queue : SameMemory s (queued s c) := (queued_issueOnly s c).sameMemory
  unfold addCommand
  rw [queueCommand_eq]
  dsimp only
  split
  · exact queue.trans (acceptCmd_sameMemory (getCmd_queued_self s c))
  · exact queue

/-! ### MMA and MML -/

/-- MMA and MML run as the issue of a team (R266). -/
theorem exec_issueTeam {i : Instr} {op : Nat} {c : RecName} {strm : BitVec 4} {cont : Bool}
    (hi : engineOf i = some (op, c, strm, cont)) (hop : op = 0x73 ∨ op = 0x74) (s : State) :
    exec i s = runInstr i s (issueTeam i op c strm cont s) := by
  cases i with
  | mma | mml =>
    simp only [engineOf, Option.some.injEq, Prod.mk.injEq] at hi
    obtain ⟨rfl, rfl, rfl, rfl⟩ := hi
    rfl
  | cpy | gath | epi =>
    simp only [engineOf, Option.some.injEq, Prod.mk.injEq] at hi
    obtain ⟨rfl, -⟩ := hi
    omega
  | _ => cases hi

section

variable {s : State} {v : View} {i : Instr} {op n r : Nat} {c : RecName} {strm : BitVec 4} {cont : Bool} (h : IssuingAlone s v)
  (hi : engineOf i = some (op, c, strm, cont)) (team : v.k.team = some n) (rank : v.k.rank = some r)

include h hi team rank

/-- A wait in the arrival park: the member arrives, and its path parks (R266). -/
theorem holdUnit_arrival : holdUnit s v i .arrival =
    setCourse (arrivedAt (unissued s) v (arrival s v op c strm cont n r)) v.u.blk v.u.course
      (waitingCourse v.u .arrival v.k) := by
  have arrived : arrive (unissued s) v op c strm cont = arrivedAt (unissued s) v (arrival s v op c strm cont n r) :=
    arrive_eq (s := unissued s) h.block team rank
  have acks : acksFor i = false := by
    cases i with
    | cpy | gath | epi | mma | mml => rfl
    | _ => cases hi
  have held : holdUnit s v i .arrival = updCourse (updPath (arrive (unissued s) v op c strm cont) v.u.blk v.u.course v.u.slot
      (waitingPath v.u .arrival)) v.u.blk v.u.course
      (fun k => { (if v.u.waits || v.u.wait then markWait k else k) with preferred := 1 - v.u.slot }) := by
    unfold holdUnit
    simp only [hi, acks]
    rfl
  rw [held, arrived]
  exact holds_waitingCourse (t := arrivedAt (unissued s) v _) h.course ..

/-- A last arrival where the engine is full: the command stands in the table, and the member parks (R22, R195). -/
theorem holdUnit_teamAcceptance : holdUnit s v i (.acceptance 0 true) =
    setCourse (queued (arrivedAt (unissued s) v (arrival s v op c strm cont n r))
      (collectiveCommand s v op n (arrival s v op c strm cont n r))) v.u.blk v.u.course
      (waitingCourse v.u (.acceptance s.nextId true) v.k) := by
  obtain ⟨y, hy⟩ : ∃ y, arrival s v op c strm cont n r = y := ⟨_, rfl⟩
  have arrived : arrive (unissued s) v op c strm cont = arrivedAt (unissued s) v y :=
    hy ▸ arrive_eq (s := unissued s) h.block team rank
  have opened : openCollective (listed v.b y) v.k = some y := hy ▸ openCollective_arrival team
  have command : teamCommand (arrivedAt (unissued s) v y) v op n y = collectiveCommand s v op n y :=
    teamCommand_arrivedAt (s := unissued s) h.block y y
  have received : receiveCommand (unissued s) v i true =
      (s.nextId, queued (arrivedAt (unissued s) v y) (collectiveCommand s v op n y)) := by
    unfold receiveCommand
    simp only [hi, arrived, getBlock_arrivedAt, Option.bind_some, opened, team, if_true, command]
    rfl
  rw [hy, holdUnit_acceptance_eq, received]
  exact holds_waitingCourse (t := queued (arrivedAt (unissued s) v y) _) h.course ..

end

/-- What the last arrival leaves before its own issue ends: the collective's command, or none (R266). -/
def teamFormed (s : State) (v : View) (op n : Nat) (y : Collective) : State :=
  if y.created then (addCommand (arrivedAt s v y) (collectiveCommand s v op n y)).2
  else formCollective (arrivedAt s v y) v.u.blk n y.index

section

variable {s : State} {v : View} {i : Instr} {op n r : Nat} {c : RecName} {strm : BitVec 4} {cont : Bool} (h : IssuingAlone s v)
  (team : v.k.team = some n) (rank : v.k.rank = some r)

include h team rank

theorem issueTeam_last (unformed : formedFor v = false) : issueTeam i op c strm cont s v =
    joinTeam i cont (teamFormed s v op n (arrival s v op c strm cont n r)) v := by
  obtain ⟨y, hy⟩ : ∃ y, arrival s v op c strm cont n r = y := ⟨_, rfl⟩
  have arrived : arrive s v op c strm cont = arrivedAt s v y := hy ▸ arrive_eq h.block team rank
  have opened : openCollective (listed v.b y) v.k = some y := hy ▸ openCollective_arrival team
  unfold issueTeam
  rw [if_neg (by rw [unformed]; exact Bool.false_ne_true), hy]
  simp only [arrived, getBlock_arrivedAt, Option.bind_some, opened, team, teamCommand_arrivedAt h.block]
  rfl

omit team rank in
theorem teamFormed_uncreated {y : Collective} (none_created : y.created = false) : TeamOnly s (teamFormed s v op n y) := by
  rw [teamFormed, if_neg (by rw [none_created]; exact Bool.false_ne_true)]
  exact (arrivedAt_teamOnly h.block y).trans (formCollective_teamOnly ..)

omit team rank in
theorem teamFormed_sameMemory (y : Collective) : SameMemory s (teamFormed s v op n y) := by
  cases created : y.created with
  | false => exact (teamFormed_uncreated h created).memory
  | true =>
    rw [teamFormed, if_pos created]
    exact (arrivedAt_teamOnly h.block y).memory.trans (addCommand_sameMemory ..)

omit team rank in
/-- With room in the engine the collective's command is taken at once, and nothing else of the table differs (R195). -/
theorem teamFormed_created {y : Collective} (created : y.created = true) (room : engineFull s v.u.blk op = false) :
    getCmd (teamFormed s v op n y) s.nextId =
        some { collectiveCommand s v op n y with accepted := true, order := s.nextId + 1 } ∧
      ∀ j, j ≠ s.nextId → getCmd (teamFormed s v op n y) j = getCmd s j := by
  obtain ⟨cmd, hcmd⟩ : ∃ cmd, collectiveCommand s v op n y = cmd := ⟨_, rfl⟩
  have new : cmd.accepted = false := hcmd ▸ rfl
  have room' : engineFull (arrivedAt s v y) cmd.blk cmd.op = false := by
    rw [engineFull_arrivedAt h.block, ← hcmd]
    exact room
  have formed : teamFormed s v op n y = acceptCmd (queued (arrivedAt s v y) cmd) s.nextId := by
    rw [teamFormed, if_pos created, hcmd, addCommand_room new room']
    rfl
  have there : getCmd (queued (arrivedAt s v y) cmd) s.nextId = some cmd := getCmd_queued_self (arrivedAt s v y) cmd
  have marks := acceptCmd_marks there
  rw [formed, hcmd]
  refine ⟨?_, fun j hj => ?_⟩
  · exact (marks.getCmd _).trans (getCmd_setCmd_self ..)
  · have unmarked : getCmd (marked (queued (arrivedAt s v y) cmd) s.nextId cmd) j = getCmd (queued (arrivedAt s v y) cmd) j :=
      find?_put_ne _ _ hj
    exact (marks.getCmd j).trans (unmarked.trans (getCmd_queued_ne (s := arrivedAt s v y) hj cmd))

end

/-- Settles O37: an arrival is listed, the last one creates the command, and a member counts its collective as its issue ends. -/
theorem teamsFormTheirCollectives : Obligations.TeamsFormTheirCollectives := by
  unfold Obligations.TeamsFormTheirCollectives
  intro s v i op n r c strm cont h hi hop team rank
  have runs := exec_issueTeam hi hop s
  have path := h.path
  refine ⟨fun waits => ?arrival, fun full created => ?full, fun unstopped unformed => ?last, fun unstopped formed => ?joins⟩
  case arrival =>
    rw [runs, runInstr_cases _ _ h.view, if_pos h.alone, waits]
    dsimp only
    rw [holdUnit_arrival h hi team rank]
    exact ⟨_, _, _, _, rfl, (arrivedAt_teamOnly (s := unissued s) h.block _).memory, getBlock_arrivedAt .., rfl, rfl,
      getCourse_setCourse_self .., getPath_waitingCourse path _, rfl⟩
  case full =>
    rw [runs, runInstr_cases _ _ h.view, if_pos h.alone, full]
    dsimp only
    rw [holdUnit_teamAcceptance h hi team rank]
    refine ⟨_, _, _, _, rfl, (arrivedAt_teamOnly (s := unissued s) h.block _).memory, getBlock_arrivedAt .., rfl,
      fun j hj => ?_, ?_, getCourse_setCourse_self .., getPath_waitingCourse path _, rfl⟩
    · exact getCmd_queued_ne (s := arrivedAt (unissued s) v _) hj _
    · exact getCmd_queued_self (arrivedAt (unissued s) v _) _
  case last =>
    rw [runs, runInstr_effect _ h.view (fun _ => unstopped), issueTeam_last h team rank unformed]
    have joined := joinTeam_teamOnly h.stays i cont (teamFormed s v op n (arrival s v op c strm cont n r))
    refine ⟨_, rfl, ?_, fun none_created => ?_, fun created room => ?_⟩
    · exact (teamFormed_sameMemory h _).trans joined.memory
    · exact joined.commands.trans (teamFormed_uncreated h none_created).commands
    · obtain ⟨self, others⟩ := teamFormed_created h created room
      exact ⟨fun j hj => (joined.getCmd j).trans (others j hj), (joined.getCmd _).trans self⟩
  case joins =>
    rw [runs, runInstr_effect _ h.view (fun _ => unstopped), issueTeam, if_pos formed]
    have joined := joinTeam_teamOnly h.stays i cont s
    obtain ⟨k', course, counts⟩ := joinTeam_counts h.stays i cont h.course
    exact ⟨_, k', rfl, joined.memory, joined.commands, course, counts⟩

end Sys2Proof.Machine

/-!
SUPPORT and PROOF. Engine commands are accepted and started (R195 to R206): the stores that a start performs, and the work of
local copies, fills and the matrix commands.
-/

namespace Sys2Proof.Machine

/-! ### What stands pending for a command (R205) -/

/-- With no long write of this identity nothing lands, and no other long write changes. -/
theorem completeLongs_absent {s : State} {b c id : Nat} {k : Course} (hk : getCourse s b c = some k)
    (absent : ∀ w ∈ k.longs, w.id ≠ id) :
    ∃ k', completeLongs s b c [id] = setCourse s b c k' ∧ ∀ w ∈ k'.longs, w ∈ k.longs := by
  have none_kills : k.longs.filter (fun w => [id].contains w.id && longKills k w != 0) = [] :=
    List.filter_eq_nil_iff.mpr fun w hw => by simp [absent w hw]
  have landed : landedWith k [id] = [id] := by
    rw [landedWith, none_kills]
    rfl
  have mine : k.longs.filter (fun w => [id].contains w.id) = [] :=
    List.filter_eq_nil_iff.mpr fun w hw => by simp [absent w hw]
  refine ⟨wakeCourse s (unpend k [id]), ?_, fun w hw => (List.mem_filter.mp hw).1⟩
  unfold completeLongs
  simp only [hk, landed, mine, List.foldl_nil]

/-- No course of the list has a long write of this identity pending. -/
def NoLong (s : State) (b id : Nat) (l : List Nat) : Prop :=
  ∀ n ∈ l, ∀ k, getCourse s b n = some k → ∀ w ∈ k.longs, w.id ≠ id

/-- Where the members have no long write of the command pending, its start lands none. -/
theorem foldl_completeLongs_absent (b id : Nat) : ∀ (l : List Nat) (s : State), NoLong s b id l →
    CoursesOnly s (l.foldl (fun s n => completeLongs s b n [id]) s)
  | [], s, _ => .refl s
  | n :: l, s, absent => by
    rw [List.foldl_cons]
    have one : CoursesOnly s (completeLongs s b n [id]) ∧ NoLong (completeLongs s b n [id]) b id l := by
      cases hk : getCourse s b n with
      | none =>
        have same : completeLongs s b n [id] = s := by
          unfold completeLongs
          simp only [hk]
        rw [same]
        exact ⟨.refl s, fun m hm => absent m (List.mem_cons_of_mem n hm)⟩
      | some k =>
        obtain ⟨k', landed, fewer⟩ := completeLongs_absent hk (absent n List.mem_cons_self k hk)
        rw [landed]
        refine ⟨setCourse_coursesOnly .., fun m hm j hj w hw => ?_⟩
        by_cases same : courseKey b m = courseKey b n
        · rw [getCourse, same] at hj
          have : j = k' := Option.some.inj (hj.symm.trans (getCourse_setCourse_self ..))
          exact absent n List.mem_cons_self k hk w (fewer w (this ▸ hw))
        · rw [getCourse_setCourse_ne _ _ same] at hj
          exact absent m (List.mem_cons_of_mem n hm) j hj w hw
    exact one.1.trans (foldl_completeLongs_absent b id l _ one.2)

/-! ### A start (R196, R198) -/

/-- A command as it stands once it has begun: its index list and its slices may have been read. -/
def Begun (c c' : Command) : Prop := c' = { c with begun := true, list := c'.list, slices := c'.slices }

/-- A command begins: what it reads first stands in the table, its block has made progress, and its slices are read. -/
theorem beginCmd_eq (s : State) (id : Nat) (c : Command) : ∃ c', Begun c c' ∧ beginCmd s id c =
    runCmd (c.members.foldl (fun s k => completeLongs s c.blk k [id]) (setCmd (progress s c.blk) id c')) id :=
  ⟨{ c with begun := true, slices := _, list := _ }, rfl, rfl⟩

theorem progress_of_get {s : State} {n : Nat} {b : Block} (hb : getBlock s n = some b) :
    progress s n = setBlock s n { b with lastProgress := s.now } := by
  rw [progress, hb]

/-- What stands when a begun command does its work. -/
theorem beginCmd_runs {s : State} {id : Nat} {c : Command} {b : Block} (hb : getBlock s c.blk = some b)
    (absent : NoLong s c.blk id c.members) :
    ∃ t c', Begun c c' ∧ beginCmd s id c = runCmd t id ∧ getCmd t id = some c' ∧
      getBlock t c.blk = some { b with lastProgress := s.now } ∧ t.dev = s.dev ∧ t.hostMem = s.hostMem := by
  obtain ⟨c', begun, runs⟩ := beginCmd_eq s id c
  have only := foldl_completeLongs_absent c.blk id c.members (setCmd (progress s c.blk) id c') (by
    rw [progress_of_get hb]
    exact absent)
  rw [progress_of_get hb] at runs only
  refine ⟨_, c', begun, runs, ?_, ?_, ?_, ?_⟩
  · exact (only.getCmd id).trans (getCmd_setCmd_self ..)
  · rw [getBlock, only.blocks]
    exact getBlock_setBlock_self ..
  · rw [only]
    rfl
  · rw [only]
    rfl

/-! ### The work of a local copy or a fill (R201, R202) -/

/-- The rows that a local copy or a fill moves, with poison. -/
def localRow (b : Block) (w : List Word) (i : Nat) : List (Poi Byte) :=
  if bits (cw w 0) 1 0 = 2 then localPois b ((cw w 1 + i * cw w 2) % 2 ^ 32) (4 * bits (cw w 3) 31 16)
  else (List.range (4 * bits (cw w 3) 31 16)).map (fun j => (BitVec.ofNat 8 (cw w 1 / 2 ^ (8 * (j % 4))), false))

/-- The block once a local copy or a fill has written its rows. -/
def localCopied (b : Block) (w : List Word) : Block :=
  putLocal b ((List.range (bits (cw w 3) 15 0)).flatMap (fun i =>
    cellsAt ((cw w 4 + i * bits (cw w 5) 19 0) % 2 ^ 32) (localRow b w i)))

/-- The block once its bank that a matrix command names holds the sum of the command's K-blocks. -/
def bankSummed (b : Block) (c : Command) : Block :=
  if bitAt (cw c.card 0) 17 then { b with bank1 := (kSteps b c).1 } else { b with bank0 := (kSteps b c).1 }

/-- The sum of the K-blocks is that of the card and the slices alone. -/
theorem kSteps_marked (b : Block) (c : Command) (qi done : Bool) : kSteps b { c with qi := qi, done := done } = kSteps b c := rfl

section

variable {s : State} {id : Nat} {c : Command} {b : Block} (hc : getCmd s id = some c) (hb : getBlock s c.blk = some b)

include hc hb

/-- A local copy has no row in global memory: it neither stalls nor asks, and writes its rows at once. -/
theorem runCmd_localCopy (copy : c.op = 0x70) (local_ : 2 ≤ bits (cw c.card 0) 1 0) :
    runCmd s id = setCmd (setBlock s c.blk (localCopied b c.card)) id { c with done := true } := by
  have no_row : ∀ r, allRows c r = [] := fun r => by
    unfold allRows
    simp [copy, Nat.not_lt.mpr local_]
  have live : ∀ t, liveRows t b c = [] := fun t => by
    unfold liveRows
    simp [no_row]
  have untouched : touchRows s b.asid c [] = s := by
    unfold touchRows
    split <;> rfl
  have uncharged : chargeRows s b.asid c [] = s := by
    unfold chargeRows
    split <;> rfl
  have no_error : rowErrors c [] = c := by
    unfold rowErrors
    simp [no_row]
  unfold runCmd
  simp only [hc, hb, copy, live, untouched, uncharged, cmdPage, cmdRemote, List.flatMap_nil, List.findSome?_nil, List.find?_nil]
  unfold workRows
  simp only [copy, live, no_error, local_, decide_true, Bool.and_self, if_true]
  rfl

/-- MMA and MML leave the sum of their K-blocks in their bank (R206). -/
theorem runCmd_matrix (matrix : c.op = 0x73 ∨ c.op = 0x74) : ∃ c', c'.done = true ∧ c'.card = c.card ∧
    runCmd s id = setCmd (setBlock s c.blk (bankSummed b c')) id c' := by
  have works : (decide (c.op = 0x73) || decide (c.op = 0x74)) = true := by simpa using matrix
  refine ⟨{ c with qi := (kSteps b c).2, done := true }, rfl, rfl, ?_⟩
  rw [bankSummed, kSteps_marked]
  unfold runCmd
  simp only [hc, hb, works, if_true]
  rfl

end

/-! ### ENGINE_ACCEPT and ENGINE_START -/

section

variable {s : State} {id : Nat} {c : Command} (hc : getCmd s id = some c)

include hc

theorem exec_engineAccept : exec (.engineAccept id) s = .next (if acceptable s id c then acceptCmd s id else s) := by
  show execEngineAccept id s = _
  rw [execEngineAccept, hc]

theorem exec_engineStart {b : Block} (hb : getBlock s c.blk = some b) : exec (.engineStart id) s = .next
    (if startable s c then
      if awaitsStores (drainCore s b.core) c then drainCore s b.core else beginCmd (drainCore s b.core) id c
    else s) := by
  have core : cmdCore s c = b.core := by rw [cmdCore, blockCore, hb]
  show execEngineStart id s = _
  rw [execEngineStart, hc]
  dsimp only [startCmd]
  rw [core]

end

/-- Settles O42: an accepted command wakes its issuer, and one that starts does its work on its block. -/
theorem engineCommandsAreAcceptedAndStarted : Obligations.EngineCommandsAreAcceptedAndStarted := by
  unfold Obligations.EngineCommandsAreAcceptedAndStarted
  intro s id c b hc hb
  rw [exec_engineAccept hc, exec_engineStart hc hb]
  refine ⟨fun no => ?refused, fun yes alone => ?accepted, fun no => ?idle, fun yes waits => ?waits, fun yes goes absent => ?starts⟩
  case refused => rw [no]; rfl
  case accepted =>
    obtain ⟨self, others⟩ := getCmd_acceptCmd hc alone
    rw [if_pos yes]
    refine ⟨_, rfl, (acceptCmd_issueOnly hc alone).sameMemory, self, others, fun n k hn hk => ?_⟩
    rw [acceptCmd_alone hc alone]
    exact (getCourse_mapPaths (s := marked s id c) hb _ hn).trans (by
      rw [show getCourse (marked s id c) c.blk n = some k from hk]
      rfl)
  case idle => rw [no]; rfl
  case waits => rw [if_pos yes, if_pos waits]
  case starts =>
    have memory := drainCore_onlyMemory s b.core
    have hb0 : getBlock (drainCore s b.core) c.blk = some b := (memory.getBlock c.blk).trans hb
    have absent0 : NoLong (drainCore s b.core) c.blk id c.members := fun n hn k hk =>
      absent n hn k ((memory.getCourse ..).symm.trans hk)
    obtain ⟨t, c', begun, runs, hct, hbt, dev, host⟩ := beginCmd_runs hb0 absent0
    rw [memory.now] at hbt
    rw [if_pos yes, goes]
    simp only [Bool.false_eq_true, if_false, runs]
    have blk : c'.blk = c.blk := by rw [begun]
    have card : c'.card = c.card := by rw [begun]
    have op : c'.op = c.op := by rw [begun]
    have errs : c'.errs = c.errs := by rw [begun]
    rw [← blk] at hbt
    refine ⟨fun copy local_ => ?copy, fun matrix => ?matrix⟩
    case copy =>
      have done := runCmd_localCopy hct hbt (op.trans copy) (card ▸ local_)
      rw [done]
      refine ⟨_, _, rfl, getCmd_setCmd_self .., rfl, errs, ?_, dev, host⟩
      rw [getBlock_setCmd, blk, getBlock_setBlock_self, card]
      rfl
    case matrix =>
      obtain ⟨c1, done, card1, work⟩ := runCmd_matrix hct hbt (op ▸ matrix)
      rw [work]
      refine ⟨_, c1, rfl, getCmd_setCmd_self .., done, card1.trans card, ?_, dev, host⟩
      rw [getBlock_setCmd, blk, getBlock_setBlock_self, bankSummed, card1, card]

end Sys2Proof.Machine

/-!
SUPPORT and PROOF. Engine commands complete (R195, R198, R199, R252): the phase arrival, the course's QI, and the paths that go
on.
-/

namespace Sys2Proof.Machine

/-! ### What a completion can change beside courses and its block -/

/-- `t` is `s` but for its courses and the lines of its cores. -/
def LinesOnly (s t : State) : Prop := t = { s with courses := t.courses, cores := t.cores }

theorem LinesOnly.refl (s : State) : LinesOnly s s := rfl

theorem LinesOnly.trans {a b c : State} (h : LinesOnly a b) (g : LinesOnly b c) : LinesOnly a c := by
  rw [LinesOnly, g, h]

theorem acquire_linesOnly (s : State) (m : Nat) (scope : Scope) (seq : Bool) : LinesOnly s (acquire s m scope seq) := by
  obtain ⟨_, h⟩ := acquire_eq s m scope seq
  rw [h]
  rfl

theorem updCourse_linesOnly (s : State) (b c : Nat) (f : Course → Course) : LinesOnly s (updCourse s b c f) := by
  unfold updCourse
  split <;> rfl

theorem getCourse_acquire (s : State) (m : Nat) (scope : Scope) (seq : Bool) (b c : Nat) :
    getCourse (acquire s m scope seq) b c = getCourse s b c := (acquire_onlyMemory ..).getCourse ..

/-! ### Continuation parks end (R195) -/

/-- A path goes on. -/
def resumed (p : Path) : Path := { p with park := .running }

section

variable {s : State} {b n id : Nat} {k : Course}

/-- With no error of the command to take, the end of a continuation park is an acquire by the path that goes on. -/
theorem endContinuation_eq (course : getCourse s b n = some k) (no_error : ∀ e ∈ k.engErrs, e.cmd ≠ id) (slot : Nat) (scope : Scope) :
    endContinuation s b n slot id scope =
      acquire (setCourse s b n (setPath k slot ((getPath k slot).map resumed))) (blockCore s b) scope true := by
  have errs : (setPath k slot ((getPath k slot).map resumed)).engErrs = k.engErrs := by
    unfold setPath
    split <;> rfl
  have none_found : ((getCourse (acquire (setCourse s b n (setPath k slot ((getPath k slot).map resumed))) (blockCore s b) scope true)
      b n).bind (fun k => k.engErrs.find? (fun e => e.cmd = id))) = none := by
    rw [getCourse_acquire, getCourse_setCourse_self, Option.bind_some, errs, List.find?_eq_none]
    exact fun e he => by simpa using no_error e he
  unfold endContinuation
  rw [show updPath s b n slot (fun p => { p with park := .running }) = setCourse s b n (setPath k slot ((getPath k slot).map resumed))
    from updPath_of_get course slot resumed]
  simp only [none_found]

/-- A course whose listed paths go on. -/
def resumeSlots (l : List Nat) (k : Course) : Course := l.foldl (fun k slot => setPath k slot ((getPath k slot).map resumed)) k

theorem resumeSlots_cons (slot : Nat) (l : List Nat) (k : Course) :
    resumeSlots (slot :: l) k = resumeSlots l (setPath k slot ((getPath k slot).map resumed)) := rfl

theorem resumeSlots_keeps (l : List Nat) (k : Course) : (resumeSlots l k).live = k.live ∧ (resumeSlots l k).fpflags = k.fpflags ∧
    (resumeSlots l k).engErrs = k.engErrs := by
  induction l generalizing k with
  | nil => exact ⟨rfl, rfl, rfl⟩
  | cons slot l ih =>
    have same : ∀ p, (setPath k slot p).live = k.live ∧ (setPath k slot p).fpflags = k.fpflags ∧
        (setPath k slot p).engErrs = k.engErrs := fun p => by
      unfold setPath
      split <;> exact ⟨rfl, rfl, rfl⟩
    obtain ⟨live, flags, errs⟩ := ih (setPath k slot ((getPath k slot).map resumed))
    obtain ⟨live', flags', errs'⟩ := same ((getPath k slot).map resumed)
    exact ⟨live.trans live', flags.trans flags', errs.trans errs'⟩

/-- The continuation parks that end, one after another. -/
theorem foldl_endContinuation (stop : Nat → Bool) (scope : Scope) : ∀ (l : List Nat) (s : State) (k : Course),
    getCourse s b n = some k → (∀ e ∈ k.engErrs, e.cmd ≠ id) →
    LinesOnly s (l.foldl (fun s slot => if stop slot then s else endContinuation s b n slot id scope) s) ∧
      getCourse (l.foldl (fun s slot => if stop slot then s else endContinuation s b n slot id scope) s) b n =
        some (resumeSlots (l.filter (fun slot => !stop slot)) k)
  | [], s, k, course, _ => ⟨.refl s, course⟩
  | slot :: l, s, k, course, no_error => by
    rw [List.foldl_cons]
    cases stopped : stop slot with
    | true =>
      rw [List.filter_cons, stopped]
      exact foldl_endContinuation stop scope l s k course no_error
    | false =>
      have ended := endContinuation_eq course no_error slot scope
      have course1 : getCourse (endContinuation s b n slot id scope) b n =
          some (setPath k slot ((getPath k slot).map resumed)) := by
        rw [ended, getCourse_acquire, getCourse_setCourse_self]
      have errs : (setPath k slot ((getPath k slot).map resumed)).engErrs = k.engErrs := (resumeSlots_keeps [slot] k).2.2
      obtain ⟨only, course2⟩ := foldl_endContinuation stop scope l _ _ course1 (errs ▸ no_error)
      have first : LinesOnly s (endContinuation s b n slot id scope) := by
        rw [ended]
        exact LinesOnly.trans (b := setCourse s b n _) rfl (acquire_linesOnly ..)
      rw [List.filter_cons, stopped]
      exact ⟨first.trans only, course2⟩

/-- Of two slots, one that is listed goes on and one that is not stays. -/
theorem getPath_resumeSlots (l : List Nat) (k : Course) (slot : Nat) (small : ∀ i ∈ l, i < 2) (hslot : slot < 2) :
    getPath (resumeSlots l k) slot = if slot ∈ l then (getPath k slot).map resumed else getPath k slot := by
  induction l generalizing k with
  | nil => rfl
  | cons i l ih =>
    rw [resumeSlots_cons, ih _ (fun j hj => small j (List.mem_cons_of_mem i hj))]
    have hi := small i List.mem_cons_self
    by_cases same : slot = i
    · subst same
      rw [getPath_setPath_self, if_pos List.mem_cons_self, Option.map_map]
      split <;> rfl
    · have other : slot = 1 - i := by omega
      have stays : getPath (setPath k i ((getPath k i).map resumed)) slot = getPath k slot := by
        rw [other]
        exact getPath_setPath_other _ _ (by omega)
      rw [stays]
      simp [same]

end

/-! ### A command leaves the table (R198) -/

/-- The block of a completed command, with its progress and the arrival on its phase word (R150). -/
def arrivedBlock (s : State) (c : Command) (b : Block) : Block :=
  match (cmdPlan c).phase with
  | some a => setLocalWord { b with lastProgress := s.now } a (phaseArrive (localWord b a))
  | none => { b with lastProgress := s.now }

/-- The machine once a command has left the table, its course has what it brings, and its phase word counts it. -/
def commandGone (s : State) (id : Nat) (c : Command) (b : Block) (k : Course) : State :=
  setBlock (setCourse { s with commands := del s.commands id } c.blk c.course (completeCourse c id c.course k)) c.blk
    (arrivedBlock s c b)

section

variable {s : State} {id : Nat} {c : Command} {b : Block} {k : Course} (hb : getBlock s c.blk = some b)
  (course : getCourse s c.blk c.course = some k) (alone : c.members = [])

include hb course alone

/-- The completion of a command of one course. -/
theorem completeCmd_alone : completeCmd s id c =
    endContinuations (mapPaths (commandGone s id c b k) c.blk (fun _ p => wakeCommands (commandGone s id c b k) p)) c id c.course := by
  have own : cmdCourses c = [c.course] := by
    rw [cmdCourses, alone]
    rfl
  have put_twice : ∀ (t : State) (x y : Block), setBlock (setBlock t c.blk x) c.blk y = setBlock t c.blk y := fun t x y => by
    simp [setBlock, put_put]
  have progressed : progress { s with commands := del s.commands id } c.blk =
      setBlock { s with commands := del s.commands id } c.blk { b with lastProgress := s.now } := progress_of_get hb
  have there : getCourse (setBlock { s with commands := del s.commands id } c.blk { b with lastProgress := s.now }) c.blk c.course =
      some k := course
  have phase : enginePhase (setCourse (setBlock { s with commands := del s.commands id } c.blk { b with lastProgress := s.now })
      c.blk c.course (completeCourse c id c.course k)) c = commandGone s id c b k := by
    unfold enginePhase commandGone arrivedBlock
    cases (cmdPlan c).phase with
    | none => rfl
    | some a =>
      rw [getBlock_setCourse, getBlock_setBlock_self]
      exact put_twice (setCourse { s with commands := del s.commands id } c.blk c.course (completeCourse c id c.course k)) _ _
  unfold completeCmd
  simp only [own, progressed, List.foldl_cons, List.foldl_nil, updCourse_of_get there, phase]

end

theorem exec_engineComplete {s : State} {id : Nat} {c : Command} (hc : getCmd s id = some c) :
    exec (.engineComplete id) s = .next (if c.done then completeCmd s id c else s) := by
  show execEngineComplete id s = _
  rw [execEngineComplete, hc]

/-- A path that waits for a completed command alone goes on (R180, R210). -/
theorem wakeCommands_gone {s : State} {id : Nat} {p : Path} (gone : getCmd s id = none) (waits : p.park = .commands [id] []) :
    wakeCommands s p = resumed p := by
  unfold wakeCommands
  rw [waits]
  simp only [acksIn, gone, List.all_cons, List.all_nil, Option.isNone_none, Bool.and_self, if_true]
  rfl

theorem wakeCommands_other {s : State} {p : Path} (other : ∀ ids acks, p.park ≠ .commands ids acks) : wakeCommands s p = p := by
  unfold wakeCommands
  split
  next ids acks h => exact absurd h (other ids acks)
  · rfl

theorem wakeCommands_held (s : State) (p : Path) : (wakeCommands s p).held = p.held := by
  unfold wakeCommands
  split
  · split <;> rfl
  · rfl

/-! ### What a course has of its completed command (R199, R252) -/

section

variable (c : Command) (id : Nat) (k : Course)

theorem completeCourse_live (n : Nat) : (completeCourse c id n k).live = k.live := by
  unfold completeCourse
  dsimp only
  split <;> rfl

theorem completeCourse_stopped (n : Nat) : (completeCourse c id n k).stopped = k.stopped := by
  unfold completeCourse
  dsimp only
  split <;> rfl

theorem completeCourse_getPath (n slot : Nat) : getPath (completeCourse c id n k) slot = getPath k slot := by
  unfold completeCourse
  dsimp only
  split <;> rfl

theorem completeCourse_fpflags : (completeCourse c id c.course k).fpflags =
    if k.live ≠ 0 ∧ c.qi = true then k.fpflags ||| flagQI else k.fpflags := by
  unfold completeCourse flagIf
  by_cases live : k.live = 0#32
  · simp [live]
  · cases c.qi <;> simp [live]

theorem completeCourse_engErrs (n : Nat) (none_new : c.errs = []) : (completeCourse c id n k).engErrs = k.engErrs := by
  unfold completeCourse
  rw [none_new]
  dsimp only
  split
  · exact List.append_nil _
  · rfl

end

/-- A slot is in the continuation park of a command. -/
theorem mem_contSlots {k : Course} {id slot : Nat} :
    slot ∈ contSlots k id ↔ slot < 2 ∧ ∃ p, getPath k slot = some p ∧ p.park = .continuation id := by
  have small : slot ∈ [0, 1] ↔ slot < 2 := by
    simp only [List.mem_cons, List.not_mem_nil, or_false]
    omega
  rw [contSlots, List.mem_filter, small]
  refine and_congr_right fun _ => ?_
  cases getPath k slot <;> simp

/-- Settles O43: the command leaves the table, and the paths that waited for it alone go on. -/
theorem engineCommandsComplete : Obligations.EngineCommandsComplete := by
  unfold Obligations.EngineCommandsComplete
  intro s id c b k hc hb
  rw [exec_engineComplete hc]
  refine ⟨fun working => ?working, fun done alone no_errs course small no_error unstopped => ?done⟩
  case working => rw [working]; rfl
  obtain ⟨gone, hgone⟩ : ∃ gone, commandGone s id c b k = gone := ⟨_, rfl⟩
  obtain ⟨k1, hk1⟩ : ∃ k1, bothPaths (wakeCommands gone) (completeCourse c id c.course k) = k1 := ⟨_, rfl⟩
  obtain ⟨woken, hwoken⟩ : ∃ woken, mapPaths gone c.blk (fun _ p => wakeCommands gone p) = woken := ⟨_, rfl⟩
  have absent : getCmd gone id = none := hgone ▸ find?_del_self ..
  have block : getBlock gone c.blk = some (arrivedBlock s c b) := hgone ▸ getBlock_setBlock_self ..
  have courses : (arrivedBlock s c b).courses = b.courses := by
    unfold arrivedBlock
    split <;> rfl
  have course0 : getCourse gone c.blk c.course = some (completeCourse c id c.course k) := hgone ▸ getCourse_setCourse_self ..
  have course1 : getCourse woken c.blk c.course = some k1 := by
    rw [← hwoken, getCourse_mapPaths block _ (courses ▸ small), course0, ← hk1]
    rfl
  have errs1 : ∀ e ∈ k1.engErrs, e.cmd ≠ id := by
    have same : k1.engErrs = k.engErrs := hk1 ▸ completeCourse_engErrs c id k c.course no_errs
    rw [same]
    exact no_error
  have path1 : ∀ slot, getPath k1 slot = (getPath k slot).map (wakeCommands gone) := fun slot => by
    rw [← hk1, getPath_bothPaths, completeCourse_getPath]
  obtain ⟨only, ended⟩ := foldl_endContinuation (b := c.blk) (n := c.course) (id := id) (pathStopped k1)
    (scopeOf (releaseScope c)) (contSlots k1 id) woken k1 course1 errs1
  have completes : completeCmd s id c = (contSlots k1 id).foldl (fun s slot => if pathStopped k1 slot then s
      else endContinuation s c.blk c.course slot id (scopeOf (releaseScope c))) woken := by
    rw [completeCmd_alone hb course alone, hgone, hwoken, endContinuations, course1]
  have left : LinesOnly gone woken := by
    rw [← hwoken, mapPaths_eq]
    rfl
  have after := left.trans only
  rw [← completes] at after ended
  rw [if_pos done]
  refine ⟨_, _, rfl, ?_, ?_, ?_, ?_, ended, ?_, ?_, fun slot p hslot hp held park => ?_⟩
  · rw [after, ← hgone]
    rfl
  · rw [getBlock, after]
    exact block
  · rw [after, ← hgone]
    rfl
  · rw [after, ← hgone]
    rfl
  · rw [(resumeSlots_keeps ..).1, ← hk1]
    exact completeCourse_live ..
  · rw [(resumeSlots_keeps ..).2.1, ← hk1]
    exact completeCourse_fpflags ..
  · have listed_small : ∀ i ∈ (contSlots k1 id).filter (fun slot => !pathStopped k1 slot), i < 2 :=
      fun i hi => (mem_contSlots.mp (List.mem_filter.mp hi).1).1
    rw [getPath_resumeSlots _ _ _ listed_small hslot, path1, hp, Option.map_some]
    rcases park with cont | waits
    · have stays : wakeCommands gone p = p := wakeCommands_other fun ids acks h => by rw [cont] at h; cases h
      have there : getPath k1 slot = some p := by rw [path1, hp, Option.map_some, stays]
      have running : pathStopped k1 slot = false := by
        have stopped1 : k1.stopped = false := hk1 ▸ (completeCourse_stopped ..).trans unstopped
        rw [pathStopped, stopped1, there]
        exact held
      rw [if_pos (List.mem_filter.mpr ⟨mem_contSlots.mpr ⟨hslot, p, there, cont⟩, by rw [running]; rfl⟩), stays]
      rfl
    · rw [wakeCommands_gone absent waits]
      split <;> rfl

end Sys2Proof.Machine

/-!
SUPPORT and PROOF. STEP: what each of the three leaves of its context and its block (R230 to R233).
-/

namespace Sys2Proof.Machine

/-- An effect that leaves the issuing course as it is and brings one register (R59, R84). -/
theorem bringsReg {t : State} {v : View} {k : Course} {o : Host.Outcome State Fault Refusal} {i : Instr} (d : RegName)
    (f : Nat → Word) (course : getCourse t v.u.blk v.u.course = some k) (stays : v.u.demotes = false)
    (effect : o = .next (retire (writeLong t v.u (perLane v d f)) v.u i 0)) :
    LongLeaves t v k o i 0 (fun ws => ∀ k0, Written k0 (applyWrites k0 ws) (v.dest d) [(d, f)]) :=
  long_leaves { id := t.nextId, writes := (perLane v d f).filter writesLane, holds := [], kill := 0, killAll := false, tag := 0,
                va := 0, load := false, memory := false } course stays ⟨rfl, rfl, rfl⟩ rfl
    (fun k0 => written_filter_perLane k0 v d f) effect

/-- A slack as D takes it: clamped to 2^31 − 1 either way (R232, R233). -/
theorem clampSlack_eq (n : Int) : clampSlack n = BitVec.ofInt 32 (max (-2147483647) (min 2147483647 n)) := by
  unfold clampSlack
  congr 1
  split
  · omega
  · split <;> omega

/-- The slack that STEP.slack brings (R233). -/
theorem ctxSlack_of_get {s : State} {a : BitVec 16} {x : Context} (ctx : getCtx s a = some x) : ctxSlack s a =
    match x.step with
    | none => 0
    | some st => match st.slack with
      | some w => clampSlack w
      | none => clampSlack (st.deadline - s.now) := by
  unfold ctxSlack
  rw [ctx, Option.bind_some]
  cases x.step with
  | none => rfl
  | some st => cases hs : st.slack <;> simp [hs]

/-- The step of a context closes: its blocks belong to none, saved ones neither (R230, R232). -/
theorem closeStep_own (s : State) {x : Context} {a : BitVec 16} (own : x.asid = a) : closeStep s x =
    { setCtx s a { x with step := none, saved := x.saved.map (fun b => { b with step := none }) } with
      blocks := s.blocks.map (fun e => if e.2.asid = a then (e.1, { e.2 with step := none }) else e) } := by
  subst own
  rfl

section

variable {s : State} {v : View} {k : Course} {d : RegName} {a : Src} {x : Context} (h : Issuing s v k) (hn : v.never = false)
  (ctx : getCtx s v.b.asid = some x)

include h hn ctx

/-- STEP.begin where no step is open (R231). -/
theorem exec_stepBegin_opens (unstopped : Unstopped s v (.stepBegin d a)) (closed : x.step = none) :
    exec (.stepBegin d a) s = .next (retire (writeLong (setCtx s v.b.asid { x with
      step := some ⟨readReg v.k (regPlus a.reg 1) 0, ((s.now + (readReg v.k a.reg 0).toNat : Nat) : Int), none, false⟩ }) v.u
      (perLane v d (fun _ => 0))) v.u (.stepBegin d a) 0) := by
  show execStepBegin d a s = _
  rw [execStepBegin, runInstr_effect _ h.view unstopped, if_neg (by rw [hn]; exact Bool.false_ne_true)]
  simp only [ctx, closed]
  rfl

/-- STEP.begin where a step is open (R231). -/
theorem exec_stepBegin_open (unstopped : Unstopped s v (.stepBegin d a)) {st : Step} (opened : x.step = some st) :
    exec (.stepBegin d a) s = .next (retire (writeLong s v.u
      (perLane v d (fun _ => if st.id = readReg v.k (regPlus a.reg 1) 0 then 1 else 2))) v.u (.stepBegin d a) 0) := by
  show execStepBegin d a s = _
  rw [execStepBegin, runInstr_effect _ h.view unstopped, if_neg (by rw [hn]; exact Bool.false_ne_true)]
  simp only [ctx, opened]
  by_cases same : st.id = readReg v.k (regPlus a.reg 1) 0
  · simp only [same, if_true]
    rfl
  · simp only [same, if_false]
    rfl

/-- STEP.end of the open step (R232). -/
theorem exec_stepEnd_closes (unstopped : Unstopped s v (.stepEnd d a)) {st : Step} (opened : x.step = some st)
    (same : st.id = readReg v.k a.reg 0) : exec (.stepEnd d a) s = .next (retire (writeLong (closeStep s x) v.u
      (perLane v d (fun _ => clampSlack (st.deadline - s.now)))) v.u (.stepEnd d a) 0) := by
  show execStepEnd d a s = _
  rw [execStepEnd, runInstr_effect _ h.view unstopped, if_neg (by rw [hn]; exact Bool.false_ne_true)]
  simp only [ctx, opened, same, if_true]

/-- STEP.end of a step that is not open changes nothing but D (R232). -/
theorem exec_stepEnd_other (unstopped : Unstopped s v (.stepEnd d a)) (other : ∀ st, x.step = some st → st.id ≠ readReg v.k a.reg 0) :
    exec (.stepEnd d a) s = .next (retire (writeLong s v.u (perLane v d (fun _ => 0x80000000))) v.u (.stepEnd d a) 0) := by
  show execStepEnd d a s = _
  rw [execStepEnd, runInstr_effect _ h.view unstopped, if_neg (by rw [hn]; exact Bool.false_ne_true)]
  simp only [ctx]
  cases opened : x.step with
  | none => rfl
  | some st =>
    simp only [other st opened, if_false]
    rfl

omit ctx in
theorem exec_stepSlack (unstopped : Unstopped s v (.stepSlack d a)) : exec (.stepSlack d a) s =
    .next (retire (writeLong (setBlock s v.u.blk { v.b with
        estimate := if readReg v.k a.reg 0 = 0xFFFFFFFF then none else some (readReg v.k a.reg 0, ranCycles s v.b) }) v.u
      (perLane v d (fun _ => ctxSlack s v.b.asid))) v.u (.stepSlack d a) 0) := by
  show execStepSlack d a s = _
  rw [execStepSlack, runInstr_effect _ h.view unstopped, if_neg (by rw [hn]; exact Bool.false_ne_true)]
  rfl

end

/-- Settles O45, by an equation for what each of the three leaves. -/
theorem stepInstructionsKeepTheContextsStep : Obligations.StepInstructionsKeepTheContextsStep := by
  unfold Obligations.StepInstructionsKeepTheContextsStep
  intro s v k d a x h hn ctx
  refine ⟨fun unstopped => ⟨fun closed => ?opens, fun st opened => ?isOpen⟩,
    fun unstopped => ⟨fun st opened same own => ?closes, fun other => ?other⟩, fun unstopped => ?slack⟩
  case opens => exact bringsReg d _ h.course h.stays (exec_stepBegin_opens h hn ctx unstopped closed)
  case isOpen => exact bringsReg d _ h.course h.stays (exec_stepBegin_open h hn ctx unstopped opened)
  case closes =>
    have effect := exec_stepEnd_closes h hn ctx unstopped opened same
    rw [closeStep_own s own, clampSlack_eq] at effect
    exact bringsReg d _ h.course h.stays effect
  case other => exact bringsReg d _ h.course h.stays (exec_stepEnd_other h hn ctx unstopped other)
  case slack =>
    have effect := exec_stepSlack h hn unstopped
    simp only [ctxSlack_of_get ctx, clampSlack_eq] at effect
    exact bringsReg d _ h.course h.stays effect

end Sys2Proof.Machine

/-!
SUPPORT and PROOF. TASK: what TASK.done, TASK.signal and TASK.enq leave (R225, R227, R228).
-/

namespace Sys2Proof.Machine

section

variable {s : State} {v : View} {k : Course} (h : Issuing s v k)

include h

/-- An instruction that leaves its course as it is before it retires. -/
theorem retire_unitPasses {t : State} (same : getCourse t v.u.blk v.u.course = getCourse s v.u.blk v.u.course) (i : Instr) :
    retire t v.u i 0 = unitPasses t v i k := retire_eq i 0 (same.trans h.course) h.stays

/-! ### TASK.done (R225) -/

theorem exec_taskDone (unstopped : Unstopped s v .taskDone) : exec .taskDone s = .next (retire
    (if v.never || v.b.done then s else markDone (drainCore s v.b.core) v.u.blk) v.u .taskDone 0) :=
  runInstr_effect _ h.view unstopped

omit h in
/-- A block that is not done becomes so, and its launch counts it. -/
theorem markDone_of_get {t : State} {n : Nat} {b : Block} (hb : getBlock t n = some b) (running : b.done = false) :
    ∃ jobs, markDone t n = { setBlock t n { b with done := true } with jobs := jobs } ∧
      ∀ j, getJob t b.job = some j → find? jobs b.job = some { j with doneBlocks := j.doneBlocks + 1 } := by
  unfold markDone
  simp only [hb, running, Bool.false_eq_true, if_false, getJob_setBlock]
  cases job : getJob t b.job with
  | none => exact ⟨t.jobs, rfl, fun j hj => nomatch hj⟩
  | some j =>
    refine ⟨put t.jobs b.job { j with doneBlocks := j.doneBlocks + 1 }, rfl, fun j' hj => ?_⟩
    rw [← Option.some.inj hj]
    exact find?_put_self ..

/-! ### TASK.signal (R227) -/

variable {a : Src}

theorem exec_taskSignal_never (unstopped : Unstopped s v (.taskSignal a)) (hn : v.never = true) :
    exec (.taskSignal a) s = .next (unitPasses s v (.taskSignal a) k) := by
  rw [← retire_unitPasses h rfl]
  show execTaskSignal a s = _
  rw [execTaskSignal, runInstr_effect _ h.view unstopped, if_pos hn]

/-- The decrement at its home, with no store of the core pending and no member of the memory lost (R227). -/
theorem exec_taskSignal_home (unstopped : Unstopped s v (.taskSignal a)) (hn : v.never = false) (fresh : heldFor v = none)
    {o : Home} {f : Leaf} (reach : translate s v.b.asid (readPair v.k a.reg 0).toNat = .mem o f) (good : allGood s = true)
    (stores : (getCore s v.b.core).stores = []) (clean : homePoisoned s o 8 = false) :
    exec (.taskSignal a) s = .next (retire (retestWaits (atomStored (homeReached s v.b.core v.b.asid o 8 0) v.b.core v.b.asid o
      (bytesOfNat 8 ((natOfBytes (homeBytes s o 8) + 2 ^ 64 - 1) % 2 ^ 64))) v.b.part) v.u (.taskSignal a) 0) := by
  have drained : drainCore s v.b.core = s := by
    unfold drainCore
    rw [stores]
    rfl
  show execTaskSignal a s = _
  rw [execTaskSignal, runInstr_effect _ h.view unstopped, if_neg (by rw [hn]; exact Bool.false_ne_true)]
  simp only [touchAccess_good good, fresh, drained, signalVa, reach, signalHome, atomicAt_clean stores v.b.asid _ good clean,
    Option.map_some, Option.getD_some]

/-- Where the remote device has made the decrement, only the WAITs are left to test (R227). -/
theorem exec_taskSignal_remote (unstopped : Unstopped s v (.taskSignal a)) (hn : v.never = false) {y : Held}
    (held : heldFor v = some y) (clean : ∀ e ∈ y.answers, e.2.poison = []) (good : allGood s = true) :
    exec (.taskSignal a) s = .next (retire (retestWaits s v.b.part) v.u (.taskSignal a) 0) := by
  have no_poison : y.answers.any (fun e => !e.2.poison.isEmpty) = false :=
    List.any_eq_false.mpr fun e he => by rw [clean e he]; exact Bool.false_ne_true
  show execTaskSignal a s = _
  rw [execTaskSignal, runInstr_effect _ h.view unstopped, if_neg (by rw [hn]; exact Bool.false_ne_true)]
  simp only [touchAccess_good good, held, no_poison, Bool.false_eq_true, if_false]

theorem exec_taskSignal_asks (alone : lone v.u = true) (waits : stopOf s v (.taskSignal a) = some (.hold .remote)) :
    exec (.taskSignal a) s = .next (holdUnit s v (.taskSignal a) .remote) := by
  show execTaskSignal a s = _
  rw [execTaskSignal, runInstr_cases _ _ h.view, if_pos alone, waits]

/-! ### TASK.enq (R228, R229) -/

variable {d : RegName}

theorem exec_taskEnq_never (unstopped : Unstopped s v (.taskEnq d a)) (hn : v.never = true) :
    exec (.taskEnq d a) s = .next (unitPasses s v (.taskEnq d a) k) := by
  rw [← retire_unitPasses h rfl]
  show execTaskEnq d a s = _
  rw [execTaskEnq, runInstr_effect _ h.view unstopped, if_pos hn]

omit h in
/-- The machine once an image has been checked: accepted into the list of its context, or not (R228). -/
def listTaken (t : State) (asid : BitVec 16) (x : Context) (image : List Word) : Option Nat → State
  | none => setCtx t asid { x with subs := x.subs ++ [(x.subSeq, image)], subSeq := x.subSeq + 1 }
  | some _ => t

/-- An image without poison is checked once the core's stores are performed (R228). -/
theorem exec_taskEnq (unstopped : Unstopped s v (.taskEnq d a)) (hn : v.never = false)
    (clean : localPoisoned v.b (readReg v.k a.reg 0).toNat 128 = false) {x : Context} (ctx : getCtx s v.b.asid = some x) :
    let t := drainCore s v.b.core
    let cause := enqCause t v.b.part x.nc (enqImage v a)
    exec (.taskEnq d a) s = .next (retire (writeLong (listTaken t v.b.asid x (enqImage v a) cause) v.u
      (perLane v d (fun _ => BitVec.ofNat 32 (cause.getD 0)))) v.u (.taskEnq d a) 0) := by
  intro t cause
  have ctx' : getCtx (drainCore s v.b.core) v.b.asid = some x := ((drainCore_onlyMemory ..).getCtx ..).trans ctx
  have limit : ctxNc (drainCore s v.b.core) v.b.asid = x.nc := by rw [ctxNc, ctx']
  show execTaskEnq d a s = _
  rw [execTaskEnq, runInstr_effect _ h.view unstopped, if_neg (by rw [hn]; exact Bool.false_ne_true)]
  simp only [clean, Bool.false_eq_true, if_false, limit, ctx']
  cases hc : cause with
  | none =>
    simp only [show enqCause (drainCore s v.b.core) v.b.part x.nc (enqImage v a) = none from hc]
    rfl
  | some n =>
    simp only [show enqCause (drainCore s v.b.core) v.b.part x.nc (enqImage v a) = some n from hc]
    rfl

end

/-- Settles O44, by an equation for what each of the three leaves. -/
theorem taskInstructionsSignalAndSubmit : Obligations.TaskInstructionsSignalAndSubmit := by
  unfold Obligations.TaskInstructionsSignalAndSubmit
  intro s v k h
  refine ⟨fun unstopped => ⟨fun idle => ?idle, fun hn running => ?done⟩,
    fun a unstopped => ⟨exec_taskSignal_never h unstopped, fun o f hn fresh reach device good stores clean => ?signal,
      fun y hn held clean good => ?answered⟩,
    fun a => exec_taskSignal_asks h,
    fun d a unstopped => ⟨exec_taskEnq_never h unstopped, fun x hn clean ctx => ⟨fun accepted => ?accepted,
      fun n rejected => ?rejected⟩⟩⟩
  case idle =>
    have nothing : (v.never || v.b.done) = true := by simpa using idle
    rw [exec_taskDone h unstopped, if_pos nothing, retire_unitPasses h rfl]
  case done =>
    have memory := drainCore_onlyMemory s v.b.core
    obtain ⟨jobs, marks, counts⟩ := markDone_of_get ((memory.getBlock v.u.blk).trans (block_of_viewOf h.view)) running
    have goes : (v.never || v.b.done) = false := by rw [hn, running]; rfl
    have course : getCourse (markDone (drainCore s v.b.core) v.u.blk) v.u.blk v.u.course = getCourse s v.u.blk v.u.course := by
      rw [marks]
      exact memory.getCourse ..
    refine ⟨markDone (drainCore s v.b.core) v.u.blk, ?_, ?_, ?_, fun j hj => ?_⟩
    · rw [exec_taskDone h unstopped, goes, ← retire_unitPasses h course]
      rfl
    · rw [marks]
      exact stores_drainCore ..
    · rw [marks]
      exact getBlock_setBlock_self ..
    · rw [marks]
      refine counts j ?_
      rw [getJob, memory.jobs]
      exact hj
  case signal =>
    obtain ⟨t, ht⟩ : ∃ t, atomStored (homeReached s v.b.core v.b.asid o 8 0) v.b.core v.b.asid o
      (bytesOfNat 8 ((natOfBytes (homeBytes s o 8) + 2 ^ 64 - 1) % 2 ^ 64)) = t := ⟨_, rfl⟩
    have memory : OnlyMemory s t := ht ▸ (homeReached_onlyMemory stores v.b.asid o 8 0).trans (atomStored_onlyMemory ..)
    have stored : StoredAt s t o (bytesOfNat 8 ((natOfBytes (homeBytes s o 8) + 2 ^ 64 - 1) % 2 ^ 64)) :=
      ht ▸ (atomStored_storedAt ((homeReached_allGood stores v.b.asid o 8 0).trans good) v.b.core v.b.asid device _).of_sameMemory
        (homeReached_sameMemory stores v.b.asid o 8 0)
    refine ⟨retestWaits t v.b.part, ?_, ?_, ?_, ?_⟩
    · rw [exec_taskSignal_home h unstopped hn fresh reach good stores clean, ht]
      exact congrArg _ (retire_unitPasses (t := retestWaits t v.b.part) h (memory.getCourse ..) _)
    · rw [retestWaits_eq]
      cases o <;> exact stored
    · rw [retestWaits_eq, ← memory.jobs]
      exact memory
    · rw [retestWaits_eq, ← memory.jobs]
  case answered =>
    rw [exec_taskSignal_remote h unstopped hn held clean good, ← retestWaits_eq]
    exact congrArg _ (retire_unitPasses (t := retestWaits s v.b.part) h rfl _)
  case accepted =>
    have effect := exec_taskEnq h unstopped hn clean ctx
    have cause : enqCause (drainCore s v.b.core) v.b.part x.nc (enqImage v a) = none := accepted
    simp only [cause] at effect
    exact bringsReg d _ (((drainCore_onlyMemory ..).getCourse ..).trans h.course) h.stays effect
  case rejected =>
    have effect := exec_taskEnq h unstopped hn clean ctx
    have cause : enqCause (drainCore s v.b.core) v.b.part x.nc (enqImage v a) = some n := rejected
    simp only [cause] at effect
    exact bringsReg d _ (((drainCore_onlyMemory ..).getCourse ..).trans h.course) h.stays effect

end Sys2Proof.Machine

/-!
SUPPORT and PROOF. The tape: what an append leaves of the stream (R214, R220, R347).
-/

namespace Sys2Proof.Machine

/-- The tape of the issuing course, as its unit leaves it. -/
theorem retire_setTape {s : State} {v : View} {k : Course} (i : Instr) (t : Tape)
    (course : getCourse s v.u.blk v.u.course = some k) (stays : v.u.demotes = false) :
    retire (setTape s v t) v.u i 0 = unitLeaves s v i 0 { k with tape := t } :=
  (congrArg (retire · v.u i 0) (updCourse_of_get course _)).trans (retire_setCourse i 0 _ stays)

/-- A full stream of overflow mode DROP drops the record (R220). -/
theorem appendRec_drops (s : State) (m : Nat) (a : BitVec 16) {t : Tape} (r : TapeRec) (full : t.ovf = true) :
    appendRec s m a t r = (s, t) := if_pos full

/-- A record that fits the open chunk and leaves room (R347). -/
theorem appendRec_open (s : State) (m : Nat) (a : BitVec 16) {t : Tape} (r : TapeRec) {c : OpenChunk} (room : t.ovf = false)
    (isOpen : t.chunk = some c) (count : c.count < 4095) (fits : c.payload.length + (codeRec c.pred r).1.length < 4064) :
    appendRec s m a t r = (s, { t with
      chunk := some { c with count := c.count + 1, payload := c.payload ++ (codeRec c.pred r).1, pred := (codeRec c.pred r).2 }
      seq := t.seq + 1, kept := t.kept + 1 }) := by
  have within : c.payload.length + (codeRec c.pred r).1.length ≤ 4064 := by omega
  have notFull : (c.payload ++ (codeRec c.pred r).1).length ≠ 4064 := by rw [List.length_append]; omega
  unfold appendRec
  rw [if_neg (by rw [room]; exact Bool.false_ne_true)]
  simp only [isOpen, within, count, decide_true, Bool.and_true, if_true, Bool.not_true, Bool.false_and, Bool.false_eq_true,
    if_false, putRec, notFull]

/-- A record for which the next chunk opens (R347, R350). -/
theorem appendRec_opens (s : State) (m : Nat) (a : BitVec 16) {t : Tape} (r : TapeRec) (room : t.ovf = false)
    (closed : t.chunk = none) (extent : 4096 * (t.next + 1) ≤ (tapeRecord t).extent) (fits : (codeRec [] r).1.length < 4064) :
    appendRec s m a t r = (s, { t with
      chunk := some ⟨t.next, t.seq, 1, (codeRec [] r).1, (codeRec [] r).2⟩
      next := t.next + 1, seq := t.seq + 1, kept := t.kept + 1 }) := by
  have notFull : (codeRec [] r).1.length ≠ 4064 := by omega
  have fitsNext : chunkFits t t.next = true := decide_eq_true extent
  unfold appendRec
  rw [if_neg (by rw [room]; exact Bool.false_ne_true)]
  simp only [closed, Bool.false_eq_true, if_false, closeChunk, fitsNext, Bool.not_true, Bool.and_false, putRec, notFull]

/-- An append that writes no chunk leaves the course with its tape. -/
theorem retire_appendTape {s : State} {v : View} {k : Course} {i : Instr} {r : TapeRec} {t : Tape} (h : Issuing s v k)
    (appended : appendRec s v.b.core v.b.asid v.k.tape r = (s, t)) :
    retire (appendTape s v r) v.u i 0 = unitLeaves s v i 0 { k with tape := t } := by
  unfold appendTape
  rw [appended]
  exact retire_setTape i t h.course h.stays

/-- TREC and TCTL.mark append their record in RECORD mode (R214, R218). -/
theorem exec_appends {s : State} {v : View} {k : Course} {i : Instr} {r : TapeRec} (h : Issuing s v k)
    (unstopped : Unstopped s v i) (mode : v.k.tape.mode = .record)
    (form : (∃ w tag a, i = .trec w tag a ∧ trecRecord v w tag a = some r) ∨
      ∃ a, i = .tctlMark a ∧ v.never = false ∧ r = .mark (readReg v.k a.reg 0)) :
    exec i s = .next (retire (appendTape s v r) v.u i 0) := by
  rcases form with ⟨w, tag, a, rfl, record⟩ | ⟨a, rfl, runs, rfl⟩
  · show execTrec w tag a s = _
    rw [execTrec, runInstr_effect _ h.view unstopped]
    simp only [mode, beq_self_eq_true, record]
  · show execTctlMark a s = _
    rw [execTctlMark, runInstr_effect _ h.view unstopped, if_neg (by rw [runs]; exact Bool.false_ne_true)]
    simp only [mode]

/-- Settles O38, by the three appends that write no chunk. -/
theorem recordingAppendsToTheOpenChunk : Obligations.RecordingAppendsToTheOpenChunk := by
  unfold Obligations.RecordingAppendsToTheOpenChunk
  intro s v k i r h unstopped mode form t
  have answers := exec_appends h unstopped mode form
  refine ⟨fun full => ?drops, fun c room isOpen count fits => ?appends, fun room closed extent fits => ?opens⟩
  case drops => rw [answers, retire_appendTape h (appendRec_drops s _ _ r full)]
  case appends => rw [answers, retire_appendTape h (appendRec_open s _ _ r room isOpen count fits)]
  case opens => rw [answers, retire_appendTape h (appendRec_opens s _ _ r room closed extent fits)]

end Sys2Proof.Machine

/-!
SUPPORT and PROOF. TCTL: how a stream begins and ends, and what the write of its open chunk leaves (R218, R345, R347, R356).
-/

namespace Sys2Proof.Machine

/-- A core's lines after a drop (R273). -/
theorem l1_dropLines (s : State) {q : Nat → Bool} (p : L1Line → Bool) {m : Nat} (hit : q m = true) :
    (getCore (dropLines s q p) m).l1 = (getCore s m).l1.filter (fun y => !p y) := by
  unfold getCore dropLines
  dsimp only
  generalize s.cores = l
  induction l with
  | nil => rfl
  | cons e t ih =>
    simp only [List.map_cons]
    by_cases here : e.1 = m
    · subst here
      simp [find?, hit]
    · split <;> simpa [find?, here] using ih

theorem dropLines_onlyMemory (s : State) (q : Nat → Bool) (p : L1Line → Bool) : OnlyMemory s (dropLines s q p) := rfl

theorem holdPipe_onlyMemory (s : State) (m n : Nat) : OnlyMemory s (holdPipe s m n) := rfl

/-- The write of a chunk is seen in memory alone (R218). -/
theorem storeChunk_onlyMemory (s : State) (m : Nat) (a : BitVec 16) (h : Home) (bs : List Byte) :
    OnlyMemory s (storeChunk s m a h bs) :=
  ((drainCore_onlyMemory s m).trans (writeHome_onlyMemory ..)).trans (dropLines_onlyMemory ..)

/-- The core keeps no older copy of a line that it has written (R345). -/
theorem home_ne_of_storeChunk {s : State} {m : Nat} {a : BitVec 16} {h : Home} {bs : List Byte} {y : L1Line}
    (kept : y ∈ (getCore (storeChunk s m a h bs) m).l1) {i : Nat} (line : i < 32) : y.home ≠ homeAdd h (128 * i) := by
  rw [storeChunk, l1_dropLines _ _ (decide_eq_true rfl), List.mem_filter] at kept
  intro old
  have dropped : (List.range 32).any (fun i => y.home == homeAdd h (128 * i)) = true :=
    List.any_eq_true.2 ⟨i, List.mem_range.2 line, beq_iff_eq.2 old⟩
  rw [dropped] at kept
  exact Bool.false_ne_true kept.2

theorem touchWalk_good {s : State} (good : allGood s = true) (a : BitVec 16) (va : Nat) : touchWalk s a va = s := if_pos good

/-- The open chunk is written and closed, where its page may be written (R347). -/
theorem closeChunk_stored {s : State} (good : allGood s = true) (m : Nat) {a : BitVec 16} {t : Tape} {c : OpenChunk} {h : Home}
    {f : Leaf} (isOpen : t.chunk = some c) (page : translate s a ((tapeRecord t).base + 4096 * c.index) = .mem h f)
    (writes : f.write = true) (last trunc : Bool) : closeChunk s m a t last trunc =
      (storeChunk (holdPipe s m (chunkCycles (hdr (chunkBytes c.index c.seq c.count c.payload last trunc) 107 96))) m a h
        (chunkBytes c.index c.seq c.count c.payload last trunc),
       { t with chunk := none
                last := chunkHeader c.index c.seq c.count c.payload.length last trunc (crcStep 0 c.payload) }) := by
  have paged (n : Nat) : translate (holdPipe s m n) a (chunkVa t c.index) = .mem h f := page
  unfold closeChunk
  rw [isOpen]
  simp only [writeChunk, touchWalk_good good, paged, writes, if_true]

/-- A long result that a unit leaves with its course changed is the machine's with the course as it then stands. -/
theorem LongLeaves.of_setCourse {s : State} {v : View} {k0 k : Course} {o i fl brings}
    (h : LongLeaves (setCourse s v.u.blk v.u.course k0) v k o i fl brings) : LongLeaves s v k o i fl brings := by
  obtain ⟨w, k', pure, id, begun, bring, leaves, -⟩ := h
  have same : unitLeaves (idTaken (setCourse s v.u.blk v.u.course k0)) v i fl k' = unitLeaves (idTaken s) v i fl k' := by
    have rewritten (j : Course) : setCourse (idTaken (setCourse s v.u.blk v.u.course k0)) v.u.blk v.u.course j
        = setCourse (idTaken s) v.u.blk v.u.course j := setCourse_setCourse (idTaken s) ..
    unfold unitLeaves
    rw [rewritten, rewritten]
  exact ⟨w, k', pure, id, begun, bring, leaves.trans (congrArg _ same), unitLeaves_sameMemory (idTaken s) ..⟩

section

variable {s : State} {v : View} {k : Course} (h : Issuing s v k) (hn : v.never = false)

include h hn

theorem exec_tctlRecbegin {drop : Bool} {rec : RecName} {hint : Hint} (unstopped : Unstopped s v (.tctlRecbegin drop rec hint)) :
    exec (.tctlRecbegin drop rec hint) s = .next (unitLeaves s v (.tctlRecbegin drop rec hint) 0 { k with tape := { v.k.tape with
        mode := .record, drop := drop, ovf := false, trunc := false, record := recordWords v.k rec.val, chunk := none
        next := 0, seq := 0, kept := 0, last := [], order := v.u.slot + 1 } }) := by
  show execTctlRecbegin drop rec hint s = _
  rw [execTctlRecbegin, runInstr_effect _ h.view unstopped, if_neg (by rw [hn]; exact Bool.false_ne_true)]
  exact congrArg _ (retire_setTape _ _ h.course h.stays)

theorem exec_tctlRecbeginExt {drop : Bool} {rec : RecName} {hint : Hint}
    (unstopped : Unstopped s v (.tctlRecbeginExt drop rec hint)) : exec (.tctlRecbeginExt drop rec hint) s =
      .next (unitLeaves s v (.tctlRecbeginExt drop rec hint) 0 { k with tape := { v.k.tape with record := recordWords v.k rec.val } }) := by
  show execTctlRecbeginExt drop rec hint s = _
  rw [execTctlRecbeginExt, runInstr_effect _ h.view unstopped, if_neg (by rw [hn]; exact Bool.false_ne_true)]
  exact congrArg _ (retire_setTape _ _ h.course h.stays)

theorem exec_tctlStatus {d : RegName} (unstopped : Unstopped s v (.tctlStatus d)) : exec (.tctlStatus d) s =
    .next (retire (writeLong s v.u (perLane v d (fun _ => BitVec.ofNat 32 (min (match v.k.tape.mode with
        | .idle => 0
        | .record => v.k.tape.kept
        | .replay => recordsLeft v.k.tape) 0xFFFFFFFF)))) v.u (.tctlStatus d) 0) := by
  show execTctlStatus d s = _
  exact (runInstr_effect _ h.view unstopped).trans (congrArg _ (if_neg (by rw [hn]; exact Bool.false_ne_true)))

/-- FLUSH with a chunk open: what the chunk's write leaves (R218). -/
theorem exec_tctlFlush (unstopped : Unstopped s v .tctlFlush) (mode : v.k.tape.mode = .record) {s' : State} {t : Tape}
    (closes : closeChunk s v.b.core v.b.asid v.k.tape false false = (s', t)) (only : OnlyMemory s s') :
    exec .tctlFlush s = .next (unitLeaves s' v .tctlFlush 0 { k with tape := t }) := by
  show execTctlFlush s = _
  rw [execTctlFlush, runInstr_effect _ h.view unstopped, if_neg (by simp [hn, mode]), closes]
  exact congrArg _ (retire_setTape _ _ ((only.getCourse ..).trans h.course) h.stays)

/-- RECEND with a chunk open (R218, R347). -/
theorem exec_tctlRecend {d : RegName} (unstopped : Unstopped s v (.tctlRecend d)) {c : OpenChunk} (isOpen : v.k.tape.chunk = some c)
    {s' : State} {t : Tape} (closes : closeChunk s v.b.core v.b.asid v.k.tape true (v.k.tape.drop && v.k.tape.ovf) = (s', t)) :
    exec (.tctlRecend d) s = .next (retire (writeLong (setTape s' v { t with mode := .idle, chunk := none, order := 0 }) v.u
      (perLane v d (fun _ => BitVec.ofNat 32 (4096 * c.index)))) v.u (.tctlRecend d) 0) := by
  show execTctlRecend d s = _
  rw [execTctlRecend, runInstr_effect _ h.view unstopped, if_neg (by rw [hn]; exact Bool.false_ne_true)]
  simp only [endStream, isOpen, closes]

end

/-- Settles O39: the five sub-operations, and the chunk's write of the two that write it. -/
theorem tapeControlBeginsAndEndsAStream : Obligations.TapeControlBeginsAndEndsAStream := by
  unfold Obligations.TapeControlBeginsAndEndsAStream
  intro s v k h hn t
  refine ⟨fun _ _ _ unstopped => exec_tctlRecbegin h hn unstopped, fun _ _ _ unstopped => exec_tctlRecbeginExt h hn unstopped,
    ?chunk,
    fun d unstopped => bringsReg d _ h.course h.stays (exec_tctlStatus h hn unstopped)⟩
  case chunk =>
    intro c home f mode isOpen page writes good stored
    have only (bs : List Byte) : OnlyMemory s (stored bs) := (holdPipe_onlyMemory ..).trans (storeChunk_onlyMemory ..)
    have closes := closeChunk_stored good v.b.core isOpen page writes
    refine ⟨fun bs => ⟨only bs, fun y kept i line => home_ne_of_storeChunk kept line⟩,
      fun unstopped => exec_tctlFlush h hn unstopped mode (closes false false) (only _), ?recend⟩
    intro d unstopped trunc bs
    have course : getCourse (stored bs) v.u.blk v.u.course = some k := ((only bs).getCourse ..).trans h.course
    have effect := exec_tctlRecend h hn unstopped isOpen (closes true trunc)
    rw [setTape, updCourse_of_get course] at effect
    exact (bringsReg d _ (getCourse_setCourse_self ..) h.stays effect).of_setCourse

end Sys2Proof.Machine

/-!
SUPPORT and PROOF. The tape read back: the newest record, and how a replay begins and ends (R215, R217, R218, R351).
-/

namespace Sys2Proof.Machine

/-- A pair that lands later (R57, R104). -/
theorem written_filter_pairLane (k : Course) (v : View) (d : RegName) (f : Nat → Double) :
    Written k (applyWrites k ((pairLane v d f).filter writesLane)) (v.dest d)
      [(d, fun l => lowWord (f l)), (regPlus d 1, fun l => highWord (f l))] := by
  have every : applyWrites k ((pairLane v d f).filter writesLane) = applyWrites k (pairLane v d f) :=
    applyWrites_filter k _ fun w hw => (List.mem_append.1 hw).elim (prd_destWrite d _ _ w) (prd_destWrite (regPlus d 1) _ _ w)
  exact every ▸ written_pairLane k v d f

/-- An effect that leaves the issuing course as it is and brings the results `l` (R84). -/
theorem bringsWrites {t : State} {v : View} {k : Course} {o : Host.Outcome State Fault Refusal} {i : Instr} (l : List RegWrite)
    {brings : List RegWrite → Prop} (course : getCourse t v.u.blk v.u.course = some k) (stays : v.u.demotes = false)
    (bring : brings (l.filter writesLane)) (effect : o = .next (retire (writeLong t v.u l) v.u i 0)) :
    LongLeaves t v k o i 0 brings :=
  long_leaves { id := t.nextId, writes := l.filter writesLane, holds := [], kill := 0, killAll := false, tag := 0, va := 0,
                load := false, memory := false } course stays ⟨rfl, rfl, rfl⟩ rfl bring effect

theorem touchTape_good {s : State} (good : allGood s = true) (a : BitVec 16) (t : Tape) : touchTape s a t = s := if_pos good

/-- A pop that finds its record (R220). -/
theorem popTape_record {s : State} {v : View} {r : TapeRec} {t t' : Tape} (found : newest s v.b.asid v.k.tape = .record r t t') :
    popTape s v = (some r, setTape (touchTape s v.b.asid v.k.tape) v t') := by
  unfold popTape
  rw [found]

/-- The values that TPOP brings, by its width (R215). -/
def popWrites (v : View) (w : TapeWidth) (d : RegName) (r : TapeRec) : List RegWrite :=
  if w = .w64 then pairLane v d (recValue r) else perLane v d (fun l => lowWord (recValue r l))

theorem written_popWrites (k : Course) (v : View) (w : TapeWidth) (d : RegName) (r : TapeRec) :
    Written k (applyWrites k ((popWrites v w d r).filter writesLane)) (v.dest d)
      (if w = .w64 then [(d, fun l => lowWord (recValue r l)), (regPlus d 1, fun l => highWord (recValue r l))]
        else [(d, fun l => lowWord (recValue r l))]) := by
  unfold popWrites
  split
  · exact written_filter_pairLane ..
  · exact written_filter_perLane ..

section

variable {s : State} {v : View} {k : Course} (h : Issuing s v k)

include h

theorem course_touchTape : getCourse (touchTape s v.b.asid v.k.tape) v.u.blk v.u.course = some k :=
  ((touchTape_homeOnly ..).onlyMemory.getCourse ..).trans h.course

theorem exec_tpop {w : TapeWidth} {tag : BitVec 7} {d : RegName} (unstopped : Unstopped s v (.tpop w tag d))
    (runs : ¬ (isScalar d = true ∧ v.never = true)) {r : TapeRec} {t t' : Tape}
    (found : newest s v.b.asid v.k.tape = .record r t t') : exec (.tpop w tag d) s =
      .next (retire (writeLong (setTape (touchTape s v.b.asid v.k.tape) v t') v.u (popWrites v w d r)) v.u (.tpop w tag d) 0) := by
  show execTpop w tag d s = _
  rw [execTpop, runInstr_effect _ h.view unstopped, if_neg (by simpa using runs), popTape_record found]
  rfl

theorem exec_tctlMark_pops {a : Src} (unstopped : Unstopped s v (.tctlMark a)) (hn : v.never = false)
    (mode : v.k.tape.mode = .replay) {r : TapeRec} {t t' : Tape} (found : newest s v.b.asid v.k.tape = .record r t t') :
    exec (.tctlMark a) s =
      .next (unitLeaves (touchTape s v.b.asid v.k.tape) v (.tctlMark a) 0 { k with tape := t' }) := by
  show execTctlMark a s = _
  rw [execTctlMark, runInstr_effect _ h.view unstopped, if_neg (by rw [hn]; exact Bool.false_ne_true)]
  simp only [mode, popTape_record found]
  exact congrArg _ (retire_setTape _ _ (course_touchTape h) h.stays)

/-- BRR takes the lanes that its record names, once the unit has ended and the record is out of the tape (R217). -/
theorem exec_brr {off : BitVec 25} (unstopped : Unstopped s v (.brr off)) {m : Lanes} {t t' : Tape}
    (found : newest s v.b.asid v.k.tape = .record (.branch m) t t') : exec (.brr off) s =
      .next (branchPath (courseLeaves (touchTape s v.b.asid v.k.tape) v { flowCourse v (.brr off) k with tape := t' }) v
        (m &&& v.k.live) (v.p.pc + 16 + 16 * off.signExtend 64)) := by
  have issuing : flowIssue (touchTape s v.b.asid v.k.tape) v.u (.brr off)
      = courseLeaves (touchTape s v.b.asid v.k.tape) v (flowCourse v (.brr off) k) := by
    have seen := course_touchTape h
    unfold flowIssue endUnit courseLeaves flowCourse gathered
    simp only [h.stays, updCourse_of_get seen]
    simp
  show execBrr off s = _
  rw [execBrr, runInstr_effect _ h.view unstopped, found]
  simp only [issuing, updCourse_courseLeaves]
  rfl

theorem exec_tctlRepend (unstopped : Unstopped s v .tctlRepend) (hn : v.never = false) (mode : v.k.tape.mode = .replay) :
    exec .tctlRepend s = .next (unitLeaves s v .tctlRepend 0
      { k with tape := { v.k.tape with mode := .idle, current := none, ahead := none, order := 0 } }) := by
  show execTctlRepend s = _
  rw [execTctlRepend, runInstr_effect _ h.view unstopped, if_neg (by simp [hn, mode])]
  exact congrArg _ (retire_setTape _ _ h.course h.stays)

end

/-- The machine that REPBEGIN reads its chunk from: the acquire is done (R218, R346). -/
def replaySource (s : State) (v : View) (o : RegName) (rec : RecName) : State :=
  hubTouch (acquire s v.b.core (scopeOf (readRecord v.k rec.val).scope) false) v.b.asid
    ((readRecord v.k rec.val).base + (readReg v.k o 0).toNat) 4096

theorem replaySource_onlyMemory (s : State) (v : View) (o : RegName) (rec : RecName) : OnlyMemory s (replaySource s v o rec) :=
  (acquire_onlyMemory ..).trans (hubTouch_homeOnly ..).onlyMemory

theorem replaySource_sameMemory {s : State} (good : allGood s = true) (v : View) (o : RegName) (rec : RecName) :
    SameMemory s (replaySource s v o rec) := by
  have acquired : allGood (acquire s v.b.core (scopeOf (readRecord v.k rec.val).scope) false) = true := by
    obtain ⟨_, cores⟩ := acquire_eq s v.b.core (scopeOf (readRecord v.k rec.val).scope) false
    rw [cores]
    exact good
  exact (acquire_sameMemory ..).trans (hubTouch_slicesOnly acquired ..).sameMemory

/-- The read-ahead changes nothing of a tape but its ahead stage (R351). -/
theorem stageAhead_eq (s : State) (a : BitVec 16) (t : Tape) : ∃ g, stageAhead s a t = { t with ahead := g } := by
  unfold stageAhead
  split
  · exact ⟨t.ahead, rfl⟩
  · split
    · split <;> exact ⟨_, rfl⟩
    · exact ⟨_, rfl⟩

/-- A chunk that reads without poison is its own image (R352). -/
theorem readChunk_clean {s : State} {a : BitVec 16} {t : Tape} {n : Nat} {bs : List Byte}
    (reads : hubRead s a (chunkVa t n) 4096 = some (bs, false)) : readChunk s a t n = some bs := by
  unfold readChunk
  rw [reads]
  rfl

/-- The stage that REPBEGIN holds: the chunk as read, not yet decoded (R351). -/
def replayStage (s : State) (v : View) (o : RegName) (rec : RecName) : Stage :=
  newStage ((readReg v.k o 0).toNat / 4096) ((readChunk s v.b.asid { v.k.tape with record := recordWords v.k rec.val }
    ((readReg v.k o 0).toNat / 4096)).getD []) none

theorem image_replayStage {s : State} {v : View} {o : RegName} {rec : RecName} {bs : List Byte}
    (reads : hubRead s v.b.asid ((recordOfWords (recordWords v.k rec.val)).base + 4096 * ((readReg v.k o 0).toNat / 4096)) 4096
      = some (bs, false)) : (replayStage s v o rec).image = bs := by
  have chunk : readChunk s v.b.asid { v.k.tape with record := recordWords v.k rec.val } ((readReg v.k o 0).toNat / 4096) = some bs :=
    readChunk_clean (t := { v.k.tape with record := recordWords v.k rec.val }) reads
  unfold replayStage
  rw [chunk]
  rfl

theorem startReplay_eq (s : State) (v : View) (o : RegName) (rec : RecName) : ∃ ahead trunc, startReplay s v o rec =
    { v.k.tape with record := recordWords v.k rec.val, mode := .replay, trunc := trunc, err := false, released := 0,
                    current := some (replayStage s v o rec), ahead := ahead, order := v.u.slot + 1 } := by
  unfold startReplay
  obtain ⟨ahead, stages⟩ := stageAhead_eq s v.b.asid { v.k.tape with
    record := recordWords v.k rec.val, mode := .replay, err := false, released := 0, ahead := none, order := v.u.slot + 1
    trunc := hdr (replayStage s v o rec).image 122 122 == 1, current := some (replayStage s v o rec) }
  exact ⟨ahead, _, stages⟩

theorem exec_tctlRepbegin {s : State} {v : View} {k : Course} (h : Issuing s v k) {o : RegName} {rec : RecName} {hint : Hint}
    (unstopped : Unstopped s v (.tctlRepbegin o rec hint)) (hn : v.never = false) : exec (.tctlRepbegin o rec hint) s =
      .next (unitLeaves (replaySource s v o rec) v (.tctlRepbegin o rec hint) 0
        { k with tape := startReplay (replaySource s v o rec) v o rec }) := by
  show execTctlRepbegin o rec hint s = _
  rw [execTctlRepbegin, runInstr_effect _ h.view unstopped, if_neg (by rw [hn]; exact Bool.false_ne_true)]
  exact congrArg _ (retire_setTape _ _ (((replaySource_onlyMemory ..).getCourse ..).trans h.course) h.stays)

/-- Settles O40, by an equation for what each of the five takes out of the stream or leaves of it. -/
theorem replayTakesTheNewestRecord : Obligations.ReplayTakesTheNewestRecord := by
  unfold Obligations.ReplayTakesTheNewestRecord
  intro s v k h u
  refine ⟨(touchTape_homeOnly ..).onlyMemory, fun good => touchTape_good good .., fun r t t' found => ⟨?pop, ?mark, ?branch⟩,
    fun unstopped hn mode => exec_tctlRepend h unstopped hn mode, ?begins⟩
  case pop =>
    intro w tag d unstopped runs
    have effect := exec_tpop h unstopped runs found
    rw [setTape, updCourse_of_get (course_touchTape h)] at effect
    exact (bringsWrites _ (getCourse_setCourse_self ..) h.stays (fun k0 => written_popWrites k0 v w d r) effect).of_setCourse
  case mark => exact fun a unstopped hn mode => exec_tctlMark_pops h unstopped hn mode found
  case branch =>
    intro off m unstopped isBranch k1 goes
    subst isBranch
    have effect := exec_brr h unstopped found
    refine ⟨fun none => ?past, fun some all => ?target⟩
    case past => exact effect.trans (congrArg _ ((if_pos none).trans (updPath_courseLeaves ..)))
    case target => exact effect.trans (congrArg _ ((if_neg some).trans ((if_pos all).trans (updPath_courseLeaves ..))))
  case begins =>
    intro o rec hint unstopped hn
    obtain ⟨ahead, trunc, starts⟩ := startReplay_eq (replaySource s v o rec) v o rec
    refine ⟨replaySource s v o rec, _, replayStage (replaySource s v o rec) v o rec, exec_tctlRepbegin h unstopped hn,
      replaySource_onlyMemory .., fun good => replaySource_sameMemory good .., ?_⟩
    rw [starts]
    refine ⟨rfl, rfl, rfl, rfl, rfl, rfl, rfl, rfl, rfl, fun bs reads => ?_⟩
    exact image_replayStage reads

end Sys2Proof.Machine

/-!
SUPPORT and PROOF. The management controller's mailbox, cold start and the loss of power (R342, R343, R402, R404 to R406).
-/

namespace Sys2Proof.Machine

/-! ### The mailbox (R404) -/

/-- A mailbox command of OP `op` that acts by `f`. -/
theorem exec_mailbox {i : Instr} {v : Double} {op : Nat} {s t : State} (f : State → State) (runs : exec i s = mbCommand v op s f)
    (acts : f s = t) : (bits v.toNat 7 0 ≠ op → exec i s = .next s) ∧
      (bits v.toNat 7 0 = op → exec i s = .next (if 4096 < mbLen v then mbResult s 1 0 else t)) := by
  refine ⟨fun other => runs.trans (if_pos other), fun same => runs.trans ((if_neg (not_not_intro same)).trans ?_)⟩
  rw [← acts]
  split <;> rfl

theorem mbOutput_eq (s : State) (l : List Byte) : mbOutput s l =
    { s with mailbox := csetRun 0#8 s.mailbox 0 (l.take 4096), mbstat := BitVec.ofNat 64 (l.take 4096).length } := by
  simp [mbOutput, mbResult]

/-- The counters as READ_LIFETIME_COUNTERS answers them (R343). -/
def lifetimeCounters (s : State) : List Byte :=
  Config.counterLayout ((List.range Config.channels).flatMap (fun c => countRow (chanCount s c)))

/-- ATTEST's answer, for a nonce of 32 bytes (R406). -/
def attestInto (v : Double) (s : State) : State :=
  if mbLen v ≠ 32 then mbResult s 1 0 else mbOutput (attestReport s (mbInput s v)).2 (attestReport s (mbInput s v)).1

theorem length_bigBytes (n v : Nat) : (bigBytes n v).length = n := by
  rw [bigBytes, List.length_reverse, length_bytesOfNat]

theorem length_identityKey : identityKey.length = 516 := by
  rw [identityKey, keyBytes, List.length_append, length_bigBytes, length_bigBytes]

/-! ### The repair list (R342) -/

/-- An entry pending or failed names the rows of `e`. -/
def repairNamed (s : State) (e : Double) : Bool :=
  s.repair.any (fun r => repairOpen r && repairChannel r == repairChannel e && repairSlot r == repairSlot e)

/-- The slots that stay retired once the entries `was` have left. -/
theorem freeRepaired_eq (was : List Double) : ∀ s, ∃ l, freeRepaired s was = { s with retired := l } ∧
    ∀ k, cget false l k = true ↔ cget false s.retired k = true ∧
      ¬ ∃ e ∈ was, slotKey (repairChannel e) (repairSlot e) = k ∧ repairNamed s e = false := by
  induction was with
  | nil => exact fun s => ⟨s.retired, rfl, by simp⟩
  | cons e t ih =>
    intro s
    by_cases named : repairNamed s e = true
    · obtain ⟨l, frees, kept⟩ := ih s
      have step : freeRepaired s (e :: t) = freeRepaired s t := congrArg (fun u => freeRepaired u t) (if_pos named)
      exact ⟨l, step.trans frees, by simpa [named] using kept⟩
    · obtain ⟨l, frees, kept⟩ := ih { s with retired := cset false s.retired (slotKey (repairChannel e) (repairSlot e)) false }
      refine ⟨l, (congrArg (fun u => freeRepaired u t) (if_neg named)).trans frees, fun k => (kept k).trans ?_⟩
      have same (r : Double) : repairNamed { s with
        retired := cset false s.retired (slotKey (repairChannel e) (repairSlot e)) false } r = repairNamed s r := rfl
      dsimp only
      rw [cget_cset]
      simp only [same, List.mem_cons, exists_eq_or_imp, named]
      by_cases own : k = slotKey (repairChannel e) (repairSlot e)
      · simp [own]
      · simp [own, Ne.symm own]

/-- No entry that stays names the rows of `e`. -/
theorem repairNamed_kept {s : State} {l : List Double} (kept : s.repair = l.filter (fun r => decide (repairState r < 2))) (e : Double) :
    repairNamed s e = false ↔ ∀ r ∈ l, repairState r = 1 → ¬ (repairChannel r = repairChannel e ∧ repairSlot r = repairSlot e) := by
  rw [repairNamed, kept, List.any_filter]
  simp only [List.any_eq_false, Bool.and_eq_true, decide_eq_true_eq, repairOpen, Bool.or_eq_true, beq_iff_eq]
  refine forall₂_congr fun r _ => ⟨fun h pending same => h ⟨by omega, ⟨.inl pending, same.1⟩, same.2⟩, ?_⟩
  rintro h ⟨low, ⟨isOpen, channel⟩, slot⟩
  exact h (by omega) ⟨channel, slot⟩

theorem pinUnbondable_eq (s : State) : pinUnbondable s = { s with unbond := (pinUnbondable s).unbond } := by
  unfold pinUnbondable
  generalize pinUnits s bondUnits 0 s.unbond = pinned
  split <;> rfl

/-- CLEAR_REPAIR_ENTRIES on the list (R342). -/
def clearRepairs (s : State) : State :=
  freeRepaired { pinUnbondable s with repair := s.repair.filter (fun e => decide (repairState e < 2)) }
    (s.repair.filter (fun e => decide (2 ≤ repairState e)))

theorem exec_clearRepairEntries (v : Double) (s : State) :
    exec (.clearRepairEntries v) s = mbCommand v 5 s (fun s => mbResult (clearRepairs s) 0 0) := by
  show execClearRepairEntries v s = _
  have stays (s : State) : s.repair.filter (fun e => !decide (2 ≤ repairState e))
      = s.repair.filter (fun e => decide (repairState e < 2)) :=
    List.filter_congr fun e _ => by rw [← decide_not, decide_eq_decide]; omega
  unfold execClearRepairEntries clearRepairs
  simp only [List.partition_eq_filter_filter, Function.comp_def, stays]

/-- The entries burned or failed leave, and free their slots (R342). -/
theorem clearRepairs_eq (s : State) : ∃ l,
    clearRepairs s = { s with repair := s.repair.filter (fun e => decide (repairState e < 2)), retired := l,
                              unbond := (pinUnbondable s).unbond } ∧
    ∀ k, cget false l k = true ↔ cget false s.retired k = true ∧ ¬ ∃ e ∈ s.repair, 2 ≤ repairState e ∧
      slotKey (repairChannel e) (repairSlot e) = k ∧ ∀ r ∈ s.repair, repairState r = 1 →
        ¬ (repairChannel r = repairChannel e ∧ repairSlot r = repairSlot e) := by
  let t : State := { pinUnbondable s with repair := s.repair.filter (fun e => decide (repairState e < 2)) }
  have only : t = { s with repair := s.repair.filter (fun e => decide (repairState e < 2)), unbond := (pinUnbondable s).unbond } := by
    dsimp only [t]
    rw [pinUnbondable_eq s]
  obtain ⟨l, frees, kept⟩ := freeRepaired_eq (s.repair.filter (fun e => decide (2 ≤ repairState e))) t
  refine ⟨l, frees.trans (by rw [only]), fun k => ?_⟩
  have retired : t.retired = s.retired := by rw [only]
  rw [kept, retired]
  simp only [repairNamed_kept (s := t) rfl, List.mem_filter, decide_eq_true_eq, and_assoc]

/-! ### The phases of a cold start (R402) -/

/-- What HUB's end leaves of the modules (R398). -/
def trainedModules (s : State) : List (Bool × List Nat) := s.modules.zipIdx.map (fun e => (Config.moduleTrains e.2 s.coldStarts, []))

/-- HUB's end as the firmware of the next slot decides it (R402, R405). -/
theorem endHub_eq (s : State) : endHub s = match bootFirmware s with
    | some l => { s with modules := trainedModules s, phase := 1, images := l, runSlot := s.bootSlot }
    | none => { s with modules := trainedModules s, phase := 5 } := by
  have same : bootFirmware { s with modules := trainedModules s } = bootFirmware s := rfl
  cases fw : bootFirmware s <;> rw [fw] at same <;> unfold endHub trainedModules at * <;> dsimp only <;> rw [same]

theorem length_burnEntries (l : List Double) : ∀ used did, (burnEntries used l did).1.length = l.length := by
  induction l with
  | nil => exact fun _ _ => rfl
  | cons e t ih =>
    intro used did
    simp only [burnEntries]
    split
    · exact congrArg Nat.succ (ih ..)
    · split <;> exact congrArg Nat.succ (ih ..)

/-- The keys that a run of marks leaves marked. -/
theorem cget_foldl_mark {α : Type} (f : α → Nat) (l : List α) : ∀ (m : Cells Bool) k,
    cget false (l.foldl (fun r e => cset false r (f e) true) m) k = true ↔ cget false m k = true ∨ ∃ e ∈ l, f e = k := by
  induction l with
  | nil => simp
  | cons e t ih =>
    intro m k
    rw [List.foldl_cons, ih, cget_cset]
    by_cases own : k = f e
    · simp [own]
    · simp [own, Ne.symm own]

/-- How a channel stands once it has been brought up (R402). -/
def broughtUp (s : State) (c : Nat) : Health :=
  if chanHealth s c ≠ .dead ∧ Config.channelTrains c s.coldStarts = true then .good else .dead

theorem bringUp_eq (s : State) (c : Nat) : bringUp s c = { s with
    health := (bringUp s c).health, trained := (bringUp s c).trained, trainTemp := (bringUp s c).trainTemp
    dueNow := (bringUp s c).dueNow } := by
  unfold bringUp
  split
  · rfl
  · split <;> rfl

theorem chanHealth_bringUp (s : State) (c d : Nat) :
    chanHealth (bringUp s c) d = if d = c then broughtUp s c else chanHealth s d := by
  unfold bringUp broughtUp
  by_cases dead : chanHealth s c = .dead
  · simp [dead]
    rintro rfl
    exact dead
  · by_cases trains : Config.channelTrains c s.coldStarts = true
    · rw [if_neg (by simpa using dead), if_pos trains, if_pos (c := _ ∧ _) ⟨dead, trains⟩]
      exact cget_cset .good s.health c d .good
    · rw [if_neg (by simpa using dead), if_neg trains, if_neg (c := _ ∧ _) fun both => trains both.2]
      exact cget_cset .good s.health c d .dead

/-- TRAIN changes nothing but the channels' health and training. -/
theorem bringUps_eq (l : List Nat) : ∀ s, ∃ a b c d, l.foldl bringUp s =
    { s with health := a, trained := b, trainTemp := c, dueNow := d } := by
  induction l with
  | nil => exact fun s => ⟨s.health, s.trained, s.trainTemp, s.dueNow, rfl⟩
  | cons c t ih =>
    intro s
    obtain ⟨a, b, e, d, brings⟩ := ih (bringUp s c)
    refine ⟨a, b, e, d, brings.trans ?_⟩
    rw [bringUp_eq s c]

theorem chanHealth_bringUps (l : List Nat) (once : l.Nodup) : ∀ s d, chanHealth (l.foldl bringUp s) d =
    if d ∈ l then broughtUp s d else chanHealth s d := by
  induction l with
  | nil => simp
  | cons c t ih =>
    intro s d
    obtain ⟨fresh, rest⟩ := List.nodup_cons.1 once
    have starts : (bringUp s c).coldStarts = s.coldStarts := by rw [bringUp_eq]
    rw [List.foldl_cons, ih rest]
    by_cases own : d = c
    · subst own
      simp [fresh, chanHealth_bringUp]
    · simp [own, broughtUp, chanHealth_bringUp, starts]

theorem lt_length_filter_range (p : Nat → Bool) (n : Nat) :
    (0 < ((List.range n).filter p).length ↔ ∃ j < n, p j = true) ∧
    (1 < ((List.range n).filter p).length ↔ ∃ j k, j < k ∧ k < n ∧ p j = true ∧ p k = true) := by
  have one (n : Nat) : 0 < ((List.range n).filter p).length ↔ ∃ j < n, p j = true := by
    rw [List.length_pos_iff_exists_mem]
    simp
  refine ⟨one n, ?_⟩
  induction n with
  | zero => simp
  | succ n ih =>
    rw [List.range_succ, List.filter_append, List.length_append]
    by_cases last : p n = true
    · have count : 1 < ((List.range n).filter p).length + ([n].filter p).length ↔ 0 < ((List.range n).filter p).length := by
        simp [last]
      rw [count, one]
      constructor
      · rintro ⟨j, low, hit⟩
        exact ⟨j, n, low, n.lt_succ_self, hit, last⟩
      · rintro ⟨j, k, low, high, hit, -⟩
        exact ⟨j, by omega, hit⟩
    · have count : ((List.range n).filter p).length + ([n].filter p).length = ((List.range n).filter p).length := by simp [last]
      rw [count, ih]
      refine exists₂_congr fun j k => and_congr_right fun _ => ⟨fun ⟨high, hits⟩ => ⟨by omega, hits⟩, fun ⟨high, hit, hits⟩ => ?_⟩
      have other : k ≠ n := fun same => last (same ▸ hits)
      exact ⟨by omega, hit, hits⟩

/-- Two stacks of the ten are dead. -/
theorem twoStacksDead_iff (s : State) : 1 < ((List.range 10).filter (stackDead s)).length ↔
    ∃ j k, j < k ∧ k < 10 ∧ stackDead s j = true ∧ stackDead s k = true := (lt_length_filter_range ..).2

section

variable {s : State} (on : s.powered = true)

include on

theorem exec_bootPhaseEnd_hub (phase : s.phase = 0) : exec .bootPhaseEnd s = .next (endHub s) := by
  show execBootPhaseEnd s = _
  simp [execBootPhaseEnd, phaseEnds, on, phase]

theorem exec_bootPhaseEnd_repair (phase : s.phase = 1) : exec .bootPhaseEnd s = .next (endRepair s) := by
  show execBootPhaseEnd s = _
  simp [execBootPhaseEnd, phaseEnds, on, phase]

theorem exec_bootPhaseEnd_warm (phase : s.phase = 2) (warm : 0 ≤ lowestTemp s) :
    exec .bootPhaseEnd s = .next { s with phase := 3 } := by
  show execBootPhaseEnd s = _
  simp [execBootPhaseEnd, phaseEnds, on, phase, warm]

theorem exec_bootPhaseEnd_train (phase : s.phase = 3) : exec .bootPhaseEnd s = .next (endTrain s) := by
  show execBootPhaseEnd s = _
  simp [execBootPhaseEnd, phaseEnds, on, phase]

end

/-- No phase ends without power, after the last, or while a stack is too cold (R402). -/
theorem exec_bootPhaseEnd_stays {s : State} (stays : s.powered = false ∨ 4 ≤ s.phase ∨ s.phase = 2 ∧ lowestTemp s < 0) :
    exec .bootPhaseEnd s = .next s := by
  have shut : (!s.powered || !phaseEnds s) = true := by
    rcases stays with off | late | ⟨phase, cold⟩
    · simp [off]
    · obtain ⟨n, phase⟩ := Nat.exists_eq_add_of_le' late
      simp [phaseEnds, phase]
    · simp [phaseEnds, phase, cold]
  exact if_pos shut

/-- TRAIN's end: READY, or FAILED with two stacks dead (R402). -/
theorem endTrain_spec (s : State) : (endTrain s).phase = (if 1 < ((List.range 10).filter (stackDead (endTrain s))).length then 5 else 4) ∧
    (∀ c, c < 320 → chanHealth (endTrain s) c = broughtUp s c) ∧ SameMemory s (endTrain s) := by
  obtain ⟨a, b, c, d, brings⟩ := bringUps_eq (List.range Config.channels) s
  have health (e : Nat) (low : e < 320) : chanHealth ((List.range Config.channels).foldl bringUp s) e = broughtUp s e :=
    (chanHealth_bringUps _ List.nodup_range ..).trans (if_pos (List.mem_range.2 low))
  have memory : SameMemory s ((List.range Config.channels).foldl bringUp s) := by
    rw [brings]
    exact .of_eq rfl rfl rfl
  unfold endTrain
  dsimp only
  generalize (List.range Config.channels).foldl bringUp s = t at health memory
  split
  case isTrue two => exact ⟨(if_pos two).symm, health, memory.trans (.of_eq rfl rfl rfl)⟩
  case isFalse none => exact ⟨(if_neg none).symm, health, memory.trans (.of_eq rfl rfl rfl)⟩

/-- Settles O60: the mailbox's commands by their OP, the phases by their number, and the loss of power by its definition. -/
theorem theControllerAndPowerAct : Obligations.TheControllerAndPowerAct := by
  unfold Obligations.TheControllerAndPowerAct
  intro s
  refine ⟨?mailbox, ?on, fun off => ?good, exec_bootPhaseEnd_stays, ?boot, ?off⟩
  case mailbox =>
    intro v len input status output command body image level s'
    refine ⟨exec_mailbox (attestInto v) rfl ?attest,
      exec_mailbox (fun s => mbResult { s with staged := s.staged ++ mbInput s v } 0 0) rfl rfl, exec_mailbox commitImage rfl ?commit,
      exec_mailbox (fun s => mbOutput s (lifetimeCounters s)) rfl (mbOutput_eq s (lifetimeCounters s)),
      exec_mailbox (fun s => mbOutput s identityKey) rfl (mbOutput_eq s identityKey), length_identityKey, ?clear⟩
    case attest =>
      by_cases nonce : len = 32
      · exact (if_neg (not_not_intro nonce)).trans ((mbOutput_eq ..).trans (if_pos nonce).symm)
      · exact (if_pos nonce).trans (if_neg nonce).symm
    case commit =>
      by_cases verified : imageVerifies s.staged = false
      · exact (if_pos (by rw [verified]; rfl)).trans (if_pos verified).symm
      · exact (if_neg (by simpa using verified)).trans (if_neg verified).symm
    case clear =>
      obtain ⟨l, clears, kept⟩ := clearRepairs_eq s
      exact ⟨l, exec_mailbox _ (exec_clearRepairEntries v s) (congrArg (mbResult · 0 0) clears), kept⟩
  case on => exact fun on => if_pos on
  case good => exact if_neg (by rw [off]; exact Bool.false_ne_true)
  case boot =>
    intro on
    refine ⟨fun phase => ⟨trainedModules s, ?hub, fun i => ?modules⟩, fun phase => ?repair,
      fun phase warm => exec_bootPhaseEnd_warm on phase warm, fun phase => ?train⟩
    case hub =>
      exact (exec_bootPhaseEnd_hub on phase).trans (congrArg Host.Outcome.next (endHub_eq s))
    case modules =>
      rw [trainedModules, List.getElem?_map, List.getElem?_zipIdx, Option.map_map, Nat.zero_add]
      rfl
    case repair =>
      refine ⟨_, _, _, exec_bootPhaseEnd_repair on phase, length_burnEntries .., fun k => ?_⟩
      refine (cget_foldl_mark ..).trans ?_
      simp [and_assoc, cget, find?]
    case train =>
      obtain ⟨ends, health, memory⟩ := endTrain_spec s
      refine ⟨endTrain s, exec_bootPhaseEnd_train on phase, ?_, health, ?_, memory⟩
      · rw [ends]
        split <;> simp
      · rw [← twoStacksDead_iff, ends]
        split <;> simp [*]
  case off => exact ⟨_, rfl, rfl, rfl, rfl, rfl, rfl, rfl, rfl, rfl, rfl, rfl, rfl, rfl, rfl, rfl, rfl, rfl, rfl⟩

end Sys2Proof.Machine

/-!
SUPPORT and PROOF. What injections and failures leave of the channels (R29, R320, R329, R339, R344), and what the reads and writes
of a span leave alone.
-/

namespace Sys2Proof.Machine

/-! ### What the work on a span leaves alone -/

/-- The lines of the slices and the stale bits are the same. -/
def SameSlices (s t : State) : Prop := t.l2 = s.l2 ∧ t.stale = s.stale

theorem SameSlices.refl (s : State) : SameSlices s s := ⟨rfl, rfl⟩

theorem SameSlices.trans {a b c : State} (h : SameSlices a b) (g : SameSlices b c) : SameSlices a c :=
  ⟨g.1.trans h.1, g.2.trans h.2⟩

theorem SameSlices.foldl {α : Type} {f : State → α → State} (hf : ∀ s x, SameSlices s (f s x)) (l : List α) (s : State) :
    SameSlices s (l.foldl f s) := by
  induction l generalizing s with
  | nil => exact .refl s
  | cons a t ih => exact (hf s a).trans (ih _)

theorem SameSlices.ite {c : Prop} [Decidable c] {s a b : State} (ha : SameSlices s a) (hb : SameSlices s b) :
    SameSlices s (if c then a else b) := by
  split
  · exact ha
  · exact hb

theorem countChan_sameSlices (s : State) (c : Nat) (f : ChanCount → ChanCount) : SameSlices s (countChan s c f) := ⟨rfl, rfl⟩

theorem appendRepair_sameSlices (s : State) (c slot reason pc : Nat) : SameSlices s (appendRepair s c slot reason pc) := by
  unfold appendRepair
  exact .ite ⟨rfl, rfl⟩ (countChan_sameSlices ..)

theorem retireSlot_sameSlices (s : State) (c slot reason : Nat) (pcs : List Nat) :
    SameSlices s (retireSlot s c slot reason pcs) := by
  unfold retireSlot
  refine .ite (.refl s) ?_
  dsimp only
  have counted : SameSlices s (countChan { s with retired := cset false s.retired (slotKey c slot) true } c
    (fun k => { k with retired := k.retired + 1 })) := ⟨rfl, rfl⟩
  exact counted.trans (.foldl (fun s pc => appendRepair_sameSlices s c slot reason pc) pcs _)

theorem countCe_sameSlices (s : State) (c slot q n : Nat) : SameSlices s (countCe s c slot q n) := by
  unfold countCe
  dsimp only
  have counted := countChan_sameSlices s c (fun k => { k with
    ce := k.ce + n
    bins := cset 0 k.bins (tempBin (chanTemp s c)) (cget 0 k.bins (tempBin (chanTemp s c)) + n)
    slots := cset 0 k.slots slot (cget 0 k.slots slot + n) })
  generalize countChan s c _ = x at counted ⊢
  exact .ite (SameSlices.trans counted (retireSlot_sameSlices { x with passCe := _ } c slot 0 _)) counted

theorem mendSector_sameSlices (s : State) (c slot q : Nat) : SameSlices s (mendSector s c slot q) := by
  unfold mendSector
  exact ⟨rfl, rfl⟩

theorem setSkew_sameSlices (s : State) (u p q : Nat) (l : List Byte) : SameSlices s (setSkew s u p q l) := ⟨rfl, rfl⟩

theorem poisonSector_sameSlices (s : State) (pa : Nat) : SameSlices s (poisonSector s pa) := by
  unfold poisonSector
  exact ⟨rfl, rfl⟩

theorem flipSector_sameSlices (s : State) (u d q : Nat) (e : List Byte) : SameSlices s (flipSector s u d q e) := ⟨rfl, rfl⟩

theorem writeChecks_sameSlices (s : State) (u q : Nat) : SameSlices s (writeChecks s u q) := by
  unfold writeChecks
  exact .foldl (fun s _ => .ite (.refl s) (mendSector_sameSlices ..)) _ s

theorem encodeSpan_sameSlices (s : State) (u q : Nat) : SameSlices s (encodeSpan s u q) := by
  unfold encodeSpan
  exact (SameSlices.foldl (fun s p => setSkew_sameSlices s u p q _) _ s).trans (writeChecks_sameSlices ..)

theorem poisonSpan_sameSlices (s : State) (u q : Nat) (all : Bool) : SameSlices s (poisonSpan s u q all) := by
  unfold poisonSpan
  refine SameSlices.trans (SameSlices.trans (SameSlices.foldl (fun t d => ?_) _ s) (encodeSpan_sameSlices ..))
    (countChan_sameSlices ..)
  have poisoned := poisonSector_sameSlices t (spanAddr u d q)
  dsimp only
  generalize poisonSector t (spanAddr u d q) = x at poisoned ⊢
  exact .ite poisoned (poisoned.trans (mendSector_sameSlices ..))

theorem slipMember_sameSlices (s : State) (u p q : Nat) (e : List Byte) : SameSlices s (slipMember s u p q e) := by
  unfold slipMember
  exact .ite ((setSkew_sameSlices ..).trans (flipSector_sameSlices ..)) (setSkew_sameSlices ..)

theorem decodeMember_sameSlices (s : State) (u d q : Nat) : SameSlices s (decodeMember s u d q) := by
  unfold decodeMember
  exact .ite (.refl s) (slipMember_sameSlices ..)

theorem readSectorCode_sameSlices (s : State) (u p q : Nat) : SameSlices s (readSectorCode s u p q) := by
  unfold readSectorCode
  dsimp only
  refine .ite (.refl s) ?_
  split
  · rename_i fix rest _ _
    have counted : SameSlices s (if fix.all (· == 0) then s else countCe s (memberChannel s u (posMember u p)) (unitSlot u) q 1) :=
      .ite (.refl s) (countCe_sameSlices ..)
    generalize (if fix.all (· == 0) then s else countCe s (memberChannel s u (posMember u p)) (unitSlot u) q 1) = x at counted ⊢
    exact .ite counted (counted.trans (slipMember_sameSlices { x with symbols := _ } u p q _))
  · exact .refl s

theorem oldTouch_sameSlices (s : State) (pa : Nat) : SameSlices s (oldTouch s pa) := by
  unfold oldTouch
  exact .ite (.refl s) (.ite (readSectorCode_sameSlices ..) (.ite (poisonSpan_sameSlices ..) (decodeMember_sameSlices ..)))

theorem decodeSpan_sameSlices (s : State) (u p q : Nat) : SameSlices s (decodeSpan s u p q) := by
  unfold decodeSpan
  exact .ite (poisonSpan_sameSlices ..) (.ite (decodeMember_sameSlices ..) (.refl s))

theorem l2_writeTarget (s : State) (u i q : Nat) : (writeTarget s u i q).l2 = s.l2 := by
  unfold writeTarget
  split
  · exact (SameSlices.ite (mendSector_sameSlices ..) (.refl s)).1
  · rfl

/-- A write marks no line of a slice (R332). -/
theorem l2_writeTouch (s : State) (pa : Nat) : (writeTouch s pa).l2 = s.l2 := by
  unfold writeTouch
  split
  · rfl
  · refine (l2_writeTarget ..).trans ((writeChecks_sameSlices ..).1.trans ?_)
    split
    · exact (mendSector_sameSlices ..).1
    · split <;> rfl

/-! ### INJPOISON (R320) -/

/-- The machine before INJPOISON marks its sector: no copy of the line is left. -/
def copiesDropped (s : State) (pa : Nat) : State :=
  dropL2 (dropLines (backInvalidate s pa) (fun _ => true) (fun x => x.home == .dev (pa / 128 * 128)))
    (fun x => x.home == .dev (pa / 128 * 128))

theorem copiesDropped_onlyMemory (s : State) (pa : Nat) : OnlyMemory s (copiesDropped s pa) := by
  unfold copiesDropped backInvalidate
  split <;> rfl

theorem home_ne_of_l2_copiesDropped {s : State} {pa : Nat} {e : Nat × List L2Line} (slice : e ∈ (copiesDropped s pa).l2) {x : L2Line}
    (line : x ∈ e.2) : x.home ≠ .dev (pa / 128 * 128) := by
  obtain ⟨y, -, rfl⟩ := List.mem_map.1 (List.mem_filter.1 slice).1
  simpa using (List.mem_filter.1 line).2

theorem home_ne_of_l1_copiesDropped {s : State} {pa m : Nat} {x : L1Line} (line : x ∈ (getCore (copiesDropped s pa) m).l1) :
    x.home ≠ .dev (pa / 128 * 128) := by
  have kept : x ∈ (getCore (dropLines (backInvalidate s pa) (fun _ => true) (fun x => x.home == .dev (pa / 128 * 128))) m).l1 := line
  rw [l1_dropLines _ _ rfl] at kept
  simpa using (List.mem_filter.1 kept).2

theorem not_held_copiesDropped (s : State) (pa : Nat) : pa / 64 ∉ (copiesDropped s pa).hostHeld := by
  show pa / 64 ∉ (backInvalidate s pa).hostHeld
  unfold backInvalidate
  split
  · simp
  · rename_i free
    simpa using free

/-- What INJPOISON leaves. -/
def poisonInjected (s : State) (pa : Nat) : State := poisonSector (writeTouch (oldTouch (copiesDropped s pa) pa) pa) pa

theorem poisonInjected_home (s : State) (pa : Nat) : HomeOnly (copiesDropped s pa) (poisonInjected s pa) :=
  ((oldTouch_homeOnly (copiesDropped s pa) pa).trans (writeTouch_homeOnly _ pa)).trans (poisonSector_homeOnly _ pa)

theorem l2_poisonInjected (s : State) (pa : Nat) : (poisonInjected s pa).l2 = (copiesDropped s pa).l2 := by
  unfold poisonInjected
  exact (poisonSector_sameSlices ..).1.trans ((l2_writeTouch ..).trans (oldTouch_sameSlices ..).1)

/-- Where no part of the memory is lost, only the sector of INJPOISON is written (R320). -/
theorem poisonInjected_elsewhere {s : State} (good : allGood s = true) {pa a : Nat} (other : a / 32 ≠ pa / 32) :
    cget 0#8 (poisonInjected s pa).dev a = cget 0#8 s.dev a ∧ devPoisoned (poisonInjected s pa) a = devPoisoned s a := by
  have still : allGood (copiesDropped s pa) = true := (back_good (pa := pa) good).1
  have dev : (copiesDropped s pa).dev = s.dev ∧ (copiesDropped s pa).devPoison = s.devPoison := by
    unfold copiesDropped backInvalidate
    split <;> exact ⟨rfl, rfl⟩
  have touches : writeTouch (oldTouch (copiesDropped s pa) pa) pa = copiesDropped s pa := by
    rw [oldTouch, if_pos still, writeTouch, if_pos still]
  unfold poisonInjected
  rw [touches, poisonSector, devPoisoned, devPoisoned, dev.1, dev.2]
  have outside : a < sectorOf pa * 32 ∨ sectorOf pa * 32 + (List.replicate 32 0#8).length ≤ a := by
    rw [List.length_replicate, sectorOf]
    omega
  constructor
  · dsimp only
    rw [cget_csetRun_outside _ _ _ outside]
  · dsimp only
    exact cget_cset_ne _ _ _ other

/-! ### Dead channels (R329) -/

/-- `t` is `s` with the channels that `p` names dead: none of their slots is stale, and none is in training (R29, R329, R339). -/
def Killed (s t : State) (p : Nat → Prop) : Prop :=
  t = { s with health := t.health, stale := t.stale, dueNow := t.dueNow, retraining := t.retraining } ∧
    (∀ d, (p d → chanHealth t d = .dead) ∧ (¬ p d → chanHealth t d = chanHealth s d)) ∧
    (∀ k, cget false t.stale k = true ↔ cget false s.stale k = true ∧ ¬ p (k / 524288)) ∧
    ∀ d n, t.retraining = some (d, n) ↔ s.retraining = some (d, n) ∧ ¬ p d

theorem chanHealth_killChannel (s : State) (c d : Nat) :
    chanHealth (killChannel s c) d = if d = c then .dead else chanHealth s d := cget_cset Health.good s.health c d Health.dead

theorem stale_killChannel (s : State) (c k : Nat) :
    cget false (killChannel s c).stale k = true ↔ cget false s.stale k = true ∧ k / 524288 ≠ c := by
  show cget false (s.stale.filter (fun e => e.1 / 524288 ≠ c)) k = true ↔ _
  unfold cget
  rw [find?_filter_keys (fun j => decide (j / 524288 ≠ c))]
  by_cases own : k / 524288 = c <;> simp [own]

theorem retraining_killChannel (s : State) (c d n : Nat) :
    (killChannel s c).retraining = some (d, n) ↔ s.retraining = some (d, n) ∧ d ≠ c := by
  unfold killChannel
  dsimp only
  cases h : s.retraining with
  | none => simp
  | some e =>
    obtain ⟨a, b⟩ := e
    dsimp only
    split <;> simp only [Option.some.injEq, Prod.mk.injEq, reduceCtorEq, false_iff] <;> omega

/-- Channels die one after the other. -/
theorem killed_foldl (l : List Nat) (s : State) : Killed s (l.foldl killChannel s) (· ∈ l) := by
  induction l generalizing s with
  | nil => exact ⟨rfl, by simp, by simp, by simp⟩
  | cons c t ih =>
    obtain ⟨only, health, stale, training⟩ := ih (killChannel s c)
    refine ⟨only, fun d => ?_, fun k => ?_, fun d n => ?_⟩
    · obtain ⟨dead, same⟩ := health d
      rw [chanHealth_killChannel] at same
      simp only [List.foldl_cons, List.mem_cons, not_or]
      refine ⟨fun hit => ?_, fun ⟨other, rest⟩ => (same rest).trans (if_neg other)⟩
      by_cases rest : d ∈ t
      · exact dead rest
      · exact (same rest).trans (if_pos (hit.resolve_right rest))
    · rw [List.foldl_cons, stale, stale_killChannel]
      simp [and_assoc]
    · rw [List.foldl_cons, training, retraining_killChannel]
      simp [and_assoc]

theorem Killed.congr {s t : State} {p q : Nat → Prop} (h : Killed s t p) (same : ∀ d, p d ↔ q d) : Killed s t q := by
  have equal : p = q := funext fun d => propext (same d)
  exact equal ▸ h

theorem killed_channel (s : State) (c : Nat) : Killed s (killChannel s c) (fun d => d = c) :=
  (killed_foldl [c] s).congr fun d => by simp

theorem killed_stack (s : State) (c : Nat) :
    Killed s ((List.range 32).foldl (fun s i => killChannel s (c / 32 * 32 + i)) s) (fun d => d / 32 = c / 32) := by
  rw [← List.foldl_map (f := fun i => c / 32 * 32 + i) (g := killChannel)]
  refine (killed_foldl _ s).congr fun d => ?_
  simp only [List.mem_map, List.mem_range]
  refine ⟨?_, fun own => ⟨d % 32, by omega, by omega⟩⟩
  rintro ⟨i, low, rfl⟩
  omega

/-! ### INJDEAD (R344) -/

/-- An INJDEAD write that its fields let act. -/
def InjdeadActs (v : Double) (kind : Nat) : Prop :=
  v.getLsbD 63 = true ∧ bits v.toNat 62 60 = kind ∧ bits v.toNat 59 19 = 0 ∧ bits v.toNat 3 0 = 0 ∧ bits v.toNat 18 10 < 320

theorem exec_injdead {i : Instr} {v : Double} {kind : Nat} {s : State} (f : Nat → State) (runs : exec i s = injdead v kind s f) :
    (¬ InjdeadActs v kind → exec i s = .next s) ∧ (InjdeadActs v kind → exec i s = .next (f (bits v.toNat 18 10))) := by
  refine ⟨fun ignored => runs.trans (if_pos (by_contra fun acts => ignored ?_)), fun acts => runs.trans (if_neg ?_)⟩
  · simp only [Bool.or_eq_true, not_or, Bool.not_eq_true', decide_eq_true_eq, ne_eq, not_not, Bool.not_eq_false, not_le] at acts
    obtain ⟨⟨⟨⟨set, same⟩, high⟩, low⟩, channel⟩ := acts
    exact ⟨set, same, high, low, channel⟩
  · obtain ⟨set, same, high, low, channel⟩ := acts
    have bit : bitAt v.toNat 63 = true := set
    simp [bit, same, high, low, Config.channels, Nat.not_le.2 channel]

end Sys2Proof.Machine

/-!
SUPPORT and PROOF. Training, rebuilding, stale slots and the scrubber (R335 to R341).
-/

namespace Sys2Proof.Machine

/-! ### Live retraining (R338) -/

/-- The channel that is trained next is the lowest that is due (R338). -/
theorem nextRetrain_lowest {s : State} {c : Nat} (next : nextRetrain s = some c) :
    let may (d : Nat) : Prop := chanHealth s d = .good ∧ retrainDue s d = true ∧ retrainDeferred s d = false
    s.phase = 4 ∧ s.retraining = none ∧ may c ∧ ∀ d, d < c → ¬ may d := by
  unfold nextRetrain at next
  split at next
  · exact absurd next (by simp)
  · rename_i ready
    obtain ⟨found, -, lowest⟩ := List.find?_range_eq_some.1 next
    simp only [Bool.or_eq_true, decide_eq_true_eq, not_or, not_not, Bool.not_eq_true, Option.isSome_eq_false_iff,
      Option.isNone_iff_eq_none] at ready
    simp only [Bool.and_eq_true, beq_iff_eq, Bool.not_eq_true'] at found
    refine ⟨ready.1, ready.2, ⟨found.1.1, found.1.2, found.2⟩, fun d below both => ?_⟩
    obtain ⟨health, due, free⟩ := both
    have none := lowest d below
    simp [health, due, free] at none

theorem exec_retrainEnd {s : State} {c n : Nat} (training : s.retraining = some (c, n)) (early : s.now < n + 4000000) :
    exec .retrainEnd s = .next { s with
      health := cset .good s.health c .good, retraining := none, trained := cset 0 s.trained c s.now,
      trainTemp := cset 25 s.trainTemp c (cget 25 s.temps (c / 32)), dueNow := cset false s.dueNow c false,
      unbond := (pinUnbondable s).unbond } := by
  show execRetrainEnd s = _
  unfold execRetrainEnd
  simp only [training, if_neg (Nat.not_le.2 early)]
  rw [pinUnbondable_eq]
  rfl

/-! ### The symbols of a sector (R327) -/

theorem mem_cgetRun {α : Type} {d : α} {m : Cells α} {x : α} {n : Nat} : ∀ {k : Nat}, x ∈ cgetRun d m k n ↔
    ∃ i < n, cget d m (k + i) = x := by
  induction n with
  | zero => simp [cgetRun]
  | succ n ih =>
    intro k
    rw [cgetRun, List.mem_cons, ih]
    constructor
    · rintro (rfl | ⟨i, low, rfl⟩)
      · exact ⟨0, n.succ_pos, rfl⟩
      · exact ⟨i + 1, by omega, by rw [Nat.add_assoc, Nat.add_comm 1]⟩
    · rintro ⟨i, low, rfl⟩
      cases i with
      | zero => exact .inl rfl
      | succ i => exact .inr ⟨i, by omega, by rw [Nat.add_assoc, Nat.add_comm 1]⟩

/-- A sector is its codeword where each of its symbols is right. -/
theorem sectorClean_iff {s : State} {c slot q : Nat} :
    sectorClean s c slot q = true ↔ ∀ i < 36, cget 0#8 s.symbols (36 * sectorKey c slot q + i) = 0#8 := by
  rw [sectorClean, sectorDiff, List.all_eq_true]
  constructor
  · intro h i low
    simpa using h _ (mem_cgetRun.2 ⟨i, low, rfl⟩)
  · intro h x member
    obtain ⟨i, low, rfl⟩ := mem_cgetRun.1 member
    simpa using h i low

/-- The symbols once a sector is written: right in that sector, as before elsewhere. -/
theorem symbol_mendSector (s : State) (c slot q j : Nat) : cget 0#8 (mendSector s c slot q).symbols j =
    if j / 36 = sectorKey c slot q then 0#8 else cget 0#8 s.symbols j := by
  unfold mendSector
  dsimp only
  rw [cget_csetRun]
  split
  · rename_i inside
    rw [List.length_replicate] at inside
    rw [if_pos (by omega), List.getElem_replicate]
    rfl
  · rename_i outside
    rw [List.length_replicate] at outside
    rw [if_neg (by omega)]

theorem sectorClean_mendSector_self (s : State) (c slot q : Nat) : sectorClean (mendSector s c slot q) c slot q = true :=
  sectorClean_iff.2 fun i low => (symbol_mendSector ..).trans (if_pos (by omega))

/-- A sector that is its codeword stays so when a sector is written. -/
theorem sectorClean_mendSector {s : State} {c slot q : Nat} (clean : sectorClean s c slot q = true) (c' slot' q' : Nat) :
    sectorClean (mendSector s c' slot' q') c slot q = true := by
  refine sectorClean_iff.2 fun i low => (symbol_mendSector ..).trans ?_
  split
  · rfl
  · exact sectorClean_iff.1 clean i low

theorem sectorBad_of_clean {s : State} {c slot q : Nat} (clean : sectorClean s c slot q = true) : sectorBad s c slot q = false := by
  rw [sectorBad, clean]
  rfl

/-- The machine with other symbols in its sectors. -/
def withSymbols (s : State) (m : Cells Byte) : State := { s with symbols := m }

theorem mendSector_withSymbols (s : State) (m : Cells Byte) (c slot q : Nat) :
    mendSector (withSymbols s m) c slot q = withSymbols s (mendSector (withSymbols s m) c slot q).symbols := by
  unfold mendSector withSymbols
  dsimp only

theorem spanClean_withSymbols (s : State) (m : Cells Byte) (u q : Nat) : spanClean (withSymbols s m) u q = spanClean s u q := rfl

/-- A span whose members agree, with less than three of them lost, reads as it stands (R331). -/
theorem decodeSpan_clean {s : State} {u q : Nat} (few : lostCount s u q < 3) (clean : spanClean s u q = true) (p : Nat) :
    decodeSpan s u p q = s := by
  rw [decodeSpan, if_neg (Nat.not_le.2 few), decodeMember, if_pos clean, ite_self]

/-! ### The repointing engine (R335 to R337) -/

theorem exec_rebuildSpan {s : State} (ready : s.phase = 4) {r : Rebuild} (next : nextRebuild s = some r) (rest : r.cursor < 128) :
    exec .rebuildSpan s = .next { mendSector (rebuildRead s r.unit r.member r.cursor) r.target (unitSlot r.unit) r.cursor with
      rebuild := some { r with cursor := r.cursor + 1 } } := by
  show execRebuildSpan s = _
  unfold execRebuildSpan
  rw [if_neg (not_not_intro ready), next]
  exact if_neg (Nat.not_le.2 rest)

theorem exec_rebuildSpan_done {s : State} (ready : s.phase = 4) {r : Rebuild} (next : nextRebuild s = some r) (done : 128 ≤ r.cursor) :
    exec .rebuildSpan s = .next { s with rebuild := some r } := by
  show execRebuildSpan s = _
  unfold execRebuildSpan
  rw [if_neg (not_not_intro ready), next]
  exact if_pos done

theorem exec_rebuildSpan_none {s : State} (ready : s.phase = 4) (next : nextRebuild s = none) :
    exec .rebuildSpan s = .next { s with rebuild := none } := by
  show execRebuildSpan s = _
  unfold execRebuildSpan
  rw [if_neg (not_not_intro ready), next]

/-! ### The bond table (R325) -/

/-- The channel that an entry of the bond table gives member `i` of unit `u`. -/
def entryChannel (e u i : Nat) : Nat :=
  if bitAt e 14 && bits e 13 9 = i then bits e 8 0
  else if bitAt e 29 && bits e 28 24 = i then bits e 23 15
  else defaultChannel u i

theorem memberChannel_eq (s : State) (u i : Nat) : memberChannel s u i = entryChannel (bondEntry s u) u i := rfl

/-- The field of an entry that a substitution of member `i` takes. -/
def entryField (e i : Nat) : Option Nat :=
  if bitAt e 14 && bits e 13 9 = i then some 0
  else if bitAt e 29 && bits e 28 24 = i then some 1
  else if !bitAt e 14 then some 0
  else if !bitAt e 29 then some 1
  else none

theorem memberField_eq (s : State) (u i : Nat) : memberField s u i = entryField (bondEntry s u) i := rfl

theorem bitAt_eq (x n : Nat) : bitAt x n = decide (x / 2 ^ n % 2 = 1) := Nat.testBit_eq_decide_div_mod_eq

/-- A substitution writes its own field and leaves the other. -/
theorem bondWith_bits {e f i c : Nat} (member : i < 18) (channel : c < 320) : let w := bondWith e f i c
    if f = 0 then bitAt w 14 = true ∧ bits w 13 9 = i ∧ bits w 8 0 = c ∧ bitAt w 29 = bitAt e 29 ∧
        bits w 28 24 = bits e 28 24 ∧ bits w 23 15 = bits e 23 15
      else bitAt w 29 = true ∧ bits w 28 24 = i ∧ bits w 23 15 = c ∧ bitAt w 14 = bitAt e 14 ∧
        bits w 13 9 = bits e 13 9 ∧ bits w 8 0 = bits e 8 0 := by
  intro w
  simp only [w, bitAt_eq, decide_eq_true_eq, decide_eq_decide, bits, bondWith]
  split <;> norm_num <;> omega

theorem bondWith_lt {e f i c : Nat} (word : e < 2 ^ 32) (member : i < 18) (channel : c < 320) : bondWith e f i c < 2 ^ 32 := by
  unfold bondWith
  split <;> omega

/-- A substituted member stands on its target, and every other where it stood (R325). -/
theorem entryChannel_bondWith {e f i c : Nat} (u : Nat) (field : entryField e i = some f) (member : i < 18) (channel : c < 320) :
    entryChannel (bondWith e f i c) u i = c ∧ ∀ j, j ≠ i → entryChannel (bondWith e f i c) u j = entryChannel e u j := by
  have written := bondWith_bits (e := e) (f := f) member channel
  generalize bondWith e f i c = w at written
  unfold entryField at field
  simp only [Bool.and_eq_true, decide_eq_true_eq] at field
  unfold entryChannel
  by_cases first : f = 0
  · rw [if_pos first] at written
    obtain ⟨valid, named, target, other, otherNamed, otherTarget⟩ := written
    simp only [valid, named, target, other, otherNamed, otherTarget, Bool.true_and, decide_true, if_true, true_and]
    intro j differs
    have unnamed : ¬ (bitAt e 14 = true ∧ bits e 13 9 = j) := by
      rintro ⟨set, holds⟩
      have taken : ¬ (bitAt e 14 = true ∧ bits e 13 9 = i) := fun both => differs (holds.symm.trans both.2)
      rw [if_neg taken] at field
      split at field <;> simp_all
    simp [Ne.symm differs, unnamed]
  · rw [if_neg first] at written
    obtain ⟨valid, named, target, other, otherNamed, otherTarget⟩ := written
    have free : ¬ (bitAt e 14 = true ∧ bits e 13 9 = i) := fun both => first (by simpa [both.1, both.2] using field.symm)
    rw [if_neg free] at field
    simp only [valid, named, target, other, otherNamed, otherTarget, Bool.true_and, Bool.and_eq_true, decide_eq_true_eq,
      decide_true, if_true, if_neg free, true_and]
    intro j differs
    have unnamed : ¬ (bitAt e 29 = true ∧ bits e 28 24 = j) := by
      rintro ⟨set, holds⟩
      have taken : ¬ (bitAt e 29 = true ∧ bits e 28 24 = i) := fun both => differs (holds.symm.trans both.2)
      rw [if_neg taken] at field
      split at field <;> simp_all
    simp [Ne.symm differs, unnamed]

/-! ### The switch of a member (R296, R336) -/

/-- The machine once a member has switched to its target. -/
def switched (s : State) (r : Rebuild) (f : Nat) : State :=
  let s := dropLines s (fun _ => true) (fun x => match x.home with
    | .dev pa => unitOf pa = r.unit
    | _ => false)
  let s := dropL2 s (fun x => match x.home with
    | .dev pa => unitOf pa = r.unit && posMember r.unit (posOf pa) = r.member
    | _ => false)
  { s with rebuild := none, bond := cset 0#32 s.bond r.unit (BitVec.ofNat 32 (bondWith (bondEntry s r.unit) f r.member r.target)) }

theorem exec_memberSwitch {s : State} (ready : s.phase = 4) {r : Rebuild} (running : s.rebuild = some r) (done : 128 ≤ r.cursor)
    (stands : rebuildStands s r = true) {f : Nat} (field : memberField s r.unit r.member = some f) :
    exec .memberSwitch s = .next (switched s r f) := by
  show execMemberSwitch s = _
  unfold execMemberSwitch
  simp only [running, if_neg (show ¬ (decide (r.cursor < 128) || decide (s.phase ≠ 4)) = true by simp [ready, done]),
    stands, Bool.not_true, Bool.false_eq_true, if_false, field]
  rfl

theorem exec_memberSwitch_lapsed {s : State} (ready : s.phase = 4) {r : Rebuild} (running : s.rebuild = some r) (done : 128 ≤ r.cursor)
    (lapsed : rebuildStands s r = false ∨ memberField s r.unit r.member = none) :
    exec .memberSwitch s = .next { s with rebuild := none } := by
  show execMemberSwitch s = _
  unfold execMemberSwitch
  simp only [running, if_neg (show ¬ (decide (r.cursor < 128) || decide (s.phase ≠ 4)) = true by simp [ready, done])]
  cases stands : rebuildStands s r with
  | false => rw [if_pos (by rfl)]
  | true =>
    rw [if_neg (by simp), lapsed.resolve_left (by simp [stands])]

theorem bondEntry_switched (s : State) (r : Rebuild) (f u : Nat) (member : r.member < 18) (target : r.target < 320) :
    bondEntry (switched s r f) u =
      if u = r.unit then bondWith (bondEntry s r.unit) f r.member r.target else bondEntry s u := by
  have entry : bondEntry (switched s r f) u = (cget 0#32 (cset 0#32 s.bond r.unit
    (BitVec.ofNat 32 (bondWith (bondEntry s r.unit) f r.member r.target))) u).toNat := rfl
  rw [entry, cget_cset]
  split
  · exact Nat.mod_eq_of_lt (bondWith_lt (BitVec.isLt _) member target)
  · rfl

theorem unitOf_ne_of_switched {s : State} {r : Rebuild} {f m pa : Nat} {x : L1Line}
    (line : x ∈ (getCore (switched s r f) m).l1) (device : x.home = .dev pa) : unitOf pa ≠ r.unit := by
  have kept : x ∈ (getCore (dropLines s (fun _ => true) (fun x => match x.home with
    | .dev pa => unitOf pa = r.unit
    | _ => false)) m).l1 := line
  rw [l1_dropLines _ _ rfl] at kept
  simpa [device] using (List.mem_filter.1 kept).2

/-! ### Stale slots (R339) -/

theorem cgetRun_congr {α : Type} {d : α} {m m' : Cells α} {n : Nat} : ∀ {k : Nat},
    (∀ i < n, cget d m (k + i) = cget d m' (k + i)) → cgetRun d m k n = cgetRun d m' k n := by
  induction n with
  | zero => exact fun _ => rfl
  | succ n ih =>
    intro k same
    have first : cget d m k = cget d m' k := same 0 n.succ_pos
    have rest : cgetRun d m (k + 1) n = cgetRun d m' (k + 1) n := ih fun i low => by
      rw [Nat.add_assoc, Nat.add_comm 1]
      exact same (i + 1) (by omega)
    rw [cgetRun, cgetRun, first, rest]

/-- A sector whose symbols are as before is lost as before. -/
theorem lostCount_withSymbols {s : State} {m : Cells Byte} {u q : Nat} (low : q < 128)
    (same : ∀ j, j / 36 % 128 = q → cget 0#8 m j = cget 0#8 s.symbols j) :
    lostCount (withSymbols s m) u q = lostCount s u q := by
  have diff (i : Nat) : sectorDiff (withSymbols s m) (memberChannel s u i) (unitSlot u) q
      = sectorDiff s (memberChannel s u i) (unitSlot u) q :=
    cgetRun_congr fun j short => same _ (by unfold sectorKey; omega)
  have bad (i : Nat) : memberBad (withSymbols s m) u i q = memberBad s u i q := by
    show sectorBad (withSymbols s m) (memberChannel s u i) (unitSlot u) q = sectorBad s (memberChannel s u i) (unitSlot u) q
    unfold sectorBad sectorClean sectorRest
    rw [diff]
  unfold lostCount
  refine congrArg List.length (List.filter_congr fun i _ => ?_)
  show (memberShut s u i q || memberBad (withSymbols s m) u i q) = _
  rw [bad]
  rfl

/-- The slot's sectors, rewritten one after the other. -/
def slotRewritten (s : State) (u p c slot n : Nat) : State :=
  (List.range n).foldl (fun s q => mendSector (decodeSpan s u p q) c slot q) s

theorem slotRewritten_succ (s : State) (u p c slot n : Nat) : slotRewritten s u p c slot (n + 1) =
    mendSector (decodeSpan (slotRewritten s u p c slot n) u p n) c slot n := by
  simp [slotRewritten, List.range_succ]

/-- Where the members of every span agree, a rewrite changes the symbols of the slot alone. -/
theorem slotRewritten_clean {s : State} {u : Nat} (clean : ∀ q, q < 128 → lostCount s u q < 3 ∧ spanClean s u q = true)
    (p c slot : Nat) {n : Nat} (most : n ≤ 128) : ∃ m, slotRewritten s u p c slot n = withSymbols s m ∧
      ∀ j, n ≤ j / 36 % 128 → cget 0#8 m j = cget 0#8 s.symbols j := by
  induction n with
  | zero => exact ⟨s.symbols, rfl, fun _ _ => rfl⟩
  | succ n ih =>
    obtain ⟨m, before, same⟩ := ih (by omega)
    obtain ⟨few, agree⟩ := clean n (by omega)
    have few' : lostCount (withSymbols s m) u n < 3 := by
      rw [lostCount_withSymbols (by omega) fun j at_ => same j at_.ge]
      exact few
    refine ⟨(mendSector (withSymbols s m) c slot n).symbols, ?_, fun j later => ?_⟩
    · rw [slotRewritten_succ, before, decodeSpan_clean few' ((spanClean_withSymbols s m u n).trans agree)]
      exact mendSector_withSymbols s m c slot n
    · rw [symbol_mendSector, if_neg (by unfold sectorKey; omega)]
      exact same j (by omega)

theorem slotRewritten_homeOnly (s : State) (u p c slot n : Nat) : HomeOnly s (slotRewritten s u p c slot n) := by
  refine HomeOnly.foldl (fun s q => ?_) _ s
  exact HomeOnly.trans (.ite (poisonSpan_homeOnly ..) (.ite (decodeMember_homeOnly ..) (.refl s))) (mendSector_homeOnly ..)

theorem slotRewritten_sameSlices (s : State) (u p c slot n : Nat) : SameSlices s (slotRewritten s u p c slot n) :=
  SameSlices.foldl (fun s q => (decodeSpan_sameSlices s u p q).trans (mendSector_sameSlices _ c slot q)) _ s

theorem exec_staleSlotRewrite {s : State} (ready : s.phase = 4) {k : Nat} (slot : staleSlot s = some k) (free : doubleLoss s = none) :
    ∃ t, exec .staleSlotRewrite s = .next { t with stale := cset false t.stale k false } ∧
      (t = s ∨ ∃ u p, slotUser s (k / 524288) (k % 524288) = some u ∧ t = slotRewritten s u p (k / 524288) (k % 524288) 128) := by
  show ∃ t, execStaleSlotRewrite s = _ ∧ _
  unfold execStaleSlotRewrite
  rw [if_neg (by simp [ready, free]), slot]
  dsimp only
  cases user : slotUser s (k / 524288) (k % 524288) with
  | none => exact ⟨s, rfl, .inl rfl⟩
  | some u => exact ⟨_, rfl, .inr ⟨u, _, rfl, rfl⟩⟩

end Sys2Proof.Machine

/-!
SUPPORT and PROOF. The scrubber (R340, R341), and the parts of device memory as a whole.
-/

namespace Sys2Proof.Machine

/-! ### The scrubber (R340) -/

theorem scrubSector_homeOnly (s : State) (c slot q : Nat) : HomeOnly s (scrubSector s c slot q) := by
  unfold scrubSector
  exact .ite (.refl s) (.ite (countBad_homeOnly ..) ((countCe_homeOnly ..).trans (mendSector_homeOnly ..)))

theorem scrubMember_homeOnly (s : State) (u q p : Nat) : HomeOnly s (scrubMember s u q p) := by
  unfold scrubMember
  exact .ite (.refl s) (.ite (countBad_homeOnly ..) ((readSectorCode_homeOnly ..).trans (mendSector_homeOnly ..)))

theorem mendSymbol_homeOnly (u q : Nat) (s : State) (b : Nat) : HomeOnly s (mendSymbol u q s b) := by
  unfold mendSymbol
  split
  · exact (slipMember_homeOnly ..).trans (countChan_homeOnly ..)
  · exact .refl s

theorem scrubUnitSpan_homeOnly (s : State) (u q : Nat) : HomeOnly s (scrubUnitSpan s u q) := by
  have members : HomeOnly s ((List.range 18).foldl (fun s p => scrubMember s u q p) s) :=
    .foldl (fun s p => scrubMember_homeOnly s u q p) _ s
  unfold scrubUnitSpan scrubSyndromes
  generalize (List.range 18).foldl (fun s p => scrubMember s u q p) s = t at members
  exact members.trans (.ite (.ite (.refl t) (.ite (poisonSpan_homeOnly ..) (.foldl (mendSymbol_homeOnly u q) _ t))) (.refl t))

theorem scrubItem_homeOnly (s : State) (n : Nat) : HomeOnly s (scrubItem s n) := by
  unfold scrubItem
  exact .ite (scrubUnitSpan_homeOnly ..) (.ite (.foldl (fun s q => scrubSector_homeOnly ..) _ s) (.refl s))

theorem dev_scrubTo (s : State) (n : Nat) : (scrubTo s n).dev = s.dev ∧ (scrubTo s n).devPoison = s.devPoison := by
  unfold scrubTo
  split <;> exact ⟨rfl, rfl⟩

/-- The pass goes on alike over machines that differ in memory alone. -/
theorem scrubTo_onlyMemory {s t : State} (only : HomeOnly s t) (n : Nat) : OnlyMemory (scrubTo s n) (scrubTo t n) := by
  rw [only]
  unfold scrubTo
  split <;> rfl

/-- A member whose sector is its codeword is only written (R340). -/
theorem scrubMember_clean {s : State} {u q p : Nat} (clean : sectorClean s (memberChannel s u (posMember u p)) (unitSlot u) q = true) :
    scrubMember s u q p = s ∨ scrubMember s u q p = mendSector s (memberChannel s u (posMember u p)) (unitSlot u) q := by
  have good : memberBad s u (posMember u p) q = false := sectorBad_of_clean clean
  have reads : readSectorCode s u p q = s := if_pos clean
  unfold scrubMember
  dsimp only
  rw [good, reads]
  cases memberShut s u (posMember u p) q
  · exact .inr rfl
  · exact .inl rfl

/-- The scrub of a span whose members are codewords and agree changes symbols alone (R340). -/
theorem scrubUnitSpan_clean {s : State} {u q : Nat} (clean : ∀ i, i < 18 → sectorClean s (memberChannel s u i) (unitSlot u) q = true)
    (agree : spanClean s u q = true) : ∃ m, scrubUnitSpan s u q = withSymbols s m := by
  have members (l : List Nat) : ∀ m, (∀ i, i < 18 → sectorClean (withSymbols s m) (memberChannel s u i) (unitSlot u) q = true) →
      ∃ m', l.foldl (fun s p => scrubMember s u q p) (withSymbols s m) = withSymbols s m' := by
    induction l with
    | nil => exact fun m _ => ⟨m, rfl⟩
    | cons p t ih =>
      intro m still
      have below : posMember u p < 18 := Nat.mod_lt _ (by decide)
      rcases scrubMember_clean (s := withSymbols s m) (p := p) (still _ below) with same | mended
      · rw [List.foldl_cons, same]
        exact ih m still
      · rw [List.foldl_cons, mended, mendSector_withSymbols]
        refine ih _ fun i low => ?_
        rw [← mendSector_withSymbols]
        exact sectorClean_mendSector (still i low) ..
  obtain ⟨m, read⟩ := members (List.range 18) s.symbols clean
  have start : withSymbols s s.symbols = s := rfl
  rw [start] at read
  refine ⟨m, ?_⟩
  unfold scrubUnitSpan scrubSyndromes
  rw [read]
  dsimp only
  rw [spanClean_withSymbols, if_pos agree, ite_self]

/-- INJPOISON that its fields let act (R320, R344). -/
theorem exec_injpoison {s : State} {v : Double}
    (acts : v.getLsbD 63 = true ∧ bits v.toNat 62 39 = 0 ∧ bits v.toNat 4 0 = 0) :
    exec (.injpoison v) s = .next (poisonInjected s (bits v.toNat 38 5 * 32)) := by
  obtain ⟨set, high, low⟩ := acts
  have bit : bitAt v.toNat 63 = true := set
  exact if_neg (by simp [bit, high, low])

theorem exec_injpoison_ignored {s : State} {v : Double}
    (ignored : ¬ (v.getLsbD 63 = true ∧ bits v.toNat 62 39 = 0 ∧ bits v.toNat 4 0 = 0)) : exec (.injpoison v) s = .next s := by
  refine if_pos (by_contra fun runs => ignored ?_)
  simp only [Bool.or_eq_true, not_or, Bool.not_eq_true', decide_eq_true_eq, ne_eq, not_not, Bool.not_eq_false] at runs
  exact ⟨runs.1.1, runs.1.2, runs.2⟩

theorem poisonInjected_spec (s : State) (pa : Nat) : OnlyMemory s (poisonInjected s pa) ∧ devPoisoned (poisonInjected s pa) pa = true ∧
    (∀ m x, x ∈ (getCore (poisonInjected s pa) m).l1 → x.home ≠ .dev (pa / 128 * 128)) ∧
    (∀ e ∈ (poisonInjected s pa).l2, ∀ x ∈ e.2, x.home ≠ .dev (pa / 128 * 128)) ∧ pa / 64 ∉ (poisonInjected s pa).hostHeld := by
  have home := poisonInjected_home s pa
  refine ⟨(copiesDropped_onlyMemory s pa).trans home.onlyMemory, cget_cset_self false _ _ true, fun m x line => ?_,
    fun e slice x line => ?_, ?_⟩
  · rw [home.getCore] at line
    exact home_ne_of_l1_copiesDropped line
  · rw [l2_poisonInjected] at slice
    exact home_ne_of_l2_copiesDropped slice line
  · have held : (poisonInjected s pa).hostHeld = (copiesDropped s pa).hostHeld := by rw [home]
    rw [held]
    exact not_held_copiesDropped s pa

theorem exec_retrainTimeout {s : State} {c n : Nat} (training : s.retraining = some (c, n)) :
    exec .retrainTimeout s = .next (if n + 4000000 ≤ s.now then killChannel s c else s) := by
  show execRetrainTimeout s = _
  rw [execRetrainTimeout, training]

theorem exec_retrainEnd_late {s : State} {c n : Nat} (training : s.retraining = some (c, n)) (late : n + 4000000 ≤ s.now) :
    exec .retrainEnd s = .next s := by
  show execRetrainEnd s = _
  rw [execRetrainEnd, training]
  exact if_pos late

theorem exec_memberSwitch_notReady {s : State} (phase : s.phase ≠ 4) : exec .memberSwitch s = .next s := by
  show execMemberSwitch s = _
  unfold execMemberSwitch
  split
  · rfl
  · exact if_pos (by simp [phase])

theorem sectorBad_rebuild (s : State) (r : Option Rebuild) (c slot q : Nat) :
    sectorBad { s with rebuild := r } c slot q = sectorBad s c slot q := rfl

theorem mendSector_rebuild {s t : State} {r : Option Rebuild} {c slot q : Nat} (mended : t = { mendSector s c slot q with rebuild := r }) :
    t = { s with rebuild := t.rebuild, symbols := t.symbols } := by
  subst mended
  unfold mendSector
  dsimp only

theorem exec_staleSlotRewrite_waits {s : State} (waits : staleSlot s = none ∨ doubleLoss s ≠ none) :
    exec .staleSlotRewrite s = .next s := by
  show execStaleSlotRewrite s = _
  unfold execStaleSlotRewrite
  rcases waits with none | first
  · rw [none, ite_self]
  · exact if_pos (by simp [Option.isSome_iff_ne_none.2 first])

/-- A rebuild of a span whose other members agree changes symbols alone (R336). -/
theorem rebuildRead_clean {s : State} {u i q : Nat} (few : lostCount s u q < 3) (clean : spanClean s u q = true)
    (lost : memberLost s u i q = true) : rebuildRead s u i q = s := by
  rw [rebuildRead, if_pos lost, decodeSpan_clean few clean]

/-- What the switch of a member leaves of the bond table (R325). -/
theorem memberChannel_switched {s : State} {r : Rebuild} {f : Nat} (field : memberField s r.unit r.member = some f)
    (member : r.member < 18) (target : r.target < 320) : memberChannel (switched s r f) r.unit r.member = r.target ∧
      (∀ j, j ≠ r.member → memberChannel (switched s r f) r.unit j = memberChannel s r.unit j) ∧
      ∀ u j, u ≠ r.unit → memberChannel (switched s r f) u j = memberChannel s u j := by
  obtain ⟨own, others⟩ := entryChannel_bondWith r.unit field member target
  simp only [memberChannel_eq, bondEntry_switched s r f _ member target, if_true]
  exact ⟨own, others, fun u j other => by rw [if_neg other]⟩

/-- The rewrite of a stale slot (R339). -/
theorem staleSlotRewrite_spec {s : State} (ready : s.phase = 4) {k : Nat} (slot : staleSlot s = some k) (free : doubleLoss s = none) :
    ∃ t, exec .staleSlotRewrite s = .next t ∧ OnlyMemory s t ∧
      (∀ j, cget false t.stale j = if j = k then false else cget false s.stale j) ∧
      ((∀ u, slotUser s (k / 524288) (k % 524288) = some u → ∀ q, q < 128 → lostCount s u q < 3 ∧ spanClean s u q = true) →
        t.dev = s.dev ∧ t.devPoison = s.devPoison) := by
  obtain ⟨t, runs, rfl | ⟨u, p, user, rfl⟩⟩ := exec_staleSlotRewrite ready slot free
  · exact ⟨_, runs, rfl, fun j => cget_cset false _ k j false, fun _ => ⟨rfl, rfl⟩⟩
  · have home := slotRewritten_homeOnly s u p (k / 524288) (k % 524288) 128
    have stale := (slotRewritten_sameSlices s u p (k / 524288) (k % 524288) 128).2
    have clean := fun spans => slotRewritten_clean (s := s) (u := u) spans p (k / 524288) (k % 524288) le_rfl
    generalize slotRewritten s u p (k / 524288) (k % 524288) 128 = x at *
    refine ⟨_, runs, home.onlyMemory.trans rfl, fun j => ?_, fun spans => ?_⟩
    · rw [← stale]
      exact cget_cset false _ k j false
    · obtain ⟨m, rewritten, -⟩ := clean (spans u user)
      rw [rewritten]
      exact ⟨rfl, rfl⟩

/-- The scrub of one item where a part of the memory is lost (R340). -/
theorem scrubItem_clean {s : State} (unit : s.scrubAt / 128 < 8388608)
    (clean : ∀ i, i < 18 → sectorClean s (memberChannel s (s.scrubAt / 128) i) (unitSlot (s.scrubAt / 128)) (s.scrubAt % 128) = true)
    (agree : spanClean s (s.scrubAt / 128) (s.scrubAt % 128) = true) (n : Nat) :
    (scrubTo (scrubItem s s.scrubAt) n).dev = s.dev ∧ (scrubTo (scrubItem s s.scrubAt) n).devPoison = s.devPoison := by
  obtain ⟨m, read⟩ := scrubUnitSpan_clean clean agree
  have same : scrubItem s s.scrubAt = withSymbols s m := (if_pos (by unfold bondUnits; omega)).trans read
  obtain ⟨dev, marks⟩ := dev_scrubTo (scrubItem s s.scrubAt) n
  rw [dev, marks, same]
  exact ⟨rfl, rfl⟩

/-- Settles O59: the injuries by the channels they kill, the repairs by the spans they decode. -/
theorem memoryPartsFailAndAreMended : Obligations.MemoryPartsFailAndAreMended := by
  unfold Obligations.MemoryPartsFailAndAreMended
  intro s kills marks
  have dies (i : Instr) (t : State) (p : Nat → Prop) (runs : exec i s = .next t) (killed : Killed s t p) : kills i p := ⟨t, runs, killed⟩
  have marked (i : Instr) (k : Nat) (old : Cells Bool) (f : Cells Bool → State) (runs : exec i s = .next (f (cset false old k true))) :
      marks i k old f := ⟨_, runs, fun j => cget_cset false old k j true⟩
  refine ⟨?poison, ?injdead, ?fail, ?noTraining, ?starts, ?idle, ?training, ?notReady, ?ready, ?noScrub, ?scrub⟩
  case poison =>
    intro v ok pa
    obtain ⟨only, poisoned, l1, l2, held⟩ := poisonInjected_spec s pa
    exact ⟨exec_injpoison_ignored, fun acts => ⟨_, exec_injpoison acts, only, poisoned,
      fun good a other => poisonInjected_elsewhere good other, l1, l2, held⟩⟩
  case injdead =>
    intro v c pc acts
    obtain ⟨channelNot, channel⟩ := exec_injdead (i := .injdeadChannel v) (v := v) (kind := 0) (s := s) (killChannel s) rfl
    obtain ⟨pseudoNot, pseudo⟩ := exec_injdead (i := .injdeadPseudoChannel v) (v := v) (kind := 1) (s := s)
      (fun c => killPseudo s c (bits v.toNat 9 9)) rfl
    obtain ⟨bankNot, bank⟩ := exec_injdead (i := .injdeadBank v) (v := v) (kind := 2) (s := s)
      (fun c => killBank s c (bits v.toNat 9 9) (bits v.toNat 8 4)) rfl
    obtain ⟨stackNot, stack⟩ := exec_injdead (i := .injdeadStack v) (v := v) (kind := 3) (s := s)
      (fun c => (List.range 32).foldl (fun s i => killChannel s (c / 32 * 32 + i)) s) rfl
    obtain ⟨dueNot, due⟩ := exec_injdead (i := .injdeadRetrainNow v) (v := v) (kind := 4) (s := s)
      (fun c => { s with dueNow := cset false s.dueNow c true }) rfl
    exact ⟨channelNot, fun ok => dies _ _ _ (channel ok) (killed_channel s c), pseudoNot, fun ok => marked _ _ _ _ (pseudo ok),
      bankNot, fun ok => marked _ _ _ _ (bank ok), stackNot, fun ok => dies _ _ _ (stack ok) (killed_stack s c),
      dueNot, fun ok => marked _ _ _ _ (due ok)⟩
  case fail =>
    intro kind ch pc bank i
    refine ⟨fun out => ?_, fun low => ⟨?_, ?_, ?_⟩⟩
    · rcases out with high | rfl
      · exact if_pos high
      · exact ite_self _
    · rintro rfl
      exact dies _ _ _ (if_neg (Nat.not_le.2 low)) (killed_channel s ch.toNat)
    · rintro rfl
      exact marked _ _ _ _ (if_neg (Nat.not_le.2 low))
    · rintro rfl
      exact marked _ _ _ _ (if_neg (Nat.not_le.2 low))
  case noTraining => 
    intro none
    show execRetrainStart s = _
    rw [execRetrainStart, none]
  case starts =>
    intro c next
    refine ⟨?_, nextRetrain_lowest next⟩
    show execRetrainStart s = _
    rw [execRetrainStart, next]
  case idle =>
    intro none
    constructor
    · show execRetrainEnd s = _
      rw [execRetrainEnd, none]
    · show execRetrainTimeout s = _
      rw [execRetrainTimeout, none]
  case training =>
    intro c n training
    have timeout := exec_retrainTimeout training
    exact ⟨fun late => ⟨exec_retrainEnd_late training late, dies _ _ _ (timeout.trans (congrArg _ (if_pos late))) (killed_channel s c)⟩,
      fun early => ⟨timeout.trans (congrArg _ (if_neg (Nat.not_le.2 early))), exec_retrainEnd training early⟩⟩
  case notReady => exact fun phase => ⟨if_pos phase, exec_memberSwitch_notReady phase, if_pos (by simp [phase])⟩
  case ready =>
    intro phase
    refine ⟨exec_rebuildSpan_none phase, fun r next => ⟨exec_rebuildSpan_done phase next, fun rest => ?decodes⟩,
      fun r running done lapsed => exec_memberSwitch_lapsed phase running done lapsed,
      fun r f running done stands field member target => ?switches, exec_staleSlotRewrite_waits,
      fun k slot free => staleSlotRewrite_spec phase slot free⟩
    case decodes =>
      refine ⟨_, exec_rebuildSpan phase next rest, rfl, ?_, fun few clean lost => ?_⟩
      · exact (sectorBad_rebuild ..).trans (sectorBad_of_clean (sectorClean_mendSector_self ..))
      · rw [rebuildRead_clean few clean lost]
        exact mendSector_rebuild rfl
    case switches =>
      obtain ⟨own, others, units⟩ := memberChannel_switched field member target
      exact ⟨switched s r f, exec_memberSwitch phase running done stands field, rfl, own, others, units,
        fun m x pa line device => unitOf_ne_of_switched line device⟩
  case noScrub => exact fun even => if_pos (by simp [scrubDue, even])
  case scrub =>
    intro due
    have item : (!scrubDue s) = false := by simp [scrubDue, due]
    refine ⟨fun good => (if_neg (by simp [item])).trans (if_pos good), fun lost => ⟨scrubTo (scrubItem s s.scrubAt) (s.scrubAt + 1),
      (if_neg (by simp [item])).trans (if_neg (by simp [lost])),
      scrubTo_onlyMemory (scrubItem_homeOnly ..) _, fun unit clean agree => scrubItem_clean unit clean agree _⟩⟩

end Sys2Proof.Machine

/-!
SUPPORT. The removal of a context (R388): what it leaves of the context, its courses and its commands.
-/

namespace Sys2Proof.Machine

/-- The command waits of a removed context: the faults of its commands stay (R388 item 4). -/
def commandFaults (l : List OpenFault) : List OpenFault := l.filter (fun e => match e.owner with
  | .command _ => true
  | _ => false)

/-- A context once it is removed (R388). -/
def removedContext (x : Context) : Context :=
  { x with state := .removed, faults := commandFaults x.faults, step := none, saved := [], hostSaved := false }

/-- `t` is what the removal of context `a` leaves of `s`: its context as `y`, its courses at their end, no command of its that has
not begun. -/
structure Removes (s t : State) (a : BitVec 16) (y : Context) : Prop where
  context : getCtx t a = some y
  courses : CoursesEnd s t a
  commands : ∀ e ∈ t.commands, ∀ z, getBlock s e.2.blk = some z → z.asid = a → e.2.begun = true

theorem courses_dropContext (s : State) (x : Context) : CoursesEnd s (dropContext s x) x.asid := by
  intro b y c block low
  have key : courseKey b c / 32 = b := by unfold courseKey; omega
  show find? (s.courses.map _) (courseKey b c) = _
  rw [find?_map_of_keys (fun e => by dsimp only; split <;> [split <;> rfl; rfl])]
  unfold getCourse
  cases find? s.courses (courseKey b c) with
  | none => simp
  | some k =>
    simp only [Option.map_some, key, block]
    by_cases own : y.asid = x.asid <;> simp [own]

theorem dropContext_removes (s : State) {x : Context} {a : BitVec 16} (own : x.asid = a) :
    Removes s (dropContext s x) a (removedContext x) := by
  subst own
  refine ⟨getCtx_setCtx_self .., courses_dropContext s x, fun e kept z block mine => ?_⟩
  obtain ⟨-, stays⟩ := List.mem_filter.1 (show e ∈ s.commands.filter _ from kept)
  have same : getBlock (emptyBlocks s fun _ b => b.asid == x.asid) e.2.blk = some z := block
  rw [same] at stays
  simpa [mine] using stays

theorem out_dropContext (s : State) (x : Context) : (dropContext s x).out = s.out := rfl

theorem Removes.of_sameBlocks {s u t : State} {a : BitVec 16} {y : Context} (courses : u.courses = s.courses) (blocks : u.blocks = s.blocks)
    (h : Removes u t a y) : Removes s t a y := by
  have same (b : Nat) : getBlock s b = getBlock u b := by unfold getBlock; rw [blocks]
  refine ⟨h.context, fun b z c block low => ?_, fun e kept z block => h.commands e kept z ((same _).symm.trans block)⟩
  have ends := h.courses b z c ((same b).symm.trans block) low
  unfold getCourse at ends ⊢
  rwa [courses] at ends

theorem fatalRecord_onlyMemory (x : Context) (core : Nat) (s : State) (e : FatalSite) : OnlyMemory s (fatalRecord x core s e) := by
  unfold fatalRecord
  exact .ite ((setCore_onlyMemory ..).trans (putRecord_onlyMemory ..)) (.refl s)

section

variable {s : State} {a : BitVec 16} {x : Context} (ctx : getCtx s a = some x) (own : x.asid = a) (live : x.state ≠ .removed)

include ctx own live

/-- A context is removed after its faults (R388), with the error interrupt unless `quiet`. -/
theorem removeAll_removes (core : Nat) (l : List FatalSite) (quiet : Bool) :
    Removes s (removeAll s a core l quiet) a (removedContext x) ∧
      (quiet = false → .msi x.part (bits (getPart s x.part).pvecIn.toNat 5 0) ∈ (removeAll s a core l quiet).out) := by
  have only : OnlyMemory s (l.foldl (fatalRecord x core) s) := OnlyMemory.foldl (fatalRecord_onlyMemory x core) l s
  unfold removeAll
  rw [ctx]
  dsimp only
  rw [if_neg live]
  generalize l.foldl (fatalRecord x core) s = t at only
  have same : getCtx t a = some x := (congrArg (find? · a.toNat) only.contexts).trans ctx
  have vector : getPart t x.part = getPart s x.part := by rw [only]; rfl
  cases quiet with
  | true =>
    rw [if_pos rfl, same]
    exact ⟨(dropContext_removes t own).of_sameBlocks only.courses only.blocks, fun quiet => absurd quiet (by decide)⟩
  | false =>
    have raised : getCtx (raise t x.part 0) a = some x := same
    rw [if_neg Bool.false_ne_true, raised]
    dsimp only
    refine ⟨(dropContext_removes (raise t x.part 0) own).of_sameBlocks (u := raise t x.part 0) only.courses only.blocks, fun _ => ?_⟩
    rw [out_dropContext, ← vector]
    exact List.mem_append_right _ (List.mem_singleton.2 rfl)

/-- A context whose area cannot be written is removed without a record (R364). -/
theorem loseContext_removes : Removes s (loseContext s a) a (removedContext x) ∧
    .msi x.part (bits (getPart s x.part).pvecIn.toNat 5 0) ∈ (loseContext s a).out := by
  unfold loseContext
  rw [ctx]
  dsimp only
  rw [if_neg live]
  refine ⟨(dropContext_removes (raise s x.part 0) own).of_sameBlocks (u := raise s x.part 0) rfl rfl, ?_⟩
  rw [out_dropContext]
  exact List.mem_append_right _ (List.mem_singleton.2 rfl)

end

end Sys2Proof.Machine

/-!
SUPPORT and PROOF. Clusters changed one after the other, and what the governor's interval start leaves of them (R306, R310 to R317,
R386, R392, R403).
-/

namespace Sys2Proof.Machine

/-! ### One cluster after the other -/

/-- A run over clusters that changes each by itself: cluster `k` becomes what `g` makes of it where it stood. -/
theorem getCluster_foldl {f : State → Nat → State} {g : State → Nat → Cluster}
    (here : ∀ s k j, getCluster (f s k) j = if j = k then g s k else getCluster s j)
    (apart : ∀ s j k, k ≠ j → g (f s j) k = g s k) (l : List Nat) (once : l.Nodup) :
    ∀ s j, getCluster (l.foldl f s) j = if j ∈ l then g s j else getCluster s j := by
  induction l with
  | nil => simp
  | cons k t ih =>
    intro s j
    obtain ⟨fresh, rest⟩ := List.nodup_cons.1 once
    rw [List.foldl_cons, ih rest]
    by_cases own : j = k
    · subst own
      simp [fresh, here]
    · simp [own, here, apart s k j own]

/-- `t` is `s` with other clusters. -/
def ClustersOnly (s t : State) : Prop := t = { s with clusters := t.clusters }

theorem ClustersOnly.refl (s : State) : ClustersOnly s s := rfl

theorem ClustersOnly.trans {a b c : State} (h : ClustersOnly a b) (g : ClustersOnly b c) : ClustersOnly a c := by
  unfold ClustersOnly at *
  rw [g, h]

theorem ClustersOnly.foldl {α : Type} {f : State → α → State} (hf : ∀ s x, ClustersOnly s (f s x)) (l : List α) (s : State) :
    ClustersOnly s (l.foldl f s) := by
  induction l generalizing s with
  | nil => exact .refl s
  | cons a t ih => exact (hf s a).trans (ih _)

theorem setCluster_clustersOnly (s : State) (k : Nat) (c : Cluster) : ClustersOnly s (setCluster s k c) := rfl

theorem ClustersOnly.clusterPart {s t : State} (h : ClustersOnly s t) (k : Nat) : clusterPart t k = clusterPart s k := by
  rw [h]
  rfl

theorem ClustersOnly.clusterFloor {s t : State} (h : ClustersOnly s t) (k : Nat) : clusterFloor t k = clusterFloor s k := by
  rw [h]
  rfl

theorem getCluster_setCluster (s : State) (k j : Nat) (c : Cluster) :
    getCluster (setCluster s k c) j = if j = k then c else getCluster s j := by
  by_cases own : j = k
  · subst own
    rw [if_pos rfl, getCluster_setCluster_self]
  · rw [if_neg own, getCluster_setCluster_ne _ _ own]

/-! ### Sensitivity (R312, R313) -/

/-- The counts of a cluster at the end of a window. -/
def windowCounts (s : State) (k : Nat) : Cluster :=
  { tally s k with sigma := 65536 * (tally s k).busy / max (tally s k).total 1, busy := 0, total := 0 }

/-- The clock index that a cluster of no step's block wishes for next (R313, R316). -/
def nextWish (s : State) (p : BitVec 3) (k : Nat) : Nat :=
  let c := windowCounts s k
  let i := c.raise.getD c.clock
  min (sensCeil (getPart s p)) (max (sensFloor (getPart s p)) (min c.cap
    (if c.sigma < bits (getPart s p).sensctl.toNat 15 0 then i - 1 else i + 1)))

/-- A cluster at the end of a window (R312). -/
def windowEnded (s : State) (k : Nat) : Cluster :=
  match clusterPart s k with
  | none => windowCounts s k
  | some p => if holdsStep s k then windowCounts s k else { windowCounts s k with wish := nextWish s p k }

theorem endWindow_eq (s : State) (k : Nat) : endWindow s k = setCluster s k (windowEnded s k) := by
  unfold endWindow windowEnded nextWish windowCounts
  dsimp only
  cases clusterPart s k with
  | none => rfl
  | some p =>
    dsimp only
    split <;> rfl

theorem tally_setCluster (s : State) {j k : Nat} (c : Cluster) (other : k ≠ j) : tally (setCluster s j c) k = tally s k := by
  unfold tally
  rw [getCluster_setCluster, if_neg other]
  rfl

theorem windowEnded_setCluster (s : State) {j k : Nat} (c : Cluster) (other : k ≠ j) :
    windowEnded (setCluster s j c) k = windowEnded s k := by
  have counts : windowCounts (setCluster s j c) k = windowCounts s k := by
    unfold windowCounts
    rw [tally_setCluster s c other]
  have part : clusterPart (setCluster s j c) k = clusterPart s k := rfl
  have step : holdsStep (setCluster s j c) k = holdsStep s k := rfl
  unfold windowEnded nextWish
  rw [counts, part, step]
  rfl

/-- Every cluster at the end of a window. -/
theorem windowsEnd (s : State) (k : Nat) : getCluster ((List.range Config.clusters).foldl endWindow s) k =
    if k < 24 then windowEnded s k else getCluster s k := by
  rw [getCluster_foldl (g := windowEnded) (fun s k j => ?_) (fun s j k other => ?_) _ List.nodup_range]
  · exact if_congr List.mem_range rfl rfl
  · rw [endWindow_eq, getCluster_setCluster]
  · rw [endWindow_eq, windowEnded_setCluster s _ other]

/-! ### RAILMAP (R310) -/

/-- A moved cluster stands at its floor clock. -/
def atFloor (s : State) (k : Nat) : Cluster := { tally s k with clock := clusterFloor s k, wish := clusterFloor s k, raise := none }

theorem clustersMoved (s : State) (l : List Nat) (once : l.Nodup) (k : Nat) :
    getCluster (l.foldl (fun t k => setCluster t k (atFloor t k)) s) k = if k ∈ l then atFloor s k else getCluster s k := by
  refine getCluster_foldl (g := atFloor) (fun s k j => getCluster_setCluster ..) (fun s j k other => ?_) l once s k
  unfold atFloor
  rw [tally_setCluster s _ other]
  rfl

/-- A field of RAILMAP is one of the bits that it keeps. -/
theorem bits_railmap (n : Nat) {k : Nat} (low : k < 24) :
    bits (BitVec.ofNat 64 (bits n 47 0)).toNat (2 * k + 1) (2 * k) = bits n (2 * k + 1) (2 * k) := by
  have small : bits n 47 0 < 2 ^ 64 := by unfold bits; omega
  rw [BitVec.toNat_ofNat, Nat.mod_eq_of_lt small]
  unfold bits
  have split : (2 : Nat) ^ (47 - 0 + 1) = 2 ^ (2 * k) * 2 ^ (48 - 2 * k) := by
    rw [← pow_add]
    congr 1
    omega
  have width : 2 * k + 1 - 2 * k + 1 = 2 := by omega
  rw [pow_zero, Nat.div_one, split, Nat.mod_mul_right_div_self, width]
  exact Nat.mod_mod_of_dvd _ (pow_dvd_pow 2 (by omega))

/-! ### The governor (R306, R314 to R317) -/

/-- `t` is what the governor's choices leave of `s`: no setting in force changes, no clock has risen and no offset has changed. -/
structure Governs (s t : State) : Prop where
  only : t = { s with clusters := t.clusters, contexts := t.contexts, partitions := t.partitions, out := t.out }
  settings : ∀ p, (getPart t p).pwgtIn = (getPart s p).pwgtIn ∧ (getPart t p).ptimeIn = (getPart s p).ptimeIn ∧
    (getPart t p).pvecIn = (getPart s p).pvecIn
  clocks : ∀ k, (getCluster t k).clock ≤ (getCluster s k).clock ∧ (getCluster t k).offset = (getCluster s k).offset

theorem Governs.refl (s : State) : Governs s s := ⟨rfl, fun _ => ⟨rfl, rfl, rfl⟩, fun _ => ⟨le_rfl, rfl⟩⟩

theorem Governs.trans {a b c : State} (h : Governs a b) (g : Governs b c) : Governs a c := by
  obtain ⟨only, settings, clocks⟩ := h
  refine ⟨?_, fun p => ?_, fun k => ?_⟩
  · rw [g.only, only]
  · obtain ⟨weight, time, vector⟩ := g.settings p
    obtain ⟨weight', time', vector'⟩ := settings p
    exact ⟨weight.trans weight', time.trans time', vector.trans vector'⟩
  · exact ⟨(g.clocks k).1.trans (clocks k).1, (g.clocks k).2.trans (clocks k).2⟩

theorem Governs.foldl {α : Type} {f : State → α → State} (hf : ∀ s x, Governs s (f s x)) (l : List α) (s : State) :
    Governs s (l.foldl f s) := by
  induction l generalizing s with
  | nil => exact .refl s
  | cons a t ih => exact (hf s a).trans (ih _)

theorem Governs.ite {c : Prop} [Decidable c] {s a b : State} (ha : Governs s a) (hb : Governs s b) : Governs s (if c then a else b) := by
  split
  · exact ha
  · exact hb

theorem setCluster_governs {s : State} {k : Nat} {c : Cluster} (clock : c.clock ≤ (getCluster s k).clock)
    (offset : c.offset = (getCluster s k).offset) : Governs s (setCluster s k c) := by
  refine ⟨rfl, fun _ => ⟨rfl, rfl, rfl⟩, fun j => ?_⟩
  rw [getCluster_setCluster]
  split
  · rename_i own
    subst own
    exact ⟨clock, offset⟩
  · exact ⟨le_rfl, rfl⟩

theorem setCtx_governs (s : State) (a : BitVec 16) (x : Context) : Governs s (setCtx s a x) :=
  ⟨rfl, fun _ => ⟨rfl, rfl, rfl⟩, fun _ => ⟨le_rfl, rfl⟩⟩

theorem raise_governs (s : State) (p : BitVec 3) (n : Nat) : Governs s (raise s p n) :=
  ⟨rfl, fun _ => ⟨rfl, rfl, rfl⟩, fun _ => ⟨le_rfl, rfl⟩⟩

theorem setPart_governs {s : State} {p : BitVec 3} {q : Partition} (weight : q.pwgtIn = (getPart s p).pwgtIn)
    (time : q.ptimeIn = (getPart s p).ptimeIn) (vector : q.pvecIn = (getPart s p).pvecIn) : Governs s (setPart s p q) := by
  refine ⟨rfl, fun r => ?_, fun _ => ⟨le_rfl, rfl⟩⟩
  by_cases own : r = p
  · subst own
    rw [getPart_setPart_self]
    exact ⟨weight, time, vector⟩
  · rw [getPart_setPart_ne _ _ own]
    exact ⟨rfl, rfl, rfl⟩

theorem setBudgets_governs (s : State) (n : Nat) : Governs s (setBudgets s n) := by
  unfold setBudgets
  refine .foldl (fun s k => ?_) _ s
  dsimp only
  generalize 20 * _ = energy
  exact .ite (.refl s) (setCluster_governs (Nat.le_refl _) rfl)

theorem reportRisk_governs (s : State) (p : BitVec 3) (x : Context) (st : Step) (excess : Nat) :
    Governs s (reportRisk s p x st excess) := by
  unfold reportRisk
  refine Governs.trans (setPart_governs ?_ ?_ ?_) (raise_governs ..) <;> split <;> rfl

theorem settleStep_governs (p : BitVec 3) (n budget : Nat) (caps final : List Choice) (s : State) (e : Context × Step) :
    Governs s (settleStep p n budget caps final s e) := by
  unfold settleStep
  dsimp only
  have put (st : Option Step) : Governs s (match getCtx s e.1.asid with
      | some y => setCtx s e.1.asid { y with step := st }
      | none => s) := by
    split
    · exact setCtx_governs ..
    · exact .refl s
  exact .ite ((put _).trans (reportRisk_governs ..)) (put _)

theorem clock_tally (s : State) (k : Nat) : (tally s k).clock = (getCluster s k).clock := by
  unfold tally
  rfl

theorem offset_tally (s : State) (k : Nat) : (tally s k).offset = (getCluster s k).offset := by
  unfold tally
  rfl

/-- A cluster that takes a choice: its clock falls now or rises later, and its offset stays (R311). -/
theorem takeChoice_governs (s : State) (c : Choice) : Governs s (takeChoice s c) := by
  unfold takeChoice
  refine setCluster_governs ?_ ?_
  · rw [← clock_tally]
    split
    · assumption
    · exact Nat.le_refl _
  · rw [← offset_tally]
    split <;> rfl

theorem governPart_governs (s : State) (n : Nat) (p : BitVec 3) : Governs s (governPart s n p) := by
  unfold governPart
  dsimp only
  refine .ite (.refl s) ?_
  refine ((Governs.foldl (settleStep_governs p n _ _ _) _ s).trans (.foldl takeChoice_governs _ _)).trans (.foldl (fun s e => ?_) _ _)
  exact setCluster_governs (Nat.le_refl _) rfl

/-! ### Settings, offsets and rails (R311, R392, R403) -/

/-- A partition with the settings that were written in force (R392). -/
def inForce (q : Partition) : Partition := { q with pwgtIn := q.pwgt, ptimeIn := q.ptime, pvecIn := q.pvec }

theorem getPart_enforceSettings (s : State) (p : BitVec 3) : getPart (enforceSettings s) p = inForce (getPart s p) := by
  have maps : (enforceSettings s).partitions = s.partitions.map (fun e => (e.1, inForce e.2)) := rfl
  unfold getPart
  rw [maps, find?_map_of_keys (f := fun e => (e.1, inForce e.2)) (fun _ => rfl)]
  cases find? s.partitions p.toNat <;> rfl

/-- A cluster after the margin monitors (R403). -/
def marginOffset (n : Nat) (s : State) (k : Nat) : Cluster :=
  if Config.marginLow n k then { getCluster s k with offset := min 4 ((getCluster s k).offset + 1), offsetSince := s.now }
  else getCluster s k

def marginStep (n : Nat) (s : State) (k : Nat) : State :=
  if Config.marginLow n k then
    setCluster s k { getCluster s k with offset := min 4 ((getCluster s k).offset + 1), offsetSince := s.now }
  else s

theorem marginStep_clustersOnly (n : Nat) (s : State) (k : Nat) : ClustersOnly s (marginStep n s k) := by
  unfold marginStep
  split
  · exact setCluster_clustersOnly ..
  · exact .refl s

theorem getCluster_marginStep (n : Nat) (s : State) (k j : Nat) :
    getCluster (marginStep n s k) j = if j = k then marginOffset n s k else getCluster s j := by
  unfold marginStep marginOffset
  split
  · exact getCluster_setCluster ..
  · split
    · rename_i own
      rw [own]
    · rfl

theorem marginOffset_marginStep (n : Nat) (s : State) {j k : Nat} (other : k ≠ j) :
    marginOffset n (marginStep n s j) k = marginOffset n s k := by
  have now : (marginStep n s j).now = s.now := by rw [marginStep_clustersOnly n s j]
  unfold marginOffset
  rw [getCluster_marginStep, if_neg other, now]

theorem marginOffsets_eq (s : State) (n : Nat) : marginOffsets s n = (List.range Config.clusters).foldl (marginStep n) s := rfl

theorem getCluster_marginOffsets (s : State) (n k : Nat) :
    getCluster (marginOffsets s n) k = if k < 24 then marginOffset n s k else getCluster s k := by
  rw [marginOffsets_eq, getCluster_foldl (getCluster_marginStep n) (fun s j k other => marginOffset_marginStep n s other) _ List.nodup_range]
  exact if_congr List.mem_range rfl rfl

theorem marginOffsets_clustersOnly (s : State) (n : Nat) : ClustersOnly s (marginOffsets s n) := by
  rw [marginOffsets_eq]
  exact .foldl (marginStep_clustersOnly n) _ s

/-- A maximum over a list is a bound of it, and within any other. -/
theorem foldl_max_bounds (f : Nat → Nat) (l : List Nat) : ∀ a, a ≤ l.foldl (fun m k => max m (f k)) a ∧
    (∀ k ∈ l, f k ≤ l.foldl (fun m k => max m (f k)) a) ∧
    ∀ b, a ≤ b → (∀ k, f k ≤ b) → l.foldl (fun m k => max m (f k)) a ≤ b := by
  induction l with
  | nil => exact fun a => ⟨le_rfl, by simp, fun b low _ => low⟩
  | cons k t ih =>
    intro a
    obtain ⟨above, each, within⟩ := ih (max a (f k))
    rw [List.foldl_cons]
    refine ⟨(le_max_left ..).trans above, fun j member => ?_, fun b low high => within b (max_le low (high k)) high⟩
    rcases List.mem_cons.1 member with rfl | rest
    · exact (le_max_right ..).trans above
    · exact each j rest

theorem railNeed_le (s : State) (k : Nat) : railNeed s k ≤ 80 := Nat.min_le_left ..

/-- What the clusters of a rail need of it. -/
def railsNeed (s : State) (r : Nat) : Nat :=
  ((List.range Config.clusters).filter (fun k => clusterRail s k = r)).foldl (fun m k => max m (railNeed s k)) 0

theorem rails_moveRails (s : State) : (moveRails s).rails.length = 4 ∧
    ∀ r, r < 4 → ((moveRails s).rails.getD r (0, 0)).1 = railsNeed s r := by
  refine ⟨(List.length_map _).trans List.length_range, fun r low => ?_⟩
  unfold moveRails
  rw [List.getD_eq_getElem?_getD, List.getElem?_map, List.getElem?_range low]
  dsimp only [Option.map_some, Option.getD_some]
  split
  · rfl
  · split
    · rename_i same
      exact same.symm
    · rfl

/-- INTERVAL_START's machine where the device is up. -/
def governed (s : State) (n : Nat) : State := allParts.foldl (fun s p => governPart s n p) (setBudgets (marginOffsets s n) n)

theorem governed_governs (s : State) (n : Nat) : Governs (marginOffsets s n) (governed s n) :=
  (setBudgets_governs ..).trans (.foldl (fun s p => governPart_governs s n p) _ _)

theorem exec_intervalStart {s : State} (due : s.nextInterval ≤ s.now) : exec .intervalStart s = .next
    (if s.phase ≠ 4 then enforceSettings { s with nextInterval := s.nextInterval + 20000 }
      else moveRails (governed (enforceSettings { s with nextInterval := s.nextInterval + 20000 }) (s.nextInterval / 20000))) := by
  show execIntervalStart s = _
  unfold execIntervalStart
  rw [if_neg (Nat.not_lt.2 due)]
  by_cases up : s.phase = 4
  · exact (if_neg (not_not_intro up)).trans (congrArg _ (if_neg (not_not_intro up)).symm)
  · exact (if_pos up).trans (congrArg _ (if_pos up).symm)

/-- What an interval start leaves of the clusters and the rails (R311, R403). -/
theorem governed_rails (s : State) (n k : Nat) (low : k < 24) :
    (getCluster (governed s n) k).clock ≤ (getCluster s k).clock ∧
    (getCluster (governed s n) k).offset =
      (if Config.marginLow n k then min 4 ((getCluster s k).offset + 1) else (getCluster s k).offset) ∧
    railNeed (governed s n) k ≤ ((moveRails (governed s n)).rails.getD (clusterRail s k) (0, 0)).1 := by
  obtain ⟨only, -, clocks⟩ := governed_governs s n
  obtain ⟨clock, offset⟩ := clocks k
  rw [getCluster_marginOffsets, if_pos low] at clock offset
  refine ⟨clock.trans ?_, offset.trans ?_, ?_⟩
  · unfold marginOffset
    split <;> exact Nat.le_refl _
  · unfold marginOffset
    split <;> rfl
  · have map : clusterRail (governed s n) k = clusterRail s k := by
      have same : (governed s n).railmap = s.railmap := by
        rw [only, marginOffsets_clustersOnly s n]
      unfold clusterRail
      rw [same]
    have four : clusterRail s k < 4 := by
      unfold clusterRail bits
      rw [show 2 * k + 1 - 2 * k + 1 = 2 by omega]
      exact Nat.mod_lt _ (by decide)
    rw [(rails_moveRails _).2 _ four]
    exact (foldl_max_bounds (railNeed (governed s n)) _ 0).2.1 k
      (List.mem_filter.2 ⟨List.mem_range.2 low, decide_eq_true map⟩)

theorem rails_le (s : State) {r : Nat} (low : r < 4) : ((moveRails s).rails.getD r (0, 0)).1 ≤ 80 := by
  rw [(rails_moveRails s).2 r low]
  exact (foldl_max_bounds (railNeed s) _ 0).2.2 80 (by decide) (railNeed_le s)

/-! ### The watchdog (R386) -/

theorem exec_watchdogCheck_bark {s : State} {blk : Nat} {b : Block} (due : s.nextWatchdog ≤ s.now) (resident : s.blocks = [(blk, b)])
    (hung : hungBlock s blk b = true) {x : Context} (ctx : getCtx s b.asid = some x) (own : x.asid = b.asid) :
    ∃ t, exec .watchdogCheck s = .next t ∧ Removes s t b.asid (removedContext x) ∧
      .msi x.part (bits (getPart s x.part).pvecIn.toNat 5 0) ∈ t.out := by
  have live : x.state ≠ .removed := by
    unfold hungBlock at hung
    rw [ctx] at hung
    intro gone
    simp [gone] at hung
  have block : getBlock s blk = some b := by
    unfold getBlock
    rw [resident]
    simp [find?]
  let s' : State := { s with nextWatchdog := s.nextWatchdog + 1000000 }
  have removal := fun sites => removeAll_removes (s := s') ctx own live b.core sites false
  have bark : exec .watchdogCheck s = .next (barkAt s' blk) :=
    (if_neg (Nat.not_lt.2 due)).trans (congrArg (fun l => Host.Outcome.next (l.foldl (fun s e => barkAt s e.1) s')) resident)
  have block' : getBlock s' blk = some b := block
  have hung' : hungBlock s' blk b = true := hung
  refine ⟨_, bark, ?_, ?_⟩ <;> unfold barkAt removeContext <;> rw [block'] <;> dsimp only <;> rw [if_pos hung']
  · exact (removal _).1.of_sameBlocks (s := s) (u := s') rfl rfl
  · exact (removal _).2 rfl

theorem exec_watchdogCheck_quiet {s : State} (due : s.nextWatchdog ≤ s.now)
    (calm : ∀ e ∈ s.blocks, ∀ b, getBlock s e.1 = some b → hungBlock s e.1 b = false) :
    exec .watchdogCheck s = .next { s with nextWatchdog := s.nextWatchdog + 1000000 } := by
  have still (l : List (Nat × Block)) (part : ∀ e ∈ l, e ∈ s.blocks) :
      l.foldl (fun s e => barkAt s e.1) { s with nextWatchdog := s.nextWatchdog + 1000000 }
        = { s with nextWatchdog := s.nextWatchdog + 1000000 } := by
    induction l with
    | nil => rfl
    | cons e t ih =>
      have one : barkAt { s with nextWatchdog := s.nextWatchdog + 1000000 } e.1 = { s with nextWatchdog := s.nextWatchdog + 1000000 } := by
        unfold barkAt
        split
        · rfl
        · rename_i b block
          have quiet : hungBlock { s with nextWatchdog := s.nextWatchdog + 1000000 } e.1 b = false :=
            calm e (part e (List.mem_cons_self ..)) b block
          exact if_neg (by rw [quiet]; exact Bool.false_ne_true)
      rw [List.foldl_cons, one]
      exact ih fun e member => part e (List.mem_cons_of_mem _ member)
  show execWatchdogCheck s = _
  unfold execWatchdogCheck
  rw [if_neg (Nat.not_lt.2 due)]
  exact congrArg _ (still s.blocks fun _ member => member)

/-! ### The obligation -/

/-- A cluster at a point where its clock may change: what it has run is counted (R310). -/
theorem tally_eq (s : State) (k : Nat) : tally s k = { getCluster s k with
    total := (getCluster s k).total + 32 * (s.now * 1000000 + s.frac - (getCluster s k).since) *
      ((600 + 25 * (getCluster s k).clock) / (if (getCluster s k).stretched then 2 else 1))
    since := s.now * 1000000 + s.frac } := by
  unfold tally clockRate clockFs
  rfl

theorem exec_clockRaise_none {s : State} {k : Nat} (level : (getCluster s k).raise = none) : exec (.clockRaise k) s = .next s := by
  show execClockRaise k s = _
  unfold execClockRaise
  dsimp only
  rw [level]

theorem exec_clockRaise {s : State} {k i : Nat} (rises : (getCluster s k).raise = some i) : exec (.clockRaise k) s =
    .next (if (s.rails.getD (clusterRail s k) (0, 0)).2 ≤ s.now then setCluster s k { tally s k with clock := i, raise := none } else s) := by
  show execClockRaise k s = _
  unfold execClockRaise
  dsimp only
  rw [rises]
  dsimp only
  by_cases settled : (s.rails.getD (clusterRail s k) (0, 0)).2 ≤ s.now
  · rw [if_neg (Nat.not_lt.2 settled), if_pos settled]
  · rw [if_pos (Nat.not_le.1 settled), if_neg settled]

theorem exec_droopStretch {s : State} {k : Nat} (even : (getCluster s k).stretched = false) (low : k < 24) :
    exec (.droopStretch k) s = .next (setCluster { s with stretchCount := min 0xFFFF (s.stretchCount + 1) } k
      { tally s k with stretched := true }) :=
  if_neg (by simp [even, Config.clusters, Nat.not_le.2 low])

theorem exec_supplyRecovers (s : State) (k : Nat) : exec (.supplyRecovers k) s =
    .next (if (getCluster s k).stretched then setCluster s k { tally s k with stretched := false } else s) := by
  show execSupplyRecovers k s = _
  unfold execSupplyRecovers
  split <;> rfl

/-- The clusters that a RAILMAP write moves (R310). -/
def movedClusters (s : State) (v : Double) : List Nat := (List.range Config.clusters).filter (fun k => clusterRail s k ≠
  clusterRail { s with railmap := BitVec.ofNat 64 (bits v.toNat 47 0) } k)

theorem mem_movedClusters {s : State} {v : Double} {k : Nat} : k ∈ movedClusters s v ↔
    k < 24 ∧ bits v.toNat (2 * k + 1) (2 * k) ≠ bits s.railmap.toNat (2 * k + 1) (2 * k) := by
  unfold movedClusters
  rw [List.mem_filter, List.mem_range, decide_eq_true_eq]
  refine and_congr_right fun low => ?_
  unfold clusterRail
  dsimp only
  rw [bits_railmap _ low]
  exact ne_comm

/-- The machine after a RAILMAP write that is not ignored (R310). -/
def railsMoved (s : State) (v : Double) : State :=
  (movedClusters s v).foldl (fun t k => setCluster t k (atFloor t k)) { s with railmap := BitVec.ofNat 64 (bits v.toNat 47 0) }

theorem exec_railmap (s : State) (v : Double) :
    exec (.railmap v) s = .next (if (movedClusters s v).all (quiesced s) then railsMoved s v else s) := by
  show execRailmap v s = _
  unfold execRailmap railsMoved movedClusters
  dsimp only
  cases ((List.range Config.clusters).filter _).all (quiesced s) <;> rfl

theorem railsMoved_eq (s : State) (v : Double) :
    railsMoved s v = { s with railmap := BitVec.ofNat 64 (bits v.toNat 47 0), clusters := (railsMoved s v).clusters } := by
  have only : ClustersOnly { s with railmap := BitVec.ofNat 64 (bits v.toNat 47 0) } (railsMoved s v) :=
    ClustersOnly.foldl (fun t k => setCluster_clustersOnly ..) _ _
  exact only

theorem getCluster_railsMoved (s : State) (v : Double) (k : Nat) : getCluster (railsMoved s v) k =
    if k ∈ movedClusters s v then atFloor { s with railmap := BitVec.ofNat 64 (bits v.toNat 47 0) } k else getCluster s k :=
  clustersMoved _ _ (List.nodup_range.filter _) k

theorem windowEnded_keeps {s : State} {k : Nat} (idle : clusterPart s k = none ∨ holdsStep s k = true) :
    windowEnded s k = windowCounts s k := by
  unfold windowEnded
  split
  · rfl
  · rename_i p part
    exact if_pos (idle.resolve_left (by simp [part]))

theorem windowEnded_moves {s : State} {k : Nat} {p : BitVec 3} (part : clusterPart s k = some p) (free : holdsStep s k = false) :
    windowEnded s k = { windowCounts s k with wish := nextWish s p k } := by
  unfold windowEnded
  rw [part]
  exact if_neg (by rw [free]; exact Bool.false_ne_true)

theorem windowEnded_counts (s : State) (k : Nat) : (windowEnded s k).sigma = (windowCounts s k).sigma ∧
    (windowEnded s k).busy = 0 ∧ (windowEnded s k).total = 0 ∧ (windowEnded s k).clock = (windowCounts s k).clock ∧
    (windowEnded s k).raise = (windowCounts s k).raise := by
  have parts : clusterPart s k = none ∨ ∃ p, clusterPart s k = some p := by
    cases clusterPart s k
    · exact .inl rfl
    · exact .inr ⟨_, rfl⟩
  rcases parts with idle | ⟨p, part⟩
  · rw [windowEnded_keeps (.inl idle)]
    exact ⟨rfl, rfl, rfl, rfl, rfl⟩
  · cases holds : holdsStep s k with
    | true =>
      rw [windowEnded_keeps (.inr holds)]
      exact ⟨rfl, rfl, rfl, rfl, rfl⟩
    | false =>
      rw [windowEnded_moves part holds]
      exact ⟨rfl, rfl, rfl, rfl, rfl⟩

/-- The counts of a window, and what they leave of the cluster (R312). -/
theorem windowCounts_keeps (s : State) (k : Nat) :
    (windowCounts s k).sigma = 65536 * (getCluster s k).busy / max (tally s k).total 1 ∧
    (windowCounts s k).clock = (getCluster s k).clock ∧ (windowCounts s k).raise = (getCluster s k).raise ∧
    (windowCounts s k).wish = (getCluster s k).wish ∧ (windowCounts s k).cap = (getCluster s k).cap := by
  unfold windowCounts
  have busy : (tally s k).busy = (getCluster s k).busy := by unfold tally; rfl
  have clock := clock_tally s k
  have raise : (tally s k).raise = (getCluster s k).raise := by unfold tally; rfl
  have wish : (tally s k).wish = (getCluster s k).wish := by unfold tally; rfl
  have cap : (tally s k).cap = (getCluster s k).cap := by unfold tally; rfl
  dsimp only
  rw [busy]
  exact ⟨rfl, clock, raise, wish, cap⟩

/-- A window's end as a whole (R312). -/
def windowed (s : State) : State := (List.range Config.clusters).foldl endWindow { s with nextWindow := s.nextWindow + 50000 }

theorem windowed_eq (s : State) : windowed s = { s with nextWindow := s.nextWindow + 50000, clusters := (windowed s).clusters } := by
  have only : ClustersOnly { s with nextWindow := s.nextWindow + 50000 } (windowed s) :=
    ClustersOnly.foldl (fun s k => by rw [endWindow_eq]; exact setCluster_clustersOnly ..) _ _
  exact only

theorem getCluster_windowed (s : State) (k : Nat) :
    getCluster (windowed s) k = if k < 24 then windowEnded { s with nextWindow := s.nextWindow + 50000 } k else getCluster s k :=
  windowsEnd _ k

/-- The next wish, from the counts of the window (R313, R316). -/
theorem nextWish_eq (s : State) (p : BitVec 3) (k : Nat) : nextWish s p k =
    min (min 84 (bits (getPart s p).sensctl.toNat 31 24)) (max (min (min 84 (bits (getPart s p).sensctl.toNat 31 24))
      (bits (getPart s p).sensctl.toNat 23 16)) (min (getCluster s k).cap
        (if (windowCounts s k).sigma < bits (getPart s p).sensctl.toNat 15 0 then (getCluster s k).raise.getD (getCluster s k).clock - 1
          else (getCluster s k).raise.getD (getCluster s k).clock + 1))) := by
  obtain ⟨-, clock, raise, -, cap⟩ := windowCounts_keeps s k
  unfold nextWish sensCeil sensFloor
  dsimp only
  rw [clock, raise, cap]

/-- What a window's end leaves of a cluster (R312, R313). -/
theorem windowed_spec (s : State) {k : Nat} (low : k < 24) :
    (getCluster (windowed s) k).sigma = 65536 * (getCluster s k).busy / max (tally s k).total 1 ∧
    (getCluster (windowed s) k).busy = 0 ∧ (getCluster (windowed s) k).total = 0 ∧
    (getCluster (windowed s) k).clock = (getCluster s k).clock ∧ (getCluster (windowed s) k).raise = (getCluster s k).raise ∧
    (clusterPart s k = none ∨ holdsStep s k = true → (getCluster (windowed s) k).wish = (getCluster s k).wish) ∧
    ∀ p, clusterPart s k = some p → holdsStep s k = false → (getCluster (windowed s) k).wish =
      nextWish { s with nextWindow := s.nextWindow + 50000 } p k := by
  rw [getCluster_windowed, if_pos low]
  obtain ⟨sigma, busy, total, clock, raise⟩ := windowEnded_counts { s with nextWindow := s.nextWindow + 50000 } k
  obtain ⟨sigma', clock', raise', wish', -⟩ := windowCounts_keeps { s with nextWindow := s.nextWindow + 50000 } k
  refine ⟨sigma.trans sigma', busy, total, clock.trans clock', raise.trans raise', fun idle => ?_, fun p part free => ?_⟩
  · rw [windowEnded_keeps (s := { s with nextWindow := s.nextWindow + 50000 }) idle]
    exact wish'
  · rw [windowEnded_moves (s := { s with nextWindow := s.nextWindow + 50000 }) part free]

/-- The interval start of a device that is up, but for the clusters and the rails (R392). -/
theorem moveRails_governed {s : State} (n : Nat) : (moveRails (governed s n)).nextInterval = s.nextInterval ∧
    SameMemory s (moveRails (governed s n)) ∧ ∀ p, (getPart (moveRails (governed s n)) p).pwgtIn = (getPart s p).pwgtIn ∧
      (getPart (moveRails (governed s n)) p).ptimeIn = (getPart s p).ptimeIn ∧
      (getPart (moveRails (governed s n)) p).pvecIn = (getPart s p).pvecIn := by
  obtain ⟨only, settings, -⟩ := governed_governs s n
  have margins := marginOffsets_clustersOnly s n
  have same (p : BitVec 3) : getPart (marginOffsets s n) p = getPart s p := by rw [margins]; rfl
  generalize governed s n = t at only settings
  refine ⟨?_, ?_, fun p => ?_⟩
  · show t.nextInterval = s.nextInterval
    rw [only, margins]
  · have memory : SameMemory s t := by
      rw [only, margins]
      exact .of_eq rfl rfl rfl
    exact memory.trans (.of_eq rfl rfl rfl)
  · rw [← same]
    exact settings p

/-- Settles O57, by what each event leaves of the clusters it names. -/
theorem clocksRailsAndTheWatchdogAct : Obligations.ClocksRailsAndTheWatchdogAct := by
  unfold Obligations.ClocksRailsAndTheWatchdogAct
  intro s
  refine ⟨?clusters, fun early => if_pos early, ?interval, fun early => if_pos early, ?window, ?railmap, fun early => if_pos early,
    exec_watchdogCheck_quiet, ?bark⟩
  case clusters =>
    intro k c c' settled
    have counted : tally s k = c' := tally_eq s k
    have raises := fun i => exec_clockRaise (s := s) (k := k) (i := i)
    have droops := exec_droopStretch (s := s) (k := k)
    have recovers := exec_supplyRecovers s k
    rw [counted] at droops recovers
    simp only [counted] at raises
    refine ⟨exec_clockRaise_none, raises, fun idle => if_pos ?_, droops, recovers, fun idle => if_pos ?_, fun set late => if_neg ?_⟩
    · rcases idle with stretched | high
      · rw [stretched, Bool.true_or]
      · exact Bool.or_eq_true_iff.2 (.inr (decide_eq_true high))
    · rcases idle with zero | early
      · exact Bool.or_eq_true_iff.2 (.inl (decide_eq_true zero))
      · exact Bool.or_eq_true_iff.2 (.inr (decide_eq_true early))
    · rw [Bool.or_eq_true_iff, decide_eq_true_eq, decide_eq_true_eq]
      exact fun both => both.elim set (Nat.not_lt.2 late)
  case interval =>
    intro due
    have runs := exec_intervalStart due
    by_cases up : s.phase = 4
    · rw [if_neg (not_not_intro up)] at runs
      obtain ⟨next, memory, settings⟩ := moveRails_governed
        (s := enforceSettings { s with nextInterval := s.nextInterval + 20000 }) (s.nextInterval / 20000)
      have rails := governed_rails (enforceSettings { s with nextInterval := s.nextInterval + 20000 }) (s.nextInterval / 20000)
      refine ⟨_, runs, next, SameMemory.trans (.of_eq rfl rfl rfl) memory, fun p => ?_, fun down => absurd up down, fun _ =>
        ⟨(rails_moveRails _).1, fun r low => rails_le _ low, fun k low => ?_⟩⟩
      · have forced := settings p
        rw [getPart_enforceSettings] at forced
        exact forced
      · exact rails k low
    · rw [if_pos up] at runs
      refine ⟨_, runs, rfl, .of_eq rfl rfl rfl, fun p => ?_, fun _ => ⟨rfl, rfl⟩, fun same => absurd same up⟩
      rw [getPart_enforceSettings]
      exact ⟨rfl, rfl, rfl⟩
  case window =>
    intro due
    refine ⟨(windowed s).clusters, ?_, fun k => ?_⟩
    · rw [← windowed_eq]
      exact if_neg (Nat.not_lt.2 due)
    · refine ⟨fun high => (getCluster_windowed s k).trans (if_neg (Nat.not_lt.2 high)), fun low => ?_⟩
      obtain ⟨sigma, busy, total, clock, raise, wish, moves⟩ := windowed_spec s low
      refine ⟨sigma, busy, total, clock, raise, wish, fun p part free => (moves p part free).trans ?_⟩
      obtain ⟨sigma', -⟩ := windowCounts_keeps { s with nextWindow := s.nextWindow + 50000 } k
      rw [nextWish_eq, sigma'.trans sigma.symm]
      rfl
  case railmap =>
    intro v field moved
    refine ⟨?_, fun quiet => ⟨(railsMoved s v).clusters, ?_, fun k => ⟨fun other => ?_, fun mine => ?_⟩⟩⟩
    · rintro ⟨k, mine, e, resident, here⟩
      rw [exec_railmap, if_neg fun all => ?_]
      exact quiesced_iff.1 (List.all_eq_true.1 all k (mem_movedClusters.2 mine)) e resident here
    · rw [← railsMoved_eq, exec_railmap, if_pos (List.all_eq_true.2 fun k mine => quiesced_iff.2 (quiet k (mem_movedClusters.1 mine)))]
    · exact (getCluster_railsMoved s v k).trans (if_neg fun mine => other (mem_movedClusters.1 mine))
    · have floors := (getCluster_railsMoved s v k).trans (if_pos (mem_movedClusters.2 mine))
      unfold atFloor at floors
      exact ⟨(congrArg Cluster.raise floors), (congrArg Cluster.clock floors).trans (congrArg Cluster.wish floors).symm,
        congrArg Cluster.clock floors⟩
  case bark =>
    intro blk b x due resident hung ctx own
    obtain ⟨t, bark, removes, raised⟩ := exec_watchdogCheck_bark due resident hung ctx own
    exact ⟨t, _, bark, removes.context, rfl, removes.courses, raised⟩

end Sys2Proof.Machine

/-!
SUPPORT and PROOF. The fabric's lanes, the host link's modules and the host's accesses (R293, R297, R398, R399).
-/

namespace Sys2Proof.Machine

/-! ### Lanes (R399) -/

theorem getLane_updLane (s : State) {p v q w : Nat} (f : Lane → Lane) (port : p < 18) (lane : v < 4) (lane' : w < 4) :
    getLane (updLane s p v f) q w = if q = p ∧ w = v then f (getLane s p v) else getLane s q w := by
  have key : laneKey q w = laneKey p v ↔ q = p ∧ w = v := by unfold laneKey; omega
  unfold getLane updLane
  rw [if_neg (by simp only [Bool.or_eq_true, decide_eq_true_eq]; omega)]
  dsimp only
  rw [find?_put]
  by_cases own : q = p ∧ w = v
  · rw [if_pos own, if_pos (key.2 own)]
    rfl
  · rw [if_neg own, if_neg fun same => own (key.1 same)]

/-- `t` is `s` with lane `v` of port `p` as `l`, and `o` put out. -/
structure LaneLeft (s t : State) (p v : Nat) (l : Lane) (o : List Output) : Prop where
  only : t = { s with lanes := t.lanes, out := s.out ++ o }
  lane : getLane t p v = l
  others : ∀ q w, q < 18 → w < 4 → ¬ (q = p ∧ w = v) → getLane t q w = getLane s q w

section

variable {s : State} {p v : Nat} (port : p < 18) (lane : v < 4)

include port lane

theorem updLane_left (f : Lane → Lane) : LaneLeft s (updLane s p v f) p v (f (getLane s p v)) [] := by
  refine ⟨?_, ?_, fun q w _ low other => ?_⟩
  · unfold updLane
    rw [if_neg (by simp only [Bool.or_eq_true, decide_eq_true_eq]; omega), List.append_nil]
  · rw [getLane_updLane s f port lane lane, if_pos ⟨rfl, rfl⟩]
  · rw [getLane_updLane s f port lane low, if_neg other]

omit port lane in
theorem LaneLeft.trans {a b c : State} {l m : Lane} {o o' : List Output} (h : LaneLeft a b p v l o) (g : LaneLeft b c p v m o') :
    LaneLeft a c p v m (o ++ o') := by
  obtain ⟨only, -, others⟩ := h
  refine ⟨?_, g.lane, fun q w port low other => (g.others q w port low other).trans (others q w port low other)⟩
  have out : b.out = a.out ++ o := by rw [only]
  rw [g.only, out, List.append_assoc]
  exact congrArg (fun b : State => { b with lanes := c.lanes, out := a.out ++ (o ++ o') }) only

omit port lane in
theorem LaneLeft.out {t : State} {l : Lane} {o : List Output} (h : LaneLeft s t p v l o) (o' : List Output) :
    LaneLeft s { t with out := t.out ++ o' } p v l (o ++ o') := by
  obtain ⟨only, left, others⟩ := h
  refine ⟨?_, left, others⟩
  have out : t.out = s.out ++ o := by rw [only]
  rw [out, List.append_assoc]
  exact congrArg (fun b : State => { b with out := s.out ++ (o ++ o') }) only

theorem sendFlit_left (i : Nat) :
    LaneLeft s (sendFlit s p v i) p v { getLane s p v with replay := (getLane s p v).replay ++ [i] } [.flit p v i] :=
  (updLane_left port lane fun l => { l with replay := l.replay ++ [i] }).out [.flit p v i]

/-- What has waited goes out, in order, into the replay buffer (R399). -/
theorem sendFlits_left (l : List Nat) : LaneLeft s (l.foldl (fun s i => sendFlit s p v i) s) p v
    { getLane s p v with replay := (getLane s p v).replay ++ l } (l.map (fun i => .flit p v i)) := by
  induction l generalizing s with
  | nil => exact ⟨by simp, by simp, fun _ _ _ _ _ => rfl⟩
  | cons i t ih =>
    have sent := sendFlit_left (s := s) port lane i
    have rest := sent.trans (ih (s := sendFlit s p v i))
    rw [sent.lane] at rest
    simpa using rest

theorem resumeLane_left : LaneLeft s (resumeLane s p v) p v { getLane s p v with
    pausedUntil := 0, waiting := [], replay := (getLane s p v).replay ++ (getLane s p v).waiting }
    ((getLane s p v).waiting.map (fun i => .flit p v i)) := by
  have resumed := updLane_left (s := s) port lane fun l => { l with pausedUntil := 0, waiting := [] }
  have sent := resumed.trans (sendFlits_left port lane (getLane s p v).waiting)
  rw [resumed.lane] at sent
  exact sent

theorem sendPause_left (pausing : (getLane s p v).pausing = true) :
    LaneLeft s (sendPause s p v) p v { getLane s p v with lastPause := s.now } [.pause p v] := by
  have sent := (updLane_left (s := s) port lane fun l => { l with pausing := true, lastPause := s.now }).out [.pause p v]
  have stays : { getLane s p v with pausing := true, lastPause := s.now } = { getLane s p v with lastPause := s.now } := by
    rw [← pausing]
  rw [stays] at sent
  exact sent

end

/-! ### Modules (R398) -/

theorem getElem?_modifyAt {α : Type} (l : List α) (n : Nat) (f : α → α) (i : Nat) :
    (modifyAt l n f)[i]? = (l[i]?).map (fun e => if i = n then f e else e) := by
  induction l generalizing n i with
  | nil => rfl
  | cons a t ih =>
    cases n with
    | zero => cases i <;> simp [modifyAt]
    | succ n => cases i <;> simp [modifyAt, ih]

/-! ### Host accesses (R297) -/

theorem mem_hostLines {pa n k : Nat} (some : 0 < n) : k ∈ hostLines pa n ↔ pa / 64 ≤ k ∧ k ≤ (pa + n - 1) / 64 := by
  unfold hostLines
  simp only [List.mem_map, List.mem_range]
  constructor
  · rintro ⟨i, low, rfl⟩
    have := Nat.div_le_div_right (c := 64) (show pa ≤ pa + n - 1 by omega)
    omega
  · rintro ⟨low, high⟩
    exact ⟨k - pa / 64, by omega, by omega⟩

theorem readTouch_good {s : State} (good : allGood s = true) (pa : Nat) : readTouch s pa = s := if_pos good

theorem hostLoad_good {s : State} (good : allGood s = true) (pa n : Nat) : hostLoad s pa n = { s with
    out := s.out ++ [.hostData pa (homeBytes s (.dev pa) n) (homePoisoned s (.dev pa) n)]
    hostHeld := s.hostHeld ++ (hostLines pa n).filter (fun l => !s.hostHeld.contains l) } := by
  have touched (l : List Nat) : l.foldl readTouch s = s := by
    induction l with
    | nil => rfl
    | cons a t ih => rw [List.foldl_cons, readTouch_good good, ih]
  unfold hostLoad
  rw [touched]

/-- Every cell of a sector is one of the store's, and its sector is that of one. -/
theorem cells_groupCells (cells : List (Home × Byte)) : ∀ g ∈ groupCells cells [], (∃ c ∈ cells, g.1 = homeSector c.1) ∧
    ∀ e ∈ g.2, (homeAdd g.1 e.1, e.2) ∈ cells := by
  rw [groupCells_eq_foldl]
  induction cells using List.reverseRecOn with
  | nil => simp
  | append_singleton l c ih =>
    rw [List.foldl_append, List.foldl_cons, List.foldl_nil]
    generalize l.foldl groupCell [] = acc at ih
    have last : c ∈ l ++ [c] := by simp
    have own : (homeAdd (homeSector c.1) (homeOffset c.1), c.2) ∈ l ++ [c] := by
      rw [homeAdd_sector_offset]
      exact last
    have earlier (g : Home × Assoc Byte) (old : g ∈ acc) : (∃ d ∈ l ++ [c], g.1 = homeSector d.1) ∧
        ∀ e ∈ g.2, (homeAdd g.1 e.1, e.2) ∈ l ++ [c] := by
      obtain ⟨⟨d, member, sector⟩, cells⟩ := ih g old
      exact ⟨⟨d, List.mem_append_left _ member, sector⟩, fun e inside => List.mem_append_left _ (cells e inside)⟩
    intro g member
    unfold groupCell at member
    split at member
    · obtain ⟨h, old, rfl⟩ := List.mem_map.1 member
      unfold sectorWith
      split
      · rename_i same
        rw [beq_iff_eq] at same
        refine ⟨⟨c, last, rfl⟩, fun e inside => ?_⟩
        rcases mem_put inside with rfl | before
        · exact own
        · rw [← same]
          exact (earlier h old).2 e before
      · exact earlier h old
    · rcases List.mem_append.1 member with old | new
      · exact earlier g old
      · rw [List.mem_singleton.1 new]
        refine ⟨⟨c, last, rfl⟩, fun e inside => ?_⟩
        rw [List.mem_singleton.1 inside]
        exact own

/-- A sector of a host store is performed at its home. -/
def hostSector (t : State) (g : Home × Assoc Byte) : State := match g.1 with
  | .dev base => performHome t base g.2
  | _ => t

theorem hostSector_onlyMemory (t : State) (g : Home × Assoc Byte) : OnlyMemory t (hostSector t g) := by
  unfold hostSector
  split
  · exact performHome_onlyMemory ..
  · exact .refl t

theorem performHome_bytes {s : State} (good : allGood s = true) (pa : Nat) (cells : List (Nat × Byte)) :
    (∀ a, cget 0#8 (performHome s pa cells).dev a =
      ((cells.reverse.find? (fun c => pa + c.1 = a)).map (·.2)).getD (cget 0#8 s.dev a)) ∧
    (performHome s pa cells).hostMem = s.hostMem ∧ (performHome s pa cells).out = s.out ∧ allGood (performHome s pa cells) = true := by
  have performed : performHome s pa cells = invalidateHomeDie (writeSector s pa cells) pa := by
    unfold performHome oldTouch
    rw [if_pos good]
    unfold writeTouch
    rw [if_pos good]
  rw [performed]
  refine ⟨fun a => ?_, rfl, rfl, good⟩
  show cget 0#8 (csetAll 0#8 s.dev _) a = _
  rw [cget_csetAll_last, ← List.map_reverse, List.find?_map, Option.map_map]
  rfl

/-- What sectors of right bytes leave: each byte that one of them covers, and every other as it was. -/
theorem hostSectors_bytes {pa : Nat} {bs : List Byte} (l : List (Home × Assoc Byte))
    (right : ∀ g ∈ l, ∃ base, g.1 = .dev base ∧ ∀ e ∈ g.2, e.2 = bs.getD (base + e.1 - pa) 0#8) : ∀ s : State, allGood s = true →
    (l.foldl hostSector s).hostMem = s.hostMem ∧ (l.foldl hostSector s).out = s.out ∧
    ∀ a, ((∃ g ∈ l, ∃ e ∈ g.2, homeAdd g.1 e.1 = .dev a) → cget 0#8 (l.foldl hostSector s).dev a = bs.getD (a - pa) 0#8) ∧
      ((¬ ∃ g ∈ l, ∃ e ∈ g.2, homeAdd g.1 e.1 = .dev a) → cget 0#8 (l.foldl hostSector s).dev a = cget 0#8 s.dev a) := by
  induction l with
  | nil => exact fun s _ => ⟨rfl, rfl, fun a => ⟨by simp, fun _ => rfl⟩⟩
  | cons g t ih =>
    intro s good
    obtain ⟨base, device, own⟩ := right g (List.mem_cons_self ..)
    have one : hostSector s g = performHome s base g.2 := by unfold hostSector; rw [device]
    obtain ⟨bytes, host, out, still⟩ := performHome_bytes good base g.2
    obtain ⟨host', out', rest⟩ := ih (fun h member => right h (List.mem_cons_of_mem _ member)) _ still
    rw [List.foldl_cons, one]
    refine ⟨host'.trans host, out'.trans out, fun a => ?_⟩
    obtain ⟨covered, spared⟩ := rest a
    have here (e : Nat × Byte) : homeAdd g.1 e.1 = .dev a ↔ base + e.1 = a := by rw [device]; exact ⟨Home.dev.inj, congrArg _⟩
    by_cases later : ∃ h ∈ t, ∃ e ∈ h.2, homeAdd h.1 e.1 = .dev a
    · refine ⟨fun _ => covered later, fun none => absurd ?_ none⟩
      obtain ⟨h, member, rest⟩ := later
      exact ⟨h, List.mem_cons_of_mem _ member, rest⟩
    · rw [spared later, bytes]
      cases found : g.2.reverse.find? (fun c => base + c.1 = a) with
      | some e =>
        have hit : base + e.1 = a := by simpa using List.find?_some found
        have inside : e ∈ g.2 := List.mem_reverse.1 (List.mem_of_find?_eq_some found)
        refine ⟨fun _ => ?_, fun none => absurd ⟨g, List.mem_cons_self .., e, inside, (here e).2 hit⟩ none⟩
        rw [← hit]
        exact own e inside
      | none =>
        refine ⟨?_, fun _ => rfl⟩
        rintro ⟨h, member, e, inside, at_⟩
        rcases List.mem_cons.1 member with rfl | older
        · have missed := List.find?_eq_none.1 found e (List.mem_reverse.2 inside)
          exact absurd ((here e).1 at_) (by simpa using missed)
        · exact absurd ⟨h, older, e, inside, at_⟩ later

/-- The cells of a host store. -/
def hostCells (pa : Nat) (bs : List Byte) : List (Home × Byte) := bs.zipIdx.map (fun e => (Home.dev (pa + e.2), e.1))

theorem mem_hostCells {pa : Nat} {bs : List Byte} {c : Home × Byte} :
    c ∈ hostCells pa bs ↔ ∃ i, i < bs.length ∧ c = (.dev (pa + i), bs.getD i 0#8) := by
  unfold hostCells
  simp only [List.mem_map, List.mem_zipIdx_iff_getElem?, Prod.exists]
  constructor
  · rintro ⟨b, i, at_, rfl⟩
    obtain ⟨low, value⟩ := List.getElem?_eq_some_iff.1 at_
    exact ⟨i, low, by rw [List.getD_eq_getElem _ _ low, value]⟩
  · rintro ⟨i, low, rfl⟩
    exact ⟨bs[i], i, List.getElem?_eq_getElem low, by rw [List.getD_eq_getElem _ _ low]⟩

theorem hostStore_eq (s : State) (pa : Nat) (bs : List Byte) :
    hostStore s pa bs = (groupCells (hostCells pa bs) []).foldl hostSector s := by
  unfold hostStore hostCells hostSector
  rfl

/-- A host store changes its own bytes alone, where no member is lost (R293, R297). -/
theorem hostStore_good {s : State} (good : allGood s = true) (pa : Nat) (bs : List Byte) : OnlyMemory s (hostStore s pa bs) ∧
    (hostStore s pa bs).out = s.out ∧ (hostStore s pa bs).hostMem = s.hostMem ∧ ∀ a, cget 0#8 (hostStore s pa bs).dev a =
      if pa ≤ a ∧ a < pa + bs.length then bs.getD (a - pa) 0#8 else cget 0#8 s.dev a := by
  have cells := cells_groupCells (hostCells pa bs)
  have right : ∀ g ∈ groupCells (hostCells pa bs) [], ∃ base, g.1 = .dev base ∧ ∀ e ∈ g.2, e.2 = bs.getD (base + e.1 - pa) 0#8 := by
    intro g member
    obtain ⟨⟨c, mine, sector⟩, inside⟩ := cells g member
    obtain ⟨i, -, rfl⟩ := mem_hostCells.1 mine
    refine ⟨_, sector, fun e here => ?_⟩
    obtain ⟨j, -, same⟩ := mem_hostCells.1 (inside e here)
    rw [sector] at same
    obtain ⟨at_, value⟩ := Prod.mk.inj same
    have place : (pa + i) / 32 * 32 + e.1 = pa + j := Home.dev.inj at_
    rw [value, place, Nat.add_sub_cancel_left]
  rw [hostStore_eq]
  obtain ⟨host, out, bytes⟩ := hostSectors_bytes (pa := pa) _ right s good
  refine ⟨OnlyMemory.foldl hostSector_onlyMemory _ s, out, host, fun a => ?_⟩
  split
  · rename_i inside
    refine (bytes a).1 ?_
    have last : HoldsByte (groupCells (hostCells pa bs) []) (.dev a) (bs.getD (a - pa) 0#8) := by
      rw [holdsByte_groupCells]
      have member : (Home.dev a, bs.getD (a - pa) 0#8) ∈ (hostCells pa bs).filter (fun e => e.1 = .dev a) :=
        List.mem_filter.2 ⟨mem_hostCells.2 ⟨a - pa, by omega, by rw [Nat.add_sub_cancel' inside.1]⟩, by simp⟩
      obtain ⟨e, tail⟩ := Option.isSome_iff_exists.1 (List.getLast?_isSome.2 (List.ne_nil_of_mem member))
      rw [tail, Option.map_some]
      obtain ⟨old, here⟩ := List.mem_filter.1 (List.mem_of_getLast? tail)
      obtain ⟨i, low, rfl⟩ := mem_hostCells.1 old
      have place : pa + i = a := Home.dev.inj (of_decide_eq_true here)
      rw [← place, Nat.add_sub_cancel_left]
    obtain ⟨g, member, sector, found⟩ := last
    exact ⟨g, member, _, find?_mem found, by rw [sector, homeAdd_sector_offset]⟩
  · rename_i outside
    refine (bytes a).2 ?_
    rintro ⟨g, member, e, inside, at_⟩
    obtain ⟨i, low, same⟩ := mem_hostCells.1 ((cells g member).2 e inside)
    have place : a = pa + i := Home.dev.inj (at_.symm.trans (Prod.mk.inj same).1)
    omega

/-! ### The obligation -/

theorem exec_hostMemoryAccess {s : State} {pa : BitVec 39} {len n : Nat} {data : List Byte}
    (whole : min (if data.isEmpty then len else data.length) (Config.deviceBytes - pa.toNat) = n) (some : n ≠ 0) :
    exec (.hostMemoryAccess pa len data) s = .next (if s.phase ≠ 4 then
        { s with out := s.out ++ [.hostData pa.toNat (if data.isEmpty then List.replicate n 0#8 else []) true] }
      else if data.isEmpty then hostLoad s pa.toNat n else hostStore s pa.toNat (data.take n)) := by
  show execHostMemoryAccess pa len data s = _
  unfold execHostMemoryAccess
  dsimp only
  rw [whole, if_neg some]
  split <;> rfl

theorem mem_dropL2 (s : State) (p : L2Line → Bool) (n : Nat) (x : L2Line) :
    (∃ e ∈ (dropL2 s p).l2, e.1 = n ∧ x ∈ e.2) ↔ (∃ e ∈ s.l2, e.1 = n ∧ x ∈ e.2) ∧ p x = false := by
  unfold dropL2
  simp only [List.mem_filter, List.mem_map]
  constructor
  · rintro ⟨e, ⟨⟨d, member, rfl⟩, -⟩, rfl, line⟩
    obtain ⟨old, kept⟩ := List.mem_filter.1 line
    exact ⟨⟨d, member, rfl, old⟩, by simpa using kept⟩
  · rintro ⟨⟨d, member, rfl, old⟩, kept⟩
    have line : x ∈ d.2.filter (fun x => !p x) := List.mem_filter.2 ⟨old, by simp [kept]⟩
    exact ⟨_, ⟨⟨d, member, rfl⟩, by simpa using ⟨x, old, kept⟩⟩, rfl, line⟩

/-- Settles O55: the lanes by the one lane that changes, the host by the lines and bytes it touches. -/
theorem theLinksAct : Obligations.TheLinksAct := by
  unfold Obligations.TheLinksAct
  intro s
  refine ⟨?lanes, fun m => ⟨_, rfl, fun i => ?module⟩, fun a => ⟨_, rfl, fun n x => ?snoop⟩, fun pa => ?nothing, ?load, ?store⟩
  case lanes =>
    intro port vl low l leaves goesOn
    have lane : vl.toNat < 4 := vl.isLt
    have whole {t : State} {l' : Lane} {o : List Output} (h : LaneLeft s t port.toNat vl.toNat l' o) : leaves t l' o :=
      ⟨h.only, h.lane, h.others⟩
    have resumed := resumeLane_left (s := s) low lane
    refine ⟨⟨_, rfl, whole (updLane_left low lane fun l => { l with pausedUntil := s.now + 2000 })⟩, ⟨_, rfl, whole resumed⟩,
      fun idle => congrArg Host.Outcome.next (if_neg ?_), fun set due => ⟨_, congrArg Host.Outcome.next (if_pos ?_), whole resumed⟩,
      fun running empty => congrArg Host.Outcome.next (if_neg ?_),
      fun shut => ⟨_, congrArg Host.Outcome.next (if_pos ?_),
        whole (updLane_left low lane fun l => { l with waiting := l.replay ++ l.waiting, replay := [] })⟩,
      fun pausing full due => ⟨_, congrArg Host.Outcome.next (if_pos ?_), whole (sendPause_left low lane pausing)⟩,
      fun idle => congrArg Host.Outcome.next (if_neg ?_)⟩
    · rw [Bool.and_eq_true, decide_eq_true_eq, decide_eq_true_eq]
      exact fun both => idle.elim both.1 (Nat.not_lt.2 both.2)
    · rw [Bool.and_eq_true, decide_eq_true_eq, decide_eq_true_eq]
      exact ⟨set, due⟩
    · have even : lanePaused s l = false := by simp [lanePaused, Nat.not_lt.2 running, empty]
      exact fun paused => Bool.false_ne_true (even.symm.trans paused)
    · show lanePaused s l = true
      rcases shut with paused | waits
      · simp [lanePaused, paused]
      · simp [lanePaused, waits]
    · show repeatDue s l = true
      simp [repeatDue, pausing, full, due]
    · show ¬ repeatDue s l = true
      rw [repeatDue, Bool.and_eq_true, Bool.and_eq_true, decide_eq_true_eq, decide_eq_true_eq]
      rintro ⟨⟨pausing, full⟩, due⟩
      rcases idle with off | low | early
      · exact Bool.false_ne_true (off.symm.trans pausing)
      · omega
      · omega
  case module =>
    rw [getElem?_modifyAt]
    refine congrArg (Option.map · _) (funext fun e => ?_)
    by_cases own : i = m.toNat <;> simp [own, moduleBad]
  case snoop =>
    refine (mem_dropL2 ..).trans (and_congr_right fun _ => ?_)
    rw [← Bool.not_eq_true, beq_iff_eq]
  case nothing =>
    have none : min 0 (Config.deviceBytes - pa.toNat) = 0 := Nat.min_eq_left (Nat.zero_le _)
    show execHostMemoryAccess pa 0 [] s = _
    unfold execHostMemoryAccess
    exact if_pos none
  case load =>
    intro pa n within some
    have fits : min n (Config.deviceBytes - pa.toNat) = n := Nat.min_eq_left (by unfold Config.deviceBytes; omega)
    have runs := exec_hostMemoryAccess (s := s) (pa := pa) (len := n) (data := []) fits some.ne'
    refine ⟨fun down => runs.trans (congrArg Host.Outcome.next (if_pos down)), fun up good => ⟨_,
      runs.trans (congrArg Host.Outcome.next ((if_neg (not_not_intro up)).trans
      (hostLoad_good good ..))), fun k => ?_⟩⟩
    rw [List.mem_append, List.mem_filter, mem_hostLines some]
    by_cases held : k ∈ s.hostHeld <;> simp [held]
  case store =>
    intro pa n data within full
    have fits : min data.length (Config.deviceBytes - pa.toNat) = data.length := Nat.min_eq_left (by unfold Config.deviceBytes; omega)
    have kept : data.isEmpty = false := by simpa using full
    have length : min (if data.isEmpty then n else data.length) (Config.deviceBytes - pa.toNat) = data.length := by
      rw [kept]
      exact fits
    have runs := exec_hostMemoryAccess (s := s) length (by simpa using full)
    rw [kept, List.take_length] at runs
    obtain hostStored := fun good => hostStore_good (s := s) good pa.toNat data
    refine ⟨fun down => runs.trans (congrArg Host.Outcome.next (if_pos down)), fun up good => ?_⟩
    exact ⟨_, runs.trans (congrArg Host.Outcome.next (if_neg (not_not_intro up))), hostStored good⟩

end Sys2Proof.Machine

/-!
SUPPORT and PROOF. Requests of remote devices (R293, R400) and recoveries (R199, R387, R401).
-/

namespace Sys2Proof.Machine

/-! ### Accesses to a device that has not recovered fail (R199, R387) -/

theorem del_eq_filter {α : Type} (m : Assoc α) (k : Nat) : del m k = m.filter (fun e => e.1 ≠ k) := by
  induction m with
  | nil => rfl
  | cons e t ih =>
    obtain ⟨a, w⟩ := e
    by_cases same : a = k <;> simp [del, same, ih]

theorem find?_of_mem {α : Type} {m : Assoc α} {k : Nat} {v : α} (once : (m.map (·.1)).Nodup) (member : (k, v) ∈ m) :
    find? m k = some v := by
  induction m with
  | nil => cases member
  | cons e t ih =>
    obtain ⟨a, w⟩ := e
    obtain ⟨fresh, once⟩ := List.nodup_cons.1 once
    rcases List.mem_cons.1 member with same | later
    · cases same
      exact if_pos rfl
    · have other : a ≠ k := fun same => fresh (same ▸ List.mem_map.2 ⟨_, later, rfl⟩)
      exact (if_neg other).trans (ih once later)

theorem courseKey_inj {b c d e : Nat} (hc : c < 32) (he : e < 32) : courseKey b c = courseKey d e ↔ b = d ∧ c = e := by
  unfold courseKey
  omega

theorem updPath_rest (s : State) (b c i : Nat) (f : Path → Path) :
    updPath s b c i f = { s with courses := (updPath s b c i f).courses } := by
  unfold updPath updCourse
  split <;> rfl

theorem getCourse_updPath (s : State) {b c d e : Nat} (i : Nat) (f : Path → Path) (hc : c < 32) (he : e < 32) :
    getCourse (updPath s b c i f) d e = (getCourse s d e).map
      (fun k => if b = d ∧ c = e then setPath k i ((getPath k i).map f) else k) := by
  unfold updPath updCourse
  by_cases own : b = d ∧ c = e
  · obtain ⟨rfl, rfl⟩ := own
    cases course : getCourse s b c with
    | none => simp [course]
    | some k => simp
  · have key : courseKey d e ≠ courseKey b c := fun same => own ((courseKey_inj hc he).1 same.symm)
    simp only [if_neg own, Option.map_id']
    split
    · exact getCourse_setCourse_ne _ _ key
    · rfl

/-- The path at slot `i` of a course once the access that `e` stands for has failed. -/
def failPath (b c i : Nat) (p : Path) (e : Nat × Remote) : Path :=
  match e.2.owner with
  | .lane b' c' i' pos lane => if b' = b ∧ c' = c ∧ i' = i then answerPath pos lane ⟨false, [], []⟩ p else p
  | _ => p

/-- Both paths of a course once the accesses of `l` have failed. -/
def failCourse (l : List (Nat × Remote)) (b c : Nat) (k : Course) : Course :=
  { k with path0 := k.path0.map (fun p => l.foldl (failPath b c 0) p), path1 := k.path1.map (fun p => l.foldl (failPath b c 1) p) }

/-- `t` is `s` once the accesses of `l`, all of them lanes', have failed. -/
structure AccessesFail (s t : State) (l : List (Nat × Remote)) : Prop where
  only : t = { s with courses := t.courses, remotes := t.remotes }
  remotes : t.remotes = s.remotes.filter (fun e => e.1 ∉ l.map (·.1))
  courses : ∀ b c, c < 32 → getCourse t b c = (getCourse s b c).map (failCourse l b c)

@[simp] theorem failCourse_nil (b c : Nat) : failCourse [] b c = id := by
  funext k
  simp [failCourse]

theorem failCourse_single {e : Nat × Remote} {b c b' c' i pos lane : Nat} (owner : e.2.owner = .lane b c i pos lane) (hi : i < 2)
    (k : Course) : failCourse [e] b' c' k =
      if b = b' ∧ c = c' then setPath k i ((getPath k i).map (answerPath pos lane ⟨false, [], []⟩)) else k := by
  unfold failCourse
  simp only [List.foldl_cons, List.foldl_nil, failPath, owner]
  by_cases own : b = b' ∧ c = c'
  · obtain ⟨rfl, rfl⟩ := own
    obtain rfl | rfl : i = 0 ∨ i = 1 := by omega
    · simp [setPath, getPath]
    · simp [setPath, getPath]
  · have off (j : Nat) : ¬ (b = b' ∧ c = c' ∧ i = j) := fun all => own ⟨all.1, all.2.1⟩
    simp only [off, own, if_false, Option.map_id']

theorem answerRemote_fails {s : State} {e : Nat × Remote} (once : (s.remotes.map (·.1)).Nodup) (member : e ∈ s.remotes)
    {b c i pos lane : Nat} (owner : e.2.owner = .lane b c i pos lane) (hc : c < 32) (hi : i < 2) :
    AccessesFail s (answerRemote s e.1 ⟨false, [], []⟩) [e] := by
  have answered : answerRemote s e.1 ⟨false, [], []⟩ =
      updPath { s with remotes := del s.remotes e.1 } b c i (answerPath pos lane ⟨false, [], []⟩) := by
    unfold answerRemote
    rw [find?_of_mem once member]
    simp only [answerOwner, owner]
  rw [answered]
  have rest := updPath_rest { s with remotes := del s.remotes e.1 } b c i (answerPath pos lane ⟨false, [], []⟩)
  refine ⟨rest.trans ?_, (congrArg State.remotes rest).trans ((del_eq_filter ..).trans (List.filter_congr fun f _ => ?_)),
    fun b' c' hc' => ?_⟩
  · rw [rest]
  · simp
  · rw [getCourse_updPath _ i _ hc hc']
    exact congrArg (Option.map · _) (funext fun k => (failCourse_single owner hi k).symm)

theorem AccessesFail.cons {s t u : State} {e : Nat × Remote} {l : List (Nat × Remote)} (one : AccessesFail s t [e])
    (rest : AccessesFail t u l) : AccessesFail s u (e :: l) := by
  refine ⟨?_, ?_, fun b c hc => ?_⟩
  · rw [rest.only, one.only]
  · rw [rest.remotes, one.remotes, List.filter_filter]
    refine List.filter_congr fun f _ => ?_
    by_cases same : f.1 = e.1 <;> simp [same]
  · rw [rest.courses b c hc, one.courses b c hc, Option.map_map]
    refine congrArg (Option.map · _) (funext fun k => ?_)
    simp [failCourse, Function.comp_def]

theorem answerRemote_foldl : ∀ (l : List (Nat × Remote)) (s : State), (s.remotes.map (·.1)).Nodup → (l.map (·.1)).Nodup →
    (∀ e ∈ l, e ∈ s.remotes ∧ ∃ b c i pos lane, e.2.owner = .lane b c i pos lane ∧ c < 32 ∧ i < 2) →
    AccessesFail s (l.foldl (fun s e => answerRemote s e.1 ⟨false, [], []⟩) s) l
  | [], s, _, _, _ => ⟨rfl, by simp, fun b c _ => (by simp [failCourse_nil] : _ = (getCourse s b c).map (failCourse [] b c))⟩
  | e :: l, s, once, fresh, owned => by
    obtain ⟨member, b, c, i, pos, lane, owner, hc, hi⟩ := owned e List.mem_cons_self
    obtain ⟨other, fresh⟩ := List.nodup_cons.1 fresh
    have one := answerRemote_fails once member owner hc hi
    refine one.cons (answerRemote_foldl l _ ?_ fresh fun f later => ?_)
    · rw [one.remotes]
      exact once.sublist (List.filter_sublist.map _)
    · obtain ⟨held, lane⟩ := owned f (List.mem_cons_of_mem _ later)
      refine ⟨?_, lane⟩
      rw [one.remotes]
      have distinct : f.1 ≠ e.1 := fun same => other (List.mem_map.2 ⟨f, later, same⟩)
      exact List.mem_filter.2 ⟨held, by simp [distinct]⟩

/-- The accesses of a table of distinct requests that go to one device fail together. -/
theorem failDevice_fails {s : State} {dev : Nat} (once : (s.remotes.map (·.1)).Nodup)
    (owned : ∀ e ∈ s.remotes, e.2.device = dev → ∃ b c i pos lane, e.2.owner = .lane b c i pos lane ∧ c < 32 ∧ i < 2) :
    AccessesFail s (failDevice s dev) (s.remotes.filter (fun e => e.2.device == dev)) ∧
      (failDevice s dev).remotes = s.remotes.filter (fun e => e.2.device ≠ dev) := by
  have fails : AccessesFail s (failDevice s dev) (s.remotes.filter (fun e => e.2.device == dev)) := by
    refine answerRemote_foldl _ _ once (once.sublist (List.filter_sublist.map _)) fun e member => ?_
    obtain ⟨held, goes⟩ := List.mem_filter.1 member
    exact ⟨held, owned e held (beq_iff_eq.1 goes)⟩
  refine ⟨fails, fails.remotes.trans (List.filter_congr fun e held =>
    decide_eq_decide.2 (not_congr ⟨fun listed => ?_, fun goes => ?_⟩))⟩
  · obtain ⟨f, member, key⟩ := List.mem_map.1 listed
    obtain ⟨held', goes⟩ := List.mem_filter.1 member
    have same : some f.2 = some e.2 := by
      rw [← find?_of_mem once held', ← find?_of_mem once held, key]
    exact Option.some.inj same ▸ beq_iff_eq.1 goes
  · exact List.mem_map_of_mem (List.mem_filter.2 ⟨held, beq_iff_eq.2 goes⟩)

/-! ### Requests (R293, R400) -/

/-- Which bytes a reply says come poisoned. -/
theorem poisonedBytes (l : List (Poi Byte)) : l.zipIdx.filterMap (fun e => if e.1.2 then some e.2 else none) =
    (List.range l.length).filter (fun i => (l.map (·.2))[i]? = some true) := by
  have from_ (n : Nat) : (l.zipIdx n).filterMap (fun e => if e.1.2 then some e.2 else none) =
      (List.range' n l.length).filter (fun i => (l.map (·.2))[i - n]? = some true) := by
    induction l generalizing n with
    | nil => rfl
    | cons e t ih =>
      have tail : (List.range' (n + 1) t.length).filter (fun i => ((e :: t).map (·.2))[i - n]? = some true) =
          (List.range' (n + 1) t.length).filter (fun i => (t.map (·.2))[i - (n + 1)]? = some true) := by
        refine List.filter_congr fun i member => ?_
        obtain ⟨above, _⟩ := List.mem_range'_1.1 member
        rw [show i - n = i - (n + 1) + 1 by omega]
        simp
      rw [List.zipIdx_cons, List.length_cons, List.range'_succ, List.filter_cons, tail, ← ih, List.filterMap_cons]
      cases poison : e.2 <;> simp [poison]
  rw [List.range_eq_range']
  exact from_ 0

/-- What a page table maps is no remote device's. -/
theorem translate_local {s : State} {asid : BitVec 16} {va : Nat} {h : Home} {f : Leaf} (mapped : translate s asid va = .mem h f)
    (d r w : Nat) : h ≠ .fabric d r w := by
  rintro rfl
  unfold translate at mapped
  split at mapped
  · cases mapped
  · dsimp only at mapped
    split at mapped
    · cases mapped
    · split at mapped
      · split at mapped <;> cases mapped
      · split at mapped
        · cases mapped
        · split at mapped
          · cases mapped
          · cases mapped

theorem remoteHome_local {s : State} {asid : BitVec 16} {va n : Nat} {h : Home} (home : remoteHome s asid va n = some h)
    (d r w : Nat) : h ≠ .fabric d r w := by
  unfold remoteHome at home
  split at home
  · next mapped =>
    split at home
    · cases home
      exact translate_local mapped d r w
    · cases home
  · cases home

/-- `t` is what a read-modify-write of a remote device at its home leaves of `s`. -/
structure Updated (s t : State) (h : Home) (n : Nat) (f : Nat → Option Nat) : Prop where
  poisoned : homePoisoned s h n = true → t.out = s.out ++ [.reply true (List.range n) (List.replicate n 0#8)] ∧
    t.dev = s.dev ∧ t.hostMem = s.hostMem
  answered : homePoisoned s h n = false → t.out.getLast? = some (.reply true [] (homeBytes s h n))
  stored : homePoisoned s h n = false → ∀ v, f (natOfBytes (homeBytes s h n)) = some v → StoredAt s t h (bytesOfNat n v)
  kept : homePoisoned s h n = false → f (natOfBytes (homeBytes s h n)) = none → t.dev = s.dev ∧ t.hostMem = s.hostMem

theorem remoteUpdate_updated {s : State} (good : allGood s = true) (asid : BitVec 16) {h : Home} (n : Nat)
    (f : Nat → Option Nat) (near : ∀ d r w, h ≠ .fabric d r w) : Updated s (remoteUpdate s asid h n f) h n f := by
  have sliced : SlicesOnly s (l2Access s asid h (homeSectors h n) 0 0) := l2Access_slicesOnly ..
  have good' := sliced.allGood.trans good
  unfold remoteUpdate
  rw [touch_good good']
  generalize l2Access s asid h (homeSectors h n) 0 0 = u at sliced good'
  have sameDev : u.dev = s.dev := by rw [sliced]
  have sameHost : u.hostMem = s.hostMem := by rw [sliced]
  have sameOut : u.out = s.out := by rw [sliced]
  dsimp only
  rw [sliced.homePoisoned, sliced.homeBytes]
  refine ⟨fun poison => ?_, fun clean => ?_, fun clean v new => ?_, fun clean old => ?_⟩
  · rw [if_pos poison]
    exact ⟨congrArg (· ++ _) sameOut, sameDev, sameHost⟩
  · rw [if_neg (by simp [clean])]
    exact List.getLast?_concat
  · rw [if_neg (by simp [clean]), new]
    have stored := performBy_storedAt good' asid near (bytesOfNat n v) 0
    unfold StoredAt at stored ⊢
    rw [sameDev, sameHost] at stored
    exact stored
  · rw [if_neg (by simp [clean]), old]
    exact ⟨sameDev, sameHost⟩

theorem Updated.retest {s t : State} {h : Home} {n : Nat} {f : Nat → Option Nat} (updated : Updated s t h n f) (asid : BitVec 16) :
    Updated s (retestContext t asid) h n f := by
  unfold retestContext
  split
  · rw [retestWaits_eq]
    obtain ⟨poisoned, answered, stored, kept⟩ := updated
    exact ⟨poisoned, answered, stored, kept⟩
  · exact updated

theorem exec_fabricRequest {s : State} (ready : s.phase = 4) (asid : BitVec 16) (va : BitVec 48) (kind : RemoteOp)
    (data : List Byte) : exec (.fabricRequest asid va kind data) s = .next (match kind with
      | .load n => remoteLoad s asid va.toNat n
      | .store poison => remoteStore s asid va.toNat poison data
      | .atomic op => match remoteHome s asid va.toNat 4 with
        | some h => remoteUpdate s asid h 4
          (atomNew op (BitVec.ofNat 32 (natOfBytes (data.take 4))) (BitVec.ofNat 32 (natOfBytes ((data.drop 4).take 4))))
        | none => replyFail s
      | .storeWide x => match remoteHome s asid va.toNat 8 with
        | some h => retestContext (remoteUpdate s asid h 8 (fun _ => some x.toNat)) asid
        | none => replyFail s
      | .addWide x => match remoteHome s asid va.toNat 8 with
        | some h => retestContext (remoteUpdate s asid h 8 (fun o => some ((o + x.toNat) % 2 ^ 64))) asid
        | none => replyFail s) := by
  refine (if_neg (not_not_intro ready)).trans ?_
  cases kind <;> rfl

theorem exec_recoveryExpiry_due {s : State} {dev : BitVec 14} (set : cget 0 s.recovering dev.toNat ≠ 0)
    (due : cget 0 s.recovering dev.toNat ≤ s.now) : exec (.recoveryExpiry dev) s =
      .next (failDevice { s with recovering := cset 0 s.recovering dev.toNat 0 } dev.toNat) := by
  refine if_neg ?_
  rw [Bool.or_eq_true, decide_eq_true_eq, decide_eq_true_eq]
  exact fun early => early.elim set (Nat.not_lt.2 due)

theorem exec_recoveryExpiry_early {s : State} {dev : BitVec 14}
    (early : cget 0 s.recovering dev.toNat = 0 ∨ s.now < cget 0 s.recovering dev.toNat) :
    exec (.recoveryExpiry dev) s = .next s := by
  refine if_pos ?_
  rw [Bool.or_eq_true, decide_eq_true_eq, decide_eq_true_eq]
  exact early

theorem remoteLoad_fails {s : State} {asid : BitVec 16} {va n : Nat}
    (gone : hubPois ((pagePieces (n / 65536 + 2) va n).foldl (fun s p => hubTouch s asid p.1 p.2) s) asid va n = none) :
    remoteLoad s asid va n = replyFail ((pagePieces (n / 65536 + 2) va n).foldl (fun s p => hubTouch s asid p.1 p.2) s) := by
  simp only [remoteLoad, gone]

theorem remoteLoad_reads {s : State} {asid : BitVec 16} {va n : Nat} {l : List (Poi Byte)}
    (read : hubPois ((pagePieces (n / 65536 + 2) va n).foldl (fun s p => hubTouch s asid p.1 p.2) s) asid va n = some l) :
    remoteLoad s asid va n = reply ((pagePieces (n / 65536 + 2) va n).foldl (fun s p => hubTouch s asid p.1 p.2) s) true
      ((List.range l.length).filter (fun i => (l.map (·.2))[i]? = some true)) (l.map (·.1)) := by
  simp only [remoteLoad, read, poisonedBytes]

/-- Settles O56: a load reads what the hub reads, an update is performed at its home by a write that leaves other bytes, and the
accesses that fail with a device each change one path of one course. -/
theorem remoteDevicesAskAndRecover : Obligations.RemoteDevicesAskAndRecover := by
  unfold Obligations.RemoteDevicesAskAndRecover
  intro s
  refine ⟨fun asid va kind data => ?request, fun dev => ?recovery⟩
  case request =>
    intro a does answers update
    have updates {k : RemoteOp} {n : Nat} {f : Nat → Option Nat} (g : State → State)
        (runs : kind = k → s.phase = 4 → exec (.fabricRequest asid va kind data) s =
          .next (match remoteHome s asid a n with | some h => g (remoteUpdate s asid h n f) | none => replyFail s))
        (still : ∀ {t h}, Updated s t h n f → Updated s (g t) h n f) : update k n f := by
      intro same ready
      have ran := runs same ready
      refine ⟨fun none => ?_, fun h home good => ?_⟩
      · rw [none] at ran
        exact ran
      · rw [home] at ran
        obtain ⟨poisoned, answered, stored, kept⟩ := still (remoteUpdate_updated good asid n f (remoteHome_local home))
        exact ⟨_, ran, poisoned, fun clean => ⟨answered clean, stored clean, kept clean⟩⟩
    refine ⟨fun down => ?_, fun ready => ⟨fun n => ?_, ?_, ?_⟩, fun op => ?_, fun x => ?_, fun x => ?_⟩
    · exact if_pos down
    · refine ⟨fun gone same => ?_, fun l read same => ?_⟩
      · subst same
        exact (exec_fabricRequest ready ..).trans (congrArg Host.Outcome.next (remoteLoad_fails gone))
      · subst same
        exact (exec_fabricRequest ready ..).trans (congrArg Host.Outcome.next (remoteLoad_reads read))
    · intro poison gone same
      subst same
      refine (exec_fabricRequest ready ..).trans (congrArg Host.Outcome.next ?_)
      simp only [remoteStore, show remoteCells s asid va.toNat poison data = none from gone]
      rfl
    · intro poison l cells
      refine ⟨fun same => ?_, putGlobal_onlyMemory ..⟩
      subst same
      refine (exec_fabricRequest ready ..).trans (congrArg Host.Outcome.next ?_)
      simp only [remoteStore, show remoteCells s asid va.toNat poison data = some l from cells]
      rfl
    · exact updates id (fun same ready => by subst same; exact exec_fabricRequest ready ..) id
    · exact updates (k := .storeWide x) (n := 8) (f := fun _ => some x.toNat) (retestContext · asid)
        (fun same ready => by subst same; exact exec_fabricRequest ready ..) fun updated => updated.retest asid
    · exact updates (k := .addWide x) (n := 8) (f := fun o => some ((o + x.toNat) % 2 ^ 64)) (retestContext · asid)
        (fun same ready => by subst same; exact exec_fabricRequest ready ..) fun updated => updated.retest asid
  case recovery =>
    intro until_
    refine ⟨fun own => ?_, fun other => ?_, fun early => ?_, fun set due once owned => ?_⟩
    · exact congrArg Host.Outcome.next (if_pos own)
    · exact ⟨_, congrArg Host.Outcome.next (if_neg other), fun d => cget_cset ..⟩
    · exact exec_recoveryExpiry_early early
    · obtain ⟨fails, left⟩ := failDevice_fails (s := { s with recovering := cset 0 s.recovering dev.toNat 0 }) once owned
      have recovering : (failDevice { s with recovering := cset 0 s.recovering dev.toNat 0 } dev.toNat).recovering =
          cset 0 s.recovering dev.toNat 0 := by rw [fails.only]
      refine ⟨_, exec_recoveryExpiry_due set due, fun d => ?_, fails.only.trans ?_, left, fun b c hc => ?_⟩
      · rw [recovering]
        exact cget_cset ..
      · rw [recovering]
      · exact fails.courses b c hc

end Sys2Proof.Machine

/-!
SUPPORT and PROOF. The window's registers of counters, of the accounting, of translations and of creations (R305, R343, R395,
R396, R397).
-/

namespace Sys2Proof.Machine

/-! ### Counters (R305) -/

section

variable {s : State} {p : BitVec 3} {v : Double}

/-- What CVIEW shows of a counter. -/
theorem counterView_eq (c : Counter) (refused : Bool) : counterView c refused =
    BitVec.ofNat 64 ((if c.armed = false then 0 else if c.value = 0 then 2 else 1) * 2 ^ 62 + b2n refused * 2 ^ 61 +
      (c.value % 131072).toNat) := by
  simp only [counterView, Bool.not_eq_true']

theorem clearable_iff (c : Counter) : clearable s c = true ↔ c.armed = false ∨ ∀ x, getCtx s c.owner = some x → ctxAlive x = false := by
  unfold clearable
  rw [Bool.or_eq_true, Bool.not_eq_true']
  refine or_congr_right ?_
  cases getCtx s c.owner <;> simp

/-- The counter that a CSEL write names. -/
def namedCounter (s : State) (p : BitVec 3) (v : Double) : Counter := getCounter s (ctrBase (getPart s p) + bits v.toNat 31 0)

/-- CVIEW as it shows a value. -/
def showsView (s : State) (p : BitVec 3) (view : Double) : State := setPart s p { getPart s p with cview := view }

variable (opened : windowOpen s p = true)

include opened

theorem exec_csel_named (sample : v.getLsbD 32 = false) (named : bits v.toNat 31 0 < ctrCount (getPart s p)) :
    exec (.csel p v) s = .next (showsView s p (counterView (namedCounter s p v) (wasRefused (getPart s p)))) := by
  refine (if_neg (by rw [opened, sample]; decide)).trans (congrArg (fun w => Host.Outcome.next (showsView s p w)) ?_)
  exact if_pos (decide_eq_true named)

theorem exec_csel_unnamed (sample : v.getLsbD 32 = false) (other : ctrCount (getPart s p) ≤ bits v.toNat 31 0) :
    exec (.csel p v) s = .next (showsView s p (BitVec.ofNat 64 (3 * 2 ^ 62 + b2n (wasRefused (getPart s p)) * 2 ^ 61))) := by
  refine (if_neg (by rw [opened, sample]; decide)).trans (congrArg (fun w => Host.Outcome.next (showsView s p w)) ?_)
  exact if_neg (by simpa [ctrNamed] using other)

theorem exec_cselClear_unnamed (clear : v.getLsbD 32 = true) (other : ctrCount (getPart s p) ≤ bits v.toNat 31 0) :
    exec (.cselClear p v) s = .next (showsView s p (BitVec.ofNat 64 (3 * 2 ^ 62 + 2 ^ 61))) :=
  (if_neg (by rw [opened, clear]; decide)).trans (if_pos (by simpa [ctrNamed] using other))

theorem exec_cselClear_named (clear : v.getLsbD 32 = true) (named : bits v.toNat 31 0 < ctrCount (getPart s p)) :
    exec (.cselClear p v) s = .next (if clearable s (namedCounter s p v) then
      setCounter (showsView s p (counterView (namedCounter s p v) (!clearable s (namedCounter s p v))))
        (ctrBase (getPart s p) + bits v.toNat 31 0) Counter.free
      else showsView s p (counterView (namedCounter s p v) (!clearable s (namedCounter s p v)))) :=
  (if_neg (by rw [opened, clear]; decide)).trans (if_neg (by simpa [ctrNamed] using named))

end

/-! ### Translations that are withdrawn (R397) -/

theorem withdrawn_iff (v : Double) (x : L1Line) : withdrawn v x = true ↔
    x.asid = BitVec.ofNat 16 (bits v.toNat 63 48) ∧ (bits v.toNat 15 0 = 0 ∨
      bits v.toNat 47 16 ≤ x.line / 512 ∧ x.line / 512 < bits v.toNat 47 16 + bits v.toNat 15 0) := by
  simp only [withdrawn, asidField, Bool.and_eq_true, Bool.or_eq_true, beq_iff_eq, decide_eq_true_eq]

theorem exec_xinv_gone {s : State} {p : BitVec 3} {v : Double} (opened : windowOpen s p = true)
    (gone : partCtx s p (BitVec.ofNat 16 (bits v.toNat 63 48)) = none) :
    exec (.xinv p v) s = .next (setPart s p { getPart s p with xinv := some v }) := by
  have same : partCtx (setPart s p { getPart s p with xinv := some v }) p (asidField v) = none := gone
  refine (if_neg (by rw [opened]; decide)).trans (congrArg Host.Outcome.next ?_)
  rw [same]

theorem exec_xinv_withdraws {s : State} {p : BitVec 3} {v : Double} (opened : windowOpen s p = true) {x : Context}
    (found : partCtx s p (BitVec.ofNat 16 (bits v.toNat 63 48)) = some x) : exec (.xinv p v) s =
      .next (dropLines (setPart s p { getPart s p with xinv := some v }) (fun _ => true) (withdrawn v)) := by
  have same : partCtx (setPart s p { getPart s p with xinv := some v }) p (asidField v) = some x := found
  refine (if_neg (by rw [opened]; decide)).trans (congrArg Host.Outcome.next ?_)
  rw [same]

/-- A course of the context uses a translation that the write `v` withdraws. -/
def UsesWithdrawn (s : State) (v : Double) : Prop :=
  ∃ e ∈ s.courses, ∃ y, getBlock s (e.1 / 32) = some y ∧ y.asid = BitVec.ofNat 16 (bits v.toNat 63 48) ∧
    ∃ q, (e.2.path0 = some q ∨ e.2.path1 = some q) ∧ heldWithdrawn v q = true

/-- A course has no path that uses such a translation, or is another context's. -/
def sparesWithdrawn (s : State) (v : Double) (e : Nat × Course) : Bool := match getBlock s (e.1 / 32) with
  | some b => !(b.asid == asidField v) || !(e.2.path0.toList ++ e.2.path1.toList).any (heldWithdrawn v)
  | none => true

theorem sparesWithdrawn_iff (s : State) (v : Double) (e : Nat × Course) : sparesWithdrawn s v e = true ↔
    ¬ ∃ y, getBlock s (e.1 / 32) = some y ∧ y.asid = BitVec.ofNat 16 (bits v.toNat 63 48) ∧
      ∃ q, (e.2.path0 = some q ∨ e.2.path1 = some q) ∧ heldWithdrawn v q = true := by
  unfold sparesWithdrawn
  cases getBlock s (e.1 / 32) with
  | none => simp
  | some y =>
    simp only [Bool.or_eq_true, Bool.not_eq_true', ← Bool.not_eq_true, List.any_eq_true, List.mem_append, Option.mem_toList,
      Option.some.injEq, beq_iff_eq, asidField]
    constructor
    · rintro none ⟨y', rfl, own, q, path, held⟩
      exact none.elim (· own) (· ⟨q, path, held⟩)
    · intro none
      by_cases own : y.asid = BitVec.ofNat 16 (bits v.toNat 63 48)
      · exact .inr fun ⟨q, path, held⟩ => none ⟨y, rfl, own, q, path, held⟩
      · exact .inl own

theorem xinvReady_iff (s : State) (v : Double) : xinvReady s v = true ↔ ¬ UsesWithdrawn s v := by
  show s.courses.all (sparesWithdrawn s v) = true ↔ _
  rw [List.all_eq_true]
  simp only [sparesWithdrawn_iff]
  exact ⟨fun all ⟨e, member, uses⟩ => all e member uses, fun none e member uses => none ⟨e, member, uses⟩⟩

theorem stores_drainStores_ne (s : State) {m n : Nat} (p : PendingStore → Bool) (other : n ≠ m) :
    (getCore (drainStores s m p) n).stores = (getCore s n).stores := by
  have fold (l : List PendingStore) (t : State) : (getCore (l.foldl (fun t x => performStore t m x) t) n).stores = (getCore t n).stores := by
    induction l generalizing t with
    | nil => rfl
    | cons x l ih => rw [List.foldl_cons, ih, stores_performStore]
  unfold drainStores
  dsimp only
  rw [fold, getCore_setCore_ne _ _ other]

/-- A store of a block of the context. -/
def ofContext (s : State) (asid : BitVec 16) (x : PendingStore) : Bool := match getBlock s x.blk with
  | some b => b.asid = asid
  | none => false

theorem drainContext_fold (asid : BitVec 16) : ∀ (l : List Nat) (s : State),
    OnlyMemory s (l.foldl (fun s m => drainStores s m (ofContext s asid)) s) ∧
    ∀ n, (getCore (l.foldl (fun s m => drainStores s m (ofContext s asid)) s) n).stores =
      if n ∈ l then (getCore s n).stores.filter (fun x => !ofContext s asid x) else (getCore s n).stores
  | [], s => ⟨rfl, fun n => (if_neg List.not_mem_nil).symm⟩
  | m :: l, s => by
    obtain ⟨memory, left⟩ := drainContext_fold asid l (drainStores s m (ofContext s asid))
    have one := drainStores_onlyMemory s m (ofContext s asid)
    have same : ofContext (drainStores s m (ofContext s asid)) asid = ofContext s asid := by
      funext x
      show (match getBlock (drainStores s m (ofContext s asid)) x.blk with
        | some b => decide (b.asid = asid)
        | none => false) = _
      rw [one.getBlock]
      rfl
    refine ⟨one.trans memory, fun n => (left n).trans ?_⟩
    rw [same]
    by_cases own : n = m
    · subst own
      rw [stores_drainStores, if_pos List.mem_cons_self]
      split
      · rw [List.filter_filter]
        simp
      · rfl
    · rw [stores_drainStores_ne _ _ own]
      simp [own]

theorem getCore_of_not_mem {s : State} {m : Nat} (absent : m ∉ s.cores.map (·.1)) : getCore s m = Core.reset := by
  unfold getCore
  cases found : find? s.cores m with
  | none => rfl
  | some c => exact absurd (List.mem_map_of_mem (f := Prod.fst) (find?_mem found)) absent

theorem drainContext_onlyMemory (s : State) (asid : BitVec 16) : OnlyMemory s (drainContext s asid) :=
  (drainContext_fold asid (s.cores.map Prod.fst) s).1

/-- No store of the context is pending once they have been performed. -/
theorem drainContext_stores (s : State) (asid : BitVec 16) {m : Nat} {x : PendingStore} {y : Block}
    (pending : x ∈ (getCore (drainContext s asid) m).stores) (block : getBlock s x.blk = some y) : y.asid ≠ asid := by
  have left := (drainContext_fold asid (s.cores.map Prod.fst) s).2 m
  replace pending : x ∈ _ := left ▸ pending
  split at pending
  · have spared := (List.mem_filter.1 pending).2
    simpa [ofContext, block] using spared
  · next absent =>
    rw [getCore_of_not_mem absent] at pending
    cases pending

section

variable {s : State} {p : BitVec 3} {v : Double} (set : (getPart s p).xinv = some v)

include set

theorem exec_xinvDone_uses (uses : UsesWithdrawn s v) : exec (.xinvDone p) s = .next s := by
  show execXinvDone p s = _
  unfold execXinvDone
  rw [set]
  exact congrArg Host.Outcome.next (if_neg fun ready => (xinvReady_iff s v).1 ready uses)

theorem exec_xinvDone_gone (spare : ¬ UsesWithdrawn s v) (gone : partCtx s p (asidField v) = none) :
    exec (.xinvDone p) s = .next (setPart s p { getPart s p with xinv := none }) := by
  show execXinvDone p s = _
  unfold execXinvDone
  rw [set]
  dsimp only
  rw [if_pos ((xinvReady_iff s v).2 spare), gone]

/-- Once nothing uses a withdrawn translation, the context's stores are performed. -/
theorem exec_xinvDone_drains (spare : ¬ UsesWithdrawn s v) {x : Context} (found : partCtx s p (asidField v) = some x) :
    exec (.xinvDone p) s = .next (setPart (drainContext s (asidField v)) p { getPart s p with xinv := none }) := by
  show execXinvDone p s = _
  unfold execXinvDone
  rw [set]
  dsimp only
  rw [if_pos ((xinvReady_iff s v).2 spare), found]
  dsimp only
  rw [(drainContext_onlyMemory s (asidField v)).getPart p]

end

/-! ### Creations (R395) -/

theorem asidUsed_iff (s : State) (asid : BitVec 16) :
    asidUsed s asid = true ↔ ∃ y, getCtx s asid = some y ∧ ctxGone s y = false := by
  unfold asidUsed
  cases getCtx s asid <;> simp

/-- A core without what a context of this ASID left in its local store. -/
def coreForgets (asid : BitVec 16) (c : Core) : Core :=
  { c with left := match c.left with
    | some (a, l) => if a = asid then none else some (a, l)
    | none => none }

theorem forgetLocal_eq (s : State) (asid : BitVec 16) :
    forgetLocal s asid = { s with cores := s.cores.map (fun e => (e.1, coreForgets asid e.2)) } := by
  unfold forgetLocal
  refine congrArg (fun l => { s with cores := l }) (List.map_congr_left fun e _ => ?_)
  obtain ⟨m, c⟩ := e
  obtain ⟨l1, stores, seq, quarters, ports, left⟩ := c
  cases left with
  | none => rfl
  | some l =>
    by_cases own : l.1 = asid <;> simp [coreForgets, own]

theorem getCore_forgetLocal (s : State) (asid : BitVec 16) (m : Nat) :
    getCore (forgetLocal s asid) m = coreForgets asid (getCore s m) := by
  rw [forgetLocal_eq]
  unfold getCore
  dsimp only
  have found := find?_map_of_keys (f := fun e => (e.1, coreForgets asid e.2)) (fun _ => rfl) s.cores m
  rw [found]
  cases find? s.cores m <;> rfl

/-- What a context read from a descriptor is. -/
theorem readContext_fields {part : Partition} {p : BitVec 3} {bs : List Byte} {x : Context} (read : readContext part p bs = some x) :
    x.state = .running ∧ x.part = p ∧ x.asid = BitVec.ofNat 16 (bits (natOfBytes bs) 15 0) ∧ x.depth = bits (natOfBytes bs) 23 16 ∧
      x.nc = bits (natOfBytes bs) 47 32 ∧ x.faults = [] ∧ x.subs = [] ∧ x.energy = 0 := by
  unfold readContext at read
  dsimp only at read
  split at read
  · cases read
  · split at read
    · cases read
    · split at read
      · cases read
      · cases read
        exact ⟨rfl, rfl, rfl, rfl, rfl, rfl, rfl, rfl⟩

section

variable {s : State} {p : BitVec 3} {v : Double}

/-- CRESULT as a creation leaves it. -/
def creationLeft (s : State) (p : BitVec 3) (status : Nat) : State :=
  setPart s p { getPart s p with ccreating := none, cresult := BitVec.ofNat 64 (status * 2 ^ 28) }

theorem exec_contextCreationDone (begun : (getPart s p).ccreating = some v) : exec (.contextCreationDone p) s =
    .next (match (createContext s p v.toNat).2 with
      | some x => setCtx { forgetLocal (creationLeft s p (createContext s p v.toNat).1) x.asid with
          traffic := del s.traffic x.asid.toNat } x.asid x
      | none => creationLeft s p (createContext s p v.toNat).1) := by
  show execContextCreationDone p s = _
  unfold execContextCreationDone
  dsimp only
  rw [begun]
  rfl

/-- The creation fails with `status`. -/
theorem exec_contextCreationDone_fails (begun : (getPart s p).ccreating = some v) {status : Nat}
    (fails : createContext s p v.toNat = (status, none)) : exec (.contextCreationDone p) s = .next (creationLeft s p status) := by
  rw [exec_contextCreationDone begun, fails]

theorem createContext_sound (zero : bits v.toNat 63 48 = 0) (aligned : bits v.toNat 47 0 % 64 = 0)
    (clean : homePoisoned s (.host (bits v.toNat 47 0)) 64 = false) : createContext s p v.toNat =
      match readContext (getPart s p) p (homeBytes s (.host (bits v.toNat 47 0)) 64) with
      | none => (1, none)
      | some x =>
        if asidUsed s x.asid then (2, none)
        else if Config.contexts ≤ (s.contexts.filter (fun e => e.2.part == p && !ctxGone s e.2)).length then (3, none)
        else (0, some x) := by
  unfold createContext
  exact if_neg (by simp [zero, aligned, clean])

theorem createContext_unsound (bad : ¬ (bits v.toNat 63 48 = 0 ∧ bits v.toNat 47 0 % 64 = 0 ∧
    homePoisoned s (.host (bits v.toNat 47 0)) 64 = false)) : createContext s p v.toNat = (1, none) := by
  unfold createContext
  refine if_pos ?_
  by_contra good
  simp only [Bool.or_eq_true, decide_eq_true_eq, not_or, not_not, Bool.not_eq_true] at good
  exact bad ⟨good.1.1, good.1.2, good.2⟩

/-- How many contexts the partition has. -/
theorem partContexts_eq : s.contexts.filter (fun e => e.2.part == p && !ctxGone s e.2) =
    s.contexts.filter (fun e => e.2.part = p ∧ ctxGone s e.2 = false) :=
  List.filter_congr fun e _ => by simp [Bool.beq_eq_decide_eq]

/-- A creation that succeeds leaves its context and nothing of an earlier one of its ASID. -/
theorem exec_contextCreationDone_creates (begun : (getPart s p).ccreating = some v) {x : Context}
    (made : createContext s p v.toNat = (0, some x)) : ∃ t, exec (.contextCreationDone p) s = .next t ∧
      t = setCtx { creationLeft s p 0 with cores := t.cores, traffic := del s.traffic x.asid.toNat } x.asid x ∧
      ∀ m, getCore t m = coreForgets x.asid (getCore s m) := by
  have ran := exec_contextCreationDone begun
  rw [made] at ran
  refine ⟨_, ran, ?_, fun m => getCore_forgetLocal (creationLeft s p 0) x.asid m⟩
  dsimp only
  rw [forgetLocal_eq]
  rfl

end

/-- Settles O52: a withdrawal drops lines alone, and is done when `xinvReady_iff` says so, with the context's stores performed; a
creation ends as `createContext` says. -/
theorem theWindowsRegistersAct : Obligations.TheWindowsRegistersAct := by
  unfold Obligations.TheWindowsRegistersAct
  intro s p v part i c asid shows state old
  have view (r : Bool) : counterView c r = BitVec.ofNat 64 (state * 2 ^ 62 + b2n r * 2 ^ 61 + (c.value % 131072).toNat) :=
    counterView_eq c r
  have shown (r : Bool) : showsView s p (counterView c r) = shows state (b2n r) (c.value % 131072).toNat :=
    congrArg (showsView s p) (view r)
  have unnamed (r : Bool) : showsView s p (BitVec.ofNat 64 (3 * 2 ^ 62 + b2n r * 2 ^ 61)) = shows 3 (b2n r) 0 :=
    congrArg (fun n => showsView s p (BitVec.ofNat 64 n)) (Nat.add_zero _).symm
  refine ⟨fun shut => ?closed, fun opened => ⟨fun sample => ⟨fun named => ?_, fun other => ?_⟩,
    fun clear => ⟨fun other => ?_, fun named => ?_⟩, fun x found => ?_,
    fun none => ?_, fun none => ?_, fun some => ?_, fun busy => ?_, fun idle free => ?_⟩,
    fun none => ?_, fun set => ?withdraws, fun begun => ?creation, fun early => ?_, fun due => ?_⟩
  case closed =>
    have no : (!windowOpen s p) = true := by rw [shut]; rfl
    refine ⟨if_pos (by rw [no]; rfl), if_pos (by rw [no]; rfl), if_pos no, if_pos no, congrArg Host.Outcome.next (if_neg ?_)⟩
    rw [shut]
    exact Bool.false_ne_true
  case withdraws =>
    intro inUse
    refine ⟨fun uses => exec_xinvDone_uses set uses, fun spare none => exec_xinvDone_gone set spare none, fun spare some => ?_⟩
    obtain ⟨x, found⟩ := Option.isSome_iff_exists.1 some
    have drained := drainContext_onlyMemory s asid
    have parts : (drainContext s asid).partitions = s.partitions := by rw [drained]
    refine ⟨setPart (drainContext s asid) p { part with xinv := Option.none }, exec_xinvDone_drains set spare found,
      getPart_setPart_self .., ?_, fun m x pending y block => drainContext_stores s asid pending block⟩
    show OnlyMemory s { drainContext s asid with partitions := s.partitions }
    rw [← parts]
    exact drained
  case creation =>
    intro pa bs answers sound
    refine ⟨fun bad => exec_contextCreationDone_fails begun ?_, fun ⟨zero, aligned, clean⟩ x read => ?_⟩
    · by_cases good : sound
      · obtain ⟨zero, aligned, clean⟩ := good
        have unread : readContext (getPart s p) p (homeBytes s (.host (bits v.toNat 47 0)) 64) = none :=
          bad.resolve_left (not_not_intro ⟨zero, aligned, clean⟩)
        rw [createContext_sound zero aligned clean, unread]
      · exact createContext_unsound good
    · have status := createContext_sound (p := p) zero aligned clean
      rw [show readContext (getPart s p) p (homeBytes s (.host (bits v.toNat 47 0)) 64) = some x from read] at status
      dsimp only at status
      rw [partContexts_eq] at status
      refine ⟨fun y held alive => exec_contextCreationDone_fails begun (status.trans (if_pos ((asidUsed_iff s x.asid).2 ⟨y, held, alive⟩))),
        fun gone => ?_⟩
      have unused : ¬ asidUsed s x.asid = true := fun used => by
        obtain ⟨y, held, alive⟩ := (asidUsed_iff s x.asid).1 used
        exact Bool.false_ne_true (alive.symm.trans (gone y held))
      replace status := status.trans (if_neg unused)
      refine ⟨fun full => exec_contextCreationDone_fails begun (status.trans (if_pos full)), fun room => ?_⟩
      obtain ⟨t, ran, rest, cores⟩ := exec_contextCreationDone_creates begun (status.trans (if_neg (Nat.not_le.2 room)))
      exact ⟨t, ran, rest, cores, readContext_fields read⟩
  · exact (exec_csel_named opened sample named).trans (congrArg Host.Outcome.next (shown _))
  · exact (exec_csel_unnamed opened sample other).trans (congrArg Host.Outcome.next (unnamed _))
  · refine (exec_cselClear_unnamed opened clear other).trans (congrArg Host.Outcome.next ((congrArg _ ?_).trans (unnamed true)))
    rw [show b2n true = 1 from rfl, Nat.one_mul]
  · have runs := exec_cselClear_named opened clear named
    refine ⟨fun free => ?_, fun held => ?_⟩
    · have ok : clearable s (namedCounter s p v) = true := (clearable_iff c).2 free
      rw [ok, if_pos rfl] at runs
      exact runs.trans (congrArg (fun t => Host.Outcome.next (setCounter t _ _)) (shown _))
    · have kept : clearable s (namedCounter s p v) = false := Bool.eq_false_iff.2 fun ok => held ((clearable_iff c).1 ok)
      rw [kept, if_neg Bool.false_ne_true] at runs
      exact runs.trans (congrArg Host.Outcome.next (shown _))
  · intro n
    refine (if_neg (by rw [opened]; decide)).trans ?_
    rw [found]
    rfl
  · refine (if_neg (by rw [opened]; decide)).trans ?_
    rw [none]
  · exact exec_xinv_gone opened none
  · obtain ⟨x, found⟩ := Option.isSome_iff_exists.1 some
    refine ⟨_, exec_xinv_withdraws opened found, getPart_setPart_self .., fun m => ?_, fun m => stores_dropLines .., .of_eq rfl rfl rfl⟩
    refine (l1_dropLines _ _ rfl).trans (List.filter_congr fun y _ => ?_)
    rw [Bool.eq_iff_iff, Bool.not_eq_true', ← Bool.not_eq_true, decide_eq_true_iff]
    exact not_congr (withdrawn_iff v y)
  · refine congrArg Host.Outcome.next (if_neg fun ready => ?_)
    simp only [Bool.and_eq_true, Bool.not_eq_true', opened, true_and] at ready
    obtain ⟨settled, idle⟩ := ready
    rcases busy with busy | busy
    · exact Bool.false_ne_true (settled.symm.trans busy)
    · rw [Option.isNone_iff_eq_none.1 idle] at busy
      cases busy
  · refine congrArg Host.Outcome.next (if_pos ?_)
    simp [opened, idle, free, part]
  · show execXinvDone p s = _
    unfold execXinvDone
    rw [show (getPart s p).xinv = Option.none from none]
  · exact congrArg Host.Outcome.next (if_pos early)
  · exact congrArg Host.Outcome.next (if_neg (Nat.not_lt.2 due))

end Sys2Proof.Machine

/-!
SUPPORT. The paths of a context that nothing holds up: what stops them, and what leaves them (R195, R368, R377).
-/

namespace Sys2Proof.Machine

theorem getCourse_updCourse_at (s : State) {b c d e : Nat} (f : Course → Course) (hc : c < 32) (he : e < 32) :
    getCourse (updCourse s b c f) d e = (getCourse s d e).map (fun k => if b = d ∧ c = e then f k else k) := by
  unfold updCourse
  by_cases own : b = d ∧ c = e
  · obtain ⟨rfl, rfl⟩ := own
    cases course : getCourse s b c with
    | none => simp [course]
    | some k => simp
  · have key : courseKey d e ≠ courseKey b c := fun same => own ((courseKey_inj hc he).1 same.symm)
    simp only [if_neg own, Option.map_id']
    split
    · exact getCourse_setCourse_ne _ _ key
    · rfl

theorem updCourse_rest (s : State) (b c : Nat) (f : Course → Course) :
    updCourse s b c f = { s with courses := (updCourse s b c f).courses } := by
  unfold updCourse
  split <;> rfl

/-! ### The paths of a context -/

/-- Nothing of the path is pending, asked or issued. -/
structure IdlePath (p : Path) : Prop where
  pending : p.pending = []
  remotes : p.remotes = []
  continuation : ∀ id, p.park ≠ .continuation id
  acceptance : ∀ id full, p.park ≠ .acceptance id full

/-- The paths at the slots of `l` are all quiet. -/
def IdleAt (s : State) (l : List (Nat × Nat × Nat)) : Prop :=
  ∀ e ∈ l, e.2.1 < 32 ∧ ∀ k p, getCourse s e.1 e.2.1 = some k → getPath k e.2.2 = some p → IdlePath p

theorem path_cases {k : Course} {p : Path} {i : Nat} (path : getPath k i = some p) : k.path0 = some p ∨ k.path1 = some p := by
  unfold getPath at path
  split at path
  · exact .inl path
  · exact .inr path

theorem mem_ctxPaths {s : State} {a : BitVec 16} {e : Nat × Nat × Nat} (member : e ∈ ctxPaths s a) :
    e.2.1 < 32 ∧ e.2.2 < 2 ∧ ∃ y, getBlock s e.1 = some y ∧ y.asid = a ∧ y.replaying = false := by
  obtain ⟨f, -, inside⟩ := List.mem_flatMap.1 member
  split at inside
  · next b block =>
    split at inside
    · next own =>
      obtain ⟨i, slot, rfl⟩ := List.mem_map.1 inside
      obtain ⟨either, -⟩ := List.mem_filter.1 slot
      rw [Bool.and_eq_true, decide_eq_true_eq, Bool.not_eq_true'] at own
      refine ⟨Nat.mod_lt _ (by decide), ?_, b, block, own⟩
      simp only [List.mem_cons, List.not_mem_nil, or_false] at either
      dsimp only
      omega
    · cases inside
  · cases inside

/-- Every path of a block of the context that no replay has removed is among them. -/
theorem ctxPaths_complete {s : State} {a : BitVec 16} {b c i : Nat} {y : Block} {k : Course} {p : Path} (block : getBlock s b = some y)
    (own : y.asid = a) (stays : y.replaying = false) (low : c < 32) (course : getCourse s b c = some k) (slot : i < 2)
    (path : getPath k i = some p) : (b, c, i) ∈ ctxPaths s a := by
  have blk : courseKey b c / 32 = b := by unfold courseKey; omega
  have num : courseKey b c % 32 = c := by unfold courseKey; omega
  refine List.mem_flatMap.2 ⟨(courseKey b c, k), find?_mem course, ?_⟩
  dsimp only
  rw [blk, num, block]
  dsimp only
  rw [if_pos (by simp [own, stays])]
  refine List.mem_map.2 ⟨i, List.mem_filter.2 ⟨?_, by rw [path]; rfl⟩, rfl⟩
  simp only [List.mem_cons, List.not_mem_nil, or_false]
  omega

theorem QuietContext.path {s : State} {a : BitVec 16} (quiet : QuietContext s a) {b c i : Nat} {y : Block} {k : Course} {p : Path}
    (block : getBlock s b = some y) (own : y.asid = a) (low : c < 32) (course : getCourse s b c = some k)
    (path : getPath k i = some p) : IdlePath p := by
  obtain ⟨pending, remotes, continuation, acceptance⟩ := quiet b y c k p block own low course (path_cases path)
  exact ⟨pending, remotes, continuation, acceptance⟩

theorem QuietContext.ctxPaths {s : State} {a : BitVec 16} (quiet : QuietContext s a) : IdleAt s (ctxPaths s a) := by
  intro e member
  obtain ⟨low, -, y, block, own, -⟩ := mem_ctxPaths member
  exact ⟨low, fun k p course path => quiet.path block own low course path⟩

/-! ### What leaves quiet paths as they are -/

theorem completePath_quiet {s : State} {b c i : Nat} (quiet : ∀ k p, getCourse s b c = some k → getPath k i = some p → IdlePath p) :
    completePath s b c i = s := by
  unfold completePath
  cases course : getCourse s b c with
  | none => rfl
  | some k =>
    cases path : getPath k i with
    | none => simp only [path]
    | some p => simp [path, (quiet k p course path).pending]

theorem completePath_foldl {s : State} : ∀ {l : List (Nat × Nat × Nat)}, IdleAt s l →
    l.foldl (fun s e => completePath s e.1 e.2.1 e.2.2) s = s
  | [], _ => rfl
  | e :: l, quiet => by
    rw [List.foldl_cons, completePath_quiet (quiet e List.mem_cons_self).2]
    exact completePath_foldl fun f member => quiet f (List.mem_cons_of_mem _ member)

/-- The end of a continuation park, where a stopped path has one. -/
def endStoppedWait (s : State) (e : Nat × Nat × Nat) : State :=
  match (getCourse s e.1 e.2.1).bind (fun k => getPath k e.2.2) with
  | some p => match p.park with
    | .continuation id => if (getCmd s id).isNone then endContinuation s e.1 e.2.1 e.2.2 id .system else s
    | _ => s
  | none => s

theorem endStoppedWait_quiet {s : State} {e : Nat × Nat × Nat}
    (quiet : ∀ k p, getCourse s e.1 e.2.1 = some k → getPath k e.2.2 = some p → IdlePath p) : endStoppedWait s e = s := by
  unfold endStoppedWait
  split
  · next p found =>
    obtain ⟨k, course, path⟩ := Option.bind_eq_some_iff.1 found
    split
    · next id park => exact absurd park ((quiet k p course path).continuation id)
    · rfl
  · rfl

theorem endStoppedWaits_quiet {s : State} {a : BitVec 16} (quiet : IdleAt s (ctxPaths s a)) : endStoppedWaits s a = s := by
  have fold : ∀ {l : List (Nat × Nat × Nat)}, IdleAt s l → l.foldl endStoppedWait s = s := by
    intro l
    induction l with
    | nil => exact fun _ => rfl
    | cons e l ih =>
      intro quiet
      rw [List.foldl_cons, endStoppedWait_quiet (quiet e List.mem_cons_self).2]
      exact ih fun f member => quiet f (List.mem_cons_of_mem _ member)
  exact fold quiet

/-! ### What stops them (R377) -/

/-- A course with the paths of `l` as a save leaves them. -/
def savedIn (l : List (Nat × Nat × Nat)) (force : Bool) (b c : Nat) (k : Course) : Course :=
  { k with
    path0 := if (b, c, 0) ∈ l then k.path0.map (savedPath force k) else k.path0
    path1 := if (b, c, 1) ∈ l then k.path1.map (savedPath force k) else k.path1 }

theorem savedPath_twice (force : Bool) (k : Course) (p : Path) : savedPath force k (savedPath force k p) = savedPath force k p := by
  unfold savedPath
  by_cases stops : (stoppingPark p.park || ((force || k.stopped) && p.park != .rejoin)) = true
  · simp only [if_pos stops]
  · simp only [if_neg stops]

theorem IdlePath.saved {p : Path} (quiet : IdlePath p) (force : Bool) (k : Course) : IdlePath (savedPath force k p) := by
  unfold savedPath
  split
  · exact ⟨quiet.pending, quiet.remotes, quiet.continuation, quiet.acceptance⟩
  · exact quiet

theorem savedIn_cons (e : Nat × Nat × Nat) (l : List (Nat × Nat × Nat)) (force : Bool) (b c : Nat) (k : Course) :
    savedIn l force b c (savedIn [e] force b c k) = savedIn (e :: l) force b c k := by
  have same (q q' : Option Path) : savedPath force { k with path0 := q, path1 := q' } = savedPath force k := rfl
  have twice : savedPath force k ∘ savedPath force k = savedPath force k := funext (savedPath_twice force k)
  have slot (i : Nat) (q : Option Path) : (if (b, c, i) ∈ l then (if (b, c, i) ∈ [e] then q.map (savedPath force k) else q).map
      (savedPath force k) else if (b, c, i) ∈ [e] then q.map (savedPath force k) else q) =
        if (b, c, i) ∈ e :: l then q.map (savedPath force k) else q := by
    simp only [List.mem_cons, List.not_mem_nil, or_false]
    by_cases first : (b, c, i) = e <;> by_cases later : (b, c, i) ∈ l <;> simp [first, later, twice]
  unfold savedIn
  simp only [same, slot]

/-- What a save does at one path. -/
def stopPath (force : Bool) (s : State) (e : Nat × Nat × Nat) : State :=
  if savePath s force e.1 e.2.1 e.2.2 then holdPath s e.1 e.2.1 e.2.2 else lendAllowance s e.1 e.2.1 e.2.2

/-- `t` is `s` with the paths of `l` as a save leaves them. -/
structure Stops (s t : State) (l : List (Nat × Nat × Nat)) (force : Bool) : Prop where
  only : t = { s with courses := t.courses, remotes := t.remotes }
  courses : ∀ b c, c < 32 → getCourse t b c = (getCourse s b c).map (savedIn l force b c)

theorem savedIn_single {b c i d e : Nat} (slot : i < 2) (force : Bool) (k : Course) : savedIn [(b, c, i)] force d e k =
    if b = d ∧ c = e then setPath k i ((getPath k i).map (savedPath force k)) else k := by
  unfold savedIn
  simp only [List.mem_singleton, Prod.mk.injEq]
  by_cases own : b = d ∧ c = e
  · obtain ⟨rfl, rfl⟩ := own
    obtain rfl | rfl : i = 0 ∨ i = 1 := by omega
    · simp [setPath, getPath]
    · simp [setPath, getPath]
  · have off (j : Nat) : ¬ (d = b ∧ e = c ∧ j = i) := fun all => own ⟨all.1.symm, all.2.1.symm⟩
    simp only [off, own, if_false]

/-- A course update that leaves the course as a save does is one of the save's. -/
theorem Stops.of_updCourse {s : State} {b c i : Nat} {force : Bool} {f : Course → Course} {r : List (Nat × Remote)} (low : c < 32)
    (slot : i < 2) (same : ∀ k, getCourse s b c = some k → f k = setPath k i ((getPath k i).map (savedPath force k))) :
    Stops s (updCourse { s with remotes := r } b c f) [(b, c, i)] force := by
  have rest := updCourse_rest { s with remotes := r } b c f
  refine ⟨rest.trans (by rw [rest]), fun d e low' => (getCourse_updCourse_at _ f low low').trans ?_⟩
  cases course : getCourse s d e with
  | none => simp [show getCourse { s with remotes := r } d e = none from course]
  | some k =>
    simp only [show getCourse { s with remotes := r } d e = some k from course, Option.map_some, savedIn_single slot]
    split
    · next own =>
      obtain ⟨rfl, rfl⟩ := own
      rw [same k course]
    · rfl

theorem getPath_setPath_same (k : Course) (i : Nat) : setPath k i (getPath k i) = k := by
  unfold setPath getPath
  split <;> rfl

theorem savePath_iff {s : State} {force : Bool} {b c i : Nat} : savePath s force b c i = true ↔
    ∃ k p, getCourse s b c = some k ∧ getPath k i = some p ∧ ¬ p.held = true ∧
      (stoppingPark p.park || ((force || k.stopped) && p.park != .rejoin)) = true ∧ remoteOnce s b k i p = false := by
  unfold savePath
  cases course : getCourse s b c with
  | none => simp
  | some k =>
    cases path : getPath k i with
    | none => simp [path]
    | some p => simp [path, and_assoc]

theorem stopPath_stops {s : State} {b c i : Nat} (force : Bool) (low : c < 32) (slot : i < 2)
    (quiet : ∀ k p, getCourse s b c = some k → getPath k i = some p → IdlePath p) :
    Stops s (stopPath force s (b, c, i)) [(b, c, i)] force := by
  have once {k : Course} {p : Path} (course : getCourse s b c = some k) (path : getPath k i = some p) :
      remoteOnce s b k i p = false := by
    simp [remoteOnce, (quiet k p course path).remotes]
  unfold stopPath
  split
  · next stops =>
    obtain ⟨k, p, course, path, -, saves, -⟩ := savePath_iff.1 stops
    have saved : savedPath force k p = { p with held := true } := if_pos saves
    have kept : dropUnaccepted s p = s := by
      unfold dropUnaccepted
      split
      · next id full park => exact absurd park ((quiet k p course path).acceptance id full)
      · rfl
    have heldAs : heldPath p = { p with held := true } := by
      unfold heldPath
      split
      · next id full park => exact absurd park ((quiet k p course path).acceptance id full)
      · have none := (quiet k p course path).remotes
        rw [← none]
    have step : holdPath s b c i = updPath (dropLoads s b c i) b c i heldPath := by
      unfold holdPath
      dsimp only
      rw [completePath_quiet quiet, course]
      simp only [Option.bind_some, path, kept]
    dsimp only
    rw [step]
    refine Stops.of_updCourse low slot fun k' course' => ?_
    cases course.symm.trans course'
    rw [path, Option.map_some, Option.map_some, heldAs, saved]
  · next goesOn =>
    unfold lendAllowance
    refine Stops.of_updCourse low slot fun k course => ?_
    dsimp only
    cases path : getPath k i with
    | none => exact (congrArg (setPath k i) path).symm.trans (getPath_setPath_same k i) |>.symm
    | some p =>
      have lends : ¬ (k.stopped && decide (p.park = .running) && remoteOnce s b k i p) = true := by
        rw [once course path, Bool.and_false]
        exact Bool.false_ne_true
      have stays : savedPath force k p = p := by
        by_cases held : p.held = true
        · unfold savedPath
          rw [← held, ite_self]
        · exact if_neg fun saves => goesOn (savePath_iff.2 ⟨k, p, course, path, held, saves, once course path⟩)
      refine (if_neg lends).trans ?_
      rw [Option.map_some, stays, ← path, getPath_setPath_same]

theorem Stops.cons {s t u : State} {e : Nat × Nat × Nat} {l : List (Nat × Nat × Nat)} {force : Bool} (one : Stops s t [e] force)
    (rest : Stops t u l force) : Stops s u (e :: l) force := by
  refine ⟨?_, fun b c low => ?_⟩
  · rw [rest.only, one.only]
  · rw [rest.courses b c low, one.courses b c low, Option.map_map]
    exact congrArg (Option.map · _) (funext fun k => savedIn_cons ..)

theorem getPath_savedIn {l : List (Nat × Nat × Nat)} {force : Bool} {b c i : Nat} {k : Course} {p : Path}
    (path : getPath (savedIn l force b c k) i = some p) : ∃ q, getPath k i = some q ∧ (p = q ∨ p = savedPath force k q) := by
  have either (o : Option Path) (on : Prop) [Decidable on] (found : (if on then o.map (savedPath force k) else o) = some p) :
      ∃ q, o = some q ∧ (p = q ∨ p = savedPath force k q) := by
    split at found
    · obtain ⟨q, path, same⟩ := Option.map_eq_some_iff.1 found
      exact ⟨q, path, .inr same.symm⟩
    · exact ⟨p, found, .inl rfl⟩
  unfold getPath at path
  unfold getPath
  split at path
  · next first => simpa only [if_pos first] using either k.path0 _ path
  · next second => simpa only [if_neg second] using either k.path1 _ path

theorem Stops.idle {s t : State} {l l' : List (Nat × Nat × Nat)} {force : Bool} (stops : Stops s t l force) (idle : IdleAt s l') :
    IdleAt t l' := by
  intro e member
  obtain ⟨low, quiet⟩ := idle e member
  refine ⟨low, fun k p course path => ?_⟩
  rw [stops.courses _ _ low] at course
  obtain ⟨k', course', rfl⟩ := Option.map_eq_some_iff.1 course
  obtain ⟨q, path', rfl | rfl⟩ := getPath_savedIn path
  · exact quiet k' _ course' path'
  · exact (quiet k' q course' path').saved force k'

theorem stopPath_foldl (force : Bool) : ∀ {l : List (Nat × Nat × Nat)} {s : State}, IdleAt s l → (∀ e ∈ l, e.2.2 < 2) →
    Stops s (l.foldl (stopPath force) s) l force
  | [], s, _, _ => ⟨rfl, fun b c _ => by
      have none : savedIn [] force b c = id := funext fun k => by simp [savedIn]
      rw [none, Option.map_id]
      rfl⟩
  | e :: l, s, idle, slots => by
    obtain ⟨low, quiet⟩ := idle e List.mem_cons_self
    have one := stopPath_stops force low (slots e List.mem_cons_self) quiet
    exact one.cons (stopPath_foldl force (one.idle fun f member => idle f (List.mem_cons_of_mem _ member))
      fun f member => slots f (List.mem_cons_of_mem _ member))

theorem dropCollectives_sameMemory (s : State) (a : BitVec 16) : SameMemory s (dropCollectives s a) := by
  refine ⟨fun _ => rfl, fun _ => rfl, fun b i => ?_⟩
  unfold getBlock dropCollectives
  dsimp only
  rw [find?_map_of_keys (fun e => by split <;> rfl), Option.map_map]
  refine congrArg (Option.map · _) (funext fun y => ?_)
  dsimp only [Function.comp_apply]
  split <;> rfl

/-- Stopping the paths of a context that nothing holds up. -/
theorem stopPaths_saves {s : State} {a : BitVec 16} (quiet : QuietContext s a) (force : Bool) :
    SaveStops s (stopPaths s a force) a force ∧ (stopPaths s a force).contexts = s.contexts := by
  have stops := stopPath_foldl force quiet.ctxPaths fun e member => (mem_ctxPaths member).2.1
  have split_ : stopPaths s a force = dropCollectives ((ctxPaths s a).foldl (stopPath force) s) a := rfl
  rw [split_]
  generalize (ctxPaths s a).foldl (stopPath force) s = t at stops
  have only := stops.only
  refine ⟨⟨fun b y c block own stays low => ?_, ?_, ?_, ?_, ?_⟩, ?_⟩
  · refine (stops.courses b c low).trans ?_
    cases course : getCourse s b c with
    | none => rfl
    | some k =>
      have slot (i : Nat) (hi : i < 2) (absent : (b, c, i) ∉ ctxPaths s a) : getPath k i = none := by
        by_contra some
        obtain ⟨p, path⟩ := Option.ne_none_iff_exists'.1 some
        exact absent (ctxPaths_complete block own stays low course hi path)
      have path0 : (if (b, c, 0) ∈ ctxPaths s a then k.path0.map (savedPath force k) else k.path0) =
          k.path0.map (savedPath force k) := by
        split
        · rfl
        · next absent => rw [show k.path0 = none from slot 0 (by decide) absent]; rfl
      have path1 : (if (b, c, 1) ∈ ctxPaths s a then k.path1.map (savedPath force k) else k.path1) =
          k.path1.map (savedPath force k) := by
        split
        · rfl
        · next absent => rw [show k.path1 = none from slot 1 (by decide) absent]; rfl
      simp only [Option.map_some, savedIn, path0, path1]
  · show t.commands = s.commands
    rw [only]
  · show t.jobs = s.jobs
    rw [only]
  · show t.queues = s.queues
    rw [only]
  · rw [only]
    exact dropCollectives_sameMemory ..
  · show t.contexts = s.contexts
    rw [only]

/-- A save starts (R377). -/
theorem startSave_saves {s : State} {a : BitVec 16} {x : Context} (own : x.asid = a) (quiet : QuietContext s a) (host : Bool) :
    getCtx (startSave s x host) a = some { x with state := .saving, saveFrom := s.now, hostSaved := host, rivalSince := none } ∧
      SaveStops s (startSave s x host) a false := by
  subst own
  let u := setCtx s x.asid { x with state := .saving, saveFrom := s.now, hostSaved := host, rivalSince := none }
  obtain ⟨saves, contexts⟩ := stopPaths_saves (s := u) quiet false
  refine ⟨?_, saves⟩
  have same : getCtx (startSave s x host) x.asid = getCtx u x.asid := congrArg (find? · x.asid.toNat) contexts
  exact same.trans (getCtx_setCtx_self ..)

/-! ### The live courses of a context (R389) -/

/-- What a change of the live courses of a context does to one. -/
def onLive (f : Course → Course) (k : Course) : Course := if k.live = 0 then k else f k

theorem getCourse_mapCtxCourses {s : State} {a : BitVec 16} {b c : Nat} {y : Block} (f : Course → Course)
    (block : getBlock s b = some y) (own : y.asid = a) (low : c < 32) :
    getCourse (mapCtxCourses s a f) b c = (getCourse s b c).map (onLive f) := by
  have blk : courseKey b c / 32 = b := by unfold courseKey; omega
  unfold getCourse mapCtxCourses
  dsimp only
  rw [find?_map_of_keys (fun e => by split <;> [split <;> rfl; rfl])]
  refine congrArg (Option.map · _) (funext fun k => ?_)
  dsimp only
  rw [blk, block]
  by_cases dead : k.live = 0#32 <;> simp [own, onLive, dead]

/-- A change that leaves the paths' waits leaves a quiet context quiet. -/
theorem QuietContext.mapped {s : State} {a : BitVec 16} (quiet : QuietContext s a) {f : Course → Course} {g : Path → Path}
    (paths : ∀ k, (f k).path0 = k.path0.map g ∧ (f k).path1 = k.path1.map g)
    (waits : ∀ p, (g p).pending = p.pending ∧ (g p).remotes = p.remotes ∧ (g p).park = p.park) :
    QuietContext (mapCtxCourses s a f) a := by
  intro b y c k p block own low course path
  replace block : getBlock s b = some y := block
  rw [getCourse_mapCtxCourses f block own low] at course
  obtain ⟨k', course', rfl⟩ := Option.map_eq_some_iff.1 course
  have before := quiet b y c k'
  unfold onLive at path
  split at path
  · exact before p block own low course' path
  · obtain ⟨first, second⟩ := paths k'
    have found : ∃ q, (k'.path0 = some q ∨ k'.path1 = some q) ∧ g q = p := by
      rw [first, second] at path
      rcases path with path | path
      · obtain ⟨q, path, same⟩ := Option.map_eq_some_iff.1 path
        exact ⟨q, .inl path, same⟩
      · obtain ⟨q, path, same⟩ := Option.map_eq_some_iff.1 path
        exact ⟨q, .inr path, same⟩
    obtain ⟨q, before', rfl⟩ := found
    obtain ⟨pending, remotes, park⟩ := waits q
    rw [pending, remotes, park]
    exact before q block own low course' before'

end Sys2Proof.Machine

/-!
SUPPORT and PROOF. What the host does to contexts: CTXCTL (R389, R390) and its answers to page requests (R374).
-/

namespace Sys2Proof.Machine

/-! ### Which writes act (R389) -/

section

variable {s : State} {p : BitVec 3} {v : Double} {n : Nat} {f : State → Context → State}

theorem onContext_shut (shut : windowOpen s p = false ∨ resetting s p = true) : onContext p v n s f = s := by
  refine if_pos ?_
  rcases shut with shut | shut <;> simp [ctxctlOpen, shut]

theorem onContext_acts {x : Context} (opened : windowOpen s p = true) (settled : resetting s p = false) (op : bits v.toNat 3 0 = n)
    (found : partCtx s p (asidField v) = some x) : onContext p v n s f = f (selectCtx s p v) x := by
  have same : partCtx (selectCtx s p v) p (asidField v) = some x := found
  refine (if_neg ?_).trans ?_
  · simp [ctxctlOpen, opened, settled, op]
  · dsimp only
    rw [same]

end

theorem partCtx_part {s : State} {p : BitVec 3} {a : BitVec 16} {x : Context} (found : partCtx s p a = some x) :
    getCtx s a = some x ∧ x.part = p := by
  unfold partCtx at found
  split at found
  · next y ctx =>
    split at found
    · next here =>
      cases found
      rw [Bool.and_eq_true, decide_eq_true_eq] at here
      exact ⟨ctx, here.1⟩
    · cases found
  · cases found

theorem pvecIn_selectCtx (s : State) (p d : BitVec 3) (v : Double) : (getPart (selectCtx s p v) d).pvecIn = (getPart s d).pvecIn := by
  unfold selectCtx
  by_cases own : d = p
  · subst own
    rw [getPart_setPart_self]
  · rw [getPart_setPart_ne _ _ own]

/-! ### HALT (R390) -/

/-- What HALT leaves of a path: one that waited for remote data or for its team issues again, where a deferred save held it. -/
def haltedPath (x : Context) (q : Path) : Path :=
  if x.hostSaved = true ∨ q.held = false then q
  else if q.park = .remote ∨ q.park = .arrival then { q with held := false, park := .running, waited := [], latched := none }
  else { q with held := false }

theorem haltedPath_eq (x : Context) : (fun q => if x.hostSaved then q else releasePath q) = haltedPath x := by
  funext q
  unfold haltedPath releasePath
  by_cases host : x.hostSaved = true
  · rw [if_pos host, if_pos (.inl host)]
  · by_cases held : q.held = true
    · rw [if_neg host, if_neg (by simp [held]), if_neg (by simp [host, held])]
      cases q.park <;> simp
    · rw [if_neg host, if_pos (by simp [held]), if_pos (.inr (Bool.not_eq_true _ ▸ held))]

/-- What HALT leaves of a live course. -/
def haltedCourse (x : Context) (k : Course) : Course :=
  { k with stopped := true, allowance := 0, eligible := 0, starved := false,
           path0 := k.path0.map (haltedPath x), path1 := k.path1.map (haltedPath x) }

/-- The DEBUG record of a halt leaves the machine but for memory, or it cannot be written and the context is lost. -/
theorem haltRecord_cases {s : State} {a : BitVec 16} {x : Context} (ctx : getCtx s a = some x) (own : x.asid = a)
    (live : x.state ≠ .removed) : OnlyMemory s (haltRecord s a) ∨ Removes s (haltRecord s a) a (removedContext x) := by
  unfold haltRecord
  split
  · exact .inl (.refl s)
  · next blk c slot first =>
    obtain ⟨-, -, y, block, mine, -⟩ := mem_ctxPaths (List.mem_of_mem_head? first)
    have found : blockCtx s blk = some x := by
      unfold blockCtx
      rw [show getBlock s blk = some y from block]
      dsimp only
      rw [mine]
      exact ctx
    dsimp only
    unfold courseRecord
    rw [found]
    dsimp only
    split
    · subst own
      exact .inr (loseContext_removes ctx rfl live).1
    · exact .inl ((setCore_onlyMemory ..).trans (putRecord_onlyMemory ..))

/-- What a change of a context and of its live courses leaves, or, where `lost`, its removal. -/
def Changes (s t : State) (a : BitVec 16) (x' : Context) (lost : Prop) (f : Course → Course) : Prop :=
  ∃ y, getCtx t a = some y ∧ (y = x' ∨ (lost ∧ y.state = .removed)) ∧
    (y = x' → ∀ b z c, getBlock s b = some z → z.asid = a → c < 32 → getCourse t b c = (getCourse s b c).map (onLive f))

section

variable {s : State} {a : BitVec 16} {x : Context} (ctx : getCtx s a = some x) (own : x.asid = a)

include ctx own

theorem haltContext_eq (quiet : QuietContext s a) : haltContext s x =
    haltRecord (setCtx (mapCtxCourses s a (haltedCourse x)) a { x with state := haltState x }) a := by
  subst own
  unfold haltContext
  dsimp only
  rw [completePath_foldl quiet.ctxPaths, haltedPath_eq]
  have same : getCtx (mapCtxCourses s x.asid (haltedCourse x)) x.asid = some x := ctx
  show haltRecord (match getCtx (mapCtxCourses s x.asid (haltedCourse x)) x.asid with
    | some y => setCtx (mapCtxCourses s x.asid (haltedCourse x)) x.asid { y with state := haltState y }
    | none => mapCtxCourses s x.asid (haltedCourse x)) x.asid = _
  rw [same]

theorem haltContext_changes (quiet : QuietContext s a) (halts : x.state ≠ .removed) : Changes s (haltContext s x) a
    { x with state := if x.state = .saving ∧ x.hostSaved = true then .saving else .halting } True (haltedCourse x) := by
  have state : haltState x = if x.state = .saving ∧ x.hostSaved = true then .saving else .halting := by
    unfold haltState
    rw [if_neg halts]
    simp
  have live : haltState x ≠ .removed := by
    rw [state]
    split <;> exact nofun
  rw [haltContext_eq ctx own quiet, ← state]
  let u := setCtx (mapCtxCourses s a (haltedCourse x)) a { x with state := haltState x }
  have found : getCtx u a = some { x with state := haltState x } := getCtx_setCtx_self ..
  rcases haltRecord_cases found own live with memory | lost
  · refine ⟨_, (congrArg (find? · a.toNat) memory.contexts).trans found, .inl rfl, fun _ b z c block mine low => ?_⟩
    exact (memory.getCourse b c).trans (getCourse_mapCtxCourses _ block mine low)
  · exact ⟨_, lost.context, .inr ⟨trivial, rfl⟩, fun same => absurd (congrArg Context.state same).symm live⟩

/-- A halted context goes on (R390). -/
theorem resumeHalted_changes (quiet : QuietContext s a) : Changes s (resumeHalted s x) a
    { x with state := if x.saved = [] ∨ ∃ e ∈ s.blocks, e.2.asid = a then .running else .saved } False
    (fun k => { k with stopped := false, allowance := 0, path0 := k.path0.map refetch, path1 := k.path1.map refetch }) := by
  subst own
  have state : (if x.saved.isEmpty || s.blocks.any (fun e => e.2.asid = x.asid) then CtxState.running else .saved) =
      if x.saved = [] ∨ ∃ e ∈ s.blocks, e.2.asid = x.asid then .running else .saved := by
    refine if_congr ?_ rfl rfl
    rw [Bool.or_eq_true, List.isEmpty_iff, List.any_eq_true]
    simp only [decide_eq_true_eq]
  unfold resumeHalted
  dsimp only
  rw [state]
  generalize (if x.saved = [] ∨ ∃ e ∈ s.blocks, e.2.asid = x.asid then CtxState.running else .saved) = st
  have quiet' : QuietContext (setCtx s x.asid { x with state := st }) x.asid := quiet
  rw [endStoppedWaits_quiet (quiet'.mapped (g := refetch) (fun _ => ⟨rfl, rfl⟩) fun _ => ⟨rfl, rfl, rfl⟩).ctxPaths]
  exact ⟨_, getCtx_setCtx_self .., .inl rfl, fun _ b z c block mine low => getCourse_mapCtxCourses _ block mine low⟩

omit own in
theorem mapCtxCourses_changes (f : Course → Course) : Changes s (mapCtxCourses s a f) a x False f :=
  ⟨x, ctx, .inl rfl, fun _ _ _ _ block mine low => getCourse_mapCtxCourses f block mine low⟩

end

/-! ### REMOVE and DESTROY (R388, R390) -/

/-- What DESTROY and the discard of its packets leave as it is. -/
def QueuesOnly (s t : State) : Prop := t = { s with queues := t.queues, counters := t.counters, jobs := t.jobs }

theorem QueuesOnly.trans {s t u : State} (h : QueuesOnly s t) (g : QueuesOnly t u) : QueuesOnly s u := by
  rw [QueuesOnly, g, h]

theorem closeQueue_queuesOnly (s : State) (p : BitVec 3) (q : Nat) (k : Queue) : QueuesOnly s (closeQueue s p q k) := by
  obtain ⟨c, closed⟩ := closeQueue_eq s p q k
  rw [closed]
  rfl

theorem discardDead_queuesOnly (s : State) (sel : Job → Bool) : QueuesOnly s (discardDead s sel) := by
  obtain ⟨c, freed⟩ := freeOwns_eq s (fun j => (sel j && !stillCompletes j) && !j.failed) s.jobs
  have split_ : discardDead s sel = { freeOwns s (fun j => (sel j && !stillCompletes j) && !j.failed) s.jobs with
      jobs := (freeOwns s (fun j => (sel j && !stillCompletes j) && !j.failed) s.jobs).jobs.filter
        (fun e => !(sel e.2 && !stillCompletes e.2)) } := rfl
  rw [split_, freed]
  rfl

theorem dropClosed_queuesOnly (s : State) (a : BitVec 16) : QueuesOnly s (dropClosed s a) := by
  unfold dropClosed
  split
  · rfl
  · split <;> rfl

theorem Removes.queues {s t u : State} {a : BitVec 16} {y : Context} (h : Removes s t a y) (only : QueuesOnly t u) : Removes s u a y := by
  refine ⟨?_, fun b z c block low => ?_, fun e member => ?_⟩
  · rw [only]
    exact h.context
  · rw [only]
    exact h.courses b z c block low
  · rw [only] at member
    exact h.commands e member

/-- DESTROY is REMOVE, and then nothing but queues, packets and their counters. -/
theorem destroyContext_removes {s : State} {a : BitVec 16} {x : Context} (ctx : getCtx s a = some x) (own : x.asid = a)
    (live : x.state ≠ .removed) : Removes s (destroyContext s x) a { removedContext x with destroying := true, subs := [] } ∧
      .msi x.part (bits (getPart s x.part).pvecIn.toNat 5 0) ∈ (destroyContext s x).out := by
  subst own
  obtain ⟨removed, raised⟩ := removeAll_removes ctx rfl live 0 [⟨plainFault 0x16 0, 0, 0, 0⟩] false
  have raised := raised rfl
  unfold destroyContext debugRemove removeContext
  dsimp only
  generalize removeAll s x.asid 0 [⟨plainFault 0x16 0, 0, 0, 0⟩] false = t at removed raised
  rw [removed.context]
  dsimp only
  have marked : Removes s (setCtx t x.asid { removedContext x with destroying := true, subs := [] }) x.asid
      { removedContext x with destroying := true, subs := [] } :=
    ⟨getCtx_setCtx_self .., removed.courses, removed.commands⟩
  have closed : QueuesOnly (setCtx t x.asid { removedContext x with destroying := true, subs := [] }) (dropClosed (discardDead
      (t.queues.foldl (fun s e => if e.2.asid = x.asid then closeQueue s (BitVec.ofNat 3 (e.1 / 256)) (e.1 % 256) e.2 else s)
        (setCtx t x.asid { removedContext x with destroying := true, subs := [] })) (fun j => j.asid == x.asid)) x.asid) := by
    refine QueuesOnly.trans ?_ ((discardDead_queuesOnly ..).trans (dropClosed_queuesOnly ..))
    generalize t.queues = l
    generalize setCtx t x.asid { removedContext x with destroying := true, subs := [] } = u
    induction l generalizing u with
    | nil => rfl
    | cons e l ih =>
      refine QueuesOnly.trans ?_ (ih _)
      dsimp only
      split
      · exact closeQueue_queuesOnly ..
      · rfl
  refine ⟨marked.queues closed, ?_⟩
  have out := congrArg State.out closed
  exact out ▸ raised

theorem debugRemove_removes {s : State} {a : BitVec 16} {x : Context} (ctx : getCtx s a = some x) (own : x.asid = a)
    (live : x.state ≠ .removed) : Removes s (debugRemove s x) a (removedContext x) ∧
      .msi x.part (bits (getPart s x.part).pvecIn.toNat 5 0) ∈ (debugRemove s x).out := by
  subst own
  obtain ⟨removed, raised⟩ := removeAll_removes ctx rfl live 0 [⟨plainFault 0x16 0, 0, 0, 0⟩] false
  exact ⟨removed, raised rfl⟩

theorem debugRemove_removed {s : State} {a : BitVec 16} {x : Context} (ctx : getCtx s a = some x) (own : x.asid = a)
    (dead : x.state = .removed) : debugRemove s x = s := by
  subst own
  unfold debugRemove removeContext removeAll
  rw [ctx]
  exact if_pos dead

/-! ### Answers to page requests (R374) -/

section

variable {s : State} {p : BitVec 3} {v : Double} {x : Context} (ctx : getCtx s (asidField v) = some x) (here : x.part = p)

include ctx here

theorem namedFault_eq : namedFault s p v = (x.faults.find? (fun e => e.fid = bits v.toNat 15 0)).map (fun e => (x, e)) := by
  unfold namedFault
  rw [ctx]
  exact if_pos here

theorem namedFault_none (absent : ∀ e ∈ x.faults, e.fid ≠ bits v.toNat 15 0) : namedFault s p v = none := by
  rw [namedFault_eq ctx here, List.find?_eq_none.2 fun e member => by simpa using absent e member]
  rfl

end

section

variable {s : State} {p : BitVec 3} {v : Double} (opened : windowOpen s p = true)

include opened

theorem exec_pgdone (answer : v.getLsbD 16 = false) : exec (.pgdone p v) s = .next (match namedFault s p v with
    | some (x, e) => wakeFault (closeFault s x e) e
    | none => s) := by
  refine (if_neg (by rw [opened, answer]; decide)).trans ?_
  cases namedFault s p v <;> rfl

theorem exec_pgdoneAbort (abort : v.getLsbD 16 = true) : exec (.pgdoneAbort p v) s = .next (match namedFault s p v with
    | some (x, e) => dropStalled (removeContext (closeFault s x e) x.asid { e.f with info := e.f.info % 2 ^ 48 + e.fid * 2 ^ 48 }
        e.pos e.core e.course e.slot false) e
    | none => s) := by
  refine (if_neg (by rw [opened, abort]; decide)).trans ?_
  cases namedFault s p v <;> rfl

end

theorem dropStalled_of_owner {s : State} {e : OpenFault} (owner : ∀ id, e.owner ≠ .command id) : dropStalled s e = s := by
  unfold dropStalled
  split
  · next id command => exact absurd command (owner id)
  · rfl

theorem getCtx_closeFault {s : State} {a : BitVec 16} {x : Context} (own : x.asid = a) (e : OpenFault) :
    getCtx (closeFault s x e) a = some { x with faults := x.faults.filter (fun f => f.fid ≠ e.fid) } := by
  subst own
  exact getCtx_setCtx_self ..

/-- A fault that is turned down removes its context, and is closed (R374). -/
theorem abort_removes {s : State} {a : BitVec 16} {x : Context} (own : x.asid = a) (live : x.state ≠ .removed) (e : OpenFault)
    (f : FaultInfo) : Removes s (removeContext (closeFault s x e) x.asid f e.pos e.core e.course e.slot false) a
        (removedContext { x with faults := x.faults.filter (fun f => f.fid ≠ e.fid) }) ∧
      .msi x.part (bits (getPart s x.part).pvecIn.toNat 5 0) ∈
        (removeContext (closeFault s x e) x.asid f e.pos e.core e.course e.slot false).out := by
  subst own
  have closed : getCtx (closeFault s x e) x.asid = some { x with faults := x.faults.filter (fun f => f.fid ≠ e.fid) } :=
    getCtx_closeFault rfl e
  obtain ⟨removed, raised⟩ := removeAll_removes closed rfl live e.core [⟨f, e.pos, e.course, e.slot⟩] false
  exact ⟨removed.of_sameBlocks (u := closeFault s x e) rfl rfl, raised rfl⟩

/-- The machine once a fault of a path is answered. -/
theorem wakeFault_path {s : State} {e : OpenFault} {b c slot : Nat} {k : Course} {q : Path} (owner : e.owner = .path b c slot)
    (course : getCourse s b c = some k) (path : getPath k slot = some q) :
    (wakeFault s e).contexts = s.contexts ∧ SameMemory s (wakeFault s e) ∧ getCourse (wakeFault s e) b c =
      some (setPath k slot (some (if q.park = .fault e.fid then { q with park := .running } else q))) := by
  have acquired : getCourse (acquire s (blockCore s b) .system false) b c = some k := (getCourse_acquire ..).trans course
  have woken : wakeFault s e = setCourse (acquire s (blockCore s b) .system false) b c
      (setPath k slot (some (if q.park = .fault e.fid then { q with park := .running } else q))) := by
    unfold wakeFault
    rw [owner]
    dsimp only
    rw [updPath_of_get acquired, path]
    rfl
  rw [woken]
  refine ⟨(acquire_onlyMemory ..).contexts, (acquire_sameMemory ..).trans (.of_eq rfl rfl rfl), getCourse_setCourse_self ..⟩

/-- Settles O53: what each OP does is the lemma about its own function; the paths of a quiet context are left by the long writes
and the ended waits, so that the map of the live courses is all that remains. -/
theorem theHostControlsContexts : Obligations.TheHostControlsContexts := by
  unfold Obligations.TheHostControlsContexts
  intro s p v x a op s0 changes removes
  have removed {i : Instr} {q : Context → Prop} {t : State} {y : Context} (runs : exec i s = .next t) (gone : Removes s t a y)
      (state : y.state = .removed ∧ y.step = none ∧ y.saved = []) (extra : q y)
      (raised : .msi x.part (bits (getPart s x.part).pvecIn.toNat 5 0) ∈ t.out) : removes i q :=
    ⟨t, y, runs, gone.context, state.1, state.2.1, state.2.2, extra, gone.courses, raised, gone.commands⟩
  have changed {i : Instr} {x' : Context} {lost : Prop} {f : Course → Course} {t : State} (runs : exec i s = .next t)
      (h : Changes s0 t a x' lost f) : changes i x' lost f := by
    obtain ⟨y, found, either, courses⟩ := h
    exact ⟨t, y, runs, found, either, courses⟩
  refine ⟨fun shut => ?shut, fun opened settled found own => ?open_, fun ctx halting => ?_, fun ctx other => ?_,
    fun opened ctx here own => ?answers⟩
  case shut =>
    simp only [List.mem_cons, List.not_mem_nil, or_false]
    rintro i (rfl | rfl | rfl | rfl | rfl | rfl) <;> exact congrArg Host.Outcome.next (onContext_shut shut)
  case open_ =>
    intro halts free again
    obtain ⟨ctx, here⟩ := partCtx_part found
    have vector : (getPart s0 x.part).pvecIn = (getPart s x.part).pvecIn := pvecIn_selectCtx s p x.part v
    have acts {n : Nat} (f : State → Context → State) (act : op = n) : onContext p v n s f = f s0 x :=
      onContext_acts opened settled act found
    refine ⟨fun act => ⟨fun no => ?_, fun yes quiet => ?_⟩, fun act => ⟨fun no => ?_, fun saved => ?_, fun held quiet => ?_⟩,
      fun act => ⟨fun no => ?_, fun halted => ?_⟩, fun act => ⟨fun removed => ?_, fun saved => ?_, fun runs quiet => ?_⟩,
      fun act live => ?_, fun act dead => ?_, fun act twice => ?_, fun act once live => ?_⟩
    · refine congrArg Host.Outcome.next ((acts _ act).trans (if_neg fun all => no ?_))
      simp only [Bool.or_eq_true, Bool.and_eq_true, decide_eq_true_eq, Bool.not_eq_true'] at all
      exact or_assoc.1 all
    · refine changed (congrArg Host.Outcome.next ((acts _ act).trans (if_pos ?_))) (haltContext_changes (s := s0) ctx own quiet ?_)
      · simp only [Bool.or_eq_true, Bool.and_eq_true, decide_eq_true_eq, Bool.not_eq_true']
        exact or_assoc.2 yes
      · rintro gone
        rcases yes with state | state | ⟨state, -⟩ <;> exact CtxState.noConfusion (gone.symm.trans state)
    · refine congrArg Host.Outcome.next ((acts _ act).trans ?_)
      rcases no with state | state | state <;> rw [state]
    · refine congrArg Host.Outcome.next ((acts _ act).trans ?_)
      rw [saved, own]
    · refine changed (congrArg Host.Outcome.next ((acts _ act).trans ?_)) (resumeHalted_changes (s := s0) ctx own quiet)
      rcases held with state | state <;> rw [state]
    · exact congrArg Host.Outcome.next ((acts _ act).trans (if_neg no))
    · refine changed (congrArg Host.Outcome.next ((acts _ act).trans ((if_pos halted).trans ?_))) (mapCtxCourses_changes (s := s0) ctx _)
      rw [own]
      rfl
    · refine congrArg Host.Outcome.next ((acts _ act).trans ?_)
      rw [removed]
    · refine congrArg Host.Outcome.next ((acts _ act).trans ?_)
      rcases saved with state | state <;> rw [state, own]
    · obtain ⟨begun, saves⟩ := startSave_saves (s := s0) own quiet true
      refine ⟨_, congrArg Host.Outcome.next ((acts _ act).trans ?_), begun, saves⟩
      rcases runs with state | state | state <;> rw [state]
    · obtain ⟨gone, raised⟩ := debugRemove_removes (s := s0) ctx own live
      rw [vector] at raised
      exact removed (congrArg Host.Outcome.next (acts _ act)) (gone.of_sameBlocks (u := s0) rfl rfl) ⟨rfl, rfl, rfl⟩ trivial raised
    · exact congrArg Host.Outcome.next ((acts _ act).trans (debugRemove_removed (s := s0) ctx own dead))
    · exact congrArg Host.Outcome.next ((acts _ act).trans (if_pos twice))
    · obtain ⟨gone, raised⟩ := destroyContext_removes (s := s0) ctx own live
      refine removed (congrArg Host.Outcome.next ((acts _ act).trans (if_neg (by simp [once])))) (gone.of_sameBlocks (u := s0) rfl rfl)
        ⟨rfl, rfl, rfl⟩ ⟨rfl, rfl⟩ ?_
      rwa [vector] at raised
  · show execHaltComplete a s = _
    unfold execHaltComplete
    rw [ctx]
    exact congrArg Host.Outcome.next (if_pos halting)
  · show execHaltComplete a s = _
    unfold execHaltComplete
    rw [ctx]
    exact congrArg Host.Outcome.next (if_neg other)
  case answers =>
    refine ⟨fun absent => ⟨fun answer => ?_, fun abort => ?_⟩, fun e open_ => ?_⟩
    · exact (exec_pgdone opened answer).trans (by rw [namedFault_none ctx here absent])
    · exact (exec_pgdoneAbort opened abort).trans (by rw [namedFault_none ctx here absent])
    · intro rest
      have named : namedFault s p v = some (x, e) := by rw [namedFault_eq ctx here, open_]; rfl
      refine ⟨fun answer b c slot k q owner low course path => ?_, fun abort live owner => ?_⟩
      · obtain ⟨contexts, memory, woken⟩ := wakeFault_path (s := closeFault s x e) owner course path
        refine ⟨_, (exec_pgdone opened answer).trans (by rw [named]),
          (congrArg (find? · a.toNat) contexts).trans (getCtx_closeFault own e),
          woken, memory⟩
      · have runs := exec_pgdoneAbort opened abort
        rw [named] at runs
        dsimp only at runs
        rw [dropStalled_of_owner owner] at runs
        obtain ⟨gone, raised⟩ := abort_removes (s := s) own live e { e.f with info := e.f.info % 2 ^ 48 + e.fid * 2 ^ 48 }
        exact removed runs gone ⟨rfl, rfl, rfl⟩ (fun f member => (List.mem_filter.1 member).1) raised

end Sys2Proof.Machine

/-!
SUPPORT. The end of a save (R355, R363, R377): the rubbing is read and written at memory alone, and the blocks leave their cores.
-/

namespace Sys2Proof.Machine

/-! ### Rubbings -/

theorem touchRubbing_homeOnly (s : State) (x : Context) : HomeOnly s (touchRubbing s x) := by
  unfold touchRubbing
  refine .ite (.refl s) ?_
  split
  · exact hubTouch_homeOnly ..
  · exact (hubTouch_homeOnly ..).trans (HomeOnly.foldl (fun _ _ => hubTouch_homeOnly ..) _ _)

theorem touchRubbing_onlyMemory (s : State) (x : Context) : OnlyMemory s (touchRubbing s x) := (touchRubbing_homeOnly s x).onlyMemory

theorem encodeBlocks_onlyMemory (s : State) (a : BitVec 16) : OnlyMemory s (encodeBlocks s a) := by
  unfold encodeBlocks
  refine OnlyMemory.foldl (fun t e => ?_) _ s
  exact holdPipe_onlyMemory t e.2.core _

theorem writeChunks_onlyMemory (x : Context) (last : Nat) : ∀ (l : List OpenChunk) (s : State),
    OnlyMemory s (writeChunks s x last l).2
  | [], s => .refl s
  | c :: l, s => by
    unfold writeChunks
    dsimp only
    split
    · exact .refl s
    · exact (hubWrite_onlyMemory ..).trans (writeChunks_onlyMemory x last l _)

theorem writeRubbing_onlyMemory (s : State) (x : Context) (ims : List (Image × List Word)) : OnlyMemory s (writeRubbing s x ims).2 := by
  unfold writeRubbing
  dsimp only
  have written := writeChunks_onlyMemory x ((streamChunks (ims.zipIdx.flatMap (fun e => imageSections e.1.1 e.1.2 e.2))).length - 1)
    (streamChunks (ims.zipIdx.flatMap (fun e => imageSections e.1.1 e.1.2 e.2))) s
  split
  · next n t stopped =>
    rw [stopped] at written
    exact written
  · next t whole =>
    rw [whole] at written
    split
    · exact written
    · exact written.trans (hubWrite_onlyMemory ..)

/-- The machine that a save's rubbing is taken from. -/
def saveEncoded (s : State) (a : BitVec 16) (x : Context) : State :=
  touchRubbing (encodeBlocks ((ctxBlocks s a).foldl (fun s e => drainCore s e.2.core) s) a) x

theorem saveEncoded_onlyMemory (s : State) (a : BitVec 16) (x : Context) : OnlyMemory s (saveEncoded s a x) :=
  (OnlyMemory.foldl (f := fun t (e : Nat × Block) => drainCore t e.2.core) (fun t e => drainCore_onlyMemory t e.2.core) _ s).trans
    ((encodeBlocks_onlyMemory ..).trans (touchRubbing_onlyMemory ..))

/-- The removal for a rubbing that cannot be written or read (R383, R384). -/
theorem restoreFault_removes {s : State} {a : BitVec 16} {x : Context} (ctx : getCtx s a = some x) (own : x.asid = a)
    (live : x.state ≠ .removed) (detail chunk : Nat) : Removes s (restoreFault s a detail chunk) a (removedContext x) :=
  (removeAll_removes ctx own live 0 _ false).1

/-! ### The cores are given up -/

theorem removeBlock_foldl : ∀ (l : List (Nat × Block)) (s : State),
    (∀ b, getBlock (l.foldl (fun s e => removeBlock s e.1 e.2) s) b = if b ∈ l.map (·.1) then none else getBlock s b) ∧
    (l.foldl (fun s e => removeBlock s e.1 e.2) s).dev = s.dev ∧ (l.foldl (fun s e => removeBlock s e.1 e.2) s).hostMem = s.hostMem
  | [], s => ⟨fun b => (if_neg List.not_mem_nil).symm, rfl, rfl⟩
  | e :: l, s => by
    obtain ⟨blocks, dev, hostMem⟩ := removeBlock_foldl l (removeBlock s e.1 e.2)
    obtain ⟨gone, -⟩ := removeBlock_gone s e.1 e.2
    refine ⟨fun b => (blocks b).trans ?_, dev.trans gone.dev, hostMem.trans gone.hostMem⟩
    by_cases own : b = e.1
    · subst own
      simp [gone.getBlock_self]
    · rw [gone.getBlock_ne own]
      simp only [List.map_cons, List.mem_cons, own, false_or]

theorem mem_ctxBlocks {s : State} {a : BitVec 16} {e : Nat × Block} : e ∈ ctxBlocks s a ↔ e ∈ s.blocks ∧ e.2.asid = a := by
  unfold ctxBlocks
  rw [List.mem_filter, decide_eq_true_eq]

/-- No block of the context is on a core; the others and memory are as they were. -/
theorem freeCores_gone (s : State) (a : BitVec 16) :
    (∀ b z, getBlock (freeCores s a) b = some z → z.asid ≠ a) ∧
    (∀ b, (∀ e ∈ s.blocks, e.1 = b → e.2.asid ≠ a) → getBlock (freeCores s a) b = getBlock s b) ∧
    (freeCores s a).dev = s.dev ∧ (freeCores s a).hostMem = s.hostMem := by
  obtain ⟨blocks, dev, hostMem⟩ := removeBlock_foldl (ctxBlocks s a)
    { s with commands := s.commands.filter (fun e => !(ctxBlocks s a).any (fun b => b.1 = e.2.blk)) }
  refine ⟨fun b z block own => ?_, fun b others => (blocks b).trans (if_neg fun listed => ?_), dev, hostMem⟩
  · have left := (blocks b).symm.trans block
    split at left
    · cases left
    · next absent => exact absent (List.mem_map.2 ⟨(b, z), mem_ctxBlocks.2 ⟨find?_mem left, own⟩, rfl⟩)
  · obtain ⟨e, member, key⟩ := List.mem_map.1 listed
    obtain ⟨held, own⟩ := mem_ctxBlocks.1 member
    exact others e held key own

/-! ### SAVE_DONE (R377) -/

section

variable {s : State} {a : BitVec 16} {x : Context} (own : x.asid = a)

include own

theorem finishSave_eq : finishSave s x = (match rubbingOf (saveEncoded s a x) x with
    | .error e => restoreFault (saveEncoded s a x) a e.detail e.chunk
    | .ok l => match writeRubbing (saveEncoded s a x) x
        (l.map (fun e => (e.2, ((getJob (saveEncoded s a x) e.1.job).map (·.words)).getD []))) with
      | (some n, s) => restoreFault s a 1 n
      | (none, s) => setCtx (freeCores s a) a
          { x with state := .saved, savedAt := s.now, faults := keptFaults x
                   saved := l.zipIdx.map (fun e => { e.1.1 with ordinal := e.2 }) }) := by
  subst own
  rfl

variable (ctx : getCtx s a = some x) (live : x.state ≠ .removed)

include ctx live

/-- A machine that differs from `s` at memory alone loses the context as `s` does. -/
theorem restoreFault_after {u : State} (memory : OnlyMemory s u) (detail chunk : Nat) :
    Removes s (restoreFault u a detail chunk) a (removedContext x) := by
  have same : getCtx u a = some x := (congrArg (find? · a.toNat) memory.contexts).trans ctx
  exact (restoreFault_removes same own live detail chunk).of_sameBlocks (u := u) memory.courses memory.blocks

theorem finishSave_unread {e : RubFault} (bad : rubbingOf (saveEncoded s a x) x = .error e) :
    Removes s (finishSave s x) a (removedContext x) := by
  rw [finishSave_eq own, bad]
  exact restoreFault_after own ctx live (saveEncoded_onlyMemory s a x) ..

theorem finishSave_unwritten {l : List (SavedBlock × Image)} (good : rubbingOf (saveEncoded s a x) x = .ok l) {n : Nat}
    (stops : (writeRubbing (saveEncoded s a x) x
      (l.map (fun e => (e.2, ((getJob (saveEncoded s a x) e.1.job).map (·.words)).getD [])))).1 = some n) :
    Removes s (finishSave s x) a (removedContext x) := by
  have memory := (saveEncoded_onlyMemory s a x).trans (writeRubbing_onlyMemory (saveEncoded s a x) x
    (l.map (fun e => (e.2, ((getJob (saveEncoded s a x) e.1.job).map (·.words)).getD []))))
  rw [finishSave_eq own, good]
  dsimp only
  generalize writeRubbing (saveEncoded s a x) x
    (l.map (fun e => (e.2, ((getJob (saveEncoded s a x) e.1.job).map (·.words)).getD []))) = w at stops memory
  obtain ⟨stop, w⟩ := w
  obtain rfl : stop = some n := stops
  exact restoreFault_after own ctx live memory ..

omit ctx live in
theorem finishSave_saved {l : List (SavedBlock × Image)} (good : rubbingOf (saveEncoded s a x) x = .ok l) {w : Option Nat × State}
    (wrote : writeRubbing (saveEncoded s a x) x
      (l.map (fun e => (e.2, ((getJob (saveEncoded s a x) e.1.job).map (·.words)).getD []))) = w) (whole : w.1 = none) :
    finishSave s x = setCtx (freeCores w.2 a) a { x with
      state := .saved, savedAt := w.2.now, faults := keptFaults x, saved := l.zipIdx.map (fun e => { e.1.1 with ordinal := e.2 }) } := by
  rw [finishSave_eq own, good]
  dsimp only
  rw [wrote]
  obtain ⟨stop, w⟩ := w
  obtain rfl : stop = none := whole
  rfl

end

end Sys2Proof.Machine

/-!
SUPPORT. A saved block is placed on a core again (R237, R379, R385): its courses stand as saved, and what would go on from a stack
or a command of its own changes nothing where it has none.
-/

namespace Sys2Proof.Machine

/-! ### Steps that leave the courses -/

/-- `t` is `s`, its courses written again as they stood. -/
structure CoursesKept (s t : State) : Prop where
  only : t = { s with courses := t.courses }
  same : ∀ b c, getCourse t b c = getCourse s b c

theorem CoursesKept.refl (s : State) : CoursesKept s s := ⟨rfl, fun _ _ => rfl⟩

theorem CoursesKept.trans {s t u : State} (h : CoursesKept s t) (g : CoursesKept t u) : CoursesKept s u :=
  ⟨by rw [g.only, h.only], fun b c => (g.same b c).trans (h.same b c)⟩

theorem CoursesKept.foldl {α : Type} {f : State → α → State} {s : State} : ∀ {l : List α},
    (∀ u, CoursesKept s u → ∀ e ∈ l, CoursesKept u (f u e)) → CoursesKept s (l.foldl f s)
  | [], _ => .refl s
  | e :: l, keeps => by
    have first := keeps s (.refl s) e List.mem_cons_self
    exact first.trans (CoursesKept.foldl fun u kept d member => keeps u (first.trans kept) d (List.mem_cons_of_mem _ member))

theorem setCourse_kept {s : State} {b c : Nat} {k : Course} (course : getCourse s b c = some k) : CoursesKept s (setCourse s b c k) := by
  refine ⟨rfl, fun d e => ?_⟩
  by_cases key : courseKey d e = courseKey b c
  · have here : getCourse s d e = some k := (congrArg (find? s.courses) key).trans course
    rw [here]
    exact (congrArg (find? (setCourse s b c k).courses) key).trans (getCourse_setCourse_self ..)
  · exact getCourse_setCourse_ne _ _ key

theorem updCourse_kept {s : State} {b c : Nat} {f : Course → Course} (fixed : ∀ k, getCourse s b c = some k → f k = k) :
    CoursesKept s (updCourse s b c f) := by
  unfold updCourse
  cases course : getCourse s b c with
  | none => exact .refl s
  | some k =>
    dsimp only
    rw [fixed k course]
    exact setCourse_kept course

/-- A course with an empty stack has nothing to refill its slots from (R138). -/
theorem refillSlot_kept {s : State} {b c : Nat} (empty : ∀ k, getCourse s b c = some k → k.depth = 0) (slot : Nat) (front : Bool) :
    CoursesKept s (refillSlot s b c slot front) := by
  unfold refillSlot
  split
  · next k x course ctx =>
    have depth := empty k course
    split
    · exact .refl s
    · rw [depth]
      dsimp only
      have top : topEntry s x k.stackSlot 0 = .empty := rfl
      rw [top]
      have same : { k with depth := 0 } = k := by rw [← depth]
      dsimp only
      rw [same]
      exact setCourse_kept course
  · exact .refl s

theorem refillSlots_kept {s : State} {b c : Nat} (empty : ∀ k, getCourse s b c = some k → k.depth = 0) (first : Nat) (merged : Bool) :
    CoursesKept s (refillSlots s b c first merged) := by
  have one := refillSlot_kept empty first (!merged)
  unfold refillSlots
  exact one.trans (refillSlot_kept (fun k course => empty k ((one.same b c).symm.trans course)) ..)

/-! ### The courses of a block that is placed -/

theorem getCourse_setCourses (b : Nat) (F : Nat → Course) : ∀ (l : List Nat) (s : State) (c : Nat),
    getCourse ((l.map (fun c => (c, F c))).foldl (fun s e => setCourse s b e.1 e.2) s) b c =
      if c ∈ l then some (F c) else getCourse s b c
  | [], s, c => (if_neg List.not_mem_nil).symm
  | d :: l, s, c => by
    have later := getCourse_setCourses b F l (setCourse s b d (F d)) c
    refine later.trans ?_
    by_cases own : c = d
    · subst own
      rw [getCourse_setCourse_self, ite_self, if_pos List.mem_cons_self]
    · have key : courseKey b c ≠ courseKey b d := by unfold courseKey; omega
      rw [getCourse_setCourse_ne _ _ key]
      simp only [List.mem_cons, own, false_or]

/-- The course writes of a fold are seen at the courses alone. -/
theorem setCourses_rest (b : Nat) : ∀ (l : List (Nat × Course)) (s : State),
    l.foldl (fun s e => setCourse s b e.1 e.2) s = { s with courses := (l.foldl (fun s e => setCourse s b e.1 e.2) s).courses }
  | [], _ => rfl
  | e :: l, s => by
    rw [List.foldl_cons, setCourses_rest b l]
    rfl

/-- A path that waits for no command of its own is restored so. -/
theorem restorePath_park {x : Context} {g : SavedBlock} {c i : Nat} {p : Path} (free : ∀ id, p.park ≠ .continuation id) (id : Nat) :
    (restorePath x g c i p).park ≠ .continuation id := by
  unfold restorePath
  dsimp only
  split
  · next fid park =>
    split
    · exact fun same => free id same
    · exact nofun
  · exact free id

theorem restoreContinuation_free {p : Path} (free : ∀ id, p.park ≠ .continuation id) (ids : List Nat) : restoreContinuation ids p = p := by
  unfold restoreContinuation
  split
  · next id park => exact absurd park (free id)
  · rfl

/-- The outstanding request of the path at slot `i` is its own again. -/
def reownAt (b c : Nat) (k : Course) (x : Context) (i : Nat) : Context :=
  match (getPath k i).map (fun p : Path => p.park) with
  | some (.fault fid) =>
    { x with faults := x.faults.map (fun e : OpenFault => if e.fid = fid then { e with owner := .path b c i } else e) }
  | _ => x

theorem reownFaults_rest (x : Context) (b c : Nat) (k : Course) :
    reownFaults x b c k = { x with faults := (reownFaults x b c k).faults } := by
  have one (x : Context) (i : Nat) : reownAt b c k x i = { x with faults := (reownAt b c k x i).faults } := by
    unfold reownAt
    split <;> rfl
  have both : reownFaults x b c k = reownAt b c k (reownAt b c k x 0) 1 := rfl
  rw [both, one _ 1, one _ 0]

theorem reownFaults_foldl (b : Nat) : ∀ (l : List (Nat × Course)) (x : Context),
    l.foldl (fun y e => reownFaults y b e.1 e.2) x = { x with faults := (l.foldl (fun y e => reownFaults y b e.1 e.2) x).faults }
  | [], _ => rfl
  | e :: l, x => by
    rw [List.foldl_cons, reownFaults_foldl b l, reownFaults_rest]

/-! ### A saved block is placed (R379) -/

/-- The machine before the block stands on core `m`: its launch holds no longer, its context holds cores, and the pipe decodes. -/
def placeReady (s : State) (x : Context) (g : SavedBlock) (i : Image) (j : Job) (m : Nat) : State :=
  holdPipe (stopHolding (holdCores { s with fresh := s.fresh + 64 } x.asid) g.job j) m (imageCycles i j.words)

/-- The block as it stands on core `m`. -/
def placedBlock (s : State) (g : SavedBlock) (i : Image) (j : Job) (m : Nat) : Block :=
  { i.block with
    core := m, startCycle := (getCluster s (coreCluster m)).cycles, lastProgress := s.now - g.idle, placedAt := s.now,
    alone := !undeclared j && outright s j (coreCluster m) }

/-- Its courses. -/
def placedCourses (s : State) (x : Context) (g : SavedBlock) (i : Image) (j : Job) (m : Nat) : List (Nat × Course) :=
  (List.range i.block.courses).map (fun c => (c, placedCourse s x g j i m c))

/-- The block and its courses are in the tables. -/
def placeTables (s : State) (x : Context) (g : SavedBlock) (i : Image) (j : Job) (m : Nat) : State :=
  (placedCourses s x g i j m).foldl (fun t e => setCourse t s.nextId e.1 e.2)
    (setBlock { s with nextId := s.nextId + 1 } s.nextId (placedBlock { s with nextId := s.nextId + 1 } g i j m))

/-- The context runs, without that saved block. -/
def restoredContext (y : Context) (b : Nat) (ks : List (Nat × Course)) (g : SavedBlock) : Context :=
  ks.foldl (fun y e => reownFaults y b e.1 e.2) { y with state := .running, saved := y.saved.filter (fun h => h.ordinal ≠ g.ordinal) }

/-- The context is told. -/
def restoreCtx (s : State) (a : BitVec 16) (b : Nat) (ks : List (Nat × Course)) (g : SavedBlock) : State :=
  match getCtx s a with
  | some y => setCtx s a (restoredContext y b ks g)
  | none => s

section

variable {x : Context} {g : SavedBlock} {i : Image} {j : Job} {m : Nat}

/-- No course of the image waits for a command of its own. -/
theorem endedWaits_none (free : ∀ e ∈ i.courses, ∀ p, e.2.path0 = some p ∨ e.2.path1 = some p → ∀ id, p.park ≠ .continuation id) :
    endedWaits i = [] := by
  unfold endedWaits
  refine List.flatMap_eq_nil_iff.2 fun e member => ?_
  rw [List.map_eq_nil_iff, List.filter_eq_nil_iff]
  intro slot _ waits
  split at waits
  · next n found =>
    obtain ⟨p, path, park⟩ := Option.map_eq_some_iff.1 found
    exact free e member p (path_cases path) n park
  · cases waits

theorem placeImage_eq (s : State) (cmds : i.cmds = []) (kill : i.kill = []) (ended : endedWaits i = []) : placeImage s x g i j m =
    let u := placeReady s x g i j m
    let ks := placedCourses u x g i j m
    ks.foldl (fun s e => refillSlots s u.nextId e.1 0 false) (acquire (restoreCtx
      (ks.foldl (fun s e => updCourse s u.nextId e.1 (fun k => mapPath k (restoreContinuation []))) (placeTables u x g i j m))
      x.asid u.nextId ks g) m .system true) := by
  unfold placeImage
  rw [cmds, kill, ended]
  rfl

variable (free : ∀ e ∈ i.courses, e.2.depth = 0 ∧ ∀ p, e.2.path0 = some p ∨ e.2.path1 = some p → ∀ id, p.park ≠ .continuation id)

include free

/-- A placed course waits for no command, and has no stack. -/
theorem placedCourse_settled (s : State) (c : Nat) :
    mapPath (placedCourse s x g j i m c) (restoreContinuation []) = placedCourse s x g j i m c ∧ (placedCourse s x g j i m c).depth = 0 := by
  unfold placedCourse
  split
  · next k found =>
    obtain ⟨depth, parks⟩ := free (c, k) (find?_mem found)
    have same (slot : Nat) (o : Option Path) (waits : ∀ p, o = some p → ∀ id, p.park ≠ .continuation id) :
        (o.map (restorePath x g c slot)).map (restoreContinuation []) = o.map (restorePath x g c slot) := by
      cases o with
      | none => rfl
      | some p => exact congrArg some (restoreContinuation_free (restorePath_park (waits p rfl)) [])
    refine ⟨?_, depth⟩
    unfold mapPath
    dsimp only
    rw [same 0 k.path0 fun p path => parks p (.inl path), same 1 k.path1 fun p path => parks p (.inr path)]
  · exact ⟨rfl, rfl⟩

omit free in
theorem getCourse_placeTables (u : State) {c : Nat} (low : c < i.block.courses) :
    getCourse (placeTables u x g i j m) u.nextId c = some (placedCourse u x g j i m c) :=
  (getCourse_setCourses u.nextId (fun c => placedCourse u x g j i m c) (List.range i.block.courses) _ c).trans
    (if_pos (List.mem_range.2 low))

omit free in
theorem mem_placedCourses {u : State} {e : Nat × Course} (member : e ∈ placedCourses u x g i j m) : e.1 < i.block.courses := by
  obtain ⟨c, low, rfl⟩ := List.mem_map.1 member
  exact List.mem_range.1 low

/-- What the courses of a placed block would go on from leaves them as they stand. -/
theorem placeTables_kept (u : State) : CoursesKept (placeTables u x g i j m) ((placedCourses u x g i j m).foldl
    (fun s e => updCourse s u.nextId e.1 (fun k => mapPath k (restoreContinuation []))) (placeTables u x g i j m)) := by
  refine CoursesKept.foldl fun v kept e member => updCourse_kept fun k course => ?_
  rw [kept.same, getCourse_placeTables u (mem_placedCourses member)] at course
  cases course
  exact (placedCourse_settled free u e.1).1

/-- Their empty stacks refill nothing. -/
theorem refill_kept (u : State) {v : State} (same : ∀ c, getCourse v u.nextId c = getCourse (placeTables u x g i j m) u.nextId c) :
    CoursesKept v ((placedCourses u x g i j m).foldl (fun s e => refillSlots s u.nextId e.1 0 false) v) := by
  refine CoursesKept.foldl fun w kept e member => refillSlots_kept (fun k course => ?_) ..
  rw [kept.same, same, getCourse_placeTables u (mem_placedCourses member)] at course
  cases course
  exact (placedCourse_settled free u e.1).2

end

theorem holdCores_ctx {s : State} {a : BitVec 16} {x : Context} (ctx : getCtx s a = some x) :
    ∃ h, getCtx (holdCores s a) a = some { x with heldSince := h } := by
  unfold holdCores
  rw [ctx]
  dsimp only
  split
  · exact ⟨x.heldSince, ctx⟩
  · exact ⟨_, getCtx_setCtx_self ..⟩

theorem holdCores_rest (s : State) (a : BitVec 16) : holdCores s a = { s with contexts := (holdCores s a).contexts } := by
  unfold holdCores
  split
  · split <;> rfl
  · rfl

/-- A saved block that nothing holds up stands on its core, and its context runs (R237, R303, R379). -/
structure Placed (s t : State) (a : BitVec 16) (x : Context) (g : SavedBlock) (i : Image) (j : Job) (m : Nat) (y : Context) (z : Block) :
    Prop where
  context : getCtx t a = some y ∧ y.state = .running ∧ y.saved = x.saved.filter (fun h => h.ordinal ≠ g.ordinal) ∧ y.restored = x.restored
  launch : getJob t g.job = some { j with holding := false, firstSince := none }
  block : getBlock t s.nextId = some z
  fields : z.core = m ∧ z.localMem = i.block.localMem ∧ z.bank0 = i.block.bank0 ∧ z.bank1 = i.block.bank1 ∧
    z.barriers = i.block.barriers ∧ z.step = i.block.step
  courses : ∀ c k, c < i.block.courses → find? i.courses c = some k → ∃ n, getCourse t s.nextId c = some { k with
    slot := n, path0 := k.path0.map (restorePath x g c 0), path1 := k.path1.map (restorePath x g c 1) }

theorem placeImage_placed {s : State} {a : BitVec 16} {x : Context} {g : SavedBlock} {i : Image} {j : Job} {m : Nat}
    (ctx : getCtx s a = some x) (own : x.asid = a) (cmds : i.cmds = []) (kill : i.kill = [])
    (free : ∀ e ∈ i.courses, e.2.depth = 0 ∧ ∀ p, e.2.path0 = some p ∨ e.2.path1 = some p → ∀ id, p.park ≠ .continuation id) :
    ∃ y z, Placed s (placeImage s x g i j m) a x g i j m y z := by
  subst own
  have eq := placeImage_eq (x := x) (g := g) (j := j) (m := m) s cmds kill (endedWaits_none fun e member => (free e member).2)
  have held := holdCores_rest { s with fresh := s.fresh + 64 } x.asid
  obtain ⟨h, ready⟩ := holdCores_ctx (s := { s with fresh := s.fresh + 64 }) ctx
  have nextId : (placeReady s x g i j m).nextId = s.nextId := (congrArg State.nextId held :)
  have readyCtx : getCtx (placeReady s x g i j m) x.asid = some { x with heldSince := h } := ready
  have readyJob : getJob (placeReady s x g i j m) g.job = some { j with holding := false, firstSince := none } :=
    getJob_setJob_self ..
  rw [eq]
  generalize placeReady s x g i j m = u at nextId readyCtx readyJob
  dsimp only
  have kept := placeTables_kept (x := x) (g := g) (j := j) (m := m) free u
  have only : placeTables u x g i j m = { setBlock { u with nextId := u.nextId + 1 } u.nextId
      (placedBlock { u with nextId := u.nextId + 1 } g i j m) with courses := (placeTables u x g i j m).courses } :=
    setCourses_rest u.nextId (placedCourses u x g i j m) _
  generalize (placedCourses u x g i j m).foldl
    (fun s e => updCourse s u.nextId e.1 (fun k => mapPath k (restoreContinuation []))) (placeTables u x g i j m) = w at kept
  have same : w = { setBlock { u with nextId := u.nextId + 1 } u.nextId
      (placedBlock { u with nextId := u.nextId + 1 } g i j m) with courses := w.courses } := by rw [kept.only, only]
  have told : restoreCtx w x.asid u.nextId (placedCourses u x g i j m) g =
      setCtx w x.asid (restoredContext { x with heldSince := h } u.nextId (placedCourses u x g i j m) g) := by
    have found : getCtx w x.asid = some { x with heldSince := h } := by rw [same]; exact readyCtx
    unfold restoreCtx
    rw [found]
  rw [told]
  generalize placedY : restoredContext { x with heldSince := h } u.nextId (placedCourses u x g i j m) g = y
  have acquired := acquire_onlyMemory (setCtx w x.asid y) m .system true
  have refilled := refill_kept (x := x) (g := g) (j := j) (m := m) free u (v := acquire (setCtx w x.asid y) m .system true)
    fun c => (acquired.getCourse u.nextId c).trans (kept.same u.nextId c)
  generalize acquire (setCtx w x.asid y) m .system true = q at acquired refilled
  generalize (placedCourses u x g i j m).foldl (fun s e => refillSlots s u.nextId e.1 0 false) q = t at refilled
  have rest := reownFaults_foldl u.nextId (placedCourses u x g i j m)
    { x with heldSince := h, state := .running, saved := x.saved.filter (fun h => h.ordinal ≠ g.ordinal) }
  replace placedY : y = _ := placedY.symm.trans rest
  refine ⟨y, placedBlock { u with nextId := u.nextId + 1 } g i j m, ?_⟩
  have contexts : t.contexts = (setCtx w x.asid y).contexts := (congrArg State.contexts refilled.only).trans acquired.contexts
  have jobs : t.jobs = w.jobs := (congrArg State.jobs refilled.only).trans acquired.jobs
  have blocks : t.blocks = w.blocks := (congrArg State.blocks refilled.only).trans acquired.blocks
  rw [same] at jobs blocks
  refine ⟨⟨(congrArg (find? · x.asid.toNat) contexts).trans (getCtx_setCtx_self ..), ?_, ?_, ?_⟩,
    (congrArg (find? · g.job) jobs).trans readyJob, ?_, ⟨rfl, rfl, rfl, rfl, rfl, rfl⟩, fun c k low found => ?_⟩
  · rw [placedY]
  · rw [placedY]
  · rw [placedY]
  · rw [← nextId]
    exact (congrArg (find? · u.nextId) blocks).trans (getBlock_setBlock_self ..)
  · refine ⟨residentSlot u m c (slotsBefore i c), ?_⟩
    rw [← nextId, refilled.same, acquired.getCourse]
    refine (kept.same u.nextId c).trans ((getCourse_placeTables u low).trans ?_)
    unfold placedCourse
    rw [found]

end Sys2Proof.Machine

/-!
SUPPORT and PROOF. Saves and restores (R355, R375 to R379, R384).
-/

namespace Sys2Proof.Machine

/-! ### RESTORE (R379, R384) -/

/-- A saved context with no block left to place. -/
def IdleSaved (x : Context) : Prop := x.state = .saved ∧ x.hostSaved = false ∧ x.saved = []

theorem idleSaved_iff (x : Context) : (decide (x.state = .saved) && !x.hostSaved && x.saved.isEmpty) = true ↔ IdleSaved x := by
  rw [Bool.and_eq_true, Bool.and_eq_true, decide_eq_true_eq, Bool.not_eq_true', List.isEmpty_iff, and_assoc]
  rfl

section

variable {s : State} {a : BitVec 16} {x : Context} (ctx : getCtx s a = some x)

include ctx

theorem exec_restoreBlocks_some {t : State} (restores : restoreNow s x = some t) : exec (.restoreBlocks a) s = .next t := by
  show execRestoreBlocks a s = _
  unfold execRestoreBlocks
  rw [ctx]
  dsimp only
  rw [restores, Option.getD_some]

theorem exec_restoreBlocks_none (none : restoreNow s x = none) : exec (.restoreBlocks a) s = .next s := by
  show execRestoreBlocks a s = _
  unfold execRestoreBlocks
  rw [ctx]
  dsimp only
  rw [none, Option.getD_none]

theorem noteRestore_eq (n : Nat) (bad : Bool) :
    noteRestore (touchRubbing s x) a n bad = setCtx (touchRubbing s x) a { x with restored := some (n, bad) } := by
  have same : getCtx (touchRubbing s x) a = some x := (congrArg (find? · a.toNat) (touchRubbing_onlyMemory s x).contexts).trans ctx
  unfold noteRestore
  rw [same]

variable (own : x.asid = a)

include own

/-- A rubbing that cannot be read loses the context. -/
theorem restoreNow_unread (begins : IdleSaved x ∨ savedLaunches s x ≠ []) {e : RubFault}
    (bad : readRubbing (touchRubbing s x) x = .error e) :
    restoreNow s x = some (restoreFault (setCtx (touchRubbing s x) a { x with restored := some (0, true) }) a e.detail e.chunk) := by
  subst own
  rw [← noteRestore_eq ctx]
  unfold restoreNow
  refine (if_neg fun none => ?_).trans (by dsimp only; rw [bad])
  rw [Bool.and_eq_true, Bool.not_eq_true', ← Bool.not_eq_true, List.isEmpty_iff] at none
  exact begins.elim (fun idle => none.1 ((idleSaved_iff x).2 idle)) fun some => some none.2

/-- A saved context with no block left runs again. -/
theorem restoreNow_idle (idle : IdleSaved x) {l : List (SavedBlock × Image)} (good : readRubbing (touchRubbing s x) x = .ok l) :
    restoreNow s x = some (setCtx (setCtx (touchRubbing s x) a { x with restored := some (rubbingChunks (touchRubbing s x) x, false) }) a
      { x with restored := some (rubbingChunks (touchRubbing s x) x, false), state := .running }) := by
  subst own
  have holds := (idleSaved_iff x).2 idle
  unfold restoreNow
  refine (if_neg fun none => ?_).trans ?_
  · rw [holds] at none
    exact Bool.false_ne_true none
  · dsimp only
    rw [good]
    refine (if_pos holds).trans ?_
    rw [noteRestore_eq ctx, getCtx_setCtx_self]
    rfl

/-- The first launch with one saved block to place has it placed. -/
theorem restoreNow_places {id : Nat} {j : Job} {q : List (Nat × Job)} {g : SavedBlock} {i : Image} {j' : Job} {m : Nat}
    {l : List (SavedBlock × Image)} (left : x.saved ≠ []) (launches : savedLaunches s x = (id, j) :: q)
    (next : savedNext (setCtx (touchRubbing s x) a { x with restored := some (rubbingChunks (touchRubbing s x) x, false) }) id j = [g])
    (good : readRubbing (touchRubbing s x) x = .ok l) (image : l.filter (fun e => e.1.ordinal = g.ordinal) = [(g, i)])
    (launch : getJob s g.job = some j')
    (room : chooseCore (setCtx (touchRubbing s x) a { x with restored := some (rubbingChunks (touchRubbing s x) x, false) }) j' = some m) :
    restoreNow s x = some (placeImage (setCtx (touchRubbing s x) a
      { x with restored := some (rubbingChunks (touchRubbing s x) x, false) })
      { x with restored := some (rubbingChunks (touchRubbing s x) x, false) } g i j' m) := by
  subst own
  have idle : ¬ (decide (x.state = .saved) && !x.hostSaved && x.saved.isEmpty) = true := fun idle => left ((idleSaved_iff x).1 idle).2.2
  have job : getJob (touchRubbing s x) g.job = some j' := (congrArg (find? · g.job) (touchRubbing_onlyMemory s x).jobs).trans launch
  unfold restoreNow
  refine (if_neg fun none => ?_).trans ?_
  · rw [launches] at none
    simp at none
  · dsimp only
    rw [good]
    refine (if_neg idle).trans ?_
    rw [noteRestore_eq ctx, launches, List.findSome?_cons, next]
    have mine : l.filter (fun e => [g].any (fun h => decide (h.ordinal = e.1.ordinal))) = [(g, i)] := by
      rw [← image]
      exact List.filter_congr fun e _ => by simp [eq_comm]
    rw [mine]
    have placed : placeImages (setCtx (touchRubbing s x) x.asid { x with restored := some (rubbingChunks (touchRubbing s x) x, false) }) x.asid
        [(g, i)] = some (placeImage (setCtx (touchRubbing s x) x.asid
          { x with restored := some (rubbingChunks (touchRubbing s x) x, false) })
          { x with restored := some (rubbingChunks (touchRubbing s x) x, false) } g i j' m) := by
      unfold placeImages
      rw [getCtx_setCtx_self, getJob_setCtx, job]
      dsimp only
      rw [room]
      rfl
    rw [placed]

end

/-! ### The events of a save (R376, R377) -/

section

variable {s : State} {a : BitVec 16} {x : Context} (ctx : getCtx s a = some x)

include ctx

theorem exec_timeSliceExpiry : exec (.timeSliceExpiry a) s = .next (
    if sliceOver s x then startSave s x false
    else if !rivalled s x then setCtx s a { x with rivalSince := none }
    else if x.rivalSince.isNone then setCtx s a { x with rivalSince := some s.now } else s) := by
  show execTimeSliceExpiry a s = _
  unfold execTimeSliceExpiry
  rw [ctx]

theorem exec_preempt : exec (.preempt a) s =
    .next (if (preemptNow s x.part).map (·.asid) = some a then startSave s x false else s) := by
  show execPreempt a s = _
  unfold execPreempt
  rw [ctx]

theorem exec_saveDeadline : exec (.saveDeadline a) s =
    .next (if x.state = .saving then stopPaths s a (decide (saveLimit s x ≤ s.now)) else s) := by
  show execSaveDeadline a s = _
  unfold execSaveDeadline
  rw [ctx]

theorem exec_saveDone : exec (.saveDone a) s = .next (if saveReady s x then finishSave s x else s) := by
  show execSaveDone a s = _
  unfold execSaveDone
  rw [ctx]

end

theorem saving_of_saveReady {s : State} {x : Context} (ready : saveReady s x = true) : x.state = .saving := by
  unfold saveReady at ready
  simp only [Bool.and_eq_true, beq_iff_eq] at ready
  exact ready.1.1.1

/-- Settles O54: a save stops quiet paths as `stopPaths_saves` says, its end writes memory alone before the blocks leave, and a
restored block stands as `placeImage_placed` says. -/
theorem savesGiveCoresUpAndTakeThemBack : Obligations.SavesGiveCoresUpAndTakeThemBack := by
  unfold Obligations.SavesGiveCoresUpAndTakeThemBack
  intro s a x ctx own
  refine ⟨?begin_, fun other => ?_, fun saving quiet => ?_, fun early => ?_, fun ready => ?done, fun none => ?_, ?restore⟩
  case begin_ =>
    intro begins
    have starts {i : Instr} (runs : exec i s = .next (startSave s x false)) (quiet : QuietContext s a) : begins i :=
      ⟨_, runs, startSave_saves own quiet false⟩
    refine ⟨fun over_ => (exec_timeSliceExpiry ctx).trans (congrArg Host.Outcome.next ?_),
      fun over_ quiet => starts ((exec_timeSliceExpiry ctx).trans (congrArg Host.Outcome.next (if_pos over_))) quiet,
      fun other => (exec_preempt ctx).trans (congrArg Host.Outcome.next (if_neg other)),
      fun chosen quiet => starts ((exec_preempt ctx).trans (congrArg Host.Outcome.next (if_pos chosen))) quiet⟩
    rw [over_, if_neg Bool.false_ne_true]
    simp only [Bool.not_eq_true', Option.isNone_iff_eq_none]
  · exact (exec_saveDeadline ctx).trans (congrArg Host.Outcome.next (if_neg other))
  · obtain ⟨saves, contexts⟩ := stopPaths_saves quiet (decide (saveLimit s x ≤ s.now))
    exact ⟨_, (exec_saveDeadline ctx).trans (congrArg Host.Outcome.next (if_pos saving)),
      (congrArg (find? · a.toNat) contexts).trans ctx, saves⟩
  · exact (exec_saveDone ctx).trans (congrArg Host.Outcome.next (if_neg (by simp [early])))
  case done =>
    intro s1 lost
    have live : x.state ≠ .removed := fun gone => CtxState.noConfusion (gone.symm.trans (saving_of_saveReady ready))
    have runs := (exec_saveDone ctx).trans (congrArg Host.Outcome.next (if_pos ready))
    have loses (gone : Removes s (finishSave s x) a (removedContext x)) : lost := ⟨_, _, runs, gone.context, rfl, gone.courses⟩
    refine ⟨fun e bad => loses (finishSave_unread own ctx live bad), fun l good => ?_⟩
    intro w
    have memory : OnlyMemory s w.2 := (saveEncoded_onlyMemory s a x).trans (writeRubbing_onlyMemory ..)
    have wrote : writeRubbing (saveEncoded s a x) x
      (l.map (fun e => (e.2, ((getJob (saveEncoded s a x) e.1.job).map (·.words)).getD []))) = w := rfl
    clear_value w
    refine ⟨fun n stops => loses (finishSave_unwritten own ctx live good (wrote ▸ stops)), fun whole => ?_⟩
    obtain ⟨gone, others, dev, hostMem⟩ := freeCores_gone w.2 a
    have now : w.2.now = s.now := by rw [memory]
    have saved := runs.trans (congrArg Host.Outcome.next (finishSave_saved own good wrote whole))
    generalize freeCores w.2 a = t at gone others dev hostMem saved
    refine ⟨_, _, saved, getCtx_setCtx_self .., rfl, now, rfl, gone,
      fun b others' => (others b fun e member => others' e ?_).trans (memory.getBlock b), dev, hostMem⟩
    rwa [memory.blocks] at member
  · exact exec_restoreBlocks_none ctx none
  case restore =>
    intro u idle x'
    refine ⟨fun begins e bad live => ?_, fun idle l good => ?_, ?_⟩
    · have memory := touchRubbing_onlyMemory s x
      have gone := restoreFault_removes (s := setCtx u a { x with restored := some (0, true) }) (getCtx_setCtx_self ..) own live e.detail e.chunk
      refine ⟨_, _, exec_restoreBlocks_some ctx (restoreNow_unread ctx own begins bad), gone.context, rfl,
        (gone.of_sameBlocks (u := setCtx u a { x with restored := some (0, true) }) memory.courses memory.blocks).courses⟩
    · exact exec_restoreBlocks_some ctx (restoreNow_idle ctx own idle good)
    · intro id j q g i j' m l left launches next good image launch room cmds kill free
      obtain ⟨y, z, placed⟩ := placeImage_placed (s := setCtx u a x') (g := g) (j := j') (m := m) (getCtx_setCtx_self ..)
        (show x'.asid = a from own) cmds kill free
      have nextId : (setCtx u a x').nextId = s.nextId := by
        show (touchRubbing s x).nextId = s.nextId
        rw [touchRubbing_homeOnly s x]
      obtain ⟨⟨context, running, saved, restored⟩, job, block, fields, courses⟩ := placed
      rw [nextId] at block courses
      refine ⟨_, y, z, exec_restoreBlocks_some ctx
        (restoreNow_places ctx own left launches next good image launch room), context, running, saved, restored, job, block, ?_⟩
      obtain ⟨core, localMem, bank0, bank1, barriers, step⟩ := fields
      exact ⟨core, localMem, bank0, bank1, barriers, step, courses⟩

end Sys2Proof.Machine
